-- ==== Sys2Proof/Word.lean ====
section
/-! DEFINITION. The word types of the module (spec/02_numbers.md R20; spec/06_encoding.md). -/

namespace Sys2Proof

/-- One byte; memory and the cisterns are byte-addressed. -/
abbrev Byte := BitVec 8
/-- The width of an element's scalar registers (R111). -/
abbrev W32 := BitVec 32
/-- The width of a pump register and of an instruction word (R88, R96). -/
abbrev W64 := BitVec 64
/-- A vector register or a data-plane token (R20). -/
abbrev V256 := BitVec 256
/-- An accumulator (R133). -/
abbrev A512 := BitVec 512

end Sys2Proof
end

