-- ==== Sys2Proof/Syntax.lean ====
section
/-! DEFINITION. The instructions of the module, one constructor for each row of the opcode table
(spec/opcode_table.json), and the operands they hold. -/

namespace Sys2Proof

/-- A source operand code of R91.  A caret on an input channel is its DEQ flag (R75). -/
inductive Src where
  | x (n : Fin 16)
  | v (n : Fin 8)
  | acc (n : Fin 4)
  | zero
  | lane
  | coord
  | stage
  | chan (n : Fin 16) (deq : Bool)
  | w (n : Fin 16)
  deriving DecidableEq, Repr

/-- A destination operand code of R91; `discard` is code 28. -/
inductive Dst where
  | x (n : Fin 16)
  | v (n : Fin 8)
  | acc (n : Fin 4)
  | discard
  | out (n : Fin 16)
  | w (n : Fin 16)
  deriving DecidableEq, Repr

/-- The predicate-update operations of R76. -/
inductive PredOp where
  | set | clear | load | toggle
  deriving DecidableEq, Repr

/-- A predicate update (PUPD): operation and predicate. -/
structure Upd where
  op : PredOp
  id : Fin 8
  deriving DecidableEq, Repr

/-- The guard and predicate-update fields of an element slot (R88). -/
structure Guard where
  pcare : BitVec 8
  pval  : BitVec 8
  qtest : Option (Bool × Fin 16)
  htag  : Option (Fin 4)
  upd   : Option Upd
  deriving DecidableEq, Repr

/-- The format codes of R26. -/
inductive Fmt where
  | fp32 | bf16 | fp16 | e4m3 | e5m2 | e3m2 | e2m3 | e2m1 | int8 | int4 | ix4 | e8m0 | int32
  deriving DecidableEq, Repr

/-- The rounding codes of R26. -/
inductive Rnd where
  | rne | rtz | rdn | rup | srk
  deriving DecidableEq, Repr

/-- The relations of CMP (R95). -/
inductive Rel where
  | eq | ne | lt | le | gt | ge
  deriving DecidableEq, Repr

/-- The operations of PLOG (R95). -/
inductive LogicOp where
  | and | or | xor | andn | nand | nor | xnor | orn
  deriving DecidableEq, Repr

/-- The kinds of VRED (R141). -/
inductive RedKind where
  | sum | min | max
  deriving DecidableEq, Repr

/-- The lane widths of VSEL, VSH, VSHUF and CTURN (R100). -/
inductive LaneW where
  | w8 | w16 | w32
  deriving DecidableEq, Repr

/-- The selector tests of VSEL (R143). -/
inductive VTest where
  | lt | eq | gt | un
  deriving DecidableEq, Repr

/-- The operations of VLOG (R144). -/
inductive VLogOp where
  | and | or | xor | andn | not
  deriving DecidableEq, Repr

/-- The shifts of VSH (R144). -/
inductive ShOp where
  | shl | shr | sra | rot
  deriving DecidableEq, Repr

/-- The access widths of element LD, ST, CLD and CST (R101). -/
inductive MemW where
  | b4 | b2 | b1
  deriving DecidableEq, Repr

/-- The operations of ATOM (R181). -/
inductive AtomOp where
  | add | min | max | and | or | xor | count | xadd
  deriving DecidableEq, Repr

/-- The widths of a pump operation (R97). -/
inductive PumpW where
  | w64 | w32 | w16 | w8
  deriving DecidableEq, Repr

/-- A pump register g0 to g63 (R96). -/
abbrev Reg := Fin 64

/-- Operand B of a pump scalar operation: a register, or the immediate IMM24 (R97). -/
inductive PSrc where
  | reg (n : Reg)
  | imm (v : BitVec 24)
  deriving DecidableEq, Repr

/-- The skip predicate of a pump body instruction (R96): negate and id. -/
structure Skip where
  pred : Option (Bool × Fin 32)
  deriving DecidableEq, Repr

/-- The scopes of a fence (R224). -/
inductive Scope where
  | element | tile | region | die | module | domain
  deriving DecidableEq, Repr

/-- Where a mark is aligned: at an element, or at an island (R57, R199). -/
inductive MarkSite where
  | elem (t e : Nat)
  | island (en : Nat)
  deriving DecidableEq, Repr

/-- Who writes a tail (R269). -/
inductive TailSource where
  | host
  | module (m : Nat)
  deriving DecidableEq, Repr

/-- The atomic operations a Griral flit may carry (R220, R221). -/
inductive RemoteOp where
  | cas | swap | add | min | max | and | or | xadd
  deriving DecidableEq, Repr

/-- The traffic of a Griral flit (R340). -/
inductive FlitBody where
  | load (pa len id : Nat)
  | loadReply (id : Nat) (data : List Byte) (fault : Nat)
  | store (pa : Nat) (data : List Byte)
  | atomic (op : RemoteOp) (natural : Bool) (pa len id : Nat) (operand expected : W64)
  | waitv (pa id : Nat)
  | tail (q : Nat) (index : W64)
  | arrival (ctx bar : Nat)
  | completion (ctx bar by_ count : Nat)
  deriving DecidableEq, Repr

/-- A flit between modules of the load-store domain (R340). -/
structure Flit where
  src  : Nat
  dst  : Nat
  body : FlitBody
  deriving DecidableEq, Repr

/-- A UDP datagram of an ingest port, as its frame is read (R341). -/
structure Datagram where
  dstPort     : Nat
  fragment    : Bool
  badChecksum : Bool
  payload     : List Byte
  deriving DecidableEq, Repr

/-- What the boot steps of R393 find: the signed firmware and key list, and the training results. -/
structure BootInput where
  firmware    : List Byte
  firmwareSig : List Byte
  keyList     : List Byte
  keyListSig  : List Byte
  keys        : List (Nat × Nat)
  nearTrains  : Bool
  farTrains   : Bool
  deriving DecidableEq, Repr

/-- An SPDM request on the management interface (R395). -/
structure SpdmRequest where
  param1 : Nat
  param2 : Nat
  data   : List Byte
  deriving DecidableEq, Repr

/-- An uncorrectable read found by a tier's controller (R385): where, for whom, and how the retry ends. -/
structure MemError where
  pa      : Nat
  deep    : Bool
  walk    : Bool
  retryOk : Bool
  ctx     : Nat
  va      : W64
  deriving DecidableEq, Repr

/-- What a storage error is found in, apart from memory (R384): nothing, for the fault of a request; the head of an
input channel; a granule of a cistern; a store buffer entry; an undo log; a snapshot; a shadow slot; and, dropped and
fetched again, an entry of an element's TLB, of a die's TLB, or of a pump core's TLB or data cache. -/
inductive StoreFault where
  | none | fifo | cistern | buffer | undo | snapshot | shadow | elemTlb | dieTlb | coreTlb | dataCache
  deriving DecidableEq, Repr

/-- Where an illegal word is met (R104, R105). -/
inductive IllegalAt where
  | element (t e plane slot : Nat)
  | pump (core rule : Nat)
  deriving DecidableEq, Repr

/-- Every row of spec/opcode_table.json: the element instructions of formats E and EI, the pump body
instructions of format P, and the steps the hardware takes by itself, which carry no encoding. -/
inductive Instr where
  | add (g : Guard) (d : Dst) (a : Src) (b : Src)
  | sub (g : Guard) (d : Dst) (a : Src) (b : Src)
  | mul (g : Guard) (d : Dst) (a : Src) (b : Src)
  | mulh (g : Guard) (d : Dst) (a : Src) (b : Src)
  | mulhn (g : Guard) (d : Dst) (a : Src) (b : Src)
  | adds (g : Guard) (n : Bool) (d : Dst) (a : Src) (b : Src)
  | subs (g : Guard) (n : Bool) (d : Dst) (a : Src) (b : Src)
  | and (g : Guard) (d : Dst) (a : Src) (b : Src)
  | or (g : Guard) (d : Dst) (a : Src) (b : Src)
  | xor (g : Guard) (d : Dst) (a : Src) (b : Src)
  | andn (g : Guard) (d : Dst) (a : Src) (b : Src)
  | shl (g : Guard) (d : Dst) (a : Src) (b : Src)
  | shr (g : Guard) (d : Dst) (a : Src) (b : Src)
  | sra (g : Guard) (d : Dst) (a : Src) (b : Src)
  | rot (g : Guard) (d : Dst) (a : Src) (b : Src)
  | min (g : Guard) (d : Dst) (a : Src) (b : Src)
  | max (g : Guard) (d : Dst) (a : Src) (b : Src)
  | minn (g : Guard) (d : Dst) (a : Src) (b : Src)
  | maxn (g : Guard) (d : Dst) (a : Src) (b : Src)
  | cmp (g : Guard) (rel : Rel) (n : Bool) (d : Dst) (a : Src) (b : Src)
  | tst (g : Guard) (none1 : Bool) (d : Dst) (a : Src) (b : Src)
  | sel (g : Guard) (pid : Fin 8) (d : Dst) (a : Src) (b : Src)
  | clz (g : Guard) (d : Dst) (a : Src)
  | popc (g : Guard) (d : Dst) (a : Src)
  | bfx (g : Guard) (n : Bool) (d : Dst) (a : Src) (b : Src)
  | bfi (g : Guard) (d : Dst) (a : Src) (b : Src)
  | mov (g : Guard) (d : Dst) (a : Src)
  | pset (g : Guard) (a : Src)
  | plog (g : Guard) (lop : LogicOp) (pj : Fin 8) (pk : Fin 8)
  | cnt (g : Guard) (n : Bool) (d : Dst) (a : Src) (b : Src)
  | qset (g : Guard) (q : Fin 16) (a : Src)
  | addImm (g : Guard) (d : Dst) (a : Src) (imm : BitVec 12)
  | subImm (g : Guard) (d : Dst) (a : Src) (imm : BitVec 12)
  | mulImm (g : Guard) (d : Dst) (a : Src) (imm : BitVec 12)
  | mulhImm (g : Guard) (d : Dst) (a : Src) (imm : BitVec 12)
  | mulhnImm (g : Guard) (d : Dst) (a : Src) (imm : BitVec 12)
  | addsImm (g : Guard) (d : Dst) (a : Src) (imm : BitVec 12)
  | subsImm (g : Guard) (d : Dst) (a : Src) (imm : BitVec 12)
  | andImm (g : Guard) (d : Dst) (a : Src) (imm : BitVec 12)
  | orImm (g : Guard) (d : Dst) (a : Src) (imm : BitVec 12)
  | xorImm (g : Guard) (d : Dst) (a : Src) (imm : BitVec 12)
  | andnImm (g : Guard) (d : Dst) (a : Src) (imm : BitVec 12)
  | shlImm (g : Guard) (d : Dst) (a : Src) (imm : BitVec 12)
  | shrImm (g : Guard) (d : Dst) (a : Src) (imm : BitVec 12)
  | sraImm (g : Guard) (d : Dst) (a : Src) (imm : BitVec 12)
  | rotImm (g : Guard) (d : Dst) (a : Src) (imm : BitVec 12)
  | minImm (g : Guard) (d : Dst) (a : Src) (imm : BitVec 12)
  | maxImm (g : Guard) (d : Dst) (a : Src) (imm : BitVec 12)
  | minnImm (g : Guard) (d : Dst) (a : Src) (imm : BitVec 12)
  | maxnImm (g : Guard) (d : Dst) (a : Src) (imm : BitVec 12)
  | movi (g : Guard) (d : Dst) (imm : BitVec 12)
  | cntImm (g : Guard) (d : Dst) (a : Src) (imm : BitVec 12)
  | movs (g : Guard) (d : Dst) (imm : BitVec 12)
  | nop (g : Guard)
  | halt (g : Guard)
  | trap (g : Guard) (a : Src)
  | plane (g : Guard) (k4 : Fin 4)
  | chgq (g : Guard) (d : Dst)
  | vadd (g : Guard) (fmt : Fmt) (d : Dst) (a : Src) (b : Src)
  | vsub (g : Guard) (fmt : Fmt) (d : Dst) (a : Src) (b : Src)
  | vmul (g : Guard) (fmt : Fmt) (d : Dst) (a : Src) (b : Src)
  | vmax (g : Guard) (fmt : Fmt) (d : Dst) (a : Src) (b : Src)
  | vmin (g : Guard) (fmt : Fmt) (d : Dst) (a : Src) (b : Src)
  | vclamp (g : Guard) (fmt : Fmt) (d : Dst) (a : Src) (b : Src)
  | vfma (g : Guard) (fmt : Fmt) (d : Dst) (a : Src) (b : Src)
  | vfms (g : Guard) (fmt : Fmt) (d : Dst) (a : Src) (b : Src)
  | vabs (g : Guard) (fmt : Fmt) (d : Dst) (a : Src)
  | vneg (g : Guard) (fmt : Fmt) (d : Dst) (a : Src)
  | vrcp (g : Guard) (fmt : Fmt) (d : Dst) (a : Src)
  | vrsq (g : Guard) (fmt : Fmt) (d : Dst) (a : Src)
  | vsqrt (g : Guard) (fmt : Fmt) (d : Dst) (a : Src)
  | vexp2 (g : Guard) (fmt : Fmt) (d : Dst) (a : Src)
  | vlog2 (g : Guard) (fmt : Fmt) (d : Dst) (a : Src)
  | vtanh (g : Guard) (fmt : Fmt) (d : Dst) (a : Src)
  | vred (g : Guard) (kind : RedKind) (fmt : Fmt) (d : Dst) (a : Src)
  | vamax (g : Guard) (fmt : Fmt) (d : Dst) (a : Src)
  | vcmp (g : Guard) (fmt : Fmt) (d : Dst) (a : Src) (b : Src)
  | vsel (g : Guard) (lw : LaneW) (vtest : VTest) (d : Dst) (a : Src) (b : Src)
  | vlog (g : Guard) (vlop : VLogOp) (d : Dst) (a : Src) (b : Src)
  | vsh (g : Guard) (lw : LaneW) (shop : ShOp) (d : Dst) (a : Src) (b : Src)
  | vbcst (g : Guard) (fmt : Fmt) (d : Dst) (a : Src)
  | vext (g : Guard) (fmt : Fmt) (d : Dst) (a : Src) (b : Src)
  | vins (g : Guard) (fmt : Fmt) (d : Dst) (a : Src) (b : Src)
  | viota (g : Guard) (fmt : Fmt) (d : Dst) (a : Src) (b : Src)
  | vshuf (g : Guard) (lw : LaneW) (d : Dst) (a : Src) (b : Src)
  | vcvt (g : Guard) (df : Fmt) (sf : Fmt) (rnd : Rnd) (d : Dst) (a : Src)
  | vpack (g : Guard) (df : Fmt) (sf : Fmt) (rnd : Rnd) (d : Dst) (a : Src)
  | vunpk (g : Guard) (df : Fmt) (sf : Fmt) (rnd : Rnd) (d : Dst) (a : Src)
  | vqnt (g : Guard) (df : Fmt) (sf : Fmt) (rnd : Rnd) (d : Dst) (a : Src)
  | vdqnt (g : Guard) (df : Fmt) (sf : Fmt) (rnd : Rnd) (d : Dst) (a : Src)
  | vrng (g : Guard) (rk : Fin 4) (d : Dst) (a : Src) (b : Src)
  | vdrop (g : Guard) (fmt : Fmt) (d : Dst) (a : Src) (b : Src)
  | vacc (g : Guard) (fmt : Fmt) (d : Dst) (a : Src)
  | cturn (g : Guard) (lw : LaneW) (d : Dst) (a : Src)
  | fwd (g : Guard) (d : Dst) (a : Src) (b : Src)
  | deq (g : Guard) (a : Src) (bo : Option Src)
  | steer (g : Guard) (d : Dst) (a : Src) (b : Src)
  | mrgo (g : Guard) (d : Dst) (a : Src) (b : Src)
  | mrga (g : Guard) (d : Dst) (a : Src) (b : Src)
  | tag (g : Guard) (tagv : Fin 3) (d : Dst) (a : Src)
  | markStroke (g : Guard)
  | markDrain (g : Guard)
  | markFreeze (g : Guard)
  | markBarrier (g : Guard) (d : Dst)
  | markCut (g : Guard) (d : Dst) (a : Src)
  | crget (g : Guard) (ring : Fin 8) (d : Dst)
  | crput (g : Guard) (ring : Fin 8) (a : Src)
  | ld (g : Guard) (mw : MemW) (n : Bool) (d : Dst) (a : Src) (b : Src)
  | st (g : Guard) (mw : MemW) (n : Bool) (a : Src) (b : Src)
  | vld (g : Guard) (d : Dst) (a : Src) (b : Src)
  | vst (g : Guard) (a : Src) (b : Src)
  | lds (g : Guard) (d : Dst) (a : Src) (b : Src)
  | stf (g : Guard) (a : Src) (b : Src)
  | ldc (g : Guard) (d : Dst) (a : Src) (b : Src)
  | xlat (g : Guard) (wr : Bool) (d : Dst) (a : Src)
  | agenRearm (g : Guard) (d : Dst) (a : Src)
  | agenStep (g : Guard) (d : Dst)
  | atom (g : Guard) (aop : AtomOp) (n : Bool) (d : Dst) (a : Src) (b : Src)
  | ownapApply (g : Guard) (a : Src)
  | ownapReadout (g : Guard) (d : Dst) (a : Src)
  | cld (g : Guard) (mw : MemW) (n : Bool) (d : Dst) (a : Src)
  | cst (g : Guard) (mw : MemW) (n : Bool) (a : Src) (b : Src)
  | cvld (g : Guard) (d : Dst) (a : Src)
  | cvst (g : Guard) (a : Src) (b : Src)
  | rtake (g : Guard) (d : Dst) (a : Src)
  | mxcfg (g : Guard) (d : Dst) (a : Src)
  | mxstat (g : Guard) (d : Dst) (a : Src)
  | mxldb (g : Guard) (d : Dst) (a : Src) (b : Src)
  | mxrow (g : Guard) (d : Dst) (a : Src) (b : Src)
  | mxacc (g : Guard) (d : Dst) (a : Src) (b : Src)
  | mxdrn (g : Guard) (d : Dst) (a : Src) (b : Src)
  | mxgrp (g : Guard) (d : Dst) (a : Src)
  | sxcpy (g : Guard) (d : Dst) (a : Src)
  | sxgth (g : Guard) (d : Dst) (a : Src)
  | sxsct (g : Guard) (d : Dst) (a : Src)
  | sxdeep (g : Guard) (d : Dst) (a : Src)
  | xpcfg (g : Guard) (d : Dst) (a : Src)
  | wrsrt (g : Guard) (d : Dst) (a : Src)
  | phint (g : Guard) (a : Src) (b : Src)
  | pumpAdd (h : Skip) (w : PumpW) (n : Bool) (rd : Reg) (ra : Reg) (pb : PSrc)
  | pumpSub (h : Skip) (w : PumpW) (n : Bool) (rd : Reg) (ra : Reg) (pb : PSrc)
  | pumpMul (h : Skip) (w : PumpW) (n : Bool) (rd : Reg) (ra : Reg) (pb : PSrc)
  | pumpMulh (h : Skip) (w : PumpW) (rd : Reg) (ra : Reg) (pb : PSrc)
  | pumpMulhn (h : Skip) (w : PumpW) (rd : Reg) (ra : Reg) (pb : PSrc)
  | pumpAdds (h : Skip) (w : PumpW) (n : Bool) (rd : Reg) (ra : Reg) (pb : PSrc)
  | pumpSubs (h : Skip) (w : PumpW) (n : Bool) (rd : Reg) (ra : Reg) (pb : PSrc)
  | pumpAnd (h : Skip) (w : PumpW) (n : Bool) (rd : Reg) (ra : Reg) (pb : PSrc)
  | pumpOr (h : Skip) (w : PumpW) (n : Bool) (rd : Reg) (ra : Reg) (pb : PSrc)
  | pumpXor (h : Skip) (w : PumpW) (n : Bool) (rd : Reg) (ra : Reg) (pb : PSrc)
  | pumpAndn (h : Skip) (w : PumpW) (n : Bool) (rd : Reg) (ra : Reg) (pb : PSrc)
  | pumpShl (h : Skip) (w : PumpW) (n : Bool) (rd : Reg) (ra : Reg) (pb : PSrc)
  | pumpShr (h : Skip) (w : PumpW) (rd : Reg) (ra : Reg) (pb : PSrc)
  | pumpSra (h : Skip) (w : PumpW) (rd : Reg) (ra : Reg) (pb : PSrc)
  | pumpRot (h : Skip) (w : PumpW) (n : Bool) (rd : Reg) (ra : Reg) (pb : PSrc)
  | pumpMin (h : Skip) (w : PumpW) (rd : Reg) (ra : Reg) (pb : PSrc)
  | pumpMax (h : Skip) (w : PumpW) (rd : Reg) (ra : Reg) (pb : PSrc)
  | pumpMinn (h : Skip) (w : PumpW) (rd : Reg) (ra : Reg) (pb : PSrc)
  | pumpMaxn (h : Skip) (w : PumpW) (rd : Reg) (ra : Reg) (pb : PSrc)
  | pumpCmp (h : Skip) (rel : Rel) (w : PumpW) (n : Bool) (rd : Reg) (ra : Reg) (pb : PSrc)
  | pumpTst (h : Skip) (none1 : Bool) (w : PumpW) (n : Bool) (rd : Reg) (ra : Reg) (pb : PSrc)
  | pumpSel (h : Skip) (w : PumpW) (n : Bool) (pd5i : Fin 32) (rd : Reg) (ra : Reg) (rb : Reg)
  | pumpClz (h : Skip) (w : PumpW) (n : Bool) (rd : Reg) (ra : Reg)
  | pumpPopc (h : Skip) (w : PumpW) (n : Bool) (rd : Reg) (ra : Reg)
  | pumpBfx (h : Skip) (w : PumpW) (n : Bool) (rd : Reg) (ra : Reg) (rb : Reg)
  | pumpBfi (h : Skip) (w : PumpW) (n : Bool) (rd : Reg) (ra : Reg) (rb : Reg)
  | pumpMov (h : Skip) (w : PumpW) (n : Bool) (rd : Reg) (pm : PSrc)
  | pumpPset (h : Skip) (w : PumpW) (pd5 : Fin 32) (pb : PSrc)
  | pumpPlog (h : Skip) (lop : LogicOp) (w : PumpW) (pd5 : Fin 32) (pa5 : Fin 32) (pb5 : Fin 32)
  | div (h : Skip) (w : PumpW) (rd : Reg) (ra : Reg) (pb : PSrc)
  | divn (h : Skip) (w : PumpW) (rd : Reg) (ra : Reg) (pb : PSrc)
  | rem (h : Skip) (w : PumpW) (n : Bool) (rd : Reg) (ra : Reg) (pb : PSrc)
  | movk (h : Skip) (rd : Reg) (v16 : BitVec 16) (fld : Fin 4)
  | pumpLd (h : Skip) (w : PumpW) (n : Bool) (rd : Reg) (ra : Reg) (disp : BitVec 24)
  | pumpSt (h : Skip) (w : PumpW) (n : Bool) (ra : Reg) (rb : Reg) (disp : BitVec 24)
  | pumpLds (h : Skip) (n : Bool) (rd : Reg) (ra : Reg) (disp : BitVec 24)
  | pumpStf (h : Skip) (n : Bool) (ra : Reg) (rb : Reg) (disp : BitVec 24)
  | pumpLdc (h : Skip) (n : Bool) (rd : Reg) (ra : Reg) (disp : BitVec 24)
  | cas (h : Skip) (w : PumpW) (n : Bool) (rd : Reg) (ra : Reg) (rb : Reg) (disp : BitVec 24)
  | swap (h : Skip) (w : PumpW) (n : Bool) (rd : Reg) (ra : Reg) (rb : Reg) (disp : BitVec 24)
  | fadd (h : Skip) (w : PumpW) (n : Bool) (rd : Reg) (ra : Reg) (rb : Reg) (disp : BitVec 24)
  | fmin (h : Skip) (w : PumpW) (n : Bool) (rd : Reg) (ra : Reg) (rb : Reg) (disp : BitVec 24)
  | fmax (h : Skip) (w : PumpW) (n : Bool) (rd : Reg) (ra : Reg) (rb : Reg) (disp : BitVec 24)
  | fand (h : Skip) (w : PumpW) (n : Bool) (rd : Reg) (ra : Reg) (rb : Reg) (disp : BitVec 24)
  | fOr (h : Skip) (w : PumpW) (n : Bool) (rd : Reg) (ra : Reg) (rb : Reg) (disp : BitVec 24)
  | fxadd (h : Skip) (xf : Bool) (ra : Reg) (rb : Reg) (disp : BitVec 24)
  | fxaddRd (h : Skip) (xf : Bool) (clr : Bool) (rd : Reg) (ra : Reg) (disp : BitVec 24)
  | waitv (h : Skip) (w : PumpW) (n : Bool) (mon : Fin 8) (rd : Reg) (ra : Reg) (rb : Reg) (disp : BitVec 24)
  | fenceAcq (h : Skip) (scope : Scope)
  | fenceRel (h : Skip) (scope : Scope)
  | fenceFull (h : Skip) (scope : Scope)
  | skip (h : Skip) (cnt24 : Nat)
  | abort (h : Skip)
  | noteSend (h : Skip) (ra : Reg) (rb : Reg)
  | noteTake (h : Skip) (rd : Reg)
  | timerOnce (h : Skip) (rd : Reg) (ra : Reg)
  | timerPer (h : Skip) (rd : Reg) (ra : Reg)
  | enq (h : Skip) (ra : Reg) (rb : Reg)
  | deqq (h : Skip) (rd : Reg) (ra : Reg) (rb : Reg)
  | tailw (h : Skip) (ra : Reg) (rb : Reg)
  | launch (h : Skip) (rd : Reg) (ra : Reg) (rb : Reg)
  | kstat (h : Skip) (rd : Reg) (ra : Reg)
  | digest (h : Skip) (rd : Reg) (ra : Reg) (rb : Reg)
  | trigbBind (h : Skip) (rd : Reg) (ra : Reg) (rb : Reg)
  | trigbUnbind (h : Skip) (rd : Reg) (ra : Reg)
  | trigbQuery (h : Skip) (rd : Reg) (ra : Reg)
  | regionAlloc (h : Skip) (rd : Reg) (ra : Reg)
  | regionFree (h : Skip) (rd : Reg) (ra : Reg)
  | rpoolFill (h : Skip) (rd : Reg) (ra : Reg) (pool : Fin 16) (die2 : Fin 4)
  | rpoolClose (h : Skip) (rd : Reg) (ra : Reg) (pool : Fin 16) (die2 : Fin 4)
  | rpoolQuery (h : Skip) (rd : Reg) (ra : Reg) (pool : Fin 16) (die2 : Fin 4)
  | cfgw (h : Skip) (ra : Reg) (rb : Reg) (tg : BitVec 16)
  | cfgrdReq (h : Skip) (ra : Reg) (tg : BitVec 16)
  | cfgrdTake (h : Skip) (rd : Reg)
  | cfgsig (h : Skip) (ra : Reg) (rb : Reg) (key : Fin 8) (tg : BitVec 16)
  | crcCfg (h : Skip) (ra : Reg) (rb : Reg) (tg : BitVec 16)
  | crcMem (h : Skip) (rd : Reg) (ra : Reg) (rb : Reg)
  | route (h : Skip) (rd : Reg) (ra : Reg) (rb : Reg)
  | prime (h : Skip) (ra : Reg) (k4 : Fin 4) (tg : BitVec 16)
  | freeze (h : Skip) (ra : Reg) (tg : BitVec 16)
  | freezeStroke (h : Skip) (ra : Reg) (tg : BitVec 16)
  | thaw (h : Skip) (ra : Reg) (tg : BitVec 16)
  | imgoutMem (h : Skip) (ra : Reg) (rb : Reg) (tg : BitVec 16)
  | imgoutShadow (h : Skip) (ra : Reg) (tg : BitVec 16)
  | imgoutBack (h : Skip) (ra : Reg) (tg : BitVec 16)
  | rsload (h : Skip) (ra : Reg) (rb : Reg) (tg : BitVec 16)
  | warm (h : Skip) (rd : Reg) (ra : Reg) (rb : Reg)
  | wcand (h : Skip) (rd : Reg) (ra : Reg)
  | verd (h : Skip) (ra : Reg) (rb : Reg)
  | wdraw (h : Skip) (rd : Reg) (ra : Reg) (rb : Reg)
  | wstat (h : Skip) (item : Fin 7) (rd : Reg) (ra : Reg) (v16 : BitVec 16)
  | bara (h : Skip) (ra : Reg)
  | barmSet (h : Skip) (ra : Reg) (rb : Reg)
  | barmTake (h : Skip) (rd : Reg)
  | pbudgSet (h : Skip) (ra : Reg) (rb : Reg)
  | pbudgGet (h : Skip) (rd : Reg) (ra : Reg)
  | spineFreq (h : Skip) (ra : Reg) (rb : Reg) (tg : BitVec 16)
  | spineSel (h : Skip) (ra : Reg) (rb : Reg) (tg : BitVec 16)
  | pumpPhint (h : Skip) (ra : Reg) (onset : BitVec 8) (len16 : BitVec 16)
  | tlbiPage (h : Skip) (ra : Reg)
  | tlbiCtx (h : Skip)
  | tlbiAll (h : Skip)
  | migrMove (h : Skip) (ra : Reg) (rb : Reg) (tg : BitVec 16)
  | migrOut (h : Skip) (ra : Reg) (rb : Reg) (tg : BitVec 16)
  | migrIn (h : Skip) (ra : Reg) (rb : Reg) (tg : BitVec 16)
  | wclose (h : Skip) (ra : Reg)
  | pghash (h : Skip) (ra : Reg) (rb : Reg) (tg : BitVec 16)
  | sysr (h : Skip) (rd : Reg) (sidx : BitVec 12)
  | sysw (h : Skip) (sidx : BitVec 12) (rb : Reg)
  | vectorResultWrite (t : Nat) (e : Nat)
  | loadDataReturn (t : Nat) (e : Nat) (rq : Nat)
  | feWordFullWake (t : Nat) (e : Nat) (rq : Nat)
  | xlatWalkComplete (t : Nat) (e : Nat) (rq : Nat)
  | rangeTokenReply (t : Nat) (e : Nat) (rq : Nat)
  | pageWalkComplete (t : Nat) (e : Nat) (rq : Nat)
  | memoryFaultFound (t : Nat) (e : Nat) (rq : Nat) (what : StoreFault)
  | islandCommandStart (en : Nat)
  | islandBLoadComplete (en : Nat)
  | islandRowStart (en : Nat)
  | islandDrainRow (en : Nat)
  | islandFault (en : Nat)
  | islandLoadResume (en : Nat)
  | engineError (en : Nat)
  | streamCommandStart (en : Nat)
  | streamCommandComplete (en : Nat)
  | streamFaultResume (en : Nat)
  | expanderBlockComplete (en : Nat)
  | expanderStreamSlotFree (en : Nat)
  | weirSortComplete (en : Nat)
  | engineReply (en : Nat)
  | rangeServerServe (die : Nat)
  | poolTableReadComplete (pk : Nat)
  | timerExpiry (core : Nat)
  | monitorFire (core : Nat) (k : Nat)
  | configReplyArrival (core : Nat)
  | migrComplete (id : Nat)
  | strokeLengthExpiry (r : Nat)
  | strokeMarkInject (r : Nat)
  | markAligned (at_ : MarkSite)
  | barrierAligned (at_ : MarkSite)
  | strokeClose (r : Nat)
  | strokeDrainComplete (r : Nat)
  | drainInject (r : Nat)
  | planeSwitch (r : Nat)
  | cutArrival (t : Nat) (e : Nat)
  | ringSpill (t : Nat) (e : Nat) (c : Nat)
  | ringRefill (t : Nat) (e : Nat) (c : Nat)
  | primeComplete (r : Nat)
  | freezeWaveComplete (r : Nat)
  | kernelQuiescence (r : Nat)
  | kernelRetire (r : Nat)
  | watchdogExpiry (r : Nat)
  | configEccError (t : Nat) (caddr : Nat)
  | configScrub (t : Nat)
  | queueEnable (q : Nat)
  | queueDisable (q : Nat)
  | queueRetry (q : Nat)
  | queueSkip (q : Nat)
  | tailWrite (src : TailSource) (q : Nat) (tail : W64)
  | recordStart (die : Nat)
  | recordComplete (q : Nat) (idx : Nat)
  | queueEngineFault (q : Nat)
  | triggerFire (bk : Nat)
  | triggerPendingDelivery (bk : Nat)
  | groupLaunch (gid : Nat)
  | create (cx : Nat)
  | bind (cx : Nat)
  | ctxFreeze (cx : Nat)
  | ctxThaw (cx : Nat)
  | swapout (cx : Nat)
  | swapin (cx : Nat)
  | clear (cx : Nat)
  | kill (cx : Nat)
  | ctxCleanupComplete (cx : Nat)
  | ctxFreezeComplete (cx : Nat)
  | ctxFault (cx : Nat)
  | treeBarrierArrival (bk : Nat)
  | shootdownComplete (id : Nat)
  | pagePoison (cx : Nat) (va : W64)
  | pfres (die : Nat) (val : W64)
  | linkEnable (k : Nat) (en : Bool)
  | retrain (k : Nat)
  | linkTrained (k : Nat) (lanes : Nat)
  | linkTrainingFail (k : Nat)
  | linkLaneLoss (k : Nat) (lane : Bool)
  | flitReceive (k : Nat) (fl : Flit)
  | flitAck (k : Nat) (n : Nat)
  | ingestFrame (port : Nat) (frame : List Byte)
  | hostRead (bar : Nat) (off : Nat) (len : Nat)
  | hostWrite (bar : Nat) (off : Nat) (data : List Byte)
  | registerWrite (off : Nat) (len : Nat) (val : W64)
  | publish (wl : Nat)
  | candidateWrite (wl : Nat)
  | drawCopy (wl : Nat)
  | rdposWrite (wl : Nat)
  | chargeIntervalStart
  | chargeDose
  | hintRampStep (die : Nat) (cx : Nat)
  | spineFreqStep (sp : Nat)
  | spineSwitchComplete (t : Nat)
  | t1 (die : Nat)
  | t2 (die : Nat)
  | t3 (die : Nat)
  | t4 (die : Nat)
  | thermalClear (die : Nat) (trip : Nat)
  | boot (bo : BootInput)
  | getVersion (rq : SpdmRequest)
  | getCapabilities (rq : SpdmRequest)
  | negotiateAlgorithms (rq : SpdmRequest)
  | getDigests (rq : SpdmRequest)
  | getCertificate (rq : SpdmRequest)
  | challenge (rq : SpdmRequest)
  | getMeasurements (rq : SpdmRequest)
  | memoryReadRetry (me : MemError)
  | illegalSlot (il : IllegalAt)
  | pfheadWrite (die : Nat) (val : W64)
  | memoryPatrolScrub (corrected : Nat)
  | swapComplete (cx : Nat)
  deriving DecidableEq, Repr

end Sys2Proof
end

