-- ==== Sys2Proof/WellFormed.lean ====
section
/-! DEFINITION. Which instructions are well formed: the operand classes of spec/06_encoding.md R92 and R99 to
R102, the reserved values of R103, and the pairings of spec/08_vector.md R133, R141, R145 to R153. -/

namespace Sys2Proof

/-- A scalar source (class s of R99): x, w, a channel, codes 28, 30 and 31. -/
def Src.isScalar : Src → Bool
  | .x _ | .w _ | .chan _ _ | .zero | .coord | .stage => true
  | .v _ | .acc _ | .lane => false

/-- A vector source (class v of R99): v, a channel, codes 28 and 29. -/
def Src.isVector : Src → Bool
  | .v _ | .chan _ _ | .zero | .lane => true
  | .x _ | .acc _ | .coord | .stage | .w _ => false

def Src.isAcc : Src → Bool
  | .acc _ => true
  | .x _ | .v _ | .zero | .lane | .coord | .stage | .chan _ _ | .w _ => false

def Src.isV : Src → Bool
  | .v _ => true
  | .x _ | .acc _ | .zero | .lane | .coord | .stage | .chan _ _ | .w _ => false

def Src.isChan : Src → Bool
  | .chan _ _ => true
  | .x _ | .v _ | .acc _ | .zero | .lane | .coord | .stage | .w _ => false

def Src.isLane : Src → Bool
  | .lane => true
  | .x _ | .v _ | .acc _ | .zero | .coord | .stage | .chan _ _ | .w _ => false

/-- Whether the operand carries a caret (R75). -/
def Src.deq : Src → Bool
  | .chan _ q => q
  | .x _ | .v _ | .acc _ | .zero | .lane | .coord | .stage | .w _ => false

def Src.isVectorOrAcc (a : Src) : Bool := a.isVector || a.isAcc

/-- An operand that may be passed on as a token: a scalar, a vector or an accumulator, code 29 excepted, for a
move has no lane format (R92 item 2). -/
def Src.isAnyToken (a : Src) : Bool := (a.isScalar || a.isVector || a.isAcc) && !a.isLane

/-- An address token stands in a v register or on a data channel (R167). -/
def Src.isAddr (a : Src) : Bool := a.isV || a.isChan

/-- In format EI an input channel is always dequeued (R89). -/
def Src.immOk (a : Src) : Bool := !a.isChan || a.deq

def Src.isEvenV : Src → Bool
  | .v n => n.val % 2 == 0
  | .x _ | .acc _ | .zero | .lane | .coord | .stage | .chan _ _ | .w _ => false

def Src.isEvenAcc : Src → Bool
  | .acc n => n.val % 2 == 0
  | .x _ | .v _ | .zero | .lane | .coord | .stage | .chan _ _ | .w _ => false

/-- A scalar destination (class sd of R99). -/
def Dst.isScalar : Dst → Bool
  | .x _ | .w _ | .out _ | .discard => true
  | .v _ | .acc _ => false

/-- A vector destination (class vd of R99). -/
def Dst.isVector : Dst → Bool
  | .v _ | .out _ | .discard => true
  | .x _ | .acc _ | .w _ => false

def Dst.isXW : Dst → Bool
  | .x _ | .w _ => true
  | .v _ | .acc _ | .out _ | .discard => false

def Dst.isV : Dst → Bool
  | .v _ => true
  | .x _ | .acc _ | .out _ | .discard | .w _ => false

def Dst.isAcc : Dst → Bool
  | .acc _ => true
  | .x _ | .v _ | .out _ | .discard | .w _ => false

def Dst.isOut : Dst → Bool
  | .out _ => true
  | .x _ | .v _ | .acc _ | .discard | .w _ => false

def Dst.isVectorOrAcc (d : Dst) : Bool := d.isVector || d.isAcc

def Dst.isEvenV : Dst → Bool
  | .v n => n.val % 2 == 0
  | .x _ | .acc _ | .out _ | .discard | .w _ => false

def Dst.isEvenAcc : Dst → Bool
  | .acc n => n.val % 2 == 0
  | .x _ | .v _ | .out _ | .discard | .w _ => false

/-- FP32, BF16 or FP16: the formats of the arithmetic, function and compare rows (R100, R133). -/
def Fmt.isArith : Fmt → Bool
  | .fp32 | .bf16 | .fp16 => true
  | .e4m3 | .e5m2 | .e3m2 | .e2m3 | .e2m1 | .int8 | .int4 | .ix4 | .e8m0 | .int32 => false

/-- The source formats of VRED and VAMAX (R141). -/
def Fmt.isReduce : Fmt → Bool
  | .fp32 | .bf16 | .fp16 | .e4m3 | .e5m2 | .e3m2 | .e2m3 | .e2m1 | .int8 => true
  | .int4 | .ix4 | .e8m0 | .int32 => false

/-- The formats of VIOTA (R147). -/
def Fmt.isIota : Fmt → Bool
  | .fp32 | .bf16 | .fp16 | .int8 | .int4 | .int32 => true
  | .e4m3 | .e5m2 | .e3m2 | .e2m3 | .e2m1 | .ix4 | .e8m0 => false

/-- The 8-bit element formats that convert among themselves (R150). -/
def Fmt.isEight : Fmt → Bool
  | .e4m3 | .e5m2 | .e3m2 | .e2m3 | .int8 => true
  | .fp32 | .bf16 | .fp16 | .e2m1 | .int4 | .ix4 | .e8m0 | .int32 => false

/-- The legal pairings of VCVT, each format with itself among them (R150); an accumulator operand is FP32 (R133). -/
def cvtPair (df sf : Fmt) (d : Dst) (a : Src) : Bool :=
  if a.isAcc then sf == .fp32 && (df == .bf16 || df == .fp16) && d.isVector
  else if d.isAcc then df == .fp32 && (sf == .bf16 || sf == .fp16)
  else df == sf || (df == .fp32 && sf == .int32) || (df == .int32 && sf == .fp32) ||
    (df == .bf16 && sf == .fp16) || (df == .fp16 && sf == .bf16) || (df.isEight && sf.isEight) ||
    (df == .e2m1 && sf == .int4) || (df == .int4 && sf == .e2m1)

/-- The legal pairings of VPACK (R151). -/
def packPair (df sf : Fmt) : Bool :=
  ((sf == .fp32 || sf == .int32) && (df == .bf16 || df == .fp16)) ||
  ((sf == .bf16 || sf == .fp16) && (df == .e4m3 || df == .e5m2 || df == .int8)) ||
  ((sf == .e4m3 || sf == .e5m2 || sf == .int8) && (df == .e2m1 || df == .int4))

/-- The legal pairings of VUNPK: those of VPACK reversed, less two (R151). -/
def unpkPair (df sf : Fmt) : Bool :=
  packPair sf df && !(sf == .e2m1 && df == .int8) && !((sf == .fp16 || sf == .bf16) && df == .int32)

/-- The legal pairings of VQNT (R152). -/
def qntPair (df sf : Fmt) (a : Src) : Bool :=
  if a.isAcc then sf == .fp32 && df.isEight
  else ((sf == .bf16 || sf == .fp16) && df.isEight) ||
    ((sf == .e4m3 || sf == .e5m2 || sf == .int8) && (df == .e2m1 || df == .ix4))

/-- The legal pairings of VDQNT (R153). -/
def dqntPair (df sf : Fmt) (d : Dst) : Bool :=
  if sf.isEight then (if d.isAcc then df == .fp32 else df == .bf16 || df == .fp16)
  else (sf == .e2m1 || sf == .ix4) && !d.isAcc && (df == .e4m3 || df == .e5m2)

/-- Code 29 has no value in E8M0 or IX4 lanes (R398). -/
def laneOk (a : Src) (f : Fmt) : Bool := !a.isLane || (f != .e8m0 && f != .ix4)

/-- FWD's operand A and destination are on one plane, or of one register class (R159); the plane of a channel
is checked against its binding when the rule fires. -/
def fwdClass (d : Dst) (a : Src) : Bool :=
  a.isAnyToken && (match d with
    | .discard => true
    | .out _ => !a.isAcc
    | .x _ | .w _ => a.isScalar
    | .v _ => a.isVector
    | .acc _ => a.isAcc)

def optChan : Option Src → Bool
  | none => true
  | some b => b.isChan

def optDeq : Option Src → Bool
  | none => true
  | some b => b.deq

/-- STEER names o(K) with K from 0 to 12 (R164). -/
def steerDst : Dst → Bool
  | .out k => k.val ≤ 12
  | .x _ | .v _ | .acc _ | .discard | .w _ => false

/-- MRGO names iJ and iM, J and M from 0 to 14, with four distinct channels (R165). -/
def mrgoSrcs : Src → Src → Bool
  | .chan j _, .chan m _ => j.val ≤ 14 && m.val ≤ 14 && j != m && j.val + 1 != m.val && m.val + 1 != j.val
  | _, _ => false

def AtomOp.isMinMax : AtomOp → Bool
  | .min | .max => true
  | .add | .and | .or | .xor | .count | .xadd => false

/-- The widths of the pump atomics and WAITV (R220, R223). -/
def PumpW.isAtomic : PumpW → Bool
  | .w64 | .w32 => true
  | .w16 | .w8 => false

/-- The listed system register indices (R257). -/
def sysIndexListed (i : Nat) : Bool :=
  i ≤ 8 || (16 ≤ i && i < 32 && i % 4 != 3) || (64 ≤ i && i < 88)

def Guard.updIsLoad (g : Guard) : Bool :=
  match g.upd with
  | some u => u.op == .load
  | none => false

/-- The operands an element instruction names, and the three word-local checks of R92 and R103. -/
structure Operands where
  g       : Guard
  dst     : Option Dst
  a       : Option Src
  b       : Option Src
  classOk : Bool
  valueOk : Bool
  hasRes  : Bool
  deriving DecidableEq, Repr

/-- What an element instruction names: its guard fields, its operands, whether every operand is of a class its
opcode allows (R92 items 1 to 3, 6), whether no field holds a reserved value (R103), and whether its entry
defines a result bit (R114, R137, R158).  `none` for an instruction that is no element rule. -/
def Instr.operands : Instr → Option Operands
  | .add g d a b => some ⟨g, some d, some a, some b, d.isScalar && a.isScalar && b.isScalar, true, true⟩
  | .sub g d a b => some ⟨g, some d, some a, some b, d.isScalar && a.isScalar && b.isScalar, true, true⟩
  | .mul g d a b => some ⟨g, some d, some a, some b, d.isScalar && a.isScalar && b.isScalar, true, true⟩
  | .mulh g d a b => some ⟨g, some d, some a, some b, d.isScalar && a.isScalar && b.isScalar, true, true⟩
  | .mulhn g d a b => some ⟨g, some d, some a, some b, d.isScalar && a.isScalar && b.isScalar, true, true⟩
  | .adds g _ d a b => some ⟨g, some d, some a, some b, d.isScalar && a.isScalar && b.isScalar, true, true⟩
  | .subs g _ d a b => some ⟨g, some d, some a, some b, d.isScalar && a.isScalar && b.isScalar, true, true⟩
  | .and g d a b => some ⟨g, some d, some a, some b, d.isScalar && a.isScalar && b.isScalar, true, true⟩
  | .or g d a b => some ⟨g, some d, some a, some b, d.isScalar && a.isScalar && b.isScalar, true, true⟩
  | .xor g d a b => some ⟨g, some d, some a, some b, d.isScalar && a.isScalar && b.isScalar, true, true⟩
  | .andn g d a b => some ⟨g, some d, some a, some b, d.isScalar && a.isScalar && b.isScalar, true, true⟩
  | .shl g d a b => some ⟨g, some d, some a, some b, d.isScalar && a.isScalar && b.isScalar, true, true⟩
  | .shr g d a b => some ⟨g, some d, some a, some b, d.isScalar && a.isScalar && b.isScalar, true, true⟩
  | .sra g d a b => some ⟨g, some d, some a, some b, d.isScalar && a.isScalar && b.isScalar, true, true⟩
  | .rot g d a b => some ⟨g, some d, some a, some b, d.isScalar && a.isScalar && b.isScalar, true, true⟩
  | .min g d a b => some ⟨g, some d, some a, some b, d.isScalar && a.isScalar && b.isScalar, true, true⟩
  | .max g d a b => some ⟨g, some d, some a, some b, d.isScalar && a.isScalar && b.isScalar, true, true⟩
  | .minn g d a b => some ⟨g, some d, some a, some b, d.isScalar && a.isScalar && b.isScalar, true, true⟩
  | .maxn g d a b => some ⟨g, some d, some a, some b, d.isScalar && a.isScalar && b.isScalar, true, true⟩
  | .cmp g _ _ d a b => some ⟨g, some d, some a, some b, d.isScalar && a.isScalar && b.isScalar, true, true⟩
  | .tst g _ d a b => some ⟨g, some d, some a, some b, d.isScalar && a.isScalar && b.isScalar, true, true⟩
  | .sel g _ d a b => some ⟨g, some d, some a, some b, d.isScalar && a.isScalar && b.isScalar, true, true⟩
  | .clz g d a => some ⟨g, some d, some a, none, d.isScalar && a.isScalar, true, true⟩
  | .popc g d a => some ⟨g, some d, some a, none, d.isScalar && a.isScalar, true, true⟩
  | .bfx g _ d a b => some ⟨g, some d, some a, some b, d.isScalar && a.isScalar && b.isScalar, true, true⟩
  | .bfi g d a b => some ⟨g, some d, some a, some b, d.isXW && a.isScalar && b.isScalar, true, true⟩
  | .mov g d a => some ⟨g, some d, some a, none, d.isScalar && a.isScalar, true, true⟩
  | .pset g a => some ⟨g, none, some a, none, a.isScalar && g.upd.isNone, true, false⟩
  | .plog g _ _ _ => some ⟨g, none, none, none, g.updIsLoad, true, true⟩
  | .cnt g _ d a b => some ⟨g, some d, some a, some b, d.isScalar && a.isScalar && b.isScalar, true, true⟩
  | .qset g _ a => some ⟨g, none, some a, none, a.isScalar, true, false⟩
  | .addImm g d a _ => some ⟨g, some d, some a, none, (d.isScalar && a.isScalar) && a.immOk, true, true⟩
  | .subImm g d a _ => some ⟨g, some d, some a, none, (d.isScalar && a.isScalar) && a.immOk, true, true⟩
  | .mulImm g d a _ => some ⟨g, some d, some a, none, (d.isScalar && a.isScalar) && a.immOk, true, true⟩
  | .mulhImm g d a _ => some ⟨g, some d, some a, none, (d.isScalar && a.isScalar) && a.immOk, true, true⟩
  | .mulhnImm g d a _ => some ⟨g, some d, some a, none, (d.isScalar && a.isScalar) && a.immOk, true, true⟩
  | .addsImm g d a _ => some ⟨g, some d, some a, none, (d.isScalar && a.isScalar) && a.immOk, true, true⟩
  | .subsImm g d a _ => some ⟨g, some d, some a, none, (d.isScalar && a.isScalar) && a.immOk, true, true⟩
  | .andImm g d a _ => some ⟨g, some d, some a, none, (d.isScalar && a.isScalar) && a.immOk, true, true⟩
  | .orImm g d a _ => some ⟨g, some d, some a, none, (d.isScalar && a.isScalar) && a.immOk, true, true⟩
  | .xorImm g d a _ => some ⟨g, some d, some a, none, (d.isScalar && a.isScalar) && a.immOk, true, true⟩
  | .andnImm g d a _ => some ⟨g, some d, some a, none, (d.isScalar && a.isScalar) && a.immOk, true, true⟩
  | .shlImm g d a _ => some ⟨g, some d, some a, none, (d.isScalar && a.isScalar) && a.immOk, true, true⟩
  | .shrImm g d a _ => some ⟨g, some d, some a, none, (d.isScalar && a.isScalar) && a.immOk, true, true⟩
  | .sraImm g d a _ => some ⟨g, some d, some a, none, (d.isScalar && a.isScalar) && a.immOk, true, true⟩
  | .rotImm g d a _ => some ⟨g, some d, some a, none, (d.isScalar && a.isScalar) && a.immOk, true, true⟩
  | .minImm g d a _ => some ⟨g, some d, some a, none, (d.isScalar && a.isScalar) && a.immOk, true, true⟩
  | .maxImm g d a _ => some ⟨g, some d, some a, none, (d.isScalar && a.isScalar) && a.immOk, true, true⟩
  | .minnImm g d a _ => some ⟨g, some d, some a, none, (d.isScalar && a.isScalar) && a.immOk, true, true⟩
  | .maxnImm g d a _ => some ⟨g, some d, some a, none, (d.isScalar && a.isScalar) && a.immOk, true, true⟩
  | .movi g d _ => some ⟨g, some d, none, none, d.isScalar, true, true⟩
  | .cntImm g d a _ => some ⟨g, some d, some a, none, (d.isScalar && a.isScalar) && a.immOk, true, true⟩
  | .movs g d _ => some ⟨g, some d, none, none, d.isXW, true, true⟩
  | .nop g => some ⟨g, none, none, none, true, true, false⟩
  | .halt g => some ⟨g, none, none, none, true, true, false⟩
  | .trap g a => some ⟨g, none, some a, none, a.isScalar, true, false⟩
  | .plane g _ => some ⟨g, none, none, none, true, true, false⟩
  | .chgq g d => some ⟨g, some d, none, none, d.isScalar, true, true⟩
  | .vadd g fmt d a b => some ⟨g, some d, some a, some b, d.isVector && a.isVector && b.isVector, fmt.isArith, false⟩
  | .vsub g fmt d a b => some ⟨g, some d, some a, some b, d.isVector && a.isVector && b.isVector, fmt.isArith, false⟩
  | .vmul g fmt d a b => some ⟨g, some d, some a, some b, d.isVector && a.isVector && b.isVector, fmt.isArith, false⟩
  | .vmax g fmt d a b => some ⟨g, some d, some a, some b, d.isVector && a.isVector && b.isVector, fmt.isArith, false⟩
  | .vmin g fmt d a b => some ⟨g, some d, some a, some b, d.isVector && a.isVector && b.isVector, fmt.isArith, false⟩
  | .vclamp g fmt d a b => some ⟨g, some d, some a, some b, d.isVector && a.isVector && b.isVector, fmt.isArith, false⟩
  | .vfma g fmt d a b => some ⟨g, some d, some a, some b, d.isVectorOrAcc && a.isVector && b.isVector, fmt.isArith, false⟩
  | .vfms g fmt d a b => some ⟨g, some d, some a, some b, d.isVectorOrAcc && a.isVector && b.isVector, fmt.isArith, false⟩
  | .vabs g fmt d a => some ⟨g, some d, some a, none, d.isVector && a.isVector, fmt.isArith, false⟩
  | .vneg g fmt d a => some ⟨g, some d, some a, none, d.isVector && a.isVector, fmt.isArith, false⟩
  | .vrcp g fmt d a => some ⟨g, some d, some a, none, d.isVector && a.isVector, fmt.isArith, false⟩
  | .vrsq g fmt d a => some ⟨g, some d, some a, none, d.isVector && a.isVector, fmt.isArith, false⟩
  | .vsqrt g fmt d a => some ⟨g, some d, some a, none, d.isVector && a.isVector, fmt.isArith, false⟩
  | .vexp2 g fmt d a => some ⟨g, some d, some a, none, d.isVector && a.isVector, fmt.isArith, false⟩
  | .vlog2 g fmt d a => some ⟨g, some d, some a, none, d.isVector && a.isVector, fmt.isArith, false⟩
  | .vtanh g fmt d a => some ⟨g, some d, some a, none, d.isVector && a.isVector, fmt.isArith, false⟩
  | .vred g _ fmt d a => some ⟨g, some d, some a, none, (d.isScalar || d.isVector) && a.isVectorOrAcc, fmt.isReduce && (!a.isAcc || fmt == .fp32), false⟩
  | .vamax g fmt d a => some ⟨g, some d, some a, none, (d.isScalar || d.isVector) && a.isVectorOrAcc, fmt.isReduce && (!a.isAcc || fmt == .fp32), false⟩
  | .vcmp g fmt d a b => some ⟨g, some d, some a, some b, d.isVector && a.isVector && b.isVector, fmt.isArith, false⟩
  | .vsel g _ _ d a b => some ⟨g, some d, some a, some b, d.isV && a.isVector && b.isVector, true, false⟩
  | .vlog g vlop d a b => some ⟨g, some d, some a, (if vlop == .not then none else some b), d.isVector && a.isVector && b.isVector && !a.isLane && !b.isLane, (vlop != .not || b == .zero), false⟩
  | .vsh g _ _ d a b => some ⟨g, some d, some a, some b, d.isVector && a.isVector && b.isScalar, true, false⟩
  | .vbcst g fmt d a => some ⟨g, some d, some a, none, d.isVector && a.isScalar, fmt != .ix4, false⟩
  | .vext g fmt d a b => some ⟨g, some d, some a, some b, d.isScalar && a.isVector && b.isScalar && (!a.isLane || fmt != .e8m0), fmt != .ix4, true⟩
  | .vins g fmt d a b => some ⟨g, some d, some a, some b, d.isV && a.isScalar && b.isScalar, fmt != .ix4, false⟩
  | .viota g fmt d a b => some ⟨g, some d, some a, some b, d.isVector && a.isScalar && b.isScalar, fmt.isIota, false⟩
  | .vshuf g _ d a b => some ⟨g, some d, some a, some b, d.isVector && a.isVector && b.isVector, true, false⟩
  | .vcvt g df sf _ d a => some ⟨g, some d, some a, none, (d.isVectorOrAcc && a.isVectorOrAcc && laneOk a sf) && a.immOk, cvtPair df sf d a, false⟩
  | .vpack g df sf _ d a => some ⟨g, some d, some a, none, (d.isVector && a.isEvenV) && a.immOk, packPair df sf, false⟩
  | .vunpk g df sf rnd d a => some ⟨g, some d, some a, none, (d.isEvenV && a.isVector && laneOk a sf) && a.immOk, unpkPair df sf && rnd == .rne, false⟩
  | .vqnt g df sf _ d a => some ⟨g, some d, some a, none, (d.isV && (a.isEvenV || a.isEvenAcc)) && a.immOk, qntPair df sf a, false⟩
  | .vdqnt g df sf _ d a => some ⟨g, some d, some a, none, ((d.isEvenV || d.isEvenAcc) && a.isVector && laneOk a sf) && a.immOk, dqntPair df sf d, false⟩
  | .vrng g _ d a b => some ⟨g, some d, some a, some b, d.isVector && a.isScalar && b.isScalar, true, false⟩
  | .vdrop g fmt d a b => some ⟨g, some d, some a, some b, d.isVector && a.isVector && b.isScalar, fmt.isArith, false⟩
  | .vacc g fmt d a => some ⟨g, some d, some a, none, d.isAcc && a.isVector, fmt.isArith, false⟩
  | .cturn g _ d a => some ⟨g, some d, some a, none, d.isVector && a.isVector, true, false⟩
  | .fwd g d a b => some ⟨g, some d, some a, some b, fwdClass d a && (b.isChan || b == .zero), true, false⟩
  | .deq g a bo => some ⟨g, none, some a, bo, a.isChan && optChan bo, a.deq && optDeq bo, true⟩
  | .steer g d a b => some ⟨g, some d, some a, some b, steerDst d && a.isAnyToken && b.isScalar, true, false⟩
  | .mrgo g d a b => some ⟨g, some d, some a, some b, d.isOut && mrgoSrcs a b, !a.deq && !b.deq, false⟩
  | .mrga g d a b => some ⟨g, some d, some a, some b, d.isOut && a.isChan && b.isChan, true, false⟩
  | .tag g _ d a => some ⟨g, some d, some a, none, d.isOut && a.isAnyToken, true, false⟩
  | .markStroke g => some ⟨g, none, none, none, true, true, false⟩
  | .markDrain g => some ⟨g, none, none, none, true, true, false⟩
  | .markFreeze g => some ⟨g, none, none, none, true, true, false⟩
  | .markBarrier g d => some ⟨g, some d, none, none, d.isOut, true, false⟩
  | .markCut g d a => some ⟨g, some d, some a, none, d.isOut && a.isScalar, true, false⟩
  | .crget g _ d => some ⟨g, some d, none, none, (d.isScalar || d.isVector), true, false⟩
  | .crput g _ a => some ⟨g, none, some a, none, (a.isScalar || (a.isVector && !a.isLane)), true, false⟩
  | .ld g _ _ d a b => some ⟨g, some d, some a, some b, d.isScalar && a.isAddr && b.isScalar, true, true⟩
  | .st g _ _ a b => some ⟨g, none, some a, some b, a.isAddr && b.isScalar, true, false⟩
  | .vld g d a b => some ⟨g, some d, some a, some b, d.isVector && a.isAddr && b.isScalar, true, false⟩
  | .vst g a b => some ⟨g, none, some a, some b, a.isAddr && b.isVector && !b.isLane, true, false⟩
  | .lds g d a b => some ⟨g, some d, some a, some b, d.isScalar && a.isAddr && b.isScalar, true, true⟩
  | .stf g a b => some ⟨g, none, some a, some b, a.isAddr && b.isScalar, true, false⟩
  | .ldc g d a b => some ⟨g, some d, some a, some b, d.isScalar && a.isAddr && b.isScalar, true, true⟩
  | .xlat g _ d a => some ⟨g, some d, some a, none, d.isOut && a.isAddr, true, true⟩
  | .agenRearm g d a => some ⟨g, some d, some a, none, d.isOut && a.isChan, a.deq, false⟩
  | .agenStep g d => some ⟨g, some d, none, none, d.isOut, true, false⟩
  | .atom g aop n d a b => some ⟨g, some d, some a, some b, d.isOut && a.isScalar && b.isScalar, (!n || aop.isMinMax), false⟩
  | .ownapApply g a => some ⟨g, none, some a, none, a.isChan, a.deq, false⟩
  | .ownapReadout g d a => some ⟨g, some d, some a, none, d.isScalar && a.isScalar, (d != .discard || !a.isChan || !a.deq), true⟩
  | .cld g _ _ d a => some ⟨g, some d, some a, none, d.isScalar && a.isScalar, true, true⟩
  | .cst g _ _ a b => some ⟨g, none, some a, some b, a.isScalar && b.isScalar, true, false⟩
  | .cvld g d a => some ⟨g, some d, some a, none, d.isVector && a.isScalar, true, false⟩
  | .cvst g a b => some ⟨g, none, some a, some b, a.isScalar && b.isVector && !b.isLane, true, false⟩
  | .rtake g d a => some ⟨g, some d, some a, none, d.isOut && a.isScalar, true, true⟩
  | .mxcfg g d a => some ⟨g, some d, some a, none, d.isOut && a.isScalar, true, false⟩
  | .mxstat g d a => some ⟨g, some d, some a, none, d.isOut && a.isScalar, true, false⟩
  | .mxldb g d a b => some ⟨g, some d, some a, some b, d.isOut && a.isAddr && b.isScalar, true, false⟩
  | .mxrow g d a b => some ⟨g, some d, some a, some b, d.isOut && a.isScalar && b.isScalar, true, false⟩
  | .mxacc g d a b => some ⟨g, some d, some a, some b, d.isOut && a.isScalar && b.isScalar, true, false⟩
  | .mxdrn g d a b => some ⟨g, some d, some a, some b, d.isOut && a.isScalar && b.isScalar, true, false⟩
  | .mxgrp g d a => some ⟨g, some d, some a, none, d.isOut && a.isAddr, true, false⟩
  | .sxcpy g d a => some ⟨g, some d, some a, none, d.isOut && a.isAddr, true, false⟩
  | .sxgth g d a => some ⟨g, some d, some a, none, d.isOut && a.isAddr, true, false⟩
  | .sxsct g d a => some ⟨g, some d, some a, none, d.isOut && a.isAddr, true, false⟩
  | .sxdeep g d a => some ⟨g, some d, some a, none, d.isOut && a.isAddr, true, false⟩
  | .xpcfg g d a => some ⟨g, some d, some a, none, d.isOut && a.isAddr, true, false⟩
  | .wrsrt g d a => some ⟨g, some d, some a, none, d.isOut && a.isAddr, true, false⟩
  | .phint g a b => some ⟨g, none, some a, some b, a.isScalar && b.isScalar, true, false⟩
  | _ => none

/-- Whether every field of a pump body instruction holds a value its entry defines (R96, R103); `true` for an
instruction that is no pump body instruction. -/
def Instr.pumpFieldsOk : Instr → Bool
  | .cas _ w _ _ _ _ _ => w.isAtomic
  | .swap _ w _ _ _ _ _ => w.isAtomic
  | .fadd _ w _ _ _ _ _ => w.isAtomic
  | .fmin _ w _ _ _ _ _ => w.isAtomic
  | .fmax _ w _ _ _ _ _ => w.isAtomic
  | .fand _ w _ _ _ _ _ => w.isAtomic
  | .fOr _ w _ _ _ _ _ => w.isAtomic
  | .waitv _ w _ _ _ _ _ _ => w.isAtomic
  | .skip _ cnt24 => 1 ≤ cnt24 && cnt24 ≤ 31
  | .cfgrdTake _ rd => rd.val % 2 == 0
  | .wcand _ rd _ => rd.val % 4 == 0
  | .verd _ ra _ => ra.val % 4 == 0
  | .wdraw _ _ _ rb => rb.val % 2 == 0
  | .wstat _ item _ _ v16 => (item.val == 5 || v16 == 0)
  | .migrIn _ _ rb _ => rb.val % 2 == 0
  | .sysr _ _ sidx => sysIndexListed sidx.toNat
  | .sysw _ sidx _ => sysIndexListed sidx.toNat
  | _ => true

/-- Why an instruction is refused: the operand-code violations of R92 and the reserved values of R103. -/
inductive Violation where
  /-- R92 items 1 to 3 and 6: a class the opcode does not allow in the field. -/
  | operandClass
  /-- R103: a reserved format, rounding, sub-function or field value. -/
  | reservedValue
  /-- R92 item 9: a PVAL bit outside PCARE. -/
  | predicateOutsideCare
  /-- R92 item 7: a head-tag test on an operand A that is no channel. -/
  | headTagWithoutChannel
  /-- R92 item 8: =p on an instruction that defines no result bit. -/
  | loadWithoutResult
  deriving DecidableEq, Repr

/-- The first violation of an element instruction's operands and guard fields. -/
def Operands.violation (o : Operands) : Option Violation :=
  if !o.classOk then some .operandClass
  else if !o.valueOk then some .reservedValue
  else if o.g.pval &&& ~~~o.g.pcare != 0 then some .predicateOutsideCare
  else if o.g.htag.isSome && !(o.a.any Src.isChan) then some .headTagWithoutChannel
  else if o.g.updIsLoad && !o.hasRes then some .loadWithoutResult
  else none

/-- The first violation of an instruction, by name. -/
def Instr.violation (i : Instr) : Option Violation :=
  match i.operands with
  | some o => o.violation
  | none => if i.pumpFieldsOk then none else some .reservedValue

/-- An instruction that no rule of R92 or R103 makes illegal by its word alone. -/
def Instr.wellFormed (i : Instr) : Bool := i.violation.isNone

end Sys2Proof
end

