-- ==== Sys2Proof/Decode.lean ====
section
/-! DEFINITION. The encodings of spec/06_encoding.md: formats E, EI and P to the bit (R88 to R98), the decoder,
which refuses by name, and the encoder, both written from the opcode maps R99 to R102. -/

namespace Sys2Proof

/-! ### Codes -/

def bit (b : Bool) : Nat := if b then 1 else 0
/-- The natural bit at MOD[3] or FN[27] (R94, R97). -/
def nBit (n : Bool) : Nat := if n then 8 else 0
/-- The low bits of a field as an index. -/
def fin (n : Nat) [NeZero n] (k : Nat) : Fin n := Fin.ofNat n k

def Src.code : Src → Nat
  | .x n => n.val
  | .v n => 16 + n.val
  | .acc n => 24 + n.val
  | .zero => 28
  | .lane => 29
  | .coord => 30
  | .stage => 31
  | .chan n _ => 32 + n.val
  | .w n => 48 + n.val

def Src.deqBit (a : Src) : Nat := bit a.deq

/-- The source operand of a 6-bit code (R91). -/
def Src.ofCode (c : Nat) (deq : Bool) : Option Src :=
  if c < 16 then some (.x (fin 16 c))
  else if c < 24 then some (.v (fin 8 c))
  else if c < 28 then some (.acc (fin 4 c))
  else if c = 28 then some .zero
  else if c = 29 then some .lane
  else if c = 30 then some .coord
  else if c = 31 then some .stage
  else if c < 48 then some (.chan (fin 16 c) deq)
  else if c < 64 then some (.w (fin 16 c))
  else none

def Dst.code : Dst → Nat
  | .x n => n.val
  | .v n => 16 + n.val
  | .acc n => 24 + n.val
  | .discard => 28
  | .out n => 32 + n.val
  | .w n => 48 + n.val

/-- The destination operand of a 6-bit code; codes 29 to 31 are not allowed (R91). -/
def Dst.ofCode (c : Nat) : Option Dst :=
  if c < 16 then some (.x (fin 16 c))
  else if c < 24 then some (.v (fin 8 c))
  else if c < 28 then some (.acc (fin 4 c))
  else if c = 28 then some .discard
  else if c < 32 then none
  else if c < 48 then some (.out (fin 16 c))
  else if c < 64 then some (.w (fin 16 c))
  else none

def optCode : Option Src → Nat
  | none => 0
  | some b => b.code
def optDeqBit : Option Src → Nat
  | none => 0
  | some b => b.deqBit
/-- DEQ's second channel, which is not named where field B is 0 (R160). -/
def optSrc (c : Nat) (deq : Bool) : Option (Option Src) :=
  if c = 0 then some none else (Src.ofCode c deq).map some

def Fmt.code : Fmt → Nat
  | .fp32 => 0 | .bf16 => 1 | .fp16 => 2 | .e4m3 => 3 | .e5m2 => 4 | .e3m2 => 5 | .e2m3 => 6 | .e2m1 => 7
  | .int8 => 8 | .int4 => 9 | .ix4 => 10 | .e8m0 => 11 | .int32 => 12
def Fmt.ofCode : Nat → Option Fmt
  | 0 => some .fp32 | 1 => some .bf16 | 2 => some .fp16 | 3 => some .e4m3 | 4 => some .e5m2 | 5 => some .e3m2
  | 6 => some .e2m3 | 7 => some .e2m1 | 8 => some .int8 | 9 => some .int4 | 10 => some .ix4 | 11 => some .e8m0
  | 12 => some .int32 | _ => none

def Rnd.code : Rnd → Nat
  | .rne => 0 | .rtz => 1 | .rdn => 2 | .rup => 3 | .srk => 4
def Rnd.ofCode : Nat → Option Rnd
  | 0 => some .rne | 1 => some .rtz | 2 => some .rdn | 3 => some .rup | 4 => some .srk | _ => none

def Rel.code : Rel → Nat
  | .eq => 0 | .ne => 1 | .lt => 2 | .le => 3 | .gt => 4 | .ge => 5
def Rel.ofCode : Nat → Option Rel
  | 0 => some .eq | 1 => some .ne | 2 => some .lt | 3 => some .le | 4 => some .gt | 5 => some .ge | _ => none

def LogicOp.code : LogicOp → Nat
  | .and => 0 | .or => 1 | .xor => 2 | .andn => 3 | .nand => 4 | .nor => 5 | .xnor => 6 | .orn => 7
def LogicOp.ofCode : Nat → LogicOp
  | 0 => .and | 1 => .or | 2 => .xor | 3 => .andn | 4 => .nand | 5 => .nor | 6 => .xnor | _ => .orn

def RedKind.code : RedKind → Nat
  | .sum => 0 | .min => 1 | .max => 2
def RedKind.ofCode : Nat → Option RedKind
  | 0 => some .sum | 1 => some .min | 2 => some .max | _ => none

def LaneW.code : LaneW → Nat
  | .w8 => 0 | .w16 => 1 | .w32 => 2
def LaneW.ofCode : Nat → Option LaneW
  | 0 => some .w8 | 1 => some .w16 | 2 => some .w32 | _ => none

def VTest.code : VTest → Nat
  | .lt => 0 | .eq => 1 | .gt => 2 | .un => 3
def VTest.ofCode : Nat → VTest
  | 0 => .lt | 1 => .eq | 2 => .gt | _ => .un

def VLogOp.code : VLogOp → Nat
  | .and => 0 | .or => 1 | .xor => 2 | .andn => 3 | .not => 4
def VLogOp.ofCode : Nat → Option VLogOp
  | 0 => some .and | 1 => some .or | 2 => some .xor | 3 => some .andn | 4 => some .not | _ => none

def ShOp.code : ShOp → Nat
  | .shl => 0 | .shr => 1 | .sra => 2 | .rot => 3
def ShOp.ofCode : Nat → ShOp
  | 0 => .shl | 1 => .shr | 2 => .sra | _ => .rot

def MemW.code : MemW → Nat
  | .b4 => 0 | .b2 => 1 | .b1 => 2
def MemW.ofCode : Nat → Option MemW
  | 0 => some .b4 | 1 => some .b2 | 2 => some .b1 | _ => none

def AtomOp.code : AtomOp → Nat
  | .add => 0 | .min => 1 | .max => 2 | .and => 3 | .or => 4 | .xor => 5 | .count => 6 | .xadd => 7
def AtomOp.ofCode : Nat → AtomOp
  | 0 => .add | 1 => .min | 2 => .max | 3 => .and | 4 => .or | 5 => .xor | 6 => .count | _ => .xadd

def PumpW.code : PumpW → Nat
  | .w64 => 0 | .w32 => 1 | .w16 => 2 | .w8 => 3
def PumpW.ofCode : Nat → PumpW
  | 0 => .w64 | 1 => .w32 | 2 => .w16 | _ => .w8

def Scope.code : Scope → Nat
  | .element => 0 | .tile => 1 | .region => 2 | .die => 3 | .module => 4 | .domain => 5
def Scope.ofCode : Nat → Option Scope
  | 0 => some .element | 1 => some .tile | 2 => some .region | 3 => some .die | 4 => some .module
  | 5 => some .domain | _ => none

def PSrc.isImm : PSrc → Bool
  | .imm _ => true
  | .reg _ => false
def PSrc.regVal : PSrc → Nat
  | .reg n => n.val
  | .imm _ => 0
def PSrc.immVal : PSrc → Nat
  | .reg _ => 0
  | .imm v => v.toNat

def PredOp.code : PredOp → Nat
  | .set => 0 | .clear => 1 | .load => 2 | .toggle => 3
def PredOp.ofCode : Nat → PredOp
  | 0 => .set | 1 => .clear | 2 => .load | _ => .toggle

/-! ### Fields -/

/-- Bits [11:0] of format E: B, DEQ and MOD (R88). -/
def lowE (b deqA deqB mod : Nat) : Nat := b * 64 + deqA * 32 + deqB * 16 + mod
/-- IMM12 of an EI conversion (R100). -/
def lowConv (df sf : Fmt) (rnd : Rnd) : Nat := df.code * 256 + sf.code * 16 + rnd.code * 2

structure ElemFields where
  g   : Guard
  op  : Nat
  dst : Nat
  a   : Nat
  low : Nat
  deriving DecidableEq, Repr

structure PumpFields where
  h   : Skip
  op  : Nat
  d   : Nat
  a   : Nat
  b   : Nat
  imm : Bool
  fn  : Nat
  i24 : Nat
  deriving DecidableEq, Repr

/-- The fields of an element instruction's word, from the opcode maps of R99 to R101. -/
def Instr.elemFields : Instr → Option ElemFields
  | .add g d a b => some ⟨g, 0x0, d.code, a.code, lowE (b.code) (a.deqBit) (b.deqBit) (0)⟩
  | .sub g d a b => some ⟨g, 0x1, d.code, a.code, lowE (b.code) (a.deqBit) (b.deqBit) (0)⟩
  | .mul g d a b => some ⟨g, 0x2, d.code, a.code, lowE (b.code) (a.deqBit) (b.deqBit) (0)⟩
  | .mulh g d a b => some ⟨g, 0x3, d.code, a.code, lowE (b.code) (a.deqBit) (b.deqBit) (0)⟩
  | .mulhn g d a b => some ⟨g, 0x4, d.code, a.code, lowE (b.code) (a.deqBit) (b.deqBit) (8)⟩
  | .adds g n d a b => some ⟨g, 0x5, d.code, a.code, lowE (b.code) (a.deqBit) (b.deqBit) (nBit n)⟩
  | .subs g n d a b => some ⟨g, 0x6, d.code, a.code, lowE (b.code) (a.deqBit) (b.deqBit) (nBit n)⟩
  | .and g d a b => some ⟨g, 0x7, d.code, a.code, lowE (b.code) (a.deqBit) (b.deqBit) (0)⟩
  | .or g d a b => some ⟨g, 0x8, d.code, a.code, lowE (b.code) (a.deqBit) (b.deqBit) (0)⟩
  | .xor g d a b => some ⟨g, 0x9, d.code, a.code, lowE (b.code) (a.deqBit) (b.deqBit) (0)⟩
  | .andn g d a b => some ⟨g, 0xa, d.code, a.code, lowE (b.code) (a.deqBit) (b.deqBit) (0)⟩
  | .shl g d a b => some ⟨g, 0xb, d.code, a.code, lowE (b.code) (a.deqBit) (b.deqBit) (0)⟩
  | .shr g d a b => some ⟨g, 0xc, d.code, a.code, lowE (b.code) (a.deqBit) (b.deqBit) (8)⟩
  | .sra g d a b => some ⟨g, 0xd, d.code, a.code, lowE (b.code) (a.deqBit) (b.deqBit) (0)⟩
  | .rot g d a b => some ⟨g, 0xe, d.code, a.code, lowE (b.code) (a.deqBit) (b.deqBit) (0)⟩
  | .min g d a b => some ⟨g, 0xf, d.code, a.code, lowE (b.code) (a.deqBit) (b.deqBit) (0)⟩
  | .max g d a b => some ⟨g, 0x10, d.code, a.code, lowE (b.code) (a.deqBit) (b.deqBit) (0)⟩
  | .minn g d a b => some ⟨g, 0x11, d.code, a.code, lowE (b.code) (a.deqBit) (b.deqBit) (8)⟩
  | .maxn g d a b => some ⟨g, 0x12, d.code, a.code, lowE (b.code) (a.deqBit) (b.deqBit) (8)⟩
  | .cmp g rel n d a b => some ⟨g, 0x13, d.code, a.code, lowE (b.code) (a.deqBit) (b.deqBit) (rel.code + nBit n)⟩
  | .tst g none1 d a b => some ⟨g, 0x14, d.code, a.code, lowE (b.code) (a.deqBit) (b.deqBit) (bit none1)⟩
  | .sel g pid d a b => some ⟨g, 0x15, d.code, a.code, lowE (b.code) (a.deqBit) (b.deqBit) (pid.val)⟩
  | .clz g d a => some ⟨g, 0x16, d.code, a.code, lowE (0) (a.deqBit) (0) (0)⟩
  | .popc g d a => some ⟨g, 0x17, d.code, a.code, lowE (0) (a.deqBit) (0) (0)⟩
  | .bfx g n d a b => some ⟨g, 0x18, d.code, a.code, lowE (b.code) (a.deqBit) (b.deqBit) (nBit n)⟩
  | .bfi g d a b => some ⟨g, 0x19, d.code, a.code, lowE (b.code) (a.deqBit) (b.deqBit) (0)⟩
  | .mov g d a => some ⟨g, 0x1a, d.code, a.code, lowE (0) (a.deqBit) (0) (0)⟩
  | .pset g a => some ⟨g, 0x1b, 0, a.code, lowE (0) (a.deqBit) (0) (0)⟩
  | .plog g lop pj pk => some ⟨g, 0x1c, 0, pj.val, lowE (pk.val) (0) (0) (lop.code)⟩
  | .cnt g n d a b => some ⟨g, 0x1d, d.code, a.code, lowE (b.code) (a.deqBit) (b.deqBit) (nBit n)⟩
  | .qset g q a => some ⟨g, 0x1e, 0, a.code, lowE (0) (a.deqBit) (0) (q.val)⟩
  | .addImm g d a imm => some ⟨g, 0x20, d.code, a.code, imm.toNat⟩
  | .subImm g d a imm => some ⟨g, 0x21, d.code, a.code, imm.toNat⟩
  | .mulImm g d a imm => some ⟨g, 0x22, d.code, a.code, imm.toNat⟩
  | .mulhImm g d a imm => some ⟨g, 0x23, d.code, a.code, imm.toNat⟩
  | .mulhnImm g d a imm => some ⟨g, 0x24, d.code, a.code, imm.toNat⟩
  | .addsImm g d a imm => some ⟨g, 0x25, d.code, a.code, imm.toNat⟩
  | .subsImm g d a imm => some ⟨g, 0x26, d.code, a.code, imm.toNat⟩
  | .andImm g d a imm => some ⟨g, 0x27, d.code, a.code, imm.toNat⟩
  | .orImm g d a imm => some ⟨g, 0x28, d.code, a.code, imm.toNat⟩
  | .xorImm g d a imm => some ⟨g, 0x29, d.code, a.code, imm.toNat⟩
  | .andnImm g d a imm => some ⟨g, 0x2a, d.code, a.code, imm.toNat⟩
  | .shlImm g d a imm => some ⟨g, 0x2b, d.code, a.code, imm.toNat⟩
  | .shrImm g d a imm => some ⟨g, 0x2c, d.code, a.code, imm.toNat⟩
  | .sraImm g d a imm => some ⟨g, 0x2d, d.code, a.code, imm.toNat⟩
  | .rotImm g d a imm => some ⟨g, 0x2e, d.code, a.code, imm.toNat⟩
  | .minImm g d a imm => some ⟨g, 0x2f, d.code, a.code, imm.toNat⟩
  | .maxImm g d a imm => some ⟨g, 0x30, d.code, a.code, imm.toNat⟩
  | .minnImm g d a imm => some ⟨g, 0x31, d.code, a.code, imm.toNat⟩
  | .maxnImm g d a imm => some ⟨g, 0x32, d.code, a.code, imm.toNat⟩
  | .movi g d imm => some ⟨g, 0x3a, d.code, 0, imm.toNat⟩
  | .cntImm g d a imm => some ⟨g, 0x3d, d.code, a.code, imm.toNat⟩
  | .movs g d imm => some ⟨g, 0x3f, d.code, d.code, imm.toNat⟩
  | .nop g => some ⟨g, 0xe0, 0, 0, lowE (0) (0) (0) (0)⟩
  | .halt g => some ⟨g, 0xe1, 0, 0, lowE (0) (0) (0) (0)⟩
  | .trap g a => some ⟨g, 0xe2, 0, a.code, lowE (0) (a.deqBit) (0) (0)⟩
  | .plane g k4 => some ⟨g, 0xe3, 0, 0, lowE (0) (0) (0) (k4.val)⟩
  | .chgq g d => some ⟨g, 0xe4, d.code, 0, lowE (0) (0) (0) (0)⟩
  | .vadd g fmt d a b => some ⟨g, 0x40, d.code, a.code, lowE (b.code) (a.deqBit) (b.deqBit) (fmt.code)⟩
  | .vsub g fmt d a b => some ⟨g, 0x41, d.code, a.code, lowE (b.code) (a.deqBit) (b.deqBit) (fmt.code)⟩
  | .vmul g fmt d a b => some ⟨g, 0x42, d.code, a.code, lowE (b.code) (a.deqBit) (b.deqBit) (fmt.code)⟩
  | .vmax g fmt d a b => some ⟨g, 0x45, d.code, a.code, lowE (b.code) (a.deqBit) (b.deqBit) (fmt.code)⟩
  | .vmin g fmt d a b => some ⟨g, 0x46, d.code, a.code, lowE (b.code) (a.deqBit) (b.deqBit) (fmt.code)⟩
  | .vclamp g fmt d a b => some ⟨g, 0x49, d.code, a.code, lowE (b.code) (a.deqBit) (b.deqBit) (fmt.code)⟩
  | .vfma g fmt d a b => some ⟨g, 0x43, d.code, a.code, lowE (b.code) (a.deqBit) (b.deqBit) (fmt.code)⟩
  | .vfms g fmt d a b => some ⟨g, 0x44, d.code, a.code, lowE (b.code) (a.deqBit) (b.deqBit) (fmt.code)⟩
  | .vabs g fmt d a => some ⟨g, 0x47, d.code, a.code, lowE (0) (a.deqBit) (0) (fmt.code)⟩
  | .vneg g fmt d a => some ⟨g, 0x48, d.code, a.code, lowE (0) (a.deqBit) (0) (fmt.code)⟩
  | .vrcp g fmt d a => some ⟨g, 0x50, d.code, a.code, lowE (0) (a.deqBit) (0) (fmt.code)⟩
  | .vrsq g fmt d a => some ⟨g, 0x51, d.code, a.code, lowE (0) (a.deqBit) (0) (fmt.code)⟩
  | .vsqrt g fmt d a => some ⟨g, 0x52, d.code, a.code, lowE (0) (a.deqBit) (0) (fmt.code)⟩
  | .vexp2 g fmt d a => some ⟨g, 0x53, d.code, a.code, lowE (0) (a.deqBit) (0) (fmt.code)⟩
  | .vlog2 g fmt d a => some ⟨g, 0x54, d.code, a.code, lowE (0) (a.deqBit) (0) (fmt.code)⟩
  | .vtanh g fmt d a => some ⟨g, 0x55, d.code, a.code, lowE (0) (a.deqBit) (0) (fmt.code)⟩
  | .vred g kind fmt d a => some ⟨g, 0x58, d.code, a.code, lowE (kind.code) (a.deqBit) (0) (fmt.code)⟩
  | .vamax g fmt d a => some ⟨g, 0x59, d.code, a.code, lowE (0) (a.deqBit) (0) (fmt.code)⟩
  | .vcmp g fmt d a b => some ⟨g, 0x5c, d.code, a.code, lowE (b.code) (a.deqBit) (b.deqBit) (fmt.code)⟩
  | .vsel g lw vtest d a b => some ⟨g, 0x5d, d.code, a.code, lowE (b.code) (a.deqBit) (b.deqBit) (lw.code + 4 * vtest.code)⟩
  | .vlog g vlop d a b => some ⟨g, 0x5e, d.code, a.code, lowE ((if vlop == .not then 0 else b.code)) (a.deqBit) ((if vlop == .not then 0 else b.deqBit)) (vlop.code)⟩
  | .vsh g lw shop d a b => some ⟨g, 0x5f, d.code, a.code, lowE (b.code) (a.deqBit) (b.deqBit) (lw.code + 4 * shop.code)⟩
  | .vbcst g fmt d a => some ⟨g, 0x60, d.code, a.code, lowE (0) (a.deqBit) (0) (fmt.code)⟩
  | .vext g fmt d a b => some ⟨g, 0x61, d.code, a.code, lowE (b.code) (a.deqBit) (b.deqBit) (fmt.code)⟩
  | .vins g fmt d a b => some ⟨g, 0x62, d.code, a.code, lowE (b.code) (a.deqBit) (b.deqBit) (fmt.code)⟩
  | .viota g fmt d a b => some ⟨g, 0x63, d.code, a.code, lowE (b.code) (a.deqBit) (b.deqBit) (fmt.code)⟩
  | .vshuf g lw d a b => some ⟨g, 0x64, d.code, a.code, lowE (b.code) (a.deqBit) (b.deqBit) (lw.code)⟩
  | .vcvt g df sf rnd d a => some ⟨g, 0x68, d.code, a.code, lowConv df sf rnd⟩
  | .vpack g df sf rnd d a => some ⟨g, 0x69, d.code, a.code, lowConv df sf rnd⟩
  | .vunpk g df sf rnd d a => some ⟨g, 0x6a, d.code, a.code, lowConv df sf rnd⟩
  | .vqnt g df sf rnd d a => some ⟨g, 0x6b, d.code, a.code, lowConv df sf rnd⟩
  | .vdqnt g df sf rnd d a => some ⟨g, 0x6c, d.code, a.code, lowConv df sf rnd⟩
  | .vrng g rk d a b => some ⟨g, 0x70, d.code, a.code, lowE (b.code) (a.deqBit) (b.deqBit) (rk.val)⟩
  | .vdrop g fmt d a b => some ⟨g, 0x71, d.code, a.code, lowE (b.code) (a.deqBit) (b.deqBit) (fmt.code)⟩
  | .vacc g fmt d a => some ⟨g, 0x74, d.code, a.code, lowE (0) (a.deqBit) (0) (fmt.code)⟩
  | .cturn g lw d a => some ⟨g, 0x75, d.code, a.code, lowE (0) (a.deqBit) (0) (lw.code)⟩
  | .fwd g d a b => some ⟨g, 0x80, d.code, a.code, lowE (b.code) (a.deqBit) (b.deqBit) (0)⟩
  | .deq g a bo => some ⟨g, 0x81, 0, a.code, lowE (optCode bo) (a.deqBit) (optDeqBit bo) (0)⟩
  | .steer g d a b => some ⟨g, 0x82, d.code, a.code, lowE (b.code) (a.deqBit) (b.deqBit) (0)⟩
  | .mrgo g d a b => some ⟨g, 0x83, d.code, a.code, lowE (b.code) (a.deqBit) (b.deqBit) (0)⟩
  | .mrga g d a b => some ⟨g, 0x84, d.code, a.code, lowE (b.code) (a.deqBit) (b.deqBit) (0)⟩
  | .tag g tagv d a => some ⟨g, 0x85, d.code, a.code, lowE (0) (a.deqBit) (0) (tagv.val)⟩
  | .markStroke g => some ⟨g, 0x86, 28, 28, lowE (0) (0) (0) (0)⟩
  | .markDrain g => some ⟨g, 0x86, 28, 28, lowE (0) (0) (0) (1)⟩
  | .markFreeze g => some ⟨g, 0x86, 28, 28, lowE (0) (0) (0) (2)⟩
  | .markBarrier g d => some ⟨g, 0x86, d.code, 28, lowE (0) (0) (0) (3)⟩
  | .markCut g d a => some ⟨g, 0x86, d.code, a.code, lowE (0) (a.deqBit) (0) (4)⟩
  | .crget g ring d => some ⟨g, 0x87, d.code, 0, lowE (0) (0) (0) (ring.val)⟩
  | .crput g ring a => some ⟨g, 0x88, 0, a.code, lowE (0) (a.deqBit) (0) (ring.val)⟩
  | .ld g mw n d a b => some ⟨g, 0xa0, d.code, a.code, lowE (b.code) (a.deqBit) (b.deqBit) (mw.code + nBit n)⟩
  | .st g mw n a b => some ⟨g, 0xa1, 0, a.code, lowE (b.code) (a.deqBit) (b.deqBit) (mw.code + nBit n)⟩
  | .vld g d a b => some ⟨g, 0xa2, d.code, a.code, lowE (b.code) (a.deqBit) (b.deqBit) (0)⟩
  | .vst g a b => some ⟨g, 0xa3, 0, a.code, lowE (b.code) (a.deqBit) (b.deqBit) (0)⟩
  | .lds g d a b => some ⟨g, 0xa4, d.code, a.code, lowE (b.code) (a.deqBit) (b.deqBit) (0)⟩
  | .stf g a b => some ⟨g, 0xa5, 0, a.code, lowE (b.code) (a.deqBit) (b.deqBit) (0)⟩
  | .ldc g d a b => some ⟨g, 0xa6, d.code, a.code, lowE (b.code) (a.deqBit) (b.deqBit) (0)⟩
  | .xlat g wr d a => some ⟨g, 0xa8, d.code, a.code, lowE (0) (a.deqBit) (0) (bit wr)⟩
  | .agenRearm g d a => some ⟨g, 0xa9, d.code, a.code, lowE (0) (a.deqBit) (0) (0)⟩
  | .agenStep g d => some ⟨g, 0xa9, d.code, 28, lowE (0) (0) (0) (0)⟩
  | .atom g aop n d a b => some ⟨g, 0xaa, d.code, a.code, lowE (b.code) (a.deqBit) (b.deqBit) (aop.code + nBit n)⟩
  | .ownapApply g a => some ⟨g, 0xab, 28, a.code, lowE (0) (a.deqBit) (0) (0)⟩
  | .ownapReadout g d a => some ⟨g, 0xab, d.code, a.code, lowE (0) (a.deqBit) (0) (0)⟩
  | .cld g mw n d a => some ⟨g, 0xb0, d.code, a.code, lowE (0) (a.deqBit) (0) (mw.code + nBit n)⟩
  | .cst g mw n a b => some ⟨g, 0xb1, 0, a.code, lowE (b.code) (a.deqBit) (b.deqBit) (mw.code + nBit n)⟩
  | .cvld g d a => some ⟨g, 0xb2, d.code, a.code, lowE (0) (a.deqBit) (0) (0)⟩
  | .cvst g a b => some ⟨g, 0xb3, 0, a.code, lowE (b.code) (a.deqBit) (b.deqBit) (0)⟩
  | .rtake g d a => some ⟨g, 0xb8, d.code, a.code, lowE (0) (a.deqBit) (0) (0)⟩
  | .mxcfg g d a => some ⟨g, 0xc0, d.code, a.code, lowE (0) (a.deqBit) (0) (0)⟩
  | .mxstat g d a => some ⟨g, 0xc6, d.code, a.code, lowE (0) (a.deqBit) (0) (0)⟩
  | .mxldb g d a b => some ⟨g, 0xc1, d.code, a.code, lowE (b.code) (a.deqBit) (b.deqBit) (0)⟩
  | .mxrow g d a b => some ⟨g, 0xc2, d.code, a.code, lowE (b.code) (a.deqBit) (b.deqBit) (0)⟩
  | .mxacc g d a b => some ⟨g, 0xc3, d.code, a.code, lowE (b.code) (a.deqBit) (b.deqBit) (0)⟩
  | .mxdrn g d a b => some ⟨g, 0xc4, d.code, a.code, lowE (b.code) (a.deqBit) (b.deqBit) (0)⟩
  | .mxgrp g d a => some ⟨g, 0xc5, d.code, a.code, lowE (0) (a.deqBit) (0) (0)⟩
  | .sxcpy g d a => some ⟨g, 0xc8, d.code, a.code, lowE (0) (a.deqBit) (0) (0)⟩
  | .sxgth g d a => some ⟨g, 0xc9, d.code, a.code, lowE (0) (a.deqBit) (0) (0)⟩
  | .sxsct g d a => some ⟨g, 0xca, d.code, a.code, lowE (0) (a.deqBit) (0) (0)⟩
  | .sxdeep g d a => some ⟨g, 0xcb, d.code, a.code, lowE (0) (a.deqBit) (0) (0)⟩
  | .xpcfg g d a => some ⟨g, 0xd0, d.code, a.code, lowE (0) (a.deqBit) (0) (0)⟩
  | .wrsrt g d a => some ⟨g, 0xd1, d.code, a.code, lowE (0) (a.deqBit) (0) (0)⟩
  | .phint g a b => some ⟨g, 0xd8, 0, a.code, lowE (b.code) (a.deqBit) (b.deqBit) (0)⟩
  | _ => none

/-- The fields of a pump body instruction's word, from the opcode map of R102. -/
def Instr.pumpFields : Instr → Option PumpFields
  | .pumpAdd h w n rd ra pb => some ⟨h, 0x0, rd.val, ra.val, pb.regVal, pb.isImm, w.code * 16 + nBit n, pb.immVal⟩
  | .pumpSub h w n rd ra pb => some ⟨h, 0x1, rd.val, ra.val, pb.regVal, pb.isImm, w.code * 16 + nBit n, pb.immVal⟩
  | .pumpMul h w n rd ra pb => some ⟨h, 0x2, rd.val, ra.val, pb.regVal, pb.isImm, w.code * 16 + nBit n, pb.immVal⟩
  | .pumpMulh h w rd ra pb => some ⟨h, 0x3, rd.val, ra.val, pb.regVal, pb.isImm, w.code * 16 + 0, pb.immVal⟩
  | .pumpMulhn h w rd ra pb => some ⟨h, 0x4, rd.val, ra.val, pb.regVal, pb.isImm, w.code * 16 + 8, pb.immVal⟩
  | .pumpAdds h w n rd ra pb => some ⟨h, 0x5, rd.val, ra.val, pb.regVal, pb.isImm, w.code * 16 + nBit n, pb.immVal⟩
  | .pumpSubs h w n rd ra pb => some ⟨h, 0x6, rd.val, ra.val, pb.regVal, pb.isImm, w.code * 16 + nBit n, pb.immVal⟩
  | .pumpAnd h w n rd ra pb => some ⟨h, 0x7, rd.val, ra.val, pb.regVal, pb.isImm, w.code * 16 + nBit n, pb.immVal⟩
  | .pumpOr h w n rd ra pb => some ⟨h, 0x8, rd.val, ra.val, pb.regVal, pb.isImm, w.code * 16 + nBit n, pb.immVal⟩
  | .pumpXor h w n rd ra pb => some ⟨h, 0x9, rd.val, ra.val, pb.regVal, pb.isImm, w.code * 16 + nBit n, pb.immVal⟩
  | .pumpAndn h w n rd ra pb => some ⟨h, 0xa, rd.val, ra.val, pb.regVal, pb.isImm, w.code * 16 + nBit n, pb.immVal⟩
  | .pumpShl h w n rd ra pb => some ⟨h, 0xb, rd.val, ra.val, pb.regVal, pb.isImm, w.code * 16 + nBit n, pb.immVal⟩
  | .pumpShr h w rd ra pb => some ⟨h, 0xc, rd.val, ra.val, pb.regVal, pb.isImm, w.code * 16 + 8, pb.immVal⟩
  | .pumpSra h w rd ra pb => some ⟨h, 0xd, rd.val, ra.val, pb.regVal, pb.isImm, w.code * 16 + 0, pb.immVal⟩
  | .pumpRot h w n rd ra pb => some ⟨h, 0xe, rd.val, ra.val, pb.regVal, pb.isImm, w.code * 16 + nBit n, pb.immVal⟩
  | .pumpMin h w rd ra pb => some ⟨h, 0xf, rd.val, ra.val, pb.regVal, pb.isImm, w.code * 16 + 0, pb.immVal⟩
  | .pumpMax h w rd ra pb => some ⟨h, 0x10, rd.val, ra.val, pb.regVal, pb.isImm, w.code * 16 + 0, pb.immVal⟩
  | .pumpMinn h w rd ra pb => some ⟨h, 0x11, rd.val, ra.val, pb.regVal, pb.isImm, w.code * 16 + 8, pb.immVal⟩
  | .pumpMaxn h w rd ra pb => some ⟨h, 0x12, rd.val, ra.val, pb.regVal, pb.isImm, w.code * 16 + 8, pb.immVal⟩
  | .pumpCmp h rel w n rd ra pb => some ⟨h, 0x13, rd.val, ra.val, pb.regVal, pb.isImm, w.code * 16 + nBit n + rel.code, pb.immVal⟩
  | .pumpTst h none1 w n rd ra pb => some ⟨h, 0x14, rd.val, ra.val, pb.regVal, pb.isImm, w.code * 16 + nBit n + bit none1, pb.immVal⟩
  | .pumpSel h w n pd5i rd ra rb => some ⟨h, 0x15, rd.val, ra.val, rb.val, false, w.code * 16 + nBit n, pd5i.val⟩
  | .pumpClz h w n rd ra => some ⟨h, 0x16, rd.val, ra.val, 0, false, w.code * 16 + nBit n, 0⟩
  | .pumpPopc h w n rd ra => some ⟨h, 0x17, rd.val, ra.val, 0, false, w.code * 16 + nBit n, 0⟩
  | .pumpBfx h w n rd ra rb => some ⟨h, 0x18, rd.val, ra.val, rb.val, false, w.code * 16 + nBit n, 0⟩
  | .pumpBfi h w n rd ra rb => some ⟨h, 0x19, rd.val, ra.val, rb.val, false, w.code * 16 + nBit n, 0⟩
  | .pumpMov h w n rd pm => some ⟨h, 0x1a, rd.val, pm.regVal, 0, pm.isImm, w.code * 16 + nBit n, pm.immVal⟩
  | .pumpPset h w pd5 pb => some ⟨h, 0x1b, pd5.val, 0, pb.regVal, pb.isImm, w.code * 16, pb.immVal⟩
  | .pumpPlog h lop w pd5 pa5 pb5 => some ⟨h, 0x1c, pd5.val, pa5.val, pb5.val, false, w.code * 16 + lop.code, 0⟩
  | .div h w rd ra pb => some ⟨h, 0x20, rd.val, ra.val, pb.regVal, pb.isImm, w.code * 16 + 0, pb.immVal⟩
  | .divn h w rd ra pb => some ⟨h, 0x21, rd.val, ra.val, pb.regVal, pb.isImm, w.code * 16 + 8, pb.immVal⟩
  | .rem h w n rd ra pb => some ⟨h, 0x22, rd.val, ra.val, pb.regVal, pb.isImm, w.code * 16 + nBit n, pb.immVal⟩
  | .movk h rd v16 fld => some ⟨h, 0x23, rd.val, 0, 0, false, 0, v16.toNat + 65536 * fld.val⟩
  | .pumpLd h w n rd ra disp => some ⟨h, 0x40, rd.val, ra.val, 0, false, w.code * 16 + nBit n, disp.toNat⟩
  | .pumpSt h w n ra rb disp => some ⟨h, 0x41, 0, ra.val, rb.val, false, w.code * 16 + nBit n, disp.toNat⟩
  | .pumpLds h n rd ra disp => some ⟨h, 0x42, rd.val, ra.val, 0, false, 16 + nBit n, disp.toNat⟩
  | .pumpStf h n ra rb disp => some ⟨h, 0x43, 0, ra.val, rb.val, false, 16 + nBit n, disp.toNat⟩
  | .pumpLdc h n rd ra disp => some ⟨h, 0x44, rd.val, ra.val, 0, false, 16 + nBit n, disp.toNat⟩
  | .cas h w n rd ra rb disp => some ⟨h, 0x48, rd.val, ra.val, rb.val, false, w.code * 16 + nBit n, disp.toNat⟩
  | .swap h w n rd ra rb disp => some ⟨h, 0x49, rd.val, ra.val, rb.val, false, w.code * 16 + nBit n, disp.toNat⟩
  | .fadd h w n rd ra rb disp => some ⟨h, 0x4a, rd.val, ra.val, rb.val, false, w.code * 16 + nBit n, disp.toNat⟩
  | .fmin h w n rd ra rb disp => some ⟨h, 0x4b, rd.val, ra.val, rb.val, false, w.code * 16 + nBit n, disp.toNat⟩
  | .fmax h w n rd ra rb disp => some ⟨h, 0x4c, rd.val, ra.val, rb.val, false, w.code * 16 + nBit n, disp.toNat⟩
  | .fand h w n rd ra rb disp => some ⟨h, 0x4d, rd.val, ra.val, rb.val, false, w.code * 16 + nBit n, disp.toNat⟩
  | .fOr h w n rd ra rb disp => some ⟨h, 0x4e, rd.val, ra.val, rb.val, false, w.code * 16 + nBit n, disp.toNat⟩
  | .fxadd h xf ra rb disp => some ⟨h, 0x4f, 0, ra.val, rb.val, false, bit xf, disp.toNat⟩
  | .fxaddRd h xf clr rd ra disp => some ⟨h, 0x4f, rd.val, ra.val, 0, false, bit xf + 2 + 4 * bit clr, disp.toNat⟩
  | .waitv h w n mon rd ra rb disp => some ⟨h, 0x50, rd.val, ra.val, rb.val, false, w.code * 16 + nBit n + mon.val, disp.toNat⟩
  | .fenceAcq h scope => some ⟨h, 0x51, 0, 0, 0, false, scope.code * 4 + 0, 0⟩
  | .fenceRel h scope => some ⟨h, 0x51, 0, 0, 0, false, scope.code * 4 + 1, 0⟩
  | .fenceFull h scope => some ⟨h, 0x51, 0, 0, 0, false, scope.code * 4 + 2, 0⟩
  | .skip h cnt24 => some ⟨h, 0x60, 0, 0, 0, false, 0, cnt24⟩
  | .abort h => some ⟨h, 0x61, 0, 0, 0, false, 0, 0⟩
  | .noteSend h ra rb => some ⟨h, 0x62, 0, ra.val, rb.val, false, 0, 0⟩
  | .noteTake h rd => some ⟨h, 0x62, rd.val, 0, 0, false, 1, 0⟩
  | .timerOnce h rd ra => some ⟨h, 0x63, rd.val, ra.val, 0, false, 0, 0⟩
  | .timerPer h rd ra => some ⟨h, 0x63, rd.val, ra.val, 0, false, 1, 0⟩
  | .enq h ra rb => some ⟨h, 0x70, 0, ra.val, rb.val, false, 0, 0⟩
  | .deqq h rd ra rb => some ⟨h, 0x71, rd.val, ra.val, rb.val, false, 0, 0⟩
  | .tailw h ra rb => some ⟨h, 0x72, 0, ra.val, rb.val, false, 0, 0⟩
  | .launch h rd ra rb => some ⟨h, 0x73, rd.val, ra.val, rb.val, false, 0, 0⟩
  | .kstat h rd ra => some ⟨h, 0x74, rd.val, ra.val, 0, false, 0, 0⟩
  | .digest h rd ra rb => some ⟨h, 0x75, rd.val, ra.val, rb.val, false, 0, 0⟩
  | .trigbBind h rd ra rb => some ⟨h, 0x76, rd.val, ra.val, rb.val, false, 0, 0⟩
  | .trigbUnbind h rd ra => some ⟨h, 0x76, rd.val, ra.val, 0, false, 1, 0⟩
  | .trigbQuery h rd ra => some ⟨h, 0x76, rd.val, ra.val, 0, false, 2, 0⟩
  | .regionAlloc h rd ra => some ⟨h, 0x77, rd.val, ra.val, 0, false, 0, 0⟩
  | .regionFree h rd ra => some ⟨h, 0x77, rd.val, ra.val, 0, false, 1, 0⟩
  | .rpoolFill h rd ra pool die2 => some ⟨h, 0x78, rd.val, ra.val, 0, false, 0, pool.val + 16 * die2.val⟩
  | .rpoolClose h rd ra pool die2 => some ⟨h, 0x78, rd.val, ra.val, 0, false, 1, pool.val + 16 * die2.val⟩
  | .rpoolQuery h rd ra pool die2 => some ⟨h, 0x78, rd.val, ra.val, 0, false, 2, pool.val + 16 * die2.val⟩
  | .cfgw h ra rb tg => some ⟨h, 0x80, 0, ra.val, rb.val, false, 0, tg.toNat⟩
  | .cfgrdReq h ra tg => some ⟨h, 0x81, 0, ra.val, 0, false, 0, tg.toNat⟩
  | .cfgrdTake h rd => some ⟨h, 0x81, rd.val, 0, 0, false, 1, 0⟩
  | .cfgsig h ra rb key tg => some ⟨h, 0x82, 0, ra.val, rb.val, false, key.val, tg.toNat⟩
  | .crcCfg h ra rb tg => some ⟨h, 0x83, 0, ra.val, rb.val, false, 0, tg.toNat⟩
  | .crcMem h rd ra rb => some ⟨h, 0x83, rd.val, ra.val, rb.val, false, 1, 0⟩
  | .route h rd ra rb => some ⟨h, 0x84, rd.val, ra.val, rb.val, false, 0, 0⟩
  | .prime h ra k4 tg => some ⟨h, 0x85, 0, ra.val, 0, false, k4.val, tg.toNat⟩
  | .freeze h ra tg => some ⟨h, 0x86, 0, ra.val, 0, false, 0, tg.toNat⟩
  | .freezeStroke h ra tg => some ⟨h, 0x86, 0, ra.val, 0, false, 1, tg.toNat⟩
  | .thaw h ra tg => some ⟨h, 0x87, 0, ra.val, 0, false, 0, tg.toNat⟩
  | .imgoutMem h ra rb tg => some ⟨h, 0x88, 0, ra.val, rb.val, false, 0, tg.toNat⟩
  | .imgoutShadow h ra tg => some ⟨h, 0x88, 0, ra.val, 0, false, 1, tg.toNat⟩
  | .imgoutBack h ra tg => some ⟨h, 0x88, 0, ra.val, 0, false, 2, tg.toNat⟩
  | .rsload h ra rb tg => some ⟨h, 0x89, 0, ra.val, rb.val, false, 0, tg.toNat⟩
  | .warm h rd ra rb => some ⟨h, 0x90, rd.val, ra.val, rb.val, false, 0, 0⟩
  | .wcand h rd ra => some ⟨h, 0x91, rd.val, ra.val, 0, false, 0, 0⟩
  | .verd h ra rb => some ⟨h, 0x92, 0, ra.val, rb.val, false, 0, 0⟩
  | .wdraw h rd ra rb => some ⟨h, 0x93, rd.val, ra.val, rb.val, false, 0, 0⟩
  | .wstat h item rd ra v16 => some ⟨h, 0x94, rd.val, ra.val, 0, false, item.val, v16.toNat⟩
  | .wclose h ra => some ⟨h, 0x95, 0, ra.val, 0, false, 0, 0⟩
  | .bara h ra => some ⟨h, 0xa0, 0, ra.val, 0, false, 0, 0⟩
  | .barmSet h ra rb => some ⟨h, 0xa1, 0, ra.val, rb.val, false, 0, 0⟩
  | .barmTake h rd => some ⟨h, 0xa1, rd.val, 0, 0, false, 1, 0⟩
  | .pbudgSet h ra rb => some ⟨h, 0xa2, 0, ra.val, rb.val, false, 0, 0⟩
  | .pbudgGet h rd ra => some ⟨h, 0xa2, rd.val, ra.val, 0, false, 1, 0⟩
  | .spineFreq h ra rb tg => some ⟨h, 0xa3, 0, ra.val, rb.val, false, 0, tg.toNat⟩
  | .spineSel h ra rb tg => some ⟨h, 0xa3, 0, ra.val, rb.val, false, 1, tg.toNat⟩
  | .pumpPhint h ra onset len16 => some ⟨h, 0xa4, 0, ra.val, 0, false, 0, onset.toNat + 256 * len16.toNat⟩
  | .tlbiPage h ra => some ⟨h, 0xb0, 0, ra.val, 0, false, 0, 0⟩
  | .tlbiCtx h => some ⟨h, 0xb0, 0, 0, 0, false, 1, 0⟩
  | .tlbiAll h => some ⟨h, 0xb0, 0, 0, 0, false, 2, 0⟩
  | .migrMove h ra rb tg => some ⟨h, 0xb1, 0, ra.val, rb.val, false, 0, tg.toNat⟩
  | .migrOut h ra rb tg => some ⟨h, 0xb1, 0, ra.val, rb.val, false, 1, tg.toNat⟩
  | .migrIn h ra rb tg => some ⟨h, 0xb1, 0, ra.val, rb.val, false, 2, tg.toNat⟩
  | .pghash h ra rb tg => some ⟨h, 0xb2, 0, ra.val, rb.val, false, 0, tg.toNat⟩
  | .sysr h rd sidx => some ⟨h, 0xc0, rd.val, 0, 0, false, 0, sidx.toNat⟩
  | .sysw h sidx rb => some ⟨h, 0xc1, 0, 0, rb.val, false, 0, sidx.toNat⟩
  | _ => none

/-! ### Packing (R88, R96) -/

def Guard.qtestCode (g : Guard) : Nat :=
  match g.qtest with
  | none => 0
  | some (v, id) => 32 + 16 * bit v + id.val
def Guard.htagCode (g : Guard) : Nat :=
  match g.htag with
  | none => 0
  | some t => 4 + t.val
def Guard.pupdCode (g : Guard) : Nat :=
  match g.upd with
  | none => 0
  | some u => 32 + 8 * u.op.code + u.id.val

def ElemFields.word (f : ElemFields) : Nat :=
  2 ^ 63 + f.g.pcare.toNat * 2 ^ 55 + f.g.pval.toNat * 2 ^ 47 + f.g.qtestCode * 2 ^ 41 + f.g.htagCode * 2 ^ 38 +
    f.op * 2 ^ 30 + f.g.pupdCode * 2 ^ 24 + f.dst * 2 ^ 18 + f.a * 2 ^ 12 + f.low

def Skip.code (h : Skip) : Nat :=
  match h.pred with
  | none => 0
  | some (neg, id) => 64 + 32 * bit neg + id.val

def PumpFields.word (f : PumpFields) : Nat :=
  f.op * 2 ^ 56 + f.d * 2 ^ 50 + f.a * 2 ^ 44 + f.b * 2 ^ 38 + f.h.code * 2 ^ 31 + bit f.imm * 2 ^ 30 + f.fn * 2 ^ 24 +
    f.i24

/-- The word of an instruction that has one; the hardware's own steps have none. -/
def encode (i : Instr) : Option W64 :=
  match i.elemFields with
  | some f => some (BitVec.ofNat 64 f.word)
  | none => (i.pumpFields).map fun f => BitVec.ofNat 64 f.word

/-! ### Unpacking -/

/-- Bits [lo + len - 1 : lo] of a word. -/
def field (w lo len : Nat) : Nat := w / 2 ^ lo % 2 ^ len

/-- The fields of an element slot's word below the guard. -/
structure ElemRaw where
  op  : Nat
  dst : Nat
  a   : Nat
  low : Nat
  deriving DecidableEq, Repr

def ElemRaw.b (f : ElemRaw) : Nat := f.low / 64
def ElemRaw.deqA (f : ElemRaw) : Bool := f.low / 32 % 2 == 1
def ElemRaw.deqB (f : ElemRaw) : Bool := f.low / 16 % 2 == 1
def ElemRaw.mod (f : ElemRaw) : Nat := f.low % 16
def ElemRaw.sub (f : ElemRaw) : Nat := f.low % 8
def ElemRaw.nBit (f : ElemRaw) : Bool := f.low / 8 % 2 == 1

def elemRawOf (w : Nat) : ElemRaw := ⟨field w 30 8, field w 18 6, field w 12 6, field w 0 12⟩

/-- The guard fields of a word (R88). -/
def guardOf (w : Nat) : Guard where
  pcare := BitVec.ofNat 8 (field w 55 8)
  pval := BitVec.ofNat 8 (field w 47 8)
  qtest := if field w 46 1 = 1 then some (field w 45 1 == 1, fin 16 (field w 41 4)) else none
  htag := if field w 40 1 = 1 then some (fin 4 (field w 38 2)) else none
  upd := if field w 29 1 = 1 then some ⟨PredOp.ofCode (field w 27 2), fin 8 (field w 24 3)⟩ else none

structure PumpRaw where
  op  : Nat
  d   : Nat
  a   : Nat
  b   : Nat
  imm : Bool
  fn  : Nat
  i24 : Nat
  deriving DecidableEq, Repr

def PumpRaw.nBit (f : PumpRaw) : Bool := f.fn / 8 % 2 == 1
def PumpRaw.sub (f : PumpRaw) : Nat := f.fn % 8
def PumpRaw.srcB (f : PumpRaw) : PSrc := if f.imm then .imm (BitVec.ofNat 24 f.i24) else .reg (fin 64 f.b)
def PumpRaw.srcA (f : PumpRaw) : PSrc := if f.imm then .imm (BitVec.ofNat 24 f.i24) else .reg (fin 64 f.a)

def pumpRawOf (w : Nat) : PumpRaw :=
  ⟨field w 56 8, field w 50 6, field w 44 6, field w 38 6, field w 30 1 == 1, field w 24 6, field w 0 24⟩

def skipOf (w : Nat) : Skip :=
  ⟨if field w 37 1 = 1 then some (field w 36 1 == 1, fin 32 (field w 31 5)) else none⟩

/-- Reads an element slot's fields by its opcode alone (R89, R99 to R101); the reserved bits of the word are
checked afterwards, by comparing with the encoder. -/
def parseElem (g : Guard) (f : ElemRaw) : Option Instr := do
  match f.op with
  | 0x0 => some (.add g (← Dst.ofCode f.dst) (← Src.ofCode f.a f.deqA) (← Src.ofCode f.b f.deqB))
  | 0x1 => some (.sub g (← Dst.ofCode f.dst) (← Src.ofCode f.a f.deqA) (← Src.ofCode f.b f.deqB))
  | 0x2 => some (.mul g (← Dst.ofCode f.dst) (← Src.ofCode f.a f.deqA) (← Src.ofCode f.b f.deqB))
  | 0x3 => some (.mulh g (← Dst.ofCode f.dst) (← Src.ofCode f.a f.deqA) (← Src.ofCode f.b f.deqB))
  | 0x4 => some (.mulhn g (← Dst.ofCode f.dst) (← Src.ofCode f.a f.deqA) (← Src.ofCode f.b f.deqB))
  | 0x5 => some (.adds g f.nBit (← Dst.ofCode f.dst) (← Src.ofCode f.a f.deqA) (← Src.ofCode f.b f.deqB))
  | 0x6 => some (.subs g f.nBit (← Dst.ofCode f.dst) (← Src.ofCode f.a f.deqA) (← Src.ofCode f.b f.deqB))
  | 0x7 => some (.and g (← Dst.ofCode f.dst) (← Src.ofCode f.a f.deqA) (← Src.ofCode f.b f.deqB))
  | 0x8 => some (.or g (← Dst.ofCode f.dst) (← Src.ofCode f.a f.deqA) (← Src.ofCode f.b f.deqB))
  | 0x9 => some (.xor g (← Dst.ofCode f.dst) (← Src.ofCode f.a f.deqA) (← Src.ofCode f.b f.deqB))
  | 0xa => some (.andn g (← Dst.ofCode f.dst) (← Src.ofCode f.a f.deqA) (← Src.ofCode f.b f.deqB))
  | 0xb => some (.shl g (← Dst.ofCode f.dst) (← Src.ofCode f.a f.deqA) (← Src.ofCode f.b f.deqB))
  | 0xc => some (.shr g (← Dst.ofCode f.dst) (← Src.ofCode f.a f.deqA) (← Src.ofCode f.b f.deqB))
  | 0xd => some (.sra g (← Dst.ofCode f.dst) (← Src.ofCode f.a f.deqA) (← Src.ofCode f.b f.deqB))
  | 0xe => some (.rot g (← Dst.ofCode f.dst) (← Src.ofCode f.a f.deqA) (← Src.ofCode f.b f.deqB))
  | 0xf => some (.min g (← Dst.ofCode f.dst) (← Src.ofCode f.a f.deqA) (← Src.ofCode f.b f.deqB))
  | 0x10 => some (.max g (← Dst.ofCode f.dst) (← Src.ofCode f.a f.deqA) (← Src.ofCode f.b f.deqB))
  | 0x11 => some (.minn g (← Dst.ofCode f.dst) (← Src.ofCode f.a f.deqA) (← Src.ofCode f.b f.deqB))
  | 0x12 => some (.maxn g (← Dst.ofCode f.dst) (← Src.ofCode f.a f.deqA) (← Src.ofCode f.b f.deqB))
  | 0x13 => some (.cmp g (← Rel.ofCode f.sub) f.nBit (← Dst.ofCode f.dst) (← Src.ofCode f.a f.deqA) (← Src.ofCode f.b f.deqB))
  | 0x14 => some (.tst g (f.sub == 1) (← Dst.ofCode f.dst) (← Src.ofCode f.a f.deqA) (← Src.ofCode f.b f.deqB))
  | 0x15 => some (.sel g (fin 8 f.sub) (← Dst.ofCode f.dst) (← Src.ofCode f.a f.deqA) (← Src.ofCode f.b f.deqB))
  | 0x16 => some (.clz g (← Dst.ofCode f.dst) (← Src.ofCode f.a f.deqA))
  | 0x17 => some (.popc g (← Dst.ofCode f.dst) (← Src.ofCode f.a f.deqA))
  | 0x18 => some (.bfx g f.nBit (← Dst.ofCode f.dst) (← Src.ofCode f.a f.deqA) (← Src.ofCode f.b f.deqB))
  | 0x19 => some (.bfi g (← Dst.ofCode f.dst) (← Src.ofCode f.a f.deqA) (← Src.ofCode f.b f.deqB))
  | 0x1a => some (.mov g (← Dst.ofCode f.dst) (← Src.ofCode f.a f.deqA))
  | 0x1b => some (.pset g (← Src.ofCode f.a f.deqA))
  | 0x1c => some (.plog g (LogicOp.ofCode f.sub) (fin 8 f.a) (fin 8 f.b))
  | 0x1d => some (.cnt g f.nBit (← Dst.ofCode f.dst) (← Src.ofCode f.a f.deqA) (← Src.ofCode f.b f.deqB))
  | 0x1e => some (.qset g (fin 16 f.mod) (← Src.ofCode f.a f.deqA))
  | 0x20 => some (.addImm g (← Dst.ofCode f.dst) (← Src.ofCode f.a true) (BitVec.ofNat 12 f.low))
  | 0x21 => some (.subImm g (← Dst.ofCode f.dst) (← Src.ofCode f.a true) (BitVec.ofNat 12 f.low))
  | 0x22 => some (.mulImm g (← Dst.ofCode f.dst) (← Src.ofCode f.a true) (BitVec.ofNat 12 f.low))
  | 0x23 => some (.mulhImm g (← Dst.ofCode f.dst) (← Src.ofCode f.a true) (BitVec.ofNat 12 f.low))
  | 0x24 => some (.mulhnImm g (← Dst.ofCode f.dst) (← Src.ofCode f.a true) (BitVec.ofNat 12 f.low))
  | 0x25 => some (.addsImm g (← Dst.ofCode f.dst) (← Src.ofCode f.a true) (BitVec.ofNat 12 f.low))
  | 0x26 => some (.subsImm g (← Dst.ofCode f.dst) (← Src.ofCode f.a true) (BitVec.ofNat 12 f.low))
  | 0x27 => some (.andImm g (← Dst.ofCode f.dst) (← Src.ofCode f.a true) (BitVec.ofNat 12 f.low))
  | 0x28 => some (.orImm g (← Dst.ofCode f.dst) (← Src.ofCode f.a true) (BitVec.ofNat 12 f.low))
  | 0x29 => some (.xorImm g (← Dst.ofCode f.dst) (← Src.ofCode f.a true) (BitVec.ofNat 12 f.low))
  | 0x2a => some (.andnImm g (← Dst.ofCode f.dst) (← Src.ofCode f.a true) (BitVec.ofNat 12 f.low))
  | 0x2b => some (.shlImm g (← Dst.ofCode f.dst) (← Src.ofCode f.a true) (BitVec.ofNat 12 f.low))
  | 0x2c => some (.shrImm g (← Dst.ofCode f.dst) (← Src.ofCode f.a true) (BitVec.ofNat 12 f.low))
  | 0x2d => some (.sraImm g (← Dst.ofCode f.dst) (← Src.ofCode f.a true) (BitVec.ofNat 12 f.low))
  | 0x2e => some (.rotImm g (← Dst.ofCode f.dst) (← Src.ofCode f.a true) (BitVec.ofNat 12 f.low))
  | 0x2f => some (.minImm g (← Dst.ofCode f.dst) (← Src.ofCode f.a true) (BitVec.ofNat 12 f.low))
  | 0x30 => some (.maxImm g (← Dst.ofCode f.dst) (← Src.ofCode f.a true) (BitVec.ofNat 12 f.low))
  | 0x31 => some (.minnImm g (← Dst.ofCode f.dst) (← Src.ofCode f.a true) (BitVec.ofNat 12 f.low))
  | 0x32 => some (.maxnImm g (← Dst.ofCode f.dst) (← Src.ofCode f.a true) (BitVec.ofNat 12 f.low))
  | 0x3a => some (.movi g (← Dst.ofCode f.dst) (BitVec.ofNat 12 f.low))
  | 0x3d => some (.cntImm g (← Dst.ofCode f.dst) (← Src.ofCode f.a true) (BitVec.ofNat 12 f.low))
  | 0x3f => some (.movs g (← Dst.ofCode f.dst) (BitVec.ofNat 12 f.low))
  | 0x40 => some (.vadd g (← Fmt.ofCode f.mod) (← Dst.ofCode f.dst) (← Src.ofCode f.a f.deqA) (← Src.ofCode f.b f.deqB))
  | 0x41 => some (.vsub g (← Fmt.ofCode f.mod) (← Dst.ofCode f.dst) (← Src.ofCode f.a f.deqA) (← Src.ofCode f.b f.deqB))
  | 0x42 => some (.vmul g (← Fmt.ofCode f.mod) (← Dst.ofCode f.dst) (← Src.ofCode f.a f.deqA) (← Src.ofCode f.b f.deqB))
  | 0x43 => some (.vfma g (← Fmt.ofCode f.mod) (← Dst.ofCode f.dst) (← Src.ofCode f.a f.deqA) (← Src.ofCode f.b f.deqB))
  | 0x44 => some (.vfms g (← Fmt.ofCode f.mod) (← Dst.ofCode f.dst) (← Src.ofCode f.a f.deqA) (← Src.ofCode f.b f.deqB))
  | 0x45 => some (.vmax g (← Fmt.ofCode f.mod) (← Dst.ofCode f.dst) (← Src.ofCode f.a f.deqA) (← Src.ofCode f.b f.deqB))
  | 0x46 => some (.vmin g (← Fmt.ofCode f.mod) (← Dst.ofCode f.dst) (← Src.ofCode f.a f.deqA) (← Src.ofCode f.b f.deqB))
  | 0x47 => some (.vabs g (← Fmt.ofCode f.mod) (← Dst.ofCode f.dst) (← Src.ofCode f.a f.deqA))
  | 0x48 => some (.vneg g (← Fmt.ofCode f.mod) (← Dst.ofCode f.dst) (← Src.ofCode f.a f.deqA))
  | 0x49 => some (.vclamp g (← Fmt.ofCode f.mod) (← Dst.ofCode f.dst) (← Src.ofCode f.a f.deqA) (← Src.ofCode f.b f.deqB))
  | 0x50 => some (.vrcp g (← Fmt.ofCode f.mod) (← Dst.ofCode f.dst) (← Src.ofCode f.a f.deqA))
  | 0x51 => some (.vrsq g (← Fmt.ofCode f.mod) (← Dst.ofCode f.dst) (← Src.ofCode f.a f.deqA))
  | 0x52 => some (.vsqrt g (← Fmt.ofCode f.mod) (← Dst.ofCode f.dst) (← Src.ofCode f.a f.deqA))
  | 0x53 => some (.vexp2 g (← Fmt.ofCode f.mod) (← Dst.ofCode f.dst) (← Src.ofCode f.a f.deqA))
  | 0x54 => some (.vlog2 g (← Fmt.ofCode f.mod) (← Dst.ofCode f.dst) (← Src.ofCode f.a f.deqA))
  | 0x55 => some (.vtanh g (← Fmt.ofCode f.mod) (← Dst.ofCode f.dst) (← Src.ofCode f.a f.deqA))
  | 0x58 => some (.vred g (← RedKind.ofCode f.b) (← Fmt.ofCode f.mod) (← Dst.ofCode f.dst) (← Src.ofCode f.a f.deqA))
  | 0x59 => some (.vamax g (← Fmt.ofCode f.mod) (← Dst.ofCode f.dst) (← Src.ofCode f.a f.deqA))
  | 0x5c => some (.vcmp g (← Fmt.ofCode f.mod) (← Dst.ofCode f.dst) (← Src.ofCode f.a f.deqA) (← Src.ofCode f.b f.deqB))
  | 0x5d => some (.vsel g (← LaneW.ofCode (f.mod % 4)) (VTest.ofCode (f.mod / 4)) (← Dst.ofCode f.dst) (← Src.ofCode f.a f.deqA) (← Src.ofCode f.b f.deqB))
  | 0x5e => some (.vlog g (← VLogOp.ofCode f.mod) (← Dst.ofCode f.dst) (← Src.ofCode f.a f.deqA) (← if f.mod == 4 then some .zero else Src.ofCode f.b f.deqB))
  | 0x5f => some (.vsh g (← LaneW.ofCode (f.mod % 4)) (ShOp.ofCode (f.mod / 4)) (← Dst.ofCode f.dst) (← Src.ofCode f.a f.deqA) (← Src.ofCode f.b f.deqB))
  | 0x60 => some (.vbcst g (← Fmt.ofCode f.mod) (← Dst.ofCode f.dst) (← Src.ofCode f.a f.deqA))
  | 0x61 => some (.vext g (← Fmt.ofCode f.mod) (← Dst.ofCode f.dst) (← Src.ofCode f.a f.deqA) (← Src.ofCode f.b f.deqB))
  | 0x62 => some (.vins g (← Fmt.ofCode f.mod) (← Dst.ofCode f.dst) (← Src.ofCode f.a f.deqA) (← Src.ofCode f.b f.deqB))
  | 0x63 => some (.viota g (← Fmt.ofCode f.mod) (← Dst.ofCode f.dst) (← Src.ofCode f.a f.deqA) (← Src.ofCode f.b f.deqB))
  | 0x64 => some (.vshuf g (← LaneW.ofCode (f.mod % 4)) (← Dst.ofCode f.dst) (← Src.ofCode f.a f.deqA) (← Src.ofCode f.b f.deqB))
  | 0x68 => some (.vcvt g (← Fmt.ofCode (f.low / 256)) (← Fmt.ofCode (f.low / 16 % 16)) (← Rnd.ofCode (f.low / 2 % 8)) (← Dst.ofCode f.dst) (← Src.ofCode f.a true))
  | 0x69 => some (.vpack g (← Fmt.ofCode (f.low / 256)) (← Fmt.ofCode (f.low / 16 % 16)) (← Rnd.ofCode (f.low / 2 % 8)) (← Dst.ofCode f.dst) (← Src.ofCode f.a true))
  | 0x6a => some (.vunpk g (← Fmt.ofCode (f.low / 256)) (← Fmt.ofCode (f.low / 16 % 16)) (← Rnd.ofCode (f.low / 2 % 8)) (← Dst.ofCode f.dst) (← Src.ofCode f.a true))
  | 0x6b => some (.vqnt g (← Fmt.ofCode (f.low / 256)) (← Fmt.ofCode (f.low / 16 % 16)) (← Rnd.ofCode (f.low / 2 % 8)) (← Dst.ofCode f.dst) (← Src.ofCode f.a true))
  | 0x6c => some (.vdqnt g (← Fmt.ofCode (f.low / 256)) (← Fmt.ofCode (f.low / 16 % 16)) (← Rnd.ofCode (f.low / 2 % 8)) (← Dst.ofCode f.dst) (← Src.ofCode f.a true))
  | 0x70 => some (.vrng g (fin 4 f.mod) (← Dst.ofCode f.dst) (← Src.ofCode f.a f.deqA) (← Src.ofCode f.b f.deqB))
  | 0x71 => some (.vdrop g (← Fmt.ofCode f.mod) (← Dst.ofCode f.dst) (← Src.ofCode f.a f.deqA) (← Src.ofCode f.b f.deqB))
  | 0x74 => some (.vacc g (← Fmt.ofCode f.mod) (← Dst.ofCode f.dst) (← Src.ofCode f.a f.deqA))
  | 0x75 => some (.cturn g (← LaneW.ofCode (f.mod % 4)) (← Dst.ofCode f.dst) (← Src.ofCode f.a f.deqA))
  | 0x80 => some (.fwd g (← Dst.ofCode f.dst) (← Src.ofCode f.a f.deqA) (← Src.ofCode f.b f.deqB))
  | 0x81 => some (.deq g (← Src.ofCode f.a f.deqA) (← optSrc f.b f.deqB))
  | 0x82 => some (.steer g (← Dst.ofCode f.dst) (← Src.ofCode f.a f.deqA) (← Src.ofCode f.b f.deqB))
  | 0x83 => some (.mrgo g (← Dst.ofCode f.dst) (← Src.ofCode f.a f.deqA) (← Src.ofCode f.b f.deqB))
  | 0x84 => some (.mrga g (← Dst.ofCode f.dst) (← Src.ofCode f.a f.deqA) (← Src.ofCode f.b f.deqB))
  | 0x85 => some (.tag g (fin 3 f.mod) (← Dst.ofCode f.dst) (← Src.ofCode f.a f.deqA))
  | 0x86 =>
    match f.mod with
    | 0 => some (.markStroke g )
    | 1 => some (.markDrain g )
    | 2 => some (.markFreeze g )
    | 3 => some (.markBarrier g (← Dst.ofCode f.dst))
    | 4 => some (.markCut g (← Dst.ofCode f.dst) (← Src.ofCode f.a f.deqA))
    | _ => none
  | 0x87 => some (.crget g (fin 8 f.mod) (← Dst.ofCode f.dst))
  | 0x88 => some (.crput g (fin 8 f.mod) (← Src.ofCode f.a f.deqA))
  | 0xa0 => some (.ld g (← MemW.ofCode (f.mod % 4)) f.nBit (← Dst.ofCode f.dst) (← Src.ofCode f.a f.deqA) (← Src.ofCode f.b f.deqB))
  | 0xa1 => some (.st g (← MemW.ofCode (f.mod % 4)) f.nBit (← Src.ofCode f.a f.deqA) (← Src.ofCode f.b f.deqB))
  | 0xa2 => some (.vld g (← Dst.ofCode f.dst) (← Src.ofCode f.a f.deqA) (← Src.ofCode f.b f.deqB))
  | 0xa3 => some (.vst g (← Src.ofCode f.a f.deqA) (← Src.ofCode f.b f.deqB))
  | 0xa4 => some (.lds g (← Dst.ofCode f.dst) (← Src.ofCode f.a f.deqA) (← Src.ofCode f.b f.deqB))
  | 0xa5 => some (.stf g (← Src.ofCode f.a f.deqA) (← Src.ofCode f.b f.deqB))
  | 0xa6 => some (.ldc g (← Dst.ofCode f.dst) (← Src.ofCode f.a f.deqA) (← Src.ofCode f.b f.deqB))
  | 0xa8 => some (.xlat g (f.mod == 1) (← Dst.ofCode f.dst) (← Src.ofCode f.a f.deqA))
  | 0xa9 => if f.a == 28 then some (.agenStep g (← Dst.ofCode f.dst)) else some (.agenRearm g (← Dst.ofCode f.dst) (← Src.ofCode f.a f.deqA))
  | 0xaa => some (.atom g (AtomOp.ofCode f.sub) f.nBit (← Dst.ofCode f.dst) (← Src.ofCode f.a f.deqA) (← Src.ofCode f.b f.deqB))
  | 0xab =>
    if f.dst == 28 && f.deqA && 32 ≤ f.a && f.a < 48 then some (.ownapApply g (← Src.ofCode f.a f.deqA)) else some (.ownapReadout g (← Dst.ofCode f.dst) (← Src.ofCode f.a f.deqA))
  | 0xb0 => some (.cld g (← MemW.ofCode (f.mod % 4)) f.nBit (← Dst.ofCode f.dst) (← Src.ofCode f.a f.deqA))
  | 0xb1 => some (.cst g (← MemW.ofCode (f.mod % 4)) f.nBit (← Src.ofCode f.a f.deqA) (← Src.ofCode f.b f.deqB))
  | 0xb2 => some (.cvld g (← Dst.ofCode f.dst) (← Src.ofCode f.a f.deqA))
  | 0xb3 => some (.cvst g (← Src.ofCode f.a f.deqA) (← Src.ofCode f.b f.deqB))
  | 0xb8 => some (.rtake g (← Dst.ofCode f.dst) (← Src.ofCode f.a f.deqA))
  | 0xc0 => some (.mxcfg g (← Dst.ofCode f.dst) (← Src.ofCode f.a f.deqA))
  | 0xc1 => some (.mxldb g (← Dst.ofCode f.dst) (← Src.ofCode f.a f.deqA) (← Src.ofCode f.b f.deqB))
  | 0xc2 => some (.mxrow g (← Dst.ofCode f.dst) (← Src.ofCode f.a f.deqA) (← Src.ofCode f.b f.deqB))
  | 0xc3 => some (.mxacc g (← Dst.ofCode f.dst) (← Src.ofCode f.a f.deqA) (← Src.ofCode f.b f.deqB))
  | 0xc4 => some (.mxdrn g (← Dst.ofCode f.dst) (← Src.ofCode f.a f.deqA) (← Src.ofCode f.b f.deqB))
  | 0xc5 => some (.mxgrp g (← Dst.ofCode f.dst) (← Src.ofCode f.a f.deqA))
  | 0xc6 => some (.mxstat g (← Dst.ofCode f.dst) (← Src.ofCode f.a f.deqA))
  | 0xc8 => some (.sxcpy g (← Dst.ofCode f.dst) (← Src.ofCode f.a f.deqA))
  | 0xc9 => some (.sxgth g (← Dst.ofCode f.dst) (← Src.ofCode f.a f.deqA))
  | 0xca => some (.sxsct g (← Dst.ofCode f.dst) (← Src.ofCode f.a f.deqA))
  | 0xcb => some (.sxdeep g (← Dst.ofCode f.dst) (← Src.ofCode f.a f.deqA))
  | 0xd0 => some (.xpcfg g (← Dst.ofCode f.dst) (← Src.ofCode f.a f.deqA))
  | 0xd1 => some (.wrsrt g (← Dst.ofCode f.dst) (← Src.ofCode f.a f.deqA))
  | 0xd8 => some (.phint g (← Src.ofCode f.a f.deqA) (← Src.ofCode f.b f.deqB))
  | 0xe0 => some (.nop g )
  | 0xe1 => some (.halt g )
  | 0xe2 => some (.trap g (← Src.ofCode f.a f.deqA))
  | 0xe3 => some (.plane g (fin 4 f.mod))
  | 0xe4 => some (.chgq g (← Dst.ofCode f.dst))
  | _ => none

/-- Reads a pump body word's fields by its opcode and, where one opcode has several forms, its FN variant (R102 and the
entries), for every row but the last four of `Instr`; reserved bits are checked afterwards, by comparing with the encoder. -/
def parsePumpMain (h : Skip) (f : PumpRaw) : Option Instr := do
  match f.op with
  | 0x0 => some (.pumpAdd h (PumpW.ofCode (f.fn / 16)) f.nBit (fin 64 f.d) (fin 64 f.a) (f.srcB))
  | 0x1 => some (.pumpSub h (PumpW.ofCode (f.fn / 16)) f.nBit (fin 64 f.d) (fin 64 f.a) (f.srcB))
  | 0x2 => some (.pumpMul h (PumpW.ofCode (f.fn / 16)) f.nBit (fin 64 f.d) (fin 64 f.a) (f.srcB))
  | 0x3 => some (.pumpMulh h (PumpW.ofCode (f.fn / 16)) (fin 64 f.d) (fin 64 f.a) (f.srcB))
  | 0x4 => some (.pumpMulhn h (PumpW.ofCode (f.fn / 16)) (fin 64 f.d) (fin 64 f.a) (f.srcB))
  | 0x5 => some (.pumpAdds h (PumpW.ofCode (f.fn / 16)) f.nBit (fin 64 f.d) (fin 64 f.a) (f.srcB))
  | 0x6 => some (.pumpSubs h (PumpW.ofCode (f.fn / 16)) f.nBit (fin 64 f.d) (fin 64 f.a) (f.srcB))
  | 0x7 => some (.pumpAnd h (PumpW.ofCode (f.fn / 16)) f.nBit (fin 64 f.d) (fin 64 f.a) (f.srcB))
  | 0x8 => some (.pumpOr h (PumpW.ofCode (f.fn / 16)) f.nBit (fin 64 f.d) (fin 64 f.a) (f.srcB))
  | 0x9 => some (.pumpXor h (PumpW.ofCode (f.fn / 16)) f.nBit (fin 64 f.d) (fin 64 f.a) (f.srcB))
  | 0xa => some (.pumpAndn h (PumpW.ofCode (f.fn / 16)) f.nBit (fin 64 f.d) (fin 64 f.a) (f.srcB))
  | 0xb => some (.pumpShl h (PumpW.ofCode (f.fn / 16)) f.nBit (fin 64 f.d) (fin 64 f.a) (f.srcB))
  | 0xc => some (.pumpShr h (PumpW.ofCode (f.fn / 16)) (fin 64 f.d) (fin 64 f.a) (f.srcB))
  | 0xd => some (.pumpSra h (PumpW.ofCode (f.fn / 16)) (fin 64 f.d) (fin 64 f.a) (f.srcB))
  | 0xe => some (.pumpRot h (PumpW.ofCode (f.fn / 16)) f.nBit (fin 64 f.d) (fin 64 f.a) (f.srcB))
  | 0xf => some (.pumpMin h (PumpW.ofCode (f.fn / 16)) (fin 64 f.d) (fin 64 f.a) (f.srcB))
  | 0x10 => some (.pumpMax h (PumpW.ofCode (f.fn / 16)) (fin 64 f.d) (fin 64 f.a) (f.srcB))
  | 0x11 => some (.pumpMinn h (PumpW.ofCode (f.fn / 16)) (fin 64 f.d) (fin 64 f.a) (f.srcB))
  | 0x12 => some (.pumpMaxn h (PumpW.ofCode (f.fn / 16)) (fin 64 f.d) (fin 64 f.a) (f.srcB))
  | 0x13 => some (.pumpCmp h (← Rel.ofCode f.sub) (PumpW.ofCode (f.fn / 16)) f.nBit (fin 64 f.d) (fin 64 f.a) (f.srcB))
  | 0x14 => some (.pumpTst h (f.sub == 1) (PumpW.ofCode (f.fn / 16)) f.nBit (fin 64 f.d) (fin 64 f.a) (f.srcB))
  | 0x15 => some (.pumpSel h (PumpW.ofCode (f.fn / 16)) f.nBit (fin 32 f.i24) (fin 64 f.d) (fin 64 f.a) (fin 64 f.b))
  | 0x16 => some (.pumpClz h (PumpW.ofCode (f.fn / 16)) f.nBit (fin 64 f.d) (fin 64 f.a))
  | 0x17 => some (.pumpPopc h (PumpW.ofCode (f.fn / 16)) f.nBit (fin 64 f.d) (fin 64 f.a))
  | 0x18 => some (.pumpBfx h (PumpW.ofCode (f.fn / 16)) f.nBit (fin 64 f.d) (fin 64 f.a) (fin 64 f.b))
  | 0x19 => some (.pumpBfi h (PumpW.ofCode (f.fn / 16)) f.nBit (fin 64 f.d) (fin 64 f.a) (fin 64 f.b))
  | 0x1a => some (.pumpMov h (PumpW.ofCode (f.fn / 16)) f.nBit (fin 64 f.d) (f.srcA))
  | 0x1b => some (.pumpPset h (PumpW.ofCode (f.fn / 16)) (fin 32 f.d) (f.srcB))
  | 0x1c => some (.pumpPlog h (LogicOp.ofCode f.sub) (PumpW.ofCode (f.fn / 16)) (fin 32 f.d) (fin 32 f.a) (fin 32 f.b))
  | 0x20 => some (.div h (PumpW.ofCode (f.fn / 16)) (fin 64 f.d) (fin 64 f.a) (f.srcB))
  | 0x21 => some (.divn h (PumpW.ofCode (f.fn / 16)) (fin 64 f.d) (fin 64 f.a) (f.srcB))
  | 0x22 => some (.rem h (PumpW.ofCode (f.fn / 16)) f.nBit (fin 64 f.d) (fin 64 f.a) (f.srcB))
  | 0x23 => some (.movk h (fin 64 f.d) (BitVec.ofNat 16 f.i24) (fin 4 (f.i24 / 65536)))
  | 0x40 => some (.pumpLd h (PumpW.ofCode (f.fn / 16)) f.nBit (fin 64 f.d) (fin 64 f.a) (BitVec.ofNat 24 f.i24))
  | 0x41 => some (.pumpSt h (PumpW.ofCode (f.fn / 16)) f.nBit (fin 64 f.a) (fin 64 f.b) (BitVec.ofNat 24 f.i24))
  | 0x42 => some (.pumpLds h f.nBit (fin 64 f.d) (fin 64 f.a) (BitVec.ofNat 24 f.i24))
  | 0x43 => some (.pumpStf h f.nBit (fin 64 f.a) (fin 64 f.b) (BitVec.ofNat 24 f.i24))
  | 0x44 => some (.pumpLdc h f.nBit (fin 64 f.d) (fin 64 f.a) (BitVec.ofNat 24 f.i24))
  | 0x48 => some (.cas h (PumpW.ofCode (f.fn / 16)) f.nBit (fin 64 f.d) (fin 64 f.a) (fin 64 f.b) (BitVec.ofNat 24 f.i24))
  | 0x49 => some (.swap h (PumpW.ofCode (f.fn / 16)) f.nBit (fin 64 f.d) (fin 64 f.a) (fin 64 f.b) (BitVec.ofNat 24 f.i24))
  | 0x4a => some (.fadd h (PumpW.ofCode (f.fn / 16)) f.nBit (fin 64 f.d) (fin 64 f.a) (fin 64 f.b) (BitVec.ofNat 24 f.i24))
  | 0x4b => some (.fmin h (PumpW.ofCode (f.fn / 16)) f.nBit (fin 64 f.d) (fin 64 f.a) (fin 64 f.b) (BitVec.ofNat 24 f.i24))
  | 0x4c => some (.fmax h (PumpW.ofCode (f.fn / 16)) f.nBit (fin 64 f.d) (fin 64 f.a) (fin 64 f.b) (BitVec.ofNat 24 f.i24))
  | 0x4d => some (.fand h (PumpW.ofCode (f.fn / 16)) f.nBit (fin 64 f.d) (fin 64 f.a) (fin 64 f.b) (BitVec.ofNat 24 f.i24))
  | 0x4e => some (.fOr h (PumpW.ofCode (f.fn / 16)) f.nBit (fin 64 f.d) (fin 64 f.a) (fin 64 f.b) (BitVec.ofNat 24 f.i24))
  | 0x4f => if f.fn / 2 % 2 == 1 then some (.fxaddRd h (f.fn % 2 == 1) (f.fn / 4 % 2 == 1) (fin 64 f.d) (fin 64 f.a) (BitVec.ofNat 24 f.i24)) else some (.fxadd h (f.fn % 2 == 1) (fin 64 f.a) (fin 64 f.b) (BitVec.ofNat 24 f.i24))
  | 0x50 => some (.waitv h (PumpW.ofCode (f.fn / 16)) f.nBit (fin 8 f.sub) (fin 64 f.d) (fin 64 f.a) (fin 64 f.b) (BitVec.ofNat 24 f.i24))
  | 0x51 =>
    match f.fn % 4 with
    | 0 => some (.fenceAcq h (← Scope.ofCode (f.fn / 4)))
    | 1 => some (.fenceRel h (← Scope.ofCode (f.fn / 4)))
    | 2 => some (.fenceFull h (← Scope.ofCode (f.fn / 4)))
    | _ => none
  | 0x60 => some (.skip h f.i24)
  | 0x61 => some (.abort h )
  | 0x62 =>
    match f.fn with
    | 0 => some (.noteSend h (fin 64 f.a) (fin 64 f.b))
    | 1 => some (.noteTake h (fin 64 f.d))
    | _ => none
  | 0x63 =>
    match f.fn with
    | 0 => some (.timerOnce h (fin 64 f.d) (fin 64 f.a))
    | 1 => some (.timerPer h (fin 64 f.d) (fin 64 f.a))
    | _ => none
  | 0x70 => some (.enq h (fin 64 f.a) (fin 64 f.b))
  | 0x71 => some (.deqq h (fin 64 f.d) (fin 64 f.a) (fin 64 f.b))
  | 0x72 => some (.tailw h (fin 64 f.a) (fin 64 f.b))
  | 0x73 => some (.launch h (fin 64 f.d) (fin 64 f.a) (fin 64 f.b))
  | 0x74 => some (.kstat h (fin 64 f.d) (fin 64 f.a))
  | 0x75 => some (.digest h (fin 64 f.d) (fin 64 f.a) (fin 64 f.b))
  | 0x76 =>
    match f.fn with
    | 0 => some (.trigbBind h (fin 64 f.d) (fin 64 f.a) (fin 64 f.b))
    | 1 => some (.trigbUnbind h (fin 64 f.d) (fin 64 f.a))
    | 2 => some (.trigbQuery h (fin 64 f.d) (fin 64 f.a))
    | _ => none
  | 0x77 =>
    match f.fn with
    | 0 => some (.regionAlloc h (fin 64 f.d) (fin 64 f.a))
    | 1 => some (.regionFree h (fin 64 f.d) (fin 64 f.a))
    | _ => none
  | 0x78 =>
    match f.fn with
    | 0 => some (.rpoolFill h (fin 64 f.d) (fin 64 f.a) (fin 16 f.i24) (fin 4 (f.i24 / 16)))
    | 1 => some (.rpoolClose h (fin 64 f.d) (fin 64 f.a) (fin 16 f.i24) (fin 4 (f.i24 / 16)))
    | 2 => some (.rpoolQuery h (fin 64 f.d) (fin 64 f.a) (fin 16 f.i24) (fin 4 (f.i24 / 16)))
    | _ => none
  | 0x80 => some (.cfgw h (fin 64 f.a) (fin 64 f.b) (BitVec.ofNat 16 f.i24))
  | 0x81 =>
    match f.fn with
    | 0 => some (.cfgrdReq h (fin 64 f.a) (BitVec.ofNat 16 f.i24))
    | 1 => some (.cfgrdTake h (fin 64 f.d))
    | _ => none
  | 0x82 => some (.cfgsig h (fin 64 f.a) (fin 64 f.b) (fin 8 f.fn) (BitVec.ofNat 16 f.i24))
  | 0x83 =>
    match f.fn with
    | 0 => some (.crcCfg h (fin 64 f.a) (fin 64 f.b) (BitVec.ofNat 16 f.i24))
    | 1 => some (.crcMem h (fin 64 f.d) (fin 64 f.a) (fin 64 f.b))
    | _ => none
  | 0x84 => some (.route h (fin 64 f.d) (fin 64 f.a) (fin 64 f.b))
  | 0x85 => some (.prime h (fin 64 f.a) (fin 4 f.fn) (BitVec.ofNat 16 f.i24))
  | 0x86 =>
    match f.fn with
    | 0 => some (.freeze h (fin 64 f.a) (BitVec.ofNat 16 f.i24))
    | 1 => some (.freezeStroke h (fin 64 f.a) (BitVec.ofNat 16 f.i24))
    | _ => none
  | 0x87 => some (.thaw h (fin 64 f.a) (BitVec.ofNat 16 f.i24))
  | 0x88 =>
    match f.fn with
    | 0 => some (.imgoutMem h (fin 64 f.a) (fin 64 f.b) (BitVec.ofNat 16 f.i24))
    | 1 => some (.imgoutShadow h (fin 64 f.a) (BitVec.ofNat 16 f.i24))
    | 2 => some (.imgoutBack h (fin 64 f.a) (BitVec.ofNat 16 f.i24))
    | _ => none
  | 0x89 => some (.rsload h (fin 64 f.a) (fin 64 f.b) (BitVec.ofNat 16 f.i24))
  | 0x90 => some (.warm h (fin 64 f.d) (fin 64 f.a) (fin 64 f.b))
  | 0x91 => some (.wcand h (fin 64 f.d) (fin 64 f.a))
  | 0x92 => some (.verd h (fin 64 f.a) (fin 64 f.b))
  | 0x93 => some (.wdraw h (fin 64 f.d) (fin 64 f.a) (fin 64 f.b))
  | 0x94 => some (.wstat h (fin 7 f.fn) (fin 64 f.d) (fin 64 f.a) (BitVec.ofNat 16 f.i24))
  | 0xa0 => some (.bara h (fin 64 f.a))
  | 0xa1 =>
    match f.fn with
    | 0 => some (.barmSet h (fin 64 f.a) (fin 64 f.b))
    | 1 => some (.barmTake h (fin 64 f.d))
    | _ => none
  | 0xa2 =>
    match f.fn with
    | 0 => some (.pbudgSet h (fin 64 f.a) (fin 64 f.b))
    | 1 => some (.pbudgGet h (fin 64 f.d) (fin 64 f.a))
    | _ => none
  | 0xa3 =>
    match f.fn with
    | 0 => some (.spineFreq h (fin 64 f.a) (fin 64 f.b) (BitVec.ofNat 16 f.i24))
    | 1 => some (.spineSel h (fin 64 f.a) (fin 64 f.b) (BitVec.ofNat 16 f.i24))
    | _ => none
  | 0xa4 => some (.pumpPhint h (fin 64 f.a) (BitVec.ofNat 8 f.i24) (BitVec.ofNat 16 (f.i24 / 256)))
  | 0xb0 =>
    match f.fn with
    | 0 => some (.tlbiPage h (fin 64 f.a))
    | 1 => some (.tlbiCtx h )
    | 2 => some (.tlbiAll h )
    | _ => none
  | 0xb1 =>
    match f.fn with
    | 0 => some (.migrMove h (fin 64 f.a) (fin 64 f.b) (BitVec.ofNat 16 f.i24))
    | 1 => some (.migrOut h (fin 64 f.a) (fin 64 f.b) (BitVec.ofNat 16 f.i24))
    | 2 => some (.migrIn h (fin 64 f.a) (fin 64 f.b) (BitVec.ofNat 16 f.i24))
    | _ => none
  | _ => none

/-- Reads a body word's fields by its opcode: the last four pump rows of `Instr`, or one of the rows before them.  (They
stand apart because compiled code cannot build them: a limit on constructor numbers, and no rule of the spec.) -/
noncomputable def parsePump (h : Skip) (f : PumpRaw) : Option Instr :=
  match f.op with
  | 0x95 => some (.wclose h (fin 64 f.a))
  | 0xb2 => some (.pghash h (fin 64 f.a) (fin 64 f.b) (BitVec.ofNat 16 f.i24))
  | 0xc0 => some (.sysr h (fin 64 f.d) (BitVec.ofNat 12 f.i24))
  | 0xc1 => some (.sysw h (BitVec.ofNat 12 f.i24) (fin 64 f.b))
  | _ => parsePumpMain h f

/-! ### The decoder -/

/-- Why a word is no instruction (R103). -/
inductive DecodeError where
  /-- V = 0: the slot is never enabled and never faults (R90). -/
  | emptySlot
  /-- An unassigned or reserved opcode, format, rounding, sub-function or variant code. -/
  | unassigned
  /-- A reserved field that is not zero, those of R90 and R96 included. -/
  | reservedField
  /-- An operand-code violation of R92, or a reserved value. -/
  | violation (v : Violation)
  deriving DecidableEq, Repr

/-- Accepts a parsed instruction when its own word is the word read, which refuses every reserved bit, and when
it is well formed. -/
def accept (w : W64) : Option Instr → Except DecodeError Instr
  | none => .error .unassigned
  | some i =>
    if encode i = some w then
      match i.violation with
      | none => .ok i
      | some v => .error (.violation v)
    else .error .reservedField

/-- An element slot's word (formats E and EI). -/
def decodeElem (w : W64) : Except DecodeError Instr :=
  if w.toNat < 2 ^ 63 then .error .emptySlot
  else accept w (parseElem (guardOf w.toNat) (elemRawOf w.toNat))

/-- A pump body word (format P). -/
noncomputable def decodePump (w : W64) : Except DecodeError Instr :=
  accept w (parsePump (skipOf w.toNat) (pumpRawOf w.toNat))

/-- The fields of a legal body word, none where the word is illegal: what `decodePump` decides, without the
instruction itself. -/
def legalPump (w : W64) : Option PumpFields :=
  let h := skipOf w.toNat
  let f := pumpRawOf w.toNat
  let lone (x : PumpFields) (ok : Bool) : Option PumpFields := if BitVec.ofNat 64 x.word = w ∧ ok then some x else none
  match f.op with
  | 0x95 => lone ⟨h, 0x95, 0, (fin 64 f.a).val, 0, false, 0, 0⟩ true
  | 0xb2 => lone ⟨h, 0xb2, 0, (fin 64 f.a).val, (fin 64 f.b).val, false, 0, (BitVec.ofNat 16 f.i24).toNat⟩ true
  | 0xc0 => lone ⟨h, 0xc0, (fin 64 f.d).val, 0, 0, false, 0, (BitVec.ofNat 12 f.i24).toNat⟩ (sysIndexListed (BitVec.ofNat 12 f.i24).toNat)
  | 0xc1 => lone ⟨h, 0xc1, 0, 0, (fin 64 f.b).val, false, 0, (BitVec.ofNat 12 f.i24).toNat⟩ (sysIndexListed (BitVec.ofNat 12 f.i24).toNat)
  | _ => match accept w (parsePumpMain h f) with
    | .ok i => i.pumpFields
    | .error _ => none

/-- Where a word stands decides how it is read: in a rule slot of an element, or in the body store of a core. -/
inductive Domain where
  | elem | pump
  deriving DecidableEq, Repr

noncomputable def decode : Domain → W64 → Except DecodeError Instr
  | .elem, w => decodeElem w
  | .pump, w => decodePump w

/-- A word from its eight bytes, little-endian. -/
def wordOfBytes (bs : List Byte) : Nat := bs.foldr (fun b acc => b.toNat + 256 * acc) 0

/-- The bytes of a number, least significant first. -/
def bytesOf : Nat → Nat → List Byte
  | 0, _ => []
  | k + 1, n => BitVec.ofNat 8 n :: bytesOf k (n / 256)

/-- Decoding from memory: every instruction is one 64-bit word of eight bytes (R88, R96); total on any bytes. -/
noncomputable def decodeBytes (d : Domain) (bs : List Byte) : Except DecodeError (Instr × List Byte) :=
  if bs.length < 8 then .error .unassigned
  else (decode d (BitVec.ofNat 64 (wordOfBytes (bs.take 8)))).map fun i => (i, bs.drop 8)

/-- The instruction a numbered word stands for.  A word does not say by itself whether it stands in a rule slot
or in a body store; it is read as a rule slot where that is legal, else as a body word (log entry 5). -/
noncomputable def decodeWord (w : W64) : Option (Domain × Instr) :=
  match decodeElem w with
  | .ok i => some (.elem, i)
  | .error _ =>
    match decodePump w with
    | .ok i => some (.pump, i)
    | .error _ => none

/-- The instruction the decoder reads from a word whose low `nbits` bits are `w`, the bits above being 0, laid
out in memory as the hardware stores it. -/
noncomputable def decodeTableWord (nbits w : Nat) : Option Instr :=
  if nbits ≤ 64 ∧ w < 2 ^ nbits then
    (decodeWord (BitVec.ofNat 64 (wordOfBytes (bytesOf 8 w)))).map Prod.snd
  else none

end Sys2Proof
end

