-- ==== Sys2Proof/Machine/Digest.lean ====
section
/-! DEFINITION. The checks and digests the spec names and does not spell out: CRC-32C, SHA-512, SHA-512/256 and
RSASSA-PKCS1-v1_5 with RSA-4096 (R83, R87, R207, R244, R281, R377, R378, R393).  Their published definitions are
taken (log entry 27). -/

namespace Sys2Proof.Machine

/-! ### CRC-32C -/

/-- One bit of the reflected Castagnoli polynomial. -/
def crcBit (c : Nat) : Nat := if c % 2 = 1 then c / 2 ^^^ 0x82F63B78 else c / 2

def crcByte (c : Nat) (b : Byte) : Nat :=
  crcBit (crcBit (crcBit (crcBit (crcBit (crcBit (crcBit (crcBit (c ^^^ b.toNat))))))))

def crc32c (bs : List Byte) : Nat := bs.foldl crcByte 0xFFFFFFFF ^^^ 0xFFFFFFFF

/-! ### SHA-512 -/

/-- The largest r below 2^(k+1) with r^n at most x, found bit by bit from bit k down. -/
def rootFrom (n x : Nat) : Nat → Nat → Nat
  | 0, r => if (r + 1) ^ n ≤ x then r + 1 else r
  | k + 1, r => rootFrom n x k (if (r + 2 ^ (k + 1)) ^ n ≤ x then r + 2 ^ (k + 1) else r)

def isPrime (p : Nat) : Bool := decide (2 ≤ p) && (List.range 21).all fun d => decide (d < 2) || decide (p ≤ d) || p % d != 0

/-- The first eighty primes. -/
def primes80 : List Nat := (List.range 410).filter isPrime

/-- The fraction bits of a root of a prime: 64 of them. -/
def rootBits (n p : Nat) : Nat := rootFrom n (p * 2 ^ (64 * n)) 72 0 % 2 ^ 64

def shaK : List Nat := primes80.map (rootBits 3)
def shaH : List Nat := (primes80.take 8).map (rootBits 2)

def ror64 (x n : Nat) : Nat := x / 2 ^ n + x * 2 ^ (64 - n) % 2 ^ 64

def shaSmall (a b c x : Nat) : Nat := ror64 x a ^^^ ror64 x b ^^^ x / 2 ^ c
def shaBig (a b c x : Nat) : Nat := ror64 x a ^^^ ror64 x b ^^^ ror64 x c

/-- The message schedule, the newest word first. -/
def shaSchedule : Nat → List Nat → List Nat
  | 0, ws => ws
  | n + 1, ws =>
    let w (i : Nat) : Nat := ws.getD (i - 1) 0
    shaSchedule n ((shaSmall 19 61 6 (w 2) + w 7 + shaSmall 1 8 7 (w 15) + w 16) % 2 ^ 64 :: ws)

def shaRound (v : List Nat) (kw : Nat × Nat) : List Nat :=
  match v with
  | [a, b, c, d, e, f, g, h] =>
    let t1 := h + shaBig 14 18 41 e + ((e &&& f) ^^^ ((e ^^^ (2 ^ 64 - 1)) &&& g)) + kw.1 + kw.2
    let t2 := shaBig 28 34 39 a + ((a &&& b) ^^^ (a &&& c) ^^^ (b &&& c))
    [(t1 + t2) % 2 ^ 64, a, b, c, (d + t1) % 2 ^ 64, e, f, g]
  | _ => v

/-- A big-endian number. -/
def beNat (bs : List Byte) : Nat := bs.foldl (fun n b => n * 256 + b.toNat) 0
def beBytes (n v : Nat) : List Byte := (bytesOf n v).reverse

def shaBlock (h : List Nat) (blk : List Byte) : List Nat :=
  let ws := (List.range 16).map fun i => beNat ((blk.drop (8 * i)).take 8)
  let w := (shaSchedule 64 ws.reverse).reverse
  (h.zip ((shaK.zip w).foldl shaRound h)).map fun p => (p.1 + p.2) % 2 ^ 64

def shaBlocks : Nat → List Nat → List Byte → List Nat
  | 0, h, _ => h
  | n + 1, h, bs => shaBlocks n (shaBlock h (bs.take 128)) (bs.drop 128)

def shaPad (bs : List Byte) : List Byte :=
  bs ++ [0x80] ++ List.replicate ((239 - bs.length % 128) % 128) 0 ++ beBytes 16 (8 * bs.length)

def shaFrom (iv : List Nat) (bs : List Byte) : List Byte :=
  let m := shaPad bs
  (shaBlocks (m.length / 128) iv m).flatMap (beBytes 8)

def sha512 (bs : List Byte) : List Byte := shaFrom shaH bs

/-- "SHA-512/256" in ASCII. -/
def sha256Name : List Byte := [0x53, 0x48, 0x41, 0x2D, 0x35, 0x31, 0x32, 0x2F, 0x32, 0x35, 0x36]

def sha512t256 (bs : List Byte) : List Byte :=
  let seed := shaFrom (shaH.map (· ^^^ 0xA5A5A5A5A5A5A5A5)) sha256Name
  (shaFrom ((List.range 8).map fun i => beNat ((seed.drop (8 * i)).take 8)) bs).take 32

/-! ### RSASSA-PKCS1-v1_5 -/

def powMod (n : Nat) : Nat → Nat → Nat → Nat → Nat
  | 0, _, _, acc => acc
  | fuel + 1, b, e, acc =>
    if e = 0 then acc else powMod n fuel (b * b % n) (e / 2) (if e % 2 = 1 then acc * b % n else acc)

/-- The DigestInfo prefix of SHA-512. -/
def sha512Prefix : List Byte :=
  [0x30, 0x51, 0x30, 0x0D, 0x06, 0x09, 0x60, 0x86, 0x48, 0x01, 0x65, 0x03, 0x04, 0x02, 0x03, 0x05, 0x00, 0x04, 0x40]

/-- The encoded message of a digest in 512 bytes. -/
def pkcs1 (digest : List Byte) : List Byte :=
  [0x00, 0x01] ++ List.replicate 426 0xFF ++ [0x00] ++ sha512Prefix ++ digest

/-- Whether a signature of 512 bytes by a key (modulus, exponent) stands for a message. -/
def rsaVerify (key : Nat × Nat) (message sig : List Byte) : Bool :=
  let s := beNat sig
  sig.length == 512 && decide (s < key.1)
    && powMod key.1 4096 s key.2 1 == beNat (pkcs1 (sha512 message))

end Sys2Proof.Machine
end

