-- ==== Sys2Proof/Config.lean ====
section
/-! DEFINITION. What an implementation fixes and what the spec leaves open: constants without a body, so that
nothing can be proved about their values.  Each is applied to a counter of State or to the operands it depends
on (notes/assumptions/4.md, 10.md, 14.md). -/

namespace Sys2Proof

/-- Which agent acts next, and the events that come from outside or from the machine's own controllers. -/
inductive Work where
  /-- One step of the round of a tile site (R44). -/
  | tile (t : Nat)
  /-- One step of the round of a pump core (R50), or one committed store it performs. -/
  | core (c : Nat)
  /-- A step of the hardware or an input, as a row of the opcode table. -/
  | event (i : Instr)
  /-- Power is applied, and what the boot ROM then finds is `bootInput` (R393). -/
  | boot
  /-- Time passes, in ns. -/
  | tick (n : Nat)
  deriving DecidableEq, Repr

namespace Config

/-- The agent that acts next where nothing orders the agents, applied to the free counter (log entry 4). -/
opaque freeWorkCode : Nat → Option Work

/-- A free choice, applied to the free counter (log entry 10). -/
opaque freeNat : Nat → Nat

/-- A free word, applied to the free counter. -/
opaque freeWord : Nat → W64

/-- A lane of R140 whose enclosure does not settle its rounding, by function and operand code (log entry 14). -/
opaque openLane : Nat → Nat → Nat

/-- The format of an XADD addend of ATOM, which the encoding does not hold: by the word's operands (log entry 23). -/
opaque atomAddendBf16 : Nat → Bool

/-- The number of this module in its load-store domain (COREID[13:8], R257; log entry 18). -/
opaque moduleNumber : BitVec 6

/-- The fuse map the factory test left: bit j of a die is site j, 1 meaning present (R17; log entry 17). -/
opaque fuseMap : Nat → BitVec 384

/-- What the boot ROM finds at power-on (R393; log entry 6). -/
opaque bootInput : Option BootInput

/-- The measured firmware's identity signing key at work: a signature over a message (R395; log entry 16). -/
opaque deviceSign : List Byte → List Byte

/-- The root key fused into the hub: modulus and exponent (R393; log entry 16). -/
opaque rootKey : Nat × Nat

/-- The hub ROM, whose digest is measurement 1 (R396; log entry 16). -/
opaque hubRom : List Byte

/-- The certificate chain of the device (R395; log entry 16). -/
opaque certChain : List Byte

end Config

end Sys2Proof
end

