-- ==== Sys2Proof/Machine/Alu.lean ====
section
/-! DEFINITION. The scalar operations of spec/07_scalar.md on integers of any width (R113 to R127): the result,
and the result bit.  Element operations use width 32; pump operations the width of FN. -/

namespace Sys2Proof.Machine

/-- A natural w-bit value read as two's complement. -/
def toSigned (w a : Nat) : Int := if a < 2 ^ (w - 1) then (a : Int) else (a : Int) - 2 ^ w

/-- The w-bit pattern of an integer. -/
def wrap (w : Nat) (i : Int) : Nat := (i % 2 ^ w).toNat

/-- An operand read at width w: signed, or natural when `n` (R113). -/
def readAs (n : Bool) (w a : Nat) : Int := if n then (a : Int) else toSigned w a

/-- A result whose result bit is res not 0 (R114). -/
def nonZero (r : Nat) : Nat × Bool := (r, r != 0)

namespace Alu

def add (w a b : Nat) : Nat × Bool := nonZero ((a + b) % 2 ^ w)
def sub (w a b : Nat) : Nat × Bool := nonZero (wrap w ((a : Int) - b))
def mul (w a b : Nat) : Nat × Bool := nonZero (a * b % 2 ^ w)
def mulh (w a b : Nat) : Nat × Bool := nonZero (wrap w (toSigned w a * toSigned w b / 2 ^ w))
def mulhn (w a b : Nat) : Nat × Bool := nonZero (a * b / 2 ^ w)

/-- clamp of R116, and whether it clamped. -/
def clamp (n : Bool) (w : Nat) (x : Int) : Nat × Bool :=
  let lo : Int := if n then 0 else -(2 ^ (w - 1))
  let hi : Int := if n then 2 ^ w - 1 else 2 ^ (w - 1) - 1
  if x < lo then (wrap w lo, true) else if x > hi then (wrap w hi, true) else (wrap w x, false)

def adds (n : Bool) (w a b : Nat) : Nat × Bool := clamp n w (readAs n w a + readAs n w b)
def subs (n : Bool) (w a b : Nat) : Nat × Bool := clamp n w (readAs n w a - readAs n w b)

def andB (_w a b : Nat) : Nat × Bool := nonZero (a &&& b)
def orB (_w a b : Nat) : Nat × Bool := nonZero (a ||| b)
def xorB (_w a b : Nat) : Nat × Bool := nonZero (a ^^^ b)
/-- a AND NOT b. -/
def andn (_w a b : Nat) : Nat × Bool := nonZero (a ^^^ (a &&& b))

/-- R117: an amount of w or more shifts everything out. -/
def shlV (w a s : Nat) : Nat := if s < w then a * 2 ^ s % 2 ^ w else 0
def shrV (w a s : Nat) : Nat := if s < w then a / 2 ^ s else 0
def sraV (w a s : Nat) : Nat := wrap w (toSigned w a / 2 ^ (if s < w then s else w))
def rotV (w a s : Nat) : Nat := let k := s % w; a * 2 ^ k % 2 ^ w + a / 2 ^ (w - k)

def shl (w a s : Nat) : Nat × Bool := nonZero (shlV w a s)
def shr (w a s : Nat) : Nat × Bool := nonZero (shrV w a s)
def sra (w a s : Nat) : Nat × Bool := nonZero (sraV w a s)
def rot (w a s : Nat) : Nat × Bool := nonZero (rotV w a s)

def minS (w a b : Nat) : Nat × Bool := nonZero (if toSigned w a ≤ toSigned w b then a else b)
def maxS (w a b : Nat) : Nat × Bool := nonZero (if toSigned w a ≤ toSigned w b then b else a)
def minN (_w a b : Nat) : Nat × Bool := nonZero (if a ≤ b then a else b)
def maxN (_w a b : Nat) : Nat × Bool := nonZero (if a ≤ b then b else a)

/-- The relations of CMP (R95). -/
def holds (rel : Rel) (x y : Int) : Bool :=
  match rel with
  | .eq => x == y
  | .ne => x != y
  | .lt => decide (x < y)
  | .le => decide (x ≤ y)
  | .gt => decide (y < x)
  | .ge => decide (y ≤ x)

def truth (b : Bool) : Nat × Bool := (if b then 1 else 0, b)

def cmp (rel : Rel) (n : Bool) (w a b : Nat) : Nat × Bool := truth (holds rel (readAs n w a) (readAs n w b))
/-- TST: ANY, or NONE when `none1`. -/
def tst (none1 : Bool) (_w a b : Nat) : Nat × Bool := truth ((a &&& b != 0) != none1)
def sel (c : Bool) (a b : Nat) : Nat × Bool := nonZero (if c then a else b)

def clz (w a : Nat) : Nat × Bool := nonZero (if a = 0 then w else w - 1 - a.log2)

/-- The number of one bits among the low n bits. -/
def ones : Nat → Nat → Nat
  | 0, _ => 0
  | n + 1, a => a % 2 + ones n (a / 2)

def popc (w a : Nat) : Nat × Bool := nonZero (ones w a)

/-- BFX (R119). -/
def bfx (n : Bool) (w a b : Nat) : Nat × Bool :=
  let pos := b % 64
  let len := min (b / 256 % 64 + 1) (w - pos)
  if pos ≥ w then (0, false)
  else
    let f := a / 2 ^ pos % 2 ^ len
    nonZero (wrap w (readAs n len f))

/-- BFI (R119); `d` is the old destination. -/
def bfi (w d a b : Nat) : Nat × Bool :=
  let pos := b % 64
  let len := min (b / 256 % 64 + 1) (w - pos)
  if pos ≥ w then nonZero d
  else
    let hi := d / 2 ^ (pos + len)
    nonZero (hi * 2 ^ (pos + len) + a % 2 ^ len * 2 ^ pos + d % 2 ^ pos)

/-- CNT (R123): the result and the wrap bit. -/
def cnt (n : Bool) (w a b : Nat) : Nat × Bool :=
  let t := (a + 1) % 2 ^ w
  if readAs n w t ≥ readAs n w b then (0, true) else (t, false)

/-- The Boolean operations of PLOG (R95). -/
def logic (op : LogicOp) (a b : Bool) : Bool :=
  match op with
  | .and => a && b
  | .or => a || b
  | .xor => a != b
  | .andn => a && !b
  | .nand => !(a && b)
  | .nor => !(a || b)
  | .xnor => a == b
  | .orn => a || !b

/-- Quotient and remainder of R127, truncating toward zero. -/
def divS (w a b : Nat) : Nat :=
  if b = 0 then 0 else wrap w ((toSigned w a).tdiv (toSigned w b))
def divN (_w a b : Nat) : Nat := if b = 0 then 0 else a / b
def remS (n : Bool) (w a b : Nat) : Nat :=
  if b = 0 then a else wrap w ((readAs n w a).tmod (readAs n w b))

end Alu

end Sys2Proof.Machine
end

