-- ==== Sys2Proof/Machine/Numbers.lean ====
section
/-! DEFINITION. Exact values, the formats, rounding and encode of spec/02_numbers.md (R20 to R30, R38, R39), the
keyed generator behind stochastic rounding, and the functions of R140. -/

namespace Sys2Proof.Machine

/-! ### Exact values -/

/-- An exact value: NaN, an infinity, or (-1)^neg * m * 2^e.  A value that no dyadic number holds (a quotient, a
root, a function of R140) is held as a dyadic number just below it in magnitude, with more bits than any rounding
of R27 looks at and an odd last bit, so that every rounding, every test of R29 and the fraction of R28 come out
as for the exact value. -/
inductive Num where
  | nan
  | inf (neg : Bool)
  | fin (neg : Bool) (m : Nat) (e : Int)
  deriving DecidableEq, Repr

/-- 2 to a power given as an integer, as a natural number; 1 below zero. -/
def pow2 (k : Int) : Nat := 2 ^ k.toNat

/-- The magnitude m * 2^e as a multiple of 2^f, for f at most e. -/
def scaleTo (m : Nat) (e f : Int) : Nat := m * pow2 (e - f)

def Num.ofInt (i : Int) : Num := .fin (decide (i < 0)) i.natAbs 0

def Num.zero : Num := .fin false 0 0

def Num.isNan : Num → Bool
  | .nan => true
  | _ => false

def Num.isZero : Num → Bool
  | .fin _ 0 _ => true
  | _ => false

def Num.neg : Num → Num
  | .nan => .nan
  | .inf s => .inf (!s)
  | .fin s m e => .fin (!s) m e

def Num.abs : Num → Num
  | .nan => .nan
  | .inf _ => .inf false
  | .fin _ m e => .fin false m e

/-- The signed mantissa at exponent f, for f at most e. -/
def signedAt (s : Bool) (m : Nat) (e f : Int) : Int :=
  if s then -(scaleTo m e f : Int) else scaleTo m e f

/-- Exact sum; infinities as IEEE 754 has them (R29).  The sign of an exact zero sum follows IEEE 754 too: minus
zero only from two minus zeros (log entry 20). -/
def Num.add : Num → Num → Num
  | .nan, _ => .nan
  | _, .nan => .nan
  | .inf s, .inf t => if s = t then .inf s else .nan
  | .inf s, _ => .inf s
  | _, .inf t => .inf t
  | .fin s m e, .fin t n f =>
    let g := min e f
    let x := signedAt s m e g + signedAt t n f g
    if x = 0 then .fin (s && t && m == 0 && n == 0) 0 g
    else .fin (decide (x < 0)) x.natAbs g

def Num.sub (a b : Num) : Num := a.add b.neg

/-- Exact product; infinity times zero is NaN (R29). -/
def Num.mul : Num → Num → Num
  | .nan, _ => .nan
  | _, .nan => .nan
  | .inf s, .inf t => .inf (s != t)
  | .inf s, .fin t n _ => if n = 0 then .nan else .inf (s != t)
  | .fin s m _, .inf t => if m = 0 then .nan else .inf (s != t)
  | .fin s m e, .fin t n f => .fin (s != t) (m * n) (e + f)

/-- Multiplication by a power of two. -/
def Num.scale (k : Int) : Num → Num
  | .nan => .nan
  | .inf s => .inf s
  | .fin s m e => .fin s m (e + k)

/-- Less than on values that are not NaN; the two zeros are equal. -/
def Num.lt : Num → Num → Bool
  | .nan, _ => false
  | _, .nan => false
  | .inf s, .inf t => s && !t
  | .inf s, _ => s
  | _, .inf t => !t
  | .fin s m e, .fin t n f =>
    let g := min e f
    decide (signedAt s m e g < signedAt t n f g)

/-- The larger value; NaN if either is NaN; +0 over -0 (R138). -/
def Num.max (a b : Num) : Num :=
  if a.isNan || b.isNan then .nan
  else if a.lt b then b
  else if b.lt a then a
  else match a with
    | .fin true _ _ => b
    | _ => a

/-- The smaller value; NaN if either is NaN; -0 over +0 (R138). -/
def Num.min (a b : Num) : Num :=
  if a.isNan || b.isNan then .nan
  else if a.lt b then a
  else if b.lt a then b
  else match a with
    | .fin true _ _ => a
    | _ => b

/-- How many bits a quotient or root is taken to. -/
def workBits : Nat := 192

/-- floor(m * 2^k / n) for k of either sign. -/
def divShift (m n : Nat) (k : Int) : Nat := m * pow2 k / (n * pow2 (-k))

/-- The exact quotient m * 2^e / (n * 2^f), in the form of `Num`. -/
def quotient (s : Bool) (m : Nat) (e : Int) (n : Nat) (f : Int) : Num :=
  let k : Int := workBits + n.log2 - m.log2
  let q := divShift m n k
  let exact := q * (n * pow2 (-k)) = m * pow2 k
  .fin s (2 * q + if exact then 0 else 1) (e - f - k - 1)

def Num.div : Num → Num → Num
  | .nan, _ => .nan
  | _, .nan => .nan
  | .inf _, .inf _ => .nan
  | .inf s, .fin t _ _ => .inf (s != t)
  | .fin s _ _, .inf t => .fin (s != t) 0 0
  | .fin s m e, .fin t n f =>
    if n = 0 then (if m = 0 then .nan else .inf (s != t))
    else if m = 0 then .fin (s != t) 0 0
    else quotient (s != t) m e n f

/-- The integer square root, bit by bit from bit k down. -/
def isqrtFrom (n : Nat) : Nat → Nat → Nat
  | 0, r => r
  | k + 1, r =>
    let r' := r + 2 ^ k
    isqrtFrom n k (if r' * r' ≤ n then r' else r)

def isqrt (n : Nat) : Nat := isqrtFrom n (n.log2 / 2 + 1) 0

/-- The square root of m * 2^e. -/
def rootOf (m : Nat) (e : Int) : Num :=
  let k : Int := 2 * workBits - m.log2
  let k := if (e - k) % 2 = 0 then k else k + 1
  let n := m * pow2 k / pow2 (-k)
  let r := isqrt n
  let exact := r * r * pow2 (-k) = m * pow2 k
  .fin false (2 * r + if exact then 0 else 1) ((e - k) / 2 - 1)

/-- 1 / sqrt(m * 2^e). -/
def recipRootOf (m : Nat) (e : Int) : Num :=
  let k : Int := 2 * workBits + m.log2
  let k := if (e + k) % 2 = 0 then k else k + 1
  let r := isqrt (2 ^ k.toNat / m)
  let exact := r * r * m = 2 ^ k.toNat
  .fin false (2 * r + if exact then 0 else 1) (-((e + k) / 2) - 1)

/-! ### Formats -/

/-- The lane width of a format in a register (R133); 6-bit lanes sit in 8-bit containers (R20). -/
def laneWidth : Fmt → Nat
  | .fp32 | .int32 => 32
  | .bf16 | .fp16 => 16
  | .e4m3 | .e5m2 | .e3m2 | .e2m3 | .int8 | .e8m0 => 8
  | .e2m1 | .int4 | .ix4 => 4

/-- What a floating-point format is made of (R21): precision with the hidden bit, exponent of the smallest
subnormal, largest finite code, sign position, canonical NaN and infinity where it has them. -/
structure FloatSpec where
  p     : Nat
  emin  : Int
  maxc  : Nat
  sbit  : Nat
  nan   : Option Nat
  inf   : Option Nat
  deriving DecidableEq, Repr

/-- How a format reads and writes a lane. -/
inductive Kind where
  | float (f : FloatSpec)
  | int (w : Nat)
  | scale
  | pair
  deriving DecidableEq, Repr

def fp32Spec : FloatSpec := ⟨24, -149, 0x7F7FFFFF, 31, some 0x7FC00000, some 0x7F800000⟩

/-- R21, R22. -/
def kindOf : Fmt → Kind
  | .fp32 => .float fp32Spec
  | .bf16 => .float ⟨8, -133, 0x7F7F, 15, some 0x7FC0, some 0x7F80⟩
  | .fp16 => .float ⟨11, -24, 0x7BFF, 15, some 0x7E00, some 0x7C00⟩
  | .e4m3 => .float ⟨4, -9, 0x7E, 7, some 0x7F, none⟩
  | .e5m2 => .float ⟨3, -16, 0x7B, 7, some 0x7E, some 0x7C⟩
  | .e3m2 => .float ⟨3, -4, 0x1F, 5, none, none⟩
  | .e2m3 => .float ⟨4, -3, 0x1F, 5, none, none⟩
  | .e2m1 => .float ⟨2, -1, 0x7, 3, none, none⟩
  | .int8 => .int 8
  | .int4 => .int 4
  | .int32 => .int 32
  | .e8m0 => .scale
  | .ix4 => .pair

def signedOf (w c : Nat) : Int := if c < 2 ^ (w - 1) then c else (c : Int) - 2 ^ w

def decodeFloat (f : FloatSpec) (c : Nat) : Num :=
  let s := c / 2 ^ f.sbit % 2 = 1
  let body := c % 2 ^ f.sbit
  if f.inf = some body then .inf s
  else if body > f.maxc then .nan
  else
    let ex := body / 2 ^ (f.p - 1)
    let mn := body % 2 ^ (f.p - 1)
    if ex = 0 then .fin s mn f.emin else .fin s (2 ^ (f.p - 1) + mn) (f.emin + ex - 1)

/-- dec(fmt, code) for every format but IX4, whose elements decode in pairs. -/
def decodeLane (fmt : Fmt) (c : Nat) : Num :=
  match kindOf fmt with
  | .float f => decodeFloat f c
  | .int w => .ofInt (signedOf w (c % 2 ^ w))
  | .scale => if c % 256 = 255 then .nan else .fin false 1 ((c % 256 : Nat) - 127 : Int)
  | .pair => .ofInt (signedOf 4 (c % 16))

/-! ### Rounding and encode -/

/-- The flags of R29. -/
structure Flags where
  nan : Bool := false
  inx : Bool := false
  sat : Bool := false
  ftz : Bool := false
  deriving DecidableEq, Repr

def Flags.or (a b : Flags) : Flags := ⟨a.nan || b.nan, a.inx || b.inx, a.sat || b.sat, a.ftz || b.ftz⟩

/-- The magnitude m * 2^e (m not zero) rounded to a multiple of 2^u, as that multiple (R27, R28).  `w` is the
random word of .srk. -/
def roundTo (mode : Rnd) (s : Bool) (m : Nat) (e u : Int) (w : Nat) : Nat :=
  if u ≤ e then scaleTo m e u
  else
    let sh := (u - e).toNat
    let lo := m / 2 ^ sh
    let r := m % 2 ^ sh
    if r = 0 then lo
    else
      let up : Bool := match mode with
        | .rne => decide (2 * r > 2 ^ sh) || (decide (2 * r = 2 ^ sh) && lo % 2 == 1)
        | .rtz => false
        | .rdn => s
        | .rup => !s
        | .srk =>
          if s then !decide (w < (2 ^ sh - r) * 2 ^ 32 / 2 ^ sh)
          else decide (w < r * 2 ^ 32 / 2 ^ sh)
      if up then lo + 1 else lo

/-- The exponent of the grid of a floating-point format at magnitude m * 2^e. -/
def gridExp (f : FloatSpec) (m : Nat) (e : Int) : Int := max (e + m.log2 - (f.p - 1 : Nat)) f.emin

def signCode (f : FloatSpec) (s : Bool) : Nat := if s then 2 ^ f.sbit else 0

def encodeFloat (f : FloatSpec) (mode : Rnd) (w : Nat) : Num → Nat × Flags
  | .nan => ((f.nan.getD 0), { nan := true })
  | .inf s =>
    match f.inf with
    | some c => (signCode f s + c, {})
    | none => (signCode f s + f.maxc, { sat := true })
  | .fin s m e =>
    if m = 0 then (signCode f s, {})
    else
      let u := gridExp f m e
      let n := roundTo mode s m e u w
      let inx := !decide (scaleTo n u (min u e) = scaleTo m e (min u e))
      let c := (u - f.emin).toNat * 2 ^ (f.p - 1) + n
      let sat := decide (c > f.maxc)
      (signCode f s + (if sat then f.maxc else c), { inx := inx, sat := sat, ftz := decide (n = 0) })

def encodeInt (w : Nat) (mode : Rnd) (rw : Nat) : Num → Nat × Flags
  | .nan => (0, { nan := true })
  | .inf s => ((if s then 2 ^ (w - 1) else 2 ^ (w - 1) - 1), { sat := true })
  | .fin s m e =>
    let n := if m = 0 then 0 else roundTo mode s m e 0 rw
    let inx := !decide (scaleTo n 0 (min 0 e) = scaleTo m e (min 0 e))
    let lim := if s then 2 ^ (w - 1) else 2 ^ (w - 1) - 1
    let sat := decide (n > lim)
    let n := if sat then lim else n
    ((if s then (2 ^ w - n) % 2 ^ w else n), { inx := inx, sat := sat })

/-- An E8M0 code of a value that is a power of two or NaN. -/
def encodeScale : Num → Nat × Flags
  | .nan => (0xFF, { nan := true })
  | .inf _ => (254, { sat := true })
  | .fin _ m e => ((max 0 (min 254 (e + m.log2 + 127))).toNat, {})

/-- encode(fmt, mode, x) of R29; `w` is the first word of the generator for .srk.  E8M0 and IX4 lanes are encoded one
by one only where they convert to themselves (R150): elsewhere an IX4 pair goes through `encodePair`, a scale through
`blockScale`. -/
def encodeLane (fmt : Fmt) (mode : Rnd) (w : Nat) (x : Num) : Nat × Flags :=
  match kindOf fmt with
  | .float f => encodeFloat f mode w x
  | .int b => encodeInt b mode w x
  | .scale => encodeScale x
  | .pair => encodeInt 4 mode w x

/-- encode into FP32 by .rne. -/
def encodeF32 (x : Num) : Nat × Flags := encodeFloat fp32Spec .rne 0 x

def decodeF32 (c : Nat) : Num := decodeFloat fp32Spec c

/-! ### Philox-4x32-10 (PRESUMED: the published generator; log entry 15) -/

def philoxRound (k0 k1 : Nat) : Nat × Nat × Nat × Nat → Nat × Nat × Nat × Nat
  | (c0, c1, c2, c3) =>
    let a := 0xD2511F53 * c0
    let b := 0xCD9E8D57 * c2
    ((b / 2 ^ 32).xor c1 |>.xor k0, b % 2 ^ 32, (a / 2 ^ 32).xor c3 |>.xor k1, a % 2 ^ 32)

def philoxRounds : Nat → Nat → Nat → Nat × Nat × Nat × Nat → Nat × Nat × Nat × Nat
  | 0, _, _, c => c
  | n + 1, k0, k1, c =>
    philoxRounds n ((k0 + 0x9E3779B9) % 2 ^ 32) ((k1 + 0xBB67AE85) % 2 ^ 32) (philoxRound k0 k1 c)

/-- The first output word of philox(key, counter). -/
def philox0 (seed : Nat) (c0 c1 c2 c3 : Nat) : Nat :=
  (philoxRounds 10 (seed % 2 ^ 32) (seed / 2 ^ 32 % 2 ^ 32)
    (c0 % 2 ^ 32, c1 % 2 ^ 32, c2 % 2 ^ 32, c3 % 2 ^ 32)).1

/-- The random word of a .srk lane (R28). -/
def srkWord (seed lidx lane seq : Nat) : Nat := philox0 seed lidx lane seq 0x53524B00

/-- The random word of VRNG and VDROP (R154, R155). -/
def rngWord (seed layer index : Nat) : Nat := philox0 seed index layer 0x56524E00 0

/-! ### Block scales and IX4 -/

/-- The emax of R30. -/
def emaxOf : Fmt → Int
  | .e4m3 => 8
  | .e5m2 => 15
  | .e3m2 => 4
  | .e2m3 | .e2m1 | .ix4 => 2
  | _ => 0

/-- Whether a value is finite and not zero, and floor(log2 |x|) of it. -/
def Num.ilog2 : Num → Option Int
  | .fin _ m e => if m = 0 then none else some (e + m.log2)
  | _ => none

/-- The E8M0 scale of a block (R30) and whether the amax = 0 or the NaN case holds.  A block with an infinite
element has no finite floor(log2 amax): the scale is the clamp's upper end (log entry 21). -/
def blockScale (fmt : Fmt) (xs : List Num) : Nat × Flags :=
  if xs.any Num.isNan then (0xFF, { nan := true })
  else
    let amax := (xs.map Num.abs).foldl Num.max .zero
    match amax with
    | .fin _ 0 _ => (0x7F, { ftz := true })
    | .inf _ => (254, {})
    | _ =>
      let x := (amax.ilog2.getD 0) - emaxOf fmt + 127
      ((max 0 (min 254 x)).toNat, {})

/-- 2^(X - 127), NaN at 0xFF. -/
def scaleValue (x : Nat) : Num := if x = 255 then .nan else .fin false 1 ((x : Int) - 127)

/-- The values of the two nibbles of an IX4 byte (R24), the element 2i first. -/
def decodePairByte (b : Nat) : Num × Num :=
  let l := b % 16
  let h := b / 16 % 16
  if l = 8 then (decodeLane .e4m3 (h * 16 + 8), .zero)
  else if h = 8 then (.zero, decodeLane .e4m3 (l * 16 + 8))
  else (.ofInt (signedOf 4 l), .ofInt (signedOf 4 h))

/-- One element of an IX4 pair rounded to an integer (R25): q, and whether rounding changed it.  An infinite
quotient is beyond every integer: it is an outlier past 256. -/
def ixRound (mode : Rnd) (w : Nat) : Num → Int × Bool
  | .nan => (0, false)
  | .inf s => (if s then -(2 ^ 300) else 2 ^ 300, false)
  | .fin s m e =>
    let n := if m = 0 then 0 else roundTo mode s m e 0 w
    (if s then -(n : Int) else n, !decide (scaleTo n 0 (min 0 e) = scaleTo m e (min 0 e)))

/-- The plain code of a quotient of magnitude at most 11 and its flags (R25). -/
def ixPlain (q : Int) (ch : Bool) : Nat × Flags :=
  if q.natAbs ≤ 7 then (((q % 16).toNat), { inx := ch })
  else ((if q < 0 then 9 else 7), { sat := true, inx := true })

/-- The neighbour nibble that makes the outlier nearest to q, and its flags (R25): +16 is 0b0101, +64 is 0b0110,
+256 is 0b0111, with bit 3 the sign. -/
def ixOutlier (q : Int) (ch : Bool) : Nat × Flags :=
  let a := q.natAbs
  let (k, v) := if a < 40 then (5, 16) else if a < 160 then (6, 64) else (7, 256)
  (k + (if q < 0 then 8 else 0), { sat := decide (a > 256), inx := ch || decide (a ≠ v) })

/-- Encoding of one IX4 pair (R25): the byte, the flags of each element, and how many partners were displaced.
A quotient's INX is set where the value written differs from it. -/
def encodePair (mode : Rnd) (w0 w1 : Nat) (y0 y1 : Num) : Nat × Flags × Flags × Nat :=
  let (q0, c0) := ixRound mode w0 y0
  let (q1, c1) := ixRound mode w1 y1
  let n0 : Flags := { nan := y0.isNan }
  let n1 : Flags := { nan := y1.isNan }
  let cand0 := decide (q0.natAbs ≥ 12)
  let cand1 := decide (q1.natAbs ≥ 12)
  if cand0 && (!cand1 || decide (q0.natAbs ≥ q1.natAbs)) then
    let (k, f) := ixOutlier q0 c0
    (8 + 16 * k, f.or n0, ({ inx := c1 || decide (q1 ≠ 0) } : Flags).or n1, if q1 = 0 then 0 else 1)
  else if cand1 then
    let (k, f) := ixOutlier q1 c1
    (k + 128, ({ inx := c0 || decide (q0 ≠ 0) } : Flags).or n0, f.or n1, if q0 = 0 then 0 else 1)
  else
    let (p0, f0) := ixPlain q0 c0
    let (p1, f1) := ixPlain q1 c1
    (p0 + 16 * p1, f0.or n0, f1.or n1, 0)

/-! ### The exact accumulator (R38, R39) -/

/-- trunc(a * 2^96) for a finite addend, as an integer. -/
def truncXadd (s : Bool) (m : Nat) (e : Int) : Int :=
  let n := m * pow2 (e + 96) / pow2 (-(e + 96))
  if s then -(n : Int) else n

/-- One addend into an XADD word of 256 bits. -/
def xaddWord (word : Nat) (a : Num) : Nat :=
  let spec := word / 2 ^ 254 % 4
  let val := word % 2 ^ 254
  match a with
  | .nan => 3 * 2 ^ 254 + val
  | .inf false => (spec ||| 1) * 2 ^ 254 + val
  | .inf true => (spec ||| 2) * 2 ^ 254 + val
  | .fin s m e => spec * 2 ^ 254 + (((val : Int) + truncXadd s m e) % 2 ^ 254).toNat

/-- The value an XADD word stands for. -/
def xaddValue (word : Nat) : Num :=
  match word / 2 ^ 254 % 4 with
  | 3 => .nan
  | 1 => .inf false
  | 2 => .inf true
  | _ =>
    let v := signedOf 254 (word % 2 ^ 254)
    .fin (decide (v < 0)) v.natAbs (-96)

/-- Readout of an XADD word into FP32 or BF16 (R39). -/
def xaddRead (fmt : Fmt) (word : Nat) : Nat × Flags := encodeLane fmt .rne 0 (xaddValue word)

/-! ### The functions of R140

2^a, log2 a and tanh a are irrational but for the exact cases taken apart below, so an enclosure of them that is
narrower than the grid of every format decides the rounding.  The enclosures are series in fixed point at 320
bits with an error bound. -/

/-- Fixed-point bits of the series. -/
def fxBits : Nat := 320

/-- A number in fixed point, enclosed: lo ≤ x * 2^fxBits ≤ hi. -/
structure Encl where
  lo : Nat
  hi : Nat
  deriving DecidableEq, Repr

def Encl.mul (a b : Encl) : Encl := ⟨a.lo * b.lo / 2 ^ fxBits, a.hi * b.hi / 2 ^ fxBits + 1⟩
def Encl.add (a b : Encl) : Encl := ⟨a.lo + b.lo, a.hi + b.hi⟩
def Encl.divNat (a : Encl) (n : Nat) : Encl := ⟨a.lo / n, a.hi / n + 1⟩
def Encl.div (a b : Encl) : Encl := ⟨a.lo * 2 ^ fxBits / b.hi, a.hi * 2 ^ fxBits / b.lo + 1⟩
def Encl.one : Encl := ⟨2 ^ fxBits, 2 ^ fxBits⟩

/-- sum of z^(2k+1)/(2k+1) for z at most 1/3, from the odd power `p` and odd number `j` on: artanh z. -/
def artanhFrom (z2 : Encl) : Nat → Nat → Encl → Encl → Encl
  | 0, _, _, acc => ⟨acc.lo, acc.hi + 2⟩
  | n + 1, j, p, acc => artanhFrom z2 n (j + 2) (p.mul z2) (acc.add (p.divNat j))

def artanh (z : Encl) : Encl := artanhFrom (z.mul z) 104 1 z ⟨0, 0⟩

/-- ln 2 = 2 artanh(1/3). -/
def ln2 : Encl :=
  let a := artanh ⟨2 ^ fxBits / 3, 2 ^ fxBits / 3 + 1⟩
  ⟨2 * a.lo, 2 * a.hi⟩

/-- e^x for 0 ≤ x < 1 by its series. -/
def expFrom (x : Encl) : Nat → Nat → Encl → Encl → Encl
  | 0, _, _, acc => ⟨acc.lo, acc.hi + 2⟩
  | n + 1, j, t, acc => expFrom x n (j + 1) ((t.mul x).divNat j) (acc.add t)

def expSmall (x : Encl) : Encl := expFrom x 72 1 .one ⟨0, 0⟩

/-- An enclosed magnitude as an exact value with a last odd bit, where the enclosure settles the bits a rounding
looks at; none where it does not. -/
def settle (s : Bool) (x : Encl) (e : Int) : Option Num :=
  -- keep 64 bits below the leading one, then the odd bit
  let d := x.lo.log2 - 64
  let a := x.lo / 2 ^ d
  if a = x.hi / 2 ^ d then some (.fin s (2 * a + 1) (e + d - 1 - fxBits)) else none

/-- 2^f for the fraction f = r / 2^k. -/
def exp2Frac (r k : Nat) : Encl :=
  expSmall (ln2.mul ⟨r * 2 ^ fxBits / 2 ^ k, r * 2 ^ fxBits / 2 ^ k + 1⟩)

/-- 2^a for a finite a that is no integer, or an integer.  A tiny a gives a value next to 1; one
beyond 4096 a value beyond every format, inexact where a is no integer. -/
def exp2Fin (s : Bool) (m : Nat) (e : Int) : Option Num :=
  if m = 0 then some (.fin false 1 0)
  else if e + m.log2 < -100 then
    some (if s then .fin false (2 ^ 101 - 1) (-101) else .fin false (2 ^ 101 + 1) (-101))
  else if e + m.log2 ≥ 12 then
    let whole := decide (0 ≤ e) || m % 2 ^ (-e).toNat == 0
    some (if s then .fin false 1 (-4096) else if whole then .fin false 1 4096 else .fin false (2 ^ 70 + 1) (4096 - 70))
  else
    let k := (-e).toNat
    let n := scaleTo m e (min e 0)
    let v : Int := if s then -(n : Int) else n
    let i := v / 2 ^ k
    let r := (v % 2 ^ k).toNat
    if r = 0 then some (.fin false 1 i) else settle false (exp2Frac r k) i

def Num.exp2 : Num → Option Num
  | .nan => some .nan
  | .inf false => some (.inf false)
  | .inf true => some .zero
  | .fin s m e => exp2Fin s m e

/-- log2 of a positive m * 2^e: exponent plus the logarithm of a mantissa in [1, 2).  For an exponent below zero
the mantissa is taken in [1/2, 1), so that the two parts never cancel. -/
def log2Fin (m : Nat) (e : Int) : Option Num :=
  let l := m.log2
  let x := e + l
  if m = 2 ^ l then some (.ofInt x)
  else
    -- t = m / 2^l in (1, 2)
    let big := x ≥ 0
    -- z = (t - 1)/(t + 1), or (1 - t/2)/(1 + t/2)
    let num := if big then m - 2 ^ l else 2 ^ (l + 1) - m
    let den := if big then m + 2 ^ l else 2 ^ (l + 1) + m
    let z : Encl := ⟨num * 2 ^ fxBits / den, num * 2 ^ fxBits / den + 1⟩
    let a := artanh z
    let f := (⟨2 * a.lo, 2 * a.hi⟩ : Encl).div ln2
    let whole := (if big then x else -(x + 1)).toNat * 2 ^ fxBits
    settle (!big) ⟨whole + f.lo, whole + f.hi⟩ 0

def Num.log2 : Num → Option Num
  | .nan => some .nan
  | .inf false => some (.inf false)
  | .inf true => some .nan
  | .fin s m e => if m = 0 then some (.inf true) else if s then some .nan else log2Fin m e

/-- tanh of a finite magnitude: (1 - u)/(1 + u) with u = e^(-2a) = 2^(-2a / ln 2).  A tiny a gives a value next
to a, a large one a value next to 1. -/
def tanhFin (s : Bool) (m : Nat) (e : Int) : Option Num :=
  if m = 0 then some (.fin s 0 0)
  else if e + m.log2 < -60 then some (.fin s (m * 2 ^ 110 - 1) (e - 110))
  else if e + m.log2 ≥ 6 then some (.fin s (2 ^ 90 - 1) (-90))
  else
    -- e^(-2a) = (e^(-2a / 256))^256
    let k := (-(e - 7)).toNat
    let n := scaleTo m (e - 7) (min (e - 7) 0)
    let x : Encl := ⟨n * 2 ^ fxBits / 2 ^ k, n * 2 ^ fxBits / 2 ^ k + 1⟩
    let g := expSmall x
    let sq (a : Encl) : Encl := a.mul a
    let g := sq (sq (sq (sq (sq (sq (sq (sq g)))))))
    -- g = e^(2a): tanh = (g - 1)/(g + 1)
    let t := (⟨g.lo - 2 ^ fxBits, g.hi - 2 ^ fxBits⟩ : Encl).div ⟨g.lo + 2 ^ fxBits, g.hi + 2 ^ fxBits⟩
    settle s t 0

def Num.tanh : Num → Option Num
  | .nan => some .nan
  | .inf s => some (.fin s 1 0)
  | .fin s m e => tanhFin s m e

def Num.recip : Num → Num
  | .fin s 0 _ => .inf s
  | x => (Num.fin false 1 0).div x

/-- R140: VSQRT of -0 is -0. -/
def Num.sqrt : Num → Num
  | .nan => .nan
  | .inf false => .inf false
  | .inf true => .nan
  | .fin s m e => if m = 0 then .fin s 0 0 else if s then .nan else rootOf m e

/-- R140: VRSQ of +0 and -0 are the infinities of that sign. -/
def Num.rsqrt : Num → Num
  | .nan => .nan
  | .inf false => .zero
  | .inf true => .nan
  | .fin s m e => if m = 0 then .inf s else if s then .nan else recipRootOf m e

end Sys2Proof.Machine
end

