-- ==== Sys2Proof/Machine/Lanes.lean ====
section
/-! DEFINITION. Whole-register operations of spec/08_vector.md on 256-bit values and 512-bit accumulators held as
natural numbers: lanes, the lane operand, and every vector operation as a pure function with its conversion
flags and counts. -/

namespace Sys2Proof.Machine

/-- What the encodes of one firing add to the sticky flags (R31) and to the counts (R32). -/
structure Conv where
  flags : Flags := {}
  sat   : Nat := 0
  ftz   : Nat := 0
  nan   : Nat := 0
  ixd   : Nat := 0
  deriving DecidableEq, Repr

/-- One lane's encode. -/
def Conv.ofFlags (f : Flags) : Conv :=
  ⟨f, if f.sat then 1 else 0, if f.ftz then 1 else 0, if f.nan then 1 else 0, 0⟩

def Conv.add (a b : Conv) : Conv :=
  ⟨a.flags.or b.flags, a.sat + b.sat, a.ftz + b.ftz, a.nan + b.nan, a.ixd + b.ixd⟩

def Conv.sum (cs : List Conv) : Conv := cs.foldl Conv.add {}

namespace Lanes

/-- The first n lanes of width w, lane 0 first (R20). -/
def split (w : Nat) : Nat → Nat → List Nat
  | 0, _ => []
  | n + 1, x => x % 2 ^ w :: split w n (x / 2 ^ w)

def pack (w : Nat) : List Nat → Nat
  | [] => 0
  | x :: xs => x % 2 ^ w + 2 ^ w * pack w xs

/-- How many lanes a vector of this format has (R133). -/
def count (fmt : Fmt) : Nat := 256 / laneWidth fmt

def codes (fmt : Fmt) (x : Nat) : List Nat := split (laneWidth fmt) (count fmt) x

/-- Every lane of a vector, decoded exactly. -/
def values (fmt : Fmt) (x : Nat) : List Num := (codes fmt x).map (decodeLane fmt)

/-- The sixteen FP32 lanes of an accumulator (R133). -/
def accValues (x : Nat) : List Num := (split 32 16 x).map decodeF32

/-- The lane operand, code 29, in a lane format (R398). -/
def laneOperand (fmt : Fmt) : Nat :=
  pack (laneWidth fmt) ((List.range (count fmt)).map fun (k : Nat) => (encodeLane fmt .rne 0 (.ofInt k)).1)

/-- The lane operand of an instruction that works by lane width (R398). -/
def laneOperandW (w : Nat) : Nat := pack w (List.range (256 / w))

/-- Encodes lanes one by one; `rand k` is the random word of lane k. -/
def encodeAll (fmt : Fmt) (mode : Rnd) (rand : Nat → Nat) (xs : List Num) : Nat × Conv :=
  let rs := xs.mapIdx fun k x => encodeLane fmt mode (rand k) x
  (pack (laneWidth fmt) (rs.map Prod.fst), .sum (rs.map fun r => .ofFlags r.2))

def encodeRne (fmt : Fmt) (xs : List Num) : Nat × Conv := encodeAll fmt .rne (fun _ => 0) xs

/-- VADD to VCLAMP with two sources (R138). -/
def binary (f : Num → Num → Num) (fmt : Fmt) (a b : Nat) : Nat × Conv :=
  encodeRne fmt (List.zipWith f (values fmt a) (values fmt b))

def unary (f : Num → Num) (fmt : Fmt) (a : Nat) : Nat × Conv := encodeRne fmt ((values fmt a).map f)

def clampNum (a b : Num) : Num := (a.max b.abs.neg).min b.abs

/-- A function of R140; `open_ k x` stands for a lane whose enclosure does not settle its rounding (log entry 14). -/
def function (f : Num → Option Num) (open_ : Nat → Nat) (fmt : Fmt) (a : Nat) : Nat × Conv :=
  let rs := (codes fmt a).map fun c =>
    match f (decodeLane fmt c) with
    | some x => encodeLane fmt .rne 0 x
    | none => (open_ c % 2 ^ laneWidth fmt, { inx := true })
  (pack (laneWidth fmt) (rs.map Prod.fst), .sum (rs.map fun r => .ofFlags r.2))

/-- c + a * b or c - a * b for a vector destination (R139). -/
def fma (minus : Bool) (fmt : Fmt) (c : List Num) (a b : Nat) : Nat × Conv :=
  let ps := List.zipWith Num.mul (values fmt a) (values fmt b)
  encodeRne fmt (List.zipWith Num.add c (if minus then ps.map Num.neg else ps))

/-- Adds values into the first lanes of an accumulator and keeps the others (R139, R156). -/
def accumulate (acc : Nat) (ps : List Num) : Nat × Conv :=
  let rs := List.zipWith (fun c p => encodeF32 ((decodeF32 c).add p)) (split 32 16 acc) ps
  (pack 32 (rs.map Prod.fst ++ (split 32 16 acc).drop ps.length), .sum (rs.map fun r => .ofFlags r.2))

def fmaAcc (minus : Bool) (fmt : Fmt) (acc a b : Nat) : Nat × Conv :=
  let ps := List.zipWith Num.mul (values fmt a) (values fmt b)
  accumulate acc (if minus then ps.map Num.neg else ps)

/-- One level of the tree of R37. -/
def treeLevel (f : Num → Num → Num × Flags) : List Num → List Num × Flags
  | a :: b :: xs =>
    let (c, g) := f a b
    let (ys, h) := treeLevel f xs
    (c :: ys, g.or h)
  | xs => (xs, {})

def treeFrom (f : Num → Num → Num × Flags) : Nat → List Num → Flags → Num × Flags
  | 0, xs, fl => (xs.headD .zero, fl)
  | n + 1, xs, fl => let (ys, g) := treeLevel f xs; treeFrom f n ys (fl.or g)

/-- A node of a sum is an encode into FP32 (R37). -/
def sumNode (a b : Num) : Num × Flags :=
  let (c, g) := encodeF32 (a.add b)
  (decodeF32 c, g)

def redNode : RedKind → Num → Num → Num × Flags
  | .sum, a, b => sumNode a b
  | .min, a, b => (a.min b, {})
  | .max, a, b => (a.max b, {})

/-- VRED and VAMAX: the FP32 code; one firing counts as one lane (R37, R141). -/
def reduce (kind : RedKind) (xs : List Num) : Nat × Conv :=
  let (v, fl) := treeFrom (redNode kind) 6 xs {}
  let (c, g) := encodeF32 v
  (c, .ofFlags (fl.or g))

/-- VCMP (R142). -/
def compare (fmt : Fmt) (a b : Nat) : Nat :=
  let w := laneWidth fmt
  pack w (List.zipWith (fun x y =>
    if x.isNan || y.isNan then 2 else if x.lt y then 2 ^ w - 1 else if y.lt x then 1 else 0)
    (values fmt a) (values fmt b))

def laneBits : LaneW → Nat
  | .w8 => 8
  | .w16 => 16
  | .w32 => 32

def testCode (w : Nat) : VTest → Nat
  | .lt => 2 ^ w - 1
  | .eq => 0
  | .gt => 1
  | .un => 2

/-- VSEL (R143). -/
def select (lw : LaneW) (t : VTest) (d a b : Nat) : Nat :=
  let w := laneBits lw
  let n := 256 / w
  pack w (List.zipWith (fun s ab => if s = testCode w t then ab.1 else ab.2)
    (split w n d) (List.zip (split w n a) (split w n b)))

/-- VLOG (R144). -/
def logic (op : VLogOp) (a b : Nat) : Nat :=
  match op with
  | .and => a &&& b
  | .or => a ||| b
  | .xor => a ^^^ b
  | .andn => a ^^^ (a &&& b)
  | .not => 2 ^ 256 - 1 - a

/-- VSH (R144): every lane by the table of R117. -/
def shift (lw : LaneW) (op : ShOp) (a s : Nat) : Nat :=
  let w := laneBits lw
  let f := match op with
    | .shl => Alu.shlV w
    | .shr => Alu.shrV w
    | .sra => Alu.sraV w
    | .rot => Alu.rotV w
  pack w ((split w (256 / w) a).map fun x => f x s)

/-- The bits of a lane that VBCST, VEXT and VINS move: six for E3M2 and E2M3 (R145, R146). -/
def movedBits : Fmt → Nat
  | .e3m2 | .e2m3 => 6
  | f => laneWidth f

def broadcast (fmt : Fmt) (a : Nat) : Nat :=
  pack (laneWidth fmt) (List.replicate (count fmt) (a % 2 ^ movedBits fmt))

def extract (fmt : Fmt) (v k : Nat) : Nat :=
  if k < count fmt then v / 2 ^ (laneWidth fmt * k) % 2 ^ movedBits fmt else 0

def insert (fmt : Fmt) (d a k : Nat) : Nat :=
  if k < count fmt then pack (laneWidth fmt) ((codes fmt d).set k (a % 2 ^ movedBits fmt)) else d

/-- VIOTA (R147): a and b as signed integers. -/
def iota (fmt : Fmt) (a b : Nat) : Nat × Conv :=
  let w := laneWidth fmt
  let xs := (List.range (count fmt)).map fun (k : Nat) => toSigned 32 a + (k : Int) * toSigned 32 b
  match kindOf fmt with
  | .float _ => encodeRne fmt (xs.map Num.ofInt)
  | _ => (pack w (xs.map (wrap w)), {})

/-- VSHUF (R148). -/
def shuffle (lw : LaneW) (a b : Nat) : Nat :=
  let w := laneBits lw
  let as_ := split w (256 / w) a
  pack w ((split w (256 / w) b).map fun j => as_.getD j 0)

/-- Values of an IX4 register, pair by pair (R24). -/
def pairValues : List Nat → List Num
  | [] => []
  | b :: bs => let (x, y) := decodePairByte b; x :: y :: pairValues bs

/-- Encodes IX4 elements pair by pair into bytes (R25). -/
def encodePairs (mode : Rnd) (rand : Nat → Nat) : Nat → List Num → List Nat × Conv
  | k, x :: y :: xs =>
    let (b, f, g, d) := encodePair mode (rand k) (rand (k + 1)) x y
    let (bs, c) := encodePairs mode rand (k + 2) xs
    (b :: bs, ((Conv.ofFlags f).add (.ofFlags g)).add (c.add { ixd := d }))
  | _, _ => ([], {})

/-- One block of VQNT: its codes as a packed number, its scale, its flags and counts (R152). -/
def quantBlock (dst : Fmt) (mode : Rnd) (rand : Nat → Nat) (k0 : Nat) (xs : List Num) : Nat × Nat × Conv :=
  let (x, fl) := blockScale dst xs
  let k : Int := (if dst = .int8 then 6 else 0) - ((x : Int) - 127)
  let ys := xs.map fun v => if x = 255 then Num.nan else v.scale k
  let head := Conv.ofFlags fl
  if dst = .ix4 then
    let (bs, c) := encodePairs mode rand k0 ys
    (pack 8 bs, x, head.add c)
  else
    let (v, c) := encodeAll dst mode (fun i => rand (k0 + i)) ys
    (v, x, head.add c)

/-- VQNT (R152): the vector, the scale register, flags and counts. -/
def quantize (dst : Fmt) (mode : Rnd) (rand : Nat → Nat) (xs : List Num) : Nat × Nat × Conv :=
  if laneWidth dst = 4 then
    let (v0, x0, c0) := quantBlock dst mode rand 0 (xs.take 32)
    let (v1, x1, c1) := quantBlock dst mode rand 32 (xs.drop 32)
    (v0 + 2 ^ 128 * v1, x0 + 256 * x1, c0.add c1)
  else
    let (v, x, c) := quantBlock dst mode rand 0 xs
    (v, x + 256 * 0x7F, c)

/-- The values of a scaled vector: 2^(X-127) times every element, NaN where X is 0xFF (R23, R24, R153). -/
def scaledValues (src : Fmt) (a sc : Nat) : List Num :=
  let xs := if src = .ix4 then pairValues (split 8 32 a) else values src a
  xs.mapIdx fun k v =>
    let x := if k < 32 then sc % 256 else sc / 256 % 256
    if x = 255 then .nan else v.scale ((x : Int) - 127 - (if src = .int8 then 6 else 0))

/-- VRNG (R154). -/
def random (kind : Fin 4) (seed a b : Nat) : Nat :=
  let w (k : Nat) := rngWord seed a ((b + k) % 2 ^ 32)
  match kind with
  | 0 => pack 32 ((List.range 8).map w)
  | 1 => pack 32 ((List.range 8).map fun k => (encodeLane .fp32 .rne 0 (.fin false (w k / 2 ^ 8) (-24))).1)
  | 2 => pack 16 ((List.range 16).map fun k => (encodeLane .bf16 .rne 0 (.fin false (w k / 2 ^ 24) (-8))).1)
  | 3 => pack 16 ((List.range 16).map fun k => w k % 2 ^ 16)

/-- VDROP (R155). -/
def drop (fmt : Fmt) (seed layer thr a b : Nat) : Nat × Conv :=
  let rs := (codes fmt a).mapIdx fun k c =>
    if thr = 2 ^ 32 - 1 || decide (rngWord seed layer ((b + k) % 2 ^ 32) < thr)
    then encodeLane fmt .rne 0 (decodeLane fmt c) else (0, {})
  (pack (laneWidth fmt) (rs.map Prod.fst), .sum (rs.map fun r => .ofFlags r.2))

/-- Lane c of a row of a CTURN block (R157). -/
def lane (w row c : Nat) : Nat := row / 2 ^ (w * c) % 2 ^ w

end Lanes

end Sys2Proof.Machine
end

