-- ==== Sys2Proof/Machine/State.lean ====
section
/-! DEFINITION. The state of the module: every piece the spec names, as plain data.  INVENTORY.md lists each with
its rule and its reset value. -/

namespace Sys2Proof.Machine

/-- Data by number: sorted by key, no key twice. -/
abbrev KMap (α : Type) := List (Nat × α)

/-- A memory: address and byte, addresses rising, no entry equal to 0, which is what an unlisted address reads
as (log entry 2). -/
abbrev Mem := List Host.Cell

/-! ### Tokens and channels -/

/-- A token: 256 bits and a 2-bit tag (R14); on a control channel bits [31:0] alone are used.  `stroke` is the
open stroke of the element that sent it, which an engine keeps with a command (R187). -/
structure Token where
  data   : V256
  tag    : BitVec 2 := 0
  stroke : Nat := 0
  deriving DecidableEq, Repr

/-- An input channel (R42, R43): its FIFO of two, the tokens on their way, the tokens in its backing ring, the
slots held for results that are still pending (R136), and whether its head token fails its FIFO parity (R384). -/
structure Chan where
  fifo   : List Token := []
  flight : List Token := []
  ring   : List Token := []
  held   : Nat := 0
  parity : Bool := false
  deriving DecidableEq, Repr

/-! ### Elements -/

/-- The corner-turn unit (R157): rows of the fill buffer, the drain buffer and its next column. -/
structure Turn where
  fill  : List V256 := []
  drain : List V256 := []
  col   : Nat := 0
  deriving DecidableEq, Repr

/-- What a stroke snapshot of an element holds (R58): registers, flags and counters. -/
structure ElemCore where
  x      : Vector W32 16 := Vector.replicate 16 0
  v      : Vector V256 8 := Vector.replicate 8 0
  a      : Vector A512 4 := Vector.replicate 4 0
  sc     : Vector W32 8 := Vector.replicate 8 0x7F7F
  p      : BitVec 8 := 0
  econv  : BitVec 4 := 0
  halted : Bool := false
  pos    : Nat := 0
  cnt    : W32 := 0
  seq    : W32 := 0
  idx    : W32 := 0
  out    : Nat := 0
  exp    : W32 := 0
  lastA  : Bool := false
  turn   : Turn := {}
  loopI  : Nat := 0
  loops  : KMap Nat := []
  /-- the CUT being applied: E and I (R163) -/
  cut    : Option (Nat × Nat) := none
  barIn  : KMap Nat := []
  barOut : Nat := 0
  deriving DecidableEq, Repr

/-- EFAULT (R54). -/
structure EFault where
  v     : Bool := false
  plane : BitVec 2 := 0
  slot  : BitVec 4 := 0
  op    : BitVec 8 := 0
  code  : BitVec 8 := 0
  deriving DecidableEq, Repr

/-- One value a pending firing will write (R41). -/
inductive PWrite where
  | x (n : Fin 16) (val : W32)
  | w (n : Fin 16) (val : W32)
  | v (n : Fin 8) (val : V256)
  | acc (n : Fin 4) (val : A512)
  | sc (n : Fin 8) (val : W32)
  | pred (n : Fin 8) (val : Bool)
  | out (c : Fin 16) (tok : Token)
  deriving DecidableEq, Repr

/-- A multi-cycle result: the round at whose end it is written, and what it writes (R136). -/
structure Pending where
  due    : Nat
  writes : List PWrite
  deriving DecidableEq, Repr

/-- What an outstanding request of a memory element is for (R169, R171). -/
inductive ReqKind where
  | load (w : MemW) (n : Bool)
  | vload
  | lds
  | ldc
  | xlat (wr : Bool)
  | store
  | take
  deriving DecidableEq, Repr

/-- A page of a translation: where it starts, its size as log2, the frame, and the attributes of its leaf (R310). -/
structure Page where
  va    : Nat
  log2  : Nat
  pa    : Nat
  w     : Bool := false
  fe    : Bool := false
  ht    : Bool := false
  cmp   : Bool := false
  deriving DecidableEq, Repr

/-- A translation held in a TLB (R313). -/
structure TlbEntry where
  ctx  : Nat
  page : Page
  deriving DecidableEq, Repr

/-- A request slot (R169). -/
structure MemReq where
  id     : Nat
  kind   : ReqKind
  va     : Nat
  len    : Nat
  dst    : Dst
  pred   : Option (Fin 8) := none
  cls    : Nat := 0
  order  : Nat := 0
  /-- the translation: each span of the access with its page; empty while the walk is out -/
  pages  : List Page := []
  walked : Bool := false
  /-- the fault found by the walk or with the data: code, address, write -/
  fault  : Option (Nat × Nat) := none
  /-- XLAT's address token, RTAKE's pool and the token it was answered with -/
  token  : V256 := 0
  pool   : Nat := 0
  answer : Option Token := none
  stroke : Nat := 0
  /-- the slot whose firing made it, which EFAULT names if it faults (R177) -/
  plane  : Nat := 0
  slot   : Nat := 0
  deriving DecidableEq, Repr

structure Elem where
  core     : ElemCore := {}
  plane    : BitVec 2 := 0
  efault   : EFault := {}
  faulted  : Bool := false
  /-- the fault of `efault` waits for the region controller, which voids and services it: its address and kind -/
  voidDue  : Bool := false
  fva      : Nat := 0
  fwr      : Bool := false
  /-- a switching DRAIN has passed it (R60) -/
  stopped  : Bool := false
  /-- a DRAIN in flight has passed it -/
  drained  : Bool := false
  /-- a FREEZE has passed it (R246) -/
  frozen   : Bool := false
  slots    : KMap W64 := []
  binds    : KMap W64 := []
  owner    : W64 := 0
  /-- by output channel, the read-only copy of the owner descriptor its route leads to (R181) -/
  owners   : KMap W64 := []
  chans    : KMap Chan := []
  /-- marks the region controller injected at an element with no bound input (R56) -/
  inject   : List Token := []
  pending  : List Pending := []
  reqs     : List MemReq := []
  /-- the open stroke of the element, the snapshot of the oldest stroke not closed, and the next one (R58) -/
  stroke   : Nat := 0
  snap     : ElemCore := {}
  snapNext : Option ElemCore := none
  /-- tokens recorded from back channels for each snapshot, and the channels still recording (R302) -/
  rec0     : List (Nat × Token) := []
  rec0On   : List Nat := []
  rec1     : List (Nat × Token) := []
  rec1On   : List Nat := []
  utlb     : List TlbEntry := []
  replicate : Bool := false
  exact    : Option (BitVec 8) := none
  /-- the loop it belongs to, and whether it is the header (R163) -/
  loop     : Option (Nat × Bool) := none
  /-- its input channels that come from another member of the loop and are loop channels (R163) -/
  loopIns  : List Nat := []
  deriving DecidableEq, Repr

/-! ### Tiles -/

/-- A cistern ring: descriptor, counters and position word (R110). -/
structure Ring where
  v      : Bool := false
  ssize  : BitVec 3 := 0
  slots  : BitVec 13 := 0
  base   : BitVec 13 := 0
  free   : BitVec 13 := 0
  filled : BitVec 13 := 0
  put    : BitVec 13 := 0
  deriving DecidableEq, Repr

/-- What a stroke snapshot of a tile holds (R58). -/
structure TileCore where
  w     : Vector W32 16 := Vector.replicate 16 0
  q     : BitVec 16 := 0
  rings : Vector Ring 8 := Vector.replicate 8 {}
  aptr  : BitVec 4 := 0
  deriving DecidableEq, Repr

/-- An undo-log entry: the stroke that wrote, where, the old bytes and the log bytes it takes (R180). -/
structure Undo where
  stroke : Nat
  off    : Nat
  old    : List Byte
  size   : Nat
  deriving DecidableEq, Repr

/-- What is left of a tile's round (R44): a rule to fire, with the element whose forwarded tile predicate its
QTEST was tested against (R54), a result to write, and the end. -/
inductive RoundItem where
  | fire (e slot : Nat) (dep : Option Nat) (setsQ : Bool)
  | result (e : Nat)
  | finish
  deriving DecidableEq, Repr

structure Tile where
  core     : TileCore := {}
  snap     : TileCore := {}
  snapNext : Option TileCore := none
  spine    : BitVec 3 := 0
  /-- the rest, in fc, of a spine switch (R370) and the spine it goes to -/
  switching : Option (Nat × BitVec 3) := none
  cistern  : Mem := []
  /-- 8-byte granules of the cistern whose ECC is uncorrectable, until they are written (R384) -/
  badCistern : List Nat := []
  balance  : Nat := 0
  undo     : List Undo := []
  rounds   : Nat := 0
  todo     : List RoundItem := []
  refused  : Bool := false
  /-- doses that arrived while a round was running (R366) -/
  doseDue  : Nat := 0
  echg     : Nat := 0
  elems    : KMap Elem := []
  /-- configuration words whose ECC is uncorrectable (R291) -/
  badEcc   : List Nat := []
  deriving DecidableEq, Repr

/-! ### Regions and kernels -/

/-- Kernel states of KSTAT (R238). -/
inductive KState where
  | loaded | resident | primed | firing | draining | retired | faulted | none
  deriving DecidableEq, Repr

/-- The counts of R32 held outside the block until they commit (R33). -/
structure Counts where
  sat : Nat := 0
  ftz : Nat := 0
  nan : Nat := 0
  ixd : Nat := 0
  deriving DecidableEq, Repr

/-- The power counters of a kernel (R369). -/
structure Power where
  und   : Nat := 0
  dry   : Nat := 0
  hdrop : Nat := 0
  deny  : Nat := 0
  thr   : Nat := 0
  ichg  : Nat := 0
  echg  : Nat := 0
  deriving DecidableEq, Repr

/-- A fabric store in a stroke store buffer (R173): the element, its class, its stroke, the bytes, the buffer
entries it takes, its translation, whether it is an STF, and the stroke of an LDC that took an STF's value, whose
emptying the STF then applies (R175). -/
structure RStore where
  id     : Nat := 0
  tile   : Nat
  elem   : Nat
  cls    : Nat
  stroke : Nat
  va     : Nat
  data   : List Byte
  units  : Nat
  pages  : List Page
  walk   : Bool
  stf    : Bool
  emptiedBy : Option Nat := none
  deriving DecidableEq, Repr

/-- A memory rule's declaration (R85). -/
structure Node where
  tile   : Nat
  elem   : Nat
  plane  : Nat
  slot   : Nat
  base   : Nat
  size   : Nat
  access : Nat
  cls    : Nat
  deriving DecidableEq, Repr

/-- Where an engine or a boundary port delivers into a region (R289, R297): source code and target channel. -/
structure Inbound where
  src  : Nat
  tile : Nat
  elem : Nat
  chan : Nat
  /-- the TURN of its route (R84, R289) -/
  turn : Nat := 0
  deriving DecidableEq, Repr

/-- A request kept by the region controller with its stroke (R59): a plane, or a drain alone. -/
structure PlaneReq where
  stroke : Nat
  plane  : Option (BitVec 2)
  deriving DecidableEq, Repr

/-- A reply owed to a pump core: core, kind, tag, and the number of its request (R233). -/
structure Owed where
  core : Nat
  kind : Nat
  tag  : BitVec 16
  no   : Nat
  deriving DecidableEq, Repr

/-- A region's shadow slot (R247): the image read out and the kernel state it was read out in. -/
structure Shadow where
  image  : List Byte
  kernel : KState
  plane  : BitVec 2 := 0
  /-- the open strokes' buffered stores, and what the elements hold that an image has no word for, by tile and element -/
  stores : List RStore := []
  cores  : KMap (KMap ElemCore) := []
  /-- its ECC is uncorrectable (R384) -/
  bad    : Bool := false
  deriving DecidableEq, Repr

structure Region where
  die    : Nat
  id     : Nat
  col    : Nat
  row    : Nat
  width  : Nat
  height : Nat
  ctx    : Nat
  stage  : BitVec 6 := 0
  group  : Option Nat := none
  kernel : KState := .none
  frozen : Bool := false
  level  : BitVec 2 := 0
  plane  : BitVec 2 := 0
  fcode  : BitVec 8 := 0
  derr   : Bool := false
  /-- a PRIME in progress: plane, the round it is over in; the replies owed -/
  priming : Option (BitVec 2 × Nat) := none
  primeOwed : List Owed := []
  planes : Nat := 1
  strokeLen : Nat := 4096
  imageVa : Nat := 0
  imageHash : List Byte := []
  imageLen : Nat := 0
  /-- the LEVEL and the VERSION of its image's header (R82, R273) -/
  imageLevel : BitVec 2 := 0
  version : Nat := 1
  /-- the number of its present launch (R369) -/
  runId  : Nat := 0
  /-- an island command of it has been outstanding in this charge interval (R369) -/
  worked : Bool := false
  /-- CRC-32C of each tile section by tile, and the region signature (R281, R291) -/
  crcs   : KMap Nat := []
  signature : Nat := 0
  cntVa  : Nat := 0
  parVa  : Nat := 0
  keep   : Bool := false
  /-- the record that launched it: queue and index (R277) -/
  record : Option (Nat × Nat) := none
  /-- the open stroke, whether its ending mark is in flight, requests for a stroke end -/
  stroke : Nat := 0
  strokeMark : Bool := false
  strokeStart : Nat := 0
  strokeReq : Bool := false
  strokeOwed : List Owed := []
  /-- replies owed when the stroke now ending closes -/
  closeOwed : List Owed := []
  planeReqs : List PlaneReq := []
  /-- a DRAIN in flight and the plane it switches to; the plane switch that follows, with the round it is due -/
  drain  : Option (Option (BitVec 2)) := none
  /-- how many of the requests, from the first, the DRAIN in flight serves -/
  drainN : Nat := 0
  switchAt : Option (BitVec 2 × Nat) := none
  freezeReq : Bool := false
  freezeMark : Bool := false
  freezeOwed : List Owed := []
  /-- replies owed when every tile has changed its spine (R255, R370) -/
  spineOwed : List Owed := []
  stores : List RStore := []
  /-- counts of the stroke that is open and of the one after a mark in flight, and the block at stroke start -/
  cnt0   : Counts := {}
  cnt1   : Counts := {}
  cntBase : Counts := {}
  nodes  : List Node := []
  /-- back channels as tile, element, input channel (R302) -/
  back   : List (Nat × Nat × Nat) := []
  /-- multicast targets of an output: tile, element, output; target tile, element, input (R285) -/
  multi  : List ((Nat × Nat × Nat) × (Nat × Nat × Nat)) := []
  inbound : List Inbound := []
  /-- tokens waiting at boundary outputs for the other stage of the group (R297) -/
  boundary : KMap (List Token) := []
  /-- token barriers passed, the strokes in which passes not yet sent as arrivals fell (R303, R306) -/
  passed : Nat := 0
  passedAt : List Nat := []
  /-- closed strokes whose arrival waits until their stores are performed (R322) -/
  arriving : List Nat := []
  /-- words LDC emptied in strokes not closed: stroke, physical address, value (R176) -/
  ldcs   : List (Nat × Nat × W32) := []
  /-- stopped by a fault: the page-fault record waits for PFRES (R315, R316) -/
  stopped : Bool := false
  faultRec : Option (Nat × Nat × Bool) := none
  /-- sources stopped by an engine error or by data poisoning (R188, R318) -/
  ended  : Bool := false
  /-- retirement: the stroke that must close, whether its end was requested (R280) -/
  retire : Option Nat := none
  /-- ns the watchdog has counted (R389) -/
  watch  : Nat := 0
  /-- tiles that wait for a reload of their configuration (R291), and whether the freeze is for that alone -/
  reloads : List Nat := []
  reloadFreeze : Bool := false
  shadow : Option Shadow := none
  /-- for a readout (R247): the tile sections in image order, the ranges, alias, exact and loop tables, the header's
  race flag, and the islands the expanders of its image feed, by edge column -/
  sections : List (Nat × Nat) := []
  tables : List (List Byte) := []
  race   : Bool := false
  streams : List (Nat × Nat) := []
  power  : Power := {}
  deriving DecidableEq, Repr

/-! ### Pump cores -/

/-- A store or other act that a body holds back until commit, in program order (R50, R217, R230).  A store that
spans two pages is two acts and one entry of the rule store buffer: its second is marked `rest`. -/
inductive CommitAct where
  | store (pa : Nat) (data : List Byte) (full : Option Bool) (rest : Bool)
  | fence (scope : Scope)
  | noteSend (target : Nat) (data : W32)
  | noteTake (hw : Bool) (val : W64)
  | timer (periodic : Bool) (interval : Nat) (seen : Nat)
  | tailw (q : Nat) (index : W64)
  | trigBind (k : Nat) (desc : List Byte)
  | trigUnbind (k : Nat)
  | cfgTake
  | request (kind : Nat) (variant : Nat) (tag : BitVec 16) (a b c : W64)
  | verd (a : Fin 64) (ticket verdict : W64)
  | wdraw (rd : Fin 64) (well cls : Nat) (t verdict : W64)
  | wclose (well : Nat)
  | barm (b count : Nat) (scope : Nat) (root : Nat)
  | bara (b : Nat)
  | barmTake (seen : W32)
  | pbudg (ctx die : Nat) (val : W32)
  | phint (die : Nat) (int onset len : Nat)
  | sysw (idx : Nat) (val : W64)
  | fltClear (seen : W64)
  | novfClear (seen : W64)
  deriving DecidableEq, Repr

/-- Where a body lane stands. -/
inductive LaneRun where
  | running | done | aborted
  deriving DecidableEq, Repr

/-- A body lane of a pump round (R50): its rule, the next instruction, and its shadow. -/
structure Lane where
  rule  : Nat
  pc    : Nat := 0
  g     : KMap W64 := []
  p     : KMap Bool := []
  acts  : List CommitAct := []
  run   : LaneRun := .running
  /-- stores before a FENCE.rel of its body have been performed for its commit-point instruction (R218) -/
  released : Bool := false
  deriving DecidableEq, Repr

/-- A committed store that memory has not performed yet (R225), or a release fence it may not pass (R226). -/
inductive QStore where
  | store (pa : Nat) (data : List Byte) (full : Option Bool)
  | fence (domain : Bool)
  deriving DecidableEq, Repr

/-- A memory monitor (R222): the 64-byte block it is armed on, the translation it was armed through, and whether it
has seen something it fires at. -/
structure Monitor where
  block : Nat
  ctx   : Nat
  page  : Page
  hit   : Bool := false
  deriving DecidableEq, Repr

/-- A memory window (R259). -/
structure Window where
  base : W64 := 0
  tgt  : W64 := 0
  ctl  : W64 := 0
  deriving DecidableEq, Repr

/-- A configuration reply: status word and data word (R233). -/
structure CfgReply where
  status : W64
  data   : W64
  deriving DecidableEq, Repr

/-- A Reply request in flight: its place in the order of requests, what it asks, whether its target has still to
take it, and its reply once the target has answered. -/
structure CfgReq where
  no    : Nat
  kind  : Nat
  variant : Nat
  tag   : BitVec 16
  a     : W64
  b     : W64
  c     : W64
  waits : Bool := false
  reply : Option CfgReply := none
  deriving DecidableEq, Repr

structure Core where
  g       : Vector W64 64 := Vector.replicate 64 0
  p       : BitVec 32 := 0
  rules   : Vector (W64 × W64) 64 := Vector.replicate 64 (0, 0)
  matrix  : Vector W64 64 := Vector.replicate 64 0
  body    : KMap W64 := []
  bodyLen : Nat := 0
  cptr    : Vector (BitVec 6) 4 := Vector.replicate 4 0
  /-- the latched events 3 to 5 and 7 to 15; events 0, 1, 2 and 6 follow their conditions (R49) -/
  events  : BitVec 16 := 0
  mons    : Vector (Option Monitor) 8 := Vector.replicate 8 none
  lanes   : List Lane := []
  storeQ  : List QStore := []
  dcache  : KMap (List Byte) := []
  tlb     : List TlbEntry := []
  notes   : List W64 := []
  hw      : BitVec 5 := 0
  novf    : Nat := 0
  tint    : Nat := 0
  tper    : Bool := false
  tdue    : Option Nat := none
  tcount  : W32 := 0
  replies : List CfgReply := []
  cfgOut  : List CfgReq := []
  fltrec  : W64 := 0
  fltva   : W64 := 0
  bqueue  : W64 := 0
  rndcnt  : W64 := 0
  wins    : Vector Window 4 := Vector.replicate 4 {}
  ctx     : Option (Fin 64) := none
  stopped : Bool := false
  /-- the rule set loaded for the next round (R248) -/
  newRules : Option (List W64) := none
  /-- barrier completions latched for this core (R254) -/
  barDone : W32 := 0
  deriving DecidableEq, Repr

/-! ### Engines (10_engines.md) -/

/-- A command at an engine: its token and the region that issued it (R186, R187). -/
structure Cmd where
  tok    : Token
  region : Nat
  /-- its position among the commands the engine has taken (R199) -/
  serial : Nat := 0
  deriving DecidableEq, Repr

/-- States of a B buffer (R189). -/
inductive BState where
  | empty | loading | ready | faulted
  deriving DecidableEq, Repr

/-- A B buffer (R193): its state, the rows taken in stored order, and the scales by K block and column. -/
structure BBuf where
  st     : BState := .empty
  rows   : List (BitVec 4096) := []
  transp : Bool := false
  scales : List Byte := []
  deriving DecidableEq, Repr

/-- A C row: 256 FP32 lanes and its pending-NaN bit (R35). -/
structure CRow where
  lanes : BitVec 8192 := 0
  pn    : Bool := false
  deriving DecidableEq, Repr

/-- The load sequencer at work (R193): buffer, descriptor address, descriptor once read, rows in. -/
structure LoadSeq where
  buf    : Nat
  descVa : Nat
  desc   : Option (List Byte) := none
  /-- a read stopped by a fault that waits for service (R198) -/
  stopped : Bool := false
  region : Nat
  stroke : Nat
  /-- the position of its command among the region's commands, for the replay of a stream load (R199) -/
  serial : Nat := 0
  /-- which load of a grouped product it is, from 1; 0 for an MXLDB -/
  sub    : Nat := 0
  /-- bytes of the current B row taken from the stream port -/
  part   : List Byte := []
  deriving DecidableEq, Repr

/-- A run (R194). -/
structure RunSeq where
  acc    : Bool
  base   : Nat
  count  : Nat
  ax     : Nat
  buf    : Nat
  arow   : Nat := 0
  region : Nat
  deriving DecidableEq, Repr

/-- A drain (R195): `part` counts the tokens of the row already sent. -/
structure DrainSeq where
  base   : Nat
  count  : Nat
  drow   : Nat := 0
  part   : Nat := 0
  region : Nat
  deriving DecidableEq, Repr

/-- An entry of a group still to load or to run (R196). -/
structure GroupEntry where
  rows  : Nat
  cbase : Nat
  bdva  : Nat
  deriving DecidableEq, Repr

/-- A grouped product at work (R196). -/
structure GroupSeq where
  va     : Nat
  read   : Bool := false
  acc    : Bool := false
  ax     : Nat := 0
  toLoad : List GroupEntry := []
  toRun  : List GroupEntry := []
  loadNo : Nat := 0
  runNo  : Nat := 0
  /-- its table read stopped by a fault that waits for service (R198) -/
  stopped : Bool := false
  region : Nat
  stroke : Nat
  /-- the position of its command (R199) -/
  serial : Nat := 0
  deriving DecidableEq, Repr

/-- What an island's row-progress register records (R199). -/
structure IslandCore where
  queue  : List Cmd := []
  load   : Option LoadSeq := none
  run    : Option RunSeq := none
  drain  : Option DrainSeq := none
  group  : Option GroupSeq := none
  cfg    : Option (Fmt × Fmt × Fmt) := none
  b0     : BBuf := {}
  b1     : BBuf := {}
  iconv  : BitVec 4 := 0
  fcode  : BitVec 8 := 0
  err    : Bool := false
  fva    : W64 := 0
  arow   : Nat := 0
  brow   : Nat := 0
  drow   : Nat := 0
  serial : Nat := 0
  /-- the rows of C the open strokes wrote (R199) -/
  work   : KMap CRow := []
  /-- lanes whose sums saturated, and lanes whose sums flushed to zero, in a row not drained yet (R194) -/
  sats   : KMap Nat := []
  ftzs   : KMap Nat := []
  /-- BARRIER marks taken at each port, 8 for the command port, and forwarded (R397) -/
  barIn  : KMap Nat := []
  barOut : Nat := 0
  /-- the position of a stream load that a rewind kept: the replay's copy is dropped (R199) -/
  skip   : Option Nat := none
  /-- a stream load kept by a rewind until its command is reached again: it, its buffer and BROW (R199) -/
  kept   : Option (LoadSeq × BBuf × Nat) := none
  /-- A tokens taken from the row ports that no run has used yet: the island's own queue behind the FIFOs (R43) -/
  stage  : KMap (List Token) := []
  deriving DecidableEq, Repr

structure Island where
  core     : IslandCore := {}
  snap     : IslandCore := {}
  snapNext : Option IslandCore := none
  /-- C as committed (R199) -/
  com      : KMap CRow := []
  fifo     : List Cmd := []
  rows     : KMap (List Token) := []
  bport    : List Token := []
  /-- marks the region controller injected at an island that aligns over no port (R56, R302) -/
  inject   : List Token := []
  replies  : List Cmd := []
  /-- the open stroke -/
  stroke   : Nat := 0
  frozen   : Bool := false
  thr      : Bool := false
  balance  : Nat := 0
  /-- row work of the last 16 fc: when each row started, in fc of S0, and its fc (R213) -/
  recent   : List (Nat × Nat) := []
  /-- charges spent in this interval (ICHG, R369) -/
  ichg     : Nat := 0
  /-- a row started in this interval, or was held back (R214) -/
  started  : Bool := false
  heldBack : Bool := false
  tlb      : List TlbEntry := []
  deriving DecidableEq, Repr

/-- A streamer's command at work (R200 to R203): the descriptor, empty until it is read, and how far it has come:
bytes for a copy, elements for a gather or scatter. -/
structure StreamJob where
  op      : Nat
  descVa  : Nat
  desc    : List Byte := []
  pos     : Nat := 0
  stopped : Bool := false
  region  : Nat
  /-- it ended by an error: the code its completion word still has to receive, and its context (R203) -/
  ending  : Option (Nat × Nat) := none
  deriving DecidableEq, Repr

structure Streamer where
  /-- a FREEZE has reached it (R246) -/
  frozen  : Bool := false
  fifo    : List Cmd := []
  queue   : List Cmd := []
  job     : Option StreamJob := none
  replies : List Cmd := []
  tlb     : List TlbEntry := []
  deriving DecidableEq, Repr

/-- An expansion job at work (R204 to R207): descriptor, block number, where its header is, and the decoded
bytes of the block still to go out with the position of the next. -/
structure XpJob where
  descVa  : Nat
  desc    : List Byte := []
  block   : Nat := 0
  header  : Nat := 0
  /-- where the next block's header is, and how many bytes the open block decoded to -/
  next    : Nat := 0
  size    : Nat := 0
  out     : List Byte := []
  opened  : Bool := false
  outPos  : Nat := 0
  good    : Bool := true
  stopped : Bool := false
  region  : Nat
  deriving DecidableEq, Repr

structure Expander where
  frozen  : Bool := false
  fifo    : List Cmd := []
  queue   : List Cmd := []
  job     : Option XpJob := none
  /-- bytes that fill only part of a stream token (R207), and the POISON mark waiting at the port (R331) -/
  part    : List Byte := []
  poison  : Option Token := none
  /-- the region of its latest job, whose bytes those are -/
  owner   : Option Nat := none
  /-- the island its stream port feeds (R289) -/
  island  : Option Nat := none
  replies : List Cmd := []
  tlb     : List TlbEntry := []
  deriving DecidableEq, Repr

/-- A sort at work (R208): its descriptor, the words it writes once all keys have been read, and how many of them
it has written. -/
structure WeirJob where
  descVa  : Nat
  desc    : List Byte := []
  outs    : Option (List (Nat × Nat)) := none
  stopped : Bool := false
  region  : Nat
  deriving DecidableEq, Repr

structure Weir where
  frozen  : Bool := false
  fifo    : List Cmd := []
  queue   : List Cmd := []
  job     : Option WeirJob := none
  replies : List Cmd := []
  tlb     : List TlbEntry := []
  deriving DecidableEq, Repr

/-- Modes of a range pool (R209). -/
inductive PoolMode where
  | fixed | guided | table
  deriving DecidableEq, Repr

/-- A chunk of a range pool: START, COUNT, GROUP. -/
structure Chunk where
  start : W64
  count : W32
  group : BitVec 16 := 0
  deriving DecidableEq, Repr

/-- A chunk handed out and the stroke that took it, so that a void returns it (R171). -/
structure Taken where
  region : Nat
  stroke : Nat
  chunk  : Chunk
  deriving DecidableEq, Repr

structure Pool where
  next    : W64 := 0
  left    : Nat := 0
  chunk   : W32 := 1
  mode    : PoolMode := .fixed
  takers  : BitVec 8 := 1
  /-- chunks of a group table, and chunks returned by a void, in serving order -/
  chunks  : List Chunk := []
  taken   : List Taken := []
  failed  : Option (BitVec 8) := none
  /-- a group-table read in progress: GTVA, START and the context it reads in -/
  reading : Option (Nat × W64 × Nat) := none
  deriving DecidableEq, Repr

/-- An RTAKE waiting at the range server: tile, element, request. -/
structure TakeReq where
  tile : Nat
  elem : Nat
  req  : Nat
  pool : Nat
  deriving DecidableEq, Repr

structure RangeServer where
  pools : KMap Pool := []
  queue : List TakeReq := []
  tlb   : List TlbEntry := []
  deriving DecidableEq, Repr

/-! ### Contexts, barriers, triggers (14, 15, 19) -/

/-- CTXSTAT.STATE (R267). -/
inductive CtxState where
  | free | ready | running | frozen | swapped | faulted | dead
  deriving DecidableEq, Repr

/-- Context commands (R267). -/
inductive CtxCmd where
  | create | bind | freeze | thaw | swapout | swapin | clear | kill | reserved
  deriving DecidableEq, Repr

/-- What waits for the context unit (R265): the command in `Ctx.cmd`, the fault in `Ctx.heldFault`, the T3 trip. -/
inductive CtxJob where
  | cmd | fault | trip
  deriving DecidableEq, Repr

/-- The budgets and the sites granted to a context on one die (R267). -/
structure DieGrant where
  sites  : BitVec 384 := 0
  cores  : BitVec 16 := 0
  budget : W32 := 0
  deriving DecidableEq, Repr

/-- A context's register block and what CREATE and BIND took from it (R262 to R268). -/
structure Ctx where
  state   : CtxState := .free
  res     : BitVec 8 := 0
  rej     : Bool := false
  fcode   : BitVec 8 := 0
  /-- the command in progress: BUSY is set while there is one -/
  cmd     : Option CtxCmd := none
  /-- a fault that arrived while a freeze is in progress (R265) -/
  heldFault : Option (BitVec 8) := none
  rootReg : W64 := 0
  mode    : BitVec 6 := 0
  levelReg : BitVec 2 := 0
  desc    : W64 := 0
  root    : W64 := 0
  level   : BitVec 2 := 0
  grants  : Vector DieGrant 4 := Vector.replicate 4 {}
  /-- cores saved by SWAPOUT (R266) -/
  saved   : KMap Core := []
  /-- the write sequence at its last PGHASH (R380) -/
  hashSeq : Nat := 0
  deriving DecidableEq, Repr

/-- A tree barrier (R304).  It is COMPLETE only within the step of the last arrival. -/
structure Barrier where
  count  : Nat := 0
  arr    : Nat := 0
  scope  : Nat := 3
  root   : Nat := 0
  /-- this module's arrivals that have not been told of a completion, oldest first: the core, none for a region -/
  cores  : List (Option Nat) := []
  /-- the module of every arrival counted in this episode, at the root (R304) -/
  mods   : List Nat := []
  /-- this module's last arrival and the last completion, for slack control (R374) -/
  lastArr  : Nat := 0
  lastDone : Option Nat := none
  /-- arrivals on their way or held: the core, none for a region or another module, and the module -/
  inbox  : List (Option Nat × Nat) := []
  deriving DecidableEq, Repr

/-- A trigger binding (R240, R278). -/
structure Trigger where
  kind    : BitVec 2 := 0
  well    : BitVec 6 := 0
  wva     : W64 := 0
  val     : W64 := 0
  recva   : W64 := 0
  queue   : BitVec 10 := 0
  bound   : Bool := false
  handler : Bool := false
  spent   : Bool := false
  pending : Nat := 0
  overflow : Bool := false
  /-- firings whose condition has occurred and that have not been served -/
  fired   : Nat := 0
  /-- the physical address watched for KIND 0 and 2 -/
  wpa     : Nat := 0
  deriving DecidableEq, Repr

/-! ### Queues (15) -/

inductive QState where
  | off | active | bound | halted
  deriving DecidableEq, Repr

/-- What an error record says of a failure beside its class (R391): code, source kind, die, source id, detail. -/
structure ErrInfo where
  code   : Nat
  src    : Nat := 0
  die    : Nat := 0
  srcid  : Nat := 0
  detail : Nat := 0
  deriving DecidableEq, Repr

/-- A record that has started and not completed (R275). -/
structure Started where
  index  : Nat
  record : List Byte
  level  : BitVec 2
  /-- done and waiting for its turn to complete; the digest and DERR of a level-2 kernel -/
  done   : Bool := false
  digest : List Byte := []
  derr   : Bool := false
  /-- the SHA-512 of the image it ran (R378) -/
  image  : List Byte := []
  failed : Option (BitVec 8) := none
  attempt : Nat := 1
  /-- the region it launched, and the step of R277 it stands at -/
  region : Option Nat := none
  step   : Nat := 0
  /-- its first failure, for the error record (R388) -/
  err    : Option ErrInfo := none
  /-- bytes a COPY has moved; the other records of the group that a head formed (R295) -/
  pos    : Nat := 0
  group  : List (List Byte) := []
  /-- it halted the queue as its head, before it started: it still stands in the ring (R270, R273) -/
  unstarted : Bool := false
  deriving DecidableEq, Repr

structure Queue where
  qbase  : W64 := 0
  log2n  : BitVec 5 := 0
  ctx    : BitVec 6 := 0
  hdie   : BitVec 2 := 0
  psrc   : BitVec 2 := 0
  pmod   : BitVec 6 := 0
  pbase  : W64 := 0
  head   : W64 := 0
  tail   : W64 := 0
  state  : QState := .off
  resuse : BitVec 8 := 0
  errcnt : BitVec 16 := 0
  ecode  : BitVec 8 := 0
  lasterr : W64 := 0
  level  : BitVec 2 := 0
  /-- the kind of slot each record in the ring took: none shared, or the depth reserved (R271) -/
  kinds  : List (Option (BitVec 3)) := []
  started : List Started := []
  /-- the failed records that RETRY starts again (R270, R388) -/
  retry  : List Started := []
  /-- the record that halted the queue -/
  failedRec : Option Started := none
  /-- records still to be copied after a tail write (R399) -/
  pulling : Nat := 0
  disabling : Bool := false
  chainN : Nat := 0
  chain  : List Byte := List.replicate 32 0
  /-- the index of a record that was refused a placement, and the die whose next REGION.free it waits for (R277) -/
  refused : Option (Nat × Nat) := none
  /-- records of the ring that SKIP has completed before they came to the head (R270, R399) -/
  skips   : List Nat := []
  deriving DecidableEq, Repr

/-- A group of kernels (R294 to R298). -/
inductive GState where
  | forming | running | stepping | draining | done
  deriving DecidableEq, Repr

structure Group where
  queue   : Nat
  head    : Nat
  state   : GState := .forming
  members : List Nat := []
  step    : Option Nat := none
  deriving DecidableEq, Repr

/-! ### Wells (24, 25) -/

inductive WState where
  | closed | armed | closing
  deriving DecidableEq, Repr

/-- A candidate in the ring (R349). -/
structure Candidate where
  slot  : Nat
  seq   : BitVec 24
  t     : W64
  score : W32
  pre   : BitVec 16
  cls   : BitVec 3
  deriving DecidableEq, Repr

/-- A claim word kept by the well (R252, R353): id, state code, LOSTN, and its window and extent. -/
structure Claim where
  id    : BitVec 16
  state : BitVec 3
  lostn : Nat := 0
  lo    : Int
  hi    : Int
  ext   : Nat
  deriving DecidableEq, Repr

/-- An open extent (R355): its bounds, the next index to copy upward, indices still to copy below, and losses. -/
structure Extent where
  no     : Nat
  cls    : BitVec 3
  a      : Int
  b      : Int
  /-- spans of indices still to be copied, first to last -/
  todo   : List (Int × Int) := []
  lost   : Nat := 0
  claims : Nat := 0
  held   : Bool := false
  deriving DecidableEq, Repr

structure Well where
  state  : WState := .closed
  ctx    : Nat := 0
  /-- the ring: its virtual address and its pages, translated once by WARM (R344) -/
  ringVa : Nat := 0
  ringPages : List Page := []
  log2n  : Nat := 4
  sbytes : Nat := 2
  maxext : Nat := 1
  merge  : BitVec 8 := 0
  ingp   : BitVec 16 := 0
  rate   : Nat := 0
  /-- physical addresses of the port block and of the draw output header; the draw output area (R356) -/
  port   : Nat := 0
  draw   : Nat := 0
  drawVa : Nat := 0
  drawPages : List Page := []
  dlen   : Nat := 128
  lcore  : Nat := 0
  head   : Nat := 0
  gapn   : Nat := 0
  gaps   : Nat := 0
  stalen : Nat := 0
  lostc  : Nat := 0
  lostt  : W64 := 0
  dead   : Nat := 0
  causeR : Bool := false
  causeE : Bool := false
  cands  : List Candidate := []
  nextSeq : BitVec 24 := 0
  exts   : List Extent := []
  nextExt : Nat := 1
  claims : List Claim := []
  nextId : Nat := 1
  wrpos  : Nat := 0
  rdpos  : Nat := 0
  /-- CLAIM and CLOSE records that wait for room, oldest first -/
  recs   : List (List Byte) := []
  /-- stores to PUBW, candidates written to CAND and writes of RDPOS that the well has not served yet -/
  pubs   : List W32 := []
  candIn : List (List Byte) := []
  rdIn   : List W64 := []
  deriving DecidableEq, Repr

/-! ### Power, links, errors (23, 27, 30) -/

/-- An entry of a hint table (R212), times in ns: START, END, INT, issue, and whether its regulators were told. -/
structure Hint where
  start  : Nat
  stop   : Nat
  int    : Nat
  issue  : Nat
  cur    : Nat := 0
  steps  : Nat := 0
  told   : Bool := false
  region : Option Nat := none
  /-- the launch of that region it counts for -/
  run    : Nat := 0
  deriving DecidableEq, Repr

/-- A hint waiting for the start of the next interval (R211). -/
structure HintReq where
  ctx    : Nat
  die    : Nat
  int    : Nat
  onset  : Nat
  len    : Nat
  region : Option Nat := none
  run    : Nat := 0
  deriving DecidableEq, Repr

/-- A clock spine (R16, R371): MHz it was set to and runs at, and the request being served. -/
structure Spine where
  set    : Nat := 1200
  run    : Nat := 1200
  /-- when it took its last step, in ns -/
  stepAt : Nat := 0
  owed   : Option Owed := none
  deriving DecidableEq, Repr

inductive LinkState where
  | down | training | up | degraded | failed
  deriving DecidableEq, Repr

/-- A link (R333 to R335). -/
structure Link where
  state  : LinkState := .down
  en     : Bool := false
  peer   : BitVec 6 := 0
  lanes  : Nat := 0
  retry  : Nat := 0
  drop   : Nat := 0
  /-- flits sent and not acknowledged, oldest first (R334) -/
  held   : List Flit := []
  deriving DecidableEq, Repr

/-- An MSI-X vector (R337): address, data, masked, pending. -/
structure Vector_ where
  addr    : W64 := 0
  data    : W32 := 0
  masked  : Bool := true
  pending : Bool := false
  deriving DecidableEq, Repr

/-- A page-fault record that waits for room, or its source that waits for PFRES (R316). -/
structure FaultRec where
  kind : Nat
  src  : Nat
  ctx  : Nat
  va   : Nat
  wr   : Bool
  code : Nat
  deriving DecidableEq, Repr

/-- The page-fault ring of a die (R316). -/
structure FaultRing where
  base  : W64 := 0
  tail  : W32 := 0
  head  : W32 := 0
  /-- records that wait for room, oldest first -/
  wait  : List FaultRec := []
  /-- sources stopped: kind and source word -/
  stopped : List (Nat × Nat) := []
  deriving DecidableEq, Repr

/-- A page moved or removed by MIGR, TLBI or poisoning: what the shoot-down waits for (R307, R314).  A migration
keeps its leaf's address, the size of the page as log2, the frame it was in, and where it goes. -/
inductive ShootKind where
  | tlbi
  | poison
  | into
  | move (leafPa log2 old frame : Nat)
  | out (leafPa log2 old deep : Nat)
  deriving DecidableEq, Repr

/-- What a shoot-down removes: everything, a context, or one page of it. -/
inductive Scope_ where
  | all
  | ctx (c : Nat)
  | page (c va : Nat)
  deriving DecidableEq, Repr

structure Shoot where
  id    : Nat
  kind  : ShootKind
  what  : Scope_
  owed  : Option Owed := none
  /-- cores that still have to reach the end of their round, stores of closed strokes that still have to drain -/
  cores : List Nat := []
  stores : List Nat := []
  /-- by core, how many of its committed stores, from the first, were translated before it acknowledged -/
  queued : KMap Nat := []
  /-- the acknowledgements are in (R314) -/
  acked : Bool := false
  deriving DecidableEq, Repr

/-- A migration into memory (MIGR.in): the leaf, the deep address, the frame (R256). -/
structure MigrIn where
  id    : Nat
  leafPa : Nat
  log2  : Nat
  deep  : Nat
  frame : Nat
  owed  : Option Owed := none
  deriving DecidableEq, Repr

/-- The error log (R390). -/
structure ErrLog where
  base : W64 := 0
  tail : W32 := 0
  head : W32 := 0
  corr : W32 := 0
  drop : W32 := 0
  wdt  : W32 := 1000000
  deriving DecidableEq, Repr

/-- BOOTSTAT (R394). -/
structure BootStat where
  code  : BitVec 8 := 0
  ready : Bool := false
  step  : BitVec 4 := 1
  deriving DecidableEq, Repr

/-- What the module sends out: SPDM answers, messages to the host, completions of host reads (R336 to R338,
R395). -/
inductive Sent where
  | spdm (code : Nat) (data : List Byte)
  | msix (v : Nat) (addr : W64) (data : W32)
  | read (data : List Byte)
  | unsupported
  deriving DecidableEq, Repr

/-- A request to another module that has not been answered: who waits (R220, R334). -/
structure Remote where
  id     : Nat
  dst    : Nat
  waiter : Nat
  pa     : Nat
  len    : Nat
  answer : Option (List Byte × Nat) := none
  deriving DecidableEq, Repr

/-! ### The module -/

/-- Whose instruction is being executed: an element's slot, or a lane of a pump core. -/
structure Actor where
  tile  : Nat := 0
  elem  : Nat := 0
  plane : Nat := 0
  slot  : Nat := 0
  core  : Nat := 0
  lane  : Nat := 0
  deriving DecidableEq, Repr

structure State where
  /-- module time in ns (R257), and 64ths of a dose interval are counted by `doses` -/
  nstime   : Nat
  /-- the MODEL's own: the counter every free value is drawn from (log entry 10) -/
  free     : Nat
  /-- the MODEL's own: which agents act next (log entry 4) -/
  agenda   : List Work
  /-- the MODEL's own: who executes (log entry 4) -/
  actor    : Actor
  powerOff : Bool
  bootstat : BootStat
  fused    : Vector (BitVec 384) 4
  keys     : KMap (Nat × Nat)
  meas     : KMap (List Byte)
  /-- how far the SPDM negotiation has come, and its messages so far (R395; log entry 16) -/
  spdm     : Nat
  spdmLog  : List Byte
  tiles    : KMap Tile
  gens     : KMap (BitVec 16)
  regions  : KMap Region
  groups   : KMap Group
  cores    : KMap Core
  islands  : KMap Island
  streamers : KMap Streamer
  expanders : KMap Expander
  weirs    : KMap Weir
  servers  : KMap RangeServer
  ctxs     : KMap Ctx
  /-- the commands and hardware events that wait for the context unit, oldest first: the context, the event, and
  whether it is being served (R265) -/
  ctxq     : List (Nat × CtxJob × Bool)
  barriers : KMap Barrier
  triggers : KMap Trigger
  queues   : KMap Queue
  /-- the rotating pointer of each queue engine (R274) -/
  qptr     : KMap Nat
  wells    : KMap Well
  /-- near and far tier by local physical address; presence bits of FE words, by word address; deep tier; host -/
  mem      : Mem
  full     : List Nat
  deep     : Mem
  host     : Mem
  /-- when each 64 KiB frame was last written, in write sequence numbers (R312) -/
  writeSeq : Nat
  dirty    : KMap Nat
  ltlb     : KMap (List TlbEntry)
  /-- the small TLB of each die's queue engine (R313) -/
  qtlb     : KMap (List TlbEntry)
  /-- walks that will end with 0x06, by context and 64 KiB page: an entry they read is uncorrectable (R385) -/
  badWalks : List (Nat × Nat)
  epochs   : KMap (BitVec 8)
  shoots   : List Shoot
  migrs    : List MigrIn
  rings    : KMap FaultRing
  spines   : KMap Spine
  /-- S0 cycles of each die, and the fraction of one in thousandths (MHz ns) -/
  s0fc     : KMap Nat
  s0frac   : KMap Nat
  hints    : KMap (List Hint)
  hintReqs : List HintReq
  interval : Nat
  doses    : Nat
  islDose  : KMap Nat
  tileDose : KMap Nat
  /-- undeclared bursts and throttle notices given in this interval, by context and die (R213) -/
  undecl   : List Nat
  /-- the contexts denied in this interval on a die, whose notice is still to come (R368) -/
  denied   : List (Nat × Nat)
  /-- pump-form hints dropped in this interval, by context and die (R369) -/
  hdrops   : KMap Nat
  /-- T1, T2 and T3 by die, 4 for H -/
  t1       : BitVec 5
  t2       : BitVec 5
  t3       : BitVec 5
  slackK   : Nat
  slackAt  : Option Nat
  links    : KMap Link
  routes   : Vector (BitVec 4) 64
  msix     : KMap Vector_
  sent     : List Sent
  remotes  : List Remote
  errlog   : ErrLog
  nextId   : Nat
  deriving DecidableEq, Repr

/-! ### How a step can stop -/

/-- Faults of the whole machine.  Every fault the spec gives an element, a core, an engine, a queue or a context is
a next state; this one is not of that kind. -/
inductive Fault where
  /-- Raised by `step` once T4 has removed module power (R372): nothing runs until a power cycle.  Safe. -/
  | powerOff
  deriving DecidableEq, Repr

/-- Refusals. -/
inductive Refusal where
  /-- Raised by `exec` for an instruction that has no meaning yet, by its mnemonic.  Safe. -/
  | notModelled (mnemonic : String)
  deriving DecidableEq, Repr

/-- The machine right after reset.  What runs first is the boot of R393 (log entry 6). -/
def State.reset : State where
  nstime := 0
  free := 0
  agenda := [.boot]
  actor := {}
  powerOff := false
  bootstat := {}
  fused := Vector.replicate 4 0
  keys := []
  meas := []
  spdm := 0
  spdmLog := []
  tiles := []
  gens := []
  regions := []
  groups := []
  cores := []
  islands := []
  streamers := []
  expanders := []
  weirs := []
  servers := []
  ctxs := []
  ctxq := []
  barriers := []
  triggers := []
  queues := []
  qptr := []
  wells := []
  mem := []
  full := []
  deep := []
  host := []
  writeSeq := 0
  dirty := []
  ltlb := []
  qtlb := []
  badWalks := []
  epochs := []
  shoots := []
  migrs := []
  rings := []
  spines := []
  s0fc := []
  s0frac := []
  hints := []
  hintReqs := []
  interval := 0
  doses := 0
  islDose := []
  tileDose := []
  undecl := []
  denied := []
  hdrops := []
  t1 := 0
  t2 := 0
  t3 := 0
  slackK := 0
  slackAt := none
  links := []
  routes := Vector.replicate 64 0
  msix := []
  sent := []
  remotes := []
  errlog := {}
  nextId := 1

end Sys2Proof.Machine
end

