-- ==== Sys2Proof/Machine/Ops.lean ====
section
/-! DEFINITION. The named operations over the state that everything else is written with: maps by number, memory
and its presence bits, tiles, elements, cores, translation (20_page.md), the effects of a write that lands in
memory, and what an abort leaves behind (R54, R55). -/

namespace Sys2Proof.Machine

/-! ### Maps by number -/

def kfind {α : Type} : KMap α → Nat → Option α
  | [], _ => none
  | (j, a) :: m, k => if k = j then some a else if k < j then none else kfind m k

def kget {α : Type} (m : KMap α) (k : Nat) (d : α) : α := (kfind m k).getD d

def kput {α : Type} : KMap α → Nat → α → KMap α
  | [], k, a => [(k, a)]
  | (j, b) :: m, k, a =>
    if k < j then (k, a) :: (j, b) :: m else if k = j then (k, a) :: m else (j, b) :: kput m k a

def kdel {α : Type} (m : KMap α) (k : Nat) : KMap α := m.filter fun e => e.1 != k

/-- The value at a key changed, where the key is listed. -/
def kmod {α : Type} (m : KMap α) (k : Nat) (f : α → α) : KMap α :=
  m.map fun e => if e.1 = k then (e.1, f e.2) else e

/-! ### Memory -/

/-- What an unlisted byte reads as (log entry 2). -/
def Mem.unlisted : Byte := 0

def Mem.read : Mem → Nat → Byte
  | [], _ => Mem.unlisted
  | (b, v) :: m, a => if a = b then v else if a < b then Mem.unlisted else Mem.read m a

/-- One entry put in front of a rest, left out where it equals what an unlisted byte reads as. -/
def Mem.cons (a : Nat) (v : Byte) (m : Mem) : Mem := if v = Mem.unlisted then m else (a, v) :: m

def Mem.write : Mem → Nat → Byte → Mem
  | [], a, v => Mem.cons a v []
  | (b, w) :: m, a, v =>
    if a < b then Mem.cons a v ((b, w) :: m) else if a = b then Mem.cons a v m else (b, w) :: Mem.write m a v

/-- The canonical form from a lower bound on: addresses rising, no entry that equals the unlisted value. -/
def Mem.wfFrom : Nat → Mem → Bool
  | _, [] => true
  | lo, (a, v) :: m => decide (lo ≤ a) && decide (v ≠ Mem.unlisted) && Mem.wfFrom (a + 1) m

/-- The canonical form of a memory. -/
def Mem.wf (m : Mem) : Bool := Mem.wfFrom 0 m

def Mem.reads (m : Mem) (a : Nat) : Nat → List Byte
  | 0 => []
  | n + 1 => m.read a :: Mem.reads m (a + 1) n

def Mem.writes (m : Mem) (a : Nat) : List Byte → Mem
  | [] => m
  | b :: bs => Mem.writes (m.write a b) (a + 1) bs

/-- A little-endian number of bytes (R20). -/
def natOf (bs : List Byte) : Nat := wordOfBytes bs

def byteList (n v : Nat) : List Byte := bytesOf n v

/-- A field of n bytes at an offset of a structure in memory. -/
def field (bs : List Byte) (off n : Nat) : Nat := natOf ((bs.drop off).take n)

/-- A bit field of a number. -/
def bits (x lo n : Nat) : Nat := x / 2 ^ lo % 2 ^ n

/-- The presence bits: sorted word addresses of full words (R312). -/
def fullAt (l : List Nat) (a : Nat) : Bool := l.contains a

def fullSet : List Nat → Nat → List Nat
  | [], a => [a]
  | b :: l, a => if a < b then a :: b :: l else if a = b then b :: l else b :: fullSet l a

def fullClear (l : List Nat) (a : Nat) : List Nat := l.filter (· != a)

/-! ### The parts of the module -/

/-- The key of a tile site (R9). -/
def siteKey (die col row : Nat) : Nat := die * 384 + row * 24 + col
def dieOf (t : Nat) : Nat := t / 384
def siteOf (t : Nat) : Nat := t % 384
def colOf (t : Nat) : Nat := t % 384 % 24
def rowOf (t : Nat) : Nat := t % 384 / 24

/-- Whether a site is present (R17). -/
def present (s : State) (t : Nat) : Bool :=
  decide (t < 1536) && (s.fused.toList.getD (dieOf t) 0).getLsbD (siteOf t)

/-- The edge tiles of an island: W island k at column 0, rows 2k and 2k + 1; E island k at column 23 (R8). -/
def islandTiles (die n : Nat) : List Nat :=
  if n < 8 then [siteKey die 0 (2 * n), siteKey die 0 (2 * n + 1)]
  else [siteKey die 23 (2 * (n - 8)), siteKey die 23 (2 * (n - 8) + 1)]

/-- Whether an engine of a die is usable (R8, R18). -/
def engineUsable (s : State) (die n : Nat) : Bool :=
  if n < 16 then (islandTiles die n).all (present s)
  else if n < 24 then (List.range 3).any fun i => present s (siteKey die (3 * (n - 16) + i) 0)
  else decide (n < 50)

def State.tile (s : State) (t : Nat) : Tile := kget s.tiles t {}
def State.setTile (s : State) (t : Nat) (x : Tile) : State := { s with tiles := kput s.tiles t x }
def Tile.elem (x : Tile) (e : Nat) : Elem := kget x.elems e {}
def Tile.setElem (x : Tile) (e : Nat) (y : Elem) : Tile := { x with elems := kput x.elems e y }
def State.elem (s : State) (t e : Nat) : Elem := (s.tile t).elem e
def State.setElem (s : State) (t e : Nat) (y : Elem) : State := s.setTile t ((s.tile t).setElem e y)
def State.modElem (s : State) (t e : Nat) (f : Elem → Elem) : State := s.setElem t e (f (s.elem t e))
def State.modTile (s : State) (t : Nat) (f : Tile → Tile) : State := s.setTile t (f (s.tile t))

def State.core (s : State) (c : Nat) : Core := kget s.cores c {}
def State.setCore (s : State) (c : Nat) (x : Core) : State := { s with cores := kput s.cores c x }
def State.modCore (s : State) (c : Nat) (f : Core → Core) : State := s.setCore c (f (s.core c))

def State.region (s : State) (r : Nat) : Option Region := kfind s.regions r
def State.setRegion (s : State) (r : Nat) (x : Region) : State := { s with regions := kput s.regions r x }
def State.modRegion (s : State) (r : Nat) (f : Region → Region) : State :=
  { s with regions := kmod s.regions r f }

def State.ctx (s : State) (c : Nat) : Ctx := kget s.ctxs c {}
def State.setCtx (s : State) (c : Nat) (x : Ctx) : State := { s with ctxs := kput s.ctxs c x }
def State.modCtx (s : State) (c : Nat) (f : Ctx → Ctx) : State := s.setCtx c (f (s.ctx c))

def State.island (s : State) (k : Nat) : Island := kget s.islands k {}
def State.setIsland (s : State) (k : Nat) (x : Island) : State := { s with islands := kput s.islands k x }
def State.modIsland (s : State) (k : Nat) (f : Island → Island) : State := s.setIsland k (f (s.island k))

def State.queue (s : State) (q : Nat) : Queue := kget s.queues q {}
def State.setQueue (s : State) (q : Nat) (x : Queue) : State := { s with queues := kput s.queues q x }
def State.modQueue (s : State) (q : Nat) (f : Queue → Queue) : State := s.setQueue q (f (s.queue q))

def State.well (s : State) (w : Nat) : Well := kget s.wells w {}
def State.setWell (s : State) (w : Nat) (x : Well) : State := { s with wells := kput s.wells w x }
def State.modWell (s : State) (w : Nat) (f : Well → Well) : State := s.setWell w (f (s.well w))

/-- The tile sites of a region, absent ones included, row by row (R11). -/
def Region.sites (r : Region) : List Nat :=
  (List.range r.height).flatMap fun j => (List.range r.width).map fun i => siteKey r.die (r.col + i) (r.row + j)

def Region.hasTile (r : Region) (t : Nat) : Bool :=
  dieOf t == r.die && decide (r.col ≤ colOf t) && decide (colOf t < r.col + r.width)
    && decide (r.row ≤ rowOf t) && decide (rowOf t < r.row + r.height)

/-- The key of the live region a tile lies in (R11). -/
def regionOf (s : State) (t : Nat) : Option Nat :=
  (s.regions.find? fun e => e.2.hasTile t).map Prod.fst

/-- The region an element acts for. -/
def regionAt (s : State) (t : Nat) : Option Region := (regionOf s t).bind s.region

/-- A free number, and the counter past it (log entry 10). -/
def drawNat (s : State) : Nat × State := (Config.freeNat s.free, { s with free := s.free + 1 })
def drawWord (s : State) : W64 × State := (Config.freeWord s.free, { s with free := s.free + 1 })

/-! ### The physical map (R308) -/

/-- Where a physical address leads. -/
inductive Place where
  | near (die : Nat)
  | far (die : Nat)
  | mmio (off : Nat)
  | remote (m : Nat)
  | hole
  deriving DecidableEq, Repr

/-- What lies at an offset within a module. -/
def placeIn (o : Nat) : Place :=
  if o < 0x2000000000 then (if o % 0x800000000 < 0x600000000 then .near (o / 0x800000000) else .hole)
  else if o < 0x4000000000 then .hole
  else if o < 0x10000000000 then .far ((o - 0x4000000000) / 0x3000000000)
  else if o < 0x3F0000000000 then .hole
  else .mmio (o - 0x3F0000000000)

def placeOf (pa : Nat) : Place :=
  if pa / 2 ^ 46 ≠ Config.moduleNumber.toNat then .remote (pa / 2 ^ 46) else placeIn (pa % 2 ^ 46)

/-- The address of a byte within its module. -/
def localPa (pa : Nat) : Nat := pa % 2 ^ 46

def Place.isMemory : Place → Bool
  | .near _ | .far _ => true
  | _ => false

def Place.isMmio : Place → Bool
  | .mmio _ => true
  | _ => false

def Place.isRemote : Place → Bool
  | .remote _ => true
  | _ => false

def Place.isNear : Place → Bool
  | .near _ => true
  | _ => false

/-! ### Addresses and faults of an access (R177, R309) -/

/-- The top of the canonical half that holds an address; none where it is not canonical. -/
def halfTop : Int → Option Int
  | .ofNat n =>
    if n < 0x100000000000000 then some 0x100000000000000
    else if 0xFF00000000000000 ≤ n ∧ n < 0x10000000000000000 then some 0x10000000000000000 else none
  | .negSucc _ => none

/-- Codes 0x03 and 0x04 over an access of `len` bytes, with the fault address. -/
def rangeFault (va : Int) (len : Nat) : Option (Nat × Nat) :=
  match halfTop va with
  | none => some (3, (va % 2 ^ 64).toNat)
  | some top => if va + len > top then some (4, (top % 2 ^ 64).toNat) else none

/-- What an access wants of a page. -/
structure Want where
  write : Bool
  fe    : Bool := false
  /-- MMIO may be reached: a pump core's LD or ST (R215, R219), of context 0 (R267) -/
  dev   : Bool := false
  /-- the page need not permit a read: a port block that WARM looks up (R344) -/
  blind : Bool := false
  deriving DecidableEq, Repr

/-! ### Page tables (R310 to R313) -/

/-- The result of a walk. -/
inductive Walk where
  | fault (code : Nat)
  /-- the leaf is migrating: the walk waits (R313) -/
  | wait
  /-- the page, the address of its leaf, and the leaf -/
  | page (p : Page) (leafPa : Nat) (leaf : Nat)
  deriving DecidableEq, Repr

def entryAt (s : State) (pa : Nat) : Nat := natOf (s.mem.reads (localPa pa) 8)

/-- Whether a leaf is formed as R310 says, at the size of its level. -/
def leafFormed (leaf log2 : Nat) : Bool :=
  let frame := bits leaf 16 36 * 2 ^ 16
  let pl := placeOf frame
  bits leaf 52 12 == 0 && bits leaf 11 5 == 0 && frame % 2 ^ log2 == 0
    && (match pl with | .hole => false | .remote _ => (placeIn (frame % 2 ^ 46)).isMemory | _ => true)
    && (bits leaf 4 1 == 0 || pl.isNear)
    && (bits leaf 5 1 == 0 || (match pl with | .far _ => true | _ => false))
    && !(bits leaf 3 1 == 1 && bits leaf 2 1 == 0)

/-- A leaf read by a walk, judged for an access (R177: 0x01, then 0x02, then 0x05). -/
def judgeLeaf (leafPa leaf va log2 : Nat) (want : Want) : Walk :=
  if bits leaf 0 1 = 0 then .fault 1
  else if !leafFormed leaf log2 then .fault 2
  else if bits leaf 9 1 = 1 then .wait
  else if want.write && bits leaf 3 1 == 0 then .fault 2
  else if !want.blind && bits leaf 2 1 == 0 then .fault 2
  else if want.fe && bits leaf 4 1 == 0 then .fault 2
  else if !want.dev && (placeOf (bits leaf 16 36 * 2 ^ 16)).isMmio then .fault 2
  else if bits leaf 8 1 = 1 then .fault 5
  else .page ⟨va / 2 ^ log2 * 2 ^ log2, log2, bits leaf 16 36 * 2 ^ 16, bits leaf 3 1 == 1, bits leaf 4 1 == 1,
    bits leaf 6 1 == 1, bits leaf 5 1 == 1⟩ leafPa leaf

/-- One non-leaf entry: the next table, or a fault. -/
def nextTable (e : Nat) : Except Nat Nat :=
  if bits e 0 1 = 0 then .error 1
  else if bits e 52 12 ≠ 0 ∨ bits e 2 9 ≠ 0 ∨ bits e 11 2 ≠ 0 then .error 2
  else if (placeOf (bits e 13 39 * 2 ^ 13)).isMemory then .ok (bits e 13 39 * 2 ^ 13) else .error 2

/-- The walk of a virtual address from a root (R310, R313). -/
def walk (s : State) (root va : Nat) (want : Want) : Walk :=
  let i3 := bits va 46 11
  let i2 := bits va 36 10
  let i1 := bits va 26 10
  let i0 := bits va 16 10
  let e3 := entryAt s (root + 8 * i3)
  if !(placeOf root).isMemory || (bits e3 0 1 == 1 && bits e3 1 1 == 1) then .fault 2
  else match nextTable e3 with
  | .error c => .fault c
  | .ok t2 =>
    let e2 := entryAt s (t2 + 8 * i2)
    if bits e2 0 1 = 1 ∧ bits e2 1 1 = 1 then .fault 2
    else match nextTable e2 with
    | .error c => .fault c
    | .ok t1 =>
      let e1 := entryAt s (t1 + 8 * i1)
      if bits e1 0 1 = 1 ∧ bits e1 1 1 = 1 then judgeLeaf (t1 + 8 * i1) e1 va 26 want
      else match nextTable e1 with
      | .error c => .fault c
      | .ok t0 =>
        let e0 := entryAt s (t0 + 8 * i0)
        if bits e0 0 1 = 1 ∧ bits e0 1 1 = 0 then .fault 2 else judgeLeaf (t0 + 8 * i0) e0 va 16 want

/-- The entry a TLB takes for a leaf: the 2 MiB entry of its group, made from the leaf of the group's first VA, for a
CONT leaf (R311).  Where the leaves of a group disagree, the access uses that entry or its own leaf, by free choice. -/
def tlbPage (s : State) (p : Page) (leafPa leaf : Nat) (want : Want) : Page :=
  if p.log2 = 16 ∧ bits leaf 7 1 = 1 then
    let i := p.va / 2 ^ 16 % 32
    let first := entryAt s (leafPa - 8 * i)
    match judgeLeaf (leafPa - 8 * i) first (p.va / 2 ^ 21 * 2 ^ 21) 16 want with
    | .page f _ _ =>
      let agree := f.pa + i * 2 ^ 16 == p.pa && bits first 2 9 == bits leaf 2 9
      if agree || Config.freeNat s.free % 2 == 0 then { f with log2 := 21 } else p
    | _ => p
  else p

def Page.covers (p : Page) (va : Nat) : Bool := va / 2 ^ p.log2 * 2 ^ p.log2 == p.va
def Page.paOf (p : Page) (va : Nat) : Nat := p.pa + (va - p.va)
def Page.permits (p : Page) (want : Want) : Bool :=
  (!want.write || p.w) && (!want.fe || p.fe) && (want.dev || !(placeOf p.pa).isMmio)

def tlbFind (tlb : List TlbEntry) (ctx va : Nat) : Option Page :=
  (tlb.find? fun e => e.ctx == ctx && e.page.covers va).map TlbEntry.page

/-- An entry put into a TLB of a given capacity; a full one gives up an entry of free choice (log entry 11). -/
def tlbPut (cap pick : Nat) (tlb : List TlbEntry) (e : TlbEntry) : List TlbEntry :=
  let rest := tlb.filter fun f => !(f.ctx == e.ctx && f.page.va == e.page.va && f.page.log2 == e.page.log2)
  if rest.length < cap then e :: rest else e :: rest.eraseIdx (pick % cap)

/-- The outcome of a translation. -/
inductive Trans where
  | fault (code : Nat)
  | wait
  | page (p : Page)
  deriving DecidableEq, Repr

/-- Translation of one byte address through a first-level TLB of the given capacity, the last-level TLB of a die
and a walk (R313): the outcome, the first-level TLB after it, and the state. -/
def translate (s : State) (die ctx cap : Nat) (tlb : List TlbEntry) (va : Nat) (want : Want) :
    Trans × List TlbEntry × State :=
  let want := { want with dev := want.dev && ctx == 0 }
  match tlbFind tlb ctx va with
  | some p => (if p.permits want then .page p else .fault 2, tlb, s)
  | none =>
    match tlbFind (kget s.ltlb die []) ctx va with
    | some p =>
      if p.permits want then
        (.page p, tlbPut cap (Config.freeNat s.free) tlb ⟨ctx, p⟩, { s with free := s.free + 1 })
      else (.fault 2, tlb, s)
    | none =>
      if s.badWalks.contains (ctx, va / 2 ^ 16) then
        (.fault 6, tlb, { s with badWalks := s.badWalks.erase (ctx, va / 2 ^ 16) })
      else match walk s (s.ctx ctx).root.toNat va want with
      | .fault c => (.fault c, tlb, s)
      | .wait => (.wait, tlb, s)
      | .page p leafPa leaf =>
        let q := tlbPage s p leafPa leaf want
        let pick := Config.freeNat s.free
        let ll := tlbPut 8192 pick (kget s.ltlb die []) ⟨ctx, q⟩
        (.page q, tlbPut cap pick tlb ⟨ctx, q⟩, { s with ltlb := kput s.ltlb die ll, free := s.free + 1 })

/-- The translations of an access: its pages in ascending order, or the first fault with its address, or a wait. -/
inductive Access where
  | fault (code va : Nat)
  | wait
  | pages (ps : List Page)
  deriving DecidableEq, Repr

def addPage : Page → Access → Access
  | p, .pages ps => .pages (p :: ps)
  | _, a => a

/-- The pages of `len` bytes from `va` on, `fuel` bounding their number. -/
def translateFrom (die ctx cap : Nat) (want : Want) :
    Nat → State → List TlbEntry → Nat → Nat → Access × List TlbEntry × State
  | 0, s, tlb, _, _ => (.pages [], tlb, s)
  | fuel + 1, s, tlb, va, len =>
    match translate s die ctx cap tlb va want with
    | (.fault c, tlb, s) => (.fault c va, tlb, s)
    | (.wait, tlb, s) => (.wait, tlb, s)
    | (.page p, tlb, s) =>
      let here := p.va + 2 ^ p.log2 - va
      if len ≤ here then (.pages [p], tlb, s)
      else
        let (a, tlb, s) := translateFrom die ctx cap want fuel s tlb (va + here) (len - here)
        (addPage p a, tlb, s)

/-- A whole access: codes 0x03 and 0x04 first, then page by page (R177). -/
def translateAccess (s : State) (die ctx cap : Nat) (tlb : List TlbEntry) (va : Int) (len : Nat) (want : Want) :
    Access × List TlbEntry × State :=
  match rangeFault va len with
  | some (c, a) => (.fault c a, tlb, s)
  | none => translateFrom die ctx cap want (len / 2 ^ 16 + 2) s tlb va.toNat len

/-- The physical address of a virtual byte among the pages of an access. -/
def paIn (ps : List Page) (va : Nat) : Nat :=
  match ps.find? (·.covers va) with
  | some p => p.paOf va
  | none => va

/-! ### A write that lands in memory -/

def overlaps (a n b m : Nat) : Bool := decide (a < b + m) && decide (b < a + n)

/-- Memory monitors on the block (R222). -/
def Core.noteWrite (pa len : Nat) (c : Core) : Core :=
  { c with mons := c.mons.map fun m => m.map fun x =>
      if overlaps pa len (x.block * 64) 64 then { x with hit := true } else x }

/-- Whether a wait holds (R274): the difference as a signed 32-bit number is not negative. -/
def waitHolds (counter wv : Nat) : Bool := decide (0 ≤ toSigned 32 (wrap 32 ((counter : Int) - wv)))

/-- A binding that fires once has met its condition: it is spent (R278). -/
def Trigger.fireOnce (t : Trigger) : Trigger := { t with fired := t.fired + 1, spent := true }

/-- The condition of KIND 2 on its counter word, where it watches one. -/
def Trigger.counterHolds (m : Mem) (t : Trigger) : Bool :=
  decide (t.wpa < 2 ^ 46) && waitHolds (natOf (m.reads t.wpa 4)) (bits t.val.toNat 0 32)

/-- Triggers of KIND 0 and 2 on the word (R278): KIND 0 fires at each change from empty to full, KIND 2 when its
condition first holds. -/
def Trigger.noteWrite (pa len : Nat) (wasFull : Nat → Bool) (setFull : Bool) (m : Mem) (t : Trigger) : Trigger :=
  if !t.bound || !overlaps pa len t.wpa 4 then t
  else if t.kind = 0 then (if setFull && !wasFull t.wpa then { t with fired := t.fired + 1 } else t)
  else if t.kind = 2 ∧ !t.spent ∧ t.counterHolds m then t.fireOnce
  else t

/-- What a well sees of a write (R348, R349, R356): a 32-bit store to PUBW, the last byte of CAND, RDPOS. -/
def Well.noteWrite (pa len : Nat) (m : Mem) (w : Well) : Well :=
  if w.state == .closed then w
  else
    let w := if w.ingp == 0 && pa == w.port + 0x08 && len == 4 then
      { w with pubs := w.pubs ++ [BitVec.ofNat 32 (natOf (m.reads (w.port + 0x08) 4))] } else w
    let w := if overlaps pa len (w.port + 0x5F) 1 && bits (m.read (w.port + 0x5F)).toNat 7 1 == 1 then
      { w with candIn := w.candIn ++ [m.reads (w.port + 0x40) 32] } else w
    if overlaps pa len (w.draw + 0x08) 8 then
      { w with rdIn := w.rdIn ++ [BitVec.ofNat 64 (natOf (m.reads (w.draw + 0x08) 8))] } else w

/-- The words a range of bytes touches. -/
def wordsOf (pa len : Nat) : List Nat :=
  (List.range ((pa % 4 + len + 3) / 4)).map fun i => pa / 4 * 4 + 4 * i

/-- The frames a range of bytes touches. -/
def framesOf (pa len : Nat) : List Nat :=
  (List.range ((pa % 2 ^ 16 + len + 2 ^ 16 - 1) / 2 ^ 16)).map fun i => pa / 2 ^ 16 + i

/-- Bytes performed in the local near or far tier: memory, presence bits where the write sets them, the write
sequence of R312, and everything that watches the bytes.  `full` is what the write does to presence bits. -/
def memStore (s : State) (pa : Nat) (data : List Byte) (full : Option Bool) : State :=
  if data.isEmpty then s
  else
    let pa := localPa pa
    let mem := s.mem.writes pa data
    let ws := wordsOf pa data.length
    let fl := match full with
      | none => s.full
      | some true => ws.foldl fullSet s.full
      | some false => ws.foldl fullClear s.full
    let seq := s.writeSeq + 1
    { s with
      mem := mem
      full := fl
      writeSeq := seq
      dirty := (framesOf pa data.length).foldl (fun d f => kput d f seq) s.dirty
      cores := s.cores.map fun e => (e.1, e.2.noteWrite pa data.length)
      triggers := s.triggers.map fun e =>
        (e.1, e.2.noteWrite pa data.length (fullAt s.full) (full == some true) mem)
      wells := s.wells.map fun e => (e.1, e.2.noteWrite pa data.length mem) }

/-- The effect of an LDC on its word: emptied, and seen by monitors (R222). -/
def memEmpty (s : State) (pa : Nat) : State :=
  let pa := localPa pa
  { s with full := fullClear s.full pa, cores := s.cores.map fun e => (e.1, e.2.noteWrite pa 4) }

/-! ### Spans of an access -/

/-- The bytes of an access split at page bounds: physical address and bytes, in ascending order. -/
def spansOf (ps : List Page) : Nat → Nat → List Byte → List (Nat × List Byte)
  | 0, _, _ => []
  | fuel + 1, va, bs =>
    if bs.isEmpty then []
    else match ps.find? (·.covers va) with
      | none => []
      | some p =>
        let here := p.va + 2 ^ p.log2 - va
        (p.paOf va, bs.take here) :: spansOf ps fuel (va + here) (bs.drop here)

/-- The physical spans of a read: address and length. -/
def readSpans (ps : List Page) : Nat → Nat → Nat → List (Nat × Nat)
  | 0, _, _ => []
  | fuel + 1, va, len =>
    if len = 0 then []
    else match ps.find? (·.covers va) with
      | none => []
      | some p =>
        let here := p.va + 2 ^ p.log2 - va
        (p.paOf va, min len here) :: readSpans ps fuel (va + here) (len - here)

/-- Bytes of local memory behind an access. -/
def readPages (s : State) (ps : List Page) (va len : Nat) : List Byte :=
  (readSpans ps (ps.length + 1) va len).flatMap fun p => s.mem.reads (localPa p.1) p.2

/-- Bytes written to local memory behind an access; on an FE page each word is set full where `setFull` asks. -/
def writePages (s : State) (ps : List Page) (va : Nat) (data : List Byte) (setFull : Bool) : State :=
  (spansOf ps (ps.length + 1) va data).foldl
    (fun s p => memStore s p.1 p.2 (if setFull && ps.any (·.fe) then some true else none)) s

/-! ### Aborts: the exceptions of the machine (R54, R55, R258) -/

/-- An element rule aborts (R54): nothing of it happens; EFAULT records it, the element is faulted, and the region
controller will void and service the fault (R177). -/
def abortElem (s : State) (t e plane slot op code va : Nat) (wr : Bool) : State :=
  s.modElem t e fun y => { y with
    efault := ⟨true, BitVec.ofNat 2 plane, BitVec.ofNat 4 slot, BitVec.ofNat 8 op, BitVec.ofNat 8 code⟩
    faulted := true
    voidDue := true
    fva := va
    fwr := wr }

/-- A write of ones to EFAULT (R54, R243): a 1 to V clears it and ends the faulted state, and is ignored while the
void is still due.  The other fields are read-only, as R54's table has them (log entry 96). -/
def clearEFault (mask : W32) (y : Elem) : Elem :=
  let keepV := y.efault.v && (y.voidDue || bits mask.toNat 31 1 == 0)
  { y with efault := { y.efault with v := keepV }, faulted := y.faulted && keepV }

/-- EFAULT as a word (R54). -/
def EFault.word (f : EFault) : Nat :=
  (if f.v then 2 ^ 31 else 0) + f.plane.toNat * 2 ^ 20 + f.slot.toNat * 2 ^ 16 + f.op.toNat * 2 ^ 8 + f.code.toNat

/-- FLTREC after a fault (R258): the first fault is recorded whole; while V is set only MORE counts. -/
def recordFault (c : Core) (rule instr op code : Nat) (va : Option Nat) : Core :=
  let c := match va with
    | some a => { c with fltva := BitVec.ofNat 64 a }
    | none => c
  if bits c.fltrec.toNat 63 1 = 1 then
    let more := bits c.fltrec.toNat 16 16
    if more = 0xFFFF then c else { c with fltrec := c.fltrec + 0x10000 }
  else
    let rec_ := 2 ^ 63 + rule % 64 * 2 ^ 40 + instr % 32 * 2 ^ 32 + op % 256 * 2 ^ 8 + code % 256
    { c with fltrec := BitVec.ofNat 64 rec_ }

def setLane (c : Core) (k : Nat) (l : Lane) : Core := { c with lanes := c.lanes.set k l }

/-- A pump rule aborts (R55): its shadow writes and held acts are discarded, and a fault is recorded (R258). -/
def abortLane (s : State) (core k : Nat) (fault : Option (Nat × Option Nat)) (op : Nat) : State :=
  let c := s.core core
  let l := c.lanes.getD k { rule := 0, run := .aborted }
  let c := match fault with
    | none => c
    | some (code, va) => recordFault c l.rule l.pc op code va
  s.setCore core (setLane c k { l with g := [], p := [], acts := [], run := .aborted })

end Sys2Proof.Machine
end

