-- ==== Sys2Proof/Machine/Operands.lean ====
section
/-! DEFINITION. What an element rule reads, names and sends: operand reads (R91, R398), channel bindings (R109),
the checks of R92 and R134 that need a binding, where a token goes (R42, R43, R285, R288, R296), the terms of the
guard (R40), and address tokens (R167). -/

namespace Sys2Proof.Machine

/-! ### Bindings (R109) -/

def Elem.inBind (y : Elem) (c : Nat) : Nat := (kget y.binds c 0).toNat
def Elem.outBind (y : Elem) (c : Nat) : Nat := (kget y.binds (16 + c) 0).toNat

def bindV (b : Nat) : Bool := bits b 63 1 == 1
def bindPlane (b : Nat) : Nat := bits b 61 2
def bindFmt (b : Nat) : Nat := bits b 57 4
def bindSc (b : Nat) : Nat := bits b 54 3
def bindScen (b : Nat) : Bool := bits b 53 1 == 1
def bindRingen (b : Nat) : Bool := bits b 52 1 == 1
def bindRing (b : Nat) : Nat := bits b 49 3
def bindDx (b : Nat) : Int := signedOf 6 (bits b 26 6)
def bindDy (b : Nat) : Int := signedOf 5 (bits b 21 5)
def bindTen (b : Nat) : Nat := bits b 16 4
def bindTch (b : Nat) : Nat := bits b 12 4
def bindExt (b : Nat) : Bool := bits b 11 1 == 1
def bindExtid (b : Nat) : Nat := bits b 0 11

def Elem.chan (y : Elem) (c : Nat) : Chan := kget y.chans c {}
def Elem.setChan (y : Elem) (c : Nat) (x : Chan) : Elem := { y with chans := kput y.chans c x }

/-- The head token of an input channel. -/
def Elem.head (y : Elem) (c : Nat) : Option Token := (y.chan c).fifo.head?

/-- The bound input channels on the data and control planes. -/
def Elem.inputs (y : Elem) : List Nat :=
  (List.range 16).filter fun c => bindV (y.inBind c) && decide (bindPlane (y.inBind c) < 2)

/-- The bound output channels on the data and control planes. -/
def Elem.outputs (y : Elem) : List Nat :=
  (List.range 16).filter fun c => bindV (y.outBind c) && decide (bindPlane (y.outBind c) < 2)

/-! ### Marks (R301) -/

def Token.isMark (k : Token) : Bool := k.tag == 3
def Token.kind (k : Token) : Nat := if k.isMark then bits k.data.toNat 0 3 else 8
def markToken (payload stroke : Nat) : Token := ⟨BitVec.ofNat 256 payload, 3, stroke⟩

/-- A head a rule may consume: a data token, or POISON, which waits for a rule (R57, R318). -/
def Token.consumable (k : Token) : Bool := !k.isMark || k.kind == 5

/-! ### Where an output goes -/

/-- The key of an engine port's engine (R288): die and number. -/
def engineKey (die n : Nat) : Nat := die * 64 + n

/-- What an output binding leads to. -/
inductive Target where
  | chan (t e c : Nat)
  | command (en : Nat)
  | row (en port : Nat)
  | boundary (port : Nat)
  | nowhere
  deriving DecidableEq, Repr

/-- The target of one output binding of an element on a tile (R109, R288). -/
def targetOf (t b : Nat) : Target :=
  if bindExt b then
    let x := bindExtid b
    match bits x 8 3 with
    | 0 => .command (engineKey (dieOf t) (x % 256))
    | 1 => .row (engineKey (dieOf t) (x % 16)) (bits x 4 3)
    | 5 => .boundary (x % 256)
    | _ => .nowhere
  else
    let c := (colOf t : Int) + bindDx b
    let r := (rowOf t : Int) + bindDy b
    if 0 ≤ c ∧ c < 24 ∧ 0 ≤ r ∧ r < 16 then
      .chan (siteKey (dieOf t) c.toNat r.toNat) (bindTen b) (bindTch b)
    else .nowhere

/-- Every target of an output channel: the binding's, and those of a replicate multicast (R285). -/
def targets (s : State) (t e c : Nat) : List Target :=
  let multi := match regionAt s t with
    | none => []
    | some r => (r.multi.filter fun m => m.1 == (t, e, c)).map fun m => Target.chan m.2.1 m.2.2.1 m.2.2.2
  targetOf t ((s.elem t e).outBind c) :: multi

/-- The slots of a cistern ring; none where it is absent (R110). -/
def ringSlots (x : Tile) (n : Nat) : Nat :=
  let r := x.core.rings.toList.getD n {}
  if r.v then r.slots.toNat else 0

/-- What a channel can hold (R43). -/
def capacity (s : State) (t e c : Nat) : Nat :=
  let b := (s.elem t e).inBind c
  2 + (if bindRingen b then ringSlots (s.tile t) (bindRing b) else 0)

def Chan.count (c : Chan) : Nat := c.fifo.length + c.flight.length + c.ring.length + c.held

/-- Tokens of pending results of an element bound for one of its outputs (R136). -/
def pendingOut (y : Elem) (c : Nat) : Nat :=
  (y.pending.flatMap Pending.writes).countP fun w => match w with
    | .out d _ => d.val == c
    | _ => false

/-- Tokens waiting in the FIFO of a command port. -/
def commandFifo (s : State) (en : Nat) : Nat :=
  let n := en % 64
  if n < 16 then (s.island en).fifo.length
  else if n < 24 then (kget s.streamers en {}).fifo.length
  else if n < 48 then (kget s.expanders en {}).fifo.length
  else (kget s.weirs en {}).fifo.length

/-- Whether a target can take one more token (R40, R43); an unavailable engine accepts none (R18). -/
def targetSpace (s : State) (y : Elem) (c : Nat) : Target → Bool
  | .chan t e k => decide (((s.elem t e).chan k).count < capacity s t e k)
  | .command en => engineUsable s (en / 64) (en % 64) && decide (commandFifo s en + pendingOut y c < 2)
  | .row en p => engineUsable s (en / 64) (en % 64) && decide ((kget (s.island en).rows p []).length + pendingOut y c < 2)
  | .boundary _ => true
  | .nowhere => true

/-- The destination-space term for one output channel. -/
def outSpace (s : State) (t e c : Nat) : Bool := (targets s t e c).all (targetSpace s (s.elem t e) c)

/-- A command at the end of an engine's FIFO. -/
def fifoCommand (s : State) (en : Nat) (cmd : Cmd) : State :=
  let n := en % 64
  if n < 16 then s.modIsland en fun x => { x with fifo := x.fifo ++ [cmd] }
  else if n < 24 then
    let x := kget s.streamers en {}
    { s with streamers := kput s.streamers en { x with fifo := x.fifo ++ [cmd] } }
  else if n < 48 then
    let x := kget s.expanders en {}
    { s with expanders := kput s.expanders en { x with fifo := x.fifo ++ [cmd] } }
  else
    let x := kget s.weirs en {}
    { s with weirs := kput s.weirs en { x with fifo := x.fifo ++ [cmd] } }

/-- An island command is work of its region in this interval (R369). -/
def noteWork (s : State) (en : Nat) (cmd : Cmd) : State :=
  if en % 64 < 16 ∧ cmd.tok.isMark = false then s.modRegion cmd.region fun r => { r with worked := true } else s

def pushCommand (s : State) (en : Nat) (cmd : Cmd) : State := noteWork (fifoCommand s en cmd) en cmd

/-- A firing of a region, or a data token that enters or leaves it: the watchdog starts over (R389). -/
def touchRegion (s : State) (t : Nat) : State :=
  match regionOf s t with
  | none => s
  | some k => s.modRegion k fun r => { r with watch := 0 }

/-- A token laid down at one target, sent from a tile. -/
def deliver (s : State) (from_ : Nat) (tok : Token) : Target → State
  | .chan t e c =>
    let s := s.modElem t e fun y =>
      let ch := y.chan c
      y.setChan c { ch with flight := ch.flight ++ [tok] }
    if tok.isMark then s else touchRegion s t
  | .command en => pushCommand s en { tok := tok, region := (regionOf s from_).getD 0 }
  | .row en p => s.modIsland en fun x => { x with rows := kput x.rows p (kget x.rows p [] ++ [tok]) }
  | .boundary n =>
    match regionOf s from_ with
    | none => s
    | some r => s.modRegion r fun x => { x with boundary := kput x.boundary n (kget x.boundary n [] ++ [tok]) }
  | .nowhere => s

/-- The outputs of an element that lead to another member of its loop (R163). -/
def loopOut (s : State) (t e c : Nat) : Bool :=
  let y := s.elem t e
  match y.loop with
  | none => false
  | some (l, _) => (targets s t e c).any fun g => match g with
      | .chan t' e' _ => (t' != t || e' != e) && (match (s.elem t' e').loop with
          | some (l', _) => l' == l
          | none => false)
      | _ => false

/-- The output whose tokens count the iterations a loop header starts: its first one to another member. -/
def isLoopStart (s : State) (t e c : Nat) : Bool :=
  match (s.elem t e).loop with
  | some (_, true) => loopOut s t e c && !((List.range c).any (loopOut s t e))
  | _ => false

/-- A token enqueued on an output channel (R42), stamped with the open stroke of its element. -/
def enqueue (s : State) (t e c : Nat) (data : V256) (tag : BitVec 2) : State :=
  let tok : Token := ⟨data, tag, (s.elem t e).stroke⟩
  let s := if isLoopStart s t e c && tag != 3 then
    s.modElem t e fun y => { y with core := { y.core with loopI := y.core.loopI + 1 } } else s
  (targets s t e c).foldl (fun s g => deliver s t tok g) s

/-- The slots held in input channels for a result that will be enqueued later (R136). -/
def holdOut (s : State) (t e c : Nat) (n : Nat → Nat) : State :=
  (targets s t e c).foldl (fun s g => match g with
    | .chan t' e' k => s.modElem t' e' fun y => y.setChan k { y.chan k with held := n (y.chan k).held }
    | _ => s) s

/-- One token taken from the head of an input channel: counted where it is a loop channel (R163) and recorded where a
snapshot records its channel (R302). -/
def Elem.dequeue (y : Elem) (c : Nat) : Elem :=
  let ch := y.chan c
  match ch.fifo with
  | [] => y
  | k :: ks =>
    let y := y.setChan c { ch with fifo := ks }
    { y with
      core := if y.loopIns.contains c then { y.core with loops := kput y.core.loops c (kget y.core.loops c 0 + 1) }
        else y.core
      rec0 := if y.rec0On.contains c && decide (y.rec0.length < 32) then y.rec0 ++ [(c, k)] else y.rec0
      rec1 := if y.rec1On.contains c && decide (y.rec1.length < 32) then y.rec1 ++ [(c, k)] else y.rec1 }

/-! ### Operand reads (R91) -/

/-- The element-coordinate operand, code 30 (R10). -/
def coordOf (s : State) (t e : Nat) : Nat :=
  match regionAt s t with
  | none => e
  | some r => e + 16 * (colOf t - r.col) + 512 * (rowOf t - r.row)

/-- The stage number, code 31 (R10). -/
def stageOf (s : State) (t : Nat) : Nat :=
  match regionAt s t with
  | none => 0
  | some r => r.stage.toNat

/-- A scalar source (R111). -/
def readScalar (s : State) (t e : Nat) : Src → Nat
  | .x n => ((s.elem t e).core.x[n]).toNat
  | .w n => ((s.tile t).core.w[n]).toNat
  | .coord => coordOf s t e % 2 ^ 32
  | .stage => stageOf s t % 2 ^ 32
  | .chan c _ => match (s.elem t e).head c.val with
    | some k => k.data.toNat % 2 ^ 32
    | none => 0
  | .v _ | .acc _ | .zero | .lane => 0

/-- A vector source; `lane` is what code 29 reads. -/
def readVector (s : State) (t e : Nat) (lane : Nat) : Src → Nat
  | .v n => ((s.elem t e).core.v[n]).toNat
  | .chan c _ => match (s.elem t e).head c.val with
    | some k => k.data.toNat
    | none => 0
  | .lane => lane
  | .x _ | .w _ | .acc _ | .zero | .coord | .stage => 0

/-- An accumulator. -/
def readAcc (s : State) (t e : Nat) (n : Fin 4) : Nat := ((s.elem t e).core.a[n]).toNat

/-- Any token source moved without computation: its bits, and the tag a copy keeps (R159); an accumulator gives its
low 256 bits (log entry 115). -/
def readToken (s : State) (t e : Nat) (a : Src) : V256 × BitVec 2 :=
  match a with
  | .chan c _ => match (s.elem t e).head c.val with
    | some k => (k.data, k.tag)
    | none => (0, 0)
  | .v n => ((s.elem t e).core.v[n], 0)
  | .acc n => (BitVec.ofNat 256 ((s.elem t e).core.a[n]).toNat, 0)
  | a => (BitVec.ofNat 256 (readScalar s t e a), 0)

/-! ### Registers a rule names -/

/-- A register or predicate, for the no-pending-write term and the tests of R45. -/
inductive RegId where
  | x (n : Nat)
  | w (n : Nat)
  | v (n : Nat)
  | acc (n : Nat)
  | sc (n : Nat)
  | p (n : Nat)
  deriving DecidableEq, Repr

def srcReg : Src → List RegId
  | .x n => [.x n.val]
  | .v n => [.v n.val]
  | .acc n => [.acc n.val]
  | .w n => [.w n.val]
  | .zero | .lane | .coord | .stage | .chan _ _ => []

def dstReg : Dst → List RegId
  | .x n => [.x n.val]
  | .v n => [.v n.val]
  | .acc n => [.acc n.val]
  | .w n => [.w n.val]
  | .discard | .out _ => []

/-- The second register of a pair. -/
def srcPair : Src → List RegId
  | .v n => [.v (n.val + 1)]
  | .acc n => [.acc (n.val + 1)]
  | _ => []

def dstPair : Dst → List RegId
  | .v n => [.v (n.val + 1)]
  | .acc n => [.acc (n.val + 1)]
  | _ => []

/-- Registers read or written beyond the operand fields (R152 to R155, R170).  A VDQNT reads scN for vN, and for a
channel the scale register of its binding, if any (R153). -/
def extraRegs (y : Elem) : Instr → List RegId
  | .vpack _ _ _ _ _ a => srcPair a
  | .vunpk _ _ _ _ d _ => dstPair d
  | .vqnt _ _ _ _ d a => srcPair a ++ (match d with
    | .v n => [.sc n.val]
    | _ => [])
  | .vdqnt _ _ _ _ d a => dstPair d ++ (match a with
    | .v n => [.sc n.val]
    | .chan c _ => if bindScen (y.inBind c.val) then [.sc (bindSc (y.inBind c.val))] else []
    | _ => [])
  | .vdrop _ _ _ _ _ => [.x 14, .x 15]
  | .agenStep _ _ => [.x 10, .x 11, .x 12]
  | _ => []

/-- Predicates read or written beyond the guard fields (R118, R124, R125). -/
def extraPreds : Instr → List Nat
  | .sel _ pid _ _ _ => [pid.val]
  | .plog _ _ pj pk => [pj.val, pk.val]
  | .pset _ _ => List.range 8
  | _ => []

def guardPreds (g : Guard) : List Nat :=
  ((List.range 8).filter fun k => g.pcare.getLsbD k) ++ (match g.upd with
    | some u => [u.id.val]
    | none => [])

/-- Every register and predicate a rule reads or writes (R40). -/
def ruleRegs (y : Elem) (i : Instr) (o : Operands) : List RegId :=
  (match o.dst with | some d => dstReg d | none => []) ++ (match o.a with | some a => srcReg a | none => [])
    ++ (match o.b with | some b => srcReg b | none => []) ++ extraRegs y i
    ++ (guardPreds o.g ++ extraPreds i).map .p

def PWrite.regId : PWrite → List RegId
  | .x n _ => [.x n.val]
  | .w n _ => [.w n.val]
  | .v n _ => [.v n.val]
  | .acc n _ => [.acc n.val]
  | .sc n _ => [.sc n.val]
  | .pred n _ => [.p n.val]
  | .out _ _ => []

def MemReq.regId (r : MemReq) : List RegId :=
  dstReg r.dst ++ (match r.pred with | some p => [.p p.val] | none => [])

/-- The registers and predicates of an element with a write pending (R41). -/
def Elem.pendingRegs (y : Elem) : List RegId :=
  (y.pending.flatMap fun p => p.writes.flatMap PWrite.regId) ++ y.reqs.flatMap MemReq.regId

/-- Whether a register belongs to the tile. -/
def RegId.isTile : RegId → Bool
  | .w _ => true
  | _ => false

/-- What a rule of an element finds pending: its own registers and predicates, and the tile registers that any
element of the tile has still to write (R40, R41). -/
def pendingFor (s : State) (t e : Nat) : List RegId :=
  (s.elem t e).pendingRegs
    ++ ((s.tile t).elems.filter fun p => p.1 != e).flatMap fun p => p.2.pendingRegs.filter RegId.isTile

/-- Whether an element has any write pending, as alignment waits for (R57): a store's walk counts (log entry 8). -/
def Elem.anyPending (y : Elem) : Bool := !y.pending.isEmpty || !y.reqs.isEmpty

/-! ### The checks of R92 and R134 that need a binding -/

/-- What an operand asks of the channel it names. -/
inductive Need where
  | control
  | fmt (f : Fmt)
  | width (w : Nat)
  | data
  | either
  deriving DecidableEq, Repr

/-- A channel binding as an operand needs it; a reserved FMT meets no need (R26). -/
def Need.met (b : Nat) (n : Need) : Bool := (Fmt.ofCode (bindFmt b)).isSome && match n with
  | .control => bindPlane b == 1
  | .fmt f => bindPlane b == 0 && bindFmt b == f.code
  | .width w => bindPlane b == 0 && (match Fmt.ofCode (bindFmt b) with
    | some f => laneWidth f == w
    | none => false)
  | .data => bindPlane b == 0
  | .either => decide (bindPlane b < 2)

/-- The needs of destination, A and B (R99 to R101, R134, R141, R142, R167, R185); raw lanes of VRNG: log entry 114. -/
def needs : Instr → Need × Need × Need
  | .vadd _ f _ _ _ | .vsub _ f _ _ _ | .vmul _ f _ _ _ | .vmax _ f _ _ _ | .vmin _ f _ _ _
  | .vclamp _ f _ _ _ | .vfma _ f _ _ _ | .vfms _ f _ _ _ => (.fmt f, .fmt f, .fmt f)
  | .vabs _ f _ _ | .vneg _ f _ _ | .vrcp _ f _ _ | .vrsq _ f _ _ | .vsqrt _ f _ _ | .vexp2 _ f _ _
  | .vlog2 _ f _ _ | .vtanh _ f _ _ => (.fmt f, .fmt f, .fmt f)
  | .vred _ _ f _ _ | .vamax _ f _ _ => (.either, .fmt f, .fmt f)
  | .vcmp _ f _ _ _ => (.width (laneWidth f), .fmt f, .fmt f)
  | .vsel _ lw _ _ _ _ => (.width (Lanes.laneBits lw), .width (Lanes.laneBits lw), .width (Lanes.laneBits lw))
  | .vlog _ _ _ _ _ => (.data, .data, .data)
  | .vsh _ lw _ _ _ _ => (.width (Lanes.laneBits lw), .width (Lanes.laneBits lw), .control)
  | .vbcst _ f _ _ => (.fmt f, .control, .control)
  | .vext _ f _ _ _ => (.control, .fmt f, .control)
  | .vins _ f _ _ _ => (.fmt f, .control, .control)
  | .viota _ f _ _ _ => (.fmt f, .control, .control)
  | .vshuf _ lw _ _ _ => (.width (Lanes.laneBits lw), .width (Lanes.laneBits lw), .width (Lanes.laneBits lw))
  | .vcvt _ df sf _ _ _ | .vpack _ df sf _ _ _ | .vunpk _ df sf _ _ _ | .vqnt _ df sf _ _ _
  | .vdqnt _ df sf _ _ _ => (.fmt df, .fmt sf, .fmt sf)
  | .vrng _ rk _ _ _ =>
    ((match rk with | 0 => .width 32 | 1 => .fmt .fp32 | 2 => .fmt .bf16 | 3 => .width 16), .control, .control)
  | .vdrop _ f _ _ _ => (.fmt f, .fmt f, .control)
  | .vacc _ f _ _ => (.fmt f, .fmt f, .fmt f)
  | .cturn _ lw _ _ => (.width (Lanes.laneBits lw), .width (Lanes.laneBits lw), .data)
  | .fwd _ _ _ _ | .deq _ _ _ | .mrga _ _ _ _ | .tag _ _ _ _ => (.either, .either, .either)
  | .mrgo _ _ _ _ => (.either, .either, .either)
  | .steer _ _ _ _ => (.either, .either, .control)
  | .markBarrier _ _ => (.either, .either, .either)
  | .markCut _ _ _ => (.data, .control, .control)
  | .crget _ _ _ | .crput _ _ _ => (.either, .either, .either)
  | .ld _ _ _ _ _ _ | .lds _ _ _ _ | .ldc _ _ _ _ => (.control, .fmt .int32, .control)
  | .vld _ _ _ _ => (.data, .fmt .int32, .control)
  | .st _ _ _ _ _ | .stf _ _ _ => (.control, .fmt .int32, .control)
  | .vst _ _ _ => (.data, .fmt .int32, .data)
  | .xlat _ _ _ _ => (.fmt .int32, .fmt .int32, .control)
  | .agenRearm _ _ _ => (.fmt .int32, .data, .control)
  | .agenStep _ _ => (.fmt .int32, .data, .control)
  | .atom _ _ _ _ _ _ => (.data, .control, .control)
  | .ownapApply _ _ => (.control, .data, .control)
  | .cvld _ _ _ => (.data, .control, .control)
  | .cvst _ _ _ => (.control, .control, .data)
  | .rtake _ _ _ => (.data, .control, .control)
  | .mxcfg _ _ _ | .mxstat _ _ _ | .mxrow _ _ _ _ | .mxacc _ _ _ _ | .mxdrn _ _ _ _ => (.data, .control, .control)
  | .mxldb _ _ _ _ => (.data, .fmt .int32, .control)
  | .mxgrp _ _ _ | .sxcpy _ _ _ | .sxgth _ _ _ | .sxsct _ _ _ | .sxdeep _ _ _ | .xpcfg _ _ _ | .wrsrt _ _ _ =>
    (.data, .fmt .int32, .control)
  | _ => (.control, .control, .control)

/-- A source against the element's bindings: bound, and bound as the operation needs (R92 items 4 and 5, R134). -/
def srcBound (y : Elem) (n : Need) : Src → Bool
  | .chan c _ => bindV (y.inBind c.val) && n.met (y.inBind c.val)
  | _ => true

def dstBound (y : Elem) (n : Need) : Dst → Bool
  | .out c => bindV (y.outBind c.val) && n.met (y.outBind c.val)
  | _ => true

/-- The ring a CRGET or CRPUT names is present (R179). -/
def ringPresent (x : Tile) (n : Nat) : Bool := (x.core.rings.toList.getD n {}).v

/-- The opcode range of memory instructions, legal only in memory elements (R7, R92 item 10, R101). -/
def isMemoryOp (op : Nat) : Bool := decide (0xA0 ≤ op) && decide (op ≤ 0xBF)
def isMemoryElem (e : Nat) : Bool := e == 0 || e == 3 || e == 12 || e == 15

/-- An engine command's destination must be the command port of an engine (R185). -/
def isEngineOp (op : Nat) : Bool := decide (0xC0 ≤ op) && decide (op ≤ 0xD1)

/-- The outputs of STEER (R164). -/
def steerOuts (d : Dst) : List Nat :=
  match d with
  | .out k => [k.val, k.val + 1, k.val + 2, k.val + 3]
  | _ => []

/-- The arms of MRGO: record and index channel of each (R165). -/
def mergeArms (a b : Src) : List (Nat × Nat) :=
  match a, b with
  | .chan j _, .chan m _ => [(j.val, j.val + 1), (m.val, m.val + 1)]
  | _, _ => []

/-- Further legality that a word alone does not settle: STEER's four outputs, MRGO's four inputs, ring presence,
owners, planes of a move, and the port of an engine command. -/
def extraLegal (x : Tile) (t : Nat) (y : Elem) (op : Nat) : Instr → Bool
  | .steer _ d _ _ => (steerOuts d).all fun k => bindV (y.outBind k)
      && (decide (k < (steerOuts d).headD 0 + 2) || bindPlane (y.outBind k) == 1)
  | .mrgo _ _ a b => (mergeArms a b).all fun p => bindV (y.inBind p.1) && bindV (y.inBind p.2)
      && bindPlane (y.inBind p.2) == 1
  | .mrga _ d a b => (match d, a, b with
    | .out k, .chan c _, .chan c' _ => bindPlane (y.outBind k.val) == bindPlane (y.inBind c.val)
        && bindPlane (y.inBind c.val) == bindPlane (y.inBind c'.val)
    | _, _, _ => true)
  | .fwd _ d a _ => (match d, a with
    | .out k, .chan c _ => bindPlane (y.outBind k.val) == bindPlane (y.inBind c.val)
    | .out k, a => bindPlane (y.outBind k.val) == (if a.isV || a.isAcc then 0 else 1) || a == .zero
    | .x _, .chan c _ | .w _, .chan c _ => bindPlane (y.inBind c.val) == 1
    | .v _, .chan c _ | .acc _, .chan c _ => bindPlane (y.inBind c.val) == 0
    | _, _ => true)
  | .vred _ _ _ d _ | .vamax _ _ d _ => (match d with
    | .out k => bindPlane (y.outBind k.val) == 1 || bindFmt (y.outBind k.val) == 0
    | _ => true)
  | .crget _ r _ => ringPresent x r.val
  | .crput _ r _ => ringPresent x r.val
  | .ownapApply _ _ => bits y.owner.toNat 63 1 == 1
  | .ownapReadout _ _ _ => bits y.owner.toNat 63 1 == 1
  | .cturn _ _ _ _ => true
  | i => match i.operands with
    | some o => if isEngineOp op then (match o.dst with
        | some (.out k) => (match targetOf t (y.outBind k.val) with
          | .command _ => true
          | _ => false)
        | _ => false) else true
    | none => true

/-- The element opcode of an instruction (R99 to R101). -/
def opcodeOf (i : Instr) : Nat := match i.elemFields with
  | some f => f.op
  | none => 0

/-- Whether a decoded slot is legal where it stands: R92 items 4, 5 and 10, R134, R179, R182, R185. -/
def slotLegal (s : State) (t e : Nat) (i : Instr) : Bool :=
  let x := s.tile t
  let y := x.elem e
  let op := opcodeOf i
  match i.operands with
  | none => false
  | some o =>
    let n := needs i
    (match o.dst with | some d => dstBound y n.1 d | none => true)
      && (match o.a with | some a => srcBound y n.2.1 a | none => true)
      && (match o.b with | some b => srcBound y n.2.2 b | none => true)
      && (!isMemoryOp op || isMemoryElem e)
      && extraLegal x t y op i

/-! ### Address tokens (R167) -/

structure AddrTok where
  va    : Nat
  pa    : Nat
  t     : Bool
  wr    : Bool
  fe    : Bool
  ht    : Bool
  cmp   : Bool
  ps    : Nat
  epoch : Nat
  fcode : Nat
  deriving DecidableEq, Repr

def addrTok (x : Nat) : AddrTok :=
  ⟨bits x 0 64, bits x 64 52, bits x 116 1 == 1, bits x 117 1 == 1, bits x 118 1 == 1, bits x 119 1 == 1,
    bits x 120 1 == 1, bits x 121 2, bits x 128 8, bits x 136 8⟩

def AddrTok.word (a : AddrTok) : Nat :=
  a.va + a.pa * 2 ^ 64 + bit a.t * 2 ^ 116 + bit a.wr * 2 ^ 117 + bit a.fe * 2 ^ 118 + bit a.ht * 2 ^ 119
    + bit a.cmp * 2 ^ 120 + a.ps * 2 ^ 121 + a.epoch * 2 ^ 128 + a.fcode * 2 ^ 136

/-- The page size a token names. -/
def psLog2 (ps : Nat) : Nat := if ps = 0 then 16 else if ps = 1 then 21 else 26
def psOf (log2 : Nat) : Nat := if log2 = 16 then 0 else if log2 = 21 then 1 else 2

/-- The page a translated token carries. -/
def AddrTok.page (a : AddrTok) : Page :=
  let n := psLog2 a.ps
  ⟨a.va / 2 ^ n * 2 ^ n, n, a.pa - a.va % 2 ^ n, a.wr, a.fe, a.ht, a.cmp⟩

def dieEpoch (s : State) (die : Nat) : Nat := (kget s.epochs die (0 : BitVec 8)).toNat

/-- Whether an access of `len` bytes at `ea` may use the token's own translation (R169). -/
def AddrTok.usable (a : AddrTok) (epoch ea len : Nat) (want : Want) : Bool :=
  a.t && a.epoch == epoch && (!want.write || a.wr) && a.page.covers ea && a.page.covers (ea + len - 1)

/-- The pages of an access found in the micro-TLB alone; none where one is missing. -/
def tlbPages (tlb : List TlbEntry) (ctx : Nat) : Nat → Nat → Nat → Option (List Page)
  | 0, _, _ => none
  | fuel + 1, va, len =>
    match tlbFind tlb ctx va with
    | none => none
    | some p =>
      let here := p.va + 2 ^ p.log2 - va
      if len ≤ here then some [p] else (tlbPages tlb ctx fuel (va + here) (len - here)).map (p :: ·)

/-- The first page of an access that does not permit it, with the fault address (R177). -/
def refusedPage (ps : List Page) (va : Nat) (want : Want) : Option Nat :=
  (ps.find? fun p => !p.permits want).map fun p => max va p.va

/-- Whether a shoot-down removes a context's translation (R256, R314). -/
def Scope_.hits (w : Scope_) (ctx : Nat) (p : Page) : Bool :=
  match w with
  | .all => true
  | .ctx c => c == ctx
  | .page c va => c == ctx && p.covers va

/-- Whether a shoot-down of a translation is in progress: a token that holds it is not used (R314). -/
def State.shotDown (s : State) (ctx : Nat) (p : Page) : Bool := s.shoots.any fun h => !h.acked && h.what.hits ctx p

/-- What a memory access finds at its firing (R169, R177). -/
inductive AtFiring where
  | fault (code va : Nat)
  | pages (ps : List Page)
  | walk
  deriving DecidableEq, Repr

def atFiring (s : State) (t e ctx : Nat) (a : AddrTok) (ea : Int) (len : Nat) (want : Want) : AtFiring :=
  if a.fcode ≠ 0 then .fault a.fcode a.va
  else match rangeFault ea len with
  | some (c, va) => .fault c va
  | none =>
    let va := ea.toNat
    if a.usable (dieEpoch s (dieOf t)) va len want && !s.shotDown ctx a.page then
      (match refusedPage [a.page] va want with
       | some f => .fault 2 f
       | none => .pages [a.page])
    else match tlbPages (s.elem t e).utlb ctx (len / 2 ^ 16 + 2) va len with
    | none => .walk
    | some ps => match refusedPage ps va want with
      | some f => .fault 2 f
      | none => .pages ps

/-! ### Memory nodes: alias classes and buffers (R65, R85, R173) -/

/-- The alias class of a slot: its declared class, or one of its own (R85, R283). -/
def aliasOf (r : Region) (t e plane slot : Nat) : Nat :=
  match r.nodes.find? fun n => n.tile == t && n.elem == e && n.plane == plane && n.slot == slot with
  | some n => n.cls
  | none => 256 + ((t * 16 + e) * 4 + plane) * 16 + slot

/-- The chain token of a class does not pass a STROKE mark: every node of the class must have reached the stroke of
the access, so that the chain order is the order in which strokes drain (R59, R65; log entry 8). -/
def chainInStroke (s : State) (r : Region) (cls stroke : Nat) : Bool :=
  r.nodes.all fun n => n.cls != cls || decide (stroke ≤ (s.elem n.tile n.elem).stroke)

/-- The chain token of a class is there for a load: no LDS or LDC of the class holds it (R323; log entry 8). -/
def chainForLoad (s : State) (r : Region) (cls stroke : Nat) : Bool :=
  chainInStroke s r cls stroke && r.sites.all fun t => (s.tile t).elems.all fun y => y.2.reqs.all fun q =>
    !(q.cls == cls && (q.kind == .lds || q.kind == .ldc))

/-- The chain token is there for a store, an LDS or an LDC: no load of the class is still out (R65). -/
def chainForStore (s : State) (r : Region) (cls stroke : Nat) : Bool :=
  chainInStroke s r cls stroke && r.sites.all fun t => (s.tile t).elems.all fun y => y.2.reqs.all fun q =>
    !(q.cls == cls && (match q.kind with
      | .load _ _ | .vload | .lds | .ldc => true
      | _ => false))

/-- Buffer entries of a store: one for each aligned span of 32 bytes (R173). -/
def storeUnits (va len : Nat) : Nat := (va % 32 + len + 31) / 32

/-- Whether the open buffer of an element has room for so many entries; where it has not, the stroke ends (R56,
R173). -/
def bufferRoom (r : Region) (t e stroke units : Nat) : Bool :=
  let mine := r.stores.filter fun x => x.tile == t && x.elem == e && x.stroke == stroke
  decide ((mine.map RStore.units).sum + units ≤ 64)

/-- Whether an element has a buffer for its open stroke: at most one older stroke has still to drain (R173). -/
def bufferFree (r : Region) (t e stroke : Nat) : Bool :=
  let mine := r.stores.filter fun x => x.tile == t && x.elem == e && decide (x.stroke < stroke)
  decide ((mine.map RStore.stroke).eraseDups.length ≤ 1)

/-- Bytes an undo entry takes (R180). -/
def undoSize (len : Nat) : Nat := if len ≤ 4 then 16 else 40 * ((len + 31) / 32)

/-- Whether the undo log takes one more entry. -/
def undoRoom (x : Tile) (size : Nat) : Bool := decide ((x.undo.map Undo.size).sum + size ≤ 4096)

/-- The owner's word of an OWNAP apply takes 4 or 32 bytes. -/
def ownerBytes (owner : W64) : Nat := if bits owner.toNat 56 4 = 7 then 32 else 4

/-! ### Further terms of the guard -/

/-- The merge window of a STEER: the ring that backs iJ of the MRGO whose ordering output leads to it (R165). -/
def mergeWindow (s : State) (t e : Nat) : Nat :=
  match regionAt s t with
  | none => 0
  | some r =>
    let found := r.sites.flatMap fun t' => (s.tile t').elems.flatMap fun p =>
      let y := p.2
      let linked := (List.range 16).any fun c => bindV (y.outBind c) && bindPlane (y.outBind c) == 2
        && targetOf t' (y.outBind c) == .chan t e (bindTch (y.outBind c))
      if linked then
        y.slots.filterMap fun w => match decodeElem w.2 with
          | .ok (.mrgo _ _ (.chan j _) _) =>
            some (if bindRingen (y.inBind j.val) then ringSlots (s.tile t') (bindRing (y.inBind j.val)) else 0)
          | _ => none
      else []
    found.headD 0

/-- The arm MRGO can take: its index channel has EXP at the head and its record channel is not empty (R165). -/
def readyArm (y : Elem) (a b : Src) : Option (Nat × Nat) :=
  (mergeArms a b).find? fun p =>
    (match y.head p.2 with
     | some k => k.consumable && decide (k.data.toNat % 2 ^ 32 = y.core.exp.toNat)
     | none => false)
    && (match y.head p.1 with | some k => k.consumable | none => false)

/-- The channel MRGA takes (R166): the only one with a token, or the one it did not take last. -/
def mrgaPick (y : Elem) (a b : Src) : Option Src :=
  let has (c : Src) := match c with
    | .chan n _ => (match y.head n.val with | some k => k.consumable | none => false)
    | _ => false
  if has a && has b then some (if y.core.lastA then b else a)
  else if has a then some a else if has b then some b else none

/-- A channel operand is present when its head can be consumed (R40). -/
def srcPresent (y : Elem) : Src → Bool
  | .chan c _ => (match y.head c.val with | some k => k.consumable | none => false)
  | _ => true

/-- The operands-present term, with the entries that replace it (R165, R166). -/
def operandsPresent (y : Elem) (i : Instr) (o : Operands) : Bool :=
  match i with
  | .mrgo _ _ a b => (readyArm y a b).isSome
  | .mrga _ _ a b => (mrgaPick y a b).isSome
  | _ => (match o.a with | some a => srcPresent y a | none => true)
      && (match o.b with | some b => srcPresent y b | none => true)

/-- The destination-space term, with the entries that replace it (R157, R164). -/
def destSpace (s : State) (t e : Nat) (i : Instr) (o : Operands) : Bool :=
  match i with
  | .steer _ (.out k) _ b =>
    let arm := readScalar s t e b % 2
    outSpace s t e (k.val + arm) && outSpace s t e (k.val + 2 + arm)
  | .cturn _ _ (.out k) _ => (s.elem t e).core.turn.drain.isEmpty || outSpace s t e k.val
  | _ => match o.dst with
    | some (.out k) => outSpace s t e k.val
    | _ => true

/-- Whether a request holds one of the sixteen slots (R169). -/
def MemReq.holdsSlot (q : MemReq) : Bool :=
  match q.kind with
  | .load _ _ | .vload | .lds | .ldc | .xlat _ => true
  | .store | .take => false

/-- Whether an XLAT is answered at its firing: a token passed on, or a micro-TLB hit (R168). -/
def xlatNow (s : State) (t e ctx : Nat) (x : Nat) : Bool :=
  let a := addrTok x
  a.t || a.fcode != 0 || (rangeFault a.va 1).isSome || (tlbFind (s.elem t e).utlb ctx a.va).isSome

/-- The context an element acts for. -/
def ctxAt (s : State) (t : Nat) : Nat :=
  match regionAt s t with
  | none => 0
  | some r => r.ctx

/-- The terms of a memory rule's alias class, request slot and store buffer (R169, R173). -/
def memoryTerm (s : State) (t e plane slot : Nat) (i : Instr) : Bool :=
  let slotFree := decide ((s.elem t e).reqs.countP MemReq.holdsSlot < 16)
  match regionAt s t with
  | none => slotFree
  | some r =>
    let cls := aliasOf r t e plane slot
    let n := (s.elem t e).stroke
    match i with
    | .ld _ _ _ _ _ _ | .vld _ _ _ _ => slotFree && chainForLoad s r cls n
    | .lds _ _ _ _ | .ldc _ _ _ _ => slotFree && chainForStore s r cls n
    | .xlat _ _ _ a => slotFree || xlatNow s t e r.ctx (readVector s t e 0 a)
    | .st _ _ _ _ _ | .vst _ _ _ | .stf _ _ _ => bufferFree r t e n && chainForStore s r cls n
    | _ => true

/-- Further terms of an entry's own guard (R157, R163, R164, R170, R179). -/
def extraTerm (s : State) (t e : Nat) (i : Instr) : Bool :=
  let x := s.tile t
  let y := x.elem e
  match i with
  | .steer _ _ _ _ => decide (y.core.out < mergeWindow s t e)
  | .agenRearm _ _ _ => y.core.cnt == 0
  | .agenStep _ _ => y.core.cnt != 0
  | .cturn _ _ _ .zero => !y.core.turn.drain.isEmpty
  | .crput _ r _ => decide (0 < (x.core.rings[r]).free.toNat)
  | .crget _ r _ => decide (0 < (x.core.rings[r]).filled.toNat)
  | _ => true

/-- A loop header that has a CUT to finish starts no iteration (R163). -/
def loopTerm (s : State) (t e : Nat) (o : Operands) : Bool :=
  match o.dst with
  | some (.out k) => !((s.elem t e).core.cut.isSome && isLoopStart s t e k.val)
  | _ => true

/-- The bytes of a store at its access, for the room it asks for. -/
def accessBytes : MemW → Nat
  | .b4 => 4
  | .b2 => 2
  | .b1 => 1

/-- The room a storing or logging rule asks for, whose want ends the stroke (R56, R173, R180). -/
def roomFor (s : State) (t e : Nat) (i : Instr) : Bool :=
  let x := s.tile t
  let y := x.elem e
  let store (a : Src) (len : Nat) (word : Bool) : Bool :=
    match regionAt s t with
    | none => true
    | some r =>
      let va := (addrTok (readVector s t e 0 a)).va
      bufferRoom r t e y.stroke (storeUnits (if word then va / 4 * 4 else va) len)
  match i with
  | .st _ mw _ a _ => store a (accessBytes mw) false
  | .vst _ a _ => store a 32 false
  | .stf _ a _ => store a 4 true
  | .cst _ mw _ _ _ => undoRoom x (undoSize (accessBytes mw))
  | .cvst _ _ _ => undoRoom x 40
  | .crput _ r _ => undoRoom x (undoSize (2 ^ ((x.core.rings[r]).ssize.toNat + 2)))
  | .ownapApply _ _ => undoRoom x (undoSize (ownerBytes y.owner))
  | _ => true

/-! ### Cost and latency (R111, R136, R158, R185) -/

def costOf (op : Nat) : Nat :=
  if op < 0x40 then 1
  else if op < 0x50 then 4
  else if op < 0x56 then 6
  else if op < 0x80 then 4
  else if op = 0x87 ∨ op = 0x88 then 8
  else if op < 0xA0 then 1
  else if op = 0xA9 ∨ op = 0xB8 then 1
  else if op < 0xC0 then 8
  else 1

/-- Whether a firing takes one of the tile's four cistern ports (R45). -/
def usesPort (op : Nat) : Bool :=
  op == 0x87 || op == 0x88 || op == 0xAB || (decide (0xB0 ≤ op) && decide (op ≤ 0xB3))

/-! ### The guard (R40) -/

/-- The guard's terms that the element's own state settles: predicate, head tag, operands, no pending write, and
the entry's own terms. -/
def guardOwn (s : State) (t e plane slot : Nat) (i : Instr) (o : Operands) : Bool :=
  let y := s.elem t e
  let g := o.g
  (y.core.p &&& g.pcare) == (g.pval &&& g.pcare)
    && (match g.htag, o.a with
        | some k, some (.chan c _) => (match y.head c.val with
          | some tok => tok.tag.toNat == k.val
          | none => false)
        | some _, _ => false
        | none, _ => true)
    && operandsPresent y i o
    && destSpace s t e i o
    && !((ruleRegs y i o).any fun r => (pendingFor s t e).contains r)
    && memoryTerm s t e plane slot i && extraTerm s t e i && loopTerm s t e o

/-- The tile-predicate term. -/
def qTerm (q : BitVec 16) (g : Guard) : Bool :=
  match g.qtest with
  | some (v, id) => q.getLsbD id.val == v
  | none => true

/-- The not-stopped term of R40. -/
def Elem.running (y : Elem) : Bool := !y.frozen && !y.faulted && !y.core.halted && !y.stopped

/-- The whole guard, for a legal slot: what `exec` tests before it fires a rule. -/
def ready (s : State) (i : Instr) (o : Operands) : Bool :=
  let t := s.actor.tile
  let e := s.actor.elem
  let x := s.tile t
  (x.elem e).running && guardOwn s t e s.actor.plane s.actor.slot i o && qTerm x.core.q o.g
    && decide (costOf (opcodeOf i) ≤ x.balance) && roomFor s t e i

end Sys2Proof.Machine
end

