-- ==== Sys2Proof/Machine/Flags.lean ====
section
/-! DEFINITION. What a firing adds beside its result, and the firing itself: conversion flags and counts (R31 to
R34), the result bit and the predicate update (R76, R114), pending results (R41, R136), dequeues, the charge, and
the abort that undoes nothing because nothing happened (R54). -/

namespace Sys2Proof.Machine

/-! ### Looking at a kernel's memory -/

/-- The pages behind a range of a context, found by a walk that leaves no trace. -/
def peekPages (s : State) (die ctx : Nat) (va len : Nat) (write : Bool) : Option (List Page) :=
  match (translateAccess s die ctx 64 [] va len { write := write, fe := false }).1 with
  | .pages ps => some ps
  | _ => none

/-- A number of `len` bytes in a context's memory; a free value where it cannot be read (log entry 24). -/
def peek (s : State) (die ctx va len : Nat) : Nat :=
  match peekPages s die ctx va len false with
  | some ps => natOf (readPages s ps va len)
  | none => (Config.freeWord va).toNat

/-- SRSEED of the kernel a tile belongs to (R32). -/
def seedOf (s : State) (t : Nat) : Nat :=
  match regionAt s t with
  | none => 0
  | some r => peek s r.die r.ctx (r.cntVa + 0x40) 8

/-- LIDX of R28. -/
def lidxOf (s : State) (t e : Nat) : Nat := stageOf s t * 2 ^ 13 + coordOf s t e

/-! ### Flags and counts (R31 to R34) -/

def Flags.bits (f : Flags) : BitVec 4 :=
  BitVec.ofNat 4 (bit f.sat + 2 * bit f.ftz + 4 * bit f.nan + 8 * bit f.inx)

def Counts.plus (c : Counts) (v : Conv) : Counts := ⟨c.sat + v.sat, c.ftz + v.ftz, c.nan + v.nan, c.ixd + v.ixd⟩
def Counts.sum (a b : Counts) : Counts := ⟨a.sat + b.sat, a.ftz + b.ftz, a.nan + b.nan, a.ixd + b.ixd⟩

/-- The running value of R34 for an event of a stroke: the block at the start of the open stroke, the events of
that stroke, and behind a mark in flight those of the next one as well. -/
def runningCounts (r : Region) (stroke : Nat) : Counts :=
  let c := r.cntBase.sum r.cnt0
  if stroke ≤ r.stroke then c else c.sum r.cnt1

def overThreshold (s : State) (r : Region) (off before add : Nat) : Bool :=
  let thr := peek s r.die r.ctx (r.cntVa + off) 8
  add != 0 && thr != 2 ^ 64 - 1 && decide (thr < before + add)

/-- The TRIP bits of the thresholds that these events would cross (R34). -/
def trips (s : State) (r : Region) (stroke : Nat) (v : Conv) : Nat :=
  let c := runningCounts r stroke
  bit (overThreshold s r 0x20 c.sat v.sat) + 2 * bit (overThreshold s r 0x28 c.ftz v.ftz)
    + 4 * bit (overThreshold s r 0x30 c.nan v.nan)

/-- Events of a stroke of a region, kept until the stroke commits (R33). -/
def Region.addCounts (r : Region) (stroke : Nat) (v : Conv) : Region :=
  if stroke ≤ r.stroke then { r with cnt0 := r.cnt0.plus v } else { r with cnt1 := r.cnt1.plus v }

/-- The events of a firing: the sticky flags of the element, and the counts of its region. -/
def addConv (s : State) (t e : Nat) (v : Conv) : State :=
  let stroke := (s.elem t e).stroke
  let s := s.modElem t e fun y => { y with core := { y.core with econv := y.core.econv ||| v.flags.bits } }
  match regionOf s t with
  | none => s
  | some k => s.modRegion k fun r => r.addCounts stroke v

/-! ### Writes -/

/-- One value written: a register, a predicate, or a token enqueued. -/
def applyWrite (s : State) (t e : Nat) : PWrite → State
  | .x n v => s.modElem t e fun y => { y with core := { y.core with x := y.core.x.set n v } }
  | .w n v => s.modTile t fun x => { x with core := { x.core with w := x.core.w.set n v } }
  | .v n v => s.modElem t e fun y => { y with core := { y.core with v := y.core.v.set n v } }
  | .acc n v => s.modElem t e fun y => { y with core := { y.core with a := y.core.a.set n v } }
  | .sc n v => s.modElem t e fun y => { y with core := { y.core with sc := y.core.sc.set n v } }
  | .pred n v => s.modElem t e fun y =>
      let m := BitVec.ofNat 8 (2 ^ n.val)
      { y with core := { y.core with p := if v then y.core.p ||| m else y.core.p &&& ~~~m } }
  | .out c k => enqueue s t e c.val k.data k.tag

def applyWrites (s : State) (t e : Nat) (ws : List PWrite) : State := ws.foldl (fun s w => applyWrite s t e w) s

/-- The predicate update of R76 as writes: the result bit is loaded by =p. -/
def updWrites (p : BitVec 8) (res : Bool) : Option Upd → List PWrite
  | none => []
  | some u => match u.op with
    | .set => [.pred u.id true]
    | .clear => [.pred u.id false]
    | .load => [.pred u.id res]
    | .toggle => [.pred u.id (!p.getLsbD u.id.val)]

def isLoad : Option Upd → Bool
  | some u => u.op == .load
  | none => false

/-- The predicate a =p update loads. -/
def loadPred : Option Upd → Option (Fin 8)
  | some u => if u.op = .load then some u.id else none
  | none => none

/-- A scalar result at its destination (R111). -/
def scalarRes (d : Dst) (v : Nat) : List PWrite :=
  match d with
  | .x n => [.x n (BitVec.ofNat 32 v)]
  | .w n => [.w n (BitVec.ofNat 32 v)]
  | .out c => [.out c ⟨BitVec.ofNat 256 (v % 2 ^ 32), 0, 0⟩]
  | .v _ | .acc _ | .discard => []

/-- A vector result (R134). -/
def vectorRes (d : Dst) (v : Nat) : List PWrite :=
  match d with
  | .v n => [.v n (BitVec.ofNat 256 v)]
  | .out c => [.out c ⟨BitVec.ofNat 256 v, 0, 0⟩]
  | .x _ | .w _ | .acc _ | .discard => []

/-- An accumulator result. -/
def accRes (d : Dst) (v : Nat) : List PWrite :=
  match d with
  | .acc n => [.acc n (BitVec.ofNat 512 v)]
  | _ => []

/-- A token moved as it stands, at any destination (R159). -/
def tokenRes (d : Dst) (data : V256) (tag : BitVec 2) : List PWrite :=
  match d with
  | .x n => [.x n (BitVec.ofNat 32 data.toNat)]
  | .w n => [.w n (BitVec.ofNat 32 data.toNat)]
  | .v n => [.v n data]
  | .acc n => [.acc n (BitVec.ofNat 512 data.toNat)]
  | .out c => [.out c ⟨data, tag, 0⟩]
  | .discard => []

/-- A result of several fc: held for its round (R136), its slots in the consumers held with it. -/
def addPending (s : State) (t e lat : Nat) (ws : List PWrite) : State :=
  let due := (s.tile t).rounds + lat - 1
  let s := s.modElem t e fun y => { y with pending := y.pending ++ [⟨due, ws⟩] }
  ws.foldl (fun s w => match w with
    | .out c _ => holdOut s t e c.val (· + 1)
    | _ => s) s

/-! ### The firing of a rule -/

/-- Why a rule aborts: fault code, fault address (TRIP bits for 0x0D), whether it was a write. -/
structure Abort where
  code : Nat
  va   : Nat := 0
  wr   : Bool := false
  deriving DecidableEq, Repr

/-- What a firing does: what it writes, its result bit, its conversion events, and any further effect of its
entry, which comes last. -/
structure Fired where
  writes : List PWrite := []
  res    : Bool := false
  conv   : Conv := {}
  /-- the result comes with a reply, and =p is loaded then (R41) -/
  late   : Bool := false
  act    : State → State := id

/-- The channels a firing dequeues: those that carry a caret (R75, R93); a merge names its own. -/
def deqs (i : Instr) (o : Operands) (y : Elem) : List Nat :=
  match i with
  | .mrgo _ _ a b => (match readyArm y a b with
    | some (r, k) => [r, k]
    | none => [])
  | .mrga _ _ a b => (match mrgaPick y a b with
    | some (.chan c _) => [c.val]
    | _ => [])
  | _ =>
    let one (x : Option Src) : List Nat := match x with
      | some (.chan c true) => [c.val]
      | _ => []
    (one o.a ++ one o.b).eraseDups

/-- A rule that consumes a token whose FIFO parity fails aborts (R384). -/
def takesBadParity (y : Elem) (cs : List Nat) : Bool := cs.any fun c => (y.chan c).parity

/-- A rule that dequeues a POISON mark aborts (R318). -/
def takesPoison (y : Elem) (cs : List Nat) : Bool :=
  cs.any fun c => match y.head c with
    | some k => k.kind == 5
    | none => false

/-- A head that a rule would take and that aborts it: a bad parity, a POISON mark. -/
def takesBad (y : Elem) (cs : List Nat) : Bool := takesBadParity y cs || takesPoison y cs

/-- The charge of a firing paid from the tile's account (R46, R365). -/
def payCharge (s : State) (t cost : Nat) : State :=
  s.modTile t fun x => { x with balance := x.balance - cost, echg := x.echg + cost }

/-- Everything a firing that does not abort does (R41, R46). -/
def commitFiring (s : State) (i : Instr) (o : Operands) (lat : Nat) (f : Fired) : State :=
  let t := s.actor.tile
  let e := s.actor.elem
  let y := s.elem t e
  let s := payCharge s t (costOf (opcodeOf i))
  let s := s.modElem t e fun y' => (deqs i o y).foldl Elem.dequeue y'
  let s := addConv s t e f.conv
  let upd := if f.late && isLoad o.g.upd then [] else updWrites y.core.p f.res o.g.upd
  let s :=
    if lat ≤ 1 then applyWrites (applyWrites s t e f.writes) t e upd
    else if isLoad o.g.upd then addPending s t e lat (f.writes ++ upd)
    else applyWrites (addPending s t e lat f.writes) t e upd
  touchRegion (f.act s) t

/-- The abort of the rule that acts (R54). -/
def abortRule (s : State) (i : Instr) (a : Abort) : State :=
  abortElem s s.actor.tile s.actor.elem s.actor.plane s.actor.slot (opcodeOf i) a.code a.va a.wr

/-- What a firing comes to, or why it aborts: a token with bad parity and POISON first, then the entry's own faults,
then the thresholds. -/
def outcomeOf (s : State) (i : Instr) (o : Operands) (body : Except Abort Fired) : Except Abort Fired :=
  let y := s.elem s.actor.tile s.actor.elem
  if takesBad y (deqs i o y) then .error { code := if takesBadParity y (deqs i o y) then 6 else 5 }
  else match body with
    | .error a => .error a
    | .ok f =>
      match regionAt s s.actor.tile with
      | none => .ok f
      | some r =>
        let k := trips s r y.stroke f.conv
        if k = 0 then .ok f else .error { code := 0x0D, va := k }

/-- The firing of the rule that acts: an illegal slot aborts with 0x0A (R104); a rule whose guard does not hold
does nothing; any other fires or aborts. -/
def fire (i : Instr) (lat : Nat) (s : State) (body : Except Abort Fired) :
    Host.Outcome State Fault Refusal :=
  match i.operands with
  | none => .next s
  | some o =>
    if !slotLegal s s.actor.tile s.actor.elem i then .next (abortRule s i { code := 0x0A })
    else if ready s i o then
      match outcomeOf s i o body with
      | .error a => .next (abortRule s i a)
      | .ok f => .next (commitFiring s i o lat f)
    else .next s

end Sys2Proof.Machine
end

