-- ==== Sys2Proof/Machine/Scalar.lean ====
section
/-! DEFINITION. The element scalar, predicate and control instructions of spec/07_scalar.md, one definition each. -/

namespace Sys2Proof.Machine

/-- What every execution answers. -/
abbrev Result := Host.Outcome State Fault Refusal

/-- A scalar result and its result bit at a destination. -/
def scalarFired (d : Dst) (r : Nat × Bool) : Fired := { writes := scalarRes d r.1, res := r.2 }

/-- A scalar operation of two operands (R111). -/
def scalar2 (i : Instr) (d : Dst) (a b : Src) (f : Nat → Nat → Nat × Bool) (s : State) : Result :=
  let t := s.actor.tile
  let e := s.actor.elem
  fire i 1 s (.ok (scalarFired d (f (readScalar s t e a) (readScalar s t e b))))

/-- A scalar operation of one operand. -/
def scalar1 (i : Instr) (d : Dst) (a : Src) (f : Nat → Nat × Bool) (s : State) : Result :=
  fire i 1 s (.ok (scalarFired d (f (readScalar s s.actor.tile s.actor.elem a))))

/-- IMM12 sign-extended to 32 bits (R89). -/
def immVal (imm : BitVec 12) : Nat := (imm.signExtend 32).toNat

/-- The old value of a scalar destination that is read (R119, R121). -/
def readDst (s : State) (d : Dst) : Nat :=
  match d with
  | .x n => ((s.elem s.actor.tile s.actor.elem).core.x[n]).toNat
  | .w n => ((s.tile s.actor.tile).core.w[n]).toNat
  | .v _ | .acc _ | .discard | .out _ => 0

/-! ### Arithmetic, logic, shifts, extremes (R116 to R118) -/

def execAdd (g : Guard) (d : Dst) (a b : Src) (s : State) : Result :=
  scalar2 (.add g d a b) d a b (Alu.add 32) s

def execSub (g : Guard) (d : Dst) (a b : Src) (s : State) : Result :=
  scalar2 (.sub g d a b) d a b (Alu.sub 32) s

def execMul (g : Guard) (d : Dst) (a b : Src) (s : State) : Result :=
  scalar2 (.mul g d a b) d a b (Alu.mul 32) s

def execMulh (g : Guard) (d : Dst) (a b : Src) (s : State) : Result :=
  scalar2 (.mulh g d a b) d a b (Alu.mulh 32) s

def execMulhn (g : Guard) (d : Dst) (a b : Src) (s : State) : Result :=
  scalar2 (.mulhn g d a b) d a b (Alu.mulhn 32) s

def execAdds (g : Guard) (n : Bool) (d : Dst) (a b : Src) (s : State) : Result :=
  scalar2 (.adds g n d a b) d a b (Alu.adds n 32) s

def execSubs (g : Guard) (n : Bool) (d : Dst) (a b : Src) (s : State) : Result :=
  scalar2 (.subs g n d a b) d a b (Alu.subs n 32) s

def execAnd (g : Guard) (d : Dst) (a b : Src) (s : State) : Result :=
  scalar2 (.and g d a b) d a b (Alu.andB 32) s

def execOr (g : Guard) (d : Dst) (a b : Src) (s : State) : Result :=
  scalar2 (.or g d a b) d a b (Alu.orB 32) s

def execXor (g : Guard) (d : Dst) (a b : Src) (s : State) : Result :=
  scalar2 (.xor g d a b) d a b (Alu.xorB 32) s

def execAndn (g : Guard) (d : Dst) (a b : Src) (s : State) : Result :=
  scalar2 (.andn g d a b) d a b (Alu.andn 32) s

def execShl (g : Guard) (d : Dst) (a b : Src) (s : State) : Result :=
  scalar2 (.shl g d a b) d a b (Alu.shl 32) s

def execShr (g : Guard) (d : Dst) (a b : Src) (s : State) : Result :=
  scalar2 (.shr g d a b) d a b (Alu.shr 32) s

def execSra (g : Guard) (d : Dst) (a b : Src) (s : State) : Result :=
  scalar2 (.sra g d a b) d a b (Alu.sra 32) s

def execRot (g : Guard) (d : Dst) (a b : Src) (s : State) : Result :=
  scalar2 (.rot g d a b) d a b (Alu.rot 32) s

def execMin (g : Guard) (d : Dst) (a b : Src) (s : State) : Result :=
  scalar2 (.min g d a b) d a b (Alu.minS 32) s

def execMax (g : Guard) (d : Dst) (a b : Src) (s : State) : Result :=
  scalar2 (.max g d a b) d a b (Alu.maxS 32) s

def execMinn (g : Guard) (d : Dst) (a b : Src) (s : State) : Result :=
  scalar2 (.minn g d a b) d a b (Alu.minN 32) s

def execMaxn (g : Guard) (d : Dst) (a b : Src) (s : State) : Result :=
  scalar2 (.maxn g d a b) d a b (Alu.maxN 32) s

def execCmp (g : Guard) (rel : Rel) (n : Bool) (d : Dst) (a b : Src) (s : State) : Result :=
  scalar2 (.cmp g rel n d a b) d a b (Alu.cmp rel n 32) s

def execTst (g : Guard) (none1 : Bool) (d : Dst) (a b : Src) (s : State) : Result :=
  scalar2 (.tst g none1 d a b) d a b (Alu.tst none1 32) s

/-- SEL: the selecting predicate is one of the element's own (R118). -/
def execSel (g : Guard) (pid : Fin 8) (d : Dst) (a b : Src) (s : State) : Result :=
  scalar2 (.sel g pid d a b) d a b (Alu.sel ((s.elem s.actor.tile s.actor.elem).core.p.getLsbD pid.val)) s

def execClz (g : Guard) (d : Dst) (a : Src) (s : State) : Result :=
  scalar1 (.clz g d a) d a (Alu.clz 32) s

def execPopc (g : Guard) (d : Dst) (a : Src) (s : State) : Result :=
  scalar1 (.popc g d a) d a (Alu.popc 32) s

def execMov (g : Guard) (d : Dst) (a : Src) (s : State) : Result :=
  scalar1 (.mov g d a) d a (nonZero) s

def execBfx (g : Guard) (n : Bool) (d : Dst) (a b : Src) (s : State) : Result :=
  scalar2 (.bfx g n d a b) d a b (Alu.bfx n 32) s

/-- BFI reads its destination (R119). -/
def execBfi (g : Guard) (d : Dst) (a b : Src) (s : State) : Result :=
  scalar2 (.bfi g d a b) d a b (Alu.bfi 32 (readDst s d)) s

def execCnt (g : Guard) (n : Bool) (d : Dst) (a b : Src) (s : State) : Result :=
  scalar2 (.cnt g n d a b) d a b (Alu.cnt n 32) s

/-! ### Immediate forms (R89, R94): N = 0, sub-function 0 -/

def execAddImm (g : Guard) (d : Dst) (a : Src) (imm : BitVec 12) (s : State) : Result :=
  scalar1 (.addImm g d a imm) d a (fun x => Alu.add 32 x (immVal imm)) s

def execSubImm (g : Guard) (d : Dst) (a : Src) (imm : BitVec 12) (s : State) : Result :=
  scalar1 (.subImm g d a imm) d a (fun x => Alu.sub 32 x (immVal imm)) s

def execMulImm (g : Guard) (d : Dst) (a : Src) (imm : BitVec 12) (s : State) : Result :=
  scalar1 (.mulImm g d a imm) d a (fun x => Alu.mul 32 x (immVal imm)) s

def execMulhImm (g : Guard) (d : Dst) (a : Src) (imm : BitVec 12) (s : State) : Result :=
  scalar1 (.mulhImm g d a imm) d a (fun x => Alu.mulh 32 x (immVal imm)) s

def execMulhnImm (g : Guard) (d : Dst) (a : Src) (imm : BitVec 12) (s : State) : Result :=
  scalar1 (.mulhnImm g d a imm) d a (fun x => Alu.mulhn 32 x (immVal imm)) s

def execAddsImm (g : Guard) (d : Dst) (a : Src) (imm : BitVec 12) (s : State) : Result :=
  scalar1 (.addsImm g d a imm) d a (fun x => Alu.adds false 32 x (immVal imm)) s

def execSubsImm (g : Guard) (d : Dst) (a : Src) (imm : BitVec 12) (s : State) : Result :=
  scalar1 (.subsImm g d a imm) d a (fun x => Alu.subs false 32 x (immVal imm)) s

def execAndImm (g : Guard) (d : Dst) (a : Src) (imm : BitVec 12) (s : State) : Result :=
  scalar1 (.andImm g d a imm) d a (fun x => Alu.andB 32 x (immVal imm)) s

def execOrImm (g : Guard) (d : Dst) (a : Src) (imm : BitVec 12) (s : State) : Result :=
  scalar1 (.orImm g d a imm) d a (fun x => Alu.orB 32 x (immVal imm)) s

def execXorImm (g : Guard) (d : Dst) (a : Src) (imm : BitVec 12) (s : State) : Result :=
  scalar1 (.xorImm g d a imm) d a (fun x => Alu.xorB 32 x (immVal imm)) s

def execAndnImm (g : Guard) (d : Dst) (a : Src) (imm : BitVec 12) (s : State) : Result :=
  scalar1 (.andnImm g d a imm) d a (fun x => Alu.andn 32 x (immVal imm)) s

def execShlImm (g : Guard) (d : Dst) (a : Src) (imm : BitVec 12) (s : State) : Result :=
  scalar1 (.shlImm g d a imm) d a (fun x => Alu.shl 32 x (immVal imm)) s

def execShrImm (g : Guard) (d : Dst) (a : Src) (imm : BitVec 12) (s : State) : Result :=
  scalar1 (.shrImm g d a imm) d a (fun x => Alu.shr 32 x (immVal imm)) s

def execSraImm (g : Guard) (d : Dst) (a : Src) (imm : BitVec 12) (s : State) : Result :=
  scalar1 (.sraImm g d a imm) d a (fun x => Alu.sra 32 x (immVal imm)) s

def execRotImm (g : Guard) (d : Dst) (a : Src) (imm : BitVec 12) (s : State) : Result :=
  scalar1 (.rotImm g d a imm) d a (fun x => Alu.rot 32 x (immVal imm)) s

def execMinImm (g : Guard) (d : Dst) (a : Src) (imm : BitVec 12) (s : State) : Result :=
  scalar1 (.minImm g d a imm) d a (fun x => Alu.minS 32 x (immVal imm)) s

def execMaxImm (g : Guard) (d : Dst) (a : Src) (imm : BitVec 12) (s : State) : Result :=
  scalar1 (.maxImm g d a imm) d a (fun x => Alu.maxS 32 x (immVal imm)) s

def execMinnImm (g : Guard) (d : Dst) (a : Src) (imm : BitVec 12) (s : State) : Result :=
  scalar1 (.minnImm g d a imm) d a (fun x => Alu.minN 32 x (immVal imm)) s

def execMaxnImm (g : Guard) (d : Dst) (a : Src) (imm : BitVec 12) (s : State) : Result :=
  scalar1 (.maxnImm g d a imm) d a (fun x => Alu.maxN 32 x (immVal imm)) s

def execCntImm (g : Guard) (d : Dst) (a : Src) (imm : BitVec 12) (s : State) : Result :=
  scalar1 (.cntImm g d a imm) d a (fun x => Alu.cnt false 32 x (immVal imm)) s

/-- MOVI (R121). -/
def execMovi (g : Guard) (d : Dst) (imm : BitVec 12) (s : State) : Result :=
  fire (.movi g d imm) 1 s (.ok (scalarFired d (nonZero (immVal imm))))

/-- MOVS (R121): the old destination shifted left by 12 bits, and the pattern of the immediate. -/
def execMovs (g : Guard) (d : Dst) (imm : BitVec 12) (s : State) : Result :=
  fire (.movs g d imm) 1 s (.ok (scalarFired d (nonZero ((readDst s d * 2 ^ 12 + imm.toNat) % 2 ^ 32))))

/-! ### Predicates (R124 to R126) -/

/-- PSET: p7 to p0 from the low eight bits. -/
def execPset (g : Guard) (a : Src) (s : State) : Result :=
  let v := readScalar s s.actor.tile s.actor.elem a
  fire (.pset g a) 1 s (.ok { writes := (List.finRange 8).map fun k => .pred k (v.testBit k.val) })

/-- PLOG: the result bit alone, which =p loads. -/
def execPlog (g : Guard) (lop : LogicOp) (pj pk : Fin 8) (s : State) : Result :=
  let p := (s.elem s.actor.tile s.actor.elem).core.p
  fire (.plog g lop pj pk) 1 s (.ok { res := Alu.logic lop (p.getLsbD pj.val) (p.getLsbD pk.val) })

/-- The tile predicate that QSET writes. -/
def setQ (s : State) (t : Nat) (q : Fin 16) (v : Bool) : State :=
  let m := BitVec.ofNat 16 (2 ^ q.val)
  s.modTile t fun x => { x with core := { x.core with q := if v then x.core.q ||| m else x.core.q &&& ~~~m } }

def execQset (g : Guard) (q : Fin 16) (a : Src) (s : State) : Result :=
  let t := s.actor.tile
  let v := readScalar s t s.actor.elem a
  fire (.qset g q a) 1 s (.ok { act := fun s => setQ s t q (v.testBit 0) })

/-! ### Element control (R128 to R132) -/

def execNop (g : Guard) (s : State) : Result := fire (.nop g) 1 s (.ok {})

def haltElem (s : State) (t e : Nat) : State :=
  s.modElem t e fun y => { y with core := { y.core with halted := true } }

/-- HALT, after its predicate update (R129). -/
def execHalt (g : Guard) (s : State) : Result :=
  let t := s.actor.tile
  let e := s.actor.elem
  fire (.halt g) 1 s (.ok { act := fun s => haltElem s t e })

/-- TRAP: 0x0F when the operand is not zero (R130). -/
def execTrap (g : Guard) (a : Src) (s : State) : Result :=
  fire (.trap g a) 1 s (if readScalar s s.actor.tile s.actor.elem a = 0 then .ok {} else .error { code := 0x0F })

/-- A request the region controller keeps with the stroke of the firing that made it (R59, R131, R162). -/
def requestPlane (s : State) (t stroke : Nat) (plane : Option (BitVec 2)) : State :=
  match regionOf s t with
  | none => s
  | some k => s.modRegion k fun r => { r with planeReqs := r.planeReqs ++ [⟨stroke, plane⟩] }

def execPlane (g : Guard) (k4 : Fin 4) (s : State) : Result :=
  let t := s.actor.tile
  let stroke := (s.elem t s.actor.elem).stroke
  fire (.plane g k4) 1 s (.ok { act := fun s => requestPlane s t stroke (some (BitVec.ofNat 2 k4.val)) })

/-- CHGQ: the balance after its own charge of 1 (R132). -/
def execChgq (g : Guard) (d : Dst) (s : State) : Result :=
  fire (.chgq g d) 1 s (.ok (scalarFired d (nonZero (((s.tile s.actor.tile).balance - 1) % 2 ^ 32))))

end Sys2Proof.Machine
end

