-- ==== Sys2Proof/Machine/Vector.lean ====
section
/-! DEFINITION. The element vector instructions of spec/08_vector.md, one definition each, over the pure operations
of Lanes. -/

namespace Sys2Proof.Machine

/-- A vector result with its conversion events. -/
def vectorFired (d : Dst) (r : Nat × Conv) : Fired := { writes := vectorRes d r.1, conv := r.2 }

/-- A vector source read in a lane format. -/
def readLanes (s : State) (fmt : Fmt) (a : Src) : Nat :=
  readVector s s.actor.tile s.actor.elem (Lanes.laneOperand fmt) a

/-- A vector source read by lane width. -/
def readWide (s : State) (lw : LaneW) (a : Src) : Nat :=
  readVector s s.actor.tile s.actor.elem (Lanes.laneOperandW (Lanes.laneBits lw)) a

def readS (s : State) (a : Src) : Nat := readScalar s s.actor.tile s.actor.elem a

/-- A vector register, and an accumulator, of the acting element. -/
def vReg (s : State) (n : Fin 8) : Nat := ((s.elem s.actor.tile s.actor.elem).core.v[n]).toNat
def aReg (s : State) (n : Fin 4) : Nat := ((s.elem s.actor.tile s.actor.elem).core.a[n]).toNat

def next8 (n : Fin 8) : Fin 8 := fin 8 (n.val + 1)
def next4 (n : Fin 4) : Fin 4 := fin 4 (n.val + 1)

/-- The values of a source: an accumulator's sixteen FP32 lanes, or the lanes of a vector (R133). -/
def srcValues (s : State) (fmt : Fmt) (a : Src) : List Num :=
  match a with
  | .acc n => Lanes.accValues (aReg s n)
  | a => Lanes.values fmt (readLanes s fmt a)

/-- The lanes of a register pair (R151, R152). -/
def pairValues (s : State) (fmt : Fmt) (a : Src) : List Num :=
  match a with
  | .v n => Lanes.values fmt (vReg s n) ++ Lanes.values fmt (vReg s (next8 n))
  | .acc n => Lanes.accValues (aReg s n) ++ Lanes.accValues (aReg s (next4 n))
  | _ => []

/-- A result of one format split over a register pair (R151, R153). -/
def pairRes (d : Dst) (fmt : Fmt) (xs : List Num) : Fired :=
  match d with
  | .v n =>
    let h := Lanes.count fmt
    let lo := Lanes.encodeRne fmt (xs.take h)
    let hi := Lanes.encodeRne fmt (xs.drop h)
    { writes := [.v n (BitVec.ofNat 256 lo.1), .v (next8 n) (BitVec.ofNat 256 hi.1)], conv := lo.2.add hi.2 }
  | .acc n =>
    let lo := Lanes.encodeRne .fp32 (xs.take 16)
    let hi := Lanes.encodeRne .fp32 (xs.drop 16)
    { writes := [.acc n (BitVec.ofNat 512 lo.1), .acc (next4 n) (BitVec.ofNat 512 hi.1)], conv := lo.2.add hi.2 }
  | _ => {}

/-- The random word of a lane under a rounding mode (R28). -/
def srkRand (s : State) (rnd : Rnd) : Nat → Nat :=
  let t := s.actor.tile
  let e := s.actor.elem
  if rnd = .srk then
    let seed := seedOf s t
    let l := lidxOf s t e
    let seq := (s.elem t e).core.seq.toNat
    fun k => srkWord seed l k seq
  else fun _ => 0

/-- A firing under .srk advances SEQ by one (R149). -/
def stepSeq (rnd : Rnd) (t e : Nat) (s : State) : State :=
  if rnd = .srk then s.modElem t e fun y => { y with core := { y.core with seq := y.core.seq + 1 } } else s

/-- A conversion's writes, with SEQ advanced where it rounds by .srk. -/
def convFired (s : State) (rnd : Rnd) (writes : List PWrite) (c : Conv) : Fired :=
  { writes := writes, conv := c, act := stepSeq rnd s.actor.tile s.actor.elem }

/-- The result of an encode at a vector register, an accumulator or a channel. -/
def encodedRes (d : Dst) (v : Nat) : List PWrite := vectorRes d v ++ accRes d v

/-! ### Arithmetic (R138, R139) -/

def execVadd (g : Guard) (fmt : Fmt) (d : Dst) (a b : Src) (s : State) : Result :=
  fire (.vadd g fmt d a b) 1 s (.ok (vectorFired d (Lanes.binary Num.add fmt (readLanes s fmt a) (readLanes s fmt b))))

def execVsub (g : Guard) (fmt : Fmt) (d : Dst) (a b : Src) (s : State) : Result :=
  fire (.vsub g fmt d a b) 1 s (.ok (vectorFired d (Lanes.binary Num.sub fmt (readLanes s fmt a) (readLanes s fmt b))))

def execVmul (g : Guard) (fmt : Fmt) (d : Dst) (a b : Src) (s : State) : Result :=
  fire (.vmul g fmt d a b) 1 s (.ok (vectorFired d (Lanes.binary Num.mul fmt (readLanes s fmt a) (readLanes s fmt b))))

def execVmax (g : Guard) (fmt : Fmt) (d : Dst) (a b : Src) (s : State) : Result :=
  fire (.vmax g fmt d a b) 1 s (.ok (vectorFired d (Lanes.binary Num.max fmt (readLanes s fmt a) (readLanes s fmt b))))

def execVmin (g : Guard) (fmt : Fmt) (d : Dst) (a b : Src) (s : State) : Result :=
  fire (.vmin g fmt d a b) 1 s (.ok (vectorFired d (Lanes.binary Num.min fmt (readLanes s fmt a) (readLanes s fmt b))))

def execVclamp (g : Guard) (fmt : Fmt) (d : Dst) (a b : Src) (s : State) : Result :=
  fire (.vclamp g fmt d a b) 1 s (.ok (vectorFired d (Lanes.binary Lanes.clampNum fmt (readLanes s fmt a) (readLanes s fmt b))))

def execVabs (g : Guard) (fmt : Fmt) (d : Dst) (a : Src) (s : State) : Result :=
  fire (.vabs g fmt d a) 1 s (.ok (vectorFired d (Lanes.unary Num.abs fmt (readLanes s fmt a))))

def execVneg (g : Guard) (fmt : Fmt) (d : Dst) (a : Src) (s : State) : Result :=
  fire (.vneg g fmt d a) 1 s (.ok (vectorFired d (Lanes.unary Num.neg fmt (readLanes s fmt a))))

/-- c + a * b or c - a * b by destination (R139). -/
def fmaFired (s : State) (minus : Bool) (fmt : Fmt) (d : Dst) (a b : Nat) : Fired :=
  match d with
  | .acc n =>
    let r := Lanes.fmaAcc minus fmt (aReg s n) a b
    { writes := [.acc n (BitVec.ofNat 512 r.1)], conv := r.2 }
  | .v n => vectorFired d (Lanes.fma minus fmt (Lanes.values fmt (vReg s n)) a b)
  | d => vectorFired d (Lanes.fma minus fmt (List.replicate (Lanes.count fmt) .zero) a b)

def execVfma (g : Guard) (fmt : Fmt) (d : Dst) (a b : Src) (s : State) : Result :=
  fire (.vfma g fmt d a b) 2 s (.ok (fmaFired s false fmt d (readLanes s fmt a) (readLanes s fmt b)))

def execVfms (g : Guard) (fmt : Fmt) (d : Dst) (a b : Src) (s : State) : Result :=
  fire (.vfms g fmt d a b) 2 s (.ok (fmaFired s true fmt d (readLanes s fmt a) (readLanes s fmt b)))

/-! ### Functions (R140) -/

def execVrcp (g : Guard) (fmt : Fmt) (d : Dst) (a : Src) (s : State) : Result :=
  fire (.vrcp g fmt d a) 4 s
    (.ok (vectorFired d (Lanes.function (some ∘ Num.recip) (Config.openLane 0x50) fmt (readLanes s fmt a))))

def execVrsq (g : Guard) (fmt : Fmt) (d : Dst) (a : Src) (s : State) : Result :=
  fire (.vrsq g fmt d a) 4 s
    (.ok (vectorFired d (Lanes.function (some ∘ Num.rsqrt) (Config.openLane 0x51) fmt (readLanes s fmt a))))

def execVsqrt (g : Guard) (fmt : Fmt) (d : Dst) (a : Src) (s : State) : Result :=
  fire (.vsqrt g fmt d a) 4 s
    (.ok (vectorFired d (Lanes.function (some ∘ Num.sqrt) (Config.openLane 0x52) fmt (readLanes s fmt a))))

def execVexp2 (g : Guard) (fmt : Fmt) (d : Dst) (a : Src) (s : State) : Result :=
  fire (.vexp2 g fmt d a) 4 s
    (.ok (vectorFired d (Lanes.function Num.exp2 (Config.openLane 0x53) fmt (readLanes s fmt a))))

def execVlog2 (g : Guard) (fmt : Fmt) (d : Dst) (a : Src) (s : State) : Result :=
  fire (.vlog2 g fmt d a) 4 s
    (.ok (vectorFired d (Lanes.function Num.log2 (Config.openLane 0x54) fmt (readLanes s fmt a))))

def execVtanh (g : Guard) (fmt : Fmt) (d : Dst) (a : Src) (s : State) : Result :=
  fire (.vtanh g fmt d a) 4 s
    (.ok (vectorFired d (Lanes.function Num.tanh (Config.openLane 0x55) fmt (readLanes s fmt a))))

/-! ### Reductions (R37, R141) -/

/-- An FP32 result at a scalar destination, or in lane 0 of a vector one. -/
def reduceFired (d : Dst) (r : Nat × Conv) : Fired := { writes := tokenRes d (BitVec.ofNat 256 r.1) 0, conv := r.2 }

def execVred (g : Guard) (kind : RedKind) (fmt : Fmt) (d : Dst) (a : Src) (s : State) : Result :=
  fire (.vred g kind fmt d a) 2 s (.ok (reduceFired d (Lanes.reduce kind (srcValues s fmt a))))

def execVamax (g : Guard) (fmt : Fmt) (d : Dst) (a : Src) (s : State) : Result :=
  fire (.vamax g fmt d a) 2 s (.ok (reduceFired d (Lanes.reduce .max ((srcValues s fmt a).map Num.abs))))

/-! ### Compare, select, logic, shift (R142 to R144) -/

def execVcmp (g : Guard) (fmt : Fmt) (d : Dst) (a b : Src) (s : State) : Result :=
  fire (.vcmp g fmt d a b) 1 s (.ok { writes := vectorRes d (Lanes.compare fmt (readLanes s fmt a) (readLanes s fmt b)) })

/-- The old value of a vector destination that is read. -/
def readVDst (s : State) (d : Dst) : Nat :=
  match d with
  | .v n => vReg s n
  | _ => 0

def execVsel (g : Guard) (lw : LaneW) (vtest : VTest) (d : Dst) (a b : Src) (s : State) : Result :=
  fire (.vsel g lw vtest d a b) 1 s
    (.ok { writes := vectorRes d (Lanes.select lw vtest (readVDst s d) (readWide s lw a) (readWide s lw b)) })

def execVlog (g : Guard) (vlop : VLogOp) (d : Dst) (a b : Src) (s : State) : Result :=
  fire (.vlog g vlop d a b) 1 s
    (.ok { writes := vectorRes d (Lanes.logic vlop (readWide s .w32 a) (readWide s .w32 b)) })

def execVsh (g : Guard) (lw : LaneW) (shop : ShOp) (d : Dst) (a b : Src) (s : State) : Result :=
  fire (.vsh g lw shop d a b) 1 s (.ok { writes := vectorRes d (Lanes.shift lw shop (readWide s lw a) (readS s b)) })

/-! ### Lane movement (R145 to R148) -/

/-- VBCST: 0x0B outside a replicate element (R62). -/
def execVbcst (g : Guard) (fmt : Fmt) (d : Dst) (a : Src) (s : State) : Result :=
  fire (.vbcst g fmt d a) 1 s
    (if (s.elem s.actor.tile s.actor.elem).replicate then .ok { writes := vectorRes d (Lanes.broadcast fmt (readS s a)) }
     else .error { code := 0x0B })

def execVext (g : Guard) (fmt : Fmt) (d : Dst) (a b : Src) (s : State) : Result :=
  fire (.vext g fmt d a b) 1 s (.ok (scalarFired d (nonZero (Lanes.extract fmt (readLanes s fmt a) (readS s b)))))

def execVins (g : Guard) (fmt : Fmt) (d : Dst) (a b : Src) (s : State) : Result :=
  fire (.vins g fmt d a b) 1 s
    (.ok { writes := vectorRes d (Lanes.insert fmt (readVDst s d) (readS s a) (readS s b)) })

def execViota (g : Guard) (fmt : Fmt) (d : Dst) (a b : Src) (s : State) : Result :=
  fire (.viota g fmt d a b) 1 s (.ok (vectorFired d (Lanes.iota fmt (readS s a) (readS s b))))

def execVshuf (g : Guard) (lw : LaneW) (d : Dst) (a b : Src) (s : State) : Result :=
  fire (.vshuf g lw d a b) 1 s (.ok { writes := vectorRes d (Lanes.shuffle lw (readWide s lw a) (readWide s lw b)) })

/-! ### Conversion (R149 to R153) -/

def execVcvt (g : Guard) (df sf : Fmt) (rnd : Rnd) (d : Dst) (a : Src) (s : State) : Result :=
  let r := Lanes.encodeAll df rnd (srkRand s rnd) (srcValues s sf a)
  fire (.vcvt g df sf rnd d a) 1 s (.ok (convFired s rnd (encodedRes d r.1) r.2))

def execVpack (g : Guard) (df sf : Fmt) (rnd : Rnd) (d : Dst) (a : Src) (s : State) : Result :=
  let r := Lanes.encodeAll df rnd (srkRand s rnd) (pairValues s sf a)
  fire (.vpack g df sf rnd d a) 1 s (.ok (convFired s rnd (encodedRes d r.1) r.2))

def execVunpk (g : Guard) (df sf : Fmt) (rnd : Rnd) (d : Dst) (a : Src) (s : State) : Result :=
  fire (.vunpk g df sf rnd d a) 1 s (.ok (pairRes d df (Lanes.values sf (readLanes s sf a))))

/-- VQNT writes the codes to vN and the scales to scN (R152). -/
def execVqnt (g : Guard) (df sf : Fmt) (rnd : Rnd) (d : Dst) (a : Src) (s : State) : Result :=
  let r := Lanes.quantize df rnd (srkRand s rnd) (pairValues s sf a)
  let sc : List PWrite := match d with
    | .v n => [.sc n (BitVec.ofNat 32 r.2.1)]
    | _ => []
  fire (.vqnt g df sf rnd d a) 2 s (.ok (convFired s rnd (vectorRes d r.1 ++ sc) r.2.2))

/-- The scales of a VDQNT source: scN of vN; of a channel the binding's scale register, or 1.0 (R153).  R153 gives the
special operands no scale: theirs is a free value (log entry 97). -/
def dqntScale (s : State) (a : Src) : Nat :=
  let y := s.elem s.actor.tile s.actor.elem
  match a with
  | .v n => (y.core.sc[n]).toNat
  | .chan c _ =>
    let b := y.inBind c.val
    if bindScen b then (y.core.sc[fin 8 (bindSc b)]).toNat else 0x7F7F
  | _ => Config.freeNat s.free % 2 ^ 16

def execVdqnt (g : Guard) (df sf : Fmt) (rnd : Rnd) (d : Dst) (a : Src) (s : State) : Result :=
  let xs := Lanes.scaledValues sf (readLanes s sf a) (dqntScale s a)
  let h := match d with
    | .acc _ => 16
    | _ => Lanes.count df
  let lo := Lanes.encodeAll df rnd (srkRand s rnd) (xs.take h)
  let hi := Lanes.encodeAll df rnd (fun k => srkRand s rnd (k + h)) (xs.drop h)
  let writes : List PWrite := match d with
    | .v n => [.v n (BitVec.ofNat 256 lo.1), .v (next8 n) (BitVec.ofNat 256 hi.1)]
    | .acc n => [.acc n (BitVec.ofNat 512 lo.1), .acc (next4 n) (BitVec.ofNat 512 hi.1)]
    | _ => []
  let f := convFired s rnd writes (lo.2.add hi.2)
  fire (.vdqnt g df sf rnd d a) 2 s (.ok (if a.isV || a.isChan then f else
    { f with act := fun s => f.act { s with free := s.free + 1 } }))

/-! ### Random numbers, dropout, accumulators, corner turns (R154 to R157) -/

def execVrng (g : Guard) (rk : Fin 4) (d : Dst) (a b : Src) (s : State) : Result :=
  fire (.vrng g rk d a b) 2 s
    (.ok { writes := vectorRes d (Lanes.random rk (seedOf s s.actor.tile) (readS s a) (readS s b)) })

def execVdrop (g : Guard) (fmt : Fmt) (d : Dst) (a b : Src) (s : State) : Result :=
  let y := s.elem s.actor.tile s.actor.elem
  fire (.vdrop g fmt d a b) 2 s
    (.ok (vectorFired d (Lanes.drop fmt (seedOf s s.actor.tile) (y.core.x[14]).toNat (y.core.x[15]).toNat
      (readLanes s fmt a) (readS s b))))

def execVacc (g : Guard) (fmt : Fmt) (d : Dst) (a : Src) (s : State) : Result :=
  let f : Fired := match d with
    | .acc n =>
      let r := Lanes.accumulate (aReg s n) (Lanes.values fmt (readLanes s fmt a))
      { writes := [.acc n (BitVec.ofNat 512 r.1)], conv := r.2 }
    | _ => {}
  fire (.vacc g fmt d a) 2 s (.ok f)

/-- One CTURN firing on its unit: the unit after it, and the column that leaves with its tag (R157). -/
def turnStep (u : Turn) (n w : Nat) (row : Option Nat) : Turn × Option (Nat × BitVec 2) :=
  let fill := match row with
    | some r => u.fill ++ [BitVec.ofNat 256 r]
    | none => u.fill
  let out := if u.drain.isEmpty then none
    else some (Lanes.pack w (u.drain.map fun r => Lanes.lane w r.toNat u.col), if u.col + 1 = n then (1 : BitVec 2) else 0)
  let u1 : Turn := if u.drain.isEmpty then ⟨fill, [], u.col⟩
    else if u.col + 1 = n then ⟨fill, [], 0⟩ else ⟨fill, u.drain, u.col + 1⟩
  let u2 : Turn := if u1.fill.length = n ∧ u1.drain = [] then ⟨[], u1.fill, 0⟩ else u1
  (u2, out)

def setTurn (s : State) (t e : Nat) (u : Turn) : State :=
  s.modElem t e fun y => { y with core := { y.core with turn := u } }

def execCturn (g : Guard) (lw : LaneW) (d : Dst) (a : Src) (s : State) : Result :=
  let t := s.actor.tile
  let e := s.actor.elem
  let w := Lanes.laneBits lw
  let row := if a = .zero then none else some (readWide s lw a)
  let r := turnStep (s.elem t e).core.turn (256 / w) w row
  let writes := match r.2 with
    | some (col, tag) => tokenRes d (BitVec.ofNat 256 col) tag
    | none => []
  fire (.cturn g lw d a) 1 s (.ok { writes := writes, act := fun s => setTurn s t e r.1 })

end Sys2Proof.Machine
end

