-- ==== Sys2Proof/Machine/TokenOps.lean ====
section
/-! DEFINITION. The token, mark, merge and ring instructions of spec/09_tokens_memory.md (R159 to R166, R179),
and cistern writes with their undo log (R178, R180). -/

namespace Sys2Proof.Machine

/-! ### Moving and tagging (R159 to R161) -/

def readTok (s : State) (a : Src) : V256 × BitVec 2 := readToken s s.actor.tile s.actor.elem a

def execFwd (g : Guard) (d : Dst) (a b : Src) (s : State) : Result :=
  let k := readTok s a
  let writes := match a with
    | .acc n => accRes d (aReg s n)
    | _ => tokenRes d k.1 k.2
  fire (.fwd g d a b) 1 s (.ok { writes := writes })

def execDeq (g : Guard) (a : Src) (bo : Option Src) (s : State) : Result :=
  fire (.deq g a bo) 1 s (.ok { res := (readTok s a).2 == 1 })

def execTag (g : Guard) (tagv : Fin 3) (d : Dst) (a : Src) (s : State) : Result :=
  fire (.tag g tagv d a) 1 s (.ok { writes := tokenRes d (readTok s a).1 (BitVec.ofNat 2 tagv.val) })

/-! ### Steer and merges (R164 to R166) -/

def stepSteer (s : State) (t e : Nat) : State :=
  s.modElem t e fun y => { y with core := { y.core with idx := y.core.idx + 1, out := y.core.out + 1 } }

def execSteer (g : Guard) (d : Dst) (a b : Src) (s : State) : Result :=
  let t := s.actor.tile
  let e := s.actor.elem
  let k := readTok s a
  let arm := readS s b % 2
  let idx := (s.elem t e).core.idx
  let writes := match d with
    | .out n => [PWrite.out (fin 16 (n.val + arm)) ⟨k.1, k.2, 0⟩,
        .out (fin 16 (n.val + 2 + arm)) ⟨BitVec.ofNat 256 idx.toNat, 0, 0⟩]
    | _ => []
  fire (.steer g d a b) 1 s (.ok { writes := writes, act := fun s => stepSteer s t e })

/-- One credit pulse on every ordering-plane output of an element, to the paired STEER (R164, R165). -/
def sendCredits (s : State) (t e : Nat) : State :=
  ((List.range 16).filter fun c => bindV ((s.elem t e).outBind c) && bindPlane ((s.elem t e).outBind c) == 2).foldl
    (fun s c => match targetOf t ((s.elem t e).outBind c) with
      | .chan t' e' _ => s.modElem t' e' fun y => { y with core := { y.core with out := y.core.out - 1 } }
      | _ => s) s

def stepMerge (s : State) (t e : Nat) : State :=
  sendCredits (s.modElem t e fun y => { y with core := { y.core with exp := y.core.exp + 1 } }) t e

def execMrgo (g : Guard) (d : Dst) (a b : Src) (s : State) : Result :=
  let t := s.actor.tile
  let e := s.actor.elem
  let y := s.elem t e
  let writes := match readyArm y a b with
    | some (r, _) => (match y.head r with
      | some k => tokenRes d k.data k.tag
      | none => [])
    | none => []
  fire (.mrgo g d a b) 1 s (.ok { writes := writes, act := fun s => stepMerge s t e })

def setLastA (s : State) (t e : Nat) (v : Bool) : State :=
  s.modElem t e fun y => { y with core := { y.core with lastA := v } }

def execMrga (g : Guard) (d : Dst) (a b : Src) (s : State) : Result :=
  let t := s.actor.tile
  let e := s.actor.elem
  match mrgaPick (s.elem t e) a b with
  | some c =>
    let k := readTok s c
    fire (.mrga g d a b) 1 s (.ok { writes := tokenRes d k.1 k.2, act := fun s => setLastA s t e (c == a) })
  | none => fire (.mrga g d a b) 1 s (.ok {})

/-! ### Marks (R162) -/

def requestStroke (s : State) (t : Nat) : State :=
  match regionOf s t with
  | none => s
  | some k => s.modRegion k fun r => { r with strokeReq := true }

def requestFreeze (s : State) (t : Nat) : State :=
  match regionOf s t with
  | none => s
  | some k => s.modRegion k fun r => { r with freezeReq := true, reloadFreeze := false }

def execMarkStroke (g : Guard) (s : State) : Result :=
  let t := s.actor.tile
  fire (.markStroke g) 1 s (.ok { act := fun s => requestStroke s t })

def execMarkDrain (g : Guard) (s : State) : Result :=
  let t := s.actor.tile
  let stroke := (s.elem t s.actor.elem).stroke
  fire (.markDrain g) 1 s (.ok { act := fun s => requestPlane s t stroke none })

def execMarkFreeze (g : Guard) (s : State) : Result :=
  let t := s.actor.tile
  fire (.markFreeze g) 1 s (.ok { act := fun s => requestFreeze s t })

/-! ### Token barriers and what has passed them (R302, R303, R306) -/

/-- The elements of a region that hold a configuration: tile and element. -/
def regionElems (s : State) (r : Region) : List (Nat × Nat) :=
  r.sites.flatMap fun t => (s.tile t).elems.map fun p => (t, p.1)

/-- Whether a channel is a back channel of the region (R302). -/
def isBack (s : State) (t e c : Nat) : Bool :=
  match regionAt s t with
  | none => false
  | some r => r.back.contains (t, e, c)

/-- The inputs an element aligns over (R57, R302). -/
def alignedInputs (s : State) (t e : Nat) : List Nat := (s.elem t e).inputs.filter fun c => !isBack s t e c

/-- The BARRIERs that one sink of an element has reported: at an output that leaves the region, or at an element
with no output (R303). -/
def sinkReports (s : State) (t e : Nat) : List Nat :=
  let y := s.elem t e
  let entry := (alignedInputs s t e).isEmpty
  let ext := y.outputs.filter fun c => bindExt (y.outBind c)
  if y.outputs.isEmpty then (if entry then [] else [y.core.barOut])
  else ext.map fun c => if entry then kget y.core.barIn (16 + c) 0 else y.core.barOut

/-- How many token barriers a region has passed: what every sink has reported. -/
def barriersPassed (s : State) (r : Region) : Nat :=
  let reports := (regionElems s r).flatMap fun p => sinkReports s p.1 p.2
  reports.foldl min (reports.headD 0)

/-- The region controller notes a barrier passed, with the stroke its last sink reported in (R306). -/
def notePassed (s : State) (k stroke : Nat) : State :=
  match s.region k with
  | none => s
  | some r =>
    let n := barriersPassed s r
    if r.passed < n then
      s.setRegion k { r with passed := n, passedAt := r.passedAt ++ List.replicate (n - r.passed) stroke }
    else s

/-- MARK.barrier counts what an entry element has sent on each output; an output that leaves the region reports it
(R303). -/
def countBarrier (s : State) (t e c : Nat) : State :=
  let s := s.modElem t e fun y =>
    { y with core := { y.core with barIn := kput y.core.barIn (16 + c) (kget y.core.barIn (16 + c) 0 + 1) } }
  match regionOf s t with
  | none => s
  | some k => notePassed s k (s.elem t e).stroke

def execMarkBarrier (g : Guard) (d : Dst) (s : State) : Result :=
  let t := s.actor.tile
  let e := s.actor.elem
  let c := match d with
    | .out c => c.val
    | _ => 0
  fire (.markBarrier g d) 1 s (.ok { writes := tokenRes d 3 3, act := fun s => countBarrier s t e c })

def execMarkCut (g : Guard) (d : Dst) (a : Src) (s : State) : Result :=
  fire (.markCut g d a) 1 s (.ok { writes := tokenRes d (BitVec.ofNat 256 (4 + readS s a * 2 ^ 32)) 3 })

/-! ### Cistern (R178 to R180) -/

def cisternSize : Nat := 0x40000

def cisternRead (x : Tile) (off len : Nat) : Nat := natOf (x.cistern.reads off len)

/-- Whether bytes of the cistern lie in a granule whose ECC is uncorrectable (R384). -/
def Tile.badAt (x : Tile) (off len : Nat) : Bool := x.badCistern.any fun g => overlaps off len (8 * g) 8

/-- A rule that reads the cistern aborts with 0x06 where its ECC is uncorrectable (R384, R386). -/
def cisternBody (x : Tile) (off len : Nat) (f : Fired) : Except Abort Fired :=
  if x.badAt off len then .error { code := 6 } else .ok f

/-- The granules that a write of whole granules makes good again. -/
def Tile.mend (off len : Nat) (x : Tile) : Tile :=
  { x with badCistern := x.badCistern.filter fun g => !(decide (off ≤ 8 * g) && decide (8 * g + 8 ≤ off + len)) }

/-- Bytes written to a tile's cistern, the old ones logged for undo under the stroke of the writer. -/
def cisternWrite (s : State) (t e off : Nat) (bs : List Byte) : State :=
  let stroke := (s.elem t e).stroke
  s.modTile t fun x => { x.mend off bs.length with
    undo := x.undo ++ [⟨stroke, off, x.cistern.reads off bs.length, undoSize bs.length⟩]
    cistern := x.cistern.writes off bs }

/-- Size and place of a ring slot (R110). -/
def Ring.slotBytes (r : Ring) : Nat := 2 ^ (r.ssize.toNat + 2)
def Ring.slotAt (r : Ring) (k : Nat) : Nat := r.base.toNat * 32 + k * r.slotBytes
def Ring.getSlot (r : Ring) : Nat := (r.put.toNat + r.slots.toNat - r.filled.toNat) % r.slots.toNat

def Ring.afterPut (r : Ring) : Ring :=
  { r with put := BitVec.ofNat 13 ((r.put.toNat + 1) % r.slots.toNat), free := r.free - 1, filled := r.filled + 1 }
def Ring.afterGet (r : Ring) : Ring := { r with free := r.free + 1, filled := r.filled - 1 }

def setRing (s : State) (t : Nat) (n : Fin 8) (r : Ring) : State :=
  s.modTile t fun x => { x with core := { x.core with rings := x.core.rings.set n r } }

def putRing (s : State) (t e : Nat) (n : Fin 8) (data : Nat) : State :=
  let r := (s.tile t).core.rings[n]
  setRing (cisternWrite s t e (r.slotAt r.put.toNat) (byteList r.slotBytes data)) t n r.afterPut

/-- CRGET (R179): the slot at GET; tags are not stored. -/
def execCrget (g : Guard) (ring : Fin 8) (d : Dst) (s : State) : Result :=
  let t := s.actor.tile
  let r := (s.tile t).core.rings[ring]
  let off := r.slotAt r.getSlot
  let len := min r.slotBytes 32
  let v := cisternRead (s.tile t) off len
  fire (.crget g ring d) 2 s (cisternBody (s.tile t) off len
    { writes := tokenRes d (BitVec.ofNat 256 v) 0, act := fun s => setRing s t ring r.afterGet })

/-- CRPUT (R179). -/
def execCrput (g : Guard) (ring : Fin 8) (a : Src) (s : State) : Result :=
  let t := s.actor.tile
  let e := s.actor.elem
  let v := (readTok s a).1.toNat
  fire (.crput g ring a) 1 s (.ok { act := fun s => putRing s t e ring v })

end Sys2Proof.Machine
end

