-- ==== Sys2Proof/Machine/FabricMem.lean ====
section
/-! DEFINITION. The element memory instructions of spec/09_tokens_memory.md: translation and address generators
(R167 to R171), loads and stores (R172 to R177), the cistern (R178) and owner updates (R181, R182). -/

namespace Sys2Proof.Machine

/-! ### Requests -/

/-- A request put into its slot; a destination channel's slot is held for the answer. -/
def startRequest (s : State) (t e : Nat) (q : MemReq) : State :=
  let s := { s with nextId := s.nextId + 1 }
  let q := { q with id := s.nextId - 1, plane := s.actor.plane, slot := s.actor.slot }
  let s := s.modElem t e fun y => { y with reqs := y.reqs ++ [{ q with stroke := y.stroke }] }
  match q.dst with
  | .out c => holdOut s t e c.val (· + 1)
  | _ => s

/-- The exact effective address (R169): VA and the signed offset. -/
def effective (s : State) (a : AddrTok) (b : Src) : Int := (a.va : Int) + toSigned 32 (readS s b)

/-- Address bits [1:0] ignored (R175). -/
def wordAligned (x : Int) : Int := x / 4 * 4

/-- The address token an operand holds. -/
def readAddr (s : State) (a : Src) : AddrTok := addrTok (readVector s s.actor.tile s.actor.elem 0 a)

/-- The alias class of the acting slot. -/
def actorClass (s : State) : Nat :=
  match regionAt s s.actor.tile with
  | none => 0
  | some r => aliasOf r s.actor.tile s.actor.elem s.actor.plane s.actor.slot

/-- A load's firing: a fault, or a request whose pages are known or still to be walked (R169, R172, R177). -/
def loadFired (s : State) (kind : ReqKind) (fe : Bool) (d : Dst) (len : Nat) (a : AddrTok) (ea : Int)
    (upd : Option Upd) : Except Abort Fired :=
  let t := s.actor.tile
  let e := s.actor.elem
  let q : MemReq :=
    { id := 0, kind := kind, va := ea.toNat, len := len, dst := d, pred := loadPred upd, cls := actorClass s }
  match atFiring s t e (ctxAt s t) a ea len { write := false, fe := fe } with
  | .fault c va => .error { code := c, va := va }
  | .pages ps => .ok { late := true, act := fun s => startRequest s t e { q with pages := ps, walked := true } }
  | .walk => .ok { late := true, act := fun s => startRequest s t e q }

/-- The firing of a variable-latency load (R172). -/
def fireLoad (i : Instr) (s : State) (kind : ReqKind) (fe : Bool) (d : Dst) (len : Nat) (a : Src) (ea : Int) : Result :=
  let upd := match i.operands with
    | some o => o.g.upd
    | none => none
  fire i 1 s (loadFired s kind fe d len (readAddr s a) ea upd)

def execLd (g : Guard) (mw : MemW) (n : Bool) (d : Dst) (a b : Src) (s : State) : Result :=
  fireLoad (.ld g mw n d a b) s (.load mw n) false d (accessBytes mw) a (effective s (readAddr s a) b)

def execVld (g : Guard) (d : Dst) (a b : Src) (s : State) : Result :=
  fireLoad (.vld g d a b) s .vload false d 32 a (effective s (readAddr s a) b)

def execLds (g : Guard) (d : Dst) (a b : Src) (s : State) : Result :=
  fireLoad (.lds g d a b) s .lds true d 4 a (wordAligned (effective s (readAddr s a) b))

def execLdc (g : Guard) (d : Dst) (a b : Src) (s : State) : Result :=
  fireLoad (.ldc g d a b) s .ldc true d 4 a (wordAligned (effective s (readAddr s a) b))

/-! ### Stores (R173, R175) -/

/-- A store placed in the open stroke store buffer of its element. -/
def bufferStore (s : State) (t e cls : Nat) (va : Nat) (data : List Byte) (pages : List Page) (walk stf : Bool) :
    State :=
  match regionOf s t with
  | none => s
  | some k =>
    let stroke := (s.elem t e).stroke
    let id := s.nextId
    let s := if walk then
      startRequest s t e
        { id := 0, kind := .store, va := va, len := data.length, dst := .discard, cls := cls }
      else { s with nextId := s.nextId + 1 }
    s.modRegion k fun r => { r with stores := r.stores ++ [{
      id := id, tile := t, elem := e, cls := cls, stroke := stroke, va := va, data := data
      units := storeUnits va data.length, pages := pages, walk := walk, stf := stf }] }

def storeFired (s : State) (data : List Byte) (stf : Bool) (a : AddrTok) (ea : Int) : Except Abort Fired :=
  let t := s.actor.tile
  let e := s.actor.elem
  let cls := actorClass s
  match atFiring s t e (ctxAt s t) a ea data.length { write := true, fe := stf } with
  | .fault c va => .error { code := c, va := va, wr := true }
  | .pages ps => .ok { act := fun s => bufferStore s t e cls ea.toNat data ps false stf }
  | .walk => .ok { act := fun s => bufferStore s t e cls ea.toNat data [] true stf }

def execSt (g : Guard) (mw : MemW) (n : Bool) (a b : Src) (s : State) : Result :=
  let k := readAddr s a
  fire (.st g mw n a b) 1 s (storeFired s (byteList (accessBytes mw) (readS s b)) false k k.va)

def execVst (g : Guard) (a b : Src) (s : State) : Result :=
  let k := readAddr s a
  fire (.vst g a b) 1 s (storeFired s (byteList 32 (readVector s s.actor.tile s.actor.elem 0 b)) false k k.va)

def execStf (g : Guard) (a b : Src) (s : State) : Result :=
  let k := readAddr s a
  fire (.stf g a b) 1 s (storeFired s (byteList 4 (readS s b)) true k (wordAligned k.va))

/-! ### XLAT and AGEN (R168, R170) -/

/-- A translated copy of an address token. -/
def AddrTok.translated (a : AddrTok) (p : Page) (epoch : Nat) : AddrTok :=
  { a with pa := p.paOf a.va, t := true, wr := p.w, fe := p.fe, ht := p.ht, cmp := p.cmp, ps := psOf p.log2,
           epoch := epoch, fcode := 0 }

/-- A fault token (R168). -/
def AddrTok.faulty (a : AddrTok) (code : Nat) : AddrTok := { a with t := false, fcode := code }

def AddrTok.data (a : AddrTok) : V256 := BitVec.ofNat 256 a.word

def execXlat (g : Guard) (wr : Bool) (d : Dst) (a : Src) (s : State) : Result :=
  let t := s.actor.tile
  let e := s.actor.elem
  let k := readTok s a
  let x := readAddr s a
  let done (y : AddrTok) (res : Bool) : Fired := { writes := tokenRes d y.data 0, res := res }
  let body : Fired :=
    if x.t || x.fcode != 0 then { writes := tokenRes d k.1 0, res := x.fcode != 0 }
    else match rangeFault x.va 1 with
    | some (c, _) => done (x.faulty c) true
    | none => match tlbFind (s.elem t e).utlb (ctxAt s t) x.va with
      | some p => if p.permits { write := wr, fe := false } then done (x.translated p (dieEpoch s (dieOf t))) false
          else done (x.faulty 2) true
      | none =>
        let q : MemReq :=
          { id := 0, kind := .xlat wr, va := x.va, len := 1, dst := d, pred := loadPred g.upd, token := k.1 }
        { late := true, act := fun s => startRequest s t e q }
  fire (.xlat g wr d a) 1 s (.ok body)

def setStream (s : State) (t e pos cnt : Nat) : State :=
  s.modElem t e fun y => { y with core := { y.core with pos := pos, cnt := BitVec.ofNat 32 cnt } }

/-- AGEN re-arm (R170): POS and CNT from a range token; nothing is enqueued. -/
def execAgenRearm (g : Guard) (d : Dst) (a : Src) (s : State) : Result :=
  let t := s.actor.tile
  let e := s.actor.elem
  let x := (readTok s a).1.toNat
  fire (.agenRearm g d a) 1 s (.ok { act := fun s => setStream s t e (bits x 0 64) (bits x 64 32) })

/-- The address token of an AGEN step (R170): the exact address, or a fault token. -/
def agenToken (base pos : Nat) (stride : Int) : AddrTok :=
  let va := (base : Int) + pos * stride
  let tok : AddrTok := ⟨(va % 2 ^ 64).toNat, 0, false, false, false, false, false, 0, 0, 0⟩
  match halfTop base with
  | none => tok.faulty 3
  | some top =>
    let low : Int := if top = 2 ^ 56 then 0 else 0xFF00000000000000
    if va < low then tok.faulty 3 else if va ≥ top then tok.faulty 4 else tok

def execAgenStep (g : Guard) (d : Dst) (s : State) : Result :=
  let t := s.actor.tile
  let e := s.actor.elem
  let c := (s.elem t e).core
  let base := c.x[11].toNat * 2 ^ 32 + c.x[10].toNat
  let tok := agenToken base c.pos (toSigned 32 c.x[12].toNat)
  let tag : BitVec 2 := if c.cnt = 1 then 1 else 0
  let next (s : State) : State := setStream s t e (c.pos + 1) (c.cnt.toNat - 1)
  fire (.agenStep g d) 1 s (.ok { writes := tokenRes d tok.data tag, act := next })

/-! ### RTAKE (R171) -/

/-- The RTAKE request joins the range server's queue of its die (R210). -/
def askPool (s : State) (t e pool : Nat) (d : Dst) (pred : Option (Fin 8)) : State :=
  let id := s.nextId
  let s := startRequest s t e { id := 0, kind := .take, va := 0, len := 0, dst := d, pred := pred, pool := pool }
  let r := kget s.servers (dieOf t) {}
  { s with servers := kput s.servers (dieOf t) { r with queue := r.queue ++ [⟨t, e, id, pool⟩] } }

def execRtake (g : Guard) (d : Dst) (a : Src) (s : State) : Result :=
  let t := s.actor.tile
  let e := s.actor.elem
  let v := readS s a
  fire (.rtake g d a) 1 s
    (if v / 16 ≠ 0 then .error { code := 0x0A }
     else .ok { late := true, act := fun s => askPool s t e (v % 16) d (loadPred g.upd) })

/-! ### Cistern access (R178) -/

/-- A narrow value extended to 32 bits (R172). -/
def extendNarrow (mw : MemW) (n : Bool) (v : Nat) : Nat := wrap 32 (readAs n (8 * accessBytes mw) v)

/-- The byte offset of an access, its low bits ignored by width. -/
def cisternOff (v len : Nat) : Nat := v % cisternSize / len * len

/-- Whether bytes meet the range of an owner of the tile (R178). -/
def meetsOwner (x : Tile) (off len : Nat) : Bool :=
  x.elems.any fun e => let o := e.2.owner.toNat
    bits o 63 1 == 1 && overlaps off len (bits o 0 18) (bits o 20 18)

def execCld (g : Guard) (mw : MemW) (n : Bool) (d : Dst) (a : Src) (s : State) : Result :=
  let len := accessBytes mw
  let x := s.tile s.actor.tile
  let off := cisternOff (readS s a) len
  fire (.cld g mw n d a) 2 s (cisternBody x off len (scalarFired d (nonZero (extendNarrow mw n (cisternRead x off len)))))

def execCvld (g : Guard) (d : Dst) (a : Src) (s : State) : Result :=
  let x := s.tile s.actor.tile
  let off := cisternOff (readS s a) 32
  fire (.cvld g d a) 2 s (cisternBody x off 32 { writes := vectorRes d (cisternRead x off 32) })

/-- A cistern store: 0x0C inside an owner's range. -/
def cisternStore (s : State) (off : Nat) (bs : List Byte) : Except Abort Fired :=
  let t := s.actor.tile
  let e := s.actor.elem
  if meetsOwner (s.tile t) off bs.length then .error { code := 0x0C }
  else .ok { act := fun s => cisternWrite s t e off bs }

def execCst (g : Guard) (mw : MemW) (n : Bool) (a b : Src) (s : State) : Result :=
  let len := accessBytes mw
  fire (.cst g mw n a b) 1 s (cisternStore s (cisternOff (readS s a) len) (byteList len (readS s b)))

def execCvst (g : Guard) (a b : Src) (s : State) : Result :=
  fire (.cvst g a b) 1 s (cisternStore s (cisternOff (readS s a) 32)
    (byteList 32 (readVector s s.actor.tile s.actor.elem 0 b)))

/-! ### Owner updates (R181, R182) -/

/-- The owner descriptor that the sender's binding of an ATOM's output holds: the copy the loader put there (R181). -/
def targetOwner (s : State) (t e : Nat) (d : Dst) : Nat :=
  match d with
  | .out c => (kget (s.elem t e).owners c.val (0 : W64)).toNat
  | _ => 0

/-- ATOM (R181): the update token, checked against the target owner.  The addend format of .xadd is not in the word
(log entry 23). -/
def execAtom (g : Guard) (aop : AtomOp) (n : Bool) (d : Dst) (a b : Src) (s : State) : Result :=
  let off := readS s a
  let o := targetOwner s s.actor.tile s.actor.elem d
  let xf := aop == .xadd && Config.atomAddendBf16 (d.code * 4096 + a.code * 64 + b.code)
  let tok := off + aop.code * 2 ^ 18 + bit n * 2 ^ 21 + bit xf * 2 ^ 22 + readS s b * 2 ^ 32
  fire (.atom g aop n d a b) 1 s
    (if bits o 63 1 = 0 ∨ bits o 20 18 ≤ off then .error { code := 0x0C }
     else if bits o 56 4 ≠ aop.code then .error { code := 0x0A }
     else .ok { writes := tokenRes d (BitVec.ofNat 256 tok) 0 })

/-- An integer owner operation on a 32-bit word. -/
def ownerOp (op : Nat) (n : Bool) (old val : Nat) : Nat :=
  match AtomOp.ofCode op with
  | .add => (old + val) % 2 ^ 32
  | .min => if readAs n 32 old ≤ readAs n 32 val then old else val
  | .max => if readAs n 32 old ≤ readAs n 32 val then val else old
  | .and => old &&& val
  | .or => old ||| val
  | .xor => old ^^^ val
  | .count => (old + 1) % 2 ^ 32
  | .xadd => old

/-- The word of an owner's range that an offset names: where it starts and its length. -/
def ownerWord (o : Nat) (off unit : Nat) : Nat × Nat := ((bits o 0 18 + off) % cisternSize / unit * unit, unit)

/-- OWNAP apply (R182): one update token on the word at BASE + OFF. -/
def applyUpdate (s : State) (t e : Nat) (tok : Nat) : State :=
  let o := (s.elem t e).owner.toNat
  let off := bits tok 0 18
  let at_ := (bits o 0 18 + off) % cisternSize
  if bits tok 18 3 = 7 then
    let p := at_ / 32 * 32
    let w := cisternRead (s.tile t) p 32
    let v := bits tok 32 32
    let a := if bits tok 22 1 = 1 then decodeLane .bf16 (v % 2 ^ 16) else decodeF32 v
    cisternWrite s t e p (byteList 32 (xaddWord w a))
  else
    let p := at_ / 4 * 4
    let w := cisternRead (s.tile t) p 4
    cisternWrite s t e p (byteList 4 (ownerOp (bits tok 18 3) (bits tok 21 1 == 1) w (bits tok 32 32)))

def execOwnapApply (g : Guard) (a : Src) (s : State) : Result :=
  let t := s.actor.tile
  let e := s.actor.elem
  let tok := (readTok s a).1.toNat
  let w := ownerWord (s.elem t e).owner.toNat (bits tok 0 18) (if bits tok 18 3 = 7 then 32 else 4)
  fire (.ownapApply g a) 1 s (cisternBody (s.tile t) w.1 w.2 { act := fun s => applyUpdate s t e tok })

/-- OWNAP readout (R39, R182). -/
def execOwnapReadout (g : Guard) (d : Dst) (a : Src) (s : State) : Result :=
  let x := s.tile s.actor.tile
  let o := (x.elem s.actor.elem).owner.toNat
  let at_ := (bits o 0 18 + readS s a) % cisternSize
  let f : Fired :=
    if bits o 56 4 = 7 then
      let (c, fl) := xaddRead .fp32 (cisternRead x (at_ / 32 * 32) 32)
      let fl : Flags := { sat := fl.sat, nan := fl.nan }
      { writes := scalarRes d c, res := c != 0, conv := .ofFlags fl }
    else scalarFired d (nonZero (cisternRead x (at_ / 4 * 4) 4))
  let w := ownerWord o (readS s a) (if bits o 56 4 = 7 then 32 else 4)
  fire (.ownapReadout g d a) 2 s (cisternBody x w.1 w.2 f)

end Sys2Proof.Machine
end

