-- ==== Sys2Proof/Machine/EngineCmd.lean ====
section
/-! DEFINITION. The element instructions that command engines and announce bursts: spec/10_engines.md R185, R186,
R190, R211. -/

namespace Sys2Proof.Machine

/-- The command token of R186. -/
def commandToken (aval bval op : Nat) : V256 := BitVec.ofNat 256 (aval % 2 ^ 64 + bval % 2 ^ 32 * 2 ^ 64 + op * 2 ^ 96)

/-- A command whose scalars keep their limits (R186). -/
def commandFired (ok : Bool) (d : Dst) (aval bval op : Nat) : Except Abort Fired :=
  if ok then .ok { writes := tokenRes d (commandToken aval bval op) 0 } else .error { code := 0x0A }

/-- A command with an address operand: its fault code first aborts the rule (R177, R186). -/
def addressFired (ok : Bool) (d : Dst) (a : AddrTok) (bval op : Nat) : Except Abort Fired :=
  if !ok then .error { code := 0x0A }
  else if a.fcode ≠ 0 then .error { code := a.fcode, va := a.va }
  else commandFired true d a.va bval op

/-- The class of an island operand format (R190). -/
def islandClass (code : Nat) : Nat :=
  match Fmt.ofCode code with
  | some .e4m3 | some .e5m2 | some .e3m2 | some .e2m3 | some .int8 => 8
  | some .e2m1 | some .ix4 => 4
  | some .bf16 => 16
  | _ => 0

/-- A configuration word that keeps R190. -/
def mxcfgOk (v : Nat) : Bool :=
  let c := islandClass (bits v 0 4)
  let df := bits v 8 4
  c != 0 && islandClass (bits v 4 4) == c && (df == 0 || df == 1 || df == 3) && v / 2 ^ 12 == 0

/-- The operands of MXROW and MXACC keep their limits (R185). -/
def runOk (a b : Nat) : Bool :=
  let count := bits b 0 11
  a / 2 ^ 11 == 0 && bits b 11 5 == 0 && bits b 24 8 == 0 && decide (1 ≤ count) && decide (count ≤ 1024)
    && decide (bits a 0 10 + count ≤ 1024)

def drainOk (a b : Nat) : Bool :=
  decide (a < 1024) && decide (1 ≤ b) && decide (b ≤ 1024) && decide (a + b ≤ 1024)

def execMxcfg (g : Guard) (d : Dst) (a : Src) (s : State) : Result :=
  fire (.mxcfg g d a) 1 s (commandFired (mxcfgOk (readS s a)) d (readS s a) 0 0xC0)

def execMxldb (g : Guard) (d : Dst) (a b : Src) (s : State) : Result :=
  fire (.mxldb g d a b) 1 s (addressFired (decide (readS s b < 2)) d (readAddr s a) (readS s b) 0xC1)

def execMxrow (g : Guard) (d : Dst) (a b : Src) (s : State) : Result :=
  fire (.mxrow g d a b) 1 s (commandFired (runOk (readS s a) (readS s b)) d (readS s a) (readS s b) 0xC2)

def execMxacc (g : Guard) (d : Dst) (a b : Src) (s : State) : Result :=
  fire (.mxacc g d a b) 1 s (commandFired (runOk (readS s a) (readS s b)) d (readS s a) (readS s b) 0xC3)

def execMxdrn (g : Guard) (d : Dst) (a b : Src) (s : State) : Result :=
  fire (.mxdrn g d a b) 1 s (commandFired (drainOk (readS s a) (readS s b)) d (readS s a) (readS s b) 0xC4)

def execMxgrp (g : Guard) (d : Dst) (a : Src) (s : State) : Result :=
  fire (.mxgrp g d a) 1 s (addressFired true d (readAddr s a) 0 0xC5)

def execMxstat (g : Guard) (d : Dst) (a : Src) (s : State) : Result :=
  fire (.mxstat g d a) 1 s (commandFired (decide (readS s a ≤ 6)) d (readS s a) 0 0xC6)

def execSxcpy (g : Guard) (d : Dst) (a : Src) (s : State) : Result :=
  fire (.sxcpy g d a) 1 s (addressFired true d (readAddr s a) 0 0xC8)

def execSxgth (g : Guard) (d : Dst) (a : Src) (s : State) : Result :=
  fire (.sxgth g d a) 1 s (addressFired true d (readAddr s a) 0 0xC9)

def execSxsct (g : Guard) (d : Dst) (a : Src) (s : State) : Result :=
  fire (.sxsct g d a) 1 s (addressFired true d (readAddr s a) 0 0xCA)

def execSxdeep (g : Guard) (d : Dst) (a : Src) (s : State) : Result :=
  fire (.sxdeep g d a) 1 s (addressFired true d (readAddr s a) 0 0xCB)

def execXpcfg (g : Guard) (d : Dst) (a : Src) (s : State) : Result :=
  fire (.xpcfg g d a) 1 s (addressFired true d (readAddr s a) 0 0xD0)

def execWrsrt (g : Guard) (d : Dst) (a : Src) (s : State) : Result :=
  fire (.wrsrt g d a) 1 s (addressFired true d (readAddr s a) 0 0xD1)

/-! ### PHINT (R211) -/

/-- A hint waits for the start of the next charge interval; a length of 0 makes none. -/
def requestHint (s : State) (ctx die int onset len : Nat) (region : Option Nat) : State :=
  if len = 0 then s
  else { s with hintReqs := s.hintReqs ++ [⟨ctx, die, min int 256, onset, len, region,
    ((region.bind s.region).map Region.runId).getD 0⟩] }

def execPhint (g : Guard) (a b : Src) (s : State) : Result :=
  let t := s.actor.tile
  let x := readS s a
  let y := readS s b
  fire (.phint g a b) 1 s
    (if x / 2 ^ 9 ≠ 0 ∨ bits y 24 8 ≠ 0 then .error { code := 0x0A }
     else .ok { act := fun s => requestHint s (ctxAt s t) (dieOf t) x (bits y 0 8) (bits y 8 16) (regionOf s t) })

end Sys2Proof.Machine
end

