-- ==== Sys2Proof/Machine/Round.lean ====
section
/-! DEFINITION. The tile round of spec/03_rules.md: what reaches the inputs (R42, R43, R57, R129, R163, R397), the
enabled sets, admission (R44 to R46), and the items left of a round, which the step takes one at a time. -/

namespace Sys2Proof.Machine

/-! ### What arrives at an input -/

/-- A token taken off a head without a rule. -/
def Elem.dropHead (y : Elem) (c : Nat) : Elem :=
  let ch := y.chan c
  y.setChan c { ch with fifo := ch.fifo.tail, parity := false }

/-- A STROKE mark on a back channel ends the recording of the oldest snapshot that still records it (R302). -/
def Elem.endRecord (y : Elem) (c : Nat) : Elem :=
  if y.rec0On.contains c then { y with rec0On := y.rec0On.filter (· != c) }
  else { y with rec1On := y.rec1On.filter (· != c) }

/-- What happens to the head of a channel without a rule; none where it stays for a rule or for alignment. -/
def Elem.siftHead (y : Elem) (back loopIn : Bool) (c : Nat) : Option Elem :=
  match y.head c with
  | none => none
  | some k =>
    if k.isMark then
      if k.kind = 3 then
        some (if back then y.dropHead c
          else { y.dropHead c with core := { y.core with barIn := kput y.core.barIn c (kget y.core.barIn c 0 + 1) } })
      else if back && k.kind == 0 then some ((y.dropHead c).endRecord c)
      else if back && decide (k.kind < 3) then some (y.dropHead c)
      else if y.core.halted && k.kind == 5 then some (y.dropHead c)
      else none
    else if y.core.halted then some (y.dropHead c)
    else match y.core.cut with
      | some (e, i) =>
        let n := kget y.core.loops c 0
        if loopIn && decide (e ≤ n) && decide (n < i) then
          some { y.dropHead c with core := { y.core with loops := kput y.core.loops c (n + 1) } }
        else none
      | none => none

/-- Tokens in flight enter the FIFO while it has room and no token waits in the ring (R43). -/
def Chan.land (ch : Chan) : Chan :=
  if ch.ring.isEmpty && decide (ch.fifo.length < 2) then
    let n := 2 - ch.fifo.length
    { ch with fifo := ch.fifo ++ ch.flight.take n, flight := ch.flight.drop n }
  else ch

def Elem.land (y : Elem) (c : Nat) : Elem := if (y.chan c).flight.isEmpty then y else y.setChan c (y.chan c).land

/-- One channel at the start of a round: tokens land, and heads that need no rule are taken off. -/
def Elem.intakeChan (back loopIn : Bool) (c : Nat) : Nat → Elem → Elem
  | 0, y => y.land c
  | n + 1, y =>
    let y := y.land c
    match y.siftHead back loopIn c with
    | none => y
    | some y => Elem.intakeChan back loopIn c n y

/-- A CUT is finished once every loop channel of the element has reached I (R163). -/
def finishCut (y : Elem) : Elem :=
  match y.core.cut with
  | none => y
  | some (_, i) =>
    if y.loopIns.all fun c => decide (i ≤ kget y.core.loops c 0) then
      { y with core := { y.core with cut := none, loops := [], loopI := 0 } }
    else y

/-- The inputs of one element at the start of a round.  A stopped clock takes nothing in; a faulted or frozen
element consumes nothing (R54). -/
def intakeElem (s : State) (t e : Nat) (y : Elem) : Elem :=
  if y.faulted || y.frozen then (y.chans.map Prod.fst).foldl (fun y c => y.land c) y
  else
    let y := (y.chans.map Prod.fst).foldl
      (fun y c => Elem.intakeChan (isBack s t e c) (y.loopIns.contains c) c (y.chan c).count y) y
    finishCut y

/-! ### Enabled sets (R44) -/

/-- Whether a region's kernel fires: released, not frozen, not stopped for service, its sources not ended. -/
def Region.fires (r : Region) : Bool :=
  (r.kernel == .firing || r.kernel == .draining) && !r.frozen && !r.stopped && !r.ended

/-- A slot of the current plane: its word. -/
def slotWord (y : Elem) (plane slot : Nat) : W64 := kget y.slots (plane * 16 + slot) 0

/-- What a slot can do in a round. -/
inductive Slot where
  | off
  | illegal
  | rule (i : Instr) (o : Operands)
  deriving DecidableEq, Repr

/-- The slot as it stands: V, ECC (R291), the word's legality (R104). -/
def slotAt (s : State) (t e plane slot : Nat) : Slot :=
  let x := s.tile t
  let w := slotWord (x.elem e) plane slot
  if !w.getLsbD 63 || x.badEcc.contains (64 * e + 16 * plane + slot) then .off
  else match decodeElem w with
    | .error _ => .illegal
    | .ok i => match i.operands with
      | none => .illegal
      | some o => if slotLegal s t e i then .rule i o else .illegal

/-- A slot's part in step 1: enabled; held back only by charge; held back only by room. -/
inductive Enabled where
  | no
  | yes
  | charge
  | room
  deriving DecidableEq, Repr

def enabledAt (s : State) (t e plane slot : Nat) : Enabled :=
  let x := s.tile t
  let y := x.elem e
  if !y.running then .no
  else match slotAt s t e plane slot with
    | .off => .no
    | .illegal => .yes
    | .rule i o =>
      if guardOwn s t e plane slot i o && qTerm x.core.q o.g then
        if x.balance < costOf (opcodeOf i) then .charge
        else if roomFor s t e i then .yes else .room
      else .no

/-! ### Admission (R45) -/

/-- What the rules admitted so far leave for the tests of R45. -/
structure Admitted where
  q      : BitVec 16
  /-- who wrote a tile predicate in this round -/
  qFrom  : KMap Nat := []
  reads  : List Nat := []
  writes : List Nat := []
  ports  : Nat := 0
  balance : Nat
  rings  : Vector Ring 8
  items  : List RoundItem := []
  short  : Bool := false

def wReads (o : Operands) : List Nat :=
  ((match o.a with | some (.w n) => [n.val] | _ => []) ++ (match o.b with | some (.w n) => [n.val] | _ => []))

def wWrites (o : Operands) : List Nat := match o.dst with
  | some (.w n) => [n.val]
  | _ => []

/-- The ring test of R45: FREE and FILLED as the admitted rules leave them. -/
def ringTest (m : Admitted) : Instr → Bool
  | .crput _ r _ => decide (0 < (m.rings[r]).free.toNat)
  | .crget _ r _ => decide (0 < (m.rings[r]).filled.toNat)
  | _ => true

/-- The value a QSET forwards. -/
def qValue (s : State) (t e : Nat) : Instr → Option (Fin 16 × Bool)
  | .qset _ q a => some (q, (readScalar s t e a).testBit 0)
  | _ => none

/-- One slot put to the tests, and what the admission leaves. -/
def admitSlot (s : State) (t e plane slot : Nat) (m : Admitted) : Option Admitted :=
  match slotAt s t e plane slot with
  | .off => none
  | .illegal => some { m with items := m.items ++ [.fire e slot none false] }
  | .rule i o =>
    let op := opcodeOf i
    let cost := costOf op
    let port := if usesPort op then 1 else 0
    if qTerm m.q o.g && (wWrites o).all (fun n => !m.reads.contains n && !m.writes.contains n)
        && (wReads o).all (fun n => !m.writes.contains n) && decide (m.ports + port ≤ 4)
        && decide (cost ≤ m.balance) && ringTest m i then
      let dep := match o.g.qtest with
        | some (_, id) => kfind m.qFrom id.val
        | none => none
      let m := { m with
        reads := m.reads ++ wReads o, writes := m.writes ++ wWrites o, ports := m.ports + port
        balance := m.balance - cost, items := m.items ++ [.fire e slot dep (qValue s t e i).isSome] }
      let m := match qValue s t e i with
        | some (q, v) =>
          let b := BitVec.ofNat 16 (2 ^ q.val)
          { m with q := if v then m.q ||| b else m.q &&& ~~~b, qFrom := kput m.qFrom q.val e }
        | none => m
      some (match i with
        | .crput _ r _ => { m with rings := m.rings.set r (m.rings[r]).afterPut }
        | .crget _ r _ => { m with rings := m.rings.set r (m.rings[r]).afterGet }
        | _ => m)
    else none

/-- Whether a slot is refused only on the charge term (R368): with the charge it would have passed. -/
def deniedOnly (s : State) (t e plane slot : Nat) (m : Admitted) : Bool :=
  match slotAt s t e plane slot with
  | .rule i _ =>
    let cost := costOf (opcodeOf i)
    decide (m.balance < cost) && roomFor s t e i && (admitSlot s t e plane slot { m with balance := cost }).isSome
  | _ => false

/-- An element's visit: the first enabled slot in priority order that passes. -/
def admitElem (s : State) (t e plane : Nat) (m : Admitted) : List Nat → Admitted
  | [] => m
  | slot :: rest =>
    match enabledAt s t e plane slot with
    | .yes => match admitSlot s t e plane slot m with
      | some m' => m'
      | none => admitElem s t e plane { m with short := m.short || deniedOnly s t e plane slot m } rest
    | .charge => admitElem s t e plane { m with short := m.short || deniedOnly s t e plane slot m } rest
    | .no | .room => admitElem s t e plane m rest

/-- The elements in visiting order, from the admission pointer on. -/
def visitOrder (x : Tile) : List Nat :=
  ((List.range 16).map fun k => (x.core.aptr.toNat + k) % 16).filter fun e => (kfind x.elems e).isSome

def admission (s : State) (t : Nat) : Admitted :=
  let x := s.tile t
  (visitOrder x).foldl (fun m e => admitElem s t e (x.elem e).plane.toNat m (List.range 16))
    { q := x.core.q, balance := x.balance, rings := x.core.rings }

/-- A slot that only a full open buffer or a full undo log holds back ends the stroke (R56). -/
def wantsRoom (s : State) (t : Nat) : Bool :=
  (s.tile t).elems.any fun p => (List.range 16).any fun slot =>
    enabledAt s t p.1 p.2.plane.toNat slot == .room

/-! ### The round -/

/-- The elements with a result to write at the end of this round (R136). -/
def dueResults (x : Tile) : List RoundItem :=
  (x.elems.filter fun p => p.2.pending.any fun q => decide (q.due ≤ x.rounds)).map fun p => .result p.1

/-- The start of a round: inputs, enabled sets, admission.  A tile that changes spine admits nothing (R370). -/
def beginRound (s : State) (t : Nat) : State :=
  let s := s.modTile t fun x => { x with elems := x.elems.map fun p => (p.1, intakeElem s t p.1 p.2) }
  let fires := match regionAt s t with
    | some r => r.fires && (s.tile t).switching.isNone
    | none => false
  let m := if fires then admission s t
    else { q := (s.tile t).core.q, balance := 0, rings := (s.tile t).core.rings }
  let s := if fires && wantsRoom s t then requestStroke s t else s
  s.modTile t fun x => { x with
    todo := m.items ++ dueResults x ++ [.finish], refused := x.refused || m.short }

/-- The end of a round: the admission pointer advances, whatever was admitted (R44), and a spine switch comes
nearer. -/
def endRound (s : State) (t : Nat) : State :=
  s.modTile t fun x => { x with
    todo := [], rounds := x.rounds + 1, balance := min 4096 (x.balance + x.doseDue), doseDue := 0, switching := x.switching.map fun p => (p.1 - 1, p.2)
    core := { x.core with aptr := x.core.aptr + 1 } }

/-- The rules that tested a value an aborted or discarded rule forwarded are discarded in turn (R54). -/
def discard : List Nat → List RoundItem → List RoundItem
  | _, [] => []
  | gone, .fire e slot dep q :: rest =>
    match dep with
    | some d => if gone.contains d then discard (e :: gone) rest else .fire e slot dep q :: discard gone rest
    | none => .fire e slot dep q :: discard gone rest
  | gone, i :: rest => i :: discard gone rest

/-- After a rule of element e did not fire: what depended on the value it forwarded goes. -/
def dropDependents (s : State) (t e : Nat) : State :=
  s.modTile t fun x => { x with todo := discard [e] x.todo }

/-- An element's illegal slot aborts with 0x0A (R104). -/
def meetIllegal (s : State) (t e plane slot : Nat) : State :=
  let y := s.elem t e
  match slotAt s t e plane slot with
  | .illegal =>
    if y.running && y.plane.toNat == plane then
      abortElem s t e plane slot (bits (slotWord y plane slot).toNat 30 8) 0x0A 0 false
    else s
  | _ => s

/-! ### Results (R136) -/

/-- One pending result written; the slots held for it in consumers are given back first. -/
def writeResult (s : State) (t e : Nat) (p : Pending) : State :=
  let s := p.writes.foldl (fun s w => match w with
    | .out c _ => holdOut s t e c.val (· - 1)
    | _ => s) s
  applyWrites s t e p.writes

/-- Results are written at the end of their round: nothing of the round may still be left to fire. -/
def resultDue (x : Tile) (p : Pending) : Bool :=
  decide (p.due < x.rounds) || (p.due == x.rounds && !(x.todo.any fun i => match i with
    | .fire _ _ _ _ => true
    | _ => false))

/-- Every result of an element that is due. -/
def writeDue (s : State) (t e : Nat) : State :=
  let x := s.tile t
  let y := x.elem e
  let s := s.setElem t e { y with pending := y.pending.filter fun p => !resultDue x p }
  (y.pending.filter (resultDue x)).foldl (fun s p => writeResult s t e p) s

/-- VECTOR_RESULT_WRITE (R41, R136). -/
def execVectorResultWrite (t e : Nat) (s : State) : Result := .next (writeDue s t e)

/-! ### What a tile does next -/

/-- The next thing a tile does: the state before it, and the rule that the step executes, if any. -/
def tileNext (s : State) (t : Nat) : State × Option Instr :=
  if !present s t then (s.modTile t fun x => { x with rounds := x.rounds + 1 }, none)
  else match (s.tile t).todo with
    | [] => (beginRound s t, none)
    | .finish :: _ => (endRound s t, none)
    | .result e :: rest => (writeDue (s.modTile t fun x => { x with todo := rest }) t e, none)
    | .fire e slot _ _ :: rest =>
      let plane := (s.elem t e).plane.toNat
      let s := s.modTile t fun x => { x with todo := rest }
      let s := { s with actor := { s.actor with tile := t, elem := e, plane := plane, slot := slot } }
      match slotAt s t e plane slot with
      | .off => (s, none)
      | .illegal => (meetIllegal s t e plane slot, none)
      | .rule i _ => (s, some i)

/-! ### Rings that back a channel (R43) -/

/-- RING_SPILL: a token that arrives while the FIFO is full goes into the ring. -/
def execRingSpill (t e c : Nat) (s : State) : Result :=
  let y := s.elem t e
  let ch := y.chan c
  let b := y.inBind c
  match ch.flight with
  | k :: ks =>
    if bindRingen b && (decide (2 ≤ ch.fifo.length) || !ch.ring.isEmpty)
        && decide (ch.ring.length < ringSlots (s.tile t) (bindRing b)) then
      let n := fin 8 (bindRing b)
      let r := (s.tile t).core.rings[n]
      let s := s.setElem t e (y.setChan c { ch with flight := ks, ring := ch.ring ++ [k] })
      let s := s.modTile t fun x => { x with
        cistern := x.cistern.writes (r.slotAt r.put.toNat) (byteList r.slotBytes k.data.toNat) }
      .next (setRing s t n r.afterPut)
    else .next s
  | [] => .next s

/-- RING_REFILL: ring tokens return to the FIFO in arrival order; one whose cistern bytes are bad fails in the FIFO
(R384). -/
def execRingRefill (t e c : Nat) (s : State) : Result :=
  let y := s.elem t e
  let ch := y.chan c
  let b := y.inBind c
  match ch.ring with
  | k :: ks =>
    let n := fin 8 (bindRing b)
    let r := (s.tile t).core.rings[n]
    let bad := (s.tile t).badAt (r.slotAt r.getSlot) r.slotBytes
    if if bad then ch.fifo.isEmpty else decide (ch.fifo.length < 2) then
      let s := s.setElem t e (y.setChan c { ch with ring := ks, fifo := ch.fifo ++ [k], parity := ch.parity || bad })
      .next (setRing s t n r.afterGet)
    else .next s
  | [] => .next s

end Sys2Proof.Machine
end

