-- ==== Sys2Proof/Machine/Stroke.lean ====
section
/-! DEFINITION. Strokes, marks and drains of a region: spec/03_rules.md R56 to R60, R397, spec/19_barrier.md R302,
R303, R306.  The void of R59, which every fault of the fabric starts. -/

namespace Sys2Proof.Machine

/-! ### The elements and islands of a region -/

/-- The islands whose ports the region's outputs lead to (R288). -/
def regionIslands (s : State) (r : Region) : List Nat :=
  ((regionElems s r).flatMap fun p => (s.elem p.1 p.2).outputs.filterMap fun c =>
    match targetOf p.1 ((s.elem p.1 p.2).outBind c) with
    | .command en => if en % 64 < 16 then some en else none
    | .row en _ => some en
    | _ => none).eraseDups

/-- The streamers, expanders and weirs that the region's outputs command (R288). -/
def regionEngines (s : State) (r : Region) : List Nat :=
  ((regionElems s r).flatMap fun p => (s.elem p.1 p.2).outputs.filterMap fun c =>
    match targetOf p.1 ((s.elem p.1 p.2).outBind c) with
    | .command en => if en % 64 < 16 then none else some en
    | _ => none).eraseDups

/-- Every engine that a region commands is frozen, or takes commands again (R246). -/
def freezeEngines (s : State) (r : Region) (b : Bool) : State :=
  let es := regionEngines s r
  let s := (regionIslands s r).foldl (fun s en => s.modIsland en fun x => { x with frozen := b }) s
  { s with
    streamers := s.streamers.map fun p => if es.contains p.1 then (p.1, { p.2 with frozen := b }) else p
    expanders := s.expanders.map fun p => if es.contains p.1 then (p.1, { p.2 with frozen := b }) else p
    weirs := s.weirs.map fun p => if es.contains p.1 then (p.1, { p.2 with frozen := b }) else p }

/-- The rounds its origin tile has run: the fc the region controller counts in (R56). -/
def originRounds (s : State) (r : Region) : Nat := (s.tile (siteKey r.die r.col r.row)).rounds

def modElems (s : State) (r : Region) (f : Elem → Elem) : State :=
  { s with tiles := s.tiles.map fun p =>
      if r.hasTile p.1 then (p.1, { p.2 with elems := p.2.elems.map fun q => (q.1, f q.2) }) else p }

def modTiles (s : State) (r : Region) (f : Tile → Tile) : State :=
  { s with tiles := s.tiles.map fun p => if r.hasTile p.1 then (p.1, f p.2) else p }

/-- The ports of an island that a region feeds: 0 to 7 its row ports, 8 its command port. -/
def islandPorts (s : State) (en : Nat) : List Nat :=
  (s.tiles.flatMap fun p => if dieOf p.1 = en / 64 then
    p.2.elems.flatMap fun y => y.2.outputs.filterMap fun c => match targetOf p.1 (y.2.outBind c) with
      | .command n => if n = en then some 8 else none
      | .row n port => if n = en then some port else none
      | _ => none
    else []).eraseDups

/-- Whether the channel into a port of an island is a back channel (R302). -/
def islandBack (s : State) (en port : Nat) : Bool := s.regions.any fun p => p.2.back.contains (1536 + en, 0, port)

/-- The ports an island aligns marks over (R199, R302). -/
def islandAligned (s : State) (en : Nat) : List Nat := (islandPorts s en).filter fun c => !islandBack s en c

/-! ### Injection (R56, R302, R303) -/

/-- A mark of the region controller laid down at every entry: at elements with no input to align over, and on the
channels that enter from outside (reply ports and boundary inputs). -/
def injectMark (s : State) (r : Region) (payload : Nat) : State :=
  let tok := markToken payload r.stroke
  let s := (regionElems s r).foldl (fun s p =>
    if (alignedInputs s p.1 p.2).isEmpty then s.modElem p.1 p.2 fun y => { y with inject := y.inject ++ [tok] } else s) s
  let s := (regionIslands s r).foldl (fun s en =>
    if (islandAligned s en).isEmpty then s.modIsland en fun x => { x with inject := x.inject ++ [tok] } else s) s
  (r.inbound.filter fun b => bits b.src 8 3 == 3 || bits b.src 8 3 == 5).foldl
    (fun s b => deliver s b.tile tok (.chan b.tile b.elem b.chan)) s

/-- STROKE_LENGTH_EXPIRY (R56). -/
def execStrokeLengthExpiry (k : Nat) (s : State) : Result :=
  match s.region k with
  | none => .next s
  | some r =>
    if (r.kernel == .firing || r.kernel == .draining) && !r.strokeMark
        && decide (r.strokeLen ≤ originRounds s r - r.strokeStart) then
      .next (s.setRegion k { r with strokeReq := true })
    else .next s

/-- STROKE_MARK_INJECT (R56): the ending mark of the open stroke, one in flight at a time. -/
def execStrokeMarkInject (k : Nat) (s : State) : Result :=
  match s.region k with
  | none => .next s
  | some r =>
    if r.strokeReq && !r.strokeMark && !r.frozen && !r.stopped
        && (r.kernel == .firing || r.kernel == .draining) then
      let s := injectMark s r 0
      .next (s.setRegion k { r with
        strokeReq := false, strokeMark := true, strokeStart := originRounds s r
        closeOwed := r.closeOwed ++ r.strokeOwed, strokeOwed := [] })
    else .next s

/-- DRAIN_INJECT (R60): whether the DRAIN switches is fixed here, by a plane request that stands. -/
def execDrainInject (k : Nat) (s : State) : Result :=
  match s.region k with
  | none => .next s
  | some r =>
    if !r.planeReqs.isEmpty && r.drain.isNone && r.switchAt.isNone && !r.frozen && !r.stopped
        && (r.kernel == .firing || r.kernel == .draining) then
      let plane := (r.planeReqs.filterMap PlaneReq.plane).getLast?
      let payload := match plane with
        | some p => 1 + p.toNat * 16 + 64
        | none => 1
      let s := injectMark s r payload
      .next (s.setRegion k { r with drain := some plane, drainN := r.planeReqs.length })
    else .next s

/-! ### Alignment at an element (R57, R58) -/

/-- The mark an element can act on: the same kind at every aligned head, or the injected one (R57). -/
def alignedMark (s : State) (t e : Nat) : Option Token :=
  let y := s.elem t e
  match alignedInputs s t e with
  | [] => y.inject.head?
  | c :: cs =>
    match y.head c with
    | some k =>
      if decide (k.kind < 3) && cs.all (fun c' => match y.head c' with
          | some k' => k'.kind == k.kind
          | none => false) then some k else none
    | none => none

/-- A mark goes on every bound output; STROKE, DRAIN and FREEZE do not cross a boundary port (R297). -/
def markOutputs (s : State) (t e : Nat) (barrier : Bool) : List Nat :=
  (s.elem t e).outputs.filter fun c => barrier || (match targetOf t ((s.elem t e).outBind c) with
    | .boundary _ => false
    | _ => true)

/-- A mark is forwarded once no write is pending and every output has room (R57). -/
def canForward (s : State) (t e : Nat) (barrier : Bool) : Bool :=
  !(s.elem t e).anyPending && (markOutputs s t e barrier).all (outSpace s t e)

/-- The element's share of a stroke snapshot (R58, R302). -/
def snapElem (back : List Nat) (y : Elem) : Elem :=
  { y with snapNext := some y.core, stroke := y.stroke + 1, rec1 := [], rec1On := back }

/-- What a mark does at the element it passes; the tile is recorded as the first of its elements is (R58, log entry
101). -/
def actOnMark (s : State) (t e : Nat) (k : Token) : State :=
  match k.kind with
  | 0 =>
    let back := (s.elem t e).inputs.filter (isBack s t e)
    let s := s.modElem t e (snapElem back)
    s.modTile t fun x => { x with snapNext := some (x.snapNext.getD x.core) }
  | 1 => s.modElem t e fun y => { y with drained := true, stopped := y.stopped || bits k.data.toNat 6 1 == 1 }
  | 2 => s.modElem t e fun y => { y with frozen := true }
  | _ => s

/-- The heads of a mark taken off, the act, the forwarding. -/
def passMark (s : State) (t e : Nat) (k : Token) : State :=
  let outs := markOutputs s t e false
  let ins := alignedInputs s t e
  let s := s.modElem t e fun y =>
    if ins.isEmpty then { y with inject := y.inject.tail } else ins.foldl Elem.dropHead y
  let s := actOnMark s t e k
  outs.foldl (fun s c => enqueue s t e c k.data 3) s

/-- What the region controller does when a DRAIN has passed every element (R60, R131). -/
def drainPassed (s : State) (k : Nat) : State :=
  match s.region k with
  | none => s
  | some r =>
    match r.drain with
    | none => s
    | some plane =>
      if (regionElems s r).all fun p => (s.elem p.1 p.2).drained then
        let first := r.planeReqs.take r.drainN
        let later := r.planeReqs.drop r.drainN
        match plane with
        | none =>
          let s := modElems s r fun y => { y with drained := false }
          s.modRegion k fun r => { r with drain := none, drainN := 0, planeReqs := later }
        | some _ =>
          let force := first ++ later.filter fun q => q.plane.isSome
          let p := ((force.filterMap PlaneReq.plane).getLast?).getD 0
          s.modRegion k fun r => { r with
            drain := none, drainN := force.length, switchAt := some (p, originRounds s r + 4)
            planeReqs := force ++ later.filter fun q => q.plane.isNone }
      else s

/-- PLANE_SWITCH (R60): four fc after the DRAIN has passed every element. -/
def execPlaneSwitch (k : Nat) (s : State) : Result :=
  match s.region k with
  | none => .next s
  | some r =>
    match r.switchAt with
    | none => .next s
    | some (p, due) =>
      if due ≤ originRounds s r then
        let s := modElems s r fun y => { y with plane := p, stopped := false, drained := false }
        .next (s.modRegion k fun r => { r with
          plane := p, switchAt := none, planeReqs := r.planeReqs.drop r.drainN, drainN := 0 })
      else .next s

/-! ### Barriers at an element and at the sinks (R303, R397) -/

/-- The BARRIER an element forwards next is aligned: every aligned input has delivered it. -/
def barrierReady (s : State) (t e : Nat) : Bool :=
  let y := s.elem t e
  let ins := alignedInputs s t e
  !ins.isEmpty && ins.all fun c => decide (y.core.barOut < kget y.core.barIn c 0)

/-- An element's k-th BARRIER, behind every token it has enqueued. -/
def passBarrier (s : State) (t e : Nat) : State :=
  let stroke := (s.elem t e).stroke
  let outs := markOutputs s t e true
  let s := s.modElem t e fun y => { y with core := { y.core with barOut := y.core.barOut + 1 } }
  let s := outs.foldl (fun s c => enqueue s t e c 3 3) s
  match regionOf s t with
  | none => s
  | some k => notePassed s k stroke

/-! ### The void (R59) -/

/-- A tile's cistern with the writes of strokes from `stroke` on undone, newest first. -/
def undoFrom (stroke : Nat) (x : Tile) : Tile :=
  let gone := x.undo.filter fun u => decide (stroke ≤ u.stroke)
  { x with
    cistern := gone.foldr (fun u m => m.writes u.off u.old) x.cistern
    undo := x.undo.filter fun u => decide (u.stroke < stroke) }

/-- The rings that back channels of a tile are empty after a void: their tokens are discarded with the channels. -/
def clearBackingRings (x : Tile) : Tile :=
  let used := (List.range 8).filter fun n => x.elems.any fun p =>
    p.2.inputs.any fun c => bindRingen (p.2.inBind c) && bindRing (p.2.inBind c) == n
  { x with core := { x.core with rings := used.foldl (fun (v : Vector Ring 8) n =>
      v.set (fin 8 n) { v[fin 8 n] with free := v[fin 8 n].slots, filled := 0 }) x.core.rings } }

def voidTile (stroke : Nat) (x : Tile) : Tile :=
  let x := undoFrom stroke x
  clearBackingRings { x with core := x.snap, snapNext := none, todo := x.todo.filter fun i => i == .finish }

/-- What a channel holds after a void: nothing, but a back channel the tokens it held at the snapshot (R302). -/
def voidChan (stroke : Nat) (y : Elem) (back : Bool) (c : Nat) (ch : Chan) : Chan :=
  if back then
    let old (k : Token) : Bool := !k.isMark && decide (k.stroke < stroke)
    let again := (y.rec0.filter fun p => p.1 == c && old p.2).map Prod.snd
    { fifo := again ++ (ch.fifo.filter old), flight := (ch.ring ++ ch.flight).filter old }
  else {}

/-- An element restored to the snapshot at the start of the oldest stroke that has not closed (R54, R59). -/
def voidElem (stroke : Nat) (back : Nat → Bool) (y : Elem) : Elem :=
  { y with
    core := y.snap
    chans := (y.chans.map fun p => (p.1, voidChan stroke y (back p.1) p.1 p.2)).filter fun p => p.2 != {}
    inject := [], pending := [], reqs := [], stroke := stroke, snapNext := none
    rec0 := [], rec0On := y.inputs.filter back, rec1 := [], rec1On := []
    voidDue := false, drained := false, stopped := false }

/-- Words that LDC emptied in voided strokes are set full again with the value read (R176). -/
def refillLdcs (s : State) (r : Region) : State :=
  (r.ldcs.reverse.filter fun l => decide (r.stroke ≤ l.1)).foldl
    (fun s l => memStore s l.2.1 (byteList 4 l.2.2.toNat) (some true)) s

/-- Commands and BARRIER marks of voided strokes that an engine holds are discarded (R187). -/
def dropCommands (key stroke : Nat) (q : List Cmd) : List Cmd :=
  q.filter fun c => c.region != key || decide (c.tok.stroke < stroke)

/-- BARRIER marks of voided strokes that wait at a reply port go with the tokens of those strokes: the replay sends
them again (R306). -/
def dropBarriers (key stroke : Nat) (q : List Cmd) : List Cmd :=
  q.filter fun c => c.tok.kind != 3 || c.region != key || decide (c.tok.stroke < stroke)

def voidEngines (s : State) (key stroke : Nat) : State :=
  let f (q : List Cmd) := dropCommands key stroke q
  let g (q : List Cmd) := dropBarriers key stroke q
  { s with
    streamers := s.streamers.map fun p => (p.1, { p.2 with
      fifo := f p.2.fifo, queue := f p.2.queue, replies := g p.2.replies })
    expanders := s.expanders.map fun p => (p.1, { p.2 with
      fifo := f p.2.fifo, queue := f p.2.queue, replies := g p.2.replies })
    weirs := s.weirs.map fun p => (p.1, { p.2 with
      fifo := f p.2.fifo, queue := f p.2.queue, replies := g p.2.replies }) }

/-- Chunks that voided strokes took return to the head of their pool, and waiting RTAKEs of the region go (R171). -/
def voidPools (s : State) (key : Nat) (r : Region) : State :=
  { s with servers := s.servers.map fun p => (p.1, { p.2 with
      queue := p.2.queue.filter fun q => !r.hasTile q.tile
      pools := p.2.pools.map fun w =>
        let back := (w.2.taken.filter fun k => k.region == key && decide (r.stroke ≤ k.stroke)).map Taken.chunk
        (w.1, { w.2 with
          chunks := back ++ w.2.chunks
          taken := w.2.taken.filter fun k => !(k.region == key && decide (r.stroke ≤ k.stroke)) }) }) }

/-- An MXLDB from the stream port that has taken rows is kept, the stream cannot deliver them again (R199). -/
def streamLoad (c : IslandCore) : Option LoadSeq :=
  match c.load with
  | some l => match l.desc with
    | some d => if bits (natOf d) 97 1 = 1 ∧ (0 < c.brow ∨ l.part ≠ []) then some l else none
    | none => none
  | none => none

/-- The load a stream load is, by its command and its place in a grouped product. -/
def LoadSeq.same (a b : LoadSeq) : Bool := a.serial == b.serial && a.sub == b.sub

/-- Whether a kept stream load can go on at once: it is the load the register recorded, or the next command. -/
def keepsGoing (back : IslandCore) (l : LoadSeq) : Bool :=
  match back.load with
  | some m => m.same l
  | none => l.sub == 0 && back.group.isNone && !(back.run.any fun r => r.buf == l.buf)
      && (match back.queue with
        | [] => back.serial == l.serial
        | c :: _ => c.serial == l.serial)

/-- The recorded register with a kept stream load: at work, or put by until its command is reached again. -/
def keepLoad (now back : IslandCore) (l : LoadSeq) : IslandCore :=
  let b := if l.buf = 0 then now.b0 else now.b1
  if keepsGoing back l then
    { back with
      load := some l, brow := now.brow
      b0 := if l.buf = 0 then b else back.b0, b1 := if l.buf = 0 then back.b1 else b
      queue := back.queue.filter fun c => c.serial != l.serial
      skip := if back.serial ≤ l.serial ∧ l.sub = 0 then some l.serial else back.skip }
  else { back with kept := some (l, b, now.brow) }

/-- An island rewound to its recorded register (R199): FCODE, FVA and ERR are no part of it.  Tokens of closed strokes
that wait at a back channel's port stay (R302). -/
def rewindIsland (stroke : Nat) (back : Nat → Bool) (x : Island) : Island :=
  let rec_ := { x.snap with work := [], fcode := x.core.fcode, fva := x.core.fva, err := x.core.err }
  let core := match streamLoad x.core with
    | some l => keepLoad x.core rec_ l
    | none => { rec_ with kept := x.core.kept.or rec_.kept }
  { x with
    core := core, snapNext := none, inject := [], stroke := stroke
    fifo := if back 8 then x.fifo.filter fun c => !c.tok.isMark && decide (c.tok.stroke < stroke) else []
    rows := x.rows.filterMap fun p =>
      if back p.1 then some (p.1, p.2.filter fun k => !k.isMark && decide (k.stroke < stroke)) else none }

/-- The region controller's own state after a void (R59, R60, R246, R279, R306); a switch that is due is dropped
(log entry 113). -/
def voidController (s : State) (r : Region) : Region :=
  let gone := (r.passedAt.filter fun n => decide (r.stroke ≤ n)).length
  { r with
    stores := (r.stores.filter fun x => decide (x.stroke < r.stroke)).map fun x =>
      { x with emptiedBy := x.emptiedBy.filter fun n => decide (n < r.stroke) }
    ldcs := r.ldcs.filter fun l => decide (l.1 < r.stroke)
    cnt0 := {}, cnt1 := {}
    planeReqs := r.planeReqs.filter fun q => decide (q.stroke < r.stroke)
    boundary := r.boundary.map fun p => (p.1, p.2.filter fun k => decide (k.stroke < r.stroke))
    passed := r.passed - gone, passedAt := r.passedAt.filter fun n => decide (n < r.stroke)
    strokeMark := false, strokeReq := r.strokeReq || !(r.closeOwed ++ r.strokeOwed).isEmpty
    strokeOwed := r.strokeOwed ++ r.closeOwed, closeOwed := [], strokeStart := originRounds s r
    drain := none, drainN := 0, switchAt := none
    freezeMark := false, freezeReq := r.freezeReq || r.freezeMark
    retire := none, kernel := if r.kernel == .draining then .firing else r.kernel }

/-- A tile and its elements after a void; a freeze wave that was under way starts again. -/
def voidSite (r : Region) (t : Nat) (x : Tile) : Tile :=
  let x := voidTile r.stroke x
  let f (e : Nat) (y : Elem) : Elem :=
    let y := voidElem r.stroke (fun c => r.back.contains (t, e, c)) y
    if r.freezeMark then { y with frozen := false } else y
  { x with elems := x.elems.map fun q => (q.1, f q.1 q.2) }

/-- A void of every stroke of a region that has not closed (R59).  `replay` is false where the kernel becomes
FAULTED with it: its islands are then not rewound (R199). -/
def voidRegion (s : State) (key : Nat) (replay : Bool) : State :=
  match s.region key with
  | none => s
  | some r =>
    let s := refillLdcs s r
    let s := { s with tiles := s.tiles.map fun p => if r.hasTile p.1 then (p.1, voidSite r p.1 p.2) else p }
    let s := voidEngines s key r.stroke
    let s := voidPools s key r
    let s := if r.freezeMark then freezeEngines s r false else s
    let s := if replay then
      (regionIslands s r).foldl (fun s en => s.modIsland en (rewindIsland r.stroke (islandBack s en))) s else s
    s.setRegion key (voidController s r)

end Sys2Proof.Machine
end

