-- ==== Sys2Proof/Machine/Service.lean ====
section
/-! DEFINITION. What follows a fault: messages to the host (R337, R338), the page-fault ring (R316), the error log
(R390, R391), power counters (R369), and the end of a kernel, a record and its queue (R188, R270, R279, R294, R318,
R332, R386 to R388). -/

namespace Sys2Proof.Machine

/-! ### Messages, context faults -/

/-- An MSI-X message (R337, R338): sent, or pending while its vector is masked; none before READY (R394). -/
def sendMsix (s : State) (v : Nat) : State :=
  if !s.bootstat.ready then s
  else
    let x := kget s.msix v {}
    if x.masked then { s with msix := kput s.msix v { x with pending := true } }
    else { s with sent := s.sent ++ [.msix v x.addr x.data] }

/-- A fault that the host is to serve reaches the context unit, which serves it in its turn (R265, R268); one that finds
another of its context waiting adds nothing to it.  Context 0 is never faulted (R262). -/
def raiseCtxFault (s : State) (c code : Nat) : State :=
  let x := s.ctx c
  if c ≠ 0 ∧ x.heldFault.isNone ∧ (x.state = .ready ∨ x.state = .running ∨ x.state = .frozen) then
    { s.setCtx c { x with heldFault := some (BitVec.ofNat 8 code) } with ctxq := s.ctxq ++ [(c, .fault, false)] }
  else s

/-! ### Handles (R232) -/

def regionKey (die id : Nat) : Nat := die * 256 + id
def genOf (s : State) (key : Nat) : Nat := (kget s.gens key (0 : BitVec 16)).toNat
def regionHandle (s : State) (key : Nat) : Nat := key / 256 + key % 256 * 4 + genOf s key * 1024

/-- The live region a handle names; none where its GEN is not current. -/
def regionOfHandle (s : State) (h : Nat) : Option Nat :=
  let key := regionKey (bits h 0 2) (bits h 2 8)
  if h / 2 ^ 26 = 0 ∧ bits h 10 16 = genOf s key then (s.region key).map fun _ => key else none

/-! ### Physical writes of the module's own units -/

/-- Bytes written to local memory; a physical address elsewhere takes none. -/
def physStore (s : State) (pa : Nat) (data : List Byte) (full : Option Bool) : State :=
  if (placeOf pa).isMemory then memStore s pa data full else s

def physRead (s : State) (pa len : Nat) : Nat := if (placeOf pa).isMemory then natOf (s.mem.reads (localPa pa) len) else 0

/-- One added to a 32-bit count word. -/
def bumpWord (s : State) (pa : Nat) : State :=
  physStore s pa (byteList 4 ((physRead s pa 4 + 1) % 2 ^ 32)) none

/-! ### The page-fault ring (R316) -/

def FaultRec.bytes (r : FaultRec) : List Byte :=
  byteList 8 r.va ++ byteList 8 (r.ctx + r.kind * 2 ^ 8 + bit r.wr * 2 ^ 12 + r.code * 2 ^ 16 + r.src * 2 ^ 32)
    ++ byteList 16 0

/-- Records that wait are written while the ring has room, at most `fuel` of them. -/
def flushFaultRing (die : Nat) : Nat → State → State
  | 0, s => s
  | fuel + 1, s =>
    let r := kget s.rings die {}
    match r.wait with
    | [] => s
    | x :: xs =>
      if r.tail - r.head = 256 then s
      else
        let s := physStore s (r.base.toNat + 32 * (r.tail.toNat % 256)) x.bytes none
        let s := bumpWord s (r.base.toNat + 0x2000)
        let s := { s with rings := kput s.rings die { r with wait := xs, tail := r.tail + 1 } }
        flushFaultRing die fuel (sendMsix s (64 + die))

/-- A serviced fault of a region or engine: its source is stopped, its record written or held for room. -/
def raisePageFault (s : State) (die : Nat) (x : FaultRec) : State :=
  let r := kget s.rings die {}
  let n := r.wait.length
  let r := { r with wait := r.wait ++ [x], stopped := r.stopped ++ [(x.kind, x.src)] }
  let s := flushFaultRing die (n + 1) { s with rings := kput s.rings die r }
  if (s.ctx x.ctx).mode.getLsbD 0 then raiseCtxFault s x.ctx x.code else s

/-- A source is no longer stopped. -/
def dropStopped (s : State) (die kind src : Nat) : State :=
  let r := kget s.rings die {}
  let r := { r with stopped := r.stopped.filter (· != (kind, src)) }
  { s with rings := kput s.rings die r }

/-! ### The error log (R390, R391) -/

def ErrInfo.bytes (x : ErrInfo) (att cls ctx q idx : Nat) : List Byte :=
  byteList 8 (x.code + x.src * 2 ^ 8 + x.die * 2 ^ 12 + att * 2 ^ 16 + cls * 2 ^ 24 + ctx * 2 ^ 26 + x.srcid * 2 ^ 32)
    ++ byteList 8 x.detail ++ byteList 8 q ++ byteList 8 idx

def saturate32 (x : W32) : W32 := if x = BitVec.allOnes 32 then x else x + 1

/-- An error record: classes 0 transient, 1 lasting, 2 not retried, 3 host-assisted. -/
def writeErr (s : State) (x : ErrInfo) (att cls ctx q idx : Nat) : State :=
  let l := s.errlog
  if l.tail - l.head = 256 then { s with errlog := { l with drop := saturate32 l.drop } }
  else
    let s := physStore s (l.base.toNat + 32 * (l.tail.toNat % 256)) (x.bytes att cls ctx q idx) none
    let s := bumpWord s (l.base.toNat + 0x2000)
    { s with errlog := { s.errlog with tail := l.tail + 1 } }

def countCorrected (s : State) : State := { s with errlog := { s.errlog with corr := saturate32 s.errlog.corr } }

/-! ### Counter blocks (R32, R369) -/

/-- A number added to a 64-bit word of a context's memory; left out where the word cannot be written (log entry
24). -/
def addWord (s : State) (die ctx va add : Nat) : State :=
  if add = 0 then s
  else match peekPages s die ctx va 8 true with
    | none => s
    | some ps =>
      let old := natOf (readPages s ps va 8)
      writePages s ps va (byteList 8 ((old + add) % 2 ^ 64)) false

/-- What a kernel's interval comes to so far (R368, R369): the hints of pump cores dropped in it count for the kernels
that fire and have had an island command outstanding in it. -/
def intervalPower (s : State) (r : Region) : Power :=
  let ts := r.sites.map s.tile
  let thr := (regionIslands s r).any fun en => (s.island en).thr
  { r.power with
    hdrop := r.power.hdrop + (if r.kernel == .firing && r.worked then kget s.hdrops (r.ctx * 4 + r.die) 0 else 0)
    deny := r.power.deny + bit (ts.any Tile.refused)
    thr := r.power.thr + bit thr
    echg := r.power.echg + (ts.map Tile.echg).sum }

/-- A denial noted for the notice of the interval's end (R368). -/
def noteDenied (s : State) (r : Region) : State :=
  if (r.sites.any fun t => (s.tile t).refused) && !s.denied.contains (r.ctx, r.die) then
    { s with denied := s.denied ++ [(r.ctx, r.die)] }
  else s

/-- The power counters of a kernel written for the interval in progress, which starts over for it. -/
def writePower (s : State) (key : Nat) : State :=
  match s.region key with
  | none => s
  | some r =>
    let p := intervalPower s r
    let words := [(0x48, p.und), (0x50, p.dry), (0x58, p.hdrop), (0x60, p.deny), (0x68, p.thr), (0x70, p.ichg), (0x78, p.echg)]
    let s := words.foldl (fun s w => addWord s r.die r.ctx (r.cntVa + w.1) w.2) s
    let s := modTiles (noteDenied s r) r fun x => { x with echg := 0, refused := false }
    s.modRegion key fun r => { r with power := {} }

/-! ### Engine commands of a region discarded (R332, R387) -/

def notOf (key : Nat) (q : List Cmd) : List Cmd := q.filter fun c => c.region != key

/-- The work of a region at an island. -/
def IslandCore.drop (key : Nat) (c : IslandCore) : IslandCore :=
  { c with
    queue := notOf key c.queue, stage := [], skip := none
    load := c.load.filter fun l => l.region != key
    kept := c.kept.filter fun l => l.1.region != key
    run := c.run.filter fun l => l.region != key
    drain := c.drain.filter fun l => l.region != key
    group := c.group.filter fun l => l.region != key }

/-- The same where its kernel is over: no BARRIER of it is counted any more. -/
def IslandCore.discard (key : Nat) (c : IslandCore) : IslandCore := { c.drop key with barIn := [], barOut := 0 }

/-- A region's commands and tokens taken out of an island, its register and its snapshots as `f` leaves them. -/
def Island.clearOf (key : Nat) (f : IslandCore → IslandCore) (x : Island) : Island :=
  { x with core := f x.core, snap := f x.snap, snapNext := x.snapNext.map f
           fifo := notOf key x.fifo, rows := [], bport := [], inject := [] }

def Island.discard (key : Nat) (x : Island) : Island := x.clearOf key (IslandCore.discard key)

def Expander.discard (key : Nat) (x : Expander) : Expander :=
  let mine := x.owner == some key
  { x with fifo := notOf key x.fifo, queue := notOf key x.queue, job := x.job.filter fun j => j.region != key
           part := if mine then [] else x.part, poison := if mine then none else x.poison }

/-- Every command of a region still held by any engine is discarded. -/
def discardCommands (s : State) (key : Nat) : State :=
  match s.region key with
  | none => s
  | some r =>
    let s := (regionIslands s r).foldl (fun s en => s.modIsland en (Island.discard key)) s
    { s with
      streamers := s.streamers.map fun p => (p.1, { p.2 with
        fifo := notOf key p.2.fifo, queue := notOf key p.2.queue
        job := p.2.job.filter fun j => j.region != key || j.ending.isSome })
      expanders := s.expanders.map fun p => (p.1, p.2.discard key)
      weirs := s.weirs.map fun p => (p.1, { p.2 with
        fifo := notOf key p.2.fifo, queue := notOf key p.2.queue, job := p.2.job.filter fun j => j.region != key }) }

/-! ### Replies to pump cores (R233) -/

/-- The reply to a request in flight, which CONFIG_REPLY_ARRIVAL brings to the core; TAG stands where R233 has it (log
entry 126). -/
def replyTo (s : State) (o : Owed) (code info data : Nat) : State :=
  let word := 2 ^ 63 + o.kind * 2 ^ 56 + code % 256 * 2 ^ 48 + o.tag.toNat * 2 ^ 32 + info % 2 ^ 32
  let r : CfgReply := ⟨BitVec.ofNat 64 word, BitVec.ofNat 64 data⟩
  s.modCore o.core fun c => { c with cfgOut := c.cfgOut.map fun q =>
    if q.no = o.no ∧ q.reply.isNone then { q with waits := false, reply := some r } else q }

def replyAll (s : State) (os : List Owed) (code info : Nat) : State := os.foldl (fun s o => replyTo s o code info 0) s

/-- Requests of a region whose kernel ends before they are done: the stroke ends and the prime they wait for do not
come (R231). -/
def failOwed (s : State) (key : Nat) : State :=
  match s.region key with
  | none => s
  | some r =>
    let s := s.setRegion key { r with primeOwed := [], closeOwed := [], strokeOwed := [] }
    replyAll (replyAll s (r.closeOwed ++ r.strokeOwed) 2 1) r.primeOwed 2 0

/-- The same for a region that is gone. -/
def failAllOwed (s : State) (key : Nat) : State :=
  let s := failOwed s key
  match s.region key with
  | none => s
  | some r => replyAll (s.setRegion key { r with freezeOwed := [], spineOwed := [] }) (r.freezeOwed ++ r.spineOwed) 2 0

/-! ### Freezing a region (R246) -/

/-- A FREEZE: a wave where the kernel fires, else the region is frozen at once. -/
def freezeRegion (s : State) (key : Nat) : State :=
  s.modRegion key fun r =>
    if r.frozen then { r with reloadFreeze := false }
    else if r.kernel == .firing || r.kernel == .draining then { r with freezeReq := true, reloadFreeze := false }
    else { r with frozen := true }

/-! ### A record fails (R270, R332, R388) -/

/-- The codes for which the queue engine re-issues a record. -/
def retried (code : Nat) : Bool := code == 6 || code == 7 || code == 8 || code == 9 || code == 0x0E

/-- The error record of a failure whose class is known at the failure, and REISS = 1. -/
def classify (s : State) (c q : Nat) (st : Started) (x : ErrInfo) : State :=
  let reiss := (s.ctx c).mode.getLsbD 1
  if 2 ≤ st.attempt then writeErr s (st.err.getD x) 2 1 c q st.index
  else if reiss then writeErr s x 1 3 c q st.index
  else if retried x.code then s
  else writeErr s x 1 2 c q st.index

/-- A started or head record fails: its queue halts with the code, or, halted already, keeps it for the same RETRY. -/
def failRecord (s : State) (q : Nat) (st : Started) (x : ErrInfo) : State :=
  let c := (s.queue q).ctx.toNat
  let s := classify s c q st x
  let failed : Started := { st with
    failed := some (BitVec.ofNat 8 x.code), err := some (st.err.getD x), region := none, step := 0, done := false }
  let u := s.queue q
  let rest := u.started.filter fun y => y.index != st.index
  if u.state == .halted then s.setQueue q { u with started := rest ++ [failed] }
  else
    let s := s.setQueue q { u with
      state := .halted, ecode := BitVec.ofNat 8 x.code, lasterr := BitVec.ofNat 64 st.index
      started := rest, failedRec := some failed }
    let s := sendMsix s c
    if (s.ctx c).mode.getLsbD 1 then raiseCtxFault s c x.code else s

/-- The started record a region's kernel runs. -/
def recordOf (s : State) (r : Region) : Option (Nat × Started) :=
  match r.record with
  | none => none
  | some (q, i) => ((s.queue q).started.find? fun y => y.index == i).map fun st => (q, st)

/-! ### READY and RUNNING (R263) -/

/-- Whether a kernel of a context is FIRING or DRAINING. -/
def ctxFires (s : State) (c : Nat) : Bool :=
  s.regions.any fun p => p.2.ctx == c && (p.2.kernel == .firing || p.2.kernel == .draining)

/-- READY and RUNNING follow the kernels of the context. -/
def settleCtx (s : State) (c : Nat) : State :=
  s.modCtx c fun x => match x.state with
    | .ready | .running => { x with state := if ctxFires s c then .running else .ready }
    | _ => x

/-! ### The end of a kernel -/

/-- The other members of a group are frozen when one becomes FAULTED (R294). -/
def freezeGroup (s : State) (key : Nat) : State :=
  match (s.region key).bind Region.group with
  | none => s
  | some g =>
    match kfind s.groups g with
    | none => s
    | some x => (x.members.filter (· != key)).foldl freezeRegion s

/-- A kernel becomes FAULTED (R279, R332, R387): its open strokes voided, its engine commands discarded, its power
counters written, its queue halted. -/
def kernelFault (s : State) (key : Nat) (x : ErrInfo) : State :=
  match s.region key with
  | none => s
  | some r =>
    if r.kernel == .none || r.kernel == .faulted || r.kernel == .retired then s
    else
      let s := voidRegion s key false
      let s := discardCommands s key
      let s := if r.kernel == .firing || r.kernel == .draining then writePower s key else s
      let s := dropStopped s r.die 0 (regionHandle s key)
      let s := s.modRegion key fun r => { r with
        kernel := .faulted, fcode := BitVec.ofNat 8 x.code, ended := true, stopped := false, faultRec := none
        retire := none, priming := none }
      let s := failOwed s key
      let s := settleCtx (freezeGroup s key) r.ctx
      match recordOf s r with
      | some (q, st) => failRecord s q st x
      | none => writeErr s x 1 2 r.ctx 0 0

/-- A region's fault as an error record names it. -/
def regionErr (s : State) (key code detail : Nat) : ErrInfo := ⟨code, 0, key / 256, regionHandle s key, detail⟩

/-- The work of a region that can never end once its sources have stopped: what its islands hold, and the jobs that
feed a stream port (log entry 99). -/
def dropFed (s : State) (key : Nat) : State :=
  match s.region key with
  | none => s
  | some r =>
    let s := (regionIslands s r).foldl (fun s en => s.modIsland en fun x => x.clearOf key (IslandCore.drop key)) s
    { s with expanders := s.expanders.map fun p => (p.1, { p.2 with
        job := p.2.job.filter fun j => j.region != key || bits (natOf j.desc) 96 1 == 0 }) }

/-- Poisoned data (R318): the region voids its open strokes, stops its sources and retires with DERR. -/
def poisonRegion (s : State) (key : Nat) : State :=
  match s.region key with
  | none => s
  | some r =>
    if r.kernel == .firing || r.kernel == .draining then
      let s := dropFed (voidRegion s key true) key
      s.modRegion key fun r => { r with kernel := .draining, derr := true, ended := true, retire := some r.stroke }
    else s

/-- A fault found by a region: serviced, poison, or the end of its kernel (R177, R315, R392). -/
def regionFault (s : State) (key code va detail : Nat) (wr : Bool) : State :=
  match s.region key with
  | none => s
  | some r =>
    if code = 1 ∨ code = 2 then
      let s := voidRegion s key true
      let s := s.modRegion key fun r => { r with stopped := true, faultRec := some (va, code, wr) }
      raisePageFault s r.die ⟨0, regionHandle s key, r.ctx, va, wr, code⟩
    else if code = 5 then poisonRegion s key
    else
      let s := if code = 0x0D then
        match peekPages s r.die r.ctx (r.cntVa + 0x38) 8 true with
        | none => s
        | some ps => writePages s ps (r.cntVa + 0x38)
            (byteList 8 (natOf (readPages s ps (r.cntVa + 0x38) 8) ||| va % 8)) false
      else s
      kernelFault s key (regionErr s key code detail)

/-- An uncorrectable error of a region's own storage (R384), where its reader is this element or the region controller:
a FIFO head and a cistern granule keep it until a rule reads them; the other stores raise 0x06 at their reader (log
entry 98). -/
def storageFault (s : State) (key t e n : Nat) : StoreFault → State
  | .fifo => if ((s.elem t e).head n).isSome then
      s.modElem t e fun y => y.setChan n { y.chan n with parity := true } else s
  | .cistern => s.modTile t fun x => { x with badCistern := fullSet x.badCistern n }
  | .buffer => match (s.region key).bind fun r => r.stores.find? fun x => x.id == n with
    | none => s
    | some _ => regionFault (s.modRegion key fun r => { r with stores := r.stores.filter fun x => x.id != n }) key 6 0 0 false
  | .undo | .snapshot => regionFault s key 6 0 0 false
  | .shadow => s.modRegion key fun r => { r with shadow := r.shadow.map fun x => { x with bad := true } }
  | .elemTlb => s.modElem t e fun y => { y with utlb := y.utlb.eraseIdx n }
  | .none | .dieTlb | .coreTlb | .dataCache => s

/-- MEMORY_FAULT_FOUND (R177): the fault of an aborted rule that waits for the region controller, a fault found by
a walk or with returning data, or a storage error (R384). -/
def execMemoryFaultFound (t e rq : Nat) (what : StoreFault) (s : State) : Result :=
  match what with
  | .dieTlb => .next { s with ltlb := kmod s.ltlb t fun l => l.eraseIdx rq }
  | .coreTlb => .next (s.modCore t fun c => { c with tlb := c.tlb.eraseIdx rq })
  | .dataCache => .next (s.modCore t fun c => { c with dcache := c.dcache.eraseIdx rq })
  | what =>
    let y := s.elem t e
    match regionOf s t with
    | none => .next s
    | some key =>
      if y.voidDue then .next (regionFault s key y.efault.code.toNat y.fva 0 y.fwr)
      else
        match y.reqs.find? fun q => q.id == rq && q.fault.isSome with
        | some q =>
          let (code, va) := q.fault.getD (0, 0)
          let op := bits (slotWord y q.plane q.slot).toNat 30 8
          let wr := q.kind == .store
          let detail := if code = 5 ∨ code = 6 then paIn q.pages va else 0
          let s := abortElem s t e q.plane q.slot op code va wr
          .next (regionFault s key code va detail wr)
        | none => .next (storageFault s key t e rq what)

end Sys2Proof.Machine
end

