-- ==== Sys2Proof/Machine/Net.lean ====
section
/-! DEFINITION. Traffic to other modules (R220, R334, R340), and reads and writes of an access that may reach the
near tier, the far tier and the tiers of other modules. -/

namespace Sys2Proof.Machine

/-! ### Sending a flit (R334, R340) -/

/-- The Griral link that traffic to a module leaves by: ports 0 to 11 are links 1 to 12. -/
def routeLink (s : State) (m : Nat) : Nat := (s.routes.toList.getD m 0).toNat + 1

def Link.carries (l : Link) : Bool := l.state == .up || l.state == .degraded

def State.link (s : State) (k : Nat) : Link := kget s.links k {}
def State.setLink (s : State) (k : Nat) (l : Link) : State := { s with links := kput s.links k l }

/-- Requests that name a dead link, and flits discarded, counted in DROP, saturating. -/
def dropFlits (s : State) (k n : Nat) : State :=
  s.setLink k { s.link k with drop := min (2 ^ 32 - 1) ((s.link k).drop + n) }

/-- Whether the route to a module leads to no link that is UP or DEGRADED: a request is not issued (R334). -/
def deadRoute (s : State) (m : Nat) : Bool := decide (12 < routeLink s m) || !(s.link (routeLink s m)).carries

/-- A flit put into the retry buffer of a link. -/
def holdFlit (s : State) (k : Nat) (f : Flit) : State := s.setLink k { s.link k with held := (s.link k).held ++ [f] }

/-- A request for another module; none where its route is dead. -/
def sendFlit (s : State) (dst : Nat) (body : FlitBody) : Option State :=
  if deadRoute s dst then none else some (holdFlit s (routeLink s dst) ⟨Config.moduleNumber.toNat, dst, body⟩)

/-- A flit that goes on its way: a link that trains holds it over the training (R320, R334); a dead one drops it, which
DROP counts. -/
def passFlit (s : State) (f : Flit) : State :=
  let k := routeLink s f.dst
  if decide (k ≤ 12) && ((s.link k).carries || (s.link k).state == .training) then holdFlit s k f else dropFlits s k 1

/-- A flit of this module that nobody waits for. -/
def sendOrDrop (s : State) (dst : Nat) (body : FlitBody) : State := passFlit s ⟨Config.moduleNumber.toNat, dst, body⟩

/-- The frame of an address as the marks of R312 name it: frames of other modules under names of their own. -/
def frameKey (pa : Nat) : Nat := if (placeOf pa).isRemote then 2 ^ 40 + pa / 2 ^ 16 else localPa pa / 2 ^ 16

/-- A write of this module to a frame of another one, as R312 marks it. -/
def markRemote (s : State) (pa : Nat) : State :=
  { s with writeSeq := s.writeSeq + 1, dirty := kput s.dirty (frameKey pa) (s.writeSeq + 1) }

/-- A committed store to another module: flits of at most 240 bytes of payload (R340). -/
def sendStore (dst : Nat) : Nat → State → Nat → List Byte → State
  | 0, s, _, _ => s
  | n + 1, s, pa, bs =>
    if bs.isEmpty then s
    else sendStore dst n (sendOrDrop (markRemote s pa) dst (.store pa (bs.take 240))) (pa + 240) (bs.drop 240)

/-! ### Reads -/

/-- What a read comes to. -/
inductive ReadOut where
  | bytes (bs : List Byte)
  | wait
  | fault (code va : Nat)
  deriving DecidableEq, Repr

/-- A remote load of at most 64 bytes: asked once, then waited for. -/
def remotePiece (s : State) (waiter pa len : Nat) : ReadOut × State :=
  match s.remotes.find? fun r => r.waiter == waiter && r.pa == pa && r.len == len with
  | some r => (match r.answer with
    | none => .wait
    | some (bs, 0) => .bytes bs
    | some (_, c) => .fault c 0, s)
  | none =>
    let id := s.nextId
    match sendFlit s (pa / 2 ^ 46) (.load pa len id) with
    | some s => (.wait, { s with nextId := id + 1, remotes := s.remotes ++ [⟨id, pa / 2 ^ 46, waiter, pa, len, none⟩] })
    | none => (.fault 6 0, dropFlits s (routeLink s (pa / 2 ^ 46)) 1)

/-- A span cut into pieces of 64 bytes. -/
def pieces : Nat → Nat → Nat → List (Nat × Nat)
  | 0, _, _ => []
  | fuel + 1, pa, len => if len ≤ 64 then [(pa, len)] else (pa, 64) :: pieces fuel (pa + 64) (len - 64)

def ReadOut.join : ReadOut → ReadOut → ReadOut
  | .bytes a, .bytes b => .bytes (a ++ b)
  | .fault c v, _ => .fault c v
  | _, .fault c v => .fault c v
  | _, _ => .wait

def remoteSpan (waiter : Nat) : List (Nat × Nat) → State → ReadOut × State
  | [], s => (.bytes [], s)
  | p :: ps, s =>
    let (a, s) := remotePiece s waiter p.1 p.2
    let (b, s) := remoteSpan waiter ps s
    (a.join b, s)

/-- The bytes of an access, span by span. -/
def readSpansAny (waiter va : Nat) : List (Nat × Nat) → State → ReadOut × State
  | [], s => (.bytes [], s)
  | p :: ps, s =>
    let (a, s) : ReadOut × State :=
      if (placeOf p.1).isMemory then (.bytes (s.mem.reads (localPa p.1) p.2), s)
      else if (placeOf p.1).isRemote then remoteSpan waiter (pieces (p.2 / 64 + 1) p.1 p.2) s
      else (.fault 2 va, s)
    let (b, s) := readSpansAny waiter va ps s
    (a.join b, s)

/-- The requests of a waiter for the bytes of some spans are over. -/
def doneRemotes (waiter : Nat) (spans : List (Nat × Nat)) (s : State) : State :=
  { s with remotes := s.remotes.filter fun r =>
      !(r.waiter == waiter && spans.any fun p => overlaps p.1 p.2 r.pa r.len) }

/-- A read by an agent named `waiter`; its answered requests go when the read ends. -/
def readAny (s : State) (waiter : Nat) (ps : List Page) (va len : Nat) : ReadOut × State :=
  let spans := readSpans ps (ps.length + 1) va len
  let (out, s) := readSpansAny waiter va spans s
  match out with
  | .wait => (.wait, s)
  | .bytes bs => (.bytes bs, doneRemotes waiter spans s)
  | .fault c v => (.fault c (if v = 0 then va else v), doneRemotes waiter spans s)

/-! ### Writes -/

/-- A write that can no longer fault: a dead link drops and counts its flits. -/
def writeSpansSure : List (Nat × List Byte) → Option Bool → State → State
  | [], _, s => s
  | p :: ps, full, s =>
    writeSpansSure ps full (if (placeOf p.1).isRemote then sendStore (p.1 / 2 ^ 46) (p.2.length / 240 + 1) s p.1 p.2
      else physStore s p.1 p.2 full)

/-- A remote address whose route is dead. -/
def deadPa (s : State) (pa : Nat) : Bool := (placeOf pa).isRemote && deadRoute s (pa / 2 ^ 46)

/-- Bytes performed where an access leads; a span on a dead route faults with 0x06 before any is (R334).  On an FE page
each word is set full where `setFull` asks. -/
def writeAny (s : State) (ps : List Page) (va : Nat) (data : List Byte) (setFull : Bool) : ReadOut × State :=
  let spans := spansOf ps (ps.length + 1) va data
  match spans.find? fun p => deadPa s p.1 with
  | some p => (.fault 6 va, dropFlits s (routeLink s (p.1 / 2 ^ 46)) 1)
  | none => (.bytes [], writeSpansSure spans (if setFull && ps.any (·.fe) then some true else none) s)

/-- Whether every word of an access on an FE page is full. -/
def wordsFull (s : State) (ps : List Page) (va len : Nat) : Bool :=
  !(ps.any (·.fe)) || (readSpans ps (ps.length + 1) va len).all fun p =>
    (wordsOf (localPa p.1) p.2).all (fullAt s.full)

end Sys2Proof.Machine
end

