-- ==== Sys2Proof/Machine/FabricEvents.lean ====
section
/-! DEFINITION. The steps that finish what an element started: walks and returning data (R168, R169, R172 to R177),
full-empty words (R175, R176), range tokens (R171), loop cuts (R163), marks (R57, R58, R60, R199, R397), the close
of a stroke and its stores (R58, R59, R65, R297, R306). -/

namespace Sys2Proof.Machine

/-! ### Answers to requests -/

/-- A request answered: its slot and its held output free, its result and =p written. -/
def answer (s : State) (t e : Nat) (q : MemReq) (ws : List PWrite) (res : Bool) : State :=
  let s := s.modElem t e fun y => { y with reqs := y.reqs.filter fun r => r.id != q.id }
  let s := match q.dst with
    | .out c => holdOut s t e c.val (· - 1)
    | _ => s
  applyWrites s t e (ws ++ (match q.pred with
    | some p => [.pred p res]
    | none => []))

def findReq (s : State) (t e rq : Nat) : Option MemReq := (s.elem t e).reqs.find? fun q => q.id == rq

def modReq (s : State) (t e rq : Nat) (f : MemReq → MemReq) : State :=
  s.modElem t e fun y => { y with reqs := y.reqs.map fun q => if q.id = rq then f q else q }

/-- An element's translation through its micro-TLB (R313). -/
def elemTranslate (s : State) (t e va len : Nat) (want : Want) : Access × State :=
  let (a, tlb, s) := translateAccess s (dieOf t) (ctxAt s t) 64 (s.elem t e).utlb va len want
  (a, s.modElem t e fun y => { y with utlb := tlb })

/-- The stores of a region's buffers that belong to a request's walk. -/
def modStores (s : State) (t : Nat) (f : RStore → RStore) : State :=
  match regionOf s t with
  | none => s
  | some k => s.modRegion k fun r => { r with stores := r.stores.map f }

/-- PAGE_WALK_COMPLETE (R169, R177, R313): the pages of an access, or its fault, are known. -/
def execPageWalkComplete (t e rq : Nat) (s : State) : Result :=
  match findReq s t e rq with
  | none => .next s
  | some q =>
    if q.walked then .next s
    else
      let store := (regionAt s t).bind fun r => r.stores.find? fun x => x.id == rq
      let want : Want := { write := q.kind == .store, fe := q.kind == .lds || q.kind == .ldc || store.any (·.stf) }
      match q.kind with
      | .xlat _ | .take => .next s
      | _ =>
        let (a, s) := elemTranslate s t e q.va q.len want
        match a with
        | .wait => .next s
        | .fault c va => .next (modReq s t e rq fun q => { q with walked := true, fault := some (c, va) })
        | .pages ps =>
          if q.kind = .store then
            let s := s.modElem t e fun y => { y with reqs := y.reqs.filter fun r => r.id != rq }
            .next (modStores s t fun x => if x.id = rq then { x with pages := ps, walk := false } else x)
          else .next (modReq s t e rq fun q => { q with walked := true, pages := ps })

/-- XLAT_WALK_COMPLETE (R168): a translated token, or a fault token; XLAT itself never aborts. -/
def execXlatWalkComplete (t e rq : Nat) (s : State) : Result :=
  match findReq s t e rq with
  | none => .next s
  | some q =>
    match q.kind with
    | .xlat wr =>
      let x := addrTok q.token.toNat
      let (a, s) := elemTranslate s t e q.va 1 { write := wr }
      (match a with
      | .wait => .next s
      | .fault c _ => .next (answer s t e q (tokenRes q.dst (x.faulty c).data 0) true)
      | .pages ps =>
        match ps with
        | p :: _ => .next (answer s t e q (tokenRes q.dst (x.translated p (dieEpoch s (dieOf t))).data 0) false)
        | [] => .next s)
    | _ => .next s

/-! ### Data and full-empty words -/

/-- Bytes of a store laid over bytes read at an address. -/
def overlay (va : Nat) (bs : List Byte) (x : RStore) : List Byte :=
  (List.range bs.length).map fun i =>
    if x.va ≤ va + i ∧ va + i < x.va + x.data.length then x.data.getD (va + i - x.va) 0 else bs.getD i 0

/-- What a load of a class returns (R174): memory under the class's buffered stores, oldest first. -/
def forwarded (s : State) (t cls va : Nat) (bs : List Byte) : List Byte :=
  match regionAt s t with
  | none => bs
  | some r => (r.stores.filter fun x => x.cls == cls).foldl (overlay va) bs

/-- Writes of returning data by kind: LD, LDS and LDC extend a scalar, VLD returns a vector. -/
def loadWrites (q : MemReq) (bs : List Byte) : List PWrite × Bool :=
  match q.kind with
  | .load w n => let v := extendNarrow w n (natOf bs); (scalarRes q.dst v, v != 0)
  | .vload => (vectorRes q.dst (natOf bs), false)
  | _ => let v := natOf bs; (scalarRes q.dst v, v != 0)

/-- LOAD_DATA_RETURN (R172, R174): the data of an LD or VLD. -/
def execLoadDataReturn (t e rq : Nat) (s : State) : Result :=
  match findReq s t e rq with
  | none => .next s
  | some q =>
    match q.kind with
    | .load _ _ | .vload =>
      if q.walked && q.fault.isNone then
        let (out, s) := readAny s rq q.pages q.va q.len
        (match out with
        | .wait => .next s
        | .fault c va => .next (modReq s t e rq fun q => { q with fault := some (c, va) })
        | .bytes bs =>
          let (ws, res) := loadWrites q (forwarded s t q.cls q.va bs)
          .next (answer s t e q ws res))
      else .next s
    | _ => .next s

/-- The newest STF of a class on a word in the region's buffers (R175). -/
def bufferedStf (s : State) (t cls va : Nat) : Option RStore :=
  (regionAt s t).bind fun r => (r.stores.filter fun x => x.stf && x.cls == cls && x.va == va).getLast?

/-- FE_WORD_FULL_WAKE (R174 to R176): a waiting LDS or LDC finds its word full and returns it under the class's
buffered stores; an LDC takes it. -/
def execFeWordFullWake (t e rq : Nat) (s : State) : Result :=
  match findReq s t e rq with
  | none => .next s
  | some q =>
    if (q.kind == .lds || q.kind == .ldc) && q.walked && q.fault.isNone then
      match bufferedStf s t q.cls q.va with
      | some x =>
        if x.emptiedBy.isSome then .next s
        else
          let (ws, res) := loadWrites q (forwarded s t q.cls q.va x.data)
          let s := if q.kind = .ldc then
            modStores s t fun y => if y.id = x.id then { y with emptiedBy := some q.stroke } else y else s
          .next (answer s t e q ws res)
      | none =>
        let pa := localPa (paIn q.pages q.va)
        if fullAt s.full pa then
          let bs := s.mem.reads pa 4
          let (ws, res) := loadWrites q (forwarded s t q.cls q.va bs)
          let s := if q.kind = .ldc then
            match regionOf s t with
            | none => memEmpty s pa
            | some k => (memEmpty s pa).modRegion k fun r =>
                { r with ldcs := r.ldcs ++ [(q.stroke, pa, BitVec.ofNat 32 (natOf bs))] }
          else s
          .next (answer s t e q ws res)
        else .next s
    else .next s

/-- RANGE_TOKEN_REPLY (R68, R171): the range server's answer reaches the element. -/
def execRangeTokenReply (t e rq : Nat) (s : State) : Result :=
  match findReq s t e rq with
  | none => .next s
  | some q =>
    match q.kind, q.answer with
    | .take, some k => .next (answer s t e q (tokenRes q.dst k.data k.tag) (k.tag == 1))
    | _, _ => .next s

/-! ### Loop cuts (R163) -/

/-- A member takes the CUT; one that has passed a STROKE mark the header has not passed keeps it in the snapshot it
took there as well, so that a void to that mark does not lose it. -/
def Elem.takeCut (cut : Nat × Nat) (stroke : Nat) (y : Elem) : Elem :=
  let put (c : ElemCore) : ElemCore := { c with cut := some cut }
  { y with core := put y.core, snapNext := if stroke < y.stroke then y.snapNext.map put else y.snapNext }

/-- CUT_ARRIVAL: the header takes the CUT, stops starting iterations and sends it with I to every member. -/
def execCutArrival (t e : Nat) (s : State) : Result :=
  let y := s.elem t e
  match y.loop with
  | some (l, true) =>
    match y.inputs.find? fun c => (match y.head c with | some k => k.kind == 4 | none => false) with
    | none => .next s
    | some c =>
      if y.core.cut.isSome || y.faulted || y.frozen then .next s
      else
        let k := (y.head c).getD ⟨0, 0, 0⟩
        let cut := (bits k.data.toNat 32 32, y.core.loopI)
        let s := s.modElem t e fun y => y.dropHead c
        match regionAt s t with
        | none => .next s
        | some r => .next (modElems s r fun z => if z.loop.any (fun m => m.1 == l) then z.takeCut cut y.stroke else z)
  | _ => .next s

/-! ### Engine ports of a region (R288, R289) -/

/-- The targets of an engine's outward port: EXTID kind and low bits, within the regions of its die. -/
def inboundTargets (s : State) (die src : Nat) : List (Nat × Target) :=
  s.regions.flatMap fun p =>
    if p.2.die = die then (p.2.inbound.filter fun b => b.src == src).map fun b => (p.1, .chan b.tile b.elem b.chan) else []

/-- The drain ports of an island that are bound: port and target. -/
def drainTargets (s : State) (en : Nat) : List (Nat × Target) :=
  (List.range 8).flatMap fun c => (inboundTargets s (en / 64) (0x200 + en % 64 + 16 * c)).map fun p => (c, p.2)

def targetFree (s : State) (n : Nat) : Target → Bool
  | .chan t e c => decide (((s.elem t e).chan c).count + n ≤ capacity s t e c)
  | _ => true

def Island.headAt (x : Island) (port : Nat) : Option Token :=
  if port = 8 then x.fifo.head?.map Cmd.tok else (kget x.rows port []).head?

def Island.dropAt (x : Island) (port : Nat) : Island :=
  if port = 8 then { x with fifo := x.fifo.tail } else { x with rows := kput x.rows port (kget x.rows port []).tail }

/-- A mark goes out on the drain ports between rows (R195, R199). -/
def islandCanForward (s : State) (en : Nat) : Bool :=
  ((s.island en).core.drain.all fun d => d.part == 0) && (drainTargets s en).all fun p => targetFree s 1 p.2

def islandForward (s : State) (en : Nat) (k : Token) : State :=
  (drainTargets s en).foldl (fun s p => match p.2 with
    | .chan t _ _ => deliver s t k p.2
    | _ => s) s

/-- The island's share of a mark. -/
def Island.act (x : Island) (kind : Nat) : Island :=
  match kind with
  | 0 => { x with snapNext := some x.core, stroke := x.stroke + 1 }
  | 2 => { x with frozen := true }
  | _ => x

/-- The mark an island can act on (R199). -/
def islandMark (s : State) (en : Nat) : Option Token :=
  let x := s.island en
  match islandAligned s en with
  | [] => x.inject.head?
  | c :: cs => match x.headAt c with
    | none => none
    | some k => if decide (k.kind < 3) && cs.all (fun c' => match x.headAt c' with
        | some k' => k'.kind == k.kind
        | none => false) then some k else none

/-- MARK_ALIGNED (R57, R58, R60, R199). -/
def execMarkAligned (at_ : MarkSite) (s : State) : Result :=
  match at_ with
  | .elem t e =>
    let y := s.elem t e
    if y.faulted || y.frozen then .next s
    else match alignedMark s t e with
    | none => .next s
    | some k =>
      if canForward s t e false then
        let s := passMark s t e k
        if k.kind = 1 then
          match regionOf s t with
          | some key => .next (drainPassed s key)
          | none => .next s
        else .next s
      else .next s
  | .island en =>
    match islandMark s en with
    | none => .next s
    | some k =>
      if islandCanForward s en && !(s.island en).frozen then
        let ports := islandAligned s en
        let s := s.modIsland en fun x =>
          (if ports.isEmpty then { x with inject := x.inject.tail } else ports.foldl Island.dropAt x).act k.kind
        .next (islandForward s en k)
      else .next s

/-- BARRIERs taken off the heads of an island's ports, each counted (R397). -/
def Island.takeBarriers (x : Island) (ports : List Nat) : Island :=
  ports.foldl (fun x c => match x.headAt c with
    | some k => if k.kind = 3 then
        let x := x.dropAt c
        { x with core := { x.core with barIn := kput x.core.barIn c (kget x.core.barIn c 0 + 1) } }
      else x
    | none => x) x

/-- BARRIER_ALIGNED (R303, R397, R199): the next BARRIER is forwarded once every aligned input has delivered it. -/
def execBarrierAligned (at_ : MarkSite) (s : State) : Result :=
  match at_ with
  | .elem t e =>
    let y := s.elem t e
    if barrierReady s t e && canForward s t e true && !y.faulted && !y.frozen then .next (passBarrier s t e) else .next s
  | .island en =>
    if (s.island en).frozen then .next s
    else
      let ports := islandAligned s en
      let s := s.modIsland en fun x => x.takeBarriers ports
      let c := (s.island en).core
      if !ports.isEmpty && ports.all (fun p => decide (c.barOut < kget c.barIn p 0)) && islandCanForward s en then
        let s := s.modIsland en fun x => { x with core := { x.core with barOut := x.core.barOut + 1 } }
        .next (islandForward s en (markToken 3 (s.island en).stroke))
      else .next s

/-! ### The close of a stroke (R58) -/

def closeElem (y : Elem) : Elem :=
  { y with snap := y.snapNext.getD y.core, snapNext := none
           rec0 := y.rec1, rec0On := y.rec1On, rec1 := [], rec1On := [] }

def closeTile (stroke : Nat) (x : Tile) : Tile :=
  { x with snap := x.snapNext.getD x.snap, snapNext := none
           undo := x.undo.filter fun u => decide (stroke < u.stroke)
           elems := x.elems.map fun p => (p.1, closeElem p.2) }

/-- An island's working rows become committed (R199). -/
def closeIsland (x : Island) : Island :=
  match x.snapNext with
  | none => x
  | some c => { x with snap := { c with work := [] }, snapNext := none
                       com := c.work.foldl (fun m p => kput m p.1 p.2) x.com }

/-- The consumer of a boundary port of a group (R296). -/
def boundaryTarget (s : State) (g port : Nat) : Option Target :=
  match kfind s.groups g with
  | none => none
  | some x => (x.members.flatMap fun k => match s.region k with
      | some r => (r.inbound.filter fun b => b.src == 0x500 + port).map fun b => Target.chan b.tile b.elem b.chan
      | none => []).head?

/-- Tokens of closed strokes leave the boundary ports of a region; a stepped group lets them go only in STEPPING
(R297). -/
def releaseBoundary (s : State) (key : Nat) : State :=
  match s.region key with
  | none => s
  | some r =>
    match r.group with
    | none => s
    | some g =>
      match kfind s.groups g with
      | none => s
      | some x =>
        if x.step.isSome && x.state != .stepping then s
        else
          let s := r.boundary.foldl (fun s p => match boundaryTarget s g p.1 with
            | some (.chan t e c) =>
              (p.2.filter fun k => decide (k.stroke < r.stroke)).foldl (fun s k => deliver s t k (.chan t e c)) s
            | _ => s) s
          s.modRegion key fun r => { r with boundary := r.boundary.map fun p =>
            (p.1, p.2.filter fun k => !decide (k.stroke < r.stroke)) }

/-- One arrival of a region at its group's step barrier (R298, R304, R306). -/
def regionArrival (s : State) (r : Region) : State :=
  match r.group.bind (kfind s.groups) with
  | some g => match g.step with
    | some b =>
      let k := r.ctx * 32 + b
      let x := kget s.barriers k {}
      { s with barriers := kput s.barriers k { x with inbox := x.inbox ++ [(none, Config.moduleNumber.toNat)] } }
    | none => s
  | none => s

/-- Counts of the closed stroke enter the counter block (R33), which is read again for the next (R34). -/
def commitCounts (s : State) (key : Nat) : State :=
  match s.region key with
  | none => s
  | some r =>
    let c := r.cnt0
    let s := [(0, c.sat), (8, c.ftz), (0x10, c.nan), (0x18, c.ixd)].foldl
      (fun s w => addWord s r.die r.ctx (r.cntVa + w.1) w.2) s
    let get (off : Nat) := peek s r.die r.ctx (r.cntVa + off) 8
    let base : Counts := ⟨get 0, get 8, get 0x10, get 0x18⟩
    s.modRegion key fun r => { r with cnt0 := r.cnt1, cnt1 := {}, cntBase := base }

/-- Whether the ending mark has passed every element and island of a region. -/
def strokePassed (s : State) (r : Region) : Bool :=
  r.strokeMark && ((regionElems s r).all fun p => (s.elem p.1 p.2).stroke == r.stroke + 1)
    && (regionIslands s r).all fun en => (s.island en).stroke == r.stroke + 1

/-- The arrivals of a region whose strokes' stores, and those of earlier strokes, have been performed go out (R322). -/
def sendArrivals (s : State) (key : Nat) : State :=
  match s.region key with
  | none => s
  | some r =>
    let held (n : Nat) : Bool := r.stores.any fun x => decide (x.stroke ≤ n)
    let go := r.arriving.filter fun n => !held n
    go.foldl (fun s _ => regionArrival s r) (s.setRegion key { r with arriving := r.arriving.filter held })

/-- STROKE_CLOSE (R58, R297, R306). -/
def execStrokeClose (k : Nat) (s : State) : Result :=
  match s.region k with
  | none => .next s
  | some r =>
    if strokePassed s r then
      let s := modTiles s r (closeTile r.stroke)
      let s := (regionIslands s r).foldl (fun s en => s.modIsland en closeIsland) s
      let s := commitCounts s k
      let s := s.modRegion k fun r => { r with
        stroke := r.stroke + 1, strokeMark := false, closeOwed := []
        passedAt := r.passedAt.filter fun n => !decide (n ≤ r.stroke)
        arriving := r.arriving ++ r.passedAt.filter fun n => decide (n ≤ r.stroke)
        ldcs := r.ldcs.filter fun l => !decide (l.1 ≤ r.stroke) }
      let s := { s with servers := s.servers.map fun p => (p.1, { p.2 with pools := p.2.pools.map fun w =>
        (w.1, { w.2 with taken := w.2.taken.filter fun x => !(x.region == k && decide (x.stroke ≤ r.stroke)) }) }) }
      let s := replyAll s r.closeOwed 0 1
      .next (releaseBoundary (sendArrivals s k) k)
    else .next s

/-! ### Stores of closed strokes (R59, R65, R173, R175) -/

/-- The stores that may be performed next: the first of each alias class among the closed strokes. -/
def drainable (r : Region) : List RStore :=
  let closed := r.stores.filter fun x => decide (x.stroke < r.stroke)
  (closed.map RStore.cls).eraseDups.filterMap fun c => closed.find? fun x => x.cls == c

/-- STROKE_DRAIN_COMPLETE: the next store of a closed stroke is performed, in chain order within its class, by free
choice among classes; with the last one the closing buffers are free. -/
def execStrokeDrainComplete (k : Nat) (s : State) : Result :=
  match s.region k with
  | none => .next s
  | some r =>
    let d := drainable r
    let (n, s) := drawNat s
    match d[n % d.length]? with
    | none => .next s
    | some x =>
      let full := if x.stf then some x.emptiedBy.isNone else none
      let s := writeSpansSure (spansOf x.pages (x.pages.length + 1) x.va x.data) full s
      let kept := match x.emptiedBy with
        | some n => if r.stroke ≤ n then [(n, localPa (paIn x.pages x.va), BitVec.ofNat 32 (natOf x.data))] else []
        | none => []
      .next (sendArrivals (s.modRegion k fun r => { r with
        stores := r.stores.filter fun y => y.id != x.id, ldcs := r.ldcs ++ kept }) k)

end Sys2Proof.Machine
end

