-- ==== Sys2Proof/Machine/Island.lean ====
section
/-! DEFINITION. The matrix islands: spec/10_engines.md R188 to R199, R213, spec/02_numbers.md R35, R36.  The memory
accesses and replies every engine shares stand first. -/

namespace Sys2Proof.Machine

/-! ### What every engine shares -/

/-- The small TLB of an engine; number 50 of a die is its range server. -/
def engTlb (s : State) (en : Nat) : List TlbEntry :=
  let n := en % 64
  if n < 16 then (s.island en).tlb
  else if n < 24 then (kget s.streamers en {}).tlb
  else if n < 48 then (kget s.expanders en {}).tlb
  else if n < 50 then (kget s.weirs en {}).tlb
  else (kget s.servers (en / 64) {}).tlb

def setEngTlb (s : State) (en : Nat) (tlb : List TlbEntry) : State :=
  let n := en % 64
  if n < 16 then s.modIsland en fun x => { x with tlb := tlb }
  else if n < 24 then { s with streamers := kput s.streamers en { kget s.streamers en {} with tlb := tlb } }
  else if n < 48 then { s with expanders := kput s.expanders en { kget s.expanders en {} with tlb := tlb } }
  else if n < 50 then { s with weirs := kput s.weirs en { kget s.weirs en {} with tlb := tlb } }
  else { s with servers := kput s.servers (en / 64) { kget s.servers (en / 64) {} with tlb := tlb } }

/-- The capacity of an engine's small TLB (log entry 25). -/
def smallTlb : Nat := 64

/-- The context a command acts in. -/
def ctxOf (s : State) (key : Nat) : Nat := ((s.region key).map Region.ctx).getD 0

def engAccess (s : State) (en ctx : Nat) (va : Int) (len : Nat) (wr : Bool) : Access × State :=
  let (a, tlb, s) := translateAccess s (en / 64) ctx smallTlb (engTlb s en) va len { write := wr }
  (a, setEngTlb s en tlb)

/-- A read by an engine; with `full` it waits until the words of an FE page are full. -/
def engRead (s : State) (en ctx : Nat) (va : Int) (len : Nat) (full : Bool) : ReadOut × State :=
  match engAccess s en ctx va len false with
  | (.fault c v, s) => (.fault c v, s)
  | (.wait, s) => (.wait, s)
  | (.pages ps, s) =>
    if full && !wordsFull s ps va.toNat len then (.wait, s) else readAny s (2 ^ 40 + en) ps va.toNat len

/-- A write by an engine, its words set full on an FE page where `setFull` asks (R202, R207). -/
def engWrite (s : State) (en ctx : Nat) (va : Int) (data : List Byte) (setFull : Bool) : ReadOut × State :=
  match engAccess s en ctx va data.length true with
  | (.fault c v, s) => (.fault c v, s)
  | (.wait, s) => (.wait, s)
  | (.pages ps, s) => writeAny s ps va.toNat data setFull

/-- The kind of an engine in a page-fault record (R316); the error log names its sources by the same numbers. -/
def engKind (en : Nat) : Nat :=
  let n := en % 64
  if n < 16 then 1 else if n < 24 then 2 else if n < 48 then 3 else 4

def engErr (en code detail : Nat) : ErrInfo := ⟨code, engKind en, en / 64, en % 64, detail⟩

/-- A token at an engine's reply port (R188). -/
def pushReply (s : State) (en : Nat) (c : Cmd) : State :=
  let n := en % 64
  if n < 16 then s.modIsland en fun x => { x with replies := x.replies ++ [c] }
  else if n < 24 then
    let x := kget s.streamers en {}
    { s with streamers := kput s.streamers en { x with replies := x.replies ++ [c] } }
  else if n < 48 then
    let x := kget s.expanders en {}
    { s with expanders := kput s.expanders en { x with replies := x.replies ++ [c] } }
  else
    let x := kget s.weirs en {}
    { s with weirs := kput s.weirs en { x with replies := x.replies ++ [c] } }

/-- Poisoned data read by an engine (R318): a POISON mark at its reply port, and the region retires with DERR. -/
def engPoison (s : State) (en key : Nat) : State :=
  poisonRegion (pushReply s en { tok := markToken 5 0, region := key }) key

/-- A fault of an engine that is not serviced: poison, or the end of the kernel (R188, R198, R203, R315). -/
def engStop (s : State) (en key code detail : Nat) : State :=
  if code = 5 then engPoison s en key else kernelFault s key (engErr en code detail)

/-- A serviced fault of an engine (R315, R316). -/
def engPageFault (s : State) (en key code va : Nat) (wr : Bool) : State :=
  raisePageFault s (en / 64) ⟨engKind en, en % 64, ctxOf s key, va, wr, code⟩

/-- Whether the fault unit still holds an engine stopped. -/
def engHeld (s : State) (en : Nat) : Bool := (kget s.rings (en / 64) {}).stopped.contains (engKind en, en % 64)

/-! ### Row arithmetic (R35, R36, R194) -/

/-- Elements of a packed row (R190): MXINT8 codes are in sixty-fourths, IX4 codes come in pairs. -/
def opValues (fmt : Fmt) (n x : Nat) : List Num :=
  if fmt = .ix4 then Lanes.pairValues (Lanes.split 8 (n / 2) x)
  else (Lanes.split (laneWidth fmt) n x).map fun c => (decodeLane fmt c).scale (if fmt = .int8 then -6 else 0)

def Num.special : Num → Bool
  | .nan | .inf _ => true
  | .fin _ _ _ => false

/-- The elements of a B tile by K then column: stored row k, or stored row n where it is transposed (R193). -/
def tileValues (fmt : Fmt) (b : BBuf) : List (List Num) :=
  let rows := b.rows.map fun r => opValues fmt 256 r.toNat
  if b.transp then (List.range 256).map fun k => rows.map fun r => r.getD k .zero else rows

def scaleOf (fmt : Fmt) (b : BBuf) (kb n : Nat) : Nat :=
  if fmt = .bf16 then 127 else (b.scales.getD (256 * kb + n) (0x7F : Byte)).toNat

/-- The flag of a B tile (R35). -/
def tileFlag (fmt : Fmt) (b : BBuf) : Bool :=
  (tileValues fmt b).any (·.any Num.special) || (fmt != .bf16 && b.scales.any (· == 0xFF))

/-- One sum of R36: the exact sum of a K block, then the FP32 addition; the flags of both encodes. -/
def addBlock (s : Nat) (t : Num) : Nat × Flags :=
  let (u, f) := encodeF32 t
  let (r, g) := encodeF32 ((decodeF32 s).add (decodeF32 u))
  (if r = 0x80000000 then 0 else r, f.or g)

/-- One lane of a row: its K blocks in ascending order (R36, R194). -/
def rowLane (af : Fmt) (ax : Nat) (b : BBuf) (bf : Fmt) (as : List Num) (bs : List (List Num)) (n s : Nat) : Nat × Flags :=
  (List.range 8).foldl (fun (acc : Nat × Flags) kb =>
    let prods := (List.range 32).map fun i =>
      (as.getD (32 * kb + i) .zero).mul ((bs.getD (32 * kb + i) []).getD n .zero)
    let k : Int := (if af = .bf16 then 0 else (ax : Int) - 127) + ((scaleOf bf b kb n : Nat) : Int) - 127
    let t := (prods.foldl Num.add Num.zero).scale k
    let (s, f) := addBlock acc.1 t
    (s, acc.2.or f)) (s, {})

/-- Whether a special operand takes part in the sums of column n: the array does not interpret it (R35). -/
def laneSpecial (bf : Fmt) (b : BBuf) (bs : List (List Num)) (n : Nat) : Bool :=
  bs.any (fun r => (r.getD n .zero).special)
    || (bf != .bf16 && (List.range 8).any fun kb => scaleOf bf b kb n == 0xFF)

/-- One A row multiplied into a C row: the lanes, the flags, how many lanes saturated, how many flushed to zero.  A
flagged operand sets PN; what the sums that it takes part in come to is open, lane and flags alike: `junk` (R35; log
entry 26). -/
def rowProduct (af bf : Fmt) (ax : Nat) (as : List Num) (b : BBuf) (junk : Nat) (c : CRow) : CRow × Flags × Nat × Nat :=
  let rowBad := as.any Num.special || (af != .bf16 && ax == 255)
  let bs := tileValues bf b
  let rs := (Lanes.split 32 256 c.lanes.toNat).mapIdx fun n s =>
    if rowBad || laneSpecial bf b bs n then
      let j := junk / 2 ^ (34 * n)
      (j % 2 ^ 32, { sat := j.testBit 32, ftz := j.testBit 33 : Flags })
    else rowLane af ax b bf as bs n s
  (⟨BitVec.ofNat 8192 (Lanes.pack 32 (rs.map Prod.fst)), c.pn || rowBad || tileFlag bf b⟩,
    { (rs.map Prod.snd).foldl Flags.or {} with nan := false },
    (rs.filter fun r => r.2.sat).length, (rs.filter fun r => r.2.ftz).length)

/-! ### Commands (R190 to R192) -/

def Cmd.op (c : Cmd) : Nat := bits c.tok.data.toNat 96 8
def Cmd.aval (c : Cmd) : Nat := bits c.tok.data.toNat 0 64
def Cmd.bval (c : Cmd) : Nat := bits c.tok.data.toNat 64 32

/-- A command put into the queue of a register; the copy of a load that a rewind kept is dropped (R199). -/
def IslandCore.takeCommand (x : Cmd) (c : IslandCore) : IslandCore :=
  let n := c.serial
  if c.skip = some n then { c with serial := n + 1, skip := none }
  else { c with serial := n + 1, queue := c.queue ++ [{ x with serial := n }] }

/-- A tokens put into the island's own queue behind a row port (R43). -/
def IslandCore.stageRows (p : Nat) (ks : List Token) (c : IslandCore) : IslandCore :=
  if ks.isEmpty then c else { c with stage := kput c.stage p (kget c.stage p [] ++ ks) }

/-- What an island takes in enters its register.  What comes on a back channel from a stroke that a snapshot has closed
off is recorded with that snapshot too (R302): `f` takes in what is left of it from strokes before the given one. -/
def Island.record (back : Bool) (f : Nat → IslandCore → IslandCore) (x : Island) : Island :=
  let core := f (x.stroke + 1) x.core
  if !back then { x with core := core }
  else match x.snapNext with
    | none => { x with core := core, snap := f x.stroke x.snap }
    | some c => { x with core := core, snap := f (x.stroke - 1) x.snap, snapNext := some (f x.stroke c) }

/-- Commands leave the command port for the queue, in order; MXSTAT and marks stay for their own steps, but a back
channel aligns no marks: they go. -/
def Island.intake (back : Bool) : Nat → Island → Island
  | 0, x => x
  | fuel + 1, x =>
    match x.fifo with
    | [] => x
    | c :: cs =>
      if c.tok.isMark && back then Island.intake back fuel { x with fifo := cs }
      else if c.tok.isMark || c.op == 0xC6 || decide (255 ≤ x.core.queue.length) then x
      else Island.intake back fuel (Island.record back
        (fun n r => if c.tok.stroke < n then r.takeCommand c else r) { x with fifo := cs })

/-- A tokens leave the FIFO of a row port for the island's own queue behind it; marks on a back channel go. -/
def Island.takePort (back : Bool) (x : Island) (p : Nat) : Island :=
  let all := kget x.rows p []
  let (ks, rest) := if back then (all.filter fun k => !k.isMark, []) else all.span fun k => !k.isMark
  if all.isEmpty || (ks.isEmpty && !back) then x
  else Island.record back (fun n r => r.stageRows p (ks.filter fun k => decide (k.stroke < n)))
    { x with rows := kput x.rows p rest }

def Island.takeRows (back : Nat → Bool) (x : Island) : Island :=
  (List.range 8).foldl (fun x p => x.takePort (back p) p) x

def buf (c : IslandCore) (b : Nat) : BBuf := if b = 0 then c.b0 else c.b1
def setBuf (c : IslandCore) (b : Nat) (x : BBuf) : IslandCore := if b = 0 then { c with b0 := x } else { c with b1 := x }

/-- A drain in progress still has rows of [base, base + count) to emit. -/
def drainMeets (c : IslandCore) (base count : Nat) : Bool :=
  c.drain.any fun d => overlaps (d.base + d.drow) (d.count - d.drow) base count

/-- Whether the head command may pass to its sequencer (R190, R192). -/
def canStart (c : IslandCore) (x : Cmd) : Bool :=
  let idle := c.load.isNone && c.run.isNone && c.drain.isNone
  c.group.isNone && (match x.op with
    | 0xC1 => c.load.isNone && !(c.run.any fun r => r.buf == x.bval % 2)
    | 0xC2 | 0xC3 =>
      let b := bits x.aval 10 1
      c.run.isNone && !(c.load.any fun l => l.buf == b)
        && ((buf c b).st == .ready || c.cfg.isNone) && !drainMeets c (bits x.aval 0 10) (bits x.bval 0 11)
    | 0xC4 => c.run.isNone && c.drain.isNone
    | _ => idle)

/-- The commands an island serves from its queue; any other is an engine error (R188). -/
def islandOp (op : Nat) : Bool := decide (0xC0 ≤ op) && decide (op ≤ 0xC5)

def fmtOf (code : Nat) : Fmt := (Fmt.ofCode code).getD .fp32

/-- A load at its start: a stream load that a rewind kept goes on with the rows it has (R199). -/
def beginLoad (c : IslandCore) (l : LoadSeq) : IslandCore :=
  match c.kept with
  | some (m, b, n) =>
    if m.same l then setBuf { c with load := some m, brow := n, kept := none } m.buf b
    else setBuf { c with load := some l, brow := 0 } l.buf { st := .loading }
  | none => setBuf { c with load := some l, brow := 0 } l.buf { st := .loading }

/-- A command passed to its sequencer.  An MXLDB into a FAULTED buffer clears the fault (R198). -/
def startCommand (c : IslandCore) (x : Cmd) : IslandCore :=
  let c := { c with queue := c.queue.tail }
  match x.op with
  | 0xC0 =>
    let v := x.aval
    { c with
      cfg := some (fmtOf (bits v 0 4), fmtOf (bits v 4 4), fmtOf (bits v 8 4))
      b0 := {}, b1 := {}, fcode := 0, err := false }
  | 0xC1 =>
    let b := x.bval % 2
    let c := if (buf c b).st = .faulted then { c with fcode := 0, fva := 0, err := false } else c
    beginLoad c { buf := b, descVa := x.aval, region := x.region, stroke := x.tok.stroke, serial := x.serial }
  | 0xC2 | 0xC3 =>
    let r : RunSeq :=
      ⟨x.op == 0xC3, bits x.aval 0 10, bits x.bval 0 11, bits x.bval 16 8, bits x.aval 10 1, 0, x.region⟩
    { c with arow := 0, run := some r }
  | 0xC4 => { c with drow := 0, drain := some { base := bits x.aval 0 10, count := bits x.bval 0 11, region := x.region } }
  | 0xC5 => { c with group := some { va := x.aval, region := x.region, stroke := x.tok.stroke, serial := x.serial } }
  | _ => c

/-- A grouped product starts its next load, its next run, or ends (R196). -/
def groupNext (c : IslandCore) (g : GroupSeq) : IslandCore :=
  let lb := g.loadNo % 2
  let rb := g.runNo % 2
  match g.toLoad, g.toRun with
  | e :: es, _ =>
    if c.load.isNone && decide (g.loadNo ≤ g.runNo + 1) && !(c.run.any fun r => r.buf == lb)
        && !(decide (g.runNo + 1 = g.loadNo) && lb == rb) then
      let l : LoadSeq :=
        { buf := lb, descVa := e.bdva, region := g.region, stroke := g.stroke, serial := g.serial, sub := g.loadNo + 1 }
      { beginLoad c l with group := some { g with toLoad := es, loadNo := g.loadNo + 1 } }
    else groupRun c g rb
  | [], _ => groupRun c g rb
where
  groupRun (c : IslandCore) (g : GroupSeq) (rb : Nat) : IslandCore :=
    match g.toRun with
    | e :: es =>
      if c.run.isNone && decide (g.runNo < g.loadNo) && (buf c rb).st == .ready then
        { c with arow := 0
                 run := some { acc := g.acc, base := e.cbase, count := e.rows, ax := g.ax, buf := rb, region := g.region }
                 group := some { g with toRun := es, runNo := g.runNo + 1 } }
      else c
    | [] => if c.run.isNone && c.load.isNone then { c with group := none } else c

/-- What reading a structure comes to: a value, a wait, a fault, or a malformed structure. -/
inductive Got (α : Type) where
  | val (a : α)
  | wait
  | fault (code va : Nat)
  | bad
  deriving Repr

def Got.ofRead : ReadOut → Got (List Byte)
  | .bytes bs => .val bs
  | .wait => .wait
  | .fault c v => .fault c v

/-- An array of 32-bit words, one for each entry, or none where its address is 0 (R196). -/
def readWords (s : State) (en ctx va n : Nat) : Got (List Nat) × State :=
  if va = 0 then (.val [], s)
  else match engRead s en ctx va (4 * n) true with
    | (.bytes bs, s) => (.val ((List.range n).map fun i => field bs (4 * i) 4), s)
    | (.wait, s) => (.wait, s)
    | (.fault c v, s) => (.fault c v, s)

/-- The entries of a group table with their effective rows and bases (R196). -/
def groupEntries (n cntVa offVa : Nat) (entries : List Byte) (cnt off : List Nat) : Got (List GroupEntry) :=
  let es := (List.range n).map fun i =>
    let e := (entries.drop (32 * i)).take 32
    let w := natOf e
    let rows := if cntVa = 0 then bits w 0 32 else cnt.getD i 0
    let base := bits w 32 32 + (if offVa = 0 then 0 else off.getD i 0)
    (GroupEntry.mk rows base (bits w 64 64), bits w 128 128 != 0)
  if es.any fun e => e.2 || decide (1024 < e.1.rows) || decide (1024 < e.1.cbase + e.1.rows) then .bad
  else .val (es.map Prod.fst)

/-- A group table as MXGRP and the range server read it: header word and entries. -/
def readGroup (s : State) (en ctx va : Nat) : Got (Nat × List GroupEntry) × State :=
  match engRead s en ctx va 32 true with
  | (.fault c v, s) => (.fault c v, s)
  | (.wait, s) => (.wait, s)
  | (.bytes h, s) =>
    let w := natOf h
    let n := bits w 0 32
    if n = 0 ∨ 256 < n ∨ bits w 41 23 ≠ 0 ∨ bits w 192 64 ≠ 0 then (.bad, s)
    else match engRead s en ctx (va + 32) (32 * n) true with
    | (.fault c v, s) => (.fault c v, s)
    | (.wait, s) => (.wait, s)
    | (.bytes es, s) =>
      match readWords s en ctx (bits w 64 64) n with
      | (.val cnt, s) =>
        (match readWords s en ctx (bits w 128 64) n with
        | (.val off, s) => (match groupEntries n (bits w 64 64) (bits w 128 64) es cnt off with
          | .val l => (.val (w, l), s)
          | _ => (.bad, s))
        | (.wait, s) => (.wait, s)
        | (.fault c v, s) => (.fault c v, s)
        | (.bad, s) => (.bad, s))
      | (.wait, s) => (.wait, s)
      | (.fault c v, s) => (.fault c v, s)
      | (.bad, s) => (.bad, s)

def modCore' (s : State) (en : Nat) (f : IslandCore → IslandCore) : State :=
  s.modIsland en fun x => { x with core := f x.core }

/-- ISLAND_COMMAND_START (R187, R190, R192, R196); MXCFG ends a hold of R213 (log entry 106). -/
def execIslandCommandStart (en : Nat) (s : State) : Result :=
  if (s.island en).frozen then .next s
  else
    let s := s.modIsland en fun x => (x.intake (islandBack s en 8) x.fifo.length).takeRows (islandBack s en)
    let c := (s.island en).core
    match c.group with
    | some g =>
      if g.read then .next (modCore' s en fun c => groupNext c g)
      else if g.stopped then .next s
      else match readGroup s en (ctxOf s g.region) g.va with
        | (.val (w, es), s) =>
          let live := es.filter fun e => e.rows != 0
          .next (modCore' s en fun c => { c with group := some { g with
            read := true, acc := bits w 32 1 == 1, ax := bits w 33 8, toLoad := live, toRun := live } })
        | (_, s) => .next s
    | none =>
      match c.queue with
      | [] => .next s
      | x :: _ =>
        if canStart c x && islandOp x.op && (c.cfg.isSome || x.op == 0xC0) then
          let s := if x.op = 0xC0 then s.modIsland en fun y => { y with thr := false } else s
          .next (modCore' s en fun c => startCommand c x)
        else .next s

/-! ### Loads (R193, R198, R331) -/

/-- The bits of an element in memory: six-bit elements are packed four to three bytes (R20). -/
def storedWidth : Fmt → Nat
  | .e3m2 | .e2m3 => 6
  | f => laneWidth f

def rowBytes (bf : Fmt) : Nat := 32 * storedWidth bf

/-- The lanes of a stored row, each in the container of its format. -/
def unpackRow (bf : Fmt) (row : List Byte) : Nat :=
  Lanes.pack (laneWidth bf) (Lanes.split (storedWidth bf) 256 (natOf row))

/-- What the next step of the load sequencer comes to. -/
inductive LoadStep where
  | idle
  | go (s : State)
  /-- with the links, whose DROP counts a request that met a dead one -/
  | fault (links : KMap Link) (code va : Nat)
  | bad
  | poison

def readStep (r : ReadOut × State) (k : List Byte → State → State) : LoadStep :=
  match r with
  | (.bytes bs, s) => .go (k bs s)
  | (.wait, s) => .go s
  | (.fault c v, s) => .fault s.links c v

/-- A row taken into the loading buffer; after the 256th the buffer is READY. -/
def takeRow (bf : Fmt) (l : LoadSeq) (row : List Byte) (c : IslandCore) : IslandCore :=
  let b := buf c l.buf
  let done := c.brow + 1 == 256
  let b := { b with rows := b.rows ++ [BitVec.ofNat 4096 (unpackRow bf row)], st := if done then .ready else .loading }
  let c := setBuf c l.buf b
  { c with brow := c.brow + 1, load := if done then none else some { l with part := [] } }

def descOk (bf : Fmt) (d : Nat) : Bool :=
  bits d 99 29 == 0 && bits d 192 64 == 0
    && (bits d 97 1 == 1 || (bits d 64 32 % 32 == 0 && decide (rowBytes bf ≤ bits d 64 32)))

/-- The next step of a load: its descriptor, its scales, or its next row or part of a row. -/
def loadStep (s : State) (en : Nat) : LoadStep :=
  let x := s.island en
  match x.core.load, x.core.cfg with
  | some l, some (_, bf, _) =>
    if l.stopped then .idle
    else match l.desc with
    | none =>
      (match engRead s en (ctxOf s l.region) l.descVa 32 false with
      | (.bytes d, s) =>
        if descOk bf (natOf d) then
          let t := bits (natOf d) 96 1 == 1
          .go (modCore' s en fun c => setBuf { c with load := some { l with desc := some d } } l.buf
            { buf c l.buf with transp := t })
        else .bad
      | (.wait, s) => .go s
      | (.fault c v, s) => .fault s.links c v)
    | some d =>
      let d := natOf d
      let b := buf x.core l.buf
      if bits d 98 1 = 1 ∧ bf ≠ .bf16 ∧ b.scales = [] then
        readStep (engRead s en (ctxOf s l.region) (bits d 128 64) 2048 false)
          fun bs s => modCore' s en fun c => setBuf c l.buf { buf c l.buf with scales := bs }
      else if bits d 97 1 = 1 then
        match x.bport with
        | [] => .idle
        | k :: ks =>
          if k.kind = 5 then .poison
          else
            let part := l.part ++ byteList 32 k.data.toNat
            let s := s.modIsland en fun y => { y with bport := ks }
            .go (modCore' s en fun c =>
              if part.length < rowBytes bf then { c with load := some { l with part := part } }
              else takeRow bf l part c)
      else
        readStep (engRead s en (ctxOf s l.region) (bits d 0 64 + x.core.brow * bits d 64 32) (rowBytes bf) false)
          fun bs s => modCore' s en (takeRow bf l bs)
  | _, _ => .idle

/-- ISLAND_B_LOAD_COMPLETE (R193): the load advances by a step; with the 256th row its buffer is READY. -/
def execIslandBLoadComplete (en : Nat) (s : State) : Result :=
  match loadStep s en with
  | .go s => .next s
  | _ => .next s

/-- A load that ends FAULTED (R198). -/
def failLoad (s : State) (en code va : Nat) : State :=
  modCore' s en fun c => match c.load with
    | none => c
    | some l =>
      let c := setBuf c l.buf { buf c l.buf with st := .faulted }
      { c with load := none, fcode := BitVec.ofNat 8 code, fva := BitVec.ofNat 64 va, err := true }

/-- A POISON mark taken from the stream port: 0x07 recorded, the region stopped (R198). -/
def takePoison (s : State) (en : Nat) : State :=
  let s := modCore' s en fun c => match c.load with
    | none => c
    | some l =>
      let c := setBuf c l.buf { buf c l.buf with st := .faulted }
      { c with load := none, fcode := 7, err := true }
  s.modIsland en fun x => { x with bport := x.bport.tail }

/-- ISLAND_FAULT (R198): 0x01 and 0x02 stop the load where it stands and are serviced; any other code, and POISON,
fault the buffer and stop the region. -/
def execIslandFault (en : Nat) (s : State) : Result :=
  let c := (s.island en).core
  match c.load, loadStep s en with
  | some l, .fault links code va =>
    let s : State := { s with links := links }
    if code = 1 ∨ code = 2 then
      let s := modCore' s en fun c => { c with
        load := some { l with stopped := true }, fcode := BitVec.ofNat 8 code, fva := BitVec.ofNat 64 va }
      .next (engPageFault s en l.region code va false)
    else .next (engStop (failLoad s en code va) en l.region code 0)
  | some l, .poison => .next (kernelFault (takePoison s en) l.region (engErr en 7 0))
  | _, _ =>
    match c.group with
    | some g =>
      if g.read || g.stopped then .next s
      else match readGroup s en (ctxOf s g.region) g.va with
        | (.fault code va, t) =>
          let s : State := { s with links := t.links }
          let note (c : IslandCore) : IslandCore := { c with fcode := BitVec.ofNat 8 code, fva := BitVec.ofNat 64 va }
          if code = 1 ∨ code = 2 then
            let s := modCore' s en fun c => { note c with group := some { g with stopped := true } }
            .next (engPageFault s en g.region code va false)
          else
            let s := modCore' s en fun c => { note c with group := none, err := true }
            .next (engStop s en g.region code 0)
        | _ => .next s
    | none => .next s

/-- ISLAND_LOAD_RESUME (R198, R316): after the service the load goes on at BROW. -/
def execIslandLoadResume (en : Nat) (s : State) : Result :=
  if engHeld s en then .next s
  else .next (modCore' s en fun c => { c with
    load := c.load.map fun l => { l with stopped := false }
    group := c.group.map fun g => { g with stopped := false } })

/-! ### Runs (R194, R213) -/

/-- The declared intensity of a context on a die (R213). -/
def intensity (s : State) (ctx die : Nat) : Nat :=
  min 256 (((kget s.hints (ctx * 4 + die) []).map Hint.cur).sum)

/-- Row work of an island in its last 16 fc (R213). -/
def recentWork (now : Nat) (x : Island) : Nat := ((x.recent.filter fun r => decide (now < r.1 + 16)).map Prod.snd).sum

/-- The islands of a context on a die: those its regions command. -/
def islandsOf (s : State) (ctx die : Nat) : List Nat :=
  (s.regions.flatMap fun p => if p.2.ctx = ctx ∧ p.2.die = die then regionIslands s p.2 else []).eraseDups

/-- The service core of a context for a die (R368): the lowest granted there, else on the lowest die with one.  The
cores of H run context 0 (R231). -/
def serviceCore (s : State) (ctx die : Nat) : Option Nat :=
  let granted (d : Nat) : Option Nat :=
    if d = 4 then (if ctx = 0 then some 64 else none)
    else ((List.range 16).find? fun n => (s.core (d * 16 + n)).ctx.any fun c => c.val == ctx).map fun n => d * 16 + n
  (granted die).or (((List.range 5).filterMap granted).head?)

/-- A bit of the hardware notice word at the service core (R228, R368). -/
def hwNotice (s : State) (ctx die bit_ : Nat) : State :=
  match serviceCore s ctx die with
  | none => s
  | some c => s.modCore c fun x => { x with hw := x.hw ||| BitVec.ofNat 5 (2 ^ bit_) }

/-- Tokens of one A row, or of a pair of 4-bit rows, on a row port (R191). -/
def rowTokens (af : Fmt) : Nat := if af = .bf16 then 2 else 1

def rowPresent (x : Island) (af : Fmt) : Bool :=
  (List.range 8).all fun p => decide (rowTokens af ≤ (kget x.core.stage p []).length)

/-- The A rows that stand at the row ports: one, or the two of a 4-bit pair (R191). -/
def presentRows (x : Island) (af : Fmt) : List (List Num) :=
  let tok (p t : Nat) : Nat := ((kget x.core.stage p []).getD t ⟨0, 0, 0⟩).data.toNat
  match laneWidth af with
  | 16 => [(List.range 2).flatMap fun t => (List.range 8).flatMap fun p => opValues af 16 (tok p t)]
  | 4 => [(List.range 8).flatMap fun p => opValues af 32 (tok p 0 % 2 ^ 128)
    , (List.range 8).flatMap fun p => opValues af 32 (tok p 0 / 2 ^ 128)]
  | _ => [(List.range 8).flatMap fun p => opValues af 32 (tok p 0)]

def rowOf_ (x : Island) (row : Nat) : CRow := (kfind x.core.work row).getD (kget x.com row {})

/-- A count held for a row until it drains. -/
def holdCount (m : KMap Nat) (row n : Nat) : KMap Nat := if kget m row 0 + n = 0 then m else kput m row (kget m row 0 + n)

/-- One A row of a run multiplied into its C row; the flags of its sums are counted when the row drains (R194). -/
def applyRow (af bf : Fmt) (r : RunSeq) (junk : Nat) (as : List Num) (j : Nat) (x : Island) : Island :=
  let row := r.base + j
  let c := if r.acc then rowOf_ x row else {}
  let (c, f, n, z) := rowProduct af bf r.ax as (buf x.core r.buf) junk c
  { x with core := { x.core with
      work := kput x.core.work row c, iconv := x.core.iconv ||| f.bits
      sats := holdCount x.core.sats row n, ftzs := holdCount x.core.ftzs row z } }

/-- Cost in charges and fc of what stands at the row ports (R190, R194). -/
def rowCost (af : Fmt) (rows : Nat) : Nat × Nat :=
  match laneWidth af with
  | 16 => (1024, 2)
  | 4 => (256 * rows, 1)
  | _ => (512, 1)

/-- The rows of a run that start now: their tokens dequeued, their cost paid, their work done (R194). -/
def startRows (s : State) (en : Nat) (r : RunSeq) (af bf : Fmt) : State :=
  let x := s.island en
  let rows := (presentRows x af).take (r.count - r.arow)
  let (cost, fc) := rowCost af rows.length
  let now := kget s.s0fc (en / 64) 0
  let x := (rows.zipIdx).foldl (fun x p => applyRow af bf r (Config.freeNat (s.free + p.2)) p.1 (r.arow + p.2) x) x
  let n := r.arow + rows.length
  let x := { x with
    balance := x.balance - cost, ichg := x.ichg + cost, started := true
    recent := (x.recent.filter fun q => decide (now < q.1 + 16)) ++ [(now, fc)]
    core := { x.core with stage := x.core.stage.map fun p => (p.1, p.2.drop (rowTokens af)), arow := n, run := if n = r.count then none else some { r with arow := n } } }
  ({ s with free := s.free + rows.length }.setIsland en x).modRegion r.region fun q => { q with power := { q.power with ichg := q.power.ichg + cost } }

/-- An island held to 25 % for the rest of the interval (R213): THR, and once for each context and die the
undeclared count and a throttle notice.  A row without charge is held back before (R372). -/
def throttle (s : State) (en : Nat) (r : RunSeq) : State :=
  let die := en / 64
  let ctx := ctxOf s r.region
  let s := s.modIsland en fun x => { x with thr := true }
  if s.undecl.contains (ctx * 4 + die) then s
  else
    let s := { s with undecl := s.undecl ++ [ctx * 4 + die] }
    let s := s.modRegion r.region fun q => { q with power := { q.power with und := q.power.und + 1 } }
    hwNotice s ctx die 0

def markHeld (s : State) (en : Nat) : State := s.modIsland en fun x => { x with heldBack := true }

/-- Whether a run stands at the head of the queue with its row present and its buffer READY, and waits under R192 for a
drain that has no free slot on its drain ports (R214). -/
def drainHeld (s : State) (en : Nat) : Bool :=
  let x := s.island en
  match x.core.queue, x.core.cfg with
  | c :: _, some (af, _, _) =>
    (c.op == 0xC2 || c.op == 0xC3) && x.core.run.isNone && x.core.group.isNone && !x.frozen
      && (buf x.core (bits c.aval 10 1)).st == .ready && rowPresent x af
      && drainMeets x.core (bits c.aval 0 10) (bits c.bval 0 11)
      && !((drainTargets s en).all fun p => targetFree s 1 p.2)
  | _, _ => false

/-- ISLAND_ROW_START (R194, R213): the next row of a run starts, or is held back. -/
def execIslandRowStart (en : Nat) (s : State) : Result :=
  let s := if (s.island en).frozen then s else s.modIsland en (Island.takeRows (islandBack s en))
  let x := s.island en
  match x.core.run, x.core.cfg with
  | some r, some (af, bf, _) =>
    if x.frozen || !rowPresent x af || (buf x.core r.buf).st != .ready then .next s
    else
      let die := en / 64
      let ctx := ctxOf s r.region
      let now := kget s.s0fc die 0
      let rows := min (r.count - r.arow) (presentRows x af).length
      let (cost, fc) := rowCost af rows
      if x.balance < cost then .next (markHeld s en)
      else
        let u := ((islandsOf s ctx die).map fun k => recentWork now (s.island k)).sum + fc
        if u ≤ intensity s ctx die ∧ !x.thr then .next (startRows s en r af bf)
        else
          let s := if x.thr then s else throttle s en r
          if x.recent.all fun q => decide (q.1 + (4 * fc - 1) < now) then .next (startRows s en r af bf)
          else .next (markHeld s en)
  | _, _ => .next (if drainHeld s en then markHeld s en else s)

/-! ### Drains (R195) -/

/-- A row encoded for its drain: eight ports' tokens by part, flags and counts (R35, R195). -/
def drainRow (df : Fmt) (c : CRow) : List Nat × Flags × Conv :=
  if c.pn then
    let (code, _) := encodeLane df .rne 0 .nan
    (List.replicate 256 code, { nan := true }, { nan := 256 })
  else
    let rs := (Lanes.split 32 256 c.lanes.toNat).map fun l => encodeLane df .rne 0 (decodeF32 l)
    (rs.map Prod.fst, (rs.map Prod.snd).foldl Flags.or {}, Conv.sum (rs.map fun r => Conv.ofFlags r.2))

/-- Token t of port c of a drained row (R191). -/
def drainToken (df : Fmt) (codes : List Nat) (c t : Nat) : V256 :=
  let n := 256 / laneWidth df
  BitVec.ofNat 256 (Lanes.pack (laneWidth df) ((codes.drop (32 * c + n * t)).take n))

/-- ISLAND_DRAIN_ROW (R33 to R35, R195): the next tokens of the row go out on every port, the last with tag 1.  The
row's events are tested against the thresholds, and counted, as its first tokens go: no mark, and so no end of the
island's stroke, comes between the tokens of a row. -/
def execIslandDrainRow (en : Nat) (s : State) : Result :=
  let x := s.island en
  match x.core.drain, x.core.cfg with
  | some d, some (_, _, df) =>
    let outs := drainTargets s en
    if x.frozen || !(outs.all fun p => targetFree s 1 p.2) then .next (if drainHeld s en then markHeld s en else s)
    else
      let row := d.base + d.drow
      let (codes, fl, cv) := drainRow df (rowOf_ x row)
      let cv := { cv with sat := cv.sat + kget x.core.sats row 0, ftz := cv.ftz + kget x.core.ftzs row 0 }
      let k := match s.region d.region with
        | some r => if d.part = 0 then trips s r x.stroke cv else 0
        | none => 0
      if k ≠ 0 then .next (regionFault s d.region 0x0D k 0 false)
      else
        let parts := laneWidth df / 8
        let last := d.part + 1 == parts
        let s := if d.part = 0 then s.modRegion d.region fun r => r.addCounts x.stroke cv else s
        let s := outs.foldl (fun s p => match p.2 with
          | .chan t _ _ => deliver s t ⟨drainToken df codes p.1 d.part, if last then 1 else 0, x.stroke⟩ p.2
          | _ => s) s
        if last then
          .next (modCore' s en fun c => { c with
            iconv := c.iconv ||| fl.bits, drow := d.drow + 1, sats := kdel c.sats row, ftzs := kdel c.ftzs row
            drain := if d.drow + 1 = d.count then none else some { d with drow := d.drow + 1, part := 0 } })
        else .next (modCore' s en fun c => { c with drain := some { d with part := d.part + 1 } })
  | _, _ => .next s

/-! ### Status (R189, R197) -/

def BState.code : BState → Nat
  | .empty => 0
  | .loading => 1
  | .ready => 2
  | .faulted => 3

/-- ISTAT. -/
def istat (x : Island) : Nat :=
  let c := x.core
  c.b0.st.code + c.b1.st.code * 4 + bit x.thr * 16 + bit c.run.isSome * 32 + bit c.drain.isSome * 64 + bit c.err * 128
    + c.queue.length * 256 + c.fcode.toNat * 65536

/-- The word an MXSTAT selects. -/
def statusWord (x : Island) (i : Nat) : Nat :=
  match i with
  | 0 => istat x
  | 1 => x.core.arow
  | 2 => x.core.brow
  | 3 => x.core.drow
  | 4 => x.core.iconv.toNat
  | 5 => x.core.fva.toNat % 2 ^ 32
  | _ => x.core.fva.toNat / 2 ^ 32

end Sys2Proof.Machine
end

