-- ==== Sys2Proof/Machine/Streams.lean ====
section
/-! DEFINITION. The streamer islands: spec/10_engines.md R187, R200 to R203. -/

namespace Sys2Proof.Machine

/-! ### What the steps of streamers, expanders and weirs come to -/

/-- The next step of an engine's job: nothing to do, a state, a fault (code, address, write; with the links, whose DROP
counts a request that met a dead one), or a malformed structure, which is an engine error (R188). -/
inductive JobStep where
  | idle
  | go (s : State)
  | fault (links : KMap Link) (code va : Nat) (wr : Bool)
  | bad

/-- A read of a job, then what it does with the bytes. -/
def jobRead (r : ReadOut × State) (k : List Byte → State → JobStep) : JobStep :=
  match r with
  | (.bytes bs, s) => k bs s
  | (.wait, s) => .go s
  | (.fault c v, s) => .fault s.links c v false

/-- A write of a job, then what follows. -/
def jobWrite (r : ReadOut × State) (k : State → JobStep) : JobStep :=
  match r with
  | (.bytes _, s) => k s
  | (.wait, s) => .go s
  | (.fault c v, s) => .fault s.links c v true

/-! ### The queues of streamers, expanders and weirs (R187, R303) -/

/-- What leaves a command FIFO for the queue: commands and BARRIER marks, in order; other marks end there. -/
def queueable (c : Cmd) : Bool := !c.tok.isMark || c.tok.kind == 3

/-- A FIFO as far as a FREEZE mark that it holds, what stands behind the mark, and whether it holds one (R246). -/
def untilFreeze (q : List Cmd) : List Cmd × List Cmd × Bool :=
  let (a, b) := q.span fun c => !(c.tok.isMark && c.tok.kind == 2)
  (a.filter queueable, b.tail, !b.isEmpty)

/-- A command may start once the stroke that issued it has closed and the stores of that stroke and of earlier ones
have been performed (R187, R325). -/
def strokeClosed (s : State) (c : Cmd) : Bool :=
  match s.region c.region with
  | some r => decide (c.tok.stroke < r.stroke) && r.stores.all fun x => decide (c.tok.stroke < x.stroke)
  | none => false

/-! ### Streamers -/

def State.streamer (s : State) (en : Nat) : Streamer := kget s.streamers en {}
def State.modStreamer (s : State) (en : Nat) (f : Streamer → Streamer) : State :=
  { s with streamers := kput s.streamers en (f (s.streamer en)) }

def Streamer.intake (x : Streamer) : Streamer :=
  if x.frozen then x
  else { x with fifo := (untilFreeze x.fifo).2.1, queue := x.queue ++ (untilFreeze x.fifo).1, frozen := (untilFreeze x.fifo).2.2 }

/-- Whether the sources of a region have stopped for good (R318). -/
def sourcesEnded (s : State) (key : Nat) : Bool := (s.region key).any Region.ended

/-- A field of a 64-byte descriptor: word at a byte offset, bits from `lo`. -/
def descField (d : List Byte) (off lo n : Nat) : Nat := bits (field d off 8) lo n

/-- A ring selector (R200): the tile and the ring it names; none where it is not one. -/
def ringOfSelector (s : State) (r : Region) (x : Nat) : Option (Nat × Fin 8) :=
  let tx := bits x 0 8
  let ty := bits x 8 8
  let n := bits x 16 3
  let t := siteKey r.die (r.col + tx) (r.row + ty)
  let backs := (s.tile t).elems.any fun p => p.2.inputs.any fun c =>
    bindRingen (p.2.inBind c) && bindRing (p.2.inBind c) == n
  if x / 2 ^ 19 = 0 ∧ tx < r.width ∧ ty < r.height ∧ ringPresent (s.tile t) n ∧ !backs then some (t, fin 8 n) else none

def ringAt (s : State) (t : Nat) (n : Fin 8) : Ring := (s.tile t).core.rings[n]

/-- The two ends of a copy: a virtual address or a ring. -/
inductive Endpoint where
  | mem (va : Nat)
  | ring (t : Nat) (n : Fin 8)
  deriving DecidableEq, Repr

def endpointOf (s : State) (key : Nat) (isRing : Bool) (x : Nat) : Option Endpoint :=
  if isRing then (s.region key).bind fun r => (ringOfSelector s r x).map fun p => .ring p.1 p.2 else some (.mem x)

def Endpoint.unit (s : State) : Endpoint → Nat
  | .mem _ => 1
  | .ring t n => (ringAt s t n).slotBytes

/-- A descriptor that keeps the limits of R200 and R201. -/
def streamOk (s : State) (op key : Nat) (d : List Byte) : Bool :=
  let len := descField d 0x10 0 32
  let esize := descField d 0x10 32 16
  let sk := descField d 0x30 0 1 == 1
  let dk := descField d 0x30 1 1 == 1
  descField d 0x10 48 16 == 0 && descField d 0x28 31 33 == 0 && descField d 0x30 3 61 == 0 && descField d 0x38 0 64 == 0
    && (match op with
      | 0xC8 => (match endpointOf s key sk (descField d 0 0 64), endpointOf s key dk (descField d 8 0 64) with
        | some a, some b => len % a.unit s == 0 && len % b.unit s == 0
        | _, _ => false)
      | 0xC9 | 0xCA => !sk && !dk && decide (4 ≤ esize) && decide (esize ≤ 4096) && esize % 4 == 0
      | 0xCB =>
        let a := descField d 0 0 64
        let b := descField d 8 0 64
        let deep := if descField d 0x30 2 1 = 0 then a else b
        !sk && !dk && a % 4096 == 0 && b % 4096 == 0 && len % 4096 == 0 && decide (deep + len ≤ 2 ^ 43)
      | _ => false)

/-- The filled slots of a ring at its head, and the ring after they are taken. -/
def takeSlots (s : State) (t : Nat) (n : Fin 8) : Nat → Option (List Byte × State)
  | 0 => some ([], s)
  | k + 1 => match takeSlots s t n k with
    | none => none
    | some (bs, s) =>
      let r := ringAt s t n
      if r.filled = 0 then none
      else some (bs ++ (s.tile t).cistern.reads (r.slotAt r.getSlot) r.slotBytes, setRing s t n r.afterGet)

/-- Slots filled whole, through the tile's fifth port; a streamer's bytes enter no undo log (R180, R200). -/
def fillSlots (s : State) (t : Nat) (n : Fin 8) : Nat → List Byte → Option State
  | 0, _ => some s
  | k + 1, bs =>
    let r := ringAt s t n
    if r.free = 0 then none
    else
      let s := s.modTile t fun x =>
        { x with cistern := x.cistern.writes (r.slotAt r.put.toNat) (bs.take r.slotBytes) }
      fillSlots (setRing s t n r.afterPut) t n k (bs.drop r.slotBytes)

/-- The bytes of the next unit at the source end. -/
def readEnd (s : State) (en ctx pos n : Nat) (k : List Byte → State → JobStep) : Endpoint → JobStep
  | .mem va => jobRead (engRead s en ctx ((va : Int) + pos) n false) k
  | .ring t r => match takeSlots s t r (n / (ringAt s t r).slotBytes) with
    | none => .idle
    | some (bs, s) => k bs s

def writeEnd (s : State) (en ctx pos : Nat) (bs : List Byte) (k : State → JobStep) : Endpoint → JobStep
  | .mem va => jobWrite (engWrite s en ctx ((va : Int) + pos) bs true) k
  | .ring t r => match fillSlots s t r (bs.length / (ringAt s t r).slotBytes) bs with
    | none => .idle
    | some s => k s

/-- A job has moved `n` further. -/
def advanceStream (en n : Nat) (s : State) : JobStep :=
  .go (s.modStreamer en fun x => { x with job := x.job.map fun j => { j with pos := j.pos + n } })

/-- SXCPY: the next 32-byte span, or the next slot where an end is a ring. -/
def copyUnit (s : State) (en ctx : Nat) (j : StreamJob) : JobStep :=
  let d := j.desc
  match endpointOf s j.region (descField d 0x30 0 1 == 1) (descField d 0 0 64),
        endpointOf s j.region (descField d 0x30 1 1 == 1) (descField d 8 0 64) with
  | some a, some b =>
    let unit := max (a.unit s) (b.unit s)
    let n := if unit = 1 then min 32 (descField d 0x10 0 32 - j.pos) else unit
    readEnd s en ctx j.pos n (fun bs s => writeEnd s en ctx j.pos bs (advanceStream en n) b) a
  | _, _ => .bad

/-- SXGTH and SXSCT: the next element. -/
def indexedUnit (s : State) (en ctx : Nat) (j : StreamJob) (gather : Bool) : JobStep :=
  let d := j.desc
  let esize := descField d 0x10 32 16
  jobRead (engRead s en ctx ((descField d 0x18 0 64 : Nat) + 4 * j.pos : Int) 4 false) fun ib s =>
    let i := natOf ib
    let from_ : Int := (descField d 0 0 64 : Nat) + (if gather then i else j.pos) * esize
    let to_ : Int := (descField d 8 0 64 : Nat) + (if gather then j.pos else i) * esize
    jobRead (engRead s en ctx from_ esize false) fun bs s =>
      jobWrite (engWrite s en ctx to_ bs true) (advanceStream en 1)

/-- SXDEEP: the next 32-byte span. -/
def deepUnit (s : State) (en ctx : Nat) (j : StreamJob) : JobStep :=
  let d := j.desc
  let a := descField d 0 0 64 + j.pos
  let b := descField d 8 0 64 + j.pos
  if descField d 0x30 2 1 = 0 then jobWrite (engWrite s en ctx b (s.deep.reads a 32) true) (advanceStream en 32)
  else jobRead (engRead s en ctx a 32 false) fun bs s => advanceStream en 32 { s with deep := s.deep.writes b bs }

/-- The completion word of a command, full (R202, R203). -/
def completionWord (s : State) (en ctx cva val : Nat) : ReadOut × State :=
  if cva = 0 then (.bytes [], s) else engWrite s en ctx cva (byteList 4 val) true

/-- The completion word of a command that an error ended (R203). -/
def endingStep (s : State) (en ctx code : Nat) (j : StreamJob) : JobStep :=
  match completionWord s en ctx (descField j.desc 0x20 0 64) (0x80000000 + code) with
  | (.wait, s) => .go s
  | (.fault c v, s) => if c = 1 ∨ c = 2 then .fault s.links c v true else .go (s.modStreamer en fun x => { x with job := none })
  | (.bytes _, s) => .go (s.modStreamer en fun x => { x with job := none })

/-- Whether a copy works on a ring: it cannot end once the sources of its region have stopped (log entry 99). -/
def ringCopy (j : StreamJob) : Bool := j.op == 0xC8 && descField j.desc 0x30 0 2 != 0

/-- The next step of a streamer's job: its descriptor, its next unit, or its completion. -/
def streamStep (s : State) (en : Nat) : JobStep :=
  match (s.streamer en).job with
  | none => .idle
  | some j =>
    let ctx := ctxOf s j.region
    if j.stopped then .idle
    else if let some (code, c) := j.ending then endingStep s en c code j
    else if ringCopy j && sourcesEnded s j.region then .go (s.modStreamer en fun x => { x with job := none })
    else if j.desc = [] then
      jobRead (engRead s en ctx j.descVa 64 false) fun d s =>
        if streamOk s j.op j.region d then
          .go (s.modStreamer en fun x => { x with job := some { j with desc := d } })
        else .bad
    else if j.pos < descField j.desc 0x10 0 32 then
      match j.op with
      | 0xC8 => copyUnit s en ctx j
      | 0xC9 => indexedUnit s en ctx j true
      | 0xCA => indexedUnit s en ctx j false
      | _ => deepUnit s en ctx j
    else
      jobWrite (completionWord s en ctx (descField j.desc 0x20 0 64) (descField j.desc 0x28 0 32)) fun s =>
        .go (s.modStreamer en fun x => { x with job := none })

/-- The end of a streamer's command by an error: it stays until its completion word has received the code (R203). -/
def endStream (s : State) (en code : Nat) : State :=
  match (s.streamer en).job with
  | none => s
  | some j =>
    let ctx := ctxOf s j.region
    let d := if j.desc = [] ∧ code = 0x12 then (match engRead s en ctx j.descVa 64 false with
      | (.bytes d, _) => d
      | _ => []) else j.desc
    s.modStreamer en fun x => { x with
      job := if d = [] ∨ descField d 0x20 0 64 = 0 ∨ j.ending.isSome then none
        else some { j with desc := d, ending := some (code, ctx) } }

/-- The next command or mark of a streamer's queue taken. -/
def startStream (s : State) (en : Nat) : State :=
  let s := s.modStreamer en Streamer.intake
  let x := s.streamer en
  match x.job, x.queue with
  | none, c :: cs =>
    if c.tok.isMark then pushReply (s.modStreamer en fun x => { x with queue := cs }) en c
    else if strokeClosed s c && !x.frozen then
      s.modStreamer en fun x => { x with queue := cs, job := some { op := c.op, descVa := c.aval, region := c.region } }
    else s
  | _, _ => s

end Sys2Proof.Machine
end

