-- ==== Sys2Proof/Machine/Expanders.lean ====
section
/-! DEFINITION. The expanders: spec/10_engines.md R204 to R207, spec/22_prog_compressed_matvec.md R331, R332. -/

namespace Sys2Proof.Machine

def State.expander (s : State) (en : Nat) : Expander := kget s.expanders en {}
def State.modExpander (s : State) (en : Nat) (f : Expander → Expander) : State :=
  { s with expanders := kput s.expanders en (f (s.expander en)) }

def Expander.intake (x : Expander) : Expander :=
  if x.frozen then x
  else { x with fifo := (untilFreeze x.fifo).2.1, queue := x.queue ++ (untilFreeze x.fifo).1, frozen := (untilFreeze x.fifo).2.2 }

def modXpJob (s : State) (en : Nat) (f : XpJob → XpJob) : State :=
  s.modExpander en fun x => { x with job := x.job.map f }

/-! ### Code tables (R205) -/

/-- The codes of one length: the first code and its symbols in order. -/
abbrev CodeTable := List (Nat × List Byte)

/-- Canonical codes from the counts that are left, the next code of this length and the symbols that are left; none
where the code space is over-filled. -/
def codesFrom : List Nat → Nat → Nat → List Byte → Option CodeTable
  | [], _, _, _ => some []
  | n :: ns, len, code, syms =>
    if 2 ^ len < code + n then none
    else (codesFrom ns (len + 1) ((code + n) * 2) (syms.drop n)).map fun t => (code, syms.take n) :: t

/-- The 288 bytes of a code table. -/
def codeTable (bs : List Byte) : Option CodeTable :=
  let counts := (bs.take 16).map BitVec.toNat
  if 256 < counts.sum ∨ natOf ((bs.drop 272).take 16) ≠ 0 then none
  else codesFrom counts 1 0 ((bs.drop 16).take 256)

/-! ### Decoding (R205 to R207) -/

/-- The code at a bit of a payload read from bit 7 of byte 0 downward: its symbol and the bit after it; none where
no code ends before the payload does.  `pay` is the payload as a big-endian number of `nb` bits. -/
def codeAt (pay nb p : Nat) : CodeTable → Nat → Option (Byte × Nat)
  | [], _ => none
  | (first, syms) :: t, len =>
    if nb < p + len then none
    else
      let code := bits pay (nb - p - len) len
      if first ≤ code ∧ code < first + syms.length then some (syms.getD (code - first) 0, p + len)
      else codeAt pay nb p t (len + 1)

/-- A decoder discards codes until it reaches a bit: the bit where it stops. -/
def syncTo (pay nb stop : Nat) (t : CodeTable) : Nat → Nat → Nat
  | 0, p => p
  | fuel + 1, p =>
    if stop ≤ p then p
    else match codeAt pay nb p t 1 with
      | some (_, q) => syncTo pay nb stop t fuel q
      | none => p

/-- Symbols decoded from a bit on: the bytes, the bit after the last, and whether all of them were there. -/
def decodeFrom (pay nb : Nat) (t : CodeTable) : Nat → Nat → List Byte × Nat × Bool
  | 0, p => ([], p, true)
  | n + 1, p => match codeAt pay nb p t 1 with
    | none => ([], p, false)
    | some (b, q) => let (bs, e, ok) := decodeFrom pay nb t n q; (b :: bs, e, ok)

/-- The gap table: SYNC and FIRST by decoder. -/
def gapEntries (g : List Byte) : List (Nat × Nat) := (List.range 8).map fun i => (field g (8 * i) 4, field g (8 * i + 4) 4)

/-- A gap table that keeps R206. -/
def gapsOk (gaps : List (Nat × Nat)) (paylen nsym : Nat) : Bool :=
  gaps.head? == some (0, 0)
    && (gaps.zip gaps.tail).all (fun p => decide (p.1.1 ≤ p.2.1) && decide (p.1.2 ≤ p.2.2))
    && (gaps.zipIdx.all fun p => p.2 == 0 || (decide (p.2 * paylen ≤ p.1.1) && decide (p.1.1 < 8 * paylen)))
    && gaps.all fun p => decide (p.2 ≤ nsym)

/-- What the eight decoders make of a block: the bytes in symbol order, and whether nothing was wrong with it: a
SYNC inside a code, which its decoder takes as a boundary, a payload that ends early, or bits left over after the last
symbol. -/
def decodeBlock (t : CodeTable) (payload : List Byte) (nsym : Nat) (gaps : List (Nat × Nat)) : List Byte × Bool :=
  let nb := 8 * payload.length
  let pay := beNat payload
  let parts := gaps.zipIdx.map fun p =>
    let next := ((gaps.map Prod.snd)[p.2 + 1]?).getD nsym
    let start := p.2 * payload.length
    let landed := syncTo pay nb p.1.1 t (p.1.1 - start) start == p.1.1
    let (bs, e, ok) := decodeFrom pay nb t (next - p.1.2) p.1.1
    (bs, e, ok, landed)
  let whole := parts.takeWhile fun p => p.2.2.1
  let bs := (parts.take (whole.length + 1)).flatMap Prod.fst
  let last := ((parts.filter fun p => p.1 != []).getLast?.map fun p => p.2.1).getD 0
  (bs, parts.all (fun p => p.2.2.1 && p.2.2.2) && last == nb)

/-- A block header that keeps R205; `bf` is the island's B format where the stream port is the destination. -/
def headerOk (h : Nat) (bf : Option Fmt) : Bool :=
  let nsym := bits h 32 32
  let gapoff := bits h 96 32
  bits h 0 32 == 0x4B425850 && bits h 76 20 == 0 && bits h 192 64 == 0 && decide (1 ≤ nsym) && decide (nsym ≤ 1048576)
    && gapoff % 8 == 0 && decide (32 + bits h 128 32 ≤ gapoff)
    && (match bf with
      | none => nsym % 4 == 0
      | some f => Fmt.ofCode (bits h 72 4) == some f)

/-! ### The stream port (R207, R331) -/

/-- The island an expander's stream port feeds. -/
def streamIsland (s : State) (en : Nat) : Option Nat := (s.expander en).island

/-- The B format of that island. -/
def streamFmt (s : State) (en : Nat) : Option Fmt :=
  (streamIsland s en).bind fun k => (s.island k).core.cfg.map fun c => c.2.1

/-- Whether an island takes tokens at its stream port: a stream load runs and has not its 256 rows. -/
def streamTakes (s : State) (k : Nat) : Bool :=
  let x := s.island k
  match x.core.load, x.core.cfg with
  | some l, some (_, bf, _) => (match l.desc with
    | some d => bits (natOf d) 97 1 == 1 && decide (x.bport.length < 2)
        && decide (x.core.brow * rowBytes bf + l.part.length + 32 * x.bport.length < 256 * rowBytes bf)
    | none => false)
  | _, _ => false

def xpToStream (j : XpJob) : Bool := bits (natOf j.desc) 96 1 == 1

/-! ### The steps of a job -/

/-- The job descriptor keeps R204. -/
def xpDescOk (s : State) (en : Nat) (d : Nat) : Bool :=
  decide (1 ≤ bits d 64 32) && decide (bits d 64 32 ≤ 65535) && bits d 97 31 == 0
    && (bits d 96 1 == 0 || (streamIsland s en).isSome)

/-- The next block opened: its header, table, gap table and payload read, checked and decoded. -/
def openBlock (s : State) (en ctx : Nat) (j : XpJob) : JobStep :=
  let tva := bits (natOf j.desc) 192 64
  jobRead (engRead s en ctx j.header 32 false) fun hb s =>
    let h := natOf hb
    let paylen := bits h 128 32
    let gapoff := bits h 96 32
    let nsym := bits h 32 32
    let bf := if xpToStream j then streamFmt s en else none
    if (xpToStream j && bf.isNone) || !headerOk h bf then .bad
    else jobRead (engRead s en ctx ((tva : Int) + 288 * bits h 64 8) 288 false) fun tb s =>
      match codeTable tb with
      | none => .bad
      | some t => jobRead (engRead s en ctx ((j.header : Int) + gapoff) 64 false) fun gb s =>
        let gaps := gapEntries gb
        if !gapsOk gaps paylen nsym then .bad
        else jobRead (engRead s en ctx ((j.header : Int) + 32) paylen false) fun pb s =>
          let (bs, ok) := decodeBlock t pb nsym gaps
          let after := (j.header + gapoff + 64 + 31) / 32 * 32
          .go (modXpJob s en fun j => { j with
            next := after, out := bs, size := bs.length, opened := true, good := ok && crc32c bs == bits h 160 32 })

/-- The start of a job, then of each block: an expander decodes a block only after the CRC of the one before it has
matched (R331). -/
def xpStart (s : State) (en : Nat) : JobStep :=
  match (s.expander en).job with
  | none => .idle
  | some j =>
    let ctx := ctxOf s j.region
    if j.stopped then .idle
    else if j.desc = [] then
      jobRead (engRead s en ctx j.descVa 32 false) fun d s =>
        let w := natOf d
        if xpDescOk s en w && bits w 96 1 == 1 && sourcesEnded s j.region then .go (s.modExpander en fun x => { x with job := none })
        else if xpDescOk s en w then
          .go (modXpJob s en fun j => { j with desc := d, header := bits w 0 64, outPos := bits w 128 64 })
        else .bad
    else if j.opened then .idle
    else openBlock s en ctx j

/-- The next token of an open block goes to the stream port; bytes that fill only part of a token wait (R207). -/
def xpToken (s : State) (en : Nat) : State :=
  let x := s.expander en
  match x.job, x.island with
  | some j, some k =>
    if xpToStream j && j.opened && !j.stopped && j.out != [] && streamTakes s k then
      let bs := x.part ++ j.out.take (32 - x.part.length)
      let rest := j.out.drop (32 - x.part.length)
      let full := bs.length == 32
      let s := s.modExpander en fun x => { x with
        part := if full then [] else bs, owner := some j.region, job := some { j with out := rest } }
      if full then s.modIsland k fun y => { y with bport := y.bport ++ [⟨BitVec.ofNat 256 (natOf bs), 0, 0⟩] } else s
    else s
  | _, _ => s

/-- The full bits of a block's words on FE pages, set with the bytes that stand there. -/
def setFullRange (s : State) (ps : List Page) (va len : Nat) : State :=
  if ps.any (·.fe) then
    (readSpans ps (ps.length + 1) va len).foldl
      (fun s p => physStore s p.1 (s.mem.reads (localPa p.1) p.2) (some true)) s
  else s

/-- The block that is complete leaves the job: the next one, or the end. -/
def nextBlock (s : State) (en : Nat) : State :=
  let f (j : XpJob) : Option XpJob :=
    if j.block + 1 = bits (natOf j.desc) 64 32 then none
    else some { j with block := j.block + 1, header := j.next, opened := false, out := [] }
  s.modExpander en fun x => { x with job := x.job.bind f }

/-- A stream load that runs takes what stands at the port, and then the POISON mark (R198, R207). -/
def poisonLoad : Nat → Nat → State → State
  | 0, _, s => s
  | fuel + 1, k, s =>
    let x := s.island k
    match x.core.load with
    | none => s
    | some l =>
      let stream := l.desc.any fun d => bits (natOf d) 97 1 == 1
      if !stream then s
      else if x.bport = [] then takePoison s k
      else match loadStep s k with
        | .go s => poisonLoad fuel k s
        | _ => s

/-- A job ended with a POISON mark on its stream port, where that is its destination. -/
def poisonPort (s : State) (en : Nat) (j : XpJob) : State :=
  if !xpToStream j then s.modExpander en fun x => { x with job := none }
  else
    let s := s.modExpander en fun x => { x with
      job := none, owner := some j.region, poison := some (markToken (5 + j.block * 2 ^ 32) 0) }
    match streamIsland s en with
    | some k => poisonLoad 5 k s
    | none => s

/-- A mismatch (R207, R332): POISON on the stream port, the job ended, 0x07 raised with the block index. -/
def crcMismatch (s : State) (en : Nat) (j : XpJob) : State :=
  kernelFault (poisonPort s en j) j.region (engErr en 7 j.block)

/-- An expander that reads a poisoned page sends POISON on its stream port, or on its reply port (R318). -/
def expanderPoison (s : State) (en key : Nat) : State :=
  match (s.expander en).job with
  | some j =>
    if j.desc != [] && xpToStream j then
      let s := poisonRegion (poisonPort s en j) key
      s.modExpander en fun x => { x with poison := none }
    else engPoison (s.modExpander en fun x => { x with job := none }) en key
  | none => engPoison s en key

/-- The next step of a block whose symbols are all decoded: towards memory 64 bytes at a time, then the CRC. -/
def xpFinish (s : State) (en : Nat) : JobStep :=
  match (s.expander en).job with
  | none => .idle
  | some j =>
    let ctx := ctxOf s j.region
    if !j.opened || j.stopped then .idle
    else if xpToStream j then
      (if j.out != [] then .idle else if j.good then .go (nextBlock s en) else .go (crcMismatch s en j))
    else if j.out != [] then
      let bs := j.out.take 64
      jobWrite (engWrite s en ctx j.outPos bs false) fun s =>
        .go (modXpJob s en fun j => { j with out := j.out.drop 64, outPos := j.outPos + bs.length })
    else if !j.good then .go (crcMismatch s en j)
    else
      let start := j.outPos - j.size
      match engAccess s en ctx start j.size true with
      | (.fault c v, s) => .fault s.links c v true
      | (.wait, s) => .go s
      | (.pages ps, s) => .go (nextBlock (setFullRange s ps start j.size) en)

/-- The next job or mark of an expander's queue taken. -/
def startExpander (s : State) (en : Nat) : State :=
  let s := s.modExpander en Expander.intake
  let x := s.expander en
  match x.job, x.queue with
  | none, c :: cs =>
    if c.tok.isMark then pushReply (s.modExpander en fun x => { x with queue := cs }) en c
    else if strokeClosed s c && !x.frozen then
      s.modExpander en fun x => { x with queue := cs, job := some { descVa := c.aval, region := c.region } }
    else s
  | _, _ => s

end Sys2Proof.Machine
end

