-- ==== Sys2Proof/Machine/Weirs.lean ====
section
/-! DEFINITION. The weirs and the range server: spec/10_engines.md R171, R208 to R210, spec/18_group.md R299. -/

namespace Sys2Proof.Machine

/-! ### Weirs (R208) -/

def State.weir (s : State) (en : Nat) : Weir := kget s.weirs en {}
def State.modWeir (s : State) (en : Nat) (f : Weir → Weir) : State := { s with weirs := kput s.weirs en (f (s.weir en)) }

def Weir.intake (x : Weir) : Weir :=
  if x.frozen then x
  else { x with fifo := (untilFreeze x.fifo).2.1, queue := x.queue ++ (untilFreeze x.fifo).1, frozen := (untilFreeze x.fifo).2.2 }

def weirDescOk (d : List Byte) : Bool :=
  let n := descField d 8 0 32
  let nk := descField d 8 32 16
  decide (1 ≤ n) && decide (n ≤ 1048576) && decide (1 ≤ nk) && decide (nk ≤ 4096) && descField d 8 48 16 == 0
    && descField d 0x30 31 33 == 0 && descField d 0x38 0 64 == 0

/-- Running sums: the sum of all counts before each. -/
def sumsFrom : Nat → List Nat → List Nat
  | _, [] => []
  | acc, n :: ns => acc :: sumsFrom (acc + n) ns

/-- The words a sort writes, in order: counts, offsets, the stable permutation, the completion word. -/
def weirOuts (d : List Byte) (keys : List Nat) : List (Nat × Nat) :=
  let nk := descField d 8 32 16
  let ks := keys.map fun k => min k nk
  let items (k : Nat) : List Nat := (ks.zipIdx.filter fun p => p.1 == k).map Prod.snd
  let groups := (List.range (nk + 1)).map items
  let cnt := groups.map List.length
  let words (va : Nat) (ws : List Nat) : List (Nat × Nat) := ws.mapIdx fun i w => (va + 4 * i, w)
  let cva := descField d 0x28 0 64
  words (descField d 0x10 0 64) cnt ++ words (descField d 0x18 0 64) (sumsFrom 0 cnt)
    ++ words (descField d 0x20 0 64) groups.flatten
    ++ (if cva = 0 then [] else [(cva, descField d 0x30 0 32)])

/-- Output words written, each with its full bit set, until one must wait or faults. -/
def writeOuts (en ctx : Nat) : List (Nat × Nat) → State → JobStep
  | [], s => .go (s.modWeir en fun x => { x with job := none })
  | w :: ws, s =>
    match engWrite s en ctx w.1 (byteList 4 w.2) true with
    | (.bytes _, s) => writeOuts en ctx ws s
    | (.wait, s) => .go (s.modWeir en fun x => { x with job := x.job.map fun j => { j with outs := some (w :: ws) } })
    | (.fault c v, s) =>
      if c = 1 ∨ c = 2 then
        .go (raisePageFault (s.modWeir en fun x => { x with job := x.job.map fun j =>
          { j with outs := some (w :: ws), stopped := true } }) (en / 64) ⟨engKind en, en % 64, ctx, v, true, c⟩)
      else .fault s.links c v true

/-- The start of a sort: its descriptor. -/
def weirStart (s : State) (en : Nat) : JobStep :=
  match (s.weir en).job with
  | none => .idle
  | some j =>
    if j.stopped || j.desc != [] then .idle
    else jobRead (engRead s en (ctxOf s j.region) j.descVa 64 false) fun d s =>
      if weirDescOk d then .go (s.modWeir en fun x => { x with job := x.job.map fun j => { j with desc := d } }) else .bad

/-- The sort: all keys read, then every output word written (R208). -/
def weirSort (s : State) (en : Nat) : JobStep :=
  match (s.weir en).job with
  | none => .idle
  | some j =>
    let ctx := ctxOf s j.region
    if j.stopped || j.desc == [] then .idle
    else match j.outs with
      | some ws => writeOuts en ctx ws s
      | none =>
        let n := descField j.desc 8 0 32
        jobRead (engRead s en ctx (descField j.desc 0 0 64) (4 * n) false) fun bs s =>
          let keys := (List.range n).map fun i => field bs (4 * i) 4
          writeOuts en ctx (weirOuts j.desc keys) s

def startWeir (s : State) (en : Nat) : State :=
  let s := s.modWeir en Weir.intake
  let x := s.weir en
  match x.job, x.queue with
  | none, c :: cs =>
    if c.tok.isMark then pushReply (s.modWeir en fun x => { x with queue := cs }) en c
    else if strokeClosed s c && !x.frozen then
      s.modWeir en fun x => { x with queue := cs, job := some { descVa := c.aval, region := c.region } }
    else s
  | _, _ => s

/-! ### The range server (R210) -/

/-- A pool of a die, by die and number. -/
def State.pool (s : State) (die n : Nat) : Pool := kget (kget s.servers die {}).pools n {}

def State.setPool (s : State) (die n : Nat) (p : Pool) : State :=
  let r := kget s.servers die {}
  { s with servers := kput s.servers die { r with pools := kput r.pools n p } }

/-- The number of indices not yet handed out (R209). -/
def Pool.remaining (p : Pool) : Nat := p.left + (p.chunks.map fun c => c.count.toNat).sum

/-- The next chunk of a pool, and the pool after it. -/
def Pool.take (p : Pool) : Option Chunk × Pool :=
  match p.chunks with
  | c :: cs => (some c, { p with chunks := cs })
  | [] =>
    if p.left = 0 then (none, p)
    else
      let n := match p.mode with
        | .guided => min (max p.chunk.toNat (p.left / (4 * p.takers.toNat))) p.left
        | _ => min p.chunk.toNat p.left
      (some ⟨p.next, BitVec.ofNat 32 n, 0⟩, { p with next := p.next + BitVec.ofNat 64 n, left := p.left - n })

/-- The range token of a chunk (R171). -/
def rangeToken (pool : Nat) (c : Chunk) : Token :=
  ⟨BitVec.ofNat 256 (c.start.toNat + c.count.toNat * 2 ^ 64 + c.group.toNat * 2 ^ 96 + pool * 2 ^ 112), 0, 0⟩

/-- The first request in arrival order whose pool is not reading its table. -/
def nextTake (s : State) (die : Nat) : Option TakeReq :=
  (kget s.servers die {}).queue.find? fun q => (s.pool die q.pool).reading.isNone

/-- RANGE_SERVER_SERVE (R68, R171, R210). -/
def execRangeServerServe (die : Nat) (s : State) : Result :=
  match nextTake s die with
  | none => .next s
  | some q =>
    let r := kget s.servers die {}
    let rest := r.queue.filter fun x => x.req != q.req
    let s := { s with servers := kput s.servers die { r with queue := rest } }
    let (c, p) := (s.pool die q.pool).take
    match findReq s q.tile q.elem q.req with
    | none => .next s
    | some m =>
      let (tok, p) : Token × Pool := match c, regionOf s q.tile with
        | some c, some key => (rangeToken q.pool c, { p with taken := p.taken ++ [⟨key, m.stroke, c⟩] })
        | some c, none => (rangeToken q.pool c, p)
        | none, _ => (⟨0, 1, 0⟩, p)
      let s := s.setPool die q.pool p
      .next (modReq s q.tile q.elem q.req fun m => { m with answer := some tok })

/-- The chunks of a group table: each entry cut into CHUNK rows, in ascending order (R210). -/
def tableChunks (start : W64) (chunk : Nat) : Nat → Nat → List Nat → List Chunk
  | _, _, [] => []
  | i, acc, n :: ns =>
    ((List.range ((n + chunk - 1) / chunk)).map fun k =>
      Chunk.mk (start + BitVec.ofNat 64 (acc + k * chunk)) (BitVec.ofNat 32 (min chunk (n - k * chunk))) (BitVec.ofNat 16 i))
      ++ tableChunks start chunk (i + 1) (acc + n) ns

/-- POOL_TABLE_READ_COMPLETE (R210): the table of a pool, by die and number, has been read; malformed or faulting,
the pool is failed, and the fault is not serviced. -/
def execPoolTableReadComplete (pk : Nat) (s : State) : Result :=
  let die := pk / 16
  let p := s.pool die (pk % 16)
  match p.reading with
  | none => .next s
  | some (va, start, ctx) =>
    match readGroup s (die * 64 + 50) ctx va with
    | (.wait, s) => .next s
    | (.bad, s) => .next (s.setPool die (pk % 16) { p with reading := none, failed := some 0x12, left := 0, chunks := [] })
    | (.fault c _, s) =>
      .next (s.setPool die (pk % 16) { p with reading := none, failed := some (BitVec.ofNat 8 c), left := 0, chunks := [] })
    | (.val (_, es), s) =>
      let cs := tableChunks start p.chunk.toNat 0 0 (es.map GroupEntry.rows)
      .next (s.setPool die (pk % 16) { p with reading := none, chunks := cs })

end Sys2Proof.Machine
end

