-- ==== Sys2Proof/Machine/EngineEvents.lean ====
section
/-! DEFINITION. The steps of the engines as rows of the opcode table: commands started, advanced and completed, engine
errors, replies, service after a fault: spec/10_engines.md R187, R188, R197, R200 to R208, spec/19_barrier.md R303. -/

namespace Sys2Proof.Machine

/-- Streamers are engines 16 to 23 of a die, expanders 24 to 47, weirs 48 and 49 (R288). -/
def isStreamer (en : Nat) : Bool := decide (16 ≤ en % 64) && decide (en % 64 < 24)
def isExpander (en : Nat) : Bool := decide (24 ≤ en % 64) && decide (en % 64 < 48)
def isWeir (en : Nat) : Bool := decide (48 ≤ en % 64) && decide (en % 64 < 50)

/-- The region of the job an engine works on. -/
def jobRegion (s : State) (en : Nat) : Nat :=
  if isStreamer en then ((s.streamer en).job.map StreamJob.region).getD 0
  else if isExpander en then ((s.expander en).job.map XpJob.region).getD 0
  else ((s.weir en).job.map WeirJob.region).getD 0

def stopJob (s : State) (en : Nat) (b : Bool) : State :=
  if isStreamer en then s.modStreamer en fun x => { x with job := x.job.map fun j => { j with stopped := b } }
  else if isExpander en then s.modExpander en fun x => { x with job := x.job.map fun j => { j with stopped := b } }
  else s.modWeir en fun x => { x with job := x.job.map fun j => { j with stopped := b } }

/-- The command at work ends by an error. -/
def endJob (s : State) (en code : Nat) : State :=
  if isStreamer en then endStream s en code
  else if isExpander en then s.modExpander en fun x => { x with job := none }
  else s.modWeir en fun x => { x with job := none }

/-- A step applied: 0x01 and 0x02 stop the engine where it stands and are serviced (R203, R315); any other fault
ends the command and the kernel. -/
def finishStep (s : State) (en : Nat) : JobStep → State
  | .idle => s
  | .bad => s
  | .go t => t
  | .fault links code va wr =>
    let s : State := { s with links := links }
    let key := jobRegion s en
    if code = 1 ∨ code = 2 then engPageFault (stopJob s en true) en key code va wr
    else if code = 5 ∧ isExpander en then expanderPoison s en key
    else engStop (endJob s en code) en key code (if code = 5 ∨ code = 6 then va else 0)

/-- The command at the head of an engine's work, without side effects on the queue: what its first step would be. -/
def startStep (s : State) (en : Nat) : JobStep :=
  if isStreamer en then (if (s.streamer en).job.any (fun j => j.desc == []) then streamStep s en else .idle)
  else if isExpander en then xpStart s en
  else if isWeir en then weirStart s en
  else .idle

def takeCommand (s : State) (en : Nat) : State :=
  if isStreamer en then startStream s en
  else if isExpander en then startExpander s en
  else if isWeir en then startWeir s en
  else s

/-- An opcode that does not belong at an engine's command port. -/
def wrongCommand (s : State) (en : Nat) : Option Cmd :=
  let head (q : List Cmd) (busy : Bool) (ok : Nat → Bool) : Option Cmd :=
    if busy then none else q.head?.filter fun c => !c.tok.isMark && strokeClosed s c && !ok c.op
  if isStreamer en then head (s.streamer en).queue ((s.streamer en).job.isSome || (s.streamer en).frozen) fun op => decide (0xC8 ≤ op) && decide (op ≤ 0xCB)
  else if isExpander en then head (s.expander en).queue ((s.expander en).job.isSome || (s.expander en).frozen) (· == 0xD0)
  else if isWeir en then head (s.weir en).queue ((s.weir en).job.isSome || (s.weir en).frozen) (· == 0xD1)
  else none

/-- STREAM_COMMAND_START (R187, R200, R201, R204, R205): the next command whose stroke has closed starts; a job just
started reads its descriptor, and an expander opens its next block. -/
def execStreamCommandStart (en : Nat) (s : State) : Result :=
  let s := if (wrongCommand s en).isSome then s else takeCommand s en
  .next (finishStep s en (startStep s en))

/-- STREAM_COMMAND_COMPLETE (R201 to R203): a streamer moves its next unit; after the last one it writes the
completion word. -/
def execStreamCommandComplete (en : Nat) (s : State) : Result :=
  if isStreamer en && (s.streamer en).job.any (fun j => j.desc != []) then .next (finishStep s en (streamStep s en))
  else .next s

/-- STREAM_FAULT_RESUME (R203, R315): after service the command resumes where it stopped. -/
def execStreamFaultResume (en : Nat) (s : State) : Result :=
  if engHeld s en || !(isStreamer en || isExpander en || isWeir en) then .next s else .next (stopJob s en false)

/-- EXPANDER_BLOCK_COMPLETE (R207, R332). -/
def execExpanderBlockComplete (en : Nat) (s : State) : Result :=
  if isExpander en then .next (finishStep s en (xpFinish s en)) else .next s

/-- EXPANDER_STREAM_SLOT_FREE (R206, R331). -/
def execExpanderStreamSlotFree (en : Nat) (s : State) : Result :=
  if isExpander en then .next (xpToken s en) else .next s

/-- WEIR_SORT_COMPLETE (R208). -/
def execWeirSortComplete (en : Nat) (s : State) : Result :=
  if isWeir en then .next (finishStep s en (weirSort s en)) else .next s

/-- An engine error at an island (R188, R190): the command is discarded, 0x12 recorded. -/
def islandError (s : State) (en : Nat) : State :=
  let x := s.island en
  let c := x.core
  let note (c : IslandCore) : IslandCore := { c with fcode := 0x12, err := true }
  match c.load, loadStep s en with
  | some l, .bad =>
    let s := modCore' s en fun c => note (setBuf { c with load := none } l.buf { buf c l.buf with st := .faulted })
    kernelFault s l.region (engErr en 0x12 0)
  | _, _ =>
    match c.group with
    | some g =>
      if g.read || g.stopped then s
      else match readGroup s en (ctxOf s g.region) g.va with
        | (.bad, s) =>
          kernelFault (modCore' s en fun c => note { c with group := none }) g.region (engErr en 0x12 0)
        | _ => s
    | none =>
      match c.queue with
      | [] => s
      | q :: qs =>
        if canStart c q && (!islandOp q.op || (c.cfg.isNone && q.op != 0xC0)) then
          kernelFault (modCore' s en fun c => note { c with queue := qs }) q.region (engErr en 0x12 0)
        else s

/-- ENGINE_ERROR (R188). -/
def execEngineError (en : Nat) (s : State) : Result :=
  if en % 64 < 16 then .next (islandError s en)
  else match wrongCommand s en with
    | some c => .next (kernelFault (endJob s en 0x12) c.region (engErr en 0x12 0))
    | none =>
      let key := jobRegion s en
      match startStep s en with
      | .bad => .next (kernelFault (endJob s en 0x12) key (engErr en 0x12 0))
      | _ => .next s

/-! ### Replies (R188, R197, R303) -/

def engReplies (s : State) (en : Nat) : List Cmd :=
  if en % 64 < 16 then (s.island en).replies
  else if isStreamer en then (s.streamer en).replies
  else if isExpander en then (s.expander en).replies
  else (s.weir en).replies

def dropReply (s : State) (en : Nat) : State :=
  if en % 64 < 16 then s.modIsland en fun x => { x with replies := x.replies.tail }
  else if isStreamer en then s.modStreamer en fun x => { x with replies := x.replies.tail }
  else if isExpander en then s.modExpander en fun x => { x with replies := x.replies.tail }
  else s.modWeir en fun x => { x with replies := x.replies.tail }

/-- Where the replies of a region's commands go: the channel its image binds to the reply port. -/
def replyTarget (s : State) (en key : Nat) : Option Target :=
  ((inboundTargets s (en / 64) (0x300 + en % 64)).find? fun p => p.1 == key).map Prod.snd

/-- A token given to the bound reply channel, or dropped where none is bound; none where it must wait. -/
def deliverReply (s : State) (en key : Nat) (tok : Token) : Option State :=
  match replyTarget s en key with
  | none => some s
  | some g => if targetFree s 1 g then some (match g with
      | .chan t _ _ => deliver s t tok g
      | _ => s) else none

/-- ENGINE_REPLY: an MXSTAT at an island's command port is answered ahead of the queue; other replies go in order. -/
def execEngineReply (en : Nat) (s : State) : Result :=
  let waits := match decide (en % 64 < 16), (s.island en).fifo with
    | true, c :: _ => if !c.tok.isMark && c.op == 0xC6 then some c else none
    | _, _ => none
  match waits with
  | some c =>
    let x := s.island en
    let tok : Token := ⟨BitVec.ofNat 256 (statusWord x c.aval), 0, c.tok.stroke⟩
    match deliverReply s en c.region tok with
    | some s => .next (s.modIsland en fun x => { x with fifo := x.fifo.tail })
    | none => .next s
  | none =>
    match engReplies s en with
    | [] => .next s
    | c :: _ =>
      match deliverReply s en c.region c.tok with
      | some s => .next (dropReply s en)
      | none => .next s

end Sys2Proof.Machine
end

