-- ==== Sys2Proof/Machine/PumpCore.lean ====
section
/-! DEFINITION. What every pump body instruction is written with: the registers a lane sees (R50), the skip predicate
(R79), what an instruction leaves in the lane, its addresses (R215, R259), the stores it buffers (R217), and the data
cache (R216). -/

namespace Sys2Proof.Machine

/-! ### The core and the lane that act -/

/-- The key of a core: die, 4 for H, and number (R228). -/
def coreKey (die n : Nat) : Nat := die * 16 + n
def coreDie (c : Nat) : Nat := c / 16
def coreNo (c : Nat) : Nat := c % 16

/-- A core handle (R232) as a key; none where it names no core of the module. -/
def coreOfHandle (h : Nat) : Option Nat :=
  let die := bits h 0 3
  let n := bits h 3 4
  if h / 2 ^ 7 = 0 ∧ (die < 4 ∨ (die = 4 ∧ n < 4)) then some (coreKey die n) else none

def coreHandle (c : Nat) : Nat := coreDie c + 8 * coreNo c

/-- The context a core runs; H.P0 to H.P3 always run context 0 (R231). -/
def coreCtx (s : State) (c : Nat) : Nat := if coreDie c = 4 then 0 else match (s.core c).ctx with
  | some x => x.val
  | none => 0

def privileged (s : State) (c : Nat) : Bool := coreCtx s c == 0

def bodyLane (s : State) : Lane := (s.core s.actor.core).lanes.getD s.actor.lane { rule := 0, run := .aborted }

/-- A register as a lane sees it: its own earlier write, or the value at the start of the round (R50). -/
def regOf (c : Core) (l : Lane) (r : Nat) : W64 := (kfind l.g r).getD (c.g[r]?.getD 0)
def predOf (c : Core) (l : Lane) (n : Nat) : Bool := (kfind l.p n).getD (c.p.getLsbD n)
def readG (s : State) (r : Reg) : Nat := (regOf (s.core s.actor.core) (bodyLane s) r.val).toNat
def readP (s : State) (n : Fin 32) : Bool := predOf (s.core s.actor.core) (bodyLane s) n.val

/-- A skipped instruction has no effect (R79, R96). -/
def skips (h : Skip) (s : State) : Bool := match h.pred with
  | some (neg, id) => readP s id != neg
  | none => false

/-! ### The rule table (R98) -/

def ruleStart (h1 : W64) : Nat := bits h1.toNat 13 12
def ruleLen (h1 : W64) : Nat := bits h1.toNat 25 5 + 1
def ruleClass (h1 : W64) : Nat := bits h1.toNat 30 2
def ruleWrites (h1 : W64) : Nat := bits h1.toNat 32 8
def ruleReads (h1 : W64) : Nat := bits h1.toNat 40 8
def ruleEvents (h1 : W64) : Nat := bits h1.toNat 48 16

def Core.ruleAt (c : Core) (j : Nat) : W64 × W64 := c.rules[j]?.getD (0, 0)

/-! ### What an instruction does to its lane -/

/-- What a completed instruction leaves in its lane: shadow writes, acts for the commit, and how many of the next
instructions are passed over. -/
structure Did where
  g    : List (Nat × W64) := []
  p    : List (Nat × Bool) := []
  acts : List CommitAct := []
  past : Nat := 0
  deriving DecidableEq, Repr

/-- What an instruction comes to: done; not yet; an abort without a fault; a fault with its address (R55). -/
inductive PumpOut where
  | done (s : State) (d : Did)
  | wait (s : State)
  | retry (s : State)
  | fault (s : State) (code : Nat) (va : Option Nat)
  deriving DecidableEq, Repr

/-- Whether an act takes one of the sixteen entries of the rule store buffer (R217, R230). -/
def CommitAct.isEntry : CommitAct → Bool
  | .store _ _ _ rest => !rest
  | .fence _ | .noteSend _ _ | .noteTake _ _ | .timer _ _ _ | .cfgTake | .barmTake _ | .fltClear _ | .novfClear _
  | .phint _ _ _ _ => false
  | .tailw _ _ | .trigBind _ _ | .trigUnbind _ | .request _ _ _ _ _ _ | .verd _ _ _ | .wdraw _ _ _ _ _
  | .wclose _ | .barm _ _ _ _ | .bara _ | .pbudg _ _ _ | .sysw _ _ => true

/-- The lane after a completed instruction. -/
def Lane.after (l : Lane) (len : Nat) (d : Did) : Lane :=
  let pc := l.pc + 1 + d.past
  { l with
    pc := pc
    g := d.g.foldl (fun m w => kput m w.1 w.2) l.g
    p := d.p.foldl (fun m w => kput m w.1 w.2) l.p
    acts := l.acts ++ d.acts
    run := if len ≤ pc then .done else .running }

def laneDid (s : State) (d : Did) : State :=
  let l := bodyLane s
  let len := ruleLen ((s.core s.actor.core).ruleAt l.rule).2
  s.modCore s.actor.core fun c => setLane c s.actor.lane (l.after len d)

/-- One body instruction: skipped, or executed (R50, R55, R79). -/
def pumpStep (h : Skip) (op : Nat) (s : State) (out : PumpOut) : Result :=
  let c := s.actor.core
  let k := s.actor.lane
  let l := bodyLane s
  if l.run != .running then .next s
  else if skips h s then .next (laneDid s {})
  else match out with
    | .wait s => .next s
    | .retry s => .next (abortLane s c k none op)
    | .fault s code va => .next (abortLane s c k (some (code, va)) op)
    | .done s d =>
      if 16 < l.acts.countP CommitAct.isEntry + d.acts.countP CommitAct.isEntry then .next (abortLane s c k none op)
      else .next (laneDid s d)

/-- A fault of an operand value (R231). -/
def operandFault (s : State) : PumpOut := .fault s 2 none

/-- A result in one register. -/
def gives (s : State) (rd : Reg) (v : Nat) : PumpOut := .done s { g := [(rd.val, BitVec.ofNat 64 v)] }

/-- Acts held for the commit. -/
def defers (s : State) (a : CommitAct) : PumpOut := .done s { acts := [a] }

/-! ### Widths (R97) -/

def widthBits : PumpW → Nat
  | .w64 => 64
  | .w32 => 32
  | .w16 => 16
  | .w8 => 8

def widthBytes (w : PumpW) : Nat := widthBits w / 8

/-- A result of w bits extended to 64: by zero when N = 1, by sign when N = 0. -/
def extendW (n : Bool) (w : Nat) (v : Nat) : Nat := if n then v % 2 ^ w else wrap 64 (toSigned w (v % 2 ^ w))

/-- Operand B: a register, or the sign-extended IMM24. -/
def readB (s : State) : PSrc → Nat
  | .reg r => readG s r
  | .imm v => (v.signExtend 64).toNat

/-! ### Addresses (R215, R259) -/

def eaOf (s : State) (ra : Reg) (disp : BitVec 24) : Int := (readG s ra : Int) + disp.toInt

def Window.enabled (w : Window) : Bool := w.ctl.getLsbD 0
def Window.writable (w : Window) : Bool := w.ctl.getLsbD 1
def Window.size (w : Window) : Nat := 2 ^ bits w.ctl.toNat 2 6

/-- The lowest enabled window that an address falls in. -/
def windowOf (c : Core) (ea : Int) : Option Window :=
  c.wins.toList.find? fun w => w.enabled && decide ((w.base.toNat : Int) ≤ ea) && decide (ea < w.base.toNat + w.size)

/-- Where an access of a pump core leads: physical spans, and whether they lie on an FE page. -/
inductive PumpAcc where
  | fault (code va : Nat)
  | wait
  | at (spans : List (Nat × Nat)) (fe : Bool)
  deriving DecidableEq, Repr

/-- The capacity of a core's own TLB, of which the spec says only that it is small (log entry 25). -/
def coreTlbCap : Nat := smallTlb

/-- A core's translation of an access; `word` marks LDS, STF, LDC and WAITV, which no window serves (R259). -/
def pumpAccess (s : State) (ea : Int) (len : Nat) (want : Want) (word : Bool) : PumpAcc × State :=
  let cn := s.actor.core
  let c := s.core cn
  match rangeFault ea len with
  | some (code, va) => (.fault code va, s)
  | none =>
    match windowOf c ea with
    | some w =>
      let pa := (w.tgt.toNat + (ea.toNat - w.base.toNat)) % 2 ^ 52
      if word || (want.write && !w.writable) || placeOf pa == .hole || ((placeOf pa).isMmio && !want.dev) then
        (.fault 2 ea.toNat, s)
      else (.at [(pa, len)] false, s)
    | none =>
      let (a, tlb, s) := translateAccess s (coreDie cn) (coreCtx s cn) coreTlbCap c.tlb ea len want
      let s := s.modCore cn fun c => { c with tlb := tlb }
      match a with
      | .fault code va => (.fault code va, s)
      | .wait => (.wait, s)
      | .pages ps => (.at (readSpans ps (ps.length + 1) ea.toNat len) (ps.any (·.fe)), s)

/-- An MMIO access is 32 or 64 bits wide and naturally aligned, as a whole (R219). -/
def mmioShape (spans : List (Nat × Nat)) : Bool :=
  match spans with
  | [p] => !(placeOf p.1).isMmio || ((p.2 == 4 || p.2 == 8) && p.1 % p.2 == 0)
  | ps => ps.all fun p => !(placeOf p.1).isMmio

/-- What an access comes to before it is performed: its spans and FE, or the answer of the instruction. -/
def withAccess (s : State) (ea : Int) (len : Nat) (want : Want) (word : Bool)
    (k : State → List (Nat × Nat) → PumpOut) : PumpOut :=
  match pumpAccess s ea len want word with
  | (.fault code va, s) => .fault s code (some va)
  | (.wait, s) => .wait s
  | (.at spans _, s) => if mmioShape spans then k s spans else .fault s 2 (some ea.toNat)

/-! ### Buffered stores (R217) -/

/-- The bytes of a store by physical span. -/
def splitData : List (Nat × Nat) → List Byte → List (Nat × List Byte)
  | [], _ => []
  | p :: ps, bs => (p.1, bs.take p.2) :: splitData ps (bs.drop p.2)

/-- A store as acts: one entry of the rule store buffer. -/
def storeActs (spans : List (Nat × Nat)) (data : List Byte) (full : Option Bool) : List CommitAct :=
  (splitData spans data).zipIdx.map fun p => .store p.1.1 p.1.2 full (p.2 != 0)

def CommitAct.bytes? : CommitAct → Option (Nat × List Byte)
  | .store pa bs _ _ => some (pa, bs)
  | _ => none

def QStore.bytes? : QStore → Option (Nat × List Byte)
  | .store pa bs _ => some (pa, bs)
  | .fence _ => none

/-- Bytes of a store laid over bytes read at a physical address. -/
def layOver (pa : Nat) (bs : List Byte) (w : Nat × List Byte) : List Byte :=
  bs.mapIdx fun i b => if w.1 ≤ pa + i ∧ pa + i < w.1 + w.2.length then w.2.getD (pa + i - w.1) 0 else b

/-- A load sees the core's committed stores that memory has not performed, and its own body's buffered bytes. -/
def seenBy (c : Core) (l : Lane) (pa : Nat) (bs : List Byte) : List Byte :=
  (c.storeQ.filterMap QStore.bytes? ++ l.acts.filterMap CommitAct.bytes?).foldl (layOver pa) bs

/-- Whether the body's own buffer holds every byte of an access. -/
def holdsAll (l : Lane) (pa len : Nat) : Bool :=
  (List.range len).all fun i => (l.acts.filterMap CommitAct.bytes?).any fun w => decide (w.1 ≤ pa + i) && decide (pa + i < w.1 + w.2.length)

/-- Whether a committed store of the core to these bytes still waits. -/
def Core.storePending (c : Core) (pa len : Nat) : Bool :=
  c.storeQ.any fun q => match q.bytes? with
    | some w => overlaps w.1 w.2.length pa len
    | none => false

/-- Stores of this module on a link that their peer has not acknowledged: what domain scope waits for. -/
def storesOut (s : State) : Bool := s.links.any fun p => p.2.held.any fun f => f.src == Config.moduleNumber.toNat && (match f.body with
  | .store _ _ => true
  | _ => false)

/-! ### The data cache (R216) -/

/-- A line the cache is read at.  What a line gives way to is not stated, so whether a line read before is still held
is a free choice, and so is the line that a full cache of 256 gives up (log entry 37). -/
def cacheFill (s : State) (cn line : Nat) : State :=
  let c := s.core cn
  let (n, s) := drawNat s
  let read := s.mem.reads (64 * line) 64
  match kfind c.dcache line with
  | some old => s.setCore cn { c with dcache := kput c.dcache line (if n % 2 = 1 then old else read) }
  | none =>
    let m := if c.dcache.length < 256 then c.dcache else c.dcache.eraseIdx (n % 256)
    s.setCore cn { c with dcache := kput m line read }

/-- Bytes of near or far memory read through the cache, line by line. -/
def cachedRead (cn : Nat) : Nat → State → Nat → Nat → List Byte × State
  | 0, s, _, _ => ([], s)
  | fuel + 1, s, a, len =>
    if len = 0 then ([], s)
    else
      let n := min len (64 - a % 64)
      let s := cacheFill s cn (a / 64)
      let here := ((kget (s.core cn).dcache (a / 64) []).drop (a % 64)).take n
      let (rest, s) := cachedRead cn fuel s (a + n) (len - n)
      (here ++ rest, s)

/-- A store of the core updates the lines it holds. -/
def Core.updateCache (c : Core) (a : Nat) (bs : List Byte) : Core :=
  { c with dcache := c.dcache.map fun p => (p.1, layOver (64 * p.1) p.2 (a, bs)) }

/-- The name a lane waits under for replies from other modules. -/
def laneWaiter (s : State) : Nat := 2 ^ 41 + s.actor.core * 8 + s.actor.lane

/-- The core names of a context's partition (R231): its granted cores, and the system cores for context 0. -/
def inPartition (s : State) (ctx c : Nat) : Bool :=
  if coreDie c = 4 then ctx == 0
  else ((s.ctx ctx).grants.toList.getD (coreDie c) {}).cores.getLsbD (coreNo c)

end Sys2Proof.Machine
end

