-- ==== Sys2Proof/Machine/PumpScalar.lean ====
section
/-! DEFINITION. The scalar, predicate, division and control instructions of a pump body: spec/07_scalar.md R112 to
R127 and spec/11_pump_memory_control.md R227, one definition each. -/

namespace Sys2Proof.Machine

/-- A scalar operation of two operands at a width, extended into gD (R97, R112). -/
def pump2 (h : Skip) (op : Nat) (w : PumpW) (n : Bool) (rd ra : Reg) (b : Nat) (f : Nat → Nat → Nat × Bool)
    (s : State) : Result :=
  let m := 2 ^ widthBits w
  pumpStep h op s (gives s rd (extendW n (widthBits w) (f (readG s ra % m) (b % m)).1))

/-- A scalar operation of one operand. -/
def pump1 (h : Skip) (op : Nat) (w : PumpW) (n : Bool) (rd : Reg) (a : Nat) (f : Nat → Nat) (s : State) : Result :=
  pumpStep h op s (gives s rd (extendW n (widthBits w) (f (a % 2 ^ widthBits w))))

/-! ### Arithmetic, logic, shifts, extremes (R116 to R118) -/

def execPumpAdd (h : Skip) (w : PumpW) (n : Bool) (rd ra : Reg) (pb : PSrc) (s : State) : Result :=
  pump2 h 0x00 w n rd ra (readB s pb) (Alu.add (widthBits w)) s

def execPumpSub (h : Skip) (w : PumpW) (n : Bool) (rd ra : Reg) (pb : PSrc) (s : State) : Result :=
  pump2 h 0x01 w n rd ra (readB s pb) (Alu.sub (widthBits w)) s

def execPumpMul (h : Skip) (w : PumpW) (n : Bool) (rd ra : Reg) (pb : PSrc) (s : State) : Result :=
  pump2 h 0x02 w n rd ra (readB s pb) (Alu.mul (widthBits w)) s

def execPumpMulh (h : Skip) (w : PumpW) (rd ra : Reg) (pb : PSrc) (s : State) : Result :=
  pump2 h 0x03 w false rd ra (readB s pb) (Alu.mulh (widthBits w)) s

def execPumpMulhn (h : Skip) (w : PumpW) (rd ra : Reg) (pb : PSrc) (s : State) : Result :=
  pump2 h 0x04 w true rd ra (readB s pb) (Alu.mulhn (widthBits w)) s

def execPumpAdds (h : Skip) (w : PumpW) (n : Bool) (rd ra : Reg) (pb : PSrc) (s : State) : Result :=
  pump2 h 0x05 w n rd ra (readB s pb) (Alu.adds n (widthBits w)) s

def execPumpSubs (h : Skip) (w : PumpW) (n : Bool) (rd ra : Reg) (pb : PSrc) (s : State) : Result :=
  pump2 h 0x06 w n rd ra (readB s pb) (Alu.subs n (widthBits w)) s

def execPumpAnd (h : Skip) (w : PumpW) (n : Bool) (rd ra : Reg) (pb : PSrc) (s : State) : Result :=
  pump2 h 0x07 w n rd ra (readB s pb) (Alu.andB (widthBits w)) s

def execPumpOr (h : Skip) (w : PumpW) (n : Bool) (rd ra : Reg) (pb : PSrc) (s : State) : Result :=
  pump2 h 0x08 w n rd ra (readB s pb) (Alu.orB (widthBits w)) s

def execPumpXor (h : Skip) (w : PumpW) (n : Bool) (rd ra : Reg) (pb : PSrc) (s : State) : Result :=
  pump2 h 0x09 w n rd ra (readB s pb) (Alu.xorB (widthBits w)) s

def execPumpAndn (h : Skip) (w : PumpW) (n : Bool) (rd ra : Reg) (pb : PSrc) (s : State) : Result :=
  pump2 h 0x0a w n rd ra (readB s pb) (Alu.andn (widthBits w)) s

def execPumpShl (h : Skip) (w : PumpW) (n : Bool) (rd ra : Reg) (pb : PSrc) (s : State) : Result :=
  pump2 h 0x0b w n rd ra (readB s pb) (Alu.shl (widthBits w)) s

def execPumpShr (h : Skip) (w : PumpW) (rd ra : Reg) (pb : PSrc) (s : State) : Result :=
  pump2 h 0x0c w true rd ra (readB s pb) (Alu.shr (widthBits w)) s

def execPumpSra (h : Skip) (w : PumpW) (rd ra : Reg) (pb : PSrc) (s : State) : Result :=
  pump2 h 0x0d w false rd ra (readB s pb) (Alu.sra (widthBits w)) s

def execPumpRot (h : Skip) (w : PumpW) (n : Bool) (rd ra : Reg) (pb : PSrc) (s : State) : Result :=
  pump2 h 0x0e w n rd ra (readB s pb) (Alu.rot (widthBits w)) s

def execPumpMin (h : Skip) (w : PumpW) (rd ra : Reg) (pb : PSrc) (s : State) : Result :=
  pump2 h 0x0f w false rd ra (readB s pb) (Alu.minS (widthBits w)) s

def execPumpMax (h : Skip) (w : PumpW) (rd ra : Reg) (pb : PSrc) (s : State) : Result :=
  pump2 h 0x10 w false rd ra (readB s pb) (Alu.maxS (widthBits w)) s

def execPumpMinn (h : Skip) (w : PumpW) (rd ra : Reg) (pb : PSrc) (s : State) : Result :=
  pump2 h 0x11 w true rd ra (readB s pb) (Alu.minN (widthBits w)) s

def execPumpMaxn (h : Skip) (w : PumpW) (rd ra : Reg) (pb : PSrc) (s : State) : Result :=
  pump2 h 0x12 w true rd ra (readB s pb) (Alu.maxN (widthBits w)) s

/-! ### Compare, select, bits, moves (R118 to R122) -/

def execPumpCmp (h : Skip) (rel : Rel) (w : PumpW) (n : Bool) (rd ra : Reg) (pb : PSrc) (s : State) : Result :=
  pump2 h 0x13 w n rd ra (readB s pb) (Alu.cmp rel n (widthBits w)) s

def execPumpTst (h : Skip) (none1 : Bool) (w : PumpW) (n : Bool) (rd ra : Reg) (pb : PSrc) (s : State) : Result :=
  pump2 h 0x14 w n rd ra (readB s pb) (Alu.tst none1 (widthBits w)) s

def execPumpSel (h : Skip) (w : PumpW) (n : Bool) (pd5i : Fin 32) (rd ra rb : Reg) (s : State) : Result :=
  pump2 h 0x15 w n rd ra (readG s rb) (Alu.sel (readP s pd5i)) s

def execPumpClz (h : Skip) (w : PumpW) (n : Bool) (rd ra : Reg) (s : State) : Result :=
  pump1 h 0x16 w n rd (readG s ra) (fun a => (Alu.clz (widthBits w) a).1) s

def execPumpPopc (h : Skip) (w : PumpW) (n : Bool) (rd ra : Reg) (s : State) : Result :=
  pump1 h 0x17 w n rd (readG s ra) (fun a => (Alu.popc (widthBits w) a).1) s

/-- BFX, which has no immediate form; its descriptor is read at the width of the operation (R97, R119, log entry 36). -/
def execPumpBfx (h : Skip) (w : PumpW) (n : Bool) (rd ra rb : Reg) (s : State) : Result :=
  pump2 h 0x18 w n rd ra (readG s rb) (Alu.bfx n (widthBits w)) s

/-- BFI, which has no immediate form and reads its destination (R119). -/
def execPumpBfi (h : Skip) (w : PumpW) (n : Bool) (rd ra rb : Reg) (s : State) : Result :=
  pump2 h 0x19 w n rd ra (readG s rb) (Alu.bfi (widthBits w) (readG s rd % 2 ^ widthBits w)) s

def execPumpMov (h : Skip) (w : PumpW) (n : Bool) (rd : Reg) (pm : PSrc) (s : State) : Result :=
  pump1 h 0x1A w n rd (readB s pm) id s

def execPumpPset (h : Skip) (w : PumpW) (pd5 : Fin 32) (pb : PSrc) (s : State) : Result :=
  pumpStep h 0x1B s (.done s { p := [(pd5.val, (readB s pb % 2 ^ widthBits w).testBit 0)] })

def execPumpPlog (h : Skip) (lop : LogicOp) (_w : PumpW) (pd5 pa5 pb5 : Fin 32) (s : State) : Result :=
  pumpStep h 0x1C s (.done s { p := [(pd5.val, Alu.logic lop (readP s pa5) (readP s pb5))] })

/-! ### Division (R127) and constants (R122) -/

def execDiv (h : Skip) (w : PumpW) (rd ra : Reg) (pb : PSrc) (s : State) : Result :=
  pump2 h 0x20 w false rd ra (readB s pb) (fun a b => (Alu.divS (widthBits w) a b, false)) s

def execDivn (h : Skip) (w : PumpW) (rd ra : Reg) (pb : PSrc) (s : State) : Result :=
  pump2 h 0x21 w true rd ra (readB s pb) (fun a b => (Alu.divN (widthBits w) a b, false)) s

def execRem (h : Skip) (w : PumpW) (n : Bool) (rd ra : Reg) (pb : PSrc) (s : State) : Result :=
  pump2 h 0x22 w n rd ra (readB s pb) (fun a b => (Alu.remS n (widthBits w) a b, false)) s

def execMovk (h : Skip) (rd : Reg) (v16 : BitVec 16) (fld : Fin 4) (s : State) : Result :=
  let d := readG s rd
  let lo := 16 * fld.val
  pumpStep h 0x23 s (gives s rd (d - bits d lo 16 * 2 ^ lo + v16.toNat * 2 ^ lo))

/-! ### SKIP and ABORT (R227) -/

def execSkip (h : Skip) (cnt24 : Nat) (s : State) : Result := pumpStep h 0x60 s (.done s { past := cnt24 })

def execAbort (h : Skip) (s : State) : Result := pumpStep h 0x61 s (.retry s)

end Sys2Proof.Machine
end

