-- ==== Sys2Proof/Machine/PumpRules.lean ====
section
/-! DEFINITION. Rule sets of a pump core: what a body may hold (R51, R98, R102, R103, R209, R217, R218, R227), loading
one (R248, R287), events and the selection of a round (R48 to R50, R105). -/

namespace Sys2Proof.Machine

/-! ### What an instruction reads and writes (R51, R102) -/

/-- Registers read and written, and the classes beyond them: 4 PR, 5 MW, 6 QP, 7 CN. -/
structure Uses where
  rg : List Nat := []
  wg : List Nat := []
  rc : List Nat := []
  wc : List Nat := []
  deriving DecidableEq, Repr

def regB (f : PumpFields) : List Nat := if f.imm then [] else [f.b]

/-- The register operands and the classes of an instruction by its opcode.  A Read or Local instruction reads its
class, a commit point reads and writes it, a Deferred or Reply instruction writes it, and reads it too where it
brings something back; a read that clears or takes what it reads writes it too (log entry 28). -/
def opUses (f : PumpFields) : Uses :=
  let v := f.fn % 4
  let op := f.op
  if op ≤ 0x14 ∨ op = 0x20 ∨ op = 0x21 ∨ op = 0x22 then { rg := f.a :: regB f, wg := [f.d] }
  else if op = 0x15 then { rg := [f.a, f.b], wg := [f.d], rc := [4] }
  else if op = 0x16 ∨ op = 0x17 then { rg := [f.a], wg := [f.d] }
  else if op = 0x18 then { rg := f.a :: regB f, wg := [f.d] }
  else if op = 0x19 then { rg := f.d :: f.a :: regB f, wg := [f.d] }
  else if op = 0x1A then { rg := if f.imm then [] else [f.a], wg := [f.d] }
  else if op = 0x1B then { rg := regB f, wc := [4] }
  else if op = 0x1C then { rc := [4], wc := [4] }
  else if op = 0x23 then { rg := [f.d], wg := [f.d] }
  else if op = 0x40 ∨ op = 0x42 then { rg := [f.a], wg := [f.d], rc := [5] }
  else if op = 0x41 ∨ op = 0x43 then { rg := [f.a, f.b], wc := [5] }
  else if op = 0x44 then { rg := [f.a], wg := [f.d], rc := [5], wc := [5] }
  else if op = 0x48 then { rg := [f.a, f.b, f.d], wg := [f.d], rc := [5], wc := [5] }
  else if op = 0x4F then
    if f.fn / 2 % 2 = 1 then { rg := [f.a], wg := [f.d], rc := [5], wc := [5] }
    else { rg := [f.a, f.b], rc := [5], wc := [5] }
  else if 0x48 < op ∧ op ≤ 0x50 then { rg := [f.a, f.b], wg := [f.d], rc := [5], wc := [5] }
  else if op = 0x51 then { rc := if v = 1 then [] else [5], wc := if v = 0 then [] else [5] }
  else if op = 0x62 then
    if v = 0 then { rg := [f.a, f.b], rc := [6], wc := [6] } else { wg := [f.d], rc := [6], wc := [6] }
  else if op = 0x63 ∨ op = 0x77 ∨ op = 0x78 then { rg := [f.a], wg := [f.d], rc := [6], wc := [6] }
  else if op = 0x70 then { rg := [f.a, f.b], rc := [6], wc := [6] }
  else if op = 0x71 ∨ op = 0x73 ∨ op = 0x90 then { rg := [f.a, f.b], wg := [f.d], rc := [6], wc := [6] }
  else if op = 0x72 then { rg := [f.a, f.b], wc := [6] }
  else if op = 0x74 ∨ op = 0x94 then { rg := [f.a], wg := [f.d], rc := [6] }
  else if op = 0x75 then { rg := [f.a, f.b], wg := [f.d], rc := [6] }
  else if op = 0x76 then
    if v = 0 then { rg := [f.a, f.b], wg := [f.d], rc := [6], wc := [6] }
    else if v = 1 then { rg := [f.a], wg := [f.d], rc := [6], wc := [6] } else { rg := [f.a], wg := [f.d], rc := [6] }
  else if op = 0x80 ∨ op = 0x89 ∨ op = 0xA3 then { rg := [f.a, f.b], wc := [7] }
  else if op = 0x81 then
    if v = 0 then { rg := [f.a], rc := [7], wc := [7] } else { wg := [f.d, f.d + 1], rc := [7], wc := [7] }
  else if op = 0x82 then { rg := [f.a, f.b], rc := [7], wc := [7] }
  else if op = 0x83 then
    if v = 0 then { rg := [f.a, f.b], rc := [7], wc := [7] } else { rg := [f.a, f.b], wg := [f.d], rc := [5, 7] }
  else if op = 0x84 then { rg := [f.a, f.b], wg := [f.d], rc := [7] }
  else if 0x85 ≤ op ∧ op ≤ 0x87 then { rg := [f.a], wc := [7] }
  else if op = 0x88 then { rg := if v = 0 then [f.a, f.b] else [f.a], rc := [7], wc := [7] }
  else if op = 0x91 then { rg := [f.a], wg := [f.d, f.d + 1, f.d + 2, f.d + 3], rc := [6] }
  else if op = 0x92 then { rg := [f.a, f.a + 1, f.a + 2, f.a + 3, f.b], wg := [f.a + 3], rc := [6], wc := [6] }
  else if op = 0x93 then { rg := [f.a, f.b, f.b + 1], wg := [f.d], rc := [6], wc := [6] }
  else if op = 0x95 ∨ op = 0xA0 then { rg := [f.a], wc := [6] }
  else if op = 0xA1 then if v = 0 then { rg := [f.a, f.b], wc := [6] } else { wg := [f.d], rc := [6], wc := [6] }
  else if op = 0xA2 then if v = 0 then { rg := [f.a, f.b], wc := [7] } else { rg := [f.a], wg := [f.d], rc := [7] }
  else if op = 0xA4 then { rg := [f.a], wc := [7] }
  else if op = 0xB0 then { rg := if v = 0 then [f.a] else [], rc := [5], wc := [5] }
  else if op = 0xB1 then { rg := if v = 2 then [f.a, f.b, f.b + 1] else [f.a, f.b], rc := [5], wc := [5] }
  else if op = 0xB2 then { rg := [f.a, f.b], rc := [5], wc := [5] }
  else if op = 0xC0 then { wg := [f.d], rc := [7], wc := if f.i24 = 2 ∨ f.i24 = 4 then [7] else [] }
  else if op = 0xC1 then { rg := [f.b], wc := [7] }
  else {}

/-- Whether the declared classes of a rule cover what an instruction uses. -/
def usesDeclared (f : PumpFields) (rd wr : Nat) : Bool :=
  let u := opUses f
  let rc := if f.h.pred.isSome then 4 :: u.rc else u.rc
  (u.rg.map (· / 16) ++ rc).all (fun k => rd.testBit k) && (u.wg.map (· / 16) ++ u.wc).all (fun k => wr.testBit k)

/-- The commit-point instructions (R218). -/
def isCommitPoint (f : PumpFields) : Bool :=
  f.op == 0x44 || (decide (0x48 ≤ f.op) && decide (f.op ≤ 0x50)) || (f.op == 0x51 && f.fn % 4 == 2)
    || f.op == 0x70 || f.op == 0x71 || f.op == 0x73 || f.op == 0x77 || f.op == 0x78 || f.op == 0x90 || f.op == 0xB0

/-- The instructions that count towards the sixteen entries of the rule store buffer (R217, R230). -/
def takesEntry (f : PumpFields) : Bool :=
  let v := f.fn % 4
  f.op == 0x41 || f.op == 0x43 || f.op == 0x72 || f.op == 0x75 || (f.op == 0x76 && v != 2) || f.op == 0x80
    || ((f.op == 0x81 || f.op == 0x83 || f.op == 0xA1 || f.op == 0xA2) && v == 0) || f.op == 0x82
    || (decide (0x85 ≤ f.op) && decide (f.op ≤ 0x89)) || f.op == 0x92 || f.op == 0x93 || f.op == 0x95 || f.op == 0xA0
    || f.op == 0xA3 || f.op == 0xB1 || f.op == 0xB2 || f.op == 0xC1

/-- A SKIP stays within the body (R227). -/
def skipOk (len k : Nat) (f : PumpFields) : Bool := f.op != 0x60 || decide (k + f.i24 < len)

/-- Whether every word of a body is legal as it stands (R105). -/
def bodyLegal (ws : List W64) : Bool :=
  ws.zipIdx.all fun p => match legalPump p.1 with
    | some f => skipOk ws.length p.2 f
    | none => false

/-- Whether the loader accepts a body (R51, R103, R209, R217, R218, R227). -/
def bodyAccepted (ws : List W64) (rd wr : Nat) : Bool :=
  let fs := ws.filterMap legalPump
  bodyLegal ws && fs.all (fun f => usesDeclared f rd wr)
    && (fs.dropLast).all (fun f => !isCommitPoint f)
    && decide (fs.countP takesEntry ≤ 16)
    && !(fs.any (fun f => f.op == 0x51 && f.fn % 4 == 1) && fs.any fun f => f.op == 0x44 || f.op == 0x50)

/-! ### A rule set section (R86) -/

/-- The words of a section after its core word. -/
def sectionWords : Nat → List Byte → List W64
  | 0, _ => []
  | n + 1, bs => BitVec.ofNat 64 (natOf (bs.take 8)) :: sectionWords n (bs.drop 8)

def rsRule (ws : List W64) (j : Nat) : W64 × W64 := (ws.getD (2 * j) 0, ws.getD (2 * j + 1) 0)
def rsMatrix (ws : List W64) (i j : Nat) : Bool := (ws.getD (128 + i) 0).getLsbD j
def rsBody (ws : List W64) : List W64 := ws.drop 192

def emptyRule (r : W64 × W64) : Bool := r.1 == 0 && r.2 == 0

/-- The bodies of two rules meet in a class one of them writes. -/
def rulesMeet (a b : W64) : Bool :=
  ruleWrites a &&& (ruleReads b ||| ruleWrites b) != 0 || ruleWrites b &&& (ruleReads a ||| ruleWrites a) != 0

/-- The checks of one entry (R98). -/
def entryOk (ws : List W64) (j : Nat) : Bool :=
  let r := rsRule ws j
  let body := rsBody ws
  emptyRule r ||
    (bits r.1.toNat 0 32 &&& bits r.1.toNat 32 32 == bits r.1.toNat 0 32
      && bits r.2.toNat 0 13 == 0 && decide (ruleStart r.2 + ruleLen r.2 ≤ body.length)
      && bodyAccepted ((body.drop (ruleStart r.2)).take (ruleLen r.2)) (ruleReads r.2) (ruleWrites r.2))

/-- The conflict matrix over the rules of the set (R51). -/
def matrixOk (ws : List W64) : Bool :=
  (List.range 64).all fun i => (List.range 64).all fun j => i == j ||
    (rsMatrix ws i j == rsMatrix ws j i && (rsMatrix ws i j || !rulesMeet (rsRule ws i).2 (rsRule ws j).2
      || emptyRule (rsRule ws i) || emptyRule (rsRule ws j)))

/-- Words of the body store that no rule covers are zero (R103). -/
def uncoveredZero (ws : List W64) : Bool :=
  (rsBody ws).zipIdx.all fun p => p.1 == 0 || (List.range 64).any fun j =>
    let r := rsRule ws j
    !emptyRule r && decide (ruleStart r.2 ≤ p.2) && decide (p.2 < ruleStart r.2 + ruleLen r.2)

/-- Whether a rule set section is accepted. -/
def ruleSetOk (ws : List W64) : Bool :=
  (List.range 64).all (entryOk ws) && matrixOk ws && uncoveredZero ws

/-- The core word's own limits (R86): BWORDS and the reserved bits. -/
def coreWordOk (w : Nat) : Bool :=
  bits w 7 9 == 0 && bits w 29 3 == 0 && decide (1 ≤ bits w 16 13) && decide (bits w 16 13 ≤ 4096)

/-- The length of a section in bytes. -/
def sectionLen (w : Nat) : Nat := 4 + 8 * (192 + bits w 16 13)

/-- The new set waits for the next round of its core (R248). -/
def loadRules (s : State) (c : Nat) (ws : List W64) : State := s.modCore c fun x => { x with newRules := some ws }

/-- A rule set put to work: class pointers 0, monitors disarmed, their events asserted (R222, R248). -/
def Core.takeRules (c : Core) (ws : List W64) : Core :=
  { c with
    rules := Vector.ofFn fun (j : Fin 64) => rsRule ws j.val
    matrix := Vector.ofFn fun (i : Fin 64) => ws.getD (128 + i.val) 0
    body := (rsBody ws).zipIdx.map fun p => (p.2, p.1)
    bodyLen := (rsBody ws).length
    cptr := Vector.replicate 4 0
    mons := Vector.replicate 8 none
    events := c.events ||| 0xFF00
    newRules := none }

/-! ### A round (R48 to R50) -/

/-- The words of a rule's body; none where it runs past the body store (R105). -/
def bodyOf (c : Core) (h1 : W64) : Option (List W64) :=
  if ruleStart h1 + ruleLen h1 ≤ c.bodyLen then
    some ((List.range (ruleLen h1)).map fun i => kget c.body (ruleStart h1 + i) 0)
  else none

/-- Whether a selected rule is legal as it stands (R105). -/
def ruleLegal (c : Core) (j : Nat) : Bool :=
  match bodyOf c (c.ruleAt j).2 with
  | some ws => bodyLegal ws
  | none => false

/-- The queue bound to a core. -/
def boundQueue (c : Core) : Option Nat := if c.bqueue.getLsbD 63 then some (bits c.bqueue.toNat 0 10) else none

/-- The hardware notice word's data: the bits held, and bit 5 while NOVF is not zero (R228). -/
def hwData (c : Core) : Nat := c.hw.toNat + (if c.novf = 0 then 0 else 32)

/-- The events as they stand: 0, 2, 3 and 6 follow their conditions; the condition of event 1 is not stated, and it
is a free value (log entry 29). -/
def eventsOf (s : State) (cn : Nat) (free : Nat) : Nat :=
  let c := s.core cn
  let e0 := match boundQueue c with
    | some q => decide ((s.queue q).head.toNat < (s.queue q).tail.toNat)
    | none => false
  let e2 := s.wells.any fun w => w.2.lcore == cn && w.2.state != .closed && !w.2.cands.isEmpty
  let e3 := !c.notes.isEmpty || hwData c != 0
  (c.events.toNat &&& 0xFFB0) + bit e0 + 2 * (free % 2) + 4 * bit e2 + 8 * bit e3 + 64 * bit c.fltrec.msb

/-- A rule's guard (R48). -/
def ruleEnabled (c : Core) (ev j : Nat) : Bool :=
  let r := c.ruleAt j
  let care := bits r.1.toNat 32 32
  !emptyRule r && (c.p.toNat &&& care == bits r.1.toNat 0 32 &&& care) && (ev &&& ruleEvents r.2 == ruleEvents r.2)

def conflicts (c : Core) (i j : Nat) : Bool := (c.matrix[i]?.getD 0).getLsbD j

/-- The rules of a class from its pointer upward. -/
def classOrder (c : Core) (k : Nat) : List Nat :=
  let p := (c.cptr[k]?.getD 0).toNat
  ((List.range 64).map fun i => (p + i) % 64).filter fun j => ruleClass (c.ruleAt j).2 == k

/-- The rules of a round, in selection order. -/
def selectRules (c : Core) (ev : Nat) : List Nat :=
  ((List.range 4).flatMap (classOrder c)).foldl (fun sel j =>
    if decide (sel.length < 4) && ruleEnabled c ev j && sel.all (fun i => !conflicts c i j) then sel ++ [j] else sel) []

/-- The end of a round: each class pointer advances, and the round counts (R50, R257). -/
def Core.endRound (c : Core) : Core :=
  { c with lanes := [], cptr := c.cptr.map (· + 1), rndcnt := c.rndcnt + 1 }

/-- A core selects rules unless it is granted to no context or stopped with one (R263). -/
def coreRuns (s : State) (cn : Nat) : Bool :=
  coreDie cn == 4 || ((s.core cn).ctx.isSome && !(s.core cn).stopped)

/-- The start of a round: a waiting rule set comes in, events are sampled once, rules are selected. -/
def beginPumpRound (s : State) (cn : Nat) : State :=
  let s := s.modCore cn fun c => match c.newRules with
    | some ws => c.takeRules ws
    | none => c
  let s := { s with remotes := s.remotes.filter fun r => r.waiter / 8 != (2 ^ 41 + cn * 8) / 8 }
  let (n, s) := drawNat s
  let c := s.core cn
  match selectRules c (eventsOf s cn n) with
  | [] => s.setCore cn c.endRound
  | sel => s.setCore cn { c with lanes := sel.map fun j => { rule := j } }

end Sys2Proof.Machine
end

