-- ==== Sys2Proof/Machine/ConfigNet.lean ====
section
/-! DEFINITION. The configuration space of a tile (spec/06_encoding.md R106 to R110): what each address holds, how it
is read and written, and the routes of R84 and R245. -/

namespace Sys2Proof.Machine

/-! ### Addresses (R106 to R108) -/

/-- What a configuration address names: a slot, a binding, an element's or the tile's state word. -/
inductive CfgPlace where
  | slot (e i : Nat)
  | bind (e c : Nat)
  | elemState (e o : Nat)
  | tileState (o : Nat)
  | reserved
  deriving DecidableEq, Repr

def cfgPlace (a : Nat) : CfgPlace :=
  if a < 0x400 then .slot (a / 64) (a % 64)
  else if a < 0x600 then .bind ((a - 0x400) / 32) (a % 32)
  else if a < 0x800 then .reserved
  else if a < 0x1000 then (if a % 128 < 0x5D then .elemState ((a - 0x800) / 128) (a % 128) else .reserved)
  else if a < 0x1012 ∨ (0x1018 ≤ a ∧ a < 0x1028) then .tileState (a - 0x1000)
  else .reserved

/-- The words that images do not write (R107). -/
def CfgPlace.notWritten : CfgPlace → Bool
  | .elemState _ o => o == 0x59 || o == 0x5A
  | _ => false

/-! ### Reading -/

def ringWord (r : Ring) : Nat :=
  bit r.v * 2 ^ 63 + r.free.toNat * 2 ^ 48 + r.filled.toNat * 2 ^ 32 + r.ssize.toNat * 2 ^ 26 + r.slots.toNat * 2 ^ 13
    + r.base.toNat

/-- A state word of an element (R107). -/
def elemWord (y : Elem) (o : Nat) : Nat :=
  let c := y.core
  if o < 0x10 then (c.x.toList.getD o 0).toNat
  else if o < 0x30 then bits (c.v.toList.getD ((o - 0x10) / 4) 0).toNat (64 * (o % 4)) 64
  else if o < 0x50 then bits (c.a.toList.getD ((o - 0x30) / 8) 0).toNat (64 * (o % 8)) 64
  else if o < 0x58 then (c.sc.toList.getD (o - 0x50) 0).toNat
  else if o = 0x58 then c.p.toNat
  else if o = 0x59 then c.econv.toNat
  else if o = 0x5A then y.efault.word
  else if o = 0x5B then y.plane.toNat
  else y.owner.toNat

/-- A state word of a tile (R108). -/
def tileWord (x : Tile) (o : Nat) : Nat :=
  let c := x.core
  if o < 0x10 then (c.w.toList.getD o 0).toNat
  else if o = 0x10 then c.q.toNat
  else if o = 0x11 then c.aptr.toNat * 256 + x.spine.toNat
  else if o < 0x20 then ringWord (c.rings.toList.getD (o - 0x18) {})
  else (c.rings.toList.getD (o - 0x20) {}).put.toNat

/-- The word at a configuration address. -/
def Tile.cfgRead (x : Tile) (a : Nat) : Nat :=
  match cfgPlace a with
  | .slot e i => (kget (x.elem e).slots i 0).toNat
  | .bind e c => (kget (x.elem e).binds c 0).toNat
  | .elemState e o => elemWord (x.elem e) o
  | .tileState o => tileWord x o
  | .reserved => 0

/-! ### Writing -/

/-- A 64-bit slice of a wider value replaced. -/
def putSlice (x lo v : Nat) : Nat := x - bits x lo 64 * 2 ^ lo + v % 2 ^ 64 * 2 ^ lo

def kword (m : KMap W64) (k v : Nat) : KMap W64 := if v % 2 ^ 64 = 0 then kdel m k else kput m k (BitVec.ofNat 64 v)

/-- A state word of an element written.  ECONV and EFAULT are not written here. -/
def putElemWord (y : Elem) (o v : Nat) : Elem :=
  let c := y.core
  if o < 0x10 then { y with core := { c with x := c.x.set (fin 16 o) (BitVec.ofNat 32 v) } }
  else if o < 0x30 then
    let n := fin 8 ((o - 0x10) / 4)
    { y with core := { c with v := c.v.set n (BitVec.ofNat 256 (putSlice (c.v[n]).toNat (64 * (o % 4)) v)) } }
  else if o < 0x50 then
    let n := fin 4 ((o - 0x30) / 8)
    { y with core := { c with a := c.a.set n (BitVec.ofNat 512 (putSlice (c.a[n]).toNat (64 * (o % 8)) v)) } }
  else if o < 0x58 then { y with core := { c with sc := c.sc.set (fin 8 o) (BitVec.ofNat 32 (v % 2 ^ 16)) } }
  else if o = 0x58 then { y with core := { c with p := BitVec.ofNat 8 v } }
  else if o = 0x5B then { y with plane := BitVec.ofNat 2 v }
  else if o = 0x5C then { y with owner := BitVec.ofNat 64 v }
  else y

/-- A ring descriptor's own fields. -/
def ringOfWord (v : Nat) : Ring :=
  { v := bits v 63 1 == 1, ssize := BitVec.ofNat 3 (bits v 26 3), slots := BitVec.ofNat 13 (bits v 13 13)
    base := BitVec.ofNat 13 (bits v 0 13), free := BitVec.ofNat 13 (bits v 13 13), filled := 0, put := 0 }

/-- A ring descriptor written: a state image restores FREE and FILLED; else a descriptor that changes loads its ring
anew, and one that is written as it stands keeps its counters (R110, log entry 30). -/
def setRingWord (old : Ring) (restore : Bool) (v : Nat) : Ring :=
  let r := ringOfWord v
  if restore then { r with free := BitVec.ofNat 13 (bits v 48 13), filled := BitVec.ofNat 13 (bits v 32 13), put := old.put }
  else if old.v == r.v && old.ssize == r.ssize && old.slots == r.slots && old.base == r.base then old else r

/-- A state word of a tile written.  APTR and the position words are read-only but for a state image (R108, R110). -/
def putTileWord (x : Tile) (restore : Bool) (o v : Nat) : Tile :=
  let c := x.core
  if o < 0x10 then { x with core := { c with w := c.w.set (fin 16 o) (BitVec.ofNat 32 v) } }
  else if o = 0x10 then { x with core := { c with q := BitVec.ofNat 16 v } }
  else if o = 0x11 then
    let x := { x with spine := BitVec.ofNat 3 v }
    if restore then { x with core := { c with aptr := BitVec.ofNat 4 (v / 256) } } else x
  else if o < 0x20 then
    let n := fin 8 (o - 0x18)
    { x with core := { c with rings := c.rings.set n (setRingWord c.rings[n] restore v) } }
  else if restore then
    let n := fin 8 o
    { x with core := { c with rings := c.rings.set n { c.rings[n] with put := BitVec.ofNat 13 v } } }
  else x

/-- A word written at a configuration address; `fresh` is an element that is not listed yet. -/
def Tile.cfgWrite (x : Tile) (fresh : Elem) (restore : Bool) (a v : Nat) : Tile :=
  let set (e : Nat) (f : Elem → Elem) : Tile := x.setElem e (f (kget x.elems e fresh))
  match cfgPlace a with
  | .slot e i => set e fun y => { y with slots := kword y.slots i v }
  | .bind e c => set e fun y => { y with binds := kword y.binds c v }
  | .elemState e o => set e fun y => putElemWord y o v
  | .tileState o => putTileWord x restore o v
  | .reserved => x

/-- An element that enters a live region stands where its neighbours do. -/
def freshElem (s : State) (t : Nat) : Elem :=
  match regionAt s t with
  | none => {}
  | some r => { stroke := r.stroke + bit r.strokeMark, plane := r.plane, frozen := r.frozen, drained := r.drain.isSome }

/-- A word written over the configuration network (R243): ECONV and EFAULT as write-1-to-clear. -/
def cfgPut (s : State) (t a v : Nat) : State :=
  match cfgPlace a with
  | .elemState e 0x59 => s.modElem t e fun y =>
      let f (c : ElemCore) : ElemCore := { c with econv := c.econv &&& ~~~(BitVec.ofNat 4 v) }
      { y with core := f y.core, snap := f y.snap, snapNext := y.snapNext.map f }
  | .elemState e 0x5A => s.modElem t e (clearEFault (BitVec.ofNat 32 v))
  | _ => s.modTile t fun x => { x.cfgWrite (freshElem s t) false a v with badEcc := x.badEcc.filter (· != a) }

/-! ### Routes (R84, R245) -/

/-- The sites a path steps onto: along the row and then along the column, or the other way. -/
def pathSites (t : Nat) (dx dy : Int) (yx : Bool) : List (Int × Int) :=
  let c := (colOf t : Int)
  let r := (rowOf t : Int)
  let sx := if dx < 0 then (-1 : Int) else 1
  let sy := if dy < 0 then (-1 : Int) else 1
  let along (y : Int) : List (Int × Int) := (List.range dx.natAbs).map fun (i : Nat) => (c + sx * (i + 1), y)
  let down (x : Int) : List (Int × Int) := (List.range dy.natAbs).map fun (i : Nat) => (x, r + sy * (i + 1))
  if yx then down c ++ along (r + dy) else along r ++ down (c + dx)

/-- A site of a die by signed coordinates. -/
def siteAt (die : Nat) (p : Int × Int) : Option Nat :=
  if 0 ≤ p.1 ∧ p.1 < 24 ∧ 0 ≤ p.2 ∧ p.2 < 16 then some (siteKey die p.1.toNat p.2.toNat) else none

def pathClear (s : State) (t : Nat) (dx dy : Int) (yx : Bool) : Bool :=
  present s t && (pathSites t dx dy yx).all fun p => match siteAt (dieOf t) p with
    | some u => present s u
    | none => false

/-- The limits of DX and DY (R109). -/
def hopsOk (dx dy : Int) : Bool := decide (-23 ≤ dx) && decide (dx ≤ 23) && decide (-15 ≤ dy) && decide (dy ≤ 15)

/-- The turn order a route takes: the preferred one, else the other; none where both cross an absent site. -/
def routeTurn (s : State) (t : Nat) (dx dy : Int) (yx : Bool) : Option Bool :=
  if !hopsOk dx dy then none
  else if pathClear s t dx dy yx then some yx
  else if pathClear s t dx dy (!yx) then some (!yx)
  else none

/-- DX, DY and TURN in their places of a binding (R109). -/
def routeField (dx dy : Int) (yx : Bool) : Nat :=
  (dx % 64).toNat * 2 ^ 26 + (dy % 32).toNat * 2 ^ 21 + bit yx * 2 ^ 20

end Sys2Proof.Machine
end

