-- ==== Sys2Proof/Machine/CfgImage.lean ====
section
/-! DEFINITION. A configuration image as bytes (spec/05_syntax.md R82 to R87) and the loader's checks that read it
(spec/16_kernel.md R282, steps 1 to 4). -/

namespace Sys2Proof.Machine

/-- Why an image is refused (R282): step, code, and the tile section and word where they apply. -/
structure Refuse where
  step : Nat
  code : Nat
  sec  : Option Nat := none
  word : Option Nat := none
  deriving DecidableEq, Repr

abbrev Checked (α : Type) := Except Refuse α

def refuseIf (b : Bool) (r : Refuse) : Checked Unit := if b then .error r else .ok ()

/-- Every item of a list checked, in order. -/
def checkAll {α : Type} (f : α → Checked Unit) : List α → Checked Unit
  | [] => .ok ()
  | a :: l => match f a with
    | .error r => .error r
    | .ok () => checkAll f l

/-! ### Header and tables (R82 to R85) -/

structure Header where
  magic   : Nat
  version : Nat
  planes  : Nat
  level   : Nat
  width   : Nat
  height  : Nat
  ntiles  : Nat
  flags   : Nat
  /-- tile table, relocation, ranges, alias, exact, loops, rule sets, data -/
  offs    : List Nat
  sig     : Nat
  stroke  : Nat
  zeros   : Nat
  deriving DecidableEq, Repr

def headerOf (b : List Byte) : Header where
  magic := field b 0 4
  version := field b 4 2
  planes := field b 6 1
  level := field b 7 1
  width := field b 8 1
  height := field b 9 1
  ntiles := field b 0x0A 2
  flags := field b 0x0C 4
  offs := (List.range 8).map fun k => field b (0x10 + 4 * k) 4
  sig := field b 0x30 4
  stroke := field b 0x34 4
  zeros := field b 0x38 8

def Header.off (h : Header) (k : Nat) : Nat := h.offs.getD k 0
def Header.state (h : Header) : Bool := h.flags.testBit 1

/-- A tile section: its tile, its words and where they lie, its CRC, the entry's reserved word. -/
structure Section where
  tx    : Nat
  ty    : Nat
  words : Nat
  off   : Nat
  crc   : Nat
  zero  : Nat
  deriving DecidableEq, Repr

def sectionOf (b : List Byte) : Section :=
  ⟨field b 0 1, field b 1 1, field b 2 2, field b 4 4, field b 8 4, field b 12 4⟩

def sectionsOf (h : Header) (b : List Byte) : List Section :=
  if h.off 0 = 0 then []
  else (List.range h.ntiles).map fun i => sectionOf ((b.drop (h.off 0 + 16 * i)).take 16)

/-- Where a table ends: at the next table, at SIG, or where the tile sections start, which R82 gives no place of their
own (log entry 31). -/
def tableEnd (h : Header) (secs : List Section) (k : Nat) : Nat :=
  let o := h.off k
  ((h.offs.drop (k + 1)).filter (· != 0) ++ (secs.map Section.off).filter fun x => decide (o ≤ x)).foldl min h.sig

def tableLen (h : Header) (secs : List Section) (k : Nat) : Nat :=
  if h.off k = 0 then 0 else tableEnd h secs k - h.off k

def tableBytes (h : Header) (secs : List Section) (b : List Byte) (k : Nat) : List Byte :=
  (b.drop (h.off k)).take (tableLen h secs k)

def ascending : List Nat → Bool
  | a :: b :: l => decide (a < b) && ascending (b :: l)
  | _ => true

/-- Bytes cut into entries of n bytes. -/
def entriesOf (n : Nat) : Nat → List Byte → List (List Byte)
  | 0, _ => []
  | k + 1, b => if b.isEmpty then [] else b.take n :: entriesOf n k (b.drop n)

def entryList (n : Nat) (b : List Byte) : List (List Byte) := entriesOf n (b.length / n) b

/-- The rule set sections of their table: offset within it and bytes; none where it does not end with one. -/
def ruleSections : Nat → List Byte → Option (List (List Byte))
  | 0, b => if b.isEmpty then some [] else none
  | fuel + 1, b =>
    if b.isEmpty then some []
    else
      let n := sectionLen (field b 0 4)
      if b.length < n then none else (ruleSections fuel (b.drop n)).map (b.take n :: ·)

structure Reloc where
  sec  : Nat
  word : Nat
  dx   : Int
  dy   : Int
  turn : Nat
  zero : Nat
  /-- dx and dy as they stand, where they name a tile (R289) -/
  tx   : Nat
  ty   : Nat
  deriving DecidableEq, Repr

def relocOf (b : List Byte) : Reloc :=
  ⟨field b 0 2, field b 2 2, signedOf 8 (field b 4 1), signedOf 8 (field b 5 1), field b 6 1, field b 7 1,
    field b 4 1, field b 5 1⟩

structure RangeEntry where
  base   : Nat
  size   : Nat
  sec    : Nat
  elem   : Nat
  plane  : Nat
  access : Nat
  slot   : Nat
  alias_ : Nat
  zero   : Nat
  deriving DecidableEq, Repr

def rangeOf (b : List Byte) : RangeEntry :=
  ⟨field b 0 8, field b 8 8, field b 16 2, field b 18 1, field b 19 1, field b 20 1, field b 21 1, field b 22 1, field b 23 1⟩

/-- A loop: header, depth, and the continue channel by section, element and channel number of R106 (log entry 32). -/
structure LoopEntry where
  sec   : Nat
  elem  : Nat
  depth : Nat
  csec  : Nat
  celem : Nat
  cchan : Nat
  deriving DecidableEq, Repr

def loopOf (b : List Byte) : LoopEntry := ⟨field b 0 2, field b 2 1, field b 3 1, field b 4 2, field b 6 1, field b 7 1⟩

/-- An image taken apart. -/
structure Image where
  h      : Header
  body   : List Byte
  secs   : List Section
  relocs : List Reloc
  ranges : List RangeEntry
  exact  : List (Nat × Nat × Nat)
  loops  : List LoopEntry
  rules  : List (List Byte)
  data   : List Byte
  deriving DecidableEq, Repr

def imageOf (b : List Byte) : Image :=
  let h := headerOf b
  let body := b.take h.sig
  let secs := sectionsOf h body
  let t := tableBytes h secs body
  { h := h, body := body, secs := secs
    relocs := (entryList 8 (t 1)).map relocOf
    ranges := (entryList 24 (t 2)).map rangeOf
    exact := (entryList 4 (t 4)).map fun e => (field e 0 2, field e 2 1, field e 3 1)
    loops := (entryList 8 (t 5)).map loopOf
    rules := (ruleSections (t 6).length (t 6)).getD []
    data := t 7 }

/-- Step 1: the header (R82). -/
def checkHeader (m : Image) (width height level : Nat) : Checked Unit :=
  let h := m.h
  let len (k : Nat) := tableLen h m.secs k
  let nz := h.offs.filter (· != 0)
  refuseIf (!(h.magic == 0x4E524C46 && decide (1 ≤ h.planes) && decide (h.planes ≤ 4) && decide (h.level ≤ 2)
      && decide (level ≤ h.level) && h.width == width && h.height == height && decide (h.ntiles ≤ h.width * h.height)
      && h.flags / 4 == 0 && h.zeros == 0 && decide (h.stroke ≤ 65536) && decide (64 ≤ h.sig) && ascending nz
      && nz.all (fun o => decide (64 ≤ o) && decide (o ≤ h.sig)) && len 0 == 16 * h.ntiles && len 1 % 8 == 0
      && len 2 % 24 == 0 && len 3 % 4 == 0 && len 4 % 4 == 0 && len 5 % 8 == 0
      && (ruleSections (len 6) (tableBytes h m.secs m.body 6)).isSome)) ⟨1, 0x0A, none, none⟩

/-! ### Sections and their runs (R83, R106) -/

/-- A data word of a section: its index within it, its address, its value. -/
structure CfgWord where
  idx  : Nat
  addr : Nat
  val  : Nat
  deriving DecidableEq, Repr

/-- The runs of a section from a word index on; the failing word where they break R106. -/
def runsFrom : Nat → Nat → List Nat → Except Nat (List CfgWord)
  | 0, i, ws => if ws.isEmpty then .ok [] else .error i
  | _ + 1, _, [] => .ok []
  | fuel + 1, i, hd :: ws =>
    let count := bits hd 32 16
    let a := bits hd 0 16
    if bits hd 60 4 ≠ 0xA ∨ bits hd 48 12 ≠ 0 ∨ bits hd 16 16 ≠ 0 ∨ count = 0 ∨ 4352 < count ∨ ws.length < count
        ∨ 0x1100 < a + count then .error i
    else
      let here := (ws.take count).zipIdx.map fun p => (⟨i + 1 + p.2, a + p.2, p.1⟩ : CfgWord)
      if here.any fun w => cfgPlace w.addr == .reserved || (cfgPlace w.addr).notWritten then .error i
      else (runsFrom fuel (i + 1 + count) (ws.drop count)).map (here ++ ·)

def Section.bytes (x : Section) (body : List Byte) : List Byte := (body.drop x.off).take (8 * x.words)

def Section.runs (x : Section) (body : List Byte) : Except Nat (List CfgWord) :=
  runsFrom x.words 0 ((sectionWords x.words (x.bytes body)).map BitVec.toNat)

/-- The words of a section, for a section that has passed step 3. -/
def Section.wordsOf (x : Section) (body : List Byte) : List CfgWord := (x.runs body).toOption.getD []

def noRepeat : List Nat → Bool
  | [] => true
  | a :: l => !l.contains a && noRepeat l

/-- Step 3 (R83, R106; what R83 gives no code for: log entry 107). -/
def checkSection (m : Image) (p : Section × Nat) : Checked Unit :=
  let x := p.1
  let bad (code : Nat) (w : Option Nat) : Checked Unit := .error ⟨3, code, some p.2, w⟩
  if x.zero ≠ 0 ∨ x.off < 64 ∨ m.h.sig < x.off + 8 * x.words
      ∨ (m.secs.countP fun y => y.tx == x.tx && y.ty == x.ty) ≠ 1 then bad 0x0A none
  else if crc32c (x.bytes m.body) ≠ x.crc then bad 0x08 none
  else match x.runs m.body with
    | .error i => bad 0x0A (some i)
    | .ok ws => if noRepeat (ws.map CfgWord.addr) then .ok () else bad 0x0A none

/-- Step 2 (R87, R290): the first installed key slot that verifies accepts; a state image has a zero signature and
is taken from IMGOUT.back or context 0 alone. -/
def checkSignature (s : State) (m : Image) (sig : List Byte) (trusted : Bool) : Checked Unit :=
  let ok := if m.h.state then trusted && sig.all (· == 0) else s.keys.any fun k => rsaVerify k.2 m.body sig
  refuseIf (!ok) ⟨2, 0x11, none, none⟩

/-! ### The image over its region -/

/-- A slot of the image: section and word, tile, element, slot number with its plane, instruction. -/
structure SlotRef where
  sec  : Nat
  word : Nat
  tile : Nat
  elem : Nat
  slot : Nat
  i    : Instr
  deriving DecidableEq, Repr

def SlotRef.plane (x : SlotRef) : Nat := x.slot / 16

/-- The tile of a section. -/
def tileOfSection (r : Region) (x : Section) : Nat := siteKey r.die (r.col + x.tx) (r.row + x.ty)

/-- The relocation entries that name a word of a section, in table order. -/
def relocsAt (m : Image) (sec word : Nat) : List Reloc := m.relocs.filter fun q => q.sec == sec && q.word == word

/-- A binding word with the route of its first relocation entry: the turn that is clear, or the one it names. -/
def relocate (s : State) (m : Image) (t sec : Nat) (w : CfgWord) : CfgWord :=
  match (relocsAt m sec w.idx).head? with
  | none => w
  | some q =>
    let yx := (routeTurn s t q.dx q.dy (q.turn == 1)).getD (q.turn == 1)
    { w with val := w.val - bits w.val 20 12 * 2 ^ 20 + routeField q.dx q.dy yx }

/-- The tile that a section makes. -/
def makeTile (s : State) (m : Image) (r : Region) (p : Section × Nat) : Nat × Tile :=
  let t := tileOfSection r p.1
  let ws := (p.1.wordsOf m.body).map (relocate s m t p.2)
  let old := s.tile t
  let blank : Tile := { balance := old.balance, rounds := old.rounds, cistern := old.cistern, echg := old.echg }
  (t, ws.foldl (fun x w => x.cfgWrite {} m.h.state w.addr w.val) blank)

/-- Multicast targets by the further relocation entries of an output word (R285, log entry 33). -/
def multiOf (m : Image) (r : Region) : List ((Nat × Nat × Nat) × (Nat × Nat × Nat)) :=
  m.secs.zipIdx.flatMap fun p => (p.1.wordsOf m.body).flatMap fun w =>
    match cfgPlace w.addr with
    | .bind e c =>
      if c < 16 then []
      else ((relocsAt m p.2 w.idx).drop 1).filterMap fun q =>
        let t := tileOfSection r p.1
        (siteAt r.die ((colOf t : Int) + q.dx, (rowOf t : Int) + q.dy)).map fun u =>
          ((t, e, c - 16), (u, bindTen w.val, bindTch w.val))
    | _ => []

/-- The edge tile at which an engine's outward port meets the array, where the spec names one (R8; log entry 100). -/
def inboundStart (s : State) (die src : Nat) : Option Nat :=
  let n := src % 256
  match bits src 8 3 with
  | 2 => (islandTiles die (n % 16))[n / 16 % 8 / 4]?
  | 3 =>
    if n < 16 then (islandTiles die n).head?
    else if n < 24 then ((List.range 3).map fun i => siteKey die (3 * (n - 16) + i) 0).find? (present s)
    else none
  | _ => none

/-- The turn order an inbound route takes: the entry's, else the other; none where both cross an absent site (R84,
R289). -/
def inboundTurn (s : State) (r : Region) (q : Reloc) : Option Nat :=
  let t := siteKey r.die (r.col + q.tx) (r.row + q.ty)
  match inboundStart s r.die (bits q.sec 0 11) with
  | none => some q.turn
  | some u => (routeTurn s u ((colOf t : Int) - colOf u) ((rowOf t : Int) - rowOf u) (q.turn == 1)).map bit

/-- The inbound ports (R289, R296). -/
def inboundOf (s : State) (m : Image) (r : Region) : List Inbound :=
  (m.relocs.filter fun q => q.sec.testBit 15 && bits q.sec 8 3 != 4).map fun q =>
    ⟨bits q.sec 0 11, siteKey r.die (r.col + q.tx) (r.row + q.ty), (q.word - 0x400) / 32, q.word % 32,
      (inboundTurn s r q).getD q.turn⟩

/-- The state with the image laid over its region: what steps 4 to 7 look at, and what step 8 writes. -/
def laidOver (s : State) (key : Nat) (r : Region) (m : Image) : State :=
  let s' := m.secs.zipIdx.foldl (fun acc p =>
    let q := makeTile s m r p
    acc.setTile q.1 q.2) s
  s'.setRegion key { r with multi := multiOf m r, inbound := inboundOf s m r }

/-- The slots of the image. -/
def slotsOf (m : Image) (r : Region) : List SlotRef :=
  m.secs.zipIdx.flatMap fun p => (p.1.wordsOf m.body).filterMap fun w =>
    match cfgPlace w.addr with
    | .slot e i => match decodeElem (BitVec.ofNat 64 w.val) with
      | .ok ins => some ⟨p.2, w.idx, tileOfSection r p.1, e, i, ins⟩
      | .error _ => none
    | _ => none

/-! ### Step 4: slots, bindings, descriptors (R90, R92, R103, R109, R110) -/

def fmtAllowed (plane fmt : Nat) : Bool :=
  if plane = 0 then (Fmt.ofCode fmt).isSome
  else if plane = 1 then fmt == Fmt.fp32.code || fmt == Fmt.int32.code else fmt == 0

/-- A binding's own fields. -/
def bindOk (b c : Nat) : Bool :=
  b == 0 || (bits b 32 17 == 0 && bindPlane b != 3 && fmtAllowed (bindPlane b) (bindFmt b)
    && (if c < 16 then bits b 0 32 == 0 else (bindExt b || bindExtid b == 0) && hopsOk (bindDx b) (bindDy b)))

/-- Every target of an output inside the region, those of a multicast among them, is bound to the same plane (R109,
R285; log entry 112). -/
def targetOk (s : State) (r : Region) (t e c : Nat) : Bool :=
  (targets s t e c).all fun g => match g with
    | .chan u f k => r.hasTile u && bindV ((s.elem u f).inBind k)
        && bindPlane ((s.elem u f).inBind k) == bindPlane ((s.elem t e).outBind c)
    | _ => true

def ringBytes (r : Ring) : Nat := r.slots.toNat * r.slotBytes

def ringOk (x : Tile) (n w : Nat) : Bool :=
  let r := ringOfWord w
  let lo := r.base.toNat * 32
  bits w 61 2 == 0 && bits w 45 3 == 0 && bits w 29 3 == 0 &&
    (!r.v || (decide (r.ssize.toNat < 6) && decide (1 ≤ r.slots.toNat) && decide (lo + ringBytes r ≤ 2 ^ 18)
      && (List.range 8).all fun k => k == n ||
        (let q := x.core.rings.toList.getD k {}
         !q.v || !overlaps lo (ringBytes r) (q.base.toNat * 32) (ringBytes q))))

def ownerOk (w : Nat) : Bool :=
  let unit := if bits w 56 4 = 7 then 32 else 4
  bits w 60 3 == 0 && bits w 39 17 == 0 && bits w 18 2 == 0 &&
    (bits w 63 1 == 0 || (decide (bits w 56 4 < 8) && bits w 20 18 % unit == 0 && bits w 0 18 % unit == 0
      && decide (bits w 0 18 + bits w 20 18 ≤ 2 ^ 18)))

/-- A legal slot where it stands; PLANE names a plane of the image (R131). -/
def slotWordOk (s : State) (planes t e i w : Nat) : Bool :=
  if !w.testBit 63 then w == 0
  else match decodeElem (BitVec.ofNat 64 w) with
    | .error _ => false
    | .ok ins => decide (i / 16 < planes) && slotLegal s t e ins && (match ins with
      | .plane _ k => decide (k.val < planes)
      | _ => true)

/-- One word of a section in step 4; `s` is the state with the image laid over. -/
def checkWord (s : State) (m : Image) (r : Region) (sec t : Nat) (w : CfgWord) : Checked Unit :=
  let x := s.tile t
  let ok := match cfgPlace w.addr with
    | .slot e i => slotWordOk s m.h.planes t e i w.val
    | .bind e c => bindOk w.val c && (c < 16 || !bindV w.val || targetOk s r t e (c - 16))
    | .elemState _ 0x5C => ownerOk w.val
    | .tileState o =>
      if 0x18 ≤ o ∧ o < 0x20 then ringOk x (o - 0x18) w.val
      else if 0x20 ≤ o then m.h.state || w.val / 2 ^ 13 == 0
      else if o = 0x11 then bits w.val 12 52 == 0 && bits w.val 3 5 == 0 else true
    | _ => true
  refuseIf (!ok) ⟨4, 0x0A, some sec, some w.idx⟩

/-- A rule set section in step 4 (R86; log entry 110). -/
def checkRuleSet (b : List Byte) : Checked Unit :=
  let w := field b 0 4
  refuseIf (!(coreWordOk w && bits w 0 3 != 5 && bits w 0 3 != 6
    && ruleSetOk (sectionWords (192 + bits w 16 13) (b.drop 4)))) ⟨4, 0x10, none, none⟩

def checkStep4 (s : State) (m : Image) (r : Region) : Checked Unit :=
  match checkAll (fun (p : Section × Nat) =>
      checkAll (checkWord s m r p.2 (tileOfSection r p.1)) (p.1.wordsOf m.body)) m.secs.zipIdx with
  | .error e => .error e
  | .ok () => checkAll checkRuleSet m.rules

end Sys2Proof.Machine
end

