-- ==== Sys2Proof/Machine/LoadCheck.lean ====
section
/-! DEFINITION. Steps 5 to 7 of the loader (spec/16_kernel.md R282 to R289, R300; spec/19_barrier.md R302): placement,
declarations and levels.  In every definition `s` is the state with the image laid over its region. -/

namespace Sys2Proof.Machine

/-! ### Step 5: placement (R18, R84, R287 to R289) -/

/-- A row port is bound only from its island's own edge tile, in element row c (R288). -/
def rowPortOk (die n c t e : Nat) : Bool := t == (islandTiles die n).getD (c / 4) 0 && e / 4 == c % 4

/-- The engine or boundary port of an output binding (R288). -/
def extOk (s : State) (t e b : Nat) : Bool :=
  let x := bindExtid b
  match bits x 8 3 with
  | 0 => engineUsable s (dieOf t) (x % 256)
  | 1 => bits x 7 1 == 0 && engineUsable s (dieOf t) (x % 16) && rowPortOk (dieOf t) (x % 16) (bits x 4 3) t e
  | 5 => true
  | _ => false

/-- A route field as the loader leaves it. -/
def routeOk (s : State) (t b : Nat) : Bool :=
  hopsOk (bindDx b) (bindDy b) && pathClear s t (bindDx b) (bindDy b) (bits b 20 1 == 1) && targetOf t b != .nowhere

def placeWord (s : State) (sec t : Nat) (w : CfgWord) : Checked Unit :=
  match cfgPlace w.addr with
  | .bind e c =>
    let b := (s.elem t e).outBind (c - 16)
    refuseIf (decide (16 ≤ c) && bindV b && !(if bindExt b then extOk s t e b else routeOk s t b)) ⟨5, 0x02, some sec, some w.idx⟩
  | _ => .ok ()

/-- A tile of the region by relative coordinates. -/
def innerTile (s : State) (r : Region) (tx ty : Nat) : Option Nat :=
  if tx < r.width ∧ ty < r.height then
    (let t := siteKey r.die (r.col + tx) (r.row + ty)
     if present s t then some t else none)
  else none

/-- The input binding that an inbound entry names (R289). -/
def inboundTarget (s : State) (r : Region) (q : Reloc) : Bool :=
  match innerTile s r q.tx q.ty with
  | none => false
  | some t => match cfgPlace q.word with
    | .bind e c => decide (c < 16) && bindV ((s.elem t e).inBind c) && (inboundTurn s r q).isSome
    | _ => false

def inboundOk (s : State) (r : Region) (q : Reloc) : Bool :=
  let n := bits q.sec 0 8
  bits q.sec 11 4 == 0 && q.zero == 0 && decide (q.turn < 2) && (match bits q.sec 8 3 with
    | 2 => bits n 7 1 == 0 && engineUsable s r.die (n % 16) && inboundTarget s r q
    | 3 => engineUsable s r.die n && inboundTarget s r q
    | 4 => decide (n < 24) && decide (q.tx < 16) && engineUsable s r.die q.tx && q.ty == 0 && q.word == 0
    | 5 => inboundTarget s r q
    | _ => false)

/-- One relocation entry (R84, R289; log entry 108): an output route of the image, or an inbound port. -/
def relocOk (s : State) (m : Image) (r : Region) (q : Reloc) : Bool :=
  if q.sec.testBit 15 then inboundOk s r q
  else q.zero == 0 && decide (q.turn < 2) && (match m.secs[q.sec]? with
    | none => false
    | some x => (x.wordsOf m.body).any fun w => w.idx == q.word && (match cfgPlace w.addr with
      | .bind _ c => decide (16 ≤ c) && (routeTurn s (tileOfSection r x) q.dx q.dy (q.turn == 1)).isSome
      | _ => false))

/-- The core a rule set section names (R86). -/
def ruleSetCore (r : Region) (w : Nat) : Option Nat :=
  coreOfHandle ((if bits w 0 3 = 7 then r.die else bits w 0 3) + 8 * bits w 3 4)

/-- Rule set sections name different cores granted to the kernel's context (R287). -/
def coresOk (s : State) (m : Image) (r : Region) : Bool :=
  let cs := m.rules.map fun b => ruleSetCore r (field b 0 4)
  cs.all (fun c => match c with
    | some k => inPartition s r.ctx k
    | none => false) && noRepeat (cs.filterMap id)

def checkStep5 (s : State) (m : Image) (r : Region) : Checked Unit :=
  match checkAll (fun (p : Section × Nat) =>
      match innerTile s r p.1.tx p.1.ty with
      | none => .error ⟨5, 0x02, some p.2, none⟩
      | some t => checkAll (placeWord s p.2 t) (p.1.wordsOf m.body)) m.secs.zipIdx with
  | .error e => .error e
  | .ok () =>
    match checkAll (fun (q : Reloc) => refuseIf (!relocOk s m r q)
        (if q.sec.testBit 15 then ⟨5, 0x02, none, none⟩ else ⟨5, 0x02, some q.sec, some q.word⟩)) m.relocs with
    | .error e => .error e
    | .ok () => refuseIf (!coresOk s m r) ⟨5, 0x02, none, none⟩

/-! ### Step 6: the graph of the region -/

/-- The outputs that lead to an input: tile, element, output. -/
def producersOf (s : State) (r : Region) (t e c : Nat) : List (Nat × Nat × Nat) :=
  (regionElems s r).flatMap fun p => (s.elem p.1 p.2).outputs.filterMap fun o =>
    if (targets s p.1 p.2 o).contains (.chan t e c) then some (p.1, p.2, o) else none

/-- A rule writes an output channel. -/
def SlotRef.writes (x : SlotRef) (o : Nat) : Bool :=
  match x.i with
  | .steer _ d _ _ => (steerOuts d).contains o
  | .markBarrier _ (.out k) => k.val == o
  | i => match i.operands with
    | some q => q.dst == some (.out (fin 16 o))
    | none => false

/-- The input channels a rule reads. -/
def SlotRef.reads (x : SlotRef) : List Nat :=
  match x.i with
  | .mrgo _ _ a b => (mergeArms a b).flatMap fun p => [p.1, p.2]
  | i => match i.operands with
    | none => []
    | some o => (match o.a with | some (.chan c _) => [c.val] | _ => []) ++ (match o.b with | some (.chan c _) => [c.val] | _ => [])

/-- The input channels a rule dequeues. -/
def SlotRef.dequeues (x : SlotRef) : List Nat :=
  match x.i with
  | .mrgo _ _ a b => (mergeArms a b).flatMap fun p => [p.1, p.2]
  | .mrga _ _ (.chan c _) (.chan c' _) => [c.val, c'.val]
  | i => match i.operands with
    | none => []
    | some o => (match o.a with | some (.chan c true) => [c.val] | _ => []) ++ (match o.b with | some (.chan c true) => [c.val] | _ => [])

def exactOf (m : Image) (r : Region) (t e : Nat) : Option Nat :=
  (m.exact.find? fun x => x.2.1 == e && x.2.2 != 0x80 && (match m.secs[x.1]? with
    | some q => tileOfSection r q == t
    | none => false)).map fun x => x.2.2

def replicated (m : Image) (r : Region) (t e : Nat) : Bool :=
  m.exact.any fun x => x.2.1 == e && x.2.2 == 0x80 && (match m.secs[x.1]? with
    | some q => tileOfSection r q == t
    | none => false)

/-! #### Memory nodes and races (R85, R283) -/

/-- Whether a slot is a memory rule, whether it works on the cistern, and whether it writes (R85). -/
def memoryRule : Instr → Option (Bool × Bool)
  | .ld _ _ _ _ _ _ | .vld _ _ _ _ | .lds _ _ _ _ => some (false, false)
  | .st _ _ _ _ _ | .vst _ _ _ | .stf _ _ _ | .ldc _ _ _ _ => some (false, true)
  | .cld _ _ _ _ _ | .cvld _ _ _ => some (true, false)
  | .cst _ _ _ _ _ | .cvst _ _ _ => some (true, true)
  | _ => none

def rangeFor (m : Image) (x : SlotRef) : Option RangeEntry :=
  m.ranges.find? fun e => e.sec == x.sec && e.elem == x.elem && 16 * e.plane + e.slot == x.slot

/-- The declared range of a memory rule with its access: the whole space, rw, where nothing is declared (R283). -/
def nodeOf (m : Image) (x : SlotRef) : Node :=
  let cls := match rangeFor m x with
    | some e => if e.alias_ = 0xFF then none else some e.alias_
    | none => none
  let own := 256 + ((x.tile * 16 + x.elem) * 4 + x.plane) * 16 + x.slot % 16
  match rangeFor m x with
  | some e =>
    if e.access = 0 then ⟨x.tile, x.elem, x.plane, x.slot % 16, 0, 2 ^ 64, 3, cls.getD own⟩
    else ⟨x.tile, x.elem, x.plane, x.slot % 16, e.base, e.size, e.access, cls.getD own⟩
  | none => ⟨x.tile, x.elem, x.plane, x.slot % 16, 0, 2 ^ 64, 3, own⟩

def isCistern (x : SlotRef) : Bool := (memoryRule x.i).any Prod.fst

/-- Two unordered nodes whose ranges meet, one of which writes (R283). -/
def raceBetween (m : Image) (x y : SlotRef) : Bool :=
  let a := nodeOf m x
  let b := nodeOf m y
  isCistern x == isCistern y && (!isCistern x || x.tile == y.tile) && a.cls != b.cls
    && (a.access.testBit 1 || b.access.testBit 1) && overlaps a.base a.size b.base b.size

/-- The first memory rule that races with an earlier one. -/
def findRace (m : Image) : List SlotRef → List SlotRef → Option SlotRef
  | _, [] => none
  | seen, x :: rest => if seen.any (raceBetween m x) then some x else findRace m (seen ++ [x]) rest

/-- The ranges table (R85): each entry well formed (log entry 109), of a memory rule, and no rule named twice. -/
def rangesOk (m : Image) (slots : List SlotRef) : Bool :=
  m.ranges.all (fun e => decide (e.access ≤ 3) && (decide (e.alias_ < 64) || e.alias_ == 0xFF) && e.zero == 0
    && decide (e.plane < 4) && decide (e.slot < 16) && (e.access != 0 || (e.base == 0 && e.size == 0))
    && slots.any fun x => (memoryRule x.i).isSome && x.sec == e.sec && x.elem == e.elem && x.slot == 16 * e.plane + e.slot)
  && noRepeat (m.ranges.map fun e => ((e.sec * 256 + e.elem) * 256 + e.plane) * 256 + e.slot)

/-! #### Merges, replicate elements (R62, R284, R285) -/

/-- Every rule that dequeues a merged channel is an exact operator of its element's entry (R284). -/
def mergeOk (s : State) (m : Image) (r : Region) (slots : List SlotRef) (t e c : Nat) : Bool :=
  match exactOf m r t e with
  | none => false
  | some op => (slots.filter fun x => x.tile == t && x.elem == e && x.dequeues.contains c).all fun x => match x.i with
    | .atom _ aop _ _ _ _ => aop.code == op
    | .ownapApply _ _ => bits (s.elem t e).owner.toNat 56 4 == op
    | _ => false

/-- The merged channels: inputs with several producers, and targets of an MRGA. -/
def mergedInputs (s : State) (r : Region) : List (Nat × Nat × Nat) :=
  (regionElems s r).flatMap fun p => ((s.elem p.1 p.2).inputs.filter fun c =>
    decide (1 < (producersOf s r p.1 p.2 c).length)).map fun c => (p.1, p.2, c)

def mrgaOk (s : State) (m : Image) (r : Region) (slots : List SlotRef) (x : SlotRef) : Bool :=
  match x.i with
  | .mrga _ (.out k) _ _ => (targets s x.tile x.elem k.val).all fun g => match g with
    | .chan t e c => mergeOk s m r slots t e c
    | _ => false
  | .mrga _ _ _ _ => false
  | _ => true

/-- Every target of a multicast is a replicate element (R285). -/
def multicastOk (s : State) (m : Image) (r : Region) : Bool :=
  (multiOf m r).all fun q => (targets s q.1.1 q.1.2.1 q.1.2.2).all fun g => match g with
    | .chan t e c => replicated m r t e && e == q.2.2.1 && c == q.2.2.2
    | _ => false

def vbcstOk (m : Image) (r : Region) (x : SlotRef) : Bool :=
  match x.i with
  | .vbcst _ _ _ _ => replicated m r x.tile x.elem
  | _ => true

/-! #### Loops (R64, R163) -/

/-- Elements one step along the channels of the region. -/
def nextElems (s : State) (r : Region) (p : Nat × Nat) : List (Nat × Nat) :=
  (s.elem p.1 p.2).outputs.flatMap fun c => (targets s p.1 p.2 c).filterMap fun g => match g with
    | .chan t e _ => if r.hasTile t then some (t, e) else none
    | _ => none

/-- The elements reached from a list, in at most `fuel` rounds. -/
def reachFrom (s : State) (r : Region) : Nat → List (Nat × Nat) → List (Nat × Nat)
  | 0, seen => seen
  | fuel + 1, seen => reachFrom s r fuel (seen ++ seen.flatMap (nextElems s r)).eraseDups

def reaches (s : State) (r : Region) (p : Nat × Nat) : List (Nat × Nat) := reachFrom s r (regionElems s r).length [p]

def secTile (m : Image) (r : Region) (sec : Nat) : Option Nat := (m.secs[sec]?).map (tileOfSection r)

/-- The members of a loop (log entry 32): its header, the owner of the continue channel, and what lies on a path from
the one to the other. -/
def loopMembers (s : State) (m : Image) (r : Region) (l : LoopEntry) : List (Nat × Nat) :=
  match secTile m r l.sec, secTile m r l.csec with
  | some t, some t' =>
    let h := (t, l.elem)
    let c := (t', l.celem)
    (h :: c :: (reaches s r h).filter fun p => (reaches s r p).contains c).eraseDups
  | _, _ => []

/-- The inputs that the continue channel feeds. -/
def continueInputs (s : State) (m : Image) (r : Region) (l : LoopEntry) : List (Nat × Nat × Nat) :=
  match secTile m r l.csec with
  | none => []
  | some t =>
    if l.cchan < 16 then [(t, l.celem, l.cchan)]
    else (targets s t l.celem (l.cchan - 16)).filterMap fun g => match g with
      | .chan u e c => some (u, e, c)
      | _ => none

/-- A node that consumes the continue token. -/
def takesContinue (cont : List (Nat × Nat × Nat)) (x : SlotRef) : Bool :=
  x.dequeues.any fun c => cont.contains (x.tile, x.elem, c)

def storesInLoop : Instr → Bool
  | .st _ _ _ _ _ | .vst _ _ _ | .stf _ _ _ | .cst _ _ _ _ _ | .cvst _ _ _ | .atom _ _ _ _ _ _ => true
  | _ => false

/-- The rules that write the outputs that lead to an input. -/
def writersOf (s : State) (r : Region) (slots : List SlotRef) (t e c : Nat) : List SlotRef :=
  (producersOf s r t e c).flatMap fun p => slots.filter fun y => y.tile == p.1 && y.elem == p.2.1 && y.writes p.2.2

/-- Every token of an input channel comes through a node that consumes the continue token, at most `fuel` nodes back. -/
def gatedInput (s : State) (r : Region) (slots : List SlotRef) (cont : List (Nat × Nat × Nat)) :
    Nat → Nat → Nat → Nat → Bool
  | 0, _, _, _ => false
  | fuel + 1, t, e, c =>
    let ws := writersOf s r slots t e c
    !ws.isEmpty && ws.all fun y =>
      takesContinue cont y || y.reads.any fun k => gatedInput s r slots cont fuel y.tile y.elem k

/-- A store of a loop takes its address or its data through a node that consumes the continue token, or consumes it
itself (R64). -/
def continueEdge (s : State) (r : Region) (slots : List SlotRef) (cont : List (Nat × Nat × Nat)) (x : SlotRef) : Bool :=
  takesContinue cont x || x.reads.any fun c => gatedInput s r slots cont 16 x.tile x.elem c

/-- The elements that hold an MRGO, where the arms of an if-then-else end. -/
def hasMerge (slots : List SlotRef) (p : Nat × Nat) : Bool := slots.any fun y => y.tile == p.1 && y.elem == p.2 &&
  match y.i with
  | .mrgo _ _ _ _ => true
  | _ => false

/-- The outputs of a STEER. -/
def isArmOutput (slots : List SlotRef) (q : Nat × Nat × Nat) : Bool :=
  slots.any fun y => y.tile == q.1 && y.elem == q.2.1 && match y.i with
    | .steer _ d _ _ => (steerOuts d).contains q.2.2
    | _ => false

/-- The nodes inside the arms: what the outputs of a STEER reach before an MRGO (R163). -/
def armNodes (s : State) (r : Region) (slots : List SlotRef) : List (Nat × Nat) :=
  let inside (l : List (Nat × Nat)) : List (Nat × Nat) := (l.filter fun p => !hasMerge slots p).eraseDups
  let first := (regionElems s r).flatMap fun p => ((s.elem p.1 p.2).outputs.filter fun o => isArmOutput slots (p.1, p.2, o)).flatMap
    fun o => (targets s p.1 p.2 o).filterMap fun g => match g with
      | .chan t e _ => some (t, e)
      | _ => none
  (regionElems s r).foldl (fun seen _ => inside (seen ++ seen.flatMap (nextElems s r))) (inside first)

/-- An output on which MARK sends a CUT: the CUT route runs on it (R163). -/
def isCutOutput (slots : List SlotRef) (q : Nat × Nat × Nat) : Bool :=
  slots.any fun y => y.tile == q.1 && y.elem == q.2.1 && match y.i with
    | .markCut _ (.out k) _ => k.val == q.2.2
    | _ => false

/-- The loop channels of a member: its inputs that come from another member, less the CUT route and the arms of an
if-then-else (R163). -/
def memberInputs (s : State) (r : Region) (slots : List SlotRef) (members : List (Nat × Nat)) (p : Nat × Nat) : List Nat :=
  let arms := armNodes s r slots
  (s.elem p.1 p.2).inputs.filter fun c => (producersOf s r p.1 p.2 c).any fun q =>
    members.contains (q.1, q.2.1) && (q.1, q.2.1) != p && !isCutOutput slots q && !isArmOutput slots q
      && !arms.contains (q.1, q.2.1)

def loopOk (s : State) (m : Image) (r : Region) (slots : List SlotRef) (l : LoopEntry) : Bool :=
  let members := loopMembers s m r l
  let cont := continueInputs s m r l
  !members.isEmpty && decide (l.elem < 16) && decide (l.celem < 16) && decide (l.cchan < 32)
    && (slots.filter fun x => members.contains (x.tile, x.elem)).all fun x =>
      (!storesInLoop x.i || continueEdge s r slots cont x) &&
      (let ins := memberInputs s r slots members (x.tile, x.elem)
       !(x.dequeues.any ins.contains) || ins.all x.dequeues.contains)

/-! #### Merge windows, owners, rings, corner turns (R157, R165, R178, R179, R181, R183) -/

def ringBacking (s : State) (t e c : Nat) : Nat :=
  let b := (s.elem t e).inBind c
  if bindRingen b then ringSlots (s.tile t) (bindRing b) else 0

def windowOk (s : State) (x : SlotRef) : Bool :=
  match x.i with
  | .mrgo _ _ a b =>
    let cs := (mergeArms a b).flatMap fun p => [p.1, p.2]
    let w := ringBacking s x.tile x.elem (cs.headD 0)
    decide (1 ≤ w) && decide (w ≤ 8191) && cs.all fun c => decide (w ≤ ringBacking s x.tile x.elem c)
  | _ => true

/-- The range of an element's owner descriptor. -/
def ownerRange (y : Elem) : Option (Nat × Nat) :=
  let w := y.owner.toNat
  if bits w 63 1 = 1 then some (bits w 0 18, bits w 20 18) else none

/-- A declared range of CST or CVST meets no owner's range of its tile (R178). -/
def ownerRangesOk (s : State) (m : Image) (x : SlotRef) : Bool :=
  match x.i with
  | .cst _ _ _ _ _ | .cvst _ _ _ => match rangeFor m x with
    | some e => e.access == 0 || (s.tile x.tile).elems.all fun p => match ownerRange p.2 with
      | some (b, n) => !overlaps b n e.base e.size
      | none => true
    | none => true
  | _ => true

/-- ATOM is bound to an owner of the region with its own operation (R181, R183). -/
def atomOk (s : State) (r : Region) (x : SlotRef) : Bool :=
  match x.i with
  | .atom _ aop _ (.out k) _ _ => (targets s x.tile x.elem k.val).all fun g => match g with
    | .chan t e _ => r.hasTile t && (ownerRange (s.elem t e)).isSome && bits (s.elem t e).owner.toNat 56 4 == aop.code
    | _ => false
  | .atom _ _ _ _ _ _ => false
  | _ => true

/-- Bytes of a token on a channel. -/
def planeBytes (b : Nat) : Nat := if bindPlane b = 0 then 32 else 4

def backsChannel (x : Tile) (n : Nat) : Bool :=
  x.elems.any fun p => p.2.inputs.any fun c => bindRingen (p.2.inBind c) && bindRing (p.2.inBind c) == n

def slotFits (x : Tile) (n len : Nat) : Bool := decide (len ≤ (x.core.rings.toList.getD n {}).slotBytes)

def ringRuleOk (s : State) (x : SlotRef) : Bool :=
  let t := s.tile x.tile
  let y := s.elem x.tile x.elem
  match x.i with
  | .crput _ n a => !backsChannel t n.val && slotFits t n.val (match a with
      | .v _ | .acc _ => 32
      | .chan c _ => planeBytes (y.inBind c.val)
      | _ => 4)
  | .crget _ n d => !backsChannel t n.val && slotFits t n.val (match d with
      | .v _ | .acc _ => 32
      | .out c => planeBytes (y.outBind c.val)
      | _ => 4)
  | _ => true

/-- A ring that backs a channel holds its tokens whole (R179). -/
def backingOk (s : State) (p : Nat × Nat) : Bool :=
  let y := s.elem p.1 p.2
  y.inputs.all fun c => !bindRingen (y.inBind c) || slotFits (s.tile p.1) (bindRing (y.inBind c)) (planeBytes (y.inBind c))

def turnWidth : Instr → Option LaneW
  | .cturn _ lw _ _ => some lw
  | _ => none

def turnsOk (slots : List SlotRef) (x : SlotRef) : Bool :=
  match turnWidth x.i with
  | none => true
  | some w => slots.all fun y => y.tile != x.tile || y.elem != x.elem || (match turnWidth y.i with
    | some w' => w' == w
    | none => true)

/-! #### Back channels (R302) -/

/-- A node of the region's graph: an element, or an island as one node. -/
inductive GNode where
  | elem (t e : Nat)
  | island (en : Nat)
  deriving DecidableEq, Repr

/-- A bound channel: from a node to a node, the input it fills, and the slots it holds. -/
structure GEdge where
  src   : GNode
  dst   : GNode
  input : Nat × Nat × Nat
  slots : Nat
  deriving DecidableEq, Repr

def inputSlots (s : State) (t e c : Nat) : Nat :=
  let n := ringBacking s t e c
  if n = 0 then 2 else n

/-- The channels of one element in channel order: inputs that an engine fills, then outputs. -/
def elemEdges (s : State) (r : Region) (t e : Nat) : List GEdge :=
  let y := s.elem t e
  let ins := y.inputs.flatMap fun c => (r.inbound.filter fun b =>
      b.tile == t && b.elem == e && b.chan == c && bits b.src 8 3 == 2).map fun b =>
    (⟨.island (engineKey r.die (b.src % 16)), .elem t e, (t, e, c), inputSlots s t e c⟩ : GEdge)
  let outs := y.outputs.flatMap fun o => (targets s t e o).filterMap fun g => match g with
    | .chan u f c => some (⟨.elem t e, .elem u f, (u, f, c), inputSlots s u f c⟩ : GEdge)
    | .command en => if en % 64 < 16 then some ⟨.elem t e, .island en, (1536 + en, 0, 8), 2⟩ else none
    | .row en p => some ⟨.elem t e, .island en, (1536 + en, 0, p), 2⟩
    | _ => none
  ins ++ outs

/-- The bound channels of the region in image order. -/
def allEdges (s : State) (m : Image) (r : Region) : List GEdge :=
  m.secs.flatMap fun x =>
    let t := tileOfSection r x
    (List.range 16).flatMap (elemEdges s r t)

def stepNodes (es : List GEdge) (seen : List GNode) : List GNode :=
  (seen ++ (es.filter fun x => seen.contains x.src).map GEdge.dst).eraseDups

def closure (es : List GEdge) : Nat → List GNode → List GNode
  | 0, seen => seen
  | n + 1, seen => closure es n (stepNodes es seen)

def graphReaches (es : List GEdge) (a b : GNode) : Bool := (closure es es.length [a]).contains b

/-- The channels split into those taken and those that would close a cycle. -/
def splitEdges (es : List GEdge) : List GEdge × List GEdge :=
  es.foldl (fun p x => if x.src == x.dst || graphReaches p.1 x.dst x.src then (p.1, p.2 ++ [x]) else (p.1 ++ [x], p.2)) ([], [])

/-- The most slots on a path between two nodes of the acyclic graph; none where there is no path. -/
def longest (es : List GEdge) (b : GNode) : Nat → GNode → Option Nat
  | 0, a => if a == b then some 0 else none
  | fuel + 1, a =>
    let here := if a == b then some 0 else none
    (es.filter fun x => x.src == a).foldl (fun best x => match longest es b fuel x.dst with
      | none => best
      | some n => some (max (best.getD 0) (n + x.slots))) here

/-- A channel that closes cycles among the channels already taken holds at most 32 slots together with those of any
one of them. -/
def cycleOk (taken : List GEdge) (x : GEdge) : Bool :=
  match longest taken x.src taken.length x.dst with
  | some n => decide (n + x.slots ≤ 32)
  | none => true

/-- No cycle that a back channel closes holds more than 32 slots.  The cycles meant are those among the channels
already taken when the back channel is found (DEDUCED, log entry 38). -/
def cyclesOk (es : List GEdge) : Bool :=
  (es.foldl (fun p x =>
    if x.src == x.dst || graphReaches p.1 x.dst x.src then (p.1, p.2 && cycleOk p.1 x) else (p.1 ++ [x], p.2)) ([], true)).2

def backChannels (s : State) (m : Image) (r : Region) : List (Nat × Nat × Nat) := (splitEdges (allEdges s m r)).2.map GEdge.input

/-! #### Step 6 as a whole -/

def bad6 (x : SlotRef) (ok : Bool) : Checked Unit := refuseIf (!ok) ⟨6, 0x02, some x.sec, some x.word⟩
def bad6' (ok : Bool) : Checked Unit := refuseIf (!ok) ⟨6, 0x02, none, none⟩

def andThen (a : Checked Unit) (b : Unit → Checked Unit) : Checked Unit :=
  match a with
  | .error e => .error e
  | .ok () => b ()

def checkRaces (m : Image) (slots : List SlotRef) : Checked Unit :=
  match findRace m [] (slots.filter fun x => (memoryRule x.i).isSome) with
  | none => bad6' (m.h.level != 0 || !m.h.flags.testBit 0)
  | some x => bad6 x (m.h.level == 0 && m.h.flags.testBit 0)

def checkStep6 (s : State) (m : Image) (r : Region) : Checked Unit :=
  let slots := slotsOf m r
  andThen (bad6' (rangesOk m slots)) fun _ =>
  andThen (checkRaces m slots) fun _ =>
  andThen (bad6' ((mergedInputs s r).all fun p => mergeOk s m r slots p.1 p.2.1 p.2.2)) fun _ =>
  andThen (bad6' (multicastOk s m r)) fun _ =>
  andThen (checkAll (fun x => bad6 x (mrgaOk s m r slots x && vbcstOk m r x)) slots) fun _ =>
  andThen (bad6' (m.loops.all (loopOk s m r slots))) fun _ =>
  andThen (checkAll (fun x => bad6 x (windowOk s x && ownerRangesOk s m x && atomOk s r x && ringRuleOk s x && turnsOk slots x)) slots) fun _ =>
  andThen (bad6' ((regionElems s r).all (backingOk s))) fun _ =>
  bad6' (cyclesOk (allEdges s m r))

/-! ### Step 7: levels 1 and 2 (R132, R286, R300) -/

def isChgq : Instr → Bool
  | .chgq _ _ => true
  | _ => false

def isRtake : Instr → Bool
  | .rtake _ _ _ => true
  | _ => false

def planeNext (m : Image) (x : SlotRef) : Bool :=
  match x.i with
  | .plane _ k => k.val == (x.plane + 1) % m.h.planes
  | _ => true

/-- The input that a rule passes on: of a FWD, and of an XLAT where that counts. -/
def passedOn (xlat : Bool) : Instr → Option Nat
  | .fwd _ _ (.chan c _) _ => some c.val
  | .xlat _ _ _ (.chan c _) => if xlat then some c.val else none
  | _ => none

/-- Inputs with those they are passed on from, over at most `fuel` rules. -/
def passedFrom (s : State) (r : Region) (slots : List SlotRef) (xlat : Bool) : Nat → List (Nat × Nat × Nat) → List (Nat × Nat × Nat)
  | 0, seen => seen
  | n + 1, seen =>
    let next := seen.flatMap fun p => (writersOf s r slots p.1 p.2.1 p.2.2).filterMap fun y =>
      (passedOn xlat y.i).map fun c => (y.tile, y.elem, c)
    let all := (seen ++ next).eraseDups
    if all.length = seen.length then seen else passedFrom s r slots xlat n all

/-- An input that carries tokens of certain rules alone, straight or passed on. -/
def carriesOnly (s : State) (r : Region) (slots : List SlotRef) (xlat : Bool) (source : SlotRef → Bool) (t e c : Nat) : Bool :=
  let ins := passedFrom s r slots xlat (16 * (regionElems s r).length) [(t, e, c)]
  let ws := ins.map fun p => writersOf s r slots p.1 p.2.1 p.2.2
  (ws.any fun l => l.any source) && ws.all fun l => !l.isEmpty && l.all fun y => source y || (passedOn xlat y.i).isSome

/-- An input that carries range tokens of RTAKE alone. -/
def fromRtake (s : State) (r : Region) (slots : List SlotRef) (t e c : Nat) : Bool :=
  carriesOnly s r slots false (fun y => isRtake y.i) t e c

/-- An AGEN element re-armed solely from RTAKE tokens. -/
def agenFed (s : State) (r : Region) (slots : List SlotRef) (t e : Nat) : Bool :=
  slots.all fun y => y.tile != t || y.elem != e || (match y.i with
    | .agenRearm _ _ (.chan c _) => fromRtake s r slots t e c.val
    | .agenRearm _ _ _ => false
    | _ => true)

def isAgen : Instr → Bool
  | .agenRearm _ _ _ | .agenStep _ _ => true
  | _ => false

/-- An address operand that comes from an AGEN through FWD and XLAT only. -/
def addressPath (s : State) (r : Region) (slots : List SlotRef) (t e : Nat) : Src → Bool
  | .chan c _ => carriesOnly s r slots true (fun y => isAgen y.i && agenFed s r slots y.tile y.elem) t e c.val
  | _ => false

def storePathOk (s : State) (r : Region) (slots : List SlotRef) (x : SlotRef) : Bool :=
  let ok (a : Src) := addressPath s r slots x.tile x.elem a
  match x.i with
  | .st _ _ _ a _ | .vst _ a _ | .stf _ a _ | .cst _ _ _ a _ | .cvst _ a _ => ok a
  | _ => true

def checkStep7 (s : State) (m : Image) (r : Region) (level : Nat) : Checked Unit :=
  let slots := slotsOf m r
  if max m.h.level level = 0 then .ok ()
  else checkAll (fun x => refuseIf (isChgq x.i || !planeNext m x || (slots.any (fun y => isRtake y.i) && !storePathOk s r slots x))
    ⟨7, 0x02, some x.sec, some x.word⟩) slots

end Sys2Proof.Machine
end

