-- ==== Sys2Proof/Machine/Loader.lean ====
section
/-! DEFINITION. The region allocator (R11, R241), step 8 of the loader and its refusal record (R282, R287, R289, R290),
the state images of IMGOUT (R247), and what RSLOAD loads (R248). -/

namespace Sys2Proof.Machine

/-! ### Memory as a unit of a die sees it -/

/-- An access of a unit that keeps no translations of its own. -/
def unitAccess (s : State) (die ctx : Nat) (va : Int) (len : Nat) (wr : Bool) : Access × State :=
  let (a, _, s) := translateAccess s die ctx 0 [] va len { write := wr }
  (a, s)

/-- A read by such a unit, waiting under a name of its own for other modules. -/
def unitRead (s : State) (die ctx waiter : Nat) (va : Int) (len : Nat) : ReadOut × State :=
  match unitAccess s die ctx va len false with
  | (.fault c v, s) => (.fault c v, s)
  | (.wait, s) => (.wait, s)
  | (.pages ps, s) => readAny s waiter ps va.toNat len

def unitWrite (s : State) (die ctx : Nat) (va : Int) (data : List Byte) (setFull : Bool) : ReadOut × State :=
  match unitAccess s die ctx va data.length true with
  | (.fault c v, s) => (.fault c v, s)
  | (.wait, s) => (.wait, s)
  | (.pages ps, s) => writeAny s ps va.toNat data setFull

/-! ### The region allocator (R11, R241) -/

/-- A shape word. -/
structure Shape where
  die    : Nat
  col    : Nat
  row    : Nat
  width  : Nat
  height : Nat
  id     : Nat
  any    : Bool
  deriving DecidableEq, Repr

def shapeOf (w : Nat) : Shape :=
  ⟨bits w 0 2, bits w 2 5, bits w 7 4, bits w 11 5 + 1, bits w 16 4 + 1, bits w 20 8, bits w 28 1 == 1⟩

/-- The region that a shape at an origin makes. -/
def Shape.at (x : Shape) (ctx col row : Nat) : Region :=
  { die := x.die, id := x.id, col := col, row := row, width := x.width, height := x.height, ctx := ctx }

def Region.inArray (r : Region) : Bool := decide (r.col + r.width ≤ 24) && decide (r.row + r.height ≤ 16)

def Region.meets (r q : Region) : Bool :=
  r.die == q.die && decide (r.col < q.col + q.width) && decide (q.col < r.col + r.width)
    && decide (r.row < q.row + q.height) && decide (q.row < r.row + r.height)

/-- Every site of the rectangle is granted to the context; an absent site cannot be. -/
def granted (s : State) (r : Region) : Bool :=
  let g := ((s.ctx r.ctx).grants.toList.getD r.die {}).sites
  r.sites.all fun t => g.getLsbD (siteOf t) || !present s t

def Region.clear (s : State) (r : Region) : Bool := s.regions.all fun p => !r.meets p.2

/-- The first origin of R241, row by row. -/
def anyOrigin (s : State) (x : Shape) (ctx : Nat) : Option (Nat × Nat) :=
  ((List.range 16).flatMap fun j => (List.range 24).map fun i => (i, j)).find? fun p =>
    let r := x.at ctx p.1 p.2
    r.inArray && granted s r && r.clear s

/-- A tile as it stands with nothing configured: its cistern and its charge stay. -/
def Tile.blank (x : Tile) : Tile :=
  { balance := x.balance, rounds := x.rounds, cistern := x.cistern, echg := x.echg }

def blankTiles (s : State) (r : Region) : State :=
  { s with tiles := s.tiles.map fun p => if r.hasTile p.1 then (p.1, p.2.blank) else p }

/-- A region allocated, or the number of the refusal. -/
def allocRegion (s : State) (ctx w : Nat) : Except Nat (Nat × State) :=
  let x := shapeOf w
  let key := regionKey x.die x.id
  let origin := if x.any then anyOrigin s x ctx else some (x.col, x.row)
  if (s.region key).isSome then .error 1
  else match origin with
  | none => .error 3
  | some (col, row) =>
    let r := x.at ctx col row
    if !r.inArray then .error 3
    else if !granted s r then .error 2
    else if !r.clear s then .error 1
    else
      let s := { s with gens := kput s.gens key (kget s.gens key 0 + 1) }
      .ok (key, (blankTiles s r).setRegion key r)

/-- A region freed with its configuration and its shadow image.  The engines drop what they hold for it, and a record
that was refused a place on its die is tried again (R277). -/
def releaseRegion (s : State) (key : Nat) : State :=
  match s.region key with
  | none => s
  | some r =>
    let s := discardCommands (failAllOwed s key) key
    let s := voidPools s key { r with stroke := 0 }
    let s := dropStopped s r.die 0 (regionHandle s key)
    let s := blankTiles s r
    let mine (en : Nat) : Bool := r.streams.any fun q => engineKey r.die (24 + q.1) == en
    let cutOff (p : Nat × Expander) : Nat × Expander := (p.1, if mine p.1 then { p.2 with island := none } else p.2)
    let again (u : Queue) : Queue := if u.refused.any fun x => x.2 == r.die then { u with refused := none } else u
    { s with
      expanders := s.expanders.map cutOff, queues := s.queues.map fun p => (p.1, again p.2)
      regions := kdel s.regions key }

/-! ### Step 8: what the loader writes -/

/-- The deepest loop an element belongs to, and whether it is its header. -/
def loopFor (s : State) (m : Image) (r : Region) (t e : Nat) : Option (Nat × Bool) :=
  let mine := m.loops.zipIdx.filter fun l => (loopMembers s m r l.1).contains (t, e)
  let best := mine.foldl (fun (b : Option (LoopEntry × Nat)) l => match b with
    | some x => if x.1.depth < l.1.depth then some l else some x
    | none => some l) none
  best.map fun l => (l.2, l.1.elem == e && secTile m r l.1.sec == some t)

/-- The loop channels of an element (R163). -/
def loopInsFor (s : State) (m : Image) (r : Region) (t e : Nat) : List Nat :=
  match (loopFor s m r t e).bind fun l => m.loops[l.1]? with
  | none => []
  | some l => memberInputs s r (slotsOf m r) (loopMembers s m r l) (t, e)

/-- The owner descriptors that the routes of an element lead to, by output channel (R181). -/
def ownerCopies (s : State) (t e : Nat) : KMap W64 :=
  (s.elem t e).outputs.filterMap fun c => match (targets s t e c).head? with
    | some (.chan u f _) => if (s.elem u f).owner.getLsbD 63 then some (c, (s.elem u f).owner) else none
    | _ => none

/-- An element with its declarations, at the start of its region's open stroke. -/
def declareElem (s : State) (m : Image) (r : Region) (t e : Nat) (y : Elem) : Elem :=
  { y with
    exact := (exactOf m r t e).map (BitVec.ofNat 8), replicate := replicated m r t e, loop := loopFor s m r t e
    loopIns := loopInsFor s m r t e, owners := ownerCopies s t e
    snap := y.core, stroke := r.stroke, frozen := m.h.state
    rec0On := y.inputs.filter fun c => r.back.contains (t, e, c) }

def declareTile (s : State) (m : Image) (r : Region) (t : Nat) (x : Tile) : Tile :=
  { x with snap := x.core, elems := x.elems.map fun p => (p.1, declareElem s m r t p.1 p.2) }

/-- CRC-32C of the configuration words of one kind of address of a tile: slots and bindings (R291). -/
def slotBytes (x : Tile) : List Byte := (List.range 0x600).flatMap fun a => byteList 8 (x.cfgRead a)

def regionSignature (s : State) (r : Region) : Nat :=
  crc32c ((r.sites.filter (present s)).flatMap fun t => slotBytes (s.tile t))

/-- A token of a state image (R247): section, element, channel, tag, payload. -/
structure SavedToken where
  sec  : Nat
  elem : Nat
  chan : Nat
  pos  : Nat
  tag  : Nat
  data : Nat
  deriving DecidableEq, Repr

def savedOf (b : List Byte) : SavedToken := ⟨field b 0 2, field b 2 1, field b 3 1, field b 4 1, field b 5 1, field b 16 32⟩

/-- Tokens in FIFO order. -/
def savedTokens (m : Image) : List SavedToken :=
  let l := (entryList 48 m.data).map savedOf
  (List.range 256).flatMap fun k => l.filter fun x => x.pos == k

/-- A token back in its channel: the FIFO first, then the ring, then the way to it; at an output, the port it leads to. -/
def restoreToken (r : Region) (m : Image) (s : State) (x : SavedToken) : State :=
  let tok : Token := ⟨BitVec.ofNat 256 x.data, BitVec.ofNat 2 x.tag, r.stroke⟩
  match secTile m r x.sec with
  | none => s
  | some t =>
    let y := s.elem t x.elem
    if x.chan < 16 then
      let ch := y.chan x.chan
      let b := y.inBind x.chan
      let filled := if bindRingen b then ((s.tile t).core.rings.toList.getD (bindRing b) {}).filled.toNat else 0
      let ch := if ch.fifo.length < 2 ∧ ch.ring = [] ∧ ch.flight = [] then { ch with fifo := ch.fifo ++ [tok] }
        else if ch.ring.length < filled then { ch with ring := ch.ring ++ [tok] }
        else { ch with flight := ch.flight ++ [tok] }
      s.setElem t x.elem (y.setChan x.chan ch)
    else match targetOf t (y.outBind (x.chan - 16)) with
      | .chan _ _ _ | .nowhere => s
      | g => deliver s t tok g

/-- The streams of expanders into islands (R289): edge column and island. -/
def streamsOf (m : Image) : List (Nat × Nat) :=
  (m.relocs.filter fun q => q.sec.testBit 15 && bits q.sec 8 3 == 4).map fun q => (bits q.sec 0 8, q.tx)

/-- An island taken over by an image: nothing configured in it yet (R31, R190). -/
def bindIsland (stroke : Nat) (frozen : Bool) (x : Island) : Island :=
  let clean (c : IslandCore) : IslandCore :=
    { c with cfg := none, iconv := 0, stage := [], sats := [], ftzs := [], skip := none, kept := none, barIn := [], barOut := 0 }
  { x with core := clean x.core, snap := clean x.snap, snapNext := none, stroke := stroke, frozen := frozen
           inject := [], balance := 0 }

/-- The plane the elements of a region fire from. -/
def planeOf (s : State) (r : Region) : BitVec 2 := ((regionElems s r).head?.map fun p => (s.elem p.1 p.2).plane).getD 0

/-- The configuration, the declarations and the tokens of an image, laid into its region. -/
def placeImage (s : State) (key : Nat) (r : Region) (m : Image) : State :=
  let s := laidOver s key r m
  let r := (s.region key).getD r
  let r := { r with
    nodes := ((slotsOf m r).filter fun x => (memoryRule x.i).isSome).map (nodeOf m)
    back := backChannels s m r, planes := m.h.planes, frozen := m.h.state
    strokeLen := if m.h.stroke = 0 then 4096 else m.h.stroke
    sections := m.secs.map fun x => (x.tx, x.ty)
    tables := (List.range 4).map fun k => tableBytes m.h m.secs m.body (k + 2)
    race := m.h.flags.testBit 0, streams := streamsOf m, version := m.h.version, imageLevel := BitVec.ofNat 2 m.h.level
    plane := if m.h.state then planeOf s r else r.plane }
  let s := s.setRegion key r
  let s := { s with tiles := s.tiles.map fun p => if r.hasTile p.1 then (p.1, declareTile s m r p.1 p.2) else p }
  let s := if m.h.state then (savedTokens m).foldl (restoreToken r m) s else s
  s.modRegion key fun r => { r with signature := regionSignature s r }

/-- The check of a written image by CRC.cfg: what the configuration store answers is a free value (log entry 50). -/
def verifyImage (s : State) (m : Image) : Option Refuse × State :=
  let (n, s) := drawNat s
  if m.secs.isEmpty then (none, s)
  else match n % 4 with
    | 1 => (some ⟨8, 8, some (n / 4 % m.secs.length), none⟩, s)
    | 2 => (some ⟨8, 9, some (n / 4 % m.secs.length), none⟩, s)
    | _ => (none, s)

/-- Step 8 (R282, R287): the image written, its streams and islands bound, its rule sets loaded; the kernel is LOADED. -/
def writeImage (s : State) (key : Nat) (r : Region) (m : Image) (level va : Nat) : State :=
  let s := placeImage s key r m
  let s : State := { s with tiles := s.tiles.map fun p => if r.hasTile p.1 then (p.1, { p.2 with balance := 0, doseDue := 0 }) else p }
  let s := s.modRegion key fun r => { r with
    kernel := .loaded, level := BitVec.ofNat 2 level, plane := if m.h.state then r.plane else 0, imageVa := va, imageHash := sha512 m.body, imageLen := m.body.length
    crcs := m.secs.foldl (fun c x => kput c (tileOfSection r x) x.crc) [] }
  let s := (streamsOf m).foldl (fun s q => s.modExpander (engineKey r.die (24 + q.1)) fun x =>
    { x with island := some (engineKey r.die q.2) }) s
  let s := match s.region key with
    | some r => (regionIslands s r).foldl (fun s en => s.modIsland en (bindIsland r.stroke m.h.state)) (freezeEngines s r m.h.state)
    | none => s
  m.rules.foldl (fun s b => match ruleSetCore r (field b 0 4) with
    | some c => loadRules s c (sectionWords (192 + bits (field b 0 4) 16 13) (b.drop 4))
    | none => s) s

/-! ### The loader as a whole -/

/-- Steps 1 to 7 over the bytes of an image and its signature block. -/
def checkImage (s : State) (key : Nat) (r : Region) (level : Nat) (trusted : Bool) (b : List Byte) :
    Checked Image :=
  let m := imageOf b
  let s' := laidOver s key r m
  let r' := (s'.region key).getD r
  match andThen (checkHeader m r.width r.height level) fun _ =>
        andThen (checkSignature s m ((b.drop m.h.sig).take 512) trusted) fun _ =>
        andThen (checkAll (checkSection m) m.secs.zipIdx) fun _ =>
        andThen (checkStep4 s' m r') fun _ =>
        andThen (checkStep5 s' m r') fun _ =>
        andThen (checkStep6 s' m r') fun _ => checkStep7 s' m r' level with
  | .error e => .error e
  | .ok () => .ok m

/-- The bytes of an image and its signature, as long as its SIG says.  The header is read again with the rest, so its
answers from another module stand until the whole has come. -/
def readImage (s : State) (die ctx waiter va : Nat) : ReadOut × State :=
  match unitRead s die ctx waiter va 64 with
  | (.bytes h, _) => unitRead s die ctx waiter va (field h 0x30 4 + 512)
  | x => x

/-- The refusal record; its section is 0xFFFF where none applies, its word is a free value where none applies. -/
def refusalWord (s : State) (x : Refuse) : Nat × State :=
  let (n, s) := drawNat s
  (x.step + x.code * 2 ^ 8 + (x.sec.getD 0xFFFF) % 2 ^ 16 * 2 ^ 16 + (x.word.getD n) % 2 ^ 16 * 2 ^ 32, s)

/-- The refusal record over bytes 0 to 7 of the counter block (R282). -/
def writeRefusal (s : State) (die ctx cntVa : Nat) (x : Refuse) : State :=
  let (w, s) := refusalWord s x
  match peekPages s die ctx cntVa 8 true with
  | none => s
  | some ps => writePages s ps cntVa (byteList 8 w) false

/-! ### State images (R247) -/

/-- A run: its header and its words. -/
def runOf (x : Tile) (a n : Nat) : List Nat :=
  (0xA * 2 ^ 60 + n * 2 ^ 32 + a) :: (List.range n).map fun i => x.cfgRead (a + i)

/-- A tile as a section: every slot and binding, then every state word that an image may write. -/
def tileRuns (x : Tile) : List Nat :=
  runOf x 0 0x600
    ++ ((List.range 16).flatMap fun e => runOf x (0x800 + 128 * e) 0x59 ++ runOf x (0x800 + 128 * e + 0x5B) 2)
    ++ runOf x 0x1000 0x12 ++ runOf x 0x1018 0x10

/-- The bytes of a tile's section. -/
def tileSection (x : Tile) : List Byte := (tileRuns x).flatMap (byteList 8)

/-- A relocation entry. -/
def relocBytes (sec word dx dy turn : Nat) : List Byte :=
  byteList 2 sec ++ byteList 2 word ++ byteList 1 dx ++ byteList 1 dy ++ byteList 2 turn

/-- The entries of one tile's output bindings: the route, then those of its other targets (R285). -/
def tileRelocs (s : State) (r : Region) (t sec : Nat) : List Byte :=
  (List.range 16).flatMap fun e => (s.elem t e).outputs.flatMap fun c =>
    let b := (s.elem t e).outBind c
    if bindExt b then []
    else
      let word := 1 + 0x400 + 32 * e + 16 + c
      let hop (i : Int) : Nat := (i % 256).toNat
      relocBytes sec word (hop (bindDx b)) (hop (bindDy b)) (bits b 20 1)
        ++ (r.multi.filter fun q => q.1 == (t, e, c)).flatMap fun q =>
          relocBytes sec word (hop ((colOf q.2.1 : Int) - colOf t)) (hop ((rowOf q.2.1 : Int) - rowOf t)) 0

/-- The entries of the inbound ports and of the streams. -/
def inboundRelocs (r : Region) : List Byte :=
  (r.inbound.flatMap fun b => relocBytes (2 ^ 15 + b.src) (0x400 + 32 * b.elem + b.chan)
      (colOf b.tile - r.col) (rowOf b.tile - r.row) b.turn)
    ++ r.streams.flatMap fun q => relocBytes (2 ^ 15 + 0x400 + q.1) 0 q.2 0 0

def savedBytes (sec e c pos : Nat) (k : Token) : List Byte :=
  byteList 2 sec ++ byteList 1 e ++ byteList 1 c ++ byteList 1 pos ++ byteList 1 k.tag.toNat ++ byteList 10 0
    ++ byteList 32 k.data.toNat

/-- The tokens in flight of one tile: every channel, oldest first. -/
def tileTokens (s : State) (t sec : Nat) : List Byte :=
  (s.tile t).elems.flatMap fun p => p.2.chans.flatMap fun q =>
    ((q.2.fifo ++ q.2.ring ++ q.2.flight).zipIdx.flatMap fun k => savedBytes sec p.1 q.1 k.2 k.1)

/-- The command FIFO of an engine. -/
def engFifo (s : State) (en : Nat) : List Cmd :=
  let n := en % 64
  if n < 16 then (s.island en).fifo
  else if n < 24 then (s.streamer en).fifo
  else if n < 48 then (s.expander en).fifo
  else (s.weir en).fifo

/-- The tokens of a region that wait at a port its outputs lead to. -/
def tokensAt (s : State) (key : Nat) (r : Region) : Target → List Token
  | .boundary n => kget r.boundary n []
  | .command en => ((engFifo s en).filter fun c => c.region == key).map Cmd.tok
  | .row en p => kget (s.island en).rows p []
  | _ => []

/-- The outputs of some tiles that lead to a port, the first for each port: section, element, output, port. -/
def portOutputs (s : State) (tiles : List (Nat × Nat)) : List (Nat × Nat × Nat × Target) :=
  (tiles.flatMap fun q => (List.range 16).flatMap fun e => (s.elem q.1 e).outputs.map fun c =>
    (q.2, e, c, targetOf q.1 ((s.elem q.1 e).outBind c))).foldl
      (fun l o => if l.any fun p => p.2.2.2 == o.2.2.2 then l else l ++ [o]) []

/-- The tokens that wait at the ports, as they left the outputs. -/
def portTokens (s : State) (key : Nat) (r : Region) (tiles : List (Nat × Nat)) : List Byte :=
  (portOutputs s tiles).flatMap fun o =>
    (tokensAt s key r o.2.2.2).zipIdx.flatMap fun k => savedBytes o.1 o.2.1 (16 + o.2.2.1) k.2 k.1

/-- The sites of a region that a readout gives a section: those its image had, then any other that holds something. -/
def savedSites (s : State) (r : Region) : List (Nat × Nat) :=
  let all := (List.range r.height).flatMap fun y => (List.range r.width).map fun x => (x, y)
  r.sections ++ all.filter fun p =>
    let x := s.tile (siteKey r.die (r.col + p.1) (r.row + p.2))
    !r.sections.contains p && (!x.elems.isEmpty || { x.core with aptr := 0 } != {} || x.spine != 0)

/-- Tables one after another from an offset on: their offsets, 0 where one is empty. -/
def layTables : Nat → List (List Byte) → List Nat
  | _, [] => []
  | o, b :: bs => (if b.isEmpty then 0 else o) :: layTables (o + b.length) bs

/-- The section entries: where each lies, and its CRC. -/
def sectionTable : Nat → List (Nat × Nat × List Byte) → List Byte
  | _, [] => []
  | o, (tx, ty, b) :: l =>
    byteList 1 tx ++ byteList 1 ty ++ byteList 2 (b.length / 8) ++ byteList 4 o ++ byteList 4 (crc32c b) ++ byteList 4 0
      ++ sectionTable (o + b.length) l

/-- The image of a region as IMGOUT reads it out: header, tables, sections, zero signature block. -/
def readOut (s : State) (key : Nat) (r : Region) : List Byte :=
  let sites := savedSites s r
  let tiles := sites.zipIdx.map fun p => (siteKey r.die (r.col + p.1.1) (r.row + p.1.2), p.2)
  let secs := (sites.zip tiles).map fun p => (p.1.1, p.1.2, tileSection (s.tile p.2.1))
  let reloc := (tiles.flatMap fun p => tileRelocs s r p.1 p.2) ++ inboundRelocs r
  let data := (tiles.flatMap fun p => tileTokens s p.1 p.2) ++ portTokens s key r tiles
  let rest := reloc :: r.tables ++ [[], data]
  let secAt := 64 + 16 * secs.length + (rest.map List.length).sum
  let tab := sectionTable secAt secs
  let body := secs.flatMap fun x => x.2.2
  byteList 4 0x4E524C46 ++ byteList 2 r.version ++ byteList 1 r.planes ++ byteList 1 r.imageLevel.toNat ++ byteList 1 r.width
    ++ byteList 1 r.height ++ byteList 2 secs.length ++ byteList 4 (2 + bit r.race)
    ++ (layTables 64 (tab :: rest)).flatMap (byteList 4) ++ byteList 4 (secAt + body.length) ++ byteList 4 r.strokeLen
    ++ byteList 8 0 ++ tab ++ rest.flatten ++ body ++ List.replicate 512 0

/-- IMGOUT.shadow: the image, and with it what of the region an image has no word for. -/
def saveShadow (s : State) (key : Nat) : State :=
  match s.region key with
  | none => s
  | some r => s.setRegion key { r with shadow := some {
      image := readOut s key r, kernel := r.kernel, plane := r.plane
      stores := r.stores.filter fun x => decide (r.stroke ≤ x.stroke)
      cores := r.sites.map fun t => (t, (s.tile t).elems.map fun p => (p.1, p.2.core)) } }

/-- Whether the shadow slot can restore the region: it holds an image of its shape. -/
def shadowFits (r : Region) : Bool :=
  match r.shadow with
  | none => false
  | some x => let h := headerOf x.image
    h.width == r.width && h.height == r.height

/-- The ports that a region's outputs lead to, emptied of its tokens. -/
def emptyPorts (s : State) (key : Nat) (r : Region) : State :=
  let s := (regionIslands s r).foldl (fun s en => s.modIsland en fun x => { x with fifo := notOf key x.fifo, rows := [] }) s
  { s with
    streamers := s.streamers.map fun p => (p.1, { p.2 with fifo := notOf key p.2.fifo })
    expanders := s.expanders.map fun p => (p.1, { p.2 with fifo := notOf key p.2.fifo })
    weirs := s.weirs.map fun p => (p.1, { p.2 with fifo := notOf key p.2.fifo }) }

/-- An element with the registers, flags and counters that were saved of it. -/
def Elem.putCore (cs : KMap ElemCore) (e : Nat) (y : Elem) : Elem :=
  match kfind cs e with
  | some c => { y with core := c, snap := c }
  | none => y

/-- IMGOUT.back: the region as it was read out, frozen.  The stores of its open strokes are those it had then. -/
def restoreShadow (s : State) (key : Nat) : State :=
  match s.region key with
  | none => s
  | some r => match r.shadow with
    | none => s
    | some x =>
      let stores := (r.stores.filter fun y => decide (y.stroke < r.stroke))
        ++ x.stores.map fun y => { y with stroke := r.stroke }
      let s := blankTiles (emptyPorts s key r) r
      let s := placeImage s key { r with boundary := [], stores := stores, strokeMark := false } (imageOf x.image)
      let s : State := { s with tiles := s.tiles.map fun p => match kfind x.cores p.1 with
        | some cs => (p.1, { p.2 with elems := p.2.elems.map fun q => (q.1, q.2.putCore cs q.1) })
        | none => p }
      freezeEngines (s.modRegion key fun r => { r with kernel := x.kernel, plane := x.plane, frozen := true }) r true

end Sys2Proof.Machine
end

