-- ==== Sys2Proof/Machine/KernelOps.lean ====
section
/-! DEFINITION. What moves a kernel through its states (spec/16_kernel.md R279 to R281, spec/12_pump_system.md R238,
R246): priming, launching, freezing and thawing, quiescence, the kernel digest (spec/28_determinism.md R377). -/

namespace Sys2Proof.Machine

/-! ### The kernel status word (R238) -/

def KState.code : KState → Nat
  | .loaded => 0
  | .resident => 1
  | .primed => 2
  | .firing => 3
  | .draining => 4
  | .retired => 5
  | .faulted => 6
  | .none => 7

def Region.status (r : Region) : Nat :=
  r.kernel.code + bit r.frozen * 2 ^ 3 + r.level.toNat * 2 ^ 4 + r.plane.toNat * 2 ^ 6 + r.fcode.toNat * 2 ^ 8 + bit r.derr * 2 ^ 16

/-- Whether the GEN of a handle is the current one of its region id (R232). -/
def handleCurrent (s : State) (h : Nat) : Bool :=
  h / 2 ^ 26 == 0 && bits h 10 16 == genOf s (regionKey (bits h 0 2) (bits h 2 8))

/-- The status word of a handle: GONE where it is not current; no kernel where its region has been freed (R279). -/
def kernelStatus (s : State) (handle : Nat) : Nat :=
  match (regionOfHandle s handle).bind s.region with
  | some r => r.status
  | none => if handleCurrent s handle then KState.code .none else 2 ^ 17

/-! ### Priming (R246, R281) -/

/-- The state runs of one section written again. -/
def reapplySection (s : State) (m : Image) (r : Region) (x : Section) : State :=
  let t := tileOfSection r x
  let ws := (x.wordsOf m.body).filter fun w => decide (0x800 ≤ w.addr)
  s.modTile t fun y => ws.foldl (fun y w => y.cfgWrite {} m.h.state w.addr w.val) y

/-- What a prime of a RESIDENT kernel clears: halted flags, CTURN units, loop counts, address generators (R281), and
the .srk sequence count of its last run (R28). -/
def clearRun (y : Elem) : Elem :=
  { y with core := { y.core with
      halted := false, turn := {}, loopI := 0, loops := [], cut := none, pos := 0, cnt := 0, seq := 0 } }

def emptyRing (r : Ring) : Ring := { r with free := r.slots, filled := 0, put := 0 }

def clearTileRun (x : Tile) : Tile :=
  { x with core := { x.core with rings := x.core.rings.map emptyRing }, elems := x.elems.map fun p => (p.1, clearRun p.2) }

/-- Whether every section of the image still has the CRC it was loaded with. -/
def sectionsMatch (m : Image) (r : Region) : Bool :=
  m.secs.all fun x => crc32c (x.bytes m.body) == kget r.crcs (tileOfSection r x) (2 ^ 32)

/-- A RESIDENT kernel's state runs applied again from the bytes of its image, then what a prime clears, ring counters
among it: none on a CRC mismatch. -/
def reapply (s : State) (r : Region) (b : List Byte) : Option State :=
  let m := imageOf b
  if sectionsMatch m r then some (modTiles (m.secs.foldl (fun s x => reapplySection s m r x) s) r clearTileRun) else none

/-- Plane k made current; the kernel becomes PRIMED 4 fc later. -/
def beginPrime (s : State) (key : Nat) (k : BitVec 2) (owed : Option Owed) : State :=
  match s.region key with
  | none => s
  | some r =>
    let s := modElems s r fun y => { y with plane := k }
    s.setRegion key { r with
      plane := k, priming := some (k, originRounds s r + 4), primeOwed := r.primeOwed ++ owed.toList }

/-- Whether a PRIME of plane k is allowed. -/
def canPrime (r : Region) (k : Nat) : Bool :=
  (r.kernel == .loaded || r.kernel == .resident || r.kernel == .primed) && decide (k < r.planes)

/-- The end of a prime: the kernel is PRIMED on plane k, the replies go. -/
def endPrime (s : State) (key : Nat) (k : BitVec 2) : State :=
  match s.region key with
  | none => s
  | some r =>
    let s := modElems s r fun y => { y with plane := k }
    let s := s.setRegion key { r with kernel := .primed, priming := none, primeOwed := [] }
    replyAll s r.primeOwed 0 0

/-- A prime whose 4 fc are over: a RESIDENT kernel re-applies its state runs before it is PRIMED (R281). -/
def finishPrime (s : State) (key waiter : Nat) : State :=
  match s.region key with
  | none => s
  | some r =>
    match r.priming with
    | none => s
    | some (k, due) =>
      if originRounds s r < due then s
      else if r.kernel != .resident then endPrime s key k
      else match unitRead s r.die r.ctx waiter r.imageVa r.imageLen with
      | (.wait, s) => s
      | (.fault c _, s) => kernelFault s key (regionErr s key c 0)
      | (.bytes b, s) => match reapply s r b with
        | some s => endPrime s key k
        | none => kernelFault s key (regionErr s key 8 0)

/-! ### Launching (R32, R238, R277, R369) -/

/-- The words of a counter block that a launch zeroes: counts, TRIP, power counters. -/
def zeroedWords : List Nat := [0x00, 0x08, 0x10, 0x18, 0x38, 0x48, 0x50, 0x58, 0x60, 0x68, 0x70, 0x78]

def zeroWords (s : State) (ps : List Page) (va : Nat) : State :=
  zeroedWords.foldl (fun s o => writePages s ps (va + o) (byteList 8 0) false) s

/-- The counter block of a launch is zeroed: done, or the fault of the access. -/
def zeroBlock (s : State) (die ctx va : Nat) : ReadOut × State :=
  match unitAccess s die ctx va 128 true with
  | (.fault c v, s) => (.fault c v, s)
  | (.wait, s) => (.wait, s)
  | (.pages ps, s) => (.bytes [], zeroWords s ps va)

def snapNow (y : Elem) : Elem := { y with snap := y.core, snapNext := none }
def snapTileNow (x : Tile) : Tile :=
  { x with snap := x.core, snapNext := none, undo := [], elems := x.elems.map fun p => (p.1, snapNow p.2) }

/-- What the record of a launch gives a kernel. -/
structure Launch where
  cntVa  : Nat
  parVa  : Nat
  keep   : Bool
  level  : BitVec 2
  record : Option (Nat × Nat)
  deriving DecidableEq, Repr

/-- The sources released: the kernel is FIRING, its first stroke opens. -/
def releaseKernel (s : State) (key : Nat) (l : Launch) : State :=
  match s.region key with
  | none => s
  | some r =>
    let get (off : Nat) := peek s r.die r.ctx (l.cntVa + off) 8
    let base : Counts := ⟨get 0, get 8, get 0x10, get 0x18⟩
    let s := modTiles s r fun x => { snapTileNow x with echg := 0, refused := false }
    let s := (regionIslands s r).foldl (fun s en => s.modIsland en fun x =>
      { x with snap := x.core, snapNext := none, stroke := r.stroke }) s
    let s := { s with nextId := s.nextId + 1 }
    let s := s.setRegion key { r with
      kernel := .firing, runId := s.nextId, cntVa := l.cntVa, parVa := l.parVa, keep := l.keep, level := l.level, record := l.record
      strokeStart := originRounds s r, strokeReq := false, derr := false, fcode := 0, ended := false, retire := none
      cnt0 := {}, cnt1 := {}, cntBase := base, watch := 0, power := {}, passedAt := [] }
    settleCtx s r.ctx

/-! ### Freeze and thaw (R246) -/

def thawRegion (s : State) (key : Nat) : State :=
  match s.region key with
  | none => s
  | some r =>
    let s := modElems s r fun y => { y with frozen := false }
    let s := freezeEngines s r false
    s.setRegion key { r with frozen := false, freezeReq := false, freezeMark := false }

/-- Whether an engine has stopped taking commands. -/
def engFrozen (s : State) (en : Nat) : Bool :=
  let n := en % 64
  if n < 16 then (s.island en).frozen
  else if n < 24 then (s.streamer en).frozen
  else if n < 48 then (s.expander en).frozen
  else (s.weir en).frozen

/-- Whether a freeze wave has passed every element, and every engine of the region has stopped taking commands. -/
def freezePassed (s : State) (r : Region) : Bool :=
  ((regionElems s r).all fun p => (s.elem p.1 p.2).frozen) && (regionIslands s r ++ regionEngines s r).all (engFrozen s)

/-! ### Quiescence (R280) -/

def elemEmpty (y : Elem) : Bool :=
  y.chans.all (fun c => c.2.count == 0) && y.inject.isEmpty && !y.anyPending

def elemEnabled (s : State) (t e : Nat) : Bool :=
  (List.range 16).any fun i => enabledAt s t e (s.elem t e).plane.toNat i == .yes

def commandsOf (key : Nat) (q : List Cmd) : Bool := q.any fun c => c.region == key

/-- Commands of a region that still stand in an engine's FIFO or queue. -/
def commandsQueued (s : State) (key : Nat) : Bool :=
  s.islands.any (fun p => commandsOf key p.2.fifo || commandsOf key p.2.core.queue)
    || s.streamers.any (fun p => commandsOf key p.2.fifo || commandsOf key p.2.queue)
    || s.expanders.any (fun p => commandsOf key p.2.fifo || commandsOf key p.2.queue)
    || s.weirs.any fun p => commandsOf key p.2.fifo || commandsOf key p.2.queue

/-- Commands of a region at work. -/
def commandsAtWork (s : State) (key : Nat) : Bool :=
  s.islands.any (fun p => p.2.core.load.any (·.region == key) || p.2.core.run.any (·.region == key)
      || p.2.core.drain.any (·.region == key) || p.2.core.group.any (·.region == key))
    || s.streamers.any (fun p => p.2.job.any (·.region == key))
    || s.expanders.any (fun p => p.2.job.any (·.region == key))
    || s.weirs.any fun p => p.2.job.any (·.region == key)

def quiescent (s : State) (key : Nat) (r : Region) : Bool :=
  let es := regionElems s r
  es.any (fun p => (s.elem p.1 p.2).core.halted) && es.all (fun p => elemEmpty (s.elem p.1 p.2) && !elemEnabled s p.1 p.2)
    && r.boundary.all (fun p => p.2.isEmpty) && !commandsQueued s key

/-- What retirement waits for after its stroke has closed: buffers drained, commands completed (R280). -/
def retireReady (s : State) (key : Nat) (r : Region) : Bool :=
  match r.retire with
  | none => false
  | some n => (r.ended || decide (n < r.stroke)) && r.stores.isEmpty && !commandsQueued s key && !commandsAtWork s key

/-! ### The kernel digest (R377) -/

/-- Whether a node is a rule over the cistern. -/
def nodeIsCistern (s : State) (n : Node) : Bool :=
  match decodeElem (slotWord (s.elem n.tile n.elem) n.plane n.slot) with
  | .ok i => (memoryRule i).any Prod.fst
  | .error _ => false

/-- A declared range of memory that is written: an undeclared rule's range is wider than a declaration can be. -/
def isOutput (s : State) (n : Node) : Bool := n.access.testBit 1 && decide (n.size < 2 ^ 64) && !nodeIsCistern s n

/-- A range put into a list of ranges that rise and do not meet. -/
def addRange : List (Nat × Nat) → Nat → Nat → List (Nat × Nat)
  | [], b, n => [(b, n)]
  | (a, m) :: l, b, n =>
    if b + n < a then (b, n) :: (a, m) :: l
    else if a + m < b then (a, m) :: addRange l b n
    else addRange l (min a b) (max (a + m) (b + n) - min a b)

def outputRanges (s : State) (r : Region) : List (Nat × Nat) :=
  (r.nodes.filter (isOutput s)).foldl (fun l n => addRange l n.base n.size) []

/-- A range cut at page bounds, `fuel` pieces at most. -/
def pagePieces : Nat → Nat → Nat → List (Nat × Nat)
  | 0, _, _ => []
  | fuel + 1, va, n =>
    let here := 2 ^ 16 - va % 2 ^ 16
    if n = 0 then [] else if n ≤ here then [(va, n)] else (va, here) :: pagePieces fuel (va + here) (n - here)

/-- The bytes of one piece, from this module or another: free values where it cannot be read (log entry 24). -/
def digestPiece (s : State) (r : Region) (waiter : Nat) (p : Nat × Nat) : ReadOut × State :=
  let free (s : State) : ReadOut × State :=
    let (n, s) := drawNat s
    (.bytes (byteList p.2 n), s)
  match unitAccess s r.die r.ctx p.1 p.2 false with
  | (.wait, s) => (.wait, s)
  | (.fault _ _, s) => free s
  | (.pages ps, s) => match readSpansAny waiter p.1 (readSpans ps (ps.length + 1) p.1 p.2) s with
    | (.fault _ _, s) => free s
    | x => x

/-- The bytes of some pieces, joined once all of them have come. -/
def digestPieces (r : Region) (waiter : Nat) : List (Nat × Nat) → State → ReadOut × State
  | [], s => (.bytes [], s)
  | p :: ps, s =>
    let (a, s) := digestPiece s r waiter p
    let (b, s) := digestPieces r waiter ps s
    (a.join b, s)

/-- The kernel digest, once every byte of the output ranges has been read (R307, R377). -/
def kernelDigest (s : State) (r : Region) (waiter : Nat) : ReadOut × State :=
  match digestPieces r waiter ((outputRanges s r).flatMap fun p => pagePieces (p.2 / 2 ^ 16 + 2) p.1 p.2) s with
  | (.bytes bs, s) => (.bytes (sha512t256 bs), { s with remotes := s.remotes.filter fun q => q.waiter != waiter })
  | x => x

end Sys2Proof.Machine
end

