-- ==== Sys2Proof/Machine/QueueOps.lean ====
section
/-! DEFINITION. Queues and task records: spec/15_queue.md R269 to R276, R399, spec/28_determinism.md R378: slots, the
fields of a record and what makes it malformed, the queue engine's own accesses, the hash chain, completion. -/

namespace Sys2Proof.Machine

/-! ### The fields of a record (R272) -/

abbrev Rec := List Byte

def Rec.type (b : Rec) : Nat := bits (field b 0 1) 0 4
def Rec.prio (b : Rec) : Nat := bits (field b 1 1) 0 2
def Rec.depth (b : Rec) : Nat := bits (field b 1 1) 2 3
def Rec.level (b : Rec) : Nat := bits (field b 1 1) 5 2
def Rec.keep (b : Rec) : Bool := bits (field b 1 1) 7 1 == 1
def Rec.stages (b : Rec) : Nat := field b 2 2
def Rec.shape (b : Rec) : Nat := field b 4 4
def Rec.p0 (b : Rec) : Nat := field b 0x08 8
def Rec.p1 (b : Rec) : Nat := field b 0x10 8
def Rec.p2 (b : Rec) : Nat := field b 0x18 8
def Rec.wait0 (b : Rec) : Nat := field b 0x20 8
def Rec.wait1 (b : Rec) : Nat := field b 0x28 8
def Rec.sig (b : Rec) : Nat := field b 0x30 8
def Rec.wv0 (b : Rec) : Nat := field b 0x38 4
def Rec.wv1 (b : Rec) : Nat := field b 0x3C 4

/-- Whether a record's fields keep R272 and R273, at a current level of its queue; its image is not looked at. -/
def recordOk (level : Nat) (b : Rec) : Bool :=
  let t := Rec.type b
  let words := b.length == 64 && bits (field b 0 1) 4 4 == 0 && decide (t < 7) && Rec.wait0 b % 4 == 0 && Rec.wait1 b % 4 == 0 && Rec.sig b % 4 == 0
  let plain := Rec.stages b == 0 && Rec.shape b == 0 && !Rec.keep b
  let noLevel := Rec.level b == 0
  let p (x y z : Bool) : Bool := (x || Rec.p0 b == 0) && (y || Rec.p1 b == 0) && (z || Rec.p2 b == 0)
  words && (match t with
    | 0 => decide (1 ≤ Rec.stages b) && decide (Rec.stages b ≤ 64) && bits (Rec.shape b) 29 3 == 0 && Rec.p2 b % 64 == 0
        && decide (Rec.level b < 3) && decide (level ≤ Rec.level b) && (Rec.level b == 0 || bits (Rec.shape b) 28 1 == 0)
    | 1 | 2 => plain && noLevel && p false false false
    | 3 => plain && p false false false && decide (Rec.level b < 3) && decide (level ≤ Rec.level b)
    | 4 => plain && noLevel && p true true false && Rec.p0 b % 64 == 0 && decide (Rec.p1 b < 256)
    | 5 => plain && noLevel && decide (1 ≤ Rec.p2 b) && decide (Rec.p2 b ≤ 2 ^ 32)
    | _ => plain && noLevel && p true true false && Rec.p0 b % 32 == 0 && Rec.p1 b % 8 == 0)

/-- The types that wait for every earlier record (R274). -/
def Rec.waitsForAll (b : Rec) : Bool := Rec.type b != 0 && Rec.type b != 5

/-! ### Slots (R271) -/

def Queue.size (u : Queue) : Nat := 2 ^ u.log2n.toNat
def Queue.slotVa (u : Queue) (i : Nat) : Nat := (u.qbase.toNat + 64 * (i % u.size)) % 2 ^ 64
def Queue.sharedFree (u : Queue) : Nat := u.size - 8 - u.kinds.countP fun k => k.isNone

/-- The kind of slot an enqueued record of a depth takes; none where neither is free. -/
def Queue.slotFor (u : Queue) (depth : Nat) : Option (Option (BitVec 3)) :=
  if 0 < u.sharedFree then some none
  else if u.resuse.getLsbD depth then none else some (some (BitVec.ofNat 3 depth))

/-- A record at the tail, in a slot of a kind. -/
def Queue.push (u : Queue) (k : Option (BitVec 3)) : Queue :=
  { u with
    tail := u.tail + 1, kinds := u.kinds ++ [k]
    resuse := match k with
      | some d => u.resuse ||| BitVec.ofNat 8 (2 ^ d.toNat)
      | none => u.resuse }

/-- The head record leaves the ring: HEAD advances and its slot is free. -/
def Queue.pop (u : Queue) : Queue :=
  { u with
    head := u.head + 1, kinds := u.kinds.tail
    resuse := match u.kinds.head? with
      | some (some d) => u.resuse &&& ~~~(BitVec.ofNat 8 (2 ^ d.toNat))
      | _ => u.resuse }

/-- Records that SKIP has completed leave the ring as they come to its head. -/
def Queue.dropSkipped : Nat → Queue → Queue
  | 0, u => u
  | n + 1, u =>
    if u.skips.contains u.head.toNat then
      Queue.dropSkipped n { u.pop with skips := u.skips.filter (· != u.head.toNat) }
    else u

/-- The first records of the ring leave it. -/
def Queue.popN : Nat → Queue → Queue
  | 0, u => u
  | n + 1, u => Queue.popN n u.pop

/-- A record and the members of its group leave the ring, or the retried records, as it starts (R274). -/
def Queue.leave (u : Queue) (st : Started) : Queue :=
  match u.retry with
  | x :: xs =>
    if x.index = st.index ∧ !x.unstarted then { u with retry := xs }
    else Queue.popN (1 + st.group.length) { u with retry := u.retry.filter fun y => y.index != st.index }
  | [] => Queue.popN (1 + st.group.length) u

/-- Records in the ring that have been copied into it whole. -/
def Queue.present (u : Queue) : Nat := (u.tail - u.head).toNat - u.pulling

/-! ### The queue engine's own accesses (R399) -/

def queueWaiter (q : Nat) : Nat := 2 ^ 42 + q

/-- A translation through the small TLB of the queue engine of the queue's home die (R313). -/
def qAccess (s : State) (q : Nat) (va : Int) (len : Nat) (wr : Bool) : Access × State :=
  let u := s.queue q
  let die := u.hdie.toNat
  let (a, tlb, s) := translateAccess s die u.ctx.toNat smallTlb (kget s.qtlb die []) va len { write := wr }
  (a, { s with qtlb := kput s.qtlb die tlb })

def qRead (s : State) (q : Nat) (va : Nat) (len : Nat) : ReadOut × State :=
  match qAccess s q va len false with
  | (.fault c v, s) => (.fault c v, s)
  | (.wait, s) => (.wait, s)
  | (.pages ps, s) => readAny s (queueWaiter q) ps va len

def qWrite (s : State) (q : Nat) (va : Nat) (data : List Byte) : ReadOut × State :=
  match qAccess s q va data.length true with
  | (.fault c v, s) => (.fault c v, s)
  | (.wait, s) => (.wait, s)
  | (.pages ps, s) => writeAny s ps va data false

/-- Whether the queue waits for service of a fault. -/
def queueHeld (s : State) (q : Nat) : Bool :=
  (kget s.rings (s.queue q).hdie.toNat {}).stopped.contains (5, q)

/-- An error of the queue engine itself. -/
def queueErr (s : State) (q code : Nat) : ErrInfo := ⟨code, 5, (s.queue q).hdie.toNat, 0, 0⟩

/-- A fault of the queue engine's own access: serviced, or the queue halts with its code. -/
def queueFault (s : State) (q : Nat) (st : Started) (code va : Nat) (wr : Bool) : State :=
  let u := s.queue q
  if code = 1 ∨ code = 2 then raisePageFault s u.hdie.toNat ⟨5, q, u.ctx.toNat, va, wr, code⟩
  else failRecord s q st (queueErr s q code)

/-- The record of the ring that an access of the engine was about, where it has not started: none past the tail. -/
def Queue.notStarted (u : Queue) (idx : Nat) : Option Started :=
  if u.head.toNat ≤ idx ∧ idx < u.tail.toNat then some { index := idx, record := [], level := u.level, unstarted := true }
  else none

/-- A queue halted by an access that belongs to no started record. -/
def haltQueue (s : State) (q idx code : Nat) : State :=
  let u := s.queue q
  let c := u.ctx.toNat
  let s := writeErr s (queueErr s q code) 1 (if (s.ctx c).mode.getLsbD 1 then 3 else 2) c q idx
  if u.state = .halted then s
  else
    let s := s.setQueue q { u with
      state := .halted, ecode := BitVec.ofNat 8 code, lasterr := BitVec.ofNat 64 idx, failedRec := u.notStarted idx }
    let s := sendMsix s c
    if (s.ctx c).mode.getLsbD 1 then raiseCtxFault s c code else s

/-- The fault of such an access: serviced, or the queue halts. -/
def engineFault (s : State) (q idx code va : Nat) (wr : Bool) : State :=
  let u := s.queue q
  if code = 1 ∨ code = 2 then raisePageFault s u.hdie.toNat ⟨5, q, u.ctx.toNat, va, wr, code⟩ else haltQueue s q idx code

/-! ### ENQ (R235) -/

/-- What an enqueue comes to. -/
inductive EnqOut where
  | done (s : State)
  | full
  | wait (s : State)
  | fault (s : State) (code va : Nat)

/-- A record copied into the ring at the tail, through a shared slot or the reserved one of its depth. -/
def enqRecord (s : State) (q : Nat) (b : Rec) : EnqOut :=
  let u := s.queue q
  match u.slotFor (Rec.depth b) with
  | none => .full
  | some k => match qWrite s q (u.slotVa u.tail.toNat) b with
    | (.bytes _, s) => .done (s.modQueue q fun u => u.push k)
    | (.wait, s) => .wait s
    | (.fault c v, s) => .fault s c v

/-! ### The chain (R378) -/

/-- An entry appended: index, image hash, level byte, digest. -/
def Queue.append (u : Queue) (index : Nat) (image : List Byte) (lv : Nat) (d : List Byte) : Queue :=
  let kid := byteList 8 index ++ (if image.isEmpty then List.replicate 16 0 else image.take 16)
  let dg := if d.isEmpty then List.replicate 32 0 else d
  { u with chainN := u.chainN + 1, chain := sha512t256 (u.chain ++ kid ++ byteList 1 lv ++ dg) }

/-! ### Started records -/

def modStarted (s : State) (q idx : Nat) (f : Started → Started) : State :=
  s.modQueue q fun u => { u with started := u.started.map fun x => if x.index = idx then f x else x }

def startedAt (s : State) (q idx : Nat) : Option Started := (s.queue q).started.find? fun x => x.index == idx

/-- Whether every record of the queue before an index has completed. -/
def earlierDone (u : Queue) (idx : Nat) : Bool :=
  u.started.all (fun x => decide (idx ≤ x.index)) && u.retry.all (fun x => decide (idx ≤ x.index))
    && u.failedRec.all fun x => decide (idx ≤ x.index)

/-- A queue that is being disabled is OFF once nothing of it is started (R270). -/
def settleQueue (s : State) (q : Nat) : State :=
  let u := s.queue q
  if u.disabling && u.started.isEmpty then
    s.setQueue q { u with
      state := .off, disabling := false, kinds := [], resuse := 0, head := u.tail, pulling := 0, retry := [], failedRec := none
      refused := none, skips := [] }
  else s

/-- The end of a record: it leaves the started ones; an attempt that was a second one is recorded (R388). -/
def finishRecord (s : State) (q : Nat) (st : Started) : State :=
  let s := s.modQueue q fun u => { u with started := u.started.filter fun x => x.index != st.index }
  let s := match st.attempt, st.err with
    | 2, some x => writeErr s x 2 0 (s.queue q).ctx.toNat q st.index
    | _, _ => s
  settleQueue s q

/-- One added to SIG (R275). -/
def signal (s : State) (q : Nat) (b : Rec) : ReadOut × State :=
  if Rec.sig b = 0 then (.bytes [], s)
  else match qRead s q (Rec.sig b) 4 with
    | (.bytes w, s) => qWrite s q (Rec.sig b) (byteList 4 ((natOf w + 1) % 2 ^ 32))
    | x => x

/-! ### Tail writes (R237, R270, R271, R339) -/

/-- A record read from host memory: whether the host's read completes with an error, which counts as 0x06, is a free
value (R399, log entry 102). -/
def hostRecord (s : State) (pa : Nat) : ReadOut × State :=
  let (n, s) := drawNat s
  (if n % 2 = 1 then .fault 6 pa else .bytes (s.host.reads pa 64), s)

/-- Records copied from the producer ring into the ring, in index order, until an access must wait.  Records of a host
come from host memory; records of another module from the virtual address of PBASE (log entry 34). -/
def pullRecords (q : Nat) : Nat → State → State
  | 0, s => s
  | n + 1, s =>
    let u := s.queue q
    if u.pulling = 0 ∨ queueHeld s q then s
    else
      let i := u.tail.toNat - u.pulling
      let at_ := (u.pbase.toNat + 64 * (i % u.size)) % 2 ^ 64
      let got : ReadOut × State := if u.psrc = 1 then hostRecord s at_ else qRead s q at_ 64
      match got with
      | (.wait, s) => s
      | (.fault c v, s) => engineFault s q i c v false
      | (.bytes b, s) => match qWrite s q (u.slotVa i) b with
        | (.wait, s) => s
        | (.fault c v, s) => engineFault s q i c v true
        | (.bytes _, s) =>
          pullRecords q n (s.modQueue q fun u => { u with pulling := u.pulling - 1 })

/-- A tail write from a source: ignored and counted, or the records up to the new tail are to be copied. -/
def tailWrite (s : State) (src : TailSource) (q tail : Nat) : State :=
  let u := s.queue q
  let named := match src with
    | .host => u.psrc == 1
    | .module m => u.psrc == 2 && u.pmod.toNat == m
  let n := tail - u.tail.toNat
  if u.state == .off || !named || decide (tail ≤ u.tail.toNat) || decide (u.sharedFree < n) then
    s.setQueue q { u with errcnt := if u.errcnt = BitVec.allOnes 16 then u.errcnt else u.errcnt + 1 }
  else
    let s := s.setQueue q { u with
      tail := BitVec.ofNat 64 tail, kinds := u.kinds ++ List.replicate n none, pulling := u.pulling + n }
    pullRecords q (u.pulling + n) s

/-! ### Commands (R270) -/

/-- Whether every configuration field is valid. -/
def Queue.valid (s : State) (u : Queue) : Bool :=
  decide (4 ≤ u.log2n.toNat) && decide (u.log2n.toNat ≤ 16) && u.psrc != 3 && u.qbase.toNat % (64 * u.size) == 0
    && (s.ctx u.ctx.toNat).state != .free

/-- The least LEVEL of a record: the queue's current level, never below the LEVEL its context has now (R267, R273). -/
def Queue.floor (s : State) (u : Queue) : Nat := max u.level.toNat (s.ctx u.ctx.toNat).level.toNat

def enableQueue (s : State) (q : Nat) : State :=
  let u := s.queue q
  if u.state != .off then s
  else if u.valid s then
    s.setQueue q { u with
      state := .active, head := 0, tail := 0, resuse := 0, kinds := [], level := (s.ctx u.ctx.toNat).level
      chainN := 0, chain := List.replicate 32 0, pulling := 0, disabling := false, refused := none, skips := [] }
  else s.setQueue q { u with ecode := 0x80 }

def disableQueue (s : State) (q : Nat) : State :=
  let u := s.queue q
  if u.state = .off then s else settleQueue (s.setQueue q { u with disabling := true }) q

/-- Whether the queue engine itself re-issues the failed record (R332, R388). -/
def reissues (s : State) (q : Nat) (st : Started) : Bool :=
  st.attempt == 1 && !(s.ctx (s.queue q).ctx.toNat).mode.getLsbD 1 && st.failed.any fun c => retried c.toNat

/-- A record that is to start again: as the second attempt of the same failure, or anew. -/
def Started.again (st : Started) (second : Bool) : Started :=
  { st with
    failed := none, done := false, region := none, step := 0, pos := 0, digest := [], derr := false
    attempt := if second then 2 else 1, err := if second then st.err else none }

/-- The regions whose kernel failed for a queue, freed before a re-issue. -/
def freeFailed (s : State) (q : Nat) : State :=
  (s.regions.filter fun p => p.2.kernel == .faulted && p.2.record.any fun x => x.1 == q).foldl
    (fun s p => releaseRegion s p.1) s

/-- A record put among the retried ones in index order (R274). -/
def putRetry (x : Started) : List Started → List Started
  | [] => [x]
  | y :: ys => if x.index < y.index then x :: y :: ys else y :: putRetry x ys

/-- Whether a record is still to be copied into the ring. -/
def Queue.toPull (u : Queue) (f : Started) : Bool := decide (u.tail.toNat - u.pulling ≤ f.index)

/-- RETRY (R270, R388): every failed record of the queue starts again, ahead of every later one; one that is still to be
copied into the ring is copied again (R399). -/
def retryQueue (s : State) (q : Nat) : State :=
  let u := s.queue q
  match u.state, u.failedRec with
  | .halted, some f =>
    let second := reissues s q f
    let s := if second then freeFailed s q else s
    let u := s.queue q
    let failed := (if u.toPull f then [] else [f]) ++ u.started.filter fun x => x.failed.isSome
    settleQueue (s.setQueue q { u with
      state := .active, failedRec := none, started := u.started.filter fun x => x.failed.isNone
      retry := (failed.map fun x => x.again (second && x.attempt == 1)).foldl (fun l x => putRetry x l) u.retry }) q
  | .halted, none => s.setQueue q { u with state := .active }
  | _, _ => s

/-- SKIP (R270): the failed record completes without signalling. -/
def skipQueue (s : State) (q : Nat) : State :=
  let u := s.queue q
  match u.state, u.failedRec with
  | .halted, some f =>
    let u : Queue := if !f.unstarted then u
      else if u.toPull f then { u with pulling := u.pulling - 1, skips := f.index :: u.skips }
      else if f.index = u.head.toNat then u.pop
      else { u with skips := f.index :: u.skips }
    let rest := (u.started.filter fun x => x.failed.isSome).map fun x => x.again false
    settleQueue (s.setQueue q { u with
      state := .active, failedRec := none, retry := rest.foldl (fun l x => putRetry x l) u.retry
      started := u.started.filter fun x => x.failed.isNone }) q
  | .halted, none => s.setQueue q { u with state := .active }
  | _, _ => s

/-- QCMD (R269). -/
def queueCommand (s : State) (q cmd : Nat) : State :=
  match cmd with
  | 1 => enableQueue s q
  | 2 => disableQueue s q
  | 3 => retryQueue s q
  | 4 => skipQueue s q
  | _ => s

/-! ### Configuration registers (R269) -/

/-- STATE, RESUSE, ERRCNT, ECODE. -/
def Queue.statusWord (u : Queue) : Nat :=
  (match u.state with
    | .off => 0
    | .active => 1
    | .bound => 2
    | .halted => 3) + u.resuse.toNat * 2 ^ 3 + u.errcnt.toNat * 2 ^ 16 + u.ecode.toNat * 2 ^ 32

def Queue.configWord (u : Queue) : Nat :=
  u.log2n.toNat + u.ctx.toNat * 2 ^ 5 + u.hdie.toNat * 2 ^ 11 + u.psrc.toNat * 2 ^ 13 + u.pmod.toNat * 2 ^ 15

/-- A register of a queue's block, by byte offset. -/
def Queue.reg (u : Queue) (o : Nat) : Nat :=
  match o with
  | 0x00 => u.qbase.toNat
  | 0x08 => u.configWord
  | 0x10 => u.pbase.toNat
  | 0x18 => u.head.toNat
  | 0x20 => u.tail.toNat
  | 0x28 => u.statusWord
  | 0x38 => u.lasterr.toNat
  | _ => 0

/-- Configuration fields written; only while the queue is OFF. -/
def Queue.setReg (u : Queue) (o v : Nat) : Queue :=
  if u.state != .off then u
  else match o with
  | 0x00 => { u with qbase := BitVec.ofNat 64 v }
  | 0x08 => { u with
      log2n := BitVec.ofNat 5 v, ctx := BitVec.ofNat 6 (v / 2 ^ 5), hdie := BitVec.ofNat 2 (v / 2 ^ 11)
      psrc := BitVec.ofNat 2 (v / 2 ^ 13), pmod := BitVec.ofNat 6 (v / 2 ^ 15) }
  | 0x10 => { u with pbase := BitVec.ofNat 64 v }
  | _ => u

end Sys2Proof.Machine
end

