-- ==== Sys2Proof/Machine/Records.lean ====
section
/-! DEFINITION. How a task record goes down to its kernel, and a group of records to a group of kernels:
spec/15_queue.md R274 to R277, spec/18_group.md R294 to R298. -/

namespace Sys2Proof.Machine

/-! ### The launch of one record (R277) -/

/-- The read of an image for a queue. -/
def recordImage (s : State) (q : Nat) (b : Rec) : ReadOut × State :=
  let u := s.queue q
  readImage s u.hdie.toNat u.ctx.toNat (queueWaiter q) (Rec.p0 b)

/-- A live region that already holds the record's image and is in use by no record and no group (R12, R277, R281); at
levels 1 and 2 it stands where SHAPE says. -/
def heldRegion (s : State) (ctx : Nat) (b : Rec) (body : List Byte) : Option Nat :=
  let x := shapeOf (Rec.shape b)
  let key := regionKey x.die x.id
  match s.region key with
  | none => none
  | some r =>
    let there := r.col == x.col && r.row == x.row && r.width == x.width && r.height == x.height
    if r.ctx == ctx && (r.kernel == .resident || r.kernel == .primed) && r.imageVa == Rec.p0 b && r.imageHash == sha512 body
        && r.group.isNone && r.record.isNone && (Rec.level b == 0 || there) then
      some key
    else none

/-- A record and the region for its kernel (step 1 of R277). -/
structure Member where
  rcd   : Rec
  key   : Nat
  /-- the region holds the image already -/
  held  : Bool
  img   : List Byte
  deriving DecidableEq, Repr

/-- What finding a region for a record comes to: the region, malformed, or no place on a die. -/
inductive Found where
  | at (m : Member) (s : State)
  | malformed
  | noPlace (die : Nat)

/-- Step 1 of R277 over the bytes of the image. -/
def findRegion (s : State) (ctx : Nat) (b : Rec) (img : List Byte) : Found :=
  let m := imageOf img
  if m.h.level < Rec.level b then .malformed
  else match heldRegion s ctx b m.body with
  | some key => .at ⟨b, key, true, img⟩ s
  | none => match allocRegion s ctx (Rec.shape b) with
    | .error _ => .noPlace (shapeOf (Rec.shape b)).die
    | .ok (key, s) => .at ⟨b, key, false, img⟩ s

/-- Step 2 of R277: steps 1 to 7 of the loader, then the writing and its check (R282), unless the region holds the
image. -/
def loadMember (s : State) (m : Member) : Checked Image × State :=
  if m.held then (.ok (imageOf m.img), s)
  else match s.region m.key with
  | none => (.error ⟨1, 0x0A, none, none⟩, s)
  | some r => match checkImage s m.key r (Rec.level m.rcd) (r.ctx == 0) m.img with
    | .error x => (.error x, s)
    | .ok im => match verifyImage s im with
      | (some x, s) => (.error x, s)
      | (none, s) => (.ok im, writeImage s m.key r im (Rec.level m.rcd) (Rec.p0 m.rcd))

/-- A member given back: a region allocated for it is freed, one that held its image stays. -/
def giveBack (s : State) (m : Member) : State :=
  if m.held then s.modRegion m.key fun r => { r with group := none, stage := 0 } else releaseRegion s m.key

/-- A head refused a place is tried again after the next REGION.free on the die (R277). -/
def refusePlace (s : State) (q idx die : Nat) : State := s.modQueue q fun u => { u with refused := some (idx, die) }

/-- What a launch takes from its record. -/
def launchOf (q idx : Nat) (b : Rec) : Launch :=
  ⟨Rec.p2 b, Rec.p1 b, Rec.keep b, BitVec.ofNat 2 (Rec.level b), some (q, idx)⟩

/-- A placed kernel goes on: a state image comes up as it was read out, frozen (R290); any other is primed. -/
def primeRecord (s : State) (q idx key : Nat) (b : Rec) (m : Image) : State × Nat :=
  let s := s.modRegion key fun r => { r with record := some (q, idx), keep := Rec.keep b }
  if m.h.state && (s.region key).any (fun r => r.kernel == .loaded) then (releaseKernel s key (launchOf q idx b), 2)
  else if (s.region key).any (fun r => r.kernel == .primed && r.plane == 0 && r.priming.isNone) then (s, 1)
  else (beginPrime s key 0 none, 1)

/-- Step 4 of R277, once the kernel is PRIMED. -/
def launchRecord (s : State) (key : Nat) : State :=
  match s.region key with
  | none => s
  | some r =>
    match recordOf s r with
    | none => s
    | some (q, st) =>
      if r.kernel != .primed || r.priming.isSome || r.group.isSome || st.step != 1 || queueHeld s q then s
      else match zeroBlock s r.die r.ctx (Rec.p2 st.record) with
      | (.wait, s) => s
      | (.fault c v, s) => if c = 1 ∨ c = 2 then queueFault s q st c v true else kernelFault s key (queueErr s q c)
      | (.bytes _, s) => modStarted (releaseKernel s key (launchOf q st.index st.record)) q st.index fun x => { x with step := 2 }

/-! ### The start of a record -/

/-- The next record of a queue: of the retried ones, or the head of the ring. -/
def nextStarted (u : Queue) : Option Started :=
  match u.retry with
  | x :: _ => some x
  | [] => if 0 < u.present then some { index := u.head.toNat, record := [], level := u.level } else none

/-- A record taken as started: it leaves the ring or the retried ones. -/
def takeStarted (s : State) (q : Nat) (st : Started) : State :=
  s.modQueue q fun u =>
    let u := u.leave st
    { u with started := u.started ++ [{ st with unstarted := false }] }

/-- A record that fails as it starts. -/
def failHead (s : State) (q : Nat) (st : Started) (x : ErrInfo) : State :=
  failRecord (takeStarted s q st) q { st with unstarted := false } x

/-- A head that is malformed or whose own access faults: the queue halts at it, and it stays in the ring, so that a
RETRY reads it there again (R269, R270, R273). -/
def haltAtHead (s : State) (q : Nat) (st : Started) (x : ErrInfo) : State :=
  let fresh := (s.queue q).retry.all fun y => y.index != st.index || y.unstarted
  let s := s.modQueue q fun u => { u with retry := u.retry.filter fun y => y.index != st.index }
  failRecord s q (if fresh then { st with record := [], group := [], unstarted := true } else st) x

/-- What a head comes to when it is looked at. -/
inductive HeadState where
  | none
  | fault (st : Started) (code va : Nat)
  | malformed (st : Started)
  | waiting
  | ready (st : Started)
  deriving DecidableEq, Repr

/-- One wait of a head: the address, the value, and what follows when it holds. -/
def headWait (s : State) (q : Nat) (st : Started) (va wv : Nat) (k : State → HeadState × State) : HeadState × State :=
  if va = 0 then k s
  else match qRead s q va 4 with
    | (.wait, s) => (.waiting, s)
    | (.fault c v, s) => (.fault st c v, s)
    | (.bytes w, s) => if waitHolds (natOf w) wv then k s else (.waiting, s)

/-! #### Groups (R295) -/

/-- The group word and whether its block keeps R295. -/
def groupWordOk (b : List Byte) : Bool :=
  let w := field b 0 8
  bits w 30 34 == 0 && bits w 23 1 == 0 && bits w 6 10 == 0 && (b.drop 8).all (· == 0)

def groupStage (w : Nat) : Nat := bits w 0 6
def groupMembers (w : Nat) : Nat := bits w 16 7
def groupStep (w : Nat) : Option Nat := if bits w 24 1 = 1 then some (bits w 25 5) else none

/-- The records and group words of the members after the head. -/
def readMembers (q : Nat) : Nat → Nat → State → (Option (List Rec) × Option (Nat × Nat)) × State
  | 0, _, s => ((some [], none), s)
  | n + 1, i, s =>
    match qRead s q ((s.queue q).slotVa i) 64 with
    | (.wait, s) => ((none, none), s)
    | (.fault c v, s) => ((none, some (c, v)), s)
    | (.bytes b, s) =>
      match readMembers q n (i + 1) s with
      | ((some l, f), s) => ((some (b :: l), f), s)
      | x => x

/-- The group words of records. -/
def readGroupWords (q : Nat) : List Rec → State → (Option (List (List Byte)) × Option (Nat × Nat)) × State
  | [], s => ((some [], none), s)
  | b :: bs, s =>
    match qRead s q (Rec.p1 b) 64 with
    | (.wait, s) => ((none, none), s)
    | (.fault c v, s) => ((none, some (c, v)), s)
    | (.bytes w, s) =>
      match readGroupWords q bs s with
      | ((some l, f), s) => ((some (w :: l), f), s)
      | x => x

/-- The members of a group are well formed, and every stage below S has one. -/
def groupOk (level : Nat) (recs : List Rec) (words : List (List Byte)) : Bool :=
  let S := Rec.stages (recs.headD [])
  let w0 := field (words.headD []) 0 8
  let n := groupMembers w0
  let stages := words.map fun w => groupStage (field w 0 8)
  decide (2 ≤ n) && decide (n ≤ 64) && recs.length == n && recs.all (fun b => recordOk level b && Rec.type b == 0 && Rec.stages b == S)
    && words.all groupWordOk && stages.all (fun k => decide (k < S)) && (List.range S).all fun k => stages.contains k

/-- A head of a group: its members are collected. -/
def groupHead (s : State) (q : Nat) (st : Started) : HeadState × State :=
  let u := s.queue q
  let judge (recs : List Rec) (s : State) : HeadState × State :=
    match readGroupWords q recs s with
    | ((some ws, _), s) =>
      (if groupOk (u.floor s) recs ws then .ready { st with group := recs.tail } else .malformed st, s)
    | ((none, some (c, v)), s) => (.fault st c v, s)
    | ((none, none), s) => (.waiting, s)
  if st.group != [] then judge (st.record :: st.group) s
  else match qRead s q (Rec.p1 st.record) 64 with
  | (.wait, s) => (.waiting, s)
  | (.fault c v, s) => (.fault st c v, s)
  | (.bytes w, s) =>
    let n := groupMembers (field w 0 8)
    if !groupWordOk w || decide (n < 2) || decide (64 < n) then (.malformed st, s)
    else if u.present < n then (if 0 < u.pulling then .waiting else .malformed st, s)
    else match readMembers q (n - 1) (st.index + 1) s with
      | ((some l, _), s) => judge (st.record :: l) s
      | ((none, some (c, v)), s) => (.fault st c v, s)
      | ((none, none), s) => (.waiting, s)

/-- Whether the LEVEL of a LAUNCH record's image is below the record's (R273): none while its header must be waited for.
A header that cannot be read is left to the loader. -/
def imageLow (s : State) (q : Nat) (b : Rec) : Option Bool × State :=
  if Rec.type b ≠ 0 ∨ Rec.level b = 0 then (some false, s)
  else match qRead s q (Rec.p0 b) 64 with
  | (.wait, s) => (none, s)
  | (.fault _ _, s) => (some false, s)
  | (.bytes h, s) => (some (decide ((headerOf h).level < Rec.level b)), s)

/-- The head of a queue judged (R273, R274). -/
def judgeHead (s : State) (q : Nat) (st : Started) : HeadState × State :=
  let u := s.queue q
  let b := st.record
  if !recordOk (u.floor s) b then (.malformed st, s)
  else match imageLow s q b with
  | (none, s) => (.waiting, s)
  | (some true, s) => (.malformed st, s)
  | (some false, s) => headWait s q st (Rec.wait0 b) (Rec.wv0 b) fun s => headWait s q st (Rec.wait1 b) (Rec.wv1 b) fun s =>
    if Rec.waitsForAll b && !earlierDone { u with retry := u.retry.tail } st.index then (.waiting, s)
    else if Rec.type b = 0 ∧ 2 ≤ Rec.stages b then groupHead s q st
    else (.ready st, s)

/-- Whether a queue is bound to a core, whose records the engine never takes (R236). -/
def boundToCore (s : State) (q : Nat) : Bool := s.cores.any fun p => boundQueue p.2 == some q

/-- Whether the context unit is freezing a context, or serves another long command of it (R263, R265). -/
def ctxServed (s : State) (c : Nat) : Bool := s.ctxq.any fun j => j.1 == c && j.2.2

/-- The head of a queue read and judged.  The engine looks at none of a queue that is not ACTIVE, whose context is not
READY or RUNNING or is being frozen, or whose head waits for a REGION.free. -/
def headOf (s : State) (q : Nat) : HeadState × State :=
  let u := s.queue q
  let st := (s.ctx u.ctx.toNat).state
  if u.state != .active || boundToCore s q || queueHeld s q || u.disabling || !(st == .ready || st == .running)
      || ctxServed s u.ctx.toNat then (.none, s)
  else match nextStarted u with
  | none => (.none, s)
  | some x =>
    if u.refused.any fun r => r.1 == x.index then (.none, s)
    else if x.record != [] then judgeHead s q x
    else match qRead s q (u.slotVa x.index) 64 with
      | (.wait, s) => (.waiting, s)
      | (.fault c v, s) => (.fault x c v, s)
      | (.bytes b, s) => judgeHead s q { x with record := b }

/-! #### Starting -/

/-- A LAUNCH record of one stage. -/
def startLaunch (s : State) (q : Nat) (st : Started) : State :=
  match recordImage s q st.record with
  | (.wait, s) => s
  | (.fault c v, s) => if c = 1 ∨ c = 2 then queueFault s q st c v false else failHead s q st (queueErr s q c)
  | (.bytes img, s) =>
    let ctx := (s.queue q).ctx.toNat
    match findRegion s ctx st.record img with
    | .noPlace die => refusePlace s q st.index die
    | .malformed => haltAtHead s q st (queueErr s q 0x80)
    | .at m s => match loadMember s m with
      | (.error x, s) =>
        failHead (writeRefusal (giveBack s m) (s.queue q).hdie.toNat ctx (Rec.p2 st.record) x) q st (queueErr s q 0x81)
      | (.ok im, s) =>
        let (s, n) := primeRecord s q st.index m.key st.record im
        takeStarted s q { st with region := some m.key, step := n }

/-- What finding the regions of a group comes to. -/
inductive GroupFound where
  | at (ms : List Member) (s : State)
  | wait
  | fault (code va : Nat)
  | malformed
  | noPlace (die : Nat)

/-- Every member's region found, one after another; `done` are the members so far. -/
def findMembers (q gid : Nat) : List (Rec × List Byte) → List Member → State → GroupFound
  | [], done, s => .at done s
  | (b, w) :: rest, done, s =>
    match recordImage s q b with
    | (.wait, _) => .wait
    | (.fault c v, _) => .fault c v
    | (.bytes img, s) =>
      match findRegion s (s.queue q).ctx.toNat b img with
      | .noPlace die => .noPlace die
      | .malformed => .malformed
      | .at m s =>
        let s := s.modRegion m.key fun r => { r with group := some gid, stage := BitVec.ofNat 6 (groupStage (field w 0 8)) }
        findMembers q gid rest (done ++ [m]) s

/-- The members' images laid over their regions, to be looked at together. -/
def layMembers (s : State) (ms : List Member) : State :=
  ms.foldl (fun s m => if m.held then s else match s.region m.key with
    | some r => laidOver s m.key r (imageOf m.img)
    | none => s) s

/-- Every member loaded, one after another; the first refusal with the counter block of its record. -/
def loadMembers : List Member → State → Except (Nat × Refuse) (List (Nat × Image)) × State
  | [], s => (.ok [], s)
  | m :: ms, s => match loadMember s m with
    | (.error x, s) => (.error (Rec.p2 m.rcd, x), s)
    | (.ok im, s) => match loadMembers ms s with
      | (.ok l, s) => (.ok ((m.key, im) :: l), s)
      | e => e

/-- The boundary ports that the outputs of a region lead to. -/
def boundaryOuts (s : State) (r : Region) : List Nat :=
  (regionElems s r).flatMap fun p => (s.elem p.1 p.2).outputs.filterMap fun c =>
    match targetOf p.1 ((s.elem p.1 p.2).outBind c) with
    | .boundary n => some n
    | _ => none

/-- The input ends of a boundary port within a group: member and target. -/
def boundaryIns (s : State) (ms : List (Nat × Image)) (n : Nat) : List (Nat × Image × Inbound) :=
  ms.flatMap fun p => match s.region p.1 with
    | none => []
    | some r => (r.inbound.filter fun b => b.src == 0x500 + n).map fun b => (p.1, p.2, b)

/-- R296: one input end for each port, producers at lower stages, several of them only before an exact consumer. -/
def boundariesOk (s : State) (ms : List (Nat × Image)) : Bool :=
  ms.all fun p => match s.region p.1 with
    | none => true
    | some r => (r.inbound.all fun b => b.src / 256 != 5 || (boundaryIns s ms (b.src % 256)).length == 1)
      && (boundaryOuts s r).all fun n =>
      match boundaryIns s ms n with
      | [(k, m, b)] => match s.region k with
        | none => false
        | some c =>
          let producers := ms.flatMap fun x => match s.region x.1 with
            | some y => (boundaryOuts s y).filter (· == n)
            | none => []
          decide (r.stage.toNat < c.stage.toNat)
            && (decide (producers.length ≤ 1) || mergeOk s m c (slotsOf m c) b.tile b.elem b.chan)
      | _ => false

/-- Every member primed and its record started. -/
def primeMembers (q : Nat) : Nat → List (Rec × Nat × Image) → State → State
  | _, [], s => s
  | i, (b, key, m) :: rest, s =>
    let (s, n) := primeRecord s q i key b m
    let st : Started := { index := i, record := b, level := (s.queue q).level, region := some key, step := n }
    primeMembers q (i + 1) rest (s.modQueue q fun u => { u with started := u.started ++ [st] })

/-- The refusal of a group before its head's step 7: one of the head's own steps 1 to 6, or its boundary ports (R296). -/
def headRefusal (s : State) (ms : List Member) : Option Refuse :=
  let own := match ms.head? with
    | none => none
    | some m => match s.region m.key with
      | none => none
      | some r => if m.held then none else match checkImage s m.key r (Rec.level m.rcd) (r.ctx == 0) m.img with
        | .error x => if x.step ≤ 6 then some x else none
        | .ok _ => none
  own <|> (if boundariesOk (layMembers s ms) (ms.map fun m => (m.key, imageOf m.img)) then none else some ⟨6, 0x02, none, none⟩)

/-- A LAUNCH record that heads a group. -/
def startGroup (s : State) (q : Nat) (st : Started) : State :=
  let recs := st.record :: st.group
  let ctx := (s.queue q).ctx.toNat
  let gid := s.nextId
  match readGroupWords q recs s with
  | ((some ws, _), s1) =>
    match findMembers q gid (recs.zip ws) [] { s1 with nextId := gid + 1 } with
    | .noPlace die => refusePlace s1 q st.index die
    | .wait => s1
    | .fault c v => if c = 1 ∨ c = 2 then queueFault s1 q st c v false else failHead s1 q st (queueErr s1 q c)
    | .malformed => haltAtHead s1 q st (queueErr s1 q 0x80)
    | .at ms s =>
      let refuse (s : State) (cnt : Nat) (x : Refuse) : State :=
        let s := ms.foldl giveBack s
        failHead (writeRefusal s (s.queue q).hdie.toNat ctx cnt x) q st (queueErr s q 0x81)
      match headRefusal s ms with
      | some x => refuse s (Rec.p2 st.record) x
      | none => match loadMembers ms s with
        | (.error (cnt, x), s) => refuse s cnt x
        | (.ok l, s) =>
          let s := s.modQueue q fun u => u.leave st
          let s := primeMembers q st.index (recs.zip l) s
          let s := modStarted s q st.index fun x => { x with group := st.group, attempt := st.attempt, err := st.err }
          let g : Group :=
            { queue := q, head := st.index, members := l.map Prod.fst, step := groupStep (field (ws.headD []) 0 8) }
          { s with groups := kput s.groups gid g }
  | (_, s1) => s1

/-! ### Triggers as BIND takes them (R240, R278) -/

/-- A binding descriptor that keeps R240. -/
def triggerOk (d : List Byte) : Bool :=
  let w := field d 0 8
  bits w 0 2 != 3 && bits w 2 6 == 0 && bits w 14 50 == 0 && field d 0x20 8 / 2 ^ 10 == 0 && (d.drop 0x28).all (· == 0)

/-- The physical address a binding watches. -/
def watchedPa (s : State) (die ctx va : Nat) : Nat :=
  match peekPages s die ctx (va / 4 * 4) 4 false with
  | some ps => localPa (paIn ps (va / 4 * 4))
  | none => 2 ^ 52

/-- Whether the queue and the well that a descriptor names belong to a context (R240). -/
def triggerMine (s : State) (ctx : Nat) (d : List Byte) : Bool :=
  (s.queue (field d 0x20 2)).ctx.toNat == ctx && (field d 0 1 % 4 != 1 || (s.well (field d 1 1)).ctx == ctx)

/-- Whether the condition of a KIND 1 or 2 binding that has not fired holds (R278). -/
def Trigger.holds (s : State) (t : Trigger) : Bool :=
  t.bound && !t.spent && (match t.kind.toNat with
    | 1 => decide (t.val.toNat ≤ (s.well t.well.toNat).head)
    | 2 => t.counterHolds s.mem
    | _ => false)

def Trigger.look (s : State) (t : Trigger) : Trigger := if t.holds s then t.fireOnce else t

/-- A binding takes a descriptor; what was pending passes to the new handler, and a condition that holds already fires
(R278). -/
def bindTrigger (s : State) (die ctx k : Nat) (d : List Byte) : State :=
  let t := kget s.triggers (ctx * 256 + k) {}
  let va := field d 8 8
  let t : Trigger := { t with
    kind := BitVec.ofNat 2 (field d 0 1), well := BitVec.ofNat 6 (field d 1 1), wva := BitVec.ofNat 64 va
    val := BitVec.ofNat 64 (field d 0x10 8), recva := BitVec.ofNat 64 (field d 0x18 8), queue := BitVec.ofNat 10 (field d 0x20 2)
    bound := true, handler := true, spent := false, wpa := watchedPa s die ctx va }
  { s with triggers := kput s.triggers (ctx * 256 + k) (t.look s) }

/-- A handler removed: triggers that arrive are latched (R240). -/
def unbindTrigger (s : State) (ctx k : Nat) : State :=
  { s with triggers := kmod s.triggers (ctx * 256 + k) fun t => { t with handler := false } }

/-! ### RECORD_START (R274) -/

/-- A record starts: a LAUNCH goes to its kernel, any other is started and does its work as it completes; a LEVEL
record sets the queue's level (R276). -/
def startRecord (s : State) (q : Nat) (st : Started) : State :=
  if Rec.type st.record = 0 then
    if st.group = [] ∧ Rec.stages st.record < 2 then startLaunch s q st else startGroup s q st
  else if Rec.type st.record = 4 then
    match qRead s q (Rec.p0 st.record) 64 with
    | (.wait, s) => s
    | (.fault c v, s) => if c = 1 ∨ c = 2 then queueFault s q st c v false else failHead s q st (queueErr s q c)
    | (.bytes d, s) =>
      let u := s.queue q
      if triggerOk d && triggerMine s u.ctx.toNat d then
        takeStarted (bindTrigger s u.hdie.toNat u.ctx.toNat (Rec.p1 st.record) d) q { st with done := true }
      else failHead s q st (queueErr s q 2)
  else
    let s := takeStarted s q { st with done := Rec.type st.record != 5 && Rec.type st.record != 6 }
    if Rec.type st.record = 3 then s.modQueue q fun u => { u with level := BitVec.ofNat 2 (Rec.level st.record) } else s

/-- The heads of the queues of a die, judged one after another. -/
def judgeHeads : List Nat → State → List (Nat × HeadState) × State
  | [], s => ([], s)
  | q :: qs, s =>
    let (h, s) := headOf s q
    let (l, s) := judgeHeads qs s
    ((q, h) :: l, s)

/-- Queues from a rotating pointer upward. -/
def fromPointer (p : Nat) (qs : List Nat) : List Nat := qs.filter (fun q => decide (p ≤ q)) ++ qs.filter fun q => decide (q < p)

def readyOf : Nat × HeadState → Option (Nat × Started)
  | (q, .ready st) => some (q, st)
  | _ => none

/-- Startable heads by PRIO, those of one PRIO in their order. -/
def byPrio (l : List (Nat × Started)) : List (Nat × Started) :=
  (List.range 4).flatMap fun p => l.filter fun x => Rec.prio x.2.record == p

/-- The first of the heads that can start; one whose region has no place, or whose image must be waited for, stays. -/
def startFirst (die : Nat) : List (Nat × Started) → State → State
  | [], s => s
  | (q, st) :: rest, s =>
    let s' := startRecord s q st
    if nextStarted (s'.queue q) == nextStarted (s.queue q) then startFirst die rest s'
    else { s' with qptr := kput s'.qptr die ((q + 1) % 1024) }

/-- RECORD_START (R273 to R277): copies that wait go on; a head whose access faults or that is malformed is dealt with
first; else the best startable head starts. -/
def execRecordStart (die : Nat) (s : State) : Result :=
  let mine := (s.queues.filter fun p => p.2.hdie.toNat == die).map Prod.fst
  let s := mine.foldl (fun s q => (pullRecords q (s.queue q).pulling s).modQueue q fun u => u.dropSkipped u.skips.length) s
  let (hs, s) := judgeHeads (fromPointer (kget s.qptr die 0) mine) s
  match hs.find? fun h => match h.2 with
      | .fault _ _ _ | .malformed _ => true
      | _ => false with
  | some (q, .fault st c v) =>
    .next (if c = 1 ∨ c = 2 then queueFault s q st c v false else haltAtHead s q st (queueErr s q c))
  | some (q, .malformed st) => .next (haltAtHead s q st (queueErr s q 0x80))
  | _ =>
    .next (startFirst die (byPrio (hs.filterMap readyOf)) s)

end Sys2Proof.Machine
end

