-- ==== Sys2Proof/Machine/KernelEvents.lean ====
section
/-! DEFINITION. The steps of region controllers and of the queue engine over kernels and groups: spec/16_kernel.md R279 to
R281, R291, spec/12_pump_system.md R246, spec/18_group.md R294, R298, spec/30_errors.md R389. -/

namespace Sys2Proof.Machine

/-! ### Groups (R294, R298) -/

def allMembers (s : State) (g : Group) (f : Region → Bool) : Bool := g.members.all fun k => (s.region k).all f

/-- Every member record of a group that is done completes; its regions are freed, or stay RESIDENT. -/
def endGroup (s : State) (gid : Nat) (g : Group) : State :=
  let s := g.members.foldl (fun s k => match s.region k with
    | none => s
    | some r =>
      let s := match r.record with
        | some (q, i) => modStarted s q i fun x => { x with done := true }
        | none => s
      if r.kernel = .retired then releaseRegion s k else s.setRegion k { r with group := none, stage := 0, record := none }) s
  { s with groups := kdel s.groups gid }

/-- The state of a group as its members stand. -/
def settleGroup (s : State) (gid : Nat) : State :=
  match kfind s.groups gid with
  | none => s
  | some g =>
    let left := allMembers s g fun r => r.kernel != .firing
    let ended := allMembers s g fun r => r.kernel == .retired || r.kernel == .resident
    if g.state = .forming then s
    else if ended then endGroup s gid g
    else if left && (g.state == .running || g.state == .stepping) then
      { s with groups := kput s.groups gid { g with state := .draining } }
    else s

/-- The counter blocks of the members zeroed, one after another. -/
def zeroBlocks : List (Region × Nat) → State → ReadOut × State
  | [], s => (.bytes [], s)
  | (r, cnt) :: rest, s => match zeroBlock s r.die r.ctx cnt with
    | (.bytes _, s) => zeroBlocks rest s
    | x => x

/-- The step barrier of a stepped group, set at launch (R298). -/
def setStepBarrier (s : State) (ctx b : Nat) (members : List Region) : State :=
  let die := (members.head?.map Region.die).getD 0
  let scope := if members.all fun r => r.die == die then 3 else 4
  let k := ctx * 32 + b
  { s with barriers := kput s.barriers k { count := members.length, scope := scope, inbox := (kget s.barriers k {}).inbox } }

/-- GROUP_LAUNCH (R294, R298): every member of a forming group is PRIMED, and all are launched in one step. -/
def execGroupLaunch (gid : Nat) (s : State) : Result :=
  match kfind s.groups gid with
  | none => .next s
  | some g =>
    let ms := g.members.filterMap fun k => (s.region k).map fun r => (k, r)
    let recs := ms.filterMap fun m => (recordOf s m.2).map fun x => (m.1, m.2, x.2)
    if g.state != .forming || queueHeld s g.queue || recs.length != g.members.length
        || !recs.all (fun m => m.2.1.kernel == .primed && m.2.1.priming.isNone) then .next s
    else match zeroBlocks (recs.map fun m => (m.2.1, Rec.p2 m.2.2.record)) s with
    | (.wait, s) => .next s
    | (.fault c v, s) =>
      match recs.head? with
      | some m => .next (if c = 1 ∨ c = 2 then queueFault s g.queue m.2.2 c v true else kernelFault s m.1 (queueErr s g.queue c))
      | none => .next s
    | (.bytes _, s) =>
      let s := recs.foldl (fun s m =>
        modStarted (releaseKernel s m.1 (launchOf g.queue m.2.2.index m.2.2.record)) g.queue m.2.2.index fun x => { x with step := 2 }) s
      let s := match g.step with
        | some b => setStepBarrier s (s.queue g.queue).ctx.toNat b (ms.map Prod.snd)
        | none => s
      .next { s with groups := kput s.groups gid { g with state := .running } }

/-! ### Priming, freezing (R246) -/

def regionWaiter (key : Nat) : Nat := 2 ^ 43 + key

/-- PRIME_COMPLETE (R246, R277, R281): the kernel is PRIMED; a record's kernel is then launched. -/
def execPrimeComplete (r : Nat) (s : State) : Result := .next (launchRecord (finishPrime s r (regionWaiter r)) r)

/-! ### Configuration reload (R291) -/

/-- The configuration address word of R242. -/
def cfgAddr (t a : Nat) : Nat := a + colOf t * 2 ^ 16 + rowOf t * 2 ^ 21 + dieOf t * 2 ^ 25

def configErr (s : State) (key code t a : Nat) : ErrInfo := ⟨code, 7, key / 256, regionHandle s key, cfgAddr t a⟩

/-- Whether a word is one that a reload rewrites: a slot, a binding, an owner descriptor, a ring descriptor. -/
def reloadable (a : Nat) : Bool :=
  match cfgPlace a with
  | .slot _ _ | .bind _ _ => true
  | .elemState _ o => o == 0x5C
  | .tileState o => decide (0x18 ≤ o) && decide (o < 0x20)
  | .reserved => false

/-- A word rewritten from its image; a ring descriptor keeps its counters. -/
def reloadWord (x : Tile) (w : CfgWord) : Tile :=
  match cfgPlace w.addr with
  | .slot _ _ | .bind _ _ | .elemState _ 0x5C => x.cfgWrite {} false w.addr w.val
  | .tileState o =>
    if 0x18 ≤ o ∧ o < 0x20 then
      let n := fin 8 (o - 0x18)
      let q := ringOfWord w.val
      let old := x.core.rings[n]
      { x with core := { x.core with rings := x.core.rings.set n { old with ssize := q.ssize, slots := q.slots, base := q.base } } }
    else x
  | _ => x

/-- One tile reloaded from the bytes of the image: none on a CRC mismatch.  A tile without a section holds zeros. -/
def reloadTile (s : State) (m : Image) (r : Region) (t : Nat) : Option State :=
  match m.secs.zipIdx.find? fun p => tileOfSection r p.1 == t with
  | none => some (s.modTile t fun x => { x with badEcc := [] })
  | some p =>
    if crc32c (p.1.bytes m.body) != kget r.crcs t (2 ^ 32) then none
    else
      let ws := (p.1.wordsOf m.body).map (relocate s m t p.2)
      some (s.modTile t fun x => { ws.foldl reloadWord x with badEcc := [] })

/-- The reload of a frozen region: the tiles, the region signature, the thaw. -/
def reloadRegion (s : State) (key : Nat) : State :=
  match s.region key with
  | none => s
  | some r =>
    match r.reloads with
    | [] => s
    | t :: rest =>
      if !r.frozen then s
      else match unitRead s r.die r.ctx (regionWaiter key) r.imageVa r.imageLen with
      | (.wait, s) => s
      | (.fault c _, s) => kernelFault s key (configErr s key c t 0)
      | (.bytes b, s) =>
        let m := imageOf b
        match (t :: rest).foldl (fun (o : Option State) t => o.bind fun s => reloadTile s m r t) (some s) with
        | none => kernelFault s key (configErr s key 8 t 0)
        | some s =>
          if regionSignature s r != r.signature then kernelFault s key (configErr s key 8 t 0)
          else
            let s := s.modRegion key fun r => { r with reloads := [] }
            if r.reloadFreeze then thawRegion (s.modRegion key fun r => { r with reloadFreeze := false }) key else s

/-- FREEZE_WAVE_COMPLETE (R246, R291): a requested FREEZE mark is injected; once it has passed every element and every
engine of the region has stopped, the region is frozen and the replies go.  A region stopped for page-fault service
fires nothing and holds no token: it is frozen at once, and so is the region of a kernel that has ended meanwhile.  A
DRAINING kernel retires first. -/
def execFreezeWaveComplete (k : Nat) (s : State) : Result :=
  match s.region k with
  | none => .next s
  | some r =>
    if r.freezeReq && !r.freezeMark && r.kernel == .firing && !r.stopped then
      .next ((injectMark s r 2).modRegion k fun r => { r with freezeMark := true })
    else if (r.freezeMark && freezePassed s r) || (r.freezeReq && r.stopped) then
      let s := s.setRegion k { r with frozen := true, freezeReq := false, freezeMark := false, freezeOwed := [] }
      .next (reloadRegion (replyAll s r.freezeOwed 0 0) k)
    else if (r.freezeReq || r.freezeMark) && r.kernel != .firing && r.kernel != .draining then
      let s := s.setRegion k { r with frozen := true, freezeReq := false, freezeMark := false, freezeOwed := [] }
      .next (replyAll s r.freezeOwed 0 0)
    else .next s

/-- CONFIG_ECC_ERROR (R291): an uncorrectable word is found. -/
def execConfigEccError (t caddr : Nat) (s : State) : Result :=
  if cfgPlace caddr = .reserved ∨ !present s t then .next s
  else
    let s := s.modTile t fun x => { x with badEcc := (caddr :: x.badEcc.filter (· != caddr)) }
    match regionOf s t with
    | none => .next s
    | some key =>
      match s.region key with
      | none => .next s
      | some r =>
        if r.kernel == .none || r.kernel == .retired || r.kernel == .faulted then .next s
        else if (s.ctx r.ctx).mode.getLsbD 2 then .next (raiseCtxFault s r.ctx 9)
        else if !reloadable caddr then .next (kernelFault s key (configErr s key 9 t caddr))
        else
          let mine := (!r.frozen && !r.freezeReq) || r.reloadFreeze
          let s := freezeRegion s key
          let s := s.modRegion key fun r => { r with reloads := (t :: r.reloads.filter (· != t)), reloadFreeze := mine }
          .next (reloadRegion s key)

/-- CONFIG_SCRUB (R291, R384): every word of a tile is read; single-bit errors are corrected as they are read, and a
reload that had to wait for memory goes on. -/
def execConfigScrub (t : Nat) (s : State) : Result :=
  match regionOf s t with
  | some key => .next (reloadRegion s key)
  | none => .next s

/-! ### Quiescence and retirement (R280) -/

/-- KERNEL_QUIESCENCE: a stroke end is requested, and the kernel is DRAINING. -/
def execKernelQuiescence (k : Nat) (s : State) : Result :=
  match s.region k with
  | none => .next s
  | some r =>
    if r.kernel == .firing && !r.frozen && !r.freezeMark && !r.stopped && !r.ended && quiescent s k r then
      let s := s.setRegion k { r with
        kernel := .draining, strokeReq := true, retire := some (r.stroke + bit r.strokeMark) }
      .next (match r.group with
        | some g => settleGroup s g
        | none => s)
    else .next s

/-- What its record learns of a kernel that has retired. -/
def noteRetired (s : State) (r : Region) (digest : List Byte) : State :=
  match r.record with
  | none => s
  | some (q, i) => modStarted s q i fun x => { x with
      digest := digest, derr := r.derr, image := r.imageHash, done := r.group.isNone }

/-- KERNEL_RETIRE (R246, R277, R279, R280, R377): every count goes into the block, the digest is formed, and the kernel
leaves DRAINING. -/
def execKernelRetire (k : Nat) (s : State) : Result :=
  match s.region k with
  | none => .next s
  | some r =>
    if r.kernel == .draining && retireReady s k r then
      let s := writePower (commitCounts (commitCounts s k) k) k
      match (if r.level = 2 then kernelDigest s r (regionWaiter k) else (.bytes [], s)) with
      | (.wait, s) | (.fault _ _, s) => .next s
      | (.bytes digest, s) =>
      let s := noteRetired s r digest
      let s := s.modRegion k fun r => { r with
        kernel := if r.keep then .resident else .retired, retire := none, ended := false
        frozen := r.frozen || r.freezeReq, freezeReq := false, freezeMark := false, freezeOwed := [], record := if r.keep && r.group.isNone then none else r.record }
      let s := replyAll s r.freezeOwed 0 0
      let s := match r.group with
        | some g => settleGroup s g
        | none => if r.record.isSome && !r.keep then releaseRegion s k else s
      .next (settleCtx s r.ctx)
    else .next s

/-! ### The watchdog (R389) -/

/-- Whether the region holds what the watchdog counts for: a token or mark, a pending write, a request, a stroke whose
ending mark is in flight (log entry 35). -/
def holdsWork (s : State) (r : Region) : Bool :=
  r.strokeMark || (regionElems s r).any fun p => !elemEmpty (s.elem p.1 p.2)

/-- Time passes for the watchdogs. -/
def countWatch (n : Nat) (s : State) (p : Nat × Region) : Nat × Region :=
  let r := p.2
  if r.kernel == .firing && !r.frozen && holdsWork s r then (p.1, { r with watch := r.watch + n }) else p

/-- WATCHDOG_EXPIRY. -/
def execWatchdogExpiry (k : Nat) (s : State) : Result :=
  match s.region k with
  | none => .next s
  | some r =>
    if s.errlog.wdt != 0 && decide (s.errlog.wdt.toNat ≤ r.watch) && r.kernel == .firing && !r.frozen && !quiescent s k r then
      .next (kernelFault s k (regionErr s k 0x0E 0))
    else .next s

end Sys2Proof.Machine
end

