-- ==== Sys2Proof/Machine/QueueEvents.lean ====
section
/-! DEFINITION. The steps of queues and triggers as rows of the opcode table: spec/15_queue.md R270, R271, R275, R276,
R278, R399, spec/28_determinism.md R378, R379. -/

namespace Sys2Proof.Machine

/-! ### The commands of R270 -/

def execQueueEnable (q : Nat) (s : State) : Result := .next (enableQueue s q)
def execQueueDisable (q : Nat) (s : State) : Result := .next (disableQueue s q)

/-- QUEUE_RETRY (R270, R332, R388): of the host, or of the queue engine itself in hardware mode. -/
def execQueueRetry (q : Nat) (s : State) : Result := .next (retryQueue s q)

def execQueueSkip (q : Nat) (s : State) : Result := .next (skipQueue s q)

/-- TAIL_WRITE (R237, R269, R271, R339). -/
def execTailWrite (src : TailSource) (q : Nat) (tail : W64) (s : State) : Result := .next (tailWrite s src q tail.toNat)

/-! ### RECORD_COMPLETE (R275, R276) -/

/-- The next 32 bytes of a COPY (R201, R202): a read ignores presence bits, a write sets them full. -/
def copyStep (s : State) (q : Nat) (st : Started) : State :=
  let u := s.queue q
  let b := st.record
  let n := min 32 (Rec.p2 b - st.pos)
  let src := (Rec.p0 b + st.pos : Int)
  let dst := (Rec.p1 b + st.pos : Int)
  match unitRead s u.hdie.toNat u.ctx.toNat (queueWaiter q) src n with
  | (.wait, s) => s
  | (.fault c v, s) => queueFault s q st c v false
  | (.bytes bs, s) => match unitWrite s u.hdie.toNat u.ctx.toNat dst bs true with
    | (.wait, s) => s
    | (.fault c v, s) => queueFault s q st c v true
    | (.bytes _, s) => modStarted s q st.index fun x => { x with pos := x.pos + n, done := decide (Rec.p2 b ≤ x.pos + n) }

/-- The pair (n, H(n)) written by a DIGEST record (R239, R379). -/
def digestStep (s : State) (q : Nat) (st : Started) : State :=
  let u := s.queue q
  match qWrite s q (Rec.p0 st.record) u.chain with
  | (.wait, s) => s
  | (.fault c v, s) => queueFault s q st c v true
  | (.bytes _, s) => match qWrite s q (Rec.p1 st.record) (byteList 8 u.chainN) with
    | (.wait, s) => s
    | (.fault c v, s) => queueFault s q st c v true
    | (.bytes _, s) => modStarted s q st.index fun x => { x with done := true }

/-- The chain entry of a record that completes. -/
def chainEntry (u : Queue) (st : Started) : Queue :=
  let b := st.record
  if Rec.type b = 0 ∧ Rec.level b = 2 then
    u.append st.index st.image (2 + bit st.derr * 2 ^ 7) st.digest
  else if Rec.type b = 3 then u.append st.index [] (Rec.level b + 2 ^ 6) []
  else u

/-- Whether a record of an index is still to complete. -/
def Queue.holdsIndex (u : Queue) (i : Nat) : Bool :=
  u.started.any (fun x => x.index == i) || u.retry.any (fun x => x.index == i) || u.failedRec.any fun x => x.index == i

/-- Whether a record may complete now (R275, R294): at level 1 or 2 in index order, else in any order, but for the
members of a group after its head, each of which follows the member before it. -/
def mayComplete (u : Queue) (st : Started) : Bool :=
  let launch := Rec.type st.record == 0
  if st.level == 0 && (!launch || Rec.level st.record == 0) then
    !launch || decide (Rec.stages st.record < 2) || st.group != [] || !u.holdsIndex (st.index - 1)
  else earlierDone u st.index

/-- RECORD_COMPLETE: a COPY or DIGEST does its work; a record that is done signals, enters the chain and is over. -/
def execRecordComplete (q idx : Nat) (s : State) : Result :=
  match startedAt s q idx with
  | none => .next s
  | some st =>
    if queueHeld s q || st.failed.isSome then .next s
    else if !st.done then
      .next (if Rec.type st.record = 5 then copyStep s q st else if Rec.type st.record = 6 then digestStep s q st else s)
    else if !mayComplete (s.queue q) st then .next s
    else match signal s q st.record with
    | (.wait, s) => .next s
    | (.fault c v, s) => .next (queueFault s q st c v true)
    | (.bytes _, s) => .next (finishRecord (s.modQueue q fun u => chainEntry u st) q st)

/-- QUEUE_ENGINE_FAULT (R399): the queue's next access of its own — a copy of a record, or a look at the head — faults. -/
def execQueueEngineFault (q : Nat) (s : State) : Result :=
  if queueHeld s q then .next s
  else
    let s := pullRecords q (s.queue q).pulling s
    match headOf s q with
    | (.fault st c v, s) =>
      .next (if c = 1 ∨ c = 2 then queueFault s q st c v false else haltAtHead s q st (queueErr s q c))
    | (_, s) => .next s

/-! ### Triggers (R278) -/

/-- A firing that finds no handler or no slot: counted, and dropped past the last count. -/
def Trigger.latch (t : Trigger) : Trigger :=
  if t.pending = 2 ^ 32 - 1 then { t with overflow := true } else { t with pending := t.pending + 1 }

def ctxWorks (s : State) (c : Nat) : Bool := (s.ctx c).state == .ready || (s.ctx c).state == .running

/-- What the delivery of one firing comes to: the record enqueued, no slot, or an access that waits. -/
inductive Delivery where
  | sent (s : State)
  | none
  | wait (s : State)

/-- A copy of the record at RECVA into the handler's queue (R235, R271, R278). -/
def deliverTrigger (s : State) (ctx : Nat) (t : Trigger) : Delivery :=
  let q := t.queue.toNat
  let u := s.queue q
  if !t.handler || !ctxWorks s ctx || u.psrc != 0 || u.state == .off then .none
  else match unitRead s u.hdie.toNat ctx (queueWaiter q) t.recva.toNat 64 with
  | (.wait, s) => .wait s
  | (.fault c v, s) => .wait (engineFault s q u.tail.toNat c v false)
  | (.bytes b, s) => match enqRecord s q b with
    | .done s => .sent s
    | .full => .none
    | .wait s => .wait s
    | .fault s c v => .wait (engineFault s q u.tail.toNat c v true)

def setTrigger (s : State) (bk : Nat) (t : Trigger) : State := { s with triggers := kput s.triggers bk t }

/-- A binding of KIND 0 or 2 looks again for the word its address leads to: a mapping made or changed since moves what
it watches, and a counter that is there now is looked at (R278). -/
def Trigger.rewatch (s : State) (bk : Nat) (t : Trigger) : Trigger :=
  if !t.bound || t.kind == 1 then t
  else
    let pa := watchedPa s (s.queue t.queue.toNat).hdie.toNat (bk / 256) t.wva.toNat
    if pa = t.wpa then t else ({ t with wpa := pa } : Trigger).look s

/-- Every binding after a step. -/
def rewatch (s : State) : State := { s with triggers := s.triggers.map fun p => (p.1, p.2.rewatch s p.1) }

/-- TRIGGER_FIRE (R278): a condition has occurred: a record is enqueued, or the firing is counted pending. -/
def execTriggerFire (bk : Nat) (s : State) : Result :=
  match kfind s.triggers bk with
  | none => .next s
  | some t =>
    if t.fired = 0 then .next s
    else
      let t' := { t with fired := t.fired - 1 }
      if 0 < t.pending then .next (setTrigger s bk t'.latch)
      else match deliverTrigger s (bk / 256) t with
      | .sent s => .next (setTrigger s bk t')
      | .none => .next (setTrigger s bk t'.latch)
      | .wait s => .next (setTrigger s bk t'.latch)

/-- TRIGGER_PENDING_DELIVERY (R278): a pending firing is delivered as soon as a slot is free. -/
def execTriggerPendingDelivery (bk : Nat) (s : State) : Result :=
  match kfind s.triggers bk with
  | none => .next s
  | some t =>
    if t.pending = 0 then .next s
    else match deliverTrigger s (bk / 256) t with
    | .sent s => .next (setTrigger s bk { t with pending := t.pending - 1 })
    | .none => .next s
    | .wait s => .next s

end Sys2Proof.Machine
end

