-- ==== Sys2Proof/Machine/PageOps.lean ====
section
/-! DEFINITION. Pages and shoot-downs: spec/20_page.md R307, R313 to R316, R318, spec/12_pump_system.md R256,
spec/30_errors.md R384, R385. -/

namespace Sys2Proof.Machine

/-! ### What a shoot-down removes (R314) -/

def Scope_.drop (w : Scope_) (tlb : List TlbEntry) : List TlbEntry := tlb.filter fun e => !w.hits e.ctx e.page

/-- Every micro-TLB, last-level TLB and engine TLB without the entries removed. -/
def dropSlices (s : State) (w : Scope_) : State :=
  let elems (m : KMap Elem) : KMap Elem := m.map fun q => (q.1, { q.2 with utlb := w.drop q.2.utlb })
  { s with
    tiles := s.tiles.map fun p => (p.1, { p.2 with elems := elems p.2.elems })
    ltlb := s.ltlb.map fun p => (p.1, w.drop p.2)
    qtlb := s.qtlb.map fun p => (p.1, w.drop p.2)
    islands := s.islands.map fun p => (p.1, { p.2 with tlb := w.drop p.2.tlb })
    streamers := s.streamers.map fun p => (p.1, { p.2 with tlb := w.drop p.2.tlb })
    expanders := s.expanders.map fun p => (p.1, { p.2 with tlb := w.drop p.2.tlb })
    weirs := s.weirs.map fun p => (p.1, { p.2 with tlb := w.drop p.2.tlb })
    servers := s.servers.map fun p => (p.1, { p.2 with tlb := w.drop p.2.tlb }) }

def dropCore (s : State) (w : Scope_) (c : Nat) : State := s.modCore c fun x => { x with tlb := w.drop x.tlb }

/-- A store of an open stroke, or an outstanding request, translated through a removed entry. -/
def heldBy (s : State) (w : Scope_) (r : Region) : Bool :=
  r.stores.any (fun x => decide (r.stroke ≤ x.stroke) && x.pages.any (w.hits r.ctx))
    || (regionElems s r).any fun p => (s.elem p.1 p.2).reqs.any fun q => q.pages.any (w.hits r.ctx)

/-- The void of the open strokes that hold such an item; a frozen region stays frozen. -/
def voidHeld (w : Scope_) (s : State) (p : Nat × Region) : State := if heldBy s w p.2 then voidRegion s p.1 true else s

/-- The stores of closed strokes that have not been performed. -/
def closingStores (s : State) : List Nat :=
  s.regions.flatMap fun p => (p.2.stores.filter fun x => decide (x.stroke < p.2.stroke)).map RStore.id

/-- Whether a core waits in a TLBI of its own. -/
def shootingCore (s : State) (c : Nat) : Bool := s.shoots.any fun h => h.kind == .tlbi && h.owed.any fun o => o.core == c

/-- Monitors on a page that a TLBI or MIGR covers fire (R222). -/
def Core.noteShoot (w : Scope_) (c : Core) : Core :=
  { c with mons := c.mons.map fun m => m.map fun x => if w.hits x.ctx x.page then { x with hit := true } else x }

/-- The contexts a shoot-down touches. -/
def Scope_.ctxs (s : State) : Scope_ → List Nat
  | .all => s.ctxs.map Prod.fst
  | .ctx c | .page c _ => [c]

/-- A context whose shoot-downs the host coordinates is FAULTED by one (R268). -/
def hostShoot (s : State) (w : Scope_) : State :=
  (w.ctxs s).foldl (fun s c => if (s.ctx c).mode.getLsbD 4 then raiseCtxFault s c 0 else s) s

/-- The stores a core has committed when it acknowledges, which still have to be performed where they were translated to. -/
def Shoot.noteQueued (s : State) (c : Nat) (h : Shoot) : Shoot :=
  match (s.core c).storeQ.length with
  | 0 => h
  | n + 1 => { h with queued := kput h.queued c (n + 1) }

/-- A shoot-down starts: slices and engines remove their entries, regions void what they hold, and so do the cores
that are between rounds; the others wait for the end of theirs. -/
def startShoot (s : State) (kind : ShootKind) (what : Scope_) (owed : Option Owed) : State :=
  let s := s.regions.foldl (voidHeld what) (dropSlices s what)
  let mine (c : Nat) : Bool := kind == .tlbi && owed.any fun o => o.core == c
  let busy := (s.cores.filter fun p => !p.2.lanes.isEmpty && !mine p.1 && !shootingCore s p.1).map Prod.fst
  let now := (s.cores.map Prod.fst).filter fun c => !busy.contains c
  let s := now.foldl (fun s c => dropCore s what c) s
  let s : State := if kind == .poison then s else { s with cores := s.cores.map fun p => (p.1, p.2.noteShoot what) }
  let h : Shoot := { id := s.nextId, kind := kind, what := what, owed := owed, cores := busy, stores := closingStores s }
  let h := now.foldl (fun h c => Shoot.noteQueued s c h) h
  hostShoot { s with nextId := s.nextId + 1, shoots := s.shoots ++ [h] } what

/-- A core at the end of its round acknowledges every shoot-down that waits for it. -/
def ackShoots (s : State) (c : Nat) : State :=
  let mine := s.shoots.filter fun h => h.cores.contains c
  let s := mine.foldl (fun s h => dropCore s h.what c) s
  { s with shoots := s.shoots.map fun h =>
      if h.cores.contains c then { Shoot.noteQueued s c h with cores := h.cores.filter (· != c) } else h }

/-- Entry i of a core's committed stores has been performed. -/
def Shoot.performed (c i : Nat) (h : Shoot) : Shoot :=
  match kget h.queued c 0 with
  | 0 => h
  | n + 1 => if n < i then h else { h with queued := if n = 0 then kdel h.queued c else kput h.queued c n }

/-- Whether everything has acknowledged. -/
def Shoot.done (s : State) (h : Shoot) : Bool :=
  h.cores.isEmpty && h.queued.isEmpty && h.stores.all fun i => s.regions.all fun p => p.2.stores.all fun x => x.id != i

/-- The epoch of each die advances. -/
def advanceEpochs (s : State) : State :=
  { s with epochs := (List.range 5).foldl (fun m d => kput m d (kget m d 0 + 1)) s.epochs }

/-- SHOOTDOWN_COMPLETE (R314): every acknowledgement is in, and the epochs advance (R256).  A TLBI lets its rule go
on, a migration copies. -/
def execShootdownComplete (id : Nat) (s : State) : Result :=
  match s.shoots.find? fun h => h.id == id with
  | none => .next s
  | some h =>
    if h.acked || !h.done s then .next s
    else
      let s := advanceEpochs s
      let gone := h.kind == .poison || h.kind == .into || (h.kind == .tlbi && h.owed.isNone)
      let rest := if gone then s.shoots.filter fun x => x.id != id
        else s.shoots.map fun x => if x.id = id then { x with acked := true } else x
      .next { s with shoots := rest }

/-! ### Leaves -/

/-- The leaf of a page, present or not: its address, its value and the size of its page as log2; a fault of the
tables above it. -/
def leafAt (s : State) (root va : Nat) : Except Nat (Nat × Nat × Nat) :=
  let e3 := entryAt s (root + 8 * bits va 46 11)
  if bits e3 0 2 = 3 then .error 2
  else match nextTable e3 with
  | .error c => .error c
  | .ok t2 =>
    let e2 := entryAt s (t2 + 8 * bits va 36 10)
    if bits e2 0 2 = 3 then .error 2
    else match nextTable e2 with
    | .error c => .error c
    | .ok t1 =>
      let a1 := t1 + 8 * bits va 26 10
      let e1 := entryAt s a1
      if bits e1 1 1 = 1 then .ok (a1, e1, 26)
      else match nextTable e1 with
      | .error c => .error c
      | .ok t0 => .ok (t0 + 8 * bits va 16 10, entryAt s (t0 + 8 * bits va 16 10), 16)

def writeLeaf (s : State) (pa v : Nat) : State := memStore s pa (byteList 8 v) none

/-- Bits of a leaf set or cleared: V is bit 0, POISON bit 8, MIG bit 9. -/
def withBit (leaf n : Nat) (b : Bool) : Nat := leaf - bits leaf n 1 * 2 ^ n + bit b * 2 ^ n

def leafFrame (leaf : Nat) : Nat := bits leaf 16 36 * 2 ^ 16
def withFrame (leaf frame : Nat) : Nat := leaf - leafFrame leaf + bits (frame / 2 ^ 16) 0 36 * 2 ^ 16

/-- The page of an address is marked POISON and shot down (R307, R318); an address with no present page has none. -/
def poisonPage (s : State) (c va : Nat) : State :=
  match leafAt s (s.ctx c).root.toNat va with
  | .error _ => s
  | .ok (pa, leaf, _) =>
    if bits leaf 0 1 = 0 ∨ bits leaf 8 1 = 1 ∨ bits leaf 9 1 = 1 then s
    else startShoot (writeLeaf s pa (withBit leaf 8 true)) .poison (.page c va) none

/-- PAGE_POISON (R318). -/
def execPagePoison (cx : Nat) (va : W64) (s : State) : Result := .next (poisonPage s cx va.toNat)

/-! ### Migration (R256, R307, R312) -/

/-- The deep tier holds 8 TiB. -/
def deepOk (a len : Nat) : Bool := a % 4096 == 0 && decide (a + len ≤ 2 ^ 43)

/-- Whether a frame can hold the page of a leaf. -/
def frameOk (leaf log2 frame : Nat) : Bool :=
  (placeOf frame).isMemory && frame % 2 ^ 16 == 0 && decide (frame < 2 ^ 52) && leafFormed (withFrame leaf frame) log2

/-- The failure of a migration's start as the code of its reply. -/
def migrFault (variant leaf log2 b c : Nat) : Option Nat :=
  match variant with
  | 2 => if bits leaf 0 1 = 1 ∨ !frameOk leaf log2 c ∨ !deepOk b (2 ^ log2) then some 2 else none
  | _ =>
    if bits leaf 0 1 = 0 then some 1
    else if bits leaf 8 1 = 1 then some 5
    else if bits leaf 10 1 = 1 then some 2
    else if variant = 1 then (if bits leaf 4 1 = 1 ∨ !deepOk b (2 ^ log2) then some 2 else none)
    else if !frameOk leaf log2 b then some 2 else none

/-- A MIGR commits: MIG is set and the shoot-down starts, or the reply carries the fault.  One that meets a page
already migrating is refused with 0x02. -/
def startMigr (s : State) (o : Owed) (ctx variant va b c : Nat) : State :=
  match rangeFault va 1 with
  | some (f, _) => replyTo s o f 0 0
  | none => match leafAt s (s.ctx ctx).root.toNat va with
    | .error f => replyTo s o f 0 0
    | .ok (pa, leaf, log2) =>
      if bits leaf 9 1 = 1 then replyTo s o 2 0 0
      else match migrFault variant leaf log2 b c with
      | some f => replyTo s o f 0 0
      | none =>
        let s := if variant = 2 then s else writeLeaf s pa (withBit leaf 9 true)
        match variant with
        | 0 => startShoot s (.move pa log2 (leafFrame leaf) b) (.page ctx va) (some o)
        | 1 => startShoot s (.out pa log2 (leafFrame leaf) b) (.page ctx va) (some o)
        | _ =>
          let m : MigrIn := { id := s.nextId, leafPa := pa, log2 := log2, deep := b, frame := c, owed := some o }
          startShoot { s with migrs := s.migrs ++ [m] } .into (.page ctx va) none

/-- Presence bits and the marks of R312 copied from frame to frame. -/
def copyMarks (s : State) (old new n : Nat) : State :=
  let old := localPa old
  let new := localPa new
  let words := (s.full.filter fun a => decide (old ≤ a) && decide (a < old + n)).map fun a => new + (a - old)
  let others := s.full.filter fun a => !(decide (new ≤ a) && decide (a < new + n))
  let seqs := (List.range (n / 2 ^ 16)).map fun i => (new / 2 ^ 16 + i, kfind s.dirty (old / 2 ^ 16 + i))
  let dirty := seqs.foldl (fun m p => match p.2 with
    | some q => kput m p.1 q
    | none => kdel m p.1) s.dirty
  { s with full := words.foldl fullSet others, dirty := dirty }

/-- The leaf as it stands, with its frame, V and MIG changed. -/
def endMigr (s : State) (pa : Nat) (frame : Option Nat) (v poison : Bool) : State :=
  let leaf := entryAt s pa
  let leaf := match frame with
    | some f => withFrame leaf f
    | none => leaf
  let leaf := withBit (withBit leaf 0 v) 9 false
  writeLeaf s pa (if poison then withBit leaf 8 true else leaf)

def owedReply (s : State) (o : Option Owed) (code : Nat) : State :=
  match o with
  | some o => replyTo s o code 0 0
  | none => s

/-- A migration into memory ends: the page is present, poisoned where the deep tier could not be read. -/
def endMigrIn (s : State) (m : MigrIn) (bad : Bool) : State :=
  let s := { s with migrs := s.migrs.filter fun x => x.id != m.id }
  let s := if bad then s else memStore s m.frame (s.deep.reads m.deep (2 ^ m.log2)) none
  owedReply (endMigr s m.leafPa (some m.frame) true bad) m.owed (if bad then 5 else 0)

/-- MIGR_COMPLETE (R307): the copy ends and the leaf is rewritten. -/
def execMigrComplete (id : Nat) (s : State) : Result :=
  match s.migrs.find? fun m => m.id == id with
  | some m => .next (if s.shoots.any (fun h => h.id == id) then s else endMigrIn s m false)
  | none => match s.shoots.find? fun h => h.id == id && h.acked with
    | none => .next s
    | some h =>
      let s := { s with shoots := s.shoots.filter fun x => x.id != id }
      match h.kind with
      | .move pa log2 old new =>
        let s := copyMarks (memStore s new (s.mem.reads (localPa old) (2 ^ log2)) none) old new (2 ^ log2)
        .next (owedReply (endMigr s pa (some new) true false) h.owed 0)
      | .out pa log2 old deep =>
        let s : State := { s with deep := s.deep.writes deep (s.mem.reads (localPa old) (2 ^ log2)) }
        .next (owedReply (endMigr s pa none false false) h.owed 0)
      | .tlbi | .poison | .into => .next s

/-! ### Errors of the tiers (R384, R385) -/

/-- Whether a request still waits for the walk of a page. -/
def MemReq.walks (va : Nat) (q : MemReq) : Bool :=
  !q.walked && decide (q.va / 2 ^ 16 ≤ va / 2 ^ 16) && decide (va / 2 ^ 16 ≤ (q.va + q.len - 1) / 2 ^ 16)

def MemReq.isXlat (q : MemReq) : Bool := match q.kind with
  | .xlat _ => true
  | _ => false

/-- A walk that ends with 0x06 (R385): the element requests that wait for it; else the walk of the next agent that
misses there, an XLAT, an engine, the queue engine, the loader or a pump core. -/
def failWalks (s : State) (c va : Nat) : State :=
  let mine := s.regions.filter fun p => p.2.ctx == c
  let waiting := mine.any fun p => (regionElems s p.2).any fun e =>
    (s.elem e.1 e.2).reqs.any fun q => q.walks va && !q.isXlat
  let f (q : MemReq) : MemReq := if q.walks va && !q.isXlat then { q with walked := true, fault := some (6, va) } else q
  if waiting then mine.foldl (fun s p => modElems s p.2 fun y => { y with reqs := y.reqs.map f }) s
  else { s with badWalks := (c, va / 2 ^ 16) :: s.badWalks.filter (· != (c, va / 2 ^ 16)) }

/-- Whether the next span of an SXDEEP comes from a deep address. -/
def StreamJob.readsDeep (pa : Nat) (j : StreamJob) : Bool :=
  let a := descField j.desc 0 0 64 + j.pos
  j.op == 0xCB && j.desc != [] && !j.stopped && j.ending.isNone && descField j.desc 0x30 2 1 == 0
    && decide (a ≤ pa) && decide (pa < a + 32) && decide (j.pos < descField j.desc 0x10 0 32)

/-- MEMORY_READ_RETRY (R203, R307, R318, R385). -/
def execMemoryReadRetry (me : MemError) (s : State) : Result :=
  if me.retryOk then .next (countCorrected s)
  else if me.walk then .next (failWalks s me.ctx me.va.toNat)
  else
    match s.migrs.find? fun m => me.deep && decide (m.deep ≤ me.pa) && decide (me.pa < m.deep + 2 ^ m.log2) with
    | some m => .next (endMigrIn s m true)
    | none =>
      if me.deep then match s.streamers.find? fun p => p.2.job.any fun j => j.readsDeep me.pa with
        | some p => .next (finishStep s p.1 (.fault s.links 5 me.pa false))
        | none => .next s
      else .next (poisonPage s me.ctx me.va.toNat)

/-- MEMORY_PATROL_SCRUB (R384): what a scrub has corrected is counted. -/
def execMemoryPatrolScrub (corrected : Nat) (s : State) : Result :=
  let n := min (2 ^ 32 - 1) (s.errlog.corr.toNat + corrected)
  .next { s with errlog := { s.errlog with corr := BitVec.ofNat 32 n } }

/-! ### The page-fault ring (R316) -/

/-- A write of PFRES: the source it names goes on; one that is not stopped is ignored. -/
def resumeSource (s : State) (die : Nat) (v : Nat) : State :=
  let kind := bits v 8 4
  let src := bits v 32 32
  if !(kget s.rings die {}).stopped.contains (kind, src) then s
  else
    let s := dropStopped s die kind src
    if kind = 0 then
      match regionOfHandle s src with
      | some key => s.modRegion key fun r => { r with stopped := false, faultRec := none }
      | none => s
    else s

/-- PFRES (R316). -/
def execPfres (die : Nat) (val : W64) (s : State) : Result := .next (resumeSource s die val.toNat)

/-- A write of PFHEAD: records that waited for room are written. -/
def advanceFaultHead (s : State) (die v : Nat) : State :=
  let r := kget s.rings die {}
  let s := { s with rings := kput s.rings die { r with head := BitVec.ofNat 32 v } }
  flushFaultRing die r.wait.length s

/-- PFHEAD_WRITE (R316). -/
def execPfheadWrite (die : Nat) (val : W64) (s : State) : Result := .next (advanceFaultHead s die val.toNat)

end Sys2Proof.Machine
end

