-- ==== Sys2Proof/Machine/Barriers.lean ====
section
/-! DEFINITION. Tree barriers: spec/19_barrier.md R304 to R306, spec/12_pump_system.md R254, spec/18_group.md R294, and
slack control: spec/27_power.md R374. -/

namespace Sys2Proof.Machine

def thisModule : Nat := Config.moduleNumber.toNat

/-! ### Slack control (R371, R374) -/

def spineKey (die n : Nat) : Nat := die * 8 + n
def State.spine (s : State) (k : Nat) : Spine := kget s.spines k {}

/-- The floor of a spine's frequency. -/
def Spine.floor (x : Spine) : Nat := max 300 (x.set / 100 * 50)

/-- Where a spine goes: its set frequency less the slack steps, and its floor while T2 holds. -/
def Spine.goal (x : Spine) (k : Nat) (hot : Bool) : Nat :=
  let run := max (x.set - 50 * k) x.floor
  if hot then min run x.floor else run

def allSpinesAtFloor (s : State) : Bool :=
  (List.range 32).all fun k => decide ((s.spine k).run ≤ (s.spine k).floor)

/-- A later request takes a spine over: the earlier one replies with 0x02 (R371). -/
def takeOver (s : State) (k : Nat) : State :=
  match (s.spine k).owed with
  | none => s
  | some o => replyTo { s with spines := kput s.spines k { s.spine k with owed := none } } o 2 0 0

/-- The step count after an episode: time since this module's arrival, length, and whether it completed it.  An episode
that the module itself completed never raises it (R374; log entry 92). -/
def slackNext (s : State) (slack len : Nat) (mine : Bool) : Nat :=
  if !mine && decide (len < 20 * slack) then (if allSpinesAtFloor s then s.slackK else s.slackK + 1)
  else if mine && s.t2 == 0 && decide (0 < s.slackK) then s.slackK - 1
  else s.slackK

/-- The end of an episode of a domain barrier.  The length of a barrier's first episode is a free value. -/
def slackStep (s : State) (x : Barrier) (by_ : Nat) : State :=
  let (n, s) := drawNat s
  let len := match x.lastDone with
    | some t => s.nstime - t
    | none => n
  let k := slackNext s (s.nstime - x.lastArr) len (by_ == thisModule)
  let soon := s.slackAt.any fun t => decide (s.nstime < t + 100000)
  if k = s.slackK ∨ soon then s
  else (List.range 32).foldl takeOver { s with slackK := k, slackAt := some s.nstime }

/-! ### Arrivals and completions (R304, R305) -/

def State.barrier (s : State) (bk : Nat) : Barrier := kget s.barriers bk {}
def State.setBarrier (s : State) (bk : Nat) (x : Barrier) : State := { s with barriers := kput s.barriers bk x }

/-- The ports of a stepped group switch (R294, R297). -/
def switchGroup (bk : Nat) (s : State) (p : Nat × Group) : State :=
  let mine := p.2.step.any fun b => (s.queue p.2.queue).ctx.toNat * 32 + b == bk
  if !mine then s
  else match p.2.state with
    | .running =>
      let s : State := { s with groups := kput s.groups p.1 { p.2 with state := .stepping } }
      p.2.members.foldl releaseBoundary s
    | .stepping => { s with groups := kput s.groups p.1 { p.2 with state := .running } }
    | _ => s

/-- The completion reaches this module, with how many of its arrivals it counted: event 5 at the cores of those, the
ports of stepped groups.  A later arrival waits for an episode of its own (R304). -/
def toldComplete (s : State) (bk by_ n : Nat) : State :=
  let x := s.barrier bk
  let bit5 (c : Core) : Core := { c with events := c.events ||| 0x20, barDone := c.barDone ||| BitVec.ofNat 32 (2 ^ (bk % 32)) }
  let s := ((x.cores.take n).filterMap id).foldl (fun s c => s.modCore c bit5) s
  let s := s.groups.foldl (switchGroup bk) s
  let s := if x.scope = 5 then slackStep s x by_ else s
  s.setBarrier bk { s.barrier bk with cores := x.cores.drop n, lastDone := some s.nstime }

/-- The episode is over: every arriver is told, and the barrier is OPEN again. -/
def completeBarrier (s : State) (bk by_ : Nat) : State :=
  let x := s.barrier bk
  let of (m : Nat) : Nat := x.mods.countP (· == m)
  let others := (x.mods.filter (· != thisModule)).eraseDups
  let s := others.foldl (fun s m => sendOrDrop s m (.completion (bk / 32) (bk % 32) by_ (of m))) s
  let s := toldComplete s bk by_ (of thisModule)
  s.setBarrier bk { s.barrier bk with arr := 0, mods := [] }

/-- Whether a barrier is counted here: only a domain barrier has its root elsewhere. -/
def Barrier.local (x : Barrier) : Bool := x.scope != 5 || x.root == thisModule

/-- One arrival: counted here, sent to the root, or held while the barrier is not configured. -/
def arriveAt (s : State) (bk : Nat) (who : Option Nat) (from_ : Nat) : State :=
  let x := s.barrier bk
  let x := if from_ = thisModule then { x with lastArr := s.nstime } else x
  if x.count = 0 then s.setBarrier bk { x with inbox := x.inbox ++ [(who, from_)] }
  else
    let x := if from_ = thisModule then { x with cores := x.cores ++ [who] } else x
    if !x.local then sendOrDrop (s.setBarrier bk x) x.root (.arrival (bk / 32) (bk % 32))
    else
      let s := s.setBarrier bk { x with arr := x.arr + 1, mods := x.mods ++ [from_] }
      if x.count ≤ x.arr + 1 then completeBarrier s bk from_ else s

/-- TREE_BARRIER_ARRIVAL (R304, R306): an arrival on its way is counted. -/
def execTreeBarrierArrival (bk : Nat) (s : State) : Result :=
  let x := s.barrier bk
  match x.inbox with
  | [] => .next s
  | (who, from_) :: rest =>
    if x.count = 0 then .next s else .next (arriveAt (s.setBarrier bk { x with inbox := rest }) bk who from_)

/-- BARM.set: COUNT, scope and root; arrivals that were held stay on their way. -/
def configureBarrier (s : State) (bk count scope root : Nat) : State :=
  s.setBarrier bk { s.barrier bk with count := count, scope := scope, root := root, arr := 0, cores := [], mods := [] }

/-- KILL and SWAPOUT of a context reset its barriers. -/
def resetBarriers (s : State) (ctx : Nat) : State :=
  { s with barriers := s.barriers.filter fun p => p.1 / 32 != ctx }

end Sys2Proof.Machine
end

