-- ==== Sys2Proof/Machine/Context.lean ====
section
/-! DEFINITION. The context unit: spec/14_context.md R262 to R268, spec/23_link.md R337. -/

namespace Sys2Proof.Machine

/-! ### The descriptor (R267) -/

/-- The grants of a descriptor of 256 bytes. -/
def descGrant (b : List Byte) (die : Nat) : DieGrant :=
  { sites := BitVec.ofNat 384 (field b (48 * die) 48), cores := BitVec.ofNat 16 (field b (0xC0 + 2 * die) 2)
    budget := BitVec.ofNat 32 (field b (0xC8 + 4 * die) 4) }

/-- The descriptor, where CTXDESC leads to one. -/
def readDesc (s : State) (c : Nat) : Option (List Byte) :=
  let pa := (s.ctx c).desc.toNat
  if pa % 256 = 0 ∧ (placeOf pa).isMemory then
    let b := s.mem.reads (localPa pa) 256
    if (b.drop 0xD8).all (· == 0) then some b else none
  else none

/-- Every site a descriptor grants is present. -/
def grantsPresent (s : State) (b : List Byte) : Bool :=
  (List.range 4).all fun d => (descGrant b d).sites &&& ~~~(s.fused.toList.getD d 0) == 0

/-- A descriptor grants nothing that another context holds. -/
def grantsFree (s : State) (c : Nat) (b : List Byte) : Bool :=
  s.ctxs.all fun p => p.1 == c || (List.range 4).all fun d =>
    let g := p.2.grants.toList.getD d {}
    g.sites &&& (descGrant b d).sites == 0 && g.cores &&& (descGrant b d).cores == 0

/-- Whether a core runs a rule set. -/
def Core.hasRules (c : Core) : Bool := c.newRules.isSome || c.rules.toList.any fun r => !emptyRule r

/-- A descriptor drops no site of a live region of the context, and no core that runs a rule set. -/
def grantsKeep (s : State) (c : Nat) (b : List Byte) : Bool :=
  (s.regions.all fun p => p.2.ctx != c || p.2.sites.all fun t =>
      !present s t || (descGrant b (dieOf t)).sites.getLsbD (siteOf t))
    && s.cores.all fun p => !(p.2.ctx.any fun x => x.val == c) || !p.2.hasRules
      || (descGrant b (coreDie p.1)).cores.getLsbD (coreNo p.1)

/-! ### The parts of a context -/

def ctxRegions (s : State) (c : Nat) : List Nat := (s.regions.filter fun p => p.2.ctx == c).map Prod.fst

/-- The compute-die cores granted to a context. -/
def ctxCores (s : State) (c : Nat) : List Nat :=
  (List.range 4).flatMap fun d => ((List.range 16).filter fun n =>
    ((s.ctx c).grants.toList.getD d {}).cores.getLsbD n).map (coreKey d)

def ctxQueues (s : State) (c : Nat) : List Nat := (s.queues.filter fun p => p.2.ctx.toNat == c).map Prod.fst

def setStopped (b : Bool) (s : State) (c : Nat) : State := s.modCore c fun x => { x with stopped := b }

/-- A freeze of the partition begins: every region, and every core after its current round. -/
def freezeCtx (s : State) (c : Nat) : State :=
  (ctxCores s c).foldl (setStopped true) ((ctxRegions s c).foldl freezeRegion s)

/-- Whether the freeze is over: every region frozen, every core at the end of its round. -/
def ctxFrozen (s : State) (c : Nat) : Bool :=
  (ctxRegions s c).all (fun k => (s.region k).all fun r => r.frozen) && (ctxCores s c).all fun k => (s.core k).lanes.isEmpty

/-- A command completes. -/
def endCmd (s : State) (c res : Nat) : State := s.modCtx c fun x => { x with cmd := none, res := BitVec.ofNat 8 res }

/-- The event at work is over. -/
def popJob (s : State) : State := { s with ctxq := s.ctxq.tail }

/-- The event at the head of the unit's queue is at work. -/
def markJob (s : State) : State := { s with ctxq := match s.ctxq with
  | (c, j, _) :: rest => (c, j, true) :: rest
  | [] => [] }

/-- Whether an event of a context is the one at work. -/
def jobIs (s : State) (c : Nat) (j : CtxJob) : Bool := s.ctxq.head? == some (c, j, true)

/-- A fault applied to a frozen context (R263, R268). -/
def applyFault (s : State) (c : Nat) : State :=
  match (s.ctx c).heldFault with
  | none => s
  | some f => sendMsix (s.modCtx c fun x => { x with state := .faulted, fcode := f, heldFault := none }) c

/-! ### Commands (R263, R264) -/

/-- CREATE. -/
def ctxCreate (s : State) (c : Nat) : State :=
  let x := s.ctx c
  if x.state != .free then endCmd s c 1
  else if x.levelReg = 3 then endCmd s c 3
  else match readDesc s c with
  | none => endCmd s c 3
  | some b =>
    let g (d : Fin 4) : DieGrant := { budget := (descGrant b d.val).budget }
    endCmd (s.setCtx c { x with state := .ready, root := x.rootReg, level := x.levelReg, grants := Vector.ofFn g }) c 0

/-- The cores of new grants belong to the context; the cores it no longer has belong to none. -/
def grantCores (s : State) (c : Nat) (old : List Nat) : State :=
  let now := ctxCores s c
  let out := old.filter fun k => !now.contains k
  let inn := now.filter fun k => !old.contains k
  let s := out.foldl (fun s k => s.modCore k fun x => { x with ctx := none }) s
  inn.foldl (fun s k => s.modCore k fun x => { x with ctx := some (fin 64 c), stopped := false }) s

/-- BIND: the grants are replaced, the budgets stay. -/
def ctxBind (s : State) (c : Nat) : State :=
  let x := s.ctx c
  if x.state != .ready && x.state != .running then endCmd s c 1
  else match readDesc s c with
  | none => endCmd s c 3
  | some b =>
    if !grantsPresent s b then endCmd s c 3
    else if !grantsFree s c b || !grantsKeep s c b then endCmd s c 2
    else
      let old := ctxCores s c
      let g (d : Fin 4) : DieGrant := { descGrant b d.val with budget := (x.grants[d]).budget }
      endCmd (grantCores (s.setCtx c { x with grants := Vector.ofFn g }) c old) c 0

def ctxFreezeCmd (s : State) (c : Nat) : State :=
  let st := (s.ctx c).state
  if c = 0 then endCmd s c 4
  else if st == .ready || st == .running then freezeCtx s c
  else endCmd s c 1

def ctxThawCmd (s : State) (c : Nat) : State :=
  if (s.ctx c).state != .frozen then endCmd s c 1
  else
    let s := (ctxRegions s c).foldl thawRegion s
    let s := (ctxCores s c).foldl (setStopped false) s
    endCmd (settleCtx (s.modCtx c fun x => { x with state := .ready }) c) c 0

/-- SWAPOUT begins: the translations and the barriers of the context go; strokes that are closing drain. -/
def ctxSwapout (s : State) (c : Nat) : State :=
  if c = 0 then endCmd s c 4
  else if (s.ctx c).state != .frozen then endCmd s c 1
  else startShoot (resetBarriers s c) .tlbi (.ctx c) none

/-- SWAPIN begins; it is refused until every die is below 97 °C, where T2 and T3 clear (R372). -/
def ctxSwapin (s : State) (c : Nat) : State :=
  if c = 0 then endCmd s c 4
  else if (s.ctx c).state != .swapped ∨ s.t3 ≠ 0 ∨ s.t2 ≠ 0 then endCmd s c 1
  else s

def ctxClear (s : State) (c : Nat) : State :=
  if (s.ctx c).state != .faulted then endCmd s c 1 else endCmd (s.modCtx c fun x => { x with state := .frozen }) c 0

/-- T3 reaches the unit for a context (R265, R372). -/
def tripCtx (s : State) (c : Nat) : State :=
  if c = 0 then s else { s with ctxq := s.ctxq ++ [(c, .trip, false)] }

/-- A context that CLEAR leaves FROZEN while T3 holds is swapped out too (log entry 103). -/
def clearTrip (s : State) (c : Nat) : State := if s.t3 ≠ 0 ∧ (s.ctx c).state = .frozen then tripCtx s c else s

/-- The command of a context begins: it completes, or is left at work. -/
def beginCmd (s : State) (c : Nat) : State :=
  match (s.ctx c).cmd with
  | none => s
  | some .create => ctxCreate s c
  | some .bind => ctxBind s c
  | some .freeze => ctxFreezeCmd s c
  | some .thaw => ctxThawCmd s c
  | some .swapout => ctxSwapout s c
  | some .swapin => ctxSwapin s c
  | some .clear => clearTrip (ctxClear s c) c
  | some .kill | some .reserved => endCmd s c 3

/-- A fault begins (R263): the context freezes first, unless it is FROZEN; in any other state there is nothing to fault
(log entry 103). -/
def beginFault (s : State) (c : Nat) : State :=
  match (s.ctx c).state with
  | .ready | .running => markJob (freezeCtx s c)
  | .frozen => popJob (applyFault s c)
  | _ => popJob (s.modCtx c fun x => { x with heldFault := none })

/-- T3 begins: FREEZE followed by SWAPOUT. -/
def beginTrip (s : State) (c : Nat) : State :=
  match (s.ctx c).state with
  | .ready | .running => markJob (freezeCtx s c)
  | .frozen => markJob (ctxSwapout s c)
  | _ => popJob s

/-- The event at the head of the unit's queue begins. -/
def beginJob (s : State) (c : Nat) : CtxJob → State
  | .cmd =>
    let s := beginCmd s c
    if (s.ctx c).cmd.isNone then popJob s else markJob s
  | .fault => beginFault s c
  | .trip => beginTrip s c

/-- The unit serves its events one at a time, in arrival order, as far as it can without waiting (R265). -/
def serveUnit : Nat → State → State
  | 0, s => s
  | n + 1, s => match s.ctxq with
    | (c, j, false) :: _ => serveUnit n (beginJob s c j)
    | _ => s

def serveCtx (s : State) : State := serveUnit (2 * s.ctxq.length + 2) s

/-! ### KILL and its clean-up (R263, R265, R304, R343) -/

/-- All work of a region gone. -/
def killRegion (s : State) (key : Nat) : State :=
  let s := failAllOwed (discardCommands (voidRegion s key false) key) key
  s.modRegion key fun r => { r with
    kernel := .none, stopped := false, faultRec := none, retire := none, priming := none, strokeReq := false
    freezeReq := false, reloads := [], record := none, group := none }

def killQueue (s : State) (q : Nat) : State :=
  s.modQueue q fun u => { u with
    head := u.tail, kinds := [], resuse := 0, started := [], retry := [], failedRec := none, pulling := 0, refused := none
    skips := [] }

/-- The rounds of a core ended; a TLBI it waits in is completed for nobody. -/
def killCore (s : State) (c : Nat) : State :=
  let s := ackShoots (s.modCore c fun x => { x with lanes := [], stopped := true }) c
  let f (h : Shoot) : Shoot := if h.kind == .tlbi && h.owed.any (fun o => o.core == c) then { h with owed := none } else h
  let s : State := { s with shoots := (s.shoots.map f).filter fun h => !(h.acked && h.kind == .tlbi && h.owed.isNone) }
  { s with remotes := s.remotes.filter fun r => r.waiter / 8 != (2 ^ 41 + c * 8) / 8 }

/-- A well whose draws and claims are discarded is CLOSED (R343). -/
def Well.killed (w : Well) : Well :=
  if w.state == .closed then w
  else { w with
    state := .closed, cands := [], exts := [], claims := [], pubs := [], candIn := [], rdIn := [], causeR := false, causeE := false }

/-- KILL: all work is discarded at once, and the context is DEAD. -/
def ctxKill (s : State) (c : Nat) : State :=
  let x := s.ctx c
  if c = 0 then s.modCtx c fun x => { x with res := 4 }
  else if x.state == .free || x.state == .dead then s.modCtx c fun x => { x with res := 1 }
  else
    let s := (ctxRegions s c).foldl killRegion s
    let s := (ctxQueues s c).foldl killQueue s
    let s := (ctxCores s c).foldl killCore s
    let s := resetBarriers s c
    let wells := s.wells.map fun p => if p.2.ctx = c then (p.1, p.2.killed) else p
    let groups := s.groups.filter fun p => (s.queue p.2.queue).ctx.toNat != c
    let s : State := { s with wells := wells, groups := groups }
    let s := startShoot s .tlbi (.ctx c) none
    let s : State := { s with ctxq := s.ctxq.filter fun j => j.1 != c }
    serveCtx (s.modCtx c fun x => { x with state := .dead, cmd := none, heldFault := none, res := if x.cmd.isSome then 5 else 0 })

/-- A shoot-down of the context that nobody's rule waits for. -/
def ctxShooting (s : State) (c : Nat) : Bool := s.shoots.any fun h => h.what == .ctx c && h.owed.isNone

/-- The rule table of a core emptied and the core given back. -/
def freeCore (s : State) (c : Nat) : State :=
  s.modCore c fun x => { x with
    ctx := none, stopped := false, newRules := none, rules := Vector.replicate 64 (0, 0), matrix := Vector.replicate 64 0
    body := [], bodyLen := 0, mons := Vector.replicate 8 none }

/-- CTX_CLEANUP_COMPLETE (R263): what is in flight has been performed; the regions are freed, the grants released. -/
def execCtxCleanupComplete (cx : Nat) (s : State) : Result :=
  let quiet := (ctxRegions s cx).all (fun k => (s.region k).all fun r => r.stores.isEmpty)
    && (ctxCores s cx).all (fun k => (s.core k).storeQ.isEmpty) && !ctxShooting s cx
  if (s.ctx cx).state != .dead || !quiet then .next s
  else
    let s := (ctxRegions s cx).foldl releaseRegion s
    let s := (ctxQueues s cx).foldl killQueue s
    let s := (ctxCores s cx).foldl freeCore s
    .next (s.modCtx cx fun x => { x with state := .free, grants := Vector.replicate 4 {}, saved := [] })

/-! ### Swap (R266) -/

def saveCore (s : State) (c : Nat) (k : Nat) : State := s.modCtx c fun x => { x with saved := kput x.saved k (s.core k) }

/-- A core's saved registers, predicates, notice queue, timer and class pointers come back (R266); what the hardware has
noted since stays; monitors are disarmed and their events asserted. -/
def restoreCore (c : Nat) (s : State) (k : Nat) : State :=
  match kfind (s.ctx c).saved k with
  | none => s
  | some o => s.modCore k fun x => { x with
      g := o.g, p := o.p, notes := o.notes, tint := o.tint, tper := o.tper, tdue := o.tdue
      tcount := o.tcount, cptr := o.cptr, mons := Vector.replicate 8 none, events := x.events ||| 0xFF00 }

/-- Whether everything a SWAPOUT waits for has happened. -/
def swapReady (s : State) (c : Nat) : Bool :=
  ctxFrozen s c && !ctxShooting s c
    && (ctxRegions s c).all (fun k => (s.region k).all fun r => r.stores.all fun x => decide (r.stroke ≤ x.stroke))
    && (ctxCores s c).all fun k => (s.core k).storeQ.isEmpty

/-- The partition saved: the context is SWAPPED. -/
def swapAway (s : State) (c : Nat) : State :=
  let s := (ctxRegions s c).foldl saveShadow s
  let s := (ctxCores s c).foldl (fun s k => saveCore s c k) s
  s.modCtx c fun x => { x with state := .swapped }

/-- The partition restored: the context is FROZEN. -/
def swapBack (s : State) (c : Nat) : State :=
  let s := (ctxRegions s c).foldl restoreShadow s
  let s := (ctxCores s c).foldl (restoreCore c) s
  s.modCtx c fun x => { x with state := .frozen, saved := [] }

/-- SWAP_COMPLETE (R263, R266): the SWAPOUT or SWAPIN at work, of a command or of T3, is over. -/
def execSwapComplete (cx : Nat) (s : State) : Result :=
  if jobIs s cx .cmd then match (s.ctx cx).cmd with
    | some .swapout => .next (if swapReady s cx then serveCtx (popJob (endCmd (swapAway s cx) cx 0)) else s)
    | some .swapin => .next (serveCtx (popJob (endCmd (swapBack s cx) cx 0)))
    | _ => .next s
  else if jobIs s cx .trip && (s.ctx cx).state == .frozen && swapReady s cx then
    .next (serveCtx (popJob (swapAway s cx)))
  else .next s

/-! ### The unit -/

def setFrozen (s : State) (c : Nat) : State := s.modCtx c fun x => { x with state := .frozen }

/-- CTX_FREEZE_COMPLETE (R265): FROZEN, and the next event is served, a fault that arrived meanwhile before any later
one; the freeze of T3 goes on with SWAPOUT. -/
def execCtxFreezeComplete (cx : Nat) (s : State) : Result :=
  if !ctxFrozen s cx then .next s
  else if jobIs s cx .cmd && (s.ctx cx).cmd == some .freeze then .next (serveCtx (popJob (endCmd (setFrozen s cx) cx 0)))
  else if jobIs s cx .trip && ((s.ctx cx).state == .ready || (s.ctx cx).state == .running) then
    .next (ctxSwapout (setFrozen s cx) cx)
  else .next s

/-- The fault that a core of a context holds in FLTREC (R258): what a service rule of the context may raise (R263). -/
def serviceFault (s : State) (c : Nat) : Option Nat :=
  ((ctxCores s c).find? fun k => (s.core k).fltrec.getLsbD 63).map fun k => (s.core k).fltrec.toNat % 256

/-- CTX_FAULT (R263, R265, R268): the fault that waits is served in its turn: the context freezes, and is FAULTED once it
is frozen.  With none waiting, a fault of the context's own rules is raised: which of them are service rules is the
context's matter (log entry 103). -/
def execCtxFault (cx : Nat) (s : State) : Result :=
  let s := match (s.ctx cx).heldFault, serviceFault s cx with
    | none, some code => raiseCtxFault s cx code
    | _, _ => s
  let s := serveCtx s
  .next (if jobIs s cx .fault && ctxFrozen s cx then serveCtx (popJob (applyFault s cx)) else s)

/-- A command comes to the unit, unless one of its context is in progress; KILL is accepted at once. -/
def ctxCommand (s : State) (c : Nat) (m : CtxCmd) : State :=
  if m = .kill then ctxKill s c
  else if (s.ctx c).cmd.isSome then s.modCtx c fun x => { x with rej := true }
  else serveCtx { s.modCtx c fun x => { x with cmd := some m } with ctxq := s.ctxq ++ [(c, .cmd, false)] }

def execCreate (cx : Nat) (s : State) : Result := .next (ctxCommand s cx .create)
def execBind (cx : Nat) (s : State) : Result := .next (ctxCommand s cx .bind)
def execCtxFreeze (cx : Nat) (s : State) : Result := .next (ctxCommand s cx .freeze)
def execCtxThaw (cx : Nat) (s : State) : Result := .next (ctxCommand s cx .thaw)
def execSwapout (cx : Nat) (s : State) : Result := .next (ctxCommand s cx .swapout)
def execSwapin (cx : Nat) (s : State) : Result := .next (ctxCommand s cx .swapin)
def execClear (cx : Nat) (s : State) : Result := .next (ctxCommand s cx .clear)
def execKill (cx : Nat) (s : State) : Result := .next (ctxCommand s cx .kill)

/-! ### The register block (R267) -/

def CtxState.code : CtxState → Nat
  | .free => 0
  | .ready => 1
  | .running => 2
  | .frozen => 3
  | .swapped => 4
  | .faulted => 5
  | .dead => 6

def CtxCmd.ofCode : Nat → CtxCmd
  | 1 => .create
  | 2 => .bind
  | 3 => .freeze
  | 4 => .thaw
  | 5 => .swapout
  | 6 => .swapin
  | 7 => .clear
  | 8 => .kill
  | _ => .reserved

def Ctx.statusWord (x : Ctx) : Nat :=
  x.state.code + bit x.cmd.isSome * 2 ^ 8 + bit x.rej * 2 ^ 9 + x.res.toNat * 2 ^ 16 + x.fcode.toNat * 2 ^ 24

/-- A register of a block, by byte offset; none where there is none. -/
def Ctx.reg (x : Ctx) (o : Nat) : Option Nat :=
  match o with
  | 0x00 => some x.statusWord
  | 0x08 => some 0
  | 0x10 => some x.rootReg.toNat
  | 0x18 => some x.mode.toNat
  | 0x20 => some x.levelReg.toNat
  | 0x28 => some x.desc.toNat
  | _ => none

/-- A register of a block written. -/
def setCtxReg (s : State) (c o v : Nat) : State :=
  match o with
  | 0x00 => if bits v 9 1 = 1 then s.modCtx c fun x => { x with rej := false } else s
  | 0x08 => ctxCommand s c (CtxCmd.ofCode (bits v 0 4))
  | 0x10 => s.modCtx c fun x => { x with rootReg := BitVec.ofNat 64 (bits v 14 38 * 2 ^ 14) }
  | 0x18 => s.modCtx c fun x => { x with mode := BitVec.ofNat 6 v }
  | 0x20 => s.modCtx c fun x => { x with levelReg := BitVec.ofNat 2 v }
  | 0x28 => s.modCtx c fun x => { x with desc := BitVec.ofNat 64 v }
  | _ => s

end Sys2Proof.Machine
end

