-- ==== Sys2Proof/Machine/Wells.lean ====
section
/-! DEFINITION. Wells, lifts, verdicts and claims: spec/24_well.md R343 to R350, spec/25_claim.md R351 to R360,
spec/12_pump_system.md R250 to R253, spec/26_prog_pulse_claims.md R364, spec/23_link.md R341, R342.  The well unit serves
frame steps, publishes, candidates, verdicts and draws in one total order (R346). -/

namespace Sys2Proof.Machine

def Well.size (w : Well) : Nat := 2 ^ w.log2n

/-- SPILL, signed (R344). -/
def Well.spill (w : Well) : Int := (w.head : Int) - w.size

def word64 (x : Int) : Nat := wrap 64 x
def low32 (x : Int) : Nat := wrap 32 x

/-! ### The port block and the ring -/

/-- A field of the port block written with its full bits set (R345). -/
def portWrite (s : State) (wl off : Nat) (bs : List Byte) : State := memStore s ((s.well wl).port + off) bs (some true)

/-- Bytes at an index of the ring. -/
def Well.slotSpans (w : Well) (i : Int) : List (Nat × Nat) :=
  readSpans w.ringPages (w.ringPages.length + 1) (w.ringVa + w.sbytes * (i % w.size).toNat) w.sbytes

def writeSample (s : State) (wl : Nat) (i : Int) (bs : List Byte) : State :=
  (splitData ((s.well wl).slotSpans i) bs).foldl (fun s p => memStore s p.1 p.2 none) s

def readSample (s : State) (w : Well) (i : Int) : List Byte :=
  (w.slotSpans i).flatMap fun p => s.mem.reads (localPa p.1) p.2

/-- Samples written from an index on. -/
def writeSamples (wl sb : Nat) : Nat → State → Int → List Byte → State
  | 0, s, _, _ => s
  | n + 1, s, i, bs => writeSamples wl sb n (writeSample s wl i (bs.take sb)) (i + 1) (bs.drop sb)

def readSamples (s : State) (w : Well) : Nat → Int → List Byte
  | 0, _ => []
  | n + 1, i => readSample s w i ++ readSamples s w n (i + 1)

def addStale (s : State) (wl n : Nat) : State :=
  let v := min (2 ^ 64 - 1) ((s.well wl).stalen + n)
  portWrite (s.modWell wl fun w => { w with stalen := v }) wl 0x20 (byteList 8 v)

/-- A refusal is a LOST report (R349, R358, R359). -/
def reportLost (s : State) (wl : Nat) (t : W64) : State :=
  portWrite (s.modWell wl fun w => { w with lostc := w.lostc + 1, lostt := t }) wl 0x18 (byteList 8 t.toNat)

/-! ### The draw output area (R356, R357) -/

/-- Bytes of the data ring of the draw output area. -/
def Well.ringBytes (w : Well) : Nat := w.dlen - 64
def Well.room (w : Well) : Nat := w.ringBytes - (w.wrpos - w.rdpos)

def drawBytes (s : State) (wl va : Nat) (bs : List Byte) : State :=
  let w := s.well wl
  (spansOf w.drawPages (w.drawPages.length + 1) va bs).foldl (fun s p => memStore s p.1 p.2 none) s

/-- A record written at WRPOS, which then passes it. -/
def putRecord (s : State) (wl : Nat) (b : List Byte) : State :=
  let w := s.well wl
  let o := w.wrpos % w.ringBytes
  let k := w.ringBytes - o
  let s := drawBytes s wl (w.drawVa + 64 + o) (b.take k)
  let s := if k < b.length then drawBytes s wl (w.drawVa + 64) (b.drop k) else s
  let s := s.modWell wl fun w => { w with wrpos := w.wrpos + b.length }
  drawBytes s wl w.drawVa (byteList 8 ((w.wrpos + b.length) % 2 ^ 64))

/-- Records that waited for room are written while it lasts. -/
def flushRecords (wl : Nat) : Nat → State → State
  | 0, s => s
  | n + 1, s =>
    let w := s.well wl
    match w.recs with
    | [] => s
    | b :: rest =>
      if w.room < b.length then s else flushRecords wl n (putRecord (s.modWell wl fun w => { w with recs := rest }) wl b)

/-- A CLAIM or CLOSE record, after those that wait. -/
def writeRecord (s : State) (wl : Nat) (b : List Byte) : State :=
  let s := s.modWell wl fun w => { w with recs := w.recs ++ [b] }
  flushRecords wl (s.well wl).recs.length s

def recordHead (w0 w1 w2 w3 : Nat) : List Byte := byteList 8 w0 ++ byteList 8 w1 ++ byteList 8 w2 ++ byteList 8 w3

/-- Zeros up to a multiple of 32 bytes. -/
def padded (bs : List Byte) : List Byte := bs ++ List.replicate ((32 - bs.length % 32) % 32) 0

/-- How many samples of a run a SEG has room for. -/
def Well.fits (w : Well) (n : Nat) : Nat :=
  if w.recs.isEmpty then min n ((w.room - 32) / 32 * 32 / w.sbytes) else 0

/-! ### Claims (R252, R353) -/

def satLost (n : Nat) : Nat := min (2 ^ 24 - 1) n

def Claim.word (c : Claim) : Nat := 2 ^ 63 + c.state.toNat * 2 ^ 56 + satLost c.lostn * 2 ^ 32 + c.id.toNat

/-- Samples of a claim's window in a span. -/
def Claim.holds (c : Claim) (f l : Int) : Nat := (min l c.hi - max f c.lo + 1).toNat

/-- A claim that a span of its extent is lost to: LOSTN rises, and it ends LATE. -/
def Claim.lose (ext : Nat) (f l : Int) (c : Claim) : Claim :=
  let n := c.holds f l
  if c.ext = ext ∧ 0 < n then { c with lostn := c.lostn + n, state := if c.state = 1 ∨ c.state = 2 then 4 else c.state } else c

/-- DRAWING claims of an extent that lacks room are ACCEPTED, and DRAWING again when room returns. -/
def Claim.hold (ext : Nat) (held : Bool) (c : Claim) : Claim :=
  if c.ext = ext ∧ (c.state = 1 ∨ c.state = 2) then { c with state := if held then 1 else 2 } else c

/-- The extent of a claim closes. -/
def Claim.close (ext : Nat) (c : Claim) : Claim :=
  if c.ext = ext then { c with ext := 0, state := if c.state = 1 ∨ c.state = 2 then 3 else c.state } else c

def modClaims (s : State) (wl : Nat) (f : Claim → Claim) : State :=
  s.modWell wl fun w => { w with claims := w.claims.map f }

def modExtent (s : State) (wl no : Nat) (f : Extent → Extent) : State :=
  s.modWell wl fun w => { w with exts := w.exts.map fun x => if x.no = no then f x else x }

/-! ### Copying (R355, R360, R364) -/

/-- Samples of a span of an extent that spilled before they were copied. -/
def loseSpan (s : State) (wl no : Nat) (f l : Int) : State :=
  if l < f then s
  else modClaims (modExtent s wl no fun x => { x with lost := x.lost + (l - f + 1).toNat }) wl (Claim.lose no f l)

/-- A span of an extent: what has spilled is lost, what has arrived is copied as far as there is room.  Answers what
is left of the span, and whether room was lacking. -/
def copySpan (s : State) (wl no : Nat) (f l : Int) : Option (Int × Int) × Bool × State :=
  let w := s.well wl
  let gone := min l (w.spill - 1)
  let s := loseSpan s wl no f gone
  let f := max f w.spill
  let last := min l ((w.head : Int) - 1)
  if l < f then (none, false, s)
  else if last < f then (some (f, l), false, s)
  else
    let n := (last - f + 1).toNat
    let k := w.fits n
    let seg (_ : Unit) : List Byte := recordHead (2 + no * 2 ^ 16) (word64 f) k 0 ++ padded (readSamples s w k f)
    let s := if k = 0 then s else putRecord s wl (seg ())
    let rest := if f + k ≤ l then some (f + (k : Int), l) else none
    (rest, decide (k < n), s)

def copySpans (wl no : Nat) : List (Int × Int) → State → List (Int × Int) × Bool × State
  | [], s => ([], false, s)
  | (f, l) :: rest, s =>
    let (a, short, s) := copySpan s wl no f l
    let (b, short', s) := copySpans wl no rest s
    (a.toList ++ b, short || short', s)

/-- An extent copies what it can; lack of room holds it (R360). -/
def copyExtent (s : State) (wl : Nat) (x : Extent) : State :=
  let (todo, short, s) := copySpans wl x.no x.todo s
  let s := modExtent s wl x.no fun y => { y with todo := todo, held := short }
  let s := if short != x.held || short then modClaims s wl (Claim.hold x.no short) else s
  let c := (s.well wl).ctx
  if short && !x.held && (s.ctx c).mode.getLsbD 5 then raiseCtxFault s c 2 else s

/-- An extent closes once HEAD has passed its end with every sample copied or lost. -/
def closeExtent (s : State) (wl no : Nat) : State :=
  let w := s.well wl
  match w.exts.find? fun x => x.no == no with
  | none => s
  | some x =>
    if !x.todo.isEmpty || decide ((w.head : Int) ≤ x.b) then s
    else
      let s := writeRecord s wl (recordHead (3 + no * 2 ^ 16) (word64 x.a) (word64 x.b) (x.claims + satLost x.lost * 2 ^ 32))
      let s := modClaims s wl (Claim.close no)
      s.modWell wl fun w => { w with exts := w.exts.filter (fun y => y.no != no), causeE := false }

/-- A CLOSING well with no open extent is CLOSED (R343), once the records of those that closed are written (R355). -/
def settleWell (s : State) (wl : Nat) : State :=
  s.modWell wl fun w => if w.state == .closing && w.exts.isEmpty && w.recs.isEmpty then { w with state := .closed } else w

/-- An extent put into its place in ascending number. -/
def putExtent (x : Extent) : List Extent → List Extent
  | [] => [x]
  | y :: ys => if x.no ≤ y.no then x :: y :: ys else y :: putExtent x ys

def byNumber (xs : List Extent) : List Extent := xs.foldr putExtent []

/-- The open extents, in ascending number, copy and close. -/
def drawStep (s : State) (wl : Nat) : State :=
  let s := flushRecords wl (s.well wl).recs.length s
  let s := (byNumber (s.well wl).exts).foldl (fun s x => closeExtent (copyExtent s wl x) wl x.no) s
  settleWell s wl

/-- DRAW_COPY (R355). -/
def execDrawCopy (wl : Nat) (s : State) : Result := .next (if (s.well wl).state == .closed then s else drawStep s wl)

/-- RDPOS_WRITE (R356): a write that moves backward, or beyond WRPOS, is ignored. -/
def execRdposWrite (wl : Nat) (s : State) : Result :=
  let w := s.well wl
  match w.rdIn with
  | [] => .next s
  | v :: rest =>
    let rd := if w.rdpos ≤ v.toNat ∧ v.toNat ≤ w.wrpos then v.toNat else w.rdpos
    .next (s.modWell wl fun w => { w with rdIn := rest, rdpos := rd })

/-! ### Frame steps and publishes (R344, R346, R348, R358) -/

/-- Monitors see something that writes nothing on their block too: an atomic (R222), a frame step (R346). -/
def touchMonitors (s : State) (pa len : Nat) : State :=
  { s with cores := s.cores.map fun e => (e.1, e.2.noteWrite (localPa pa) len) }

/-- KIND 1 triggers on a well's HEAD (R278, R346). -/
def lookTriggers (s : State) (wl : Nat) : State :=
  { s with triggers := s.triggers.map fun p =>
      (p.1, if p.2.kind = 1 ∧ p.2.well.toNat = wl then p.2.look s else p.2) }

/-- HEAD advances; HEADLO is written last, the monitors on the port block fire and KIND 1 triggers are evaluated. -/
def setHead (s : State) (wl e : Nat) : State :=
  let s := portWrite (s.modWell wl fun w => { w with head := e }) wl 0x00 (byteList 4 (e % 2 ^ 32))
  lookTriggers (touchMonitors s (s.well wl).port 288) wl

/-- The zero-filled gap before a frame. -/
def fillGap (s : State) (wl f e : Nat) : State :=
  let w := s.well wl
  if f ≤ w.head then s
  else
    let z := max (w.head : Int) ((e : Int) - w.size)
    let n := ((f : Int) - z).toNat
    let s := writeSamples wl w.sbytes n s z (List.replicate (n * w.sbytes) 0)
    let s := portWrite s wl (0x60 + 16 * (w.gapn % 12)) (byteList 8 w.head ++ byteList 8 (f - w.head))
    let s := s.modWell wl fun w => { w with gapn := w.gapn + 1, gaps := w.gaps + (f - w.head) }
    portWrite s wl 0x0C (byteList 4 ((w.gapn + 1) % 2 ^ 32))

/-- The samples of a frame that are written. -/
def fillFrame (s : State) (wl f e : Nat) (bs : List Byte) : State :=
  let w := s.well wl
  let i := max (max (f : Int) w.head) ((e : Int) - w.size)
  let s := writeSamples wl w.sbytes ((e : Int) - i).toNat s i (bs.drop (w.sbytes * (i - f).toNat))
  if f < w.head then addStale s wl (w.head - f) else s

/-- One frame step, or a publish where there are no samples. -/
def frameStep (s : State) (wl f e : Nat) (bs : Option (List Byte)) : State :=
  let s := drawStep s wl
  let w := s.well wl
  let dead := w.causeR || w.causeE
  let s := portWrite s wl 0x04 (byteList 4 (low32 ((e : Int) - w.size)))
  let s := match bs with
    | some bs => fillFrame (fillGap s wl f e) wl f e bs
    | none => s
  let s := setHead s wl e
  let s := if dead then s.modWell wl fun x => { x with dead := x.dead + (e - w.head) } else s
  drawStep s wl

/-- PUBLISH (R344, R348): the next store to PUBW. -/
def execPublish (wl : Nat) (s : State) : Result :=
  let w := s.well wl
  match w.pubs with
  | [] => .next s
  | v :: rest =>
    let s := s.modWell wl fun w => { w with pubs := rest }
    let d := low32 ((v.toNat : Int) - w.head)
    if w.state != .armed then .next s
    else if 1 ≤ d ∧ d ≤ w.size ∧ d < 2 ^ 31 then
      .next (if w.head + d < 2 ^ 63 then frameStep s wl w.head (w.head + d) none else s)
    else .next (addStale s wl 1)

/-! ### Ingest (R341, R342) -/

/-- The well a datagram goes to. -/
def ingestWell (s : State) (port : Nat) : Option Nat :=
  (s.wells.find? fun p => p.2.state == .armed && port != 0 && p.2.ingp.toNat == port).map Prod.fst

/-- A well frame that keeps R342: its first index and its count. -/
def wellFrame (wl sb : Nat) (b : List Byte) : Option (Nat × Nat) :=
  let h := field b 0 4
  let c := field b 4 4
  let x := field b 0x10 8
  if 24 ≤ b.length ∧ bits h 0 16 = 0x5746 ∧ bits h 16 6 = wl ∧ bits h 22 2 = 0 ∧ bits h 24 8 = 1 ∧ 1 ≤ c ∧ c * sb = b.length - 24
      ∧ bits x 4 4 = 0 ∧ bits x 9 55 = 0 then some (field b 8 8, c) else none

/-- A big-endian field of a frame. -/
def netField (b : List Byte) (o n : Nat) : Nat := natOf ((b.drop o).take n).reverse

/-- The one's complement sum of 16-bit words, folded: 0xFFFF where a checksum over them is right. -/
def onesSum : List Byte → Nat
  | [] => 0
  | [a] => a.toNat * 256
  | a :: b :: r =>
    let x := a.toNat * 256 + b.toNat + onesSum r
    x % 2 ^ 16 + x / 2 ^ 16

/-- UDP in an IP datagram, its addresses given: checked, except for a zero checksum over IPv4. -/
def readUdp (addrs u : List Byte) (v4 : Bool) : Option Datagram :=
  let n := netField u 4 2
  if u.length < 8 ∨ n < 8 ∨ u.length < n then none
  else
    let u := u.take n
    let sum := onesSum (addrs ++ (byteList 4 n).reverse ++ [0, 0, 0, 17] ++ u)
    let bad := if netField u 6 2 = 0 then !v4 else sum != 0xFFFF
    some { dstPort := netField u 2 2, fragment := false, badChecksum := bad, payload := u.drop 8 }

/-- An IPv4 datagram. -/
def readIpv4 (b : List Byte) : Option Datagram :=
  let h := 4 * (netField b 0 1 % 16)
  let n := netField b 2 2
  if b.length < 20 ∨ netField b 0 1 / 16 ≠ 4 ∨ h < 20 ∨ n < h ∨ b.length < n then none
  else
    let cut := netField b 6 2 % 2 ^ 14 != 0
    if cut then some { dstPort := 0, fragment := true, badChecksum := false, payload := [] }
    else if onesSum (b.take h) ≠ 0xFFFF then some { dstPort := 0, fragment := false, badChecksum := true, payload := [] }
    else if netField b 9 1 ≠ 17 then none
    else readUdp ((b.drop 12).take 8) ((b.take n).drop h) true

/-- The headers of an IPv6 datagram, up to UDP. -/
def readIpv6Next (addrs : List Byte) : Nat → Nat → List Byte → Option Datagram
  | 0, _, _ => none
  | fuel + 1, next, b =>
    if next = 17 then readUdp addrs b false
    else if next = 44 then some { dstPort := 0, fragment := true, badChecksum := false, payload := [] }
    else if next = 0 ∨ next = 43 ∨ next = 60 then
      if b.length < 8 then none else readIpv6Next addrs fuel (netField b 0 1) (b.drop (8 * (netField b 1 1 + 1)))
    else none

/-- An IPv6 datagram. -/
def readIpv6 (b : List Byte) : Option Datagram :=
  let n := netField b 4 2
  if b.length < 40 + n ∨ netField b 0 1 / 16 ≠ 6 then none
  else readIpv6Next ((b.drop 8).take 32) 64 (netField b 6 1) ((b.drop 40).take n)

/-- The datagram of an Ethernet frame, without its frame check sequence: IPv4 or IPv6 with UDP, an optional single VLAN
tag, at most 9,216 bytes (R341). -/
def readFrame (b : List Byte) : Option Datagram :=
  let ip (type : Nat) (b : List Byte) : Option Datagram :=
    if type = 0x0800 then readIpv4 b else if type = 0x86DD then readIpv6 b else none
  if b.length < 14 ∨ 9216 < b.length then none
  else if netField b 12 2 = 0x8100 then (if b.length < 18 then none else ip (netField b 16 2) (b.drop 18))
  else ip (netField b 12 2) (b.drop 14)

/-- A datagram whose well frame keeps R342 reaches its well.  While an extent that has room is open, ingest waits for
its copying, and whether the hub's buffer still takes the datagram is a free choice (R355). -/
def ingestFrame (s : State) (k wl f c : Nat) (payload : List Byte) : State :=
  let (full, s) : Bool × State :=
    if (s.well wl).exts.any fun x => !x.held then
      let (n, s) := drawNat s
      (n % 2 == 1, s)
    else (false, s)
  if full then dropFlits s k 1
  else if f + c ≤ (s.well wl).head then addStale s wl c
  else frameStep s wl f (f + c) (some payload)

/-- INGEST_FRAME: a frame of an ingest port that is UP reaches its well, or is counted in DROP. -/
def execIngestFrame (port : Nat) (frame : List Byte) (s : State) : Result :=
  let k := 13 + port
  if !(s.link k).carries then .next s
  else match readFrame frame with
  | none => .next s
  | some dg =>
    if dg.fragment || dg.badChecksum then .next (dropFlits s k 1)
    else match ingestWell s dg.dstPort with
    | none => .next (dropFlits s k 1)
    | some wl => match wellFrame wl (s.well wl).sbytes dg.payload with
      | none => .next (dropFlits s k 1)
      | some (f, c) =>
        if 2 ^ 63 ≤ f + c then .next (dropFlits s k 1)
        else .next (ingestFrame s k wl f c (dg.payload.drop 24))

/-! ### Candidates (R251, R349) -/

def freeSlot (cs : List Candidate) : Nat := ((List.range 256).find? fun k => cs.all fun c => c.slot != k).getD 0

/-- A candidate enters the ring, or is refused as LOST. -/
def enterCandidate (s : State) (wl : Nat) (b : List Byte) : State :=
  let w := s.well wl
  let t := BitVec.ofNat 64 (field b 0 8)
  let x := field b 8 8
  if w.cands.length = 256 then reportLost (s.modWell wl fun w => { w with causeR := true }) wl t
  else
    let c : Candidate := { slot := freeSlot w.cands, seq := w.nextSeq, t := t, score := BitVec.ofNat 32 x, pre := BitVec.ofNat 16 (x / 2 ^ 32), cls := BitVec.ofNat 3 (x / 2 ^ 48) }
    s.modWell wl fun w => { w with cands := w.cands ++ [c], nextSeq := w.nextSeq + 1 }

/-- CANDIDATE_WRITE: the next candidate written to CAND. -/
def execCandidateWrite (wl : Nat) (s : State) : Result :=
  let w := s.well wl
  match w.candIn with
  | [] => .next s
  | b :: rest =>
    let s := s.modWell wl fun w => { w with candIn := rest }
    .next (if w.state == .armed then enterCandidate s wl b else s)

def Candidate.first (c : Candidate) : Int := c.t.toInt - c.pre.toNat

/-- The candidate of smallest t − PRE, the earliest on a tie. -/
def bestCandidate : List Candidate → Option Candidate
  | [] => none
  | c :: cs => match bestCandidate cs with
    | none => some c
    | some d => if c.first ≤ d.first then some c else some d

/-- The quad of WCAND. -/
def candidateQuad (w : Well) (wl : Nat) : Nat × Nat × Nat × Nat :=
  match bestCandidate w.cands with
  | none => (0, 0, 0, 0)
  | some c => (c.t.toNat, c.score.toNat + c.pre.toNat * 2 ^ 32 + c.cls.toNat * 2 ^ 48, word64 (c.first - w.spill),
      2 ^ 63 + wl * 2 ^ 32 + c.seq.toNat * 2 ^ 8 + c.slot)

/-! ### Verdicts (R252 to R254, R354) -/

/-- A claim gets the next id; the well keeps the 256 most recent. -/
def issueClaim (s : State) (wl : Nat) (c : Claim) : Claim × State :=
  let w := s.well wl
  let c := { c with id := BitVec.ofNat 16 w.nextId }
  let keep := (w.claims.filter fun d => d.id != c.id) ++ [c]
  (c, s.modWell wl fun w => { w with claims := keep.drop (keep.length - 256), nextId := w.nextId % 65535 + 1 })

/-- A span added to the spans an extent has to copy; spans that touch are one. -/
def addSpan : List (Int × Int) → Int → Int → List (Int × Int)
  | [], f, l => [(f, l)]
  | (a, b) :: r, f, l =>
    if l + 1 < a then (f, l) :: (a, b) :: r
    else if b + 1 < f then (a, b) :: addSpan r f l
    else addSpan r (min a f) (max b l)

/-- An extent that a claim of [lo2, hi] joins. -/
def Extent.join (x : Extent) (lo2 hi : Int) : Extent :=
  let below := if lo2 < x.a then addSpan x.todo lo2 (x.a - 1) else x.todo
  let todo := if x.b < hi then addSpan below (x.b + 1) hi else below
  { x with a := min x.a lo2, b := max x.b hi, todo := todo }

/-- The lowest-numbered open extent of a class that a window meets. -/
def meetingExtent (w : Well) (cls : Nat) (lo2 hi : Int) : Option Extent :=
  (byNumber w.exts).find? fun x => x.cls.toNat == cls && decide (x.a ≤ hi + 1) && decide (lo2 ≤ x.b + 1)

/-- A claim that has an extent: its record, what can be copied at once, its word. -/
def drawClaim (s : State) (wl cls : Nat) (x : Extent) (lo hi lo2 : Int) : Nat × State :=
  let state : BitVec 3 := if lo < lo2 then 4 else 2
  let (c, s) := issueClaim s wl { id := 0, state := state, lostn := (lo2 - lo).toNat, lo := lo, hi := hi, ext := x.no }
  let s := modExtent s wl x.no fun y => { y with claims := y.claims + 1 }
  let s := writeRecord s wl (recordHead (1 + cls * 2 ^ 8 + x.no * 2 ^ 16 + c.id.toNat * 2 ^ 32) (word64 lo) (word64 hi)
    (state.toNat + satLost c.lostn * 2 ^ 32))
  let s := match (s.well wl).exts.find? fun y => y.no == x.no with
    | some y => closeExtent (copyExtent s wl y) wl y.no
    | none => s
  (c.word, s)

/-- An accept or a WDRAW at its commit (R354): the claim word. -/
def claimWindow (s : State) (wl cls : Nat) (t : Int) (pre post : Nat) : Nat × State :=
  let w := s.well wl
  let lo := t - pre
  let hi := t + post
  if hi < w.spill then
    let (c, s) := issueClaim s wl { id := 0, state := 5, lostn := (hi - lo + 1).toNat, lo := lo, hi := hi, ext := 0 }
    (c.word, s)
  else
    let lo2 := max lo w.spill
    match meetingExtent w cls lo2 hi, w.merge.getLsbD cls with
    | some x, true => drawClaim (modExtent s wl x.no fun y => y.join lo2 hi) wl cls x lo hi lo2
    | _, _ =>
      if w.maxext ≤ w.exts.length then
        (2 ^ 63 + 7 * 2 ^ 56, reportLost (s.modWell wl fun w => { w with causeE := true }) wl (BitVec.ofInt 64 t))
      else
        let x : Extent := { no := w.nextExt, cls := BitVec.ofNat 3 cls, a := lo2, b := hi, todo := [(lo2, hi)] }
        drawClaim (s.modWell wl fun w => { w with exts := w.exts ++ [x], nextExt := w.nextExt % 65535 + 1 }) wl cls x lo hi lo2

/-- VERD at its commit: the claim word, 0 for a stale ticket. -/
def judgeTicket (s : State) (wl : Nat) (ticket verdict : Nat) : Nat × State :=
  let w := s.well wl
  let c := w.cands.find? fun c => c.slot == bits ticket 0 8 && c.seq.toNat == bits ticket 8 24
  match decide (bits ticket 63 1 = 1) && w.state == .armed, c with
  | true, some c =>
    let s := s.modWell wl fun w => { w with cands := w.cands.filter (fun d => d.slot != c.slot), causeR := false }
    if bits verdict 0 1 = 0 then (2 ^ 63 + 6 * 2 ^ 56, s)
    else
      let pre := if bits verdict 1 1 = 1 then bits verdict 32 16 else c.pre.toNat
      claimWindow s wl c.cls.toNat c.t.toInt pre (bits verdict 16 16)
  | _, _ => (0, s)

/-- WDRAW at its commit. -/
def drawAt (s : State) (wl cls t verdict : Nat) : Nat × State :=
  if (s.well wl).state != .armed then (0, s)
  else claimWindow s wl cls (BitVec.ofNat 64 t).toInt (bits verdict 32 16) (bits verdict 16 16)

/-! ### WSTAT, WCLOSE (R253) -/

def Well.claimWord (w : Well) (id : Nat) : Nat :=
  match w.claims.find? fun c => c.id.toNat == id with
  | some c => c.word
  | none => 0

def WState.code : WState → Nat
  | .closed => 0
  | .armed => 1
  | .closing => 2

def Well.item (w : Well) (item id : Nat) : Nat :=
  match item with
  | 0 => w.head
  | 1 => word64 w.spill
  | 2 => w.state.code + w.exts.length * 2 ^ 8 + w.cands.length * 2 ^ 16
  | 3 => w.dead
  | 4 => w.lostc
  | 5 => w.claimWord id
  | _ => w.gaps

/-- A claim whose window goes on past the last sample: it ends LATE, with the missing tail counted. -/
def Claim.cut (last : Int) (c : Claim) : Claim :=
  if c.ext ≠ 0 ∧ last < c.hi then { c with lostn := c.lostn + (c.hi - max last (c.lo - 1)).toNat, state := 4 } else c

/-- An extent that ends at HEAD; one wholly above it holds no sample any more. -/
def Extent.cut (last : Int) (x : Extent) : Extent :=
  if x.b ≤ last then x
  else
    let todo := x.todo.filterMap fun p => if p.1 ≤ last then some (p.1, min p.2 last) else none
    { x with b := last, todo := todo }

/-- WCLOSE at its commit. -/
def closeWell (s : State) (wl : Nat) : State :=
  let w := s.well wl
  if w.state != .armed then s
  else
    let last := (w.head : Int) - 1
    let s := s.modWell wl fun w => { w with
      state := .closing, cands := [], causeR := false, exts := w.exts.map (Extent.cut last), claims := w.claims.map (Claim.cut last) }
    drawStep s wl

/-! ### WARM (R250, R344, R345, R356) -/

structure WellDesc where
  base   : Nat
  log2n  : Nat
  sbytes : Nat
  maxext : Nat
  merge  : Nat
  ingp   : Nat
  rate   : Nat
  head   : Nat
  dva    : Nat
  dlen   : Nat
  lcore  : Nat
  deriving DecidableEq, Repr

/-- A descriptor whose fields keep R250, R344 and R356; its pages are not looked at. -/
def wellDesc (b : List Byte) : Option WellDesc :=
  let c := field b 8 8
  let log2n := bits c 0 6
  let sb := 2 ^ (bits c 8 3 + 1)
  let d : WellDesc := ⟨field b 0 8, log2n, sb, bits c 12 4, bits c 16 8, bits c 32 16, bits (field b 0x10 8) 0 48,
    field b 0x18 8, field b 0x20 8, field b 0x28 8, bits (field b 0x30 8) 0 7⟩
  let zeros := bits c 6 2 == 0 && bits c 11 1 == 0 && bits c 24 8 == 0 && bits c 48 16 == 0
    && bits (field b 0x10 8) 48 16 == 0 && bits (field b 0x30 8) 7 57 == 0 && field b 0x38 8 == 0
  if zeros ∧ 4 ≤ log2n ∧ log2n ≤ 32 ∧ bits c 8 3 ≤ 4 ∧ 1 ≤ d.maxext ∧ d.maxext ≤ 8 ∧ d.head < 2 ^ 62
      ∧ 2 ^ log2n * sb ≤ 2 ^ 34 ∧ d.base % (2 ^ log2n * sb) = 0 ∧ d.dva % 64 = 0 ∧ d.dlen % 64 = 0 ∧ 128 ≤ d.dlen then some d
  else none

/-- The leaves of a range of addresses: none where one does not permit the access. -/
def leavesOf (s : State) (root : Nat) (want : Want) : Nat → Nat → Nat → Option (List (Page × Nat))
  | 0, _, _ => none
  | fuel + 1, va, len => match walk s root va want with
    | .page p _ leaf =>
      let here := p.va + 2 ^ p.log2 - va
      if len ≤ here then some [(p, leaf)] else (leavesOf s root want fuel (va + here) (len - here)).map ((p, leaf) :: ·)
    | _ => none

def rangeLeaves (s : State) (root va len : Nat) (want : Want) : Option (List (Page × Nat)) :=
  match rangeFault va len with
  | some _ => none
  | none => leavesOf s root want (len / 2 ^ 16 + 2) va len

def pinned (leaf : Nat) : Bool := bits leaf 10 1 == 1

/-- The die of a near-tier page. -/
def nearDie (p : Page) : Option Nat := match placeOf p.pa with
  | .near d => some d
  | _ => none

/-- The pages of the ring, the port block and the draw output area, where they keep R344 and R356. -/
def wellPages (s : State) (root gb : Nat) (d : WellDesc) : Option (List Page × Page × List Page) :=
  let ring := rangeLeaves s root d.base (2 ^ d.log2n * d.sbytes) { write := true }
  let port := rangeLeaves s root (gb + 0x40) 288 { write := false, fe := true, blind := true }
  let draw := rangeLeaves s root d.dva d.dlen { write := true }
  match ring, port, draw with
  | some (r :: rs), some [p], some (o :: os) =>
    let die := nearDie r.1
    let ringOk := (r :: rs).all fun x => pinned x.2 && !x.1.fe && nearDie x.1 == die
    let portOk := pinned p.2 && nearDie p.1 == die
    let drawOk := (o :: os).all fun x => pinned x.2 && (placeOf x.1.pa).isMemory
    if die.isSome && ringOk && portOk && drawOk then some ((r :: rs).map Prod.fst, p.1, (o :: os).map Prod.fst) else none
  | _, _, _ => none

/-- A well armed from a descriptor that is well formed. -/
def armWell (s : State) (wl ctx gb : Nat) (d : WellDesc) (ring : List Page) (port : Page) (draw : List Page) : State :=
  let n := 2 ^ d.log2n * d.sbytes
  let w : Well := { s.well wl with
    ctx := ctx, ringVa := d.base, ringPages := ring, log2n := d.log2n, sbytes := d.sbytes, maxext := d.maxext
    merge := BitVec.ofNat 8 d.merge, ingp := BitVec.ofNat 16 d.ingp, rate := d.rate, port := localPa (port.paOf (gb + 0x40))
    draw := localPa (paIn draw d.dva), drawVa := d.dva, drawPages := draw, dlen := d.dlen, lcore := (coreOfHandle d.lcore).getD 0
    head := d.head, gapn := 0, gaps := 0, stalen := 0, lostc := 0, lostt := 0, dead := 0, causeR := false, causeE := false
    cands := [], nextSeq := 0, exts := [], nextExt := 1, claims := [], nextId := 1, wrpos := 0, rdpos := 0, recs := []
    pubs := [], candIn := [], rdIn := [] }
  let s := s.setWell wl w
  let s := writePages s ring d.base (List.replicate n 0) false
  let retain := if d.rate = 0 then 0 else 2 ^ d.log2n * 10 ^ 9 / d.rate
  let s := portWrite s wl 0x00 (byteList 4 (d.head % 2 ^ 32) ++ byteList 4 (low32 ((d.head : Int) - w.size)) ++ byteList 8 0
    ++ byteList 8 retain ++ List.replicate 0x28 0)
  let s := portWrite s wl 0x60 (List.replicate 192 0)
  let s := drawBytes s wl d.dva (List.replicate 64 0)
  lookTriggers (s.modWell wl fun w => { w with state := .armed }) wl

/-- WARM of a well from the bytes of its descriptor: the result in gD, and the state. -/
def warmWell (s : State) (wl ctx gb : Nat) (b : List Byte) : Nat × State :=
  match wellDesc b with
  | none => (2, s)
  | some d =>
    let mine := match coreOfHandle d.lcore with
      | some c => inPartition s ctx c
      | none => false
    if !mine then (2, s)
    else match wellPages s (s.ctx ctx).root.toNat gb d with
    | none => (2, s)
    | some (ring, port, draw) => (0, armWell s wl ctx gb d ring port draw)

end Sys2Proof.Machine
end

