-- ==== Sys2Proof/Machine/PowerOps.lean ====
section
/-! DEFINITION. Charge, power hints, clock spines and thermal trips: spec/27_power.md R365 to R373, spec/10_engines.md
R211 to R214, spec/12_pump_system.md R255. -/

namespace Sys2Proof.Machine

/-! ### Hints (R211, R212, R214) -/

/-- The steps of a hint's ramp that are due. -/
def Hint.due (h : Hint) (now : Nat) : Nat :=
  ((List.range 8).filter fun j => decide (max h.issue (h.start + 250 * (j + 1) - 2000) ≤ now)).length

/-- A hint at a moment: its regulators told, its ramp as far as it has come. -/
def Hint.ramp (now : Nat) (h : Hint) : Hint :=
  let j := h.due now
  { h with steps := j, cur := h.int * j / 8, told := h.told || decide (max h.issue (h.start - 5000) ≤ now) }

/-- The entries of a table at a moment; an entry frees itself at END. -/
def rampTable (now : Nat) (l : List Hint) : List Hint := (l.filter fun h => decide (now < h.stop)).map (Hint.ramp now)

/-- HINT_RAMP_STEP. -/
def execHintRampStep (die cx : Nat) (s : State) : Result :=
  let k := cx * 4 + die
  .next { s with hints := kput s.hints k (rampTable s.nstime (kget s.hints k [])) }

/-- Whether a region has an island command outstanding. -/
def islandBusy (s : State) (key : Nat) : Bool :=
  s.islands.any fun p => commandsOf key p.2.fifo || commandsOf key p.2.core.queue || p.2.core.load.any (·.region == key)
    || p.2.core.run.any (·.region == key) || p.2.core.drain.any (·.region == key) || p.2.core.group.any (·.region == key)

/-- The kernels that a count of a hint goes to (R369): the one that issued it, while it is the same launch; of a pump
core's, every kernel that fires and has had an island command outstanding in the interval. -/
def hintKernels (s : State) (ctx die run : Nat) (region : Option Nat) : List Nat :=
  match region with
  | some k => if (s.region k).any fun r => r.runId == run then [k] else []
  | none => (s.regions.filter fun p =>
      p.2.ctx == ctx && p.2.die == die && p.2.kernel == .firing && p.2.worked).map Prod.fst

def countPower (f : Power → Power) (s : State) (key : Nat) : State := s.modRegion key fun r => { r with power := f r.power }

/-- A hint takes an entry at its issue, or is dropped, counted and noticed. -/
def enterHint (issue : Nat) (s : State) (q : HintReq) : State :=
  let k := q.ctx * 4 + q.die
  let l := kget s.hints k []
  if l.length < 8 then
    let start := issue + 1000 * q.onset
    let h : Hint := { start := start, stop := start + 1000 * q.len, int := q.int, issue := issue, region := q.region, run := q.run }
    { s with hints := kput s.hints k (l ++ [h]) }
  else
    let s := match q.region with
      | some _ => (hintKernels s q.ctx q.die q.run q.region).foldl (countPower fun p => { p with hdrop := p.hdrop + 1 }) s
      | none => { s with hdrops := kput s.hdrops k (kget s.hdrops k 0 + 1) }
    hwNotice s q.ctx q.die 4

/-- The end of an interval for the hints of one context and die: a dry interval moves their ends (R214). -/
def drySlide (from_ : Nat) (s : State) (p : Nat × List Hint) : State :=
  let ctx := p.1 / 4
  let die := p.1 % 4
  let isl := islandsOf s ctx die
  let active (h : Hint) : Bool := decide (h.start ≤ from_) && decide (from_ + 1000 ≤ h.stop)
  let dry := p.2.any active && isl.all fun en => !(s.island en).started && !(s.island en).heldBack
  if !dry then s
  else
    let ks := ((p.2.filter active).flatMap fun h => hintKernels s ctx die h.run h.region).eraseDups
    let s := ks.foldl (countPower fun p => { p with dry := p.dry + 1 }) s
    let slide (h : Hint) : Hint := if active h then { h with stop := h.stop + 1000 } else h
    { s with hints := kput s.hints p.1 (p.2.map slide) }

/-! ### Charge (R366 to R369) -/

/-- A context denied on a die in an interval: its notice (R368). -/
def denyNotices (s : State) : State :=
  let s := s.regions.foldl (fun s p => noteDenied s p.2) s
  s.denied.foldl (fun s p => hwNotice s p.1 p.2 1) { s with denied := [] }

def closeIslandInterval (x : Island) : Island := { x with ichg := 0, started := false, heldBack := false, thr := false }

/-- The end of an interval: dry slides, notices, the power counters of the kernels at work. -/
def endInterval (s : State) (from_ : Nat) : State :=
  let s := s.hints.foldl (drySlide from_) s
  let s := denyNotices s
  let busy := (s.regions.filter fun p => p.2.kernel == .firing || p.2.kernel == .draining).map Prod.fst
  let s := busy.foldl writePower s
  let tile (p : Nat × Tile) : Nat × Tile := (p.1, { p.2 with refused := false })
  let work (p : Nat × Region) : Nat × Region := (p.1, { p.2 with worked := islandBusy s p.1 })
  { s with hdrops := [], regions := s.regions.map work, undecl := [], islands := s.islands.map fun p => (p.1, closeIslandInterval p.2), tiles := s.tiles.map tile }

/-- An island with a load or a run queued. -/
def islandWants (x : Island) : Bool :=
  x.core.load.isSome || x.core.run.isSome || x.core.group.isSome || x.core.queue.any fun c =>
    c.op == 0xC1 || c.op == 0xC2 || c.op == 0xC3 || c.op == 0xC5

/-- Whether a trip holds for a die: its own, or one of H, which acts on all (R372). -/
def tripped (m : BitVec 5) (die : Nat) : Bool := m.getLsbD die || m.getLsbD 4

/-- The present tiles of a context's regions on a die that take charge. -/
def chargedTiles (s : State) (ctx die : Nat) : List Nat :=
  s.regions.flatMap fun p =>
    let r := p.2
    if r.ctx = ctx ∧ r.die = die ∧ (r.kernel = .primed ∨ r.kernel = .firing ∨ r.kernel = .draining) then r.sites.filter (present s) else []

/-- The doses of one context on one die (R367): of each of its islands that want charge, and of each of its tiles. -/
def shares (s : State) (ctx die : Nat) : (List Nat × Nat) × (List Nat × Nat) :=
  let b := ((s.ctx ctx).grants.toList.getD die {}).budget.toNat
  let b := if tripped s.t2 die then b / 2 else b
  let isl := (islandsOf s ctx die).filter fun en => islandWants (s.island en)
  let n := isl.length
  let p := if n = 0 then 0 else min (3 * b / 4) (32 * (s.spine (spineKey die 0)).run * max (intensity s ctx die) (4 * n))
  let ts := chargedTiles s ctx die
  ((isl, p / (64 * n)), (ts, (b - p) / (64 * ts.length)))

def setShares (s : State) (ctx die : Nat) : State :=
  let ((isl, di), (ts, dt)) := shares s ctx die
  { s with
    islDose := isl.foldl (fun m k => kput m k di) s.islDose
    tileDose := ts.foldl (fun m k => kput m k dt) s.tileDose }

/-- The tree's shares at the start of an interval. -/
def allShares (s : State) : State :=
  let s := { s with islDose := [], tileDose := [] }
  s.ctxs.foldl (fun s p => (List.range 4).foldl (fun s d => setShares s p.1 d) s) s

/-- CHARGE_INTERVAL_START (R211, R366, R367): interval number `interval` starts once its time has come and the doses of
the one before have been given. -/
def execChargeIntervalStart (s : State) : Result :=
  let t := 1000 * s.interval
  if s.nstime < t ∨ (s.interval ≠ 0 ∧ s.doses ≠ 64) then .next s
  else
    let s := if s.interval = 0 then s else endInterval s (t - 1000)
    let s : State := { s with hints := s.hints.map fun p => (p.1, rampTable t p.2) }
    let reqs := s.hintReqs
    let s := reqs.foldl (enterHint t) { s with hintReqs := [] }
    let s : State := { s with hints := s.hints.map fun p => (p.1, rampTable t p.2) }
    .next { allShares s with interval := s.interval + 1, doses := 0 }

/-- A dose at a tile: at once between rounds, else after the round that runs. -/
def doseTile (m : KMap Nat) (p : Nat × Tile) : Nat × Tile :=
  let d := kget m p.1 0
  let x := p.2
  (p.1, if x.todo.isEmpty then { x with balance := min 4096 (x.balance + d) } else { x with doseDue := x.doseDue + d })

def doseIsland (m : KMap Nat) (p : Nat × Island) : Nat × Island :=
  (p.1, { p.2 with balance := min 65536 (p.2.balance + kget m p.1 0) })

/-- Tiles that have a dose and are not listed yet. -/
def listTiles (s : State) : State :=
  { s with tiles := s.tileDose.foldl (fun m p => if (kfind m p.1).isSome then m else kput m p.1 {}) s.tiles }

/-- CHARGE_DOSE (R366): the next of the 64 doses of an interval. -/
def execChargeDose (s : State) : Result :=
  let t := 1000 * (s.interval - 1)
  if s.interval = 0 ∨ 64 ≤ s.doses ∨ 64 * (s.nstime - t) < 1000 * s.doses then .next s
  else
    let s := listTiles s
    .next { s with
      doses := s.doses + 1, tiles := s.tiles.map (doseTile s.tileDose), islands := s.islands.map (doseIsland s.islDose) }

/-! ### Spines (R370, R371) -/

/-- SPINE.freq commits. -/
def setSpine (s : State) (o : Owed) (k mhz : Nat) : State :=
  let s := takeOver s k
  { s with spines := kput s.spines k { s.spine k with set := mhz, owed := some o } }

/-- A spine that runs at its target answers its request. -/
def answerSpine (s : State) (k : Nat) : State :=
  let x := s.spine k
  match x.owed with
  | none => s
  | some o => if x.run = x.set then replyTo { s with spines := kput s.spines k { x with owed := none } } o 0 0 0 else s

/-- SPINE_FREQ_STEP: one step of 50 MHz toward where the spine goes, at most one in a µs. -/
def execSpineFreqStep (sp : Nat) (s : State) : Result :=
  let x := s.spine sp
  let goal := x.goal s.slackK (tripped s.t2 (sp / 8))
  if 32 ≤ sp ∨ s.nstime < x.stepAt + 1000 ∨ x.run = goal then .next (answerSpine s sp)
  else
    let run := if x.run < goal then min goal (x.run + 50) else max goal (x.run - 50)
    .next (answerSpine { s with spines := kput s.spines sp { x with run := run, stepAt := s.nstime } } sp)

/-- SPINE.sel commits: every tile of the region starts its change. -/
def selectSpine (s : State) (o : Owed) (key sel : Nat) : State :=
  match s.region key with
  | none => replyTo s o 2 0 0
  | some r =>
    let s := (r.sites.filter (present s)).foldl (fun s t =>
      s.modTile t fun x => { x with switching := some (16, BitVec.ofNat 3 sel) }) s
    s.modRegion key fun r => { r with spineOwed := r.spineOwed ++ [o] }

/-- SPINE_SWITCH_COMPLETE (R370): a tile that has waited its 16 fc runs on the new spine; the last one of the region
answers. -/
def execSpineSwitchComplete (t : Nat) (s : State) : Result :=
  match (s.tile t).switching with
  | some (0, sp) =>
    let s := s.modTile t fun x => { x with spine := sp, switching := none }
    match regionOf s t with
    | none => .next s
    | some key => match s.region key with
      | none => .next s
      | some r =>
        if r.sites.any fun u => (s.tile u).switching.isSome then .next s
        else .next (replyAll (s.setRegion key { r with spineOwed := [] }) r.spineOwed 0 0)
  | _ => .next s

/-! ### Thermal trips (R372, R373) -/

/-- The compute dies a reading acts on. -/
def tripDies (die : Nat) : List Nat := if die = 4 then [0, 1, 2, 3] else [die]

/-- Contexts with a kernel on a die. -/
def ctxsOn (s : State) (die : Nat) : List Nat :=
  (s.regions.flatMap fun p => if p.2.die = die ∧ p.2.kernel ≠ .none then [p.2.ctx] else []).eraseDups

/-- The notice of a trip at every context with a kernel on the die; a context in host-assisted mode is FAULTED. -/
def thermalNotice (bit_ : Nat) (s : State) (die : Nat) : State :=
  (ctxsOn s die).foldl (fun s c =>
    let s := hwNotice s c die bit_
    if (s.ctx c).mode.getLsbD 3 then raiseCtxFault s c 0 else s) s

/-- The bit of a die in T1, T2 and T3. -/
def dieBit (die : Nat) : BitVec 5 := BitVec.ofNat 5 (2 ^ die)

/-- T1. -/
def execT1 (die : Nat) (s : State) : Result :=
  if 4 < die ∨ s.t1.getLsbD die then .next s
  else .next (sendMsix ((tripDies die).foldl (thermalNotice 2) { s with t1 := s.t1 ||| dieBit die }) 68)

def diesSpines (dies : List Nat) : List Nat := dies.flatMap fun d => (List.range 8).map (spineKey d)

/-- T2. -/
def execT2 (die : Nat) (s : State) : Result :=
  if 4 < die ∨ s.t2.getLsbD die then .next s
  else
    let s := (tripDies die).foldl (thermalNotice 3) { s with t2 := s.t2 ||| dieBit die }
    .next (sendMsix ((diesSpines (tripDies die)).foldl takeOver s) 68)

/-- T3: every context but 0 is frozen and swapped out, each in its turn (R265). -/
def execT3 (die : Nat) (s : State) : Result :=
  let s : State := { s with t3 := s.t3 ||| dieBit die }
  .next (serveCtx ((s.ctxs.map Prod.fst).foldl tripCtx s))

/-- T4: module power is removed. -/
def execT4 (_die : Nat) (s : State) : Result := .next { s with powerOff := true }

/-- THERMAL_CLEAR: a reading below a trip's clear level. -/
def execThermalClear (die trip : Nat) (s : State) : Result :=
  match trip with
  | 1 => .next { s with t1 := s.t1 &&& ~~~(dieBit die) }
  | 2 => .next ((diesSpines (tripDies die)).foldl takeOver { s with t2 := s.t2 &&& ~~~(dieBit die) })
  | 3 => .next { s with t3 := s.t3 &&& ~~~(dieBit die) }
  | _ => .next s

end Sys2Proof.Machine
end

