-- ==== Sys2Proof/Machine/LinkOps.lean ====
section
/-! DEFINITION. Links and their flits: spec/23_link.md R333 to R335, R340, and the atomics that a core or a flit asks a
memory controller for: spec/11_pump_memory_control.md R220, R221. -/

namespace Sys2Proof.Machine

/-! ### Atomics at a memory controller (R220, R221) -/

/-- The word an atomic leaves, of w bits; none where it leaves the word alone. -/
def atomicWord (op : RemoteOp) (n : Bool) (w old b expected : Nat) : Option Nat :=
  match op with
  | .cas => if old = expected % 2 ^ w then some b else none
  | .swap => some b
  | .add => some ((old + b) % 2 ^ w)
  | .min => some (if n then Alu.minN w old b else Alu.minS w old b).1
  | .max => some (if n then Alu.maxN w old b else Alu.maxS w old b).1
  | .and => some (old &&& b)
  | .or => some (old ||| b)
  | .xadd => none

/-- FXADD on a word of 32 bytes: what it leaves, and the readout with its flags.  Kind 0 adds, 1 reads, 2 reads and
clears. -/
def xaddAct (bf : Bool) (kind word b : Nat) : Option Nat × Nat :=
  let fmt : Fmt := if bf then .bf16 else .fp32
  if kind = 0 then (some (xaddWord word (decodeLane fmt (b % 2 ^ laneWidth fmt))), 0)
  else
    let (c, fl) := xaddRead fmt word
    (if kind = 2 then some 0 else none, c + bit fl.sat * 2 ^ 32 + bit fl.nan * 2 ^ 33)

/-- An atomic performed on local memory: the old value or the readout, and the state after it. -/
def performAtomic (s : State) (op : RemoteOp) (n : Bool) (pa len b expected : Nat) : Nat × State :=
  let old := natOf (s.mem.reads (localPa pa) len)
  let (new, res) : Option Nat × Nat := match op with
    | .xadd => xaddAct n expected old b
    | op => (atomicWord op n (8 * len) old (b % 2 ^ (8 * len)) expected, old)
  (res, match new with
    | some v => memStore s pa (byteList len v) none
    | none => touchMonitors s pa len)

/-! ### States (R333, R334, R337) -/

def isGriral (k : Nat) : Bool := decide (1 ≤ k) && decide (k ≤ 12)

/-- A change of a link's STATE is reported by vector 69. -/
def setLinkState (s : State) (k : Nat) (st : LinkState) : State :=
  if (s.link k).state == st then s
  else sendMsix (s.setLink k { s.link k with state := st, lanes := if st == .up || st == .degraded then (s.link k).lanes else 0 }) 69

/-- The answer to a request of this module. -/
def answerRemote (s : State) (id : Nat) (data : List Byte) (fault : Nat) : State :=
  { s with remotes := s.remotes.map fun r => if r.id = id then { r with answer := some (data, fault) } else r }

/-- A flit discarded: counted, and a request among them completes with 0x06 where it came from. -/
def discardFlit (k : Nat) (s : State) (f : Flit) : State :=
  let s := dropFlits s k 1
  let refuse (id : Nat) : State :=
    if f.src = thisModule then answerRemote s id [] 6 else sendOrDrop s f.src (.loadReply id [] 6)
  match f.body with
  | .load _ _ id => refuse id
  | .atomic _ _ _ _ id _ _ => refuse id
  | .waitv _ id => refuse id
  | .loadReply _ _ _ | .store _ _ | .tail _ _ | .arrival _ _ | .completion _ _ _ _ => s

/-- FAILED or DOWN: the held flits are discarded. -/
def endLink (s : State) (k : Nat) (st : LinkState) : State :=
  let held := (s.link k).held
  let s := setLinkState (s.setLink k { s.link k with held := [] }) k st
  held.foldl (discardFlit k) s

/-- LCTL.EN written (R333). -/
def setLinkEnable (s : State) (k : Nat) (en : Bool) : State :=
  let s := s.setLink k { s.link k with en := en }
  if !en then endLink s k .down
  else if (s.link k).state == .down then setLinkState s k .training else s

/-- LCTL.RETRAIN written 1 (R335). -/
def retrainLink (s : State) (k : Nat) : State := if (s.link k).state == .failed then setLinkState s k .training else s

/-- Where training to a width leads: none where the width does not train. -/
def trainedTo (k lanes : Nat) : Option LinkState :=
  if k = 0 then (if lanes = 16 then some .up else if 1 ≤ lanes ∧ lanes < 16 then some .degraded else none)
  else if k ≤ 12 then (if lanes = 8 then some .up else if lanes = 4 ∨ lanes = 2 then some .degraded else none)
  else if 1 ≤ lanes then some .up else none

/-- LINK_ENABLE. -/
def execLinkEnable (k : Nat) (en : Bool) (s : State) : Result := .next (if k ≤ 16 then setLinkEnable s k en else s)

/-- RETRAIN. -/
def execRetrain (k : Nat) (s : State) : Result := .next (if k ≤ 16 then retrainLink s k else s)

/-- LINK_TRAINED: held flits are replayed, which counts them as sent again; a Griral link has learned its peer. -/
def execLinkTrained (k lanes : Nat) (s : State) : Result :=
  match trainedTo k lanes with
  | none => .next s
  | some st =>
    if 16 < k ∨ (s.link k).state ≠ .training then .next s
    else
      let (p, s) := drawNat s
      let x := s.link k
      let s := s.setLink k { x with
        lanes := lanes, retry := min (2 ^ 32 - 1) (x.retry + x.held.length)
        peer := if isGriral k then BitVec.ofNat 6 p else x.peer }
      .next (setLinkState s k st)

/-- LINK_TRAINING_FAIL: three attempts have failed. -/
def execLinkTrainingFail (k : Nat) (s : State) : Result :=
  .next (if (s.link k).state == .training then endLink s k .failed else s)

/-- Flits sent again for their CRC, a number that nothing fixes, counted in RETRY, saturating (R334, R335). -/
def countResent (s : State) (k : Nat) : State :=
  let (r, s) := drawNat s
  s.setLink k { s.link k with retry := min (2 ^ 32 - 1) ((s.link k).retry + r) }

/-- LINK_LANE_LOSS: a lane is lost, or sixteen flits in a row fail their CRC; what is not acknowledged is held. -/
def execLinkLaneLoss (k : Nat) (lane : Bool) (s : State) : Result :=
  .next (if (s.link k).carries then setLinkState (if lane then s else countResent s k) k .training else s)

/-! ### Flits (R334, R340) -/

/-- FLIT_ACK: the peer has the n oldest flits, some after being sent again. -/
def execFlitAck (k n : Nat) (s : State) : Result :=
  if isGriral k && (s.link k).carries && 0 < n && !(s.link k).held.isEmpty then
    let s := countResent s k
    .next (s.setLink k { s.link k with held := (s.link k).held.drop n })
  else .next s

/-- A flit on its way to another module leaves by the port for it, in order; a link that trains holds it, a dead one
discards it. -/
def forwardFlit (s : State) (f : Flit) : State :=
  let k := routeLink s f.dst
  if decide (k ≤ 12) && ((s.link k).carries || (s.link k).state == .training) then holdFlit s k f else discardFlit k s f

/-- What a flit for this module does. -/
def takeFlit (s : State) (f : Flit) : State :=
  match f.body with
  | .load pa len id =>
    if (placeOf pa).isMemory then sendOrDrop s f.src (.loadReply id (s.mem.reads (localPa pa) len) 0)
    else sendOrDrop s f.src (.loadReply id [] 2)
  | .loadReply id data fault => answerRemote s id data fault
  | .store pa data => physStore s pa data none
  | .atomic op n pa len id b expected =>
    if (placeOf pa).isMemory then
      let (v, s) := performAtomic s op n pa len b.toNat expected.toNat
      sendOrDrop s f.src (.loadReply id (byteList 8 v) 0)
    else sendOrDrop s f.src (.loadReply id [] 2)
  | .waitv _ id => sendOrDrop s f.src (.loadReply id [] 2)
  | .tail q index => tailWrite s (.module f.src) q index.toNat
  | .arrival ctx bar =>
    let bk := ctx * 32 + bar
    s.setBarrier bk { s.barrier bk with inbox := (s.barrier bk).inbox ++ [(none, f.src)] }
  | .completion ctx bar by_ n => toldComplete s (ctx * 32 + bar) by_ n

/-- FLIT_RECEIVE: a flit that passed its CRC and is next in order. -/
def execFlitReceive (k : Nat) (fl : Flit) (s : State) : Result :=
  if isGriral k && (s.link k).carries then .next (if fl.dst = thisModule then takeFlit s fl else forwardFlit s fl)
  else .next s

/-! ### The registers (R335) -/

def LinkState.code : LinkState → Nat
  | .down => 0
  | .training => 1
  | .up => 2
  | .degraded => 3
  | .failed => 4

def Link.reg (x : Link) (o : Nat) : Option Nat :=
  match o with
  | 0x00 => some (x.peer.toNat * 2 ^ 16 + x.lanes % 32 * 2 ^ 8 + x.state.code)
  | 0x08 => some (bit x.en)
  | 0x10 => some x.retry
  | 0x18 => some x.drop
  | _ => none

/-- RETRY and DROP are cleared by a read. -/
def Link.afterRead (x : Link) (o : Nat) : Link :=
  match o with
  | 0x10 => { x with retry := 0 }
  | 0x18 => { x with drop := 0 }
  | _ => x

/-- LCTL written. -/
def setLinkReg (s : State) (k o v : Nat) : State :=
  if o = 0x08 then
    let s := if bits v 1 1 = 1 then retrainLink s k else s
    setLinkEnable s k (v.testBit 0)
  else s

end Sys2Proof.Machine
end

