-- ==== Sys2Proof/Machine/Boot.lean ====
section
/-! DEFINITION. Boot, identity and measurement: spec/31_bringup.md R393 to R396.  The bytes of SPDM messages are those
of DMTF SPDM 1.3, which the rules name and do not print (log entry 16). -/

namespace Sys2Proof.Machine

/-! ### Boot (R393, R394) -/

/-- The module at power-on or PERST#: what the outside holds stays, and so do the tiers (log entry 2). -/
def powerOn (s : State) : State :=
  { State.reset with
    free := s.free, agenda := s.agenda, sent := s.sent, mem := s.mem, full := s.full, deep := s.deep, host := s.host }

def bootFail (s : State) (step code : Nat) : State :=
  { s with bootstat := { code := BitVec.ofNat 8 code, ready := false, step := BitVec.ofNat 4 step } }

/-- The fuse maps of the four dies in FUSEd.i order. -/
def fuseBytes (f : Vector (BitVec 384) 4) : List Byte := f.toList.flatMap fun m => byteList 48 m.toNat

/-- Key slot 0 holds the root key, 1 to 7 those of the list. -/
def keySlots (keys : List (Nat × Nat)) : KMap (Nat × Nat) :=
  ((Config.rootKey :: keys).take 8).zipIdx.map fun p => (p.2, p.1)

/-- The measurements of R396. -/
def measure (bo : BootInput) (fused : Vector (BitVec 384) 4) : KMap (List Byte) :=
  [(1, sha512 Config.hubRom), (2, sha512 bo.firmware), (3, sha512 bo.keyList), (4, sha512 (fuseBytes fused))]

/-- Steps 6 and 7: the fuse maps published, context 0 created, READY. -/
def bootReady (s : State) (bo : BootInput) : State :=
  let fused : Vector (BitVec 384) 4 := Vector.ofFn fun d => Config.fuseMap d.val
  { s with
    fused := fused, ctxs := [(0, { state := .ready })], keys := keySlots bo.keys, meas := measure bo fused
    bootstat := { code := 0, ready := true, step := 7 } }

/-- Step 1: the PCIe link is trained; the width that training reaches is a free value (log entry 78). -/
def trainHost (s : State) : State :=
  let (n, s) := drawNat s
  let lanes := n % 16 + 1
  s.setLink 0 { en := true, state := if lanes = 16 then .up else .degraded, lanes := lanes }

/-- The steps 2 to 7 in order. -/
def bootSteps (s : State) (bo : BootInput) : State :=
  if !rsaVerify Config.rootKey bo.firmware bo.firmwareSig then bootFail s 2 0x11
  else if !rsaVerify Config.rootKey bo.keyList bo.keyListSig then bootFail s 3 0x11
  else if !bo.nearTrains then bootFail { s with keys := keySlots bo.keys } 4 6
  else if !bo.farTrains then bootFail { s with keys := keySlots bo.keys } 5 6
  else bootReady s bo

/-- BOOT. -/
def execBoot (bo : BootInput) (s : State) : Result := .next (bootSteps (trainHost (powerOn s)) bo)

/-! ### SPDM (R395, R396) -/

/-- Version 1.3 of the header, code and two parameters, and the rest. -/
def spdmMsg (code p1 p2 : Nat) (data : List Byte) : List Byte :=
  byteList 1 0x13 ++ byteList 1 code ++ byteList 1 p1 ++ byteList 1 p2 ++ data

def spdmReq (code : Nat) (rq : SpdmRequest) : List Byte := spdmMsg code rq.param1 rq.param2 rq.data

def sendSpdm (s : State) (code : Nat) (msg : List Byte) : State := { s with sent := s.sent ++ [.spdm code msg] }

/-- ERROR: 1 invalid request, 3 busy, 4 unexpected request. -/
def spdmError (s : State) (e : Nat) : State := sendSpdm s 0x7F (spdmMsg 0x7F e 0 [])

/-- A request answered: Busy before READY, unexpected before the negotiation has come to it. -/
def spdmAnswer (s : State) (need : Nat) (code : Nat) (rq : SpdmRequest) (k : State → State) : State :=
  if !s.bootstat.ready then spdmError s 3
  else if s.spdm < need then spdmError s 4
  else k { s with spdmLog := s.spdmLog ++ spdmReq code rq }

/-- A response: sent and kept with the messages so far. -/
def respond (s : State) (phase code p1 p2 : Nat) (data : List Byte) : State :=
  let m := spdmMsg code p1 p2 data
  let s : State := { s with spdm := max s.spdm phase, spdmLog := s.spdmLog ++ m }
  sendSpdm s code m

/-- A response with a signature of the device identity key over the messages so far and its own bytes. -/
def respondSigned (s : State) (code p1 p2 : Nat) (data : List Byte) : State :=
  let sig := Config.deviceSign (s.spdmLog ++ spdmMsg code p1 p2 data)
  let s : State := { s with spdmLog := [] }
  sendSpdm s code (spdmMsg code p1 p2 (data ++ sig))

/-- Bytes that the responder chooses: free. -/
def freeBytes (s : State) : List Byte × State :=
  let (a, s) := drawWord s
  let (b, s) := drawWord s
  let (c, s) := drawWord s
  let (d, s) := drawWord s
  ([a, b, c, d].flatMap fun x => byteList 8 x.toNat, s)

/-- GET_VERSION: version 1.3 is the one there is; the negotiation starts over. -/
def execGetVersion (rq : SpdmRequest) (s : State) : Result :=
  if !s.bootstat.ready then .next (spdmError s 3)
  else
    let m : List Byte := byteList 1 0x10 ++ byteList 1 0x04 ++ byteList 3 0 ++ byteList 1 1 ++ byteList 2 0x1300
    let s : State := { s with spdm := 1, spdmLog := byteList 1 0x10 ++ byteList 1 0x84 ++ byteList 1 rq.param1 ++ byteList 1 rq.param2 ++ m }
    .next (sendSpdm s 0x04 m)

/-- GET_CAPABILITIES: certificates, challenge, measurements with signatures; timing and sizes are the responder's. -/
def execGetCapabilities (rq : SpdmRequest) (s : State) : Result :=
  .next (spdmAnswer s 1 0xE1 rq fun s =>
    let (x, s) := drawWord s
    respond s 2 0x61 0 0 (byteList 1 0 ++ byteList 1 x.toNat ++ byteList 2 0 ++ byteList 4 0x16 ++ byteList 8 (x.toNat / 256)))

/-- NEGOTIATE_ALGORITHMS: RSASSA with 4096 bits and SHA-512, where the requester offers them. -/
def execNegotiateAlgorithms (rq : SpdmRequest) (s : State) : Result :=
  .next (spdmAnswer s 2 0xE3 rq fun s =>
    let asym := field rq.data 4 4 &&& 0x20
    let hash := field rq.data 8 4 &&& 0x04
    respond s 3 0x63 0 0 (byteList 2 36 ++ byteList 2 (field rq.data 2 1 &&& 1) ++ byteList 4 8 ++ byteList 4 asym ++ byteList 4 hash
      ++ byteList 16 0))

/-- GET_DIGESTS: the digest of the chain in slot 0. -/
def execGetDigests (rq : SpdmRequest) (s : State) : Result :=
  .next (spdmAnswer s 3 0x81 rq fun s => respond s 3 0x01 1 1 (sha512 Config.certChain))

/-- GET_CERTIFICATE: a portion of the chain in slot 0. -/
def execGetCertificate (rq : SpdmRequest) (s : State) : Result :=
  .next (spdmAnswer s 3 0x82 rq fun s =>
    let off := field rq.data 0 2
    let bs := (Config.certChain.drop off).take (field rq.data 2 2)
    if rq.param1 % 16 ≠ 0 ∨ Config.certChain.length ≤ off then spdmError s 1
    else respond s 3 0x02 0 0 (byteList 2 bs.length ++ byteList 2 (Config.certChain.length - off - bs.length) ++ bs))

def measureBlock (s : State) (k kind : Nat) : List Byte :=
  byteList 1 k ++ byteList 1 1 ++ byteList 2 67 ++ byteList 1 kind ++ byteList 2 64 ++ kget s.meas k []

/-- The blocks: ROM, firmware, key list, fuse maps. -/
def measureBlocks (s : State) : List (List Byte) :=
  [measureBlock s 1 0, measureBlock s 2 1, measureBlock s 3 3, measureBlock s 4 2]

/-- CHALLENGE: signed with the device identity key. -/
def execChallenge (rq : SpdmRequest) (s : State) : Result :=
  .next (spdmAnswer s 3 0x83 rq fun s =>
    if rq.param1 ≠ 0 then spdmError s 1
    else
      let (nonce, s) := freeBytes s
      let sum := if rq.param2 = 0 then [] else sha512 (measureBlocks s).flatten
      respondSigned s 0x03 0 1 (sha512 Config.certChain ++ nonce ++ sum ++ byteList 2 0 ++ (rq.data.drop 32).take 8))

/-- GET_MEASUREMENTS (R396): how many there are, one of them, or all; signed where the requester asks. -/
def execGetMeasurements (rq : SpdmRequest) (s : State) : Result :=
  .next (spdmAnswer s 3 0xE0 rq fun s =>
    let all := measureBlocks s
    let pick : Option (List (List Byte)) :=
      if rq.param2 = 0 then some []
      else if rq.param2 = 0xFF then some all
      else if rq.param2 ≤ 4 then some ((all.drop (rq.param2 - 1)).take 1) else none
    match pick with
    | none => spdmError s 1
    | some bs =>
      let (nonce, s) := freeBytes s
      let p1 := if rq.param2 = 0 then 4 else 0
      let body := byteList 1 bs.length ++ byteList 3 bs.flatten.length ++ bs.flatten ++ nonce ++ byteList 2 0 ++ (rq.data.drop 33).take 8
      if rq.param1 % 2 = 1 then respondSigned s 0x60 p1 0 body else respond s 3 0x60 p1 0 body)

end Sys2Proof.Machine
end

