-- ==== Sys2Proof/Machine/Mmio.lean ====
section
/-! DEFINITION. The registers in MMIO and the host port: spec/23_link.md R335 to R339, spec/14_context.md R267,
spec/15_queue.md R269, spec/20_page.md R316, spec/30_errors.md R390, spec/31_bringup.md R394, spec/21_ordering.md R328,
and the access kinds of spec/00_scope.md R2. -/

namespace Sys2Proof.Machine

/-! ### The map (R336) -/

/-- A register of 64 bits, by where it lies. -/
inductive MReg where
  | ctx (c o : Nat)
  | queue (q o : Nat)
  | ring (d o : Nat)
  | link (k o : Nat)
  | msix (v : Nat) (hi : Bool)
  | pending (hi : Bool)
  | errlog (o : Nat)
  | boot
  deriving DecidableEq, Repr

/-- The register at an offset that is a multiple of 8; none where it is reserved. -/
def regAt (o : Nat) : Option MReg :=
  if o < 0x40000 then (if o % 0x1000 < 0x30 then some (.ctx (o / 0x1000) (o % 0x1000)) else none)
  else if o < 0x50000 then some (.queue ((o - 0x40000) / 0x40) (o % 0x40))
  else if o < 0x50400 then (if o % 0x100 < 0x20 then some (.ring ((o - 0x50000) / 0x100) (o % 0x100)) else none)
  else if 0x51000 ≤ o ∧ o < 0x51440 then (if o % 0x40 < 0x20 then some (.link ((o - 0x51000) / 0x40) (o % 0x40)) else none)
  else if 0x60000 ≤ o ∧ o < 0x60800 then some (.msix ((o - 0x60000) / 16) (o % 16 == 8))
  else if o = 0x61000 then some (.pending false)
  else if o = 0x61008 then some (.pending true)
  else if 0x70000 ≤ o ∧ o < 0x70030 then some (.errlog (o - 0x70000))
  else if o = 0x71000 then some .boot
  else none

/-! ### Reading -/

def FaultRing.reg (x : FaultRing) (o : Nat) : Nat :=
  match o with
  | 0x00 => x.base.toNat
  | 0x08 => x.tail.toNat
  | 0x10 => x.head.toNat
  | _ => 0

def ErrLog.reg (x : ErrLog) (o : Nat) : Nat :=
  match o with
  | 0x00 => x.base.toNat
  | 0x08 => x.tail.toNat
  | 0x10 => x.head.toNat
  | 0x18 => x.corr.toNat
  | 0x20 => x.drop.toNat
  | 0x28 => x.wdt.toNat
  | _ => 0

def BootStat.word (b : BootStat) : Nat := b.step.toNat + bit b.ready * 2 ^ 8 + b.code.toNat * 2 ^ 16

/-- The pending bits of 64 vectors from one on. -/
def pendingBits (s : State) (from_ : Nat) : Nat :=
  ((List.range 64).map fun i => bit (kget s.msix (from_ + i) {}).pending * 2 ^ i).sum

/-- What a register reads as (R2: a field that is only written reads 0). -/
def readReg (s : State) : MReg → Nat
  | .ctx c o => ((s.ctx c).reg o).getD 0
  | .queue q o => (s.queue q).reg o
  | .ring d o => (kget s.rings d {}).reg o
  | .link k o => ((s.link k).reg o).getD 0
  | .msix v false => (kget s.msix v {}).addr.toNat
  | .msix v true => let x := kget s.msix v {}
    x.data.toNat + bit x.masked * 2 ^ 32
  | .pending hi => pendingBits s (if hi then 64 else 0)
  | .errlog o => s.errlog.reg o
  | .boot => s.bootstat.word

/-- What a read of the low half of a register clears (RC). -/
def clearReg (s : State) : MReg → State
  | .queue q 0x28 => s.modQueue q fun u => { u with errcnt := 0 }
  | .link k o => if o = 0x10 ∨ o = 0x18 then s.setLink k ((s.link k).afterRead o) else s
  | .errlog 0x18 => { s with errlog := { s.errlog with corr := 0 } }
  | .errlog 0x20 => { s with errlog := { s.errlog with drop := 0 } }
  | _ => s

/-- A register access is 4 or 8 bytes and naturally aligned (R219). -/
def accessOk (off len : Nat) : Bool := (len == 4 || len == 8) && off % len == 0

/-- A read of MMIO: none where the offset is reserved or the access is not formed so. -/
def mmioRead (s : State) (off len : Nat) : Option (Nat × State) :=
  if !accessOk off len then none
  else match regAt (off / 8 * 8) with
  | none => none
  | some r => some (bits (readReg s r) (8 * (off % 8)) (8 * len), if off % 8 = 0 then clearReg s r else s)

/-! ### Writing -/

def setFaultRing (s : State) (d o v : Nat) : State :=
  match o with
  | 0x00 => { s with rings := kput s.rings d { kget s.rings d {} with base := BitVec.ofNat 64 v } }
  | 0x10 => advanceFaultHead s d v
  | 0x18 => resumeSource s d v
  | _ => s

def setErrlog (s : State) (o v : Nat) : State :=
  match o with
  | 0x00 => { s with errlog := { s.errlog with base := BitVec.ofNat 64 v } }
  | 0x10 => { s with errlog := { s.errlog with head := BitVec.ofNat 32 v } }
  | 0x28 => { s with errlog := { s.errlog with wdt := BitVec.ofNat 32 v } }
  | _ => s

/-- A queue's registers: a write to TAIL is the host's tail write. -/
def setQueueReg (s : State) (q o v : Nat) : State :=
  match o with
  | 0x20 => tailWrite s .host q v
  | 0x30 => queueCommand s q (bits v 0 3)
  | _ => s.modQueue q fun u => u.setReg o v

/-- The second half of a vector: data and mask; a message that was pending goes out when it is unmasked. -/
def setVector (s : State) (v x : Nat) : State :=
  let y := { kget s.msix v {} with data := BitVec.ofNat 32 x, masked := x.testBit 32 }
  if y.pending && !y.masked then sendMsix { s with msix := kput s.msix v { y with pending := false } } v
  else { s with msix := kput s.msix v y }

def writeReg (s : State) (r : MReg) (v : Nat) : State :=
  match r with
  | .ctx c o => setCtxReg s c o v
  | .queue q o => setQueueReg s q o v
  | .ring d o => setFaultRing s d o v
  | .link k o => setLinkReg s k o v
  | .msix n false => { s with msix := kput s.msix n { kget s.msix n {} with addr := BitVec.ofNat 64 v } }
  | .msix n true => setVector s n v
  | .errlog o => setErrlog s o v
  | .pending _ | .boot => s

/-- The registers whose other half is written as 0 by a write of one half: those that act on what is written. -/
def MReg.acts : MReg → Bool
  | .ctx _ o => o == 0x00 || o == 0x08
  | .queue _ o => o == 0x30
  | .ring _ o => o == 0x18
  | .link _ _ => true
  | _ => false

/-- A write of MMIO; one to a reserved offset, or not formed as R219 says, is dropped. -/
def mmioWrite (s : State) (off len v : Nat) : State :=
  if !accessOk off len then s
  else match regAt (off / 8 * 8) with
  | none => s
  | some r =>
    if len = 8 then writeReg s r (v % 2 ^ 64)
    else
      let old := if r.acts then 0 else readReg s r
      let lo := 8 * (off % 8)
      if r.acts && off % 8 == 4 && (match r with
        | .ring _ _ => false
        | _ => true) then s
      else writeReg s r (old - bits old lo 32 * 2 ^ lo + v % 2 ^ 32 * 2 ^ lo)

/-- REGISTER_WRITE (R2): a register write of the host or of firmware. -/
def execRegisterWrite (off len : Nat) (val : W64) (s : State) : Result := .next (mmioWrite s off len val.toNat)

/-! ### The host port (R328, R336, R394) -/

/-- The memory behind an access of BAR 2: none at a hole or past its end. -/
def bar2 (off len : Nat) : Option Nat :=
  let pa := thisModule * 2 ^ 46 + off
  if off + len ≤ 2 ^ 40 ∧ 0 < len ∧ (placeOf pa).isMemory ∧ (placeOf (pa + len - 1)).isMemory then some pa else none

/-- What a host may reach before READY: BOOTSTAT alone. -/
def hostReaches (s : State) (bar off len : Nat) : Bool := s.bootstat.ready || (bar == 0 && off / 8 * 8 == 0x71000 && accessOk off len)

def answerHost (s : State) (x : Sent) : State := { s with sent := s.sent ++ [x] }

/-- HOST_READ: completed with data, or as an Unsupported Request; it comes over a link 0 that is UP or DEGRADED. -/
def execHostRead (bar off len : Nat) (s : State) : Result :=
  if !(s.link 0).carries then .next s
  else if !hostReaches s bar off len then .next (answerHost s .unsupported)
  else if bar = 0 then
    match mmioRead s off len with
    | some (v, s) => .next (answerHost s (.read (byteList len v)))
    | none => .next (answerHost s .unsupported)
  else if bar = 2 then
    match bar2 off len with
    | some pa => .next (answerHost s (.read (s.mem.reads (localPa pa) len)))
    | none => .next (answerHost s .unsupported)
  else .next (answerHost s .unsupported)

/-- HOST_WRITE: performed at module scope, or dropped; it comes over a link 0 that is UP or DEGRADED. -/
def execHostWrite (bar off : Nat) (data : List Byte) (s : State) : Result :=
  if !(s.link 0).carries || !hostReaches s bar off data.length then .next s
  else if bar = 0 then .next (mmioWrite s off data.length (natOf data))
  else if bar = 2 then
    match bar2 off data.length with
    | some pa => .next (memStore s pa data none)
    | none => .next s
  else .next s

end Sys2Proof.Machine
end

