-- ==== Sys2Proof/Machine/PumpMem.lean ====
section
/-! DEFINITION. Pump memory instructions, monitors, fences, notices and the timer: spec/11_pump_memory_control.md R215
to R229. -/

namespace Sys2Proof.Machine

/-! ### Stores performed, and the commit point (R218, R226) -/

/-- A store performed where it leads; the core's cache holds it. -/
def performStore (s : State) (cn pa : Nat) (bs : List Byte) (full : Option Bool) : State :=
  match placeOf pa with
  | .near _ | .far _ => (memStore s pa bs full).modCore cn fun c => c.updateCache (localPa pa) bs
  | .mmio o => mmioWrite s o bs.length (natOf bs)
  | .remote m => sendStore m (bs.length / 240 + 1) s pa bs
  | .hole => s

def CommitAct.isFence : CommitAct → Bool
  | .fence _ => true
  | _ => false

def QStore.isFence : QStore → Bool
  | .fence _ => true
  | _ => false

/-- The stores among some acts performed, in order. -/
def performActs (cn : Nat) (acts : List CommitAct) (s : State) : State :=
  acts.foldl (fun s a => match a with
    | .store pa bs full _ => performStore s cn pa bs full
    | _ => s) s

/-- The acting lane left with these acts, once it has released stores. -/
def leaveActs (s : State) (acts : List CommitAct) : State :=
  s.modCore s.actor.core fun c => setLane c s.actor.lane { bodyLane s with acts := acts, released := true }

/-- The stores before each fence of release of the body performed, fence by fence, and the fences taken out; whether none
is left.  A fence of domain scope stays while a store on a link is not acknowledged. -/
def releaseGroups : Nat → State → State × Bool
  | 0, s => (s, true)
  | fuel + 1, s =>
    let acts := (bodyLane s).acts
    let i := acts.findIdx CommitAct.isFence
    match acts[i]? with
    | none => (s, true)
    | some f =>
      let s := performActs s.actor.core (acts.take i) s
      let kept := (acts.take i).filter fun a => a.bytes?.isNone
      if f == .fence .domain && storesOut s then (leaveActs s (kept ++ acts.drop i), false)
      else releaseGroups fuel (leaveActs s (kept ++ acts.drop (i + 1)))

/-- What a commit-point instruction comes to once its body has released stores: it waits where it would abort. -/
def PumpOut.afterRelease (s : State) : PumpOut → PumpOut
  | .retry _ => .wait s
  | r => r

/-- Whether something stands before a commit-point instruction: an earlier fence, or stores of earlier rounds that a fence
of its body releases. -/
def heldBack (s : State) : Bool :=
  let c := s.core s.actor.core
  c.storeQ.any QStore.isFence || ((bodyLane s).acts.any CommitAct.isFence && !c.storeQ.isEmpty)

/-- A commit-point instruction that has been checked (R218).  The stores that fences of its body release are performed
first, at their scope, but only where the instruction then does not abort its rule. -/
def atCommitPoint (s : State) (k : State → PumpOut) : PumpOut :=
  let l := bodyLane s
  if heldBack s then .wait s
  else if l.acts.any CommitAct.isFence then
    match releaseGroups l.acts.length s with
    | (t, done) =>
      if l.released then (if done then (k t).afterRelease t else .wait t)
      else match k t with
        | .retry _ | .fault _ _ _ => (match k s with
          | .retry u => .retry u
          | .fault u c va => .fault u c va
          | _ => .retry s)
        | r => if done then r else .wait t
  else if l.released then (k s).afterRelease s
  else k s

/-- Whether a load of the core has not returned. -/
def loadsOut (s : State) : Bool := s.remotes.any fun r => r.answer.isNone && r.waiter / 8 == laneWaiter s / 8

/-! ### Where an access leads -/

/-- The place of a remote address within its module. -/
def remoteTier (pa : Nat) : Bool := (placeOf (thisModule * 2 ^ 46 + localPa pa)).isMemory

/-- A span that a load or a store may reach: a tier here or on another module, or a register (R215, R336). -/
def spanOk (p : Nat × Nat) : Bool :=
  match placeOf p.1 with
  | .near _ | .far _ => true
  | .mmio o => (regAt (o / 8 * 8)).isSome
  | .remote _ => remoteTier p.1
  | .hole => false

def spansOk (s : State) (ea : Int) (spans : List (Nat × Nat)) (k : PumpOut) : PumpOut :=
  if spans.all spanOk then k else .fault s 2 (some ea.toNat)

/-! ### LD and ST (R216, R217, R219) -/

/-- Bytes that memory or a register has answered, under those that the core and its body hold (R50, R217). -/
def underOwn (pa : Nat) : ReadOut × State → ReadOut × State
  | (.bytes bs, s) => (.bytes (seenBy (s.core s.actor.core) (bodyLane s) pa bs), s)
  | x => x

/-- The bytes of one span of a load: through the cache, over a link, or a register.  What lies beyond the tiers is read
once the core's committed stores to it have been performed; a register whose bytes the body holds whole is not read
(log entry 44). -/
def loadSpan (s : State) (p : Nat × Nat) : ReadOut × State :=
  match placeOf p.1 with
  | .near _ | .far _ =>
    let (bs, s) := cachedRead s.actor.core (p.2 / 64 + 2) s (localPa p.1) p.2
    underOwn p.1 (.bytes bs, s)
  | .remote _ =>
    if (s.core s.actor.core).storePending p.1 p.2 then (.wait, s)
    else underOwn p.1 (remoteSpan (laneWaiter s) (pieces (p.2 / 64 + 1) p.1 p.2) s)
  | .mmio o =>
    if (s.core s.actor.core).storePending p.1 p.2 then (.wait, s)
    else if holdsAll (bodyLane s) p.1 p.2 then underOwn p.1 (.bytes (byteList p.2 0), s)
    else match mmioRead s o p.2 with
    | some (v, s) => underOwn p.1 (.bytes (byteList p.2 v), s)
    | none => (.fault 2 0, s)
  | .hole => (.fault 2 0, s)

def loadSpans : List (Nat × Nat) → State → ReadOut × State
  | [], s => (.bytes [], s)
  | p :: ps, s =>
    let (a, s) := loadSpan s p
    let (b, s) := loadSpans ps s
    (a.join b, s)

/-- A load's answer to its lane. -/
def loaded (ea : Int) (spans : List (Nat × Nat)) (k : State → Nat → PumpOut) : ReadOut × State → PumpOut
  | (.wait, s) => .wait s
  | (.fault c v, s) => .fault (doneRemotes (laneWaiter s) spans s) c (some (if v = 0 then ea.toNat else v))
  | (.bytes bs, s) => k (doneRemotes (laneWaiter s) spans s) (natOf bs)

def execPumpLd (h : Skip) (w : PumpW) (n : Bool) (rd ra : Reg) (disp : BitVec 24) (s : State) : Result :=
  let ea := eaOf s ra disp
  pumpStep h 0x40 s (withAccess s ea (widthBytes w) { write := false, dev := true } false fun s spans =>
    spansOk s ea spans (loaded ea spans (fun s v => gives s rd (extendW n (widthBits w) v)) (loadSpans spans s)))

/-- A remote span of a store whose route names a dead link (R334). -/
def deadSpan (s : State) (p : Nat × Nat) : Bool := deadPa s p.1

def execPumpSt (h : Skip) (w : PumpW) (_n : Bool) (ra rb : Reg) (disp : BitVec 24) (s : State) : Result :=
  let ea := eaOf s ra disp
  let data := byteList (widthBytes w) (readG s rb)
  pumpStep h 0x41 s (withAccess s ea (widthBytes w) { write := true, dev := true } false fun s spans =>
    spansOk s ea spans (match spans.find? (deadSpan s) with
      | some p => .fault (dropFlits s (routeLink s (p.1 / 2 ^ 46)) 1) 6 (some ea.toNat)
      | none => .done s { acts := storeActs spans data none }))

/-! ### LDS, STF, LDC -/

/-- The word of a full-empty access. -/
def wordEa (s : State) (ra : Reg) (disp : BitVec 24) : Int := eaOf s ra disp / 4 * 4

/-- A full-empty access of a word: its physical address, which is one of the near tier (R310). -/
def withWord (s : State) (ea : Int) (write : Bool) (k : State → Nat → PumpOut) : PumpOut :=
  withAccess s ea 4 { write := write, fe := true } true fun s spans =>
    match spans with
    | [p] => k s p.1
    | _ => .fault s 2 (some ea.toNat)

/-- Whether the body has an STF to a word in its buffer. -/
def ownStf (l : Lane) (pa : Nat) : Bool := l.acts.any fun a => match a with
  | .store p _ (some true) _ => p == pa
  | _ => false

def execPumpLds (h : Skip) (n : Bool) (rd ra : Reg) (disp : BitVec 24) (s : State) : Result :=
  pumpStep h 0x42 s (withWord s (wordEa s ra disp) false fun s pa =>
    let c := s.core s.actor.core
    let l := bodyLane s
    if c.storePending pa 4 then .wait s
    else if fullAt s.full (localPa pa) || ownStf l pa then
      gives s rd (extendW n 32 (natOf (seenBy c l pa (s.mem.reads (localPa pa) 4))))
    else .retry s)

def execPumpStf (h : Skip) (_n : Bool) (ra rb : Reg) (disp : BitVec 24) (s : State) : Result :=
  pumpStep h 0x43 s (withWord s (wordEa s ra disp) true fun s pa =>
    .done s { acts := [.store pa (byteList 4 (readG s rb)) (some true) false] })

def execPumpLdc (h : Skip) (n : Bool) (rd ra : Reg) (disp : BitVec 24) (s : State) : Result :=
  pumpStep h 0x44 s (withWord s (wordEa s ra disp) false fun s pa =>
    atCommitPoint s fun s =>
      if (s.core s.actor.core).storePending pa 4 then .wait s
      else if fullAt s.full (localPa pa) then
        gives (memEmpty s pa) rd (extendW n 32 (natOf (s.mem.reads (localPa pa) 4)))
      else .retry s)

/-! ### Atomics (R220, R221) -/

/-- An atomic on another module: asked once, then waited for. -/
def remoteAtomic (s : State) (op : RemoteOp) (n : Bool) (pa len : Nat) (b expected : Nat) : ReadOut × State :=
  let waiter := laneWaiter s
  match s.remotes.find? fun r => r.waiter == waiter && r.pa == pa && r.len == len with
  | some r => (match r.answer with
    | none => .wait
    | some (bs, 0) => .bytes bs
    | some (_, c) => .fault c 0, s)
  | none =>
    let id := s.nextId
    match sendFlit s (pa / 2 ^ 46) (.atomic op n pa len id (BitVec.ofNat 64 b) (BitVec.ofNat 64 expected)) with
    | some s => (.wait, { s with nextId := id + 1, remotes := s.remotes ++ [⟨id, pa / 2 ^ 46, waiter, pa, len, none⟩] })
    | none => (.fault 6 0, dropFlits s (routeLink s (pa / 2 ^ 46)) 1)

/-- Whether an atomic with this old value writes its word. -/
def atomicWrites (op : RemoteOp) (n : Bool) (len old b expected : Nat) : Bool :=
  match op with
  | .xadd => expected != 1
  | op => (atomicWord op n (8 * len) old (b % 2 ^ (8 * len)) expected).isSome

/-- An atomic at the controller of its word; one that writes a frame of another module marks it (R312). -/
def atController (s : State) (ea : Int) (pa len : Nat) (op : RemoteOp) (n : Bool) (b expected : Nat)
    (k : State → Nat → PumpOut) : PumpOut :=
  if (s.core s.actor.core).storePending pa len then .wait s
  else if (placeOf pa).isRemote then
    let mark (s : State) (v : Nat) : PumpOut := k (if atomicWrites op n len v b expected then markRemote s pa else s) v
    loaded ea [(pa, len)] mark (remoteAtomic s op n pa len b expected)
  else
    let (v, s) := performAtomic s op n pa len b expected
    k s v

/-- An atomic instruction on the aligned word of `len` bytes at an address. -/
def atomicAt (s : State) (ea : Int) (len : Nat) (write : Bool) (op : RemoteOp) (n : Bool) (b expected : Nat)
    (k : State → Nat → PumpOut) : PumpOut :=
  withAccess s (ea / len * len) len { write := write } false fun s spans =>
    match spans with
    | [p] =>
      if (placeOf p.1).isRemote && !remoteTier p.1 then .fault s 2 (some (ea / len * len).toNat)
      else atCommitPoint s fun s => atController s (ea / len * len) p.1 len op n b expected k
    | _ => .fault s 2 (some ea.toNat)

/-- CAS to FOR. -/
def pumpAtomic (h : Skip) (opc : Nat) (op : RemoteOp) (w : PumpW) (n : Bool) (rd ra rb : Reg) (disp : BitVec 24)
    (s : State) : Result :=
  pumpStep h opc s (atomicAt s (eaOf s ra disp) (widthBytes w) true op n (readG s rb) (readG s rd)
    fun s v => gives s rd (extendW n (widthBits w) v))

def execCas (h : Skip) (w : PumpW) (n : Bool) (rd ra rb : Reg) (disp : BitVec 24) (s : State) : Result :=
  pumpAtomic h 0x48 .cas w n rd ra rb disp s

def execSwap (h : Skip) (w : PumpW) (n : Bool) (rd ra rb : Reg) (disp : BitVec 24) (s : State) : Result :=
  pumpAtomic h 0x49 .swap w n rd ra rb disp s

def execFadd (h : Skip) (w : PumpW) (n : Bool) (rd ra rb : Reg) (disp : BitVec 24) (s : State) : Result :=
  pumpAtomic h 0x4A .add w n rd ra rb disp s

def execFmin (h : Skip) (w : PumpW) (n : Bool) (rd ra rb : Reg) (disp : BitVec 24) (s : State) : Result :=
  pumpAtomic h 0x4B .min w n rd ra rb disp s

def execFmax (h : Skip) (w : PumpW) (n : Bool) (rd ra rb : Reg) (disp : BitVec 24) (s : State) : Result :=
  pumpAtomic h 0x4C .max w n rd ra rb disp s

def execFand (h : Skip) (w : PumpW) (n : Bool) (rd ra rb : Reg) (disp : BitVec 24) (s : State) : Result :=
  pumpAtomic h 0x4D .and w n rd ra rb disp s

def execFOr (h : Skip) (w : PumpW) (n : Bool) (rd ra rb : Reg) (disp : BitVec 24) (s : State) : Result :=
  pumpAtomic h 0x4E .or w n rd ra rb disp s

/-- FXADD, adding. -/
def execFxadd (h : Skip) (xf : Bool) (ra rb : Reg) (disp : BitVec 24) (s : State) : Result :=
  pumpStep h 0x4F s (atomicAt s (eaOf s ra disp) 32 true .xadd xf (readG s rb) 0 fun s _ => .done s {})

/-- FXADD, reading out. -/
def execFxaddRd (h : Skip) (xf clr : Bool) (rd ra : Reg) (disp : BitVec 24) (s : State) : Result :=
  pumpStep h 0x4F s (atomicAt s (eaOf s ra disp) 32 clr .xadd xf 0 (if clr then 2 else 1) fun s v => gives s rd v)

/-! ### WAITV and the monitors (R222, R223) -/

/-- Monitor k armed on a block, its event cleared. -/
def armMonitor (c : Core) (k : Fin 8) (m : Monitor) : Core :=
  { c with mons := c.mons.set k (some m), events := c.events &&& ~~~(BitVec.ofNat 16 (2 ^ (8 + k.val))) }

/-- The event of monitor k asserted. -/
def Core.monitorEvent (c : Core) (k : Nat) : Core := { c with events := c.events ||| BitVec.ofNat 16 (2 ^ (8 + k % 8)) }

/-- Monitor k disarmed: it has fired where something has landed on its block, and else its event stays as it is. -/
def disarmMonitor (c : Core) (k : Fin 8) : Core :=
  let c := if (c.mons.get k).any Monitor.hit then c.monitorEvent k.val else c
  { c with mons := c.mons.set k none }

/-- The page a core's access went through: its translation is in the core's own TLB. -/
def corePage (s : State) (cn : Nat) (va : Nat) : Page := (tlbFind (s.core cn).tlb (coreCtx s cn) va).getD ⟨va, 0, 0, false, false, false, false⟩

def execWaitv (h : Skip) (w : PumpW) (n : Bool) (mon : Fin 8) (rd ra rb : Reg) (disp : BitVec 24) (s : State) : Result :=
  let len := widthBytes w
  let ea := eaOf s ra disp / len * len
  pumpStep h 0x50 s (withAccess s ea len { write := false } true fun s spans =>
    match spans with
    | [p] =>
      if !(placeOf p.1).isMemory then .fault s 2 (some ea.toNat)
      else atCommitPoint s fun s =>
        let cn := s.actor.core
        let pa := localPa p.1
        if (s.core cn).storePending p.1 len then .wait s
        else
          let v := natOf (s.mem.reads pa len)
          if v = readG s rb % 2 ^ (8 * len) then
            .retry (s.modCore cn fun c => armMonitor c mon { block := pa / 64, ctx := coreCtx s cn, page := corePage s cn ea.toNat })
          else gives (s.modCore cn fun c => disarmMonitor c mon) rd (extendW n (8 * len) v)
    | _ => .fault s 2 (some ea.toNat))

/-- MONITOR_FIRE (R222): something has landed on an armed monitor's block. -/
def execMonitorFire (core k : Nat) (s : State) : Result :=
  match (s.core core).mons.toList.getD k none with
  | some m => .next (if m.hit then s.modCore core fun c => disarmMonitor c (fin 8 k) else s)
  | none => .next s

/-! ### Fences (R224 to R226) -/

/-- Every later load reads memory: the cache is invalidated. -/
def clearCache (s : State) : State := s.modCore s.actor.core fun c => { c with dcache := [] }

def execFenceAcq (h : Skip) (_scope : Scope) (s : State) : Result :=
  pumpStep h 0x51 s (if loadsOut s then .wait s else .done (clearCache s) {})

def execFenceRel (h : Skip) (scope : Scope) (s : State) : Result := pumpStep h 0x51 s (defers s (.fence scope))

/-- Every store of the core is performed, those of the body too; whether none is left to wait for. -/
def releaseAll (s : State) : State × Bool :=
  if !(s.core s.actor.core).storeQ.isEmpty then (s, false)
  else match releaseGroups (bodyLane s).acts.length s with
    | (s, false) => (s, false)
    | (s, true) =>
      let acts := (bodyLane s).acts
      (leaveActs (performActs s.actor.core acts s) (acts.filter fun a => a.bytes?.isNone), true)

def execFenceFull (h : Skip) (scope : Scope) (s : State) : Result :=
  pumpStep h 0x51 s (match releaseAll s with
    | (s, false) => .wait s
    | (s, true) => if (scope == .domain && storesOut s) || loadsOut s then .wait s else .done (clearCache s) {})

/-! ### Notices (R228) -/

def execNoteSend (h : Skip) (ra rb : Reg) (s : State) : Result :=
  pumpStep h 0x62 s (match coreOfHandle (readG s ra) with
    | none => operandFault s
    | some c =>
      if inPartition s (coreCtx s s.actor.core) c then defers s (.noteSend c (BitVec.ofNat 32 (readG s rb))) else operandFault s)

/-- A notice word of a core. -/
def noteWord (cn : Nat) (data : Nat) : Nat := 2 ^ 63 + (coreDie cn + 8 * coreNo cn) * 2 ^ 32 + data

/-- What NOTE.take returns: the head word, else the hardware word, else 0. -/
def noteHead (c : Core) : Bool × Nat :=
  match c.notes with
  | w :: _ => (false, w.toNat)
  | [] => (true, if hwData c = 0 then 0 else 2 ^ 63 + 2 ^ 62 + hwData c)

/-- Whether the body takes a notice already. -/
def takesNote (l : Lane) : Bool := l.acts.any fun a => match a with
  | .noteTake _ _ => true
  | _ => false

def execNoteTake (h : Skip) (rd : Reg) (s : State) : Result :=
  let (hw, v) := noteHead (s.core s.actor.core)
  let acts := if takesNote (bodyLane s) then [] else [CommitAct.noteTake hw (BitVec.ofNat 64 v)]
  pumpStep h 0x62 s (.done s { g := [(rd.val, BitVec.ofNat 64 v)], acts := acts })

/-- NOTE.send at its commit: a full queue drops it, which NOVF counts. -/
def pushNote (s : State) (target : Nat) (word : W64) : State :=
  s.modCore target fun c =>
    if c.notes.length < 16 then { c with notes := c.notes ++ [word] } else { c with novf := c.novf + 1 }

/-- NOTE.take at its commit: the head leaves, or the hardware bits returned are cleared. -/
def Core.dropNote (c : Core) (hw : Bool) (val : W64) : Core :=
  if hw then { c with hw := c.hw &&& ~~~(BitVec.ofNat 5 val.toNat) } else { c with notes := c.notes.tail }

/-! ### The timer (R229) -/

def timerStep (h : Skip) (periodic : Bool) (rd ra : Reg) (s : State) : Result :=
  let v := readG s ra
  let n := (s.core s.actor.core).tcount
  pumpStep h 0x63 s (if v / 2 ^ 32 ≠ 0 then operandFault s
    else .done s { g := [(rd.val, BitVec.ofNat 64 n.toNat)], acts := [.timer periodic v n.toNat] })

def execTimerOnce (h : Skip) (rd ra : Reg) (s : State) : Result := timerStep h false rd ra s

def execTimerPer (h : Skip) (rd ra : Reg) (s : State) : Result := timerStep h true rd ra s

/-- Expiries that are due and not counted yet. -/
def Core.expired (c : Core) (now : Nat) : Nat :=
  match c.tdue with
  | none => 0
  | some t => if now < t then 0 else if c.tper then (now - t) / max 1 c.tint + 1 else 1

/-- TIMER at its commit: expiries of the setting before it are counted first. -/
def Core.setTimer (c : Core) (now : Nat) (periodic : Bool) (interval seen : Nat) : Core :=
  let t := if periodic && interval != 0 then max 100 interval else interval
  let all := min (2 ^ 32 - 1) (c.tcount.toNat + c.expired now)
  let n := BitVec.ofNat 32 (all - seen)
  let events := if 0 < c.expired now then c.events ||| 0x10 else c.events
  { c with
    tint := t, tper := periodic, tdue := if t = 0 then none else some (now + t), tcount := n
    events := if n = 0 then events &&& ~~~(0x10 : BitVec 16) else events }

/-- TIMER_EXPIRY. -/
def execTimerExpiry (core : Nat) (s : State) : Result :=
  let c := s.core core
  match c.tdue with
  | none => .next s
  | some t =>
    if s.nstime < t then .next s
    else .next (s.setCore core { c with
      tdue := if c.tper then some (t + c.tint) else none
      tcount := saturate32 c.tcount, events := c.events ||| 0x10 })

end Sys2Proof.Machine
end

