-- ==== Sys2Proof/Machine/PumpReply.lean ====
section
/-! DEFINITION. The Reply instructions (spec/12_pump_system.md R230, R233, R242 to R248, R255, R256): what they ask when
they execute, and what their target does once the rule has committed.  PGHASH: spec/28_determinism.md R380, R381. -/

namespace Sys2Proof.Machine

/-! ### Operands -/

/-- A g register by number. -/
def readGn (s : State) (n : Nat) : Nat := (regOf (s.core s.actor.core) (bodyLane s) (n % 64)).toNat

def actorCtx (s : State) : Nat := coreCtx s s.actor.core
def actorPrivileged (s : State) : Bool := privileged s s.actor.core

/-- The region a handle names, if it is the core's to name: one of its context, or any where the entry exempts a
privileged core. -/
def ownRegion (s : State) (h : Nat) (exempt : Bool) : Option Nat :=
  (regionOfHandle s h).filter fun key => (exempt && actorPrivileged s) || (s.region key).any fun r => r.ctx == actorCtx s

/-- The site that a configuration address word names (R242). -/
def tileOfAddr (w : Nat) : Nat := siteKey (bits w 25 2) (bits w 16 5) (bits w 21 4)

/-- A configuration address word of a tile that the core may reach. -/
def addrOk (s : State) (w : Nat) : Bool :=
  w / 2 ^ 27 == 0 && decide (bits w 16 5 < 24)
    && (actorPrivileged s || (regionAt s (tileOfAddr w)).any fun r => r.ctx == actorCtx s)

/-! ### Asking (R233) -/

/-- Whether the reply queue has room for one more: replies queued, requests in flight, earlier ones of the body. -/
def replyRoom (s : State) : Bool :=
  let c := s.core s.actor.core
  let isRequest (a : CommitAct) : Bool := match a with
    | .request _ _ _ _ _ _ => true
    | _ => false
  decide (c.replies.length + c.cfgOut.length + (bodyLane s).acts.countP isRequest < 64)

/-- A Reply instruction: it waits for room, then its operands are checked, then it is held for the commit. -/
def asks (h : Skip) (op : Nat) (s : State) (ok : Bool) (kind variant : Nat) (tag : BitVec 16) (a b c : Nat) : Result :=
  pumpStep h op s (if !replyRoom s then .retry s
    else if !ok then operandFault s
    else defers s (.request kind variant tag (BitVec.ofNat 64 a) (BitVec.ofNat 64 b) (BitVec.ofNat 64 c)))

def execCfgw (h : Skip) (ra rb : Reg) (tg : BitVec 16) (s : State) : Result :=
  asks h 0x80 s (addrOk s (readG s ra)) 0 0 tg (readG s ra) (readG s rb) 0

def execCfgrdReq (h : Skip) (ra : Reg) (tg : BitVec 16) (s : State) : Result :=
  asks h 0x81 s (addrOk s (readG s ra)) 1 0 tg (readG s ra) 0 0

def execCfgsig (h : Skip) (ra rb : Reg) (key : Fin 8) (tg : BitVec 16) (s : State) : Result :=
  asks h 0x82 s true 2 key.val tg (readG s ra) (readG s rb) 0

def execCrcCfg (h : Skip) (ra rb : Reg) (tg : BitVec 16) (s : State) : Result :=
  let a := readG s ra
  let b := readG s rb
  let n := bits b 0 13
  let ok := addrOk s a && bits b 13 19 == 0 && decide (1 ≤ n) && decide (bits a 0 16 + n ≤ 0x1100)
  asks h 0x83 s ok 3 0 tg a b 0

def execPrime (h : Skip) (ra : Reg) (k4 : Fin 4) (tg : BitVec 16) (s : State) : Result :=
  asks h 0x85 s (ownRegion s (readG s ra) true).isSome 4 k4.val tg (readG s ra) 0 0

def execFreeze (h : Skip) (ra : Reg) (tg : BitVec 16) (s : State) : Result :=
  asks h 0x86 s (ownRegion s (readG s ra) true).isSome 5 0 tg (readG s ra) 0 0

def execFreezeStroke (h : Skip) (ra : Reg) (tg : BitVec 16) (s : State) : Result :=
  asks h 0x86 s (ownRegion s (readG s ra) true).isSome 5 1 tg (readG s ra) 0 0

def execThaw (h : Skip) (ra : Reg) (tg : BitVec 16) (s : State) : Result :=
  asks h 0x87 s (ownRegion s (readG s ra) true).isSome 6 0 tg (readG s ra) 0 0

def execImgoutMem (h : Skip) (ra rb : Reg) (tg : BitVec 16) (s : State) : Result :=
  asks h 0x88 s ((ownRegion s (readG s ra) true).isSome && readG s rb % 64 == 0) 7 0 tg (readG s ra) (readG s rb) 0

def execImgoutShadow (h : Skip) (ra : Reg) (tg : BitVec 16) (s : State) : Result :=
  asks h 0x88 s (ownRegion s (readG s ra) true).isSome 7 1 tg (readG s ra) 0 0

def execImgoutBack (h : Skip) (ra : Reg) (tg : BitVec 16) (s : State) : Result :=
  asks h 0x88 s (ownRegion s (readG s ra) true).isSome 7 2 tg (readG s ra) 0 0

def execRsload (h : Skip) (ra rb : Reg) (tg : BitVec 16) (s : State) : Result :=
  let ok := match coreOfHandle (readG s ra) with
    | some c => actorPrivileged s || inPartition s (actorCtx s) c
    | none => false
  asks h 0x89 s ok 8 0 tg (readG s ra) (readG s rb) 0

def execSpineFreq (h : Skip) (ra rb : Reg) (tg : BitVec 16) (s : State) : Result :=
  let b := readG s rb
  let ok := actorPrivileged s && readG s ra / 2 ^ 5 == 0 && b % 50 == 0 && decide (300 ≤ b) && decide (b ≤ 1500)
  asks h 0xA3 s ok 9 0 tg (readG s ra) b 0

def execSpineSel (h : Skip) (ra rb : Reg) (tg : BitVec 16) (s : State) : Result :=
  asks h 0xA3 s ((ownRegion s (readG s ra) false).isSome && decide (readG s rb < 8)) 9 1 tg (readG s ra) (readG s rb) 0

def execMigrMove (h : Skip) (ra rb : Reg) (tg : BitVec 16) (s : State) : Result :=
  asks h 0xB1 s (actorPrivileged s) 10 0 tg (readG s ra) (readG s rb) 0

def execMigrOut (h : Skip) (ra rb : Reg) (tg : BitVec 16) (s : State) : Result :=
  asks h 0xB1 s true 10 1 tg (readG s ra) (readG s rb) 0

def execMigrIn (h : Skip) (ra rb : Reg) (tg : BitVec 16) (s : State) : Result :=
  asks h 0xB1 s (rb.val % 2 == 0) 10 2 tg (readG s ra) (readG s rb) (readGn s (rb.val + 1))

def execPghash (h : Skip) (ra rb : Reg) (tg : BitVec 16) (s : State) : Result :=
  let a := readG s ra
  asks h 0xB2 s (decide (a < 64) && (actorPrivileged s || a == actorCtx s)) 11 0 tg a (readG s rb) 0

/-- CFGRD.take: the head reply, 0 where there is none; it is removed at commit, once (R243). -/
def execCfgrdTake (h : Skip) (rd : Reg) (s : State) : Result :=
  let r : CfgReply := (s.core s.actor.core).replies.headD ⟨0, 0⟩
  let taken := (bodyLane s).acts.contains .cfgTake || (s.core s.actor.core).replies.isEmpty
  pumpStep h 0x81 s (if rd.val % 2 = 1 then operandFault s
    else .done s { g := [(rd.val, r.status), (rd.val + 1, r.data)], acts := if taken then [] else [.cfgTake] })

/-! ### What a target comes to -/

/-- A request served, its reply given or owed; or one whose target cannot take it yet. -/
inductive Served where
  | done (s : State)
  | wait (s : State)
  deriving DecidableEq, Repr

/-- The name a core's requests wait under for replies from other modules. -/
def replyWaiter (o : Owed) : Nat := 2 ^ 44 + o.core

def replied (s : State) (o : Owed) (code info data : Nat) : Served := .done (replyTo s o code info data)

/-! ### Configuration words (R243, R244) -/

/-- Whether the words of a tile are held by a kernel that is PRIMED, FIRING or DRAINING and not frozen. -/
def wordLocked (s : State) (t : Nat) : Bool :=
  (regionAt s t).any fun r => !r.frozen && (r.kernel == .primed || r.kernel == .firing || r.kernel == .draining)

/-- The code of a CFGW. -/
def cfgwCode (s : State) (t a : Nat) : Nat :=
  if !present s t then 1
  else if cfgPlace a = .reserved then 0x0A
  else if !(cfgPlace a).notWritten && wordLocked s t then 2 else 0

def serveCfgw (s : State) (o : Owed) (a b : Nat) : Served :=
  let t := tileOfAddr a
  let code := cfgwCode s t (bits a 0 16)
  replied (if code = 0 then cfgPut s t (bits a 0 16) b else s) o code 0 0

def serveCfgrd (s : State) (o : Owed) (a : Nat) : Served :=
  let t := tileOfAddr a
  let w := bits a 0 16
  if !present s t then replied s o 1 0 0
  else replied s o (if (s.tile t).badEcc.contains w then 9 else 0) 0 ((s.tile t).cfgRead w)

/-- CRC.cfg over words of a tile. -/
def serveCrc (s : State) (o : Owed) (a b : Nat) : Served :=
  let t := tileOfAddr a
  let ws := (List.range (bits b 0 13)).map (bits a 0 16 + ·)
  if !present s t then replied s o 1 0 0
  else
    let crc := crc32c (ws.flatMap fun w => byteList 8 ((s.tile t).cfgRead w))
    let code := if ws.any (s.tile t).badEcc.contains then 9 else if crc = bits b 32 32 then 0 else 8
    replied s o code crc 0

/-- CFGSIG: the image and its signature are read, and the signature checked against one key slot. -/
def serveSig (s : State) (o : Owed) (slot a b : Nat) : Served :=
  let die := coreDie o.core
  let ctx := coreCtx s o.core
  match unitRead s die ctx (replyWaiter o) a 64 with
  | (.wait, s) => .wait s
  | (.fault c _, s) => replied s o c 0 0
  | (.bytes hd, s') =>
    if field hd 0x30 4 ≠ b then replied s' o 0x11 0 0
    else match unitRead s die ctx (replyWaiter o) a (b + 512) with
    | (.wait, s) => .wait s
    | (.fault c _, s) => replied s o c 0 0
    | (.bytes img, s) =>
      let ok := match kfind s.keys slot with
        | some k => rsaVerify k (img.take b) ((img.drop b).take 512)
        | none => false
      replied s o (if ok then 0 else 0x11) 0 0

/-! ### Regions (R246, R247) -/

/-- A request of a region, which a handle that is no longer current fails. -/
def atRegion (s : State) (o : Owed) (h info : Nat) (k : Nat → Region → Served) : Served :=
  match regionOfHandle s h with
  | none => replied s o 2 info 0
  | some key => match s.region key with
    | none => replied s o 2 info 0
    | some r => k key r

def servePrime (s : State) (o : Owed) (k h : Nat) : Served :=
  atRegion s o h 0 fun key r =>
    if canPrime r k then .done (beginPrime s key (BitVec.ofNat 2 k) (some o)) else replied s o 2 0 0

def serveFreeze (s : State) (o : Owed) (h : Nat) : Served :=
  atRegion s o h 0 fun key r =>
    let s := freezeRegion s key
    if r.frozen then replied s o 0 0 0
    else if r.kernel = .firing ∨ r.kernel = .draining then
      .done (s.modRegion key fun r => { r with freezeOwed := r.freezeOwed ++ [o] })
    else replied s o 0 0 0

def serveFreezeStroke (s : State) (o : Owed) (h : Nat) : Served :=
  atRegion s o h 1 fun key r =>
    if !r.frozen && (r.kernel == .firing || r.kernel == .draining) then
      .done (s.setRegion key { r with strokeReq := true, strokeOwed := r.strokeOwed ++ [o] })
    else replied s o 2 1 0

/-- THAW, after a freeze or a reload in progress. -/
def serveThaw (s : State) (o : Owed) (h : Nat) : Served :=
  atRegion s o h 0 fun key r =>
    if r.freezeReq || r.freezeMark || !r.reloads.isEmpty then .wait s
    else replied (thawRegion s key) o 0 0 0

/-- An image written in units of 64 bytes, up to the first that faults. -/
def writeUnits (die ctx : Nat) : Nat → Nat → List Byte → State → ReadOut × State
  | 0, _, _, s => (.bytes [], s)
  | n + 1, va, bs, s =>
    if bs.isEmpty then (.bytes [], s)
    else match unitWrite s die ctx va (bs.take 64) true with
    | (.bytes _, s) => writeUnits die ctx n (va + 64) (bs.drop 64) s
    | x => x

/-- Bytes read out to memory: the reply carries the fault that ended it, or the length. -/
def serveReadout (s : State) (o : Owed) (die ctx va info : Nat) (bs : List Byte) : Served :=
  match writeUnits die ctx (bs.length / 64 + 1) va bs s with
  | (.wait, _) => .wait s
  | (.fault c _, s) => replied s o c info 0
  | (.bytes _, s) => replied s o 0 info 0

def serveImgout (s : State) (o : Owed) (variant h va : Nat) : Served :=
  atRegion s o h 0 fun key r =>
    if !r.frozen then replied s o 2 0 0
    else match variant with
    | 0 =>
      let img := readOut s key r
      serveReadout s o r.die (coreCtx s o.core) va ((img.length + 63) / 64) img
    | 1 => replied (saveShadow s key) o 0 0 0
    | _ => if shadowFits r then replied (restoreShadow s key) o 0 0 0 else replied s o 2 0 0

/-! ### RSLOAD (R248) -/

def serveRsload (s : State) (o : Owed) (h va : Nat) : Served :=
  let die := coreDie o.core
  let ctx := coreCtx s o.core
  match unitRead s die ctx (replyWaiter o) va 4 with
  | (.wait, s) => .wait s
  | (.fault c _, s) => replied s o c 0 0
  | (.bytes w, s') =>
    let n := natOf w
    if !coreWordOk n then replied s' o 0x10 0 0
    else match unitRead s die ctx (replyWaiter o) va (sectionLen n) with
    | (.wait, s) => .wait s
    | (.fault c _, s) => replied s o c 0 0
    | (.bytes b, s) =>
      let ws := sectionWords (192 + bits n 16 13) (b.drop 4)
      match ruleSetOk ws, coreOfHandle h with
      | true, some c => replied (loadRules s c ws) o 0 0 0
      | _, _ => replied s o 0x10 0 0

/-! ### PGHASH (R380, R381) -/

/-- The leaves of a table, in ascending address, by level: 3 the root, with 2,048 entries, to 0. -/
def leavesFrom (s : State) : Nat → Nat → Nat → List (Nat × Nat × Nat)
  | 0, t, va => (List.range 1024).filterMap fun i =>
      let e := entryAt s (t + 8 * i)
      if bits e 0 2 = 3 then some (va + i * 2 ^ 16, e, 16) else none
  | l + 1, t, va => (List.range (if l = 2 then 2048 else 1024)).flatMap fun i =>
      let e := entryAt s (t + 8 * i)
      let va := va + i * 2 ^ (26 + 10 * l)
      if l = 0 ∧ bits e 0 2 = 3 then [(va, e, 26)]
      else if bits e 0 2 = 1 then
        match nextTable e with
        | .ok t => leavesFrom s l t va
        | .error _ => []
      else []

/-- The address of a page, sign-extended from 57 bits. -/
def pageVa (va : Nat) : Nat := if 2 ^ 56 ≤ va then va + (2 ^ 64 - 2 ^ 57) else va

/-- Whether a frame, here or on another module, has been written since a write sequence number. -/
def writtenSince (s : State) (seq pa log2 : Nat) : Bool :=
  (List.range (2 ^ (log2 - 16))).any fun i => decide (seq < kget s.dirty (frameKey pa + i) 0)

/-- The pages with HT that were modified in the interval: address, frame, size as log2. -/
def hashPages (s : State) (ctx : Nat) : List (Nat × Nat × Nat) :=
  (leavesFrom s 3 (s.ctx ctx).root.toNat 0).filterMap fun x =>
    let frame := leafFrame x.2.1
    let memory := (placeOf frame).isMemory || ((placeOf frame).isRemote && (placeOf (thisModule * 2 ^ 46 + localPa frame)).isMemory)
    if bits x.2.1 6 1 = 1 ∧ memory ∧ writtenSince s (s.ctx ctx).hashSeq frame x.2.2 then
      some (pageVa x.1, frame, x.2.2) else none

/-- A page read to be hashed; one on another module over its link. -/
def hashedBytes (s : State) (waiter : Nat) (x : Nat × Nat × Nat) : ReadOut × State :=
  if (placeOf x.2.1).isRemote then remoteSpan waiter (pieces (2 ^ x.2.2 / 64 + 1) x.2.1 (2 ^ x.2.2)) s
  else (.bytes (s.mem.reads (localPa x.2.1) (2 ^ x.2.2)), s)

def pageHash (x : Nat × Nat × Nat) (bs : List Byte) : List Byte := sha512t256 (byteList 8 x.1 ++ bs)

/-- The hashes of some pages, once all of them have been read. -/
def pageHashes (waiter : Nat) : List (Nat × Nat × Nat) → State → ReadOut × List (List Byte) × State
  | [], s => (.bytes [], [], s)
  | x :: xs, s =>
    let (a, s) := hashedBytes s waiter x
    let (b, hs, s) := pageHashes waiter xs s
    match a with
    | .bytes bs => (b, pageHash x bs :: hs, s)
    | a => (a.join b, hs, s)

/-- The parents of a level: sixteen consecutive nodes each. -/
def parents : Nat → List (List Byte) → List (List Byte)
  | 0, _ => []
  | n + 1, hs => if hs.isEmpty then [] else sha512t256 (hs.take 16).flatten :: parents n (hs.drop 16)

/-- The levels above the leaves, up to the root. -/
def higherLevels : Nat → List (List Byte) → List (List (List Byte))
  | 0, _ => []
  | n + 1, hs =>
    if hs.length ≤ 1 then []
    else
      let up := parents hs.length hs
      up :: higherLevels n up

def leafRecord (x : Nat × Nat × Nat) (hash : List Byte) : List Byte :=
  byteList 8 x.1 ++ byteList 1 (if x.2.2 = 26 then 2 else 0) ++ byteList 23 0 ++ hash

/-- The root, the leaf list and the higher levels, as PGHASH writes them. -/
def hashTree (pages : List (Nat × Nat × Nat)) (hs : List (List Byte)) : List Byte × Nat :=
  let ups := higherLevels hs.length hs
  let root := ((ups.getLast?.getD hs).head?).getD (List.replicate 32 0)
  (root ++ (pages.zip hs).flatMap (fun p => leafRecord p.1 p.2) ++ ups.flatMap List.flatten, pages.length)

/-- The interval closes once its pages have been read; its tree is written. -/
def serveHash (s : State) (o : Owed) (ctx va : Nat) : Served :=
  let pages := hashPages s ctx
  let ended (s : State) : State := doneRemotes (replyWaiter o) (pages.map fun x => (x.2.1, 2 ^ x.2.2)) s
  match pageHashes (replyWaiter o) pages s with
  | (.wait, _, s) => .wait s
  | (.fault c _, _, s) => replied (ended s) o c 0 0
  | (.bytes _, hs, s) =>
    let (bs, n) := hashTree pages hs
    let closed := (ended s).modCtx ctx fun x => { x with hashSeq := s.writeSeq }
    match serveReadout closed o (coreDie o.core) (coreCtx s o.core) va n bs with
    | .wait _ => .wait s
    | .done s => .done s

/-! ### Serving a request -/

/-- What a request is sent to: replies from one target arrive in the order of their requests (R233). -/
def CfgReq.target (q : CfgReq) : Nat × Nat :=
  match q.kind with
  | 0 | 1 | 3 => (0, q.a.toNat / 2 ^ 16)
  | 2 => (2, 0)
  | 4 | 5 | 6 | 7 => (4, q.a.toNat)
  | 8 => (8, q.a.toNat)
  | 9 => (9 + 4 * q.variant, q.a.toNat)
  | 10 => (10, q.no)
  | _ => (11, q.a.toNat)

def serve (s : State) (q : CfgReq) (cn : Nat) : Served :=
  let o : Owed := ⟨cn, q.kind, q.tag, q.no⟩
  let a := q.a.toNat
  let b := q.b.toNat
  match q.kind with
  | 0 => serveCfgw s o a b
  | 1 => serveCfgrd s o a
  | 2 => serveSig s o q.variant a b
  | 3 => serveCrc s o a b
  | 4 => servePrime s o q.variant a
  | 5 => if q.variant = 0 then serveFreeze s o a else serveFreezeStroke s o a
  | 6 => serveThaw s o a
  | 7 => serveImgout s o q.variant a b
  | 8 => serveRsload s o a b
  | 9 =>
    if q.variant = 0 then .done (setSpine s o (spineKey (bits a 0 2) (bits a 2 3)) b)
    else match regionOfHandle s a with
      | some key => .done (selectSpine s o key b)
      | none => replied s o 2 0 0
  | 10 => .done (startMigr s o (coreCtx s cn) q.variant a b q.c.toNat)
  | _ => serveHash s o a b

/-- Whether an earlier request to the same target still waits to be taken, at any core. -/
def behindAnother (s : State) (q : CfgReq) : Bool :=
  s.cores.any fun p => p.2.cfgOut.any fun x => x.waits && decide (x.no < q.no) && x.target == q.target

/-- A request of a core taken by its target, if it can be. -/
def tryServe (s : State) (cn : Nat) (q : CfgReq) : State :=
  if behindAnother s q then s
  else match serve s q cn with
  | .wait s => s
  | .done s => s.modCore cn fun c => { c with cfgOut := c.cfgOut.map fun x => if x.no = q.no then { x with waits := false } else x }

/-- A Reply instruction at its commit. -/
def postRequest (s : State) (cn kind variant : Nat) (tag : BitVec 16) (a b c : W64) : State :=
  let q : CfgReq := { no := s.nextId, kind := kind, variant := variant, tag := tag, a := a, b := b, c := c, waits := true }
  let s : State := { s with nextId := s.nextId + 1 }
  tryServe (s.modCore cn fun x => { x with cfgOut := x.cfgOut ++ [q] }) cn q

/-! ### Replies (R233) -/

/-- The first reply that may enter its core's queue: no earlier request to the same target is still out. -/
def nextReply (qs : List CfgReq) : Option CfgReq :=
  qs.find? fun q => q.reply.isSome && qs.all fun x => decide (q.no ≤ x.no) || x.target != q.target

/-- CONFIG_REPLY_ARRIVAL: a reply enters the queue of its core, and event 7 is latched; where none has come, the first
request that its target could not take is taken, if it can be now. -/
def execConfigReplyArrival (core : Nat) (s : State) : Result :=
  let c := s.core core
  match nextReply c.cfgOut with
  | some q => .next (s.setCore core { c with
      cfgOut := c.cfgOut.filter fun x => x.no != q.no
      replies := c.replies ++ q.reply.toList, events := c.events ||| 0x80 })
  | none => match c.cfgOut.find? fun q => q.waits && !behindAnother s q with
    | some q => .next (tryServe s core q)
    | none => .next s

end Sys2Proof.Machine
end

