-- ==== Sys2Proof/Machine/PumpSys.lean ====
section
/-! DEFINITION. Queue, kernel, region, pool, well, barrier, budget, page and register instructions of a pump core:
spec/12_pump_system.md R234 to R241, R244, R245, R249 to R259, spec/10_engines.md R209, R211. -/

namespace Sys2Proof.Machine

/-! ### Memory operands -/

/-- Where a memory operand lies, checked for its access. -/
def operandAt (s : State) (va len : Nat) (write : Bool) (k : State → List (Nat × Nat) → PumpOut) : PumpOut :=
  withAccess s va len { write := write } false fun s spans =>
    if spans.all fun p => (placeOf p.1).isMemory || ((placeOf p.1).isRemote && remoteTier p.1) then k s spans
    else .fault s 2 (some va)

/-- A memory operand as it stands in memory. -/
def operandBytes (s : State) (va : Nat) (spans : List (Nat × Nat)) (k : State → List Byte → PumpOut) : PumpOut :=
  match readSpansAny (laneWaiter s) va spans s with
  | (.wait, s) => .wait s
  | (.fault c v, s) => .fault (doneRemotes (laneWaiter s) spans s) c (some (if v = 0 then va else v))
  | (.bytes bs, s) => k (doneRemotes (laneWaiter s) spans s) bs

/-- The operand of a commit-point instruction: checked, then the body's released stores, then read. -/
def operandAtCommit (s : State) (va len : Nat) (k : State → List Byte → PumpOut) : PumpOut :=
  operandAt s va len false fun s spans => atCommitPoint s fun s => operandBytes s va spans k

/-! ### Queues (R235 to R237, R239) -/

/-- A queue of the core's context that is not OFF. -/
def queueOk (s : State) (q : Nat) : Bool :=
  decide (q < 1024) && (s.queue q).state != .off && (s.queue q).ctx.toNat == actorCtx s

def execEnq (h : Skip) (ra rb : Reg) (s : State) : Result :=
  let q := readG s ra
  let va := readG s rb
  pumpStep h 0x70 s (if !queueOk s q || (s.queue q).psrc != 0 || va % 64 != 0 then operandFault s
    else operandAtCommit s va 64 fun s b =>
      if queueHeld s q then .retry s
      else match enqRecord s q b with
      | .done s => .done s {}
      | .full => .retry s
      | .wait s => .wait s
      | .fault s c v => .retry (engineFault s q (s.queue q).tail.toNat c v true))

/-- Whether a span can be stored to: a tier here, or on a module that a live link leads to. -/
def storeSpans (s : State) (va : Nat) (spans : List (Nat × Nat)) (k : State → PumpOut) : PumpOut :=
  match spans.find? (deadSpan s) with
  | some p => .fault (dropFlits s (routeLink s (p.1 / 2 ^ 46)) 1) 6 (some va)
  | none => k s

def execDeqq (h : Skip) (rd ra rb : Reg) (s : State) : Result :=
  let q := readG s ra
  let va := readG s rb
  let bound := boundQueue (s.core s.actor.core) == some q && (s.queue q).ctx.toNat == actorCtx s
  pumpStep h 0x71 s (if !bound || va % 64 != 0 then operandFault s
    else operandAt s va 64 true fun s spans => storeSpans s va spans fun s => atCommitPoint s fun s =>
      let u := s.queue q
      if u.present = 0 ∨ queueHeld s q then .retry s
      else match qRead s q (u.slotVa u.head.toNat) 64 with
      | (.wait, s) => .wait s
      | (.fault c v, s) => .retry (engineFault s q u.head.toNat c v false)
      | (.bytes b, s) =>
        let s := s.modQueue q Queue.pop
        gives (writeSpansSure (splitData spans b) none s) rd u.head.toNat)

def execTailw (h : Skip) (ra rb : Reg) (s : State) : Result :=
  let a := readG s ra
  let m := bits a 10 6
  pumpStep h 0x72 s (if a / 2 ^ 16 ≠ 0 then operandFault s
    else if m ≠ thisModule ∧ deadRoute s m then
      .fault (dropFlits s (routeLink s m) 1) 6 none
    else defers s (.tailw a (BitVec.ofNat 64 (readG s rb))))

def execDigest (h : Skip) (rd ra rb : Reg) (s : State) : Result :=
  let q := readG s ra
  let va := readG s rb
  pumpStep h 0x75 s (if !queueOk s q || va % 32 != 0 then operandFault s
    else operandAt s va 32 true fun s spans => storeSpans s va spans fun s =>
      let u := s.queue q
      .done s { g := [(rd.val, BitVec.ofNat 64 u.chainN)], acts := storeActs spans u.chain none })

/-! ### Kernels and regions (R238, R241) -/

def execLaunch (h : Skip) (rd ra rb : Reg) (s : State) : Result :=
  pumpStep h 0x73 s (match ownRegion s (readG s ra) false with
    | none => operandFault s
    | some key => operandAtCommit s (readG s rb) 64 fun s b => match s.region key with
      | none => operandFault s
      | some r =>
        if r.kernel != .primed || r.priming.isSome then gives s rd 1
        else if Rec.type b ≠ 0 ∨ !recordOk (s.ctx r.ctx).level.toNat b ∨ r.imageLevel.toNat < Rec.level b then gives s rd 2
        else match zeroBlock s r.die r.ctx (Rec.p2 b) with
        | (.wait, s) => .wait s
        | (.fault c v, s) => .fault s c (some v)
        | (.bytes _, s) =>
          gives (releaseKernel s key ⟨Rec.p2 b, Rec.p1 b, Rec.keep b, BitVec.ofNat 2 (Rec.level b), none⟩) rd 0)

def execKstat (h : Skip) (rd ra : Reg) (s : State) : Result :=
  let a := readG s ra
  let foreign := (regionOfHandle s a).isSome && (ownRegion s a false).isNone
  pumpStep h 0x74 s (if a / 2 ^ 26 ≠ 0 ∨ foreign then operandFault s else gives s rd (kernelStatus s a))

def execRegionAlloc (h : Skip) (rd ra : Reg) (s : State) : Result :=
  pumpStep h 0x77 s (if readG s ra / 2 ^ 29 ≠ 0 then operandFault s
    else atCommitPoint s fun s => match allocRegion s (actorCtx s) (readG s ra) with
      | .ok (key, s) => gives s rd (regionHandle s key)
      | .error n => gives s rd (2 ^ 63 + n))

def execRegionFree (h : Skip) (rd ra : Reg) (s : State) : Result :=
  pumpStep h 0x77 s (match ownRegion s (readG s ra) false with
    | none => operandFault s
    | some key => atCommitPoint s fun s =>
      if (s.region key).any fun r => r.kernel == .primed || r.kernel == .firing || r.kernel == .draining then
        gives s rd (2 ^ 63 + 1)
      else gives (releaseRegion s key) rd 0)

/-! ### Trigger bindings (R240) -/

def actorTrigger (s : State) (k : Nat) : Trigger := kget s.triggers (actorCtx s * 256 + k) {}

def execTrigbBind (h : Skip) (rd ra rb : Reg) (s : State) : Result :=
  let k := readG s ra
  let va := readG s rb
  pumpStep h 0x76 s (if 256 ≤ k ∨ va % 64 ≠ 0 then operandFault s
    else operandAt s va 64 false fun s spans => operandBytes s va spans fun s d =>
      if !triggerOk d || !triggerMine s (actorCtx s) d then operandFault s
      else .done s { g := [(rd.val, BitVec.ofNat 64 (actorTrigger s k).pending)], acts := [.trigBind k d] })

def execTrigbUnbind (h : Skip) (rd ra : Reg) (s : State) : Result :=
  let k := readG s ra
  pumpStep h 0x76 s (if 256 ≤ k then operandFault s
    else .done s { g := [(rd.val, BitVec.ofNat 64 (actorTrigger s k).pending)], acts := [.trigUnbind k] })

/-- TRIGB.query: the pending count, and the overflow bit in [32] (R278). -/
def execTrigbQuery (h : Skip) (rd ra : Reg) (s : State) : Result :=
  let k := readG s ra
  let t := actorTrigger s k
  pumpStep h 0x76 s (if 256 ≤ k then operandFault s else gives s rd (t.pending + bit t.overflow * 2 ^ 32))

/-! ### Range pools (R209, R210) -/

/-- The die whose range server a core names: its own, or the one that a hub core gives. -/
def poolDie (s : State) (die2 : Fin 4) : Nat := if coreDie s.actor.core = 4 then die2.val else coreDie s.actor.core

/-- A pool descriptor: the pool it makes, none where it is malformed. -/
def poolOf (old : Pool) (ctx : Nat) (d : List Byte) : Option Pool :=
  let start : W64 := BitVec.ofNat 64 (field d 0 8)
  let mode := bits (field d 0x10 1) 0 2
  let ok := mode != 3 && bits (field d 0x10 1) 2 6 == 0 && field d 0x11 1 != 0 && field d 0x12 6 == 0
    && field d 0xC 4 != 0 && (mode == 2 || field d 8 4 != 0)
  if ok then some {
    next := start, left := if mode = 2 then 0 else field d 8 4, chunk := BitVec.ofNat 32 (field d 0xC 4)
    mode := if mode = 0 then .fixed else if mode = 1 then .guided else .table
    takers := BitVec.ofNat 8 (field d 0x11 1), chunks := [], taken := old.taken, failed := none
    reading := if mode = 2 then some (field d 0x18 8, start, ctx) else none }
  else none

def execRpoolFill (h : Skip) (rd ra : Reg) (pool : Fin 16) (die2 : Fin 4) (s : State) : Result :=
  let die := poolDie s die2
  let p := s.pool die pool.val
  pumpStep h 0x78 s (operandAtCommit s (readG s ra) 32 fun s d =>
    if p.reading.isSome ∨ 0 < p.remaining then gives s rd 1
    else match poolOf p (actorCtx s) d with
      | none => gives s rd 2
      | some p => gives (s.setPool die pool.val p) rd 0)

/-- A pool that is reading its group table makes the rule wait (R209). -/
def atPool (s : State) (die pool : Nat) (k : State → Pool → PumpOut) : PumpOut :=
  atCommitPoint s fun s => if (s.pool die pool).reading.isSome then .wait s else k s (s.pool die pool)

def execRpoolClose (h : Skip) (rd _ra : Reg) (pool : Fin 16) (die2 : Fin 4) (s : State) : Result :=
  let die := poolDie s die2
  pumpStep h 0x78 s (atPool s die pool.val fun s p =>
    gives (s.setPool die pool.val { p with left := 0, chunks := [] }) rd (if p.failed.isSome then 0 else p.remaining))

def execRpoolQuery (h : Skip) (rd _ra : Reg) (pool : Fin 16) (die2 : Fin 4) (s : State) : Result :=
  let die := poolDie s die2
  pumpStep h 0x78 s (atPool s die pool.val fun s p => gives s rd (match p.failed with
    | some c => 2 ^ 63 + c.toNat
    | none => p.remaining))

/-! ### CRC.mem and ROUTE (R244, R245) -/

def execCrcMem (h : Skip) (rd ra rb : Reg) (s : State) : Result :=
  let va := readG s ra
  let n := readG s rb
  pumpStep h 0x83 s (if n = 0 ∨ 65536 < n then operandFault s
    else operandAt s va n false fun s spans =>
      if spans.any fun p => (s.core s.actor.core).storePending p.1 p.2 then .wait s
      else operandBytes s va spans fun s bs => gives s rd (crc32c bs))

def execRoute (h : Skip) (rd ra rb : Reg) (s : State) : Result :=
  let a := readG s ra
  let b := readG s rb
  let dx := toSigned 8 (bits b 0 8)
  let dy := toSigned 8 (bits b 8 8)
  let turn := if bits a 16 5 < 24 then routeTurn s (tileOfAddr a) dx dy (bits b 16 1 == 1) else none
  pumpStep h 0x84 s (if a / 2 ^ 27 ≠ 0 ∨ b / 2 ^ 17 ≠ 0 then operandFault s
    else gives s rd (match turn with
      | some yx => routeField dx dy yx
      | none => 2 ^ 63))

/-! ### Wells (R250 to R253) -/

/-- A well the core may name: any that is CLOSED, or one of its context. -/
def wellOk (s : State) (wl : Nat) : Bool := decide (wl < 64) && ((s.well wl).state == .closed || (s.well wl).ctx == actorCtx s)

def execWarm (h : Skip) (rd ra rb : Reg) (s : State) : Result :=
  let wl := readG s ra
  let va := readG s rb
  pumpStep h 0x90 s (if !wellOk s wl || va % 64 != 0 then operandFault s
    else operandAtCommit s va 64 fun s b =>
      if (s.well wl).state ≠ .closed then gives s rd 1
      else
        let (v, s) := warmWell s wl (actorCtx s) va b
        gives s rd v)

def execWcand (h : Skip) (rd ra : Reg) (s : State) : Result :=
  let wl := readG s ra
  let w := s.well wl
  let q := candidateQuad w wl
  let put (i v : Nat) : Nat × W64 := ((rd.val + i) % 64, BitVec.ofNat 64 v)
  pumpStep h 0x91 s (if !wellOk s wl || w.lcore != s.actor.core || rd.val % 4 != 0 then operandFault s
    else .done s { g := [put 0 q.1, put 1 q.2.1, put 2 q.2.2.1, put 3 q.2.2.2] })

/-- The reserved bits of a verdict word. -/
def verdictOk (v : Nat) : Bool := bits v 2 14 == 0 && bits v 48 16 == 0

def execVerd (h : Skip) (ra rb : Reg) (s : State) : Result :=
  let ticket := readGn s (ra.val + 3)
  let v := readG s rb
  let w := bits ticket 32 6
  let judge := bits ticket 63 1 == 0 || (wellOk s w && (s.well w).lcore == s.actor.core)
  pumpStep h 0x92 s (if ra.val % 4 ≠ 0 ∨ !verdictOk v ∨ !judge then operandFault s
    else defers s (.verd ra (BitVec.ofNat 64 ticket) (BitVec.ofNat 64 v)))

def execWdraw (h : Skip) (rd ra rb : Reg) (s : State) : Result :=
  let a := readG s ra
  let v := readGn s (rb.val + 1)
  let ok := rb.val % 2 == 0 && bits a 6 2 == 0 && a / 2 ^ 11 == 0 && wellOk s (bits a 0 6) && verdictOk v && bits v 0 2 == 3
  pumpStep h 0x93 s (if ok then defers s (.wdraw rd (bits a 0 6) (bits a 8 3) (BitVec.ofNat 64 (readG s rb)) (BitVec.ofNat 64 v))
    else operandFault s)

def execWstat (h : Skip) (item : Fin 7) (rd ra : Reg) (v16 : BitVec 16) (s : State) : Result :=
  let wl := readG s ra
  pumpStep h 0x94 s (if wellOk s wl then gives s rd ((s.well wl).item item.val v16.toNat) else operandFault s)

def execWclose (h : Skip) (ra : Reg) (s : State) : Result :=
  pumpStep h 0x95 s (if wellOk s (readG s ra) then defers s (.wclose (readG s ra)) else operandFault s)

/-! ### Barriers (R254, R304, R305) -/

def actorBarrier (s : State) (b : Nat) : Barrier := s.barrier (actorCtx s * 32 + b)

/-- OPEN with no arrival. -/
def Barrier.settable (x : Barrier) : Bool := x.arr == 0 && (x.count == 0 || x.inbox.isEmpty)

def execBarmSet (h : Skip) (ra rb : Reg) (s : State) : Result :=
  let b := readG s ra
  let v := readG s rb
  let scope := bits v 16 3
  let ok := decide (b < 32) && bits v 0 16 != 0 && decide (3 ≤ scope) && decide (scope ≤ 5) && bits v 19 5 == 0
    && v / 2 ^ 30 == 0 && (scope == 5 || bits v 24 6 == 0) && (actorBarrier s b).settable
  pumpStep h 0xA1 s (if ok then defers s (.barm (actorCtx s * 32 + b) (bits v 0 16) scope (bits v 24 6)) else operandFault s)

def execBara (h : Skip) (ra : Reg) (s : State) : Result :=
  let b := readG s ra
  pumpStep h 0xA0 s (if 32 ≤ b ∨ (actorBarrier s b).count = 0 then operandFault s else defers s (.bara (actorCtx s * 32 + b)))

/-- BARM.take: it acquires where it returns a barrier. -/
def execBarmTake (h : Skip) (rd : Reg) (s : State) : Result :=
  let seen := (s.core s.actor.core).barDone
  let s' := if seen = 0 then s else clearCache s
  pumpStep h 0xA1 s (.done s' { g := [(rd.val, BitVec.ofNat 64 seen.toNat)], acts := [.barmTake seen] })

/-! ### Budgets and hints (R211, R255) -/

def execPbudgSet (h : Skip) (ra rb : Reg) (s : State) : Result :=
  let a := readG s ra
  let ok := actorPrivileged s && bits a 6 2 == 0 && a / 2 ^ 10 == 0 && readG s rb / 2 ^ 32 == 0
  pumpStep h 0xA2 s (if ok then defers s (.pbudg (bits a 0 6) (bits a 8 2) (BitVec.ofNat 32 (readG s rb))) else operandFault s)

def execPbudgGet (h : Skip) (rd ra : Reg) (s : State) : Result :=
  let a := readG s ra
  let ok := (actorPrivileged s || bits a 0 6 == actorCtx s) && bits a 6 2 == 0 && a / 2 ^ 10 == 0
  pumpStep h 0xA2 s (if ok then gives s rd (((s.ctx (bits a 0 6)).grants.toList.getD (bits a 8 2) {}).budget).toNat
    else operandFault s)

def execPumpPhint (h : Skip) (ra : Reg) (onset : BitVec 8) (len16 : BitVec 16) (s : State) : Result :=
  let a := readG s ra
  let die := if coreDie s.actor.core = 4 then bits a 9 2 else coreDie s.actor.core
  pumpStep h 0xA4 s (defers s (.phint die (bits a 0 9) onset.toNat len16.toNat))

/-! ### TLBI (R256, R314) -/

/-- The shoot-down a lane waits for. -/
def laneShoot (s : State) : Option Shoot :=
  s.shoots.find? fun x => x.kind == .tlbi && x.owed.any fun o => o.core == s.actor.core && o.tag.toNat == s.actor.lane

/-- A shoot-down starts, is waited for, and is over. -/
def tlbi (s : State) (what : Scope_) : PumpOut :=
  atCommitPoint s fun s => match laneShoot s with
    | none => .wait (startShoot s .tlbi what (some ⟨s.actor.core, 0, BitVec.ofNat 16 s.actor.lane, 0⟩))
    | some x => if x.acked then .done { s with shoots := s.shoots.filter fun y => y.id != x.id } {} else .wait s

def execTlbiPage (h : Skip) (ra : Reg) (s : State) : Result :=
  let va := readG s ra
  pumpStep h 0xB0 s (match rangeFault va 1 with
    | some (c, v) => .fault s c (some v)
    | none => tlbi s (.page (actorCtx s) va))

def execTlbiCtx (h : Skip) (s : State) : Result := pumpStep h 0xB0 s (tlbi s (.ctx (actorCtx s)))

def execTlbiAll (h : Skip) (s : State) : Result :=
  pumpStep h 0xB0 s (if actorPrivileged s then tlbi s .all else operandFault s)

/-! ### System registers (R257 to R259) -/

def Window.reg (w : Window) (i : Nat) : Nat := match i with
  | 0 => w.base.toNat
  | 1 => w.tgt.toNat
  | _ => w.ctl.toNat

/-- The value of a system register. -/
def sysRead (s : State) (cn idx : Nat) : Nat :=
  let c := s.core cn
  match idx with
  | 0x000 => coreHandle cn + thisModule * 2 ^ 8
  | 0x001 => coreCtx s cn
  | 0x002 => c.fltrec.toNat
  | 0x003 => c.fltva.toNat
  | 0x004 => c.novf
  | 0x005 => c.bqueue.toNat
  | 0x006 => c.rndcnt.toNat
  | 0x007 => s.nstime % 2 ^ 64
  | 0x008 => dieEpoch s (coreDie cn)
  | _ =>
    if 0x10 ≤ idx ∧ idx < 0x20 then ((c.wins.toList.getD ((idx - 0x10) / 4) {}).reg (idx % 4))
    else bits (s.fused.toList.getD ((idx - 0x40) / 6) 0).toNat (64 * ((idx - 0x40) % 6)) 64

/-- What reading a register clears at commit, once in a body. -/
def sysClears (s : State) (idx : Nat) : List CommitAct :=
  let c := s.core s.actor.core
  let act : Option CommitAct := match idx with
    | 2 => some (.fltClear c.fltrec)
    | 4 => some (.novfClear (BitVec.ofNat 64 c.novf))
    | _ => none
  act.toList.filter fun a => !(bodyLane s).acts.contains a

def execSysr (h : Skip) (rd : Reg) (sidx : BitVec 12) (s : State) : Result :=
  let v := sysRead s s.actor.core sidx.toNat
  pumpStep h 0xC0 s (.done s { g := [(rd.val, BitVec.ofNat 64 v)], acts := sysClears s sidx.toNat })

/-- A window register written. -/
def Window.setReg (w : Window) (i : Nat) (v : W64) : Window := match i with
  | 0 => { w with base := v }
  | 1 => { w with tgt := v }
  | _ => { w with ctl := v }

def Core.setWindow (c : Core) (idx : Nat) (v : W64) : Core :=
  let k := fin 4 ((idx - 0x10) / 4)
  { c with wins := c.wins.set k (c.wins[k].setReg (idx % 4) v) }

/-- The core with the window registers that the body has already written. -/
def withOwnWindows (c : Core) (l : Lane) : Core :=
  l.acts.foldl (fun c a => match a with
    | .sysw idx v => if 0x10 ≤ idx then c.setWindow idx v else c
    | _ => c) c

/-- A window as R259 allows it. -/
def Window.ok (w : Window) : Bool :=
  bits w.tgt.toNat 52 12 == 0 && bits w.ctl.toNat 8 56 == 0
    && (!w.enabled || (decide (16 ≤ bits w.ctl.toNat 2 6) && decide (bits w.ctl.toNat 2 6 ≤ 48)
      && w.base.toNat % w.size == 0 && w.tgt.toNat % w.size == 0))

/-- The value a SYSW leaves in BQUEUE. -/
def bqueueWord (v : Nat) : W64 := BitVec.ofNat 64 (bits v 63 1 * 2 ^ 63 + bits v 0 10)

def execSysw (h : Skip) (sidx : BitVec 12) (rb : Reg) (s : State) : Result :=
  let idx := sidx.toNat
  let v := readG s rb
  let c := s.core s.actor.core
  let w := (((withOwnWindows c (bodyLane s)).setWindow idx (BitVec.ofNat 64 v)).wins.toList).getD ((idx - 0x10) / 4) {}
  let ok := if idx = 5 then bits v 63 1 == 0 || (s.queue (bits v 0 10)).ctx.toNat == actorCtx s
    else decide (0x10 ≤ idx) && decide (idx < 0x20) && actorPrivileged s && w.ok
  pumpStep h 0xC1 s (if !ok then operandFault s
    else defers s (.sysw idx (if idx = 5 then bqueueWord v else BitVec.ofNat 64 v)))

end Sys2Proof.Machine
end

