-- ==== Sys2Proof/Machine/PumpRound.lean ====
section
/-! DEFINITION. The round of a pump core (spec/03_rules.md R50, spec/12_pump_system.md R230): which of its steps comes next, the
commit, and how committed stores are performed (spec/11_pump_memory_control.md R217, R225, R226). -/

namespace Sys2Proof.Machine

/-! ### Committed stores (R225) -/

/-- The memory controllers a store goes to: one for each 4 KiB of the tiers, one for the registers, one for each
other module. -/
def controllersOf (pa len : Nat) : List (Nat × Nat) :=
  match placeOf pa with
  | .near _ | .far _ => [(0, localPa pa / 4096), (0, (localPa pa + len - 1) / 4096)]
  | .mmio _ => [(1, 0)]
  | .remote m => [(2, m)]
  | .hole => []

def QStore.meets (pa len : Nat) : QStore → Bool
  | .fence _ => true
  | .store pb bs _ => (controllersOf pb bs.length).any (controllersOf pa len).contains

/-- Whether entry i of the committed stores may be performed next: in commit order at its controller, after every
fence before it; a fence once all before it has been performed, at domain scope also on the links. -/
def mayPerform (s : State) (q : List QStore) (i : Nat) : Bool :=
  match q[i]? with
  | none => false
  | some (.fence domain) => i == 0 && !(domain && storesOut s)
  | some (.store pa bs _) => (q.take i).all fun x => !x.meets pa bs.length

/-- Entry i of a core's committed stores leaves them; a shoot-down the core acknowledged before counts it (R314). -/
def performEntry (s : State) (cn i : Nat) : State :=
  let c := s.core cn
  let s := s.setCore cn { c with storeQ := c.storeQ.eraseIdx i }
  let s : State := { s with shoots := s.shoots.map (Shoot.performed cn i) }
  match c.storeQ[i]? with
  | some (.store pa bs full) => performStore s cn pa bs full
  | _ => s

/-! ### Acts at commit (R230) -/

/-- A store committed: it waits to be performed, and the core's cache holds it. -/
def Core.commitStore (c : Core) (pa : Nat) (bs : List Byte) (full : Option Bool) : Core :=
  let c := { c with storeQ := c.storeQ ++ [.store pa bs full] }
  if (placeOf pa).isMemory then c.updateCache (localPa pa) bs else c

/-- BQUEUE written: the queue it named goes back to the engine, the queue it names is served by the core (R236, R269). -/
def setBqueue (s : State) (cn : Nat) (v : W64) : State :=
  let back (s : State) (q : Nat) : State := s.modQueue q fun u => if u.state = .bound then { u with state := .active } else u
  let take (s : State) (q : Nat) : State := s.modQueue q fun u => if u.state = .active then { u with state := .bound } else u
  let old := boundQueue (s.core cn)
  let s := s.modCore cn fun c => { c with bqueue := v }
  let s := match old with
    | some q => if boundToCore s q then s else back s q
    | none => s
  match boundQueue (s.core cn) with
  | some q => take s q
  | none => s

def Core.setG (c : Core) (r : Nat) (v : W64) : Core := { c with g := c.g.set (fin 64 r) v }

/-- Stores of earlier rounds and of the body before it are performed, at the scope of a fence. -/
def released (s : State) (cn : Nat) (domain : Bool) : Bool := (s.core cn).storeQ.isEmpty && !(domain && storesOut s)

/-- An act of a body at its commit; none while it must wait. -/
def commitAct (s : State) (cn : Nat) : CommitAct → Option State
  | .store pa bs full _ => some (s.modCore cn fun c => c.commitStore pa bs full)
  | .fence scope => some (s.modCore cn fun c => { c with storeQ := c.storeQ ++ [.fence (scope == .domain)] })
  | .noteSend target data => some (pushNote s target (BitVec.ofNat 64 (noteWord cn data.toNat)))
  | .noteTake hw val => some (s.modCore cn fun c => c.dropNote hw val)
  | .timer periodic interval seen => some (s.modCore cn fun c => c.setTimer s.nstime periodic interval seen)
  | .tailw q index =>
    if !released s cn true then none
    else if bits q 10 6 = thisModule then some (tailWrite s (.module thisModule) (bits q 0 10) index.toNat)
    else some (sendOrDrop s (bits q 10 6) (.tail (bits q 0 10) index))
  | .trigBind k desc => some (bindTrigger s (coreDie cn) (coreCtx s cn) k desc)
  | .trigUnbind k => some (unbindTrigger s (coreCtx s cn) k)
  | .cfgTake => some (s.modCore cn fun c =>
      let rest := c.replies.tail
      { c with replies := rest, events := if rest.isEmpty then c.events &&& ~~~(0x80 : BitVec 16) else c.events })
  | .request kind variant tag a b c => some (postRequest s cn kind variant tag a b c)
  | .verd a ticket verdict =>
    let (w, s) := judgeTicket s (bits ticket.toNat 32 6) ticket.toNat verdict.toNat
    some (s.modCore cn fun c => c.setG (a.val + 3) (BitVec.ofNat 64 w))
  | .wdraw rd wl cls t verdict =>
    let (w, s) := drawAt s wl cls t.toNat verdict.toNat
    some (s.modCore cn fun c => c.setG rd.val (BitVec.ofNat 64 w))
  | .wclose wl => some (closeWell s wl)
  | .barm b count scope root => some (if (s.barrier b).settable then configureBarrier s b count scope root else s)
  | .bara b =>
    if !released s cn ((s.barrier b).scope == 5) then none
    else some (if (s.barrier b).count = 0 then s else arriveAt s b (some cn) thisModule)
  | .barmTake seen => some (s.modCore cn fun c =>
      let left := c.barDone &&& ~~~seen
      { c with barDone := left, events := if left = 0 then c.events &&& ~~~(0x20 : BitVec 16) else c.events })
  | .pbudg cx die val => some (s.modCtx cx fun x =>
      let d := fin 4 die
      { x with grants := x.grants.set d { x.grants[d] with budget := val } })
  | .phint die int onset len => some (requestHint s (coreCtx s cn) die int onset len none)
  | .sysw idx val => some (if idx = 5 then setBqueue s cn val else s.modCore cn fun c => c.setWindow idx val)
  | .fltClear seen => some (s.modCore cn fun c => if c.fltrec = seen then { c with fltrec := 0 } else c)
  | .novfClear seen => some (s.modCore cn fun c => { c with novf := c.novf - seen.toNat })

/-! ### The commit (R50) -/

/-- A lane's registers and predicates committed. -/
def commitRegs (s : State) (cn k : Nat) (l : Lane) : State :=
  s.modCore cn fun c =>
    let c := l.g.foldl (fun c w => c.setG w.1 w.2) c
    let setP (p : BitVec 32) (w : Nat × Bool) : BitVec 32 :=
      if w.2 then p ||| BitVec.ofNat 32 (2 ^ w.1) else p &&& ~~~(BitVec.ofNat 32 (2 ^ w.1))
    setLane { c with p := l.p.foldl setP c.p } k { l with g := [], p := [] }

/-- The end of a round: shoot-downs that waited for it are acknowledged (R314). -/
def closeRound (s : State) (cn : Nat) : State := ackShoots (s.modCore cn Core.endRound) cn

/-- One step of the commit: of the first lane that has something to commit, its registers, or its next act; then the
round ends. -/
def commitStep (s : State) (cn : Nat) : State :=
  let c := s.core cn
  let k := c.lanes.findIdx fun l => l.run == .done
  match c.lanes[k]? with
  | none => closeRound s cn
  | some l =>
    if !l.g.isEmpty || !l.p.isEmpty then commitRegs s cn k l
    else match l.acts with
    | [] => s.setCore cn (setLane c k { l with run := .aborted })
    | a :: rest => match commitAct (s.setCore cn (setLane c k { l with acts := rest })) cn a with
      | some s => s
      | none => s

/-! ### What a core does next -/

/-- The kinds of step of a core. -/
inductive CoreAct where
  | lane (k : Nat)
  | store (i : Nat)
  | commit
  | begin_
  deriving DecidableEq, Repr

/-- What a core may do now: perform a committed store, and go on with its round or begin one. -/
def coreChoices (s : State) (cn : Nat) : List CoreAct :=
  let c := s.core cn
  let stores := ((List.range c.storeQ.length).filter (mayPerform s c.storeQ)).map CoreAct.store
  let running := (c.lanes.zipIdx.filter fun p => p.1.run == .running).map fun p => CoreAct.lane p.2
  stores ++ (if c.lanes.isEmpty then (if coreRuns s cn then [.begin_] else [])
    else if running.isEmpty then [.commit] else running)

/-- The word a lane executes next. -/
def laneWord (c : Core) (l : Lane) : W64 := kget c.body (ruleStart (c.ruleAt l.rule).2 + l.pc) 0

/-- A selected rule with an illegal word aborts with 0x10 (R105); FLTREC names INSTR 0 and OP 0 (log entry 111). -/
def meetIllegalRule (s : State) (cn rule : Nat) : State :=
  let c := s.core cn
  match c.lanes.findIdx? fun l => l.rule == rule && l.run == .running with
  | some k => if ruleLegal c rule then s else abortLane s cn k (some (0x10, none)) 0
  | none => s

/-- ILLEGAL_SLOT (R104, R105). -/
def execIllegalSlot (il : IllegalAt) (s : State) : Result :=
  match il with
  | .element t e plane slot => .next (meetIllegal s t e plane slot)
  | .pump c rule => .next (meetIllegalRule s c rule)

/-- Whether a core number names a core of the module. -/
def coreExists (cn : Nat) : Bool := decide (coreDie cn < 4) || (coreDie cn == 4 && decide (coreNo cn < 4))

/-- One of a list by a free number; one that stands alone without it. -/
def pickOf {α : Type} (n : Nat) : List α → Option α
  | [a] => some a
  | as => as[n % as.length]?

/-- The next thing a core does, by free choice among what it may: the state before it, and the body word that the step
executes, if any. -/
def coreNext (s : State) (cn : Nat) : State × Option W64 :=
  if !coreExists cn then (s, none)
  else
    let (n, s) := drawNat s
    match pickOf n (coreChoices s cn) with
    | none => (s, none)
    | some (.store i) => (performEntry s cn i, none)
    | some .commit => (commitStep s cn, none)
    | some .begin_ => (beginPumpRound s cn, none)
    | some (.lane k) =>
      let c := s.core cn
      let l := c.lanes.getD k { rule := 0 }
      let s := { s with actor := { s.actor with core := cn, lane := k } }
      if l.pc = 0 ∧ !ruleLegal c l.rule then (meetIllegalRule s cn l.rule, none) else (s, some (laneWord c l))

end Sys2Proof.Machine
end

