-- ==== Sys2Proof/Machine/Dispatch.lean ====
section
/-! DEFINITION. One arm for each constructor of Instr: the meaning it calls, or its rejection by name. -/

namespace Sys2Proof.Machine

def exec (i : Instr) (s : State) : Host.Outcome State Fault Refusal :=
  match i with
  | .add g d a b => Sys2Proof.Machine.execAdd g d a b s
  | .sub g d a b => Sys2Proof.Machine.execSub g d a b s
  | .mul g d a b => Sys2Proof.Machine.execMul g d a b s
  | .mulh g d a b => Sys2Proof.Machine.execMulh g d a b s
  | .mulhn g d a b => Sys2Proof.Machine.execMulhn g d a b s
  | .adds g n d a b => Sys2Proof.Machine.execAdds g n d a b s
  | .subs g n d a b => Sys2Proof.Machine.execSubs g n d a b s
  | .and g d a b => Sys2Proof.Machine.execAnd g d a b s
  | .or g d a b => Sys2Proof.Machine.execOr g d a b s
  | .xor g d a b => Sys2Proof.Machine.execXor g d a b s
  | .andn g d a b => Sys2Proof.Machine.execAndn g d a b s
  | .shl g d a b => Sys2Proof.Machine.execShl g d a b s
  | .shr g d a b => Sys2Proof.Machine.execShr g d a b s
  | .sra g d a b => Sys2Proof.Machine.execSra g d a b s
  | .rot g d a b => Sys2Proof.Machine.execRot g d a b s
  | .min g d a b => Sys2Proof.Machine.execMin g d a b s
  | .max g d a b => Sys2Proof.Machine.execMax g d a b s
  | .minn g d a b => Sys2Proof.Machine.execMinn g d a b s
  | .maxn g d a b => Sys2Proof.Machine.execMaxn g d a b s
  | .cmp g rel n d a b => Sys2Proof.Machine.execCmp g rel n d a b s
  | .tst g none1 d a b => Sys2Proof.Machine.execTst g none1 d a b s
  | .sel g pid d a b => Sys2Proof.Machine.execSel g pid d a b s
  | .clz g d a => Sys2Proof.Machine.execClz g d a s
  | .popc g d a => Sys2Proof.Machine.execPopc g d a s
  | .bfx g n d a b => Sys2Proof.Machine.execBfx g n d a b s
  | .bfi g d a b => Sys2Proof.Machine.execBfi g d a b s
  | .mov g d a => Sys2Proof.Machine.execMov g d a s
  | .pset g a => Sys2Proof.Machine.execPset g a s
  | .plog g lop pj pk => Sys2Proof.Machine.execPlog g lop pj pk s
  | .cnt g n d a b => Sys2Proof.Machine.execCnt g n d a b s
  | .qset g q a => Sys2Proof.Machine.execQset g q a s
  | .addImm g d a imm => Sys2Proof.Machine.execAddImm g d a imm s
  | .subImm g d a imm => Sys2Proof.Machine.execSubImm g d a imm s
  | .mulImm g d a imm => Sys2Proof.Machine.execMulImm g d a imm s
  | .mulhImm g d a imm => Sys2Proof.Machine.execMulhImm g d a imm s
  | .mulhnImm g d a imm => Sys2Proof.Machine.execMulhnImm g d a imm s
  | .addsImm g d a imm => Sys2Proof.Machine.execAddsImm g d a imm s
  | .subsImm g d a imm => Sys2Proof.Machine.execSubsImm g d a imm s
  | .andImm g d a imm => Sys2Proof.Machine.execAndImm g d a imm s
  | .orImm g d a imm => Sys2Proof.Machine.execOrImm g d a imm s
  | .xorImm g d a imm => Sys2Proof.Machine.execXorImm g d a imm s
  | .andnImm g d a imm => Sys2Proof.Machine.execAndnImm g d a imm s
  | .shlImm g d a imm => Sys2Proof.Machine.execShlImm g d a imm s
  | .shrImm g d a imm => Sys2Proof.Machine.execShrImm g d a imm s
  | .sraImm g d a imm => Sys2Proof.Machine.execSraImm g d a imm s
  | .rotImm g d a imm => Sys2Proof.Machine.execRotImm g d a imm s
  | .minImm g d a imm => Sys2Proof.Machine.execMinImm g d a imm s
  | .maxImm g d a imm => Sys2Proof.Machine.execMaxImm g d a imm s
  | .minnImm g d a imm => Sys2Proof.Machine.execMinnImm g d a imm s
  | .maxnImm g d a imm => Sys2Proof.Machine.execMaxnImm g d a imm s
  | .movi g d imm => Sys2Proof.Machine.execMovi g d imm s
  | .cntImm g d a imm => Sys2Proof.Machine.execCntImm g d a imm s
  | .movs g d imm => Sys2Proof.Machine.execMovs g d imm s
  | .nop g => Sys2Proof.Machine.execNop g s
  | .halt g => Sys2Proof.Machine.execHalt g s
  | .trap g a => Sys2Proof.Machine.execTrap g a s
  | .plane g k4 => Sys2Proof.Machine.execPlane g k4 s
  | .chgq g d => Sys2Proof.Machine.execChgq g d s
  | .vadd g fmt d a b => Sys2Proof.Machine.execVadd g fmt d a b s
  | .vsub g fmt d a b => Sys2Proof.Machine.execVsub g fmt d a b s
  | .vmul g fmt d a b => Sys2Proof.Machine.execVmul g fmt d a b s
  | .vmax g fmt d a b => Sys2Proof.Machine.execVmax g fmt d a b s
  | .vmin g fmt d a b => Sys2Proof.Machine.execVmin g fmt d a b s
  | .vclamp g fmt d a b => Sys2Proof.Machine.execVclamp g fmt d a b s
  | .vfma g fmt d a b => Sys2Proof.Machine.execVfma g fmt d a b s
  | .vfms g fmt d a b => Sys2Proof.Machine.execVfms g fmt d a b s
  | .vabs g fmt d a => Sys2Proof.Machine.execVabs g fmt d a s
  | .vneg g fmt d a => Sys2Proof.Machine.execVneg g fmt d a s
  | .vrcp g fmt d a => Sys2Proof.Machine.execVrcp g fmt d a s
  | .vrsq g fmt d a => Sys2Proof.Machine.execVrsq g fmt d a s
  | .vsqrt g fmt d a => Sys2Proof.Machine.execVsqrt g fmt d a s
  | .vexp2 g fmt d a => Sys2Proof.Machine.execVexp2 g fmt d a s
  | .vlog2 g fmt d a => Sys2Proof.Machine.execVlog2 g fmt d a s
  | .vtanh g fmt d a => Sys2Proof.Machine.execVtanh g fmt d a s
  | .vred g kind fmt d a => Sys2Proof.Machine.execVred g kind fmt d a s
  | .vamax g fmt d a => Sys2Proof.Machine.execVamax g fmt d a s
  | .vcmp g fmt d a b => Sys2Proof.Machine.execVcmp g fmt d a b s
  | .vsel g lw vtest d a b => Sys2Proof.Machine.execVsel g lw vtest d a b s
  | .vlog g vlop d a b => Sys2Proof.Machine.execVlog g vlop d a b s
  | .vsh g lw shop d a b => Sys2Proof.Machine.execVsh g lw shop d a b s
  | .vbcst g fmt d a => Sys2Proof.Machine.execVbcst g fmt d a s
  | .vext g fmt d a b => Sys2Proof.Machine.execVext g fmt d a b s
  | .vins g fmt d a b => Sys2Proof.Machine.execVins g fmt d a b s
  | .viota g fmt d a b => Sys2Proof.Machine.execViota g fmt d a b s
  | .vshuf g lw d a b => Sys2Proof.Machine.execVshuf g lw d a b s
  | .vcvt g df sf rnd d a => Sys2Proof.Machine.execVcvt g df sf rnd d a s
  | .vpack g df sf rnd d a => Sys2Proof.Machine.execVpack g df sf rnd d a s
  | .vunpk g df sf rnd d a => Sys2Proof.Machine.execVunpk g df sf rnd d a s
  | .vqnt g df sf rnd d a => Sys2Proof.Machine.execVqnt g df sf rnd d a s
  | .vdqnt g df sf rnd d a => Sys2Proof.Machine.execVdqnt g df sf rnd d a s
  | .vrng g rk d a b => Sys2Proof.Machine.execVrng g rk d a b s
  | .vdrop g fmt d a b => Sys2Proof.Machine.execVdrop g fmt d a b s
  | .vacc g fmt d a => Sys2Proof.Machine.execVacc g fmt d a s
  | .cturn g lw d a => Sys2Proof.Machine.execCturn g lw d a s
  | .fwd g d a b => Sys2Proof.Machine.execFwd g d a b s
  | .deq g a bo => Sys2Proof.Machine.execDeq g a bo s
  | .steer g d a b => Sys2Proof.Machine.execSteer g d a b s
  | .mrgo g d a b => Sys2Proof.Machine.execMrgo g d a b s
  | .mrga g d a b => Sys2Proof.Machine.execMrga g d a b s
  | .tag g tagv d a => Sys2Proof.Machine.execTag g tagv d a s
  | .markStroke g => Sys2Proof.Machine.execMarkStroke g s
  | .markDrain g => Sys2Proof.Machine.execMarkDrain g s
  | .markFreeze g => Sys2Proof.Machine.execMarkFreeze g s
  | .markBarrier g d => Sys2Proof.Machine.execMarkBarrier g d s
  | .markCut g d a => Sys2Proof.Machine.execMarkCut g d a s
  | .crget g ring d => Sys2Proof.Machine.execCrget g ring d s
  | .crput g ring a => Sys2Proof.Machine.execCrput g ring a s
  | .ld g mw n d a b => Sys2Proof.Machine.execLd g mw n d a b s
  | .st g mw n a b => Sys2Proof.Machine.execSt g mw n a b s
  | .vld g d a b => Sys2Proof.Machine.execVld g d a b s
  | .vst g a b => Sys2Proof.Machine.execVst g a b s
  | .lds g d a b => Sys2Proof.Machine.execLds g d a b s
  | .stf g a b => Sys2Proof.Machine.execStf g a b s
  | .ldc g d a b => Sys2Proof.Machine.execLdc g d a b s
  | .xlat g wr d a => Sys2Proof.Machine.execXlat g wr d a s
  | .agenRearm g d a => Sys2Proof.Machine.execAgenRearm g d a s
  | .agenStep g d => Sys2Proof.Machine.execAgenStep g d s
  | .atom g aop n d a b => Sys2Proof.Machine.execAtom g aop n d a b s
  | .ownapApply g a => Sys2Proof.Machine.execOwnapApply g a s
  | .ownapReadout g d a => Sys2Proof.Machine.execOwnapReadout g d a s
  | .cld g mw n d a => Sys2Proof.Machine.execCld g mw n d a s
  | .cst g mw n a b => Sys2Proof.Machine.execCst g mw n a b s
  | .cvld g d a => Sys2Proof.Machine.execCvld g d a s
  | .cvst g a b => Sys2Proof.Machine.execCvst g a b s
  | .rtake g d a => Sys2Proof.Machine.execRtake g d a s
  | .mxcfg g d a => Sys2Proof.Machine.execMxcfg g d a s
  | .mxstat g d a => Sys2Proof.Machine.execMxstat g d a s
  | .mxldb g d a b => Sys2Proof.Machine.execMxldb g d a b s
  | .mxrow g d a b => Sys2Proof.Machine.execMxrow g d a b s
  | .mxacc g d a b => Sys2Proof.Machine.execMxacc g d a b s
  | .mxdrn g d a b => Sys2Proof.Machine.execMxdrn g d a b s
  | .mxgrp g d a => Sys2Proof.Machine.execMxgrp g d a s
  | .sxcpy g d a => Sys2Proof.Machine.execSxcpy g d a s
  | .sxgth g d a => Sys2Proof.Machine.execSxgth g d a s
  | .sxsct g d a => Sys2Proof.Machine.execSxsct g d a s
  | .sxdeep g d a => Sys2Proof.Machine.execSxdeep g d a s
  | .xpcfg g d a => Sys2Proof.Machine.execXpcfg g d a s
  | .wrsrt g d a => Sys2Proof.Machine.execWrsrt g d a s
  | .phint g a b => Sys2Proof.Machine.execPhint g a b s
  | .pumpAdd h w n rd ra pb => Sys2Proof.Machine.execPumpAdd h w n rd ra pb s
  | .pumpSub h w n rd ra pb => Sys2Proof.Machine.execPumpSub h w n rd ra pb s
  | .pumpMul h w n rd ra pb => Sys2Proof.Machine.execPumpMul h w n rd ra pb s
  | .pumpMulh h w rd ra pb => Sys2Proof.Machine.execPumpMulh h w rd ra pb s
  | .pumpMulhn h w rd ra pb => Sys2Proof.Machine.execPumpMulhn h w rd ra pb s
  | .pumpAdds h w n rd ra pb => Sys2Proof.Machine.execPumpAdds h w n rd ra pb s
  | .pumpSubs h w n rd ra pb => Sys2Proof.Machine.execPumpSubs h w n rd ra pb s
  | .pumpAnd h w n rd ra pb => Sys2Proof.Machine.execPumpAnd h w n rd ra pb s
  | .pumpOr h w n rd ra pb => Sys2Proof.Machine.execPumpOr h w n rd ra pb s
  | .pumpXor h w n rd ra pb => Sys2Proof.Machine.execPumpXor h w n rd ra pb s
  | .pumpAndn h w n rd ra pb => Sys2Proof.Machine.execPumpAndn h w n rd ra pb s
  | .pumpShl h w n rd ra pb => Sys2Proof.Machine.execPumpShl h w n rd ra pb s
  | .pumpShr h w rd ra pb => Sys2Proof.Machine.execPumpShr h w rd ra pb s
  | .pumpSra h w rd ra pb => Sys2Proof.Machine.execPumpSra h w rd ra pb s
  | .pumpRot h w n rd ra pb => Sys2Proof.Machine.execPumpRot h w n rd ra pb s
  | .pumpMin h w rd ra pb => Sys2Proof.Machine.execPumpMin h w rd ra pb s
  | .pumpMax h w rd ra pb => Sys2Proof.Machine.execPumpMax h w rd ra pb s
  | .pumpMinn h w rd ra pb => Sys2Proof.Machine.execPumpMinn h w rd ra pb s
  | .pumpMaxn h w rd ra pb => Sys2Proof.Machine.execPumpMaxn h w rd ra pb s
  | .pumpCmp h rel w n rd ra pb => Sys2Proof.Machine.execPumpCmp h rel w n rd ra pb s
  | .pumpTst h none1 w n rd ra pb => Sys2Proof.Machine.execPumpTst h none1 w n rd ra pb s
  | .pumpSel h w n pd5i rd ra rb => Sys2Proof.Machine.execPumpSel h w n pd5i rd ra rb s
  | .pumpClz h w n rd ra => Sys2Proof.Machine.execPumpClz h w n rd ra s
  | .pumpPopc h w n rd ra => Sys2Proof.Machine.execPumpPopc h w n rd ra s
  | .pumpBfx h w n rd ra rb => Sys2Proof.Machine.execPumpBfx h w n rd ra rb s
  | .pumpBfi h w n rd ra rb => Sys2Proof.Machine.execPumpBfi h w n rd ra rb s
  | .pumpMov h w n rd pm => Sys2Proof.Machine.execPumpMov h w n rd pm s
  | .pumpPset h w pd5 pb => Sys2Proof.Machine.execPumpPset h w pd5 pb s
  | .pumpPlog h lop w pd5 pa5 pb5 => Sys2Proof.Machine.execPumpPlog h lop w pd5 pa5 pb5 s
  | .div h w rd ra pb => Sys2Proof.Machine.execDiv h w rd ra pb s
  | .divn h w rd ra pb => Sys2Proof.Machine.execDivn h w rd ra pb s
  | .rem h w n rd ra pb => Sys2Proof.Machine.execRem h w n rd ra pb s
  | .movk h rd v16 fld => Sys2Proof.Machine.execMovk h rd v16 fld s
  | .pumpLd h w n rd ra disp => Sys2Proof.Machine.execPumpLd h w n rd ra disp s
  | .pumpSt h w n ra rb disp => Sys2Proof.Machine.execPumpSt h w n ra rb disp s
  | .pumpLds h n rd ra disp => Sys2Proof.Machine.execPumpLds h n rd ra disp s
  | .pumpStf h n ra rb disp => Sys2Proof.Machine.execPumpStf h n ra rb disp s
  | .pumpLdc h n rd ra disp => Sys2Proof.Machine.execPumpLdc h n rd ra disp s
  | .cas h w n rd ra rb disp => Sys2Proof.Machine.execCas h w n rd ra rb disp s
  | .swap h w n rd ra rb disp => Sys2Proof.Machine.execSwap h w n rd ra rb disp s
  | .fadd h w n rd ra rb disp => Sys2Proof.Machine.execFadd h w n rd ra rb disp s
  | .fmin h w n rd ra rb disp => Sys2Proof.Machine.execFmin h w n rd ra rb disp s
  | .fmax h w n rd ra rb disp => Sys2Proof.Machine.execFmax h w n rd ra rb disp s
  | .fand h w n rd ra rb disp => Sys2Proof.Machine.execFand h w n rd ra rb disp s
  | .fOr h w n rd ra rb disp => Sys2Proof.Machine.execFOr h w n rd ra rb disp s
  | .fxadd h xf ra rb disp => Sys2Proof.Machine.execFxadd h xf ra rb disp s
  | .fxaddRd h xf clr rd ra disp => Sys2Proof.Machine.execFxaddRd h xf clr rd ra disp s
  | .waitv h w n mon rd ra rb disp => Sys2Proof.Machine.execWaitv h w n mon rd ra rb disp s
  | .fenceAcq h scope => Sys2Proof.Machine.execFenceAcq h scope s
  | .fenceRel h scope => Sys2Proof.Machine.execFenceRel h scope s
  | .fenceFull h scope => Sys2Proof.Machine.execFenceFull h scope s
  | .skip h cnt24 => Sys2Proof.Machine.execSkip h cnt24 s
  | .abort h => Sys2Proof.Machine.execAbort h s
  | .noteSend h ra rb => Sys2Proof.Machine.execNoteSend h ra rb s
  | .noteTake h rd => Sys2Proof.Machine.execNoteTake h rd s
  | .timerOnce h rd ra => Sys2Proof.Machine.execTimerOnce h rd ra s
  | .timerPer h rd ra => Sys2Proof.Machine.execTimerPer h rd ra s
  | .enq h ra rb => Sys2Proof.Machine.execEnq h ra rb s
  | .deqq h rd ra rb => Sys2Proof.Machine.execDeqq h rd ra rb s
  | .tailw h ra rb => Sys2Proof.Machine.execTailw h ra rb s
  | .launch h rd ra rb => Sys2Proof.Machine.execLaunch h rd ra rb s
  | .kstat h rd ra => Sys2Proof.Machine.execKstat h rd ra s
  | .digest h rd ra rb => Sys2Proof.Machine.execDigest h rd ra rb s
  | .trigbBind h rd ra rb => Sys2Proof.Machine.execTrigbBind h rd ra rb s
  | .trigbUnbind h rd ra => Sys2Proof.Machine.execTrigbUnbind h rd ra s
  | .trigbQuery h rd ra => Sys2Proof.Machine.execTrigbQuery h rd ra s
  | .regionAlloc h rd ra => Sys2Proof.Machine.execRegionAlloc h rd ra s
  | .regionFree h rd ra => Sys2Proof.Machine.execRegionFree h rd ra s
  | .rpoolFill h rd ra pool die2 => Sys2Proof.Machine.execRpoolFill h rd ra pool die2 s
  | .rpoolClose h rd ra pool die2 => Sys2Proof.Machine.execRpoolClose h rd ra pool die2 s
  | .rpoolQuery h rd ra pool die2 => Sys2Proof.Machine.execRpoolQuery h rd ra pool die2 s
  | .cfgw h ra rb tg => Sys2Proof.Machine.execCfgw h ra rb tg s
  | .cfgrdReq h ra tg => Sys2Proof.Machine.execCfgrdReq h ra tg s
  | .cfgrdTake h rd => Sys2Proof.Machine.execCfgrdTake h rd s
  | .cfgsig h ra rb key tg => Sys2Proof.Machine.execCfgsig h ra rb key tg s
  | .crcCfg h ra rb tg => Sys2Proof.Machine.execCrcCfg h ra rb tg s
  | .crcMem h rd ra rb => Sys2Proof.Machine.execCrcMem h rd ra rb s
  | .route h rd ra rb => Sys2Proof.Machine.execRoute h rd ra rb s
  | .prime h ra k4 tg => Sys2Proof.Machine.execPrime h ra k4 tg s
  | .freeze h ra tg => Sys2Proof.Machine.execFreeze h ra tg s
  | .freezeStroke h ra tg => Sys2Proof.Machine.execFreezeStroke h ra tg s
  | .thaw h ra tg => Sys2Proof.Machine.execThaw h ra tg s
  | .imgoutMem h ra rb tg => Sys2Proof.Machine.execImgoutMem h ra rb tg s
  | .imgoutShadow h ra tg => Sys2Proof.Machine.execImgoutShadow h ra tg s
  | .imgoutBack h ra tg => Sys2Proof.Machine.execImgoutBack h ra tg s
  | .rsload h ra rb tg => Sys2Proof.Machine.execRsload h ra rb tg s
  | .warm h rd ra rb => Sys2Proof.Machine.execWarm h rd ra rb s
  | .wcand h rd ra => Sys2Proof.Machine.execWcand h rd ra s
  | .verd h ra rb => Sys2Proof.Machine.execVerd h ra rb s
  | .wdraw h rd ra rb => Sys2Proof.Machine.execWdraw h rd ra rb s
  | .wstat h item rd ra v16 => Sys2Proof.Machine.execWstat h item rd ra v16 s
  | .bara h ra => Sys2Proof.Machine.execBara h ra s
  | .barmSet h ra rb => Sys2Proof.Machine.execBarmSet h ra rb s
  | .barmTake h rd => Sys2Proof.Machine.execBarmTake h rd s
  | .pbudgSet h ra rb => Sys2Proof.Machine.execPbudgSet h ra rb s
  | .pbudgGet h rd ra => Sys2Proof.Machine.execPbudgGet h rd ra s
  | .spineFreq h ra rb tg => Sys2Proof.Machine.execSpineFreq h ra rb tg s
  | .spineSel h ra rb tg => Sys2Proof.Machine.execSpineSel h ra rb tg s
  | .pumpPhint h ra onset len16 => Sys2Proof.Machine.execPumpPhint h ra onset len16 s
  | .tlbiPage h ra => Sys2Proof.Machine.execTlbiPage h ra s
  | .tlbiCtx h => Sys2Proof.Machine.execTlbiCtx h s
  | .tlbiAll h => Sys2Proof.Machine.execTlbiAll h s
  | .migrMove h ra rb tg => Sys2Proof.Machine.execMigrMove h ra rb tg s
  | .migrOut h ra rb tg => Sys2Proof.Machine.execMigrOut h ra rb tg s
  | .migrIn h ra rb tg => Sys2Proof.Machine.execMigrIn h ra rb tg s
  | .wclose h ra => Sys2Proof.Machine.execWclose h ra s
  | .pghash h ra rb tg => Sys2Proof.Machine.execPghash h ra rb tg s
  | .sysr h rd sidx => Sys2Proof.Machine.execSysr h rd sidx s
  | .sysw h sidx rb => Sys2Proof.Machine.execSysw h sidx rb s
  | .vectorResultWrite t e => Sys2Proof.Machine.execVectorResultWrite t e s
  | .loadDataReturn t e rq => Sys2Proof.Machine.execLoadDataReturn t e rq s
  | .feWordFullWake t e rq => Sys2Proof.Machine.execFeWordFullWake t e rq s
  | .xlatWalkComplete t e rq => Sys2Proof.Machine.execXlatWalkComplete t e rq s
  | .rangeTokenReply t e rq => Sys2Proof.Machine.execRangeTokenReply t e rq s
  | .pageWalkComplete t e rq => Sys2Proof.Machine.execPageWalkComplete t e rq s
  | .memoryFaultFound t e rq what => Sys2Proof.Machine.execMemoryFaultFound t e rq what s
  | .islandCommandStart en => Sys2Proof.Machine.execIslandCommandStart en s
  | .islandBLoadComplete en => Sys2Proof.Machine.execIslandBLoadComplete en s
  | .islandRowStart en => Sys2Proof.Machine.execIslandRowStart en s
  | .islandDrainRow en => Sys2Proof.Machine.execIslandDrainRow en s
  | .islandFault en => Sys2Proof.Machine.execIslandFault en s
  | .islandLoadResume en => Sys2Proof.Machine.execIslandLoadResume en s
  | .engineError en => Sys2Proof.Machine.execEngineError en s
  | .streamCommandStart en => Sys2Proof.Machine.execStreamCommandStart en s
  | .streamCommandComplete en => Sys2Proof.Machine.execStreamCommandComplete en s
  | .streamFaultResume en => Sys2Proof.Machine.execStreamFaultResume en s
  | .expanderBlockComplete en => Sys2Proof.Machine.execExpanderBlockComplete en s
  | .expanderStreamSlotFree en => Sys2Proof.Machine.execExpanderStreamSlotFree en s
  | .weirSortComplete en => Sys2Proof.Machine.execWeirSortComplete en s
  | .engineReply en => Sys2Proof.Machine.execEngineReply en s
  | .rangeServerServe die => Sys2Proof.Machine.execRangeServerServe die s
  | .poolTableReadComplete pk => Sys2Proof.Machine.execPoolTableReadComplete pk s
  | .timerExpiry core => Sys2Proof.Machine.execTimerExpiry core s
  | .monitorFire core k => Sys2Proof.Machine.execMonitorFire core k s
  | .configReplyArrival core => Sys2Proof.Machine.execConfigReplyArrival core s
  | .migrComplete id => Sys2Proof.Machine.execMigrComplete id s
  | .strokeLengthExpiry r => Sys2Proof.Machine.execStrokeLengthExpiry r s
  | .strokeMarkInject r => Sys2Proof.Machine.execStrokeMarkInject r s
  | .markAligned at_ => Sys2Proof.Machine.execMarkAligned at_ s
  | .barrierAligned at_ => Sys2Proof.Machine.execBarrierAligned at_ s
  | .strokeClose r => Sys2Proof.Machine.execStrokeClose r s
  | .strokeDrainComplete r => Sys2Proof.Machine.execStrokeDrainComplete r s
  | .drainInject r => Sys2Proof.Machine.execDrainInject r s
  | .planeSwitch r => Sys2Proof.Machine.execPlaneSwitch r s
  | .cutArrival t e => Sys2Proof.Machine.execCutArrival t e s
  | .ringSpill t e c => Sys2Proof.Machine.execRingSpill t e c s
  | .ringRefill t e c => Sys2Proof.Machine.execRingRefill t e c s
  | .primeComplete r => Sys2Proof.Machine.execPrimeComplete r s
  | .freezeWaveComplete r => Sys2Proof.Machine.execFreezeWaveComplete r s
  | .kernelQuiescence r => Sys2Proof.Machine.execKernelQuiescence r s
  | .kernelRetire r => Sys2Proof.Machine.execKernelRetire r s
  | .watchdogExpiry r => Sys2Proof.Machine.execWatchdogExpiry r s
  | .configEccError t caddr => Sys2Proof.Machine.execConfigEccError t caddr s
  | .configScrub t => Sys2Proof.Machine.execConfigScrub t s
  | .queueEnable q => Sys2Proof.Machine.execQueueEnable q s
  | .queueDisable q => Sys2Proof.Machine.execQueueDisable q s
  | .queueRetry q => Sys2Proof.Machine.execQueueRetry q s
  | .queueSkip q => Sys2Proof.Machine.execQueueSkip q s
  | .tailWrite src q tail => Sys2Proof.Machine.execTailWrite src q tail s
  | .recordStart die => Sys2Proof.Machine.execRecordStart die s
  | .recordComplete q idx => Sys2Proof.Machine.execRecordComplete q idx s
  | .queueEngineFault q => Sys2Proof.Machine.execQueueEngineFault q s
  | .triggerFire bk => Sys2Proof.Machine.execTriggerFire bk s
  | .triggerPendingDelivery bk => Sys2Proof.Machine.execTriggerPendingDelivery bk s
  | .groupLaunch gid => Sys2Proof.Machine.execGroupLaunch gid s
  | .create cx => Sys2Proof.Machine.execCreate cx s
  | .bind cx => Sys2Proof.Machine.execBind cx s
  | .ctxFreeze cx => Sys2Proof.Machine.execCtxFreeze cx s
  | .ctxThaw cx => Sys2Proof.Machine.execCtxThaw cx s
  | .swapout cx => Sys2Proof.Machine.execSwapout cx s
  | .swapin cx => Sys2Proof.Machine.execSwapin cx s
  | .clear cx => Sys2Proof.Machine.execClear cx s
  | .kill cx => Sys2Proof.Machine.execKill cx s
  | .ctxCleanupComplete cx => Sys2Proof.Machine.execCtxCleanupComplete cx s
  | .ctxFreezeComplete cx => Sys2Proof.Machine.execCtxFreezeComplete cx s
  | .ctxFault cx => Sys2Proof.Machine.execCtxFault cx s
  | .treeBarrierArrival bk => Sys2Proof.Machine.execTreeBarrierArrival bk s
  | .shootdownComplete id => Sys2Proof.Machine.execShootdownComplete id s
  | .pagePoison cx va => Sys2Proof.Machine.execPagePoison cx va s
  | .pfres die val => Sys2Proof.Machine.execPfres die val s
  | .linkEnable k en => Sys2Proof.Machine.execLinkEnable k en s
  | .retrain k => Sys2Proof.Machine.execRetrain k s
  | .linkTrained k lanes => Sys2Proof.Machine.execLinkTrained k lanes s
  | .linkTrainingFail k => Sys2Proof.Machine.execLinkTrainingFail k s
  | .linkLaneLoss k lane => Sys2Proof.Machine.execLinkLaneLoss k lane s
  | .flitReceive k fl => Sys2Proof.Machine.execFlitReceive k fl s
  | .flitAck k n => Sys2Proof.Machine.execFlitAck k n s
  | .ingestFrame port frame => Sys2Proof.Machine.execIngestFrame port frame s
  | .hostRead bar off len => Sys2Proof.Machine.execHostRead bar off len s
  | .hostWrite bar off data => Sys2Proof.Machine.execHostWrite bar off data s
  | .registerWrite off len val => Sys2Proof.Machine.execRegisterWrite off len val s
  | .publish wl => Sys2Proof.Machine.execPublish wl s
  | .candidateWrite wl => Sys2Proof.Machine.execCandidateWrite wl s
  | .drawCopy wl => Sys2Proof.Machine.execDrawCopy wl s
  | .rdposWrite wl => Sys2Proof.Machine.execRdposWrite wl s
  | .chargeIntervalStart => Sys2Proof.Machine.execChargeIntervalStart s
  | .chargeDose => Sys2Proof.Machine.execChargeDose s
  | .hintRampStep die cx => Sys2Proof.Machine.execHintRampStep die cx s
  | .spineFreqStep sp => Sys2Proof.Machine.execSpineFreqStep sp s
  | .spineSwitchComplete t => Sys2Proof.Machine.execSpineSwitchComplete t s
  | .t1 die => Sys2Proof.Machine.execT1 die s
  | .t2 die => Sys2Proof.Machine.execT2 die s
  | .t3 die => Sys2Proof.Machine.execT3 die s
  | .t4 die => Sys2Proof.Machine.execT4 die s
  | .thermalClear die trip => Sys2Proof.Machine.execThermalClear die trip s
  | .boot bo => Sys2Proof.Machine.execBoot bo s
  | .getVersion rq => Sys2Proof.Machine.execGetVersion rq s
  | .getCapabilities rq => Sys2Proof.Machine.execGetCapabilities rq s
  | .negotiateAlgorithms rq => Sys2Proof.Machine.execNegotiateAlgorithms rq s
  | .getDigests rq => Sys2Proof.Machine.execGetDigests rq s
  | .getCertificate rq => Sys2Proof.Machine.execGetCertificate rq s
  | .challenge rq => Sys2Proof.Machine.execChallenge rq s
  | .getMeasurements rq => Sys2Proof.Machine.execGetMeasurements rq s
  | .memoryReadRetry me => Sys2Proof.Machine.execMemoryReadRetry me s
  | .illegalSlot il => Sys2Proof.Machine.execIllegalSlot il s
  | .pfheadWrite die val => Sys2Proof.Machine.execPfheadWrite die val s
  | .memoryPatrolScrub corrected => Sys2Proof.Machine.execMemoryPatrolScrub corrected s
  | .swapComplete cx => Sys2Proof.Machine.execSwapComplete cx s

end Sys2Proof.Machine
end

