-- ==== Sys2Proof/Machine/Fetch.lean ====
section
/-! DEFINITION. What one step of the machine runs: the agent that acts next (log entry 4), the word it executes, and time.
Tiles: spec/03_rules.md R44; pump cores: R50; the hardware's own steps: spec/95_what_each_step_holds.md. -/

namespace Sys2Proof.Machine

/-! ### Words -/

/-- A body word that the acting lane executes: the instruction it decodes to, or the abort of an illegal one.  The last
four rows are met by their opcodes, as in `decodePump`. -/
def runWord (w : W64) (s : State) : Result :=
  let h := skipOf w.toNat
  let f := pumpRawOf w.toNat
  let bad : Result := .next (meetIllegalRule s s.actor.core (bodyLane s).rule)
  let lone (r : Result) : Result := if (legalPump w).isSome then r else bad
  match f.op with
  | 0x95 => lone (execWclose h (fin 64 f.a) s)
  | 0xb2 => lone (execPghash h (fin 64 f.a) (fin 64 f.b) (BitVec.ofNat 16 f.i24) s)
  | 0xc0 => lone (execSysr h (fin 64 f.d) (BitVec.ofNat 12 f.i24) s)
  | 0xc1 => lone (execSysw h (BitVec.ofNat 12 f.i24) (fin 64 f.b) s)
  | _ => match accept w (parsePumpMain h f) with
    | .ok i => exec i s
    | .error _ => bad

/-- A rule of a tile's round: what it did, and the discarding of the rules that were tested against a value it then did
not forward (R54). -/
def runRule (i : Instr) (s : State) : Result :=
  let t := s.actor.tile
  let e := s.actor.elem
  let fires := i.operands.any (ready s i)
  match exec i s with
  | .next s' => .next (if fires && !(s'.elem t e).faulted then s' else dropDependents s' t e)
  | r => r

/-! ### Time -/

/-- S0 of a die goes on for n ns: its whole cycles, and what is left of one, in thousandths (R16). -/
def spinS0 (n : Nat) (s : State) (die : Nat) : State :=
  let x := kget s.s0frac die 0 + (s.spine (spineKey die 0)).run * n
  { s with s0fc := kput s.s0fc die (kget s.s0fc die 0 + x / 1000), s0frac := kput s.s0frac die (x % 1000) }

/-- Time passes, in ns. -/
def passTime (n : Nat) (s : State) : State :=
  let s : State := { s with nstime := s.nstime + n, regions := s.regions.map (countWatch n s) }
  (List.range 4).foldl (spinS0 n) s

/-! ### Who acts -/

/-- The next work: the head of the agenda, else a free choice. -/
def nextWork (s : State) : Option Work × State :=
  match s.agenda with
  | w :: rest => (some w, { s with agenda := rest })
  | [] => (Config.freeWorkCode s.free, { s with free := s.free + 1 })

/-- What the boot ROM finds. -/
def bootInput : BootInput := Config.bootInput.getD ⟨[], [], [], [], [], false, false⟩

/-- Power is applied by a boot alone. -/
def Work.isBoot : Work → Bool
  | .boot => true
  | .event i => match i with
    | .boot _ => true
    | _ => false
  | _ => false

/-- The work of one step.  An event is a step of the hardware or an input: never an instruction that has a word, which
runs only where a tile or a core meets it. -/
def runWork (w : Work) (s : State) : Result :=
  match w with
  | .tile t => match tileNext s t with
    | (s, some i) => runRule i s
    | (s, none) => .next s
  | .core c => match coreNext s c with
    | (s, some w) => runWord w s
    | (s, none) => .next s
  | .event i => if (encode i).isNone then exec i s else .next s
  | .boot => execBoot bootInput s
  | .tick n => .next (passTime n s)

/-- What follows every step: trigger bindings watch the words that their addresses lead to now (R278). -/
def afterStep : Result → Result
  | .next s => .next (rewatch s)
  | r => r

/-- One step.  Once T4 has removed power, nothing but a boot runs (R372). -/
def runStep (s : State) : Result :=
  match nextWork s with
  | (none, s) => if s.powerOff then .fault .powerOff else .next s
  | (some w, s) => if s.powerOff && !Work.isBoot w then .fault .powerOff else afterStep (runWork w s)

/-! ### A word placed where the next step runs it -/

/-- Site 0 of die 0 present and fully charged, with a word in slot 0 of plane 0 of its element 0, at its turn in a round. -/
def State.placeRule (s : State) (w : W64) : State :=
  let y : Elem := { s.elem 0 0 with plane := 0, slots := kput (s.elem 0 0).slots 0 w }
  let s := s.modTile 0 fun x => { x.setElem 0 y with todo := [.fire 0 0 none false], badEcc := [], balance := 4096 }
  { s with agenda := [.tile 0], fused := s.fused.set 0 ((s.fused[0]) ||| 1) }

/-- Core 0 of die 0 in a round whose one rule has a body of one word. -/
def State.placeBody (s : State) (w : W64) : State :=
  let c := s.core 0
  let s := s.setCore 0 { c with
    rules := c.rules.set 0 (0, 0), body := [(0, w)], bodyLen := 1, storeQ := [], lanes := [{ rule := 0 }] }
  { s with agenda := [.core 0] }

end Sys2Proof.Machine
end

