-- ==== Sys2Proof/Machine/Step.lean ====
section
/-! DEFINITION. One step of the module, and the placing of a word where the next step runs it. -/

namespace Sys2Proof.Machine

/-- One step: the next work of the agenda, or of a free choice (log entry 4). -/
def step (s : State) : Host.Outcome State Fault Refusal := runStep s

/-- The word `w` placed where the next step executes it: a legal element word in a rule slot of site 0.00.00, any other
in the body of a core (log entry 6).  Its channels are bound by an image, not here. -/
def State.withFetchWord (s : State) (nbits w : Nat) : State :=
  if nbits ≤ 64 ∧ w < 2 ^ nbits then
    let word : W64 := BitVec.ofNat 64 w
    match decodeElem word with
    | .ok _ => s.placeRule word
    | .error _ => s.placeBody word
  else s

end Sys2Proof.Machine
end

