-- ==== Sys2Proof/Laws/Maps.lean ====
section
/-! SUPPORT. The laws of the maps by number: a key reads what was put at it, and putting leaves every other key. -/

namespace Sys2Proof.Machine

variable {α : Type}

@[simp] theorem kfind_nil (k : Nat) : kfind ([] : KMap α) k = none := rfl

@[simp] theorem kget_nil (k : Nat) (d : α) : kget ([] : KMap α) k d = d := rfl

@[simp] theorem kfind_kput_same (m : KMap α) (k : Nat) (a : α) : kfind (kput m k a) k = some a := by
  induction m with
  | nil => simp [kput, kfind]
  | cons e m ih =>
    obtain ⟨j, b⟩ := e
    simp only [kput]
    split
    · simp [kfind]
    · split
      · simp [kfind]
      · rename_i h1 h2
        simp [kfind, h1, h2, ih]

theorem kfind_kput_other (m : KMap α) {k l : Nat} (a : α) (h : l ≠ k) : kfind (kput m k a) l = kfind m l := by
  induction m with
  | nil =>
    simp only [kput, kfind, h, if_false]
    split <;> rfl
  | cons e m ih =>
    obtain ⟨j, b⟩ := e
    simp only [kput]
    split
    · rename_i hkj
      simp only [kfind, h, if_false]
      split
      · rename_i hlk
        rw [if_neg (by omega), if_pos (by omega)]
      · rfl
    · split
      · rename_i h1 h2
        subst h2
        simp only [kfind, h, if_false]
      · simp only [kfind, ih]

theorem kfind_kput (m : KMap α) (k l : Nat) (a : α) :
    kfind (kput m k a) l = if l = k then some a else kfind m l := by
  split
  · rename_i h; subst h; simp
  · rename_i h; exact kfind_kput_other m a h

@[simp] theorem kget_kput_same (m : KMap α) (k : Nat) (a d : α) : kget (kput m k a) k d = a := by
  simp [kget]

theorem kget_kput_other (m : KMap α) {k l : Nat} (a d : α) (h : l ≠ k) : kget (kput m k a) l d = kget m l d := by
  simp [kget, kfind_kput_other m a h]

theorem kget_kput (m : KMap α) (k l : Nat) (a d : α) :
    kget (kput m k a) l d = if l = k then a else kget m l d := by
  split
  · rename_i h; subst h; simp
  · rename_i h; exact kget_kput_other m a d h

theorem kfind_kmod (m : KMap α) (k l : Nat) (f : α → α) :
    kfind (kmod m k f) l = if l = k then (kfind m l).map f else kfind m l := by
  induction m with
  | nil => simp [kmod]
  | cons e m ih =>
    obtain ⟨j, b⟩ := e
    have key : kmod ((j, b) :: m) k f = (j, if j = k then f b else b) :: kmod m k f := by
      simp only [kmod, List.map_cons]
      split <;> rfl
    rw [key]
    simp only [kfind, ih]
    by_cases h1 : l = j
    · subst h1
      by_cases h2 : l = k <;> simp [h2]
    · by_cases h2 : l < j
      · simp [h1, h2]
      · simp [h1, h2]

end Sys2Proof.Machine
end

