-- ==== Sys2Proof/Laws/State.lean ====
section
/-! SUPPORT. What each update of the state leaves alone, one lemma per field, and what the part it names reads as. -/

namespace Sys2Proof.Machine

/-! ### setTile -/

@[simp] theorem State.setTile_nstime (s : State) (t : Nat) (x : Tile) : (s.setTile t x).nstime = s.nstime := rfl
@[simp] theorem State.setTile_free (s : State) (t : Nat) (x : Tile) : (s.setTile t x).free = s.free := rfl
@[simp] theorem State.setTile_agenda (s : State) (t : Nat) (x : Tile) : (s.setTile t x).agenda = s.agenda := rfl
@[simp] theorem State.setTile_actor (s : State) (t : Nat) (x : Tile) : (s.setTile t x).actor = s.actor := rfl
@[simp] theorem State.setTile_powerOff (s : State) (t : Nat) (x : Tile) : (s.setTile t x).powerOff = s.powerOff := rfl
@[simp] theorem State.setTile_bootstat (s : State) (t : Nat) (x : Tile) : (s.setTile t x).bootstat = s.bootstat := rfl
@[simp] theorem State.setTile_fused (s : State) (t : Nat) (x : Tile) : (s.setTile t x).fused = s.fused := rfl
@[simp] theorem State.setTile_keys (s : State) (t : Nat) (x : Tile) : (s.setTile t x).keys = s.keys := rfl
@[simp] theorem State.setTile_meas (s : State) (t : Nat) (x : Tile) : (s.setTile t x).meas = s.meas := rfl
@[simp] theorem State.setTile_spdm (s : State) (t : Nat) (x : Tile) : (s.setTile t x).spdm = s.spdm := rfl
@[simp] theorem State.setTile_spdmLog (s : State) (t : Nat) (x : Tile) : (s.setTile t x).spdmLog = s.spdmLog := rfl
@[simp] theorem State.setTile_gens (s : State) (t : Nat) (x : Tile) : (s.setTile t x).gens = s.gens := rfl
@[simp] theorem State.setTile_regions (s : State) (t : Nat) (x : Tile) : (s.setTile t x).regions = s.regions := rfl
@[simp] theorem State.setTile_groups (s : State) (t : Nat) (x : Tile) : (s.setTile t x).groups = s.groups := rfl
@[simp] theorem State.setTile_cores (s : State) (t : Nat) (x : Tile) : (s.setTile t x).cores = s.cores := rfl
@[simp] theorem State.setTile_islands (s : State) (t : Nat) (x : Tile) : (s.setTile t x).islands = s.islands := rfl
@[simp] theorem State.setTile_streamers (s : State) (t : Nat) (x : Tile) : (s.setTile t x).streamers = s.streamers := rfl
@[simp] theorem State.setTile_expanders (s : State) (t : Nat) (x : Tile) : (s.setTile t x).expanders = s.expanders := rfl
@[simp] theorem State.setTile_weirs (s : State) (t : Nat) (x : Tile) : (s.setTile t x).weirs = s.weirs := rfl
@[simp] theorem State.setTile_servers (s : State) (t : Nat) (x : Tile) : (s.setTile t x).servers = s.servers := rfl
@[simp] theorem State.setTile_ctxs (s : State) (t : Nat) (x : Tile) : (s.setTile t x).ctxs = s.ctxs := rfl
@[simp] theorem State.setTile_ctxq (s : State) (t : Nat) (x : Tile) : (s.setTile t x).ctxq = s.ctxq := rfl
@[simp] theorem State.setTile_barriers (s : State) (t : Nat) (x : Tile) : (s.setTile t x).barriers = s.barriers := rfl
@[simp] theorem State.setTile_triggers (s : State) (t : Nat) (x : Tile) : (s.setTile t x).triggers = s.triggers := rfl
@[simp] theorem State.setTile_queues (s : State) (t : Nat) (x : Tile) : (s.setTile t x).queues = s.queues := rfl
@[simp] theorem State.setTile_qptr (s : State) (t : Nat) (x : Tile) : (s.setTile t x).qptr = s.qptr := rfl
@[simp] theorem State.setTile_wells (s : State) (t : Nat) (x : Tile) : (s.setTile t x).wells = s.wells := rfl
@[simp] theorem State.setTile_mem (s : State) (t : Nat) (x : Tile) : (s.setTile t x).mem = s.mem := rfl
@[simp] theorem State.setTile_full (s : State) (t : Nat) (x : Tile) : (s.setTile t x).full = s.full := rfl
@[simp] theorem State.setTile_deep (s : State) (t : Nat) (x : Tile) : (s.setTile t x).deep = s.deep := rfl
@[simp] theorem State.setTile_host (s : State) (t : Nat) (x : Tile) : (s.setTile t x).host = s.host := rfl
@[simp] theorem State.setTile_writeSeq (s : State) (t : Nat) (x : Tile) : (s.setTile t x).writeSeq = s.writeSeq := rfl
@[simp] theorem State.setTile_dirty (s : State) (t : Nat) (x : Tile) : (s.setTile t x).dirty = s.dirty := rfl
@[simp] theorem State.setTile_ltlb (s : State) (t : Nat) (x : Tile) : (s.setTile t x).ltlb = s.ltlb := rfl
@[simp] theorem State.setTile_qtlb (s : State) (t : Nat) (x : Tile) : (s.setTile t x).qtlb = s.qtlb := rfl
@[simp] theorem State.setTile_badWalks (s : State) (t : Nat) (x : Tile) : (s.setTile t x).badWalks = s.badWalks := rfl
@[simp] theorem State.setTile_epochs (s : State) (t : Nat) (x : Tile) : (s.setTile t x).epochs = s.epochs := rfl
@[simp] theorem State.setTile_shoots (s : State) (t : Nat) (x : Tile) : (s.setTile t x).shoots = s.shoots := rfl
@[simp] theorem State.setTile_migrs (s : State) (t : Nat) (x : Tile) : (s.setTile t x).migrs = s.migrs := rfl
@[simp] theorem State.setTile_rings (s : State) (t : Nat) (x : Tile) : (s.setTile t x).rings = s.rings := rfl
@[simp] theorem State.setTile_spines (s : State) (t : Nat) (x : Tile) : (s.setTile t x).spines = s.spines := rfl
@[simp] theorem State.setTile_s0fc (s : State) (t : Nat) (x : Tile) : (s.setTile t x).s0fc = s.s0fc := rfl
@[simp] theorem State.setTile_s0frac (s : State) (t : Nat) (x : Tile) : (s.setTile t x).s0frac = s.s0frac := rfl
@[simp] theorem State.setTile_hints (s : State) (t : Nat) (x : Tile) : (s.setTile t x).hints = s.hints := rfl
@[simp] theorem State.setTile_hintReqs (s : State) (t : Nat) (x : Tile) : (s.setTile t x).hintReqs = s.hintReqs := rfl
@[simp] theorem State.setTile_interval (s : State) (t : Nat) (x : Tile) : (s.setTile t x).interval = s.interval := rfl
@[simp] theorem State.setTile_doses (s : State) (t : Nat) (x : Tile) : (s.setTile t x).doses = s.doses := rfl
@[simp] theorem State.setTile_islDose (s : State) (t : Nat) (x : Tile) : (s.setTile t x).islDose = s.islDose := rfl
@[simp] theorem State.setTile_tileDose (s : State) (t : Nat) (x : Tile) : (s.setTile t x).tileDose = s.tileDose := rfl
@[simp] theorem State.setTile_undecl (s : State) (t : Nat) (x : Tile) : (s.setTile t x).undecl = s.undecl := rfl
@[simp] theorem State.setTile_denied (s : State) (t : Nat) (x : Tile) : (s.setTile t x).denied = s.denied := rfl
@[simp] theorem State.setTile_hdrops (s : State) (t : Nat) (x : Tile) : (s.setTile t x).hdrops = s.hdrops := rfl
@[simp] theorem State.setTile_t1 (s : State) (t : Nat) (x : Tile) : (s.setTile t x).t1 = s.t1 := rfl
@[simp] theorem State.setTile_t2 (s : State) (t : Nat) (x : Tile) : (s.setTile t x).t2 = s.t2 := rfl
@[simp] theorem State.setTile_t3 (s : State) (t : Nat) (x : Tile) : (s.setTile t x).t3 = s.t3 := rfl
@[simp] theorem State.setTile_slackK (s : State) (t : Nat) (x : Tile) : (s.setTile t x).slackK = s.slackK := rfl
@[simp] theorem State.setTile_slackAt (s : State) (t : Nat) (x : Tile) : (s.setTile t x).slackAt = s.slackAt := rfl
@[simp] theorem State.setTile_links (s : State) (t : Nat) (x : Tile) : (s.setTile t x).links = s.links := rfl
@[simp] theorem State.setTile_routes (s : State) (t : Nat) (x : Tile) : (s.setTile t x).routes = s.routes := rfl
@[simp] theorem State.setTile_msix (s : State) (t : Nat) (x : Tile) : (s.setTile t x).msix = s.msix := rfl
@[simp] theorem State.setTile_sent (s : State) (t : Nat) (x : Tile) : (s.setTile t x).sent = s.sent := rfl
@[simp] theorem State.setTile_remotes (s : State) (t : Nat) (x : Tile) : (s.setTile t x).remotes = s.remotes := rfl
@[simp] theorem State.setTile_errlog (s : State) (t : Nat) (x : Tile) : (s.setTile t x).errlog = s.errlog := rfl
@[simp] theorem State.setTile_nextId (s : State) (t : Nat) (x : Tile) : (s.setTile t x).nextId = s.nextId := rfl
@[simp] theorem State.setTile_core (s : State) (t : Nat) (x : Tile) (j : Nat) : (s.setTile t x).core j = s.core j := rfl
@[simp] theorem State.setTile_ctx (s : State) (t : Nat) (x : Tile) (j : Nat) : (s.setTile t x).ctx j = s.ctx j := rfl
@[simp] theorem State.setTile_island (s : State) (t : Nat) (x : Tile) (j : Nat) : (s.setTile t x).island j = s.island j := rfl
@[simp] theorem State.setTile_queue (s : State) (t : Nat) (x : Tile) (j : Nat) : (s.setTile t x).queue j = s.queue j := rfl
@[simp] theorem State.setTile_well (s : State) (t : Nat) (x : Tile) (j : Nat) : (s.setTile t x).well j = s.well j := rfl
@[simp] theorem State.setTile_region (s : State) (t : Nat) (x : Tile) (j : Nat) : (s.setTile t x).region j = s.region j := rfl

/-! ### modTile -/

@[simp] theorem State.modTile_nstime (s : State) (t : Nat) (f : Tile → Tile) : (s.modTile t f).nstime = s.nstime := rfl
@[simp] theorem State.modTile_free (s : State) (t : Nat) (f : Tile → Tile) : (s.modTile t f).free = s.free := rfl
@[simp] theorem State.modTile_agenda (s : State) (t : Nat) (f : Tile → Tile) : (s.modTile t f).agenda = s.agenda := rfl
@[simp] theorem State.modTile_actor (s : State) (t : Nat) (f : Tile → Tile) : (s.modTile t f).actor = s.actor := rfl
@[simp] theorem State.modTile_powerOff (s : State) (t : Nat) (f : Tile → Tile) : (s.modTile t f).powerOff = s.powerOff := rfl
@[simp] theorem State.modTile_bootstat (s : State) (t : Nat) (f : Tile → Tile) : (s.modTile t f).bootstat = s.bootstat := rfl
@[simp] theorem State.modTile_fused (s : State) (t : Nat) (f : Tile → Tile) : (s.modTile t f).fused = s.fused := rfl
@[simp] theorem State.modTile_keys (s : State) (t : Nat) (f : Tile → Tile) : (s.modTile t f).keys = s.keys := rfl
@[simp] theorem State.modTile_meas (s : State) (t : Nat) (f : Tile → Tile) : (s.modTile t f).meas = s.meas := rfl
@[simp] theorem State.modTile_spdm (s : State) (t : Nat) (f : Tile → Tile) : (s.modTile t f).spdm = s.spdm := rfl
@[simp] theorem State.modTile_spdmLog (s : State) (t : Nat) (f : Tile → Tile) : (s.modTile t f).spdmLog = s.spdmLog := rfl
@[simp] theorem State.modTile_gens (s : State) (t : Nat) (f : Tile → Tile) : (s.modTile t f).gens = s.gens := rfl
@[simp] theorem State.modTile_regions (s : State) (t : Nat) (f : Tile → Tile) : (s.modTile t f).regions = s.regions := rfl
@[simp] theorem State.modTile_groups (s : State) (t : Nat) (f : Tile → Tile) : (s.modTile t f).groups = s.groups := rfl
@[simp] theorem State.modTile_cores (s : State) (t : Nat) (f : Tile → Tile) : (s.modTile t f).cores = s.cores := rfl
@[simp] theorem State.modTile_islands (s : State) (t : Nat) (f : Tile → Tile) : (s.modTile t f).islands = s.islands := rfl
@[simp] theorem State.modTile_streamers (s : State) (t : Nat) (f : Tile → Tile) : (s.modTile t f).streamers = s.streamers := rfl
@[simp] theorem State.modTile_expanders (s : State) (t : Nat) (f : Tile → Tile) : (s.modTile t f).expanders = s.expanders := rfl
@[simp] theorem State.modTile_weirs (s : State) (t : Nat) (f : Tile → Tile) : (s.modTile t f).weirs = s.weirs := rfl
@[simp] theorem State.modTile_servers (s : State) (t : Nat) (f : Tile → Tile) : (s.modTile t f).servers = s.servers := rfl
@[simp] theorem State.modTile_ctxs (s : State) (t : Nat) (f : Tile → Tile) : (s.modTile t f).ctxs = s.ctxs := rfl
@[simp] theorem State.modTile_ctxq (s : State) (t : Nat) (f : Tile → Tile) : (s.modTile t f).ctxq = s.ctxq := rfl
@[simp] theorem State.modTile_barriers (s : State) (t : Nat) (f : Tile → Tile) : (s.modTile t f).barriers = s.barriers := rfl
@[simp] theorem State.modTile_triggers (s : State) (t : Nat) (f : Tile → Tile) : (s.modTile t f).triggers = s.triggers := rfl
@[simp] theorem State.modTile_queues (s : State) (t : Nat) (f : Tile → Tile) : (s.modTile t f).queues = s.queues := rfl
@[simp] theorem State.modTile_qptr (s : State) (t : Nat) (f : Tile → Tile) : (s.modTile t f).qptr = s.qptr := rfl
@[simp] theorem State.modTile_wells (s : State) (t : Nat) (f : Tile → Tile) : (s.modTile t f).wells = s.wells := rfl
@[simp] theorem State.modTile_mem (s : State) (t : Nat) (f : Tile → Tile) : (s.modTile t f).mem = s.mem := rfl
@[simp] theorem State.modTile_full (s : State) (t : Nat) (f : Tile → Tile) : (s.modTile t f).full = s.full := rfl
@[simp] theorem State.modTile_deep (s : State) (t : Nat) (f : Tile → Tile) : (s.modTile t f).deep = s.deep := rfl
@[simp] theorem State.modTile_host (s : State) (t : Nat) (f : Tile → Tile) : (s.modTile t f).host = s.host := rfl
@[simp] theorem State.modTile_writeSeq (s : State) (t : Nat) (f : Tile → Tile) : (s.modTile t f).writeSeq = s.writeSeq := rfl
@[simp] theorem State.modTile_dirty (s : State) (t : Nat) (f : Tile → Tile) : (s.modTile t f).dirty = s.dirty := rfl
@[simp] theorem State.modTile_ltlb (s : State) (t : Nat) (f : Tile → Tile) : (s.modTile t f).ltlb = s.ltlb := rfl
@[simp] theorem State.modTile_qtlb (s : State) (t : Nat) (f : Tile → Tile) : (s.modTile t f).qtlb = s.qtlb := rfl
@[simp] theorem State.modTile_badWalks (s : State) (t : Nat) (f : Tile → Tile) : (s.modTile t f).badWalks = s.badWalks := rfl
@[simp] theorem State.modTile_epochs (s : State) (t : Nat) (f : Tile → Tile) : (s.modTile t f).epochs = s.epochs := rfl
@[simp] theorem State.modTile_shoots (s : State) (t : Nat) (f : Tile → Tile) : (s.modTile t f).shoots = s.shoots := rfl
@[simp] theorem State.modTile_migrs (s : State) (t : Nat) (f : Tile → Tile) : (s.modTile t f).migrs = s.migrs := rfl
@[simp] theorem State.modTile_rings (s : State) (t : Nat) (f : Tile → Tile) : (s.modTile t f).rings = s.rings := rfl
@[simp] theorem State.modTile_spines (s : State) (t : Nat) (f : Tile → Tile) : (s.modTile t f).spines = s.spines := rfl
@[simp] theorem State.modTile_s0fc (s : State) (t : Nat) (f : Tile → Tile) : (s.modTile t f).s0fc = s.s0fc := rfl
@[simp] theorem State.modTile_s0frac (s : State) (t : Nat) (f : Tile → Tile) : (s.modTile t f).s0frac = s.s0frac := rfl
@[simp] theorem State.modTile_hints (s : State) (t : Nat) (f : Tile → Tile) : (s.modTile t f).hints = s.hints := rfl
@[simp] theorem State.modTile_hintReqs (s : State) (t : Nat) (f : Tile → Tile) : (s.modTile t f).hintReqs = s.hintReqs := rfl
@[simp] theorem State.modTile_interval (s : State) (t : Nat) (f : Tile → Tile) : (s.modTile t f).interval = s.interval := rfl
@[simp] theorem State.modTile_doses (s : State) (t : Nat) (f : Tile → Tile) : (s.modTile t f).doses = s.doses := rfl
@[simp] theorem State.modTile_islDose (s : State) (t : Nat) (f : Tile → Tile) : (s.modTile t f).islDose = s.islDose := rfl
@[simp] theorem State.modTile_tileDose (s : State) (t : Nat) (f : Tile → Tile) : (s.modTile t f).tileDose = s.tileDose := rfl
@[simp] theorem State.modTile_undecl (s : State) (t : Nat) (f : Tile → Tile) : (s.modTile t f).undecl = s.undecl := rfl
@[simp] theorem State.modTile_denied (s : State) (t : Nat) (f : Tile → Tile) : (s.modTile t f).denied = s.denied := rfl
@[simp] theorem State.modTile_hdrops (s : State) (t : Nat) (f : Tile → Tile) : (s.modTile t f).hdrops = s.hdrops := rfl
@[simp] theorem State.modTile_t1 (s : State) (t : Nat) (f : Tile → Tile) : (s.modTile t f).t1 = s.t1 := rfl
@[simp] theorem State.modTile_t2 (s : State) (t : Nat) (f : Tile → Tile) : (s.modTile t f).t2 = s.t2 := rfl
@[simp] theorem State.modTile_t3 (s : State) (t : Nat) (f : Tile → Tile) : (s.modTile t f).t3 = s.t3 := rfl
@[simp] theorem State.modTile_slackK (s : State) (t : Nat) (f : Tile → Tile) : (s.modTile t f).slackK = s.slackK := rfl
@[simp] theorem State.modTile_slackAt (s : State) (t : Nat) (f : Tile → Tile) : (s.modTile t f).slackAt = s.slackAt := rfl
@[simp] theorem State.modTile_links (s : State) (t : Nat) (f : Tile → Tile) : (s.modTile t f).links = s.links := rfl
@[simp] theorem State.modTile_routes (s : State) (t : Nat) (f : Tile → Tile) : (s.modTile t f).routes = s.routes := rfl
@[simp] theorem State.modTile_msix (s : State) (t : Nat) (f : Tile → Tile) : (s.modTile t f).msix = s.msix := rfl
@[simp] theorem State.modTile_sent (s : State) (t : Nat) (f : Tile → Tile) : (s.modTile t f).sent = s.sent := rfl
@[simp] theorem State.modTile_remotes (s : State) (t : Nat) (f : Tile → Tile) : (s.modTile t f).remotes = s.remotes := rfl
@[simp] theorem State.modTile_errlog (s : State) (t : Nat) (f : Tile → Tile) : (s.modTile t f).errlog = s.errlog := rfl
@[simp] theorem State.modTile_nextId (s : State) (t : Nat) (f : Tile → Tile) : (s.modTile t f).nextId = s.nextId := rfl
@[simp] theorem State.modTile_core (s : State) (t : Nat) (f : Tile → Tile) (j : Nat) : (s.modTile t f).core j = s.core j := rfl
@[simp] theorem State.modTile_ctx (s : State) (t : Nat) (f : Tile → Tile) (j : Nat) : (s.modTile t f).ctx j = s.ctx j := rfl
@[simp] theorem State.modTile_island (s : State) (t : Nat) (f : Tile → Tile) (j : Nat) : (s.modTile t f).island j = s.island j := rfl
@[simp] theorem State.modTile_queue (s : State) (t : Nat) (f : Tile → Tile) (j : Nat) : (s.modTile t f).queue j = s.queue j := rfl
@[simp] theorem State.modTile_well (s : State) (t : Nat) (f : Tile → Tile) (j : Nat) : (s.modTile t f).well j = s.well j := rfl
@[simp] theorem State.modTile_region (s : State) (t : Nat) (f : Tile → Tile) (j : Nat) : (s.modTile t f).region j = s.region j := rfl

/-! ### setElem -/

@[simp] theorem State.setElem_nstime (s : State) (t e : Nat) (y : Elem) : (s.setElem t e y).nstime = s.nstime := rfl
@[simp] theorem State.setElem_free (s : State) (t e : Nat) (y : Elem) : (s.setElem t e y).free = s.free := rfl
@[simp] theorem State.setElem_agenda (s : State) (t e : Nat) (y : Elem) : (s.setElem t e y).agenda = s.agenda := rfl
@[simp] theorem State.setElem_actor (s : State) (t e : Nat) (y : Elem) : (s.setElem t e y).actor = s.actor := rfl
@[simp] theorem State.setElem_powerOff (s : State) (t e : Nat) (y : Elem) : (s.setElem t e y).powerOff = s.powerOff := rfl
@[simp] theorem State.setElem_bootstat (s : State) (t e : Nat) (y : Elem) : (s.setElem t e y).bootstat = s.bootstat := rfl
@[simp] theorem State.setElem_fused (s : State) (t e : Nat) (y : Elem) : (s.setElem t e y).fused = s.fused := rfl
@[simp] theorem State.setElem_keys (s : State) (t e : Nat) (y : Elem) : (s.setElem t e y).keys = s.keys := rfl
@[simp] theorem State.setElem_meas (s : State) (t e : Nat) (y : Elem) : (s.setElem t e y).meas = s.meas := rfl
@[simp] theorem State.setElem_spdm (s : State) (t e : Nat) (y : Elem) : (s.setElem t e y).spdm = s.spdm := rfl
@[simp] theorem State.setElem_spdmLog (s : State) (t e : Nat) (y : Elem) : (s.setElem t e y).spdmLog = s.spdmLog := rfl
@[simp] theorem State.setElem_gens (s : State) (t e : Nat) (y : Elem) : (s.setElem t e y).gens = s.gens := rfl
@[simp] theorem State.setElem_regions (s : State) (t e : Nat) (y : Elem) : (s.setElem t e y).regions = s.regions := rfl
@[simp] theorem State.setElem_groups (s : State) (t e : Nat) (y : Elem) : (s.setElem t e y).groups = s.groups := rfl
@[simp] theorem State.setElem_cores (s : State) (t e : Nat) (y : Elem) : (s.setElem t e y).cores = s.cores := rfl
@[simp] theorem State.setElem_islands (s : State) (t e : Nat) (y : Elem) : (s.setElem t e y).islands = s.islands := rfl
@[simp] theorem State.setElem_streamers (s : State) (t e : Nat) (y : Elem) : (s.setElem t e y).streamers = s.streamers := rfl
@[simp] theorem State.setElem_expanders (s : State) (t e : Nat) (y : Elem) : (s.setElem t e y).expanders = s.expanders := rfl
@[simp] theorem State.setElem_weirs (s : State) (t e : Nat) (y : Elem) : (s.setElem t e y).weirs = s.weirs := rfl
@[simp] theorem State.setElem_servers (s : State) (t e : Nat) (y : Elem) : (s.setElem t e y).servers = s.servers := rfl
@[simp] theorem State.setElem_ctxs (s : State) (t e : Nat) (y : Elem) : (s.setElem t e y).ctxs = s.ctxs := rfl
@[simp] theorem State.setElem_ctxq (s : State) (t e : Nat) (y : Elem) : (s.setElem t e y).ctxq = s.ctxq := rfl
@[simp] theorem State.setElem_barriers (s : State) (t e : Nat) (y : Elem) : (s.setElem t e y).barriers = s.barriers := rfl
@[simp] theorem State.setElem_triggers (s : State) (t e : Nat) (y : Elem) : (s.setElem t e y).triggers = s.triggers := rfl
@[simp] theorem State.setElem_queues (s : State) (t e : Nat) (y : Elem) : (s.setElem t e y).queues = s.queues := rfl
@[simp] theorem State.setElem_qptr (s : State) (t e : Nat) (y : Elem) : (s.setElem t e y).qptr = s.qptr := rfl
@[simp] theorem State.setElem_wells (s : State) (t e : Nat) (y : Elem) : (s.setElem t e y).wells = s.wells := rfl
@[simp] theorem State.setElem_mem (s : State) (t e : Nat) (y : Elem) : (s.setElem t e y).mem = s.mem := rfl
@[simp] theorem State.setElem_full (s : State) (t e : Nat) (y : Elem) : (s.setElem t e y).full = s.full := rfl
@[simp] theorem State.setElem_deep (s : State) (t e : Nat) (y : Elem) : (s.setElem t e y).deep = s.deep := rfl
@[simp] theorem State.setElem_host (s : State) (t e : Nat) (y : Elem) : (s.setElem t e y).host = s.host := rfl
@[simp] theorem State.setElem_writeSeq (s : State) (t e : Nat) (y : Elem) : (s.setElem t e y).writeSeq = s.writeSeq := rfl
@[simp] theorem State.setElem_dirty (s : State) (t e : Nat) (y : Elem) : (s.setElem t e y).dirty = s.dirty := rfl
@[simp] theorem State.setElem_ltlb (s : State) (t e : Nat) (y : Elem) : (s.setElem t e y).ltlb = s.ltlb := rfl
@[simp] theorem State.setElem_qtlb (s : State) (t e : Nat) (y : Elem) : (s.setElem t e y).qtlb = s.qtlb := rfl
@[simp] theorem State.setElem_badWalks (s : State) (t e : Nat) (y : Elem) : (s.setElem t e y).badWalks = s.badWalks := rfl
@[simp] theorem State.setElem_epochs (s : State) (t e : Nat) (y : Elem) : (s.setElem t e y).epochs = s.epochs := rfl
@[simp] theorem State.setElem_shoots (s : State) (t e : Nat) (y : Elem) : (s.setElem t e y).shoots = s.shoots := rfl
@[simp] theorem State.setElem_migrs (s : State) (t e : Nat) (y : Elem) : (s.setElem t e y).migrs = s.migrs := rfl
@[simp] theorem State.setElem_rings (s : State) (t e : Nat) (y : Elem) : (s.setElem t e y).rings = s.rings := rfl
@[simp] theorem State.setElem_spines (s : State) (t e : Nat) (y : Elem) : (s.setElem t e y).spines = s.spines := rfl
@[simp] theorem State.setElem_s0fc (s : State) (t e : Nat) (y : Elem) : (s.setElem t e y).s0fc = s.s0fc := rfl
@[simp] theorem State.setElem_s0frac (s : State) (t e : Nat) (y : Elem) : (s.setElem t e y).s0frac = s.s0frac := rfl
@[simp] theorem State.setElem_hints (s : State) (t e : Nat) (y : Elem) : (s.setElem t e y).hints = s.hints := rfl
@[simp] theorem State.setElem_hintReqs (s : State) (t e : Nat) (y : Elem) : (s.setElem t e y).hintReqs = s.hintReqs := rfl
@[simp] theorem State.setElem_interval (s : State) (t e : Nat) (y : Elem) : (s.setElem t e y).interval = s.interval := rfl
@[simp] theorem State.setElem_doses (s : State) (t e : Nat) (y : Elem) : (s.setElem t e y).doses = s.doses := rfl
@[simp] theorem State.setElem_islDose (s : State) (t e : Nat) (y : Elem) : (s.setElem t e y).islDose = s.islDose := rfl
@[simp] theorem State.setElem_tileDose (s : State) (t e : Nat) (y : Elem) : (s.setElem t e y).tileDose = s.tileDose := rfl
@[simp] theorem State.setElem_undecl (s : State) (t e : Nat) (y : Elem) : (s.setElem t e y).undecl = s.undecl := rfl
@[simp] theorem State.setElem_denied (s : State) (t e : Nat) (y : Elem) : (s.setElem t e y).denied = s.denied := rfl
@[simp] theorem State.setElem_hdrops (s : State) (t e : Nat) (y : Elem) : (s.setElem t e y).hdrops = s.hdrops := rfl
@[simp] theorem State.setElem_t1 (s : State) (t e : Nat) (y : Elem) : (s.setElem t e y).t1 = s.t1 := rfl
@[simp] theorem State.setElem_t2 (s : State) (t e : Nat) (y : Elem) : (s.setElem t e y).t2 = s.t2 := rfl
@[simp] theorem State.setElem_t3 (s : State) (t e : Nat) (y : Elem) : (s.setElem t e y).t3 = s.t3 := rfl
@[simp] theorem State.setElem_slackK (s : State) (t e : Nat) (y : Elem) : (s.setElem t e y).slackK = s.slackK := rfl
@[simp] theorem State.setElem_slackAt (s : State) (t e : Nat) (y : Elem) : (s.setElem t e y).slackAt = s.slackAt := rfl
@[simp] theorem State.setElem_links (s : State) (t e : Nat) (y : Elem) : (s.setElem t e y).links = s.links := rfl
@[simp] theorem State.setElem_routes (s : State) (t e : Nat) (y : Elem) : (s.setElem t e y).routes = s.routes := rfl
@[simp] theorem State.setElem_msix (s : State) (t e : Nat) (y : Elem) : (s.setElem t e y).msix = s.msix := rfl
@[simp] theorem State.setElem_sent (s : State) (t e : Nat) (y : Elem) : (s.setElem t e y).sent = s.sent := rfl
@[simp] theorem State.setElem_remotes (s : State) (t e : Nat) (y : Elem) : (s.setElem t e y).remotes = s.remotes := rfl
@[simp] theorem State.setElem_errlog (s : State) (t e : Nat) (y : Elem) : (s.setElem t e y).errlog = s.errlog := rfl
@[simp] theorem State.setElem_nextId (s : State) (t e : Nat) (y : Elem) : (s.setElem t e y).nextId = s.nextId := rfl
@[simp] theorem State.setElem_core (s : State) (t e : Nat) (y : Elem) (j : Nat) : (s.setElem t e y).core j = s.core j := rfl
@[simp] theorem State.setElem_ctx (s : State) (t e : Nat) (y : Elem) (j : Nat) : (s.setElem t e y).ctx j = s.ctx j := rfl
@[simp] theorem State.setElem_island (s : State) (t e : Nat) (y : Elem) (j : Nat) : (s.setElem t e y).island j = s.island j := rfl
@[simp] theorem State.setElem_queue (s : State) (t e : Nat) (y : Elem) (j : Nat) : (s.setElem t e y).queue j = s.queue j := rfl
@[simp] theorem State.setElem_well (s : State) (t e : Nat) (y : Elem) (j : Nat) : (s.setElem t e y).well j = s.well j := rfl
@[simp] theorem State.setElem_region (s : State) (t e : Nat) (y : Elem) (j : Nat) : (s.setElem t e y).region j = s.region j := rfl

/-! ### modElem -/

@[simp] theorem State.modElem_nstime (s : State) (t e : Nat) (f : Elem → Elem) : (s.modElem t e f).nstime = s.nstime := rfl
@[simp] theorem State.modElem_free (s : State) (t e : Nat) (f : Elem → Elem) : (s.modElem t e f).free = s.free := rfl
@[simp] theorem State.modElem_agenda (s : State) (t e : Nat) (f : Elem → Elem) : (s.modElem t e f).agenda = s.agenda := rfl
@[simp] theorem State.modElem_actor (s : State) (t e : Nat) (f : Elem → Elem) : (s.modElem t e f).actor = s.actor := rfl
@[simp] theorem State.modElem_powerOff (s : State) (t e : Nat) (f : Elem → Elem) : (s.modElem t e f).powerOff = s.powerOff := rfl
@[simp] theorem State.modElem_bootstat (s : State) (t e : Nat) (f : Elem → Elem) : (s.modElem t e f).bootstat = s.bootstat := rfl
@[simp] theorem State.modElem_fused (s : State) (t e : Nat) (f : Elem → Elem) : (s.modElem t e f).fused = s.fused := rfl
@[simp] theorem State.modElem_keys (s : State) (t e : Nat) (f : Elem → Elem) : (s.modElem t e f).keys = s.keys := rfl
@[simp] theorem State.modElem_meas (s : State) (t e : Nat) (f : Elem → Elem) : (s.modElem t e f).meas = s.meas := rfl
@[simp] theorem State.modElem_spdm (s : State) (t e : Nat) (f : Elem → Elem) : (s.modElem t e f).spdm = s.spdm := rfl
@[simp] theorem State.modElem_spdmLog (s : State) (t e : Nat) (f : Elem → Elem) : (s.modElem t e f).spdmLog = s.spdmLog := rfl
@[simp] theorem State.modElem_gens (s : State) (t e : Nat) (f : Elem → Elem) : (s.modElem t e f).gens = s.gens := rfl
@[simp] theorem State.modElem_regions (s : State) (t e : Nat) (f : Elem → Elem) : (s.modElem t e f).regions = s.regions := rfl
@[simp] theorem State.modElem_groups (s : State) (t e : Nat) (f : Elem → Elem) : (s.modElem t e f).groups = s.groups := rfl
@[simp] theorem State.modElem_cores (s : State) (t e : Nat) (f : Elem → Elem) : (s.modElem t e f).cores = s.cores := rfl
@[simp] theorem State.modElem_islands (s : State) (t e : Nat) (f : Elem → Elem) : (s.modElem t e f).islands = s.islands := rfl
@[simp] theorem State.modElem_streamers (s : State) (t e : Nat) (f : Elem → Elem) : (s.modElem t e f).streamers = s.streamers := rfl
@[simp] theorem State.modElem_expanders (s : State) (t e : Nat) (f : Elem → Elem) : (s.modElem t e f).expanders = s.expanders := rfl
@[simp] theorem State.modElem_weirs (s : State) (t e : Nat) (f : Elem → Elem) : (s.modElem t e f).weirs = s.weirs := rfl
@[simp] theorem State.modElem_servers (s : State) (t e : Nat) (f : Elem → Elem) : (s.modElem t e f).servers = s.servers := rfl
@[simp] theorem State.modElem_ctxs (s : State) (t e : Nat) (f : Elem → Elem) : (s.modElem t e f).ctxs = s.ctxs := rfl
@[simp] theorem State.modElem_ctxq (s : State) (t e : Nat) (f : Elem → Elem) : (s.modElem t e f).ctxq = s.ctxq := rfl
@[simp] theorem State.modElem_barriers (s : State) (t e : Nat) (f : Elem → Elem) : (s.modElem t e f).barriers = s.barriers := rfl
@[simp] theorem State.modElem_triggers (s : State) (t e : Nat) (f : Elem → Elem) : (s.modElem t e f).triggers = s.triggers := rfl
@[simp] theorem State.modElem_queues (s : State) (t e : Nat) (f : Elem → Elem) : (s.modElem t e f).queues = s.queues := rfl
@[simp] theorem State.modElem_qptr (s : State) (t e : Nat) (f : Elem → Elem) : (s.modElem t e f).qptr = s.qptr := rfl
@[simp] theorem State.modElem_wells (s : State) (t e : Nat) (f : Elem → Elem) : (s.modElem t e f).wells = s.wells := rfl
@[simp] theorem State.modElem_mem (s : State) (t e : Nat) (f : Elem → Elem) : (s.modElem t e f).mem = s.mem := rfl
@[simp] theorem State.modElem_full (s : State) (t e : Nat) (f : Elem → Elem) : (s.modElem t e f).full = s.full := rfl
@[simp] theorem State.modElem_deep (s : State) (t e : Nat) (f : Elem → Elem) : (s.modElem t e f).deep = s.deep := rfl
@[simp] theorem State.modElem_host (s : State) (t e : Nat) (f : Elem → Elem) : (s.modElem t e f).host = s.host := rfl
@[simp] theorem State.modElem_writeSeq (s : State) (t e : Nat) (f : Elem → Elem) : (s.modElem t e f).writeSeq = s.writeSeq := rfl
@[simp] theorem State.modElem_dirty (s : State) (t e : Nat) (f : Elem → Elem) : (s.modElem t e f).dirty = s.dirty := rfl
@[simp] theorem State.modElem_ltlb (s : State) (t e : Nat) (f : Elem → Elem) : (s.modElem t e f).ltlb = s.ltlb := rfl
@[simp] theorem State.modElem_qtlb (s : State) (t e : Nat) (f : Elem → Elem) : (s.modElem t e f).qtlb = s.qtlb := rfl
@[simp] theorem State.modElem_badWalks (s : State) (t e : Nat) (f : Elem → Elem) : (s.modElem t e f).badWalks = s.badWalks := rfl
@[simp] theorem State.modElem_epochs (s : State) (t e : Nat) (f : Elem → Elem) : (s.modElem t e f).epochs = s.epochs := rfl
@[simp] theorem State.modElem_shoots (s : State) (t e : Nat) (f : Elem → Elem) : (s.modElem t e f).shoots = s.shoots := rfl
@[simp] theorem State.modElem_migrs (s : State) (t e : Nat) (f : Elem → Elem) : (s.modElem t e f).migrs = s.migrs := rfl
@[simp] theorem State.modElem_rings (s : State) (t e : Nat) (f : Elem → Elem) : (s.modElem t e f).rings = s.rings := rfl
@[simp] theorem State.modElem_spines (s : State) (t e : Nat) (f : Elem → Elem) : (s.modElem t e f).spines = s.spines := rfl
@[simp] theorem State.modElem_s0fc (s : State) (t e : Nat) (f : Elem → Elem) : (s.modElem t e f).s0fc = s.s0fc := rfl
@[simp] theorem State.modElem_s0frac (s : State) (t e : Nat) (f : Elem → Elem) : (s.modElem t e f).s0frac = s.s0frac := rfl
@[simp] theorem State.modElem_hints (s : State) (t e : Nat) (f : Elem → Elem) : (s.modElem t e f).hints = s.hints := rfl
@[simp] theorem State.modElem_hintReqs (s : State) (t e : Nat) (f : Elem → Elem) : (s.modElem t e f).hintReqs = s.hintReqs := rfl
@[simp] theorem State.modElem_interval (s : State) (t e : Nat) (f : Elem → Elem) : (s.modElem t e f).interval = s.interval := rfl
@[simp] theorem State.modElem_doses (s : State) (t e : Nat) (f : Elem → Elem) : (s.modElem t e f).doses = s.doses := rfl
@[simp] theorem State.modElem_islDose (s : State) (t e : Nat) (f : Elem → Elem) : (s.modElem t e f).islDose = s.islDose := rfl
@[simp] theorem State.modElem_tileDose (s : State) (t e : Nat) (f : Elem → Elem) : (s.modElem t e f).tileDose = s.tileDose := rfl
@[simp] theorem State.modElem_undecl (s : State) (t e : Nat) (f : Elem → Elem) : (s.modElem t e f).undecl = s.undecl := rfl
@[simp] theorem State.modElem_denied (s : State) (t e : Nat) (f : Elem → Elem) : (s.modElem t e f).denied = s.denied := rfl
@[simp] theorem State.modElem_hdrops (s : State) (t e : Nat) (f : Elem → Elem) : (s.modElem t e f).hdrops = s.hdrops := rfl
@[simp] theorem State.modElem_t1 (s : State) (t e : Nat) (f : Elem → Elem) : (s.modElem t e f).t1 = s.t1 := rfl
@[simp] theorem State.modElem_t2 (s : State) (t e : Nat) (f : Elem → Elem) : (s.modElem t e f).t2 = s.t2 := rfl
@[simp] theorem State.modElem_t3 (s : State) (t e : Nat) (f : Elem → Elem) : (s.modElem t e f).t3 = s.t3 := rfl
@[simp] theorem State.modElem_slackK (s : State) (t e : Nat) (f : Elem → Elem) : (s.modElem t e f).slackK = s.slackK := rfl
@[simp] theorem State.modElem_slackAt (s : State) (t e : Nat) (f : Elem → Elem) : (s.modElem t e f).slackAt = s.slackAt := rfl
@[simp] theorem State.modElem_links (s : State) (t e : Nat) (f : Elem → Elem) : (s.modElem t e f).links = s.links := rfl
@[simp] theorem State.modElem_routes (s : State) (t e : Nat) (f : Elem → Elem) : (s.modElem t e f).routes = s.routes := rfl
@[simp] theorem State.modElem_msix (s : State) (t e : Nat) (f : Elem → Elem) : (s.modElem t e f).msix = s.msix := rfl
@[simp] theorem State.modElem_sent (s : State) (t e : Nat) (f : Elem → Elem) : (s.modElem t e f).sent = s.sent := rfl
@[simp] theorem State.modElem_remotes (s : State) (t e : Nat) (f : Elem → Elem) : (s.modElem t e f).remotes = s.remotes := rfl
@[simp] theorem State.modElem_errlog (s : State) (t e : Nat) (f : Elem → Elem) : (s.modElem t e f).errlog = s.errlog := rfl
@[simp] theorem State.modElem_nextId (s : State) (t e : Nat) (f : Elem → Elem) : (s.modElem t e f).nextId = s.nextId := rfl
@[simp] theorem State.modElem_core (s : State) (t e : Nat) (f : Elem → Elem) (j : Nat) : (s.modElem t e f).core j = s.core j := rfl
@[simp] theorem State.modElem_ctx (s : State) (t e : Nat) (f : Elem → Elem) (j : Nat) : (s.modElem t e f).ctx j = s.ctx j := rfl
@[simp] theorem State.modElem_island (s : State) (t e : Nat) (f : Elem → Elem) (j : Nat) : (s.modElem t e f).island j = s.island j := rfl
@[simp] theorem State.modElem_queue (s : State) (t e : Nat) (f : Elem → Elem) (j : Nat) : (s.modElem t e f).queue j = s.queue j := rfl
@[simp] theorem State.modElem_well (s : State) (t e : Nat) (f : Elem → Elem) (j : Nat) : (s.modElem t e f).well j = s.well j := rfl
@[simp] theorem State.modElem_region (s : State) (t e : Nat) (f : Elem → Elem) (j : Nat) : (s.modElem t e f).region j = s.region j := rfl

/-! ### setCore -/

@[simp] theorem State.setCore_nstime (s : State) (c : Nat) (x : Core) : (s.setCore c x).nstime = s.nstime := rfl
@[simp] theorem State.setCore_free (s : State) (c : Nat) (x : Core) : (s.setCore c x).free = s.free := rfl
@[simp] theorem State.setCore_agenda (s : State) (c : Nat) (x : Core) : (s.setCore c x).agenda = s.agenda := rfl
@[simp] theorem State.setCore_actor (s : State) (c : Nat) (x : Core) : (s.setCore c x).actor = s.actor := rfl
@[simp] theorem State.setCore_powerOff (s : State) (c : Nat) (x : Core) : (s.setCore c x).powerOff = s.powerOff := rfl
@[simp] theorem State.setCore_bootstat (s : State) (c : Nat) (x : Core) : (s.setCore c x).bootstat = s.bootstat := rfl
@[simp] theorem State.setCore_fused (s : State) (c : Nat) (x : Core) : (s.setCore c x).fused = s.fused := rfl
@[simp] theorem State.setCore_keys (s : State) (c : Nat) (x : Core) : (s.setCore c x).keys = s.keys := rfl
@[simp] theorem State.setCore_meas (s : State) (c : Nat) (x : Core) : (s.setCore c x).meas = s.meas := rfl
@[simp] theorem State.setCore_spdm (s : State) (c : Nat) (x : Core) : (s.setCore c x).spdm = s.spdm := rfl
@[simp] theorem State.setCore_spdmLog (s : State) (c : Nat) (x : Core) : (s.setCore c x).spdmLog = s.spdmLog := rfl
@[simp] theorem State.setCore_tiles (s : State) (c : Nat) (x : Core) : (s.setCore c x).tiles = s.tiles := rfl
@[simp] theorem State.setCore_gens (s : State) (c : Nat) (x : Core) : (s.setCore c x).gens = s.gens := rfl
@[simp] theorem State.setCore_regions (s : State) (c : Nat) (x : Core) : (s.setCore c x).regions = s.regions := rfl
@[simp] theorem State.setCore_groups (s : State) (c : Nat) (x : Core) : (s.setCore c x).groups = s.groups := rfl
@[simp] theorem State.setCore_islands (s : State) (c : Nat) (x : Core) : (s.setCore c x).islands = s.islands := rfl
@[simp] theorem State.setCore_streamers (s : State) (c : Nat) (x : Core) : (s.setCore c x).streamers = s.streamers := rfl
@[simp] theorem State.setCore_expanders (s : State) (c : Nat) (x : Core) : (s.setCore c x).expanders = s.expanders := rfl
@[simp] theorem State.setCore_weirs (s : State) (c : Nat) (x : Core) : (s.setCore c x).weirs = s.weirs := rfl
@[simp] theorem State.setCore_servers (s : State) (c : Nat) (x : Core) : (s.setCore c x).servers = s.servers := rfl
@[simp] theorem State.setCore_ctxs (s : State) (c : Nat) (x : Core) : (s.setCore c x).ctxs = s.ctxs := rfl
@[simp] theorem State.setCore_ctxq (s : State) (c : Nat) (x : Core) : (s.setCore c x).ctxq = s.ctxq := rfl
@[simp] theorem State.setCore_barriers (s : State) (c : Nat) (x : Core) : (s.setCore c x).barriers = s.barriers := rfl
@[simp] theorem State.setCore_triggers (s : State) (c : Nat) (x : Core) : (s.setCore c x).triggers = s.triggers := rfl
@[simp] theorem State.setCore_queues (s : State) (c : Nat) (x : Core) : (s.setCore c x).queues = s.queues := rfl
@[simp] theorem State.setCore_qptr (s : State) (c : Nat) (x : Core) : (s.setCore c x).qptr = s.qptr := rfl
@[simp] theorem State.setCore_wells (s : State) (c : Nat) (x : Core) : (s.setCore c x).wells = s.wells := rfl
@[simp] theorem State.setCore_mem (s : State) (c : Nat) (x : Core) : (s.setCore c x).mem = s.mem := rfl
@[simp] theorem State.setCore_full (s : State) (c : Nat) (x : Core) : (s.setCore c x).full = s.full := rfl
@[simp] theorem State.setCore_deep (s : State) (c : Nat) (x : Core) : (s.setCore c x).deep = s.deep := rfl
@[simp] theorem State.setCore_host (s : State) (c : Nat) (x : Core) : (s.setCore c x).host = s.host := rfl
@[simp] theorem State.setCore_writeSeq (s : State) (c : Nat) (x : Core) : (s.setCore c x).writeSeq = s.writeSeq := rfl
@[simp] theorem State.setCore_dirty (s : State) (c : Nat) (x : Core) : (s.setCore c x).dirty = s.dirty := rfl
@[simp] theorem State.setCore_ltlb (s : State) (c : Nat) (x : Core) : (s.setCore c x).ltlb = s.ltlb := rfl
@[simp] theorem State.setCore_qtlb (s : State) (c : Nat) (x : Core) : (s.setCore c x).qtlb = s.qtlb := rfl
@[simp] theorem State.setCore_badWalks (s : State) (c : Nat) (x : Core) : (s.setCore c x).badWalks = s.badWalks := rfl
@[simp] theorem State.setCore_epochs (s : State) (c : Nat) (x : Core) : (s.setCore c x).epochs = s.epochs := rfl
@[simp] theorem State.setCore_shoots (s : State) (c : Nat) (x : Core) : (s.setCore c x).shoots = s.shoots := rfl
@[simp] theorem State.setCore_migrs (s : State) (c : Nat) (x : Core) : (s.setCore c x).migrs = s.migrs := rfl
@[simp] theorem State.setCore_rings (s : State) (c : Nat) (x : Core) : (s.setCore c x).rings = s.rings := rfl
@[simp] theorem State.setCore_spines (s : State) (c : Nat) (x : Core) : (s.setCore c x).spines = s.spines := rfl
@[simp] theorem State.setCore_s0fc (s : State) (c : Nat) (x : Core) : (s.setCore c x).s0fc = s.s0fc := rfl
@[simp] theorem State.setCore_s0frac (s : State) (c : Nat) (x : Core) : (s.setCore c x).s0frac = s.s0frac := rfl
@[simp] theorem State.setCore_hints (s : State) (c : Nat) (x : Core) : (s.setCore c x).hints = s.hints := rfl
@[simp] theorem State.setCore_hintReqs (s : State) (c : Nat) (x : Core) : (s.setCore c x).hintReqs = s.hintReqs := rfl
@[simp] theorem State.setCore_interval (s : State) (c : Nat) (x : Core) : (s.setCore c x).interval = s.interval := rfl
@[simp] theorem State.setCore_doses (s : State) (c : Nat) (x : Core) : (s.setCore c x).doses = s.doses := rfl
@[simp] theorem State.setCore_islDose (s : State) (c : Nat) (x : Core) : (s.setCore c x).islDose = s.islDose := rfl
@[simp] theorem State.setCore_tileDose (s : State) (c : Nat) (x : Core) : (s.setCore c x).tileDose = s.tileDose := rfl
@[simp] theorem State.setCore_undecl (s : State) (c : Nat) (x : Core) : (s.setCore c x).undecl = s.undecl := rfl
@[simp] theorem State.setCore_denied (s : State) (c : Nat) (x : Core) : (s.setCore c x).denied = s.denied := rfl
@[simp] theorem State.setCore_hdrops (s : State) (c : Nat) (x : Core) : (s.setCore c x).hdrops = s.hdrops := rfl
@[simp] theorem State.setCore_t1 (s : State) (c : Nat) (x : Core) : (s.setCore c x).t1 = s.t1 := rfl
@[simp] theorem State.setCore_t2 (s : State) (c : Nat) (x : Core) : (s.setCore c x).t2 = s.t2 := rfl
@[simp] theorem State.setCore_t3 (s : State) (c : Nat) (x : Core) : (s.setCore c x).t3 = s.t3 := rfl
@[simp] theorem State.setCore_slackK (s : State) (c : Nat) (x : Core) : (s.setCore c x).slackK = s.slackK := rfl
@[simp] theorem State.setCore_slackAt (s : State) (c : Nat) (x : Core) : (s.setCore c x).slackAt = s.slackAt := rfl
@[simp] theorem State.setCore_links (s : State) (c : Nat) (x : Core) : (s.setCore c x).links = s.links := rfl
@[simp] theorem State.setCore_routes (s : State) (c : Nat) (x : Core) : (s.setCore c x).routes = s.routes := rfl
@[simp] theorem State.setCore_msix (s : State) (c : Nat) (x : Core) : (s.setCore c x).msix = s.msix := rfl
@[simp] theorem State.setCore_sent (s : State) (c : Nat) (x : Core) : (s.setCore c x).sent = s.sent := rfl
@[simp] theorem State.setCore_remotes (s : State) (c : Nat) (x : Core) : (s.setCore c x).remotes = s.remotes := rfl
@[simp] theorem State.setCore_errlog (s : State) (c : Nat) (x : Core) : (s.setCore c x).errlog = s.errlog := rfl
@[simp] theorem State.setCore_nextId (s : State) (c : Nat) (x : Core) : (s.setCore c x).nextId = s.nextId := rfl
@[simp] theorem State.setCore_tile (s : State) (c : Nat) (x : Core) (j : Nat) : (s.setCore c x).tile j = s.tile j := rfl
@[simp] theorem State.setCore_ctx (s : State) (c : Nat) (x : Core) (j : Nat) : (s.setCore c x).ctx j = s.ctx j := rfl
@[simp] theorem State.setCore_island (s : State) (c : Nat) (x : Core) (j : Nat) : (s.setCore c x).island j = s.island j := rfl
@[simp] theorem State.setCore_queue (s : State) (c : Nat) (x : Core) (j : Nat) : (s.setCore c x).queue j = s.queue j := rfl
@[simp] theorem State.setCore_well (s : State) (c : Nat) (x : Core) (j : Nat) : (s.setCore c x).well j = s.well j := rfl
@[simp] theorem State.setCore_region (s : State) (c : Nat) (x : Core) (j : Nat) : (s.setCore c x).region j = s.region j := rfl
@[simp] theorem State.setCore_elem (s : State) (c : Nat) (x : Core) (i j : Nat) : (s.setCore c x).elem i j = s.elem i j := rfl

/-! ### modCore -/

@[simp] theorem State.modCore_nstime (s : State) (c : Nat) (f : Core → Core) : (s.modCore c f).nstime = s.nstime := rfl
@[simp] theorem State.modCore_free (s : State) (c : Nat) (f : Core → Core) : (s.modCore c f).free = s.free := rfl
@[simp] theorem State.modCore_agenda (s : State) (c : Nat) (f : Core → Core) : (s.modCore c f).agenda = s.agenda := rfl
@[simp] theorem State.modCore_actor (s : State) (c : Nat) (f : Core → Core) : (s.modCore c f).actor = s.actor := rfl
@[simp] theorem State.modCore_powerOff (s : State) (c : Nat) (f : Core → Core) : (s.modCore c f).powerOff = s.powerOff := rfl
@[simp] theorem State.modCore_bootstat (s : State) (c : Nat) (f : Core → Core) : (s.modCore c f).bootstat = s.bootstat := rfl
@[simp] theorem State.modCore_fused (s : State) (c : Nat) (f : Core → Core) : (s.modCore c f).fused = s.fused := rfl
@[simp] theorem State.modCore_keys (s : State) (c : Nat) (f : Core → Core) : (s.modCore c f).keys = s.keys := rfl
@[simp] theorem State.modCore_meas (s : State) (c : Nat) (f : Core → Core) : (s.modCore c f).meas = s.meas := rfl
@[simp] theorem State.modCore_spdm (s : State) (c : Nat) (f : Core → Core) : (s.modCore c f).spdm = s.spdm := rfl
@[simp] theorem State.modCore_spdmLog (s : State) (c : Nat) (f : Core → Core) : (s.modCore c f).spdmLog = s.spdmLog := rfl
@[simp] theorem State.modCore_tiles (s : State) (c : Nat) (f : Core → Core) : (s.modCore c f).tiles = s.tiles := rfl
@[simp] theorem State.modCore_gens (s : State) (c : Nat) (f : Core → Core) : (s.modCore c f).gens = s.gens := rfl
@[simp] theorem State.modCore_regions (s : State) (c : Nat) (f : Core → Core) : (s.modCore c f).regions = s.regions := rfl
@[simp] theorem State.modCore_groups (s : State) (c : Nat) (f : Core → Core) : (s.modCore c f).groups = s.groups := rfl
@[simp] theorem State.modCore_islands (s : State) (c : Nat) (f : Core → Core) : (s.modCore c f).islands = s.islands := rfl
@[simp] theorem State.modCore_streamers (s : State) (c : Nat) (f : Core → Core) : (s.modCore c f).streamers = s.streamers := rfl
@[simp] theorem State.modCore_expanders (s : State) (c : Nat) (f : Core → Core) : (s.modCore c f).expanders = s.expanders := rfl
@[simp] theorem State.modCore_weirs (s : State) (c : Nat) (f : Core → Core) : (s.modCore c f).weirs = s.weirs := rfl
@[simp] theorem State.modCore_servers (s : State) (c : Nat) (f : Core → Core) : (s.modCore c f).servers = s.servers := rfl
@[simp] theorem State.modCore_ctxs (s : State) (c : Nat) (f : Core → Core) : (s.modCore c f).ctxs = s.ctxs := rfl
@[simp] theorem State.modCore_ctxq (s : State) (c : Nat) (f : Core → Core) : (s.modCore c f).ctxq = s.ctxq := rfl
@[simp] theorem State.modCore_barriers (s : State) (c : Nat) (f : Core → Core) : (s.modCore c f).barriers = s.barriers := rfl
@[simp] theorem State.modCore_triggers (s : State) (c : Nat) (f : Core → Core) : (s.modCore c f).triggers = s.triggers := rfl
@[simp] theorem State.modCore_queues (s : State) (c : Nat) (f : Core → Core) : (s.modCore c f).queues = s.queues := rfl
@[simp] theorem State.modCore_qptr (s : State) (c : Nat) (f : Core → Core) : (s.modCore c f).qptr = s.qptr := rfl
@[simp] theorem State.modCore_wells (s : State) (c : Nat) (f : Core → Core) : (s.modCore c f).wells = s.wells := rfl
@[simp] theorem State.modCore_mem (s : State) (c : Nat) (f : Core → Core) : (s.modCore c f).mem = s.mem := rfl
@[simp] theorem State.modCore_full (s : State) (c : Nat) (f : Core → Core) : (s.modCore c f).full = s.full := rfl
@[simp] theorem State.modCore_deep (s : State) (c : Nat) (f : Core → Core) : (s.modCore c f).deep = s.deep := rfl
@[simp] theorem State.modCore_host (s : State) (c : Nat) (f : Core → Core) : (s.modCore c f).host = s.host := rfl
@[simp] theorem State.modCore_writeSeq (s : State) (c : Nat) (f : Core → Core) : (s.modCore c f).writeSeq = s.writeSeq := rfl
@[simp] theorem State.modCore_dirty (s : State) (c : Nat) (f : Core → Core) : (s.modCore c f).dirty = s.dirty := rfl
@[simp] theorem State.modCore_ltlb (s : State) (c : Nat) (f : Core → Core) : (s.modCore c f).ltlb = s.ltlb := rfl
@[simp] theorem State.modCore_qtlb (s : State) (c : Nat) (f : Core → Core) : (s.modCore c f).qtlb = s.qtlb := rfl
@[simp] theorem State.modCore_badWalks (s : State) (c : Nat) (f : Core → Core) : (s.modCore c f).badWalks = s.badWalks := rfl
@[simp] theorem State.modCore_epochs (s : State) (c : Nat) (f : Core → Core) : (s.modCore c f).epochs = s.epochs := rfl
@[simp] theorem State.modCore_shoots (s : State) (c : Nat) (f : Core → Core) : (s.modCore c f).shoots = s.shoots := rfl
@[simp] theorem State.modCore_migrs (s : State) (c : Nat) (f : Core → Core) : (s.modCore c f).migrs = s.migrs := rfl
@[simp] theorem State.modCore_rings (s : State) (c : Nat) (f : Core → Core) : (s.modCore c f).rings = s.rings := rfl
@[simp] theorem State.modCore_spines (s : State) (c : Nat) (f : Core → Core) : (s.modCore c f).spines = s.spines := rfl
@[simp] theorem State.modCore_s0fc (s : State) (c : Nat) (f : Core → Core) : (s.modCore c f).s0fc = s.s0fc := rfl
@[simp] theorem State.modCore_s0frac (s : State) (c : Nat) (f : Core → Core) : (s.modCore c f).s0frac = s.s0frac := rfl
@[simp] theorem State.modCore_hints (s : State) (c : Nat) (f : Core → Core) : (s.modCore c f).hints = s.hints := rfl
@[simp] theorem State.modCore_hintReqs (s : State) (c : Nat) (f : Core → Core) : (s.modCore c f).hintReqs = s.hintReqs := rfl
@[simp] theorem State.modCore_interval (s : State) (c : Nat) (f : Core → Core) : (s.modCore c f).interval = s.interval := rfl
@[simp] theorem State.modCore_doses (s : State) (c : Nat) (f : Core → Core) : (s.modCore c f).doses = s.doses := rfl
@[simp] theorem State.modCore_islDose (s : State) (c : Nat) (f : Core → Core) : (s.modCore c f).islDose = s.islDose := rfl
@[simp] theorem State.modCore_tileDose (s : State) (c : Nat) (f : Core → Core) : (s.modCore c f).tileDose = s.tileDose := rfl
@[simp] theorem State.modCore_undecl (s : State) (c : Nat) (f : Core → Core) : (s.modCore c f).undecl = s.undecl := rfl
@[simp] theorem State.modCore_denied (s : State) (c : Nat) (f : Core → Core) : (s.modCore c f).denied = s.denied := rfl
@[simp] theorem State.modCore_hdrops (s : State) (c : Nat) (f : Core → Core) : (s.modCore c f).hdrops = s.hdrops := rfl
@[simp] theorem State.modCore_t1 (s : State) (c : Nat) (f : Core → Core) : (s.modCore c f).t1 = s.t1 := rfl
@[simp] theorem State.modCore_t2 (s : State) (c : Nat) (f : Core → Core) : (s.modCore c f).t2 = s.t2 := rfl
@[simp] theorem State.modCore_t3 (s : State) (c : Nat) (f : Core → Core) : (s.modCore c f).t3 = s.t3 := rfl
@[simp] theorem State.modCore_slackK (s : State) (c : Nat) (f : Core → Core) : (s.modCore c f).slackK = s.slackK := rfl
@[simp] theorem State.modCore_slackAt (s : State) (c : Nat) (f : Core → Core) : (s.modCore c f).slackAt = s.slackAt := rfl
@[simp] theorem State.modCore_links (s : State) (c : Nat) (f : Core → Core) : (s.modCore c f).links = s.links := rfl
@[simp] theorem State.modCore_routes (s : State) (c : Nat) (f : Core → Core) : (s.modCore c f).routes = s.routes := rfl
@[simp] theorem State.modCore_msix (s : State) (c : Nat) (f : Core → Core) : (s.modCore c f).msix = s.msix := rfl
@[simp] theorem State.modCore_sent (s : State) (c : Nat) (f : Core → Core) : (s.modCore c f).sent = s.sent := rfl
@[simp] theorem State.modCore_remotes (s : State) (c : Nat) (f : Core → Core) : (s.modCore c f).remotes = s.remotes := rfl
@[simp] theorem State.modCore_errlog (s : State) (c : Nat) (f : Core → Core) : (s.modCore c f).errlog = s.errlog := rfl
@[simp] theorem State.modCore_nextId (s : State) (c : Nat) (f : Core → Core) : (s.modCore c f).nextId = s.nextId := rfl
@[simp] theorem State.modCore_tile (s : State) (c : Nat) (f : Core → Core) (j : Nat) : (s.modCore c f).tile j = s.tile j := rfl
@[simp] theorem State.modCore_ctx (s : State) (c : Nat) (f : Core → Core) (j : Nat) : (s.modCore c f).ctx j = s.ctx j := rfl
@[simp] theorem State.modCore_island (s : State) (c : Nat) (f : Core → Core) (j : Nat) : (s.modCore c f).island j = s.island j := rfl
@[simp] theorem State.modCore_queue (s : State) (c : Nat) (f : Core → Core) (j : Nat) : (s.modCore c f).queue j = s.queue j := rfl
@[simp] theorem State.modCore_well (s : State) (c : Nat) (f : Core → Core) (j : Nat) : (s.modCore c f).well j = s.well j := rfl
@[simp] theorem State.modCore_region (s : State) (c : Nat) (f : Core → Core) (j : Nat) : (s.modCore c f).region j = s.region j := rfl
@[simp] theorem State.modCore_elem (s : State) (c : Nat) (f : Core → Core) (i j : Nat) : (s.modCore c f).elem i j = s.elem i j := rfl

/-! ### setRegion -/

@[simp] theorem State.setRegion_nstime (s : State) (r : Nat) (x : Region) : (s.setRegion r x).nstime = s.nstime := rfl
@[simp] theorem State.setRegion_free (s : State) (r : Nat) (x : Region) : (s.setRegion r x).free = s.free := rfl
@[simp] theorem State.setRegion_agenda (s : State) (r : Nat) (x : Region) : (s.setRegion r x).agenda = s.agenda := rfl
@[simp] theorem State.setRegion_actor (s : State) (r : Nat) (x : Region) : (s.setRegion r x).actor = s.actor := rfl
@[simp] theorem State.setRegion_powerOff (s : State) (r : Nat) (x : Region) : (s.setRegion r x).powerOff = s.powerOff := rfl
@[simp] theorem State.setRegion_bootstat (s : State) (r : Nat) (x : Region) : (s.setRegion r x).bootstat = s.bootstat := rfl
@[simp] theorem State.setRegion_fused (s : State) (r : Nat) (x : Region) : (s.setRegion r x).fused = s.fused := rfl
@[simp] theorem State.setRegion_keys (s : State) (r : Nat) (x : Region) : (s.setRegion r x).keys = s.keys := rfl
@[simp] theorem State.setRegion_meas (s : State) (r : Nat) (x : Region) : (s.setRegion r x).meas = s.meas := rfl
@[simp] theorem State.setRegion_spdm (s : State) (r : Nat) (x : Region) : (s.setRegion r x).spdm = s.spdm := rfl
@[simp] theorem State.setRegion_spdmLog (s : State) (r : Nat) (x : Region) : (s.setRegion r x).spdmLog = s.spdmLog := rfl
@[simp] theorem State.setRegion_tiles (s : State) (r : Nat) (x : Region) : (s.setRegion r x).tiles = s.tiles := rfl
@[simp] theorem State.setRegion_gens (s : State) (r : Nat) (x : Region) : (s.setRegion r x).gens = s.gens := rfl
@[simp] theorem State.setRegion_groups (s : State) (r : Nat) (x : Region) : (s.setRegion r x).groups = s.groups := rfl
@[simp] theorem State.setRegion_cores (s : State) (r : Nat) (x : Region) : (s.setRegion r x).cores = s.cores := rfl
@[simp] theorem State.setRegion_islands (s : State) (r : Nat) (x : Region) : (s.setRegion r x).islands = s.islands := rfl
@[simp] theorem State.setRegion_streamers (s : State) (r : Nat) (x : Region) : (s.setRegion r x).streamers = s.streamers := rfl
@[simp] theorem State.setRegion_expanders (s : State) (r : Nat) (x : Region) : (s.setRegion r x).expanders = s.expanders := rfl
@[simp] theorem State.setRegion_weirs (s : State) (r : Nat) (x : Region) : (s.setRegion r x).weirs = s.weirs := rfl
@[simp] theorem State.setRegion_servers (s : State) (r : Nat) (x : Region) : (s.setRegion r x).servers = s.servers := rfl
@[simp] theorem State.setRegion_ctxs (s : State) (r : Nat) (x : Region) : (s.setRegion r x).ctxs = s.ctxs := rfl
@[simp] theorem State.setRegion_ctxq (s : State) (r : Nat) (x : Region) : (s.setRegion r x).ctxq = s.ctxq := rfl
@[simp] theorem State.setRegion_barriers (s : State) (r : Nat) (x : Region) : (s.setRegion r x).barriers = s.barriers := rfl
@[simp] theorem State.setRegion_triggers (s : State) (r : Nat) (x : Region) : (s.setRegion r x).triggers = s.triggers := rfl
@[simp] theorem State.setRegion_queues (s : State) (r : Nat) (x : Region) : (s.setRegion r x).queues = s.queues := rfl
@[simp] theorem State.setRegion_qptr (s : State) (r : Nat) (x : Region) : (s.setRegion r x).qptr = s.qptr := rfl
@[simp] theorem State.setRegion_wells (s : State) (r : Nat) (x : Region) : (s.setRegion r x).wells = s.wells := rfl
@[simp] theorem State.setRegion_mem (s : State) (r : Nat) (x : Region) : (s.setRegion r x).mem = s.mem := rfl
@[simp] theorem State.setRegion_full (s : State) (r : Nat) (x : Region) : (s.setRegion r x).full = s.full := rfl
@[simp] theorem State.setRegion_deep (s : State) (r : Nat) (x : Region) : (s.setRegion r x).deep = s.deep := rfl
@[simp] theorem State.setRegion_host (s : State) (r : Nat) (x : Region) : (s.setRegion r x).host = s.host := rfl
@[simp] theorem State.setRegion_writeSeq (s : State) (r : Nat) (x : Region) : (s.setRegion r x).writeSeq = s.writeSeq := rfl
@[simp] theorem State.setRegion_dirty (s : State) (r : Nat) (x : Region) : (s.setRegion r x).dirty = s.dirty := rfl
@[simp] theorem State.setRegion_ltlb (s : State) (r : Nat) (x : Region) : (s.setRegion r x).ltlb = s.ltlb := rfl
@[simp] theorem State.setRegion_qtlb (s : State) (r : Nat) (x : Region) : (s.setRegion r x).qtlb = s.qtlb := rfl
@[simp] theorem State.setRegion_badWalks (s : State) (r : Nat) (x : Region) : (s.setRegion r x).badWalks = s.badWalks := rfl
@[simp] theorem State.setRegion_epochs (s : State) (r : Nat) (x : Region) : (s.setRegion r x).epochs = s.epochs := rfl
@[simp] theorem State.setRegion_shoots (s : State) (r : Nat) (x : Region) : (s.setRegion r x).shoots = s.shoots := rfl
@[simp] theorem State.setRegion_migrs (s : State) (r : Nat) (x : Region) : (s.setRegion r x).migrs = s.migrs := rfl
@[simp] theorem State.setRegion_rings (s : State) (r : Nat) (x : Region) : (s.setRegion r x).rings = s.rings := rfl
@[simp] theorem State.setRegion_spines (s : State) (r : Nat) (x : Region) : (s.setRegion r x).spines = s.spines := rfl
@[simp] theorem State.setRegion_s0fc (s : State) (r : Nat) (x : Region) : (s.setRegion r x).s0fc = s.s0fc := rfl
@[simp] theorem State.setRegion_s0frac (s : State) (r : Nat) (x : Region) : (s.setRegion r x).s0frac = s.s0frac := rfl
@[simp] theorem State.setRegion_hints (s : State) (r : Nat) (x : Region) : (s.setRegion r x).hints = s.hints := rfl
@[simp] theorem State.setRegion_hintReqs (s : State) (r : Nat) (x : Region) : (s.setRegion r x).hintReqs = s.hintReqs := rfl
@[simp] theorem State.setRegion_interval (s : State) (r : Nat) (x : Region) : (s.setRegion r x).interval = s.interval := rfl
@[simp] theorem State.setRegion_doses (s : State) (r : Nat) (x : Region) : (s.setRegion r x).doses = s.doses := rfl
@[simp] theorem State.setRegion_islDose (s : State) (r : Nat) (x : Region) : (s.setRegion r x).islDose = s.islDose := rfl
@[simp] theorem State.setRegion_tileDose (s : State) (r : Nat) (x : Region) : (s.setRegion r x).tileDose = s.tileDose := rfl
@[simp] theorem State.setRegion_undecl (s : State) (r : Nat) (x : Region) : (s.setRegion r x).undecl = s.undecl := rfl
@[simp] theorem State.setRegion_denied (s : State) (r : Nat) (x : Region) : (s.setRegion r x).denied = s.denied := rfl
@[simp] theorem State.setRegion_hdrops (s : State) (r : Nat) (x : Region) : (s.setRegion r x).hdrops = s.hdrops := rfl
@[simp] theorem State.setRegion_t1 (s : State) (r : Nat) (x : Region) : (s.setRegion r x).t1 = s.t1 := rfl
@[simp] theorem State.setRegion_t2 (s : State) (r : Nat) (x : Region) : (s.setRegion r x).t2 = s.t2 := rfl
@[simp] theorem State.setRegion_t3 (s : State) (r : Nat) (x : Region) : (s.setRegion r x).t3 = s.t3 := rfl
@[simp] theorem State.setRegion_slackK (s : State) (r : Nat) (x : Region) : (s.setRegion r x).slackK = s.slackK := rfl
@[simp] theorem State.setRegion_slackAt (s : State) (r : Nat) (x : Region) : (s.setRegion r x).slackAt = s.slackAt := rfl
@[simp] theorem State.setRegion_links (s : State) (r : Nat) (x : Region) : (s.setRegion r x).links = s.links := rfl
@[simp] theorem State.setRegion_routes (s : State) (r : Nat) (x : Region) : (s.setRegion r x).routes = s.routes := rfl
@[simp] theorem State.setRegion_msix (s : State) (r : Nat) (x : Region) : (s.setRegion r x).msix = s.msix := rfl
@[simp] theorem State.setRegion_sent (s : State) (r : Nat) (x : Region) : (s.setRegion r x).sent = s.sent := rfl
@[simp] theorem State.setRegion_remotes (s : State) (r : Nat) (x : Region) : (s.setRegion r x).remotes = s.remotes := rfl
@[simp] theorem State.setRegion_errlog (s : State) (r : Nat) (x : Region) : (s.setRegion r x).errlog = s.errlog := rfl
@[simp] theorem State.setRegion_nextId (s : State) (r : Nat) (x : Region) : (s.setRegion r x).nextId = s.nextId := rfl
@[simp] theorem State.setRegion_tile (s : State) (r : Nat) (x : Region) (j : Nat) : (s.setRegion r x).tile j = s.tile j := rfl
@[simp] theorem State.setRegion_core (s : State) (r : Nat) (x : Region) (j : Nat) : (s.setRegion r x).core j = s.core j := rfl
@[simp] theorem State.setRegion_ctx (s : State) (r : Nat) (x : Region) (j : Nat) : (s.setRegion r x).ctx j = s.ctx j := rfl
@[simp] theorem State.setRegion_island (s : State) (r : Nat) (x : Region) (j : Nat) : (s.setRegion r x).island j = s.island j := rfl
@[simp] theorem State.setRegion_queue (s : State) (r : Nat) (x : Region) (j : Nat) : (s.setRegion r x).queue j = s.queue j := rfl
@[simp] theorem State.setRegion_well (s : State) (r : Nat) (x : Region) (j : Nat) : (s.setRegion r x).well j = s.well j := rfl
@[simp] theorem State.setRegion_elem (s : State) (r : Nat) (x : Region) (i j : Nat) : (s.setRegion r x).elem i j = s.elem i j := rfl

/-! ### modRegion -/

@[simp] theorem State.modRegion_nstime (s : State) (r : Nat) (f : Region → Region) : (s.modRegion r f).nstime = s.nstime := rfl
@[simp] theorem State.modRegion_free (s : State) (r : Nat) (f : Region → Region) : (s.modRegion r f).free = s.free := rfl
@[simp] theorem State.modRegion_agenda (s : State) (r : Nat) (f : Region → Region) : (s.modRegion r f).agenda = s.agenda := rfl
@[simp] theorem State.modRegion_actor (s : State) (r : Nat) (f : Region → Region) : (s.modRegion r f).actor = s.actor := rfl
@[simp] theorem State.modRegion_powerOff (s : State) (r : Nat) (f : Region → Region) : (s.modRegion r f).powerOff = s.powerOff := rfl
@[simp] theorem State.modRegion_bootstat (s : State) (r : Nat) (f : Region → Region) : (s.modRegion r f).bootstat = s.bootstat := rfl
@[simp] theorem State.modRegion_fused (s : State) (r : Nat) (f : Region → Region) : (s.modRegion r f).fused = s.fused := rfl
@[simp] theorem State.modRegion_keys (s : State) (r : Nat) (f : Region → Region) : (s.modRegion r f).keys = s.keys := rfl
@[simp] theorem State.modRegion_meas (s : State) (r : Nat) (f : Region → Region) : (s.modRegion r f).meas = s.meas := rfl
@[simp] theorem State.modRegion_spdm (s : State) (r : Nat) (f : Region → Region) : (s.modRegion r f).spdm = s.spdm := rfl
@[simp] theorem State.modRegion_spdmLog (s : State) (r : Nat) (f : Region → Region) : (s.modRegion r f).spdmLog = s.spdmLog := rfl
@[simp] theorem State.modRegion_tiles (s : State) (r : Nat) (f : Region → Region) : (s.modRegion r f).tiles = s.tiles := rfl
@[simp] theorem State.modRegion_gens (s : State) (r : Nat) (f : Region → Region) : (s.modRegion r f).gens = s.gens := rfl
@[simp] theorem State.modRegion_groups (s : State) (r : Nat) (f : Region → Region) : (s.modRegion r f).groups = s.groups := rfl
@[simp] theorem State.modRegion_cores (s : State) (r : Nat) (f : Region → Region) : (s.modRegion r f).cores = s.cores := rfl
@[simp] theorem State.modRegion_islands (s : State) (r : Nat) (f : Region → Region) : (s.modRegion r f).islands = s.islands := rfl
@[simp] theorem State.modRegion_streamers (s : State) (r : Nat) (f : Region → Region) : (s.modRegion r f).streamers = s.streamers := rfl
@[simp] theorem State.modRegion_expanders (s : State) (r : Nat) (f : Region → Region) : (s.modRegion r f).expanders = s.expanders := rfl
@[simp] theorem State.modRegion_weirs (s : State) (r : Nat) (f : Region → Region) : (s.modRegion r f).weirs = s.weirs := rfl
@[simp] theorem State.modRegion_servers (s : State) (r : Nat) (f : Region → Region) : (s.modRegion r f).servers = s.servers := rfl
@[simp] theorem State.modRegion_ctxs (s : State) (r : Nat) (f : Region → Region) : (s.modRegion r f).ctxs = s.ctxs := rfl
@[simp] theorem State.modRegion_ctxq (s : State) (r : Nat) (f : Region → Region) : (s.modRegion r f).ctxq = s.ctxq := rfl
@[simp] theorem State.modRegion_barriers (s : State) (r : Nat) (f : Region → Region) : (s.modRegion r f).barriers = s.barriers := rfl
@[simp] theorem State.modRegion_triggers (s : State) (r : Nat) (f : Region → Region) : (s.modRegion r f).triggers = s.triggers := rfl
@[simp] theorem State.modRegion_queues (s : State) (r : Nat) (f : Region → Region) : (s.modRegion r f).queues = s.queues := rfl
@[simp] theorem State.modRegion_qptr (s : State) (r : Nat) (f : Region → Region) : (s.modRegion r f).qptr = s.qptr := rfl
@[simp] theorem State.modRegion_wells (s : State) (r : Nat) (f : Region → Region) : (s.modRegion r f).wells = s.wells := rfl
@[simp] theorem State.modRegion_mem (s : State) (r : Nat) (f : Region → Region) : (s.modRegion r f).mem = s.mem := rfl
@[simp] theorem State.modRegion_full (s : State) (r : Nat) (f : Region → Region) : (s.modRegion r f).full = s.full := rfl
@[simp] theorem State.modRegion_deep (s : State) (r : Nat) (f : Region → Region) : (s.modRegion r f).deep = s.deep := rfl
@[simp] theorem State.modRegion_host (s : State) (r : Nat) (f : Region → Region) : (s.modRegion r f).host = s.host := rfl
@[simp] theorem State.modRegion_writeSeq (s : State) (r : Nat) (f : Region → Region) : (s.modRegion r f).writeSeq = s.writeSeq := rfl
@[simp] theorem State.modRegion_dirty (s : State) (r : Nat) (f : Region → Region) : (s.modRegion r f).dirty = s.dirty := rfl
@[simp] theorem State.modRegion_ltlb (s : State) (r : Nat) (f : Region → Region) : (s.modRegion r f).ltlb = s.ltlb := rfl
@[simp] theorem State.modRegion_qtlb (s : State) (r : Nat) (f : Region → Region) : (s.modRegion r f).qtlb = s.qtlb := rfl
@[simp] theorem State.modRegion_badWalks (s : State) (r : Nat) (f : Region → Region) : (s.modRegion r f).badWalks = s.badWalks := rfl
@[simp] theorem State.modRegion_epochs (s : State) (r : Nat) (f : Region → Region) : (s.modRegion r f).epochs = s.epochs := rfl
@[simp] theorem State.modRegion_shoots (s : State) (r : Nat) (f : Region → Region) : (s.modRegion r f).shoots = s.shoots := rfl
@[simp] theorem State.modRegion_migrs (s : State) (r : Nat) (f : Region → Region) : (s.modRegion r f).migrs = s.migrs := rfl
@[simp] theorem State.modRegion_rings (s : State) (r : Nat) (f : Region → Region) : (s.modRegion r f).rings = s.rings := rfl
@[simp] theorem State.modRegion_spines (s : State) (r : Nat) (f : Region → Region) : (s.modRegion r f).spines = s.spines := rfl
@[simp] theorem State.modRegion_s0fc (s : State) (r : Nat) (f : Region → Region) : (s.modRegion r f).s0fc = s.s0fc := rfl
@[simp] theorem State.modRegion_s0frac (s : State) (r : Nat) (f : Region → Region) : (s.modRegion r f).s0frac = s.s0frac := rfl
@[simp] theorem State.modRegion_hints (s : State) (r : Nat) (f : Region → Region) : (s.modRegion r f).hints = s.hints := rfl
@[simp] theorem State.modRegion_hintReqs (s : State) (r : Nat) (f : Region → Region) : (s.modRegion r f).hintReqs = s.hintReqs := rfl
@[simp] theorem State.modRegion_interval (s : State) (r : Nat) (f : Region → Region) : (s.modRegion r f).interval = s.interval := rfl
@[simp] theorem State.modRegion_doses (s : State) (r : Nat) (f : Region → Region) : (s.modRegion r f).doses = s.doses := rfl
@[simp] theorem State.modRegion_islDose (s : State) (r : Nat) (f : Region → Region) : (s.modRegion r f).islDose = s.islDose := rfl
@[simp] theorem State.modRegion_tileDose (s : State) (r : Nat) (f : Region → Region) : (s.modRegion r f).tileDose = s.tileDose := rfl
@[simp] theorem State.modRegion_undecl (s : State) (r : Nat) (f : Region → Region) : (s.modRegion r f).undecl = s.undecl := rfl
@[simp] theorem State.modRegion_denied (s : State) (r : Nat) (f : Region → Region) : (s.modRegion r f).denied = s.denied := rfl
@[simp] theorem State.modRegion_hdrops (s : State) (r : Nat) (f : Region → Region) : (s.modRegion r f).hdrops = s.hdrops := rfl
@[simp] theorem State.modRegion_t1 (s : State) (r : Nat) (f : Region → Region) : (s.modRegion r f).t1 = s.t1 := rfl
@[simp] theorem State.modRegion_t2 (s : State) (r : Nat) (f : Region → Region) : (s.modRegion r f).t2 = s.t2 := rfl
@[simp] theorem State.modRegion_t3 (s : State) (r : Nat) (f : Region → Region) : (s.modRegion r f).t3 = s.t3 := rfl
@[simp] theorem State.modRegion_slackK (s : State) (r : Nat) (f : Region → Region) : (s.modRegion r f).slackK = s.slackK := rfl
@[simp] theorem State.modRegion_slackAt (s : State) (r : Nat) (f : Region → Region) : (s.modRegion r f).slackAt = s.slackAt := rfl
@[simp] theorem State.modRegion_links (s : State) (r : Nat) (f : Region → Region) : (s.modRegion r f).links = s.links := rfl
@[simp] theorem State.modRegion_routes (s : State) (r : Nat) (f : Region → Region) : (s.modRegion r f).routes = s.routes := rfl
@[simp] theorem State.modRegion_msix (s : State) (r : Nat) (f : Region → Region) : (s.modRegion r f).msix = s.msix := rfl
@[simp] theorem State.modRegion_sent (s : State) (r : Nat) (f : Region → Region) : (s.modRegion r f).sent = s.sent := rfl
@[simp] theorem State.modRegion_remotes (s : State) (r : Nat) (f : Region → Region) : (s.modRegion r f).remotes = s.remotes := rfl
@[simp] theorem State.modRegion_errlog (s : State) (r : Nat) (f : Region → Region) : (s.modRegion r f).errlog = s.errlog := rfl
@[simp] theorem State.modRegion_nextId (s : State) (r : Nat) (f : Region → Region) : (s.modRegion r f).nextId = s.nextId := rfl
@[simp] theorem State.modRegion_tile (s : State) (r : Nat) (f : Region → Region) (j : Nat) : (s.modRegion r f).tile j = s.tile j := rfl
@[simp] theorem State.modRegion_core (s : State) (r : Nat) (f : Region → Region) (j : Nat) : (s.modRegion r f).core j = s.core j := rfl
@[simp] theorem State.modRegion_ctx (s : State) (r : Nat) (f : Region → Region) (j : Nat) : (s.modRegion r f).ctx j = s.ctx j := rfl
@[simp] theorem State.modRegion_island (s : State) (r : Nat) (f : Region → Region) (j : Nat) : (s.modRegion r f).island j = s.island j := rfl
@[simp] theorem State.modRegion_queue (s : State) (r : Nat) (f : Region → Region) (j : Nat) : (s.modRegion r f).queue j = s.queue j := rfl
@[simp] theorem State.modRegion_well (s : State) (r : Nat) (f : Region → Region) (j : Nat) : (s.modRegion r f).well j = s.well j := rfl
@[simp] theorem State.modRegion_elem (s : State) (r : Nat) (f : Region → Region) (i j : Nat) : (s.modRegion r f).elem i j = s.elem i j := rfl

/-! ### setCtx -/

@[simp] theorem State.setCtx_nstime (s : State) (c : Nat) (x : Ctx) : (s.setCtx c x).nstime = s.nstime := rfl
@[simp] theorem State.setCtx_free (s : State) (c : Nat) (x : Ctx) : (s.setCtx c x).free = s.free := rfl
@[simp] theorem State.setCtx_agenda (s : State) (c : Nat) (x : Ctx) : (s.setCtx c x).agenda = s.agenda := rfl
@[simp] theorem State.setCtx_actor (s : State) (c : Nat) (x : Ctx) : (s.setCtx c x).actor = s.actor := rfl
@[simp] theorem State.setCtx_powerOff (s : State) (c : Nat) (x : Ctx) : (s.setCtx c x).powerOff = s.powerOff := rfl
@[simp] theorem State.setCtx_bootstat (s : State) (c : Nat) (x : Ctx) : (s.setCtx c x).bootstat = s.bootstat := rfl
@[simp] theorem State.setCtx_fused (s : State) (c : Nat) (x : Ctx) : (s.setCtx c x).fused = s.fused := rfl
@[simp] theorem State.setCtx_keys (s : State) (c : Nat) (x : Ctx) : (s.setCtx c x).keys = s.keys := rfl
@[simp] theorem State.setCtx_meas (s : State) (c : Nat) (x : Ctx) : (s.setCtx c x).meas = s.meas := rfl
@[simp] theorem State.setCtx_spdm (s : State) (c : Nat) (x : Ctx) : (s.setCtx c x).spdm = s.spdm := rfl
@[simp] theorem State.setCtx_spdmLog (s : State) (c : Nat) (x : Ctx) : (s.setCtx c x).spdmLog = s.spdmLog := rfl
@[simp] theorem State.setCtx_tiles (s : State) (c : Nat) (x : Ctx) : (s.setCtx c x).tiles = s.tiles := rfl
@[simp] theorem State.setCtx_gens (s : State) (c : Nat) (x : Ctx) : (s.setCtx c x).gens = s.gens := rfl
@[simp] theorem State.setCtx_regions (s : State) (c : Nat) (x : Ctx) : (s.setCtx c x).regions = s.regions := rfl
@[simp] theorem State.setCtx_groups (s : State) (c : Nat) (x : Ctx) : (s.setCtx c x).groups = s.groups := rfl
@[simp] theorem State.setCtx_cores (s : State) (c : Nat) (x : Ctx) : (s.setCtx c x).cores = s.cores := rfl
@[simp] theorem State.setCtx_islands (s : State) (c : Nat) (x : Ctx) : (s.setCtx c x).islands = s.islands := rfl
@[simp] theorem State.setCtx_streamers (s : State) (c : Nat) (x : Ctx) : (s.setCtx c x).streamers = s.streamers := rfl
@[simp] theorem State.setCtx_expanders (s : State) (c : Nat) (x : Ctx) : (s.setCtx c x).expanders = s.expanders := rfl
@[simp] theorem State.setCtx_weirs (s : State) (c : Nat) (x : Ctx) : (s.setCtx c x).weirs = s.weirs := rfl
@[simp] theorem State.setCtx_servers (s : State) (c : Nat) (x : Ctx) : (s.setCtx c x).servers = s.servers := rfl
@[simp] theorem State.setCtx_ctxq (s : State) (c : Nat) (x : Ctx) : (s.setCtx c x).ctxq = s.ctxq := rfl
@[simp] theorem State.setCtx_barriers (s : State) (c : Nat) (x : Ctx) : (s.setCtx c x).barriers = s.barriers := rfl
@[simp] theorem State.setCtx_triggers (s : State) (c : Nat) (x : Ctx) : (s.setCtx c x).triggers = s.triggers := rfl
@[simp] theorem State.setCtx_queues (s : State) (c : Nat) (x : Ctx) : (s.setCtx c x).queues = s.queues := rfl
@[simp] theorem State.setCtx_qptr (s : State) (c : Nat) (x : Ctx) : (s.setCtx c x).qptr = s.qptr := rfl
@[simp] theorem State.setCtx_wells (s : State) (c : Nat) (x : Ctx) : (s.setCtx c x).wells = s.wells := rfl
@[simp] theorem State.setCtx_mem (s : State) (c : Nat) (x : Ctx) : (s.setCtx c x).mem = s.mem := rfl
@[simp] theorem State.setCtx_full (s : State) (c : Nat) (x : Ctx) : (s.setCtx c x).full = s.full := rfl
@[simp] theorem State.setCtx_deep (s : State) (c : Nat) (x : Ctx) : (s.setCtx c x).deep = s.deep := rfl
@[simp] theorem State.setCtx_host (s : State) (c : Nat) (x : Ctx) : (s.setCtx c x).host = s.host := rfl
@[simp] theorem State.setCtx_writeSeq (s : State) (c : Nat) (x : Ctx) : (s.setCtx c x).writeSeq = s.writeSeq := rfl
@[simp] theorem State.setCtx_dirty (s : State) (c : Nat) (x : Ctx) : (s.setCtx c x).dirty = s.dirty := rfl
@[simp] theorem State.setCtx_ltlb (s : State) (c : Nat) (x : Ctx) : (s.setCtx c x).ltlb = s.ltlb := rfl
@[simp] theorem State.setCtx_qtlb (s : State) (c : Nat) (x : Ctx) : (s.setCtx c x).qtlb = s.qtlb := rfl
@[simp] theorem State.setCtx_badWalks (s : State) (c : Nat) (x : Ctx) : (s.setCtx c x).badWalks = s.badWalks := rfl
@[simp] theorem State.setCtx_epochs (s : State) (c : Nat) (x : Ctx) : (s.setCtx c x).epochs = s.epochs := rfl
@[simp] theorem State.setCtx_shoots (s : State) (c : Nat) (x : Ctx) : (s.setCtx c x).shoots = s.shoots := rfl
@[simp] theorem State.setCtx_migrs (s : State) (c : Nat) (x : Ctx) : (s.setCtx c x).migrs = s.migrs := rfl
@[simp] theorem State.setCtx_rings (s : State) (c : Nat) (x : Ctx) : (s.setCtx c x).rings = s.rings := rfl
@[simp] theorem State.setCtx_spines (s : State) (c : Nat) (x : Ctx) : (s.setCtx c x).spines = s.spines := rfl
@[simp] theorem State.setCtx_s0fc (s : State) (c : Nat) (x : Ctx) : (s.setCtx c x).s0fc = s.s0fc := rfl
@[simp] theorem State.setCtx_s0frac (s : State) (c : Nat) (x : Ctx) : (s.setCtx c x).s0frac = s.s0frac := rfl
@[simp] theorem State.setCtx_hints (s : State) (c : Nat) (x : Ctx) : (s.setCtx c x).hints = s.hints := rfl
@[simp] theorem State.setCtx_hintReqs (s : State) (c : Nat) (x : Ctx) : (s.setCtx c x).hintReqs = s.hintReqs := rfl
@[simp] theorem State.setCtx_interval (s : State) (c : Nat) (x : Ctx) : (s.setCtx c x).interval = s.interval := rfl
@[simp] theorem State.setCtx_doses (s : State) (c : Nat) (x : Ctx) : (s.setCtx c x).doses = s.doses := rfl
@[simp] theorem State.setCtx_islDose (s : State) (c : Nat) (x : Ctx) : (s.setCtx c x).islDose = s.islDose := rfl
@[simp] theorem State.setCtx_tileDose (s : State) (c : Nat) (x : Ctx) : (s.setCtx c x).tileDose = s.tileDose := rfl
@[simp] theorem State.setCtx_undecl (s : State) (c : Nat) (x : Ctx) : (s.setCtx c x).undecl = s.undecl := rfl
@[simp] theorem State.setCtx_denied (s : State) (c : Nat) (x : Ctx) : (s.setCtx c x).denied = s.denied := rfl
@[simp] theorem State.setCtx_hdrops (s : State) (c : Nat) (x : Ctx) : (s.setCtx c x).hdrops = s.hdrops := rfl
@[simp] theorem State.setCtx_t1 (s : State) (c : Nat) (x : Ctx) : (s.setCtx c x).t1 = s.t1 := rfl
@[simp] theorem State.setCtx_t2 (s : State) (c : Nat) (x : Ctx) : (s.setCtx c x).t2 = s.t2 := rfl
@[simp] theorem State.setCtx_t3 (s : State) (c : Nat) (x : Ctx) : (s.setCtx c x).t3 = s.t3 := rfl
@[simp] theorem State.setCtx_slackK (s : State) (c : Nat) (x : Ctx) : (s.setCtx c x).slackK = s.slackK := rfl
@[simp] theorem State.setCtx_slackAt (s : State) (c : Nat) (x : Ctx) : (s.setCtx c x).slackAt = s.slackAt := rfl
@[simp] theorem State.setCtx_links (s : State) (c : Nat) (x : Ctx) : (s.setCtx c x).links = s.links := rfl
@[simp] theorem State.setCtx_routes (s : State) (c : Nat) (x : Ctx) : (s.setCtx c x).routes = s.routes := rfl
@[simp] theorem State.setCtx_msix (s : State) (c : Nat) (x : Ctx) : (s.setCtx c x).msix = s.msix := rfl
@[simp] theorem State.setCtx_sent (s : State) (c : Nat) (x : Ctx) : (s.setCtx c x).sent = s.sent := rfl
@[simp] theorem State.setCtx_remotes (s : State) (c : Nat) (x : Ctx) : (s.setCtx c x).remotes = s.remotes := rfl
@[simp] theorem State.setCtx_errlog (s : State) (c : Nat) (x : Ctx) : (s.setCtx c x).errlog = s.errlog := rfl
@[simp] theorem State.setCtx_nextId (s : State) (c : Nat) (x : Ctx) : (s.setCtx c x).nextId = s.nextId := rfl
@[simp] theorem State.setCtx_tile (s : State) (c : Nat) (x : Ctx) (j : Nat) : (s.setCtx c x).tile j = s.tile j := rfl
@[simp] theorem State.setCtx_core (s : State) (c : Nat) (x : Ctx) (j : Nat) : (s.setCtx c x).core j = s.core j := rfl
@[simp] theorem State.setCtx_island (s : State) (c : Nat) (x : Ctx) (j : Nat) : (s.setCtx c x).island j = s.island j := rfl
@[simp] theorem State.setCtx_queue (s : State) (c : Nat) (x : Ctx) (j : Nat) : (s.setCtx c x).queue j = s.queue j := rfl
@[simp] theorem State.setCtx_well (s : State) (c : Nat) (x : Ctx) (j : Nat) : (s.setCtx c x).well j = s.well j := rfl
@[simp] theorem State.setCtx_region (s : State) (c : Nat) (x : Ctx) (j : Nat) : (s.setCtx c x).region j = s.region j := rfl
@[simp] theorem State.setCtx_elem (s : State) (c : Nat) (x : Ctx) (i j : Nat) : (s.setCtx c x).elem i j = s.elem i j := rfl

/-! ### modCtx -/

@[simp] theorem State.modCtx_nstime (s : State) (c : Nat) (f : Ctx → Ctx) : (s.modCtx c f).nstime = s.nstime := rfl
@[simp] theorem State.modCtx_free (s : State) (c : Nat) (f : Ctx → Ctx) : (s.modCtx c f).free = s.free := rfl
@[simp] theorem State.modCtx_agenda (s : State) (c : Nat) (f : Ctx → Ctx) : (s.modCtx c f).agenda = s.agenda := rfl
@[simp] theorem State.modCtx_actor (s : State) (c : Nat) (f : Ctx → Ctx) : (s.modCtx c f).actor = s.actor := rfl
@[simp] theorem State.modCtx_powerOff (s : State) (c : Nat) (f : Ctx → Ctx) : (s.modCtx c f).powerOff = s.powerOff := rfl
@[simp] theorem State.modCtx_bootstat (s : State) (c : Nat) (f : Ctx → Ctx) : (s.modCtx c f).bootstat = s.bootstat := rfl
@[simp] theorem State.modCtx_fused (s : State) (c : Nat) (f : Ctx → Ctx) : (s.modCtx c f).fused = s.fused := rfl
@[simp] theorem State.modCtx_keys (s : State) (c : Nat) (f : Ctx → Ctx) : (s.modCtx c f).keys = s.keys := rfl
@[simp] theorem State.modCtx_meas (s : State) (c : Nat) (f : Ctx → Ctx) : (s.modCtx c f).meas = s.meas := rfl
@[simp] theorem State.modCtx_spdm (s : State) (c : Nat) (f : Ctx → Ctx) : (s.modCtx c f).spdm = s.spdm := rfl
@[simp] theorem State.modCtx_spdmLog (s : State) (c : Nat) (f : Ctx → Ctx) : (s.modCtx c f).spdmLog = s.spdmLog := rfl
@[simp] theorem State.modCtx_tiles (s : State) (c : Nat) (f : Ctx → Ctx) : (s.modCtx c f).tiles = s.tiles := rfl
@[simp] theorem State.modCtx_gens (s : State) (c : Nat) (f : Ctx → Ctx) : (s.modCtx c f).gens = s.gens := rfl
@[simp] theorem State.modCtx_regions (s : State) (c : Nat) (f : Ctx → Ctx) : (s.modCtx c f).regions = s.regions := rfl
@[simp] theorem State.modCtx_groups (s : State) (c : Nat) (f : Ctx → Ctx) : (s.modCtx c f).groups = s.groups := rfl
@[simp] theorem State.modCtx_cores (s : State) (c : Nat) (f : Ctx → Ctx) : (s.modCtx c f).cores = s.cores := rfl
@[simp] theorem State.modCtx_islands (s : State) (c : Nat) (f : Ctx → Ctx) : (s.modCtx c f).islands = s.islands := rfl
@[simp] theorem State.modCtx_streamers (s : State) (c : Nat) (f : Ctx → Ctx) : (s.modCtx c f).streamers = s.streamers := rfl
@[simp] theorem State.modCtx_expanders (s : State) (c : Nat) (f : Ctx → Ctx) : (s.modCtx c f).expanders = s.expanders := rfl
@[simp] theorem State.modCtx_weirs (s : State) (c : Nat) (f : Ctx → Ctx) : (s.modCtx c f).weirs = s.weirs := rfl
@[simp] theorem State.modCtx_servers (s : State) (c : Nat) (f : Ctx → Ctx) : (s.modCtx c f).servers = s.servers := rfl
@[simp] theorem State.modCtx_ctxq (s : State) (c : Nat) (f : Ctx → Ctx) : (s.modCtx c f).ctxq = s.ctxq := rfl
@[simp] theorem State.modCtx_barriers (s : State) (c : Nat) (f : Ctx → Ctx) : (s.modCtx c f).barriers = s.barriers := rfl
@[simp] theorem State.modCtx_triggers (s : State) (c : Nat) (f : Ctx → Ctx) : (s.modCtx c f).triggers = s.triggers := rfl
@[simp] theorem State.modCtx_queues (s : State) (c : Nat) (f : Ctx → Ctx) : (s.modCtx c f).queues = s.queues := rfl
@[simp] theorem State.modCtx_qptr (s : State) (c : Nat) (f : Ctx → Ctx) : (s.modCtx c f).qptr = s.qptr := rfl
@[simp] theorem State.modCtx_wells (s : State) (c : Nat) (f : Ctx → Ctx) : (s.modCtx c f).wells = s.wells := rfl
@[simp] theorem State.modCtx_mem (s : State) (c : Nat) (f : Ctx → Ctx) : (s.modCtx c f).mem = s.mem := rfl
@[simp] theorem State.modCtx_full (s : State) (c : Nat) (f : Ctx → Ctx) : (s.modCtx c f).full = s.full := rfl
@[simp] theorem State.modCtx_deep (s : State) (c : Nat) (f : Ctx → Ctx) : (s.modCtx c f).deep = s.deep := rfl
@[simp] theorem State.modCtx_host (s : State) (c : Nat) (f : Ctx → Ctx) : (s.modCtx c f).host = s.host := rfl
@[simp] theorem State.modCtx_writeSeq (s : State) (c : Nat) (f : Ctx → Ctx) : (s.modCtx c f).writeSeq = s.writeSeq := rfl
@[simp] theorem State.modCtx_dirty (s : State) (c : Nat) (f : Ctx → Ctx) : (s.modCtx c f).dirty = s.dirty := rfl
@[simp] theorem State.modCtx_ltlb (s : State) (c : Nat) (f : Ctx → Ctx) : (s.modCtx c f).ltlb = s.ltlb := rfl
@[simp] theorem State.modCtx_qtlb (s : State) (c : Nat) (f : Ctx → Ctx) : (s.modCtx c f).qtlb = s.qtlb := rfl
@[simp] theorem State.modCtx_badWalks (s : State) (c : Nat) (f : Ctx → Ctx) : (s.modCtx c f).badWalks = s.badWalks := rfl
@[simp] theorem State.modCtx_epochs (s : State) (c : Nat) (f : Ctx → Ctx) : (s.modCtx c f).epochs = s.epochs := rfl
@[simp] theorem State.modCtx_shoots (s : State) (c : Nat) (f : Ctx → Ctx) : (s.modCtx c f).shoots = s.shoots := rfl
@[simp] theorem State.modCtx_migrs (s : State) (c : Nat) (f : Ctx → Ctx) : (s.modCtx c f).migrs = s.migrs := rfl
@[simp] theorem State.modCtx_rings (s : State) (c : Nat) (f : Ctx → Ctx) : (s.modCtx c f).rings = s.rings := rfl
@[simp] theorem State.modCtx_spines (s : State) (c : Nat) (f : Ctx → Ctx) : (s.modCtx c f).spines = s.spines := rfl
@[simp] theorem State.modCtx_s0fc (s : State) (c : Nat) (f : Ctx → Ctx) : (s.modCtx c f).s0fc = s.s0fc := rfl
@[simp] theorem State.modCtx_s0frac (s : State) (c : Nat) (f : Ctx → Ctx) : (s.modCtx c f).s0frac = s.s0frac := rfl
@[simp] theorem State.modCtx_hints (s : State) (c : Nat) (f : Ctx → Ctx) : (s.modCtx c f).hints = s.hints := rfl
@[simp] theorem State.modCtx_hintReqs (s : State) (c : Nat) (f : Ctx → Ctx) : (s.modCtx c f).hintReqs = s.hintReqs := rfl
@[simp] theorem State.modCtx_interval (s : State) (c : Nat) (f : Ctx → Ctx) : (s.modCtx c f).interval = s.interval := rfl
@[simp] theorem State.modCtx_doses (s : State) (c : Nat) (f : Ctx → Ctx) : (s.modCtx c f).doses = s.doses := rfl
@[simp] theorem State.modCtx_islDose (s : State) (c : Nat) (f : Ctx → Ctx) : (s.modCtx c f).islDose = s.islDose := rfl
@[simp] theorem State.modCtx_tileDose (s : State) (c : Nat) (f : Ctx → Ctx) : (s.modCtx c f).tileDose = s.tileDose := rfl
@[simp] theorem State.modCtx_undecl (s : State) (c : Nat) (f : Ctx → Ctx) : (s.modCtx c f).undecl = s.undecl := rfl
@[simp] theorem State.modCtx_denied (s : State) (c : Nat) (f : Ctx → Ctx) : (s.modCtx c f).denied = s.denied := rfl
@[simp] theorem State.modCtx_hdrops (s : State) (c : Nat) (f : Ctx → Ctx) : (s.modCtx c f).hdrops = s.hdrops := rfl
@[simp] theorem State.modCtx_t1 (s : State) (c : Nat) (f : Ctx → Ctx) : (s.modCtx c f).t1 = s.t1 := rfl
@[simp] theorem State.modCtx_t2 (s : State) (c : Nat) (f : Ctx → Ctx) : (s.modCtx c f).t2 = s.t2 := rfl
@[simp] theorem State.modCtx_t3 (s : State) (c : Nat) (f : Ctx → Ctx) : (s.modCtx c f).t3 = s.t3 := rfl
@[simp] theorem State.modCtx_slackK (s : State) (c : Nat) (f : Ctx → Ctx) : (s.modCtx c f).slackK = s.slackK := rfl
@[simp] theorem State.modCtx_slackAt (s : State) (c : Nat) (f : Ctx → Ctx) : (s.modCtx c f).slackAt = s.slackAt := rfl
@[simp] theorem State.modCtx_links (s : State) (c : Nat) (f : Ctx → Ctx) : (s.modCtx c f).links = s.links := rfl
@[simp] theorem State.modCtx_routes (s : State) (c : Nat) (f : Ctx → Ctx) : (s.modCtx c f).routes = s.routes := rfl
@[simp] theorem State.modCtx_msix (s : State) (c : Nat) (f : Ctx → Ctx) : (s.modCtx c f).msix = s.msix := rfl
@[simp] theorem State.modCtx_sent (s : State) (c : Nat) (f : Ctx → Ctx) : (s.modCtx c f).sent = s.sent := rfl
@[simp] theorem State.modCtx_remotes (s : State) (c : Nat) (f : Ctx → Ctx) : (s.modCtx c f).remotes = s.remotes := rfl
@[simp] theorem State.modCtx_errlog (s : State) (c : Nat) (f : Ctx → Ctx) : (s.modCtx c f).errlog = s.errlog := rfl
@[simp] theorem State.modCtx_nextId (s : State) (c : Nat) (f : Ctx → Ctx) : (s.modCtx c f).nextId = s.nextId := rfl
@[simp] theorem State.modCtx_tile (s : State) (c : Nat) (f : Ctx → Ctx) (j : Nat) : (s.modCtx c f).tile j = s.tile j := rfl
@[simp] theorem State.modCtx_core (s : State) (c : Nat) (f : Ctx → Ctx) (j : Nat) : (s.modCtx c f).core j = s.core j := rfl
@[simp] theorem State.modCtx_island (s : State) (c : Nat) (f : Ctx → Ctx) (j : Nat) : (s.modCtx c f).island j = s.island j := rfl
@[simp] theorem State.modCtx_queue (s : State) (c : Nat) (f : Ctx → Ctx) (j : Nat) : (s.modCtx c f).queue j = s.queue j := rfl
@[simp] theorem State.modCtx_well (s : State) (c : Nat) (f : Ctx → Ctx) (j : Nat) : (s.modCtx c f).well j = s.well j := rfl
@[simp] theorem State.modCtx_region (s : State) (c : Nat) (f : Ctx → Ctx) (j : Nat) : (s.modCtx c f).region j = s.region j := rfl
@[simp] theorem State.modCtx_elem (s : State) (c : Nat) (f : Ctx → Ctx) (i j : Nat) : (s.modCtx c f).elem i j = s.elem i j := rfl

/-! ### setIsland -/

@[simp] theorem State.setIsland_nstime (s : State) (k : Nat) (x : Island) : (s.setIsland k x).nstime = s.nstime := rfl
@[simp] theorem State.setIsland_free (s : State) (k : Nat) (x : Island) : (s.setIsland k x).free = s.free := rfl
@[simp] theorem State.setIsland_agenda (s : State) (k : Nat) (x : Island) : (s.setIsland k x).agenda = s.agenda := rfl
@[simp] theorem State.setIsland_actor (s : State) (k : Nat) (x : Island) : (s.setIsland k x).actor = s.actor := rfl
@[simp] theorem State.setIsland_powerOff (s : State) (k : Nat) (x : Island) : (s.setIsland k x).powerOff = s.powerOff := rfl
@[simp] theorem State.setIsland_bootstat (s : State) (k : Nat) (x : Island) : (s.setIsland k x).bootstat = s.bootstat := rfl
@[simp] theorem State.setIsland_fused (s : State) (k : Nat) (x : Island) : (s.setIsland k x).fused = s.fused := rfl
@[simp] theorem State.setIsland_keys (s : State) (k : Nat) (x : Island) : (s.setIsland k x).keys = s.keys := rfl
@[simp] theorem State.setIsland_meas (s : State) (k : Nat) (x : Island) : (s.setIsland k x).meas = s.meas := rfl
@[simp] theorem State.setIsland_spdm (s : State) (k : Nat) (x : Island) : (s.setIsland k x).spdm = s.spdm := rfl
@[simp] theorem State.setIsland_spdmLog (s : State) (k : Nat) (x : Island) : (s.setIsland k x).spdmLog = s.spdmLog := rfl
@[simp] theorem State.setIsland_tiles (s : State) (k : Nat) (x : Island) : (s.setIsland k x).tiles = s.tiles := rfl
@[simp] theorem State.setIsland_gens (s : State) (k : Nat) (x : Island) : (s.setIsland k x).gens = s.gens := rfl
@[simp] theorem State.setIsland_regions (s : State) (k : Nat) (x : Island) : (s.setIsland k x).regions = s.regions := rfl
@[simp] theorem State.setIsland_groups (s : State) (k : Nat) (x : Island) : (s.setIsland k x).groups = s.groups := rfl
@[simp] theorem State.setIsland_cores (s : State) (k : Nat) (x : Island) : (s.setIsland k x).cores = s.cores := rfl
@[simp] theorem State.setIsland_streamers (s : State) (k : Nat) (x : Island) : (s.setIsland k x).streamers = s.streamers := rfl
@[simp] theorem State.setIsland_expanders (s : State) (k : Nat) (x : Island) : (s.setIsland k x).expanders = s.expanders := rfl
@[simp] theorem State.setIsland_weirs (s : State) (k : Nat) (x : Island) : (s.setIsland k x).weirs = s.weirs := rfl
@[simp] theorem State.setIsland_servers (s : State) (k : Nat) (x : Island) : (s.setIsland k x).servers = s.servers := rfl
@[simp] theorem State.setIsland_ctxs (s : State) (k : Nat) (x : Island) : (s.setIsland k x).ctxs = s.ctxs := rfl
@[simp] theorem State.setIsland_ctxq (s : State) (k : Nat) (x : Island) : (s.setIsland k x).ctxq = s.ctxq := rfl
@[simp] theorem State.setIsland_barriers (s : State) (k : Nat) (x : Island) : (s.setIsland k x).barriers = s.barriers := rfl
@[simp] theorem State.setIsland_triggers (s : State) (k : Nat) (x : Island) : (s.setIsland k x).triggers = s.triggers := rfl
@[simp] theorem State.setIsland_queues (s : State) (k : Nat) (x : Island) : (s.setIsland k x).queues = s.queues := rfl
@[simp] theorem State.setIsland_qptr (s : State) (k : Nat) (x : Island) : (s.setIsland k x).qptr = s.qptr := rfl
@[simp] theorem State.setIsland_wells (s : State) (k : Nat) (x : Island) : (s.setIsland k x).wells = s.wells := rfl
@[simp] theorem State.setIsland_mem (s : State) (k : Nat) (x : Island) : (s.setIsland k x).mem = s.mem := rfl
@[simp] theorem State.setIsland_full (s : State) (k : Nat) (x : Island) : (s.setIsland k x).full = s.full := rfl
@[simp] theorem State.setIsland_deep (s : State) (k : Nat) (x : Island) : (s.setIsland k x).deep = s.deep := rfl
@[simp] theorem State.setIsland_host (s : State) (k : Nat) (x : Island) : (s.setIsland k x).host = s.host := rfl
@[simp] theorem State.setIsland_writeSeq (s : State) (k : Nat) (x : Island) : (s.setIsland k x).writeSeq = s.writeSeq := rfl
@[simp] theorem State.setIsland_dirty (s : State) (k : Nat) (x : Island) : (s.setIsland k x).dirty = s.dirty := rfl
@[simp] theorem State.setIsland_ltlb (s : State) (k : Nat) (x : Island) : (s.setIsland k x).ltlb = s.ltlb := rfl
@[simp] theorem State.setIsland_qtlb (s : State) (k : Nat) (x : Island) : (s.setIsland k x).qtlb = s.qtlb := rfl
@[simp] theorem State.setIsland_badWalks (s : State) (k : Nat) (x : Island) : (s.setIsland k x).badWalks = s.badWalks := rfl
@[simp] theorem State.setIsland_epochs (s : State) (k : Nat) (x : Island) : (s.setIsland k x).epochs = s.epochs := rfl
@[simp] theorem State.setIsland_shoots (s : State) (k : Nat) (x : Island) : (s.setIsland k x).shoots = s.shoots := rfl
@[simp] theorem State.setIsland_migrs (s : State) (k : Nat) (x : Island) : (s.setIsland k x).migrs = s.migrs := rfl
@[simp] theorem State.setIsland_rings (s : State) (k : Nat) (x : Island) : (s.setIsland k x).rings = s.rings := rfl
@[simp] theorem State.setIsland_spines (s : State) (k : Nat) (x : Island) : (s.setIsland k x).spines = s.spines := rfl
@[simp] theorem State.setIsland_s0fc (s : State) (k : Nat) (x : Island) : (s.setIsland k x).s0fc = s.s0fc := rfl
@[simp] theorem State.setIsland_s0frac (s : State) (k : Nat) (x : Island) : (s.setIsland k x).s0frac = s.s0frac := rfl
@[simp] theorem State.setIsland_hints (s : State) (k : Nat) (x : Island) : (s.setIsland k x).hints = s.hints := rfl
@[simp] theorem State.setIsland_hintReqs (s : State) (k : Nat) (x : Island) : (s.setIsland k x).hintReqs = s.hintReqs := rfl
@[simp] theorem State.setIsland_interval (s : State) (k : Nat) (x : Island) : (s.setIsland k x).interval = s.interval := rfl
@[simp] theorem State.setIsland_doses (s : State) (k : Nat) (x : Island) : (s.setIsland k x).doses = s.doses := rfl
@[simp] theorem State.setIsland_islDose (s : State) (k : Nat) (x : Island) : (s.setIsland k x).islDose = s.islDose := rfl
@[simp] theorem State.setIsland_tileDose (s : State) (k : Nat) (x : Island) : (s.setIsland k x).tileDose = s.tileDose := rfl
@[simp] theorem State.setIsland_undecl (s : State) (k : Nat) (x : Island) : (s.setIsland k x).undecl = s.undecl := rfl
@[simp] theorem State.setIsland_denied (s : State) (k : Nat) (x : Island) : (s.setIsland k x).denied = s.denied := rfl
@[simp] theorem State.setIsland_hdrops (s : State) (k : Nat) (x : Island) : (s.setIsland k x).hdrops = s.hdrops := rfl
@[simp] theorem State.setIsland_t1 (s : State) (k : Nat) (x : Island) : (s.setIsland k x).t1 = s.t1 := rfl
@[simp] theorem State.setIsland_t2 (s : State) (k : Nat) (x : Island) : (s.setIsland k x).t2 = s.t2 := rfl
@[simp] theorem State.setIsland_t3 (s : State) (k : Nat) (x : Island) : (s.setIsland k x).t3 = s.t3 := rfl
@[simp] theorem State.setIsland_slackK (s : State) (k : Nat) (x : Island) : (s.setIsland k x).slackK = s.slackK := rfl
@[simp] theorem State.setIsland_slackAt (s : State) (k : Nat) (x : Island) : (s.setIsland k x).slackAt = s.slackAt := rfl
@[simp] theorem State.setIsland_links (s : State) (k : Nat) (x : Island) : (s.setIsland k x).links = s.links := rfl
@[simp] theorem State.setIsland_routes (s : State) (k : Nat) (x : Island) : (s.setIsland k x).routes = s.routes := rfl
@[simp] theorem State.setIsland_msix (s : State) (k : Nat) (x : Island) : (s.setIsland k x).msix = s.msix := rfl
@[simp] theorem State.setIsland_sent (s : State) (k : Nat) (x : Island) : (s.setIsland k x).sent = s.sent := rfl
@[simp] theorem State.setIsland_remotes (s : State) (k : Nat) (x : Island) : (s.setIsland k x).remotes = s.remotes := rfl
@[simp] theorem State.setIsland_errlog (s : State) (k : Nat) (x : Island) : (s.setIsland k x).errlog = s.errlog := rfl
@[simp] theorem State.setIsland_nextId (s : State) (k : Nat) (x : Island) : (s.setIsland k x).nextId = s.nextId := rfl
@[simp] theorem State.setIsland_tile (s : State) (k : Nat) (x : Island) (j : Nat) : (s.setIsland k x).tile j = s.tile j := rfl
@[simp] theorem State.setIsland_core (s : State) (k : Nat) (x : Island) (j : Nat) : (s.setIsland k x).core j = s.core j := rfl
@[simp] theorem State.setIsland_ctx (s : State) (k : Nat) (x : Island) (j : Nat) : (s.setIsland k x).ctx j = s.ctx j := rfl
@[simp] theorem State.setIsland_queue (s : State) (k : Nat) (x : Island) (j : Nat) : (s.setIsland k x).queue j = s.queue j := rfl
@[simp] theorem State.setIsland_well (s : State) (k : Nat) (x : Island) (j : Nat) : (s.setIsland k x).well j = s.well j := rfl
@[simp] theorem State.setIsland_region (s : State) (k : Nat) (x : Island) (j : Nat) : (s.setIsland k x).region j = s.region j := rfl
@[simp] theorem State.setIsland_elem (s : State) (k : Nat) (x : Island) (i j : Nat) : (s.setIsland k x).elem i j = s.elem i j := rfl

/-! ### modIsland -/

@[simp] theorem State.modIsland_nstime (s : State) (k : Nat) (f : Island → Island) : (s.modIsland k f).nstime = s.nstime := rfl
@[simp] theorem State.modIsland_free (s : State) (k : Nat) (f : Island → Island) : (s.modIsland k f).free = s.free := rfl
@[simp] theorem State.modIsland_agenda (s : State) (k : Nat) (f : Island → Island) : (s.modIsland k f).agenda = s.agenda := rfl
@[simp] theorem State.modIsland_actor (s : State) (k : Nat) (f : Island → Island) : (s.modIsland k f).actor = s.actor := rfl
@[simp] theorem State.modIsland_powerOff (s : State) (k : Nat) (f : Island → Island) : (s.modIsland k f).powerOff = s.powerOff := rfl
@[simp] theorem State.modIsland_bootstat (s : State) (k : Nat) (f : Island → Island) : (s.modIsland k f).bootstat = s.bootstat := rfl
@[simp] theorem State.modIsland_fused (s : State) (k : Nat) (f : Island → Island) : (s.modIsland k f).fused = s.fused := rfl
@[simp] theorem State.modIsland_keys (s : State) (k : Nat) (f : Island → Island) : (s.modIsland k f).keys = s.keys := rfl
@[simp] theorem State.modIsland_meas (s : State) (k : Nat) (f : Island → Island) : (s.modIsland k f).meas = s.meas := rfl
@[simp] theorem State.modIsland_spdm (s : State) (k : Nat) (f : Island → Island) : (s.modIsland k f).spdm = s.spdm := rfl
@[simp] theorem State.modIsland_spdmLog (s : State) (k : Nat) (f : Island → Island) : (s.modIsland k f).spdmLog = s.spdmLog := rfl
@[simp] theorem State.modIsland_tiles (s : State) (k : Nat) (f : Island → Island) : (s.modIsland k f).tiles = s.tiles := rfl
@[simp] theorem State.modIsland_gens (s : State) (k : Nat) (f : Island → Island) : (s.modIsland k f).gens = s.gens := rfl
@[simp] theorem State.modIsland_regions (s : State) (k : Nat) (f : Island → Island) : (s.modIsland k f).regions = s.regions := rfl
@[simp] theorem State.modIsland_groups (s : State) (k : Nat) (f : Island → Island) : (s.modIsland k f).groups = s.groups := rfl
@[simp] theorem State.modIsland_cores (s : State) (k : Nat) (f : Island → Island) : (s.modIsland k f).cores = s.cores := rfl
@[simp] theorem State.modIsland_streamers (s : State) (k : Nat) (f : Island → Island) : (s.modIsland k f).streamers = s.streamers := rfl
@[simp] theorem State.modIsland_expanders (s : State) (k : Nat) (f : Island → Island) : (s.modIsland k f).expanders = s.expanders := rfl
@[simp] theorem State.modIsland_weirs (s : State) (k : Nat) (f : Island → Island) : (s.modIsland k f).weirs = s.weirs := rfl
@[simp] theorem State.modIsland_servers (s : State) (k : Nat) (f : Island → Island) : (s.modIsland k f).servers = s.servers := rfl
@[simp] theorem State.modIsland_ctxs (s : State) (k : Nat) (f : Island → Island) : (s.modIsland k f).ctxs = s.ctxs := rfl
@[simp] theorem State.modIsland_ctxq (s : State) (k : Nat) (f : Island → Island) : (s.modIsland k f).ctxq = s.ctxq := rfl
@[simp] theorem State.modIsland_barriers (s : State) (k : Nat) (f : Island → Island) : (s.modIsland k f).barriers = s.barriers := rfl
@[simp] theorem State.modIsland_triggers (s : State) (k : Nat) (f : Island → Island) : (s.modIsland k f).triggers = s.triggers := rfl
@[simp] theorem State.modIsland_queues (s : State) (k : Nat) (f : Island → Island) : (s.modIsland k f).queues = s.queues := rfl
@[simp] theorem State.modIsland_qptr (s : State) (k : Nat) (f : Island → Island) : (s.modIsland k f).qptr = s.qptr := rfl
@[simp] theorem State.modIsland_wells (s : State) (k : Nat) (f : Island → Island) : (s.modIsland k f).wells = s.wells := rfl
@[simp] theorem State.modIsland_mem (s : State) (k : Nat) (f : Island → Island) : (s.modIsland k f).mem = s.mem := rfl
@[simp] theorem State.modIsland_full (s : State) (k : Nat) (f : Island → Island) : (s.modIsland k f).full = s.full := rfl
@[simp] theorem State.modIsland_deep (s : State) (k : Nat) (f : Island → Island) : (s.modIsland k f).deep = s.deep := rfl
@[simp] theorem State.modIsland_host (s : State) (k : Nat) (f : Island → Island) : (s.modIsland k f).host = s.host := rfl
@[simp] theorem State.modIsland_writeSeq (s : State) (k : Nat) (f : Island → Island) : (s.modIsland k f).writeSeq = s.writeSeq := rfl
@[simp] theorem State.modIsland_dirty (s : State) (k : Nat) (f : Island → Island) : (s.modIsland k f).dirty = s.dirty := rfl
@[simp] theorem State.modIsland_ltlb (s : State) (k : Nat) (f : Island → Island) : (s.modIsland k f).ltlb = s.ltlb := rfl
@[simp] theorem State.modIsland_qtlb (s : State) (k : Nat) (f : Island → Island) : (s.modIsland k f).qtlb = s.qtlb := rfl
@[simp] theorem State.modIsland_badWalks (s : State) (k : Nat) (f : Island → Island) : (s.modIsland k f).badWalks = s.badWalks := rfl
@[simp] theorem State.modIsland_epochs (s : State) (k : Nat) (f : Island → Island) : (s.modIsland k f).epochs = s.epochs := rfl
@[simp] theorem State.modIsland_shoots (s : State) (k : Nat) (f : Island → Island) : (s.modIsland k f).shoots = s.shoots := rfl
@[simp] theorem State.modIsland_migrs (s : State) (k : Nat) (f : Island → Island) : (s.modIsland k f).migrs = s.migrs := rfl
@[simp] theorem State.modIsland_rings (s : State) (k : Nat) (f : Island → Island) : (s.modIsland k f).rings = s.rings := rfl
@[simp] theorem State.modIsland_spines (s : State) (k : Nat) (f : Island → Island) : (s.modIsland k f).spines = s.spines := rfl
@[simp] theorem State.modIsland_s0fc (s : State) (k : Nat) (f : Island → Island) : (s.modIsland k f).s0fc = s.s0fc := rfl
@[simp] theorem State.modIsland_s0frac (s : State) (k : Nat) (f : Island → Island) : (s.modIsland k f).s0frac = s.s0frac := rfl
@[simp] theorem State.modIsland_hints (s : State) (k : Nat) (f : Island → Island) : (s.modIsland k f).hints = s.hints := rfl
@[simp] theorem State.modIsland_hintReqs (s : State) (k : Nat) (f : Island → Island) : (s.modIsland k f).hintReqs = s.hintReqs := rfl
@[simp] theorem State.modIsland_interval (s : State) (k : Nat) (f : Island → Island) : (s.modIsland k f).interval = s.interval := rfl
@[simp] theorem State.modIsland_doses (s : State) (k : Nat) (f : Island → Island) : (s.modIsland k f).doses = s.doses := rfl
@[simp] theorem State.modIsland_islDose (s : State) (k : Nat) (f : Island → Island) : (s.modIsland k f).islDose = s.islDose := rfl
@[simp] theorem State.modIsland_tileDose (s : State) (k : Nat) (f : Island → Island) : (s.modIsland k f).tileDose = s.tileDose := rfl
@[simp] theorem State.modIsland_undecl (s : State) (k : Nat) (f : Island → Island) : (s.modIsland k f).undecl = s.undecl := rfl
@[simp] theorem State.modIsland_denied (s : State) (k : Nat) (f : Island → Island) : (s.modIsland k f).denied = s.denied := rfl
@[simp] theorem State.modIsland_hdrops (s : State) (k : Nat) (f : Island → Island) : (s.modIsland k f).hdrops = s.hdrops := rfl
@[simp] theorem State.modIsland_t1 (s : State) (k : Nat) (f : Island → Island) : (s.modIsland k f).t1 = s.t1 := rfl
@[simp] theorem State.modIsland_t2 (s : State) (k : Nat) (f : Island → Island) : (s.modIsland k f).t2 = s.t2 := rfl
@[simp] theorem State.modIsland_t3 (s : State) (k : Nat) (f : Island → Island) : (s.modIsland k f).t3 = s.t3 := rfl
@[simp] theorem State.modIsland_slackK (s : State) (k : Nat) (f : Island → Island) : (s.modIsland k f).slackK = s.slackK := rfl
@[simp] theorem State.modIsland_slackAt (s : State) (k : Nat) (f : Island → Island) : (s.modIsland k f).slackAt = s.slackAt := rfl
@[simp] theorem State.modIsland_links (s : State) (k : Nat) (f : Island → Island) : (s.modIsland k f).links = s.links := rfl
@[simp] theorem State.modIsland_routes (s : State) (k : Nat) (f : Island → Island) : (s.modIsland k f).routes = s.routes := rfl
@[simp] theorem State.modIsland_msix (s : State) (k : Nat) (f : Island → Island) : (s.modIsland k f).msix = s.msix := rfl
@[simp] theorem State.modIsland_sent (s : State) (k : Nat) (f : Island → Island) : (s.modIsland k f).sent = s.sent := rfl
@[simp] theorem State.modIsland_remotes (s : State) (k : Nat) (f : Island → Island) : (s.modIsland k f).remotes = s.remotes := rfl
@[simp] theorem State.modIsland_errlog (s : State) (k : Nat) (f : Island → Island) : (s.modIsland k f).errlog = s.errlog := rfl
@[simp] theorem State.modIsland_nextId (s : State) (k : Nat) (f : Island → Island) : (s.modIsland k f).nextId = s.nextId := rfl
@[simp] theorem State.modIsland_tile (s : State) (k : Nat) (f : Island → Island) (j : Nat) : (s.modIsland k f).tile j = s.tile j := rfl
@[simp] theorem State.modIsland_core (s : State) (k : Nat) (f : Island → Island) (j : Nat) : (s.modIsland k f).core j = s.core j := rfl
@[simp] theorem State.modIsland_ctx (s : State) (k : Nat) (f : Island → Island) (j : Nat) : (s.modIsland k f).ctx j = s.ctx j := rfl
@[simp] theorem State.modIsland_queue (s : State) (k : Nat) (f : Island → Island) (j : Nat) : (s.modIsland k f).queue j = s.queue j := rfl
@[simp] theorem State.modIsland_well (s : State) (k : Nat) (f : Island → Island) (j : Nat) : (s.modIsland k f).well j = s.well j := rfl
@[simp] theorem State.modIsland_region (s : State) (k : Nat) (f : Island → Island) (j : Nat) : (s.modIsland k f).region j = s.region j := rfl
@[simp] theorem State.modIsland_elem (s : State) (k : Nat) (f : Island → Island) (i j : Nat) : (s.modIsland k f).elem i j = s.elem i j := rfl

/-! ### setQueue -/

@[simp] theorem State.setQueue_nstime (s : State) (q : Nat) (x : Queue) : (s.setQueue q x).nstime = s.nstime := rfl
@[simp] theorem State.setQueue_free (s : State) (q : Nat) (x : Queue) : (s.setQueue q x).free = s.free := rfl
@[simp] theorem State.setQueue_agenda (s : State) (q : Nat) (x : Queue) : (s.setQueue q x).agenda = s.agenda := rfl
@[simp] theorem State.setQueue_actor (s : State) (q : Nat) (x : Queue) : (s.setQueue q x).actor = s.actor := rfl
@[simp] theorem State.setQueue_powerOff (s : State) (q : Nat) (x : Queue) : (s.setQueue q x).powerOff = s.powerOff := rfl
@[simp] theorem State.setQueue_bootstat (s : State) (q : Nat) (x : Queue) : (s.setQueue q x).bootstat = s.bootstat := rfl
@[simp] theorem State.setQueue_fused (s : State) (q : Nat) (x : Queue) : (s.setQueue q x).fused = s.fused := rfl
@[simp] theorem State.setQueue_keys (s : State) (q : Nat) (x : Queue) : (s.setQueue q x).keys = s.keys := rfl
@[simp] theorem State.setQueue_meas (s : State) (q : Nat) (x : Queue) : (s.setQueue q x).meas = s.meas := rfl
@[simp] theorem State.setQueue_spdm (s : State) (q : Nat) (x : Queue) : (s.setQueue q x).spdm = s.spdm := rfl
@[simp] theorem State.setQueue_spdmLog (s : State) (q : Nat) (x : Queue) : (s.setQueue q x).spdmLog = s.spdmLog := rfl
@[simp] theorem State.setQueue_tiles (s : State) (q : Nat) (x : Queue) : (s.setQueue q x).tiles = s.tiles := rfl
@[simp] theorem State.setQueue_gens (s : State) (q : Nat) (x : Queue) : (s.setQueue q x).gens = s.gens := rfl
@[simp] theorem State.setQueue_regions (s : State) (q : Nat) (x : Queue) : (s.setQueue q x).regions = s.regions := rfl
@[simp] theorem State.setQueue_groups (s : State) (q : Nat) (x : Queue) : (s.setQueue q x).groups = s.groups := rfl
@[simp] theorem State.setQueue_cores (s : State) (q : Nat) (x : Queue) : (s.setQueue q x).cores = s.cores := rfl
@[simp] theorem State.setQueue_islands (s : State) (q : Nat) (x : Queue) : (s.setQueue q x).islands = s.islands := rfl
@[simp] theorem State.setQueue_streamers (s : State) (q : Nat) (x : Queue) : (s.setQueue q x).streamers = s.streamers := rfl
@[simp] theorem State.setQueue_expanders (s : State) (q : Nat) (x : Queue) : (s.setQueue q x).expanders = s.expanders := rfl
@[simp] theorem State.setQueue_weirs (s : State) (q : Nat) (x : Queue) : (s.setQueue q x).weirs = s.weirs := rfl
@[simp] theorem State.setQueue_servers (s : State) (q : Nat) (x : Queue) : (s.setQueue q x).servers = s.servers := rfl
@[simp] theorem State.setQueue_ctxs (s : State) (q : Nat) (x : Queue) : (s.setQueue q x).ctxs = s.ctxs := rfl
@[simp] theorem State.setQueue_ctxq (s : State) (q : Nat) (x : Queue) : (s.setQueue q x).ctxq = s.ctxq := rfl
@[simp] theorem State.setQueue_barriers (s : State) (q : Nat) (x : Queue) : (s.setQueue q x).barriers = s.barriers := rfl
@[simp] theorem State.setQueue_triggers (s : State) (q : Nat) (x : Queue) : (s.setQueue q x).triggers = s.triggers := rfl
@[simp] theorem State.setQueue_qptr (s : State) (q : Nat) (x : Queue) : (s.setQueue q x).qptr = s.qptr := rfl
@[simp] theorem State.setQueue_wells (s : State) (q : Nat) (x : Queue) : (s.setQueue q x).wells = s.wells := rfl
@[simp] theorem State.setQueue_mem (s : State) (q : Nat) (x : Queue) : (s.setQueue q x).mem = s.mem := rfl
@[simp] theorem State.setQueue_full (s : State) (q : Nat) (x : Queue) : (s.setQueue q x).full = s.full := rfl
@[simp] theorem State.setQueue_deep (s : State) (q : Nat) (x : Queue) : (s.setQueue q x).deep = s.deep := rfl
@[simp] theorem State.setQueue_host (s : State) (q : Nat) (x : Queue) : (s.setQueue q x).host = s.host := rfl
@[simp] theorem State.setQueue_writeSeq (s : State) (q : Nat) (x : Queue) : (s.setQueue q x).writeSeq = s.writeSeq := rfl
@[simp] theorem State.setQueue_dirty (s : State) (q : Nat) (x : Queue) : (s.setQueue q x).dirty = s.dirty := rfl
@[simp] theorem State.setQueue_ltlb (s : State) (q : Nat) (x : Queue) : (s.setQueue q x).ltlb = s.ltlb := rfl
@[simp] theorem State.setQueue_qtlb (s : State) (q : Nat) (x : Queue) : (s.setQueue q x).qtlb = s.qtlb := rfl
@[simp] theorem State.setQueue_badWalks (s : State) (q : Nat) (x : Queue) : (s.setQueue q x).badWalks = s.badWalks := rfl
@[simp] theorem State.setQueue_epochs (s : State) (q : Nat) (x : Queue) : (s.setQueue q x).epochs = s.epochs := rfl
@[simp] theorem State.setQueue_shoots (s : State) (q : Nat) (x : Queue) : (s.setQueue q x).shoots = s.shoots := rfl
@[simp] theorem State.setQueue_migrs (s : State) (q : Nat) (x : Queue) : (s.setQueue q x).migrs = s.migrs := rfl
@[simp] theorem State.setQueue_rings (s : State) (q : Nat) (x : Queue) : (s.setQueue q x).rings = s.rings := rfl
@[simp] theorem State.setQueue_spines (s : State) (q : Nat) (x : Queue) : (s.setQueue q x).spines = s.spines := rfl
@[simp] theorem State.setQueue_s0fc (s : State) (q : Nat) (x : Queue) : (s.setQueue q x).s0fc = s.s0fc := rfl
@[simp] theorem State.setQueue_s0frac (s : State) (q : Nat) (x : Queue) : (s.setQueue q x).s0frac = s.s0frac := rfl
@[simp] theorem State.setQueue_hints (s : State) (q : Nat) (x : Queue) : (s.setQueue q x).hints = s.hints := rfl
@[simp] theorem State.setQueue_hintReqs (s : State) (q : Nat) (x : Queue) : (s.setQueue q x).hintReqs = s.hintReqs := rfl
@[simp] theorem State.setQueue_interval (s : State) (q : Nat) (x : Queue) : (s.setQueue q x).interval = s.interval := rfl
@[simp] theorem State.setQueue_doses (s : State) (q : Nat) (x : Queue) : (s.setQueue q x).doses = s.doses := rfl
@[simp] theorem State.setQueue_islDose (s : State) (q : Nat) (x : Queue) : (s.setQueue q x).islDose = s.islDose := rfl
@[simp] theorem State.setQueue_tileDose (s : State) (q : Nat) (x : Queue) : (s.setQueue q x).tileDose = s.tileDose := rfl
@[simp] theorem State.setQueue_undecl (s : State) (q : Nat) (x : Queue) : (s.setQueue q x).undecl = s.undecl := rfl
@[simp] theorem State.setQueue_denied (s : State) (q : Nat) (x : Queue) : (s.setQueue q x).denied = s.denied := rfl
@[simp] theorem State.setQueue_hdrops (s : State) (q : Nat) (x : Queue) : (s.setQueue q x).hdrops = s.hdrops := rfl
@[simp] theorem State.setQueue_t1 (s : State) (q : Nat) (x : Queue) : (s.setQueue q x).t1 = s.t1 := rfl
@[simp] theorem State.setQueue_t2 (s : State) (q : Nat) (x : Queue) : (s.setQueue q x).t2 = s.t2 := rfl
@[simp] theorem State.setQueue_t3 (s : State) (q : Nat) (x : Queue) : (s.setQueue q x).t3 = s.t3 := rfl
@[simp] theorem State.setQueue_slackK (s : State) (q : Nat) (x : Queue) : (s.setQueue q x).slackK = s.slackK := rfl
@[simp] theorem State.setQueue_slackAt (s : State) (q : Nat) (x : Queue) : (s.setQueue q x).slackAt = s.slackAt := rfl
@[simp] theorem State.setQueue_links (s : State) (q : Nat) (x : Queue) : (s.setQueue q x).links = s.links := rfl
@[simp] theorem State.setQueue_routes (s : State) (q : Nat) (x : Queue) : (s.setQueue q x).routes = s.routes := rfl
@[simp] theorem State.setQueue_msix (s : State) (q : Nat) (x : Queue) : (s.setQueue q x).msix = s.msix := rfl
@[simp] theorem State.setQueue_sent (s : State) (q : Nat) (x : Queue) : (s.setQueue q x).sent = s.sent := rfl
@[simp] theorem State.setQueue_remotes (s : State) (q : Nat) (x : Queue) : (s.setQueue q x).remotes = s.remotes := rfl
@[simp] theorem State.setQueue_errlog (s : State) (q : Nat) (x : Queue) : (s.setQueue q x).errlog = s.errlog := rfl
@[simp] theorem State.setQueue_nextId (s : State) (q : Nat) (x : Queue) : (s.setQueue q x).nextId = s.nextId := rfl
@[simp] theorem State.setQueue_tile (s : State) (q : Nat) (x : Queue) (j : Nat) : (s.setQueue q x).tile j = s.tile j := rfl
@[simp] theorem State.setQueue_core (s : State) (q : Nat) (x : Queue) (j : Nat) : (s.setQueue q x).core j = s.core j := rfl
@[simp] theorem State.setQueue_ctx (s : State) (q : Nat) (x : Queue) (j : Nat) : (s.setQueue q x).ctx j = s.ctx j := rfl
@[simp] theorem State.setQueue_island (s : State) (q : Nat) (x : Queue) (j : Nat) : (s.setQueue q x).island j = s.island j := rfl
@[simp] theorem State.setQueue_well (s : State) (q : Nat) (x : Queue) (j : Nat) : (s.setQueue q x).well j = s.well j := rfl
@[simp] theorem State.setQueue_region (s : State) (q : Nat) (x : Queue) (j : Nat) : (s.setQueue q x).region j = s.region j := rfl
@[simp] theorem State.setQueue_elem (s : State) (q : Nat) (x : Queue) (i j : Nat) : (s.setQueue q x).elem i j = s.elem i j := rfl

/-! ### modQueue -/

@[simp] theorem State.modQueue_nstime (s : State) (q : Nat) (f : Queue → Queue) : (s.modQueue q f).nstime = s.nstime := rfl
@[simp] theorem State.modQueue_free (s : State) (q : Nat) (f : Queue → Queue) : (s.modQueue q f).free = s.free := rfl
@[simp] theorem State.modQueue_agenda (s : State) (q : Nat) (f : Queue → Queue) : (s.modQueue q f).agenda = s.agenda := rfl
@[simp] theorem State.modQueue_actor (s : State) (q : Nat) (f : Queue → Queue) : (s.modQueue q f).actor = s.actor := rfl
@[simp] theorem State.modQueue_powerOff (s : State) (q : Nat) (f : Queue → Queue) : (s.modQueue q f).powerOff = s.powerOff := rfl
@[simp] theorem State.modQueue_bootstat (s : State) (q : Nat) (f : Queue → Queue) : (s.modQueue q f).bootstat = s.bootstat := rfl
@[simp] theorem State.modQueue_fused (s : State) (q : Nat) (f : Queue → Queue) : (s.modQueue q f).fused = s.fused := rfl
@[simp] theorem State.modQueue_keys (s : State) (q : Nat) (f : Queue → Queue) : (s.modQueue q f).keys = s.keys := rfl
@[simp] theorem State.modQueue_meas (s : State) (q : Nat) (f : Queue → Queue) : (s.modQueue q f).meas = s.meas := rfl
@[simp] theorem State.modQueue_spdm (s : State) (q : Nat) (f : Queue → Queue) : (s.modQueue q f).spdm = s.spdm := rfl
@[simp] theorem State.modQueue_spdmLog (s : State) (q : Nat) (f : Queue → Queue) : (s.modQueue q f).spdmLog = s.spdmLog := rfl
@[simp] theorem State.modQueue_tiles (s : State) (q : Nat) (f : Queue → Queue) : (s.modQueue q f).tiles = s.tiles := rfl
@[simp] theorem State.modQueue_gens (s : State) (q : Nat) (f : Queue → Queue) : (s.modQueue q f).gens = s.gens := rfl
@[simp] theorem State.modQueue_regions (s : State) (q : Nat) (f : Queue → Queue) : (s.modQueue q f).regions = s.regions := rfl
@[simp] theorem State.modQueue_groups (s : State) (q : Nat) (f : Queue → Queue) : (s.modQueue q f).groups = s.groups := rfl
@[simp] theorem State.modQueue_cores (s : State) (q : Nat) (f : Queue → Queue) : (s.modQueue q f).cores = s.cores := rfl
@[simp] theorem State.modQueue_islands (s : State) (q : Nat) (f : Queue → Queue) : (s.modQueue q f).islands = s.islands := rfl
@[simp] theorem State.modQueue_streamers (s : State) (q : Nat) (f : Queue → Queue) : (s.modQueue q f).streamers = s.streamers := rfl
@[simp] theorem State.modQueue_expanders (s : State) (q : Nat) (f : Queue → Queue) : (s.modQueue q f).expanders = s.expanders := rfl
@[simp] theorem State.modQueue_weirs (s : State) (q : Nat) (f : Queue → Queue) : (s.modQueue q f).weirs = s.weirs := rfl
@[simp] theorem State.modQueue_servers (s : State) (q : Nat) (f : Queue → Queue) : (s.modQueue q f).servers = s.servers := rfl
@[simp] theorem State.modQueue_ctxs (s : State) (q : Nat) (f : Queue → Queue) : (s.modQueue q f).ctxs = s.ctxs := rfl
@[simp] theorem State.modQueue_ctxq (s : State) (q : Nat) (f : Queue → Queue) : (s.modQueue q f).ctxq = s.ctxq := rfl
@[simp] theorem State.modQueue_barriers (s : State) (q : Nat) (f : Queue → Queue) : (s.modQueue q f).barriers = s.barriers := rfl
@[simp] theorem State.modQueue_triggers (s : State) (q : Nat) (f : Queue → Queue) : (s.modQueue q f).triggers = s.triggers := rfl
@[simp] theorem State.modQueue_qptr (s : State) (q : Nat) (f : Queue → Queue) : (s.modQueue q f).qptr = s.qptr := rfl
@[simp] theorem State.modQueue_wells (s : State) (q : Nat) (f : Queue → Queue) : (s.modQueue q f).wells = s.wells := rfl
@[simp] theorem State.modQueue_mem (s : State) (q : Nat) (f : Queue → Queue) : (s.modQueue q f).mem = s.mem := rfl
@[simp] theorem State.modQueue_full (s : State) (q : Nat) (f : Queue → Queue) : (s.modQueue q f).full = s.full := rfl
@[simp] theorem State.modQueue_deep (s : State) (q : Nat) (f : Queue → Queue) : (s.modQueue q f).deep = s.deep := rfl
@[simp] theorem State.modQueue_host (s : State) (q : Nat) (f : Queue → Queue) : (s.modQueue q f).host = s.host := rfl
@[simp] theorem State.modQueue_writeSeq (s : State) (q : Nat) (f : Queue → Queue) : (s.modQueue q f).writeSeq = s.writeSeq := rfl
@[simp] theorem State.modQueue_dirty (s : State) (q : Nat) (f : Queue → Queue) : (s.modQueue q f).dirty = s.dirty := rfl
@[simp] theorem State.modQueue_ltlb (s : State) (q : Nat) (f : Queue → Queue) : (s.modQueue q f).ltlb = s.ltlb := rfl
@[simp] theorem State.modQueue_qtlb (s : State) (q : Nat) (f : Queue → Queue) : (s.modQueue q f).qtlb = s.qtlb := rfl
@[simp] theorem State.modQueue_badWalks (s : State) (q : Nat) (f : Queue → Queue) : (s.modQueue q f).badWalks = s.badWalks := rfl
@[simp] theorem State.modQueue_epochs (s : State) (q : Nat) (f : Queue → Queue) : (s.modQueue q f).epochs = s.epochs := rfl
@[simp] theorem State.modQueue_shoots (s : State) (q : Nat) (f : Queue → Queue) : (s.modQueue q f).shoots = s.shoots := rfl
@[simp] theorem State.modQueue_migrs (s : State) (q : Nat) (f : Queue → Queue) : (s.modQueue q f).migrs = s.migrs := rfl
@[simp] theorem State.modQueue_rings (s : State) (q : Nat) (f : Queue → Queue) : (s.modQueue q f).rings = s.rings := rfl
@[simp] theorem State.modQueue_spines (s : State) (q : Nat) (f : Queue → Queue) : (s.modQueue q f).spines = s.spines := rfl
@[simp] theorem State.modQueue_s0fc (s : State) (q : Nat) (f : Queue → Queue) : (s.modQueue q f).s0fc = s.s0fc := rfl
@[simp] theorem State.modQueue_s0frac (s : State) (q : Nat) (f : Queue → Queue) : (s.modQueue q f).s0frac = s.s0frac := rfl
@[simp] theorem State.modQueue_hints (s : State) (q : Nat) (f : Queue → Queue) : (s.modQueue q f).hints = s.hints := rfl
@[simp] theorem State.modQueue_hintReqs (s : State) (q : Nat) (f : Queue → Queue) : (s.modQueue q f).hintReqs = s.hintReqs := rfl
@[simp] theorem State.modQueue_interval (s : State) (q : Nat) (f : Queue → Queue) : (s.modQueue q f).interval = s.interval := rfl
@[simp] theorem State.modQueue_doses (s : State) (q : Nat) (f : Queue → Queue) : (s.modQueue q f).doses = s.doses := rfl
@[simp] theorem State.modQueue_islDose (s : State) (q : Nat) (f : Queue → Queue) : (s.modQueue q f).islDose = s.islDose := rfl
@[simp] theorem State.modQueue_tileDose (s : State) (q : Nat) (f : Queue → Queue) : (s.modQueue q f).tileDose = s.tileDose := rfl
@[simp] theorem State.modQueue_undecl (s : State) (q : Nat) (f : Queue → Queue) : (s.modQueue q f).undecl = s.undecl := rfl
@[simp] theorem State.modQueue_denied (s : State) (q : Nat) (f : Queue → Queue) : (s.modQueue q f).denied = s.denied := rfl
@[simp] theorem State.modQueue_hdrops (s : State) (q : Nat) (f : Queue → Queue) : (s.modQueue q f).hdrops = s.hdrops := rfl
@[simp] theorem State.modQueue_t1 (s : State) (q : Nat) (f : Queue → Queue) : (s.modQueue q f).t1 = s.t1 := rfl
@[simp] theorem State.modQueue_t2 (s : State) (q : Nat) (f : Queue → Queue) : (s.modQueue q f).t2 = s.t2 := rfl
@[simp] theorem State.modQueue_t3 (s : State) (q : Nat) (f : Queue → Queue) : (s.modQueue q f).t3 = s.t3 := rfl
@[simp] theorem State.modQueue_slackK (s : State) (q : Nat) (f : Queue → Queue) : (s.modQueue q f).slackK = s.slackK := rfl
@[simp] theorem State.modQueue_slackAt (s : State) (q : Nat) (f : Queue → Queue) : (s.modQueue q f).slackAt = s.slackAt := rfl
@[simp] theorem State.modQueue_links (s : State) (q : Nat) (f : Queue → Queue) : (s.modQueue q f).links = s.links := rfl
@[simp] theorem State.modQueue_routes (s : State) (q : Nat) (f : Queue → Queue) : (s.modQueue q f).routes = s.routes := rfl
@[simp] theorem State.modQueue_msix (s : State) (q : Nat) (f : Queue → Queue) : (s.modQueue q f).msix = s.msix := rfl
@[simp] theorem State.modQueue_sent (s : State) (q : Nat) (f : Queue → Queue) : (s.modQueue q f).sent = s.sent := rfl
@[simp] theorem State.modQueue_remotes (s : State) (q : Nat) (f : Queue → Queue) : (s.modQueue q f).remotes = s.remotes := rfl
@[simp] theorem State.modQueue_errlog (s : State) (q : Nat) (f : Queue → Queue) : (s.modQueue q f).errlog = s.errlog := rfl
@[simp] theorem State.modQueue_nextId (s : State) (q : Nat) (f : Queue → Queue) : (s.modQueue q f).nextId = s.nextId := rfl
@[simp] theorem State.modQueue_tile (s : State) (q : Nat) (f : Queue → Queue) (j : Nat) : (s.modQueue q f).tile j = s.tile j := rfl
@[simp] theorem State.modQueue_core (s : State) (q : Nat) (f : Queue → Queue) (j : Nat) : (s.modQueue q f).core j = s.core j := rfl
@[simp] theorem State.modQueue_ctx (s : State) (q : Nat) (f : Queue → Queue) (j : Nat) : (s.modQueue q f).ctx j = s.ctx j := rfl
@[simp] theorem State.modQueue_island (s : State) (q : Nat) (f : Queue → Queue) (j : Nat) : (s.modQueue q f).island j = s.island j := rfl
@[simp] theorem State.modQueue_well (s : State) (q : Nat) (f : Queue → Queue) (j : Nat) : (s.modQueue q f).well j = s.well j := rfl
@[simp] theorem State.modQueue_region (s : State) (q : Nat) (f : Queue → Queue) (j : Nat) : (s.modQueue q f).region j = s.region j := rfl
@[simp] theorem State.modQueue_elem (s : State) (q : Nat) (f : Queue → Queue) (i j : Nat) : (s.modQueue q f).elem i j = s.elem i j := rfl

/-! ### setWell -/

@[simp] theorem State.setWell_nstime (s : State) (w : Nat) (x : Well) : (s.setWell w x).nstime = s.nstime := rfl
@[simp] theorem State.setWell_free (s : State) (w : Nat) (x : Well) : (s.setWell w x).free = s.free := rfl
@[simp] theorem State.setWell_agenda (s : State) (w : Nat) (x : Well) : (s.setWell w x).agenda = s.agenda := rfl
@[simp] theorem State.setWell_actor (s : State) (w : Nat) (x : Well) : (s.setWell w x).actor = s.actor := rfl
@[simp] theorem State.setWell_powerOff (s : State) (w : Nat) (x : Well) : (s.setWell w x).powerOff = s.powerOff := rfl
@[simp] theorem State.setWell_bootstat (s : State) (w : Nat) (x : Well) : (s.setWell w x).bootstat = s.bootstat := rfl
@[simp] theorem State.setWell_fused (s : State) (w : Nat) (x : Well) : (s.setWell w x).fused = s.fused := rfl
@[simp] theorem State.setWell_keys (s : State) (w : Nat) (x : Well) : (s.setWell w x).keys = s.keys := rfl
@[simp] theorem State.setWell_meas (s : State) (w : Nat) (x : Well) : (s.setWell w x).meas = s.meas := rfl
@[simp] theorem State.setWell_spdm (s : State) (w : Nat) (x : Well) : (s.setWell w x).spdm = s.spdm := rfl
@[simp] theorem State.setWell_spdmLog (s : State) (w : Nat) (x : Well) : (s.setWell w x).spdmLog = s.spdmLog := rfl
@[simp] theorem State.setWell_tiles (s : State) (w : Nat) (x : Well) : (s.setWell w x).tiles = s.tiles := rfl
@[simp] theorem State.setWell_gens (s : State) (w : Nat) (x : Well) : (s.setWell w x).gens = s.gens := rfl
@[simp] theorem State.setWell_regions (s : State) (w : Nat) (x : Well) : (s.setWell w x).regions = s.regions := rfl
@[simp] theorem State.setWell_groups (s : State) (w : Nat) (x : Well) : (s.setWell w x).groups = s.groups := rfl
@[simp] theorem State.setWell_cores (s : State) (w : Nat) (x : Well) : (s.setWell w x).cores = s.cores := rfl
@[simp] theorem State.setWell_islands (s : State) (w : Nat) (x : Well) : (s.setWell w x).islands = s.islands := rfl
@[simp] theorem State.setWell_streamers (s : State) (w : Nat) (x : Well) : (s.setWell w x).streamers = s.streamers := rfl
@[simp] theorem State.setWell_expanders (s : State) (w : Nat) (x : Well) : (s.setWell w x).expanders = s.expanders := rfl
@[simp] theorem State.setWell_weirs (s : State) (w : Nat) (x : Well) : (s.setWell w x).weirs = s.weirs := rfl
@[simp] theorem State.setWell_servers (s : State) (w : Nat) (x : Well) : (s.setWell w x).servers = s.servers := rfl
@[simp] theorem State.setWell_ctxs (s : State) (w : Nat) (x : Well) : (s.setWell w x).ctxs = s.ctxs := rfl
@[simp] theorem State.setWell_ctxq (s : State) (w : Nat) (x : Well) : (s.setWell w x).ctxq = s.ctxq := rfl
@[simp] theorem State.setWell_barriers (s : State) (w : Nat) (x : Well) : (s.setWell w x).barriers = s.barriers := rfl
@[simp] theorem State.setWell_triggers (s : State) (w : Nat) (x : Well) : (s.setWell w x).triggers = s.triggers := rfl
@[simp] theorem State.setWell_queues (s : State) (w : Nat) (x : Well) : (s.setWell w x).queues = s.queues := rfl
@[simp] theorem State.setWell_qptr (s : State) (w : Nat) (x : Well) : (s.setWell w x).qptr = s.qptr := rfl
@[simp] theorem State.setWell_mem (s : State) (w : Nat) (x : Well) : (s.setWell w x).mem = s.mem := rfl
@[simp] theorem State.setWell_full (s : State) (w : Nat) (x : Well) : (s.setWell w x).full = s.full := rfl
@[simp] theorem State.setWell_deep (s : State) (w : Nat) (x : Well) : (s.setWell w x).deep = s.deep := rfl
@[simp] theorem State.setWell_host (s : State) (w : Nat) (x : Well) : (s.setWell w x).host = s.host := rfl
@[simp] theorem State.setWell_writeSeq (s : State) (w : Nat) (x : Well) : (s.setWell w x).writeSeq = s.writeSeq := rfl
@[simp] theorem State.setWell_dirty (s : State) (w : Nat) (x : Well) : (s.setWell w x).dirty = s.dirty := rfl
@[simp] theorem State.setWell_ltlb (s : State) (w : Nat) (x : Well) : (s.setWell w x).ltlb = s.ltlb := rfl
@[simp] theorem State.setWell_qtlb (s : State) (w : Nat) (x : Well) : (s.setWell w x).qtlb = s.qtlb := rfl
@[simp] theorem State.setWell_badWalks (s : State) (w : Nat) (x : Well) : (s.setWell w x).badWalks = s.badWalks := rfl
@[simp] theorem State.setWell_epochs (s : State) (w : Nat) (x : Well) : (s.setWell w x).epochs = s.epochs := rfl
@[simp] theorem State.setWell_shoots (s : State) (w : Nat) (x : Well) : (s.setWell w x).shoots = s.shoots := rfl
@[simp] theorem State.setWell_migrs (s : State) (w : Nat) (x : Well) : (s.setWell w x).migrs = s.migrs := rfl
@[simp] theorem State.setWell_rings (s : State) (w : Nat) (x : Well) : (s.setWell w x).rings = s.rings := rfl
@[simp] theorem State.setWell_spines (s : State) (w : Nat) (x : Well) : (s.setWell w x).spines = s.spines := rfl
@[simp] theorem State.setWell_s0fc (s : State) (w : Nat) (x : Well) : (s.setWell w x).s0fc = s.s0fc := rfl
@[simp] theorem State.setWell_s0frac (s : State) (w : Nat) (x : Well) : (s.setWell w x).s0frac = s.s0frac := rfl
@[simp] theorem State.setWell_hints (s : State) (w : Nat) (x : Well) : (s.setWell w x).hints = s.hints := rfl
@[simp] theorem State.setWell_hintReqs (s : State) (w : Nat) (x : Well) : (s.setWell w x).hintReqs = s.hintReqs := rfl
@[simp] theorem State.setWell_interval (s : State) (w : Nat) (x : Well) : (s.setWell w x).interval = s.interval := rfl
@[simp] theorem State.setWell_doses (s : State) (w : Nat) (x : Well) : (s.setWell w x).doses = s.doses := rfl
@[simp] theorem State.setWell_islDose (s : State) (w : Nat) (x : Well) : (s.setWell w x).islDose = s.islDose := rfl
@[simp] theorem State.setWell_tileDose (s : State) (w : Nat) (x : Well) : (s.setWell w x).tileDose = s.tileDose := rfl
@[simp] theorem State.setWell_undecl (s : State) (w : Nat) (x : Well) : (s.setWell w x).undecl = s.undecl := rfl
@[simp] theorem State.setWell_denied (s : State) (w : Nat) (x : Well) : (s.setWell w x).denied = s.denied := rfl
@[simp] theorem State.setWell_hdrops (s : State) (w : Nat) (x : Well) : (s.setWell w x).hdrops = s.hdrops := rfl
@[simp] theorem State.setWell_t1 (s : State) (w : Nat) (x : Well) : (s.setWell w x).t1 = s.t1 := rfl
@[simp] theorem State.setWell_t2 (s : State) (w : Nat) (x : Well) : (s.setWell w x).t2 = s.t2 := rfl
@[simp] theorem State.setWell_t3 (s : State) (w : Nat) (x : Well) : (s.setWell w x).t3 = s.t3 := rfl
@[simp] theorem State.setWell_slackK (s : State) (w : Nat) (x : Well) : (s.setWell w x).slackK = s.slackK := rfl
@[simp] theorem State.setWell_slackAt (s : State) (w : Nat) (x : Well) : (s.setWell w x).slackAt = s.slackAt := rfl
@[simp] theorem State.setWell_links (s : State) (w : Nat) (x : Well) : (s.setWell w x).links = s.links := rfl
@[simp] theorem State.setWell_routes (s : State) (w : Nat) (x : Well) : (s.setWell w x).routes = s.routes := rfl
@[simp] theorem State.setWell_msix (s : State) (w : Nat) (x : Well) : (s.setWell w x).msix = s.msix := rfl
@[simp] theorem State.setWell_sent (s : State) (w : Nat) (x : Well) : (s.setWell w x).sent = s.sent := rfl
@[simp] theorem State.setWell_remotes (s : State) (w : Nat) (x : Well) : (s.setWell w x).remotes = s.remotes := rfl
@[simp] theorem State.setWell_errlog (s : State) (w : Nat) (x : Well) : (s.setWell w x).errlog = s.errlog := rfl
@[simp] theorem State.setWell_nextId (s : State) (w : Nat) (x : Well) : (s.setWell w x).nextId = s.nextId := rfl
@[simp] theorem State.setWell_tile (s : State) (w : Nat) (x : Well) (j : Nat) : (s.setWell w x).tile j = s.tile j := rfl
@[simp] theorem State.setWell_core (s : State) (w : Nat) (x : Well) (j : Nat) : (s.setWell w x).core j = s.core j := rfl
@[simp] theorem State.setWell_ctx (s : State) (w : Nat) (x : Well) (j : Nat) : (s.setWell w x).ctx j = s.ctx j := rfl
@[simp] theorem State.setWell_island (s : State) (w : Nat) (x : Well) (j : Nat) : (s.setWell w x).island j = s.island j := rfl
@[simp] theorem State.setWell_queue (s : State) (w : Nat) (x : Well) (j : Nat) : (s.setWell w x).queue j = s.queue j := rfl
@[simp] theorem State.setWell_region (s : State) (w : Nat) (x : Well) (j : Nat) : (s.setWell w x).region j = s.region j := rfl
@[simp] theorem State.setWell_elem (s : State) (w : Nat) (x : Well) (i j : Nat) : (s.setWell w x).elem i j = s.elem i j := rfl

/-! ### modWell -/

@[simp] theorem State.modWell_nstime (s : State) (w : Nat) (f : Well → Well) : (s.modWell w f).nstime = s.nstime := rfl
@[simp] theorem State.modWell_free (s : State) (w : Nat) (f : Well → Well) : (s.modWell w f).free = s.free := rfl
@[simp] theorem State.modWell_agenda (s : State) (w : Nat) (f : Well → Well) : (s.modWell w f).agenda = s.agenda := rfl
@[simp] theorem State.modWell_actor (s : State) (w : Nat) (f : Well → Well) : (s.modWell w f).actor = s.actor := rfl
@[simp] theorem State.modWell_powerOff (s : State) (w : Nat) (f : Well → Well) : (s.modWell w f).powerOff = s.powerOff := rfl
@[simp] theorem State.modWell_bootstat (s : State) (w : Nat) (f : Well → Well) : (s.modWell w f).bootstat = s.bootstat := rfl
@[simp] theorem State.modWell_fused (s : State) (w : Nat) (f : Well → Well) : (s.modWell w f).fused = s.fused := rfl
@[simp] theorem State.modWell_keys (s : State) (w : Nat) (f : Well → Well) : (s.modWell w f).keys = s.keys := rfl
@[simp] theorem State.modWell_meas (s : State) (w : Nat) (f : Well → Well) : (s.modWell w f).meas = s.meas := rfl
@[simp] theorem State.modWell_spdm (s : State) (w : Nat) (f : Well → Well) : (s.modWell w f).spdm = s.spdm := rfl
@[simp] theorem State.modWell_spdmLog (s : State) (w : Nat) (f : Well → Well) : (s.modWell w f).spdmLog = s.spdmLog := rfl
@[simp] theorem State.modWell_tiles (s : State) (w : Nat) (f : Well → Well) : (s.modWell w f).tiles = s.tiles := rfl
@[simp] theorem State.modWell_gens (s : State) (w : Nat) (f : Well → Well) : (s.modWell w f).gens = s.gens := rfl
@[simp] theorem State.modWell_regions (s : State) (w : Nat) (f : Well → Well) : (s.modWell w f).regions = s.regions := rfl
@[simp] theorem State.modWell_groups (s : State) (w : Nat) (f : Well → Well) : (s.modWell w f).groups = s.groups := rfl
@[simp] theorem State.modWell_cores (s : State) (w : Nat) (f : Well → Well) : (s.modWell w f).cores = s.cores := rfl
@[simp] theorem State.modWell_islands (s : State) (w : Nat) (f : Well → Well) : (s.modWell w f).islands = s.islands := rfl
@[simp] theorem State.modWell_streamers (s : State) (w : Nat) (f : Well → Well) : (s.modWell w f).streamers = s.streamers := rfl
@[simp] theorem State.modWell_expanders (s : State) (w : Nat) (f : Well → Well) : (s.modWell w f).expanders = s.expanders := rfl
@[simp] theorem State.modWell_weirs (s : State) (w : Nat) (f : Well → Well) : (s.modWell w f).weirs = s.weirs := rfl
@[simp] theorem State.modWell_servers (s : State) (w : Nat) (f : Well → Well) : (s.modWell w f).servers = s.servers := rfl
@[simp] theorem State.modWell_ctxs (s : State) (w : Nat) (f : Well → Well) : (s.modWell w f).ctxs = s.ctxs := rfl
@[simp] theorem State.modWell_ctxq (s : State) (w : Nat) (f : Well → Well) : (s.modWell w f).ctxq = s.ctxq := rfl
@[simp] theorem State.modWell_barriers (s : State) (w : Nat) (f : Well → Well) : (s.modWell w f).barriers = s.barriers := rfl
@[simp] theorem State.modWell_triggers (s : State) (w : Nat) (f : Well → Well) : (s.modWell w f).triggers = s.triggers := rfl
@[simp] theorem State.modWell_queues (s : State) (w : Nat) (f : Well → Well) : (s.modWell w f).queues = s.queues := rfl
@[simp] theorem State.modWell_qptr (s : State) (w : Nat) (f : Well → Well) : (s.modWell w f).qptr = s.qptr := rfl
@[simp] theorem State.modWell_mem (s : State) (w : Nat) (f : Well → Well) : (s.modWell w f).mem = s.mem := rfl
@[simp] theorem State.modWell_full (s : State) (w : Nat) (f : Well → Well) : (s.modWell w f).full = s.full := rfl
@[simp] theorem State.modWell_deep (s : State) (w : Nat) (f : Well → Well) : (s.modWell w f).deep = s.deep := rfl
@[simp] theorem State.modWell_host (s : State) (w : Nat) (f : Well → Well) : (s.modWell w f).host = s.host := rfl
@[simp] theorem State.modWell_writeSeq (s : State) (w : Nat) (f : Well → Well) : (s.modWell w f).writeSeq = s.writeSeq := rfl
@[simp] theorem State.modWell_dirty (s : State) (w : Nat) (f : Well → Well) : (s.modWell w f).dirty = s.dirty := rfl
@[simp] theorem State.modWell_ltlb (s : State) (w : Nat) (f : Well → Well) : (s.modWell w f).ltlb = s.ltlb := rfl
@[simp] theorem State.modWell_qtlb (s : State) (w : Nat) (f : Well → Well) : (s.modWell w f).qtlb = s.qtlb := rfl
@[simp] theorem State.modWell_badWalks (s : State) (w : Nat) (f : Well → Well) : (s.modWell w f).badWalks = s.badWalks := rfl
@[simp] theorem State.modWell_epochs (s : State) (w : Nat) (f : Well → Well) : (s.modWell w f).epochs = s.epochs := rfl
@[simp] theorem State.modWell_shoots (s : State) (w : Nat) (f : Well → Well) : (s.modWell w f).shoots = s.shoots := rfl
@[simp] theorem State.modWell_migrs (s : State) (w : Nat) (f : Well → Well) : (s.modWell w f).migrs = s.migrs := rfl
@[simp] theorem State.modWell_rings (s : State) (w : Nat) (f : Well → Well) : (s.modWell w f).rings = s.rings := rfl
@[simp] theorem State.modWell_spines (s : State) (w : Nat) (f : Well → Well) : (s.modWell w f).spines = s.spines := rfl
@[simp] theorem State.modWell_s0fc (s : State) (w : Nat) (f : Well → Well) : (s.modWell w f).s0fc = s.s0fc := rfl
@[simp] theorem State.modWell_s0frac (s : State) (w : Nat) (f : Well → Well) : (s.modWell w f).s0frac = s.s0frac := rfl
@[simp] theorem State.modWell_hints (s : State) (w : Nat) (f : Well → Well) : (s.modWell w f).hints = s.hints := rfl
@[simp] theorem State.modWell_hintReqs (s : State) (w : Nat) (f : Well → Well) : (s.modWell w f).hintReqs = s.hintReqs := rfl
@[simp] theorem State.modWell_interval (s : State) (w : Nat) (f : Well → Well) : (s.modWell w f).interval = s.interval := rfl
@[simp] theorem State.modWell_doses (s : State) (w : Nat) (f : Well → Well) : (s.modWell w f).doses = s.doses := rfl
@[simp] theorem State.modWell_islDose (s : State) (w : Nat) (f : Well → Well) : (s.modWell w f).islDose = s.islDose := rfl
@[simp] theorem State.modWell_tileDose (s : State) (w : Nat) (f : Well → Well) : (s.modWell w f).tileDose = s.tileDose := rfl
@[simp] theorem State.modWell_undecl (s : State) (w : Nat) (f : Well → Well) : (s.modWell w f).undecl = s.undecl := rfl
@[simp] theorem State.modWell_denied (s : State) (w : Nat) (f : Well → Well) : (s.modWell w f).denied = s.denied := rfl
@[simp] theorem State.modWell_hdrops (s : State) (w : Nat) (f : Well → Well) : (s.modWell w f).hdrops = s.hdrops := rfl
@[simp] theorem State.modWell_t1 (s : State) (w : Nat) (f : Well → Well) : (s.modWell w f).t1 = s.t1 := rfl
@[simp] theorem State.modWell_t2 (s : State) (w : Nat) (f : Well → Well) : (s.modWell w f).t2 = s.t2 := rfl
@[simp] theorem State.modWell_t3 (s : State) (w : Nat) (f : Well → Well) : (s.modWell w f).t3 = s.t3 := rfl
@[simp] theorem State.modWell_slackK (s : State) (w : Nat) (f : Well → Well) : (s.modWell w f).slackK = s.slackK := rfl
@[simp] theorem State.modWell_slackAt (s : State) (w : Nat) (f : Well → Well) : (s.modWell w f).slackAt = s.slackAt := rfl
@[simp] theorem State.modWell_links (s : State) (w : Nat) (f : Well → Well) : (s.modWell w f).links = s.links := rfl
@[simp] theorem State.modWell_routes (s : State) (w : Nat) (f : Well → Well) : (s.modWell w f).routes = s.routes := rfl
@[simp] theorem State.modWell_msix (s : State) (w : Nat) (f : Well → Well) : (s.modWell w f).msix = s.msix := rfl
@[simp] theorem State.modWell_sent (s : State) (w : Nat) (f : Well → Well) : (s.modWell w f).sent = s.sent := rfl
@[simp] theorem State.modWell_remotes (s : State) (w : Nat) (f : Well → Well) : (s.modWell w f).remotes = s.remotes := rfl
@[simp] theorem State.modWell_errlog (s : State) (w : Nat) (f : Well → Well) : (s.modWell w f).errlog = s.errlog := rfl
@[simp] theorem State.modWell_nextId (s : State) (w : Nat) (f : Well → Well) : (s.modWell w f).nextId = s.nextId := rfl
@[simp] theorem State.modWell_tile (s : State) (w : Nat) (f : Well → Well) (j : Nat) : (s.modWell w f).tile j = s.tile j := rfl
@[simp] theorem State.modWell_core (s : State) (w : Nat) (f : Well → Well) (j : Nat) : (s.modWell w f).core j = s.core j := rfl
@[simp] theorem State.modWell_ctx (s : State) (w : Nat) (f : Well → Well) (j : Nat) : (s.modWell w f).ctx j = s.ctx j := rfl
@[simp] theorem State.modWell_island (s : State) (w : Nat) (f : Well → Well) (j : Nat) : (s.modWell w f).island j = s.island j := rfl
@[simp] theorem State.modWell_queue (s : State) (w : Nat) (f : Well → Well) (j : Nat) : (s.modWell w f).queue j = s.queue j := rfl
@[simp] theorem State.modWell_region (s : State) (w : Nat) (f : Well → Well) (j : Nat) : (s.modWell w f).region j = s.region j := rfl
@[simp] theorem State.modWell_elem (s : State) (w : Nat) (f : Well → Well) (i j : Nat) : (s.modWell w f).elem i j = s.elem i j := rfl

/-! ### The part named: tile -/

theorem State.tile_setTile (s : State) (k j : Nat) (x : Tile) : (s.setTile k x).tile j = if j = k then x else s.tile j :=
  kget_kput _ _ _ _ _
@[simp] theorem State.tile_setTile_same (s : State) (k : Nat) (x : Tile) : (s.setTile k x).tile k = x := kget_kput_same _ _ _ _
theorem State.tile_setTile_other (s : State) {k j : Nat} (x : Tile) (h : j ≠ k) : (s.setTile k x).tile j = s.tile j :=
  kget_kput_other _ _ _ h
@[simp] theorem State.tile_modTile_same (s : State) (k : Nat) (f : Tile → Tile) : (s.modTile k f).tile k = f (s.tile k) :=
  kget_kput_same _ _ _ _
theorem State.tile_modTile_other (s : State) {k j : Nat} (f : Tile → Tile) (h : j ≠ k) : (s.modTile k f).tile j = s.tile j :=
  kget_kput_other _ _ _ h
theorem State.tile_modTile (s : State) (k j : Nat) (f : Tile → Tile) :
    (s.modTile k f).tile j = if j = k then f (s.tile k) else s.tile j := kget_kput _ _ _ _ _

/-! ### The part named: core -/

theorem State.core_setCore (s : State) (k j : Nat) (x : Core) : (s.setCore k x).core j = if j = k then x else s.core j :=
  kget_kput _ _ _ _ _
@[simp] theorem State.core_setCore_same (s : State) (k : Nat) (x : Core) : (s.setCore k x).core k = x := kget_kput_same _ _ _ _
theorem State.core_setCore_other (s : State) {k j : Nat} (x : Core) (h : j ≠ k) : (s.setCore k x).core j = s.core j :=
  kget_kput_other _ _ _ h
@[simp] theorem State.core_modCore_same (s : State) (k : Nat) (f : Core → Core) : (s.modCore k f).core k = f (s.core k) :=
  kget_kput_same _ _ _ _
theorem State.core_modCore_other (s : State) {k j : Nat} (f : Core → Core) (h : j ≠ k) : (s.modCore k f).core j = s.core j :=
  kget_kput_other _ _ _ h
theorem State.core_modCore (s : State) (k j : Nat) (f : Core → Core) :
    (s.modCore k f).core j = if j = k then f (s.core k) else s.core j := kget_kput _ _ _ _ _

/-! ### The part named: ctx -/

theorem State.ctx_setCtx (s : State) (k j : Nat) (x : Ctx) : (s.setCtx k x).ctx j = if j = k then x else s.ctx j :=
  kget_kput _ _ _ _ _
@[simp] theorem State.ctx_setCtx_same (s : State) (k : Nat) (x : Ctx) : (s.setCtx k x).ctx k = x := kget_kput_same _ _ _ _
theorem State.ctx_setCtx_other (s : State) {k j : Nat} (x : Ctx) (h : j ≠ k) : (s.setCtx k x).ctx j = s.ctx j :=
  kget_kput_other _ _ _ h
@[simp] theorem State.ctx_modCtx_same (s : State) (k : Nat) (f : Ctx → Ctx) : (s.modCtx k f).ctx k = f (s.ctx k) :=
  kget_kput_same _ _ _ _
theorem State.ctx_modCtx_other (s : State) {k j : Nat} (f : Ctx → Ctx) (h : j ≠ k) : (s.modCtx k f).ctx j = s.ctx j :=
  kget_kput_other _ _ _ h
theorem State.ctx_modCtx (s : State) (k j : Nat) (f : Ctx → Ctx) :
    (s.modCtx k f).ctx j = if j = k then f (s.ctx k) else s.ctx j := kget_kput _ _ _ _ _

/-! ### The part named: island -/

theorem State.island_setIsland (s : State) (k j : Nat) (x : Island) : (s.setIsland k x).island j = if j = k then x else s.island j :=
  kget_kput _ _ _ _ _
@[simp] theorem State.island_setIsland_same (s : State) (k : Nat) (x : Island) : (s.setIsland k x).island k = x := kget_kput_same _ _ _ _
theorem State.island_setIsland_other (s : State) {k j : Nat} (x : Island) (h : j ≠ k) : (s.setIsland k x).island j = s.island j :=
  kget_kput_other _ _ _ h
@[simp] theorem State.island_modIsland_same (s : State) (k : Nat) (f : Island → Island) : (s.modIsland k f).island k = f (s.island k) :=
  kget_kput_same _ _ _ _
theorem State.island_modIsland_other (s : State) {k j : Nat} (f : Island → Island) (h : j ≠ k) : (s.modIsland k f).island j = s.island j :=
  kget_kput_other _ _ _ h
theorem State.island_modIsland (s : State) (k j : Nat) (f : Island → Island) :
    (s.modIsland k f).island j = if j = k then f (s.island k) else s.island j := kget_kput _ _ _ _ _

/-! ### The part named: queue -/

theorem State.queue_setQueue (s : State) (k j : Nat) (x : Queue) : (s.setQueue k x).queue j = if j = k then x else s.queue j :=
  kget_kput _ _ _ _ _
@[simp] theorem State.queue_setQueue_same (s : State) (k : Nat) (x : Queue) : (s.setQueue k x).queue k = x := kget_kput_same _ _ _ _
theorem State.queue_setQueue_other (s : State) {k j : Nat} (x : Queue) (h : j ≠ k) : (s.setQueue k x).queue j = s.queue j :=
  kget_kput_other _ _ _ h
@[simp] theorem State.queue_modQueue_same (s : State) (k : Nat) (f : Queue → Queue) : (s.modQueue k f).queue k = f (s.queue k) :=
  kget_kput_same _ _ _ _
theorem State.queue_modQueue_other (s : State) {k j : Nat} (f : Queue → Queue) (h : j ≠ k) : (s.modQueue k f).queue j = s.queue j :=
  kget_kput_other _ _ _ h
theorem State.queue_modQueue (s : State) (k j : Nat) (f : Queue → Queue) :
    (s.modQueue k f).queue j = if j = k then f (s.queue k) else s.queue j := kget_kput _ _ _ _ _

/-! ### The part named: well -/

theorem State.well_setWell (s : State) (k j : Nat) (x : Well) : (s.setWell k x).well j = if j = k then x else s.well j :=
  kget_kput _ _ _ _ _
@[simp] theorem State.well_setWell_same (s : State) (k : Nat) (x : Well) : (s.setWell k x).well k = x := kget_kput_same _ _ _ _
theorem State.well_setWell_other (s : State) {k j : Nat} (x : Well) (h : j ≠ k) : (s.setWell k x).well j = s.well j :=
  kget_kput_other _ _ _ h
@[simp] theorem State.well_modWell_same (s : State) (k : Nat) (f : Well → Well) : (s.modWell k f).well k = f (s.well k) :=
  kget_kput_same _ _ _ _
theorem State.well_modWell_other (s : State) {k j : Nat} (f : Well → Well) (h : j ≠ k) : (s.modWell k f).well j = s.well j :=
  kget_kput_other _ _ _ h
theorem State.well_modWell (s : State) (k j : Nat) (f : Well → Well) :
    (s.modWell k f).well j = if j = k then f (s.well k) else s.well j := kget_kput _ _ _ _ _

/-! ### Regions -/

theorem State.region_setRegion (s : State) (k j : Nat) (x : Region) :
    (s.setRegion k x).region j = if j = k then some x else s.region j := kfind_kput _ _ _ _
theorem State.region_modRegion (s : State) (k j : Nat) (f : Region → Region) :
    (s.modRegion k f).region j = if j = k then (s.region j).map f else s.region j := kfind_kmod _ _ _ _

/-! ### Elements -/

@[simp] theorem Tile.elem_setElem_same (x : Tile) (e : Nat) (y : Elem) : (x.setElem e y).elem e = y :=
  kget_kput_same _ _ _ _
theorem Tile.elem_setElem_other (x : Tile) {e j : Nat} (y : Elem) (h : j ≠ e) : (x.setElem e y).elem j = x.elem j :=
  kget_kput_other _ _ _ h
@[simp] theorem Tile.setElem_core (x : Tile) (e : Nat) (y : Elem) : (x.setElem e y).core = x.core := rfl
@[simp] theorem Tile.setElem_balance (x : Tile) (e : Nat) (y : Elem) : (x.setElem e y).balance = x.balance := rfl
@[simp] theorem Tile.setElem_echg (x : Tile) (e : Nat) (y : Elem) : (x.setElem e y).echg = x.echg := rfl
@[simp] theorem Tile.setElem_cistern (x : Tile) (e : Nat) (y : Elem) : (x.setElem e y).cistern = x.cistern := rfl
@[simp] theorem Tile.setElem_rounds (x : Tile) (e : Nat) (y : Elem) : (x.setElem e y).rounds = x.rounds := rfl

theorem State.elem_eq (s : State) (t e : Nat) : s.elem t e = (s.tile t).elem e := rfl
@[simp] theorem State.elem_setElem_same (s : State) (t e : Nat) (y : Elem) : (s.setElem t e y).elem t e = y := by
  simp [State.elem, State.setElem]
@[simp] theorem State.elem_modElem_same (s : State) (t e : Nat) (f : Elem → Elem) :
    (s.modElem t e f).elem t e = f (s.elem t e) := by
  simp [State.modElem]
theorem State.elem_setElem_other (s : State) {t e u j : Nat} (y : Elem) (h : u ≠ t ∨ j ≠ e) :
    (s.setElem t e y).elem u j = s.elem u j := by
  by_cases hu : u = t
  · subst hu
    simp [State.elem, State.setElem, Tile.elem_setElem_other _ _ (show j ≠ e by tauto)]
  · simp [State.elem, State.setElem, State.tile_setTile_other s _ hu]
theorem State.elem_modElem_other (s : State) {t e u j : Nat} (f : Elem → Elem) (h : u ≠ t ∨ j ≠ e) :
    (s.modElem t e f).elem u j = s.elem u j := State.elem_setElem_other s _ h
theorem State.elem_modElem (s : State) (t e u j : Nat) (f : Elem → Elem) :
    (s.modElem t e f).elem u j = if u = t ∧ j = e then f (s.elem t e) else s.elem u j := by
  split
  · rename_i h; obtain ⟨rfl, rfl⟩ := h; simp
  · rename_i h; exact State.elem_modElem_other s f (by tauto)
@[simp] theorem State.tileCore_modElem (s : State) (t e u : Nat) (f : Elem → Elem) :
    ((s.modElem t e f).tile u).core = (s.tile u).core := by
  by_cases h : u = t
  · subst h; simp [State.modElem, State.setElem]
  · simp [State.modElem, State.setElem, State.tile_setTile_other s _ h]
@[simp] theorem State.balance_modElem (s : State) (t e u : Nat) (f : Elem → Elem) :
    ((s.modElem t e f).tile u).balance = (s.tile u).balance := by
  by_cases h : u = t
  · subst h; simp [State.modElem, State.setElem]
  · simp [State.modElem, State.setElem, State.tile_setTile_other s _ h]

end Sys2Proof.Machine
end

