-- ==== Sys2Proof/Safety.lean ====
section
/-! DEFINITION. The terms of the statements: what a safe step is, the form of the memories, what it is for a rule to
fire and what a firing leaves, and what a body instruction leaves in its lane. -/

namespace Sys2Proof

open Machine

/-! ### Steps and memories -/

/-- The near and far tiers, the deep tier and host memory are held in their canonical form: addresses rising, no entry
equal to what an unlisted byte reads as. -/
def memOk (s : State) : Bool := s.mem.wf && s.deep.wf && s.host.wf

/-- The cisterns of all tiles are held in the same form. -/
def cisternsOk (s : State) : Bool := s.tiles.all fun p => p.2.cistern.wf

/-- A step that the machine takes: neither a fault nor a refusal. -/
def Steps (s : State) : Prop := ∃ t, step s = .next t

/-- An instruction or event that runs in a state: neither a fault nor a refusal. -/
def Runs (i : Instr) (s : State) : Prop := ∃ t, exec i s = .next t

/-! ### Frames -/

/-- Nothing outside the array has changed: tiles, engines and the region controllers alone, and
the model's own counter of requests.  Memory, presence bits,
pump cores, contexts, queues, wells, links and everything else are as before. -/
def OnlyArray (s t : State) : Prop :=
  t = { s with tiles := t.tiles, regions := t.regions, islands := t.islands, streamers := t.streamers,
               expanders := t.expanders, weirs := t.weirs, nextId := t.nextId }

/-- Nothing but the acting lane of the acting core has changed: its core keeps its registers, predicates, events and
stores, and everything outside the core is as before. -/
def OnlyLane (s t : State) : Prop :=
  ∃ l, t = s.modCore s.actor.core fun c => setLane c s.actor.lane l

/-! ### The firing of an element rule -/

/-- The rule that acts fires: its slot is legal (R104), every term of its guard holds (R40), and no head it takes is a
POISON mark (R318) or fails its parity (R384). -/
def RuleFires (i : Instr) (s : State) : Prop :=
  ∃ o, i.operands = some o ∧ slotLegal s s.actor.tile s.actor.elem i = true ∧ ready s i o = true ∧
    takesBad (s.elem s.actor.tile s.actor.elem) (deqs i o (s.elem s.actor.tile s.actor.elem)) = false

/-- A scalar source of the acting element as 32 bits (R111). -/
def src32 (s : State) (a : Src) : BitVec 32 := BitVec.ofNat 32 (readScalar s s.actor.tile s.actor.elem a)

/-- A vector source of the acting element; `lane` is what code 29 reads (R398). -/
def src256 (s : State) (lane : Nat) (a : Src) : BitVec 256 :=
  BitVec.ofNat 256 (readVector s s.actor.tile s.actor.elem lane a)

/-- What a register holds after writes, the last of which stands. -/
def xAfter (ws : List PWrite) (n : Fin 16) (old : W32) : W32 :=
  ws.foldl (fun v w => match w with | .x m y => if m = n then y else v | _ => v) old
def wAfter (ws : List PWrite) (n : Fin 16) (old : W32) : W32 :=
  ws.foldl (fun v w => match w with | .w m y => if m = n then y else v | _ => v) old
def vAfter (ws : List PWrite) (n : Fin 8) (old : V256) : V256 :=
  ws.foldl (fun v w => match w with | .v m y => if m = n then y else v | _ => v) old
def accAfter (ws : List PWrite) (n : Fin 4) (old : A512) : A512 :=
  ws.foldl (fun v w => match w with | .acc m y => if m = n then y else v | _ => v) old
def scAfter (ws : List PWrite) (n : Fin 8) (old : W32) : W32 :=
  ws.foldl (fun v w => match w with | .sc m y => if m = n then y else v | _ => v) old
def predAfter (ws : List PWrite) (n : Fin 8) (old : Bool) : Bool :=
  ws.foldl (fun v w => match w with | .pred m y => if m = n then y else v | _ => v) old

/-- The tokens that wait at a target of tokens sent from a tile. -/
def inbox (s : State) (from_ : Nat) : Target → List Token
  | .chan t e c => ((s.elem t e).chan c).flight
  | .command en =>
    let n := en % 64
    (if n < 16 then (s.island en).fifo else if n < 24 then (kget s.streamers en {}).fifo
      else if n < 48 then (kget s.expanders en {}).fifo else (kget s.weirs en {}).fifo).map Cmd.tok
  | .row en p => kget (s.island en).rows p []
  | .boundary n => match regionAt s from_ with
    | none => []
    | some r => kget r.boundary n []
  | .nowhere => []

/-- Whether a target holds tokens sent from a tile: a boundary port does where the tile has a region. -/
def Holds (s : State) (from_ : Nat) : Target → Prop
  | .nowhere => False
  | .boundary _ => (regionAt s from_).isSome
  | _ => True

/-- The tokens that writes send to a target: one for each time an output channel leads there (R109, R285), with the
stroke of the element. -/
def sentTo (s : State) (t e : Nat) (ws : List PWrite) (g : Target) : List Token :=
  ws.flatMap fun w => match w with
    | .out c k => List.replicate ((targets s t e c.val).count g) { k with stroke := (s.elem t e).stroke }
    | _ => []

/-- The conversion events of a firing cross no threshold of its region (R34). -/
def NoTrip (s : State) (c : Conv) : Prop :=
  ∀ r, regionAt s s.actor.tile = some r → trips s r (s.elem s.actor.tile s.actor.elem).stroke c = 0

/-- The counts a region holds outside its counter block, after the events `c` of the acting rule (R33). -/
def countsAfter (s : State) (c : Conv) (k : Nat) (r : Region) : Counts × Counts :=
  if regionOf s s.actor.tile = some k then
    if (s.elem s.actor.tile s.actor.elem).stroke ≤ r.stroke then (r.cnt0.plus c, r.cnt1) else (r.cnt0, r.cnt1.plus c)
  else (r.cnt0, r.cnt1)

/-- What a fault writes in an element: its faulted state and EFAULT (R54). -/
def Machine.Elem.faultState (y : Elem) : Bool × EFault := (y.faulted, y.efault)

/-- What every firing does beside its writes: dequeues, the charge, conversion events; and what it leaves (R31, R33, R41,
R46). -/
structure FiredAside (s t : State) (i : Instr) (o : Operands) (c : Conv) : Prop where
  /-- the channels with a caret lose their heads -/
  taken : ∀ d, ((t.elem s.actor.tile s.actor.elem).chan d).fifo =
    ((s.elem s.actor.tile s.actor.elem).chan d).fifo.drop
      ((deqs i o (s.elem s.actor.tile s.actor.elem)).count d)
  paid : (t.tile s.actor.tile).balance = (s.tile s.actor.tile).balance - costOf (opcodeOf i)
  econv : (t.elem s.actor.tile s.actor.elem).core.econv =
    (s.elem s.actor.tile s.actor.elem).core.econv ||| Flags.bits c.flags
  counts : ∀ k, (t.region k).map (fun r => (r.cnt0, r.cnt1)) = (s.region k).map (countsAfter s c k)
  faulted : (t.elem s.actor.tile s.actor.elem).faultState = (s.elem s.actor.tile s.actor.elem).faultState
  /-- no other element's registers change, nor any other tile's -/
  elems : ∀ u j, (u ≠ s.actor.tile ∨ j ≠ s.actor.elem) → (t.elem u j).core = (s.elem u j).core
  tiles : ∀ u, u ≠ s.actor.tile → (t.tile u).core = (s.tile u).core ∧ (t.tile u).balance = (s.tile u).balance
  array : OnlyArray s t

/-- What a rule of operands `o` that fires in one fc leaves behind when it writes `ws` and then updates its predicate
with the result bit `res` (R41, R46, R76, R114). -/
structure FiredAs (s t : State) (i : Instr) (o : Operands) (ws : List PWrite) (res : Bool) (c : Conv) : Prop where
  x : ∀ n, (t.elem s.actor.tile s.actor.elem).core.x[n] =
    xAfter ws n (s.elem s.actor.tile s.actor.elem).core.x[n]
  w : ∀ n, (t.tile s.actor.tile).core.w[n] = wAfter ws n (s.tile s.actor.tile).core.w[n]
  v : ∀ n, (t.elem s.actor.tile s.actor.elem).core.v[n] =
    vAfter ws n (s.elem s.actor.tile s.actor.elem).core.v[n]
  a : ∀ n, (t.elem s.actor.tile s.actor.elem).core.a[n] =
    accAfter ws n (s.elem s.actor.tile s.actor.elem).core.a[n]
  sc : ∀ n, (t.elem s.actor.tile s.actor.elem).core.sc[n] =
    scAfter ws n (s.elem s.actor.tile s.actor.elem).core.sc[n]
  p : ∀ n : Fin 8, (t.elem s.actor.tile s.actor.elem).core.p.getLsbD n.val =
    predAfter (ws ++ updWrites (s.elem s.actor.tile s.actor.elem).core.p res o.g.upd) n
      ((s.elem s.actor.tile s.actor.elem).core.p.getLsbD n.val)
  /-- every token sent arrives behind those already on their way, and no other target receives one -/
  sent : ∀ g, Holds s s.actor.tile g → inbox t s.actor.tile g = inbox s s.actor.tile g ++ sentTo s s.actor.tile s.actor.elem ws g
  pending : (t.elem s.actor.tile s.actor.elem).pending = (s.elem s.actor.tile s.actor.elem).pending
  aside : FiredAside s t i o c

/-- The registers and flags of the acting element and of its tile that no `FiredAs` speaks of stand as they were. -/
structure Steady (s t : State) : Prop where
  elem : ∃ l m, (t.elem s.actor.tile s.actor.elem).core =
    { (s.elem s.actor.tile s.actor.elem).core with
      x := (t.elem s.actor.tile s.actor.elem).core.x, v := (t.elem s.actor.tile s.actor.elem).core.v,
      a := (t.elem s.actor.tile s.actor.elem).core.a, sc := (t.elem s.actor.tile s.actor.elem).core.sc,
      p := (t.elem s.actor.tile s.actor.elem).core.p, econv := (t.elem s.actor.tile s.actor.elem).core.econv,
      loopI := l, loops := m }
  tile : (t.tile s.actor.tile).core = { (s.tile s.actor.tile).core with w := (t.tile s.actor.tile).core.w }
  cistern : (t.tile s.actor.tile).cistern = (s.tile s.actor.tile).cistern

/-- What a rule whose result takes `lat` fc leaves behind: the result is held for the end of its round and written by
nothing but that (R41, R136), its predicate is updated at once unless it loads the result bit, and no register or token
queue has changed yet. -/
structure FiredLate (s t : State) (i : Instr) (o : Operands) (lat : Nat) (ws : List PWrite) (res : Bool) (c : Conv) :
    Prop where
  pending : (t.elem s.actor.tile s.actor.elem).pending = (s.elem s.actor.tile s.actor.elem).pending ++
    [⟨(s.tile s.actor.tile).rounds + lat - 1, ws ++
      if isLoad o.g.upd then updWrites (s.elem s.actor.tile s.actor.elem).core.p res o.g.upd else []⟩]
  x : (t.elem s.actor.tile s.actor.elem).core.x = (s.elem s.actor.tile s.actor.elem).core.x
  w : (t.tile s.actor.tile).core.w = (s.tile s.actor.tile).core.w
  v : (t.elem s.actor.tile s.actor.elem).core.v = (s.elem s.actor.tile s.actor.elem).core.v
  a : (t.elem s.actor.tile s.actor.elem).core.a = (s.elem s.actor.tile s.actor.elem).core.a
  sc : (t.elem s.actor.tile s.actor.elem).core.sc = (s.elem s.actor.tile s.actor.elem).core.sc
  p : ∀ n : Fin 8, (t.elem s.actor.tile s.actor.elem).core.p.getLsbD n.val =
    predAfter (if isLoad o.g.upd then [] else updWrites (s.elem s.actor.tile s.actor.elem).core.p res o.g.upd) n
      ((s.elem s.actor.tile s.actor.elem).core.p.getLsbD n.val)
  sent : ∀ g, inbox t s.actor.tile g = inbox s s.actor.tile g
  aside : FiredAside s t i o c

/-! ### A body instruction -/

/-- The acting lane executes the instruction: it is running, the skip predicate does not skip it (R96), and its rule
store buffer holds no more than its sixteen entries (R217). -/
def BodyRuns (h : Skip) (s : State) : Prop :=
  (bodyLane s).run = .running ∧ skips h s = false ∧ (bodyLane s).acts.countP CommitAct.isEntry ≤ 16

/-- The same, with room for one more entry in the rule store buffer. -/
def BodyRunsRoom (h : Skip) (s : State) : Prop :=
  (bodyLane s).run = .running ∧ skips h s = false ∧ (bodyLane s).acts.countP CommitAct.isEntry < 16

/-- Register r of the acting core, as the acting lane sees it (R50). -/
def gOf (s : State) (r : Reg) : BitVec 64 := regOf (s.core s.actor.core) (bodyLane s) r.val

/-- Operand B as 64 bits: a register, or the sign-extended immediate (R97). -/
def bOf (s : State) : PSrc → BitVec 64
  | .reg r => gOf s r
  | .imm v => v.signExtend 64

/-- What a register holds after writes. -/
def gAfter (ws : List (Nat × W64)) (r : Nat) (old : W64) : W64 := ws.foldl (fun v w => if w.1 = r then w.2 else v) old
def bAfter (ws : List (Nat × Bool)) (n : Nat) (old : Bool) : Bool := ws.foldl (fun v w => if w.1 = n then w.2 else v) old

/-- What an executed instruction leaves: writes that its lane alone sees until the round ends (R50), acts held for the
commit, and the next instruction, `past` of them passed over. -/
structure BodyDid (s t : State) (gs : List (Nat × W64)) (ps : List (Nat × Bool)) (acts : List CommitAct) (past : Nat) :
    Prop where
  g : ∀ r, gOf t r = gAfter gs r.val (gOf s r)
  p : ∀ n, readP t n = bAfter ps n.val (readP s n)
  acts : (bodyLane t).acts = (bodyLane s).acts ++ acts
  pc : (bodyLane t).pc = (bodyLane s).pc + 1 + past
  run : (bodyLane t).run = if ruleLen ((s.core s.actor.core).ruleAt (bodyLane s).rule).2 ≤ (bodyLane t).pc
    then .done else .running
  only : OnlyLane s t

namespace Spec

/-! ### Scalar values at width w (07_scalar.md) -/

/-- A result whose result bit is res not 0 (R114). -/
def res {w : Nat} (v : BitVec w) : BitVec w × Bool := (v, v != 0)

/-- An operand as an exact integer: natural when N = 1, signed when N = 0 (R113). -/
def asInt {w : Nat} (n : Bool) (a : BitVec w) : Int := if n then a.toNat else a.toInt

/-- clamp of R116, and whether it clamped. -/
def clampTo (w : Nat) (n : Bool) (x : Int) : BitVec w × Bool :=
  let lo : Int := if n then 0 else -(2 ^ (w - 1))
  let hi : Int := if n then 2 ^ w - 1 else 2 ^ (w - 1) - 1
  (BitVec.ofInt w (max lo (min hi x)), decide (x < lo ∨ hi < x))

/-- The table of R117 for the shifts; s is the amount. -/
def shl (w : Nat) (a s : BitVec w) : BitVec w := if s.toNat < w then a <<< s.toNat else 0
def shr (w : Nat) (a s : BitVec w) : BitVec w := if s.toNat < w then a >>> s.toNat else 0
def sra (w : Nat) (a s : BitVec w) : BitVec w :=
  if s.toNat < w then a.sshiftRight s.toNat else if a.msb then BitVec.allOnes w else 0
def rot (w : Nat) (a s : BitVec w) : BitVec w := a.rotateLeft (s.toNat % w)

/-- The relations of CMP on exact integers (R95, R118). -/
def related : Rel → Int → Int → Prop
  | .eq, a, b => a = b
  | .ne, a, b => a ≠ b
  | .lt, a, b => a < b
  | .le, a, b => a ≤ b
  | .gt, a, b => a > b
  | .ge, a, b => a ≥ b

/-- 1 when a condition holds, else 0; the result bit is the result. -/
def truth (w : Nat) (c : Bool) : BitVec w × Bool := (if c then 1 else 0, c)

/-- The number of leading zero bits, and the number of one bits (R119). -/
def clz (w : Nat) (a : BitVec w) : BitVec w :=
  BitVec.ofNat w (((List.range w).takeWhile fun k => !a.getLsbD (w - 1 - k)).length)
def popc (w : Nat) (a : BitVec w) : BitVec w := BitVec.ofNat w ((List.range w).countP fun k => a.getLsbD k)

/-- The field that operand b describes: its position, and its length within w bits (R119). -/
def fieldPos {w : Nat} (b : BitVec w) : Nat := b.toNat % 64
def fieldLen {w : Nat} (b : BitVec w) : Nat := min (b.toNat / 256 % 64 + 1) (w - fieldPos b)

def bfx (n : Bool) (w : Nat) (a b : BitVec w) : BitVec w :=
  if w ≤ fieldPos b then 0
  else if n then (a.extractLsb' (fieldPos b) (fieldLen b)).setWidth w
  else (a.extractLsb' (fieldPos b) (fieldLen b)).signExtend w

/-- The old destination with the bits of the field replaced by the low bits of a. -/
def bfi (w : Nat) (d a b : BitVec w) : BitVec w :=
  if w ≤ fieldPos b then d
  else
    let mask := BitVec.ofNat w ((2 ^ fieldLen b - 1) * 2 ^ fieldPos b)
    (d &&& ~~~mask) ||| ((a <<< fieldPos b) &&& mask)

/-- CNT of R123. -/
def cnt (n : Bool) (a b : BitVec 32) : BitVec 32 × Bool :=
  if asInt n (a + 1) ≥ asInt n b then (0, true) else (a + 1, false)

/-- The operations of PLOG (R95). -/
def plog : LogicOp → Bool → Bool → Bool
  | .and, a, b => a && b
  | .or, a, b => a || b
  | .xor, a, b => a ^^ b
  | .andn, a, b => a && !b
  | .nand, a, b => !(a && b)
  | .nor, a, b => !(a || b)
  | .xnor, a, b => !(a ^^ b)
  | .orn, a, b => a || !b

/-- The quotient toward zero and the remainder with the sign of a (R127). -/
def quot (w : Nat) (n : Bool) (a b : BitVec w) : BitVec w :=
  if b = 0 then 0 else BitVec.ofInt w ((asInt n a).tdiv (asInt n b))
def rem (w : Nat) (n : Bool) (a b : BitVec w) : BitVec w :=
  if b = 0 then a else BitVec.ofInt w (asInt n a - (asInt n a).tdiv (asInt n b) * asInt n b)

/-! ### Where results go -/

/-- A 32-bit result at its destination: x and w are written, an output channel is sent it with tag 0, code 28 discards it
(R61, R111). -/
def at32 (d : Dst) (v : BitVec 32) : List PWrite :=
  match d with
  | .x n => [.x n v]
  | .w n => [.w n v]
  | .out c => [.out c ⟨v.setWidth 256, 0, 0⟩]
  | _ => []

/-- A rule that, whenever it fires, makes these writes with this result bit, has no conversion events, and then does the
further act of its entry. -/
def Fires (i : Instr) (s : State) (ws : List PWrite) (res : Bool) (act : State → State := id) : Prop :=
  RuleFires i s → ∃ o u, i.operands = some o ∧ FiredAs s u i o ws res {} ∧ Steady s u ∧
    exec i s = .next (touchRegion (act u) s.actor.tile)

/-- A rule that aborts whenever its guard holds (R54). -/
def Traps (i : Instr) (s : State) (code : Nat) (va : Nat := 0) (wr : Bool := false) : Prop :=
  RuleFires i s → exec i s = .next (abortRule s i { code := code, va := va, wr := wr })

/-- Conversion events that would cross a threshold of the region abort the rule with 0x0D and the TRIP bits (R34). -/
def TripsAbort (i : Instr) (s : State) (c : Conv) : Prop :=
  ∀ r, regionAt s s.actor.tile = some r → trips s r (s.elem s.actor.tile s.actor.elem).stroke c ≠ 0 →
    Traps i s 0x0D (trips s r (s.elem s.actor.tile s.actor.elem).stroke c)

/-- A rule whose firing has conversion events. -/
def FiresConv (i : Instr) (s : State) (ws : List PWrite) (c : Conv) (act : State → State := id) : Prop :=
  (NoTrip s c → RuleFires i s → ∃ o u, i.operands = some o ∧ FiredAs s u i o ws false c ∧ Steady s u ∧
    exec i s = .next (touchRegion (act u) s.actor.tile)) ∧ TripsAbort i s c

/-- A rule whose result takes several fc. -/
def FiresLate (i : Instr) (s : State) (lat : Nat) (ws : List PWrite) (res : Bool) (c : Conv) (act : State → State := id) :
    Prop :=
  (NoTrip s c → RuleFires i s → ∃ o u, i.operands = some o ∧ FiredLate s u i o lat ws res c ∧ Steady s u ∧
    exec i s = .next (touchRegion (act u) s.actor.tile)) ∧ TripsAbort i s c

/-- The operands of a rule whose answer comes with a reply: a =p update waits for it (R41). -/
def askedOf (o : Operands) : Operands := if isLoad o.g.upd then { o with g := { o.g with upd := none } } else o

/-- A rule that, whenever it fires, writes nothing and asks for an answer. -/
def FiresAsk (i : Instr) (s : State) (act : State → State) : Prop :=
  RuleFires i s → ∃ o u, i.operands = some o ∧ FiredAs s u i (askedOf o) [] false {} ∧ Steady s u ∧
    exec i s = .next (touchRegion (act u) s.actor.tile)

/-- An element rule that, whenever it fires, writes a 32-bit result at d with its result bit, and does no more. -/
def Computes (i : Instr) (s : State) (d : Dst) (r : BitVec 32 × Bool) : Prop := Fires i s (at32 d r.1) r.2

/-- An element operation of two operands, and one whose operand B is IMM12, sign-extended (R89). -/
def Elem2 (i : Guard → Dst → Src → Src → Instr) (f : BitVec 32 → BitVec 32 → BitVec 32 × Bool) : Prop :=
  ∀ s g d a b, Computes (i g d a b) s d (f (src32 s a) (src32 s b))
def ElemImm (i : Guard → Dst → Src → BitVec 12 → Instr) (f : BitVec 32 → BitVec 32 → BitVec 32 × Bool) : Prop :=
  ∀ s g d a imm, Computes (i g d a imm) s d (f (src32 s a) (imm.signExtend 32))

/-! ### Vectors, lane by lane (08_vector.md) -/

/-- Lane k of width w, as bits, and in a format as an exact number (R20, R133). -/
def laneAt {n : Nat} (w : Nat) (x : BitVec n) (k : Nat) : BitVec w := x.extractLsb' (w * k) w
def num {n : Nat} (fmt : Fmt) (x : BitVec n) (k : Nat) : Machine.Num := decodeLane fmt (laneAt (laneWidth fmt) x k).toNat

/-- A register of m bits with code f k in lane k of its first n lanes. -/
def vec (m w n : Nat) (f : Nat → Nat) : BitVec m :=
  BitVec.ofNat m ((List.range n).map fun k => f k % 2 ^ w * 2 ^ (w * k)).sum

/-- The flags and counts of n encodes (R31, R32). -/
def convs (n : Nat) (fl : Nat → Flags) : Conv where
  flags := { nan := (List.range n).any fun k => (fl k).nan, inx := (List.range n).any fun k => (fl k).inx
             sat := (List.range n).any fun k => (fl k).sat, ftz := (List.range n).any fun k => (fl k).ftz }
  sat := (List.range n).countP fun k => (fl k).sat
  ftz := (List.range n).countP fun k => (fl k).ftz
  nan := (List.range n).countP fun k => (fl k).nan

/-- n exact numbers encoded into lanes of a format. -/
def encoded (m : Nat) (fmt : Fmt) (rnd : Rnd) (rand : Nat → Nat) (n : Nat) (f : Nat → Machine.Num) : BitVec m × Conv :=
  (vec m (laneWidth fmt) n fun k => (encodeLane fmt rnd (rand k) (f k)).1,
    convs n fun k => (encodeLane fmt rnd (rand k) (f k)).2)

/-- A vector of a format, every lane encoded to nearest even. -/
def lanes (fmt : Fmt) (f : Nat → Machine.Num) : BitVec 256 × Conv := encoded 256 fmt .rne (fun _ => 0) (Lanes.count fmt) f

/-- What code 29 reads in a lane format, and by lane width: the number of each lane (R398). -/
def laneNumbers (fmt : Fmt) : Nat := (lanes fmt fun k => .ofInt k).1.toNat
def laneIndices (w : Nat) : Nat := (vec 256 w (256 / w) id).toNat

/-- A vector source read in a format, and by lane width. -/
def srcV (s : State) (fmt : Fmt) (a : Src) : BitVec 256 := src256 s (laneNumbers fmt) a
def srcL (s : State) (lw : LaneW) (a : Src) : BitVec 256 := src256 s (laneIndices (Lanes.laneBits lw)) a

/-- A 256-bit result at its destination (R134). -/
def at256 (d : Dst) (v : BitVec 256) : List PWrite :=
  match d with
  | .v n => [.v n v]
  | .out c => [.out c ⟨v, 0, 0⟩]
  | _ => []

/-- An accumulator, a vector register, and a scale register of the acting element. -/
def accOf (s : State) (n : Fin 4) : BitVec 512 := (s.elem s.actor.tile s.actor.elem).core.a[n]
def vecOf (s : State) (n : Fin 8) : BitVec 256 := (s.elem s.actor.tile s.actor.elem).core.v[n]

/-- The random word of lane k under .srk, whose key is SRSEED, LIDX, the lane and SEQ (R28). -/
def randOf (s : State) (rnd : Rnd) (k : Nat) : Nat :=
  if rnd = .srk then srkWord (seedOf s s.actor.tile) (lidxOf s s.actor.tile s.actor.elem) k
    (s.elem s.actor.tile s.actor.elem).core.seq.toNat else 0

/-- A rule of two vector sources whose lanes are computed by f, and one of a single source. -/
def Lanes2 (i : Guard → Fmt → Dst → Src → Src → Instr) (f : Machine.Num → Machine.Num → Machine.Num) : Prop :=
  ∀ s g fmt d a b,
    let r := lanes fmt fun k => f (num fmt (srcV s fmt a) k) (num fmt (srcV s fmt b) k)
    FiresConv (i g fmt d a b) s (at256 d r.1) r.2
def Lanes1 (i : Guard → Fmt → Dst → Src → Instr) (f : Machine.Num → Machine.Num) : Prop :=
  ∀ s g fmt d a,
    let r := lanes fmt fun k => f (num fmt (srcV s fmt a) k)
    FiresConv (i g fmt d a) s (at256 d r.1) r.2

/-- The numbers of a source of VRED, VAMAX and VCVT: an accumulator's sixteen FP32 lanes, or the lanes of a vector (R133). -/
def numsOf (s : State) (fmt : Fmt) (a : Src) : Nat × (Nat → Machine.Num) :=
  match a with
  | .acc n => (16, num .fp32 (accOf s n))
  | a => (Lanes.count fmt, num fmt (srcV s fmt a))

/-- The numbers of a register pair, the lower register's lanes first (R151). -/
def pairOf (s : State) (fmt : Fmt) (a : Src) : Nat × (Nat → Machine.Num) :=
  match a with
  | .acc n => (32, fun k => if k < 16 then num .fp32 (accOf s n) k else num .fp32 (accOf s (n + 1)) (k - 16))
  | .v n => (2 * Lanes.count fmt, fun k =>
      if k < Lanes.count fmt then num fmt (vecOf s n) k else num fmt (vecOf s (n + 1)) (k - Lanes.count fmt))
  | _ => (0, fun _ => .zero)

/-- n numbers encoded at a destination: a vector register, an output channel, or an accumulator. -/
def converted (s : State) (d : Dst) (fmt : Fmt) (rnd : Rnd) (x : Nat × (Nat → Machine.Num)) : List PWrite × Conv :=
  let r := encoded 256 fmt rnd (randOf s rnd) x.1 x.2
  (match d with
    | .acc n => [.acc n (encoded 512 fmt rnd (randOf s rnd) x.1 x.2).1]
    | d => at256 d r.1, r.2)

/-- Numbers encoded into a register pair, h lanes to the lower register and the rest to the higher. -/
def paired (s : State) (d : Dst) (fmt : Fmt) (rnd : Rnd) (x : Nat × (Nat → Machine.Num)) : List PWrite × Conv :=
  let h := match d with
    | .acc _ => 16
    | _ => Lanes.count fmt
  let lo := encoded 512 fmt rnd (randOf s rnd) (min h x.1) x.2
  let hi := encoded 512 fmt rnd (fun k => randOf s rnd (k + h)) (x.1 - h) fun k => x.2 (h + k)
  match d with
  | .v n => ([.v n (lo.1.setWidth 256), .v (n + 1) (hi.1.setWidth 256)], lo.2.add hi.2)
  | .acc n => ([.acc n lo.1, .acc (n + 1) hi.1], lo.2.add hi.2)
  | _ => ([], lo.2.add hi.2)

/-! ### Tokens (09_tokens_memory.md) -/

/-- A source as a token: the bits of a channel's head with its tag, a register with tag 0 (R159). -/
def tokOf (s : State) (a : Src) : BitVec 256 × BitVec 2 :=
  match a with
  | .chan c _ => match (s.elem s.actor.tile s.actor.elem).head c.val with
    | some k => (k.data, k.tag)
    | none => (0, 0)
  | .v n => (vecOf s n, 0)
  | .acc n => ((accOf s n).setWidth 256, 0)
  | a => ((src32 s a).setWidth 256, 0)

/-- Bits moved to a destination as they are, with a tag where it is a channel. -/
def moved (d : Dst) (data : BitVec 256) (tag : BitVec 2) : List PWrite :=
  match d with
  | .x n => [.x n (data.setWidth 32)]
  | .w n => [.w n (data.setWidth 32)]
  | .v n => [.v n data]
  | .acc n => [.acc n (data.setWidth 512)]
  | .out c => [.out c ⟨data, tag, 0⟩]
  | .discard => []

/-! ### Body instructions -/

/-- The opcode of a body instruction (R97). -/
def opOf (i : Instr) : Nat := match i.pumpFields with
  | some f => f.op
  | none => 0

/-- The acting lane meets an instruction that it executes: it is running, and the skip predicate does not skip it (R96). -/
def Meets (h : Skip) (s : State) : Prop := (bodyLane s).run = .running ∧ skips h s = false

/-- An instruction comes to its end on state u, which is s but for what it has looked up or done at once: its lane takes its
writes and the acts it holds for the commit.  Where the rule store buffer would hold more than sixteen entries, the rule
aborts without a fault (R217). -/
def Executes (h : Skip) (i : Instr) (s : State) (gs : List (Nat × W64)) (ps : List (Nat × Bool)) (acts : List CommitAct)
    (past : Nat) (u : State) : Prop :=
  Meets h s → exec i s = .next (if (bodyLane s).acts.countP CommitAct.isEntry + acts.countP CommitAct.isEntry ≤ 16
    then laneDid u ⟨gs, ps, acts, past⟩ else abortLane u s.actor.core s.actor.lane none (opOf i))

/-- An instruction aborts its rule with a fault (R55, R258); without one (R55); leaves its lane where it is, to be executed
again. -/
def Faults (h : Skip) (i : Instr) (s : State) (code : Nat) (va : Option Nat) (u : State) : Prop :=
  Meets h s → exec i s = .next (abortLane u s.actor.core s.actor.lane (some (code, va)) (opOf i))
def Retries (h : Skip) (i : Instr) (s : State) (u : State) : Prop :=
  Meets h s → exec i s = .next (abortLane u s.actor.core s.actor.lane none (opOf i))
def Waits (h : Skip) (i : Instr) (s : State) (u : State) : Prop := Meets h s → exec i s = .next u

/-- An operand value that its entry does not allow faults with 0x02 (R231). -/
def Refuses (h : Skip) (i : Instr) (s : State) : Prop := Faults h i s 2 none s

/-- An instruction that only gives registers values, or only holds an act for the commit. -/
def Answers (h : Skip) (i : Instr) (s : State) (rd : Reg) (v : Nat) : Prop :=
  Executes h i s [(rd.val, BitVec.ofNat 64 v)] [] [] 0 s
def Defers (h : Skip) (i : Instr) (s : State) (a : CommitAct) : Prop := Executes h i s [] [] [a] 0 s

/-- Nothing stands before a commit-point instruction: no fence of an earlier round, and no store that a fence of its body
has still to release or has released (R218). -/
def CommitReady (s : State) : Prop :=
  heldBack s = false ∧ (bodyLane s).acts.any CommitAct.isFence = false ∧ (bodyLane s).released = false

/-- A w-bit result extended to 64 bits: by zero when N = 1, by sign when N = 0 (R97). -/
def ext {w : Nat} (n : Bool) (v : BitVec w) : BitVec 64 := if n then v.setWidth 64 else v.signExtend 64

/-- A body instruction that, whenever it is executed, gives gD a value, and does no more. -/
def Gives (h : Skip) (i : Instr) (s : State) (rd : Reg) (v : BitVec 64) : Prop :=
  BodyRuns h s → ∃ t, exec i s = .next t ∧ BodyDid s t [(rd.val, v)] [] [] 0

/-- A body operation of two operands read at the width of the operation (R97, R112). -/
def Pump2 (n : Bool) (i : Skip → PumpW → Reg → Reg → PSrc → Instr) (f : (w : Nat) → BitVec w → BitVec w → BitVec w) :
    Prop :=
  ∀ s h w rd ra pb, Gives h (i h w rd ra pb) s rd
    (ext n (f (widthBits w) ((gOf s ra).setWidth _) ((bOf s pb).setWidth _)))

end Spec

end Sys2Proof
end

