-- ==== Sys2Proof/Laws/Body.lean ====
section
/-! SUPPORT. What a pump body instruction can do, said once: skipped, executed, aborted or still waiting, and what an
executed one leaves in its lane. -/

namespace Sys2Proof.Machine

variable {s : State}

/-- A running lane is one the core has. -/
theorem lane_lt (h : (bodyLane s).run = .running) : s.actor.lane < (s.core s.actor.core).lanes.length := by
  by_contra hn
  have : bodyLane s = { rule := 0, run := .aborted } := by
    unfold bodyLane
    exact List.getD_eq_default _ _ (by omega)
  rw [this] at h
  cases h

theorem bodyLane_setLane (l : Lane) (h : s.actor.lane < (s.core s.actor.core).lanes.length) :
    bodyLane (s.modCore s.actor.core fun c => setLane c s.actor.lane l) = l := by
  simp only [bodyLane, State.modCore_actor, State.core_modCore_same, setLane]
  simp [List.getD, h]

theorem kfind_foldl_kput {α : Type} (ws : List (Nat × α)) (m : KMap α) (k : Nat) (d : α) :
    (kfind (ws.foldl (fun m w => kput m w.1 w.2) m) k).getD d
      = ws.foldl (fun v w => if w.1 = k then w.2 else v) ((kfind m k).getD d) := by
  induction ws generalizing m with
  | nil => rfl
  | cons w ws ih =>
    rw [List.foldl_cons, List.foldl_cons, ih, kfind_kput]
    by_cases h : k = w.1
    · subst h; simp
    · simp [h, Ne.symm h]

/-- A completed instruction leaves its effects in its own lane alone. -/
theorem laneDid_bodyDid (d : Did) (h : (bodyLane s).run = .running) :
    BodyDid s (laneDid s d) d.g d.p d.acts d.past := by
  have hl := lane_lt h
  have hb : bodyLane (laneDid s d) = (bodyLane s).after (ruleLen ((s.core s.actor.core).ruleAt (bodyLane s).rule).2) d :=
    bodyLane_setLane _ hl
  have hc : ((laneDid s d).core s.actor.core).g = (s.core s.actor.core).g := by
    simp [laneDid, setLane]
  have hp : ((laneDid s d).core s.actor.core).p = (s.core s.actor.core).p := by
    simp [laneDid, setLane]
  refine ⟨fun r => ?_, fun n => ?_, ?_, ?_, ?_, ⟨_, rfl⟩⟩
  · show regOf ((laneDid s d).core s.actor.core) (bodyLane (laneDid s d)) r.val = _
    rw [hb]
    simp only [regOf, hc, Lane.after, gOf, gAfter]
    exact kfind_foldl_kput _ _ _ _
  · show predOf ((laneDid s d).core s.actor.core) (bodyLane (laneDid s d)) n.val = _
    rw [hb]
    simp only [predOf, hp, Lane.after, readP, bAfter]
    exact kfind_foldl_kput _ _ _ _
  · rw [hb]; rfl
  · rw [hb]; rfl
  · rw [hb]; rfl

/-- An instruction that comes to an end is executed. -/
theorem pumpStep_done {h : Skip} {op : Nat} {d : Did} (hr : (bodyLane s).run = .running) (hs : skips h s = false)
    (ha : (bodyLane s).acts.countP CommitAct.isEntry + d.acts.countP CommitAct.isEntry ≤ 16) :
    pumpStep h op s (.done s d) = .next (laneDid s d) := by
  have h1 : ((bodyLane s).run != .running) = false := by rw [hr]; rfl
  simp only [pumpStep, h1, hs, Bool.false_eq_true, if_false]
  rw [if_neg (by omega)]

/-- A skipped instruction has no effect but the advance (R79, R96). -/
theorem pumpStep_skipped {h : Skip} {op : Nat} {out : PumpOut} (hr : (bodyLane s).run = .running)
    (hs : skips h s = true) : pumpStep h op s out = .next (laneDid s {}) := by
  have h1 : ((bodyLane s).run != .running) = false := by rw [hr]; rfl
  simp only [pumpStep, h1, hs, Bool.false_eq_true, if_false, if_true]

/-- A fault aborts the rule (R55, R258). -/
theorem pumpStep_fault {h : Skip} {op code : Nat} {va : Option Nat} {s' : State} (hr : (bodyLane s).run = .running)
    (hs : skips h s = false) : pumpStep h op s (.fault s' code va)
      = .next (abortLane s' s.actor.core s.actor.lane (some (code, va)) op) := by
  have h1 : ((bodyLane s).run != .running) = false := by rw [hr]; rfl
  simp only [pumpStep, h1, hs, Bool.false_eq_true, if_false]

/-- An abort without a fault (R55). -/
theorem pumpStep_retry {h : Skip} {op : Nat} {s' : State} (hr : (bodyLane s).run = .running)
    (hs : skips h s = false) : pumpStep h op s (.retry s') = .next (abortLane s' s.actor.core s.actor.lane none op) := by
  have h1 : ((bodyLane s).run != .running) = false := by rw [hr]; rfl
  simp only [pumpStep, h1, hs, Bool.false_eq_true, if_false]

/-- An instruction that waits leaves its lane where it is. -/
theorem pumpStep_wait {h : Skip} {op : Nat} {s' : State} (hr : (bodyLane s).run = .running)
    (hs : skips h s = false) : pumpStep h op s (.wait s') = .next s' := by
  have h1 : ((bodyLane s).run != .running) = false := by rw [hr]; rfl
  simp only [pumpStep, h1, hs, Bool.false_eq_true, if_false]

/-- A lane that does not run executes nothing. -/
theorem pumpStep_idle {h : Skip} {op : Nat} {out : PumpOut} (hr : (bodyLane s).run ≠ .running) :
    pumpStep h op s out = .next s := by
  have h1 : ((bodyLane s).run != .running) = true := by simpa using hr
  simp only [pumpStep, h1, if_true]

/-- Every body instruction answers a next state. -/
theorem pumpStep_answers (h : Skip) (op : Nat) (s : State) (out : PumpOut) : ∃ t, pumpStep h op s out = .next t := by
  unfold pumpStep
  dsimp only
  split
  · exact ⟨_, rfl⟩
  · split
    · exact ⟨_, rfl⟩
    · split
      · exact ⟨_, rfl⟩
      · exact ⟨_, rfl⟩
      · exact ⟨_, rfl⟩
      · split <;> exact ⟨_, rfl⟩

/-- An instruction that gives one register a value. -/
theorem gives_bodyDid {h : Skip} {op v : Nat} {rd : Reg} (hb : BodyRuns h s) :
    ∃ t, pumpStep h op s (gives s rd v) = .next t ∧ BodyDid s t [(rd.val, BitVec.ofNat 64 v)] [] [] 0 :=
  ⟨_, pumpStep_done hb.1 hb.2.1 (by simpa using hb.2.2), laneDid_bodyDid _ hb.1⟩

end Sys2Proof.Machine
end

