-- ==== Sys2Proof/Laws/Decode.lean ====
section
/-! SUPPORT. What the decoder accepts, and that a core runs exactly the instruction its word decodes to. -/

namespace Sys2Proof

/-- The decoder accepts an instruction that is well formed and whose own word is the word read; nothing else. -/
theorem accept_ok {w : W64} {o : Option Instr} {i : Instr} :
    accept w o = .ok i ↔ o = some i ∧ encode i = some w ∧ i.violation = none := by
  cases o with
  | none => simp [accept]
  | some j =>
    simp only [accept, Option.some.injEq]
    constructor
    · intro h
      by_cases he : encode j = some w
      · cases hv : j.violation with
        | none =>
          simp only [he, hv, if_true, Except.ok.injEq] at h
          subst h
          exact ⟨rfl, he, hv⟩
        | some v => simp [he, hv] at h
      · simp [he] at h
    · rintro ⟨rfl, he, hv⟩
      simp [he, hv]

theorem decodeElem_ok_encode {w : W64} {i : Instr} (h : decodeElem w = .ok i) :
    encode i = some w ∧ i.violation = none := by
  unfold decodeElem at h
  split at h
  · cases h
  · exact (accept_ok.mp h).2

theorem decodePump_ok_encode {w : W64} {i : Instr} (h : decodePump w = .ok i) :
    encode i = some w ∧ i.violation = none := (accept_ok.mp h).2

theorem parsePump_main (h : Skip) (f : PumpRaw) (h1 : f.op ≠ 0x95) (h2 : f.op ≠ 0xb2) (h3 : f.op ≠ 0xc0)
    (h4 : f.op ≠ 0xc1) : parsePump h f = parsePumpMain h f := by
  unfold parsePump
  split <;> first | contradiction | rfl

theorem encode_wclose (h : Skip) (ra : Reg) :
    encode (.wclose h ra) = some (BitVec.ofNat 64 (PumpFields.word ⟨h, 0x95, 0, ra.val, 0, false, 0, 0⟩)) := rfl
theorem encode_pghash (h : Skip) (ra rb : Reg) (tg : BitVec 16) : encode (.pghash h ra rb tg) =
    some (BitVec.ofNat 64 (PumpFields.word ⟨h, 0xb2, 0, ra.val, rb.val, false, 0, tg.toNat⟩)) := rfl
theorem encode_sysr (h : Skip) (rd : Reg) (x : BitVec 12) : encode (.sysr h rd x) =
    some (BitVec.ofNat 64 (PumpFields.word ⟨h, 0xc0, rd.val, 0, 0, false, 0, x.toNat⟩)) := rfl
theorem encode_sysw (h : Skip) (x : BitVec 12) (rb : Reg) : encode (.sysw h x rb) =
    some (BitVec.ofNat 64 (PumpFields.word ⟨h, 0xc1, 0, 0, rb.val, false, 0, x.toNat⟩)) := rfl

theorem violation_wclose (h : Skip) (ra : Reg) : (Instr.wclose h ra).violation = none := rfl
theorem violation_pghash (h : Skip) (ra rb : Reg) (tg : BitVec 16) : (Instr.pghash h ra rb tg).violation = none := rfl
theorem violation_sysr (h : Skip) (rd : Reg) (x : BitVec 12) :
    (Instr.sysr h rd x).violation = if sysIndexListed x.toNat then none else some .reservedValue := rfl
theorem violation_sysw (h : Skip) (x : BitVec 12) (rb : Reg) :
    (Instr.sysw h x rb).violation = if sysIndexListed x.toNat then none else some .reservedValue := rfl

/-- The decision of `accept` for an instruction, in terms of its word and its violation. -/
theorem accept_some (w : W64) (i : Instr) {v : W64} {b : Prop} [Decidable b] (he : encode i = some v)
    (hv : i.violation = if b then none else some .reservedValue) :
    (match accept w (some i) with | .ok j => j.pumpFields | .error _ => none)
      = if v = w ∧ b then i.pumpFields else none := by
  unfold accept
  simp only [he, hv, Option.some.injEq]
  by_cases h1 : v = w <;> by_cases h2 : b <;> simp only [h1, h2, if_true, if_false, and_true, and_false]

/-- The field reading of a legal body word is that of the instruction it decodes to. -/
theorem legalPump_eq (w : W64) :
    legalPump w = match decodePump w with
      | .ok i => i.pumpFields
      | .error _ => none := by
  unfold decodePump
  by_cases h1 : (pumpRawOf w.toNat).op = 0x95
  · simp only [legalPump, parsePump, h1]
    rw [accept_some w _ (b := True) (encode_wclose _ _) (by rw [violation_wclose]; rfl)]
    simp only [Instr.pumpFields]
  by_cases h2 : (pumpRawOf w.toNat).op = 0xb2
  · simp only [legalPump, parsePump, h2]
    rw [accept_some w _ (b := True) (encode_pghash _ _ _ _) (by rw [violation_pghash]; rfl)]
    simp only [Instr.pumpFields]
  by_cases h3 : (pumpRawOf w.toNat).op = 0xc0
  · simp only [legalPump, parsePump, h3]
    rw [accept_some w _ (encode_sysr _ _ _) (violation_sysr _ _ _)]
    simp only [Instr.pumpFields]
  by_cases h4 : (pumpRawOf w.toNat).op = 0xc1
  · simp only [legalPump, parsePump, h4]
    rw [accept_some w _ (encode_sysw _ _ _) (violation_sysw _ _ _)]
    simp only [Instr.pumpFields]
  rw [parsePump_main _ _ h1 h2 h3 h4]
  generalize hR : (match accept w (parsePumpMain (skipOf w.toNat) (pumpRawOf w.toNat)) with
    | .ok i => i.pumpFields
    | .error _ => none) = R
  unfold legalPump
  dsimp only
  split <;> first | contradiction | exact hR

theorem exec_wclose (h : Skip) (ra : Reg) (s : Machine.State) :
    Machine.exec (.wclose h ra) s = Machine.execWclose h ra s := rfl
theorem exec_pghash (h : Skip) (ra rb : Reg) (tg : BitVec 16) (s : Machine.State) :
    Machine.exec (.pghash h ra rb tg) s = Machine.execPghash h ra rb tg s := rfl
theorem exec_sysr (h : Skip) (rd : Reg) (x : BitVec 12) (s : Machine.State) :
    Machine.exec (.sysr h rd x) s = Machine.execSysr h rd x s := rfl
theorem exec_sysw (h : Skip) (x : BitVec 12) (rb : Reg) (s : Machine.State) :
    Machine.exec (.sysw h x rb) s = Machine.execSysw h x rb s := rfl

/-- What a core does with a body word, by the word's decoding. -/
def runDecoded (w : W64) (s : Machine.State) (o : Option Instr) : Machine.Result :=
  match accept w o with
  | .ok i => Machine.exec i s
  | .error _ => .next (Machine.meetIllegalRule s s.actor.core (Machine.bodyLane s).rule)

theorem runDecoded_some {w : W64} {s : Machine.State} {i : Instr} {v : W64} {b : Prop} [Decidable b]
    (he : encode i = some v) (hv : i.violation = if b then none else some .reservedValue) :
    runDecoded w s (some i) = if v = w ∧ b then Machine.exec i s
      else .next (Machine.meetIllegalRule s s.actor.core (Machine.bodyLane s).rule) := by
  unfold runDecoded accept
  simp only [he, hv, Option.some.injEq]
  by_cases h1 : v = w <;> by_cases h2 : b <;> simp only [h1, h2, if_true, if_false, and_true, and_false]

theorem runWord_wclose (w : W64) (s : Machine.State) (h : (pumpRawOf w.toNat).op = 0x95) :
    Machine.runWord w s = runDecoded w s (parsePump (skipOf w.toNat) (pumpRawOf w.toNat)) := by
  simp only [Machine.runWord, legalPump, parsePump, h]
  rw [runDecoded_some (b := True) (encode_wclose ..) (by rw [violation_wclose]; rfl)]
  split <;> rfl

theorem runWord_pghash (w : W64) (s : Machine.State) (h : (pumpRawOf w.toNat).op = 0xb2) :
    Machine.runWord w s = runDecoded w s (parsePump (skipOf w.toNat) (pumpRawOf w.toNat)) := by
  simp only [Machine.runWord, legalPump, parsePump, h]
  rw [runDecoded_some (b := True) (encode_pghash ..) (by rw [violation_pghash]; rfl)]
  split <;> rfl

theorem runWord_sysr (w : W64) (s : Machine.State) (h : (pumpRawOf w.toNat).op = 0xc0) :
    Machine.runWord w s = runDecoded w s (parsePump (skipOf w.toNat) (pumpRawOf w.toNat)) := by
  simp only [Machine.runWord, legalPump, parsePump, h]
  rw [runDecoded_some (encode_sysr ..) (violation_sysr ..)]
  split <;> rfl

theorem runWord_sysw (w : W64) (s : Machine.State) (h : (pumpRawOf w.toNat).op = 0xc1) :
    Machine.runWord w s = runDecoded w s (parsePump (skipOf w.toNat) (pumpRawOf w.toNat)) := by
  simp only [Machine.runWord, legalPump, parsePump, h]
  rw [runDecoded_some (encode_sysw ..) (violation_sysw ..)]
  split <;> rfl

theorem runWord_main (w : W64) (s : Machine.State) (h1 : (pumpRawOf w.toNat).op ≠ 0x95)
    (h2 : (pumpRawOf w.toNat).op ≠ 0xb2) (h3 : (pumpRawOf w.toNat).op ≠ 0xc0) (h4 : (pumpRawOf w.toNat).op ≠ 0xc1) :
    Machine.runWord w s = runDecoded w s (parsePump (skipOf w.toNat) (pumpRawOf w.toNat)) := by
  rw [parsePump_main _ _ h1 h2 h3 h4]
  unfold Machine.runWord
  dsimp only
  split <;> first | contradiction | rfl

/-- A core that meets a body word executes the instruction the word decodes to, and aborts at any other word. -/
theorem runWord_eq (w : W64) (s : Machine.State) :
    Machine.runWord w s = match decodePump w with
      | .ok i => Machine.exec i s
      | .error _ => .next (Machine.meetIllegalRule s s.actor.core (Machine.bodyLane s).rule) := by
  show _ = runDecoded w s (parsePump (skipOf w.toNat) (pumpRawOf w.toNat))
  by_cases h1 : (pumpRawOf w.toNat).op = 0x95
  · exact runWord_wclose w s h1
  by_cases h2 : (pumpRawOf w.toNat).op = 0xb2
  · exact runWord_pghash w s h2
  by_cases h3 : (pumpRawOf w.toNat).op = 0xc0
  · exact runWord_sysr w s h3
  by_cases h4 : (pumpRawOf w.toNat).op = 0xc1
  · exact runWord_sysw w s h4
  exact runWord_main w s h1 h2 h3 h4

end Sys2Proof
end

