-- ==== Sys2Proof/Laws/Exec.lean ====
section
/-! SUPPORT. What `exec` calls for each constructor, to rewrite with. -/

namespace Sys2Proof.Machine

theorem exec_add {g d a b} {s} : exec (.add g d a b) s = execAdd g d a b s := by delta exec; rfl
theorem exec_sub {g d a b} {s} : exec (.sub g d a b) s = execSub g d a b s := by delta exec; rfl
theorem exec_mul {g d a b} {s} : exec (.mul g d a b) s = execMul g d a b s := by delta exec; rfl
theorem exec_mulh {g d a b} {s} : exec (.mulh g d a b) s = execMulh g d a b s := by delta exec; rfl
theorem exec_mulhn {g d a b} {s} : exec (.mulhn g d a b) s = execMulhn g d a b s := by delta exec; rfl
theorem exec_adds {g n d a b} {s} : exec (.adds g n d a b) s = execAdds g n d a b s := by delta exec; rfl
theorem exec_subs {g n d a b} {s} : exec (.subs g n d a b) s = execSubs g n d a b s := by delta exec; rfl
theorem exec_and {g d a b} {s} : exec (.and g d a b) s = execAnd g d a b s := by delta exec; rfl
theorem exec_or {g d a b} {s} : exec (.or g d a b) s = execOr g d a b s := by delta exec; rfl
theorem exec_xor {g d a b} {s} : exec (.xor g d a b) s = execXor g d a b s := by delta exec; rfl
theorem exec_andn {g d a b} {s} : exec (.andn g d a b) s = execAndn g d a b s := by delta exec; rfl
theorem exec_shl {g d a b} {s} : exec (.shl g d a b) s = execShl g d a b s := by delta exec; rfl
theorem exec_shr {g d a b} {s} : exec (.shr g d a b) s = execShr g d a b s := by delta exec; rfl
theorem exec_sra {g d a b} {s} : exec (.sra g d a b) s = execSra g d a b s := by delta exec; rfl
theorem exec_rot {g d a b} {s} : exec (.rot g d a b) s = execRot g d a b s := by delta exec; rfl
theorem exec_min {g d a b} {s} : exec (.min g d a b) s = execMin g d a b s := by delta exec; rfl
theorem exec_max {g d a b} {s} : exec (.max g d a b) s = execMax g d a b s := by delta exec; rfl
theorem exec_minn {g d a b} {s} : exec (.minn g d a b) s = execMinn g d a b s := by delta exec; rfl
theorem exec_maxn {g d a b} {s} : exec (.maxn g d a b) s = execMaxn g d a b s := by delta exec; rfl
theorem exec_cmp {g rel n d a b} {s} : exec (.cmp g rel n d a b) s = execCmp g rel n d a b s := by delta exec; rfl
theorem exec_tst {g none1 d a b} {s} : exec (.tst g none1 d a b) s = execTst g none1 d a b s := by delta exec; rfl
theorem exec_sel {g pid d a b} {s} : exec (.sel g pid d a b) s = execSel g pid d a b s := by delta exec; rfl
theorem exec_clz {g d a} {s} : exec (.clz g d a) s = execClz g d a s := by delta exec; rfl
theorem exec_popc {g d a} {s} : exec (.popc g d a) s = execPopc g d a s := by delta exec; rfl
theorem exec_bfx {g n d a b} {s} : exec (.bfx g n d a b) s = execBfx g n d a b s := by delta exec; rfl
theorem exec_bfi {g d a b} {s} : exec (.bfi g d a b) s = execBfi g d a b s := by delta exec; rfl
theorem exec_mov {g d a} {s} : exec (.mov g d a) s = execMov g d a s := by delta exec; rfl
theorem exec_pset {g a} {s} : exec (.pset g a) s = execPset g a s := by delta exec; rfl
theorem exec_plog {g lop pj pk} {s} : exec (.plog g lop pj pk) s = execPlog g lop pj pk s := by delta exec; rfl
theorem exec_cnt {g n d a b} {s} : exec (.cnt g n d a b) s = execCnt g n d a b s := by delta exec; rfl
theorem exec_qset {g q a} {s} : exec (.qset g q a) s = execQset g q a s := by delta exec; rfl
theorem exec_addImm {g d a imm} {s} : exec (.addImm g d a imm) s = execAddImm g d a imm s := by delta exec; rfl
theorem exec_subImm {g d a imm} {s} : exec (.subImm g d a imm) s = execSubImm g d a imm s := by delta exec; rfl
theorem exec_mulImm {g d a imm} {s} : exec (.mulImm g d a imm) s = execMulImm g d a imm s := by delta exec; rfl
theorem exec_mulhImm {g d a imm} {s} : exec (.mulhImm g d a imm) s = execMulhImm g d a imm s := by delta exec; rfl
theorem exec_mulhnImm {g d a imm} {s} : exec (.mulhnImm g d a imm) s = execMulhnImm g d a imm s := by delta exec; rfl
theorem exec_addsImm {g d a imm} {s} : exec (.addsImm g d a imm) s = execAddsImm g d a imm s := by delta exec; rfl
theorem exec_subsImm {g d a imm} {s} : exec (.subsImm g d a imm) s = execSubsImm g d a imm s := by delta exec; rfl
theorem exec_andImm {g d a imm} {s} : exec (.andImm g d a imm) s = execAndImm g d a imm s := by delta exec; rfl
theorem exec_orImm {g d a imm} {s} : exec (.orImm g d a imm) s = execOrImm g d a imm s := by delta exec; rfl
theorem exec_xorImm {g d a imm} {s} : exec (.xorImm g d a imm) s = execXorImm g d a imm s := by delta exec; rfl
theorem exec_andnImm {g d a imm} {s} : exec (.andnImm g d a imm) s = execAndnImm g d a imm s := by delta exec; rfl
theorem exec_shlImm {g d a imm} {s} : exec (.shlImm g d a imm) s = execShlImm g d a imm s := by delta exec; rfl
theorem exec_shrImm {g d a imm} {s} : exec (.shrImm g d a imm) s = execShrImm g d a imm s := by delta exec; rfl
theorem exec_sraImm {g d a imm} {s} : exec (.sraImm g d a imm) s = execSraImm g d a imm s := by delta exec; rfl
theorem exec_rotImm {g d a imm} {s} : exec (.rotImm g d a imm) s = execRotImm g d a imm s := by delta exec; rfl
theorem exec_minImm {g d a imm} {s} : exec (.minImm g d a imm) s = execMinImm g d a imm s := by delta exec; rfl
theorem exec_maxImm {g d a imm} {s} : exec (.maxImm g d a imm) s = execMaxImm g d a imm s := by delta exec; rfl
theorem exec_minnImm {g d a imm} {s} : exec (.minnImm g d a imm) s = execMinnImm g d a imm s := by delta exec; rfl
theorem exec_maxnImm {g d a imm} {s} : exec (.maxnImm g d a imm) s = execMaxnImm g d a imm s := by delta exec; rfl
theorem exec_movi {g d imm} {s} : exec (.movi g d imm) s = execMovi g d imm s := by delta exec; rfl
theorem exec_cntImm {g d a imm} {s} : exec (.cntImm g d a imm) s = execCntImm g d a imm s := by delta exec; rfl
theorem exec_movs {g d imm} {s} : exec (.movs g d imm) s = execMovs g d imm s := by delta exec; rfl
theorem exec_nop {g} {s} : exec (.nop g) s = execNop g s := by delta exec; rfl
theorem exec_halt {g} {s} : exec (.halt g) s = execHalt g s := by delta exec; rfl
theorem exec_trap {g a} {s} : exec (.trap g a) s = execTrap g a s := by delta exec; rfl
theorem exec_plane {g k4} {s} : exec (.plane g k4) s = execPlane g k4 s := by delta exec; rfl
theorem exec_chgq {g d} {s} : exec (.chgq g d) s = execChgq g d s := by delta exec; rfl
theorem exec_vadd {g fmt d a b} {s} : exec (.vadd g fmt d a b) s = execVadd g fmt d a b s := by delta exec; rfl
theorem exec_vsub {g fmt d a b} {s} : exec (.vsub g fmt d a b) s = execVsub g fmt d a b s := by delta exec; rfl
theorem exec_vmul {g fmt d a b} {s} : exec (.vmul g fmt d a b) s = execVmul g fmt d a b s := by delta exec; rfl
theorem exec_vmax {g fmt d a b} {s} : exec (.vmax g fmt d a b) s = execVmax g fmt d a b s := by delta exec; rfl
theorem exec_vmin {g fmt d a b} {s} : exec (.vmin g fmt d a b) s = execVmin g fmt d a b s := by delta exec; rfl
theorem exec_vclamp {g fmt d a b} {s} : exec (.vclamp g fmt d a b) s = execVclamp g fmt d a b s := by delta exec; rfl
theorem exec_vfma {g fmt d a b} {s} : exec (.vfma g fmt d a b) s = execVfma g fmt d a b s := by delta exec; rfl
theorem exec_vfms {g fmt d a b} {s} : exec (.vfms g fmt d a b) s = execVfms g fmt d a b s := by delta exec; rfl
theorem exec_vabs {g fmt d a} {s} : exec (.vabs g fmt d a) s = execVabs g fmt d a s := by delta exec; rfl
theorem exec_vneg {g fmt d a} {s} : exec (.vneg g fmt d a) s = execVneg g fmt d a s := by delta exec; rfl
theorem exec_vrcp {g fmt d a} {s} : exec (.vrcp g fmt d a) s = execVrcp g fmt d a s := by delta exec; rfl
theorem exec_vrsq {g fmt d a} {s} : exec (.vrsq g fmt d a) s = execVrsq g fmt d a s := by delta exec; rfl
theorem exec_vsqrt {g fmt d a} {s} : exec (.vsqrt g fmt d a) s = execVsqrt g fmt d a s := by delta exec; rfl
theorem exec_vexp2 {g fmt d a} {s} : exec (.vexp2 g fmt d a) s = execVexp2 g fmt d a s := by delta exec; rfl
theorem exec_vlog2 {g fmt d a} {s} : exec (.vlog2 g fmt d a) s = execVlog2 g fmt d a s := by delta exec; rfl
theorem exec_vtanh {g fmt d a} {s} : exec (.vtanh g fmt d a) s = execVtanh g fmt d a s := by delta exec; rfl
theorem exec_vred {g kind fmt d a} {s} : exec (.vred g kind fmt d a) s = execVred g kind fmt d a s := by delta exec; rfl
theorem exec_vamax {g fmt d a} {s} : exec (.vamax g fmt d a) s = execVamax g fmt d a s := by delta exec; rfl
theorem exec_vcmp {g fmt d a b} {s} : exec (.vcmp g fmt d a b) s = execVcmp g fmt d a b s := by delta exec; rfl
theorem exec_vsel {g lw vtest d a b} {s} : exec (.vsel g lw vtest d a b) s = execVsel g lw vtest d a b s := by delta exec; rfl
theorem exec_vlog {g vlop d a b} {s} : exec (.vlog g vlop d a b) s = execVlog g vlop d a b s := by delta exec; rfl
theorem exec_vsh {g lw shop d a b} {s} : exec (.vsh g lw shop d a b) s = execVsh g lw shop d a b s := by delta exec; rfl
theorem exec_vbcst {g fmt d a} {s} : exec (.vbcst g fmt d a) s = execVbcst g fmt d a s := by delta exec; rfl
theorem exec_vext {g fmt d a b} {s} : exec (.vext g fmt d a b) s = execVext g fmt d a b s := by delta exec; rfl
theorem exec_vins {g fmt d a b} {s} : exec (.vins g fmt d a b) s = execVins g fmt d a b s := by delta exec; rfl
theorem exec_viota {g fmt d a b} {s} : exec (.viota g fmt d a b) s = execViota g fmt d a b s := by delta exec; rfl
theorem exec_vshuf {g lw d a b} {s} : exec (.vshuf g lw d a b) s = execVshuf g lw d a b s := by delta exec; rfl
theorem exec_vcvt {g df sf rnd d a} {s} : exec (.vcvt g df sf rnd d a) s = execVcvt g df sf rnd d a s := by delta exec; rfl
theorem exec_vpack {g df sf rnd d a} {s} : exec (.vpack g df sf rnd d a) s = execVpack g df sf rnd d a s := by delta exec; rfl
theorem exec_vunpk {g df sf rnd d a} {s} : exec (.vunpk g df sf rnd d a) s = execVunpk g df sf rnd d a s := by delta exec; rfl
theorem exec_vqnt {g df sf rnd d a} {s} : exec (.vqnt g df sf rnd d a) s = execVqnt g df sf rnd d a s := by delta exec; rfl
theorem exec_vdqnt {g df sf rnd d a} {s} : exec (.vdqnt g df sf rnd d a) s = execVdqnt g df sf rnd d a s := by delta exec; rfl
theorem exec_vrng {g rk d a b} {s} : exec (.vrng g rk d a b) s = execVrng g rk d a b s := by delta exec; rfl
theorem exec_vdrop {g fmt d a b} {s} : exec (.vdrop g fmt d a b) s = execVdrop g fmt d a b s := by delta exec; rfl
theorem exec_vacc {g fmt d a} {s} : exec (.vacc g fmt d a) s = execVacc g fmt d a s := by delta exec; rfl
theorem exec_cturn {g lw d a} {s} : exec (.cturn g lw d a) s = execCturn g lw d a s := by delta exec; rfl
theorem exec_fwd {g d a b} {s} : exec (.fwd g d a b) s = execFwd g d a b s := by delta exec; rfl
theorem exec_deq {g a bo} {s} : exec (.deq g a bo) s = execDeq g a bo s := by delta exec; rfl
theorem exec_steer {g d a b} {s} : exec (.steer g d a b) s = execSteer g d a b s := by delta exec; rfl
theorem exec_mrgo {g d a b} {s} : exec (.mrgo g d a b) s = execMrgo g d a b s := by delta exec; rfl
theorem exec_mrga {g d a b} {s} : exec (.mrga g d a b) s = execMrga g d a b s := by delta exec; rfl
theorem exec_tag {g tagv d a} {s} : exec (.tag g tagv d a) s = execTag g tagv d a s := by delta exec; rfl
theorem exec_markStroke {g} {s} : exec (.markStroke g) s = execMarkStroke g s := by delta exec; rfl
theorem exec_markDrain {g} {s} : exec (.markDrain g) s = execMarkDrain g s := by delta exec; rfl
theorem exec_markFreeze {g} {s} : exec (.markFreeze g) s = execMarkFreeze g s := by delta exec; rfl
theorem exec_markBarrier {g d} {s} : exec (.markBarrier g d) s = execMarkBarrier g d s := by delta exec; rfl
theorem exec_markCut {g d a} {s} : exec (.markCut g d a) s = execMarkCut g d a s := by delta exec; rfl
theorem exec_crget {g ring d} {s} : exec (.crget g ring d) s = execCrget g ring d s := by delta exec; rfl
theorem exec_crput {g ring a} {s} : exec (.crput g ring a) s = execCrput g ring a s := by delta exec; rfl
theorem exec_ld {g mw n d a b} {s} : exec (.ld g mw n d a b) s = execLd g mw n d a b s := by delta exec; rfl
theorem exec_st {g mw n a b} {s} : exec (.st g mw n a b) s = execSt g mw n a b s := by delta exec; rfl
theorem exec_vld {g d a b} {s} : exec (.vld g d a b) s = execVld g d a b s := by delta exec; rfl
theorem exec_vst {g a b} {s} : exec (.vst g a b) s = execVst g a b s := by delta exec; rfl
theorem exec_lds {g d a b} {s} : exec (.lds g d a b) s = execLds g d a b s := by delta exec; rfl
theorem exec_stf {g a b} {s} : exec (.stf g a b) s = execStf g a b s := by delta exec; rfl
theorem exec_ldc {g d a b} {s} : exec (.ldc g d a b) s = execLdc g d a b s := by delta exec; rfl
theorem exec_xlat {g wr d a} {s} : exec (.xlat g wr d a) s = execXlat g wr d a s := by delta exec; rfl
theorem exec_agenRearm {g d a} {s} : exec (.agenRearm g d a) s = execAgenRearm g d a s := by delta exec; rfl
theorem exec_agenStep {g d} {s} : exec (.agenStep g d) s = execAgenStep g d s := by delta exec; rfl
theorem exec_atom {g aop n d a b} {s} : exec (.atom g aop n d a b) s = execAtom g aop n d a b s := by delta exec; rfl
theorem exec_ownapApply {g a} {s} : exec (.ownapApply g a) s = execOwnapApply g a s := by delta exec; rfl
theorem exec_ownapReadout {g d a} {s} : exec (.ownapReadout g d a) s = execOwnapReadout g d a s := by delta exec; rfl
theorem exec_cld {g mw n d a} {s} : exec (.cld g mw n d a) s = execCld g mw n d a s := by delta exec; rfl
theorem exec_cst {g mw n a b} {s} : exec (.cst g mw n a b) s = execCst g mw n a b s := by delta exec; rfl
theorem exec_cvld {g d a} {s} : exec (.cvld g d a) s = execCvld g d a s := by delta exec; rfl
theorem exec_cvst {g a b} {s} : exec (.cvst g a b) s = execCvst g a b s := by delta exec; rfl
theorem exec_rtake {g d a} {s} : exec (.rtake g d a) s = execRtake g d a s := by delta exec; rfl
theorem exec_mxcfg {g d a} {s} : exec (.mxcfg g d a) s = execMxcfg g d a s := by delta exec; rfl
theorem exec_mxstat {g d a} {s} : exec (.mxstat g d a) s = execMxstat g d a s := by delta exec; rfl
theorem exec_mxldb {g d a b} {s} : exec (.mxldb g d a b) s = execMxldb g d a b s := by delta exec; rfl
theorem exec_mxrow {g d a b} {s} : exec (.mxrow g d a b) s = execMxrow g d a b s := by delta exec; rfl
theorem exec_mxacc {g d a b} {s} : exec (.mxacc g d a b) s = execMxacc g d a b s := by delta exec; rfl
theorem exec_mxdrn {g d a b} {s} : exec (.mxdrn g d a b) s = execMxdrn g d a b s := by delta exec; rfl
theorem exec_mxgrp {g d a} {s} : exec (.mxgrp g d a) s = execMxgrp g d a s := by delta exec; rfl
theorem exec_sxcpy {g d a} {s} : exec (.sxcpy g d a) s = execSxcpy g d a s := by delta exec; rfl
theorem exec_sxgth {g d a} {s} : exec (.sxgth g d a) s = execSxgth g d a s := by delta exec; rfl
theorem exec_sxsct {g d a} {s} : exec (.sxsct g d a) s = execSxsct g d a s := by delta exec; rfl
theorem exec_sxdeep {g d a} {s} : exec (.sxdeep g d a) s = execSxdeep g d a s := by delta exec; rfl
theorem exec_xpcfg {g d a} {s} : exec (.xpcfg g d a) s = execXpcfg g d a s := by delta exec; rfl
theorem exec_wrsrt {g d a} {s} : exec (.wrsrt g d a) s = execWrsrt g d a s := by delta exec; rfl
theorem exec_phint {g a b} {s} : exec (.phint g a b) s = execPhint g a b s := by delta exec; rfl
theorem exec_pumpAdd {h w n rd ra pb} {s} : exec (.pumpAdd h w n rd ra pb) s = execPumpAdd h w n rd ra pb s := by delta exec; rfl
theorem exec_pumpSub {h w n rd ra pb} {s} : exec (.pumpSub h w n rd ra pb) s = execPumpSub h w n rd ra pb s := by delta exec; rfl
theorem exec_pumpMul {h w n rd ra pb} {s} : exec (.pumpMul h w n rd ra pb) s = execPumpMul h w n rd ra pb s := by delta exec; rfl
theorem exec_pumpMulh {h w rd ra pb} {s} : exec (.pumpMulh h w rd ra pb) s = execPumpMulh h w rd ra pb s := by delta exec; rfl
theorem exec_pumpMulhn {h w rd ra pb} {s} : exec (.pumpMulhn h w rd ra pb) s = execPumpMulhn h w rd ra pb s := by delta exec; rfl
theorem exec_pumpAdds {h w n rd ra pb} {s} : exec (.pumpAdds h w n rd ra pb) s = execPumpAdds h w n rd ra pb s := by delta exec; rfl
theorem exec_pumpSubs {h w n rd ra pb} {s} : exec (.pumpSubs h w n rd ra pb) s = execPumpSubs h w n rd ra pb s := by delta exec; rfl
theorem exec_pumpAnd {h w n rd ra pb} {s} : exec (.pumpAnd h w n rd ra pb) s = execPumpAnd h w n rd ra pb s := by delta exec; rfl
theorem exec_pumpOr {h w n rd ra pb} {s} : exec (.pumpOr h w n rd ra pb) s = execPumpOr h w n rd ra pb s := by delta exec; rfl
theorem exec_pumpXor {h w n rd ra pb} {s} : exec (.pumpXor h w n rd ra pb) s = execPumpXor h w n rd ra pb s := by delta exec; rfl
theorem exec_pumpAndn {h w n rd ra pb} {s} : exec (.pumpAndn h w n rd ra pb) s = execPumpAndn h w n rd ra pb s := by delta exec; rfl
theorem exec_pumpShl {h w n rd ra pb} {s} : exec (.pumpShl h w n rd ra pb) s = execPumpShl h w n rd ra pb s := by delta exec; rfl
theorem exec_pumpShr {h w rd ra pb} {s} : exec (.pumpShr h w rd ra pb) s = execPumpShr h w rd ra pb s := by delta exec; rfl
theorem exec_pumpSra {h w rd ra pb} {s} : exec (.pumpSra h w rd ra pb) s = execPumpSra h w rd ra pb s := by delta exec; rfl
theorem exec_pumpRot {h w n rd ra pb} {s} : exec (.pumpRot h w n rd ra pb) s = execPumpRot h w n rd ra pb s := by delta exec; rfl
theorem exec_pumpMin {h w rd ra pb} {s} : exec (.pumpMin h w rd ra pb) s = execPumpMin h w rd ra pb s := by delta exec; rfl
theorem exec_pumpMax {h w rd ra pb} {s} : exec (.pumpMax h w rd ra pb) s = execPumpMax h w rd ra pb s := by delta exec; rfl
theorem exec_pumpMinn {h w rd ra pb} {s} : exec (.pumpMinn h w rd ra pb) s = execPumpMinn h w rd ra pb s := by delta exec; rfl
theorem exec_pumpMaxn {h w rd ra pb} {s} : exec (.pumpMaxn h w rd ra pb) s = execPumpMaxn h w rd ra pb s := by delta exec; rfl
theorem exec_pumpCmp {h rel w n rd ra pb} {s} : exec (.pumpCmp h rel w n rd ra pb) s = execPumpCmp h rel w n rd ra pb s := by delta exec; rfl
theorem exec_pumpTst {h none1 w n rd ra pb} {s} : exec (.pumpTst h none1 w n rd ra pb) s = execPumpTst h none1 w n rd ra pb s := by delta exec; rfl
theorem exec_pumpSel {h w n pd5i rd ra rb} {s} : exec (.pumpSel h w n pd5i rd ra rb) s = execPumpSel h w n pd5i rd ra rb s := by delta exec; rfl
theorem exec_pumpClz {h w n rd ra} {s} : exec (.pumpClz h w n rd ra) s = execPumpClz h w n rd ra s := by delta exec; rfl
theorem exec_pumpPopc {h w n rd ra} {s} : exec (.pumpPopc h w n rd ra) s = execPumpPopc h w n rd ra s := by delta exec; rfl
theorem exec_pumpBfx {h w n rd ra rb} {s} : exec (.pumpBfx h w n rd ra rb) s = execPumpBfx h w n rd ra rb s := by delta exec; rfl
theorem exec_pumpBfi {h w n rd ra rb} {s} : exec (.pumpBfi h w n rd ra rb) s = execPumpBfi h w n rd ra rb s := by delta exec; rfl
theorem exec_pumpMov {h w n rd pm} {s} : exec (.pumpMov h w n rd pm) s = execPumpMov h w n rd pm s := by delta exec; rfl
theorem exec_pumpPset {h w pd5 pb} {s} : exec (.pumpPset h w pd5 pb) s = execPumpPset h w pd5 pb s := by delta exec; rfl
theorem exec_pumpPlog {h lop w pd5 pa5 pb5} {s} : exec (.pumpPlog h lop w pd5 pa5 pb5) s = execPumpPlog h lop w pd5 pa5 pb5 s := by delta exec; rfl
theorem exec_div {h w rd ra pb} {s} : exec (.div h w rd ra pb) s = execDiv h w rd ra pb s := by delta exec; rfl
theorem exec_divn {h w rd ra pb} {s} : exec (.divn h w rd ra pb) s = execDivn h w rd ra pb s := by delta exec; rfl
theorem exec_rem {h w n rd ra pb} {s} : exec (.rem h w n rd ra pb) s = execRem h w n rd ra pb s := by delta exec; rfl
theorem exec_movk {h rd v16 fld} {s} : exec (.movk h rd v16 fld) s = execMovk h rd v16 fld s := by delta exec; rfl
theorem exec_pumpLd {h w n rd ra disp} {s} : exec (.pumpLd h w n rd ra disp) s = execPumpLd h w n rd ra disp s := by delta exec; rfl
theorem exec_pumpSt {h w n ra rb disp} {s} : exec (.pumpSt h w n ra rb disp) s = execPumpSt h w n ra rb disp s := by delta exec; rfl
theorem exec_pumpLds {h n rd ra disp} {s} : exec (.pumpLds h n rd ra disp) s = execPumpLds h n rd ra disp s := by delta exec; rfl
theorem exec_pumpStf {h n ra rb disp} {s} : exec (.pumpStf h n ra rb disp) s = execPumpStf h n ra rb disp s := by delta exec; rfl
theorem exec_pumpLdc {h n rd ra disp} {s} : exec (.pumpLdc h n rd ra disp) s = execPumpLdc h n rd ra disp s := by delta exec; rfl
theorem exec_cas {h w n rd ra rb disp} {s} : exec (.cas h w n rd ra rb disp) s = execCas h w n rd ra rb disp s := by delta exec; rfl
theorem exec_swap {h w n rd ra rb disp} {s} : exec (.swap h w n rd ra rb disp) s = execSwap h w n rd ra rb disp s := by delta exec; rfl
theorem exec_fadd {h w n rd ra rb disp} {s} : exec (.fadd h w n rd ra rb disp) s = execFadd h w n rd ra rb disp s := by delta exec; rfl
theorem exec_fmin {h w n rd ra rb disp} {s} : exec (.fmin h w n rd ra rb disp) s = execFmin h w n rd ra rb disp s := by delta exec; rfl
theorem exec_fmax {h w n rd ra rb disp} {s} : exec (.fmax h w n rd ra rb disp) s = execFmax h w n rd ra rb disp s := by delta exec; rfl
theorem exec_fand {h w n rd ra rb disp} {s} : exec (.fand h w n rd ra rb disp) s = execFand h w n rd ra rb disp s := by delta exec; rfl
theorem exec_fOr {h w n rd ra rb disp} {s} : exec (.fOr h w n rd ra rb disp) s = execFOr h w n rd ra rb disp s := by delta exec; rfl
theorem exec_fxadd {h xf ra rb disp} {s} : exec (.fxadd h xf ra rb disp) s = execFxadd h xf ra rb disp s := by delta exec; rfl
theorem exec_fxaddRd {h xf clr rd ra disp} {s} : exec (.fxaddRd h xf clr rd ra disp) s = execFxaddRd h xf clr rd ra disp s := by delta exec; rfl
theorem exec_waitv {h w n mon rd ra rb disp} {s} : exec (.waitv h w n mon rd ra rb disp) s = execWaitv h w n mon rd ra rb disp s := by delta exec; rfl
theorem exec_fenceAcq {h scope} {s} : exec (.fenceAcq h scope) s = execFenceAcq h scope s := by delta exec; rfl
theorem exec_fenceRel {h scope} {s} : exec (.fenceRel h scope) s = execFenceRel h scope s := by delta exec; rfl
theorem exec_fenceFull {h scope} {s} : exec (.fenceFull h scope) s = execFenceFull h scope s := by delta exec; rfl
theorem exec_skip {h cnt24} {s} : exec (.skip h cnt24) s = execSkip h cnt24 s := by delta exec; rfl
theorem exec_abort {h} {s} : exec (.abort h) s = execAbort h s := by delta exec; rfl
theorem exec_noteSend {h ra rb} {s} : exec (.noteSend h ra rb) s = execNoteSend h ra rb s := by delta exec; rfl
theorem exec_noteTake {h rd} {s} : exec (.noteTake h rd) s = execNoteTake h rd s := by delta exec; rfl
theorem exec_timerOnce {h rd ra} {s} : exec (.timerOnce h rd ra) s = execTimerOnce h rd ra s := by delta exec; rfl
theorem exec_timerPer {h rd ra} {s} : exec (.timerPer h rd ra) s = execTimerPer h rd ra s := by delta exec; rfl
theorem exec_enq {h ra rb} {s} : exec (.enq h ra rb) s = execEnq h ra rb s := by delta exec; rfl
theorem exec_deqq {h rd ra rb} {s} : exec (.deqq h rd ra rb) s = execDeqq h rd ra rb s := by delta exec; rfl
theorem exec_tailw {h ra rb} {s} : exec (.tailw h ra rb) s = execTailw h ra rb s := by delta exec; rfl
theorem exec_launch {h rd ra rb} {s} : exec (.launch h rd ra rb) s = execLaunch h rd ra rb s := by delta exec; rfl
theorem exec_kstat {h rd ra} {s} : exec (.kstat h rd ra) s = execKstat h rd ra s := by delta exec; rfl
theorem exec_digest {h rd ra rb} {s} : exec (.digest h rd ra rb) s = execDigest h rd ra rb s := by delta exec; rfl
theorem exec_trigbBind {h rd ra rb} {s} : exec (.trigbBind h rd ra rb) s = execTrigbBind h rd ra rb s := by delta exec; rfl
theorem exec_trigbUnbind {h rd ra} {s} : exec (.trigbUnbind h rd ra) s = execTrigbUnbind h rd ra s := by delta exec; rfl
theorem exec_trigbQuery {h rd ra} {s} : exec (.trigbQuery h rd ra) s = execTrigbQuery h rd ra s := by delta exec; rfl
theorem exec_regionAlloc {h rd ra} {s} : exec (.regionAlloc h rd ra) s = execRegionAlloc h rd ra s := by delta exec; rfl
theorem exec_regionFree {h rd ra} {s} : exec (.regionFree h rd ra) s = execRegionFree h rd ra s := by delta exec; rfl
theorem exec_rpoolFill {h rd ra pool die2} {s} : exec (.rpoolFill h rd ra pool die2) s = execRpoolFill h rd ra pool die2 s := by delta exec; rfl
theorem exec_rpoolClose {h rd ra pool die2} {s} : exec (.rpoolClose h rd ra pool die2) s = execRpoolClose h rd ra pool die2 s := by delta exec; rfl
theorem exec_rpoolQuery {h rd ra pool die2} {s} : exec (.rpoolQuery h rd ra pool die2) s = execRpoolQuery h rd ra pool die2 s := by delta exec; rfl
theorem exec_cfgw {h ra rb tg} {s} : exec (.cfgw h ra rb tg) s = execCfgw h ra rb tg s := by delta exec; rfl
theorem exec_cfgrdReq {h ra tg} {s} : exec (.cfgrdReq h ra tg) s = execCfgrdReq h ra tg s := by delta exec; rfl
theorem exec_cfgrdTake {h rd} {s} : exec (.cfgrdTake h rd) s = execCfgrdTake h rd s := by delta exec; rfl
theorem exec_cfgsig {h ra rb key tg} {s} : exec (.cfgsig h ra rb key tg) s = execCfgsig h ra rb key tg s := by delta exec; rfl
theorem exec_crcCfg {h ra rb tg} {s} : exec (.crcCfg h ra rb tg) s = execCrcCfg h ra rb tg s := by delta exec; rfl
theorem exec_crcMem {h rd ra rb} {s} : exec (.crcMem h rd ra rb) s = execCrcMem h rd ra rb s := by delta exec; rfl
theorem exec_route {h rd ra rb} {s} : exec (.route h rd ra rb) s = execRoute h rd ra rb s := by delta exec; rfl
theorem exec_prime {h ra k4 tg} {s} : exec (.prime h ra k4 tg) s = execPrime h ra k4 tg s := by delta exec; rfl
theorem exec_freeze {h ra tg} {s} : exec (.freeze h ra tg) s = execFreeze h ra tg s := by delta exec; rfl
theorem exec_freezeStroke {h ra tg} {s} : exec (.freezeStroke h ra tg) s = execFreezeStroke h ra tg s := by delta exec; rfl
theorem exec_thaw {h ra tg} {s} : exec (.thaw h ra tg) s = execThaw h ra tg s := by delta exec; rfl
theorem exec_imgoutMem {h ra rb tg} {s} : exec (.imgoutMem h ra rb tg) s = execImgoutMem h ra rb tg s := by delta exec; rfl
theorem exec_imgoutShadow {h ra tg} {s} : exec (.imgoutShadow h ra tg) s = execImgoutShadow h ra tg s := by delta exec; rfl
theorem exec_imgoutBack {h ra tg} {s} : exec (.imgoutBack h ra tg) s = execImgoutBack h ra tg s := by delta exec; rfl
theorem exec_rsload {h ra rb tg} {s} : exec (.rsload h ra rb tg) s = execRsload h ra rb tg s := by delta exec; rfl
theorem exec_warm {h rd ra rb} {s} : exec (.warm h rd ra rb) s = execWarm h rd ra rb s := by delta exec; rfl
theorem exec_wcand {h rd ra} {s} : exec (.wcand h rd ra) s = execWcand h rd ra s := by delta exec; rfl
theorem exec_verd {h ra rb} {s} : exec (.verd h ra rb) s = execVerd h ra rb s := by delta exec; rfl
theorem exec_wdraw {h rd ra rb} {s} : exec (.wdraw h rd ra rb) s = execWdraw h rd ra rb s := by delta exec; rfl
theorem exec_wstat {h item rd ra v16} {s} : exec (.wstat h item rd ra v16) s = execWstat h item rd ra v16 s := by delta exec; rfl
theorem exec_bara {h ra} {s} : exec (.bara h ra) s = execBara h ra s := by delta exec; rfl
theorem exec_barmSet {h ra rb} {s} : exec (.barmSet h ra rb) s = execBarmSet h ra rb s := by delta exec; rfl
theorem exec_barmTake {h rd} {s} : exec (.barmTake h rd) s = execBarmTake h rd s := by delta exec; rfl
theorem exec_pbudgSet {h ra rb} {s} : exec (.pbudgSet h ra rb) s = execPbudgSet h ra rb s := by delta exec; rfl
theorem exec_pbudgGet {h rd ra} {s} : exec (.pbudgGet h rd ra) s = execPbudgGet h rd ra s := by delta exec; rfl
theorem exec_spineFreq {h ra rb tg} {s} : exec (.spineFreq h ra rb tg) s = execSpineFreq h ra rb tg s := by delta exec; rfl
theorem exec_spineSel {h ra rb tg} {s} : exec (.spineSel h ra rb tg) s = execSpineSel h ra rb tg s := by delta exec; rfl
theorem exec_pumpPhint {h ra onset len16} {s} : exec (.pumpPhint h ra onset len16) s = execPumpPhint h ra onset len16 s := by delta exec; rfl
theorem exec_tlbiPage {h ra} {s} : exec (.tlbiPage h ra) s = execTlbiPage h ra s := by delta exec; rfl
theorem exec_tlbiCtx {h} {s} : exec (.tlbiCtx h) s = execTlbiCtx h s := by delta exec; rfl
theorem exec_tlbiAll {h} {s} : exec (.tlbiAll h) s = execTlbiAll h s := by delta exec; rfl
theorem exec_migrMove {h ra rb tg} {s} : exec (.migrMove h ra rb tg) s = execMigrMove h ra rb tg s := by delta exec; rfl
theorem exec_migrOut {h ra rb tg} {s} : exec (.migrOut h ra rb tg) s = execMigrOut h ra rb tg s := by delta exec; rfl
theorem exec_migrIn {h ra rb tg} {s} : exec (.migrIn h ra rb tg) s = execMigrIn h ra rb tg s := by delta exec; rfl
theorem exec_wclose {h ra} {s} : exec (.wclose h ra) s = execWclose h ra s := by delta exec; rfl
theorem exec_pghash {h ra rb tg} {s} : exec (.pghash h ra rb tg) s = execPghash h ra rb tg s := by delta exec; rfl
theorem exec_sysr {h rd sidx} {s} : exec (.sysr h rd sidx) s = execSysr h rd sidx s := by delta exec; rfl
theorem exec_sysw {h sidx rb} {s} : exec (.sysw h sidx rb) s = execSysw h sidx rb s := by delta exec; rfl
theorem exec_vectorResultWrite {t e} {s} : exec (.vectorResultWrite t e) s = execVectorResultWrite t e s := by delta exec; rfl
theorem exec_loadDataReturn {t e rq} {s} : exec (.loadDataReturn t e rq) s = execLoadDataReturn t e rq s := by delta exec; rfl
theorem exec_feWordFullWake {t e rq} {s} : exec (.feWordFullWake t e rq) s = execFeWordFullWake t e rq s := by delta exec; rfl
theorem exec_xlatWalkComplete {t e rq} {s} : exec (.xlatWalkComplete t e rq) s = execXlatWalkComplete t e rq s := by delta exec; rfl
theorem exec_rangeTokenReply {t e rq} {s} : exec (.rangeTokenReply t e rq) s = execRangeTokenReply t e rq s := by delta exec; rfl
theorem exec_pageWalkComplete {t e rq} {s} : exec (.pageWalkComplete t e rq) s = execPageWalkComplete t e rq s := by delta exec; rfl
theorem exec_memoryFaultFound {t e rq what} {s} : exec (.memoryFaultFound t e rq what) s = execMemoryFaultFound t e rq what s := by delta exec; rfl
theorem exec_islandCommandStart {en} {s} : exec (.islandCommandStart en) s = execIslandCommandStart en s := by delta exec; rfl
theorem exec_islandBLoadComplete {en} {s} : exec (.islandBLoadComplete en) s = execIslandBLoadComplete en s := by delta exec; rfl
theorem exec_islandRowStart {en} {s} : exec (.islandRowStart en) s = execIslandRowStart en s := by delta exec; rfl
theorem exec_islandDrainRow {en} {s} : exec (.islandDrainRow en) s = execIslandDrainRow en s := by delta exec; rfl
theorem exec_islandFault {en} {s} : exec (.islandFault en) s = execIslandFault en s := by delta exec; rfl
theorem exec_islandLoadResume {en} {s} : exec (.islandLoadResume en) s = execIslandLoadResume en s := by delta exec; rfl
theorem exec_engineError {en} {s} : exec (.engineError en) s = execEngineError en s := by delta exec; rfl
theorem exec_streamCommandStart {en} {s} : exec (.streamCommandStart en) s = execStreamCommandStart en s := by delta exec; rfl
theorem exec_streamCommandComplete {en} {s} : exec (.streamCommandComplete en) s = execStreamCommandComplete en s := by delta exec; rfl
theorem exec_streamFaultResume {en} {s} : exec (.streamFaultResume en) s = execStreamFaultResume en s := by delta exec; rfl
theorem exec_expanderBlockComplete {en} {s} : exec (.expanderBlockComplete en) s = execExpanderBlockComplete en s := by delta exec; rfl
theorem exec_expanderStreamSlotFree {en} {s} : exec (.expanderStreamSlotFree en) s = execExpanderStreamSlotFree en s := by delta exec; rfl
theorem exec_weirSortComplete {en} {s} : exec (.weirSortComplete en) s = execWeirSortComplete en s := by delta exec; rfl
theorem exec_engineReply {en} {s} : exec (.engineReply en) s = execEngineReply en s := by delta exec; rfl
theorem exec_rangeServerServe {die} {s} : exec (.rangeServerServe die) s = execRangeServerServe die s := by delta exec; rfl
theorem exec_poolTableReadComplete {pk} {s} : exec (.poolTableReadComplete pk) s = execPoolTableReadComplete pk s := by delta exec; rfl
theorem exec_timerExpiry {core} {s} : exec (.timerExpiry core) s = execTimerExpiry core s := by delta exec; rfl
theorem exec_monitorFire {core k} {s} : exec (.monitorFire core k) s = execMonitorFire core k s := by delta exec; rfl
theorem exec_configReplyArrival {core} {s} : exec (.configReplyArrival core) s = execConfigReplyArrival core s := by delta exec; rfl
theorem exec_migrComplete {id} {s} : exec (.migrComplete id) s = execMigrComplete id s := by delta exec; rfl
theorem exec_strokeLengthExpiry {r} {s} : exec (.strokeLengthExpiry r) s = execStrokeLengthExpiry r s := by delta exec; rfl
theorem exec_strokeMarkInject {r} {s} : exec (.strokeMarkInject r) s = execStrokeMarkInject r s := by delta exec; rfl
theorem exec_markAligned {at_} {s} : exec (.markAligned at_) s = execMarkAligned at_ s := by delta exec; rfl
theorem exec_barrierAligned {at_} {s} : exec (.barrierAligned at_) s = execBarrierAligned at_ s := by delta exec; rfl
theorem exec_strokeClose {r} {s} : exec (.strokeClose r) s = execStrokeClose r s := by delta exec; rfl
theorem exec_strokeDrainComplete {r} {s} : exec (.strokeDrainComplete r) s = execStrokeDrainComplete r s := by delta exec; rfl
theorem exec_drainInject {r} {s} : exec (.drainInject r) s = execDrainInject r s := by delta exec; rfl
theorem exec_planeSwitch {r} {s} : exec (.planeSwitch r) s = execPlaneSwitch r s := by delta exec; rfl
theorem exec_cutArrival {t e} {s} : exec (.cutArrival t e) s = execCutArrival t e s := by delta exec; rfl
theorem exec_ringSpill {t e c} {s} : exec (.ringSpill t e c) s = execRingSpill t e c s := by delta exec; rfl
theorem exec_ringRefill {t e c} {s} : exec (.ringRefill t e c) s = execRingRefill t e c s := by delta exec; rfl
theorem exec_primeComplete {r} {s} : exec (.primeComplete r) s = execPrimeComplete r s := by delta exec; rfl
theorem exec_freezeWaveComplete {r} {s} : exec (.freezeWaveComplete r) s = execFreezeWaveComplete r s := by delta exec; rfl
theorem exec_kernelQuiescence {r} {s} : exec (.kernelQuiescence r) s = execKernelQuiescence r s := by delta exec; rfl
theorem exec_kernelRetire {r} {s} : exec (.kernelRetire r) s = execKernelRetire r s := by delta exec; rfl
theorem exec_watchdogExpiry {r} {s} : exec (.watchdogExpiry r) s = execWatchdogExpiry r s := by delta exec; rfl
theorem exec_configEccError {t caddr} {s} : exec (.configEccError t caddr) s = execConfigEccError t caddr s := by delta exec; rfl
theorem exec_configScrub {t} {s} : exec (.configScrub t) s = execConfigScrub t s := by delta exec; rfl
theorem exec_queueEnable {q} {s} : exec (.queueEnable q) s = execQueueEnable q s := by delta exec; rfl
theorem exec_queueDisable {q} {s} : exec (.queueDisable q) s = execQueueDisable q s := by delta exec; rfl
theorem exec_queueRetry {q} {s} : exec (.queueRetry q) s = execQueueRetry q s := by delta exec; rfl
theorem exec_queueSkip {q} {s} : exec (.queueSkip q) s = execQueueSkip q s := by delta exec; rfl
theorem exec_tailWrite {src q tail} {s} : exec (.tailWrite src q tail) s = execTailWrite src q tail s := by delta exec; rfl
theorem exec_recordStart {die} {s} : exec (.recordStart die) s = execRecordStart die s := by delta exec; rfl
theorem exec_recordComplete {q idx} {s} : exec (.recordComplete q idx) s = execRecordComplete q idx s := by delta exec; rfl
theorem exec_queueEngineFault {q} {s} : exec (.queueEngineFault q) s = execQueueEngineFault q s := by delta exec; rfl
theorem exec_triggerFire {bk} {s} : exec (.triggerFire bk) s = execTriggerFire bk s := by delta exec; rfl
theorem exec_triggerPendingDelivery {bk} {s} : exec (.triggerPendingDelivery bk) s = execTriggerPendingDelivery bk s := by delta exec; rfl
theorem exec_groupLaunch {gid} {s} : exec (.groupLaunch gid) s = execGroupLaunch gid s := by delta exec; rfl
theorem exec_create {cx} {s} : exec (.create cx) s = execCreate cx s := by delta exec; rfl
theorem exec_bind {cx} {s} : exec (.bind cx) s = execBind cx s := by delta exec; rfl
theorem exec_ctxFreeze {cx} {s} : exec (.ctxFreeze cx) s = execCtxFreeze cx s := by delta exec; rfl
theorem exec_ctxThaw {cx} {s} : exec (.ctxThaw cx) s = execCtxThaw cx s := by delta exec; rfl
theorem exec_swapout {cx} {s} : exec (.swapout cx) s = execSwapout cx s := by delta exec; rfl
theorem exec_swapin {cx} {s} : exec (.swapin cx) s = execSwapin cx s := by delta exec; rfl
theorem exec_clear {cx} {s} : exec (.clear cx) s = execClear cx s := by delta exec; rfl
theorem exec_kill {cx} {s} : exec (.kill cx) s = execKill cx s := by delta exec; rfl
theorem exec_ctxCleanupComplete {cx} {s} : exec (.ctxCleanupComplete cx) s = execCtxCleanupComplete cx s := by delta exec; rfl
theorem exec_ctxFreezeComplete {cx} {s} : exec (.ctxFreezeComplete cx) s = execCtxFreezeComplete cx s := by delta exec; rfl
theorem exec_ctxFault {cx} {s} : exec (.ctxFault cx) s = execCtxFault cx s := by delta exec; rfl
theorem exec_treeBarrierArrival {bk} {s} : exec (.treeBarrierArrival bk) s = execTreeBarrierArrival bk s := by delta exec; rfl
theorem exec_shootdownComplete {id} {s} : exec (.shootdownComplete id) s = execShootdownComplete id s := by delta exec; rfl
theorem exec_pagePoison {cx va} {s} : exec (.pagePoison cx va) s = execPagePoison cx va s := by delta exec; rfl
theorem exec_pfres {die val} {s} : exec (.pfres die val) s = execPfres die val s := by delta exec; rfl
theorem exec_linkEnable {k en} {s} : exec (.linkEnable k en) s = execLinkEnable k en s := by delta exec; rfl
theorem exec_retrain {k} {s} : exec (.retrain k) s = execRetrain k s := by delta exec; rfl
theorem exec_linkTrained {k lanes} {s} : exec (.linkTrained k lanes) s = execLinkTrained k lanes s := by delta exec; rfl
theorem exec_linkTrainingFail {k} {s} : exec (.linkTrainingFail k) s = execLinkTrainingFail k s := by delta exec; rfl
theorem exec_linkLaneLoss {k lane} {s} : exec (.linkLaneLoss k lane) s = execLinkLaneLoss k lane s := by delta exec; rfl
theorem exec_flitReceive {k fl} {s} : exec (.flitReceive k fl) s = execFlitReceive k fl s := by delta exec; rfl
theorem exec_flitAck {k n} {s} : exec (.flitAck k n) s = execFlitAck k n s := by delta exec; rfl
theorem exec_ingestFrame {port frame} {s} : exec (.ingestFrame port frame) s = execIngestFrame port frame s := by delta exec; rfl
theorem exec_hostRead {bar off len} {s} : exec (.hostRead bar off len) s = execHostRead bar off len s := by delta exec; rfl
theorem exec_hostWrite {bar off data} {s} : exec (.hostWrite bar off data) s = execHostWrite bar off data s := by delta exec; rfl
theorem exec_registerWrite {off len val} {s} : exec (.registerWrite off len val) s = execRegisterWrite off len val s := by delta exec; rfl
theorem exec_publish {wl} {s} : exec (.publish wl) s = execPublish wl s := by delta exec; rfl
theorem exec_candidateWrite {wl} {s} : exec (.candidateWrite wl) s = execCandidateWrite wl s := by delta exec; rfl
theorem exec_drawCopy {wl} {s} : exec (.drawCopy wl) s = execDrawCopy wl s := by delta exec; rfl
theorem exec_rdposWrite {wl} {s} : exec (.rdposWrite wl) s = execRdposWrite wl s := by delta exec; rfl
theorem exec_chargeIntervalStart {s} : exec (.chargeIntervalStart) s = execChargeIntervalStart s := by delta exec; rfl
theorem exec_chargeDose {s} : exec (.chargeDose) s = execChargeDose s := by delta exec; rfl
theorem exec_hintRampStep {die cx} {s} : exec (.hintRampStep die cx) s = execHintRampStep die cx s := by delta exec; rfl
theorem exec_spineFreqStep {sp} {s} : exec (.spineFreqStep sp) s = execSpineFreqStep sp s := by delta exec; rfl
theorem exec_spineSwitchComplete {t} {s} : exec (.spineSwitchComplete t) s = execSpineSwitchComplete t s := by delta exec; rfl
theorem exec_t1 {die} {s} : exec (.t1 die) s = execT1 die s := by delta exec; rfl
theorem exec_t2 {die} {s} : exec (.t2 die) s = execT2 die s := by delta exec; rfl
theorem exec_t3 {die} {s} : exec (.t3 die) s = execT3 die s := by delta exec; rfl
theorem exec_t4 {die} {s} : exec (.t4 die) s = execT4 die s := by delta exec; rfl
theorem exec_thermalClear {die trip} {s} : exec (.thermalClear die trip) s = execThermalClear die trip s := by delta exec; rfl
theorem exec_boot {bo} {s} : exec (.boot bo) s = execBoot bo s := by delta exec; rfl
theorem exec_getVersion {rq} {s} : exec (.getVersion rq) s = execGetVersion rq s := by delta exec; rfl
theorem exec_getCapabilities {rq} {s} : exec (.getCapabilities rq) s = execGetCapabilities rq s := by delta exec; rfl
theorem exec_negotiateAlgorithms {rq} {s} : exec (.negotiateAlgorithms rq) s = execNegotiateAlgorithms rq s := by delta exec; rfl
theorem exec_getDigests {rq} {s} : exec (.getDigests rq) s = execGetDigests rq s := by delta exec; rfl
theorem exec_getCertificate {rq} {s} : exec (.getCertificate rq) s = execGetCertificate rq s := by delta exec; rfl
theorem exec_challenge {rq} {s} : exec (.challenge rq) s = execChallenge rq s := by delta exec; rfl
theorem exec_getMeasurements {rq} {s} : exec (.getMeasurements rq) s = execGetMeasurements rq s := by delta exec; rfl
theorem exec_memoryReadRetry {me} {s} : exec (.memoryReadRetry me) s = execMemoryReadRetry me s := by delta exec; rfl
theorem exec_illegalSlot {il} {s} : exec (.illegalSlot il) s = execIllegalSlot il s := by delta exec; rfl
theorem exec_pfheadWrite {die val} {s} : exec (.pfheadWrite die val) s = execPfheadWrite die val s := by delta exec; rfl
theorem exec_memoryPatrolScrub {corrected} {s} : exec (.memoryPatrolScrub corrected) s = execMemoryPatrolScrub corrected s := by delta exec; rfl
theorem exec_swapComplete {cx} {s} : exec (.swapComplete cx) s = execSwapComplete cx s := by delta exec; rfl

end Sys2Proof.Machine
end

