-- ==== Sys2Proof/Laws/Firing.lean ====
section
/-! SUPPORT. What the firing of an element rule can do, said once: when it fires, what it writes and sends, what it
takes, and that it leaves everything else. -/

namespace Sys2Proof.Machine

/-! ### Channels -/

theorem Elem.chan_setChan (y : Elem) (c d : Nat) (x : Chan) :
    (y.setChan c x).chan d = if d = c then x else y.chan d := kget_kput _ _ _ _ _
@[simp] theorem Elem.setChan_core (y : Elem) (c : Nat) (x : Chan) : (y.setChan c x).core = y.core := rfl
@[simp] theorem Elem.setChan_binds (y : Elem) (c : Nat) (x : Chan) : (y.setChan c x).binds = y.binds := rfl
@[simp] theorem Elem.setChan_stroke (y : Elem) (c : Nat) (x : Chan) : (y.setChan c x).stroke = y.stroke := rfl
@[simp] theorem Elem.setChan_faulted (y : Elem) (c : Nat) (x : Chan) : (y.setChan c x).faultState = y.faultState := rfl
@[simp] theorem Elem.setChan_pending (y : Elem) (c : Nat) (x : Chan) : (y.setChan c x).pending = y.pending := rfl
@[simp] theorem Elem.setChan_loop (y : Elem) (c : Nat) (x : Chan) : (y.setChan c x).loop = y.loop := rfl

/-! ### Regions -/

theorem regionOf_modRegion (s : State) (k t : Nat) (f : Region → Region) (hf : ∀ r, (f r).hasTile t = r.hasTile t) :
    regionOf (s.modRegion k f) t = regionOf s t := by
  unfold regionOf State.modRegion kmod
  simp only [List.find?_map, Option.map_map]
  have h1 : ((fun e : Nat × Region => e.2.hasTile t) ∘ fun e => if e.1 = k then (e.1, f e.2) else e)
      = fun e => e.2.hasTile t := by
    funext e
    simp only [Function.comp]
    split
    · exact hf e.2
    · rfl
  have h2 : ((Prod.fst : Nat × Region → Nat) ∘ fun e => if e.1 = k then (e.1, f e.2) else e) = Prod.fst := by
    funext e
    simp only [Function.comp]
    split <;> rfl
  rw [h1, h2]

@[simp] theorem regionOf_modElem (s : State) (t e u : Nat) (f : Elem → Elem) :
    regionOf (s.modElem t e f) u = regionOf s u := rfl
@[simp] theorem regionOf_modTile (s : State) (t u : Nat) (f : Tile → Tile) :
    regionOf (s.modTile t f) u = regionOf s u := rfl
@[simp] theorem regionAt_modElem (s : State) (t e u : Nat) (f : Elem → Elem) :
    regionAt (s.modElem t e f) u = regionAt s u := rfl
@[simp] theorem regionAt_modTile (s : State) (t u : Nat) (f : Tile → Tile) :
    regionAt (s.modTile t f) u = regionAt s u := rfl

/-! ### What stays when a rule fires

`Routes T E s s'`: the parts of the state that decide where tokens go and that a firing of element (T, E) never writes. -/

structure Routes (T E : Nat) (s s' : State) : Prop where
  binds : ∀ t e, (s'.elem t e).binds = (s.elem t e).binds
  stroke : ∀ t e, (s'.elem t e).stroke = (s.elem t e).stroke
  loop : ∀ t e, (s'.elem t e).loop = (s.elem t e).loop
  region : ∀ t, regionOf s' t = regionOf s t
  multi : ∀ k, (s'.region k).map Region.multi = (s.region k).map Region.multi
  faulted : ∀ t e, (s'.elem t e).faultState = (s.elem t e).faultState
  pending : ∀ t e, (s'.elem t e).pending = (s.elem t e).pending
  elems : ∀ u j, (u ≠ T ∨ j ≠ E) → (s'.elem u j).core = (s.elem u j).core
  tiles : ∀ u, u ≠ T → (s'.tile u).core = (s.tile u).core ∧ (s'.tile u).balance = (s.tile u).balance
  rounds : ∀ u, (s'.tile u).rounds = (s.tile u).rounds
  cistern : ∀ u, (s'.tile u).cistern = (s.tile u).cistern
  array : OnlyArray s s'

/-- The same, and the conversion counts of every region. -/
structure Kept (T E : Nat) (s s' : State) : Prop extends Routes T E s s' where
  cnts : ∀ k, (s'.region k).map (fun r => (r.cnt0, r.cnt1)) = (s.region k).map fun r => (r.cnt0, r.cnt1)

variable {T E : Nat} {s s' s'' : State}

theorem onlyArray_trans (h1 : OnlyArray s s') (h2 : OnlyArray s' s'') : OnlyArray s s'' := by
  unfold OnlyArray at *
  rw [h1] at h2
  rw [h2]

theorem Routes.refl (T E : Nat) (s : State) : Routes T E s s :=
  ⟨fun _ _ => rfl, fun _ _ => rfl, fun _ _ => rfl, fun _ => rfl, fun _ => rfl, fun _ _ => rfl, fun _ _ => rfl,
    fun _ _ _ => rfl, fun _ _ => ⟨rfl, rfl⟩, fun _ => rfl, fun _ => rfl, rfl⟩

theorem Kept.refl (T E : Nat) (s : State) : Kept T E s s := ⟨Routes.refl T E s, fun _ => rfl⟩

theorem Routes.trans (h : Routes T E s s') (h' : Routes T E s' s'') : Routes T E s s'' where
  binds t e := (h'.binds t e).trans (h.binds t e)
  stroke t e := (h'.stroke t e).trans (h.stroke t e)
  loop t e := (h'.loop t e).trans (h.loop t e)
  region t := (h'.region t).trans (h.region t)
  multi k := (h'.multi k).trans (h.multi k)
  faulted t e := (h'.faulted t e).trans (h.faulted t e)
  pending t e := (h'.pending t e).trans (h.pending t e)
  elems u j hu := (h'.elems u j hu).trans (h.elems u j hu)
  tiles u hu := ⟨(h'.tiles u hu).1.trans (h.tiles u hu).1, (h'.tiles u hu).2.trans (h.tiles u hu).2⟩
  rounds u := (h'.rounds u).trans (h.rounds u)
  cistern u := (h'.cistern u).trans (h.cistern u)
  array := onlyArray_trans h.array h'.array

theorem Kept.trans (h : Kept T E s s') (h' : Kept T E s' s'') : Kept T E s s'' :=
  ⟨h.toRoutes.trans h'.toRoutes, fun k => (h'.cnts k).trans (h.cnts k)⟩

theorem Routes.regionAt_multi (h : Routes T E s s') (t : Nat) :
    (regionAt s' t).map Region.multi = (regionAt s t).map Region.multi := by
  unfold regionAt
  rw [h.region]
  cases regionOf s t with
  | none => rfl
  | some k => exact h.multi k

theorem Routes.regionAt_isSome (h : Routes T E s s') (t : Nat) : (regionAt s' t).isSome = (regionAt s t).isSome := by
  have := congrArg Option.isSome (h.regionAt_multi t)
  simpa using this

/-- Where tokens go is kept. -/
theorem Routes.targets (h : Routes T E s s') (t e c : Nat) : targets s' t e c = targets s t e c := by
  have hm := h.regionAt_multi t
  have hb : (s'.elem t e).outBind c = (s.elem t e).outBind c := by simp only [Elem.outBind, h.binds]
  simp only [Machine.targets, hb]
  cases h1 : regionAt s' t <;> cases h2 : regionAt s t <;> rw [h1, h2] at hm <;> simp_all

@[simp] theorem rounds_modElem (t e u : Nat) (f : Elem → Elem) : ((s.modElem t e f).tile u).rounds = (s.tile u).rounds := by
  by_cases h : u = t
  · subst h; simp [State.modElem, State.setElem]
  · simp [State.modElem, State.setElem, State.tile_setTile_other s _ h]
@[simp] theorem cistern_modElem (t e u : Nat) (f : Elem → Elem) :
    ((s.modElem t e f).tile u).cistern = (s.tile u).cistern := by
  by_cases h : u = t
  · subst h; simp [State.modElem, State.setElem]
  · simp [State.modElem, State.setElem, State.tile_setTile_other s _ h]

/-- A change of one element that keeps its bindings, its marks and its pending results. -/
theorem Kept.modElem {u j : Nat} {f : Elem → Elem} (hb : (f (s.elem u j)).binds = (s.elem u j).binds)
    (hs : (f (s.elem u j)).stroke = (s.elem u j).stroke) (hl : (f (s.elem u j)).loop = (s.elem u j).loop)
    (hf : (f (s.elem u j)).faultState = (s.elem u j).faultState) (hp : (f (s.elem u j)).pending = (s.elem u j).pending)
    (hc : (u ≠ T ∨ j ≠ E) → (f (s.elem u j)).core = (s.elem u j).core) : Kept T E s (s.modElem u j f) where
  binds t e := by rw [State.elem_modElem]; split <;> simp_all
  stroke t e := by rw [State.elem_modElem]; split <;> simp_all
  loop t e := by rw [State.elem_modElem]; split <;> simp_all
  region t := rfl
  multi k := rfl
  cnts k := rfl
  rounds u := by simp
  cistern u := by simp
  faulted t e := by rw [State.elem_modElem]; split <;> simp_all
  pending t e := by rw [State.elem_modElem]; split <;> simp_all
  elems t e ht := by
    rw [State.elem_modElem]
    split
    · rename_i h; obtain ⟨rfl, rfl⟩ := h; exact hc ht
    · rfl
  tiles t _ := ⟨by simp, by simp⟩
  array := rfl

/-- A change of the acting tile that keeps its elements. -/
theorem Kept.modTile {f : Tile → Tile} (he : (f (s.tile T)).elems = (s.tile T).elems)
    (hr : (f (s.tile T)).rounds = (s.tile T).rounds) (hc : (f (s.tile T)).cistern = (s.tile T).cistern) :
    Kept T E s (s.modTile T f) := by
  have helem : ∀ t e, (s.modTile T f).elem t e = s.elem t e := by
    intro t e
    simp only [State.elem, State.tile_modTile]
    split
    · rename_i h; subst h; simp only [Tile.elem, he]
    · rfl
  refine ⟨⟨?_, ?_, ?_, fun _ => rfl, fun _ => rfl, ?_, ?_, ?_, ?_, ?_, ?_, rfl⟩, fun _ => rfl⟩
  · intro t e; rw [helem]
  · intro t e; rw [helem]
  · intro t e; rw [helem]
  · intro t e; rw [helem]
  · intro t e; rw [helem]
  · intro t e _; rw [helem]
  · intro t ht; rw [State.tile_modTile, if_neg ht]; exact ⟨rfl, rfl⟩
  · intro t; rw [State.tile_modTile]; split
    · rename_i h; rw [h]; exact hr
    · rfl
  · intro t; rw [State.tile_modTile]; split
    · rename_i h; rw [h]; exact hc
    · rfl

theorem elem_modTile {f : Tile → Tile} {u : Nat} (he : (f (s.tile u)).elems = (s.tile u).elems) (t e : Nat) :
    (s.modTile u f).elem t e = s.elem t e := by
  simp only [State.elem, State.tile_modTile]
  split
  · rename_i h; subst h; simp only [Tile.elem, he]
  · rfl

theorem map_kfind_kmod {α β : Type} (m : KMap α) (k l : Nat) (f : α → α) (g : α → β) (h : ∀ a, g (f a) = g a) :
    (kfind (kmod m k f) l).map g = (kfind m l).map g := by
  rw [kfind_kmod]
  split
  · cases kfind m l <;> simp [h]
  · rfl

/-- A change of a region controller that keeps its site, its multicasts and its counts. -/
theorem Kept.modRegion {k : Nat} {f : Region → Region} (hg : ∀ r t, (f r).hasTile t = r.hasTile t)
    (hm : ∀ r, (f r).multi = r.multi ∧ (f r).cnt0 = r.cnt0 ∧ (f r).cnt1 = r.cnt1) :
    Kept T E s (s.modRegion k f) where
  binds _ _ := rfl
  stroke _ _ := rfl
  loop _ _ := rfl
  region t := regionOf_modRegion s k t f fun r => hg r t
  multi j := map_kfind_kmod _ _ _ _ _ fun r => (hm r).1
  cnts j := map_kfind_kmod _ _ _ _ _ fun r => by simp [hm r]
  rounds _ := rfl
  cistern _ := rfl
  faulted _ _ := rfl
  pending _ _ := rfl
  elems _ _ _ := rfl
  tiles _ _ := ⟨rfl, rfl⟩
  array := rfl

theorem Kept.touchRegion (t : Nat) : Kept T E s (touchRegion s t) := by
  unfold Machine.touchRegion
  split
  · exact Kept.refl T E s
  · exact Kept.modRegion (fun _ _ => rfl) (fun _ => ⟨rfl, rfl, rfl⟩)

theorem Kept.modIsland {k : Nat} {f : Island → Island} : Kept T E s (s.modIsland k f) :=
  ⟨⟨fun _ _ => rfl, fun _ _ => rfl, fun _ _ => rfl, fun _ => rfl, fun _ => rfl, fun _ _ => rfl, fun _ _ => rfl,
    fun _ _ _ => rfl, fun _ _ => ⟨rfl, rfl⟩, fun _ => rfl, fun _ => rfl, rfl⟩, fun _ => rfl⟩

theorem Kept.noteWork (en : Nat) (c : Cmd) : Kept T E s (noteWork s en c) := by
  unfold Machine.noteWork
  split
  · exact Kept.modRegion (fun _ _ => rfl) (fun _ => ⟨rfl, rfl, rfl⟩)
  · exact Kept.refl T E s

theorem Kept.fifoCommand (en : Nat) (c : Cmd) : Kept T E s (fifoCommand s en c) := by
  unfold Machine.fifoCommand
  dsimp only
  split
  · exact Kept.modIsland
  · split
    · exact ⟨⟨fun _ _ => rfl, fun _ _ => rfl, fun _ _ => rfl, fun _ => rfl, fun _ => rfl, fun _ _ => rfl,
        fun _ _ => rfl, fun _ _ _ => rfl, fun _ _ => ⟨rfl, rfl⟩, fun _ => rfl, fun _ => rfl, rfl⟩, fun _ => rfl⟩
    · split
      · exact ⟨⟨fun _ _ => rfl, fun _ _ => rfl, fun _ _ => rfl, fun _ => rfl, fun _ => rfl, fun _ _ => rfl,
        fun _ _ => rfl, fun _ _ _ => rfl, fun _ _ => ⟨rfl, rfl⟩, fun _ => rfl, fun _ => rfl, rfl⟩, fun _ => rfl⟩
      · exact ⟨⟨fun _ _ => rfl, fun _ _ => rfl, fun _ _ => rfl, fun _ => rfl, fun _ => rfl, fun _ _ => rfl,
        fun _ _ => rfl, fun _ _ _ => rfl, fun _ _ => ⟨rfl, rfl⟩, fun _ => rfl, fun _ => rfl, rfl⟩, fun _ => rfl⟩

theorem Kept.pushCommand (en : Nat) (c : Cmd) : Kept T E s (pushCommand s en c) :=
  (Kept.fifoCommand en c).trans (Kept.noteWork en c)

theorem Kept.deliver (from_ : Nat) (tok : Token) (g : Target) : Kept T E s (deliver s from_ tok g) := by
  cases g with
  | chan t e c =>
    have h : Kept T E s (s.modElem t e fun y =>
        y.setChan c { y.chan c with flight := (y.chan c).flight ++ [tok] }) :=
      Kept.modElem rfl rfl rfl rfl rfl fun _ => rfl
    simp only [Machine.deliver]
    split
    · exact h
    · exact h.trans (Kept.touchRegion t)
  | command en => simp only [Machine.deliver]; exact Kept.pushCommand _ _
  | row en p => simp only [Machine.deliver]; exact Kept.modIsland
  | boundary n =>
    simp only [Machine.deliver]
    split
    · exact Kept.refl T E s
    · exact Kept.modRegion (fun _ _ => rfl) (fun _ => ⟨rfl, rfl, rfl⟩)
  | nowhere => exact Kept.refl T E s

/-! ### Inboxes -/

theorem inbox_touchRegion (t from_ : Nat) (g : Target) : inbox (touchRegion s t) from_ g = inbox s from_ g := by
  unfold Machine.touchRegion
  split
  · rfl
  · rename_i k _
    cases g with
    | boundary n =>
      have hr := regionOf_modRegion s k from_ (fun r => { r with watch := 0 }) (fun _ => rfl)
      simp only [inbox, regionAt, hr]
      cases regionOf s from_ with
      | none => rfl
      | some j =>
        simp only [Option.bind_some, State.region_modRegion]
        by_cases hj : j = k
        · rw [if_pos hj]; cases s.region j <;> rfl
        · rw [if_neg hj]
    | _ => rfl

theorem inbox_noteWork (en : Nat) (c : Cmd) (from_ : Nat) (g : Target) :
    inbox (noteWork s en c) from_ g = inbox s from_ g := by
  unfold Machine.noteWork
  split
  · cases g with
    | boundary n =>
      have hr := regionOf_modRegion s c.region from_ (fun r => { r with worked := true }) (fun _ => rfl)
      simp only [inbox, regionAt, hr]
      cases regionOf s from_ with
      | none => rfl
      | some j =>
        simp only [Option.bind_some, State.region_modRegion]
        by_cases hj : j = c.region
        · rw [if_pos hj]; cases s.region j <;> rfl
        · rw [if_neg hj]
    | _ => rfl
  · rfl

theorem inbox_modElem_core {u j : Nat} {f : Elem → Elem} (hf : ∀ c, ((f (s.elem u j)).chan c).flight =
    ((s.elem u j).chan c).flight) (from_ : Nat) (g : Target) : inbox (s.modElem u j f) from_ g = inbox s from_ g := by
  cases g with
  | chan t e c =>
    simp only [inbox, State.elem_modElem]
    split
    · rename_i h; obtain ⟨rfl, rfl⟩ := h; exact hf c
    · rfl
  | _ => rfl

theorem inbox_modTile {u : Nat} {f : Tile → Tile} (he : (f (s.tile u)).elems = (s.tile u).elems) (from_ : Nat)
    (g : Target) : inbox (s.modTile u f) from_ g = inbox s from_ g := by
  cases g with
  | chan t e c => simp only [inbox, elem_modTile he]
  | _ => rfl

/-- The region a tile is found in, where its controller is known. -/
theorem regionAt_eq {from_ k : Nat} (h : regionOf s from_ = some k) : regionAt s from_ = s.region k := by
  simp [regionAt, h]

/-- A token laid down at one target arrives there, and nowhere else. -/
theorem inbox_deliver (from_ : Nat) (tok : Token) (g g' : Target) (hg : Holds s from_ g') :
    inbox (deliver s from_ tok g) from_ g' = inbox s from_ g' ++ if g = g' then [tok] else [] := by
  cases g with
  | chan t e c =>
    have h : inbox (s.modElem t e fun y => y.setChan c { y.chan c with flight := (y.chan c).flight ++ [tok] }) from_ g'
        = inbox s from_ g' ++ if Target.chan t e c = g' then [tok] else [] := by
      cases g' with
      | chan u j d =>
        simp only [inbox, State.elem_modElem, Target.chan.injEq]
        by_cases h1 : u = t ∧ j = e
        · obtain ⟨rfl, rfl⟩ := h1
          simp only [and_self, if_true, Elem.chan_setChan, true_and]
          by_cases h2 : d = c
          · subst h2; simp
          · simp [h2, Ne.symm h2]
        · rw [if_neg h1, if_neg (by tauto)]; simp
      | _ => simp [inbox]
    simp only [Machine.deliver]
    split
    · exact h
    · rw [inbox_touchRegion]; exact h
  | command en =>
    simp only [Machine.deliver, Machine.pushCommand]
    rw [inbox_noteWork]
    simp only [Machine.fifoCommand]
    cases g' with
    | command em =>
      by_cases he : en = em
      · subst he
        simp only [if_true]
        split
        · rename_i hn; simp [inbox, hn]
        · split
          · rename_i h1 h2; simp [inbox, h1, h2]
          · split
            · rename_i h1 h2 h3; simp [inbox, h1, h2, h3]
            · rename_i h1 h2 h3; simp [inbox, h1, h2, h3]
      · simp only [Target.command.injEq, he, if_false, List.append_nil]
        have he' : em ≠ en := Ne.symm he
        split
        · simp only [inbox, State.island_modIsland_other s _ he', State.modIsland_streamers, State.modIsland_expanders,
            State.modIsland_weirs]
        · split
          · simp only [inbox, kget_kput_other _ _ _ he']; rfl
          · split
            · simp only [inbox, kget_kput_other _ _ _ he']; rfl
            · simp only [inbox, kget_kput_other _ _ _ he']; rfl
    | row em p =>
      simp only [reduceCtorEq, if_false, List.append_nil]
      split
      · simp only [inbox, State.island_modIsland]; split
        · rename_i h; rw [h]
        · rfl
      · split
        · rfl
        · split <;> rfl
    | chan u j d =>
      simp only [reduceCtorEq, if_false, List.append_nil]
      split
      · rfl
      · split
        · rfl
        · split <;> rfl
    | boundary n =>
      simp only [reduceCtorEq, if_false, List.append_nil]
      split
      · rfl
      · split
        · rfl
        · split <;> rfl
    | nowhere => exact absurd hg (by simp [Holds])
  | row en p =>
    simp only [Machine.deliver]
    cases g' with
    | row em q =>
      simp only [inbox, State.island_modIsland, Target.row.injEq]
      by_cases h1 : em = en
      · subst h1
        simp only [if_true, true_and]
        rw [kget_kput]
        by_cases h2 : q = p
        · subst h2; simp
        · rw [if_neg h2, if_neg (Ne.symm h2)]; simp
      · rw [if_neg h1, if_neg (by tauto)]; simp
    | command em =>
      simp only [inbox, State.island_modIsland]
      split
      · split
        · rename_i h; subst h; simp
        · simp
      · simp
    | chan u j d => simp [inbox]
    | boundary n => simp only [inbox, reduceCtorEq, if_false, List.append_nil]; rfl
    | nowhere => exact absurd hg (by simp [Holds])
  | boundary n =>
    simp only [Machine.deliver]
    cases hr : regionOf s from_ with
    | none =>
      cases g' with
      | boundary m => simp [Holds, regionAt, hr] at hg
      | _ => simp
    | some k =>
      have hk := regionOf_modRegion s k from_
        (fun x => { x with boundary := kput x.boundary n (kget x.boundary n [] ++ [tok]) }) (fun _ => rfl)
      cases g' with
      | boundary m =>
        simp only [Holds, regionAt_eq hr, Option.isSome_iff_exists] at hg
        obtain ⟨r, hg⟩ := hg
        simp only [inbox, regionAt, hk, hr, Option.bind_some, State.region_modRegion, if_true, hg, Option.map_some,
          Target.boundary.injEq]
        rw [kget_kput]
        by_cases h2 : m = n
        · subst h2; simp
        · rw [if_neg h2, if_neg (Ne.symm h2)]; simp
      | _ => simp [inbox]
  | nowhere =>
    simp only [Machine.deliver]
    cases g' with
    | nowhere => exact absurd hg (by simp [Holds])
    | _ => simp

/-! ### Writes -/

/-- What writes have done so far, from `s` to `s'`. -/
structure Wrote (T E : Nat) (s s' : State) (ws : List PWrite) : Prop where
  kept : Kept T E s s'
  x : ∀ n, (s'.elem T E).core.x[n] = xAfter ws n (s.elem T E).core.x[n]
  w : ∀ n, (s'.tile T).core.w[n] = wAfter ws n (s.tile T).core.w[n]
  v : ∀ n, (s'.elem T E).core.v[n] = vAfter ws n (s.elem T E).core.v[n]
  a : ∀ n, (s'.elem T E).core.a[n] = accAfter ws n (s.elem T E).core.a[n]
  sc : ∀ n, (s'.elem T E).core.sc[n] = scAfter ws n (s.elem T E).core.sc[n]
  p : ∀ n : Fin 8, (s'.elem T E).core.p.getLsbD n.val = predAfter ws n ((s.elem T E).core.p.getLsbD n.val)
  sent : ∀ g, Holds s T g → inbox s' T g = inbox s T g ++ sentTo s T E ws g
  fifo : ∀ c, ((s'.elem T E).chan c).fifo = ((s.elem T E).chan c).fifo
  balance : (s'.tile T).balance = (s.tile T).balance
  rest : ∃ l, (s'.elem T E).core = { (s.elem T E).core with
    x := (s'.elem T E).core.x, v := (s'.elem T E).core.v, a := (s'.elem T E).core.a, sc := (s'.elem T E).core.sc,
    p := (s'.elem T E).core.p, loopI := l }
  tcore : (s'.tile T).core = { (s.tile T).core with w := (s'.tile T).core.w }

theorem Wrote.nil (T E : Nat) (s : State) : Wrote T E s s [] :=
  ⟨Kept.refl T E s, fun _ => rfl, fun _ => rfl, fun _ => rfl, fun _ => rfl, fun _ => rfl, fun _ => rfl,
    fun _ _ => by simp [sentTo], fun _ => rfl, rfl, ⟨_, rfl⟩, rfl⟩

theorem holds_kept (h : Routes T E s s') {f : Nat} {g : Target} (hg : Holds s f g) : Holds s' f g := by
  cases g <;> simp_all [Holds, h.regionAt_isSome]

theorem sentTo_kept (h : Routes T E s s') (t e : Nat) (ws : List PWrite) (g : Target) :
    sentTo s' t e ws g = sentTo s t e ws g := by
  simp only [sentTo, h.targets, h.stroke]

theorem Wrote.trans {ws vs : List PWrite} (h : Wrote T E s s' ws) (h' : Wrote T E s' s'' vs) :
    Wrote T E s s'' (ws ++ vs) where
  kept := h.kept.trans h'.kept
  x n := by rw [h'.x, h.x]; simp [xAfter, List.foldl_append]
  w n := by rw [h'.w, h.w]; simp [wAfter, List.foldl_append]
  v n := by rw [h'.v, h.v]; simp [vAfter, List.foldl_append]
  a n := by rw [h'.a, h.a]; simp [accAfter, List.foldl_append]
  sc n := by rw [h'.sc, h.sc]; simp [scAfter, List.foldl_append]
  p n := by rw [h'.p, h.p]; simp [predAfter, List.foldl_append]
  sent g hg := by
    rw [h'.sent g (holds_kept h.kept.toRoutes hg), h.sent g hg, sentTo_kept h.kept.toRoutes]
    simp [sentTo, List.flatMap_append]
  fifo c := (h'.fifo c).trans (h.fifo c)
  balance := h'.balance.trans h.balance
  rest := by
    obtain ⟨l, hl⟩ := h.rest; obtain ⟨l', hl'⟩ := h'.rest
    exact ⟨l', by rw [hl', hl]⟩
  tcore := by rw [h'.tcore, h.tcore]

/-- A change of the acting element's registers alone. -/
theorem Wrote.core {f : Elem → ElemCore} {ws : List PWrite}
    (hx : ∀ n, (f (s.elem T E)).x[n] = xAfter ws n (s.elem T E).core.x[n])
    (hw : ∀ n v, wAfter ws n v = v)
    (hv : ∀ n, (f (s.elem T E)).v[n] = vAfter ws n (s.elem T E).core.v[n])
    (ha : ∀ n, (f (s.elem T E)).a[n] = accAfter ws n (s.elem T E).core.a[n])
    (hsc : ∀ n, (f (s.elem T E)).sc[n] = scAfter ws n (s.elem T E).core.sc[n])
    (hp : ∀ n : Fin 8, (f (s.elem T E)).p.getLsbD n.val = predAfter ws n ((s.elem T E).core.p.getLsbD n.val))
    (hs : ∀ g, sentTo s T E ws g = []) (hr : ∃ l, f (s.elem T E) = { (s.elem T E).core with
      x := (f (s.elem T E)).x, v := (f (s.elem T E)).v, a := (f (s.elem T E)).a, sc := (f (s.elem T E)).sc,
      p := (f (s.elem T E)).p, loopI := l }) :
    Wrote T E s (s.modElem T E fun y => { y with core := f y }) ws where
  kept := Kept.modElem rfl rfl rfl rfl rfl fun h => by simp at h
  x n := by simpa using hx n
  w n := by simp [hw]
  v n := by simpa using hv n
  a n := by simpa using ha n
  sc n := by simpa using hsc n
  p n := by simpa using hp n
  sent g _ := by rw [hs, List.append_nil]; exact inbox_modElem_core (fun _ => rfl) T g
  fifo c := by simp [Elem.chan]
  balance := by simp
  rest := by simpa using hr
  tcore := by simp

theorem setBit_getLsbD {k : Nat} (p : BitVec k) (m n : Fin k) (v : Bool) :
    (if v then p ||| BitVec.ofNat k (2 ^ m.val) else p &&& ~~~BitVec.ofNat k (2 ^ m.val)).getLsbD n.val
      = if m = n then v else p.getLsbD n.val := by
  have hb : ∀ i : Nat, (BitVec.ofNat k (2 ^ m.val)).getLsbD i = (decide (i < k) && decide (i = m.val)) := by
    intro i
    simp only [BitVec.getLsbD_ofNat, Nat.testBit_two_pow]
    by_cases h : i = m.val <;> simp [h, eq_comm]
  have hn := n.isLt
  cases v
  · simp only [Bool.false_eq_true, if_false, BitVec.getLsbD_and, BitVec.getLsbD_not, hb, hn, decide_true, Bool.true_and]
    by_cases h : n.val = m.val
    · simp [h, Fin.ext h.symm]
    · simp [h, show m ≠ n from fun e => h (by rw [e])]
  · simp only [if_true, BitVec.getLsbD_or, hb, hn, decide_true, Bool.true_and]
    by_cases h : n.val = m.val
    · simp [h, Fin.ext h.symm]
    · simp [h, show m ≠ n from fun e => h (by rw [e])]

theorem inbox_deliverAll (from_ : Nat) (tok : Token) (gs : List Target) (g : Target) (s : State)
    (hg : Holds s from_ g) : inbox (gs.foldl (fun s g => deliver s from_ tok g) s) from_ g
      = inbox s from_ g ++ List.replicate (gs.count g) tok := by
  induction gs generalizing s with
  | nil => simp
  | cons h gs ih =>
    rw [List.foldl_cons, ih _ (holds_kept (T := 0) (E := 0) (Kept.deliver from_ tok h).toRoutes hg), inbox_deliver _ _ _ _ hg,
      List.append_assoc, List.count_cons]
    congr 1
    by_cases hh : h = g
    · subst hh; simp [List.replicate_succ]
    · simp [hh]

theorem Kept.deliverAll (from_ : Nat) (tok : Token) (gs : List Target) (s : State) :
    Kept T E s (gs.foldl (fun s g => Machine.deliver s from_ tok g) s) := by
  induction gs generalizing s with
  | nil => exact Kept.refl T E s
  | cons h gs ih => exact (Kept.deliver from_ tok h).trans (ih _)

theorem deliver_core (from_ : Nat) (tok : Token) (g : Target) (s : State) (u j : Nat) :
    ((deliver s from_ tok g).elem u j).core = (s.elem u j).core :=
  (Kept.deliver (T := u + 1) (E := 0) from_ tok g).elems u j (.inl (by omega))

theorem deliver_tile (from_ : Nat) (tok : Token) (g : Target) (s : State) (u : Nat) :
    ((deliver s from_ tok g).tile u).core = (s.tile u).core ∧
      ((deliver s from_ tok g).tile u).balance = (s.tile u).balance :=
  (Kept.deliver (T := u + 1) (E := 0) from_ tok g).tiles u (by omega)

theorem deliver_fifo (from_ : Nat) (tok : Token) (g : Target) (s : State) (u j d : Nat) :
    (((deliver s from_ tok g).elem u j).chan d).fifo = ((s.elem u j).chan d).fifo := by
  cases g with
  | chan t e c =>
    have h : (((s.modElem t e fun y => y.setChan c { y.chan c with flight := (y.chan c).flight ++ [tok] }).elem u j).chan
        d).fifo = ((s.elem u j).chan d).fifo := by
      rw [State.elem_modElem]
      split
      · rename_i h
        obtain ⟨rfl, rfl⟩ := h
        rw [Elem.chan_setChan]
        split
        · rename_i h; rw [h]
        · rfl
      · rfl
    simp only [Machine.deliver]
    split
    · exact h
    · unfold touchRegion; split <;> exact h
  | command en =>
    simp only [Machine.deliver, Machine.pushCommand, Machine.noteWork, Machine.fifoCommand]
    split <;> split <;> first | rfl | (split <;> first | rfl | (split <;> rfl))
  | row en p => rfl
  | boundary n => simp only [Machine.deliver]; split <;> rfl
  | nowhere => rfl

/-- Tokens laid down at targets, and nothing beside them. -/
theorem Wrote.deliverAll (c : Fin 16) (k : Token) (s : State) : Wrote T E s ((targets s T E c.val).foldl
    (fun r g => Machine.deliver r T ⟨k.data, k.tag, (s.elem T E).stroke⟩ g) s) [.out c k] := by
  have hall : ∀ (gs : List Target) (r : State) (tok : Token),
      ((gs.foldl (fun r g => Machine.deliver r T tok g) r).elem T E).core = (r.elem T E).core ∧
      ((gs.foldl (fun r g => Machine.deliver r T tok g) r).tile T).core = (r.tile T).core ∧
      ((gs.foldl (fun r g => Machine.deliver r T tok g) r).tile T).balance = (r.tile T).balance ∧
      ∀ d, (((gs.foldl (fun r g => Machine.deliver r T tok g) r).elem T E).chan d).fifo = ((r.elem T E).chan d).fifo := by
    intro gs
    induction gs with
    | nil => intro r tok; exact ⟨rfl, rfl, rfl, fun _ => rfl⟩
    | cons g gs ih =>
      intro r tok
      obtain ⟨h1, h2, h3, h4⟩ := ih (Machine.deliver r T tok g) tok
      exact ⟨h1.trans (deliver_core ..), h2.trans (deliver_tile ..).1, h3.trans (deliver_tile ..).2,
        fun d => (h4 d).trans (deliver_fifo ..)⟩
  obtain ⟨h1, h2, h3, h4⟩ := hall (targets s T E c.val) s ⟨k.data, k.tag, (s.elem T E).stroke⟩
  refine ⟨Kept.deliverAll _ _ _ _, fun n => by rw [h1]; rfl, fun n => by rw [h2]; rfl, fun n => by rw [h1]; rfl,
    fun n => by rw [h1]; rfl, fun n => by rw [h1]; rfl, fun n => by rw [h1]; rfl, fun g hg => ?_, h4, h3,
    ⟨_, by rw [h1]⟩, by rw [h2]⟩
  rw [inbox_deliverAll _ _ _ _ _ hg]
  simp [sentTo]

/-- One write, and nothing beside it. -/
theorem Wrote.applyWrite (w : PWrite) : Wrote T E s (applyWrite s T E w) [w] := by
  cases w with
  | x n v =>
    refine Wrote.core (f := fun y => { y.core with x := y.core.x.set n v }) (fun m => ?_) (fun _ _ => rfl) (fun _ => rfl)
      (fun _ => rfl) (fun _ => rfl) (fun _ => rfl) (fun _ => rfl) ⟨_, rfl⟩
    simp only [xAfter, List.foldl_cons, List.foldl_nil, Fin.getElem_fin, Vector.getElem_set, Fin.ext_iff]
  | w n v =>
    have he : ∀ x : Tile, ({ x with core := { x.core with w := x.core.w.set n v } } : Tile).elems = x.elems := fun _ => rfl
    simp only [Machine.applyWrite]
    refine ⟨Kept.modTile (he _) rfl rfl, ?_, ?_, ?_, ?_, ?_, ?_, ?_, ?_, ?_, ?_, ?_⟩
    · intro m; rw [elem_modTile (he _)]; rfl
    · intro m
      simp only [State.tile_modTile_same, wAfter, List.foldl_cons, List.foldl_nil, Fin.getElem_fin, Vector.getElem_set,
        Fin.ext_iff]
    · intro m; rw [elem_modTile (he _)]; rfl
    · intro m; rw [elem_modTile (he _)]; rfl
    · intro m; rw [elem_modTile (he _)]; rfl
    · intro m; rw [elem_modTile (he _)]; rfl
    · intro g _; rw [inbox_modTile (he _)]; simp [sentTo]
    · intro c; rw [elem_modTile (he _)]
    · simp
    · exact ⟨_, by rw [elem_modTile (he _)]⟩
    · simp
  | v n v =>
    refine Wrote.core (f := fun y => { y.core with v := y.core.v.set n v }) (fun _ => rfl) (fun _ _ => rfl) (fun m => ?_)
      (fun _ => rfl) (fun _ => rfl) (fun _ => rfl) (fun _ => rfl) ⟨_, rfl⟩
    simp only [vAfter, List.foldl_cons, List.foldl_nil, Fin.getElem_fin, Vector.getElem_set, Fin.ext_iff]
  | acc n v =>
    refine Wrote.core (f := fun y => { y.core with a := y.core.a.set n v }) (fun _ => rfl) (fun _ _ => rfl) (fun _ => rfl)
      (fun m => ?_) (fun _ => rfl) (fun _ => rfl) (fun _ => rfl) ⟨_, rfl⟩
    simp only [accAfter, List.foldl_cons, List.foldl_nil, Fin.getElem_fin, Vector.getElem_set, Fin.ext_iff]
  | sc n v =>
    refine Wrote.core (f := fun y => { y.core with sc := y.core.sc.set n v }) (fun _ => rfl) (fun _ _ => rfl) (fun _ => rfl)
      (fun _ => rfl) (fun m => ?_) (fun _ => rfl) (fun _ => rfl) ⟨_, rfl⟩
    simp only [scAfter, List.foldl_cons, List.foldl_nil, Fin.getElem_fin, Vector.getElem_set, Fin.ext_iff]
  | pred n v =>
    refine Wrote.core (f := fun y => { y.core with
      p := if v then y.core.p ||| BitVec.ofNat 8 (2 ^ n.val) else y.core.p &&& ~~~BitVec.ofNat 8 (2 ^ n.val) })
      (fun _ => rfl) (fun _ _ => rfl) (fun _ => rfl)
      (fun _ => rfl) (fun _ => rfl) (fun m => ?_) (fun _ => rfl) ⟨_, rfl⟩
    simpa only [predAfter, List.foldl_cons, List.foldl_nil] using setBit_getLsbD _ n m v
  | out c k =>
    have h1 : Wrote T E s (if isLoopStart s T E c.val && k.tag != 3 then
        s.modElem T E fun y => { y with core := { y.core with loopI := y.core.loopI + 1 } } else s) [] := by
      split
      · exact Wrote.core (f := fun y => { y.core with loopI := y.core.loopI + 1 }) (fun _ => rfl) (fun _ _ => rfl)
          (fun _ => rfl) (fun _ => rfl) (fun _ => rfl) (fun _ => rfl) (fun _ => rfl) ⟨_, rfl⟩
      · exact Wrote.nil T E s
    have h2 := h1.trans (Wrote.deliverAll c k _)
    rw [h1.kept.stroke, h1.kept.targets] at h2
    simp only [Machine.applyWrite, Machine.enqueue]
    rw [h1.kept.targets]
    exact h2

theorem Wrote.applyWrites (ws : List PWrite) (s : State) : Wrote T E s (applyWrites s T E ws) ws := by
  induction ws generalizing s with
  | nil => exact Wrote.nil T E s
  | cons w ws ih => exact (Wrote.applyWrite w).trans (ih _)

/-! ### Dequeues and the charge -/

@[simp] theorem Elem.dequeue_binds (y : Elem) (c : Nat) : (y.dequeue c).binds = y.binds := by
  unfold Elem.dequeue; dsimp only; split <;> rfl
@[simp] theorem Elem.dequeue_stroke (y : Elem) (c : Nat) : (y.dequeue c).stroke = y.stroke := by
  unfold Elem.dequeue; dsimp only; split <;> rfl
@[simp] theorem Elem.dequeue_loop (y : Elem) (c : Nat) : (y.dequeue c).loop = y.loop := by
  unfold Elem.dequeue; dsimp only; split <;> rfl
@[simp] theorem Elem.dequeue_faulted (y : Elem) (c : Nat) : (y.dequeue c).faultState = y.faultState := by
  unfold Elem.dequeue; dsimp only; split <;> rfl
@[simp] theorem Elem.dequeue_pending (y : Elem) (c : Nat) : (y.dequeue c).pending = y.pending := by
  unfold Elem.dequeue; dsimp only; split <;> rfl

/-- A dequeue leaves the registers; the loop unit alone counts it (R163). -/
theorem Elem.dequeue_core (y : Elem) (c : Nat) : ∃ l, (y.dequeue c).core = { y.core with loops := l } := by
  unfold Elem.dequeue
  dsimp only
  split
  · exact ⟨y.core.loops, rfl⟩
  · split
    · exact ⟨kput y.core.loops c (kget y.core.loops c 0 + 1), rfl⟩
    · exact ⟨y.core.loops, rfl⟩

theorem Elem.dequeue_chan (y : Elem) (c d : Nat) : (y.dequeue c).chan d =
    if d = c then { y.chan d with fifo := (y.chan d).fifo.drop 1 } else y.chan d := by
  unfold Elem.dequeue
  dsimp only
  split
  · rename_i h
    split
    · rename_i hd
      subst hd
      rw [show (y.chan d).fifo.drop 1 = (y.chan d).fifo by rw [h]; rfl]
    · rfl
  · rename_i k ks h
    show (y.setChan c { y.chan c with fifo := ks }).chan d = _
    rw [Elem.chan_setChan]
    split
    · rename_i hd; subst hd; rw [h]; rfl
    · rfl

/-- Several dequeues. -/
theorem dequeues (cs : List Nat) (y : Elem) : (cs.foldl Elem.dequeue y).binds = y.binds ∧
    (cs.foldl Elem.dequeue y).stroke = y.stroke ∧ (cs.foldl Elem.dequeue y).loop = y.loop ∧
    (cs.foldl Elem.dequeue y).faultState = y.faultState ∧ (cs.foldl Elem.dequeue y).pending = y.pending ∧
    (∃ l, (cs.foldl Elem.dequeue y).core = { y.core with loops := l }) ∧
    ∀ d, (cs.foldl Elem.dequeue y).chan d = { y.chan d with fifo := (y.chan d).fifo.drop (cs.count d) } := by
  induction cs generalizing y with
  | nil => exact ⟨rfl, rfl, rfl, rfl, rfl, ⟨_, rfl⟩, fun d => by simp⟩
  | cons c cs ih =>
    obtain ⟨h1, h2, h3, h4, h5, ⟨l, h6⟩, h7⟩ := ih (y.dequeue c)
    obtain ⟨m, h8⟩ := y.dequeue_core c
    refine ⟨by simpa using h1, by simpa using h2, by simpa using h3, by simpa using h4, by simpa using h5, ⟨l, ?_⟩, ?_⟩
    · rw [List.foldl_cons, h6, h8]
    · intro d
      rw [List.foldl_cons, h7, Elem.dequeue_chan, List.count_cons]
      by_cases h : d = c
      · subst h; simp
      · simp [h, Ne.symm h]

/-! ### The firing -/

/-- A rule that fires does what its entry says (R46). -/
theorem fire_fires {i : Instr} {lat : Nat} {body : Except Abort Fired} {o : Operands} {f : Fired}
    (ho : i.operands = some o) (hl : slotLegal s s.actor.tile s.actor.elem i = true) (hr : ready s i o = true)
    (hf : outcomeOf s i o body = .ok f) : fire i lat s body = .next (commitFiring s i o lat f) := by
  simp only [fire, ho, hl, Bool.not_true, Bool.false_eq_true, if_false, hr, if_true, hf]

/-- A rule whose guard does not hold does nothing (R40). -/
theorem fire_idle {i : Instr} {lat : Nat} {body : Except Abort Fired} {o : Operands} (ho : i.operands = some o)
    (hl : slotLegal s s.actor.tile s.actor.elem i = true) (hr : ready s i o = false) : fire i lat s body = .next s := by
  simp only [fire, ho, hl, Bool.not_true, Bool.false_eq_true, if_false, hr]

/-- An illegal slot aborts with 0x0A (R104). -/
theorem fire_illegal {i : Instr} {lat : Nat} {body : Except Abort Fired} {o : Operands} (ho : i.operands = some o)
    (hl : slotLegal s s.actor.tile s.actor.elem i = false) :
    fire i lat s body = .next (abortRule s i { code := 0x0A }) := by
  simp only [fire, ho, hl, Bool.not_false, if_true]

/-- A rule that is ready and whose outcome is an abort aborts (R54). -/
theorem fire_aborts {i : Instr} {lat : Nat} {body : Except Abort Fired} {o : Operands} {a : Abort}
    (ho : i.operands = some o) (hl : slotLegal s s.actor.tile s.actor.elem i = true) (hr : ready s i o = true)
    (hf : outcomeOf s i o body = .error a) : fire i lat s body = .next (abortRule s i a) := by
  simp only [fire, ho, hl, Bool.not_true, Bool.false_eq_true, if_false, hr, if_true, hf]

/-- Everything a firing can answer. -/
theorem fire_cases {i : Instr} {lat : Nat} {body : Except Abort Fired} {t : State} (h : fire i lat s body = .next t) :
    t = s ∨ (∃ a, t = abortRule s i a) ∨ ∃ o f, i.operands = some o ∧
      slotLegal s s.actor.tile s.actor.elem i = true ∧ ready s i o = true ∧ outcomeOf s i o body = .ok f ∧
      t = commitFiring s i o lat f := by
  unfold fire at h
  cases ho : i.operands with
  | none => rw [ho] at h; cases h; exact .inl rfl
  | some o =>
    rw [ho] at h
    cases hl : slotLegal s s.actor.tile s.actor.elem i with
    | false => simp [hl] at h; exact .inr (.inl ⟨_, h.symm⟩)
    | true =>
      cases hr : ready s i o with
      | false => simp [hl, hr] at h; exact .inl h.symm
      | true =>
        cases hf : outcomeOf s i o body with
        | error a => simp [hl, hr, hf] at h; exact .inr (.inl ⟨a, h.symm⟩)
        | ok f => simp [hl, hr, hf] at h; exact .inr (.inr ⟨o, f, rfl, rfl, hr, hf, h.symm⟩)

/-- No conversion event crosses a threshold where there is none (R34). -/
theorem trips_none (s : State) (r : Region) (k : Nat) : trips s r k {} = 0 := by
  simp [trips, overThreshold, bit]

/-- A firing without conversion events, that takes no POISON, is not stopped by a threshold. -/
theorem outcomeOf_quiet {i : Instr} {o : Operands} {f : Fired} (hc : f.conv = {})
    (hp : takesBad (s.elem s.actor.tile s.actor.elem) (deqs i o (s.elem s.actor.tile s.actor.elem)) = false) :
    outcomeOf s i o (.ok f) = .ok f := by
  simp only [outcomeOf, hp, Bool.false_eq_true, if_false]
  split
  · rfl
  · rw [hc, trips_none]; simp

/-- A bad parity at a head that the rule takes aborts it with 0x06 (R384), and else a POISON mark with 0x05 (R318). -/
theorem outcomeOf_bad {i : Instr} {o : Operands} {b : Except Abort Fired}
    (hp : takesBad (s.elem s.actor.tile s.actor.elem) (deqs i o (s.elem s.actor.tile s.actor.elem)) = true) :
    outcomeOf s i o b = .error (Abort.mk
      (if takesBadParity (s.elem s.actor.tile s.actor.elem) (deqs i o (s.elem s.actor.tile s.actor.elem)) then 6 else 5) 0 false) := by
  simp only [outcomeOf, hp, if_true]

theorem Kept.payCharge (c : Nat) : Kept T E s (payCharge s T c) := Kept.modTile rfl rfl rfl

/-! ### Conversion events -/

theorem addConv_elem (t e : Nat) (c : Conv) (s : State) (u j : Nat) : (addConv s t e c).elem u j =
    if u = t ∧ j = e then
      { s.elem t e with core := { (s.elem t e).core with econv := (s.elem t e).core.econv ||| c.flags.bits } }
    else s.elem u j := by
  unfold addConv
  dsimp only
  split
  · rw [State.elem_modElem]
  · rw [State.modRegion_elem, State.elem_modElem]

theorem addConv_tile (t e : Nat) (c : Conv) (s : State) (u : Nat) : ((addConv s t e c).tile u).core = (s.tile u).core ∧
    ((addConv s t e c).tile u).balance = (s.tile u).balance ∧ ((addConv s t e c).tile u).rounds = (s.tile u).rounds ∧
    ((addConv s t e c).tile u).cistern = (s.tile u).cistern := by
  unfold addConv
  dsimp only
  split <;> simp

theorem addCounts_site (r : Region) (k : Nat) (c : Conv) (t : Nat) : (r.addCounts k c).hasTile t = r.hasTile t := by
  unfold Region.addCounts; split <;> rfl
theorem addCounts_multi (r : Region) (k : Nat) (c : Conv) : (r.addCounts k c).multi = r.multi := by
  unfold Region.addCounts; split <;> rfl
theorem addCounts_boundary (r : Region) (k : Nat) (c : Conv) : (r.addCounts k c).boundary = r.boundary := by
  unfold Region.addCounts; split <;> rfl

theorem addConv_routes (c : Conv) : Routes T E s (addConv s T E c) := by
  have he := addConv_elem T E c s
  refine ⟨?_, ?_, ?_, ?_, ?_, ?_, ?_, ?_, ?_, ?_, ?_, ?_⟩
  · intro t e; rw [he]; split
    · rename_i h; rw [h.1, h.2]
    · rfl
  · intro t e; rw [he]; split
    · rename_i h; rw [h.1, h.2]
    · rfl
  · intro t e; rw [he]; split
    · rename_i h; rw [h.1, h.2]
    · rfl
  · intro t
    unfold addConv
    dsimp only
    split
    · rfl
    · exact regionOf_modRegion _ _ _ _ fun r => addCounts_site r _ _ _
  · intro k
    unfold addConv
    dsimp only
    split
    · rfl
    · exact map_kfind_kmod _ _ _ _ _ fun r => addCounts_multi r _ _
  · intro t e; rw [he]; split
    · rename_i h; rw [h.1, h.2]; rfl
    · rfl
  · intro t e; rw [he]; split
    · rename_i h; rw [h.1, h.2]
    · rfl
  · intro u j hu; rw [he, if_neg (by tauto)]
  · intro u _; exact ⟨(addConv_tile T E c s u).1, (addConv_tile T E c s u).2.1⟩
  · intro u; exact (addConv_tile T E c s u).2.2.1
  · intro u; exact (addConv_tile T E c s u).2.2.2
  · unfold addConv
    dsimp only
    split <;> rfl

theorem addConv_counts (c : Conv) (k : Nat) : ((addConv s T E c).region k).map (fun r => (r.cnt0, r.cnt1)) =
    (s.region k).map fun r => if regionOf s T = some k then
      (if (s.elem T E).stroke ≤ r.stroke then (r.cnt0.plus c, r.cnt1) else (r.cnt0, r.cnt1.plus c))
      else (r.cnt0, r.cnt1) := by
  have hr : regionOf (s.modElem T E fun y => { y with core := { y.core with econv := y.core.econv ||| c.flags.bits } }) T
      = regionOf s T := rfl
  unfold addConv
  dsimp only
  rw [hr]
  cases h : regionOf s T with
  | none => simp
  | some j =>
    simp only [State.region_modRegion, State.modElem_region, Option.some.injEq]
    by_cases hj : k = j
    · subst hj
      simp only [if_true]
      cases s.region k with
      | none => rfl
      | some r =>
        simp only [Option.map_some, Region.addCounts]
        split <;> rfl
    · simp only [if_neg hj, Ne.symm hj, if_false]

theorem inbox_addConv (c : Conv) (g : Target) : inbox (addConv s T E c) T g = inbox s T g := by
  have j1 : inbox (s.modElem T E fun y => { y with core := { y.core with econv := y.core.econv ||| c.flags.bits } })
      T g = inbox s T g := inbox_modElem_core (fun _ => rfl) T g
  unfold addConv
  dsimp only
  split
  · exact j1
  · rename_i k _
    refine Eq.trans ?_ j1
    cases g with
    | boundary n =>
      simp only [inbox, regionAt, regionOf_modRegion _ _ _ _ fun r => addCounts_site r _ _ _]
      generalize (s.modElem T E fun y => { y with core := { y.core with econv := y.core.econv ||| c.flags.bits } }) = r
      cases regionOf r T with
      | none => rfl
      | some j =>
        simp only [Option.bind_some, State.region_modRegion]
        by_cases hj : j = k
        · rw [if_pos hj]
          cases State.region r j with
          | none => rfl
          | some q => simp only [Option.map_some, addCounts_boundary]
        · rw [if_neg hj]
    | _ => rfl

/-- The charge, the dequeues and the conversion events of a firing. -/
theorem prepare (s : State) (T E c : Nat) (cs : List Nat) (v : Conv) :
    ∃ s₃, s₃ = addConv ((payCharge s T c).modElem T E fun y => cs.foldl Elem.dequeue y) T E v ∧ Routes T E s s₃ ∧
      (∃ l, (s₃.elem T E).core = { (s.elem T E).core with
        econv := (s.elem T E).core.econv ||| v.flags.bits, loops := l }) ∧ (s₃.tile T).core = (s.tile T).core ∧
      (s₃.tile T).balance = (s.tile T).balance - c ∧ (∀ g, inbox s₃ T g = inbox s T g) ∧
      (∀ d, ((s₃.elem T E).chan d).fifo = ((s.elem T E).chan d).fifo.drop (cs.count d)) ∧
      ∀ k, (s₃.region k).map (fun r => (r.cnt0, r.cnt1)) = (s.region k).map fun r => if regionOf s T = some k then
        (if (s.elem T E).stroke ≤ r.stroke then (r.cnt0.plus v, r.cnt1) else (r.cnt0, r.cnt1.plus v))
        else (r.cnt0, r.cnt1) := by
  have h1 : Kept T E s (payCharge s T c) := Kept.payCharge c
  have e1 : ∀ t e, (payCharge s T c).elem t e = s.elem t e := elem_modTile rfl
  obtain ⟨hb, hs, hl, hf, hp, ⟨l, hc⟩, hch⟩ := dequeues cs (s.elem T E)
  have h2 : Kept T E (payCharge s T c) ((payCharge s T c).modElem T E fun y => cs.foldl Elem.dequeue y) :=
    Kept.modElem (by rw [e1]; exact hb) (by rw [e1]; exact hs) (by rw [e1]; exact hl) (by rw [e1]; exact hf)
      (by rw [e1]; exact hp) fun h => by simp at h
  have e2 : ((payCharge s T c).modElem T E fun y => cs.foldl Elem.dequeue y).elem T E
      = cs.foldl Elem.dequeue (s.elem T E) := by rw [State.elem_modElem_same, e1]
  refine ⟨_, rfl, (h1.trans h2).toRoutes.trans (addConv_routes v), ⟨l, ?_⟩, ?_, ?_, ?_, ?_, ?_⟩
  · rw [addConv_elem, if_pos ⟨rfl, rfl⟩, e2, hc]
  · rw [(addConv_tile ..).1]; simp [payCharge]
  · rw [(addConv_tile ..).2.1]; simp [payCharge]
  · intro g
    have i1 : inbox (payCharge s T c) T g = inbox s T g := inbox_modTile rfl T g
    have i2 : inbox ((payCharge s T c).modElem T E fun y => cs.foldl Elem.dequeue y) T g = inbox (payCharge s T c) T g :=
      inbox_modElem_core (fun d => by rw [e1, hch]) T g
    rw [inbox_addConv, i2, i1]
  · intro d
    rw [addConv_elem, if_pos ⟨rfl, rfl⟩, e2]
    show ((cs.foldl Elem.dequeue (s.elem T E)).chan d).fifo = _
    rw [hch]
  · intro k
    rw [addConv_counts, e2, hs]
    rfl

theorem sentTo_upd (s : State) (t e : Nat) (ws : List PWrite) (p : BitVec 8) (b : Bool) (u : Option Upd) (g : Target) :
    sentTo s t e (ws ++ updWrites p b u) g = sentTo s t e ws g := by
  unfold updWrites sentTo
  split
  · simp
  · split <;> simp [List.flatMap_append]

theorem upd_regs (p : BitVec 8) (b : Bool) (u : Option Upd) (ws : List PWrite) :
    (∀ n o, xAfter (ws ++ updWrites p b u) n o = xAfter ws n o) ∧
    (∀ n o, wAfter (ws ++ updWrites p b u) n o = wAfter ws n o) ∧
    (∀ n o, vAfter (ws ++ updWrites p b u) n o = vAfter ws n o) ∧
    (∀ n o, accAfter (ws ++ updWrites p b u) n o = accAfter ws n o) ∧
    (∀ n o, scAfter (ws ++ updWrites p b u) n o = scAfter ws n o) := by
  unfold updWrites
  split
  · simp
  · split <;> simp [xAfter, wAfter, vAfter, accAfter, scAfter, List.foldl_append]

/-- What a firing in one fc leaves: the state before the further act of its entry is as `FiredAs` says, and the act
and the watchdog come after it. -/
theorem commitFiring_firedAs (s : State) (i : Instr) (o : Operands) (lat : Nat) (f : Fired) (hlat : lat ≤ 1)
    (hl : (f.late && isLoad o.g.upd) = false) :
    ∃ u, FiredAs s u i o f.writes f.res f.conv ∧ Steady s u ∧
      commitFiring s i o lat f = touchRegion (f.act u) s.actor.tile := by
  obtain ⟨s₃, e3, hk, ⟨l, hcore⟩, htc, hbal, hin, hfifo, hcnt⟩ := prepare s s.actor.tile s.actor.elem
    (costOf (opcodeOf i)) (deqs i o (s.elem s.actor.tile s.actor.elem)) f.conv
  have hw : Wrote s.actor.tile s.actor.elem s₃ (applyWrites (applyWrites s₃ s.actor.tile s.actor.elem f.writes)
      s.actor.tile s.actor.elem (updWrites (s.elem s.actor.tile s.actor.elem).core.p f.res o.g.upd))
      (f.writes ++ updWrites (s.elem s.actor.tile s.actor.elem).core.p f.res o.g.upd) :=
    (Wrote.applyWrites _ _).trans (Wrote.applyWrites _ _)
  obtain ⟨u1, u2, u3, u4, u5⟩ := upd_regs (s.elem s.actor.tile s.actor.elem).core.p f.res o.g.upd f.writes
  obtain ⟨m, hrest⟩ := hw.rest
  have hkk := hk.trans hw.kept.toRoutes
  refine ⟨applyWrites (applyWrites s₃ s.actor.tile s.actor.elem f.writes)
      s.actor.tile s.actor.elem (updWrites (s.elem s.actor.tile s.actor.elem).core.p f.res o.g.upd), ?_, ?_, ?_⟩
  rotate_left 2
  · unfold commitFiring
    simp only [hl, Bool.false_eq_true, if_false, hlat, if_true]
    rw [← e3]
  · exact {
      x := fun n => by rw [hw.x, hcore, u1]
      w := fun n => by rw [hw.w, htc, u2]
      v := fun n => by rw [hw.v, hcore, u3]
      a := fun n => by rw [hw.a, hcore, u4]
      sc := fun n => by rw [hw.sc, hcore, u5]
      p := fun n => by rw [hw.p, hcore]
      sent := fun g hg => by rw [hw.sent g (holds_kept hk hg), hin, sentTo_kept hk, sentTo_upd]
      pending := hkk.pending _ _
      aside := {
        taken := fun c => by rw [hw.fifo, hfifo]
        paid := by rw [hw.balance, hbal]
        econv := by rw [hrest, hcore]
        counts := fun k => by
          rw [hw.kept.cnts, hcnt]
          rfl
        faulted := hkk.faulted _ _
        elems := hkk.elems
        tiles := hkk.tiles
        array := hkk.array } }
  · exact ⟨⟨m, l, by rw [hrest, hcore]⟩, by rw [hw.tcore, htc], hkk.cistern _⟩

/-- The watchdog that starts over changes nothing that `FiredAside` speaks of. -/
theorem firedAside_touch {u : State} {i : Instr} {o : Operands} {c : Conv} (h : FiredAside s u i o c) (t : Nat) :
    FiredAside s (touchRegion u t) i o c := by
  have hk : Kept s.actor.tile s.actor.elem u (touchRegion u t) := Kept.touchRegion t
  have he : ∀ v j, (touchRegion u t).elem v j = u.elem v j := by
    intro v j; unfold touchRegion; split <;> rfl
  have ht : ∀ v, (touchRegion u t).tile v = u.tile v := by
    intro v; unfold touchRegion; split <;> rfl
  exact {
    taken := by rw [he]; exact h.taken
    paid := by rw [ht]; exact h.paid
    econv := by rw [he]; exact h.econv
    counts := fun k => by rw [hk.cnts, h.counts]
    faulted := by rw [he]; exact h.faulted
    elems := fun v j hv => by rw [he]; exact h.elems v j hv
    tiles := fun v hv => by rw [ht]; exact h.tiles v hv
    array := onlyArray_trans h.array hk.array }

theorem firedAs_touch {u : State} {i : Instr} {o : Operands} {ws : List PWrite} {b : Bool} {c : Conv}
    (h : FiredAs s u i o ws b c) (t : Nat) : FiredAs s (touchRegion u t) i o ws b c := by
  have he : ∀ v j, (touchRegion u t).elem v j = u.elem v j := by
    intro v j; unfold touchRegion; split <;> rfl
  have ht : ∀ v, (touchRegion u t).tile v = u.tile v := by
    intro v; unfold touchRegion; split <;> rfl
  exact {
    x := by rw [he]; exact h.x
    w := by rw [ht]; exact h.w
    v := by rw [he]; exact h.v
    a := by rw [he]; exact h.a
    sc := by rw [he]; exact h.sc
    p := by rw [he]; exact h.p
    sent := fun g hg => by rw [inbox_touchRegion]; exact h.sent g hg
    pending := by rw [he]; exact h.pending
    aside := firedAside_touch h.aside t }

theorem steady_touch {u : State} (h : Steady s u) (t : Nat) : Steady s (touchRegion u t) := by
  have he : ∀ v j, (touchRegion u t).elem v j = u.elem v j := by
    intro v j; unfold touchRegion; split <;> rfl
  have ht : ∀ v, (touchRegion u t).tile v = u.tile v := by
    intro v; unfold touchRegion; split <;> rfl
  obtain ⟨h1, h2, h3⟩ := h
  exact ⟨by rw [he]; exact h1, by rw [ht]; exact h2, by rw [ht]; exact h3⟩

theorem noTrip_none (s : State) : NoTrip s {} := fun r _ => trips_none s r _

/-- A firing that takes no POISON and crosses no threshold comes to what its entry says. -/
theorem outcomeOf_ok {i : Instr} {o : Operands} {f : Fired} (hc : NoTrip s f.conv)
    (hp : takesBad (s.elem s.actor.tile s.actor.elem) (deqs i o (s.elem s.actor.tile s.actor.elem)) = false) :
    outcomeOf s i o (.ok f) = .ok f := by
  simp only [outcomeOf, hp, Bool.false_eq_true, if_false]
  split
  · rfl
  · rename_i r h; rw [hc r h]; simp

/-- A rule of one fc: when it fires, it leaves what `FiredAs` says, and then its further act is done. -/
theorem fires_firedAs {i : Instr} {lat : Nat} {f : Fired} (hr : RuleFires i s) (hlat : lat ≤ 1) (hc : NoTrip s f.conv)
    (hlate : f.late = false) : ∃ o u, i.operands = some o ∧ FiredAs s u i o f.writes f.res f.conv ∧ Steady s u ∧
      fire i lat s (.ok f) = .next (touchRegion (f.act u) s.actor.tile) := by
  obtain ⟨o, ho, hl, hrd, hp⟩ := hr
  obtain ⟨u, hu, hs, he⟩ := commitFiring_firedAs s i o lat f hlat (by rw [hlate]; rfl)
  exact ⟨o, u, ho, hu, hs, by rw [fire_fires ho hl hrd (outcomeOf_ok hc hp), he]⟩

/-! ### A result of several fc -/

theorem holdOut_kept (t e c : Nat) (n : Nat → Nat) : Kept T E s (holdOut s t e c n) ∧
    (∀ u j, ((holdOut s t e c n).elem u j).core = (s.elem u j).core) ∧
    (∀ u, ((holdOut s t e c n).tile u).core = (s.tile u).core ∧
      ((holdOut s t e c n).tile u).balance = (s.tile u).balance) ∧
    (∀ u j d, (((holdOut s t e c n).elem u j).chan d).fifo = ((s.elem u j).chan d).fifo) ∧
    ∀ f g, inbox (holdOut s t e c n) f g = inbox s f g := by
  unfold holdOut
  generalize targets s t e c = gs
  induction gs generalizing s with
  | nil => exact ⟨Kept.refl T E s, fun _ _ => rfl, fun _ => ⟨rfl, rfl⟩, fun _ _ _ => rfl, fun _ _ => rfl⟩
  | cons g gs ih =>
    rw [List.foldl_cons]
    cases g with
    | chan u j k =>
      obtain ⟨h1, h2, h3, h4, h5⟩ := ih (s := s.modElem u j fun y => y.setChan k { y.chan k with held := n (y.chan k).held })
      have hk : Kept T E s (s.modElem u j fun y => y.setChan k { y.chan k with held := n (y.chan k).held }) :=
        Kept.modElem rfl rfl rfl rfl rfl fun _ => rfl
      refine ⟨hk.trans h1, fun v i => ?_, fun v => ?_, fun v i d => ?_, fun f g => ?_⟩
      · rw [h2, State.elem_modElem]; split
        · rename_i h; rw [h.1, h.2]; rfl
        · rfl
      · refine ⟨(h3 v).1.trans (by simp), (h3 v).2.trans (by simp)⟩
      · rw [h4, State.elem_modElem]; split
        · rename_i h
          rw [h.1, h.2, Elem.chan_setChan]
          split
          · rename_i hd; rw [hd]
          · rfl
        · rfl
      · rw [h5]
        exact inbox_modElem_core (fun c => by rw [Elem.chan_setChan]; split <;> simp_all) f g
    | _ => exact ih

theorem holdAll_kept (ws : List PWrite) (t e : Nat) (s : State) :
    let s' := ws.foldl (fun s w => match w with | .out c _ => holdOut s t e c.val (· + 1) | _ => s) s
    Kept T E s s' ∧ (∀ u j, (s'.elem u j).core = (s.elem u j).core) ∧
    (∀ u, (s'.tile u).core = (s.tile u).core ∧ (s'.tile u).balance = (s.tile u).balance) ∧
    (∀ u j d, ((s'.elem u j).chan d).fifo = ((s.elem u j).chan d).fifo) ∧ ∀ f g, inbox s' f g = inbox s f g := by
  induction ws generalizing s with
  | nil => exact ⟨Kept.refl T E s, fun _ _ => rfl, fun _ => ⟨rfl, rfl⟩, fun _ _ _ => rfl, fun _ _ => rfl⟩
  | cons w ws ih =>
    simp only [List.foldl_cons]
    cases w with
    | out c k =>
      obtain ⟨h1, h2, h3, h4, h5⟩ := ih (holdOut s t e c.val (· + 1))
      obtain ⟨g1, g2, g3, g4, g5⟩ := holdOut_kept (T := T) (E := E) (s := s) t e c.val (· + 1)
      exact ⟨g1.trans h1, fun u j => (h2 u j).trans (g2 u j),
        fun u => ⟨(h3 u).1.trans (g3 u).1, (h3 u).2.trans (g3 u).2⟩, fun u j d => (h4 u j d).trans (g4 u j d),
        fun f g => (h5 f g).trans (g5 f g)⟩
    | _ => exact ih s

/-- A held result: its pending entry, and nothing else but the slots held for its tokens. -/
theorem addPending_law (lat : Nat) (ws : List PWrite) (s : State) :
    (∀ t e, ((addPending s T E lat ws).elem t e).core = (s.elem t e).core) ∧
    (∀ u, ((addPending s T E lat ws).tile u).core = (s.tile u).core ∧
      ((addPending s T E lat ws).tile u).balance = (s.tile u).balance ∧
      ((addPending s T E lat ws).tile u).cistern = (s.tile u).cistern) ∧
    (∀ t e d, (((addPending s T E lat ws).elem t e).chan d).fifo = ((s.elem t e).chan d).fifo) ∧
    (∀ g, inbox (addPending s T E lat ws) T g = inbox s T g) ∧
    ((addPending s T E lat ws).elem T E).pending = (s.elem T E).pending ++ [⟨(s.tile T).rounds + lat - 1, ws⟩] ∧
    ((addPending s T E lat ws).elem T E).faultState = (s.elem T E).faultState ∧
    (∀ k, ((addPending s T E lat ws).region k).map (fun r => (r.cnt0, r.cnt1)) =
      (s.region k).map fun r => (r.cnt0, r.cnt1)) ∧ OnlyArray s (addPending s T E lat ws) := by
  have hm : ∀ t e, (s.modElem T E fun y => { y with pending := y.pending ++ [⟨(s.tile T).rounds + lat - 1, ws⟩] }).elem t e
      = if t = T ∧ e = E then
          { s.elem T E with pending := (s.elem T E).pending ++ [⟨(s.tile T).rounds + lat - 1, ws⟩] } else s.elem t e :=
    fun t e => State.elem_modElem ..
  obtain ⟨h1, h2, h3, h4, h5⟩ := holdAll_kept (T := T) (E := E) ws T E
    (s.modElem T E fun y => { y with pending := y.pending ++ [⟨(s.tile T).rounds + lat - 1, ws⟩] })
  refine ⟨fun t e => ?_, fun u => ?_, fun t e d => ?_, fun g => ?_, ?_, ?_, fun k => ?_, ?_⟩
  · refine (h2 t e).trans ?_
    rw [hm]; split
    · rename_i h; rw [h.1, h.2]
    · rfl
  · exact ⟨(h3 u).1.trans (by simp), (h3 u).2.trans (by simp), (h1.cistern u).trans (by simp)⟩
  · refine (h4 t e d).trans ?_
    rw [hm]; split
    · rename_i h; rw [h.1, h.2]; rfl
    · rfl
  · exact (h5 T g).trans (inbox_modElem_core (fun _ => rfl) T g)
  · refine (h1.pending T E).trans ?_
    rw [hm, if_pos ⟨rfl, rfl⟩]
  · refine (h1.faulted T E).trans ?_
    rw [hm, if_pos ⟨rfl, rfl⟩]; rfl
  · exact h1.cnts k
  · exact h1.array

/-- What a firing of several fc leaves (R41, R136). -/
theorem commitFiring_firedLate (s : State) (i : Instr) (o : Operands) (lat : Nat) (f : Fired) (hlat : 1 < lat)
    (hl : f.late = false) : ∃ u, FiredLate s u i o lat f.writes f.res f.conv ∧ Steady s u ∧
      commitFiring s i o lat f = touchRegion (f.act u) s.actor.tile := by
  obtain ⟨s₃, e3, hk, ⟨l, hcore⟩, htc, hbal, hin, hfifo, hcnt⟩ := prepare s s.actor.tile s.actor.elem
    (costOf (opcodeOf i)) (deqs i o (s.elem s.actor.tile s.actor.elem)) f.conv
  have key : ∀ (ws vs : List PWrite), (∀ n o, xAfter vs n o = o) → (∀ n o, wAfter vs n o = o) →
      (∀ n o, vAfter vs n o = o) → (∀ n o, accAfter vs n o = o) → (∀ n o, scAfter vs n o = o) →
      (∀ r g, sentTo r s.actor.tile s.actor.elem vs g = []) →
      let u := applyWrites (addPending s₃ s.actor.tile s.actor.elem lat ws) s.actor.tile s.actor.elem vs
      (u.elem s.actor.tile s.actor.elem).pending = (s.elem s.actor.tile s.actor.elem).pending ++
        [⟨(s.tile s.actor.tile).rounds + lat - 1, ws⟩] ∧
      (∀ n : Fin 8, (u.elem s.actor.tile s.actor.elem).core.p.getLsbD n.val =
        predAfter vs n ((s.elem s.actor.tile s.actor.elem).core.p.getLsbD n.val)) ∧
      (∃ m, (u.elem s.actor.tile s.actor.elem).core = { (s.elem s.actor.tile s.actor.elem).core with
        econv := (s.elem s.actor.tile s.actor.elem).core.econv ||| f.conv.flags.bits
        p := (u.elem s.actor.tile s.actor.elem).core.p, loopI := m, loops := l }) ∧
      (u.tile s.actor.tile).core = (s.tile s.actor.tile).core ∧
      (∀ g, inbox u s.actor.tile g = inbox s s.actor.tile g) ∧
      (u.tile s.actor.tile).cistern = (s.tile s.actor.tile).cistern ∧ FiredAside s u i o f.conv := by
    intro ws vs hx hw hv ha hsc hs u
    obtain ⟨p1, p2, p3, p4, p5, p6, p7, p8⟩ := addPending_law (T := s.actor.tile) (E := s.actor.elem) lat ws s₃
    have hwr : Wrote s.actor.tile s.actor.elem (addPending s₃ s.actor.tile s.actor.elem lat ws) u vs :=
      Wrote.applyWrites _ _
    obtain ⟨m, hrest⟩ := hwr.rest
    have hcc : (u.elem s.actor.tile s.actor.elem).core = { (s.elem s.actor.tile s.actor.elem).core with
        econv := (s.elem s.actor.tile s.actor.elem).core.econv ||| f.conv.flags.bits
        p := (u.elem s.actor.tile s.actor.elem).core.p, loopI := m, loops := l } := by
      have a1 : (u.elem s.actor.tile s.actor.elem).core.x = (s.elem s.actor.tile s.actor.elem).core.x := by
        apply Vector.ext; intro n hn; have := hwr.x ⟨n, hn⟩; rw [hx, p1, hcore] at this; exact this
      have a2 : (u.elem s.actor.tile s.actor.elem).core.v = (s.elem s.actor.tile s.actor.elem).core.v := by
        apply Vector.ext; intro n hn; have := hwr.v ⟨n, hn⟩; rw [hv, p1, hcore] at this; exact this
      have a3 : (u.elem s.actor.tile s.actor.elem).core.a = (s.elem s.actor.tile s.actor.elem).core.a := by
        apply Vector.ext; intro n hn; have := hwr.a ⟨n, hn⟩; rw [ha, p1, hcore] at this; exact this
      have a4 : (u.elem s.actor.tile s.actor.elem).core.sc = (s.elem s.actor.tile s.actor.elem).core.sc := by
        apply Vector.ext; intro n hn; have := hwr.sc ⟨n, hn⟩; rw [hsc, p1, hcore] at this; exact this
      conv_lhs => rw [hrest, p1, hcore]
      simp only [a1, a2, a3, a4]
    have hw' : (u.tile s.actor.tile).core.w = (s.tile s.actor.tile).core.w := by
      apply Vector.ext; intro n hn; have := hwr.w ⟨n, hn⟩; rw [hw, (p2 _).1, htc] at this; exact this
    refine ⟨?_, ?_, ⟨m, hcc⟩, ?_, ?_, ?_, ?_⟩
    · rw [hwr.kept.pending, p5, hk.pending, hk.rounds]
    · intro n; rw [hwr.p, p1, hcore]
    · rw [hwr.tcore, (p2 _).1, htc, hw']
    · intro g
      cases g with
      | nowhere => rfl
      | boundary n =>
        by_cases hb : Holds (addPending s₃ s.actor.tile s.actor.elem lat ws) s.actor.tile (.boundary n)
        · rw [hwr.sent _ hb, hs, List.append_nil, p4, hin]
        · have h0 : ∀ r : State, ¬ Holds r s.actor.tile (.boundary n) → inbox r s.actor.tile (.boundary n) = [] := by
            intro r hr
            simp only [Holds, Option.isSome_iff_exists, not_exists] at hr
            simp only [inbox]
            split
            · rfl
            · rename_i q hq; exact absurd hq (hr q)
          have hu : ¬ Holds u s.actor.tile (.boundary n) := fun hh => hb (by
            simpa [Holds, hwr.kept.toRoutes.regionAt_isSome] using hh)
          have e1 := h0 _ hu
          have e2 := h0 _ hb
          rw [e1, ← hin, ← p4, e2]
      | chan a b c => rw [hwr.sent (.chan a b c) trivial, hs, List.append_nil, p4, hin]
      | command en => rw [hwr.sent (.command en) trivial, hs, List.append_nil, p4, hin]
      | row en q => rw [hwr.sent (.row en q) trivial, hs, List.append_nil, p4, hin]
    · rw [hwr.kept.cistern, (p2 _).2.2, hk.cistern]
    · exact {
        taken := fun d => by rw [hwr.fifo, p3, hfifo]
        paid := by rw [hwr.balance, (p2 _).2.1, hbal]
        econv := by rw [hcc]
        counts := fun k => by rw [hwr.kept.cnts, p7, hcnt]; rfl
        faulted := by rw [hwr.kept.faulted, p6, hk.faulted]
        elems := fun a b hab => by rw [hwr.kept.elems a b hab, p1, hk.elems a b hab]
        tiles := fun a ha => ⟨by rw [(hwr.kept.tiles a ha).1, (p2 a).1, (hk.tiles a ha).1],
          by rw [(hwr.kept.tiles a ha).2, (p2 a).2.1, (hk.tiles a ha).2]⟩
        array := onlyArray_trans hk.array (onlyArray_trans p8 hwr.kept.array) }
  obtain ⟨u1, u2, u3, u4, u5⟩ := upd_regs (s.elem s.actor.tile s.actor.elem).core.p f.res o.g.upd []
  have us : ∀ r g, sentTo r s.actor.tile s.actor.elem
      (updWrites (s.elem s.actor.tile s.actor.elem).core.p f.res o.g.upd) g = [] := by
    intro r g
    have := sentTo_upd r s.actor.tile s.actor.elem [] (s.elem s.actor.tile s.actor.elem).core.p f.res o.g.upd g
    simpa [sentTo] using this
  cases hu : isLoad o.g.upd with
  | true =>
    obtain ⟨k1, k2, ⟨m, k3⟩, k4, k5, k6, k7⟩ := key
      (f.writes ++ updWrites (s.elem s.actor.tile s.actor.elem).core.p f.res o.g.upd) []
      (fun _ _ => rfl) (fun _ _ => rfl) (fun _ _ => rfl) (fun _ _ => rfl) (fun _ _ => rfl) (fun _ _ => rfl)
    refine ⟨_, ⟨?_, ?_, ?_, ?_, ?_, ?_, ?_, k5, k7⟩, ⟨⟨m, l, ?_⟩, ?_, k6⟩, ?_⟩
    · rw [k1, hu]; rfl
    · rw [k3]
    · rw [k4]
    · rw [k3]
    · rw [k3]
    · rw [k3]
    · intro n; rw [k2, hu]; rfl
    · rw [k3]
    · rw [k4]
    · unfold commitFiring
      simp only [hl, Bool.false_and, Bool.false_eq_true, if_false, show ¬ lat ≤ 1 by omega, hu, if_true]
      rw [← e3]
      rfl
  | false =>
    obtain ⟨k1, k2, ⟨m, k3⟩, k4, k5, k6, k7⟩ := key f.writes
      (updWrites (s.elem s.actor.tile s.actor.elem).core.p f.res o.g.upd)
      (fun n x => u1 n x) (fun n x => u2 n x) (fun n x => u3 n x)
      (fun n x => u4 n x) (fun n x => u5 n x) us
    refine ⟨_, ⟨?_, ?_, ?_, ?_, ?_, ?_, ?_, k5, k7⟩, ⟨⟨m, l, ?_⟩, ?_, k6⟩, ?_⟩
    · rw [k1, hu]; simp
    · rw [k3]
    · rw [k4]
    · rw [k3]
    · rw [k3]
    · rw [k3]
    · intro n; rw [k2, hu]; rfl
    · rw [k3]
    · rw [k4]
    · unfold commitFiring
      simp only [hl, Bool.false_and, Bool.false_eq_true, if_false, show ¬ lat ≤ 1 by omega, hu]
      rw [← e3]

/-- A rule of several fc: when it fires, it leaves what `FiredLate` says, and then its further act is done. -/
theorem fires_firedLate {i : Instr} {lat : Nat} {f : Fired} (hr : RuleFires i s) (hlat : 1 < lat)
    (hc : NoTrip s f.conv) (hlate : f.late = false) : ∃ o u, i.operands = some o ∧
      FiredLate s u i o lat f.writes f.res f.conv ∧ Steady s u ∧
      fire i lat s (.ok f) = .next (touchRegion (f.act u) s.actor.tile) := by
  obtain ⟨o, ho, hl, hrd, hp⟩ := hr
  obtain ⟨u, hu, hs, he⟩ := commitFiring_firedLate s i o lat f hlat hlate
  exact ⟨o, u, ho, hu, hs, by rw [fire_fires ho hl hrd (outcomeOf_ok hc hp), he]⟩

end Sys2Proof.Machine
end

