-- ==== Sys2Proof/Laws/Memory.lean ====
section
/-! SUPPORT. The laws of memory: the canonical form is kept by every operation, and a read gives what was last
written to its address. -/

namespace Sys2Proof.Machine

theorem Mem.wfFrom_mono {m : Mem} {lo hi : Nat} (h : lo ≤ hi) (hm : Mem.wfFrom hi m = true) :
    Mem.wfFrom lo m = true := by
  cases m with
  | nil => rfl
  | cons e m =>
    obtain ⟨a, v⟩ := e
    simp only [Mem.wfFrom, Bool.and_eq_true, decide_eq_true_eq] at hm ⊢
    exact ⟨⟨by omega, hm.1.2⟩, hm.2⟩

theorem Mem.wfFrom_cons {m : Mem} {lo a : Nat} {v : Byte} (h : lo ≤ a) (hm : Mem.wfFrom (a + 1) m = true) :
    Mem.wfFrom lo (Mem.cons a v m) = true := by
  unfold Mem.cons
  split
  · exact Mem.wfFrom_mono (by omega) hm
  · rename_i hv
    simp [Mem.wfFrom, h, hv, hm]

theorem Mem.wfFrom_write {m : Mem} {lo a : Nat} (v : Byte) (h : lo ≤ a) (hm : Mem.wfFrom lo m = true) :
    Mem.wfFrom lo (m.write a v) = true := by
  induction m generalizing lo with
  | nil => exact Mem.wfFrom_cons h rfl
  | cons e m ih =>
    obtain ⟨b, w⟩ := e
    simp only [Mem.wfFrom, Bool.and_eq_true, decide_eq_true_eq] at hm
    simp only [Mem.write]
    split
    · refine Mem.wfFrom_cons h ?_
      simp only [Mem.wfFrom, Bool.and_eq_true, decide_eq_true_eq]
      exact ⟨⟨by omega, hm.1.2⟩, hm.2⟩
    · split
      · rename_i hab
        subst hab
        exact Mem.wfFrom_cons h hm.2
      · simp only [Mem.wfFrom, Bool.and_eq_true, decide_eq_true_eq]
        exact ⟨hm.1, ih (by omega) hm.2⟩

/-- A write keeps the canonical form. -/
theorem Mem.wf_write {m : Mem} (a : Nat) (v : Byte) (hm : m.wf = true) : (m.write a v).wf = true :=
  Mem.wfFrom_write v (Nat.zero_le a) hm

/-- So do the writes of a list of bytes. -/
theorem Mem.wf_writes {m : Mem} (a : Nat) (bs : List Byte) (hm : m.wf = true) : (m.writes a bs).wf = true := by
  induction bs generalizing m a with
  | nil => exact hm
  | cons b bs ih => exact ih (a + 1) (Mem.wf_write a b hm)

theorem Mem.read_of_below {m : Mem} {lo a : Nat} (h : a < lo) (hm : Mem.wfFrom lo m = true) :
    m.read a = Mem.unlisted := by
  cases m with
  | nil => rfl
  | cons e m =>
    obtain ⟨b, v⟩ := e
    simp only [Mem.wfFrom, Bool.and_eq_true, decide_eq_true_eq] at hm
    rw [Mem.read, if_neg (by omega), if_pos (by omega)]

theorem Mem.read_cons_same {m : Mem} {a : Nat} (v : Byte) (hm : Mem.wfFrom (a + 1) m = true) :
    (Mem.cons a v m).read a = v := by
  unfold Mem.cons
  split
  · rename_i hv
    rw [Mem.read_of_below (Nat.lt_succ_self a) hm, hv]
  · simp [Mem.read]

theorem Mem.read_cons_other {m : Mem} {a b : Nat} (v : Byte) (h : b ≠ a) (hm : Mem.wfFrom (a + 1) m = true) :
    (Mem.cons a v m).read b = m.read b := by
  unfold Mem.cons
  split
  · rfl
  · simp only [Mem.read, h, if_false]
    split
    · rename_i hba
      rw [Mem.read_of_below (by omega) hm]
    · rfl

theorem Mem.read_writeFrom {m : Mem} {lo : Nat} (a b : Nat) (v : Byte) (hm : Mem.wfFrom lo m = true) :
    (m.write a v).read b = if b = a then v else m.read b := by
  induction m generalizing lo with
  | nil =>
    simp only [Mem.write]
    split
    · rename_i h; subst h; exact Mem.read_cons_same v rfl
    · rename_i h; exact Mem.read_cons_other v h rfl
  | cons e m ih =>
    obtain ⟨c, w⟩ := e
    simp only [Mem.wfFrom, Bool.and_eq_true, decide_eq_true_eq] at hm
    simp only [Mem.write]
    split
    · rename_i hac
      have hw : Mem.wfFrom (a + 1) ((c, w) :: m) = true := by
        simp only [Mem.wfFrom, Bool.and_eq_true, decide_eq_true_eq]
        exact ⟨⟨by omega, hm.1.2⟩, hm.2⟩
      split
      · rename_i h; subst h; exact Mem.read_cons_same v hw
      · rename_i h; exact Mem.read_cons_other v h hw
    · split
      · rename_i hac
        subst hac
        split
        · rename_i h; subst h; exact Mem.read_cons_same v hm.2
        · rename_i h
          rw [Mem.read_cons_other v h hm.2]
          simp only [Mem.read, h, if_false]
          split
          · rw [Mem.read_of_below (by omega) hm.2]
          · rfl
      · simp only [Mem.read, ih hm.2]
        by_cases h1 : b = c
        · rw [if_pos h1, if_neg (by omega), if_pos h1]
        · rw [if_neg h1, if_neg h1]
          by_cases h2 : b < c
          · rw [if_pos h2, if_neg (by omega), if_pos h2]
          · rw [if_neg h2, if_neg h2]

/-- A read after a write gives the value written, and every other byte reads as before. -/
theorem Mem.read_write {m : Mem} (a b : Nat) (v : Byte) (hm : m.wf = true) :
    (m.write a v).read b = if b = a then v else m.read b := Mem.read_writeFrom a b v hm

/-- The bytes outside a written range read as before. -/
theorem Mem.read_writes_outside {m : Mem} (a b : Nat) (bs : List Byte) (hm : m.wf = true)
    (h : b < a ∨ a + bs.length ≤ b) : (m.writes a bs).read b = m.read b := by
  induction bs generalizing m a with
  | nil => rfl
  | cons v bs ih =>
    simp only [List.length_cons] at h
    rw [Mem.writes, ih (a + 1) (Mem.wf_write a v hm) (by omega), Mem.read_write a b v hm, if_neg (by omega)]

/-- The bytes of a written range read as written. -/
theorem Mem.read_writes_inside {m : Mem} (a k : Nat) (bs : List Byte) (hm : m.wf = true) (h : k < bs.length) :
    (m.writes a bs).read (a + k) = bs[k] := by
  induction bs generalizing m a k with
  | nil => simp at h
  | cons v bs ih =>
    rw [Mem.writes]
    cases k with
    | zero =>
      have h0 := Mem.read_writes_outside (a + 1) a bs (Mem.wf_write a v hm) (by omega)
      rw [Mem.read_write a a v hm, if_pos rfl] at h0
      exact h0
    | succ k =>
      have := ih (a + 1) k (Mem.wf_write a v hm) (by simpa using h)
      rw [show a + (k + 1) = a + 1 + k by omega, this]
      rfl

theorem Mem.reads_congr {m m' : Mem} (a n : Nat) (h : ∀ k < n, m'.read (a + k) = m.read (a + k)) : m'.reads a n = m.reads a n := by
  induction n generalizing a with
  | zero => rfl
  | succ n ih =>
    have h0 := h 0 (by omega)
    rw [Nat.add_zero] at h0
    have hr := ih (a + 1) fun k hk => by
      have := h (k + 1) (by omega)
      rwa [show a + (k + 1) = a + 1 + k by omega] at this
    simp only [Mem.reads, h0, hr]

/-- The bytes outside a written range, read together. -/
theorem Mem.reads_writes_outside {m : Mem} (a b n : Nat) (bs : List Byte) (hm : m.wf = true)
    (h : b + n ≤ a ∨ a + bs.length ≤ b) : (m.writes a bs).reads b n = m.reads b n :=
  Mem.reads_congr b n fun k hk => Mem.read_writes_outside a (b + k) bs hm (by omega)

/-- A written range read back. -/
theorem Mem.reads_writes {m : Mem} (a : Nat) (bs : List Byte) (hm : m.wf = true) : (m.writes a bs).reads a bs.length = bs := by
  induction bs generalizing m a with
  | nil => rfl
  | cons v bs ih =>
    have h0 : ((m.write a v).writes (a + 1) bs).read a = v := Mem.read_writes_inside a 0 (v :: bs) hm (by simp)
    simp only [Mem.reads, List.length_cons, Mem.writes, h0, ih (a + 1) (Mem.wf_write a v hm)]

/-- The bytes of a number make the number again. -/
theorem natOf_byteList (n v : Nat) : natOf (byteList n v) = v % 2 ^ (8 * n) := by
  unfold natOf byteList
  induction n generalizing v with
  | zero => simp [bytesOf, wordOfBytes, Nat.mod_one]
  | succ n ih =>
    have h8 : 2 ^ (8 * (n + 1)) = 256 * 2 ^ (8 * n) := by rw [show 8 * (n + 1) = 8 + 8 * n by omega, Nat.pow_add]
    have := ih (v / 256)
    simp only [wordOfBytes] at this
    simp only [bytesOf, wordOfBytes, List.foldr_cons, this, BitVec.toNat_ofNat, h8, Nat.mod_mul]

theorem byteList_length (n v : Nat) : (byteList n v).length = n := by
  unfold byteList
  induction n generalizing v with
  | zero => rfl
  | succ n ih => simp [bytesOf, ih]

/-- A store to local memory keeps the canonical form. -/
theorem memStore_wf (s : State) (pa : Nat) (data : List Byte) (full : Option Bool) (h : s.mem.wf = true) :
    (memStore s pa data full).mem.wf = true := by
  unfold memStore
  split
  · exact h
  · exact Mem.wf_writes _ data h

/-- A store to local memory leaves every byte outside it. -/
theorem memStore_read_outside (s : State) (pa a : Nat) (data : List Byte) (full : Option Bool)
    (h : s.mem.wf = true) (ha : a < localPa pa ∨ localPa pa + data.length ≤ a) :
    (memStore s pa data full).mem.read a = s.mem.read a := by
  unfold memStore
  split
  · rfl
  · exact Mem.read_writes_outside _ a data h ha

/-- A store to local memory lands in the byte it names. -/
theorem memStore_read_inside (s : State) (pa k : Nat) (data : List Byte) (full : Option Bool)
    (h : s.mem.wf = true) (hk : k < data.length) :
    (memStore s pa data full).mem.read (localPa pa + k) = data[k] := by
  unfold memStore
  split
  · rename_i he
    simp only [List.isEmpty_iff] at he
    simp [he] at hk
  · exact Mem.read_writes_inside _ k data h hk

theorem memStore_deep (s : State) (pa : Nat) (data : List Byte) (full : Option Bool) :
    (memStore s pa data full).deep = s.deep := by
  unfold memStore
  split <;> rfl

theorem memStore_host (s : State) (pa : Nat) (data : List Byte) (full : Option Bool) :
    (memStore s pa data full).host = s.host := by
  unfold memStore
  split <;> rfl

end Sys2Proof.Machine
end

