-- ==== Sys2Proof/Laws/Values.lean ====
section
/-! SUPPORT. The terms of the statements tied to the model: what a rule whose meaning is a firing does in the words of
Safety, how its sources and destinations read there, and how lanes are packed. -/

namespace Sys2Proof.Machine

open Spec

variable {i : Instr} {s : State}

/-! ### Firings -/

theorem fires_of {ws : List PWrite} {b : Bool} {act : State → State} {f : Fired}
    (he : exec i s = fire i 1 s (.ok f)) (hw : f.writes = ws) (hb : f.res = b) (hc : f.conv = {}) (hl : f.late = false)
    (ha : f.act = act) : Fires i s ws b act := by
  intro hr
  obtain ⟨o, u, ho, hu, hs, hx⟩ := fires_firedAs (lat := 1) (f := f) hr (le_refl 1) (by rw [hc]; exact noTrip_none s) hl
  subst hw hb ha
  exact ⟨o, u, ho, hc ▸ hu, hs, he ▸ hx⟩

theorem traps_of {lat : Nat} {a : Abort} (he : exec i s = fire i lat s (.error a)) : Traps i s a.code a.va a.wr := by
  rintro ⟨o, ho, hl, hr, hp⟩
  rw [he]
  exact fire_aborts ho hl hr (by simp only [outcomeOf, hp, Bool.false_eq_true, if_false])

theorem tripsAbort_of {lat : Nat} {f : Fired} {c : Conv} (he : exec i s = fire i lat s (.ok f)) (hc : f.conv = c) :
    TripsAbort i s c := by
  subst hc
  rintro r hr ht ⟨o, ho, hl, hrd, hp⟩
  rw [he]
  refine fire_aborts ho hl hrd ?_
  simp only [outcomeOf, hp, Bool.false_eq_true, if_false, hr, if_neg ht]

theorem firesConv_of {ws : List PWrite} {c : Conv} {act : State → State} {f : Fired}
    (he : exec i s = fire i 1 s (.ok f)) (hw : f.writes = ws) (hb : f.res = false) (hc : f.conv = c)
    (hl : f.late = false) (ha : f.act = act) : FiresConv i s ws c act := by
  refine ⟨fun hn hr => ?_, tripsAbort_of he hc⟩
  subst hw hc ha
  obtain ⟨o, u, ho, hu, hs, hx⟩ := fires_firedAs (lat := 1) (f := f) hr (le_refl 1) hn hl
  exact ⟨o, u, ho, hb ▸ hu, hs, he ▸ hx⟩

theorem firesLate_of {lat : Nat} {ws : List PWrite} {b : Bool} {c : Conv} {act : State → State} {f : Fired}
    (he : exec i s = fire i lat s (.ok f)) (hlat : 1 < lat) (hw : f.writes = ws) (hb : f.res = b) (hc : f.conv = c)
    (hl : f.late = false) (ha : f.act = act) : FiresLate i s lat ws b c act := by
  refine ⟨fun hn hr => ?_, tripsAbort_of he hc⟩
  subst hw hc ha hb
  obtain ⟨o, u, ho, hu, hs, hx⟩ := fires_firedLate (lat := lat) (f := f) hr hlat hn hl
  exact ⟨o, u, ho, hu, hs, he ▸ hx⟩

/-- What a rule dequeues does not depend on its predicate update. -/
theorem deqs_asked (i : Instr) (o : Operands) (y : Elem) : deqs i (askedOf o) y = deqs i o y := by
  unfold askedOf
  split <;> cases i <;> rfl

/-- A firing whose answer comes later updates no predicate by it. -/
theorem commitFiring_asked (o : Operands) (f : Fired) (hl : f.late = true) :
    commitFiring s i o 1 f = commitFiring s i (askedOf o) 1 { f with late := false } := by
  have hd : ∀ y, deqs i (askedOf o) y = deqs i o y := deqs_asked i o
  unfold commitFiring
  simp only [hd, hl, Bool.true_and, Bool.false_and, Bool.false_eq_true, if_false, le_refl, if_true]
  cases hu : isLoad o.g.upd with
  | true => simp [askedOf, hu, updWrites]
  | false => simp [askedOf, hu]

theorem firesAsk_of {act : State → State} {f : Fired} (he : exec i s = fire i 1 s (.ok f)) (hw : f.writes = [])
    (hb : f.res = false) (hc : f.conv = {}) (hl : f.late = true) (ha : f.act = act) : FiresAsk i s act := by
  rintro ⟨o, ho, hsl, hrd, hp⟩
  obtain ⟨u, hu, hs, hx⟩ := commitFiring_firedAs s i (askedOf o) 1 { f with late := false } (le_refl 1) rfl
  rw [← commitFiring_asked o f hl] at hx
  subst ha
  dsimp only at hu
  rw [hw, hb, hc] at hu
  exact ⟨o, u, ho, hu, hs, by
    rw [he, fire_fires ho hsl hrd (outcomeOf_ok (by rw [hc]; exact noTrip_none s) hp), hx]⟩

/-! ### Scalar sources and results -/

theorem readScalar_lt (s : State) (t e : Nat) (a : Src) : readScalar s t e a < 2 ^ 32 := by
  cases a <;> simp only [readScalar]
  case x n => exact BitVec.isLt _
  case w n => exact BitVec.isLt _
  case chan c d => split <;> omega
  all_goals omega

theorem src32_toNat (s : State) (a : Src) : (src32 s a).toNat = readScalar s s.actor.tile s.actor.elem a := by
  have := readScalar_lt s s.actor.tile s.actor.elem a
  simp [src32]; omega

theorem readS_eq (s : State) (a : Src) : readS s a = (src32 s a).toNat := (src32_toNat s a).symm

theorem scalarRes_eq (d : Dst) (v : Nat) (r : BitVec 32) (h : r = BitVec.ofNat 32 v) : scalarRes d v = at32 d r := by
  subst h
  cases d <;> simp only [scalarRes, at32]
  case out c =>
    congr 3
    apply BitVec.eq_of_toNat_eq
    simp

theorem computes_of {d : Dst} {r : BitVec 32 × Bool} {q : Nat × Bool}
    (he : exec i s = fire i 1 s (.ok (scalarFired d q))) (h1 : r.1 = BitVec.ofNat 32 q.1) (h2 : r.2 = q.2) :
    Computes i s d r :=
  fires_of he (scalarRes_eq d q.1 r.1 h1) h2.symm rfl rfl rfl

theorem elem2_of {i : Guard → Dst → Src → Src → Instr} {f : BitVec 32 → BitVec 32 → BitVec 32 × Bool}
    (F : Nat → Nat → Nat × Bool) (he : ∀ s g d a b, exec (i g d a b) s = scalar2 (i g d a b) d a b F s)
    (h : ∀ x y : BitVec 32, (f x y).1 = BitVec.ofNat 32 (F x.toNat y.toNat).1 ∧ (f x y).2 = (F x.toNat y.toNat).2) :
    Elem2 i f := by
  intro s g d a b
  refine computes_of (he s g d a b) ?_ ?_ <;> rw [← src32_toNat, ← src32_toNat]
  · exact (h _ _).1
  · exact (h _ _).2

theorem elemImm_of {i : Guard → Dst → Src → BitVec 12 → Instr} {f : BitVec 32 → BitVec 32 → BitVec 32 × Bool}
    (F : Nat → Nat → Nat × Bool)
    (he : ∀ s g d a m, exec (i g d a m) s = scalar1 (i g d a m) d a (fun x => F x (immVal m)) s)
    (h : ∀ x y : BitVec 32, (f x y).1 = BitVec.ofNat 32 (F x.toNat y.toNat).1 ∧ (f x y).2 = (F x.toNat y.toNat).2) :
    ElemImm i f := by
  intro s g d a m
  refine computes_of (he s g d a m) ?_ ?_ <;> rw [← src32_toNat]
  · exact (h _ _).1
  · exact (h _ _).2

/-! ### Body results -/

theorem toSigned_eq {w : Nat} (x : BitVec w) (_ : 0 < w) : toSigned w x.toNat = x.toInt := by
  rw [BitVec.toInt_eq_msb_cond, toSigned, BitVec.msb_eq_decide]
  by_cases h : x.toNat < 2 ^ (w - 1)
  · simp [h]
  · simp [h]

theorem readAs_eq {w : Nat} (n : Bool) (x : BitVec w) (hw : 0 < w) : readAs n w x.toNat = asInt n x := by
  cases n <;> simp [readAs, asInt, toSigned_eq _ hw]

theorem wrap_lt (w : Nat) (x : Int) : wrap w x < 2 ^ w := by
  have h : (0 : Int) < 2 ^ w := by positivity
  have := Int.emod_lt_of_pos x h
  have := Int.emod_nonneg x (ne_of_gt h)
  unfold wrap
  zify
  rw [Int.toNat_of_nonneg this]
  omega

theorem ofNat_wrap_self {w : Nat} (x : Int) : BitVec.ofNat w (wrap w x) = BitVec.ofInt w x := by
  apply BitVec.eq_of_toNat_eq
  rw [BitVec.toNat_ofNat, Nat.mod_eq_of_lt (wrap_lt w x), BitVec.toNat_ofInt]
  rfl

theorem ofNat_wrap (W q : Nat) (v : BitVec W) (hv : v.toNat = q % 2 ^ W) (hW : 0 < W) (hW2 : W ≤ 64) :
    BitVec.ofNat 64 (wrap 64 (toSigned W (q % 2 ^ W))) = v.signExtend 64 := by
  apply BitVec.eq_of_toInt_eq
  rw [← hv, toSigned_eq v hW, BitVec.toInt_signExtend_of_le hW2, ofNat_wrap_self, BitVec.toInt_ofInt]
  have h2 := v.toInt_lt
  have h3 := v.le_toInt
  have h4 : (2 : Int) ^ (W - 1) ≤ 2 ^ 63 := by
    exact_mod_cast Nat.pow_le_pow_right (by decide) (by omega : W - 1 ≤ 63)
  apply Int.bmod_eq_of_le <;> omega

theorem ext_eq {n : Bool} {w : PumpW} {q : Nat} {v : BitVec (widthBits w)} (key : v.toNat = q % 2 ^ widthBits w) :
    ext n v = BitVec.ofNat 64 (extendW n (widthBits w) q) := by
  cases n
  · simp only [ext, extendW, Bool.false_eq_true, if_false]
    symm
    apply ofNat_wrap _ _ _ key <;> cases w <;> decide
  · simp only [ext, extendW, if_true]
    apply BitVec.eq_of_toNat_eq
    rw [← key]
    simp

theorem bOf_toNat (s : State) (pb : PSrc) : (bOf s pb).toNat = readB s pb := by cases pb <;> rfl
theorem gOf_toNat (s : State) (r : Reg) : (gOf s r).toNat = readG s r := rfl

theorem pump2_of {n : Bool} {i : Skip → PumpW → Reg → Reg → PSrc → Instr} {f : (w : Nat) → BitVec w → BitVec w → BitVec w}
    {op : Nat} (F : Nat → Nat → Nat → Nat × Bool)
    (he : ∀ s h w rd ra pb, exec (i h w rd ra pb) s = pump2 h op w n rd ra (readB s pb) (F (widthBits w)) s)
    (h : ∀ pw : PumpW, ∀ x y : BitVec (widthBits pw),
      (f _ x y).toNat = (F (widthBits pw) x.toNat y.toNat).1 % 2 ^ widthBits pw) : Pump2 n i f := by
  intro s hh w rd ra pb hb
  rw [he]
  unfold pump2
  obtain ⟨t, h1, h2⟩ := gives_bodyDid (op := op) (rd := rd)
    (v := extendW n (widthBits w) (F (widthBits w) (readG s ra % 2 ^ widthBits w) (readB s pb % 2 ^ widthBits w)).1) hb
  refine ⟨t, h1, ?_⟩
  convert h2 using 3
  have key := h w ((gOf s ra).setWidth _) ((bOf s pb).setWidth _)
  simp only [BitVec.toNat_setWidth, gOf_toNat, bOf_toNat] at key
  exact ext_eq key

theorem executes_of {h : Skip} {u : State} {d : Did} (he : exec i s = pumpStep h (opOf i) s (.done u d)) :
    Executes h i s d.g d.p d.acts d.past u := by
  rintro ⟨hr, hs⟩
  rw [he]
  have h1 : ((bodyLane s).run != .running) = false := by rw [hr]; rfl
  simp only [pumpStep, h1, hs, Bool.false_eq_true, if_false]
  by_cases hc : (bodyLane s).acts.countP CommitAct.isEntry + d.acts.countP CommitAct.isEntry ≤ 16
  · rw [if_pos hc, if_neg (by omega)]
  · rw [if_neg hc, if_pos (by omega)]

theorem faults_of {h : Skip} {u : State} {code : Nat} {va : Option Nat}
    (he : exec i s = pumpStep h (opOf i) s (.fault u code va)) : Faults h i s code va u := by
  rintro ⟨hr, hs⟩
  rw [he]
  exact pumpStep_fault hr hs

theorem retries_of {h : Skip} {u : State} (he : exec i s = pumpStep h (opOf i) s (.retry u)) : Retries h i s u := by
  rintro ⟨hr, hs⟩
  rw [he]
  exact pumpStep_retry hr hs

theorem waits_of {h : Skip} {u : State} (he : exec i s = pumpStep h (opOf i) s (.wait u)) : Waits h i s u := by
  rintro ⟨hr, hs⟩
  rw [he]
  exact pumpStep_wait hr hs

/-! ### Lanes -/

theorem split_eq (w n x : Nat) : Lanes.split w n x = (List.range n).map fun k => x / 2 ^ (w * k) % 2 ^ w := by
  induction n generalizing x with
  | zero => rfl
  | succ n ih =>
    rw [Lanes.split, ih, List.range_succ_eq_map, List.map_cons, List.map_map]
    congr 1
    · simp
    · apply List.map_congr_left
      intro k _
      simp only [Function.comp, Nat.div_div_eq_div_mul, ← pow_add, Nat.mul_succ, Nat.add_comm]

theorem sum_map_mul (c : Nat) (xs : List Nat) : (xs.map fun x => c * x).sum = c * xs.sum := by
  induction xs with
  | nil => simp
  | cons x xs ih => simp [ih, Nat.mul_add]

theorem pack_eq (w n : Nat) (f : Nat → Nat) : Lanes.pack w ((List.range n).map f)
    = ((List.range n).map fun k => f k % 2 ^ w * 2 ^ (w * k)).sum := by
  induction n generalizing f with
  | zero => rfl
  | succ n ih =>
    rw [List.range_succ_eq_map]
    simp only [List.map_cons, List.map_map, Lanes.pack, List.sum_cons, Nat.mul_zero, pow_zero, Nat.mul_one]
    congr 1
    have := ih (fun k => f (k + 1))
    simp only [Function.comp_def, Nat.succ_eq_add_one] at *
    rw [this, ← sum_map_mul, List.map_map]
    congr 1
    apply List.map_congr_left
    intro k _
    simp only [Function.comp, Nat.mul_succ, pow_add]
    ring

theorem vec_eq (m w n : Nat) (f : Nat → Nat) : vec m w n f = BitVec.ofNat m (Lanes.pack w ((List.range n).map f)) := by
  rw [pack_eq]; rfl

theorem conv_foldl (fs : List Flags) (c : Conv) :
    (fs.map Conv.ofFlags).foldl Conv.add c =
      ⟨⟨c.flags.nan || fs.any Flags.nan, c.flags.inx || fs.any Flags.inx, c.flags.sat || fs.any Flags.sat,
        c.flags.ftz || fs.any Flags.ftz⟩, c.sat + fs.countP Flags.sat, c.ftz + fs.countP Flags.ftz,
        c.nan + fs.countP Flags.nan, c.ixd⟩ := by
  induction fs generalizing c with
  | nil => simp
  | cons f fs ih =>
    rw [List.map_cons, List.foldl_cons, ih]
    simp only [Conv.add, Conv.ofFlags, Flags.or, List.any_cons, List.countP_cons, Bool.or_assoc, Nat.add_zero]
    congr 1 <;> (split <;> omega)

theorem convs_eq (n : Nat) (fl : Nat → Flags) : Conv.sum (((List.range n).map fl).map Conv.ofFlags) = convs n fl := by
  rw [Conv.sum, conv_foldl]
  simp [convs, List.any_map, List.countP_map, Function.comp_def]

theorem mapIdx_range {α β : Type} (n : Nat) (f : Nat → α) (g : Nat → α → β) :
    ((List.range n).map f).mapIdx g = (List.range n).map fun k => g k (f k) := by
  apply List.ext_getElem <;> simp

/-- A list of numbers encoded is the numbers encoded lane by lane. -/
theorem encodeAll_eq (fmt : Fmt) (rnd : Rnd) (rand : Nat → Nat) (n m : Nat) (f : Nat → Num) :
    (BitVec.ofNat m (Lanes.encodeAll fmt rnd rand ((List.range n).map f)).1,
      (Lanes.encodeAll fmt rnd rand ((List.range n).map f)).2) = encoded m fmt rnd rand n f := by
  simp only [Lanes.encodeAll, mapIdx_range, encoded, vec_eq, ← convs_eq, List.map_map, Function.comp_def]

theorem encodeRne_eq (fmt : Fmt) (f : Nat → Num) :
    (BitVec.ofNat 256 (Lanes.encodeRne fmt ((List.range (Lanes.count fmt)).map f)).1,
      (Lanes.encodeRne fmt ((List.range (Lanes.count fmt)).map f)).2) = lanes fmt f :=
  encodeAll_eq fmt .rne (fun _ => 0) (Lanes.count fmt) 256 f

theorem laneAt_toNat {n : Nat} (w : Nat) (x : BitVec n) (k : Nat) : (laneAt w x k).toNat = x.toNat / 2 ^ (w * k) % 2 ^ w := by
  simp [laneAt, BitVec.extractLsb'_toNat, Nat.shiftRight_eq_div_pow]

theorem values_eq {n : Nat} (fmt : Fmt) (x : BitVec n) :
    Lanes.values fmt x.toNat = (List.range (Lanes.count fmt)).map (num fmt x) := by
  have h : num fmt x = fun k => decodeLane fmt (x.toNat / 2 ^ (laneWidth fmt * k) % 2 ^ laneWidth fmt) := by
    funext k
    simp only [num, laneAt_toNat]
  rw [h]
  simp only [Lanes.values, Lanes.codes, split_eq, List.map_map, Function.comp_def]

theorem pack_lt (w : Nat) (xs : List Nat) : Lanes.pack w xs < 2 ^ (w * xs.length) := by
  induction xs with
  | nil => simp [Lanes.pack]
  | cons x xs ih =>
    have h : x % 2 ^ w < 2 ^ w := Nat.mod_lt _ (by positivity)
    rw [Lanes.pack, List.length_cons, Nat.mul_succ, Nat.add_comm (w * xs.length), pow_add]
    nlinarith [Nat.two_pow_pos w]

theorem vec_toNat (w n : Nat) (f : Nat → Nat) (h : w * n = 256) :
    (vec 256 w n f).toNat = Lanes.pack w ((List.range n).map f) := by
  have := pack_lt w ((List.range n).map f)
  rw [List.length_map, List.length_range, h] at this
  rw [vec_eq, BitVec.toNat_ofNat, Nat.mod_eq_of_lt this]

theorem laneOperand_lt (fmt : Fmt) : Lanes.laneOperand fmt = laneNumbers fmt := by
  unfold laneNumbers lanes encoded
  rw [vec_toNat _ _ _ (by cases fmt <;> rfl)]
  rfl

theorem laneOperandW_eq (lw : LaneW) : Lanes.laneOperandW (Lanes.laneBits lw) = laneIndices (Lanes.laneBits lw) := by
  unfold laneIndices
  rw [vec_toNat _ _ _ (by cases lw <;> rfl), List.map_id]
  rfl

theorem readVector_lt (s : State) (t e l : Nat) (hl : l < 2 ^ 256) (a : Src) : readVector s t e l a < 2 ^ 256 := by
  cases a <;> simp only [readVector]
  case v n => exact BitVec.isLt _
  case chan c d => split <;> first | exact BitVec.isLt _ | decide
  case lane => exact hl
  all_goals decide

theorem readLanes_eq (s : State) (fmt : Fmt) (a : Src) : readLanes s fmt a = (srcV s fmt a).toNat := by
  have h := readVector_lt s s.actor.tile s.actor.elem (laneNumbers fmt) (BitVec.isLt _) a
  simp only [readLanes, srcV, src256, laneOperand_lt, BitVec.toNat_ofNat]
  exact (Nat.mod_eq_of_lt h).symm

theorem readWide_eq (s : State) (lw : LaneW) (a : Src) : readWide s lw a = (srcL s lw a).toNat := by
  have h := readVector_lt s s.actor.tile s.actor.elem (laneIndices (Lanes.laneBits lw)) (BitVec.isLt _) a
  simp only [readWide, srcL, src256, laneOperandW_eq, BitVec.toNat_ofNat]
  exact (Nat.mod_eq_of_lt h).symm

theorem zipWith_range {α β γ : Type} (n : Nat) (f : Nat → α) (g : Nat → β) (h : α → β → γ) :
    List.zipWith h ((List.range n).map f) ((List.range n).map g) = (List.range n).map fun k => h (f k) (g k) := by
  apply List.ext_getElem <;> simp

theorem vectorRes_eq (d : Dst) (v : Nat) : vectorRes d v = at256 d (BitVec.ofNat 256 v) := by cases d <;> rfl

theorem lanes2_of {i : Guard → Fmt → Dst → Src → Src → Instr} {f : Num → Num → Num}
    (he : ∀ s g fmt d a b, exec (i g fmt d a b) s =
      fire (i g fmt d a b) 1 s (.ok (vectorFired d (Lanes.binary f fmt (readLanes s fmt a) (readLanes s fmt b))))) :
    Lanes2 i f := by
  intro s g fmt d a b
  dsimp only
  have h := encodeRne_eq fmt (fun k => f (num fmt (srcV s fmt a) k) (num fmt (srcV s fmt b) k))
  rw [← h]
  refine firesConv_of (he s g fmt d a b) ?_ rfl ?_ rfl rfl
  · simp only [vectorFired, vectorRes_eq, Lanes.binary, readLanes_eq, values_eq, zipWith_range]
  · simp only [vectorFired, Lanes.binary, readLanes_eq, values_eq, zipWith_range]

theorem lanes1_of {i : Guard → Fmt → Dst → Src → Instr} {f : Num → Num}
    (he : ∀ s g fmt d a, exec (i g fmt d a) s =
      fire (i g fmt d a) 1 s (.ok (vectorFired d (Lanes.unary f fmt (readLanes s fmt a))))) : Lanes1 i f := by
  intro s g fmt d a
  dsimp only
  have h := encodeRne_eq fmt (fun k => f (num fmt (srcV s fmt a) k))
  rw [← h]
  refine firesConv_of (he s g fmt d a) ?_ rfl ?_ rfl rfl
  · simp only [vectorFired, vectorRes_eq, Lanes.unary, readLanes_eq, values_eq, List.map_map, Function.comp_def]
  · simp only [vectorFired, Lanes.unary, readLanes_eq, values_eq, List.map_map, Function.comp_def]

/-! ### Tokens -/

theorem tokOf_eq (s : State) (a : Src) : readTok s a = tokOf s a := by
  cases a
  case acc n => rfl
  case v n => rfl
  case chan c d => rfl
  all_goals first
    | rfl
    | (simp only [readTok, readToken, tokOf]
       congr 1
       apply BitVec.eq_of_toNat_eq
       rw [BitVec.toNat_setWidth, src32_toNat, BitVec.toNat_ofNat])

theorem tokenRes_eq (d : Dst) (v : V256) (k : BitVec 2) : tokenRes d v k = moved d v k := by
  cases d
  case acc n =>
    simp only [tokenRes, moved, BitVec.ofNat_toNat]
  all_goals rfl

end Sys2Proof.Machine
end

