-- ==== Sys2Proof/Certificates/Slice0/Obligations.lean ====
section
/-! DEFINITION. The statements for the provers, each from the rules of spec/ that its docstring names.  The values that
instructions compute stand in Safety.lean in the spec's own arithmetic, apart from the model's. -/

open Sys2Proof Sys2Proof.Machine Sys2Proof.Spec

/-- The opcode of an element slot, and of a body word (R89, R96). -/
def Sys2Proof.Spec.ElemCode (i : Instr) (op : Nat) : Prop := (i.elemFields.map fun f => f.op) = some op
def Sys2Proof.Spec.PumpCode (i : Instr) (op : Nat) : Prop := (i.pumpFields.map fun f => f.op) = some op

/-- R116, whole: the arithmetic operations of elements, with two operands and with an immediate, and of pump bodies at
every width, and their codes.  The results are exact integers taken modulo 2^w, divided by 2^w toward minus infinity, or clamped; the
result bit is as the table says; no conversion flag or count changes (`FiredAs`), and none faults. -/
def Obligations.Arithmetic : Prop :=
  (Elem2 .add fun a b => res (a + b)) ∧ (ElemImm .addImm fun a b => res (a + b)) ∧
  (Elem2 .sub fun a b => res (a - b)) ∧ (ElemImm .subImm fun a b => res (a - b)) ∧
  (Elem2 .mul fun a b => res (a * b)) ∧ (ElemImm .mulImm fun a b => res (a * b)) ∧
  (Elem2 .mulh fun a b => res (BitVec.ofInt 32 (a.toInt * b.toInt / 2 ^ 32))) ∧
  (ElemImm .mulhImm fun a b => res (BitVec.ofInt 32 (a.toInt * b.toInt / 2 ^ 32))) ∧
  (Elem2 .mulhn fun a b => res (BitVec.ofNat 32 (a.toNat * b.toNat / 2 ^ 32))) ∧
  (ElemImm .mulhnImm fun a b => res (BitVec.ofNat 32 (a.toNat * b.toNat / 2 ^ 32))) ∧
  (∀ n, Elem2 (fun g => .adds g n) fun a b => clampTo 32 n (asInt n a + asInt n b)) ∧
  (ElemImm .addsImm fun a b => clampTo 32 false (a.toInt + b.toInt)) ∧
  (∀ n, Elem2 (fun g => .subs g n) fun a b => clampTo 32 n (asInt n a - asInt n b)) ∧
  (ElemImm .subsImm fun a b => clampTo 32 false (a.toInt - b.toInt)) ∧
  (∀ n, Pump2 n (fun h w => .pumpAdd h w n) fun _ a b => a + b) ∧
  (∀ n, Pump2 n (fun h w => .pumpSub h w n) fun _ a b => a - b) ∧
  (∀ n, Pump2 n (fun h w => .pumpMul h w n) fun _ a b => a * b) ∧
  (Pump2 false .pumpMulh fun w a b => BitVec.ofInt w (a.toInt * b.toInt / 2 ^ w)) ∧
  (Pump2 true .pumpMulhn fun w a b => BitVec.ofNat w (a.toNat * b.toNat / 2 ^ w)) ∧
  (∀ n, Pump2 n (fun h w => .pumpAdds h w n) fun w a b => (clampTo w n (asInt n a + asInt n b)).1) ∧
  (∀ n, Pump2 n (fun h w => .pumpSubs h w n) fun w a b => (clampTo w n (asInt n a - asInt n b)).1) ∧
  (∀ g n d a b imm, ElemCode (.add g d a b) 0x00 ∧ ElemCode (.addImm g d a imm) 0x20 ∧ ElemCode (.sub g d a b) 0x01 ∧
    ElemCode (.subImm g d a imm) 0x21 ∧ ElemCode (.mul g d a b) 0x02 ∧ ElemCode (.mulImm g d a imm) 0x22 ∧
    ElemCode (.mulh g d a b) 0x03 ∧ ElemCode (.mulhImm g d a imm) 0x23 ∧ ElemCode (.mulhn g d a b) 0x04 ∧
    ElemCode (.mulhnImm g d a imm) 0x24 ∧ ElemCode (.adds g n d a b) 0x05 ∧ ElemCode (.addsImm g d a imm) 0x25 ∧
    ElemCode (.subs g n d a b) 0x06 ∧ ElemCode (.subsImm g d a imm) 0x26)

/-- R117, whole: the bitwise operations and the shifts, an amount of w or more included. -/
def Obligations.LogicAndShifts : Prop :=
  (Elem2 .and fun a b => res (a &&& b)) ∧ (ElemImm .andImm fun a b => res (a &&& b)) ∧
  (Elem2 .or fun a b => res (a ||| b)) ∧ (ElemImm .orImm fun a b => res (a ||| b)) ∧
  (Elem2 .xor fun a b => res (a ^^^ b)) ∧ (ElemImm .xorImm fun a b => res (a ^^^ b)) ∧
  (Elem2 .andn fun a b => res (a &&& ~~~b)) ∧ (ElemImm .andnImm fun a b => res (a &&& ~~~b)) ∧
  (Elem2 .shl fun a b => res (shl 32 a b)) ∧ (ElemImm .shlImm fun a b => res (shl 32 a b)) ∧
  (Elem2 .shr fun a b => res (shr 32 a b)) ∧ (ElemImm .shrImm fun a b => res (shr 32 a b)) ∧
  (Elem2 .sra fun a b => res (sra 32 a b)) ∧ (ElemImm .sraImm fun a b => res (sra 32 a b)) ∧
  (Elem2 .rot fun a b => res (rot 32 a b)) ∧ (ElemImm .rotImm fun a b => res (rot 32 a b)) ∧
  (∀ n, Pump2 n (fun h w => .pumpAnd h w n) fun _ a b => a &&& b) ∧
  (∀ n, Pump2 n (fun h w => .pumpOr h w n) fun _ a b => a ||| b) ∧
  (∀ n, Pump2 n (fun h w => .pumpXor h w n) fun _ a b => a ^^^ b) ∧
  (∀ n, Pump2 n (fun h w => .pumpAndn h w n) fun _ a b => a &&& ~~~b) ∧
  (∀ n, Pump2 n (fun h w => .pumpShl h w n) fun w a b => shl w a b) ∧
  (Pump2 true .pumpShr fun w a b => shr w a b) ∧
  (Pump2 false .pumpSra fun w a b => sra w a b) ∧
  (∀ n, Pump2 n (fun h w => .pumpRot h w n) fun w a b => rot w a b)

/-- R118: extremes, comparisons, tests and selection. -/
def Obligations.CompareAndSelect : Prop :=
  (Elem2 .min fun a b => res (if a.toInt ≤ b.toInt then a else b)) ∧
  (ElemImm .minImm fun a b => res (if a.toInt ≤ b.toInt then a else b)) ∧
  (Elem2 .max fun a b => res (if a.toInt ≤ b.toInt then b else a)) ∧
  (ElemImm .maxImm fun a b => res (if a.toInt ≤ b.toInt then b else a)) ∧
  (Elem2 .minn fun a b => res (if a.toNat ≤ b.toNat then a else b)) ∧
  (ElemImm .minnImm fun a b => res (if a.toNat ≤ b.toNat then a else b)) ∧
  (Elem2 .maxn fun a b => res (if a.toNat ≤ b.toNat then b else a)) ∧
  (ElemImm .maxnImm fun a b => res (if a.toNat ≤ b.toNat then b else a)) ∧
  (∀ rel n c, ∀ s g d a b, (c = true ↔ related rel (asInt n (src32 s a)) (asInt n (src32 s b))) →
    Computes (.cmp g rel n d a b) s d (truth 32 c)) ∧
  (∀ s g d a b, Computes (.tst g false d a b) s d (truth 32 (src32 s a &&& src32 s b != 0))) ∧
  (∀ s g d a b, Computes (.tst g true d a b) s d (truth 32 (src32 s a &&& src32 s b == 0))) ∧
  (∀ s g pid d a b, Computes (.sel g pid d a b) s d (res
    (if (s.elem s.actor.tile s.actor.elem).core.p.getLsbD pid.val then src32 s a else src32 s b))) ∧
  (Pump2 false .pumpMin fun _ a b => if a.toInt ≤ b.toInt then a else b) ∧
  (Pump2 false .pumpMax fun _ a b => if a.toInt ≤ b.toInt then b else a) ∧
  (Pump2 true .pumpMinn fun _ a b => if a.toNat ≤ b.toNat then a else b) ∧
  (Pump2 true .pumpMaxn fun _ a b => if a.toNat ≤ b.toNat then b else a) ∧
  (∀ rel n c, ∀ s h w rd ra pb, (c = true ↔ related rel (asInt n ((gOf s ra).setWidth (widthBits w)))
    (asInt n ((bOf s pb).setWidth (widthBits w)))) → Gives h (.pumpCmp h rel w n rd ra pb) s rd (if c then 1 else 0)) ∧
  (∀ n s h w rd ra pb, Gives h (.pumpTst h false w n rd ra pb) s rd
    (if (gOf s ra &&& bOf s pb).setWidth (widthBits w) = 0 then 0 else 1)) ∧
  (∀ n s h w rd ra pb, Gives h (.pumpTst h true w n rd ra pb) s rd
    (if (gOf s ra &&& bOf s pb).setWidth (widthBits w) = 0 then 1 else 0)) ∧
  (∀ n s h w pid rd ra rb, Gives h (.pumpSel h w n pid rd ra rb) s rd
    (ext n ((if readP s pid then gOf s ra else gOf s rb).setWidth (widthBits w))))

/-- R119: leading zeros, one bits, and the two field operations.
Where the spec leaves room, it states the model's reading: log entry 36. -/
def Obligations.BitOperations : Prop :=
  (∀ s g d a, Computes (.clz g d a) s d (res (clz 32 (src32 s a)))) ∧
  (∀ s g d a, Computes (.popc g d a) s d (res (popc 32 (src32 s a)))) ∧
  (∀ n, Elem2 (fun g => .bfx g n) fun a b => res (bfx n 32 a b)) ∧
  (∀ s g n a b, Computes (.bfi g (.x n) a b) s (.x n)
    (res (bfi 32 (s.elem s.actor.tile s.actor.elem).core.x[n] (src32 s a) (src32 s b)))) ∧
  (∀ s g n a b, Computes (.bfi g (.w n) a b) s (.w n)
    (res (bfi 32 (s.tile s.actor.tile).core.w[n] (src32 s a) (src32 s b)))) ∧
  (∀ s h w n rd ra, Gives h (.pumpClz h w n rd ra) s rd (ext n (clz (widthBits w) ((gOf s ra).setWidth _)))) ∧
  (∀ s h w n rd ra, Gives h (.pumpPopc h w n rd ra) s rd (ext n (popc (widthBits w) ((gOf s ra).setWidth _)))) ∧
  (∀ n s h w rd ra rb, Gives h (.pumpBfx h w n rd ra rb) s rd
    (ext n (bfx n (widthBits w) ((gOf s ra).setWidth _) ((gOf s rb).setWidth _)))) ∧
  (∀ n s h w rd ra rb, Gives h (.pumpBfi h w n rd ra rb) s rd
    (ext n (bfi (widthBits w) ((gOf s rd).setWidth _) ((gOf s ra).setWidth _) ((gOf s rb).setWidth _))))

/-- R120, R121 and R122: copies and constants. -/
def Obligations.MovesAndConstants : Prop :=
  (∀ s g d a, Computes (.mov g d a) s d (res (src32 s a))) ∧
  (∀ s g d imm, Computes (.movi g d imm) s d (res (imm.signExtend 32))) ∧
  (∀ s g n imm, Computes (.movs g (.x n) imm) s (.x n)
    (res (((s.elem s.actor.tile s.actor.elem).core.x[n] <<< 12) ||| imm.setWidth 32))) ∧
  (∀ s g n imm, Computes (.movs g (.w n) imm) s (.w n)
    (res (((s.tile s.actor.tile).core.w[n] <<< 12) ||| imm.setWidth 32))) ∧
  (∀ s h w n rd pm, Gives h (.pumpMov h w n rd pm) s rd (ext n ((bOf s pm).setWidth (widthBits w)))) ∧
  (∀ s h rd v fld, Gives h (.movk h rd v fld) s rd
    ((gOf s rd &&& ~~~((0xFFFF : BitVec 64) <<< (16 * fld.val))) ||| (v.setWidth 64 <<< (16 * fld.val))))

/-- R123, whole: CNT in both forms, and their codes. -/
def Obligations.Counter : Prop :=
  (∀ n, Elem2 (fun g => .cnt g n) fun a b => cnt n a b) ∧ (ElemImm .cntImm fun a b => cnt false a b) ∧
  (∀ g n d a b imm, ElemCode (.cnt g n d a b) 0x1D ∧ ElemCode (.cntImm g d a imm) 0x3D)

/-- R127, whole: division in pump bodies, the two corner cases included, and a = q * b + r at every width. -/
def Obligations.Division : Prop :=
  (Pump2 false .div fun w a b => quot w false a b) ∧ (Pump2 true .divn fun w a b => quot w true a b) ∧
  (∀ n, Pump2 n (fun h w => .rem h w n) fun w a b => rem w n a b) ∧
  (∀ w n (a b : BitVec w), quot w n a b * b + rem w n a b = a) ∧
  (∀ h w n rd ra pb, PumpCode (.div h w rd ra pb) 0x20 ∧ PumpCode (.divn h w rd ra pb) 0x21 ∧ PumpCode (.rem h w n rd ra pb) 0x22)

/-! ### The guard, aborts and control -/

/-- R40, R104 and R318 for every element instruction: an illegal slot aborts with 0x0A, a rule whose guard does not hold
does nothing, a rule that would dequeue a POISON mark aborts with 0x05, and one that would dequeue a token that fails its
parity (R384) with 0x06. -/
def Obligations.RuleGuard : Prop :=
  ∀ i s o, i.operands = some o →
    (slotLegal s s.actor.tile s.actor.elem i = false → exec i s = .next (abortRule s i { code := 0x0A })) ∧
    (slotLegal s s.actor.tile s.actor.elem i = true → ready s i o = false → exec i s = .next s) ∧
    (slotLegal s s.actor.tile s.actor.elem i = true → ready s i o = true →
      takesPoison (s.elem s.actor.tile s.actor.elem) (deqs i o (s.elem s.actor.tile s.actor.elem)) = true →
      takesBadParity (s.elem s.actor.tile s.actor.elem) (deqs i o (s.elem s.actor.tile s.actor.elem)) = false →
      exec i s = .next (abortRule s i { code := 0x05 })) ∧
    (slotLegal s s.actor.tile s.actor.elem i = true → ready s i o = true →
      takesBadParity (s.elem s.actor.tile s.actor.elem) (deqs i o (s.elem s.actor.tile s.actor.elem)) = true →
      exec i s = .next (abortRule s i { code := 0x06 }))

/-- What an abort leaves (R54): EFAULT holds V, the plane, the slot, the opcode and the code; the element is faulted; and no
register, no token, no charge, no byte of a cistern or of memory changes. -/
def Obligations.RuleAbort : Prop :=
  ∀ i s a, let t := abortRule s i a
    let y := s.elem s.actor.tile s.actor.elem
    let z := t.elem s.actor.tile s.actor.elem
    z.efault = ⟨true, BitVec.ofNat 2 s.actor.plane, BitVec.ofNat 4 s.actor.slot, BitVec.ofNat 8 (opcodeOf i),
      BitVec.ofNat 8 a.code⟩ ∧ z.faulted = true ∧ z.core = y.core ∧ z.chans = y.chans ∧ z.pending = y.pending ∧
    (∀ u j, (u ≠ s.actor.tile ∨ j ≠ s.actor.elem) → t.elem u j = s.elem u j) ∧
    (∀ u, (t.tile u).core = (s.tile u).core ∧ (t.tile u).balance = (s.tile u).balance ∧
      (t.tile u).cistern = (s.tile u).cistern) ∧
    t = { s with tiles := t.tiles }

/-- R124 to R126: predicates of elements, of tiles and of pump cores. -/
def Obligations.Predicates : Prop :=
  (∀ s g a, Fires (.pset g a) s ((List.finRange 8).map fun k => .pred k ((src32 s a).getLsbD k.val)) false) ∧
  (∀ s g lop pj pk, let p := (s.elem s.actor.tile s.actor.elem).core.p
    Fires (.plog g lop pj pk) s [] (plog lop (p.getLsbD pj.val) (p.getLsbD pk.val))) ∧
  (∀ s g q a, Fires (.qset g q a) s [] false fun u => u.modTile s.actor.tile fun x => { x with core := { x.core with
    q := if (src32 s a).getLsbD 0 then x.core.q ||| BitVec.ofNat 16 (2 ^ q.val)
      else x.core.q &&& ~~~BitVec.ofNat 16 (2 ^ q.val) } }) ∧
  (∀ s h w pd pb, BodyRuns h s → ∃ t, exec (.pumpPset h w pd pb) s = .next t ∧
    BodyDid s t [] [(pd.val, (bOf s pb).getLsbD 0)] [] 0) ∧
  (∀ s h lop w pd pj pk, BodyRuns h s → ∃ t, exec (.pumpPlog h lop w pd pj pk) s = .next t ∧
    BodyDid s t [] [(pd.val, plog lop (readP s pj) (readP s pk))] [] 0)

/-- R128 to R132: NOP does nothing more, HALT halts its element, TRAP aborts with 0x0F unless its operand is 0, PLANE asks
its region controller for a plane, and CHGQ reads the balance after its own charge of 1. -/
def Obligations.ElementControl : Prop :=
  (∀ s g, Fires (.nop g) s [] false) ∧
  (∀ s g, Fires (.halt g) s [] false fun u => u.modElem s.actor.tile s.actor.elem fun y =>
    { y with core := { y.core with halted := true } }) ∧
  (∀ s g a, src32 s a = 0 → Fires (.trap g a) s [] false) ∧
  (∀ s g a, src32 s a ≠ 0 → Traps (.trap g a) s 0x0F) ∧
  (∀ s g k, Fires (.plane g k) s [] false fun u =>
    requestPlane u s.actor.tile (s.elem s.actor.tile s.actor.elem).stroke (some (BitVec.ofNat 2 k.val))) ∧
  (∀ s g d, Computes (.chgq g d) s d (res (BitVec.ofNat 32 ((s.tile s.actor.tile).balance - 1))))

/-! ### Vector instructions -/

/-- R138, and R32 and R34 for its instructions: every lane is computed exactly and encoded once, to nearest even; the
events of all lanes set the sticky flags and count, or abort the rule where they would cross a threshold.
Where the spec leaves room, it states the model's reading: log entry 20. -/
def Obligations.VectorArithmetic : Prop :=
  Lanes2 .vadd Machine.Num.add ∧ Lanes2 .vsub Machine.Num.sub ∧ Lanes2 .vmul Machine.Num.mul ∧ Lanes2 .vmax Machine.Num.max ∧ Lanes2 .vmin Machine.Num.min ∧
  (Lanes2 .vclamp fun a b => (a.max b.abs.neg).min b.abs) ∧ Lanes1 .vabs Machine.Num.abs ∧ Lanes1 .vneg Machine.Num.neg ∧
  (∀ g fmt d a b, ElemCode (.vadd g fmt d a b) 0x40 ∧ ElemCode (.vsub g fmt d a b) 0x41 ∧ ElemCode (.vmul g fmt d a b) 0x42 ∧
    ElemCode (.vmax g fmt d a b) 0x45 ∧ ElemCode (.vmin g fmt d a b) 0x46 ∧ ElemCode (.vabs g fmt d a) 0x47 ∧
    ElemCode (.vneg g fmt d a) 0x48 ∧ ElemCode (.vclamp g fmt d a b) 0x49)

/-- R139 and R156: VFMA and VFMS add or subtract an exact product to their destination and encode once; into an accumulator
in FP32, whose further lanes keep their values, as VACC adds a vector into it.
Where the spec leaves room, it states the model's reading: log entry 20. -/
def Obligations.VectorFused : Prop :=
  (∀ minus : Bool, ∀ s g fmt d a b,
    let i : Instr := if minus then .vfms g fmt d a b else .vfma g fmt d a b
    let p (k : Nat) : Machine.Num := let q := (num fmt (srcV s fmt a) k).mul (num fmt (srcV s fmt b) k)
      if minus then q.neg else q
    match d with
    | .acc n =>
      let m := min 16 (Lanes.count fmt)
      FiresLate i s 2 [.acc n (vec 512 32 16 fun k => if k < m then (encodeF32 ((num .fp32 (accOf s n) k).add (p k))).1
        else (laneAt 32 (accOf s n) k).toNat)] false
        (convs m fun k => (encodeF32 ((num .fp32 (accOf s n) k).add (p k))).2)
    | d =>
      let c (k : Nat) : Machine.Num := match d with
        | .v n => num fmt (vecOf s n) k
        | _ => .zero
      let r := lanes fmt fun k => (c k).add (p k)
      FiresLate i s 2 (at256 d r.1) false r.2) ∧
  (∀ s g fmt n a,
    let m := min 16 (Lanes.count fmt)
    let r (k : Nat) := encodeF32 ((num .fp32 (accOf s n) k).add (num fmt (srcV s fmt a) k))
    FiresLate (.vacc g fmt (.acc n) a) s 2
      [.acc n (vec 512 32 16 fun k => if k < m then (r k).1 else (laneAt 32 (accOf s n) k).toNat)] false
      (convs m fun k => (r k).2))

/-- R140: the six functions, four fc late.  A lane whose correctly rounded value the model's enclosure does not settle holds
a free value and sets INX (log entry 14), so this statement holds whatever it is. -/
def Sys2Proof.Spec.VectorFunctions : Prop :=
  ∀ s g fmt d a,
    let run (i : Instr) (op : Nat) (f : Machine.Num → Option Machine.Num) : Prop :=
      let code (k : Nat) := (laneAt (laneWidth fmt) (srcV s fmt a) k).toNat
      let r (k : Nat) : Nat × Flags := match f (num fmt (srcV s fmt a) k) with
        | some x => encodeLane fmt .rne 0 x
        | none => (Config.openLane op (code k), { inx := true })
      FiresLate i s 4 (at256 d (vec 256 (laneWidth fmt) (Lanes.count fmt) fun k => (r k).1)) false
        (convs (Lanes.count fmt) fun k => (r k).2)
    run (.vrcp g fmt d a) 0x50 (fun x => some x.recip) ∧ run (.vrsq g fmt d a) 0x51 (fun x => some x.rsqrt) ∧
    run (.vsqrt g fmt d a) 0x52 (fun x => some x.sqrt) ∧ run (.vexp2 g fmt d a) 0x53 Machine.Num.exp2 ∧
    run (.vlog2 g fmt d a) 0x54 Machine.Num.log2 ∧ run (.vtanh g fmt d a) 0x55 Machine.Num.tanh

/-- R141: VRED and VAMAX reduce by the tree of R37 and give one FP32 value, two fc late. -/
def Sys2Proof.Spec.VectorReductions : Prop :=
  (∀ s g kind fmt d a,
    let x := numsOf s fmt a
    let r := Lanes.reduce kind ((List.range x.1).map x.2)
    FiresLate (.vred g kind fmt d a) s 2 (moved d (BitVec.ofNat 256 r.1) 0) false r.2) ∧
  (∀ s g fmt d a,
    let x := numsOf s fmt a
    let r := Lanes.reduce .max ((List.range x.1).map fun k => (x.2 k).abs)
    FiresLate (.vamax g fmt d a) s 2 (moved d (BitVec.ofNat 256 r.1) 0) false r.2)

/-- R142, R143 and R144: compare lanes, select by a lane's mask, logic on whole registers, and shifts of lanes. -/
def Obligations.VectorCompareLogic : Prop :=
  (∀ s g fmt d a b,
    let x := num fmt (srcV s fmt a)
    let y := num fmt (srcV s fmt b)
    Fires (.vcmp g fmt d a b) s (at256 d (vec 256 (laneWidth fmt) (Lanes.count fmt) fun k =>
      if (x k).isNan || (y k).isNan then 2 else if (x k).lt (y k) then 2 ^ laneWidth fmt - 1
      else if (y k).lt (x k) then 1 else 0)) false) ∧
  (∀ s g lw test d a b,
    let w := Lanes.laneBits lw
    let m : BitVec 256 := match d with
      | .v n => vecOf s n
      | _ => 0
    Fires (.vsel g lw test d a b) s (at256 d (vec 256 w (256 / w) fun k =>
      (laneAt w (if (laneAt w m k).toNat = Lanes.testCode w test then srcL s lw a else srcL s lw b) k).toNat)) false) ∧
  (∀ s g op d a b,
    let x := srcL s .w32 a
    let y := srcL s .w32 b
    Fires (.vlog g op d a b) s (at256 d (match op with
      | .and => x &&& y
      | .or => x ||| y
      | .xor => x ^^^ y
      | .andn => x &&& ~~~y
      | .not => ~~~x)) false) ∧
  (∀ s g lw op d a b,
    let w := Lanes.laneBits lw
    let n := (src32 s b).toNat
    Fires (.vsh g lw op d a b) s (at256 d (vec 256 w (256 / w) fun k =>
      let x := laneAt w (srcL s lw a) k
      (match op with
        | .shl => if n < w then x <<< n else 0
        | .shr => if n < w then x >>> n else 0
        | .sra => if n < w then x.sshiftRight n else if x.msb then BitVec.allOnes w else 0
        | .rot => x.rotateLeft (n % w)).toNat)) false)

/-- R145 to R148 and R62: broadcast (0x0B outside a replicate element), extract, insert, index vectors and shuffles. -/
def Sys2Proof.Spec.LaneMovement : Prop :=
  (∀ s g fmt d a, (s.elem s.actor.tile s.actor.elem).replicate = true →
    Fires (.vbcst g fmt d a) s (at256 d (vec 256 (laneWidth fmt) (Lanes.count fmt) fun _ =>
      (src32 s a).toNat % 2 ^ Lanes.movedBits fmt)) false) ∧
  (∀ s g fmt d a, (s.elem s.actor.tile s.actor.elem).replicate = false → Traps (.vbcst g fmt d a) s 0x0B) ∧
  (∀ s g fmt d a b, Computes (.vext g fmt d a b) s d (res (if (src32 s b).toNat < Lanes.count fmt then
    BitVec.ofNat 32 ((laneAt (laneWidth fmt) (srcV s fmt a) (src32 s b).toNat).toNat % 2 ^ Lanes.movedBits fmt) else 0))) ∧
  (∀ s g fmt d a b,
    let old : BitVec 256 := match d with
      | .v n => vecOf s n
      | _ => 0
    Fires (.vins g fmt d a b) s (at256 d (if (src32 s b).toNat < Lanes.count fmt then
      vec 256 (laneWidth fmt) (Lanes.count fmt) fun k => if k = (src32 s b).toNat
        then (src32 s a).toNat % 2 ^ Lanes.movedBits fmt else (laneAt (laneWidth fmt) old k).toNat
      else old)) false) ∧
  (∀ s g fmt d a b,
    let x (k : Nat) : Int := (src32 s a).toInt + k * (src32 s b).toInt
    let r := match kindOf fmt with
      | .float _ => lanes fmt fun k => .ofInt (x k)
      | _ => (vec 256 (laneWidth fmt) (Lanes.count fmt) fun k => (x k % 2 ^ laneWidth fmt).toNat, {})
    FiresConv (.viota g fmt d a b) s (at256 d r.1) r.2) ∧
  (∀ s g lw d a b,
    let w := Lanes.laneBits lw
    Fires (.vshuf g lw d a b) s (at256 d (vec 256 w (256 / w) fun k =>
      let j := (laneAt w (srcL s lw b) k).toNat
      if j < 256 / w then (laneAt w (srcL s lw a) j).toNat else 0)) false)

/-- R149 to R153: conversions; .srk draws its words from SRSEED, LIDX, the lane and SEQ, and advances SEQ by one.  A VDQNT
whose operand is code 28 or 29, which has no scale register, takes a free value as its scale.
Where the spec leaves room, it states the model's reading: log entries 15, 20, 21, 22, 63 and 97. -/
def Obligations.Conversions : Prop :=
  (∀ s g df sf rnd d a,
    let r := converted s d df rnd (numsOf s sf a)
    FiresConv (.vcvt g df sf rnd d a) s r.1 r.2 (stepSeq rnd s.actor.tile s.actor.elem)) ∧
  (∀ s g df sf rnd d a,
    let r := converted s d df rnd (pairOf s sf a)
    FiresConv (.vpack g df sf rnd d a) s r.1 r.2 (stepSeq rnd s.actor.tile s.actor.elem)) ∧
  (∀ s g df sf rnd n a,
    let r := paired s (.v n) df .rne (Lanes.count sf, num sf (srcV s sf a))
    FiresConv (.vunpk g df sf rnd (.v n) a) s r.1 r.2) ∧
  (∀ s g df sf rnd n a,
    let x := pairOf s sf a
    let r := Lanes.quantize df rnd (randOf s rnd) ((List.range x.1).map x.2)
    FiresLate (.vqnt g df sf rnd (.v n) a) s 2 [.v n (BitVec.ofNat 256 r.1), .sc n (BitVec.ofNat 32 r.2.1)] false r.2.2
      (stepSeq rnd s.actor.tile s.actor.elem)) ∧
  (∀ s g df sf rnd d a, (d.isV || d.isAcc) = true →
    let xs := Lanes.scaledValues sf (srcV s sf a).toNat (dqntScale s a)
    let r := paired s d df rnd (xs.length, fun k => xs.getD k .zero)
    FiresLate (.vdqnt g df sf rnd d a) s 2 r.1 false r.2 fun u =>
      stepSeq rnd s.actor.tile s.actor.elem (if a.isV || a.isChan then u else { u with free := u.free + 1 }))

/-- R154, R155 and R157: random words by kind, dropout by lane, and the corner turn of CTURN. -/
def Sys2Proof.Spec.RandomAndTurn : Prop :=
  (∀ s g kind d a b,
    let w (k : Nat) := rngWord (seedOf s s.actor.tile) (src32 s a).toNat (((src32 s b).toNat + k) % 2 ^ 32)
    FiresLate (.vrng g kind d a b) s 2 (at256 d (match kind with
      | 0 => vec 256 32 8 w
      | 1 => vec 256 32 8 fun k => (encodeLane .fp32 .rne 0 (.fin false (w k / 2 ^ 8) (-24))).1
      | 2 => vec 256 16 16 fun k => (encodeLane .bf16 .rne 0 (.fin false (w k / 2 ^ 24) (-8))).1
      | 3 => vec 256 16 16 fun k => w k % 2 ^ 16)) false {}) ∧
  (∀ s g fmt d a b,
    let c := (s.elem s.actor.tile s.actor.elem).core
    let w (k : Nat) := rngWord (seedOf s s.actor.tile) c.x[14].toNat (((src32 s b).toNat + k) % 2 ^ 32)
    let r (k : Nat) : Nat × Flags := if c.x[15] = 0xFFFFFFFF ∨ w k < c.x[15].toNat
      then encodeLane fmt .rne 0 (num fmt (srcV s fmt a) k) else (0, {})
    FiresLate (.vdrop g fmt d a b) s 2 (at256 d (vec 256 (laneWidth fmt) (Lanes.count fmt) fun k => (r k).1)) false
      (convs (Lanes.count fmt) fun k => (r k).2)) ∧
  (∀ s g lw d a,
    let w := Lanes.laneBits lw
    let u := (s.elem s.actor.tile s.actor.elem).core.turn
    let r := turnStep u (256 / w) w (if a = .zero then none else some (srcL s lw a).toNat)
    Fires (.cturn g lw d a) s (match r.2 with
      | some (column, tag) => moved d (BitVec.ofNat 256 column) tag
      | none => []) false fun v => setTurn v s.actor.tile s.actor.elem r.1)

/-- R37, R140 and R141: the functions and the reductions of a vector.
Where the spec leaves room, it states the model's reading: log entries 14 and 20. -/
def Obligations.FunctionsAndReductions : Prop := VectorFunctions ∧ VectorReductions

/-- R62, R145 to R148, R154, R155 and R157: lanes moved, random words, and the corner turn.
Where the spec leaves room, it states the model's reading: log entry 15. -/
def Obligations.LanesRandomAndTurn : Prop := LaneMovement ∧ RandomAndTurn

/-! ### Tokens, merges, marks and rings -/

/-- R159 to R161: FWD copies bits and tag, DEQ takes a token and its result bit says whether it was tagged
LAST, TAG sends a token under another tag.
Where the spec leaves room, it states the model's reading: log entry 115. -/
def Obligations.TokenMoves : Prop :=
  (∀ s g d a b, Fires (.fwd g d a b) s (match a with
    | .acc n => (match d with
      | .acc m => [.acc m (accOf s n)]
      | _ => [])
    | a => moved d (tokOf s a).1 (tokOf s a).2) false) ∧
  (∀ s g a b, Fires (.deq g a b) s [] ((tokOf s a).2 == 1)) ∧
  (∀ s g v d a, Fires (.tag g v d a) s (moved d (tokOf s a).1 (BitVec.ofNat 2 v.val)) false)

/-- R164 to R166: STEER sends a record and its index to the arm that the control value's lowest bit names and counts both;
MRGO takes from the arm whose index is EXP, advances EXP and returns a credit; MRGA takes the only channel with a token, or
the one it did not take last, and remembers which. -/
def Sys2Proof.Spec.SteerAndMerge : Prop :=
  (∀ s g n a b,
    let arm := (src32 s b).toNat % 2
    Fires (.steer g (.out n) a b) s [.out (fin 16 (n.val + arm)) ⟨(tokOf s a).1, (tokOf s a).2, 0⟩,
      .out (fin 16 (n.val + 2 + arm)) ⟨((s.elem s.actor.tile s.actor.elem).core.idx).setWidth 256, 0, 0⟩] false
      fun u => u.modElem s.actor.tile s.actor.elem fun y =>
        { y with core := { y.core with idx := y.core.idx + 1, out := y.core.out + 1 } }) ∧
  (∀ s g d a b r k tok, readyArm (s.elem s.actor.tile s.actor.elem) a b = some (r, k) →
    (s.elem s.actor.tile s.actor.elem).head r = some tok →
    Fires (.mrgo g d a b) s (moved d tok.data tok.tag) false fun u =>
      sendCredits (u.modElem s.actor.tile s.actor.elem fun y => { y with core := { y.core with exp := y.core.exp + 1 } })
        s.actor.tile s.actor.elem) ∧
  (∀ s g d a b c, mrgaPick (s.elem s.actor.tile s.actor.elem) a b = some c →
    Fires (.mrga g d a b) s (moved d (tokOf s c).1 (tokOf s c).2) false fun u =>
      u.modElem s.actor.tile s.actor.elem fun y => { y with core := { y.core with lastA := c == a } })

/-- R162: MARK asks its region controller for a stroke end, a drain or a freeze, sends a BARRIER mark, which an entry
element counts by output (R303), or sends a CUT mark with its iteration count. -/
def Sys2Proof.Spec.MarkInstructions : Prop :=
  (∀ s g, Fires (.markStroke g) s [] false fun u => requestStroke u s.actor.tile) ∧
  (∀ s g, Fires (.markDrain g) s [] false fun u =>
    requestPlane u s.actor.tile (s.elem s.actor.tile s.actor.elem).stroke none) ∧
  (∀ s g, Fires (.markFreeze g) s [] false fun u => requestFreeze u s.actor.tile) ∧
  (∀ s g c, Fires (.markBarrier g (.out c)) s [.out c ⟨3, 3, 0⟩] false fun u =>
    countBarrier u s.actor.tile s.actor.elem c.val) ∧
  (∀ s g c a, Fires (.markCut g (.out c) a) s
    [.out c ⟨(4 : BitVec 256) ||| ((src32 s a).setWidth 256 <<< 32), 3, 0⟩] false) ∧
  (∀ (u : State) k t r, regionOf u t = some k → u.region k = some r →
    (requestStroke u t).region k = some { r with strokeReq := true } ∧
    (requestFreeze u t).region k = some { r with freezeReq := true, reloadFreeze := false } ∧
    ∀ n p, (requestPlane u t n p).region k = some { r with planeReqs := r.planeReqs ++ [⟨n, p⟩] })

/-- The place of slot k of a ring in the cistern (R110). -/
def Sys2Proof.Spec.slotPlace (r : Ring) (k : Nat) : Nat := r.base.toNat * 32 + k * 2 ^ (r.ssize.toNat + 2)

/-- A rule that reads bytes of the cistern of its tile: it aborts with 0x06 where a granule of them holds an uncorrectable
error (R384), else it does as `ok` says. -/
def Sys2Proof.Spec.ReadsCistern (i : Instr) (s : State) (off len : Nat) (ok : Prop) : Prop :=
  ((∃ g ∈ (s.tile s.actor.tile).badCistern, off < 8 * g + 8 ∧ 8 * g < off + len) → Traps i s 0x06) ∧
  ((∀ g ∈ (s.tile s.actor.tile).badCistern, 8 * g + 8 ≤ off ∨ off + len ≤ 8 * g) → ok)

/-- R179: CRGET reads the slot at GET, PUT less FILLED round the ring, two fc late, with tag 0, and frees the slot; CRPUT
writes the slot at PUT and fills it.
Where the spec leaves room, it states the model's reading: log entries 13 and 98. -/
def Obligations.RingInstructions : Prop :=
  (∀ s g (ring : Fin 8) d,
    let r := (s.tile s.actor.tile).core.rings[ring]
    let slot := (r.put.toNat + r.slots.toNat - r.filled.toNat) % r.slots.toNat
    let len := min (2 ^ (r.ssize.toNat + 2)) 32
    let bs := (s.tile s.actor.tile).cistern.reads (slotPlace r slot) len
    ReadsCistern (.crget g ring d) s (slotPlace r slot) len <| FiresLate (.crget g ring d) s 2 (moved d (BitVec.ofNat 256 (natOf bs)) 0) false {} fun u =>
      u.modTile s.actor.tile fun x => { x with core := { x.core with
        rings := x.core.rings.set ring { r with free := r.free + 1, filled := r.filled - 1 } } }) ∧
  (∀ s g ring a, Fires (.crput g ring a) s [] false fun u =>
    putRing u s.actor.tile s.actor.elem ring (tokOf s a).1.toNat) ∧
  (∀ (u : State) t e (ring : Fin 8) v,
    let r := (u.tile t).core.rings[ring]
    let n := 2 ^ (r.ssize.toNat + 2)
    let z := (putRing u t e ring v).tile t
    z.cistern = (u.tile t).cistern.writes (slotPlace r r.put.toNat) (byteList n v) ∧
    z.core.rings[ring] = { r with put := BitVec.ofNat 13 ((r.put.toNat + 1) % r.slots.toNat), free := r.free - 1,
                                  filled := r.filled + 1 } ∧
    z.undo = (u.tile t).undo ++ [⟨(u.elem t e).stroke, slotPlace r r.put.toNat,
      (u.tile t).cistern.reads (slotPlace r r.put.toNat) n, undoSize n⟩])

/-! ### The cistern and its owners -/

/-- The offset a cistern access of n bytes names: 18 bits, the low bits of its width ignored (R178). -/
def Sys2Proof.Spec.cisternPlace (v : BitVec 32) (n : Nat) : Nat := v.toNat % 2 ^ 18 / n * n

/-- A narrow value extended to 32 bits: by zero when N = 1, by sign when N = 0 (R172). -/
def Sys2Proof.Spec.narrow (n : Bool) (bytes : Nat) (v : Nat) : BitVec 32 :=
  if n then (BitVec.ofNat (8 * bytes) v).setWidth 32 else (BitVec.ofNat (8 * bytes) v).signExtend 32

/-- What a cistern store does where its bytes meet no owner's range, and that it aborts with 0x0C where they do (R178): the
bytes are written, and the old ones are logged for undo with the stroke of the element (R180); a granule written whole loses
its ECC error. -/
def Sys2Proof.Spec.CisternStores (i : Instr) (s : State) (off : Nat) (bs : List Byte) : Prop :=
  (meetsOwner (s.tile s.actor.tile) off bs.length = true → Traps i s 0x0C) ∧
  (meetsOwner (s.tile s.actor.tile) off bs.length = false → Fires i s [] false fun u =>
    u.modTile s.actor.tile fun x => { x.mend off bs.length with
      undo := x.undo ++ [⟨(u.elem s.actor.tile s.actor.elem).stroke, off, x.cistern.reads off bs.length,
        undoSize bs.length⟩]
      cistern := x.cistern.writes off bs })

/-- R178, with the extension of R172: loads from the cistern, two fc late, and stores to it.
Where the spec leaves room, it states the model's reading: log entries 13 and 98. -/
def Obligations.CisternAccess : Prop :=
  (∀ s g mw n d a,
    let len := accessBytes mw
    let v := narrow n len (natOf ((s.tile s.actor.tile).cistern.reads (cisternPlace (src32 s a) len) len))
    ReadsCistern (.cld g mw n d a) s (cisternPlace (src32 s a) len) len <| FiresLate (.cld g mw n d a) s 2 (at32 d v) (v != 0) {}) ∧
  (∀ s g d a, ReadsCistern (.cvld g d a) s (cisternPlace (src32 s a) 32) 32 <| FiresLate (.cvld g d a) s 2 (at256 d (BitVec.ofNat 256
    (natOf ((s.tile s.actor.tile).cistern.reads (cisternPlace (src32 s a) 32) 32)))) false {}) ∧
  (∀ s g mw n a b, CisternStores (.cst g mw n a b) s (cisternPlace (src32 s a) (accessBytes mw))
    (byteList (accessBytes mw) (src32 s b).toNat)) ∧
  (∀ s g a b, CisternStores (.cvst g a b) s (cisternPlace (src32 s a) 32) (byteList 32 (src256 s 0 b).toNat))

/-- The result of an owner's integer operation (R182). -/
def Sys2Proof.Spec.owned (op : AtomOp) (n : Bool) (old v : BitVec 32) : BitVec 32 :=
  match op with
  | .add => old + v
  | .min => if asInt n old ≤ asInt n v then old else v
  | .max => if asInt n old ≤ asInt n v then v else old
  | .and => old &&& v
  | .or => old ||| v
  | .xor => old ^^^ v
  | .count => old + 1
  | .xadd => old

/-- R181 and R182: ATOM sends an update token to an owner, or aborts with 0x0C where there is none or the offset lies outside
its range, and with 0x0A where the owner's operation is another, by the copy of the owner's descriptor that the loader put into
the sender's binding; OWNAP applies one to its word, and reads a word out.  The
addend format of .xadd is a free value of Config (log entry 23).
Where the spec leaves room, it states the model's reading: log entries 13, 64 and 98. -/
def Obligations.OwnerUpdates : Prop :=
  (∀ s g op n d a b,
    let o := match d with
      | .out c => (kget (s.elem s.actor.tile s.actor.elem).owners c.val (0 : BitVec 64)).toNat
      | _ => 0
    let off := (src32 s a).toNat
    let xf := op == .xadd && Config.atomAddendBf16 (d.code * 4096 + a.code * 64 + b.code)
    let i : Instr := .atom g op n d a b
    ((bits o 63 1 = 0 ∨ bits o 20 18 ≤ off) → Traps i s 0x0C) ∧
    (bits o 63 1 = 1 → off < bits o 20 18 → bits o 56 4 ≠ op.code → Traps i s 0x0A) ∧
    (bits o 63 1 = 1 → off < bits o 20 18 → bits o 56 4 = op.code →
      Fires i s (moved d (BitVec.ofNat 256 (off + op.code * 2 ^ 18 + bit n * 2 ^ 21 + bit xf * 2 ^ 22 +
        (src32 s b).toNat * 2 ^ 32)) 0) false)) ∧
  (∀ s g a,
    let tok := (tokOf s a).1.toNat
    let unit := if bits tok 18 3 = 7 then 32 else 4
    let place := (bits (s.elem s.actor.tile s.actor.elem).owner.toNat 0 18 + bits tok 0 18) % 2 ^ 18 / unit * unit
    ReadsCistern (.ownapApply g a) s place unit <| Fires (.ownapApply g a) s [] false fun u =>
    applyUpdate u s.actor.tile s.actor.elem (tokOf s a).1.toNat) ∧
  (∀ (u : State) t e (op : AtomOp) n off (v : BitVec 32), op ≠ .xadd → off < 2 ^ 18 →
    let place := ((bits (u.elem t e).owner.toNat 0 18 + off) % 2 ^ 18) / 4 * 4
    let old := BitVec.ofNat 32 (natOf ((u.tile t).cistern.reads place 4))
    ((applyUpdate u t e (off + op.code * 2 ^ 18 + bit n * 2 ^ 21 + v.toNat * 2 ^ 32)).tile t).cistern =
      (u.tile t).cistern.writes place (byteList 4 (owned op n old v).toNat)) ∧
  (∀ s g d a,
    let x := s.tile s.actor.tile
    let o := (x.elem s.actor.elem).owner.toNat
    let place := (bits o 0 18 + (src32 s a).toNat) % 2 ^ 18
    if bits o 56 4 = 7 then
      let r := xaddRead .fp32 (natOf (x.cistern.reads (place / 32 * 32) 32))
      ReadsCistern (.ownapReadout g d a) s (place / 32 * 32) 32 <| FiresLate (.ownapReadout g d a) s 2 (at32 d (BitVec.ofNat 32 r.1)) (r.1 != 0)
        (.ofFlags { sat := r.2.sat, nan := r.2.nan })
    else
      let v := BitVec.ofNat 32 (natOf (x.cistern.reads (place / 4 * 4) 4))
      ReadsCistern (.ownapReadout g d a) s (place / 4 * 4) 4 <| FiresLate (.ownapReadout g d a) s 2 (at32 d v) (v != 0) {})

/-! ### Memory instructions of elements -/

/-- A load that faults at its firing aborts; one whose pages are known asks memory for its bytes; any other asks for a walk
(R169, R177).  Nothing is written until the answer comes. -/
def Sys2Proof.Spec.Loads (i : Instr) (upd : Option Upd) (s : State) (kind : ReqKind) (fe : Bool) (d : Dst) (len : Nat) (a : Src)
    (ea : Int) : Prop :=
  let t := s.actor.tile
  let e := s.actor.elem
  let q : MemReq :=
    { id := 0, kind := kind, va := ea.toNat, len := len, dst := d, pred := loadPred upd, cls := actorClass s }
  match atFiring s t e (ctxAt s t) (readAddr s a) ea len { write := false, fe := fe } with
  | .fault c va => Traps i s c va
  | .pages ps => FiresAsk i s fun u => startRequest u t e { q with pages := ps, walked := true }
  | .walk => FiresAsk i s fun u => startRequest u t e q

/-- R169, R172, R174, R175 and R177: the four loads of a memory element at the exact address, VA plus the signed offset; LDS
and LDC ignore its two lowest bits. -/
def Sys2Proof.Spec.LoadsAsk : Prop :=
  ∀ s g a b d,
    let ea : Int := (readAddr s a).va + (src32 s b).toInt
    (∀ mw n, Loads (.ld g mw n d a b) g.upd s (.load mw n) false d (accessBytes mw) a ea) ∧
    Loads (.vld g d a b) g.upd s .vload false d 32 a ea ∧
    Loads (.lds g d a b) g.upd s .lds true d 4 a (ea / 4 * 4) ∧
    Loads (.ldc g d a b) g.upd s .ldc true d 4 a (ea / 4 * 4)

/-- What asking does (R169): the request stands last in its element's list under a number of its own, with the element's
stroke and the acting slot, and memory is as before. -/
def Sys2Proof.Spec.RequestsStand : Prop :=
  ∀ (s : State) t e (q : MemReq), let u := startRequest s t e q
    let made := { q with id := s.nextId, plane := s.actor.plane, slot := s.actor.slot, stroke := (s.elem t e).stroke }
    (u.elem t e).reqs = (s.elem t e).reqs ++ [made] ∧
    u.nextId = s.nextId + 1 ∧ OnlyArray s u ∧ (∀ v j, (u.elem v j).core = (s.elem v j).core) ∧
    (∀ g f, inbox u f g = inbox s f g) ∧ ∀ v, (u.tile v).core = (s.tile v).core ∧ (u.tile v).cistern = (s.tile v).cistern

/-- A store that faults at its firing aborts, as a write; any other goes into the store buffer of its element's stroke, with
its pages where they are known (R173, R177). -/
def Sys2Proof.Spec.Stores (i : Instr) (s : State) (data : List Byte) (stf : Bool) (a : AddrTok) (ea : Int) : Prop :=
  let t := s.actor.tile
  let e := s.actor.elem
  match atFiring s t e (ctxAt s t) a ea data.length { write := true, fe := stf } with
  | .fault c va => Traps i s c va true
  | .pages ps => Fires i s [] false fun u => bufferStore u t e (actorClass s) ea.toNat data ps false stf
  | .walk => Fires i s [] false fun u => bufferStore u t e (actorClass s) ea.toNat data [] true stf

/-- R173, R175 and R177: the three stores of a memory element; no byte of memory changes at the firing, only the buffer of the
element's stroke.
Where the spec leaves room, it states the model's reading: log entry 8. -/
def Obligations.FabricStores : Prop :=
  (∀ s g a b, let k := readAddr s a
    (∀ mw n, Stores (.st g mw n a b) s (byteList (accessBytes mw) (src32 s b).toNat) false k k.va) ∧
    Stores (.vst g a b) s (byteList 32 (src256 s 0 b).toNat) false k k.va ∧
    Stores (.stf g a b) s (byteList 4 (src32 s b).toNat) true k (k.va / 4 * 4)) ∧
  (∀ (u : State) t e cls va data ps walk stf k r, regionOf u t = some k → u.region k = some r →
    let z := bufferStore u t e cls va data ps walk stf
    OnlyArray u z ∧ z.region k = some { r with stores := r.stores ++ [{
      id := u.nextId, tile := t, elem := e, cls := cls, stroke := (u.elem t e).stroke, va := va, data := data
      units := (va % 32 + data.length + 31) / 32, pages := ps, walk := walk, stf := stf }] })

/-- R168, R170 and R171: XLAT passes an answered token on, answers from the micro-TLB or asks for a walk; AGEN takes a stream
from a range token and steps through it, LAST with its last address; RTAKE asks its die's range server for a chunk, and aborts
with 0x0A where its operand names no pool. -/
def Sys2Proof.Spec.TranslationAndRanges : Prop :=
  (∀ s g wr d a,
    let t := s.actor.tile
    let e := s.actor.elem
    let x := readAddr s a
    let i : Instr := .xlat g wr d a
    let answers (y : AddrTok) (res : Bool) := Fires i s (moved d (BitVec.ofNat 256 y.word) 0) res
    if x.t || x.fcode != 0 then Fires i s (moved d (tokOf s a).1 0) (x.fcode != 0)
    else match rangeFault x.va 1 with
    | some (c, _) => answers { x with t := false, fcode := c } true
    | none => match tlbFind (s.elem t e).utlb (ctxAt s t) x.va with
      | some p =>
        if p.permits { write := wr, fe := false } then answers (x.translated p (dieEpoch s (dieOf t))) false
        else answers { x with t := false, fcode := 2 } true
      | none => FiresAsk i s fun u => startRequest u t e
          { id := 0, kind := .xlat wr, va := x.va, len := 1, dst := d, pred := loadPred g.upd, token := (tokOf s a).1 }) ∧
  (∀ s g d a, Fires (.agenRearm g d a) s [] false fun u => u.modElem s.actor.tile s.actor.elem fun y =>
    { y with core := { y.core with pos := ((tokOf s a).1.setWidth 64).toNat
                                   cnt := (tokOf s a).1.extractLsb' 64 32 } }) ∧
  (∀ s g d,
    let c := (s.elem s.actor.tile s.actor.elem).core
    let base := c.x[11].toNat * 2 ^ 32 + c.x[10].toNat
    Fires (.agenStep g d) s (moved d (BitVec.ofNat 256 (agenToken base c.pos c.x[12].toInt).word)
      (if c.cnt = 1 then 1 else 0)) false fun u => u.modElem s.actor.tile s.actor.elem fun y =>
        { y with core := { y.core with pos := c.pos + 1, cnt := BitVec.ofNat 32 (c.cnt.toNat - 1) } }) ∧
  (∀ s g d a, (src32 s a).toNat < 16 → FiresAsk (.rtake g d a) s fun u =>
    askPool u s.actor.tile s.actor.elem (src32 s a).toNat d (loadPred g.upd)) ∧
  (∀ s g d a, 16 ≤ (src32 s a).toNat → Traps (.rtake g d a) s 0x0A)

/-! ### Commands of engines and hints -/

/-- A command without an address: a token of A, B and the opcode where the operands keep their limits, else 0x0A (R186). -/
def Sys2Proof.Spec.Commands (i : Instr) (s : State) (d : Dst) (ok : Bool) (a b op : Nat) : Prop :=
  (ok = true → Fires i s (moved d (BitVec.ofNat 256 (a + b * 2 ^ 64 + op * 2 ^ 96)) 0) false) ∧
  (ok = false → Traps i s 0x0A)

/-- A command with an address token: 0x0A first, then the fault the token carries, else a token of the address (R177, R186). -/
def Sys2Proof.Spec.AddressCommands (i : Instr) (s : State) (d : Dst) (ok : Bool) (a : AddrTok) (b op : Nat) : Prop :=
  (ok = false → Traps i s 0x0A) ∧ (ok = true → a.fcode ≠ 0 → Traps i s a.fcode a.va) ∧
  (ok = true → a.fcode = 0 → Fires i s (moved d (BitVec.ofNat 256 (a.va + b * 2 ^ 64 + op * 2 ^ 96)) 0) false)

/-- R185, R186 and R190: the thirteen engine instructions send a command token, or abort. -/
def Obligations.EngineCommands : Prop :=
  ∀ s g d a b, let x := (src32 s a).toNat; let y := (src32 s b).toNat; let k := readAddr s a
    Commands (.mxcfg g d a) s d (mxcfgOk x) x 0 0xC0 ∧
    AddressCommands (.mxldb g d a b) s d (decide (y < 2)) k y 0xC1 ∧
    Commands (.mxrow g d a b) s d (runOk x y) x y 0xC2 ∧ Commands (.mxacc g d a b) s d (runOk x y) x y 0xC3 ∧
    Commands (.mxdrn g d a b) s d (decide (x < 1024 ∧ 1 ≤ y ∧ y ≤ 1024 ∧ x + y ≤ 1024)) x y 0xC4 ∧
    AddressCommands (.mxgrp g d a) s d true k 0 0xC5 ∧ Commands (.mxstat g d a) s d (decide (x ≤ 6)) x 0 0xC6 ∧
    AddressCommands (.sxcpy g d a) s d true k 0 0xC8 ∧ AddressCommands (.sxgth g d a) s d true k 0 0xC9 ∧
    AddressCommands (.sxsct g d a) s d true k 0 0xCA ∧ AddressCommands (.sxdeep g d a) s d true k 0 0xCB ∧
    AddressCommands (.xpcfg g d a) s d true k 0 0xD0 ∧ AddressCommands (.wrsrt g d a) s d true k 0 0xD1

/-- R211 for elements and pump cores: a hint of INT, ONSET and LEN waits for the start of the next charge interval under the
context and die of its issuer; reserved operand bits abort an element's with 0x0A. -/
def Sys2Proof.Spec.Hints : Prop :=
  (∀ s g a b, (src32 s a).toNat < 2 ^ 9 → (src32 s b).toNat < 2 ^ 24 → Fires (.phint g a b) s [] false fun u =>
    requestHint u (ctxAt u s.actor.tile) (dieOf s.actor.tile) (src32 s a).toNat ((src32 s b).toNat % 2 ^ 8)
      ((src32 s b).toNat / 2 ^ 8) (regionOf u s.actor.tile)) ∧
  (∀ s g a b, (2 ^ 9 ≤ (src32 s a).toNat ∨ 2 ^ 24 ≤ (src32 s b).toNat) → Traps (.phint g a b) s 0x0A) ∧
  (∀ s h ra onset len, BodyRuns h s →
    let die := if coreDie s.actor.core = 4 then (gOf s ra).toNat / 2 ^ 9 % 4 else coreDie s.actor.core
    ∃ t, exec (.pumpPhint h ra onset len) s = .next t ∧
      BodyDid s t [] [] [.phint die ((gOf s ra).toNat % 2 ^ 9) onset.toNat len.toNat] 0) ∧
  (∀ (s : State) ctx die int onset len r, 0 < len → requestHint s ctx die int onset len r =
    { s with hintReqs := s.hintReqs ++ [⟨ctx, die, min int 256, onset, len, r, ((r.bind s.region).map Region.runId).getD 0⟩] })

/-- R164 to R166 and R162: the instructions that steer and merge, and those that lay down marks.
Where the spec leaves room, it states the model's reading: log entry 77. -/
def Obligations.SteerMergeAndMarks : Prop := SteerAndMerge ∧ MarkInstructions

/-- R169, R172, R174, R175 and R177: a load of the fabric asks, and its request stands until it is answered.
Where the spec leaves room, it states the model's reading: log entry 8. -/
def Obligations.FabricLoads : Prop := LoadsAsk ∧ RequestsStand

/-- R168, R170, R171 and R211: translations, ranges and hints. -/
def Obligations.AddressesAndHints : Prop := TranslationAndRanges ∧ Hints

/-! ### Results and answers that come later -/

/-- What writes of an element leave when they are made outside a firing (R41, R109, R114, R136): its registers take them,
every token arrives behind those already on their way, and nothing outside the array changes. -/
def Sys2Proof.Spec.Lands (s u : State) (t e : Nat) (ws : List PWrite) : Prop :=
  (∀ n, (u.elem t e).core.x[n] = xAfter ws n (s.elem t e).core.x[n]) ∧
  (∀ n, (u.tile t).core.w[n] = wAfter ws n (s.tile t).core.w[n]) ∧
  (∀ n, (u.elem t e).core.v[n] = vAfter ws n (s.elem t e).core.v[n]) ∧
  (∀ n, (u.elem t e).core.a[n] = accAfter ws n (s.elem t e).core.a[n]) ∧
  (∀ n, (u.elem t e).core.sc[n] = scAfter ws n (s.elem t e).core.sc[n]) ∧
  (∀ n : Fin 8, (u.elem t e).core.p.getLsbD n.val = predAfter ws n ((s.elem t e).core.p.getLsbD n.val)) ∧
  (∀ g, Holds s t g → inbox u t g = inbox s t g ++ sentTo s t e ws g) ∧ OnlyArray s u

/-- R41 and R136: at the end of its last fc a result is written, every result of the element that is due at once and in
order; the others stay held.  An answered request is over, and its answer is written with its =p predicate. -/
def Obligations.ResultsLand : Prop :=
  (∀ s t e, ∃ u, exec (.vectorResultWrite t e) s = .next u ∧
    (u.elem t e).pending = (s.elem t e).pending.filter (fun p => !resultDue (s.tile t) p) ∧
    Lands s u t e (((s.elem t e).pending.filter (resultDue (s.tile t))).flatMap Pending.writes)) ∧
  (∀ (x : Tile) (p : Pending), resultDue x p = true ↔ p.due < x.rounds ∨
    (p.due = x.rounds ∧ ∀ i ∈ x.todo, ∀ e k d f, i ≠ RoundItem.fire e k d f)) ∧
  (∀ s t e (q : MemReq) ws res, let u := answer s t e q ws res
    (u.elem t e).reqs = (s.elem t e).reqs.filter (fun r => r.id != q.id) ∧
    Lands s u t e (ws ++ (q.pred.map fun p => PWrite.pred p res).toList))

/-- R168, R171, R172, R174, R175 and R176: what answers the requests of a memory element.  Data comes from memory under the
stores that the element's alias class still holds in its region's buffers; LDS and LDC are answered when their word is full,
from the buffer or from memory, under those stores too, and LDC leaves it empty; XLAT gets a translated token or a fault token; RTAKE the token the
range server has given.
Where the spec leaves room, it states the model's reading: log entries 8, 89 and 123. -/
def Obligations.FabricReplies : Prop :=
  ∀ s t e rq q, findReq s t e rq = some q →
    (∀ mw n bs u, q.kind = .load mw n → q.walked = true → q.fault = none →
      readAny s rq q.pages q.va q.len = (.bytes bs, u) → bs.length = accessBytes mw →
      let v := narrow n (accessBytes mw) (natOf (forwarded u t q.cls q.va bs))
      exec (.loadDataReturn t e rq) s = .next (answer u t e q (at32 q.dst v) (v != 0))) ∧
    (∀ bs u, q.kind = .vload → q.walked = true → q.fault = none → readAny s rq q.pages q.va q.len = (.bytes bs, u) →
      exec (.loadDataReturn t e rq) s = .next (answer u t e q
        (at256 q.dst (BitVec.ofNat 256 (natOf (forwarded u t q.cls q.va bs)))) false)) ∧
    ((q.kind = .lds ∨ q.kind = .ldc) → q.walked = true → q.fault = none →
      let pa := localPa (paIn q.pages q.va)
      let word := BitVec.ofNat 32 (natOf (s.mem.reads pa 4))
      let seen := BitVec.ofNat 32 (natOf (forwarded s t q.cls q.va (s.mem.reads pa 4)))
      (bufferedStf s t q.cls q.va = none → fullAt s.full pa = false → exec (.feWordFullWake t e rq) s = .next s) ∧
      (bufferedStf s t q.cls q.va = none → fullAt s.full pa = true → q.kind = .lds →
        exec (.feWordFullWake t e rq) s = .next (answer s t e q (at32 q.dst seen) (seen != 0))) ∧
      (∀ k, bufferedStf s t q.cls q.va = none → fullAt s.full pa = true → q.kind = .ldc → regionOf s t = some k →
        exec (.feWordFullWake t e rq) s = .next (answer ((memEmpty s pa).modRegion k fun r =>
          { r with ldcs := r.ldcs ++ [(q.stroke, pa, word)] }) t e q (at32 q.dst seen) (seen != 0))) ∧
      (∀ x, bufferedStf s t q.cls q.va = some x → x.emptiedBy ≠ none → exec (.feWordFullWake t e rq) s = .next s) ∧
      (∀ x, bufferedStf s t q.cls q.va = some x → x.emptiedBy = none → x.data.length = 4 →
        let held := BitVec.ofNat 32 (natOf (forwarded s t q.cls q.va x.data))
        exec (.feWordFullWake t e rq) s = .next (answer (if q.kind = .ldc then modStores s t fun y =>
          if y.id = x.id then { y with emptiedBy := some q.stroke } else y else s) t e q (at32 q.dst held) (held != 0)))) ∧
    (∀ wr, q.kind = .xlat wr →
      let x := addrTok q.token.toNat
      match elemTranslate s t e q.va 1 { write := wr } with
      | (.wait, u) => exec (.xlatWalkComplete t e rq) s = .next u
      | (.fault c _, u) => exec (.xlatWalkComplete t e rq) s =
          .next (answer u t e q (moved q.dst (BitVec.ofNat 256 { x with t := false, fcode := c }.word) 0) true)
      | (.pages ps, u) => ∀ p rest, ps = p :: rest → exec (.xlatWalkComplete t e rq) s =
          .next (answer u t e q (moved q.dst (BitVec.ofNat 256 (x.translated p (dieEpoch u (dieOf t))).word) 0) false)) ∧
    (∀ k, q.kind = .take → q.answer = some k →
      exec (.rangeTokenReply t e rq) s = .next (answer s t e q (moved q.dst k.data k.tag) (k.tag == 1)))

/-- R169, R177, R54, R59, R315 and R384: a walk gives an access its pages or its fault; a fault found by a walk or with data
that returned, makes the element faulted with EFAULT filled from the slot that asked, and goes to
the region controller, as the fault of an aborted rule does.  An error of a store is kept until a rule reads its FIFO head or its
cistern granule; of an undo log, a snapshot or a buffered store it is the region's fault 0x06; an entry of a translation
buffer or of a data cache is dropped.
Where the spec leaves room, it states the model's reading: log entries 39, 45 and 98. -/
def Obligations.FaultsFound : Prop :=
  (∀ s t e rq q, findReq s t e rq = some q → q.walked = false → (∀ w, q.kind ≠ .xlat w) → q.kind ≠ .take →
    let store := (regionAt s t).bind fun r => r.stores.find? fun x => x.id == rq
    let fe := q.kind == .lds || q.kind == .ldc || store.any (·.stf)
    match elemTranslate s t e q.va q.len { write := q.kind == .store, fe := fe } with
    | (.wait, u) => exec (.pageWalkComplete t e rq) s = .next u
    | (.fault c va, u) => exec (.pageWalkComplete t e rq) s =
        .next (modReq u t e rq fun q => { q with walked := true, fault := some (c, va) })
    | (.pages ps, u) =>
      (q.kind ≠ .store → exec (.pageWalkComplete t e rq) s =
        .next (modReq u t e rq fun q => { q with walked := true, pages := ps })) ∧
      (q.kind = .store → exec (.pageWalkComplete t e rq) s = .next (modStores
        (u.modElem t e fun y => { y with reqs := y.reqs.filter fun r => r.id != rq }) t
        fun x => if x.id = rq then { x with pages := ps, walk := false } else x))) ∧
  (∀ s t e rq what key, what ∉ [StoreFault.dieTlb, .coreTlb, .dataCache] → regionOf s t = some key →
    (s.elem t e).voidDue = true →
    exec (.memoryFaultFound t e rq what) s = .next (regionFault s key (s.elem t e).efault.code.toNat
      (s.elem t e).fva 0 (s.elem t e).fwr)) ∧
  (∀ s t e rq what key q code va, what ∉ [StoreFault.dieTlb, .coreTlb, .dataCache] → regionOf s t = some key → (s.elem t e).voidDue = false →
    (s.elem t e).reqs.find? (fun q => q.id == rq && q.fault.isSome) = some q → q.fault = some (code, va) →
    let op := (slotWord (s.elem t e) q.plane q.slot).extractLsb' 30 8
    let y := { s.elem t e with
      efault := ⟨true, BitVec.ofNat 2 q.plane, BitVec.ofNat 4 q.slot, op, BitVec.ofNat 8 code⟩, faulted := true,
      voidDue := true, fva := va, fwr := q.kind == .store }
    exec (.memoryFaultFound t e rq what) s = .next (regionFault (s.setElem t e y) key code va
      (if code = 5 ∨ code = 6 then paIn q.pages va else 0) (q.kind == .store))) ∧
  (∀ s t e n key, regionOf s t = some key → (s.elem t e).voidDue = false →
    (s.elem t e).reqs.find? (fun q => q.id == n && q.fault.isSome) = none →
    ((s.elem t e).head n ≠ none → exec (.memoryFaultFound t e n .fifo) s = .next (s.modElem t e fun y =>
      y.setChan n { y.chan n with parity := true })) ∧
    (∃ u, exec (.memoryFaultFound t e n .cistern) s = .next u ∧
      (∀ g, g ∈ (u.tile t).badCistern ↔ g = n ∨ g ∈ (s.tile t).badCistern) ∧
      (∀ v, v ≠ t → u.tile v = s.tile v) ∧ u = { s with tiles := u.tiles }) ∧
    exec (.memoryFaultFound t e n .undo) s = .next (regionFault s key 6 0 0 false) ∧
    exec (.memoryFaultFound t e n .snapshot) s = .next (regionFault s key 6 0 0 false) ∧
    (∀ r x, s.region key = some r → x ∈ r.stores → x.id = n → exec (.memoryFaultFound t e n .buffer) s = .next
      (regionFault (s.modRegion key fun r => { r with stores := r.stores.filter fun y => y.id != n }) key 6 0 0 false)) ∧
    exec (.memoryFaultFound t e n .shadow) s = .next (s.modRegion key fun r =>
      { r with shadow := r.shadow.map fun x => { x with bad := true } }) ∧
    exec (.memoryFaultFound t e n .elemTlb) s = .next (s.modElem t e fun y => { y with utlb := y.utlb.eraseIdx n })) ∧
  (∀ s k e n, exec (.memoryFaultFound k e n .dieTlb) s = .next { s with ltlb := kmod s.ltlb k fun l => l.eraseIdx n } ∧
    exec (.memoryFaultFound k e n .coreTlb) s = .next (s.modCore k fun c => { c with tlb := c.tlb.eraseIdx n }) ∧
    exec (.memoryFaultFound k e n .dataCache) s = .next (s.modCore k fun c => { c with dcache := c.dcache.eraseIdx n })) ∧
  (∀ (s : State) key r va wr code, s.region key = some r → (code = 1 ∨ code = 2) →
    regionFault s key code va 0 wr = raisePageFault ((voidRegion s key true).modRegion key fun r =>
      { r with stopped := true, faultRec := some (va, code, wr) }) r.die
      ⟨0, regionHandle s key, r.ctx, va, wr, code⟩)

/-! ### Pump bodies: lanes and aborts -/

/-- R50, R55, R96, R97 and R217 for every body instruction: a lane that does not run executes nothing; a skipped instruction
only passes on; an executed one leaves its writes and held acts in its lane alone, where the lane's own later instructions
read them. -/
def Sys2Proof.Spec.BodyRules : Prop :=
  (∀ i f s, i.pumpFields = some f →
    ((bodyLane s).run ≠ .running → exec i s = .next s) ∧
    ((bodyLane s).run = .running → skips f.h s = true → ∃ t, exec i s = .next t ∧ BodyDid s t [] [] [] 0)) ∧
  (∀ s gs ps acts past, (bodyLane s).run = .running → BodyDid s (laneDid s ⟨gs, ps, acts, past⟩) gs ps acts past) ∧
  (∀ s h (n : Fin 32) neg, h.pred = some (neg, n) → skips h s = (readP s n ^^ neg)) ∧
  (∀ s h, h.pred = none → skips h s = false)

/-- R55 and R258: an abort discards the shadow writes and held acts of its lane and leaves the other lanes; a fault is recorded
in FLTREC, whole where V was 0, else only counted in MORE, and FLTVA takes the address of a memory fault. -/
def Sys2Proof.Spec.PumpAbort : Prop :=
  ∀ (s : State) core k fault op, let t := abortLane s core k fault op; let c := s.core core; let z := t.core core
    t = s.setCore core z ∧ z = { c with lanes := z.lanes, fltrec := z.fltrec, fltva := z.fltva } ∧
    (∀ j, j ≠ k → z.lanes[j]? = c.lanes[j]?) ∧
    (∀ l, c.lanes[k]? = some l → z.lanes[k]? = some { l with g := [], p := [], acts := [], run := .aborted }) ∧
    (fault = none → z.fltrec = c.fltrec ∧ z.fltva = c.fltva) ∧
    (∀ code va l, fault = some (code, va) → c.lanes[k]? = some l →
      (c.fltrec.getLsbD 63 = false → z.fltrec = (1 : BitVec 1) ++ (0 : BitVec 17) ++ BitVec.ofNat 6 l.rule ++
        (0 : BitVec 3) ++ BitVec.ofNat 5 l.pc ++ (0 : BitVec 16) ++ BitVec.ofNat 8 op ++ BitVec.ofNat 8 code) ∧
      (c.fltrec.getLsbD 63 = true → z.fltrec =
        if c.fltrec.extractLsb' 16 16 = 0xFFFF then c.fltrec else c.fltrec + 0x10000) ∧
      z.fltva = match va with
        | some a => BitVec.ofNat 64 a
        | none => c.fltva)

/-! ### Pump bodies: memory -/

/-- An access of the acting core: what faults or waits before it, and what is to hold of the spans it reaches (R215, R217,
R219, R259).  `ok` speaks of the state after the translation, which only the core's TLB and the last-level TLB take part
in. -/
def Sys2Proof.Spec.Reaches (h : Skip) (i : Instr) (s : State) (ea : Int) (len : Nat) (want : Want) (word : Bool)
    (ok : State → List (Nat × Nat) → Prop) : Prop :=
  match pumpAccess s ea len want word with
  | (.fault code va, u) => Faults h i s code (some va) u
  | (.wait, u) => Waits h i s u
  | (.at spans _, u) =>
    (mmioShape spans = true → ok u spans) ∧ (mmioShape spans = false → Faults h i s 2 (some ea.toNat) u)

/-- The exact effective address: gA plus the signed displacement. -/
def Sys2Proof.Spec.eaAt (s : State) (ra : Reg) (disp : BitVec 24) : Int := (gOf s ra).toNat + disp.toInt

/-- R215 and R259: where an access of a pump core leads.  A range fault comes first; the lowest enabled window that holds the
address maps it, unless the access is of a word or would write a window without W, or reach no memory; any other address is
translated under the core's context. -/
def Sys2Proof.Spec.PumpAddresses : Prop :=
  ∀ s ea len want word,
    (∀ code va, rangeFault ea len = some (code, va) → pumpAccess s ea len want word = (.fault code va, s)) ∧
    (rangeFault ea len = none → ∀ w, windowOf (s.core s.actor.core) ea = some w →
      let pa := (w.tgt.toNat + (ea.toNat - w.base.toNat)) % 2 ^ 52
      (word = true ∨ (want.write = true ∧ w.ctl.getLsbD 1 = false) ∨ placeOf pa = .hole ∨
        ((placeOf pa).isMmio = true ∧ want.dev = false) → pumpAccess s ea len want word = (.fault 2 ea.toNat, s)) ∧
      (word = false → (want.write = true → w.ctl.getLsbD 1 = true) → placeOf pa ≠ .hole →
        ((placeOf pa).isMmio = true → want.dev = true) → pumpAccess s ea len want word = (.at [(pa, len)] false, s))) ∧
    (rangeFault ea len = none → windowOf (s.core s.actor.core) ea = none →
      let r := translateAccess s (coreDie s.actor.core) (coreCtx s s.actor.core) coreTlbCap (s.core s.actor.core).tlb ea len want
      let u := r.2.2.modCore s.actor.core fun c => { c with tlb := r.2.1 }
      pumpAccess s ea len want word = match r.1 with
        | .fault code va => (.fault code va, u)
        | .wait => (.wait, u)
        | .pages ps => (.at (readSpans ps (ps.length + 1) ea.toNat len) (ps.any (·.fe)), u))

/-- R216, R217 and R219: LD gives its bytes, extended; ST is held for the commit as one entry of the rule store buffer.  Memory
read by LD lies under the bytes that the core's committed stores and its own body hold. -/
def Sys2Proof.Spec.PumpLoadsStores : Prop :=
  (∀ s h w n rd ra disp, let i : Instr := .pumpLd h w n rd ra disp
    Reaches h i s (eaAt s ra disp) (widthBits w / 8) { write := false, dev := true } false fun u spans =>
      (spans.all spanOk = false → Faults h i s 2 (some (eaAt s ra disp).toNat) u) ∧
      (spans.all spanOk = true → match loadSpans spans u with
        | (.bytes bs, t) => Executes h i s [(rd.val, ext n (BitVec.ofNat (widthBits w) (natOf bs)))] [] [] 0
            (doneRemotes (laneWaiter t) spans t)
        | (.wait, t) => Waits h i s t
        | (.fault code va, t) => Faults h i s code (some (if va = 0 then (eaAt s ra disp).toNat else va))
            (doneRemotes (laneWaiter t) spans t))) ∧
  (∀ s h w n ra rb disp, let i : Instr := .pumpSt h w n ra rb disp
    Reaches h i s (eaAt s ra disp) (widthBits w / 8) { write := true, dev := true } false fun u spans =>
      (spans.all spanOk = false → Faults h i s 2 (some (eaAt s ra disp).toNat) u) ∧
      (spans.all spanOk = true → match spans.find? (deadSpan u) with
        | some p => Faults h i s 6 (some (eaAt s ra disp).toNat) (dropFlits u (routeLink u (p.1 / 2 ^ 46)) 1)
        | none => Executes h i s [] [] (storeActs spans (byteList (widthBits w / 8) (gOf s rb).toNat) none) 0 u)) ∧
  (∀ spans data full, spans ≠ [] → (storeActs spans data full).countP CommitAct.isEntry = 1 ∧
    ((spans.map Prod.snd).sum = data.length → ((storeActs spans data full).filterMap CommitAct.bytes?).flatMap Prod.snd = data)) ∧
  (∀ s a n, (placeOf a).isMemory = true → localPa a % 64 + n ≤ 64 →
    kfind (s.core s.actor.core).dcache (localPa a / 64) = none →
    (loadSpan s (a, n)).1 = .bytes (seenBy (s.core s.actor.core) (bodyLane s) a (s.mem.reads (localPa a) n))) ∧
  (∀ c l pa p bs old full r, let l' := { l with acts := l.acts ++ [CommitAct.store p bs full r] }
    seenBy c l' pa old = (seenBy c l pa old).mapIdx fun k b =>
      if p ≤ pa + k ∧ pa + k < p + bs.length then bs.getD (pa + k - p) 0 else b)

/-- R219 and R222: the full-empty accesses of a pump core.  LDS gives a full word, one that its own body fills included, and
aborts without a fault on an empty one; STF is held for the commit with the mark that fills its word; LDC takes a full word and
leaves it empty; WAITV gives a word that differs from gB and disarms its monitor, or arms it and aborts.
Where the spec leaves room, it states the model's reading: log entries 44 and 75. -/
def Obligations.PumpFullEmpty : Prop :=
  (∀ s h n rd ra disp, let i : Instr := .pumpLds h n rd ra disp; let ea := eaAt s ra disp / 4 * 4
    Reaches h i s ea 4 { write := false, fe := true } true fun u spans => ∀ pa, spans = [(pa, 4)] →
      let c := u.core u.actor.core
      let word := seenBy c (bodyLane u) pa (u.mem.reads (localPa pa) 4)
      (c.storePending pa 4 = true → Waits h i s u) ∧
      (c.storePending pa 4 = false → (fullAt u.full (localPa pa) || ownStf (bodyLane u) pa) = true →
        Executes h i s [(rd.val, ext n (BitVec.ofNat 32 (natOf word)))] [] [] 0 u) ∧
      (c.storePending pa 4 = false → (fullAt u.full (localPa pa) || ownStf (bodyLane u) pa) = false → Retries h i s u)) ∧
  (∀ s h n ra rb disp, let i : Instr := .pumpStf h n ra rb disp; let ea := eaAt s ra disp / 4 * 4
    Reaches h i s ea 4 { write := true, fe := true } true fun u spans => ∀ pa, spans = [(pa, 4)] →
      Executes h i s [] [] [.store pa (byteList 4 (gOf s rb).toNat) (some true) false] 0 u) ∧
  (∀ s h n rd ra disp, let i : Instr := .pumpLdc h n rd ra disp; let ea := eaAt s ra disp / 4 * 4
    Reaches h i s ea 4 { write := false, fe := true } true fun u spans => ∀ pa, spans = [(pa, 4)] → CommitReady u →
      (u.core u.actor.core).storePending pa 4 = false →
      (fullAt u.full (localPa pa) = true →
        Executes h i s [(rd.val, ext n (BitVec.ofNat 32 (natOf (u.mem.reads (localPa pa) 4))))] [] [] 0 (memEmpty u pa)) ∧
      (fullAt u.full (localPa pa) = false → Retries h i s u)) ∧
  (∀ s pa, fullAt (memEmpty s pa).full (localPa pa) = false ∧
    (∀ a, a ≠ localPa pa → fullAt (memEmpty s pa).full a = fullAt s.full a) ∧ (memEmpty s pa).mem = s.mem) ∧
  (∀ s h w n (mon : Fin 8) rd ra rb disp, let i : Instr := .waitv h w n mon rd ra rb disp
    let len := widthBits w / 8
    let ea := eaAt s ra disp / len * len
    Reaches h i s ea len { write := false } true fun u spans => ∀ pa, spans = [(pa, len)] → (placeOf pa).isMemory = true →
      CommitReady u → (u.core u.actor.core).storePending pa len = false →
      let v := BitVec.ofNat (widthBits w) (natOf (u.mem.reads (localPa pa) len))
      (v ≠ (gOf s rb).setWidth _ → Executes h i s [(rd.val, ext n v)] [] [] 0
        (u.modCore u.actor.core fun c => disarmMonitor c mon)) ∧
      (v = (gOf s rb).setWidth _ → ∃ page, Retries h i s
        (u.modCore u.actor.core fun c => armMonitor c mon ⟨localPa pa / 64, coreCtx u u.actor.core, page, false⟩))) ∧
  (∀ (s : State) core (k : Fin 8) m, (s.core core).mons[k] = some m → exec (.monitorFire core k.val) s = .next
    (if m.hit then s.setCore core { s.core core with
      mons := (s.core core).mons.set k none, events := (s.core core).events ||| BitVec.ofNat 16 (2 ^ (8 + k.val)) } else s))

/-! ### Pump bodies: atomics -/

/-- The result of an atomic on a word of 32 or 64 bits (R220): the new word; the old one is what is returned. -/
def Sys2Proof.Spec.updated {w : Nat} (op : RemoteOp) (n : Bool) (old b expected : BitVec w) : BitVec w :=
  match op with
  | .cas => if old = expected then b else old
  | .swap => b
  | .add => old + b
  | .min => if asInt n old ≤ asInt n b then old else b
  | .max => if asInt n old ≤ asInt n b then b else old
  | .and => old &&& b
  | .or => old ||| b
  | .xadd => old

/-- An atomic of the acting core at the controller of its word, once nothing stands before it (R218, R220). -/
def Sys2Proof.Spec.Atomic (h : Skip) (i : Instr) (s : State) (ea : Int) (len : Nat) (write : Bool) (op : RemoteOp) (n : Bool)
    (b expected : Nat) (gs : Nat → List (Nat × W64)) : Prop :=
  Reaches h i s (ea / len * len) len { write := write } false fun u spans => ∀ pa, spans = [(pa, len)] →
    (placeOf pa).isRemote = false → CommitReady u → (u.core u.actor.core).storePending pa len = false →
    Executes h i s (gs (performAtomic u op n pa len b expected).1) [] [] 0 (performAtomic u op n pa len b expected).2

/-- R220 and R221: the atomics of pump cores, which read, change and write one aligned word in one step, and FXADD, which adds
to an XADD word or reads it out.
Where the spec leaves room, it states the model's reading: log entry 79. -/
def Obligations.PumpAtomics : Prop :=
  (∀ s h w n rd ra rb disp,
    let all (i : Instr) (op : RemoteOp) := Atomic h i s (eaAt s ra disp) (widthBits w / 8) true op n (gOf s rb).toNat
      (gOf s rd).toNat fun v => [(rd.val, ext n (BitVec.ofNat (widthBits w) v))]
    all (.cas h w n rd ra rb disp) .cas ∧ all (.swap h w n rd ra rb disp) .swap ∧ all (.fadd h w n rd ra rb disp) .add ∧
    all (.fmin h w n rd ra rb disp) .min ∧ all (.fmax h w n rd ra rb disp) .max ∧ all (.fand h w n rd ra rb disp) .and ∧
    all (.fOr h w n rd ra rb disp) .or) ∧
  (∀ s h xf ra rb disp, Atomic h (.fxadd h xf ra rb disp) s (eaAt s ra disp) 32 true .xadd xf (gOf s rb).toNat 0 fun _ => []) ∧
  (∀ s h xf clr rd ra disp, Atomic h (.fxaddRd h xf clr rd ra disp) s (eaAt s ra disp) 32 clr .xadd xf 0 (if clr then 2 else 1)
    fun v => [(rd.val, BitVec.ofNat 64 v)]) ∧
  (∀ s op n pa len b expected, op ≠ .xadd → (len = 4 ∨ len = 8) →
    let old := BitVec.ofNat (8 * len) (natOf (s.mem.reads (localPa pa) len))
    let r := performAtomic s op n pa len b expected
    r.1 = old.toNat ∧ (∀ a, r.2.mem.read a = (s.mem.writes (localPa pa) (byteList len
      (updated op n old (BitVec.ofNat _ b) (BitVec.ofNat _ expected)).toNat)).read a) ∧ r.2.full = s.full) ∧
  (∀ s bf pa b,
    let fmt : Fmt := if bf then .bf16 else .fp32
    let old := natOf (s.mem.reads (localPa pa) 32)
    (performAtomic s .xadd bf pa 32 b 0).2.mem = s.mem.writes (localPa pa)
      (byteList 32 (xaddWord old (decodeLane fmt (b % 2 ^ laneWidth fmt)))) ∧
    ∀ clr : Bool, let r := performAtomic s .xadd bf pa 32 b (if clr then 2 else 1)
      r.1 = (xaddRead fmt old).1 + (if (xaddRead fmt old).2.sat then 2 ^ 32 else 0) +
        (if (xaddRead fmt old).2.nan then 2 ^ 33 else 0) ∧
      r.2.mem = if clr then s.mem.writes (localPa pa) (byteList 32 0) else s.mem)

/-- R50, R55, R96, R97, R217 and R258: what a body instruction leaves, and what an abort leaves.
Where the spec leaves room, it states the model's reading: log entry 85. -/
def Obligations.BodySteps : Prop := BodyRules ∧ PumpAbort

/-- R215 to R217, R219 and R259: loads and stores of a pump core, and where their addresses lead.
Where the spec leaves room, it states the model's reading: log entries 44, 66 and 75. -/
def Obligations.PumpMemory : Prop := PumpAddresses ∧ PumpLoadsStores

/-! ### Pump bodies: control, fences, notices, the timer -/

/-- The value NOTE.take returns (R228): the head word, else the hardware word with its bits, else 0. -/
def Sys2Proof.Spec.noticeOf (c : Core) : BitVec 64 :=
  match c.notes with
  | w :: _ => w
  | [] => if hwData c = 0 then 0 else (3 : BitVec 2) ++ (0 : BitVec 56) ++ BitVec.ofNat 6 (hwData c)

/-- What stands before a commit-point instruction (R218, R226).  It waits for a fence of an earlier round, and, where its body
holds a fence, for the stores of earlier rounds.  The stores before each fence of its body are performed, fence by fence, at
the fence's scope, but only where the instruction then completes: where it would abort, it aborts with none performed. -/
def Sys2Proof.Spec.CommitPoints : Prop :=
  (∀ s k, CommitReady s → atCommitPoint s k = k s) ∧
  (∀ s k, heldBack s = true → atCommitPoint s k = .wait s) ∧
  (∀ s, heldBack s = true ↔ (s.core s.actor.core).storeQ.any QStore.isFence = true ∨
    ((bodyLane s).acts.any CommitAct.isFence = true ∧ (s.core s.actor.core).storeQ ≠ [])) ∧
  (∀ s k t u d, heldBack s = false → (bodyLane s).acts.any CommitAct.isFence = true → (bodyLane s).released = false →
    releaseGroups (bodyLane s).acts.length s = (t, true) →
    (k t = .done u d → atCommitPoint s k = .done u d) ∧
    (∀ v, k t = .retry u → k s = .retry v → atCommitPoint s k = .retry v) ∧
    (∀ v c a c' a', k t = .fault u c a → k s = .fault v c' a' → atCommitPoint s k = .fault v c' a')) ∧
  (∀ (s : State) fuel pre sc post, (bodyLane s).acts = pre ++ .fence sc :: post → pre.any CommitAct.isFence = false →
    let u := performActs s.actor.core pre s
    let rest := pre.filter fun a => a.bytes?.isNone
    releaseGroups (fuel + 1) s = if sc = .domain ∧ storesOut u = true then (leaveActs u (rest ++ .fence sc :: post), false)
      else releaseGroups fuel (leaveActs u (rest ++ post))) ∧
  (∀ (s : State) fuel, (bodyLane s).acts.any CommitAct.isFence = false → releaseGroups fuel s = (s, true)) ∧
  (∀ s cn pa bs full, (placeOf pa).isMemory = true → performActs cn [.store pa bs full false] s =
    (memStore s pa bs full).modCore cn fun c => c.updateCache (localPa pa) bs)

/-- R224 to R229: SKIP, ABORT, the fences, notices and the timer.  A fence of acquire waits for the loads of the core on links
and empties the data cache; one of release is
held for the commit; a full one waits for every store of the core, at domain scope for those on the links too.
Where the spec leaves room, it states the model's reading: log entries 73, 74, 80, 81 and 117. -/
def Obligations.ControlFencesNotices : Prop :=
  (∀ s h k, Executes h (.skip h k) s [] [] [] k s) ∧
  (∀ s h, Retries h (.abort h) s s) ∧
  CommitPoints ∧
  (∀ s h sc, loadsOut s = true → Waits h (.fenceAcq h sc) s s) ∧
  (∀ s h sc, loadsOut s = false →
    Executes h (.fenceAcq h sc) s [] [] [] 0 (s.modCore s.actor.core fun c => { c with dcache := [] })) ∧
  (∀ s h sc, Defers h (.fenceRel h sc) s (.fence sc)) ∧
  (∀ s h sc, (s.core s.actor.core).storeQ ≠ [] → Waits h (.fenceFull h sc) s s) ∧
  (∀ s h sc u, (s.core s.actor.core).storeQ = [] → releaseGroups (bodyLane s).acts.length s = (u, false) →
    Waits h (.fenceFull h sc) s u) ∧
  (∀ s h sc t, (s.core s.actor.core).storeQ = [] → releaseGroups (bodyLane s).acts.length s = (t, true) →
    let u := leaveActs (performActs s.actor.core (bodyLane t).acts t) ((bodyLane t).acts.filter fun a => a.bytes?.isNone)
    ((sc = .domain ∧ storesOut u = true) ∨ loadsOut u = true → Waits h (.fenceFull h sc) s u) ∧
    ((sc = .domain → storesOut u = false) → loadsOut u = false →
      Executes h (.fenceFull h sc) s [] [] [] 0 (u.modCore u.actor.core fun c => { c with dcache := [] }))) ∧
  (∀ s h ra rb c, coreOfHandle (gOf s ra).toNat = some c → inPartition s (coreCtx s s.actor.core) c = true →
    Defers h (.noteSend h ra rb) s (.noteSend c ((gOf s rb).setWidth 32))) ∧
  (∀ s h ra rb, (∀ c, coreOfHandle (gOf s ra).toNat = some c → inPartition s (coreCtx s s.actor.core) c = false) →
    Refuses h (.noteSend h ra rb) s) ∧
  (∀ s h rd, let c := s.core s.actor.core
    Executes h (.noteTake h rd) s [(rd.val, noticeOf c)] []
      (if takesNote (bodyLane s) then [] else [.noteTake c.notes.isEmpty (noticeOf c)]) 0 s) ∧
  (∀ s h rd ra, let n := (s.core s.actor.core).tcount; let v := (gOf s ra).toNat
    (v < 2 ^ 32 →
      Executes h (.timerOnce h rd ra) s [(rd.val, n.setWidth 64)] [] [.timer false v n.toNat] 0 s ∧
      Executes h (.timerPer h rd ra) s [(rd.val, n.setWidth 64)] [] [.timer true v n.toNat] 0 s) ∧
    (2 ^ 32 ≤ v → Refuses h (.timerOnce h rd ra) s ∧ Refuses h (.timerPer h rd ra) s)) ∧
  (∀ (s : State) core t, (s.core core).tdue = some t → t ≤ s.nstime → let c := s.core core
    exec (.timerExpiry core) s = .next (s.setCore core { c with
      tdue := if c.tper then some (t + c.tint) else none, events := c.events ||| 0x10
      tcount := if c.tcount = BitVec.allOnes 32 then c.tcount else c.tcount + 1 })) ∧
  (∀ (s : State) core, (∀ t, (s.core core).tdue = some t → s.nstime < t) → exec (.timerExpiry core) s = .next s)

/-! ### Pump bodies: queues, kernels, regions, pools -/

/-- A memory operand of a commit-point instruction (R218, R234): it reaches memory here or on another module, the body's
released stores come first, and `ok` speaks of the state after its bytes have been read and of the bytes. -/
def Sys2Proof.Spec.AtOperand (h : Skip) (i : Instr) (s : State) (va len : Nat) (ok : State → List Byte → Prop) : Prop :=
  Reaches h i s va len { write := false } false fun u spans =>
    (∀ p ∈ spans, (placeOf p.1).isMemory = true ∨ ((placeOf p.1).isRemote = true ∧ remoteTier p.1 = true)) →
    CommitReady u → ∀ bs t, readSpansAny (laneWaiter u) va spans u = (.bytes bs, t) →
    ok (doneRemotes (laneWaiter t) spans t) bs

/-- A place in memory that an instruction will write (R218, R234): reached, and not behind a dead link. -/
def Sys2Proof.Spec.AtPlace (h : Skip) (i : Instr) (s : State) (va len : Nat) (ok : State → List (Nat × Nat) → Prop) : Prop :=
  Reaches h i s va len { write := true } false fun u spans =>
    (∀ p ∈ spans, (placeOf p.1).isMemory = true ∨ ((placeOf p.1).isRemote = true ∧ remoteTier p.1 = true)) →
    (∀ p ∈ spans, deadSpan u p = false) → ok u spans

/-- A queue that the core may name: it is not OFF and belongs to the core's context (R231, R234). -/
def Sys2Proof.Spec.Named (s : State) (q : Nat) : Prop :=
  q < 1024 ∧ (s.queue q).state ≠ .off ∧ (s.queue q).ctx.toNat = coreCtx s s.actor.core

/-- R235, R236, R237, R239, R271 and R378: ENQ copies its record through a shared slot, or the reserved one of its depth, and
aborts without a fault where neither is free; DEQQ takes the head of the queue bound to its core; TAILW is held for the commit;
DIGEST stores the chain and gives the number of its entries.
Where the spec leaves room, it states the model's reading: log entry 84. -/
def Obligations.QueueInstructions : Prop :=
  (∀ s h ra rb, let q := (gOf s ra).toNat; let va := (gOf s rb).toNat; let i : Instr := .enq h ra rb
    (¬ (Named s q ∧ (s.queue q).psrc = 0 ∧ va % 64 = 0) → Refuses h i s) ∧
    (Named s q ∧ (s.queue q).psrc = 0 ∧ va % 64 = 0 → AtOperand h i s va 64 fun u b =>
      let d := bits (field b 1 1) 2 3
      (queueHeld u q = true → Retries h i s u) ∧
      (queueHeld u q = false → (u.queue q).sharedFree = 0 → (u.queue q).resuse.getLsbD d = true → Retries h i s u) ∧
      (queueHeld u q = false → ∀ bs t, (0 < (u.queue q).sharedFree ∨ (u.queue q).resuse.getLsbD d = false) →
        qWrite u q ((u.queue q).slotVa (u.queue q).tail.toNat) b = (.bytes bs, t) →
        Executes h i s [] [] [] 0 (t.modQueue q fun x => { x with
          tail := x.tail + 1
          kinds := x.kinds ++ [if 0 < (u.queue q).sharedFree then none else some (BitVec.ofNat 3 d)]
          resuse := if 0 < (u.queue q).sharedFree then x.resuse else x.resuse ||| BitVec.ofNat 8 (2 ^ d) })))) ∧
  (∀ s h rd ra rb, let q := (gOf s ra).toNat; let va := (gOf s rb).toNat; let i : Instr := .deqq h rd ra rb
    (¬ (boundQueue (s.core s.actor.core) = some q ∧ (s.queue q).ctx.toNat = coreCtx s s.actor.core ∧ va % 64 = 0) →
      Refuses h i s) ∧
    (boundQueue (s.core s.actor.core) = some q → (s.queue q).ctx.toNat = coreCtx s s.actor.core → va % 64 = 0 →
      AtPlace h i s va 64 fun u spans => CommitReady u → let x := u.queue q
        ((x.present = 0 ∨ queueHeld u q = true) → Retries h i s u) ∧
        (x.present ≠ 0 → queueHeld u q = false → ∀ b t, qRead u q (x.slotVa x.head.toNat) 64 = (.bytes b, t) →
          Executes h i s [(rd.val, x.head)] [] [] 0 (writeSpansSure (splitData spans b) none (t.modQueue q Queue.pop))))) ∧
  (∀ s h ra rb, let a := (gOf s ra).toNat; let m := a / 2 ^ 10; let i : Instr := .tailw h ra rb
    (2 ^ 16 ≤ a → Refuses h i s) ∧
    (a < 2 ^ 16 → m = thisModule ∨ ((s.link (routeLink s m)).carries = true ∧ routeLink s m ≤ 12) →
      Defers h i s (.tailw a (gOf s rb))) ∧
    (a < 2 ^ 16 → m ≠ thisModule → ((s.link (routeLink s m)).carries = false ∨ 12 < routeLink s m) →
      Faults h i s 6 none (dropFlits s (routeLink s m) 1))) ∧
  (∀ s h rd ra rb, let q := (gOf s ra).toNat; let va := (gOf s rb).toNat; let i : Instr := .digest h rd ra rb
    (¬ (Named s q ∧ va % 32 = 0) → Refuses h i s) ∧
    (Named s q → va % 32 = 0 → AtPlace h i s va 32 fun u spans =>
      Executes h i s [(rd.val, BitVec.ofNat 64 (u.queue q).chainN)] [] (storeActs spans (u.queue q).chain none) 0 u))

/-- R232, R238, R241, R260 and R277: LAUNCH releases a PRIMED kernel of the core's context under its record and gives 0, or
gives 1 or 2 without effect; KSTAT gives the status word of a handle; REGION allocates and frees.
Where the spec leaves room, it states the model's reading: log entries 46 and 84. -/
def Obligations.KernelInstructions : Prop :=
  (∀ s h rd ra rb, let i : Instr := .launch h rd ra rb
    (ownRegion s (gOf s ra).toNat false = none → Refuses h i s) ∧
    (∀ key, ownRegion s (gOf s ra).toNat false = some key → AtOperand h i s (gOf s rb).toNat 64 fun u b =>
      ∀ r, u.region key = some r →
        let primed := r.kernel = .primed ∧ r.priming = none
        let formed := Rec.type b = 0 ∧ recordOk (u.ctx r.ctx).level.toNat b = true ∧ Rec.level b ≤ r.imageLevel.toNat
        (¬ primed → Executes h i s [(rd.val, 1)] [] [] 0 u) ∧
        (primed → ¬ formed → Executes h i s [(rd.val, 2)] [] [] 0 u) ∧
        (primed → formed → ∀ bs t, zeroBlock u r.die r.ctx (Rec.p2 b) = (.bytes bs, t) →
          Executes h i s [(rd.val, 0)] [] [] 0 (releaseKernel t key
            ⟨Rec.p2 b, Rec.p1 b, Rec.keep b, BitVec.ofNat 2 (Rec.level b), none⟩)))) ∧
  (∀ s h rd ra, let a := (gOf s ra).toNat; let i : Instr := .kstat h rd ra
    let foreign := regionOfHandle s a ≠ none ∧ ownRegion s a false = none
    ((2 ^ 26 ≤ a ∨ foreign) → Refuses h i s) ∧
    (a < 2 ^ 26 → ¬ foreign → Answers h i s rd (kernelStatus s a))) ∧
  (∀ s a, regionOfHandle s a = none →
    let current := a < 2 ^ 26 ∧ a / 2 ^ 10 = genOf s (regionKey (a % 4) (a / 4 % 2 ^ 8))
    (current → kernelStatus s a = 7) ∧ (¬ current → kernelStatus s a = 2 ^ 17)) ∧
  (∀ s h rd ra, let a := (gOf s ra).toNat; let i : Instr := .regionAlloc h rd ra
    (2 ^ 29 ≤ a → Refuses h i s) ∧
    (a < 2 ^ 29 → CommitReady s →
      (∀ key t, allocRegion s (coreCtx s s.actor.core) a = .ok (key, t) →
        Executes h i s [(rd.val, BitVec.ofNat 64 (regionHandle t key))] [] [] 0 t) ∧
      (∀ n, allocRegion s (coreCtx s s.actor.core) a = .error n → Answers h i s rd (2 ^ 63 + n)))) ∧
  (∀ s h rd ra, let i : Instr := .regionFree h rd ra
    (ownRegion s (gOf s ra).toNat false = none → Refuses h i s) ∧
    (∀ key r, ownRegion s (gOf s ra).toNat false = some key → s.region key = some r → CommitReady s →
      let busy := r.kernel = .primed ∨ r.kernel = .firing ∨ r.kernel = .draining
      (busy → Answers h i s rd (2 ^ 63 + 1)) ∧
      (¬ busy → Executes h i s [(rd.val, 0)] [] [] 0 (releaseRegion s key))))

/-- R209, R240, R244 and R245: trigger bindings, range pools, CRC.mem and ROUTE.
Where the spec leaves room, it states the model's reading: log entries 83, 84 and 87. -/
def Obligations.TriggersPoolsRoutes : Prop :=
  (∀ s h rd ra, let k := (gOf s ra).toNat; let t := kget s.triggers (coreCtx s s.actor.core * 256 + k) {}
    (256 ≤ k → Refuses h (.trigbUnbind h rd ra) s ∧ Refuses h (.trigbQuery h rd ra) s) ∧
    (k < 256 → Executes h (.trigbUnbind h rd ra) s [(rd.val, BitVec.ofNat 64 t.pending)] [] [.trigUnbind k] 0 s ∧
      Answers h (.trigbQuery h rd ra) s rd (t.pending + if t.overflow then 2 ^ 32 else 0))) ∧
  (∀ s h rd ra rb, let k := (gOf s ra).toNat; let va := (gOf s rb).toNat; let i : Instr := .trigbBind h rd ra rb
    ((256 ≤ k ∨ va % 64 ≠ 0) → Refuses h i s) ∧
    (k < 256 → va % 64 = 0 → Reaches h i s va 64 { write := false } false fun u spans =>
      (∀ p ∈ spans, (placeOf p.1).isMemory = true ∨ ((placeOf p.1).isRemote = true ∧ remoteTier p.1 = true)) →
      ∀ d t, readSpansAny (laneWaiter u) va spans u = (.bytes d, t) →
        let z := doneRemotes (laneWaiter t) spans t
        let mine := (z.queue (field d 0x20 2)).ctx.toNat = coreCtx z z.actor.core ∧
          (field d 0 1 % 4 = 1 → (z.well (field d 1 1)).ctx = coreCtx z z.actor.core)
        ((triggerOk d = true ∧ mine) → Executes h i s [(rd.val, BitVec.ofNat 64
          (kget z.triggers (coreCtx z z.actor.core * 256 + k) {}).pending)] [] [.trigBind k d] 0 z) ∧
        (¬ (triggerOk d = true ∧ mine) → Faults h i s 2 none z))) ∧
  (∀ s h rd ra (pool : Fin 16) die2, let i : Instr := .rpoolFill h rd ra pool die2
    let die := if coreDie s.actor.core = 4 then die2.val else coreDie s.actor.core
    AtOperand h i s (gOf s ra).toNat 32 fun u d =>
      let p := s.pool die pool.val
      ((p.reading ≠ none ∨ 0 < p.remaining) → Executes h i s [(rd.val, 1)] [] [] 0 u) ∧
      (p.reading = none → p.remaining = 0 → poolOf p (coreCtx u u.actor.core) d = none →
        Executes h i s [(rd.val, 2)] [] [] 0 u) ∧
      (p.reading = none → p.remaining = 0 → ∀ x, poolOf p (coreCtx u u.actor.core) d = some x →
        Executes h i s [(rd.val, 0)] [] [] 0 (u.setPool die pool.val x))) ∧
  (∀ s h rd ra (pool : Fin 16) die2,
    let die := if coreDie s.actor.core = 4 then die2.val else coreDie s.actor.core
    let p := s.pool die pool.val
    CommitReady s →
    (p.reading ≠ none → Waits h (.rpoolClose h rd ra pool die2) s s ∧ Waits h (.rpoolQuery h rd ra pool die2) s s) ∧
    (p.reading = none →
      Executes h (.rpoolClose h rd ra pool die2) s [(rd.val, if p.failed.isSome then 0 else BitVec.ofNat 64 p.remaining)] [] [] 0
        (s.setPool die pool.val { p with left := 0, chunks := [] }) ∧
      Answers h (.rpoolQuery h rd ra pool die2) s rd (match p.failed with
        | some c => 2 ^ 63 + c.toNat
        | none => p.remaining))) ∧
  (∀ s h rd ra rb, let va := (gOf s ra).toNat; let n := (gOf s rb).toNat; let i : Instr := .crcMem h rd ra rb
    ((n = 0 ∨ 65536 < n) → Refuses h i s) ∧
    (1 ≤ n → n ≤ 65536 → Reaches h i s va n { write := false } false fun u spans =>
      (∀ p ∈ spans, (placeOf p.1).isMemory = true ∨ ((placeOf p.1).isRemote = true ∧ remoteTier p.1 = true)) →
      (∀ p ∈ spans, (u.core u.actor.core).storePending p.1 p.2 = false) →
      ∀ bs t, readSpansAny (laneWaiter u) va spans u = (.bytes bs, t) →
        Executes h i s [(rd.val, BitVec.ofNat 64 (crc32c bs))] [] [] 0 (doneRemotes (laneWaiter t) spans t))) ∧
  (∀ s h rd ra rb, let a := (gOf s ra).toNat; let b := gOf s rb; let i : Instr := .route h rd ra rb
    ((2 ^ 27 ≤ a ∨ 2 ^ 17 ≤ b.toNat) → Refuses h i s) ∧
    (a < 2 ^ 27 → b.toNat < 2 ^ 17 →
      let dx := (b.extractLsb' 0 8).toInt
      let dy := (b.extractLsb' 8 8).toInt
      Answers h i s rd (match if bits a 16 5 < 24 then routeTurn s (tileOfAddr a) dx dy (b.getLsbD 16) else none with
        | some yx => routeField dx dy yx
        | none => 2 ^ 63)))

/-! ### Pump bodies: requests with a reply -/

/-- A Reply instruction (R230, R233): it aborts without a fault while its reply could find no room; then it faults with 0x02 where
its operands are not allowed, and is otherwise held for the commit. -/
def Sys2Proof.Spec.Asks (h : Skip) (i : Instr) (s : State) (ok : Prop) (kind variant : Nat) (tag : BitVec 16)
    (a b c : BitVec 64) : Prop :=
  (replyRoom s = false → Retries h i s s) ∧ (replyRoom s = true → ¬ ok → Refuses h i s) ∧
  (replyRoom s = true → ok → Defers h i s (.request kind variant tag a b c))

/-- R230, R231, R233, R242 to R248, R255, R256 and R380: the 22 instructions that ask for a reply, with the operands each
allows, and CFGRD.take, which gives the head reply to gD and gD+1 and removes it at the commit.
Where the spec leaves room, it states the model's reading: log entries 81 and 83. -/
def Obligations.RequestsAsked : Prop :=
  (∀ s h ra rb tg, let a := gOf s ra; let b := gOf s rb
    let own (exempt : Bool) : Prop := ownRegion s a.toNat exempt ≠ none
    let priv : Prop := coreCtx s s.actor.core = 0
    let site : Prop := a.toNat < 2 ^ 27 ∧ bits a.toNat 16 5 < 24 ∧
      (priv ∨ ∃ r, regionAt s (tileOfAddr a.toNat) = some r ∧ r.ctx = coreCtx s s.actor.core)
    Asks h (.cfgw h ra rb tg) s site 0 0 tg a b 0 ∧
    Asks h (.cfgrdReq h ra tg) s site 1 0 tg a 0 0 ∧
    (∀ key : Fin 8, Asks h (.cfgsig h ra rb key tg) s True 2 key.val tg a b 0) ∧
    Asks h (.crcCfg h ra rb tg) s (site ∧ b.extractLsb' 13 19 = 0 ∧ 1 ≤ bits b.toNat 0 13 ∧
      bits a.toNat 0 16 + bits b.toNat 0 13 ≤ 0x1100) 3 0 tg a b 0 ∧
    (∀ k : Fin 4, Asks h (.prime h ra k tg) s (own true) 4 k.val tg a 0 0) ∧
    Asks h (.freeze h ra tg) s (own true) 5 0 tg a 0 0 ∧
    Asks h (.freezeStroke h ra tg) s (own true) 5 1 tg a 0 0 ∧
    Asks h (.thaw h ra tg) s (own true) 6 0 tg a 0 0 ∧
    Asks h (.imgoutMem h ra rb tg) s (own true ∧ b.toNat % 64 = 0) 7 0 tg a b 0 ∧
    Asks h (.imgoutShadow h ra tg) s (own true) 7 1 tg a 0 0 ∧
    Asks h (.imgoutBack h ra tg) s (own true) 7 2 tg a 0 0 ∧
    Asks h (.rsload h ra rb tg) s (∃ c, coreOfHandle a.toNat = some c ∧ (priv ∨ inPartition s (coreCtx s s.actor.core) c = true))
      8 0 tg a b 0 ∧
    Asks h (.spineFreq h ra rb tg) s (priv ∧ a.toNat < 2 ^ 5 ∧ b.toNat % 50 = 0 ∧ 300 ≤ b.toNat ∧ b.toNat ≤ 1500) 9 0 tg a b 0 ∧
    Asks h (.spineSel h ra rb tg) s (own false ∧ b.toNat < 8) 9 1 tg a b 0 ∧
    Asks h (.migrMove h ra rb tg) s priv 10 0 tg a b 0 ∧
    Asks h (.migrOut h ra rb tg) s True 10 1 tg a b 0 ∧
    Asks h (.migrIn h ra rb tg) s (rb.val % 2 = 0) 10 2 tg a b (regOf (s.core s.actor.core) (bodyLane s) ((rb.val + 1) % 64)) ∧
    Asks h (.pghash h ra rb tg) s (a.toNat < 64 ∧ (priv ∨ a.toNat = coreCtx s s.actor.core)) 11 0 tg a b 0) ∧
  (∀ s h rd, let r : CfgReply := (s.core s.actor.core).replies.headD ⟨0, 0⟩
    (rd.val % 2 = 1 → Refuses h (.cfgrdTake h rd) s) ∧
    (rd.val % 2 = 0 → Executes h (.cfgrdTake h rd) s [(rd.val, r.status), (rd.val + 1, r.data)] []
      (if CommitAct.cfgTake ∈ (bodyLane s).acts ∨ (s.core s.actor.core).replies = [] then [] else [.cfgTake]) 0 s))

/-- The reply word of R233. -/
def Sys2Proof.Spec.replyWord (o : Owed) (code info : Nat) : BitVec 64 :=
  (1 : BitVec 1) ++ BitVec.ofNat 7 o.kind ++ BitVec.ofNat 8 code ++ o.tag ++ BitVec.ofNat 32 info

/-- R233, R242 to R247, R256 and R371: a committed request stands among those its core has out; its target serves it after the
earlier ones for the same target; its reply, with the code of the table and its data, enters the core's reply queue in the order
of the requests to each target, and event 7 is latched.
Where the spec leaves room, it states the model's reading: log entries 83, 96 and 126. -/
def Obligations.RequestsServed : Prop :=
  (∀ (s : State) o code info data, o.kind < 2 ^ 7 →
    replyTo s o code info data = s.modCore o.core fun c => { c with cfgOut := c.cfgOut.map fun q =>
      if q.no = o.no ∧ q.reply = none then
        { q with waits := false, reply := some ⟨replyWord o code info, BitVec.ofNat 64 data⟩ } else q }) ∧
  (∀ (s : State) core q, nextReply (s.core core).cfgOut = some q → ∃ r, q.reply = some r ∧
    exec (.configReplyArrival core) s = .next (s.setCore core { s.core core with
      cfgOut := (s.core core).cfgOut.filter fun x => x.no != q.no
      replies := (s.core core).replies ++ [r], events := (s.core core).events ||| 0x80 })) ∧
  (∀ (s : State) core q, nextReply (s.core core).cfgOut = none →
    (s.core core).cfgOut.find? (fun q => q.waits && !behindAnother s q) = some q →
    exec (.configReplyArrival core) s = .next (tryServe s core q)) ∧
  (∀ qs q, nextReply qs = some q → q ∈ qs ∧ q.reply ≠ none ∧ ∀ x ∈ qs, x.no < q.no → x.target ≠ q.target) ∧
  (∀ (s : State) cn q, behindAnother s q = true → tryServe s cn q = s) ∧
  (∀ (s : State) o a b, let t := tileOfAddr a; let w := bits a 0 16
    (present s t = false → serveCfgw s o a b = .done (replyTo s o 1 0 0)) ∧
    (present s t = true → cfgPlace w = .reserved → serveCfgw s o a b = .done (replyTo s o 0x0A 0 0)) ∧
    (present s t = true → cfgPlace w ≠ .reserved → (cfgPlace w).notWritten = false → wordLocked s t = true →
      serveCfgw s o a b = .done (replyTo s o 2 0 0)) ∧
    (present s t = true → cfgPlace w ≠ .reserved → ((cfgPlace w).notWritten = true ∨ wordLocked s t = false) →
      serveCfgw s o a b = .done (replyTo (cfgPut s t w b) o 0 0 0)) ∧
    (present s t = false → serveCfgrd s o a = .done (replyTo s o 1 0 0)) ∧
    (present s t = true → serveCfgrd s o a = .done (replyTo s o (if (s.tile t).badEcc.contains w then 9 else 0) 0
      ((s.tile t).cfgRead w)))) ∧
  (∀ (s : State) t, wordLocked s t = true ↔ ∃ r, regionAt s t = some r ∧ r.frozen = false ∧
    (r.kernel = .primed ∨ r.kernel = .firing ∨ r.kernel = .draining)) ∧
  (∀ (s : State) o h key r, regionOfHandle s h = some key → s.region key = some r →
    (∀ k, canPrime r k = true → servePrime s o k h = .done (beginPrime s key (BitVec.ofNat 2 k) (some o))) ∧
    (∀ k, canPrime r k = false → servePrime s o k h = .done (replyTo s o 2 0 0)) ∧
    (r.frozen = true → serveFreeze s o h = .done (replyTo (freezeRegion s key) o 0 0 0)) ∧
    (r.frozen = false → (r.kernel = .firing ∨ r.kernel = .draining) → serveFreeze s o h =
      .done ((freezeRegion s key).modRegion key fun r => { r with freezeOwed := r.freezeOwed ++ [o] })) ∧
    (r.frozen = false → (r.kernel = .firing ∨ r.kernel = .draining) → serveFreezeStroke s o h =
      .done (s.setRegion key { r with strokeReq := true, strokeOwed := r.strokeOwed ++ [o] })) ∧
    ((r.frozen = true ∨ (r.kernel ≠ .firing ∧ r.kernel ≠ .draining)) →
      serveFreezeStroke s o h = .done (replyTo s o 2 1 0)) ∧
    (r.freezeReq = false → r.freezeMark = false → r.reloads = [] →
      serveThaw s o h = .done (replyTo (thawRegion s key) o 0 0 0)) ∧
    (r.frozen = false → ∀ v va, serveImgout s o v h va = .done (replyTo s o 2 0 0))) ∧
  (∀ (s : State) o h, regionOfHandle s h = none → (∀ k, servePrime s o k h = .done (replyTo s o 2 0 0)) ∧
    serveFreeze s o h = .done (replyTo s o 2 0 0) ∧ serveFreezeStroke s o h = .done (replyTo s o 2 1 0) ∧
    serveThaw s o h = .done (replyTo s o 2 0 0) ∧ ∀ v va, serveImgout s o v h va = .done (replyTo s o 2 0 0))

/-! ### Pump bodies: wells, barriers, budgets, translations, registers -/

/-- A well that the core may name (log entry 9: any that is CLOSED; else one of its context). -/
def Sys2Proof.Spec.WellNamed (s : State) (w : Nat) : Prop :=
  w < 64 ∧ ((s.well w).state = .closed ∨ (s.well w).ctx = coreCtx s s.actor.core)

/-- The reserved bits of a verdict word (R252). -/
def Sys2Proof.Spec.Verdict (v : BitVec 64) : Prop := v.extractLsb' 2 14 = 0 ∧ v.extractLsb' 48 16 = 0

/-- R250 to R253: the instructions for wells. -/
def Sys2Proof.Spec.WellInstructions : Prop :=
  (∀ s h rd ra rb, let w := (gOf s ra).toNat; let va := (gOf s rb).toNat; let i : Instr := .warm h rd ra rb
    (¬ (WellNamed s w ∧ va % 64 = 0) → Refuses h i s) ∧
    (WellNamed s w → va % 64 = 0 → AtOperand h i s va 64 fun u b =>
      ((u.well w).state ≠ .closed → Executes h i s [(rd.val, 1)] [] [] 0 u) ∧
      ((u.well w).state = .closed → Executes h i s [(rd.val, BitVec.ofNat 64 (warmWell u w (coreCtx u u.actor.core) va b).1)] [] [] 0
        (warmWell u w (coreCtx u u.actor.core) va b).2))) ∧
  (∀ s h rd ra, let w := (gOf s ra).toNat; let i : Instr := .wcand h rd ra
    let ok := WellNamed s w ∧ (s.well w).lcore = s.actor.core ∧ rd.val % 4 = 0
    (¬ ok → Refuses h i s) ∧
    (ok → bestCandidate (s.well w).cands = none →
      Executes h i s [(rd.val, 0), (rd.val + 1, 0), (rd.val + 2, 0), (rd.val + 3, 0)] [] [] 0 s) ∧
    (ok → ∀ c, bestCandidate (s.well w).cands = some c → Executes h i s [(rd.val, c.t),
      (rd.val + 1, (0 : BitVec 8) ++ c.cls.setWidth 8 ++ c.pre ++ c.score),
      (rd.val + 2, BitVec.ofInt 64 (c.first - (s.well w).spill)),
      (rd.val + 3, BitVec.ofNat 64 (2 ^ 63 + w * 2 ^ 32 + c.seq.toNat * 2 ^ 8 + c.slot))] [] [] 0 s)) ∧
  (∀ s h ra rb, let ticket := regOf (s.core s.actor.core) (bodyLane s) ((ra.val + 3) % 64); let i : Instr := .verd h ra rb
    let ok := ra.val % 4 = 0 ∧ Verdict (gOf s rb) ∧
      (ticket.getLsbD 63 = true → WellNamed s (ticket.extractLsb' 32 6).toNat ∧
        (s.well (ticket.extractLsb' 32 6).toNat).lcore = s.actor.core)
    (ok → Defers h i s (.verd ra ticket (gOf s rb))) ∧ (¬ ok → Refuses h i s)) ∧
  (∀ s h rd ra rb, let a := gOf s ra; let v := regOf (s.core s.actor.core) (bodyLane s) ((rb.val + 1) % 64)
    let i : Instr := .wdraw h rd ra rb
    let ok := rb.val % 2 = 0 ∧ a.extractLsb' 6 2 = 0 ∧ a.toNat < 2 ^ 11 ∧ WellNamed s (a.toNat % 64) ∧ Verdict v ∧
      v.extractLsb' 0 2 = 3
    (ok → Defers h i s (.wdraw rd (a.toNat % 64) (a.toNat / 2 ^ 8 % 8) (gOf s rb) v)) ∧ (¬ ok → Refuses h i s)) ∧
  (∀ s h (item : Fin 7) rd ra v16, let w := (gOf s ra).toNat
    (WellNamed s w → Answers h (.wstat h item rd ra v16) s rd ((s.well w).item item.val v16.toNat)) ∧
    (¬ WellNamed s w → Refuses h (.wstat h item rd ra v16) s)) ∧
  (∀ s h ra, let w := (gOf s ra).toNat
    (WellNamed s w → Defers h (.wclose h ra) s (.wclose w)) ∧ (¬ WellNamed s w → Refuses h (.wclose h ra) s))

/-- R211, R231, R254 and R255: barriers and budgets.  BARM.take acquires where it gives a barrier. -/
def Sys2Proof.Spec.BarrierInstructions : Prop :=
  (∀ s h ra, let k := coreCtx s s.actor.core * 32 + (gOf s ra).toNat
    ((gOf s ra).toNat < 32 → (s.barrier k).count ≠ 0 → Defers h (.bara h ra) s (.bara k)) ∧
    ((32 ≤ (gOf s ra).toNat ∨ (s.barrier k).count = 0) → Refuses h (.bara h ra) s)) ∧
  (∀ s h ra rb, let n := (gOf s ra).toNat; let v := gOf s rb; let k := coreCtx s s.actor.core * 32 + n
    let scope := (v.extractLsb' 16 3).toNat
    let ok := n < 32 ∧ v.extractLsb' 0 16 ≠ 0 ∧ 3 ≤ scope ∧ scope ≤ 5 ∧ v.extractLsb' 19 5 = 0 ∧ v.toNat < 2 ^ 30 ∧
      (scope ≠ 5 → v.extractLsb' 24 6 = 0) ∧ (s.barrier k).arr = 0 ∧ ((s.barrier k).count = 0 ∨ (s.barrier k).inbox = [])
    (ok → Defers h (.barmSet h ra rb) s (.barm k (v.extractLsb' 0 16).toNat scope (v.extractLsb' 24 6).toNat)) ∧
    (¬ ok → Refuses h (.barmSet h ra rb) s)) ∧
  (∀ s h rd, let seen := (s.core s.actor.core).barDone
    Executes h (.barmTake h rd) s [(rd.val, seen.setWidth 64)] [] [.barmTake seen] 0
      (if seen = 0 then s else s.modCore s.actor.core fun c => { c with dcache := [] })) ∧
  (∀ s h ra rb, let a := gOf s ra
    let form := a.extractLsb' 6 2 = 0 ∧ a.toNat < 2 ^ 10
    let ok := coreCtx s s.actor.core = 0 ∧ form ∧ (gOf s rb).toNat < 2 ^ 32
    (ok → Defers h (.pbudgSet h ra rb) s (.pbudg (a.toNat % 64) (a.toNat / 2 ^ 8) ((gOf s rb).setWidth 32))) ∧
    (¬ ok → Refuses h (.pbudgSet h ra rb) s)) ∧
  (∀ s h rd ra, let a := gOf s ra
    let form := a.extractLsb' 6 2 = 0 ∧ a.toNat < 2 ^ 10
    let ok := (coreCtx s s.actor.core = 0 ∨ a.toNat % 64 = coreCtx s s.actor.core) ∧ form
    (ok → ∀ die : Fin 4, a.toNat / 2 ^ 8 = die.val →
      Answers h (.pbudgGet h rd ra) s rd ((s.ctx (a.toNat % 64)).grants[die]).budget.toNat) ∧
    (¬ ok → Refuses h (.pbudgGet h rd ra) s))

/-- What one step of TLBI does (R256, R314): it starts its shoot-down, waits for it, and ends with it. -/
def Sys2Proof.Spec.Shoots (h : Skip) (i : Instr) (s : State) (what : Scope_) : Prop :=
  CommitReady s →
  (laneShoot s = none → Waits h i s
    (startShoot s .tlbi what (some ⟨s.actor.core, 0, BitVec.ofNat 16 s.actor.lane, 0⟩))) ∧
  (∀ x, laneShoot s = some x → x.acked = false → Waits h i s s) ∧
  (∀ x, laneShoot s = some x → x.acked = true →
    Executes h i s [] [] [] 0 { s with shoots := s.shoots.filter fun y => y.id != x.id })

/-- The window registers of a core by number (R259). -/
def Sys2Proof.Spec.windowReg (c : Core) (w : Fin 4) (k : Nat) : BitVec 64 :=
  match k with
  | 0 => c.wins[w].base
  | 1 => c.wins[w].tgt
  | _ => c.wins[w].ctl

/-- R256 to R259 and R313: TLBI, and the system registers.  SYSR gives every register of R257; reading FLTREC or NOVF is held for
the commit as the clearing of what was read; SYSW writes BQUEUE and, on a privileged core, the windows.
Where the spec leaves room, it states the model's reading: log entries 57, 75 and 85. -/
def Obligations.TranslationsAndRegisters : Prop :=
  (∀ s h ra, let va := (gOf s ra).toNat
    (∀ c v, rangeFault va 1 = some (c, v) → Faults h (.tlbiPage h ra) s c (some v) s) ∧
    (rangeFault va 1 = none → Shoots h (.tlbiPage h ra) s (.page (coreCtx s s.actor.core) va))) ∧
  (∀ s h, Shoots h (.tlbiCtx h) s (.ctx (coreCtx s s.actor.core))) ∧
  (∀ s h, coreCtx s s.actor.core = 0 → Shoots h (.tlbiAll h) s .all) ∧
  (∀ s h, coreCtx s s.actor.core ≠ 0 → Refuses h (.tlbiAll h) s) ∧
  (∀ s h rd,
    let cn := s.actor.core
    let c := s.core cn
    let reads (k : Nat) (v : BitVec 64) : Prop := Executes h (.sysr h rd (BitVec.ofNat 12 k)) s [(rd.val, v)] [] [] 0 s
    let clears (k : Nat) (v : BitVec 64) (a : CommitAct) : Prop := Executes h (.sysr h rd (BitVec.ofNat 12 k)) s [(rd.val, v)] []
      (if a ∈ (bodyLane s).acts then [] else [a]) 0 s
    reads 0 (BitVec.ofNat 64 (coreHandle cn + thisModule * 2 ^ 8)) ∧ reads 1 (BitVec.ofNat 64 (coreCtx s cn)) ∧
    clears 2 c.fltrec (.fltClear c.fltrec) ∧ reads 3 c.fltva ∧
    clears 4 (BitVec.ofNat 64 c.novf) (.novfClear (BitVec.ofNat 64 c.novf)) ∧
    reads 5 c.bqueue ∧ reads 6 c.rndcnt ∧ reads 7 (BitVec.ofNat 64 s.nstime) ∧
    reads 8 (BitVec.ofNat 64 (dieEpoch s (coreDie cn))) ∧
    (∀ (w : Fin 4) k, k < 3 → reads (0x10 + 4 * w.val + k) (windowReg c w k)) ∧
    (∀ (d : Fin 4) k, k < 6 → reads (0x40 + 6 * d.val + k) (s.fused[d].extractLsb' (64 * k) 64))) ∧
  (∀ s h rb, let v := gOf s rb
    let ok := v.getLsbD 63 = true → (s.queue (v.toNat % 2 ^ 10)).ctx.toNat = coreCtx s s.actor.core
    (ok → Defers h (.sysw h 5 rb) s (.sysw 5 (v &&& 0x80000000000003FF))) ∧ (¬ ok → Refuses h (.sysw h 5 rb) s)) ∧
  (∀ s h rb (w : Fin 4) k, k < 3 →
    let idx := 0x10 + 4 * w.val + k
    let x := (((withOwnWindows (s.core s.actor.core) (bodyLane s)).setWindow idx (gOf s rb)).wins[w])
    let log2 := (x.ctl.extractLsb' 2 6).toNat
    let ok := coreCtx s s.actor.core = 0 ∧ x.tgt.extractLsb' 52 12 = 0 ∧ x.ctl.extractLsb' 8 56 = 0 ∧
      (x.ctl.getLsbD 0 = true → 16 ≤ log2 ∧ log2 ≤ 48 ∧ x.base.toNat % 2 ^ log2 = 0 ∧ x.tgt.toNat % 2 ^ log2 = 0)
    (ok → Defers h (.sysw h (BitVec.ofNat 12 idx) rb) s (.sysw idx (gOf s rb))) ∧
    (¬ ok → Refuses h (.sysw h (BitVec.ofNat 12 idx) rb) s))

/-- R211, R231 and R250 to R255: the instructions for wells, barriers and budgets.
Where the spec leaves room, it states the model's reading: log entries 9, 59 and 90. -/
def Obligations.WellsAndBarriers : Prop := WellInstructions ∧ BarrierInstructions

/-! ### The round of a pump core -/

/-- R48, R50 and R98: which rules a round selects.  Every selected rule is enabled; at most four are selected and no two of them
conflict; an enabled rule is left out only where four are selected or one of them conflicts with it. -/
def Obligations.RuleSelection : Prop :=
  (∀ c ev j, ruleEnabled c ev j = true ↔
    let r := c.ruleAt j
    ¬ (r.1 = 0 ∧ r.2 = 0) ∧ c.p &&& r.1.extractLsb' 32 32 = r.1.extractLsb' 0 32 &&& r.1.extractLsb' 32 32 ∧
    ∀ e, e < 16 → r.2.getLsbD (48 + e) = true → ev.testBit e = true) ∧
  ∀ c ev, let sel := selectRules c ev
    (∀ j ∈ sel, j < 64 ∧ ruleEnabled c ev j = true) ∧ sel.length ≤ 4 ∧
    sel.Pairwise (fun i j => conflicts c i j = false) ∧
    ∀ j, j < 64 → ruleEnabled c ev j = true → j ∉ sel → sel.length = 4 ∨ ∃ i ∈ sel, conflicts c i j = true

/-- R50, R217, R225, R228, R229, R230 and R258: the commit.  The first lane that has ended gives its core its registers and its
predicates, then its acts one by one, in the order of the body; the timer counts the expiries that are due before it is set anew; a
store waits in the core for its memory controller, where it is
performed after the earlier ones of the core for it, and after every earlier fence.
Where the spec leaves room, it states the model's reading: log entries 74 and 80. -/
def Obligations.RoundCommit : Prop :=
  (∀ (s : State) cn k l, (∀ w ∈ l.g, w.1 < 64) → (∀ w ∈ l.p, w.1 < 32) →
    let c := s.core cn
    let t := commitRegs s cn k l
    let z := t.core cn
    (∀ r : Fin 64, z.g[r] = gAfter l.g r.val c.g[r]) ∧ (∀ n : Fin 32, z.p.getLsbD n.val = bAfter l.p n.val (c.p.getLsbD n.val)) ∧
    z = { c with g := z.g, p := z.p, lanes := c.lanes.set k { l with g := [], p := [] } } ∧ t = s.setCore cn z) ∧
  (∀ (s : State) cn k l, (s.core cn).lanes.findIdx (fun l => l.run == .done) = k → (s.core cn).lanes[k]? = some l →
    ((l.g ≠ [] ∨ l.p ≠ []) → commitStep s cn = commitRegs s cn k l) ∧
    (l.g = [] → l.p = [] → l.acts = [] → commitStep s cn = s.modCore cn fun c => setLane c k { l with run := .aborted }) ∧
    (l.g = [] → l.p = [] → ∀ a rest t, l.acts = a :: rest →
      commitAct (s.modCore cn fun c => setLane c k { l with acts := rest }) cn a = some t → commitStep s cn = t)) ∧
  (∀ (s : State) cn, (∀ l ∈ (s.core cn).lanes, l.run ≠ .done) → commitStep s cn = ackShoots (s.modCore cn fun c =>
    { c with lanes := [], cptr := c.cptr.map (· + 1), rndcnt := c.rndcnt + 1 }) cn) ∧
  (∀ (s : State) cn, let c := s.core cn
    (∀ pa bs full r, (placeOf pa).isMemory = false → commitAct s cn (.store pa bs full r) =
      some (s.setCore cn { c with storeQ := c.storeQ ++ [.store pa bs full] })) ∧
    (∀ pa bs full r, (placeOf pa).isMemory = true → commitAct s cn (.store pa bs full r) =
      some (s.setCore cn { c with
        storeQ := c.storeQ ++ [.store pa bs full]
        dcache := c.dcache.map fun p => (p.1, layOver (64 * p.1) p.2 (localPa pa, bs)) })) ∧
    (∀ target data, let x := s.core target
      let word : BitVec 64 := BitVec.ofNat 64 (2 ^ 63 + (coreDie cn + 8 * coreNo cn) * 2 ^ 32 + data.toNat)
      commitAct s cn (.noteSend target data) = some (s.setCore target (if x.notes.length < 16
        then { x with notes := x.notes ++ [word] } else { x with novf := x.novf + 1 }))) ∧
    (∀ v, commitAct s cn (.noteTake false v) = some (s.setCore cn { c with notes := c.notes.tail })) ∧
    (∀ v, commitAct s cn (.noteTake true v) = some (s.setCore cn { c with hw := c.hw &&& ~~~(v.setWidth 5) })) ∧
    (∀ (per : Bool) iv seen,
      let due := match c.tdue with
        | some t => if t ≤ s.nstime then (if c.tper then (s.nstime - t) / max 1 c.tint + 1 else 1) else 0
        | none => 0
      let n := BitVec.ofNat 32 (min (2 ^ 32 - 1) (c.tcount.toNat + due) - seen)
      let t := if per = true ∧ iv ≠ 0 then max 100 iv else iv
      let events := if due = 0 then c.events else c.events ||| 0x10
      commitAct s cn (.timer per iv seen) = some (s.setCore cn { c with
        tint := t, tper := per, tdue := if t = 0 then none else some (s.nstime + t), tcount := n
        events := if n = 0 then events &&& ~~~0x10 else events })) ∧
    commitAct s cn .cfgTake = some (s.setCore cn { c with
      replies := c.replies.tail
      events := if c.replies.tail = [] then c.events &&& ~~~0x80 else c.events }) ∧
    (∀ seen, commitAct s cn (.barmTake seen) = some (s.setCore cn { c with
      barDone := c.barDone &&& ~~~seen
      events := if c.barDone &&& ~~~seen = 0 then c.events &&& ~~~0x20 else c.events })) ∧
    (∀ seen, commitAct s cn (.fltClear seen) = some (s.setCore cn (if c.fltrec = seen then { c with fltrec := 0 } else c))) ∧
    (∀ seen, commitAct s cn (.novfClear seen) = some (s.setCore cn { c with novf := c.novf - seen.toNat })) ∧
    (∀ cx (die : Fin 4) v, commitAct s cn (.pbudg cx die.val v) = some (s.setCtx cx { s.ctx cx with
        grants := (s.ctx cx).grants.set die { (s.ctx cx).grants[die] with budget := v } })) ∧
    (∀ a verdict ticket, let r := judgeTicket s (bits ticket.toNat 32 6) ticket.toNat verdict.toNat
      commitAct s cn (.verd a ticket verdict) = some (r.2.modCore cn fun c => c.setG (a.val + 3) (BitVec.ofNat 64 r.1)))) ∧
  (∀ (s : State) q i, (∀ bs pa full, q[i]? = some (.store pa bs full) → (mayPerform s q i = true ↔
      ∀ j x, j < i → q[j]? = some x → x.meets pa bs.length = false)) ∧
    (∀ d, q[i]? = some (.fence d) → (mayPerform s q i = true ↔ i = 0 ∧ (d = true → storesOut s = false)))) ∧
  (∀ (s : State) cn i pa bs full, (s.core cn).storeQ[i]? = some (.store pa bs full) → (placeOf pa).isMemory = true →
    let t := performEntry s cn i
    t.mem = s.mem.writes (localPa pa) bs ∧ (t.core cn).storeQ = (s.core cn).storeQ.eraseIdx i ∧
    (full = none → t.full = s.full) ∧
    (full = some true → ∀ a, fullAt t.full a = (fullAt s.full a || (wordsOf (localPa pa) bs.length).contains a && !bs.isEmpty)))

/-! ### Engines -/

/-- One sum of an island (R36): the exact sum of a K block and then the C lane, each encoded once in FP32, with -0 stored as
+0; and the flags of both. -/
def Sys2Proof.Spec.islandSum (c : Nat) (t : Machine.Num) : Nat × Flags :=
  let u := encodeF32 t
  let r := encodeF32 ((decodeF32 c).add (decodeF32 u.1))
  (if r.1 = 0x80000000 then 0 else r.1, u.2.or r.2)

/-- A lane of a row after its eight K blocks in ascending order (R36, R194): A elements `a`, B elements `b k` of the lane, and the
power of two of each block. -/
def Sys2Proof.Spec.islandLane (a : Nat → Machine.Num) (b : Nat → Machine.Num) (e : Nat → Int) (c : Nat) : Nat × Flags :=
  (List.range 8).foldl (fun c kb =>
    let r := islandSum c.1 (((List.range 32).foldl (fun (t : Machine.Num) i =>
      t.add ((a (32 * kb + i)).mul (b (32 * kb + i)))) Machine.Num.zero).scale (e kb))
    (r.1, c.2.or r.2)) (c, {})

/-- An island as it stands once it has taken its commands and row tokens in (R43, R190). -/
def Sys2Proof.Spec.takenIn (s : State) (en : Nat) : Island :=
  ((s.island en).intake (islandBack s en 8) (s.island en).fifo.length).takeRows (islandBack s en)

/-- R35, R36, R43, R187, R190 to R196, R198 and R213: an island starts the head command once it can, loads B rows, starts A rows
against its charge and its declared intensity, drains C rows, and stops where a load or a grouped product faults.
What the sums of a special operand come to is a free value.
Where the spec leaves room, it states the model's reading: log entries 26, 41, 67, 106 and 116. -/
def Obligations.IslandEvents : Prop :=
  (∀ (s : State) en q rest, (s.island en).frozen = false → let x := takenIn s en; let c := x.core
    c.group = none → c.queue = q :: rest → canStart c q = true → islandOp q.op = true → (c.cfg ≠ none ∨ q.op = 0xC0) →
    exec (.islandCommandStart en) s = .next (s.setIsland en
      { x with core := startCommand c q, thr := if q.op = 0xC0 then false else x.thr })) ∧
  (∀ c q, let d := startCommand c q
    d.queue = c.queue.tail ∧
    (q.op = 0xC0 → d.cfg = some (fmtOf (q.aval % 16), fmtOf (q.aval / 16 % 16), fmtOf (q.aval / 256 % 16)) ∧ d.b0 = {} ∧
      d.b1 = {} ∧ d.fcode = 0 ∧ d.err = false) ∧
    (q.op = 0xC1 →
      let l : LoadSeq :=
        { buf := q.bval % 2, descVa := q.aval, region := q.region, stroke := q.tok.stroke, serial := q.serial }
      ((buf c (q.bval % 2)).st = .faulted → d.fcode = 0 ∧ d.fva = 0 ∧ d.err = false) ∧
      ((∀ k, c.kept = some k → ¬ (k.1.serial = q.serial ∧ k.1.sub = 0)) →
        d.brow = 0 ∧ (buf d (q.bval % 2)).st = .loading ∧ d.load = some l) ∧
      (∀ m b n, c.kept = some (m, b, n) → m.serial = q.serial → m.sub = 0 →
        d.load = some m ∧ d.brow = n ∧ buf d m.buf = b ∧ d.kept = none)) ∧
    ((q.op = 0xC2 ∨ q.op = 0xC3) → d.arow = 0 ∧ d.run = some ⟨q.op == 0xC3, q.aval % 2 ^ 10, q.bval % 2 ^ 11,
      q.bval / 2 ^ 16 % 2 ^ 8, q.aval / 2 ^ 10 % 2, 0, q.region⟩) ∧
    (q.op = 0xC4 → d.drow = 0 ∧
      d.drain = some { base := q.aval % 2 ^ 10, count := q.bval % 2 ^ 11, region := q.region }) ∧
    (q.op = 0xC5 → d.group = some { va := q.aval, region := q.region, stroke := q.tok.stroke, serial := q.serial })) ∧
  (∀ (s : State) en t, loadStep s en = .go t → exec (.islandBLoadComplete en) s = .next t) ∧
  (∀ (s : State) en l af bf df d bs u, let x := s.island en
    x.core.load = some l → x.core.cfg = some (af, bf, df) → l.stopped = false → l.desc = some d →
    bits (natOf d) 97 1 = 0 → (bits (natOf d) 98 1 = 1 → bf ≠ .bf16 → (buf x.core l.buf).scales ≠ []) →
    engRead s en (ctxOf s l.region) (bits (natOf d) 0 64 + x.core.brow * bits (natOf d) 64 32) (rowBytes bf) false =
      (.bytes bs, u) →
    loadStep s en = .go (u.modIsland en fun y => { y with core := takeRow bf l bs y.core })) ∧
  (∀ bf (l : LoadSeq) row c, let d := takeRow bf l row c
    d.brow = c.brow + 1 ∧
    (buf d l.buf).rows = (buf c l.buf).rows ++ [BitVec.ofNat 4096 (unpackRow bf row)] ∧
    (c.brow = 255 → (buf d l.buf).st = .ready ∧ d.load = none) ∧ (c.brow ≠ 255 → d.load = some { l with part := [] })) ∧
  (∀ (s : State) en r af bf df, let u := s.modIsland en (Island.takeRows (islandBack s en)); let x := u.island en
    (s.island en).frozen = false → x.core.run = some r → x.core.cfg = some (af, bf, df) → rowPresent x af = true →
    (buf x.core r.buf).st = .ready →
    let rows := min (r.count - r.arow) (presentRows x af).length
    let ctx := ctxOf u r.region
    let busy := ((islandsOf u ctx (en / 64)).map fun k => recentWork (kget u.s0fc (en / 64) 0) (u.island k)).sum +
      (rowCost af rows).2
    (x.balance < (rowCost af rows).1 → exec (.islandRowStart en) s =
      .next (u.modIsland en fun x => { x with heldBack := true })) ∧
    ((rowCost af rows).1 ≤ x.balance → busy ≤ intensity u ctx (en / 64) → x.thr = false →
      exec (.islandRowStart en) s = .next (startRows u en r af bf))) ∧
  (∀ af bf ax as (b : BBuf) junk c,
    let vs := tileValues bf b
    let rowFlag := as.any Machine.Num.special || (af != .bf16 && ax == 255)
    let p := rowProduct af bf ax as b junk c
    let sum (n : Nat) : Nat × Flags := islandLane (as.getD · .zero) (fun k => (vs.getD k []).getD n .zero)
      (fun kb => (if af = .bf16 then 0 else (ax : Int) - 127) + (scaleOf bf b kb n : Int) - 127) (laneAt 32 c.lanes n).toNat
    p.1.pn = (c.pn || rowFlag || tileFlag bf b) ∧
    (rowFlag = false → ∀ n, n < 256 → laneSpecial bf b vs n = false → (laneAt 32 p.1.lanes n).toNat = (sum n).1) ∧
    (rowFlag = false → tileFlag bf b = false → p.2.2.1 = (List.range 256).countP (fun n => (sum n).2.sat) ∧
      p.2.2.2 = (List.range 256).countP fun n => (sum n).2.ftz)) ∧
  (∀ (s : State) en d af bf df, let x := s.island en
    x.core.drain = some d → x.core.cfg = some (af, bf, df) → x.frozen = false →
    (drainTargets s en).all (fun p => targetFree s 1 p.2) = true →
    let row := d.base + d.drow
    let r := drainRow df (rowOf_ x row)
    let cv : Conv := { r.2.2 with sat := r.2.2.sat + kget x.core.sats row 0, ftz := r.2.2.ftz + kget x.core.ftzs row 0 }
    (∀ q, s.region d.region = some q → d.part = 0 → trips s q x.stroke cv = 0) →
    let last := d.part + 1 = laneWidth df / 8
    let u := (drainTargets s en).foldl (fun s p => match p.2 with
      | .chan t _ _ => deliver s t ⟨drainToken df r.1 p.1 d.part, if last then 1 else 0, x.stroke⟩ p.2
      | _ => s) (if d.part = 0 then s.modRegion d.region fun q => q.addCounts x.stroke cv else s)
    (¬ last → exec (.islandDrainRow en) s = .next (modCore' u en fun c => { c with drain := some { d with part := d.part + 1 } })) ∧
    (last → exec (.islandDrainRow en) s = .next (modCore' u en fun c => { c with
        iconv := c.iconv ||| r.2.1.bits, drow := d.drow + 1, sats := kdel c.sats row, ftzs := kdel c.ftzs row
        drain := if d.drow + 1 = d.count then none else some { d with drow := d.drow + 1, part := 0 } }))) ∧
  (∀ (s : State) en l links code va, let x := s.island en; let u : State := { s with links := links }
    x.core.load = some l → loadStep s en = .fault links code va →
    ((code = 1 ∨ code = 2) → exec (.islandFault en) s = .next (engPageFault (modCore' u en fun c => { c with
      load := some { l with stopped := true }, fcode := BitVec.ofNat 8 code, fva := BitVec.ofNat 64 va }) en l.region code va false)) ∧
    (code ≠ 1 → code ≠ 2 → code ≠ 5 → exec (.islandFault en) s = .next (kernelFault (modCore' u en fun c =>
      { setBuf c l.buf { buf c l.buf with st := .faulted } with
        load := none, fcode := BitVec.ofNat 8 code, fva := BitVec.ofNat 64 va, err := true }) l.region (engErr en code 0)))) ∧
  (∀ (s : State) en, engHeld s en = true → exec (.islandLoadResume en) s = .next s) ∧
  (∀ (s : State) en, engHeld s en = false → exec (.islandLoadResume en) s = .next (modCore' s en fun c => { c with
    load := c.load.map fun l => { l with stopped := false }, group := c.group.map fun g => { g with stopped := false } }))

/-- R187, R188, R197, R200 to R208, R303, R315, R331 and R332: streamers, expanders and weirs take the next command once its
stroke has closed and the stores of that stroke and of earlier ones have been performed (R325), move their bytes in steps, and stop for a serviced fault; errors and replies of every engine. -/
def Sys2Proof.Spec.EngineEvents : Prop :=
  (∀ (s : State) c, strokeClosed s c = true ↔ ∃ r, s.region c.region = some r ∧ c.tok.stroke < r.stroke ∧
    ∀ x ∈ r.stores, c.tok.stroke < x.stroke) ∧
  (∀ (s : State) en c rest, isStreamer en = true → let x := (s.streamer en).intake
    (s.streamer en).job = none → x.frozen = false → x.queue = c :: rest → c.tok.isMark = false → strokeClosed s c = true →
    (0xC8 ≤ c.op ∧ c.op ≤ 0xCB) →
    let u := s.modStreamer en fun _ => { x with queue := rest, job := some { op := c.op, descVa := c.aval, region := c.region } }
    ∀ d t, engRead u en (ctxOf u c.region) c.aval 64 false = (.bytes d, t) → streamOk t c.op c.region d = true →
      exec (.streamCommandStart en) s = .next (t.modStreamer en fun y => { y with
        job := some { op := c.op, descVa := c.aval, region := c.region, desc := d } })) ∧
  (∀ (s : State) en j code c, isStreamer en = true → (s.streamer en).job = some j → j.stopped = false → j.desc ≠ [] →
    j.ending = some (code, c) →
    ∀ w t, completionWord s en c (descField j.desc 0x20 0 64) (0x80000000 + code) = (.bytes w, t) →
      exec (.streamCommandComplete en) s = .next (t.modStreamer en fun x => { x with job := none })) ∧
  (∀ (s : State) en j, isStreamer en = true → (s.streamer en).job = some j → j.stopped = false → j.desc ≠ [] →
    j.ending = none → (ringCopy j && sourcesEnded s j.region) = false →
    let d := j.desc
    let ctx := ctxOf s j.region
    let len := descField d 0x10 0 32
    (∀ bs u w t, j.op = 0xC8 → j.pos < len → descField d 0x30 0 2 = 0 →
      let n := min 32 (len - j.pos)
      engRead s en ctx ((descField d 0 0 64 : Int) + j.pos) n false = (.bytes bs, u) →
      engWrite u en ctx ((descField d 8 0 64 : Int) + j.pos) bs true = (.bytes w, t) →
      exec (.streamCommandComplete en) s = .next (t.modStreamer en fun x => { x with
        job := x.job.map fun j => { j with pos := j.pos + n } })) ∧
    (j.op = 0xCB → j.pos < len → descField d 0x30 2 1 = 0 →
      ∀ w t, engWrite s en ctx (descField d 8 0 64 + j.pos : Nat) (s.deep.reads (descField d 0 0 64 + j.pos) 32) true =
        (.bytes w, t) →
      exec (.streamCommandComplete en) s = .next (t.modStreamer en fun x => { x with
        job := x.job.map fun j => { j with pos := j.pos + 32 } })) ∧
    (j.op = 0xCB → j.pos < len → descField d 0x30 2 1 = 1 →
      ∀ bs t, engRead s en ctx (descField d 0 0 64 + j.pos : Nat) 32 false = (.bytes bs, t) →
      exec (.streamCommandComplete en) s = .next (({ t with deep := t.deep.writes (descField d 8 0 64 + j.pos) bs } : State).modStreamer
        en fun x => { x with job := x.job.map fun j => { j with pos := j.pos + 32 } })) ∧
    (len ≤ j.pos → ∀ w t, completionWord s en ctx (descField d 0x20 0 64) (descField d 0x28 0 32) = (.bytes w, t) →
      exec (.streamCommandComplete en) s = .next (t.modStreamer en fun x => { x with job := none }))) ∧
  (∀ (s : State) en, (isStreamer en || isExpander en || isWeir en) = true → engHeld s en = false →
    exec (.streamFaultResume en) s = .next (stopJob s en false)) ∧
  (∀ (s : State) en, engHeld s en = true → exec (.streamFaultResume en) s = .next s) ∧
  (∀ (s : State) en j, isExpander en = true → (s.expander en).job = some j → j.opened = true → j.stopped = false →
    (xpToStream j = true → j.out = [] → j.good = true → exec (.expanderBlockComplete en) s = .next (nextBlock s en)) ∧
    (xpToStream j = true → j.out = [] → j.good = false → exec (.expanderBlockComplete en) s = .next (crcMismatch s en j)) ∧
    (xpToStream j = false → j.out ≠ [] → ∀ w t, engWrite s en (ctxOf s j.region) j.outPos (j.out.take 64) false = (.bytes w, t) →
      exec (.expanderBlockComplete en) s = .next (t.modExpander en fun x => { x with
        job := x.job.map fun k => { k with out := k.out.drop 64, outPos := k.outPos + (j.out.take 64).length } }))) ∧
  (∀ (s : State) en j k, isExpander en = true → (s.expander en).job = some j → (s.expander en).island = some k →
    xpToStream j = true → j.opened = true → j.stopped = false → (s.expander en).part = [] → 32 ≤ j.out.length →
    streamTakes s k = true →
    exec (.expanderStreamSlotFree en) s = .next ((s.modExpander en fun x => { x with
      part := [], owner := some j.region, job := some { j with out := j.out.drop 32 } }).modIsland k
      fun y => { y with bport := y.bport ++ [⟨BitVec.ofNat 256 (natOf (j.out.take 32)), 0, 0⟩] })) ∧
  (∀ (s : State) en j, isWeir en = true → (s.weir en).job = some j → j.stopped = false → j.desc ≠ [] → j.outs = none →
    let n := descField j.desc 8 0 32
    ∀ bs u t, engRead s en (ctxOf s j.region) (descField j.desc 0 0 64) (4 * n) false = (.bytes bs, u) →
      writeOuts en (ctxOf s j.region) (weirOuts j.desc ((List.range n).map fun i => Machine.field bs (4 * i) 4)) u = .go t →
      exec (.weirSortComplete en) s = .next t) ∧
  (∀ d keys, let nk := descField d 8 32 16; let ks := keys.map fun k => min k nk
    ∀ k, k ≤ nk → (weirOuts d keys)[k]? = some (descField d 0x10 0 64 + 4 * k, ks.count k) ∧
      (weirOuts d keys)[nk + 1 + k]? = some (descField d 0x18 0 64 + 4 * k, ks.countP (· < k))) ∧
  (∀ (s : State) en q rest, en % 64 < 16 → (s.island en).core.load = none → (s.island en).core.group = none →
    (s.island en).core.queue = q :: rest → canStart (s.island en).core q = true → islandOp q.op = false →
    exec (.engineError en) s = .next (kernelFault (modCore' s en fun c =>
      { c with queue := rest, fcode := 0x12, err := true }) q.region (engErr en 0x12 0))) ∧
  (∀ (s : State) en c, 16 ≤ en % 64 → wrongCommand s en = some c →
    exec (.engineError en) s = .next (kernelFault (endJob s en 0x12) c.region (engErr en 0x12 0))) ∧
  (∀ (s : State) en c rest, en % 64 < 16 → (s.island en).fifo = c :: rest → c.tok.isMark = false → c.op = 0xC6 →
    ∀ t, deliverReply s en c.region ⟨BitVec.ofNat 256 (statusWord (s.island en) c.aval), 0, c.tok.stroke⟩ = some t →
    exec (.engineReply en) s = .next (t.modIsland en fun x => { x with fifo := x.fifo.tail })) ∧
  (∀ (s : State) en c rest, (en % 64 < 16 → (s.island en).fifo = []) → engReplies s en = c :: rest →
    ∀ t, deliverReply s en c.region c.tok = some t → exec (.engineReply en) s = .next (dropReply t en)) ∧
  (∀ (s : State) en key tok, replyTarget s en key = none → deliverReply s en key tok = some s)

/-- R68, R171, R209 and R210: the range server answers the first request whose pool is not reading its table, with the pool's next
chunk or, where it is empty, a token of tag 1; the table of a pool gives its chunks, or fails it. -/
def Sys2Proof.Spec.RangeServer : Prop :=
  (∀ (s : State) die q m, nextTake s die = some q → findReq s q.tile q.elem q.req = some m →
    let r := kget s.servers die {}
    let u : State := { s with servers := kput s.servers die { r with queue := r.queue.filter fun x => x.req != q.req } }
    let x := (u.pool die q.pool).take
    (∀ c key, x.1 = some c → regionOf s q.tile = some key → exec (.rangeServerServe die) s = .next (modReq
      (u.setPool die q.pool { x.2 with taken := x.2.taken ++ [⟨key, m.stroke, c⟩] }) q.tile q.elem q.req
      fun m => { m with answer := some ⟨BitVec.ofNat 256 (c.start.toNat + c.count.toNat * 2 ^ 64 + c.group.toNat * 2 ^ 96 +
        q.pool * 2 ^ 112), 0, 0⟩ })) ∧
    (x.1 = none → exec (.rangeServerServe die) s = .next (modReq (u.setPool die q.pool x.2) q.tile q.elem q.req
      fun m => { m with answer := some ⟨0, 1, 0⟩ }))) ∧
  (∀ s die, nextTake s die = none → exec (.rangeServerServe die) s = .next s) ∧
  (∀ p : Pool, (∀ c cs, p.chunks = c :: cs → p.take = (some c, { p with chunks := cs })) ∧
    (p.chunks = [] → p.left = 0 → p.take = (none, p)) ∧
    (p.chunks = [] → p.left ≠ 0 →
      let n := match p.mode with
        | .guided => min (max p.chunk.toNat (p.left / (4 * p.takers.toNat))) p.left
        | _ => min p.chunk.toNat p.left
      p.take = (some ⟨p.next, BitVec.ofNat 32 n, 0⟩, { p with next := p.next + BitVec.ofNat 64 n, left := p.left - n }))) ∧
  (∀ (s : State) pk va start ctx, let die := pk / 16; let p := s.pool die (pk % 16)
    p.reading = some (va, start, ctx) →
    (∀ w es u, readGroup s (die * 64 + 50) ctx va = (.val (w, es), u) → exec (.poolTableReadComplete pk) s = .next
      (u.setPool die (pk % 16) { p with
        reading := none, chunks := tableChunks start p.chunk.toNat 0 0 (es.map GroupEntry.rows) })) ∧
    (∀ u, readGroup s (die * 64 + 50) ctx va = (.bad, u) → exec (.poolTableReadComplete pk) s = .next
      (u.setPool die (pk % 16) { p with reading := none, failed := some 0x12, left := 0, chunks := [] })) ∧
    (∀ c v u, readGroup s (die * 64 + 50) ctx va = (.fault c v, u) → exec (.poolTableReadComplete pk) s = .next
      (u.setPool die (pk % 16) { p with reading := none, failed := some (BitVec.ofNat 8 c), left := 0, chunks := [] })))

/-- R68, R171, R187, R188, R197, R200 to R210, R303, R315, R331 and R332.
Where the spec leaves room, it states the model's reading: log entries 69, 70, 71, 87 and 99. -/
def Obligations.EngineSteps : Prop := EngineEvents ∧ RangeServer

/-! ### Strokes, marks and rings that back a channel -/

/-- A kernel that runs. -/
def Sys2Proof.Spec.Firing (r : Region) : Prop := r.kernel = .firing ∨ r.kernel = .draining

/-- R56, R60 and R302: the region controller asks for the end of a stroke after its length, lays down the ending mark of the open
stroke, one in flight at a time, lays down a DRAIN for the plane requests that stand, and switches planes. -/
def Sys2Proof.Spec.StrokeMarks : Prop :=
  (∀ (s : State) k r, s.region k = some r → Firing r → r.strokeMark = false → r.strokeLen ≤ originRounds s r - r.strokeStart →
    exec (.strokeLengthExpiry k) s = .next (s.setRegion k { r with strokeReq := true })) ∧
  (∀ (s : State) k r, s.region k = some r → (r.strokeMark = true ∨ originRounds s r - r.strokeStart < r.strokeLen) →
    exec (.strokeLengthExpiry k) s = .next s) ∧
  (∀ (s : State) k r, s.region k = some r → Firing r → r.strokeReq = true → r.strokeMark = false → r.frozen = false →
    r.stopped = false → let u := injectMark s r 0
    exec (.strokeMarkInject k) s = .next (u.setRegion k { r with
      strokeReq := false, strokeMark := true, strokeStart := originRounds u r
      closeOwed := r.closeOwed ++ r.strokeOwed, strokeOwed := [] })) ∧
  (∀ (s : State) k r, s.region k = some r → r.strokeMark = true → exec (.strokeMarkInject k) s = .next s) ∧
  (∀ (s : State) k r, s.region k = some r → Firing r → r.planeReqs ≠ [] → r.drain = none → r.switchAt = none →
    r.frozen = false → r.stopped = false →
    let plane := (r.planeReqs.filterMap PlaneReq.plane).getLast?
    exec (.drainInject k) s = .next ((injectMark s r (match plane with
      | some p => 1 + 16 * p.toNat + 64
      | none => 1)).setRegion k { r with drain := some plane, drainN := r.planeReqs.length })) ∧
  (∀ (s : State) k r p due, s.region k = some r → r.switchAt = some (p, due) → due ≤ originRounds s r →
    ∃ t, exec (.planeSwitch k) s = .next t ∧
      (∀ u e y, r.hasTile u = true → kfind (s.tile u).elems e = some y →
        t.elem u e = { y with plane := p, stopped := false, drained := false }) ∧
      t.region k = some { r with plane := p, switchAt := none, planeReqs := r.planeReqs.drop r.drainN, drainN := 0 }) ∧
  (∀ (s : State) k r, s.region k = some r → (∀ p due, r.switchAt = some (p, due) → originRounds s r < due) →
    exec (.planeSwitch k) s = .next s)

/-- R57, R58, R60, R199, R303 and R397: an element or an island passes a mark once it stands at every aligned head and every
output has room, an island over the ports that no back channel leads to; a STROKE takes the snapshot, a DRAIN and a FREEZE stop what they name; a BARRIER goes on once every
aligned input has delivered it. -/
def Sys2Proof.Spec.MarksPass : Prop :=
  (∀ (s : State) t e k, let y := s.elem t e
    y.faulted = false → y.frozen = false → alignedMark s t e = some k → canForward s t e false = true →
    let u := passMark s t e k
    (k.kind ≠ 1 → exec (.markAligned (.elem t e)) s = .next u) ∧
    (k.kind = 1 → ∀ key, regionOf u t = some key → exec (.markAligned (.elem t e)) s = .next (drainPassed u key))) ∧
  (∀ (s : State) t e k, alignedMark s t e = some k ↔
    (alignedInputs s t e = [] ∧ (s.elem t e).inject.head? = some k) ∨
    (∃ c, (alignedInputs s t e).head? = some c ∧ (s.elem t e).head c = some k ∧ k.kind < 3 ∧
      ∀ d ∈ alignedInputs s t e, ∃ m, (s.elem t e).head d = some m ∧ m.kind = k.kind)) ∧
  (∀ (s : State) t e (k : Token), let y := s.elem t e; let u := actOnMark s t e k
    (k.kind = 0 → (u.elem t e).snapNext = some y.core ∧ (u.elem t e).stroke = y.stroke + 1 ∧
      (u.tile t).snapNext = some ((s.tile t).snapNext.getD (s.tile t).core)) ∧
    (k.kind = 1 → u.elem t e = { y with drained := true, stopped := y.stopped || k.data.getLsbD 6 }) ∧
    (k.kind = 2 → u.elem t e = { y with frozen := true })) ∧
  (∀ (s : State) en k, islandMark s en = some k → islandCanForward s en = true → (s.island en).frozen = false →
    exec (.markAligned (.island en)) s = .next (islandForward (s.modIsland en fun x =>
      (if islandAligned s en = [] then { x with inject := x.inject.tail } else (islandAligned s en).foldl Island.dropAt x).act
        k.kind) en k)) ∧
  (∀ (s : State) en p, p ∈ islandAligned s en ↔ p ∈ islandPorts s en ∧
    ∀ r ∈ s.regions, (1536 + en, 0, p) ∉ r.2.back) ∧
  (∀ (s : State) t e, let y := s.elem t e
    alignedInputs s t e ≠ [] → (∀ c ∈ alignedInputs s t e, y.core.barOut < kget y.core.barIn c 0) →
    canForward s t e true = true → y.faulted = false → y.frozen = false →
    exec (.barrierAligned (.elem t e)) s = .next (passBarrier s t e)) ∧
  (∀ (s : State) t e, (∃ c ∈ alignedInputs s t e, kget (s.elem t e).core.barIn c 0 ≤ (s.elem t e).core.barOut) →
    exec (.barrierAligned (.elem t e)) s = .next s) ∧
  (∀ (s : State) en, (s.island en).frozen = false →
    let u := s.modIsland en fun x => x.takeBarriers (islandAligned s en)
    let c := (u.island en).core
    islandAligned s en ≠ [] → (∀ p ∈ islandAligned s en, c.barOut < kget c.barIn p 0) → islandCanForward u en = true →
    let v := u.modIsland en fun x => { x with core := { x.core with barOut := x.core.barOut + 1 } }
    exec (.barrierAligned (.island en)) s = .next (islandForward v en (markToken 3 (u.island en).stroke)))

/-- R58, R59, R65, R173, R175 and R297: a stroke closes once its ending mark has passed every element and every island; snapshots move up,
counts enter the counter block, tokens and stores of the stroke may leave, and the region's barrier arrivals of the stroke go
out once the stores of it and of earlier strokes have been performed (R322).  A void brings every element back to the snapshot
of the oldest stroke that has not closed. -/
def Sys2Proof.Spec.StrokeEnds : Prop :=
  (∀ (s : State) k r, s.region k = some r → strokePassed s r = true → ∃ t q, exec (.strokeClose k) s = .next t ∧
    t.region k = some q ∧ q.stroke = r.stroke + 1 ∧ q.strokeMark = false ∧ q.closeOwed = [] ∧ q.kernel = r.kernel ∧
    q.cnt0 = r.cnt1 ∧ q.cnt1 = {} ∧ q.stores = r.stores ∧ (∀ n ∈ q.arriving, ∃ x ∈ q.stores, x.stroke ≤ n) ∧
    (∀ x ∈ q.ldcs, x ∈ r.ldcs ∧ r.stroke < x.1) ∧
    ∀ u, r.hasTile u = true → (t.tile u).snap = (s.tile u).snapNext.getD (s.tile u).snap ∧ (t.tile u).snapNext = none ∧
      (t.tile u).core = (s.tile u).core ∧ (∀ x ∈ (t.tile u).undo, x ∈ (s.tile u).undo ∧ r.stroke < x.stroke) ∧
      ∀ e y, kfind (s.tile u).elems e = some y →
        (t.elem u e).snap = y.snapNext.getD y.core ∧ (t.elem u e).snapNext = none ∧ (t.elem u e).core = y.core) ∧
  (∀ (s : State) k r, s.region k = some r → strokePassed s r = false → exec (.strokeClose k) s = .next s) ∧
  (∀ (s : State) r, strokePassed s r = true ↔ r.strokeMark = true ∧
    (∀ p ∈ regionElems s r, (s.elem p.1 p.2).stroke = r.stroke + 1) ∧ ∀ en ∈ regionIslands s r, (s.island en).stroke = r.stroke + 1) ∧
  (∀ (s : State) k r, s.region k = some r → let d := drawNat s; let l := drainable r
    (l = [] → exec (.strokeDrainComplete k) s = .next d.2) ∧
    (∀ x, l[d.1 % l.length]? = some x →
      exec (.strokeDrainComplete k) s = .next (sendArrivals ((writeSpansSure (spansOf x.pages (x.pages.length + 1) x.va x.data)
        (if x.stf then some x.emptiedBy.isNone else none) d.2).modRegion k fun r => { r with
          stores := r.stores.filter fun y => y.id != x.id
          ldcs := r.ldcs ++ (match x.emptiedBy with
            | some n => if r.stroke ≤ n then [(n, localPa (paIn x.pages x.va), BitVec.ofNat 32 (natOf x.data))] else []
            | none => []) }) k))) ∧
  (∀ (r : Region) x, x ∈ drainable r ↔
    (r.stores.filter fun y => decide (y.stroke < r.stroke) && y.cls == x.cls).head? = some x) ∧
  (∀ (s : State) key r replay, s.region key = some r → let t := voidRegion s key replay
    (∀ u e y, r.hasTile u = true → kfind (s.tile u).elems e = some y →
      let z := t.elem u e
      z.core = y.snap ∧ z.stroke = r.stroke ∧ z.pending = [] ∧ z.reqs = [] ∧ z.inject = [] ∧ z.snapNext = none ∧
      z.efault = y.efault ∧ z.faulted = y.faulted ∧ ∀ c, r.back.contains (u, e, c) = false → z.chan c = {}) ∧
    (∀ u, r.hasTile u = false → t.tile u = s.tile u) ∧
    ∃ q, t.region key = some q ∧ q.cnt0 = {} ∧ q.cnt1 = {} ∧ q.strokeMark = false ∧ q.stroke = r.stroke ∧
      ∀ x ∈ q.stores, x.stroke < r.stroke)

/-- R43 and R163: the header of a loop takes a CUT and tells every member how many iterations it has started; tokens that find a
full FIFO enter the backing ring, and come back in their order; one whose bytes in the cistern hold an uncorrectable error fails
in the FIFO (R384). -/
def Sys2Proof.Spec.CutsAndBackingRings : Prop :=
  (∀ (s : State) t e l c k, let y := s.elem t e
    y.loop = some (l, true) → y.core.cut = none → y.faulted = false → y.frozen = false →
    (y.inputs.find? fun c => match y.head c with
      | some k => k.kind == 4
      | none => false) = some c → y.head c = some k →
    let u := s.modElem t e fun y => y.dropHead c
    let cut (c : ElemCore) : ElemCore := { c with cut := some (bits k.data.toNat 32 32, y.core.loopI) }
    ∀ r, regionAt u t = some r → exec (.cutArrival t e) s = .next (modElems u r fun z =>
      if z.loop.any (fun m => m.1 == l) then { z with
        core := cut z.core
        snapNext := if y.stroke < z.stroke then z.snapNext.map cut else z.snapNext } else z)) ∧
  (∀ (s : State) t e c k ks, let y := s.elem t e; let ch := y.chan c; let b := y.inBind c; let n := fin 8 (bindRing b)
    let r := (s.tile t).core.rings[n]
    ch.flight = k :: ks → bindRingen b = true → (2 ≤ ch.fifo.length ∨ ch.ring ≠ []) →
    ch.ring.length < ringSlots (s.tile t) (bindRing b) →
    exec (.ringSpill t e c) s = .next (setRing
      ((s.setElem t e (y.setChan c { ch with flight := ks, ring := ch.ring ++ [k] })).modTile t fun x => { x with
        cistern := x.cistern.writes (r.slotAt r.put.toNat) (byteList r.slotBytes k.data.toNat) }) t n r.afterPut)) ∧
  (∀ (s : State) t e c k ks, let y := s.elem t e; let ch := y.chan c; let n := fin 8 (bindRing (y.inBind c))
    let r := (s.tile t).core.rings[n]
    let bad := (s.tile t).badAt (r.slotAt r.getSlot) r.slotBytes
    ch.ring = k :: ks → ch.fifo.length < 2 →
    (bad = false → exec (.ringRefill t e c) s = .next (setRing (s.setElem t e (y.setChan c
      { ch with ring := ks, fifo := ch.fifo ++ [k] })) t n r.afterGet)) ∧
    (bad = true → ch.fifo = [] → exec (.ringRefill t e c) s = .next (setRing (s.setElem t e (y.setChan c
      { ch with ring := ks, fifo := [k], parity := true })) t n r.afterGet)) ∧
    (bad = true → ch.fifo ≠ [] → exec (.ringRefill t e c) s = .next s)) ∧
  (∀ (s : State) t e c, let ch := (s.elem t e).chan c
    (ch.flight = [] → exec (.ringSpill t e c) s = .next s) ∧
    ((ch.ring = [] ∨ 2 ≤ ch.fifo.length) → exec (.ringRefill t e c) s = .next s))

/-- R104 and R105: a slot whose word is not legal aborts with 0x0A, a selected rule of a core whose body is not legal with 0x10. -/
def Sys2Proof.Spec.IllegalSlots : Prop :=
  (∀ (s : State) t e plane slot, let y := s.elem t e; let w := slotWord y plane slot
    slotAt s t e plane slot = .illegal → y.running = true → y.plane.toNat = plane →
    exec (.illegalSlot (.element t e plane slot)) s = .next (abortElem s t e plane slot (w.extractLsb' 30 8).toNat 0x0A 0 false)) ∧
  (∀ (s : State) t e plane slot, slotAt s t e plane slot = .illegal →
    (slotWord (s.elem t e) plane slot).getLsbD 63 = true ∧ ∀ i, decodeElem (slotWord (s.elem t e) plane slot) = .ok i →
      i.operands = none ∨ slotLegal s t e i = false) ∧
  (∀ (s : State) c rule k, let x := s.core c
    x.lanes.findIdx? (fun l => l.rule == rule && l.run == .running) = some k → ruleLegal x rule = false →
    exec (.illegalSlot (.pump c rule)) s = .next (abortLane s c k (some (0x10, none)) 0))

/-- R43, R56 to R60, R65, R104, R105, R163, R297, R302, R303 and R397: strokes, the marks that end and drain them, the void that undoes
them, backing rings, and illegal slots.
Where the spec leaves room, it states the model's reading: log entries 7, 65, 98, 101, 113, 116 and 124. -/
def Obligations.StrokeEvents : Prop := StrokeMarks ∧ MarksPass ∧ StrokeEnds ∧ CutsAndBackingRings ∧ IllegalSlots

/-! ### Kernels -/

/-- R246, R277 and R281: a prime ends four fc after it began: the kernel is PRIMED on its plane and every reply goes; the kernel of a
record is then launched: its counter block zeroed, its sources released, its first stroke open. -/
def Sys2Proof.Spec.Primes : Prop :=
  (∀ (s : State) k r p due, s.region k = some r → r.priming = some (p, due) → originRounds s r < due →
    exec (.primeComplete k) s = .next s) ∧
  (∀ (s : State) k r p due, s.region k = some r → r.priming = some (p, due) → due ≤ originRounds s r → r.kernel ≠ .resident →
    r.record = none → exec (.primeComplete k) s = .next (endPrime s k p)) ∧
  (∀ (s : State) k r p, s.region k = some r → let t := endPrime s k p
    t.region k = some { r with kernel := .primed, priming := none, primeOwed := [] } ∧
    ∀ u e y, r.hasTile u = true → kfind (s.tile u).elems e = some y → t.elem u e = { y with plane := p }) ∧
  (∀ (s : State) k r p due b u, s.region k = some r → r.priming = some (p, due) → due ≤ originRounds s r → r.kernel = .resident →
    unitRead s r.die r.ctx (regionWaiter k) r.imageVa r.imageLen = (.bytes b, u) →
    (∀ v, reapply u r b = some v → exec (.primeComplete k) s = .next (launchRecord (endPrime v k p) k)) ∧
    (reapply u r b = none → exec (.primeComplete k) s = .next (launchRecord (kernelFault u k (regionErr u k 8 0)) k))) ∧
  (∀ (s : State) key r q st bs u, s.region key = some r → recordOf s r = some (q, st) → r.kernel = .primed → r.priming = none →
    r.group = none → st.step = 1 → queueHeld s q = false → zeroBlock s r.die r.ctx (Rec.p2 st.record) = (.bytes bs, u) →
    exec (.primeComplete key) s = .next (modStarted (releaseKernel u key (launchOf q st.index st.record)) q st.index
      fun x => { x with step := 2 })) ∧
  (∀ (s : State) key r l, s.region key = some r → let t := releaseKernel s key l
    (∃ q, t.region key = some q ∧ q.kernel = .firing ∧ q.cntVa = l.cntVa ∧ q.parVa = l.parVa ∧ q.keep = l.keep ∧
      q.level = l.level ∧ q.record = l.record ∧ q.stroke = r.stroke ∧ q.passed = r.passed ∧ q.derr = false ∧ q.fcode = 0 ∧ q.cnt0 = {} ∧ q.cnt1 = {}) ∧
    ∀ u, r.hasTile u = true → (t.tile u).core = (s.tile u).core ∧ (kfind s.tiles u ≠ none → (t.tile u).snap = (s.tile u).core) ∧
      ∀ e y, kfind (s.tile u).elems e = some y → t.elem u e = { y with snap := y.core, snapNext := none })

/-- R246: a FREEZE asked for is laid down as a mark; once it has passed every element, and every engine of the region has stopped taking commands, the region is frozen and the replies
go.  THAW lets it
go on. -/
def Sys2Proof.Spec.Freezes : Prop :=
  (∀ (s : State) k r, s.region k = some r → r.freezeReq = true → r.freezeMark = false → r.kernel = .firing → r.stopped = false →
    exec (.freezeWaveComplete k) s = .next ((injectMark s r 2).modRegion k fun r => { r with freezeMark := true })) ∧
  (∀ (s : State) k r, s.region k = some r → ((r.freezeMark = true ∧ freezePassed s r = true) ∨
      (r.freezeReq = true ∧ r.freezeMark = false ∧ r.stopped = true)) → r.reloads = [] →
    exec (.freezeWaveComplete k) s = .next (replyAll (s.setRegion k { r with
      frozen := true, freezeReq := false, freezeMark := false, freezeOwed := [] }) r.freezeOwed 0 0)) ∧
  (∀ (s : State) k r, s.region k = some r → r.freezeReq = false → (r.freezeMark = false ∨ (freezePassed s r = false ∧ Firing r)) →
    exec (.freezeWaveComplete k) s = .next s) ∧
  (∀ (s : State) r, freezePassed s r = true ↔ (∀ p ∈ regionElems s r, (s.elem p.1 p.2).frozen = true) ∧
    ∀ en, en ∈ regionIslands s r ∨ en ∈ regionEngines s r → engFrozen s en = true) ∧
  (∀ (s : State) k r, s.region k = some r → let t := thawRegion s k
    t.region k = some { r with frozen := false, freezeReq := false, freezeMark := false } ∧
    ∀ u e y, r.hasTile u = true → kfind (s.tile u).elems e = some y → t.elem u e = { y with frozen := false })

/-- R277, R279, R280 and R389: a kernel whose sources have halted and whose region is empty goes to DRAINING with a stroke end
requested; it retires once that stroke has closed, its stores are performed and its commands are done, with every count in its
block (R33), at level 2 once its digest has been formed (R377); the watchdog ends one
that moves nothing. -/
def Sys2Proof.Spec.KernelEnds : Prop :=
  (∀ (s : State) k r, s.region k = some r → r.kernel = .firing → r.frozen = false → r.freezeMark = false → r.stopped = false →
    r.ended = false → quiescent s k r = true →
    let u := s.setRegion k { r with
      kernel := .draining, strokeReq := true, retire := some (r.stroke + if r.strokeMark = true then 1 else 0) }
    exec (.kernelQuiescence k) s = .next (match r.group with
      | some g => settleGroup u g
      | none => u)) ∧
  (∀ (s : State) k r, s.region k = some r → (r.kernel ≠ .firing ∨ quiescent s k r = false) →
    exec (.kernelQuiescence k) s = .next s) ∧
  (∀ (s : State) k r, quiescent s k r = true ↔
    (∃ p ∈ regionElems s r, (s.elem p.1 p.2).core.halted = true) ∧
    (∀ p ∈ regionElems s r, elemEmpty (s.elem p.1 p.2) = true ∧
      ∀ i, i < 16 → enabledAt s p.1 p.2 (s.elem p.1 p.2).plane.toNat i ≠ .yes) ∧
    (∀ p ∈ r.boundary, p.2 = []) ∧ commandsQueued s k = false) ∧
  (∀ (s : State) k r, retireReady s k r = true ↔ ∃ n, r.retire = some n ∧ (r.ended = true ∨ n < r.stroke) ∧ r.stores = [] ∧
    commandsQueued s k = false ∧ commandsAtWork s k = false) ∧
  (∀ (s : State) k r u, s.region k = some r → r.kernel = .draining → retireReady s k r = true → r.level = 2 →
    kernelDigest (writePower (commitCounts (commitCounts s k) k) k) r (regionWaiter k) = (.wait, u) →
    exec (.kernelRetire k) s = .next u) ∧
  (∀ (s : State) k r, s.region k = some r → r.kernel = .draining → retireReady s k r = true → r.group = none →
    (r.level = 2 → ∃ d u, kernelDigest (writePower (commitCounts (commitCounts s k) k) k) r (regionWaiter k) = (.bytes d, u) ∧
      ∃ q, u.region k = some q ∧ q.kernel = r.kernel ∧ q.derr = r.derr ∧ q.record = r.record ∧ q.keep = r.keep ∧ q.group = none ∧
        q.frozen = r.frozen ∧ q.freezeReq = r.freezeReq ∧ q.cnt0 = {} ∧ q.cnt1 = {}) →
    ((r.record = none ∨ r.keep = true) → ∃ t q, exec (.kernelRetire k) s = .next t ∧ t.region k = some q ∧
      q.kernel = (if r.keep = true then .resident else .retired) ∧ q.retire = none ∧ q.derr = r.derr ∧ q.record = none ∧
      q.freezeOwed = [] ∧ q.frozen = (r.frozen || r.freezeReq) ∧ q.cnt0 = {} ∧ q.cnt1 = {}) ∧
    (r.record ≠ none → r.keep = false → ∃ t, exec (.kernelRetire k) s = .next t ∧ t.region k = none)) ∧
  (∀ (s : State) k r, s.region k = some r → (r.kernel ≠ .draining ∨ retireReady s k r = false) →
    exec (.kernelRetire k) s = .next s) ∧
  (∀ (s : State) k r, s.region k = some r → s.errlog.wdt ≠ 0 → s.errlog.wdt.toNat ≤ r.watch → r.kernel = .firing →
    r.frozen = false → quiescent s k r = false →
    exec (.watchdogExpiry k) s = .next (kernelFault s k (regionErr s k 0x0E 0))) ∧
  (∀ (s : State) k r, s.region k = some r → (s.errlog.wdt = 0 ∨ r.watch < s.errlog.wdt.toNat) →
    exec (.watchdogExpiry k) s = .next s) ∧
  (∀ (s : State) k r x, s.region k = some r → r.kernel ≠ .none → r.kernel ≠ .faulted → r.kernel ≠ .retired →
    ∃ q, (kernelFault s k x).region k = some q ∧ q.kernel = .faulted ∧ q.fcode = BitVec.ofNat 8 x.code ∧ q.stroke = r.stroke ∧
      q.primeOwed = [] ∧ q.strokeOwed = [] ∧ q.closeOwed = [] ∧ ∀ x ∈ q.stores, x.stroke < r.stroke)

/-- R291: an uncorrectable word of a configuration stops its slot; the region is frozen and reloaded from its image, or faulted with
0x09 where the word is not one a reload restores, with 0x08 where the image has changed. -/
def Sys2Proof.Spec.ConfigErrors : Prop :=
  (∀ (s : State) t a, (cfgPlace a = .reserved ∨ present s t = false) → exec (.configEccError t a) s = .next s) ∧
  (∀ (s : State) t a, cfgPlace a ≠ .reserved → present s t = true →
    let u := s.modTile t fun x => { x with badEcc := a :: x.badEcc.filter (· != a) }
    (regionOf u t = none → exec (.configEccError t a) s = .next u) ∧
    ∀ key r, regionOf u t = some key → u.region key = some r →
      let live := r.kernel ≠ .none ∧ r.kernel ≠ .retired ∧ r.kernel ≠ .faulted
      (¬ live → exec (.configEccError t a) s = .next u) ∧
      (live → (u.ctx r.ctx).mode.getLsbD 2 = true → exec (.configEccError t a) s = .next (raiseCtxFault u r.ctx 9)) ∧
      (live → (u.ctx r.ctx).mode.getLsbD 2 = false → reloadable a = false →
        exec (.configEccError t a) s = .next (kernelFault u key (configErr u key 9 t a))) ∧
      (live → (u.ctx r.ctx).mode.getLsbD 2 = false → reloadable a = true → exec (.configEccError t a) s = .next (reloadRegion
        ((freezeRegion u key).modRegion key fun q => { q with
          reloads := t :: q.reloads.filter (· != t), reloadFreeze := (!r.frozen && !r.freezeReq) || q.reloadFreeze }) key))) ∧
  (∀ (s : State) t key, regionOf s t = some key → exec (.configScrub t) s = .next (reloadRegion s key)) ∧
  (∀ (s : State) t, regionOf s t = none → exec (.configScrub t) s = .next s) ∧
  (∀ (s : State) key r t rest b u, s.region key = some r → r.reloads = t :: rest → r.frozen = true →
    unitRead s r.die r.ctx (regionWaiter key) r.imageVa r.imageLen = (.bytes b, u) →
    let done := (t :: rest).foldl (fun (o : Option State) t => o.bind fun s => reloadTile s (imageOf b) r t) (some u)
    (done = none → reloadRegion s key = kernelFault u key (configErr u key 8 t 0)) ∧
    (∀ v, done = some v → regionSignature v r = r.signature → r.reloadFreeze = false →
      reloadRegion s key = v.modRegion key fun q => { q with reloads := [] })) ∧
  (∀ (s : State) key r, s.region key = some r → (r.reloads = [] ∨ r.frozen = false) → reloadRegion s key = s)

/-- R246, R277, R279 to R281, R291 and R389: priming, launching, freezing, reloading, draining, retiring and faulting kernels.
Where the spec leaves room, it states the model's reading: log entries 35, 49 and 77. -/
def Obligations.KernelEvents : Prop := Primes ∧ Freezes ∧ KernelEnds ∧ ConfigErrors

/-! ### Queues, records, triggers and groups -/

/-- R269 to R271, R274, R332, R339, R388 and R399: what ENABLE, DISABLE, RETRY, SKIP and a tail write do to a queue.  Retried
records stand in index order.  Whether the host's read of a producer ring completes with an error is a free value. -/
def Sys2Proof.Spec.QueueCommands : Prop :=
  (∀ (s : State) q, let u := s.queue q
    (u.state = .off → u.valid s = true → exec (.queueEnable q) s = .next (s.setQueue q { u with
      state := .active, head := 0, tail := 0, resuse := 0, kinds := [], level := (s.ctx u.ctx.toNat).level
      chainN := 0, chain := List.replicate 32 0, pulling := 0, disabling := false, refused := none, skips := [] })) ∧
    (u.state = .off → u.valid s = false → exec (.queueEnable q) s = .next (s.setQueue q { u with ecode := 0x80 })) ∧
    (u.state ≠ .off → exec (.queueEnable q) s = .next s) ∧
    (u.valid s = true ↔ 4 ≤ u.log2n.toNat ∧ u.log2n.toNat ≤ 16 ∧ u.psrc ≠ 3 ∧
      u.qbase.toNat % (64 * 2 ^ u.log2n.toNat) = 0 ∧ (s.ctx u.ctx.toNat).state ≠ .free)) ∧
  (∀ (s : State) q, let u := s.queue q
    (u.state = .off → exec (.queueDisable q) s = .next s) ∧
    (u.state ≠ .off → u.started ≠ [] → exec (.queueDisable q) s = .next (s.setQueue q { u with disabling := true })) ∧
    (u.state ≠ .off → u.started = [] → ∃ t, exec (.queueDisable q) s = .next t ∧ t.queue q = { u with
      state := .off, disabling := false, kinds := [], resuse := 0, head := u.tail, pulling := 0, retry := [], failedRec := none
      refused := none, skips := [] })) ∧
  (∀ (s : State) q f, (s.queue q).state = .halted → (s.queue q).failedRec = some f →
    let second := reissues s q f
    let v := if second = true then freeFailed s q else s
    let u := v.queue q
    let failed := (if u.tail.toNat - u.pulling ≤ f.index then [] else [f]) ++ u.started.filter fun x => x.failed.isSome
    exec (.queueRetry q) s = .next (settleQueue (v.setQueue q { u with
      state := .active, failedRec := none, started := u.started.filter fun x => x.failed.isNone
      retry := (failed.map fun x => x.again (second && x.attempt == 1)).foldl (fun l x => putRetry x l) u.retry }) q)) ∧
  (∀ x l, (∀ y, y ∈ putRetry x l ↔ y = x ∨ y ∈ l) ∧ (l.Pairwise (fun a b => a.index ≤ b.index) →
    (putRetry x l).Pairwise fun a b => a.index ≤ b.index)) ∧
  (∀ (s : State) q f, reissues s q f = true ↔ f.attempt = 1 ∧ (s.ctx (s.queue q).ctx.toNat).mode.getLsbD 1 = false ∧
    ∃ c, f.failed = some c ∧ (c = 6 ∨ c = 7 ∨ c = 8 ∨ c = 9 ∨ c = 0x0E)) ∧
  (∀ (s : State) q f, let u := s.queue q
    u.state = .halted → u.failedRec = some f →
    let w : Queue := if f.unstarted = false then u
      else if u.tail.toNat - u.pulling ≤ f.index then { u with pulling := u.pulling - 1, skips := f.index :: u.skips }
      else if f.index = u.head.toNat then u.pop else { u with skips := f.index :: u.skips }
    exec (.queueSkip q) s = .next (settleQueue (s.setQueue q { w with
      state := .active, failedRec := none, started := w.started.filter fun x => x.failed.isNone
      retry := ((w.started.filter fun x => x.failed.isSome).map fun x => x.again false).foldl (fun l x => putRetry x l) w.retry })
      q)) ∧
  (∀ (s : State) q, (s.queue q).state ≠ .halted → exec (.queueRetry q) s = .next s ∧ exec (.queueSkip q) s = .next s) ∧
  (∀ (s : State) q (src : TailSource) (tail : BitVec 64), let u := s.queue q; let n := tail.toNat - u.tail.toNat
    let named : Prop := match src with
      | .host => u.psrc = 1
      | .module m => u.psrc = 2 ∧ u.pmod.toNat = m
    let ok := u.state ≠ .off ∧ named ∧ u.tail.toNat < tail.toNat ∧ n ≤ u.sharedFree
    (ok → exec (.tailWrite src q tail) s = .next (pullRecords q (u.pulling + n) (s.setQueue q { u with
      tail := tail, kinds := u.kinds ++ List.replicate n none, pulling := u.pulling + n }))) ∧
    (¬ ok → exec (.tailWrite src q tail) s = .next (s.setQueue q { u with
      errcnt := if u.errcnt = BitVec.allOnes 16 then u.errcnt else u.errcnt + 1 }))) ∧
  (∀ (s : State) q n, let u := s.queue q; let i := u.tail.toNat - u.pulling
    u.pulling ≠ 0 → queueHeld s q = false → u.psrc = 1 → let d := drawNat s
    (d.1 % 2 = 1 → pullRecords q (n + 1) s = haltQueue d.2 q i 6) ∧
    (d.1 % 2 = 0 → ∀ w t,
      qWrite d.2 q (u.slotVa i) (s.host.reads ((u.pbase.toNat + 64 * (i % 2 ^ u.log2n.toNat)) % 2 ^ 64) 64) = (.bytes w, t) →
      pullRecords q (n + 1) s = pullRecords q n (t.modQueue q fun u => { u with pulling := u.pulling - 1 })))

/-- R272 to R276, R332, R378 and R399: the heads of the queues of a die are judged; a malformed head, or one whose own access faults, halts
its queue; else the best startable one starts; a record that is done signals, enters the chain and is over. -/
def Sys2Proof.Spec.RecordsRun : Prop :=
  (∀ (s : State) die, let mine := (s.queues.filter fun p => p.2.hdie.toNat == die).map Prod.fst
    let v := mine.foldl (fun s q => (pullRecords q (s.queue q).pulling s).modQueue q fun u => u.dropSkipped u.skips.length) s
    let j := judgeHeads (fromPointer (kget v.qptr die 0) mine) v
    ((∀ h ∈ j.1, ∀ st, h.2 ≠ .malformed st ∧ ∀ c a, h.2 ≠ .fault st c a) →
      exec (.recordStart die) s = .next (startFirst die (byPrio (j.1.filterMap readyOf)) j.2)) ∧
    (∀ pre q st post, j.1 = pre ++ (q, .malformed st) :: post →
      (∀ h ∈ pre, ∀ st, h.2 ≠ .malformed st ∧ ∀ c a, h.2 ≠ .fault st c a) →
      exec (.recordStart die) s = .next (haltAtHead j.2 q st (queueErr j.2 q 0x80)))) ∧
  (∀ l, (byPrio l).Pairwise (fun a b => Rec.prio a.2.record ≤ Rec.prio b.2.record) ∧ ∀ x, x ∈ byPrio l ↔ x ∈ l) ∧
  (∀ c v, waitHolds c v = true ↔ 0 ≤ (BitVec.ofNat 32 c - BitVec.ofNat 32 v).toInt) ∧
  (∀ (s : State) q st,
    let floor := max (s.queue q).level.toNat (s.ctx (s.queue q).ctx.toNat).level.toNat
    (recordOk floor st.record = false → judgeHead s q st = (.malformed st, s)) ∧
    (recordOk floor st.record = true → ∀ v, imageLow s q st.record = (some true, v) → judgeHead s q st = (.malformed st, v)) ∧
    (recordOk floor st.record = true → ∀ v, imageLow s q st.record = (some false, v) →
      Rec.wait0 st.record = 0 → Rec.wait1 st.record = 0 →
      (Rec.type st.record = 0 ∨ Rec.type st.record = 5) → Rec.stages st.record < 2 → judgeHead s q st = (.ready st, v)) ∧
    (recordOk floor st.record = true → ∀ v w u, imageLow s q st.record = (some false, v) → Rec.wait0 st.record ≠ 0 →
      qRead v q (Rec.wait0 st.record) 4 = (.bytes w, u) → waitHolds (natOf w) (Rec.wv0 st.record) = false →
      judgeHead s q st = (.waiting, u))) ∧
  (∀ (s : State) q b, ((Rec.type b ≠ 0 ∨ Rec.level b = 0) → imageLow s q b = (some false, s)) ∧
    (Rec.type b = 0 → Rec.level b ≠ 0 → ∀ h u, qRead s q (Rec.p0 b) 64 = (.bytes h, u) →
      imageLow s q b = (some (decide ((headerOf h).level < Rec.level b)), u))) ∧
  (∀ (s : State) q st, (Rec.type st.record = 1 ∨ Rec.type st.record = 2) →
    startRecord s q st = takeStarted s q { st with done := true }) ∧
  (∀ (s : State) q st, Rec.type st.record = 3 → startRecord s q st =
    (takeStarted s q { st with done := true }).modQueue q fun u => { u with level := BitVec.ofNat 2 (Rec.level st.record) }) ∧
  (∀ (s : State) q st img u, Rec.type st.record = 0 → Rec.stages st.record < 2 → st.group = [] →
    recordImage s q st.record = (.bytes img, u) →
    (∀ die, findRegion u (u.queue q).ctx.toNat st.record img = .noPlace die → startRecord s q st = refusePlace u q st.index die) ∧
    (∀ m v, findRegion u (u.queue q).ctx.toNat st.record img = .at m v →
      (∀ im w, loadMember v m = (.ok im, w) → let p := primeRecord w q st.index m.key st.record im
        startRecord s q st = takeStarted p.1 q { st with region := some m.key, step := p.2 }) ∧
      (∀ x w, loadMember v m = (.error x, w) → startRecord s q st = failHead
        (writeRefusal (giveBack w m) (w.queue q).hdie.toNat (u.queue q).ctx.toNat (Rec.p2 st.record) x) q st (queueErr w q 0x81)))) ∧
  (∀ u st,
    (st.level = 0 → Rec.type st.record ≠ 0 → mayComplete u st = true) ∧
    (st.level = 0 → Rec.type st.record = 0 → Rec.level st.record = 0 → (mayComplete u st = true ↔
      Rec.stages st.record < 2 ∨ st.group ≠ [] ∨ u.holdsIndex (st.index - 1) = false)) ∧
    ((st.level ≠ 0 ∨ (Rec.type st.record = 0 ∧ Rec.level st.record ≠ 0)) → mayComplete u st = earlierDone u st.index)) ∧
  (∀ (s : State) q i st bs u, startedAt s q i = some st → queueHeld s q = false → st.failed = none → st.done = true →
    mayComplete (s.queue q) st = true → signal s q st.record = (.bytes bs, u) →
    exec (.recordComplete q i) s = .next (finishRecord (u.modQueue q fun x => chainEntry x st) q st)) ∧
  (∀ (s : State) q i st, startedAt s q i = some st → queueHeld s q = false → st.failed = none → st.done = true →
    mayComplete (s.queue q) st = false → exec (.recordComplete q i) s = .next s) ∧
  (∀ (s : State) q b, (Rec.sig b = 0 → signal s q b = (.bytes [], s)) ∧
    (Rec.sig b ≠ 0 → ∀ w u, qRead s q (Rec.sig b) 4 = (.bytes w, u) →
      signal s q b = qWrite u q (Rec.sig b) (byteList 4 ((natOf w + 1) % 2 ^ 32)))) ∧
  (∀ (s : State) q (st : Started), st.attempt ≠ 2 → (s.queue q).disabling = false →
    finishRecord s q st = s.setQueue q { s.queue q with started := (s.queue q).started.filter fun x => x.index != st.index }) ∧
  (∀ (s : State) q i st, startedAt s q i = some st → queueHeld s q = false → st.failed = none → st.done = false →
    let u := s.queue q; let b := st.record; let n := min 32 (Rec.p2 b - st.pos)
    (Rec.type b = 5 → ∀ bs w z t, unitRead s u.hdie.toNat u.ctx.toNat (queueWaiter q) (Rec.p0 b + st.pos : Int) n = (.bytes bs, w) →
      unitWrite w u.hdie.toNat u.ctx.toNat (Rec.p1 b + st.pos : Int) bs true = (.bytes z, t) →
      exec (.recordComplete q i) s = .next (modStarted t q st.index fun x => { x with
        pos := x.pos + n, done := decide (Rec.p2 b ≤ x.pos + n) })) ∧
    (Rec.type b = 6 → ∀ x y v w, qWrite s q (Rec.p0 b) u.chain = (.bytes x, v) →
      qWrite v q (Rec.p1 b) (byteList 8 u.chainN) = (.bytes y, w) →
      exec (.recordComplete q i) s = .next (modStarted w q st.index fun x => { x with done := true }))) ∧
  (∀ (s : State) q, queueHeld s q = true → exec (.queueEngineFault q) s = .next s) ∧
  (∀ (s : State) q st c a u, queueHeld s q = false → headOf (pullRecords q (s.queue q).pulling s) q = (.fault st c a, u) →
    ((c = 1 ∨ c = 2) → exec (.queueEngineFault q) s = .next (raisePageFault u (u.queue q).hdie.toNat
      ⟨5, q, (u.queue q).ctx.toNat, a, false, c⟩)) ∧
    (c ≠ 1 → c ≠ 2 → exec (.queueEngineFault q) s = .next (haltAtHead u q st (queueErr u q c))))

/-- R278: a binding counts a firing in the step in which its condition occurs: KIND 0 at each change of its word from empty to
full, KIND 2 once, when a write leaves a count that its wait holds for, and KINDs 1 and 2 as they are bound where the condition
holds already.  A firing enqueues a copy of the record, or is counted pending and delivered later. -/
def Sys2Proof.Spec.TriggersFire : Prop :=
  (∀ (s : State) bk t, kfind s.triggers bk = some t →
    t.fired ≠ 0 →
    let t' : Trigger := { t with fired := t.fired - 1 }
    (0 < t.pending → exec (.triggerFire bk) s = .next (setTrigger s bk t'.latch)) ∧
    (t.pending = 0 → ∀ u, deliverTrigger s (bk / 256) t = .sent u → exec (.triggerFire bk) s = .next (setTrigger u bk t')) ∧
    (t.pending = 0 → deliverTrigger s (bk / 256) t = .none → exec (.triggerFire bk) s = .next (setTrigger s bk t'.latch))) ∧
  (∀ (s : State) bk t, kfind s.triggers bk = some t → t.fired = 0 → exec (.triggerFire bk) s = .next s) ∧
  (∀ pa len was (filled : Bool) m (t : Trigger), t.bound = true → pa < t.wpa + 4 → t.wpa < pa + len →
    let u := t.noteWrite pa len was filled m
    (t.kind = 0 → u = if filled = true ∧ was t.wpa = false then { t with fired := t.fired + 1 } else t) ∧
    (t.kind = 2 → t.spent = false → t.wpa < 2 ^ 46 →
      u = if waitHolds (natOf (m.reads t.wpa 4)) (t.val.toNat % 2 ^ 32) = true then { t with fired := t.fired + 1, spent := true }
        else t) ∧
    (t.kind = 2 → t.spent = true → u = t)) ∧
  (∀ (s : State) (t : Trigger), t.bound = true → t.spent = false →
    (t.kind = 1 → t.look s = if t.val.toNat ≤ (s.well t.well.toNat).head then { t with fired := t.fired + 1, spent := true } else t) ∧
    (t.kind = 2 → t.wpa < 2 ^ 46 → t.look s = if waitHolds (natOf (s.mem.reads t.wpa 4)) (t.val.toNat % 2 ^ 32) = true
      then { t with fired := t.fired + 1, spent := true } else t)) ∧
  (∀ (s : State) die ctx k d, ∃ t : Trigger, (bindTrigger s die ctx k d).triggers = kput s.triggers (ctx * 256 + k) (t.look s) ∧
    t.bound = true ∧ t.handler = true ∧ t.spent = false ∧ t.fired = (kget s.triggers (ctx * 256 + k) {}).fired ∧
    t.pending = (kget s.triggers (ctx * 256 + k) {}).pending) ∧
  (∀ t : Trigger, (t.pending < 2 ^ 32 - 1 → t.latch = { t with pending := t.pending + 1 }) ∧
    (t.pending = 2 ^ 32 - 1 → t.latch = { t with overflow := true })) ∧
  (∀ (s : State) bk t, kfind s.triggers bk = some t → t.pending ≠ 0 →
    (∀ u, deliverTrigger s (bk / 256) t = .sent u →
      exec (.triggerPendingDelivery bk) s = .next (setTrigger u bk { t with pending := t.pending - 1 })) ∧
    (deliverTrigger s (bk / 256) t = .none → exec (.triggerPendingDelivery bk) s = .next s)) ∧
  (∀ (s : State) bk t, kfind s.triggers bk = some t → t.pending = 0 → exec (.triggerPendingDelivery bk) s = .next s) ∧
  (∀ (s : State) c (t : Trigger) b v u, t.handler = true → ctxWorks s c = true → (s.queue t.queue.toNat).psrc = 0 →
    (s.queue t.queue.toNat).state ≠ .off →
    unitRead s (s.queue t.queue.toNat).hdie.toNat c (queueWaiter t.queue.toNat) t.recva.toNat 64 = (.bytes b, v) →
    enqRecord v t.queue.toNat b = .done u → deliverTrigger s c t = .sent u)

/-- R294 and R298: a group whose members are all PRIMED is launched in one step, its step barrier set; it drains when no member
fires. -/
def Sys2Proof.Spec.GroupsLaunch : Prop :=
  (∀ (s : State) gid g, kfind s.groups gid = some g →
    let ms := g.members.filterMap fun k => (s.region k).map fun r => (k, r)
    let recs := ms.filterMap fun m => (recordOf s m.2).map fun x => (m.1, m.2, x.2)
    g.state = .forming → queueHeld s g.queue = false → recs.length = g.members.length →
    (∀ m ∈ recs, m.2.1.kernel = .primed ∧ m.2.1.priming = none) → ∀ bs u,
    zeroBlocks (recs.map fun m => (m.2.1, Rec.p2 m.2.2.record)) s = (.bytes bs, u) →
    let v := recs.foldl (fun s m => modStarted (releaseKernel s m.1 (launchOf g.queue m.2.2.index m.2.2.record)) g.queue
      m.2.2.index fun x => { x with step := 2 }) u
    let w := match g.step with
      | some b => setStepBarrier v (v.queue g.queue).ctx.toNat b (ms.map Prod.snd)
      | none => v
    exec (.groupLaunch gid) s = .next { w with groups := kput w.groups gid { g with state := .running } }) ∧
  (∀ (s : State) gid g, kfind s.groups gid = some g → g.state ≠ .forming → exec (.groupLaunch gid) s = .next s) ∧
  (∀ (s : State) gid g, kfind s.groups gid = some g → (g.state = .running ∨ g.state = .stepping) →
    (allMembers s g fun r => r.kernel != .firing) = true →
    (allMembers s g fun r => r.kernel == .retired || r.kernel == .resident) = false →
    settleGroup s gid = { s with groups := kput s.groups gid { g with state := .draining } })

/-- R269 to R278, R294, R298, R332, R339, R378, R388 and R399: the commands of a queue, its records, its triggers and its groups.
Where the spec leaves room, it states the model's reading: log entries 40, 42, 45, 51, 52, 53, 54, 72, 102, 120 and 121. -/
def Obligations.QueueEvents : Prop := QueueCommands ∧ RecordsRun ∧ TriggersFire ∧ GroupsLaunch

/-! ### Contexts -/

/-- A command m of a context taken: it waits in the unit's queue. -/
def Sys2Proof.Spec.begun (s : State) (c : Nat) (m : CtxCmd) : State :=
  { s.modCtx c fun x => { x with cmd := some m } with ctxq := s.ctxq ++ [(c, .cmd, false)] }

/-- A command that the unit, with nothing before it, ends at once with a result code. -/
def Sys2Proof.Spec.Ends (i : Instr) (s : State) (c : Nat) (m : CtxCmd) (res : Nat) : Prop :=
  exec i s = .next (popJob (endCmd (begun s c m) c res))

/-- R262 to R266, R304, R343 and R372: the commands of the context unit.  One that comes while another of its context is in progress is
rejected; one that comes while the unit is at work waits its turn; KILL does not wait. -/
def Sys2Proof.Spec.ContextCommands : Prop :=
  let cmds (c : Nat) : List (Instr × CtxCmd) := [(.create c, .create), (.bind c, .bind), (.ctxFreeze c, .freeze), (.ctxThaw c, .thaw),
    (.swapout c, .swapout), (.swapin c, .swapin), (.clear c, .clear)]
  (∀ (s : State) c, (s.ctx c).cmd ≠ none → ∀ i ∈ cmds c, exec i.1 s = .next (s.modCtx c fun x => { x with rej := true })) ∧
  (∀ (s : State) c (k : Nat) (j : CtxJob) rest, (s.ctx c).cmd = none → s.ctxq = (k, j, true) :: rest →
    ∀ i ∈ cmds c, exec i.1 s = .next (begun s c i.2)) ∧
  (∀ (s : State) c, (s.ctx c).cmd = none → s.ctxq = [] → let x := s.ctx c
    (x.state ≠ .free → Ends (.create c) s c .create 1) ∧
    (x.state = .free → (x.levelReg = 3 ∨ readDesc s c = none) → Ends (.create c) s c .create 3) ∧
    (∀ b, x.state = .free → x.levelReg ≠ 3 → readDesc s c = some b → ∃ t, exec (.create c) s = .next t ∧
      t.ctx c = { x with
        state := .ready, root := x.rootReg, level := x.levelReg, cmd := none, res := 0
        grants := Vector.ofFn fun d => { budget := (descGrant b d.val).budget } }) ∧
    (x.state ≠ .ready → x.state ≠ .running → Ends (.bind c) s c .bind 1) ∧
    ((x.state = .ready ∨ x.state = .running) → readDesc s c = none → Ends (.bind c) s c .bind 3) ∧
    (∀ b, (x.state = .ready ∨ x.state = .running) → readDesc s c = some b → grantsPresent s b = false → Ends (.bind c) s c .bind 3) ∧
    (∀ b, let u := begun s c .bind
      (x.state = .ready ∨ x.state = .running) → readDesc u c = some b → grantsPresent u b = true → grantsFree u c b = true →
      grantsKeep u c b = true → exec (.bind c) s = .next (popJob (endCmd (grantCores (u.setCtx c { u.ctx c with
        grants := Vector.ofFn fun d => { descGrant b d.val with budget := ((u.ctx c).grants[d]).budget } }) c (ctxCores u c)) c 0))) ∧
    (∀ b, let u := begun s c .bind
      (x.state = .ready ∨ x.state = .running) → readDesc u c = some b → grantsPresent u b = true →
      (grantsFree u c b = false ∨ grantsKeep u c b = false) → Ends (.bind c) s c .bind 2) ∧
    (c = 0 → Ends (.ctxFreeze c) s c .freeze 4 ∧ Ends (.swapout c) s c .swapout 4 ∧ Ends (.swapin c) s c .swapin 4) ∧
    (c ≠ 0 → (x.state = .ready ∨ x.state = .running) →
      exec (.ctxFreeze c) s = .next (markJob (freezeCtx (begun s c .freeze) c))) ∧
    (c ≠ 0 → x.state ≠ .ready → x.state ≠ .running → Ends (.ctxFreeze c) s c .freeze 1) ∧
    (x.state ≠ .frozen → Ends (.ctxThaw c) s c .thaw 1) ∧
    (x.state = .frozen → let u := begun s c .thaw; let v := (ctxRegions u c).foldl thawRegion u
      let w := (ctxCores v c).foldl (setStopped false) v
      exec (.ctxThaw c) s = .next (popJob (endCmd (settleCtx (w.modCtx c fun x => { x with state := .ready }) c) c 0))) ∧
    (c ≠ 0 → x.state = .frozen → exec (.swapout c) s =
      .next (markJob (startShoot (resetBarriers (begun s c .swapout) c) .tlbi (.ctx c) none))) ∧
    (c ≠ 0 → x.state ≠ .frozen → Ends (.swapout c) s c .swapout 1) ∧
    (c ≠ 0 → x.state = .swapped → s.t3 = 0 → s.t2 = 0 → exec (.swapin c) s = .next (markJob (begun s c .swapin))) ∧
    (c ≠ 0 → (x.state ≠ .swapped ∨ s.t3 ≠ 0 ∨ s.t2 ≠ 0) → Ends (.swapin c) s c .swapin 1) ∧
    (x.state ≠ .faulted → (x.state ≠ .frozen ∨ s.t3 = 0 ∨ c = 0) → Ends (.clear c) s c .clear 1) ∧
    (x.state = .faulted → (s.t3 = 0 ∨ c = 0) → ∃ t, exec (.clear c) s = .next t ∧
      t.ctx c = { x with state := .frozen, cmd := none, res := 0 } ∧ t.ctxq = []) ∧
    (x.state = .faulted → s.t3 ≠ 0 → c ≠ 0 →
      let u := endCmd ((begun s c .clear).modCtx c fun x => { x with state := .frozen }) c 0
      exec (.clear c) s = .next (markJob (startShoot (resetBarriers { u with ctxq := [(c, .trip, false)] } c) .tlbi (.ctx c) none)))) ∧
  (∀ (s : State) c old k, let now := ctxCores s c
    ((grantCores s c old).core k).ctx = if k ∈ old ∧ k ∉ now then none
      else if k ∈ now ∧ k ∉ old then some (fin 64 c) else (s.core k).ctx) ∧
  (∀ (s : State), exec (.kill 0) s = .next (s.modCtx 0 fun x => { x with res := 4 })) ∧
  (∀ (s : State) c, c ≠ 0 → ((s.ctx c).state = .free ∨ (s.ctx c).state = .dead) →
    exec (.kill c) s = .next (s.modCtx c fun x => { x with res := 1 })) ∧
  (∀ (s : State) c, c ≠ 0 → (s.ctx c).state ≠ .free → (s.ctx c).state ≠ .dead → ∃ t, exec (.kill c) s = .next (serveCtx t) ∧
    (t.ctx c).state = .dead ∧ (t.ctx c).cmd = none ∧ (t.ctx c).heldFault = none ∧
    (t.ctx c).res = (if (s.ctx c).cmd = none then 0 else 5) ∧ (∀ j ∈ t.ctxq, j.1 ≠ c) ∧
    (∀ k r, s.region k = some r → r.ctx = c → ∃ q, t.region k = some q ∧ q.kernel = .none ∧ q.record = none) ∧
    (∀ w, (s.well w).ctx = c → kfind s.wells w ≠ none → (t.well w).state = .closed) ∧
    ∀ b ∈ t.barriers, b.1 / 32 ≠ c)

/-- R263, R265, R266, R268 and R343: what the context unit does later: a freeze is over, a fault that the host serves, a swap, the clean-up of
a context that has been killed.  The unit serves its events one at a time, in arrival order. -/
def Sys2Proof.Spec.ContextLater : Prop :=
  (∀ (s : State) c, jobIs s c .cmd = true → (s.ctx c).cmd = some .freeze → ctxFrozen s c = true →
    exec (.ctxFreezeComplete c) s = .next (serveCtx (popJob (endCmd (s.modCtx c fun x => { x with state := .frozen }) c 0)))) ∧
  (∀ (s : State) c, c ≠ 0 → jobIs s c .trip = true → ((s.ctx c).state = .ready ∨ (s.ctx c).state = .running) → ctxFrozen s c = true →
    exec (.ctxFreezeComplete c) s = .next (startShoot (resetBarriers (s.modCtx c fun x => { x with state := .frozen }) c) .tlbi (.ctx c) none)) ∧
  (∀ (s : State) c, (ctxFrozen s c = false ∨ (jobIs s c .trip = false ∧ ((s.ctx c).cmd ≠ some .freeze ∨ jobIs s c .cmd = false))) →
    exec (.ctxFreezeComplete c) s = .next s) ∧
  (∀ (s : State) c, ctxFrozen s c = true ↔ (∀ k ∈ ctxRegions s c, ∀ r, s.region k = some r → r.frozen = true) ∧
    ∀ k ∈ ctxCores s c, (s.core k).lanes = []) ∧
  (∀ (s : State) c code, c ≠ 0 → (s.ctx c).heldFault = none →
    ((s.ctx c).state = .ready ∨ (s.ctx c).state = .running ∨ (s.ctx c).state = .frozen) →
    raiseCtxFault s c code = { s.modCtx c fun x => { x with heldFault := some (BitVec.ofNat 8 code) } with
      ctxq := s.ctxq ++ [(c, .fault, false)] }) ∧
  (∀ (s : State) c f, (s.ctx c).heldFault = some f → s.ctxq = [(c, .fault, false)] →
    let faulted (u : State) : State :=
      popJob (sendMsix (u.modCtx c fun x => { x with state := .faulted, fcode := f, heldFault := none }) c)
    ((s.ctx c).state = .frozen → exec (.ctxFault c) s = .next (faulted s)) ∧
    (((s.ctx c).state = .ready ∨ (s.ctx c).state = .running) → let u := markJob (freezeCtx s c)
      (ctxFrozen u c = false → exec (.ctxFault c) s = .next u) ∧
      (ctxFrozen u c = true → exec (.ctxFault c) s = .next (serveCtx (faulted u))))) ∧
  (∀ (s : State) c f, (s.ctx c).heldFault = some f → jobIs s c .fault = true →
    (ctxFrozen s c = false → exec (.ctxFault c) s = .next s) ∧
    (ctxFrozen s c = true → exec (.ctxFault c) s = .next (serveCtx (popJob (sendMsix (s.modCtx c fun x => { x with
      state := .faulted, fcode := f, heldFault := none }) c))))) ∧
  (∀ (s : State) c, (s.ctx c).heldFault = none → (∀ k ∈ ctxCores s c, (s.core k).fltrec.getLsbD 63 = false) → s.ctxq = [] →
    exec (.ctxFault c) s = .next s) ∧
  (∀ (s : State) c, jobIs s c .cmd = true → (s.ctx c).cmd = some .swapout → swapReady s c = true →
    let u := (ctxRegions s c).foldl saveShadow s
    let v := (ctxCores u c).foldl (fun s k => saveCore s c k) u
    exec (.swapComplete c) s = .next (serveCtx (popJob (endCmd (v.modCtx c fun x => { x with state := .swapped }) c 0)))) ∧
  (∀ (s : State) c, jobIs s c .trip = true → (s.ctx c).state = .frozen → swapReady s c = true →
    let u := (ctxRegions s c).foldl saveShadow s
    let v := (ctxCores u c).foldl (fun s k => saveCore s c k) u
    exec (.swapComplete c) s = .next (serveCtx (popJob (v.modCtx c fun x => { x with state := .swapped })))) ∧
  (∀ (s : State) c, swapReady s c = false → (s.ctx c).cmd ≠ some .swapin → exec (.swapComplete c) s = .next s) ∧
  (∀ (s : State) c, jobIs s c .cmd = false → jobIs s c .trip = false → exec (.swapComplete c) s = .next s) ∧
  (∀ (s : State) c, jobIs s c .cmd = true → (s.ctx c).cmd = some .swapin →
    let u := (ctxRegions s c).foldl restoreShadow s
    let v := (ctxCores u c).foldl (restoreCore c) u
    exec (.swapComplete c) s = .next (serveCtx (popJob (endCmd (v.modCtx c fun x => { x with state := .frozen, saved := [] }) c 0)))) ∧
  (∀ (s : State) c k, let x := (saveCore s c k).ctx c
    x = { s.ctx c with saved := kput (s.ctx c).saved k (s.core k) }) ∧
  (∀ (s : State) c k o, kfind (s.ctx c).saved k = some o → (restoreCore c s k).core k = { s.core k with
    g := o.g, p := o.p, notes := o.notes, tint := o.tint, tper := o.tper, tdue := o.tdue
    tcount := o.tcount, cptr := o.cptr, mons := Vector.replicate 8 none, events := (s.core k).events ||| 0xFF00 }) ∧
  (∀ (s : State) c, (s.ctx c).state = .dead → (∀ k ∈ ctxRegions s c, ∃ r, s.region k = some r ∧ r.stores = []) →
    (∀ k ∈ ctxCores s c, (s.core k).storeQ = []) → ctxShooting s c = false →
    ∃ t, exec (.ctxCleanupComplete c) s = .next t ∧ (t.ctx c).state = .free ∧ (t.ctx c).grants = Vector.replicate 4 {} ∧
      (t.ctx c).saved = [] ∧ ∀ k r, s.region k = some r → r.ctx = c → t.region k = none) ∧
  (∀ (s : State) c, (s.ctx c).state ≠ .dead → exec (.ctxCleanupComplete c) s = .next s)

/-- R262 to R268, R304, R343 and R372: the context unit.
Where the spec leaves room, it states the model's reading: log entries 42, 47, 55 and 103. -/
def Obligations.ContextEvents : Prop := ContextCommands ∧ ContextLater

/-! ### Pages, shoot-downs, tree barriers and memory errors -/

/-- R256, R307, R312 to R314: a shoot-down is complete once every core and every closing store has acknowledged, and the epochs
advance; a migration copies its page and rewrites its leaf; a poisoned page is marked and shot down. -/
def Sys2Proof.Spec.PagesMove : Prop :=
  (∀ (s : State) id h, s.shoots.find? (fun h => h.id == id) = some h → h.acked = false → h.done s = true →
    let u := advanceEpochs s
    exec (.shootdownComplete id) s = .next (if h.kind = .poison ∨ h.kind = .into ∨ (h.kind = .tlbi ∧ h.owed = none)
      then { u with shoots := s.shoots.filter fun x => x.id != id }
      else { u with shoots := s.shoots.map fun x => if x.id = id then { x with acked := true } else x })) ∧
  (∀ (s : State) id h, s.shoots.find? (fun h => h.id == id) = some h → (h.acked = true ∨ h.done s = false) →
    exec (.shootdownComplete id) s = .next s) ∧
  (∀ (s : State) (h : Shoot), h.done s = true ↔ h.cores = [] ∧ h.queued = [] ∧ ∀ i ∈ h.stores, ∀ p ∈ s.regions, ∀ x ∈ p.2.stores, x.id ≠ i) ∧
  (∀ (s : State) c, ∀ h ∈ (ackShoots s c).shoots, c ∉ h.cores) ∧
  (∀ (s : State) c (h : Shoot), kget (h.noteQueued s c).queued c 0 =
    if (s.core c).storeQ = [] then kget h.queued c 0 else (s.core c).storeQ.length) ∧
  (∀ c i (h : Shoot), kget h.queued c 0 ≤ i → h.performed c i = h) ∧
  (∀ c i (h : Shoot), i < kget h.queued c 0 → kget (h.performed c i).queued c 0 = kget h.queued c 0 - 1) ∧
  (∀ (s : State) d, d < 5 → kget (advanceEpochs s).epochs d 0 = kget s.epochs d 0 + 1) ∧
  (∀ (s : State) c (va : BitVec 64), let leaf := leafAt s (s.ctx c).root.toNat va.toNat
    (∀ f, leaf = .error f → exec (.pagePoison c va) s = .next s) ∧
    (∀ pa v n, leaf = .ok (pa, v, n) → (v.testBit 0 = false ∨ v.testBit 8 = true ∨ v.testBit 9 = true) →
      exec (.pagePoison c va) s = .next s) ∧
    (∀ pa v n, leaf = .ok (pa, v, n) → v.testBit 0 = true → v.testBit 8 = false → v.testBit 9 = false →
      exec (.pagePoison c va) s = .next (startShoot (writeLeaf s pa (v + 2 ^ 8)) .poison (.page c va.toNat) none))) ∧
  (∀ (s : State) id m, s.migrs.find? (fun m => m.id == id) = some m →
    ((∃ h ∈ s.shoots, h.id = id) → exec (.migrComplete id) s = .next s) ∧
    ((∀ h ∈ s.shoots, h.id ≠ id) → exec (.migrComplete id) s = .next (owedReply (endMigr (memStore
      { s with migrs := s.migrs.filter fun x => x.id != id } m.frame (s.deep.reads m.deep (2 ^ m.log2)) none)
      m.leafPa (some m.frame) true false) m.owed 0))) ∧
  (∀ (s : State) id h, s.migrs.find? (fun m => m.id == id) = none →
    s.shoots.find? (fun h => h.id == id && h.acked) = some h →
    let u : State := { s with shoots := s.shoots.filter fun x => x.id != id }
    (∀ pa log2 old new, h.kind = .move pa log2 old new → exec (.migrComplete id) s = .next (owedReply (endMigr (copyMarks
      (memStore u new (s.mem.reads (localPa old) (2 ^ log2)) none) old new (2 ^ log2)) pa (some new) true false) h.owed 0)) ∧
    (∀ pa log2 old deep, h.kind = .out pa log2 old deep → exec (.migrComplete id) s = .next (owedReply (endMigr
      { u with deep := s.deep.writes deep (s.mem.reads (localPa old) (2 ^ log2)) } pa none false false) h.owed 0))) ∧
  (∀ (leaf frame : Nat), leaf < 2 ^ 64 → let x := BitVec.ofNat 64 leaf; let y := BitVec.ofNat 64 (withFrame leaf frame)
    y.extractLsb' 16 36 = (BitVec.ofNat 64 frame).extractLsb' 16 36 ∧ y.extractLsb' 0 16 = x.extractLsb' 0 16 ∧
    y.extractLsb' 52 12 = x.extractLsb' 52 12)

/-- R307, R316, R318, R384 and R385: errors of the tiers, and the service of page faults by the host. -/
def Sys2Proof.Spec.MemoryService : Prop :=
  (∀ (s : State) (me : MemError), me.retryOk = true → exec (.memoryReadRetry me) s = .next { s with
    errlog := { s.errlog with corr := if s.errlog.corr = BitVec.allOnes 32 then s.errlog.corr else s.errlog.corr + 1 } }) ∧
  (∀ (s : State) (me : MemError), me.retryOk = false → me.walk = true →
    let page := (me.ctx, me.va.toNat / 2 ^ 16)
    let mine := s.regions.filter fun p => p.2.ctx == me.ctx
    let hit (q : MemReq) : Bool := q.walks me.va.toNat && !q.isXlat
    let fail (q : MemReq) : MemReq := if hit q then { q with walked := true, fault := some (6, me.va.toNat) } else q
    (mine.any (fun p => (regionElems s p.2).any fun e => (s.elem e.1 e.2).reqs.any hit) = true →
      exec (.memoryReadRetry me) s = .next (mine.foldl (fun s p => modElems s p.2 fun y => { y with reqs := y.reqs.map fail }) s)) ∧
    (mine.any (fun p => (regionElems s p.2).any fun e => (s.elem e.1 e.2).reqs.any hit) = false →
      exec (.memoryReadRetry me) s = .next { s with badWalks := page :: s.badWalks.filter (· != page) })) ∧
  (∀ (s : State) (me : MemError), me.retryOk = false → me.walk = false → me.deep = false →
    exec (.memoryReadRetry me) s = exec (.pagePoison me.ctx me.va) s) ∧
  (∀ (s : State) (me : MemError) m, me.retryOk = false → me.walk = false → me.deep = true →
    s.migrs.find? (fun m => decide (m.deep ≤ me.pa) && decide (me.pa < m.deep + 2 ^ m.log2)) = some m →
    exec (.memoryReadRetry me) s = .next (owedReply (endMigr { s with migrs := s.migrs.filter fun x => x.id != m.id }
      m.leafPa (some m.frame) true true) m.owed 5)) ∧
  (∀ (s : State) (me : MemError) p, me.retryOk = false → me.walk = false → me.deep = true →
    s.migrs.find? (fun m => decide (m.deep ≤ me.pa) && decide (me.pa < m.deep + 2 ^ m.log2)) = none →
    s.streamers.find? (fun p => p.2.job.any fun j => j.readsDeep me.pa) = some p →
    exec (.memoryReadRetry me) s = .next (finishStep s p.1 (.fault s.links 5 me.pa false))) ∧
  (∀ (s : State) (me : MemError), me.retryOk = false → me.walk = false → me.deep = true →
    s.migrs.find? (fun m => decide (m.deep ≤ me.pa) && decide (me.pa < m.deep + 2 ^ m.log2)) = none →
    s.streamers.find? (fun p => p.2.job.any fun j => j.readsDeep me.pa) = none → exec (.memoryReadRetry me) s = .next s) ∧
  (∀ (s : State) n, exec (.memoryPatrolScrub n) s = .next { s with
    errlog := { s.errlog with corr := BitVec.ofNat 32 (min (2 ^ 32 - 1) (s.errlog.corr.toNat + n)) } }) ∧
  (∀ (s : State) die (v : BitVec 64), let kind := (v.extractLsb' 8 4).toNat; let src := (v.extractLsb' 32 32).toNat
    ((kget s.rings die {}).stopped.contains (kind, src) = false → exec (.pfres die v) s = .next s) ∧
    ((kget s.rings die {}).stopped.contains (kind, src) = true → kind ≠ 0 →
      exec (.pfres die v) s = .next (dropStopped s die kind src)) ∧
    ((kget s.rings die {}).stopped.contains (kind, src) = true → kind = 0 → ∀ key,
      regionOfHandle (dropStopped s die kind src) src = some key → exec (.pfres die v) s =
        .next ((dropStopped s die kind src).modRegion key fun r => { r with stopped := false, faultRec := none }))) ∧
  (∀ (s : State) die (v : BitVec 64), let r := kget s.rings die {}
    exec (.pfheadWrite die v) s = .next (flushFaultRing die r.wait.length
      { s with rings := kput s.rings die { r with head := v.setWidth 32 } })) ∧
  (∀ (s : State) die n, let r := kget s.rings die {}
    ((r.wait = [] ∨ r.tail - r.head = 256) → flushFaultRing die (n + 1) s = s) ∧
    (∀ x xs, r.wait = x :: xs → r.tail - r.head ≠ 256 →
      let u := bumpWord (physStore s (r.base.toNat + 32 * (r.tail.toNat % 256)) x.bytes none) (r.base.toNat + 0x2000)
      flushFaultRing die (n + 1) s = flushFaultRing die n (sendMsix
        { u with rings := kput u.rings die { r with wait := xs, tail := r.tail + 1 } } (64 + die)))) ∧
  (∀ x : FaultRec, x.ctx < 64 → x.kind < 16 → x.code < 256 → x.src < 2 ^ 32 → let w := BitVec.ofNat 64 (Machine.field x.bytes 8 8)
    Machine.field x.bytes 0 8 = x.va % 2 ^ 64 ∧ w.extractLsb' 0 8 = BitVec.ofNat 8 x.ctx ∧ w.extractLsb' 8 4 = BitVec.ofNat 4 x.kind ∧
    w.getLsbD 12 = x.wr ∧ w.extractLsb' 16 8 = BitVec.ofNat 8 x.code ∧ w.extractLsb' 32 32 = BitVec.ofNat 32 x.src ∧
    x.bytes.length = 32)

/-- R254, R304 and R306: an arrival at a tree barrier is counted where it is counted; the last one lets every core that arrived go on, and
the barrier is open again. -/
def Sys2Proof.Spec.TreeBarriers : Prop :=
  (∀ (s : State) bk who m rest, let x := s.barrier bk
    x.inbox = (who, m) :: rest → x.count ≠ 0 →
    exec (.treeBarrierArrival bk) s = .next (arriveAt (s.setBarrier bk { x with inbox := rest }) bk who m)) ∧
  (∀ (s : State) bk, ((s.barrier bk).inbox = [] ∨ (s.barrier bk).count = 0) → exec (.treeBarrierArrival bk) s = .next s) ∧
  (∀ (s : State) bk who, let x := s.barrier bk
    x.scope ≠ 5 → x.arr + 1 < x.count → arriveAt s bk who thisModule = s.setBarrier bk { x with
      lastArr := s.nstime, cores := x.cores ++ [who], arr := x.arr + 1, mods := x.mods ++ [thisModule] }) ∧
  (∀ (s : State) bk who, let x := s.barrier bk
    x.scope ≠ 5 → x.count ≠ 0 → x.count ≤ x.arr + 1 → (∀ m ∈ x.mods, m = thisModule) → x.cores.length = x.mods.length → s.groups = [] →
    let t := arriveAt s bk who thisModule
    (t.barrier bk).arr = 0 ∧ (t.barrier bk).cores = [] ∧ (t.barrier bk).count = x.count ∧ (t.barrier bk).inbox = x.inbox ∧
    ∀ c, let z := s.core c
      t.core c = if some c ∈ x.cores ∨ who = some c
        then { z with events := z.events ||| 0x20, barDone := z.barDone ||| BitVec.ofNat 32 (2 ^ (bk % 32)) } else z) ∧
  (∀ (s : State) bk who, let x := s.barrier bk
    x.scope = 5 → x.root ≠ thisModule → x.count ≠ 0 → arriveAt s bk who thisModule = sendOrDrop (s.setBarrier bk { x with
      lastArr := s.nstime, cores := x.cores ++ [who] }) x.root (.arrival (bk / 32) (bk % 32))) ∧
  (∀ (s : State) bk by_ n, let x := s.barrier bk
    x.scope ≠ 5 → s.groups = [] → let t := toldComplete s bk by_ n
    (t.barrier bk).cores = x.cores.drop n ∧
    ∀ c, let z := s.core c
      t.core c = if some c ∈ x.cores.take n
        then { z with events := z.events ||| 0x20, barDone := z.barDone ||| BitVec.ofNat 32 (2 ^ (bk % 32)) } else z)

/-- R254, R256, R304, R306, R307, R312 to R314, R316, R318, R384 and R385.
Where the spec leaves room, it states the model's reading: log entries 56, 57, 58, 82, 98, 118 and 125. -/
def Obligations.ServiceEvents : Prop := PagesMove ∧ MemoryService ∧ TreeBarriers

/-! ### Links, and the host port -/

/-- R333 to R335 and R337: the states of a link.  A change of STATE is reported by vector 69; a link that is FAILED or DOWN
discards what it holds. -/
def Sys2Proof.Spec.LinkStates : Prop :=
  (∀ (s : State) k en, 16 < k → exec (.linkEnable k en) s = .next s ∧ exec (.retrain k) s = .next s) ∧
  (∀ (s : State) k, k ≤ 16 → let u := s.setLink k { s.link k with en := true }
    ((s.link k).state = .down → exec (.linkEnable k true) s = .next (setLinkState u k .training)) ∧
    ((s.link k).state ≠ .down → exec (.linkEnable k true) s = .next u) ∧
    exec (.linkEnable k false) s = .next (endLink (s.setLink k { s.link k with en := false }) k .down)) ∧
  (∀ (s : State) k, k ≤ 16 →
    ((s.link k).state = .failed → exec (.retrain k) s = .next (setLinkState s k .training)) ∧
    ((s.link k).state ≠ .failed → exec (.retrain k) s = .next s)) ∧
  (∀ (s : State) k st, let u := setLinkState s k st
    (u.link k).state = st ∧ (u.link k).held = (s.link k).held ∧ (u.link k).en = (s.link k).en ∧
    (∀ j, j ≠ k → u.link j = s.link j) ∧ ((s.link k).state = st → u = s) ∧
    ((s.link k).state ≠ st → u = sendMsix (s.setLink k (u.link k)) 69)) ∧
  (∀ (s : State) k st, (st = .failed ∨ st = .down) → let u := endLink s k st
    (u.link k).state = st ∧ (u.link k).held = []) ∧
  (∀ k n, let t := trainedTo k n
    (k = 0 → t = if n = 16 then some .up else if 1 ≤ n ∧ n < 16 then some .degraded else none) ∧
    (1 ≤ k → k ≤ 12 → t = if n = 8 then some .up else if n = 4 ∨ n = 2 then some .degraded else none) ∧
    (12 < k → t = if 1 ≤ n then some .up else none)) ∧
  (∀ (s : State) k n st, k ≤ 16 → (s.link k).state = .training → trainedTo k n = some st →
    let d := drawNat s; let x := s.link k
    exec (.linkTrained k n) s = .next (setLinkState (d.2.setLink k { x with
      lanes := n, retry := min (2 ^ 32 - 1) (x.retry + x.held.length)
      peer := if 1 ≤ k ∧ k ≤ 12 then BitVec.ofNat 6 d.1 else x.peer }) k st)) ∧
  (∀ (s : State) k n, (trainedTo k n = none ∨ (s.link k).state ≠ .training) → exec (.linkTrained k n) s = .next s) ∧
  (∀ (s : State) k, ((s.link k).state = .training → exec (.linkTrainingFail k) s = .next (endLink s k .failed)) ∧
    ((s.link k).state ≠ .training → exec (.linkTrainingFail k) s = .next s)) ∧
  (∀ (s : State) k lane, let up := (s.link k).state = .up ∨ (s.link k).state = .degraded
    let d := drawNat s; let x := s.link k
    (up → lane = true → exec (.linkLaneLoss k lane) s = .next (setLinkState s k .training)) ∧
    (up → lane = false → exec (.linkLaneLoss k lane) s =
      .next (setLinkState (d.2.setLink k { x with retry := min (2 ^ 32 - 1) (x.retry + d.1) }) k .training)) ∧
    (¬ up → exec (.linkLaneLoss k lane) s = .next s))

/-- R220, R221, R304, R320, R334 and R340: flits of a Griral link that is UP or DEGRADED.  How many flits were sent again for their CRC is a
free number, which RETRY counts; a flit that meets a link that trains is held over the training; a store leaves in flits of at most 240
bytes; a request for a module whose link is dead is not issued, and DROP counts it. -/
def Sys2Proof.Spec.Flits : Prop :=
  (∀ (s : State) k n, 1 ≤ k → k ≤ 12 → (s.link k).carries = true → let d := drawNat s; let x := s.link k
    (0 < n → x.held ≠ [] → exec (.flitAck k n) s = .next (d.2.setLink k { x with
      retry := min (2 ^ 32 - 1) (x.retry + d.1), held := x.held.drop n })) ∧
    ((n = 0 ∨ x.held = []) → exec (.flitAck k n) s = .next s)) ∧
  (∀ (s : State) k f, 1 ≤ k → k ≤ 12 → (s.link k).carries = true →
    (f.dst = thisModule → exec (.flitReceive k f) s = .next (takeFlit s f)) ∧
    (f.dst ≠ thisModule → let out := routeLink s f.dst
      let live := (s.link out).carries = true ∨ (s.link out).state = .training
      (out ≤ 12 → live → exec (.flitReceive k f) s =
        .next (s.setLink out { s.link out with held := (s.link out).held ++ [f] })) ∧
      ((12 < out ∨ ¬ live) → exec (.flitReceive k f) s = .next (discardFlit out s f)))) ∧
  (∀ (s : State) k n f, (k = 0 ∨ 12 < k ∨ (s.link k).carries = false) →
    exec (.flitAck k n) s = .next s ∧ exec (.flitReceive k f) s = .next s) ∧
  (∀ (l : Link), l.carries = true ↔ l.state = .up ∨ l.state = .degraded) ∧
  (∀ (s : State) src dst pa len id, (placeOf pa).isMemory = true →
    takeFlit s ⟨src, dst, .load pa len id⟩ = sendOrDrop s src (.loadReply id (s.mem.reads (localPa pa) len) 0)) ∧
  (∀ (s : State) src dst pa bs, (placeOf pa).isMemory = true →
    takeFlit s ⟨src, dst, .store pa bs⟩ = memStore s pa bs none) ∧
  (∀ (s : State) src dst id bs f, takeFlit s ⟨src, dst, .loadReply id bs f⟩ = { s with
    remotes := s.remotes.map fun r => if r.id = id then { r with answer := some (bs, f) } else r }) ∧
  (∀ (s : State) src dst q (i : BitVec 64), takeFlit s ⟨src, dst, .tail q i⟩ = tailWrite s (.module src) q i.toNat) ∧
  (∀ (s : State) src dst c b, takeFlit s ⟨src, dst, .arrival c b⟩ = s.setBarrier (c * 32 + b) { s.barrier (c * 32 + b) with
    inbox := (s.barrier (c * 32 + b)).inbox ++ [(none, src)] }) ∧
  (∀ (s : State) src dst c b by_ n, takeFlit s ⟨src, dst, .completion c b by_ n⟩ = toldComplete s (c * 32 + b) by_ n) ∧
  (∀ (s : State) src dst pa id, takeFlit s ⟨src, dst, .waitv pa id⟩ = sendOrDrop s src (.loadReply id [] 2)) ∧
  (∀ (s : State) dst body, let k := routeLink s dst; let x := s.link k
    (k ≤ 12 → (x.carries = true ∨ x.state = .training) →
      sendOrDrop s dst body = s.setLink k { x with held := x.held ++ [⟨thisModule, dst, body⟩] }) ∧
    ((12 < k ∨ ¬ (x.carries = true ∨ x.state = .training)) →
      sendOrDrop s dst body = s.setLink k { x with drop := min (2 ^ 32 - 1) (x.drop + 1) })) ∧
  (∀ (s : State) dst n pa bs, (bs = [] → sendStore dst (n + 1) s pa bs = s) ∧
    (bs ≠ [] → sendStore dst (n + 1) s pa bs =
      sendStore dst n (sendOrDrop (markRemote s pa) dst (.store pa (bs.take 240))) (pa + 240) (bs.drop 240))) ∧
  (∀ (s : State) ps va data f p, (spansOf ps (ps.length + 1) va data).find? (fun p => deadPa s p.1) = some p →
    writeAny s ps va data f = (.fault 6 va, dropFlits s (routeLink s (p.1 / 2 ^ 46)) 1)) ∧
  (∀ (s : State) pa, deadPa s pa = true ↔ (placeOf pa).isRemote = true ∧
    (12 < routeLink s (pa / 2 ^ 46) ∨ (s.link (routeLink s (pa / 2 ^ 46))).carries = false)) ∧
  (∀ (s : State) k f, (∃ pa bs, f.body = .store pa bs) → discardFlit k s f = s.setLink k { s.link k with
    drop := min (2 ^ 32 - 1) ((s.link k).drop + 1) })

/-- R2, R219, R267, R269, R316, R328, R335 to R337, R390 and R394: the host port and the registers in MMIO. -/
def Sys2Proof.Spec.HostPort : Prop :=
  (∀ (s : State) off len (v : BitVec 64), exec (.registerWrite off len v) s = .next (mmioWrite s off len v.toNat)) ∧
  (∀ (s : State) bar off, (s.link 0).carries = false → (∀ len, exec (.hostRead bar off len) s = .next s) ∧
    ∀ bs, exec (.hostWrite bar off bs) s = .next s) ∧
  (∀ (s : State) bar off len, (s.link 0).carries = true → s.bootstat.ready = false → ¬ (bar = 0 ∧ off / 8 * 8 = 0x71000 ∧ accessOk off len = true) →
    exec (.hostRead bar off len) s = .next { s with sent := s.sent ++ [.unsupported] }) ∧
  (∀ (s : State) off len, (s.link 0).carries = true → (s.bootstat.ready = true ∨ off / 8 * 8 = 0x71000) → accessOk off len = true →
    (∀ r, regAt (off / 8 * 8) = some r → let t := if off % 8 = 0 then clearReg s r else s
      exec (.hostRead 0 off len) s = .next { t with
        sent := t.sent ++ [.read (byteList len (readReg s r / 2 ^ (8 * (off % 8)) % 2 ^ (8 * len)))] }) ∧
    (regAt (off / 8 * 8) = none → exec (.hostRead 0 off len) s = .next { s with sent := s.sent ++ [.unsupported] })) ∧
  (∀ (s : State) off len, (s.link 0).carries = true → s.bootstat.ready = true →
    (∀ pa, bar2 off len = some pa → exec (.hostRead 2 off len) s = .next { s with
      sent := s.sent ++ [.read (s.mem.reads (localPa pa) len)] }) ∧
    (bar2 off len = none → exec (.hostRead 2 off len) s = .next { s with sent := s.sent ++ [.unsupported] }) ∧
    ∀ bar, bar ≠ 0 → bar ≠ 2 → exec (.hostRead bar off len) s = .next { s with sent := s.sent ++ [.unsupported] }) ∧
  (∀ (s : State) off bs, (s.link 0).carries = true → s.bootstat.ready = true →
    exec (.hostWrite 0 off bs) s = .next (mmioWrite s off bs.length (natOf bs)) ∧
    (∀ pa, bar2 off bs.length = some pa → exec (.hostWrite 2 off bs) s = .next (memStore s pa bs none)) ∧
    (bar2 off bs.length = none → exec (.hostWrite 2 off bs) s = .next s) ∧
    ∀ bar, bar ≠ 0 → bar ≠ 2 → exec (.hostWrite bar off bs) s = .next s) ∧
  (∀ (s : State) off len v, (accessOk off len = false ∨ regAt (off / 8 * 8) = none) → mmioWrite s off len v = s) ∧
  (∀ (s : State) off r v, off % 8 = 0 → regAt off = some r → v < 2 ^ 64 → mmioWrite s off 8 v = writeReg s r v) ∧
  (∀ o, accessOk o 8 = true → ∀ c, c < 64 → o < 0x30 → regAt (0x1000 * c + o) = some (.ctx c o)) ∧
  (∀ q o, q < 1024 → o < 0x40 → o % 8 = 0 → regAt (0x40000 + 0x40 * q + o) = some (.queue q o)) ∧
  (∀ k o, k ≤ 16 → o < 0x20 → o % 8 = 0 → regAt (0x51000 + 0x40 * k + o) = some (.link k o)) ∧
  (∀ (s : State) c v, writeReg s (.ctx c 8) v = ctxCommand s c (CtxCmd.ofCode (v % 2 ^ 4))) ∧
  (∀ (s : State) q v, writeReg s (.queue q 0x30) v = queueCommand s q (v % 2 ^ 3) ∧
    writeReg s (.queue q 0x20) v = tailWrite s .host q v) ∧
  (∀ (s : State) d v, writeReg s (.ring d 0x10) v = advanceFaultHead s d v ∧ writeReg s (.ring d 0x18) v = resumeSource s d v) ∧
  (∀ (s : State) k v, writeReg s (.link k 8) v = setLinkEnable (if v.testBit 1 then retrainLink s k else s) k (v.testBit 0))

/-- R2, R219 to R221, R267, R269, R316, R328, R333 to R337, R340, R390 and R394.
Where the spec leaves room, it states the model's reading: log entries 66, 68, 78, 80, 117 and 122. -/
def Obligations.LinksAndHost : Prop := LinkStates ∧ Flits ∧ HostPort

/-! ### Wells -/

/-- R341 to R346, R348, R349 and R355: a frame of an ingest port carries a datagram, which reaches the armed well of its port, or is counted
in DROP; a frame that carries none is no datagram, and nothing counts it (log entry 104).  While an extent that has room is open, whether the
hub's buffer still takes the datagram is a free choice.  A frame step and a publish move HEAD;
a candidate enters the ring, or is refused as LOST. -/
def Sys2Proof.Spec.WellFrames : Prop :=
  (∀ (s : State) port fr, let k := 13 + port
    let dropped := s.setLink k { s.link k with drop := min (2 ^ 32 - 1) ((s.link k).drop + 1) }
    (((s.link k).carries = false ∨ readFrame fr = none) → exec (.ingestFrame port fr) s = .next s) ∧
    ((s.link k).carries = true → ∀ dg, readFrame fr = some dg →
      ((dg.fragment = true ∨ dg.badChecksum = true ∨ ingestWell s dg.dstPort = none) →
        exec (.ingestFrame port fr) s = .next dropped) ∧
      (dg.fragment = false → dg.badChecksum = false → ∀ wl, ingestWell s dg.dstPort = some wl →
        (wellFrame wl (s.well wl).sbytes dg.payload = none → exec (.ingestFrame port fr) s = .next dropped) ∧
        ∀ f c, wellFrame wl (s.well wl).sbytes dg.payload = some (f, c) →
          (2 ^ 63 ≤ f + c → exec (.ingestFrame port fr) s = .next dropped) ∧
          (f + c < 2 ^ 63 → let waits := ∃ x ∈ (s.well wl).exts, x.held = false; let d := drawNat s
            let u := if waits then d.2 else s
            let taken := if f + c ≤ (s.well wl).head then addStale u wl c else frameStep u wl f (f + c) (some (dg.payload.drop 24))
            ((¬ waits ∨ d.1 % 2 = 0) → exec (.ingestFrame port fr) s = .next taken) ∧
            (waits → d.1 % 2 = 1 → exec (.ingestFrame port fr) s = .next (dropFlits u k 1)))))) ∧
  (∀ fr, (fr.length < 14 ∨ 9216 < fr.length) → readFrame fr = none) ∧
  (∀ fr, 14 ≤ fr.length → fr.length ≤ 9216 → let ty := netField fr 12 2
    (ty = 0x0800 → readFrame fr = readIpv4 (fr.drop 14)) ∧ (ty = 0x86DD → readFrame fr = readIpv6 (fr.drop 14)) ∧
    (ty = 0x8100 → 18 ≤ fr.length →
      (netField fr 16 2 = 0x0800 → readFrame fr = readIpv4 (fr.drop 18)) ∧
      (netField fr 16 2 = 0x86DD → readFrame fr = readIpv6 (fr.drop 18)))) ∧
  (∀ b dg, readIpv4 b = some dg → netField b 0 1 / 16 = 4 ∧
    (dg.fragment = true ↔ netField b 6 2 % 2 ^ 14 ≠ 0) ∧
    (dg.fragment = false → dg.badChecksum = false → onesSum (b.take (4 * (netField b 0 1 % 16))) = 0xFFFF ∧ netField b 9 1 = 17 ∧
      readUdp ((b.drop 12).take 8) ((b.take (netField b 2 2)).drop (4 * (netField b 0 1 % 16))) true = some dg)) ∧
  (∀ b, netField b 0 1 / 16 = 6 → netField b 4 2 + 40 ≤ b.length → netField b 6 1 = 17 →
    readIpv6 b = readUdp ((b.drop 8).take 32) ((b.drop 40).take (netField b 4 2)) false) ∧
  (∀ addrs u v4 dg, readUdp addrs u v4 = some dg → let n := netField u 4 2
    8 ≤ n ∧ n ≤ u.length ∧ dg.dstPort = netField u 2 2 ∧ dg.payload = (u.take n).drop 8 ∧ dg.fragment = false ∧
    (dg.badChecksum = true ↔ if netField u 6 2 = 0 then v4 = false
      else onesSum (addrs ++ (byteList 4 n).reverse ++ [0, 0, 0, 17] ++ u.take n) ≠ 0xFFFF)) ∧
  (∀ wl sb b f c, wellFrame wl sb b = some (f, c) ↔ 24 ≤ b.length ∧ Machine.field b 0 2 = 0x5746 ∧ Machine.field b 2 1 % 64 = wl ∧
    Machine.field b 2 1 / 64 = 0 ∧ Machine.field b 3 1 = 1 ∧ Machine.field b 4 4 = c ∧ 1 ≤ c ∧ c * sb = b.length - 24 ∧
    Machine.field b 8 8 = f ∧ Machine.field b 0x10 8 / 2 ^ 4 % 2 ^ 4 = 0 ∧ Machine.field b 0x10 8 / 2 ^ 9 = 0) ∧
  (∀ (s : State) port, ingestWell s port = none ↔ ∀ p ∈ s.wells, ¬ (p.2.state = .armed ∧ port ≠ 0 ∧ p.2.ingp.toNat = port)) ∧
  (∀ (s : State) wl f e bs, ((frameStep s wl f e bs).well wl).head = e) ∧
  (∀ (s : State) wl e, let u := s.modWell wl fun w => { w with head := e }
    setHead s wl e = lookTriggers (touchMonitors (portWrite u wl 0 (byteList 4 (e % 2 ^ 32))) (s.well wl).port 288) wl) ∧
  (∀ (s : State) wl k t, kfind s.triggers k = some t → kfind (lookTriggers s wl).triggers k =
    some (if t.kind = 1 ∧ t.well.toNat = wl then t.look s else t)) ∧
  (∀ (s : State) wl v rest, let w := s.well wl; let u := s.modWell wl fun w => { w with pubs := rest }
    let d := (v - BitVec.ofNat 32 w.head).toNat
    w.pubs = v :: rest →
    (w.state ≠ .armed → exec (.publish wl) s = .next u) ∧
    (w.state = .armed → 1 ≤ d → d ≤ 2 ^ w.log2n → d < 2 ^ 31 → w.head + d < 2 ^ 63 →
      exec (.publish wl) s = .next (frameStep u wl w.head (w.head + d) none)) ∧
    (w.state = .armed → (d = 0 ∨ 2 ^ w.log2n < d ∨ 2 ^ 31 ≤ d) → exec (.publish wl) s = .next (addStale u wl 1))) ∧
  (∀ (s : State) wl, (s.well wl).pubs = [] → exec (.publish wl) s = .next s) ∧
  (∀ (s : State) wl b rest, let w := s.well wl; let u := s.modWell wl fun w => { w with candIn := rest }
    w.candIn = b :: rest →
    (w.state ≠ .armed → exec (.candidateWrite wl) s = .next u) ∧
    (w.state = .armed → w.cands.length = 256 → exec (.candidateWrite wl) s = .next (reportLost
      (u.modWell wl fun w => { w with causeR := true }) wl (BitVec.ofNat 64 (Machine.field b 0 8)))) ∧
    (w.state = .armed → w.cands.length < 256 → ∃ slot, slot < 256 ∧ (∀ c ∈ w.cands, c.slot ≠ slot) ∧
      exec (.candidateWrite wl) s = .next (u.modWell wl fun w => { w with
        cands := w.cands ++ [{ slot := slot, seq := w.nextSeq, t := BitVec.ofNat 64 (Machine.field b 0 8)
                               score := BitVec.ofNat 32 (Machine.field b 8 4), pre := BitVec.ofNat 16 (Machine.field b 12 2)
                               cls := BitVec.ofNat 3 (Machine.field b 14 1) }]
        nextSeq := w.nextSeq + 1 }))) ∧
  (∀ (s : State) wl, (s.well wl).candIn = [] → exec (.candidateWrite wl) s = .next s) ∧
  (∀ cs c, bestCandidate cs = some c → c ∈ cs ∧ ∀ d ∈ cs, c.first ≤ d.first) ∧
  (∀ cs, bestCandidate cs = none ↔ cs = [])

/-- R351 to R360: a verdict takes its candidate out of the ring; an accept gives a claim in an extent, or says why there is none; what
spills before it is copied is lost. -/
def Sys2Proof.Spec.Claims : Prop :=
  (∀ (s : State) wl ticket verdict, let w := s.well wl
    let c := w.cands.find? fun c => c.slot == bits ticket 0 8 && c.seq.toNat == bits ticket 8 24
    let u := fun c : Candidate => s.modWell wl fun w => { w with cands := w.cands.filter (fun d => d.slot != c.slot), causeR := false }
    ((ticket.testBit 63 = false ∨ w.state ≠ .armed ∨ c = none) → judgeTicket s wl ticket verdict = (0, s)) ∧
    (ticket.testBit 63 = true → w.state = .armed → ∀ x, c = some x →
      (verdict.testBit 0 = false → judgeTicket s wl ticket verdict = (2 ^ 63 + 6 * 2 ^ 56, u x)) ∧
      (verdict.testBit 0 = true → judgeTicket s wl ticket verdict = claimWindow (u x) wl x.cls.toNat x.t.toInt
        (if verdict.testBit 1 = true then bits verdict 32 16 else x.pre.toNat) (bits verdict 16 16)))) ∧
  (∀ (s : State) wl cls (t : Int) (pre post : Nat), let w := s.well wl; let lo := t - pre; let hi := t + post; let lo2 := max lo w.spill
    let met := if w.merge.getLsbD cls = true then meetingExtent w cls lo2 hi else none
    (hi < w.spill → ∃ u, claimWindow s wl cls t pre post =
      (2 ^ 63 + 5 * 2 ^ 56 + min (2 ^ 24 - 1) (pre + post + 1) * 2 ^ 32 + w.nextId % 2 ^ 16, u) ∧
      (u.well wl).nextId = w.nextId % 65535 + 1 ∧ (u.well wl).exts = w.exts) ∧
    (w.spill ≤ hi → met = none → w.maxext ≤ w.exts.length → claimWindow s wl cls t pre post =
      (2 ^ 63 + 7 * 2 ^ 56, reportLost (s.modWell wl fun w => { w with causeE := true }) wl (BitVec.ofInt 64 t))) ∧
    (w.spill ≤ hi → met = none → w.exts.length < w.maxext → claimWindow s wl cls t pre post =
      drawClaim (s.modWell wl fun w => { w with
        exts := w.exts ++ [{ no := w.nextExt, cls := BitVec.ofNat 3 cls, a := lo2, b := hi, todo := [(lo2, hi)] }]
        nextExt := w.nextExt % 65535 + 1 }) wl cls
        { no := w.nextExt, cls := BitVec.ofNat 3 cls, a := lo2, b := hi, todo := [(lo2, hi)] } lo hi lo2) ∧
    (w.spill ≤ hi → ∀ x, met = some x → claimWindow s wl cls t pre post =
      drawClaim (modExtent s wl x.no fun y => y.join lo2 hi) wl cls x lo hi lo2)) ∧
  (∀ (w : Well) cls lo hi x, meetingExtent w cls lo hi = some x → x ∈ w.exts ∧ x.cls.toNat = cls ∧ x.a ≤ hi + 1 ∧ lo ≤ x.b + 1 ∧
    ∀ y ∈ w.exts, y.cls.toNat = cls → y.a ≤ hi + 1 → lo ≤ y.b + 1 → x.no ≤ y.no) ∧
  (∀ (x : Extent) lo hi, (x.join lo hi).a = min x.a lo ∧ (x.join lo hi).b = max x.b hi) ∧
  (∀ (c : Claim) no f l, c.lose no f l = if c.ext = no ∧ 0 < (min l c.hi - max f c.lo + 1).toNat then { c with
    lostn := c.lostn + (min l c.hi - max f c.lo + 1).toNat
    state := if c.state = 1 ∨ c.state = 2 then 4 else c.state } else c) ∧
  (∀ (s : State) wl, ((s.well wl).state = .closed → exec (.drawCopy wl) s = .next s) ∧
    ((s.well wl).state ≠ .closed → exec (.drawCopy wl) s = .next (drawStep s wl))) ∧
  (∀ (s : State) wl v rest, let w := s.well wl
    w.rdIn = v :: rest → exec (.rdposWrite wl) s = .next (s.modWell wl fun x => { x with
      rdIn := rest, rdpos := if w.rdpos ≤ v.toNat ∧ v.toNat ≤ w.wrpos then v.toNat else w.rdpos })) ∧
  (∀ (s : State) wl, (s.well wl).rdIn = [] → exec (.rdposWrite wl) s = .next s) ∧
  (∀ last (x : Extent), let y := x.cut last
    (x.b ≤ last → y = x) ∧ (last < x.b → y.b = last ∧ ∀ p ∈ y.todo, p.2 ≤ last)) ∧
  (∀ (s : State) wl, let w := s.well wl
    (w.state = .closing → w.exts = [] → w.recs = [] → ((settleWell s wl).well wl).state = .closed) ∧
    (w.state = .closing → (w.exts ≠ [] ∨ w.recs ≠ []) → ((settleWell s wl).well wl).state = .closing)) ∧
  (∀ (s : State) wl no f l, let w := s.well wl
    l < w.spill → f ≤ l → (copySpan s wl no f l).1 = none ∧ (copySpan s wl no f l).2.2 = loseSpan s wl no f l)

/-- R341 to R346, R348, R349 and R351 to R360.
Where the spec leaves room, it states the model's reading: log entries 59, 60, 88, 104 and 119. -/
def Obligations.WellEvents : Prop := WellFrames ∧ Claims

/-! ### Power -/

/-- R211, R212, R214 and R366 to R369: an interval of 1000 ns starts, hints enter, ramp and leave, the shares of each context are
set; 64 doses follow. -/
def Sys2Proof.Spec.Charge : Prop :=
  (∀ (s : State), let t := 1000 * s.interval
    ((s.nstime < t ∨ (s.interval ≠ 0 ∧ s.doses ≠ 64)) → exec .chargeIntervalStart s = .next s) ∧
    (t ≤ s.nstime → (s.interval = 0 ∨ s.doses = 64) →
      let u : State := if s.interval = 0 then s else endInterval s (t - 1000)
      let ramped (v : State) : State := { v with hints := v.hints.map fun p => (p.1, rampTable t p.2) }
      let v := ramped u
      let w := v.hintReqs.foldl (enterHint t) { v with hintReqs := [] }
      exec .chargeIntervalStart s = .next { allShares (ramped w) with interval := w.interval + 1, doses := 0 })) ∧
  (∀ (s : State), let t := 1000 * (s.interval - 1)
    ((s.interval = 0 ∨ 64 ≤ s.doses ∨ 64 * (s.nstime - t) < 1000 * s.doses) → exec .chargeDose s = .next s) ∧
    (s.interval ≠ 0 → s.doses < 64 → 1000 * s.doses ≤ 64 * (s.nstime - t) → ∃ u, exec .chargeDose s = .next u ∧
      u.doses = s.doses + 1 ∧ u.interval = s.interval ∧
      (∀ k x, kfind s.tiles k = some x → let d := kget s.tileDose k 0; let y := u.tile k
        (x.todo = [] → y = { x with balance := min 4096 (x.balance + d) }) ∧
        (x.todo ≠ [] → y = { x with doseDue := x.doseDue + d })) ∧
      ∀ k x, kfind s.islands k = some x → u.island k = { x with balance := min 65536 (x.balance + kget s.islDose k 0) })) ∧
  (∀ (s : State) die c, exec (.hintRampStep die c) s = .next { s with
    hints := kput s.hints (c * 4 + die) (((kget s.hints (c * 4 + die) []).filter fun h => decide (s.nstime < h.stop)).map
      (Hint.ramp s.nstime)) }) ∧
  (∀ (h : Hint) now, (h.ramp now).cur = h.int * (h.ramp now).steps / 8 ∧ (h.ramp now).steps ≤ 8 ∧
    (h.issue ≤ now → h.start ≤ now → (h.ramp now).steps = 8 ∧ (h.ramp now).told = true) ∧
    (now < h.start - 1750 → (h.ramp now).steps = 0)) ∧
  (∀ (s : State) issue q, let k := q.ctx * 4 + q.die; let l := kget s.hints k []
    l.length < 8 → enterHint issue s q = { s with hints := kput s.hints k (l ++ [{
      start := issue + 1000 * q.onset, stop := issue + 1000 * q.onset + 1000 * q.len, int := q.int, issue := issue
      region := q.region, run := q.run }]) }) ∧
  (∀ (s : State) issue q, let k := q.ctx * 4 + q.die
    8 ≤ (kget s.hints k []).length →
    (q.region = none → enterHint issue s q = hwNotice { s with hdrops := kput s.hdrops k (kget s.hdrops k 0 + 1) } q.ctx q.die 4) ∧
    ∀ key, q.region = some key → enterHint issue s q = hwNotice (if (∃ r, s.region key = some r ∧ r.runId = q.run)
      then countPower (fun p => { p with hdrop := p.hdrop + 1 }) s key else s) q.ctx q.die 4) ∧
  (∀ (s : State) c die run k, k ∈ hintKernels s c die run none ↔ ∃ p ∈ s.regions, p.1 = k ∧ p.2.ctx = c ∧ p.2.die = die ∧
    p.2.kernel = .firing ∧ p.2.worked = true) ∧
  (∀ (s : State) t e plane slot (m : Admitted) i dep, slotAt s t e plane slot = .rule i dep → let cost := costOf (opcodeOf i)
    (deniedOnly s t e plane slot m = true ↔ m.balance < cost ∧ roomFor s t e i = true ∧
      admitSlot s t e plane slot { m with balance := cost } ≠ none)) ∧
  (∀ (s : State) c die, let r := shares s c die; let b0 := ((s.ctx c).grants.toList.getD die {}).budget.toNat
    let b := if s.t2.getLsbD die = true ∨ s.t2.getLsbD 4 = true then b0 / 2 else b0
    64 * r.1.1.length * r.1.2 + 64 * r.2.1.length * r.2.2 ≤ b)

/-- R370 to R374: spines step by 50 MHz, at most once in a microsecond, toward where they go; a tile that has waited 16 rounds runs on
its new spine; thermal trips. -/
def Sys2Proof.Spec.SpinesAndTrips : Prop :=
  (∀ (s : State) k, let x := s.spine k; let goal := x.goal s.slackK (s.t2.getLsbD (k / 8) || s.t2.getLsbD 4)
    ((32 ≤ k ∨ s.nstime < x.stepAt + 1000 ∨ x.run = goal) → exec (.spineFreqStep k) s = .next (answerSpine s k)) ∧
    (k < 32 → x.stepAt + 1000 ≤ s.nstime → x.run ≠ goal → exec (.spineFreqStep k) s = .next (answerSpine
      { s with spines := kput s.spines k { x with
        run := if x.run < goal then min goal (x.run + 50) else max goal (x.run - 50), stepAt := s.nstime } } k))) ∧
  (∀ (x : Spine) k hot, let floor := max 300 (x.set / 100 * 50)
    x.goal k hot = if hot = true then floor else max (x.set - 50 * k) floor) ∧
  (∀ (s : State) k, let x := s.spine k
    (x.owed = none → answerSpine s k = s) ∧ (x.run ≠ x.set → answerSpine s k = s) ∧
    ∀ o, x.owed = some o → x.run = x.set →
      answerSpine s k = replyTo { s with spines := kput s.spines k { x with owed := none } } o 0 0 0) ∧
  (∀ (s : State) t sp, (s.tile t).switching = some (0, sp) →
    let u := s.modTile t fun x => { x with spine := sp, switching := none }
    (regionOf u t = none → exec (.spineSwitchComplete t) s = .next u) ∧
    ∀ key r, regionOf u t = some key → u.region key = some r →
      ((∃ v ∈ r.sites, (u.tile v).switching ≠ none) → exec (.spineSwitchComplete t) s = .next u) ∧
      ((∀ v ∈ r.sites, (u.tile v).switching = none) → exec (.spineSwitchComplete t) s =
        .next (replyAll (u.setRegion key { r with spineOwed := [] }) r.spineOwed 0 0))) ∧
  (∀ (s : State) t, (∀ sp, (s.tile t).switching ≠ some (0, sp)) → exec (.spineSwitchComplete t) s = .next s) ∧
  (∀ (s : State) die, let bit := BitVec.ofNat 5 (2 ^ die)
    ((4 < die ∨ s.t1.getLsbD die = true) → exec (.t1 die) s = .next s) ∧
    (die ≤ 4 → s.t1.getLsbD die = false → exec (.t1 die) s =
      .next (sendMsix ((tripDies die).foldl (thermalNotice 2) { s with t1 := s.t1 ||| bit }) 68)) ∧
    ((4 < die ∨ s.t2.getLsbD die = true) → exec (.t2 die) s = .next s) ∧
    (die ≤ 4 → s.t2.getLsbD die = false → exec (.t2 die) s = .next (sendMsix ((diesSpines (tripDies die)).foldl takeOver
      ((tripDies die).foldl (thermalNotice 3) { s with t2 := s.t2 ||| bit })) 68)) ∧
    exec (.t3 die) s = .next (serveCtx ((s.ctxs.map Prod.fst).foldl tripCtx { s with t3 := s.t3 ||| bit })) ∧
    exec (.t4 die) s = .next { s with powerOff := true }) ∧
  (∀ d, d < 4 → tripDies d = [d]) ∧ tripDies 4 = [0, 1, 2, 3] ∧
  (∀ (m : BitVec 5) die, tripped m die = true ↔ m.getLsbD die = true ∨ m.getLsbD 4 = true) ∧
  (∀ (s : State) c, tripCtx s c = if c = 0 then s else { s with ctxq := s.ctxq ++ [(c, .trip, false)] }) ∧
  (∀ (s : State) c, s.ctxq = [(c, .trip, false)] → let x := s.ctx c
    ((x.state = .ready ∨ x.state = .running) → serveCtx s = markJob (freezeCtx s c)) ∧
    (c ≠ 0 → x.state = .frozen → serveCtx s = markJob (startShoot (resetBarriers s c) .tlbi (.ctx c) none)) ∧
    (x.state ≠ .ready → x.state ≠ .running → x.state ≠ .frozen → serveCtx s = { s with ctxq := [] })) ∧
  (∀ (s : State) die, let bit := BitVec.ofNat 5 (2 ^ die)
    exec (.thermalClear die 1) s = .next { s with t1 := s.t1 &&& ~~~bit } ∧
    exec (.thermalClear die 2) s = .next ((diesSpines (tripDies die)).foldl takeOver { s with t2 := s.t2 &&& ~~~bit }) ∧
    exec (.thermalClear die 3) s = .next { s with t3 := s.t3 &&& ~~~bit } ∧
    exec (.thermalClear die 4) s = .next s)

/-- R211, R212, R214 and R366 to R374.
Where the spec leaves room, it states the model's reading: log entries 61 and 62. -/
def Obligations.PowerEvents : Prop := Charge ∧ SpinesAndTrips

/-! ### Boot, identity, measurement -/

/-- An SPDM message of version 1.3 (R395; log entry 16). -/
def Sys2Proof.Spec.message (code p1 p2 : Nat) (data : List Byte) : List Byte :=
  [BitVec.ofNat 8 0x13, BitVec.ofNat 8 code, BitVec.ofNat 8 p1, BitVec.ofNat 8 p2] ++ data

/-- A state that has sent an SPDM response of a code. -/
def Sys2Proof.Spec.Answered (i : Instr) (s : State) (code : Nat) : Prop :=
  ∃ t p1 p2 data, exec i s = .next t ∧ t.sent = s.sent ++ [.spdm code (message code p1 p2 data)] ∧ t.bootstat = s.bootstat ∧
    t.mem = s.mem ∧ t.ctxs = s.ctxs

/-- R393 and R394: the boot trains the host link, to a width that nothing fixes (log entry 78), verifies the firmware and then the key
list, trains the near tier and then the far tier, publishes the fuse maps, creates context 0 and is READY; it stops at the first step
that fails, with its number and a code. -/
def Sys2Proof.Spec.Boots : Prop :=
  ∀ (s : State) b, let fw := rsaVerify Config.rootKey b.firmware b.firmwareSig
    let kl := rsaVerify Config.rootKey b.keyList b.keyListSig
    ∃ t, exec (.boot b) s = .next t ∧ t.mem = s.mem ∧ t.deep = s.deep ∧ t.regions = [] ∧ t.powerOff = false ∧
      ((t.link 0).en = true ∧ (t.link 0).carries = true) ∧
      t.bootstat = (if fw = false then { code := 0x11, ready := false, step := 2 }
        else if kl = false then { code := 0x11, ready := false, step := 3 }
        else if b.nearTrains = false then { code := 6, ready := false, step := 4 }
        else if b.farTrains = false then { code := 6, ready := false, step := 5 }
        else { code := 0, ready := true, step := 7 }) ∧
      (t.bootstat.ready = false → t.ctxs = []) ∧
      (t.bootstat.ready = true → t.ctxs = [(0, { state := .ready })] ∧
        (∀ d : Fin 4, t.fused[d] = Config.fuseMap d.val) ∧ kfind t.keys 0 = some Config.rootKey ∧
        t.meas = [(1, sha512 Config.hubRom), (2, sha512 b.firmware), (3, sha512 b.keyList),
          (4, sha512 ((List.finRange 4).flatMap fun d => byteList 48 (Config.fuseMap d.val).toNat))])

/-- R395 and R396, in the bytes of log entry 16: an SPDM request before READY is answered Busy, one ahead of its place in the negotiation
as unexpected; each other with its own response. -/
def Sys2Proof.Spec.Spdm : Prop :=
  (∀ (s : State) rq, s.bootstat.ready = false →
    ∀ i ∈ [Instr.getVersion rq, .getCapabilities rq, .negotiateAlgorithms rq, .getDigests rq, .getCertificate rq, .challenge rq,
      .getMeasurements rq], exec i s = .next { s with sent := s.sent ++ [.spdm 0x7F (message 0x7F 3 0 [])] }) ∧
  (∀ (s : State) rq, s.bootstat.ready = true →
    (s.spdm < 1 → exec (.getCapabilities rq) s = .next { s with sent := s.sent ++ [.spdm 0x7F (message 0x7F 4 0 [])] }) ∧
    (s.spdm < 2 → exec (.negotiateAlgorithms rq) s = .next { s with sent := s.sent ++ [.spdm 0x7F (message 0x7F 4 0 [])] }) ∧
    (s.spdm < 3 → ∀ i ∈ [Instr.getDigests rq, .getCertificate rq, .challenge rq, .getMeasurements rq],
      exec i s = .next { s with sent := s.sent ++ [.spdm 0x7F (message 0x7F 4 0 [])] })) ∧
  (∀ (s : State) rq, s.bootstat.ready = true →
    (∃ t, exec (.getVersion rq) s = .next t ∧ t.spdm = 1 ∧ ∃ m, t.sent = s.sent ++ [.spdm 4 m] ∧ m.length = 8) ∧
    (1 ≤ s.spdm → Answered (.getCapabilities rq) s 0x61) ∧
    (2 ≤ s.spdm → Answered (.negotiateAlgorithms rq) s 0x63) ∧
    (3 ≤ s.spdm → ∃ t, exec (.getDigests rq) s = .next t ∧
      t.sent = s.sent ++ [.spdm 1 (message 1 1 1 (sha512 Config.certChain))]) ∧
    (3 ≤ s.spdm → rq.param1 % 16 = 0 → ∃ t, exec (.getCertificate rq) s = .next t ∧
      let part := (Config.certChain.drop (Machine.field rq.data 0 2)).take (Machine.field rq.data 2 2)
      t.sent = s.sent ++ [if Machine.field rq.data 0 2 < Config.certChain.length then
        .spdm 2 (message 2 0 0 (byteList 2 part.length ++
          byteList 2 (Config.certChain.length - Machine.field rq.data 0 2 - part.length) ++ part))
        else .spdm 0x7F (message 0x7F 1 0 [])]) ∧
    (3 ≤ s.spdm → rq.param1 = 0 → Answered (.challenge rq) s 3) ∧
    (3 ≤ s.spdm → (rq.param2 ≤ 4 ∨ rq.param2 = 0xFF) → Answered (.getMeasurements rq) s 0x60))

/-- R393 to R396.
Where the spec leaves room, it states the model's reading: log entries 16 and 78. -/
def Obligations.BootAndIdentity : Prop := Boots ∧ Spdm

/-! ### Words, steps, reset, invariants -/

/-- R88, R90 to R97 and R103: every well-formed instruction that has a word decodes from it, with every operand at every value its
encoding admits; and a word that decodes is the word of its instruction, which is well formed. -/
def Obligations.EncodeDecode : Prop :=
  (∀ i w, i.wellFormed = true → encode i = some w →
    (i.operands.isSome = true → decodeElem w = .ok i) ∧ (i.operands.isSome = false → decodePump w = .ok i)) ∧
  (∀ w i, decodeElem w = .ok i → encode i = some w ∧ i.wellFormed = true ∧ w.getLsbD 63 = true) ∧
  (∀ w i, decodePump w = .ok i → encode i = some w ∧ i.wellFormed = true) ∧
  (∀ i j w, i.wellFormed = true → j.wellFormed = true → i.operands.isSome = j.operands.isSome → encode i = some w →
    encode j = some w → i = j)

/-- R89 to R100: words of the spec's worked examples stand for the instructions it gives. -/
def Obligations.SampleWords : Prop :=
  decodeElem 0x8000000F720C3010 = .ok (.cntImm { pcare := 0, pval := 0, qtest := none, htag := none, upd := some ⟨.load, 2⟩ } (.x 3) (.x 3) 16) ∧
  decodeElem 0x80000004F1700042 = .ok
    (.cmp { pcare := 0, pval := 0, qtest := none, htag := none, upd := some ⟨.load, 1⟩ } .lt false .discard (.x 0) (.x 1)) ∧
  decodeElem 0x8000001000490441 = .ok
    (.vadd { pcare := 0, pval := 0, qtest := none, htag := none, upd := none } .bf16 (.v 2) (.v 0) (.v 1)) ∧
  decodePump 0x2010518010000000 = .ok (.div ⟨none⟩ .w32 4 5 (.reg 6)) ∧
  decodePump 0xC008000000000002 = .ok (.sysr ⟨none⟩ 2 2)

/-- R44, R48, R50, R88 and R278: a step runs the instruction that stands where its agent reads next: the rule of a tile's round, the body word
of a lane, or a step of the hardware; after it, each trigger watches the word that its address then leads to.
Where the spec leaves room, it states the model's reading: log entries 4, 105 and 111. -/
def Obligations.StepRunsDecoded : Prop :=
  (∀ (s : State) t e slot dep q rest o i more, s.agenda = .tile t :: more → s.powerOff = false → present s t = true →
    (s.tile t).todo = .fire e slot dep q :: rest →
    let plane := (s.elem t e).plane.toNat
    let u := { s with agenda := more }.modTile t fun x => { x with todo := rest }
    let v : State := { u with actor := { u.actor with tile := t, elem := e, plane := plane, slot := slot } }
    decodeElem (slotWord (s.elem t e) plane slot) = .ok i → i.operands = some o →
    (s.tile t).badEcc.contains (64 * e + 16 * plane + slot) = false → slotLegal v t e i = true →
    ∀ w, exec i v = .next w →
      (ready v i o = true → (w.elem t e).faulted = false → step s = .next (rewatch w)) ∧
      ((ready v i o = false ∨ (w.elem t e).faulted = true) → step s = .next (rewatch (dropDependents w t e)))) ∧
  (∀ (s : State) w, (∀ i, decodePump w = .ok i → runWord w s = exec i s) ∧
    (∀ e, decodePump w = .error e → runWord w s = .next (meetIllegalRule s s.actor.core (bodyLane s).rule))) ∧
  (∀ (s : State) cn k l more, s.agenda = .core cn :: more → s.powerOff = false → coreExists cn = true →
    let u := (drawNat { s with agenda := more }).2
    coreChoices u cn = [.lane k] → (s.core cn).lanes[k]? = some l → (l.pc ≠ 0 ∨ ruleLegal (s.core cn) l.rule = true) →
    step s = afterStep (runWord (laneWord (s.core cn) l) { u with actor := { u.actor with core := cn, lane := k } })) ∧
  (∀ (s : State) i more, s.agenda = .event i :: more → s.powerOff = false → encode i = none →
    step s = afterStep (exec i { s with agenda := more })) ∧
  (∀ (s : State) n more, s.agenda = .tick n :: more → s.powerOff = false →
    step s = .next (rewatch (passTime n { s with agenda := more }))) ∧
  (∀ s, afterStep (.next s) = .next (rewatch s)) ∧
  (∀ s, rewatch s = { s with triggers := (rewatch s).triggers }) ∧
  (∀ (s : State) bk t, kfind s.triggers bk = some t → kfind (rewatch s).triggers bk = some (t.rewatch s bk))

/-- R16, R263, R269, R333, R343, R365, R390, R393 and R394: the machine when reset is released, in what the spec states.
Where the spec leaves room, it states the model's reading: log entries 1 and 17. -/
def Obligations.ResetState : Prop :=
  let s := State.reset
  memOk s = true ∧ s.nstime = 0 ∧ s.bootstat.ready = false ∧ s.bootstat.word = 0 ∧ s.powerOff = false ∧
  (∀ c, (s.ctx c).state = .free ∧ (s.ctx c).statusWord = 0) ∧
  (∀ q, (s.queue q).state = .off ∧ ∀ o, (s.queue q).reg o = 0) ∧
  (∀ k, (s.link k).state = .down ∧ (s.link k).en = false ∧ (s.link k).held = []) ∧
  (∀ d o, (kget s.rings d {}).reg o = 0) ∧
  (∀ o, s.errlog.reg o = if o = 0x28 then 1000000 else 0) ∧
  (∀ w, (s.well w).state = .closed) ∧
  (∀ k, (s.spine k).run = 1200 ∧ (s.spine k).set = 1200) ∧
  (∀ t, (s.tile t).spine = 0 ∧ (s.tile t).balance = 0 ∧ (s.tile t).core.aptr = 0) ∧
  (∀ en, (s.island en).balance = 0 ∧ (s.island en).core.cfg = none ∧ istat (s.island en) = 0) ∧
  (∀ c (k : Fin 64), (s.core c).g[k] = 0) ∧ (∀ t e (k : Fin 16), (s.elem t e).core.x[k] = 0)

/-- Every step keeps the memories in their canonical form: the near and far tiers, the deep tier and host memory hold rising
addresses, none twice, none with the byte that an unlisted address reads as.
Where the spec leaves room, it states the model's reading: log entry 2. -/
def Obligations.StepKeepsMemories : Prop := ∀ s s', memOk s = true → step s = .next s' → memOk s' = true

/-- R372: a step always comes to a next state, but for a module whose power has been removed, which nothing but a boot leaves.  No
instruction and no step of the hardware is a fault or a refusal.
Where the spec leaves room, it states the model's reading: log entry 4. -/
def Obligations.StepsAnswer : Prop :=
  (∀ i s, ∃ t, exec i s = .next t) ∧
  (∀ s, s.powerOff = false → ∃ t, step s = .next t) ∧
  (∀ s, s.powerOff = true → ((nextWork s).1.any Work.isBoot = false → step s = .fault .powerOff) ∧
    ((nextWork s).1.any Work.isBoot = true → ∃ t, step s = .next t ∧ t.powerOff = false))
end

