-- ==== Sys2Proof/Laws/Codes.lean ====
section
/-! SUPPORT. The laws of codes and fields: every code is read back as what it stands for and fits its field, and the
fields of a word are read back from it. -/

namespace Sys2Proof

/-! ### Codes -/

theorem bit_le (b : Bool) : bit b ≤ 1 := by cases b <;> decide
theorem nBit_le (b : Bool) : nBit b ≤ 8 := by cases b <;> decide
@[simp] theorem bit_eq_one (b : Bool) : (bit b == 1) = b := by cases b <;> rfl

theorem AtomOp.code_lt (c : AtomOp) : c.code < 8 := by cases c <;> decide
@[simp] theorem AtomOp.ofCode_code (c : AtomOp) : AtomOp.ofCode c.code = c := by cases c <;> rfl
theorem Fmt.code_lt (c : Fmt) : c.code < 13 := by cases c <;> decide
@[simp] theorem Fmt.ofCode_code (c : Fmt) : Fmt.ofCode c.code = some c := by cases c <;> rfl
theorem LaneW.code_lt (c : LaneW) : c.code < 3 := by cases c <;> decide
@[simp] theorem LaneW.ofCode_code (c : LaneW) : LaneW.ofCode c.code = some c := by cases c <;> rfl
theorem LogicOp.code_lt (c : LogicOp) : c.code < 8 := by cases c <;> decide
@[simp] theorem LogicOp.ofCode_code (c : LogicOp) : LogicOp.ofCode c.code = c := by cases c <;> rfl
theorem MemW.code_lt (c : MemW) : c.code < 3 := by cases c <;> decide
@[simp] theorem MemW.ofCode_code (c : MemW) : MemW.ofCode c.code = some c := by cases c <;> rfl
theorem PumpW.code_lt (c : PumpW) : c.code < 4 := by cases c <;> decide
@[simp] theorem PumpW.ofCode_code (c : PumpW) : PumpW.ofCode c.code = c := by cases c <;> rfl
theorem RedKind.code_lt (c : RedKind) : c.code < 3 := by cases c <;> decide
@[simp] theorem RedKind.ofCode_code (c : RedKind) : RedKind.ofCode c.code = some c := by cases c <;> rfl
theorem Rel.code_lt (c : Rel) : c.code < 6 := by cases c <;> decide
@[simp] theorem Rel.ofCode_code (c : Rel) : Rel.ofCode c.code = some c := by cases c <;> rfl
theorem Rnd.code_lt (c : Rnd) : c.code < 5 := by cases c <;> decide
@[simp] theorem Rnd.ofCode_code (c : Rnd) : Rnd.ofCode c.code = some c := by cases c <;> rfl
theorem Scope.code_lt (c : Scope) : c.code < 6 := by cases c <;> decide
@[simp] theorem Scope.ofCode_code (c : Scope) : Scope.ofCode c.code = some c := by cases c <;> rfl
theorem ShOp.code_lt (c : ShOp) : c.code < 4 := by cases c <;> decide
@[simp] theorem ShOp.ofCode_code (c : ShOp) : ShOp.ofCode c.code = c := by cases c <;> rfl
theorem VLogOp.code_lt (c : VLogOp) : c.code < 5 := by cases c <;> decide
@[simp] theorem VLogOp.ofCode_code (c : VLogOp) : VLogOp.ofCode c.code = some c := by cases c <;> rfl
theorem VTest.code_lt (c : VTest) : c.code < 4 := by cases c <;> decide
@[simp] theorem VTest.ofCode_code (c : VTest) : VTest.ofCode c.code = c := by cases c <;> rfl
theorem PredOp.code_lt (c : PredOp) : c.code < 4 := by cases c <;> decide
@[simp] theorem PredOp.ofCode_code (c : PredOp) : PredOp.ofCode c.code = c := by cases c <;> rfl

theorem fin_val (n : Nat) [NeZero n] (k : Fin n) : fin n k.val = k := by
  simp [fin, Fin.ofNat_eq_cast]
theorem fin_add (n a : Nat) [NeZero n] (k : Fin n) (h : a % n = 0) : fin n (a + k.val) = k := by
  apply Fin.ext
  simp [fin, Fin.ofNat, Nat.add_mod, h, Nat.mod_eq_of_lt k.isLt]

theorem Src.code_lt (a : Src) : a.code < 64 := by
  cases a <;> simp only [Src.code] <;> omega
theorem Dst.code_lt (d : Dst) : d.code < 64 := by
  cases d <;> simp only [Dst.code] <;> omega
theorem Src.deqBit_le (a : Src) : a.deqBit ≤ 1 := bit_le _
theorem optCode_lt (b : Option Src) : optCode b < 64 := by
  cases b with
  | none => decide
  | some b => exact b.code_lt
theorem optDeqBit_le (b : Option Src) : optDeqBit b ≤ 1 := by
  cases b with
  | none => decide
  | some b => exact b.deqBit_le

/-- Every source operand is read back from its code and its caret (R91). -/
@[simp] theorem Src.ofCode_code (a : Src) : Src.ofCode a.code a.deq = some a := by
  cases a with
  | x n => simp [Src.ofCode, Src.code, n.isLt, fin_val]
  | v n => have := n.isLt; simp [Src.ofCode, Src.code, show 16 + n.val < 24 by omega, fin_add 8 16 n rfl]
  | acc n =>
    have := n.isLt
    simp [Src.ofCode, Src.code, show ¬ 24 + n.val < 16 by omega, show 24 + n.val < 28 by omega, fin_add 4 24 n rfl]
  | zero => rfl
  | lane => rfl
  | coord => rfl
  | stage => rfl
  | chan n d =>
    have := n.isLt
    simp [Src.ofCode, Src.code, Src.deq, show ¬ 32 + n.val < 16 by omega, show ¬ 32 + n.val < 24 by omega,
      show ¬ 32 + n.val < 28 by omega, show ¬ 32 + n.val = 28 by omega, show ¬ 32 + n.val = 29 by omega,
      show ¬ 32 + n.val = 30 by omega, show ¬ 32 + n.val = 31 by omega, show 32 + n.val < 48 by omega,
      fin_add 16 32 n rfl]
  | w n =>
    have := n.isLt
    simp [Src.ofCode, Src.code, show ¬ 48 + n.val < 16 by omega, show ¬ 48 + n.val < 24 by omega,
      show ¬ 48 + n.val < 28 by omega, show ¬ 48 + n.val = 28 by omega, show ¬ 48 + n.val = 29 by omega,
      show ¬ 48 + n.val = 30 by omega, show ¬ 48 + n.val = 31 by omega, show 48 + n.val < 64 by omega,
      fin_add 16 48 n rfl]

/-- Every destination operand is read back from its code (R91). -/
@[simp] theorem Dst.ofCode_code (d : Dst) : Dst.ofCode d.code = some d := by
  cases d with
  | x n => simp [Dst.ofCode, Dst.code, n.isLt, fin_val]
  | v n => have := n.isLt; simp [Dst.ofCode, Dst.code, show 16 + n.val < 24 by omega, fin_add 8 16 n rfl]
  | acc n =>
    have := n.isLt
    simp [Dst.ofCode, Dst.code, show ¬ 24 + n.val < 16 by omega, show 24 + n.val < 28 by omega, fin_add 4 24 n rfl]
  | discard => rfl
  | out n =>
    have := n.isLt
    simp [Dst.ofCode, Dst.code, show ¬ 32 + n.val < 16 by omega, show ¬ 32 + n.val < 24 by omega,
      show ¬ 32 + n.val < 28 by omega, show ¬ 32 + n.val = 28 by omega, show ¬ 32 + n.val < 32 by omega,
      show 32 + n.val < 48 by omega, fin_add 16 32 n rfl]
  | w n =>
    have := n.isLt
    simp [Dst.ofCode, Dst.code, show ¬ 48 + n.val < 16 by omega, show ¬ 48 + n.val < 24 by omega,
      show ¬ 48 + n.val < 28 by omega, show ¬ 48 + n.val = 28 by omega, show ¬ 48 + n.val < 32 by omega,
      show 48 + n.val < 64 by omega, fin_add 16 48 n rfl]

/-! ### The low twelve bits -/

theorem lowE_lt {b dA dB m : Nat} (hb : b < 64) (hA : dA ≤ 1) (hB : dB ≤ 1) (hm : m < 16) : lowE b dA dB m < 4096 := by
  simp only [lowE]; omega
theorem lowE_b {b dA dB m : Nat} (hA : dA ≤ 1) (hB : dB ≤ 1) (hm : m < 16) : lowE b dA dB m / 64 = b := by
  simp only [lowE]; omega
theorem lowE_deqA {b dA dB m : Nat} (hA : dA ≤ 1) (hB : dB ≤ 1) (hm : m < 16) : lowE b dA dB m / 32 % 2 = dA := by
  simp only [lowE]; omega
theorem lowE_deqB {b dA dB m : Nat} (hB : dB ≤ 1) (hm : m < 16) : lowE b dA dB m / 16 % 2 = dB := by
  simp only [lowE]; omega
theorem lowE_mod {b dA dB m : Nat} (hm : m < 16) : lowE b dA dB m % 16 = m := by
  simp only [lowE]; omega
theorem lowConv_lt (df sf : Fmt) (r : Rnd) : lowConv df sf r < 4096 := by
  have := df.code_lt; have := sf.code_lt; have := r.code_lt
  simp only [lowConv]; omega

/-! ### Guard and skip codes -/

theorem Guard.qtestCode_lt (g : Guard) : g.qtestCode < 64 := by
  unfold Guard.qtestCode
  split
  · decide
  · rename_i neg id h
    have := bit_le neg; have := id.isLt
    omega
theorem Guard.htagCode_lt (g : Guard) : g.htagCode < 8 := by
  unfold Guard.htagCode
  split
  · decide
  · rename_i t h
    have := t.isLt
    omega
theorem Guard.pupdCode_lt (g : Guard) : g.pupdCode < 64 := by
  unfold Guard.pupdCode
  split
  · decide
  · rename_i u h
    have := u.op.code_lt; have := u.id.isLt
    omega
theorem Skip.code_lt (h : Skip) : h.code < 128 := by
  unfold Skip.code
  split
  · decide
  · rename_i neg id h
    have := bit_le neg; have := id.isLt
    omega

/-! ### The fields of a word -/

/-- An element word whose fields fit is less than 2^64, and its low fields are read back. -/
theorem ElemFields.word_lt (f : ElemFields) (h1 : f.op < 256) (h2 : f.dst < 64) (h3 : f.a < 64) (h4 : f.low < 4096) :
    f.word < 2 ^ 64 := by
  have := f.g.pcare.isLt; have := f.g.pval.isLt; have := f.g.qtestCode_lt; have := f.g.htagCode_lt
  have := f.g.pupdCode_lt
  simp only [ElemFields.word]; omega

theorem ElemFields.elemRawOf_word (f : ElemFields) (h1 : f.op < 256) (h2 : f.dst < 64) (h3 : f.a < 64)
    (h4 : f.low < 4096) : elemRawOf f.word = ⟨f.op, f.dst, f.a, f.low⟩ := by
  have := f.g.pcare.isLt; have := f.g.pval.isLt; have := f.g.qtestCode_lt; have := f.g.htagCode_lt
  have := f.g.pupdCode_lt
  simp only [elemRawOf, field, ElemFields.word, ElemRaw.mk.injEq]
  refine ⟨?_, ?_, ?_, ?_⟩ <;> omega

theorem PumpFields.word_lt (f : PumpFields) (h1 : f.op < 256) (h2 : f.d < 64) (h3 : f.a < 64) (h4 : f.b < 64)
    (h5 : f.fn < 64) (h6 : f.i24 < 2 ^ 24) : f.word < 2 ^ 64 := by
  have := f.h.code_lt; have := bit_le f.imm
  simp only [PumpFields.word]; omega

theorem PumpFields.pumpRawOf_word (f : PumpFields) (h1 : f.op < 256) (h2 : f.d < 64) (h3 : f.a < 64) (h4 : f.b < 64)
    (h5 : f.fn < 64) (h6 : f.i24 < 2 ^ 24) : pumpRawOf f.word = ⟨f.op, f.d, f.a, f.b, f.imm, f.fn, f.i24⟩ := by
  have := f.h.code_lt; have := bit_le f.imm
  have himm : f.word / 2 ^ 30 % 2 ^ 1 = bit f.imm := by simp only [PumpFields.word]; omega
  simp only [pumpRawOf, field, himm, bit_eq_one]
  simp only [PumpFields.word, PumpRaw.mk.injEq]
  refine ⟨?_, ?_, ?_, ?_, trivial, ?_, ?_⟩ <;> omega

theorem Skip.skipOf_code (h : Skip) {w : Nat} (hw : w / 2 ^ 31 % 2 ^ 7 = h.code) : skipOf w = h := by
  obtain ⟨p⟩ := h
  cases p with
  | none =>
    simp only [Skip.code] at hw
    have e0 : field w 37 1 ≠ 1 := by simp only [field]; omega
    simp only [skipOf, e0, if_false]
  | some q =>
    obtain ⟨neg, id⟩ := q
    simp only [Skip.code] at hw
    have := id.isLt; have := bit_le neg
    have e0 : field w 37 1 = 1 := by simp only [field]; omega
    have e1 : field w 36 1 = bit neg := by simp only [field]; omega
    have e2 : field w 31 5 = id.val := by simp only [field]; omega
    simp only [skipOf, e0, if_true, e1, e2, bit_eq_one, fin_val]

theorem PumpFields.skipOf_word (f : PumpFields)
    (h5 : f.fn < 64) (h6 : f.i24 < 2 ^ 24) : skipOf f.word = f.h := by
  have := f.h.code_lt; have := bit_le f.imm
  exact Skip.skipOf_code f.h (by simp only [PumpFields.word]; omega)

theorem ElemFields.guardOf_word (f : ElemFields) (h1 : f.op < 256) (h2 : f.dst < 64) (h3 : f.a < 64)
    (h4 : f.low < 4096) : guardOf f.word = f.g := by
  have p1 := f.g.pcare.isLt; have p2 := f.g.pval.isLt; have q1 := f.g.qtestCode_lt; have q2 := f.g.htagCode_lt
  have q3 := f.g.pupdCode_lt
  have e1 : field f.word 55 8 = f.g.pcare.toNat := by simp only [field, ElemFields.word]; omega
  have e2 : field f.word 47 8 = f.g.pval.toNat := by simp only [field, ElemFields.word]; omega
  have e3 : f.word / 2 ^ 41 % 2 ^ 6 = f.g.qtestCode := by simp only [ElemFields.word]; omega
  have e4 : f.word / 2 ^ 38 % 2 ^ 3 = f.g.htagCode := by simp only [ElemFields.word]; omega
  have e5 : f.word / 2 ^ 24 % 2 ^ 6 = f.g.pupdCode := by simp only [ElemFields.word]; omega
  clear p1 p2 q1 q2 q3
  generalize f.word = w at *
  generalize f.g = g at *
  obtain ⟨pc, pv, q, t, u⟩ := g
  simp only [guardOf, e1, e2, BitVec.ofNat_toNat, BitVec.setWidth_eq, Guard.mk.injEq, true_and]
  refine ⟨?_, ?_, ?_⟩
  · cases q with
    | none =>
      simp only [Guard.qtestCode] at e3
      have e0 : field w 46 1 ≠ 1 := by simp only [field]; omega
      simp only [e0, if_false]
    | some q =>
      obtain ⟨neg, id⟩ := q
      simp only [Guard.qtestCode] at e3
      have := id.isLt; have := bit_le neg
      have f0 : field w 46 1 = 1 := by simp only [field]; omega
      have f1 : field w 45 1 = bit neg := by simp only [field]; omega
      have f2 : field w 41 4 = id.val := by simp only [field]; omega
      simp only [f0, if_true, f1, f2, bit_eq_one, fin_val]
  · cases t with
    | none =>
      simp only [Guard.htagCode] at e4
      have e0 : field w 40 1 ≠ 1 := by simp only [field]; omega
      simp only [e0, if_false]
    | some t =>
      simp only [Guard.htagCode] at e4
      have := t.isLt
      have f0 : field w 40 1 = 1 := by simp only [field]; omega
      have f1 : field w 38 2 = t.val := by simp only [field]; omega
      simp only [f0, if_true, f1, fin_val]
  · cases u with
    | none =>
      simp only [Guard.pupdCode] at e5
      have e0 : field w 29 1 ≠ 1 := by simp only [field]; omega
      simp only [e0, if_false]
    | some u =>
      obtain ⟨op, id⟩ := u
      simp only [Guard.pupdCode] at e5
      have := id.isLt; have := op.code_lt
      have f0 : field w 29 1 = 1 := by simp only [field]; omega
      have f1 : field w 27 2 = op.code := by simp only [field]; omega
      have f2 : field w 24 3 = id.val := by simp only [field]; omega
      simp only [f0, if_true, f1, f2, PredOp.ofCode_code, fin_val]

end Sys2Proof
end

