-- ==== Sys2Proof/Laws/PerInstr.lean ====
section
/-! SUPPORT. For every instruction, as syntax: the fields of its word fit the fields of the formats E, EI and P (R88, R89,
R96), and no instruction has both an element word and a body word. -/

namespace Sys2Proof.Laws.Fields

/-- The fields of a well-formed instruction's word fit their places. -/
def Statement (i : Instr) : Prop :=
  i.wellFormed = true →
    (∀ f, i.elemFields = some f → f.op < 256 ∧ f.dst < 64 ∧ f.a < 64 ∧ f.low < 4096 ∧ i.pumpFields = none) ∧
    (∀ f, i.pumpFields = some f →
      f.op < 256 ∧ f.d < 64 ∧ f.a < 64 ∧ f.b < 64 ∧ f.fn < 64 ∧ f.i24 < 2 ^ 24 ∧ i.elemFields = none)

theorem pumpW_lt (w : PumpW) (n : Bool) : w.code * 16 + nBit n < 64 := by
  have := w.code_lt; have := nBit_le n; omega
theorem psrc_reg (b : PSrc) : b.regVal < 64 := by
  cases b <;> simp [PSrc.regVal]
theorem psrc_imm (b : PSrc) : b.immVal < 2 ^ 24 := by
  cases b with
  | reg n => simp [PSrc.immVal]
  | imm v => exact v.isLt

/-- An instruction with an element word. -/
theorem ofElem {i : Instr} {g : Guard} {op d a low : Nat} (h : i.elemFields = some ⟨g, op, d, a, low⟩)
    (hp : i.pumpFields = none) (h1 : op < 256) (h2 : d < 64) (h3 : a < 64) (h4 : low < 4096) : Statement i := by
  intro _
  refine ⟨fun f hf => ?_, fun f hf => ?_⟩
  · rw [h] at hf; cases hf; exact ⟨h1, h2, h3, h4, hp⟩
  · rw [hp] at hf; cases hf

/-- An instruction with a body word. -/
theorem ofPump {i : Instr} {s : Skip} {op d a b fn i24 : Nat} {imm : Bool}
    (h : i.pumpFields = some ⟨s, op, d, a, b, imm, fn, i24⟩) (he : i.elemFields = none)
    (hb : i.wellFormed = true → op < 256 ∧ d < 64 ∧ a < 64 ∧ b < 64 ∧ fn < 64 ∧ i24 < 2 ^ 24) : Statement i := by
  intro hw
  refine ⟨fun f hf => ?_, fun f hf => ?_⟩
  · rw [he] at hf; cases hf
  · rw [h] at hf
    cases hf
    obtain ⟨h1, h2, h3, h4, h5, h6⟩ := hb hw
    exact ⟨h1, h2, h3, h4, h5, h6, he⟩

/-- A step of the hardware has no word. -/
theorem ofNone {i : Instr} (h : i.elemFields = none) (hp : i.pumpFields = none) : Statement i := by
  intro _
  refine ⟨fun f hf => ?_, fun f hf => ?_⟩
  · rw [h] at hf; cases hf
  · rw [hp] at hf; cases hf

theorem add (g : Guard) (d : Dst) (a : Src) (b : Src) : Statement (.add g d a b) := by
  have := d.code_lt; have := a.code_lt; have := a.deqBit_le; have := b.code_lt; have := b.deqBit_le
  exact ofElem rfl rfl (by decide) (by omega) (by omega) (lowE_lt (by omega) (by omega) (by omega) (by omega))
theorem sub (g : Guard) (d : Dst) (a : Src) (b : Src) : Statement (.sub g d a b) := by
  have := d.code_lt; have := a.code_lt; have := a.deqBit_le; have := b.code_lt; have := b.deqBit_le
  exact ofElem rfl rfl (by decide) (by omega) (by omega) (lowE_lt (by omega) (by omega) (by omega) (by omega))
theorem mul (g : Guard) (d : Dst) (a : Src) (b : Src) : Statement (.mul g d a b) := by
  have := d.code_lt; have := a.code_lt; have := a.deqBit_le; have := b.code_lt; have := b.deqBit_le
  exact ofElem rfl rfl (by decide) (by omega) (by omega) (lowE_lt (by omega) (by omega) (by omega) (by omega))
theorem mulh (g : Guard) (d : Dst) (a : Src) (b : Src) : Statement (.mulh g d a b) := by
  have := d.code_lt; have := a.code_lt; have := a.deqBit_le; have := b.code_lt; have := b.deqBit_le
  exact ofElem rfl rfl (by decide) (by omega) (by omega) (lowE_lt (by omega) (by omega) (by omega) (by omega))
theorem mulhn (g : Guard) (d : Dst) (a : Src) (b : Src) : Statement (.mulhn g d a b) := by
  have := d.code_lt; have := a.code_lt; have := a.deqBit_le; have := b.code_lt; have := b.deqBit_le
  exact ofElem rfl rfl (by decide) (by omega) (by omega) (lowE_lt (by omega) (by omega) (by omega) (by omega))
theorem adds (g : Guard) (n : Bool) (d : Dst) (a : Src) (b : Src) : Statement (.adds g n d a b) := by
  have := nBit_le n; have := bit_le n; have := d.code_lt; have := a.code_lt; have := a.deqBit_le; have := b.code_lt; have := b.deqBit_le
  exact ofElem rfl rfl (by decide) (by omega) (by omega) (lowE_lt (by omega) (by omega) (by omega) (by omega))
theorem subs (g : Guard) (n : Bool) (d : Dst) (a : Src) (b : Src) : Statement (.subs g n d a b) := by
  have := nBit_le n; have := bit_le n; have := d.code_lt; have := a.code_lt; have := a.deqBit_le; have := b.code_lt; have := b.deqBit_le
  exact ofElem rfl rfl (by decide) (by omega) (by omega) (lowE_lt (by omega) (by omega) (by omega) (by omega))
theorem and (g : Guard) (d : Dst) (a : Src) (b : Src) : Statement (.and g d a b) := by
  have := d.code_lt; have := a.code_lt; have := a.deqBit_le; have := b.code_lt; have := b.deqBit_le
  exact ofElem rfl rfl (by decide) (by omega) (by omega) (lowE_lt (by omega) (by omega) (by omega) (by omega))
theorem or (g : Guard) (d : Dst) (a : Src) (b : Src) : Statement (.or g d a b) := by
  have := d.code_lt; have := a.code_lt; have := a.deqBit_le; have := b.code_lt; have := b.deqBit_le
  exact ofElem rfl rfl (by decide) (by omega) (by omega) (lowE_lt (by omega) (by omega) (by omega) (by omega))
theorem xor (g : Guard) (d : Dst) (a : Src) (b : Src) : Statement (.xor g d a b) := by
  have := d.code_lt; have := a.code_lt; have := a.deqBit_le; have := b.code_lt; have := b.deqBit_le
  exact ofElem rfl rfl (by decide) (by omega) (by omega) (lowE_lt (by omega) (by omega) (by omega) (by omega))
theorem andn (g : Guard) (d : Dst) (a : Src) (b : Src) : Statement (.andn g d a b) := by
  have := d.code_lt; have := a.code_lt; have := a.deqBit_le; have := b.code_lt; have := b.deqBit_le
  exact ofElem rfl rfl (by decide) (by omega) (by omega) (lowE_lt (by omega) (by omega) (by omega) (by omega))
theorem shl (g : Guard) (d : Dst) (a : Src) (b : Src) : Statement (.shl g d a b) := by
  have := d.code_lt; have := a.code_lt; have := a.deqBit_le; have := b.code_lt; have := b.deqBit_le
  exact ofElem rfl rfl (by decide) (by omega) (by omega) (lowE_lt (by omega) (by omega) (by omega) (by omega))
theorem shr (g : Guard) (d : Dst) (a : Src) (b : Src) : Statement (.shr g d a b) := by
  have := d.code_lt; have := a.code_lt; have := a.deqBit_le; have := b.code_lt; have := b.deqBit_le
  exact ofElem rfl rfl (by decide) (by omega) (by omega) (lowE_lt (by omega) (by omega) (by omega) (by omega))
theorem sra (g : Guard) (d : Dst) (a : Src) (b : Src) : Statement (.sra g d a b) := by
  have := d.code_lt; have := a.code_lt; have := a.deqBit_le; have := b.code_lt; have := b.deqBit_le
  exact ofElem rfl rfl (by decide) (by omega) (by omega) (lowE_lt (by omega) (by omega) (by omega) (by omega))
theorem rot (g : Guard) (d : Dst) (a : Src) (b : Src) : Statement (.rot g d a b) := by
  have := d.code_lt; have := a.code_lt; have := a.deqBit_le; have := b.code_lt; have := b.deqBit_le
  exact ofElem rfl rfl (by decide) (by omega) (by omega) (lowE_lt (by omega) (by omega) (by omega) (by omega))
theorem min (g : Guard) (d : Dst) (a : Src) (b : Src) : Statement (.min g d a b) := by
  have := d.code_lt; have := a.code_lt; have := a.deqBit_le; have := b.code_lt; have := b.deqBit_le
  exact ofElem rfl rfl (by decide) (by omega) (by omega) (lowE_lt (by omega) (by omega) (by omega) (by omega))
theorem max (g : Guard) (d : Dst) (a : Src) (b : Src) : Statement (.max g d a b) := by
  have := d.code_lt; have := a.code_lt; have := a.deqBit_le; have := b.code_lt; have := b.deqBit_le
  exact ofElem rfl rfl (by decide) (by omega) (by omega) (lowE_lt (by omega) (by omega) (by omega) (by omega))
theorem minn (g : Guard) (d : Dst) (a : Src) (b : Src) : Statement (.minn g d a b) := by
  have := d.code_lt; have := a.code_lt; have := a.deqBit_le; have := b.code_lt; have := b.deqBit_le
  exact ofElem rfl rfl (by decide) (by omega) (by omega) (lowE_lt (by omega) (by omega) (by omega) (by omega))
theorem maxn (g : Guard) (d : Dst) (a : Src) (b : Src) : Statement (.maxn g d a b) := by
  have := d.code_lt; have := a.code_lt; have := a.deqBit_le; have := b.code_lt; have := b.deqBit_le
  exact ofElem rfl rfl (by decide) (by omega) (by omega) (lowE_lt (by omega) (by omega) (by omega) (by omega))
theorem cmp (g : Guard) (rel : Rel) (n : Bool) (d : Dst) (a : Src) (b : Src) : Statement (.cmp g rel n d a b) := by
  have := rel.code_lt; have := nBit_le n; have := bit_le n; have := d.code_lt; have := a.code_lt; have := a.deqBit_le; have := b.code_lt; have := b.deqBit_le
  exact ofElem rfl rfl (by decide) (by omega) (by omega) (lowE_lt (by omega) (by omega) (by omega) (by omega))
theorem tst (g : Guard) (none1 : Bool) (d : Dst) (a : Src) (b : Src) : Statement (.tst g none1 d a b) := by
  have := nBit_le none1; have := bit_le none1; have := d.code_lt; have := a.code_lt; have := a.deqBit_le; have := b.code_lt; have := b.deqBit_le
  exact ofElem rfl rfl (by decide) (by omega) (by omega) (lowE_lt (by omega) (by omega) (by omega) (by omega))
theorem sel (g : Guard) (pid : Fin 8) (d : Dst) (a : Src) (b : Src) : Statement (.sel g pid d a b) := by
  have := pid.isLt; have := d.code_lt; have := a.code_lt; have := a.deqBit_le; have := b.code_lt; have := b.deqBit_le
  exact ofElem rfl rfl (by decide) (by omega) (by omega) (lowE_lt (by omega) (by omega) (by omega) (by omega))
theorem clz (g : Guard) (d : Dst) (a : Src) : Statement (.clz g d a) := by
  have := d.code_lt; have := a.code_lt; have := a.deqBit_le
  exact ofElem rfl rfl (by decide) (by omega) (by omega) (lowE_lt (by omega) (by omega) (by omega) (by omega))
theorem popc (g : Guard) (d : Dst) (a : Src) : Statement (.popc g d a) := by
  have := d.code_lt; have := a.code_lt; have := a.deqBit_le
  exact ofElem rfl rfl (by decide) (by omega) (by omega) (lowE_lt (by omega) (by omega) (by omega) (by omega))
theorem bfx (g : Guard) (n : Bool) (d : Dst) (a : Src) (b : Src) : Statement (.bfx g n d a b) := by
  have := nBit_le n; have := bit_le n; have := d.code_lt; have := a.code_lt; have := a.deqBit_le; have := b.code_lt; have := b.deqBit_le
  exact ofElem rfl rfl (by decide) (by omega) (by omega) (lowE_lt (by omega) (by omega) (by omega) (by omega))
theorem bfi (g : Guard) (d : Dst) (a : Src) (b : Src) : Statement (.bfi g d a b) := by
  have := d.code_lt; have := a.code_lt; have := a.deqBit_le; have := b.code_lt; have := b.deqBit_le
  exact ofElem rfl rfl (by decide) (by omega) (by omega) (lowE_lt (by omega) (by omega) (by omega) (by omega))
theorem mov (g : Guard) (d : Dst) (a : Src) : Statement (.mov g d a) := by
  have := d.code_lt; have := a.code_lt; have := a.deqBit_le
  exact ofElem rfl rfl (by decide) (by omega) (by omega) (lowE_lt (by omega) (by omega) (by omega) (by omega))
theorem pset (g : Guard) (a : Src) : Statement (.pset g a) := by
  have := a.code_lt; have := a.deqBit_le
  exact ofElem rfl rfl (by decide) (by omega) (by omega) (lowE_lt (by omega) (by omega) (by omega) (by omega))
theorem plog (g : Guard) (lop : LogicOp) (pj : Fin 8) (pk : Fin 8) : Statement (.plog g lop pj pk) := by
  have := lop.code_lt; have := pj.isLt; have := pk.isLt
  exact ofElem rfl rfl (by decide) (by omega) (by omega) (lowE_lt (by omega) (by omega) (by omega) (by omega))
theorem cnt (g : Guard) (n : Bool) (d : Dst) (a : Src) (b : Src) : Statement (.cnt g n d a b) := by
  have := nBit_le n; have := bit_le n; have := d.code_lt; have := a.code_lt; have := a.deqBit_le; have := b.code_lt; have := b.deqBit_le
  exact ofElem rfl rfl (by decide) (by omega) (by omega) (lowE_lt (by omega) (by omega) (by omega) (by omega))
theorem qset (g : Guard) (q : Fin 16) (a : Src) : Statement (.qset g q a) := by
  have := q.isLt; have := a.code_lt; have := a.deqBit_le
  exact ofElem rfl rfl (by decide) (by omega) (by omega) (lowE_lt (by omega) (by omega) (by omega) (by omega))
theorem addImm (g : Guard) (d : Dst) (a : Src) (imm : BitVec 12) : Statement (.addImm g d a imm) := by
  have := d.code_lt; have := a.code_lt; have := a.deqBit_le; have := imm.isLt
  exact ofElem rfl rfl (by decide) (by omega) (by omega) (by omega)
theorem subImm (g : Guard) (d : Dst) (a : Src) (imm : BitVec 12) : Statement (.subImm g d a imm) := by
  have := d.code_lt; have := a.code_lt; have := a.deqBit_le; have := imm.isLt
  exact ofElem rfl rfl (by decide) (by omega) (by omega) (by omega)
theorem mulImm (g : Guard) (d : Dst) (a : Src) (imm : BitVec 12) : Statement (.mulImm g d a imm) := by
  have := d.code_lt; have := a.code_lt; have := a.deqBit_le; have := imm.isLt
  exact ofElem rfl rfl (by decide) (by omega) (by omega) (by omega)
theorem mulhImm (g : Guard) (d : Dst) (a : Src) (imm : BitVec 12) : Statement (.mulhImm g d a imm) := by
  have := d.code_lt; have := a.code_lt; have := a.deqBit_le; have := imm.isLt
  exact ofElem rfl rfl (by decide) (by omega) (by omega) (by omega)
theorem mulhnImm (g : Guard) (d : Dst) (a : Src) (imm : BitVec 12) : Statement (.mulhnImm g d a imm) := by
  have := d.code_lt; have := a.code_lt; have := a.deqBit_le; have := imm.isLt
  exact ofElem rfl rfl (by decide) (by omega) (by omega) (by omega)
theorem addsImm (g : Guard) (d : Dst) (a : Src) (imm : BitVec 12) : Statement (.addsImm g d a imm) := by
  have := d.code_lt; have := a.code_lt; have := a.deqBit_le; have := imm.isLt
  exact ofElem rfl rfl (by decide) (by omega) (by omega) (by omega)
theorem subsImm (g : Guard) (d : Dst) (a : Src) (imm : BitVec 12) : Statement (.subsImm g d a imm) := by
  have := d.code_lt; have := a.code_lt; have := a.deqBit_le; have := imm.isLt
  exact ofElem rfl rfl (by decide) (by omega) (by omega) (by omega)
theorem andImm (g : Guard) (d : Dst) (a : Src) (imm : BitVec 12) : Statement (.andImm g d a imm) := by
  have := d.code_lt; have := a.code_lt; have := a.deqBit_le; have := imm.isLt
  exact ofElem rfl rfl (by decide) (by omega) (by omega) (by omega)
theorem orImm (g : Guard) (d : Dst) (a : Src) (imm : BitVec 12) : Statement (.orImm g d a imm) := by
  have := d.code_lt; have := a.code_lt; have := a.deqBit_le; have := imm.isLt
  exact ofElem rfl rfl (by decide) (by omega) (by omega) (by omega)
theorem xorImm (g : Guard) (d : Dst) (a : Src) (imm : BitVec 12) : Statement (.xorImm g d a imm) := by
  have := d.code_lt; have := a.code_lt; have := a.deqBit_le; have := imm.isLt
  exact ofElem rfl rfl (by decide) (by omega) (by omega) (by omega)
theorem andnImm (g : Guard) (d : Dst) (a : Src) (imm : BitVec 12) : Statement (.andnImm g d a imm) := by
  have := d.code_lt; have := a.code_lt; have := a.deqBit_le; have := imm.isLt
  exact ofElem rfl rfl (by decide) (by omega) (by omega) (by omega)
theorem shlImm (g : Guard) (d : Dst) (a : Src) (imm : BitVec 12) : Statement (.shlImm g d a imm) := by
  have := d.code_lt; have := a.code_lt; have := a.deqBit_le; have := imm.isLt
  exact ofElem rfl rfl (by decide) (by omega) (by omega) (by omega)
theorem shrImm (g : Guard) (d : Dst) (a : Src) (imm : BitVec 12) : Statement (.shrImm g d a imm) := by
  have := d.code_lt; have := a.code_lt; have := a.deqBit_le; have := imm.isLt
  exact ofElem rfl rfl (by decide) (by omega) (by omega) (by omega)
theorem sraImm (g : Guard) (d : Dst) (a : Src) (imm : BitVec 12) : Statement (.sraImm g d a imm) := by
  have := d.code_lt; have := a.code_lt; have := a.deqBit_le; have := imm.isLt
  exact ofElem rfl rfl (by decide) (by omega) (by omega) (by omega)
theorem rotImm (g : Guard) (d : Dst) (a : Src) (imm : BitVec 12) : Statement (.rotImm g d a imm) := by
  have := d.code_lt; have := a.code_lt; have := a.deqBit_le; have := imm.isLt
  exact ofElem rfl rfl (by decide) (by omega) (by omega) (by omega)
theorem minImm (g : Guard) (d : Dst) (a : Src) (imm : BitVec 12) : Statement (.minImm g d a imm) := by
  have := d.code_lt; have := a.code_lt; have := a.deqBit_le; have := imm.isLt
  exact ofElem rfl rfl (by decide) (by omega) (by omega) (by omega)
theorem maxImm (g : Guard) (d : Dst) (a : Src) (imm : BitVec 12) : Statement (.maxImm g d a imm) := by
  have := d.code_lt; have := a.code_lt; have := a.deqBit_le; have := imm.isLt
  exact ofElem rfl rfl (by decide) (by omega) (by omega) (by omega)
theorem minnImm (g : Guard) (d : Dst) (a : Src) (imm : BitVec 12) : Statement (.minnImm g d a imm) := by
  have := d.code_lt; have := a.code_lt; have := a.deqBit_le; have := imm.isLt
  exact ofElem rfl rfl (by decide) (by omega) (by omega) (by omega)
theorem maxnImm (g : Guard) (d : Dst) (a : Src) (imm : BitVec 12) : Statement (.maxnImm g d a imm) := by
  have := d.code_lt; have := a.code_lt; have := a.deqBit_le; have := imm.isLt
  exact ofElem rfl rfl (by decide) (by omega) (by omega) (by omega)
theorem movi (g : Guard) (d : Dst) (imm : BitVec 12) : Statement (.movi g d imm) := by
  have := d.code_lt; have := imm.isLt
  exact ofElem rfl rfl (by decide) (by omega) (by omega) (by omega)
theorem cntImm (g : Guard) (d : Dst) (a : Src) (imm : BitVec 12) : Statement (.cntImm g d a imm) := by
  have := d.code_lt; have := a.code_lt; have := a.deqBit_le; have := imm.isLt
  exact ofElem rfl rfl (by decide) (by omega) (by omega) (by omega)
theorem movs (g : Guard) (d : Dst) (imm : BitVec 12) : Statement (.movs g d imm) := by
  have := d.code_lt; have := imm.isLt
  exact ofElem rfl rfl (by decide) (by omega) (by omega) (by omega)
theorem nop (g : Guard) : Statement (.nop g) := by
  exact ofElem rfl rfl (by decide) (by omega) (by omega) (lowE_lt (by omega) (by omega) (by omega) (by omega))
theorem halt (g : Guard) : Statement (.halt g) := by
  exact ofElem rfl rfl (by decide) (by omega) (by omega) (lowE_lt (by omega) (by omega) (by omega) (by omega))
theorem trap (g : Guard) (a : Src) : Statement (.trap g a) := by
  have := a.code_lt; have := a.deqBit_le
  exact ofElem rfl rfl (by decide) (by omega) (by omega) (lowE_lt (by omega) (by omega) (by omega) (by omega))
theorem plane (g : Guard) (k4 : Fin 4) : Statement (.plane g k4) := by
  have := k4.isLt
  exact ofElem rfl rfl (by decide) (by omega) (by omega) (lowE_lt (by omega) (by omega) (by omega) (by omega))
theorem chgq (g : Guard) (d : Dst) : Statement (.chgq g d) := by
  have := d.code_lt
  exact ofElem rfl rfl (by decide) (by omega) (by omega) (lowE_lt (by omega) (by omega) (by omega) (by omega))
theorem vadd (g : Guard) (fmt : Fmt) (d : Dst) (a : Src) (b : Src) : Statement (.vadd g fmt d a b) := by
  have := fmt.code_lt; have := d.code_lt; have := a.code_lt; have := a.deqBit_le; have := b.code_lt; have := b.deqBit_le
  exact ofElem rfl rfl (by decide) (by omega) (by omega) (lowE_lt (by omega) (by omega) (by omega) (by omega))
theorem vsub (g : Guard) (fmt : Fmt) (d : Dst) (a : Src) (b : Src) : Statement (.vsub g fmt d a b) := by
  have := fmt.code_lt; have := d.code_lt; have := a.code_lt; have := a.deqBit_le; have := b.code_lt; have := b.deqBit_le
  exact ofElem rfl rfl (by decide) (by omega) (by omega) (lowE_lt (by omega) (by omega) (by omega) (by omega))
theorem vmul (g : Guard) (fmt : Fmt) (d : Dst) (a : Src) (b : Src) : Statement (.vmul g fmt d a b) := by
  have := fmt.code_lt; have := d.code_lt; have := a.code_lt; have := a.deqBit_le; have := b.code_lt; have := b.deqBit_le
  exact ofElem rfl rfl (by decide) (by omega) (by omega) (lowE_lt (by omega) (by omega) (by omega) (by omega))
theorem vmax (g : Guard) (fmt : Fmt) (d : Dst) (a : Src) (b : Src) : Statement (.vmax g fmt d a b) := by
  have := fmt.code_lt; have := d.code_lt; have := a.code_lt; have := a.deqBit_le; have := b.code_lt; have := b.deqBit_le
  exact ofElem rfl rfl (by decide) (by omega) (by omega) (lowE_lt (by omega) (by omega) (by omega) (by omega))
theorem vmin (g : Guard) (fmt : Fmt) (d : Dst) (a : Src) (b : Src) : Statement (.vmin g fmt d a b) := by
  have := fmt.code_lt; have := d.code_lt; have := a.code_lt; have := a.deqBit_le; have := b.code_lt; have := b.deqBit_le
  exact ofElem rfl rfl (by decide) (by omega) (by omega) (lowE_lt (by omega) (by omega) (by omega) (by omega))
theorem vclamp (g : Guard) (fmt : Fmt) (d : Dst) (a : Src) (b : Src) : Statement (.vclamp g fmt d a b) := by
  have := fmt.code_lt; have := d.code_lt; have := a.code_lt; have := a.deqBit_le; have := b.code_lt; have := b.deqBit_le
  exact ofElem rfl rfl (by decide) (by omega) (by omega) (lowE_lt (by omega) (by omega) (by omega) (by omega))
theorem vfma (g : Guard) (fmt : Fmt) (d : Dst) (a : Src) (b : Src) : Statement (.vfma g fmt d a b) := by
  have := fmt.code_lt; have := d.code_lt; have := a.code_lt; have := a.deqBit_le; have := b.code_lt; have := b.deqBit_le
  exact ofElem rfl rfl (by decide) (by omega) (by omega) (lowE_lt (by omega) (by omega) (by omega) (by omega))
theorem vfms (g : Guard) (fmt : Fmt) (d : Dst) (a : Src) (b : Src) : Statement (.vfms g fmt d a b) := by
  have := fmt.code_lt; have := d.code_lt; have := a.code_lt; have := a.deqBit_le; have := b.code_lt; have := b.deqBit_le
  exact ofElem rfl rfl (by decide) (by omega) (by omega) (lowE_lt (by omega) (by omega) (by omega) (by omega))
theorem vabs (g : Guard) (fmt : Fmt) (d : Dst) (a : Src) : Statement (.vabs g fmt d a) := by
  have := fmt.code_lt; have := d.code_lt; have := a.code_lt; have := a.deqBit_le
  exact ofElem rfl rfl (by decide) (by omega) (by omega) (lowE_lt (by omega) (by omega) (by omega) (by omega))
theorem vneg (g : Guard) (fmt : Fmt) (d : Dst) (a : Src) : Statement (.vneg g fmt d a) := by
  have := fmt.code_lt; have := d.code_lt; have := a.code_lt; have := a.deqBit_le
  exact ofElem rfl rfl (by decide) (by omega) (by omega) (lowE_lt (by omega) (by omega) (by omega) (by omega))
theorem vrcp (g : Guard) (fmt : Fmt) (d : Dst) (a : Src) : Statement (.vrcp g fmt d a) := by
  have := fmt.code_lt; have := d.code_lt; have := a.code_lt; have := a.deqBit_le
  exact ofElem rfl rfl (by decide) (by omega) (by omega) (lowE_lt (by omega) (by omega) (by omega) (by omega))
theorem vrsq (g : Guard) (fmt : Fmt) (d : Dst) (a : Src) : Statement (.vrsq g fmt d a) := by
  have := fmt.code_lt; have := d.code_lt; have := a.code_lt; have := a.deqBit_le
  exact ofElem rfl rfl (by decide) (by omega) (by omega) (lowE_lt (by omega) (by omega) (by omega) (by omega))
theorem vsqrt (g : Guard) (fmt : Fmt) (d : Dst) (a : Src) : Statement (.vsqrt g fmt d a) := by
  have := fmt.code_lt; have := d.code_lt; have := a.code_lt; have := a.deqBit_le
  exact ofElem rfl rfl (by decide) (by omega) (by omega) (lowE_lt (by omega) (by omega) (by omega) (by omega))
theorem vexp2 (g : Guard) (fmt : Fmt) (d : Dst) (a : Src) : Statement (.vexp2 g fmt d a) := by
  have := fmt.code_lt; have := d.code_lt; have := a.code_lt; have := a.deqBit_le
  exact ofElem rfl rfl (by decide) (by omega) (by omega) (lowE_lt (by omega) (by omega) (by omega) (by omega))
theorem vlog2 (g : Guard) (fmt : Fmt) (d : Dst) (a : Src) : Statement (.vlog2 g fmt d a) := by
  have := fmt.code_lt; have := d.code_lt; have := a.code_lt; have := a.deqBit_le
  exact ofElem rfl rfl (by decide) (by omega) (by omega) (lowE_lt (by omega) (by omega) (by omega) (by omega))
theorem vtanh (g : Guard) (fmt : Fmt) (d : Dst) (a : Src) : Statement (.vtanh g fmt d a) := by
  have := fmt.code_lt; have := d.code_lt; have := a.code_lt; have := a.deqBit_le
  exact ofElem rfl rfl (by decide) (by omega) (by omega) (lowE_lt (by omega) (by omega) (by omega) (by omega))
theorem vred (g : Guard) (kind : RedKind) (fmt : Fmt) (d : Dst) (a : Src) : Statement (.vred g kind fmt d a) := by
  have := kind.code_lt; have := fmt.code_lt; have := d.code_lt; have := a.code_lt; have := a.deqBit_le
  exact ofElem rfl rfl (by decide) (by omega) (by omega) (lowE_lt (by omega) (by omega) (by omega) (by omega))
theorem vamax (g : Guard) (fmt : Fmt) (d : Dst) (a : Src) : Statement (.vamax g fmt d a) := by
  have := fmt.code_lt; have := d.code_lt; have := a.code_lt; have := a.deqBit_le
  exact ofElem rfl rfl (by decide) (by omega) (by omega) (lowE_lt (by omega) (by omega) (by omega) (by omega))
theorem vcmp (g : Guard) (fmt : Fmt) (d : Dst) (a : Src) (b : Src) : Statement (.vcmp g fmt d a b) := by
  have := fmt.code_lt; have := d.code_lt; have := a.code_lt; have := a.deqBit_le; have := b.code_lt; have := b.deqBit_le
  exact ofElem rfl rfl (by decide) (by omega) (by omega) (lowE_lt (by omega) (by omega) (by omega) (by omega))
theorem vsel (g : Guard) (lw : LaneW) (vtest : VTest) (d : Dst) (a : Src) (b : Src) : Statement (.vsel g lw vtest d a b) := by
  have := lw.code_lt; have := vtest.code_lt; have := d.code_lt; have := a.code_lt; have := a.deqBit_le; have := b.code_lt; have := b.deqBit_le
  exact ofElem rfl rfl (by decide) (by omega) (by omega) (lowE_lt (by omega) (by omega) (by omega) (by omega))
theorem vlog (g : Guard) (vlop : VLogOp) (d : Dst) (a : Src) (b : Src) : Statement (.vlog g vlop d a b) := by
  have := d.code_lt; have := a.code_lt; have := a.deqBit_le; have := b.code_lt; have := b.deqBit_le; have := vlop.code_lt
  refine ofElem rfl rfl (by decide) (by omega) (by omega) (lowE_lt ?_ (by omega) ?_ (by omega)) <;> split <;> omega
theorem vsh (g : Guard) (lw : LaneW) (shop : ShOp) (d : Dst) (a : Src) (b : Src) : Statement (.vsh g lw shop d a b) := by
  have := lw.code_lt; have := shop.code_lt; have := d.code_lt; have := a.code_lt; have := a.deqBit_le; have := b.code_lt; have := b.deqBit_le
  exact ofElem rfl rfl (by decide) (by omega) (by omega) (lowE_lt (by omega) (by omega) (by omega) (by omega))
theorem vbcst (g : Guard) (fmt : Fmt) (d : Dst) (a : Src) : Statement (.vbcst g fmt d a) := by
  have := fmt.code_lt; have := d.code_lt; have := a.code_lt; have := a.deqBit_le
  exact ofElem rfl rfl (by decide) (by omega) (by omega) (lowE_lt (by omega) (by omega) (by omega) (by omega))
theorem vext (g : Guard) (fmt : Fmt) (d : Dst) (a : Src) (b : Src) : Statement (.vext g fmt d a b) := by
  have := fmt.code_lt; have := d.code_lt; have := a.code_lt; have := a.deqBit_le; have := b.code_lt; have := b.deqBit_le
  exact ofElem rfl rfl (by decide) (by omega) (by omega) (lowE_lt (by omega) (by omega) (by omega) (by omega))
theorem vins (g : Guard) (fmt : Fmt) (d : Dst) (a : Src) (b : Src) : Statement (.vins g fmt d a b) := by
  have := fmt.code_lt; have := d.code_lt; have := a.code_lt; have := a.deqBit_le; have := b.code_lt; have := b.deqBit_le
  exact ofElem rfl rfl (by decide) (by omega) (by omega) (lowE_lt (by omega) (by omega) (by omega) (by omega))
theorem viota (g : Guard) (fmt : Fmt) (d : Dst) (a : Src) (b : Src) : Statement (.viota g fmt d a b) := by
  have := fmt.code_lt; have := d.code_lt; have := a.code_lt; have := a.deqBit_le; have := b.code_lt; have := b.deqBit_le
  exact ofElem rfl rfl (by decide) (by omega) (by omega) (lowE_lt (by omega) (by omega) (by omega) (by omega))
theorem vshuf (g : Guard) (lw : LaneW) (d : Dst) (a : Src) (b : Src) : Statement (.vshuf g lw d a b) := by
  have := lw.code_lt; have := d.code_lt; have := a.code_lt; have := a.deqBit_le; have := b.code_lt; have := b.deqBit_le
  exact ofElem rfl rfl (by decide) (by omega) (by omega) (lowE_lt (by omega) (by omega) (by omega) (by omega))
theorem vcvt (g : Guard) (df : Fmt) (sf : Fmt) (rnd : Rnd) (d : Dst) (a : Src) : Statement (.vcvt g df sf rnd d a) := by
  have := d.code_lt; have := a.code_lt; have := lowConv_lt df sf rnd
  exact ofElem rfl rfl (by decide) (by omega) (by omega) (by omega)
theorem vpack (g : Guard) (df : Fmt) (sf : Fmt) (rnd : Rnd) (d : Dst) (a : Src) : Statement (.vpack g df sf rnd d a) := by
  have := d.code_lt; have := a.code_lt; have := lowConv_lt df sf rnd
  exact ofElem rfl rfl (by decide) (by omega) (by omega) (by omega)
theorem vunpk (g : Guard) (df : Fmt) (sf : Fmt) (rnd : Rnd) (d : Dst) (a : Src) : Statement (.vunpk g df sf rnd d a) := by
  have := d.code_lt; have := a.code_lt; have := lowConv_lt df sf rnd
  exact ofElem rfl rfl (by decide) (by omega) (by omega) (by omega)
theorem vqnt (g : Guard) (df : Fmt) (sf : Fmt) (rnd : Rnd) (d : Dst) (a : Src) : Statement (.vqnt g df sf rnd d a) := by
  have := d.code_lt; have := a.code_lt; have := lowConv_lt df sf rnd
  exact ofElem rfl rfl (by decide) (by omega) (by omega) (by omega)
theorem vdqnt (g : Guard) (df : Fmt) (sf : Fmt) (rnd : Rnd) (d : Dst) (a : Src) : Statement (.vdqnt g df sf rnd d a) := by
  have := d.code_lt; have := a.code_lt; have := lowConv_lt df sf rnd
  exact ofElem rfl rfl (by decide) (by omega) (by omega) (by omega)
theorem vrng (g : Guard) (rk : Fin 4) (d : Dst) (a : Src) (b : Src) : Statement (.vrng g rk d a b) := by
  have := rk.isLt; have := d.code_lt; have := a.code_lt; have := a.deqBit_le; have := b.code_lt; have := b.deqBit_le
  exact ofElem rfl rfl (by decide) (by omega) (by omega) (lowE_lt (by omega) (by omega) (by omega) (by omega))
theorem vdrop (g : Guard) (fmt : Fmt) (d : Dst) (a : Src) (b : Src) : Statement (.vdrop g fmt d a b) := by
  have := fmt.code_lt; have := d.code_lt; have := a.code_lt; have := a.deqBit_le; have := b.code_lt; have := b.deqBit_le
  exact ofElem rfl rfl (by decide) (by omega) (by omega) (lowE_lt (by omega) (by omega) (by omega) (by omega))
theorem vacc (g : Guard) (fmt : Fmt) (d : Dst) (a : Src) : Statement (.vacc g fmt d a) := by
  have := fmt.code_lt; have := d.code_lt; have := a.code_lt; have := a.deqBit_le
  exact ofElem rfl rfl (by decide) (by omega) (by omega) (lowE_lt (by omega) (by omega) (by omega) (by omega))
theorem cturn (g : Guard) (lw : LaneW) (d : Dst) (a : Src) : Statement (.cturn g lw d a) := by
  have := lw.code_lt; have := d.code_lt; have := a.code_lt; have := a.deqBit_le
  exact ofElem rfl rfl (by decide) (by omega) (by omega) (lowE_lt (by omega) (by omega) (by omega) (by omega))
theorem fwd (g : Guard) (d : Dst) (a : Src) (b : Src) : Statement (.fwd g d a b) := by
  have := d.code_lt; have := a.code_lt; have := a.deqBit_le; have := b.code_lt; have := b.deqBit_le
  exact ofElem rfl rfl (by decide) (by omega) (by omega) (lowE_lt (by omega) (by omega) (by omega) (by omega))
theorem deq (g : Guard) (a : Src) (bo : Option Src) : Statement (.deq g a bo) := by
  have := a.code_lt; have := a.deqBit_le; have := optCode_lt bo; have := optDeqBit_le bo
  exact ofElem rfl rfl (by decide) (by omega) (by omega) (lowE_lt (by omega) (by omega) (by omega) (by omega))
theorem steer (g : Guard) (d : Dst) (a : Src) (b : Src) : Statement (.steer g d a b) := by
  have := d.code_lt; have := a.code_lt; have := a.deqBit_le; have := b.code_lt; have := b.deqBit_le
  exact ofElem rfl rfl (by decide) (by omega) (by omega) (lowE_lt (by omega) (by omega) (by omega) (by omega))
theorem mrgo (g : Guard) (d : Dst) (a : Src) (b : Src) : Statement (.mrgo g d a b) := by
  have := d.code_lt; have := a.code_lt; have := a.deqBit_le; have := b.code_lt; have := b.deqBit_le
  exact ofElem rfl rfl (by decide) (by omega) (by omega) (lowE_lt (by omega) (by omega) (by omega) (by omega))
theorem mrga (g : Guard) (d : Dst) (a : Src) (b : Src) : Statement (.mrga g d a b) := by
  have := d.code_lt; have := a.code_lt; have := a.deqBit_le; have := b.code_lt; have := b.deqBit_le
  exact ofElem rfl rfl (by decide) (by omega) (by omega) (lowE_lt (by omega) (by omega) (by omega) (by omega))
theorem tag (g : Guard) (tagv : Fin 3) (d : Dst) (a : Src) : Statement (.tag g tagv d a) := by
  have := tagv.isLt; have := d.code_lt; have := a.code_lt; have := a.deqBit_le
  exact ofElem rfl rfl (by decide) (by omega) (by omega) (lowE_lt (by omega) (by omega) (by omega) (by omega))
theorem markStroke (g : Guard) : Statement (.markStroke g) := by
  exact ofElem rfl rfl (by decide) (by omega) (by omega) (lowE_lt (by omega) (by omega) (by omega) (by omega))
theorem markDrain (g : Guard) : Statement (.markDrain g) := by
  exact ofElem rfl rfl (by decide) (by omega) (by omega) (lowE_lt (by omega) (by omega) (by omega) (by omega))
theorem markFreeze (g : Guard) : Statement (.markFreeze g) := by
  exact ofElem rfl rfl (by decide) (by omega) (by omega) (lowE_lt (by omega) (by omega) (by omega) (by omega))
theorem markBarrier (g : Guard) (d : Dst) : Statement (.markBarrier g d) := by
  have := d.code_lt
  exact ofElem rfl rfl (by decide) (by omega) (by omega) (lowE_lt (by omega) (by omega) (by omega) (by omega))
theorem markCut (g : Guard) (d : Dst) (a : Src) : Statement (.markCut g d a) := by
  have := d.code_lt; have := a.code_lt; have := a.deqBit_le
  exact ofElem rfl rfl (by decide) (by omega) (by omega) (lowE_lt (by omega) (by omega) (by omega) (by omega))
theorem crget (g : Guard) (ring : Fin 8) (d : Dst) : Statement (.crget g ring d) := by
  have := ring.isLt; have := d.code_lt
  exact ofElem rfl rfl (by decide) (by omega) (by omega) (lowE_lt (by omega) (by omega) (by omega) (by omega))
theorem crput (g : Guard) (ring : Fin 8) (a : Src) : Statement (.crput g ring a) := by
  have := ring.isLt; have := a.code_lt; have := a.deqBit_le
  exact ofElem rfl rfl (by decide) (by omega) (by omega) (lowE_lt (by omega) (by omega) (by omega) (by omega))
theorem ld (g : Guard) (mw : MemW) (n : Bool) (d : Dst) (a : Src) (b : Src) : Statement (.ld g mw n d a b) := by
  have := mw.code_lt; have := nBit_le n; have := bit_le n; have := d.code_lt; have := a.code_lt; have := a.deqBit_le; have := b.code_lt; have := b.deqBit_le
  exact ofElem rfl rfl (by decide) (by omega) (by omega) (lowE_lt (by omega) (by omega) (by omega) (by omega))
theorem st (g : Guard) (mw : MemW) (n : Bool) (a : Src) (b : Src) : Statement (.st g mw n a b) := by
  have := mw.code_lt; have := nBit_le n; have := bit_le n; have := a.code_lt; have := a.deqBit_le; have := b.code_lt; have := b.deqBit_le
  exact ofElem rfl rfl (by decide) (by omega) (by omega) (lowE_lt (by omega) (by omega) (by omega) (by omega))
theorem vld (g : Guard) (d : Dst) (a : Src) (b : Src) : Statement (.vld g d a b) := by
  have := d.code_lt; have := a.code_lt; have := a.deqBit_le; have := b.code_lt; have := b.deqBit_le
  exact ofElem rfl rfl (by decide) (by omega) (by omega) (lowE_lt (by omega) (by omega) (by omega) (by omega))
theorem vst (g : Guard) (a : Src) (b : Src) : Statement (.vst g a b) := by
  have := a.code_lt; have := a.deqBit_le; have := b.code_lt; have := b.deqBit_le
  exact ofElem rfl rfl (by decide) (by omega) (by omega) (lowE_lt (by omega) (by omega) (by omega) (by omega))
theorem lds (g : Guard) (d : Dst) (a : Src) (b : Src) : Statement (.lds g d a b) := by
  have := d.code_lt; have := a.code_lt; have := a.deqBit_le; have := b.code_lt; have := b.deqBit_le
  exact ofElem rfl rfl (by decide) (by omega) (by omega) (lowE_lt (by omega) (by omega) (by omega) (by omega))
theorem stf (g : Guard) (a : Src) (b : Src) : Statement (.stf g a b) := by
  have := a.code_lt; have := a.deqBit_le; have := b.code_lt; have := b.deqBit_le
  exact ofElem rfl rfl (by decide) (by omega) (by omega) (lowE_lt (by omega) (by omega) (by omega) (by omega))
theorem ldc (g : Guard) (d : Dst) (a : Src) (b : Src) : Statement (.ldc g d a b) := by
  have := d.code_lt; have := a.code_lt; have := a.deqBit_le; have := b.code_lt; have := b.deqBit_le
  exact ofElem rfl rfl (by decide) (by omega) (by omega) (lowE_lt (by omega) (by omega) (by omega) (by omega))
theorem xlat (g : Guard) (wr : Bool) (d : Dst) (a : Src) : Statement (.xlat g wr d a) := by
  have := nBit_le wr; have := bit_le wr; have := d.code_lt; have := a.code_lt; have := a.deqBit_le
  exact ofElem rfl rfl (by decide) (by omega) (by omega) (lowE_lt (by omega) (by omega) (by omega) (by omega))
theorem agenRearm (g : Guard) (d : Dst) (a : Src) : Statement (.agenRearm g d a) := by
  have := d.code_lt; have := a.code_lt; have := a.deqBit_le
  exact ofElem rfl rfl (by decide) (by omega) (by omega) (lowE_lt (by omega) (by omega) (by omega) (by omega))
theorem agenStep (g : Guard) (d : Dst) : Statement (.agenStep g d) := by
  have := d.code_lt
  exact ofElem rfl rfl (by decide) (by omega) (by omega) (lowE_lt (by omega) (by omega) (by omega) (by omega))
theorem atom (g : Guard) (aop : AtomOp) (n : Bool) (d : Dst) (a : Src) (b : Src) : Statement (.atom g aop n d a b) := by
  have := aop.code_lt; have := nBit_le n; have := bit_le n; have := d.code_lt; have := a.code_lt; have := a.deqBit_le; have := b.code_lt; have := b.deqBit_le
  exact ofElem rfl rfl (by decide) (by omega) (by omega) (lowE_lt (by omega) (by omega) (by omega) (by omega))
theorem ownapApply (g : Guard) (a : Src) : Statement (.ownapApply g a) := by
  have := a.code_lt; have := a.deqBit_le
  exact ofElem rfl rfl (by decide) (by omega) (by omega) (lowE_lt (by omega) (by omega) (by omega) (by omega))
theorem ownapReadout (g : Guard) (d : Dst) (a : Src) : Statement (.ownapReadout g d a) := by
  have := d.code_lt; have := a.code_lt; have := a.deqBit_le
  exact ofElem rfl rfl (by decide) (by omega) (by omega) (lowE_lt (by omega) (by omega) (by omega) (by omega))
theorem cld (g : Guard) (mw : MemW) (n : Bool) (d : Dst) (a : Src) : Statement (.cld g mw n d a) := by
  have := mw.code_lt; have := nBit_le n; have := bit_le n; have := d.code_lt; have := a.code_lt; have := a.deqBit_le
  exact ofElem rfl rfl (by decide) (by omega) (by omega) (lowE_lt (by omega) (by omega) (by omega) (by omega))
theorem cst (g : Guard) (mw : MemW) (n : Bool) (a : Src) (b : Src) : Statement (.cst g mw n a b) := by
  have := mw.code_lt; have := nBit_le n; have := bit_le n; have := a.code_lt; have := a.deqBit_le; have := b.code_lt; have := b.deqBit_le
  exact ofElem rfl rfl (by decide) (by omega) (by omega) (lowE_lt (by omega) (by omega) (by omega) (by omega))
theorem cvld (g : Guard) (d : Dst) (a : Src) : Statement (.cvld g d a) := by
  have := d.code_lt; have := a.code_lt; have := a.deqBit_le
  exact ofElem rfl rfl (by decide) (by omega) (by omega) (lowE_lt (by omega) (by omega) (by omega) (by omega))
theorem cvst (g : Guard) (a : Src) (b : Src) : Statement (.cvst g a b) := by
  have := a.code_lt; have := a.deqBit_le; have := b.code_lt; have := b.deqBit_le
  exact ofElem rfl rfl (by decide) (by omega) (by omega) (lowE_lt (by omega) (by omega) (by omega) (by omega))
theorem rtake (g : Guard) (d : Dst) (a : Src) : Statement (.rtake g d a) := by
  have := d.code_lt; have := a.code_lt; have := a.deqBit_le
  exact ofElem rfl rfl (by decide) (by omega) (by omega) (lowE_lt (by omega) (by omega) (by omega) (by omega))
theorem mxcfg (g : Guard) (d : Dst) (a : Src) : Statement (.mxcfg g d a) := by
  have := d.code_lt; have := a.code_lt; have := a.deqBit_le
  exact ofElem rfl rfl (by decide) (by omega) (by omega) (lowE_lt (by omega) (by omega) (by omega) (by omega))
theorem mxstat (g : Guard) (d : Dst) (a : Src) : Statement (.mxstat g d a) := by
  have := d.code_lt; have := a.code_lt; have := a.deqBit_le
  exact ofElem rfl rfl (by decide) (by omega) (by omega) (lowE_lt (by omega) (by omega) (by omega) (by omega))
theorem mxldb (g : Guard) (d : Dst) (a : Src) (b : Src) : Statement (.mxldb g d a b) := by
  have := d.code_lt; have := a.code_lt; have := a.deqBit_le; have := b.code_lt; have := b.deqBit_le
  exact ofElem rfl rfl (by decide) (by omega) (by omega) (lowE_lt (by omega) (by omega) (by omega) (by omega))
theorem mxrow (g : Guard) (d : Dst) (a : Src) (b : Src) : Statement (.mxrow g d a b) := by
  have := d.code_lt; have := a.code_lt; have := a.deqBit_le; have := b.code_lt; have := b.deqBit_le
  exact ofElem rfl rfl (by decide) (by omega) (by omega) (lowE_lt (by omega) (by omega) (by omega) (by omega))
theorem mxacc (g : Guard) (d : Dst) (a : Src) (b : Src) : Statement (.mxacc g d a b) := by
  have := d.code_lt; have := a.code_lt; have := a.deqBit_le; have := b.code_lt; have := b.deqBit_le
  exact ofElem rfl rfl (by decide) (by omega) (by omega) (lowE_lt (by omega) (by omega) (by omega) (by omega))
theorem mxdrn (g : Guard) (d : Dst) (a : Src) (b : Src) : Statement (.mxdrn g d a b) := by
  have := d.code_lt; have := a.code_lt; have := a.deqBit_le; have := b.code_lt; have := b.deqBit_le
  exact ofElem rfl rfl (by decide) (by omega) (by omega) (lowE_lt (by omega) (by omega) (by omega) (by omega))
theorem mxgrp (g : Guard) (d : Dst) (a : Src) : Statement (.mxgrp g d a) := by
  have := d.code_lt; have := a.code_lt; have := a.deqBit_le
  exact ofElem rfl rfl (by decide) (by omega) (by omega) (lowE_lt (by omega) (by omega) (by omega) (by omega))
theorem sxcpy (g : Guard) (d : Dst) (a : Src) : Statement (.sxcpy g d a) := by
  have := d.code_lt; have := a.code_lt; have := a.deqBit_le
  exact ofElem rfl rfl (by decide) (by omega) (by omega) (lowE_lt (by omega) (by omega) (by omega) (by omega))
theorem sxgth (g : Guard) (d : Dst) (a : Src) : Statement (.sxgth g d a) := by
  have := d.code_lt; have := a.code_lt; have := a.deqBit_le
  exact ofElem rfl rfl (by decide) (by omega) (by omega) (lowE_lt (by omega) (by omega) (by omega) (by omega))
theorem sxsct (g : Guard) (d : Dst) (a : Src) : Statement (.sxsct g d a) := by
  have := d.code_lt; have := a.code_lt; have := a.deqBit_le
  exact ofElem rfl rfl (by decide) (by omega) (by omega) (lowE_lt (by omega) (by omega) (by omega) (by omega))
theorem sxdeep (g : Guard) (d : Dst) (a : Src) : Statement (.sxdeep g d a) := by
  have := d.code_lt; have := a.code_lt; have := a.deqBit_le
  exact ofElem rfl rfl (by decide) (by omega) (by omega) (lowE_lt (by omega) (by omega) (by omega) (by omega))
theorem xpcfg (g : Guard) (d : Dst) (a : Src) : Statement (.xpcfg g d a) := by
  have := d.code_lt; have := a.code_lt; have := a.deqBit_le
  exact ofElem rfl rfl (by decide) (by omega) (by omega) (lowE_lt (by omega) (by omega) (by omega) (by omega))
theorem wrsrt (g : Guard) (d : Dst) (a : Src) : Statement (.wrsrt g d a) := by
  have := d.code_lt; have := a.code_lt; have := a.deqBit_le
  exact ofElem rfl rfl (by decide) (by omega) (by omega) (lowE_lt (by omega) (by omega) (by omega) (by omega))
theorem phint (g : Guard) (a : Src) (b : Src) : Statement (.phint g a b) := by
  have := a.code_lt; have := a.deqBit_le; have := b.code_lt; have := b.deqBit_le
  exact ofElem rfl rfl (by decide) (by omega) (by omega) (lowE_lt (by omega) (by omega) (by omega) (by omega))
theorem pumpAdd (h : Skip) (w : PumpW) (n : Bool) (rd : Reg) (ra : Reg) (pb : PSrc) : Statement (.pumpAdd h w n rd ra pb) := by
  have := w.code_lt; have := nBit_le n; have := bit_le n; have := rd.isLt; have := ra.isLt; have := psrc_reg pb; have := psrc_imm pb
  exact ofPump rfl rfl fun _ => ⟨by decide, by omega, by omega, by omega, by omega, by omega⟩
theorem pumpSub (h : Skip) (w : PumpW) (n : Bool) (rd : Reg) (ra : Reg) (pb : PSrc) : Statement (.pumpSub h w n rd ra pb) := by
  have := w.code_lt; have := nBit_le n; have := bit_le n; have := rd.isLt; have := ra.isLt; have := psrc_reg pb; have := psrc_imm pb
  exact ofPump rfl rfl fun _ => ⟨by decide, by omega, by omega, by omega, by omega, by omega⟩
theorem pumpMul (h : Skip) (w : PumpW) (n : Bool) (rd : Reg) (ra : Reg) (pb : PSrc) : Statement (.pumpMul h w n rd ra pb) := by
  have := w.code_lt; have := nBit_le n; have := bit_le n; have := rd.isLt; have := ra.isLt; have := psrc_reg pb; have := psrc_imm pb
  exact ofPump rfl rfl fun _ => ⟨by decide, by omega, by omega, by omega, by omega, by omega⟩
theorem pumpMulh (h : Skip) (w : PumpW) (rd : Reg) (ra : Reg) (pb : PSrc) : Statement (.pumpMulh h w rd ra pb) := by
  have := w.code_lt; have := rd.isLt; have := ra.isLt; have := psrc_reg pb; have := psrc_imm pb
  exact ofPump rfl rfl fun _ => ⟨by decide, by omega, by omega, by omega, by omega, by omega⟩
theorem pumpMulhn (h : Skip) (w : PumpW) (rd : Reg) (ra : Reg) (pb : PSrc) : Statement (.pumpMulhn h w rd ra pb) := by
  have := w.code_lt; have := rd.isLt; have := ra.isLt; have := psrc_reg pb; have := psrc_imm pb
  exact ofPump rfl rfl fun _ => ⟨by decide, by omega, by omega, by omega, by omega, by omega⟩
theorem pumpAdds (h : Skip) (w : PumpW) (n : Bool) (rd : Reg) (ra : Reg) (pb : PSrc) : Statement (.pumpAdds h w n rd ra pb) := by
  have := w.code_lt; have := nBit_le n; have := bit_le n; have := rd.isLt; have := ra.isLt; have := psrc_reg pb; have := psrc_imm pb
  exact ofPump rfl rfl fun _ => ⟨by decide, by omega, by omega, by omega, by omega, by omega⟩
theorem pumpSubs (h : Skip) (w : PumpW) (n : Bool) (rd : Reg) (ra : Reg) (pb : PSrc) : Statement (.pumpSubs h w n rd ra pb) := by
  have := w.code_lt; have := nBit_le n; have := bit_le n; have := rd.isLt; have := ra.isLt; have := psrc_reg pb; have := psrc_imm pb
  exact ofPump rfl rfl fun _ => ⟨by decide, by omega, by omega, by omega, by omega, by omega⟩
theorem pumpAnd (h : Skip) (w : PumpW) (n : Bool) (rd : Reg) (ra : Reg) (pb : PSrc) : Statement (.pumpAnd h w n rd ra pb) := by
  have := w.code_lt; have := nBit_le n; have := bit_le n; have := rd.isLt; have := ra.isLt; have := psrc_reg pb; have := psrc_imm pb
  exact ofPump rfl rfl fun _ => ⟨by decide, by omega, by omega, by omega, by omega, by omega⟩
theorem pumpOr (h : Skip) (w : PumpW) (n : Bool) (rd : Reg) (ra : Reg) (pb : PSrc) : Statement (.pumpOr h w n rd ra pb) := by
  have := w.code_lt; have := nBit_le n; have := bit_le n; have := rd.isLt; have := ra.isLt; have := psrc_reg pb; have := psrc_imm pb
  exact ofPump rfl rfl fun _ => ⟨by decide, by omega, by omega, by omega, by omega, by omega⟩
theorem pumpXor (h : Skip) (w : PumpW) (n : Bool) (rd : Reg) (ra : Reg) (pb : PSrc) : Statement (.pumpXor h w n rd ra pb) := by
  have := w.code_lt; have := nBit_le n; have := bit_le n; have := rd.isLt; have := ra.isLt; have := psrc_reg pb; have := psrc_imm pb
  exact ofPump rfl rfl fun _ => ⟨by decide, by omega, by omega, by omega, by omega, by omega⟩
theorem pumpAndn (h : Skip) (w : PumpW) (n : Bool) (rd : Reg) (ra : Reg) (pb : PSrc) : Statement (.pumpAndn h w n rd ra pb) := by
  have := w.code_lt; have := nBit_le n; have := bit_le n; have := rd.isLt; have := ra.isLt; have := psrc_reg pb; have := psrc_imm pb
  exact ofPump rfl rfl fun _ => ⟨by decide, by omega, by omega, by omega, by omega, by omega⟩
theorem pumpShl (h : Skip) (w : PumpW) (n : Bool) (rd : Reg) (ra : Reg) (pb : PSrc) : Statement (.pumpShl h w n rd ra pb) := by
  have := w.code_lt; have := nBit_le n; have := bit_le n; have := rd.isLt; have := ra.isLt; have := psrc_reg pb; have := psrc_imm pb
  exact ofPump rfl rfl fun _ => ⟨by decide, by omega, by omega, by omega, by omega, by omega⟩
theorem pumpShr (h : Skip) (w : PumpW) (rd : Reg) (ra : Reg) (pb : PSrc) : Statement (.pumpShr h w rd ra pb) := by
  have := w.code_lt; have := rd.isLt; have := ra.isLt; have := psrc_reg pb; have := psrc_imm pb
  exact ofPump rfl rfl fun _ => ⟨by decide, by omega, by omega, by omega, by omega, by omega⟩
theorem pumpSra (h : Skip) (w : PumpW) (rd : Reg) (ra : Reg) (pb : PSrc) : Statement (.pumpSra h w rd ra pb) := by
  have := w.code_lt; have := rd.isLt; have := ra.isLt; have := psrc_reg pb; have := psrc_imm pb
  exact ofPump rfl rfl fun _ => ⟨by decide, by omega, by omega, by omega, by omega, by omega⟩
theorem pumpRot (h : Skip) (w : PumpW) (n : Bool) (rd : Reg) (ra : Reg) (pb : PSrc) : Statement (.pumpRot h w n rd ra pb) := by
  have := w.code_lt; have := nBit_le n; have := bit_le n; have := rd.isLt; have := ra.isLt; have := psrc_reg pb; have := psrc_imm pb
  exact ofPump rfl rfl fun _ => ⟨by decide, by omega, by omega, by omega, by omega, by omega⟩
theorem pumpMin (h : Skip) (w : PumpW) (rd : Reg) (ra : Reg) (pb : PSrc) : Statement (.pumpMin h w rd ra pb) := by
  have := w.code_lt; have := rd.isLt; have := ra.isLt; have := psrc_reg pb; have := psrc_imm pb
  exact ofPump rfl rfl fun _ => ⟨by decide, by omega, by omega, by omega, by omega, by omega⟩
theorem pumpMax (h : Skip) (w : PumpW) (rd : Reg) (ra : Reg) (pb : PSrc) : Statement (.pumpMax h w rd ra pb) := by
  have := w.code_lt; have := rd.isLt; have := ra.isLt; have := psrc_reg pb; have := psrc_imm pb
  exact ofPump rfl rfl fun _ => ⟨by decide, by omega, by omega, by omega, by omega, by omega⟩
theorem pumpMinn (h : Skip) (w : PumpW) (rd : Reg) (ra : Reg) (pb : PSrc) : Statement (.pumpMinn h w rd ra pb) := by
  have := w.code_lt; have := rd.isLt; have := ra.isLt; have := psrc_reg pb; have := psrc_imm pb
  exact ofPump rfl rfl fun _ => ⟨by decide, by omega, by omega, by omega, by omega, by omega⟩
theorem pumpMaxn (h : Skip) (w : PumpW) (rd : Reg) (ra : Reg) (pb : PSrc) : Statement (.pumpMaxn h w rd ra pb) := by
  have := w.code_lt; have := rd.isLt; have := ra.isLt; have := psrc_reg pb; have := psrc_imm pb
  exact ofPump rfl rfl fun _ => ⟨by decide, by omega, by omega, by omega, by omega, by omega⟩
theorem pumpCmp (h : Skip) (rel : Rel) (w : PumpW) (n : Bool) (rd : Reg) (ra : Reg) (pb : PSrc) : Statement (.pumpCmp h rel w n rd ra pb) := by
  have := rel.code_lt; have := w.code_lt; have := nBit_le n; have := bit_le n; have := rd.isLt; have := ra.isLt; have := psrc_reg pb; have := psrc_imm pb
  exact ofPump rfl rfl fun _ => ⟨by decide, by omega, by omega, by omega, by omega, by omega⟩
theorem pumpTst (h : Skip) (none1 : Bool) (w : PumpW) (n : Bool) (rd : Reg) (ra : Reg) (pb : PSrc) : Statement (.pumpTst h none1 w n rd ra pb) := by
  have := nBit_le none1; have := bit_le none1; have := w.code_lt; have := nBit_le n; have := bit_le n; have := rd.isLt; have := ra.isLt; have := psrc_reg pb; have := psrc_imm pb
  exact ofPump rfl rfl fun _ => ⟨by decide, by omega, by omega, by omega, by omega, by omega⟩
theorem pumpSel (h : Skip) (w : PumpW) (n : Bool) (pd5i : Fin 32) (rd : Reg) (ra : Reg) (rb : Reg) : Statement (.pumpSel h w n pd5i rd ra rb) := by
  have := w.code_lt; have := nBit_le n; have := bit_le n; have := pd5i.isLt; have := rd.isLt; have := ra.isLt; have := rb.isLt
  exact ofPump rfl rfl fun _ => ⟨by decide, by omega, by omega, by omega, by omega, by omega⟩
theorem pumpClz (h : Skip) (w : PumpW) (n : Bool) (rd : Reg) (ra : Reg) : Statement (.pumpClz h w n rd ra) := by
  have := w.code_lt; have := nBit_le n; have := bit_le n; have := rd.isLt; have := ra.isLt
  exact ofPump rfl rfl fun _ => ⟨by decide, by omega, by omega, by omega, by omega, by omega⟩
theorem pumpPopc (h : Skip) (w : PumpW) (n : Bool) (rd : Reg) (ra : Reg) : Statement (.pumpPopc h w n rd ra) := by
  have := w.code_lt; have := nBit_le n; have := bit_le n; have := rd.isLt; have := ra.isLt
  exact ofPump rfl rfl fun _ => ⟨by decide, by omega, by omega, by omega, by omega, by omega⟩
theorem pumpBfx (h : Skip) (w : PumpW) (n : Bool) (rd : Reg) (ra : Reg) (rb : Reg) : Statement (.pumpBfx h w n rd ra rb) := by
  have := w.code_lt; have := nBit_le n; have := bit_le n; have := rd.isLt; have := ra.isLt; have := rb.isLt
  exact ofPump rfl rfl fun _ => ⟨by decide, by omega, by omega, by omega, by omega, by omega⟩
theorem pumpBfi (h : Skip) (w : PumpW) (n : Bool) (rd : Reg) (ra : Reg) (rb : Reg) : Statement (.pumpBfi h w n rd ra rb) := by
  have := w.code_lt; have := nBit_le n; have := bit_le n; have := rd.isLt; have := ra.isLt; have := rb.isLt
  exact ofPump rfl rfl fun _ => ⟨by decide, by omega, by omega, by omega, by omega, by omega⟩
theorem pumpMov (h : Skip) (w : PumpW) (n : Bool) (rd : Reg) (pm : PSrc) : Statement (.pumpMov h w n rd pm) := by
  have := w.code_lt; have := nBit_le n; have := bit_le n; have := rd.isLt; have := psrc_reg pm; have := psrc_imm pm
  exact ofPump rfl rfl fun _ => ⟨by decide, by omega, by omega, by omega, by omega, by omega⟩
theorem pumpPset (h : Skip) (w : PumpW) (pd5 : Fin 32) (pb : PSrc) : Statement (.pumpPset h w pd5 pb) := by
  have := w.code_lt; have := pd5.isLt; have := psrc_reg pb; have := psrc_imm pb
  exact ofPump rfl rfl fun _ => ⟨by decide, by omega, by omega, by omega, by omega, by omega⟩
theorem pumpPlog (h : Skip) (lop : LogicOp) (w : PumpW) (pd5 : Fin 32) (pa5 : Fin 32) (pb5 : Fin 32) : Statement (.pumpPlog h lop w pd5 pa5 pb5) := by
  have := lop.code_lt; have := w.code_lt; have := pd5.isLt; have := pa5.isLt; have := pb5.isLt
  exact ofPump rfl rfl fun _ => ⟨by decide, by omega, by omega, by omega, by omega, by omega⟩
theorem div (h : Skip) (w : PumpW) (rd : Reg) (ra : Reg) (pb : PSrc) : Statement (.div h w rd ra pb) := by
  have := w.code_lt; have := rd.isLt; have := ra.isLt; have := psrc_reg pb; have := psrc_imm pb
  exact ofPump rfl rfl fun _ => ⟨by decide, by omega, by omega, by omega, by omega, by omega⟩
theorem divn (h : Skip) (w : PumpW) (rd : Reg) (ra : Reg) (pb : PSrc) : Statement (.divn h w rd ra pb) := by
  have := w.code_lt; have := rd.isLt; have := ra.isLt; have := psrc_reg pb; have := psrc_imm pb
  exact ofPump rfl rfl fun _ => ⟨by decide, by omega, by omega, by omega, by omega, by omega⟩
theorem rem (h : Skip) (w : PumpW) (n : Bool) (rd : Reg) (ra : Reg) (pb : PSrc) : Statement (.rem h w n rd ra pb) := by
  have := w.code_lt; have := nBit_le n; have := bit_le n; have := rd.isLt; have := ra.isLt; have := psrc_reg pb; have := psrc_imm pb
  exact ofPump rfl rfl fun _ => ⟨by decide, by omega, by omega, by omega, by omega, by omega⟩
theorem movk (h : Skip) (rd : Reg) (v16 : BitVec 16) (fld : Fin 4) : Statement (.movk h rd v16 fld) := by
  have := rd.isLt; have := v16.isLt; have := fld.isLt
  exact ofPump rfl rfl fun _ => ⟨by decide, by omega, by omega, by omega, by omega, by omega⟩
theorem pumpLd (h : Skip) (w : PumpW) (n : Bool) (rd : Reg) (ra : Reg) (disp : BitVec 24) : Statement (.pumpLd h w n rd ra disp) := by
  have := w.code_lt; have := nBit_le n; have := bit_le n; have := rd.isLt; have := ra.isLt; have := disp.isLt
  exact ofPump rfl rfl fun _ => ⟨by decide, by omega, by omega, by omega, by omega, by omega⟩
theorem pumpSt (h : Skip) (w : PumpW) (n : Bool) (ra : Reg) (rb : Reg) (disp : BitVec 24) : Statement (.pumpSt h w n ra rb disp) := by
  have := w.code_lt; have := nBit_le n; have := bit_le n; have := ra.isLt; have := rb.isLt; have := disp.isLt
  exact ofPump rfl rfl fun _ => ⟨by decide, by omega, by omega, by omega, by omega, by omega⟩
theorem pumpLds (h : Skip) (n : Bool) (rd : Reg) (ra : Reg) (disp : BitVec 24) : Statement (.pumpLds h n rd ra disp) := by
  have := nBit_le n; have := bit_le n; have := rd.isLt; have := ra.isLt; have := disp.isLt
  exact ofPump rfl rfl fun _ => ⟨by decide, by omega, by omega, by omega, by omega, by omega⟩
theorem pumpStf (h : Skip) (n : Bool) (ra : Reg) (rb : Reg) (disp : BitVec 24) : Statement (.pumpStf h n ra rb disp) := by
  have := nBit_le n; have := bit_le n; have := ra.isLt; have := rb.isLt; have := disp.isLt
  exact ofPump rfl rfl fun _ => ⟨by decide, by omega, by omega, by omega, by omega, by omega⟩
theorem pumpLdc (h : Skip) (n : Bool) (rd : Reg) (ra : Reg) (disp : BitVec 24) : Statement (.pumpLdc h n rd ra disp) := by
  have := nBit_le n; have := bit_le n; have := rd.isLt; have := ra.isLt; have := disp.isLt
  exact ofPump rfl rfl fun _ => ⟨by decide, by omega, by omega, by omega, by omega, by omega⟩
theorem cas (h : Skip) (w : PumpW) (n : Bool) (rd : Reg) (ra : Reg) (rb : Reg) (disp : BitVec 24) : Statement (.cas h w n rd ra rb disp) := by
  have := w.code_lt; have := nBit_le n; have := bit_le n; have := rd.isLt; have := ra.isLt; have := rb.isLt; have := disp.isLt
  exact ofPump rfl rfl fun _ => ⟨by decide, by omega, by omega, by omega, by omega, by omega⟩
theorem swap (h : Skip) (w : PumpW) (n : Bool) (rd : Reg) (ra : Reg) (rb : Reg) (disp : BitVec 24) : Statement (.swap h w n rd ra rb disp) := by
  have := w.code_lt; have := nBit_le n; have := bit_le n; have := rd.isLt; have := ra.isLt; have := rb.isLt; have := disp.isLt
  exact ofPump rfl rfl fun _ => ⟨by decide, by omega, by omega, by omega, by omega, by omega⟩
theorem fadd (h : Skip) (w : PumpW) (n : Bool) (rd : Reg) (ra : Reg) (rb : Reg) (disp : BitVec 24) : Statement (.fadd h w n rd ra rb disp) := by
  have := w.code_lt; have := nBit_le n; have := bit_le n; have := rd.isLt; have := ra.isLt; have := rb.isLt; have := disp.isLt
  exact ofPump rfl rfl fun _ => ⟨by decide, by omega, by omega, by omega, by omega, by omega⟩
theorem fmin (h : Skip) (w : PumpW) (n : Bool) (rd : Reg) (ra : Reg) (rb : Reg) (disp : BitVec 24) : Statement (.fmin h w n rd ra rb disp) := by
  have := w.code_lt; have := nBit_le n; have := bit_le n; have := rd.isLt; have := ra.isLt; have := rb.isLt; have := disp.isLt
  exact ofPump rfl rfl fun _ => ⟨by decide, by omega, by omega, by omega, by omega, by omega⟩
theorem fmax (h : Skip) (w : PumpW) (n : Bool) (rd : Reg) (ra : Reg) (rb : Reg) (disp : BitVec 24) : Statement (.fmax h w n rd ra rb disp) := by
  have := w.code_lt; have := nBit_le n; have := bit_le n; have := rd.isLt; have := ra.isLt; have := rb.isLt; have := disp.isLt
  exact ofPump rfl rfl fun _ => ⟨by decide, by omega, by omega, by omega, by omega, by omega⟩
theorem fand (h : Skip) (w : PumpW) (n : Bool) (rd : Reg) (ra : Reg) (rb : Reg) (disp : BitVec 24) : Statement (.fand h w n rd ra rb disp) := by
  have := w.code_lt; have := nBit_le n; have := bit_le n; have := rd.isLt; have := ra.isLt; have := rb.isLt; have := disp.isLt
  exact ofPump rfl rfl fun _ => ⟨by decide, by omega, by omega, by omega, by omega, by omega⟩
theorem fOr (h : Skip) (w : PumpW) (n : Bool) (rd : Reg) (ra : Reg) (rb : Reg) (disp : BitVec 24) : Statement (.fOr h w n rd ra rb disp) := by
  have := w.code_lt; have := nBit_le n; have := bit_le n; have := rd.isLt; have := ra.isLt; have := rb.isLt; have := disp.isLt
  exact ofPump rfl rfl fun _ => ⟨by decide, by omega, by omega, by omega, by omega, by omega⟩
theorem fxadd (h : Skip) (xf : Bool) (ra : Reg) (rb : Reg) (disp : BitVec 24) : Statement (.fxadd h xf ra rb disp) := by
  have := nBit_le xf; have := bit_le xf; have := ra.isLt; have := rb.isLt; have := disp.isLt
  exact ofPump rfl rfl fun _ => ⟨by decide, by omega, by omega, by omega, by omega, by omega⟩
theorem fxaddRd (h : Skip) (xf : Bool) (clr : Bool) (rd : Reg) (ra : Reg) (disp : BitVec 24) : Statement (.fxaddRd h xf clr rd ra disp) := by
  have := nBit_le xf; have := bit_le xf; have := nBit_le clr; have := bit_le clr; have := rd.isLt; have := ra.isLt; have := disp.isLt
  exact ofPump rfl rfl fun _ => ⟨by decide, by omega, by omega, by omega, by omega, by omega⟩
theorem waitv (h : Skip) (w : PumpW) (n : Bool) (mon : Fin 8) (rd : Reg) (ra : Reg) (rb : Reg) (disp : BitVec 24) : Statement (.waitv h w n mon rd ra rb disp) := by
  have := w.code_lt; have := nBit_le n; have := bit_le n; have := mon.isLt; have := rd.isLt; have := ra.isLt; have := rb.isLt; have := disp.isLt
  exact ofPump rfl rfl fun _ => ⟨by decide, by omega, by omega, by omega, by omega, by omega⟩
theorem fenceAcq (h : Skip) (scope : Scope) : Statement (.fenceAcq h scope) := by
  have := scope.code_lt
  exact ofPump rfl rfl fun _ => ⟨by decide, by omega, by omega, by omega, by omega, by omega⟩
theorem fenceRel (h : Skip) (scope : Scope) : Statement (.fenceRel h scope) := by
  have := scope.code_lt
  exact ofPump rfl rfl fun _ => ⟨by decide, by omega, by omega, by omega, by omega, by omega⟩
theorem fenceFull (h : Skip) (scope : Scope) : Statement (.fenceFull h scope) := by
  have := scope.code_lt
  exact ofPump rfl rfl fun _ => ⟨by decide, by omega, by omega, by omega, by omega, by omega⟩
theorem skip (h : Skip) (cnt24 : Nat) : Statement (.skip h cnt24) := by
  refine ofPump rfl rfl fun hw => ?_
  have hc : 1 ≤ cnt24 ∧ cnt24 ≤ 31 := by
    simpa [Instr.wellFormed, Instr.violation, Instr.operands, Instr.pumpFieldsOk] using hw
  exact ⟨by decide, by decide, by decide, by decide, by decide, by omega⟩
theorem abort (h : Skip) : Statement (.abort h) := by
  exact ofPump rfl rfl fun _ => ⟨by decide, by omega, by omega, by omega, by omega, by omega⟩
theorem noteSend (h : Skip) (ra : Reg) (rb : Reg) : Statement (.noteSend h ra rb) := by
  have := ra.isLt; have := rb.isLt
  exact ofPump rfl rfl fun _ => ⟨by decide, by omega, by omega, by omega, by omega, by omega⟩
theorem noteTake (h : Skip) (rd : Reg) : Statement (.noteTake h rd) := by
  have := rd.isLt
  exact ofPump rfl rfl fun _ => ⟨by decide, by omega, by omega, by omega, by omega, by omega⟩
theorem timerOnce (h : Skip) (rd : Reg) (ra : Reg) : Statement (.timerOnce h rd ra) := by
  have := rd.isLt; have := ra.isLt
  exact ofPump rfl rfl fun _ => ⟨by decide, by omega, by omega, by omega, by omega, by omega⟩
theorem timerPer (h : Skip) (rd : Reg) (ra : Reg) : Statement (.timerPer h rd ra) := by
  have := rd.isLt; have := ra.isLt
  exact ofPump rfl rfl fun _ => ⟨by decide, by omega, by omega, by omega, by omega, by omega⟩
theorem enq (h : Skip) (ra : Reg) (rb : Reg) : Statement (.enq h ra rb) := by
  have := ra.isLt; have := rb.isLt
  exact ofPump rfl rfl fun _ => ⟨by decide, by omega, by omega, by omega, by omega, by omega⟩
theorem deqq (h : Skip) (rd : Reg) (ra : Reg) (rb : Reg) : Statement (.deqq h rd ra rb) := by
  have := rd.isLt; have := ra.isLt; have := rb.isLt
  exact ofPump rfl rfl fun _ => ⟨by decide, by omega, by omega, by omega, by omega, by omega⟩
theorem tailw (h : Skip) (ra : Reg) (rb : Reg) : Statement (.tailw h ra rb) := by
  have := ra.isLt; have := rb.isLt
  exact ofPump rfl rfl fun _ => ⟨by decide, by omega, by omega, by omega, by omega, by omega⟩
theorem launch (h : Skip) (rd : Reg) (ra : Reg) (rb : Reg) : Statement (.launch h rd ra rb) := by
  have := rd.isLt; have := ra.isLt; have := rb.isLt
  exact ofPump rfl rfl fun _ => ⟨by decide, by omega, by omega, by omega, by omega, by omega⟩
theorem kstat (h : Skip) (rd : Reg) (ra : Reg) : Statement (.kstat h rd ra) := by
  have := rd.isLt; have := ra.isLt
  exact ofPump rfl rfl fun _ => ⟨by decide, by omega, by omega, by omega, by omega, by omega⟩
theorem digest (h : Skip) (rd : Reg) (ra : Reg) (rb : Reg) : Statement (.digest h rd ra rb) := by
  have := rd.isLt; have := ra.isLt; have := rb.isLt
  exact ofPump rfl rfl fun _ => ⟨by decide, by omega, by omega, by omega, by omega, by omega⟩
theorem trigbBind (h : Skip) (rd : Reg) (ra : Reg) (rb : Reg) : Statement (.trigbBind h rd ra rb) := by
  have := rd.isLt; have := ra.isLt; have := rb.isLt
  exact ofPump rfl rfl fun _ => ⟨by decide, by omega, by omega, by omega, by omega, by omega⟩
theorem trigbUnbind (h : Skip) (rd : Reg) (ra : Reg) : Statement (.trigbUnbind h rd ra) := by
  have := rd.isLt; have := ra.isLt
  exact ofPump rfl rfl fun _ => ⟨by decide, by omega, by omega, by omega, by omega, by omega⟩
theorem trigbQuery (h : Skip) (rd : Reg) (ra : Reg) : Statement (.trigbQuery h rd ra) := by
  have := rd.isLt; have := ra.isLt
  exact ofPump rfl rfl fun _ => ⟨by decide, by omega, by omega, by omega, by omega, by omega⟩
theorem regionAlloc (h : Skip) (rd : Reg) (ra : Reg) : Statement (.regionAlloc h rd ra) := by
  have := rd.isLt; have := ra.isLt
  exact ofPump rfl rfl fun _ => ⟨by decide, by omega, by omega, by omega, by omega, by omega⟩
theorem regionFree (h : Skip) (rd : Reg) (ra : Reg) : Statement (.regionFree h rd ra) := by
  have := rd.isLt; have := ra.isLt
  exact ofPump rfl rfl fun _ => ⟨by decide, by omega, by omega, by omega, by omega, by omega⟩
theorem rpoolFill (h : Skip) (rd : Reg) (ra : Reg) (pool : Fin 16) (die2 : Fin 4) : Statement (.rpoolFill h rd ra pool die2) := by
  have := rd.isLt; have := ra.isLt; have := pool.isLt; have := die2.isLt
  exact ofPump rfl rfl fun _ => ⟨by decide, by omega, by omega, by omega, by omega, by omega⟩
theorem rpoolClose (h : Skip) (rd : Reg) (ra : Reg) (pool : Fin 16) (die2 : Fin 4) : Statement (.rpoolClose h rd ra pool die2) := by
  have := rd.isLt; have := ra.isLt; have := pool.isLt; have := die2.isLt
  exact ofPump rfl rfl fun _ => ⟨by decide, by omega, by omega, by omega, by omega, by omega⟩
theorem rpoolQuery (h : Skip) (rd : Reg) (ra : Reg) (pool : Fin 16) (die2 : Fin 4) : Statement (.rpoolQuery h rd ra pool die2) := by
  have := rd.isLt; have := ra.isLt; have := pool.isLt; have := die2.isLt
  exact ofPump rfl rfl fun _ => ⟨by decide, by omega, by omega, by omega, by omega, by omega⟩
theorem cfgw (h : Skip) (ra : Reg) (rb : Reg) (tg : BitVec 16) : Statement (.cfgw h ra rb tg) := by
  have := ra.isLt; have := rb.isLt; have := tg.isLt
  exact ofPump rfl rfl fun _ => ⟨by decide, by omega, by omega, by omega, by omega, by omega⟩
theorem cfgrdReq (h : Skip) (ra : Reg) (tg : BitVec 16) : Statement (.cfgrdReq h ra tg) := by
  have := ra.isLt; have := tg.isLt
  exact ofPump rfl rfl fun _ => ⟨by decide, by omega, by omega, by omega, by omega, by omega⟩
theorem cfgrdTake (h : Skip) (rd : Reg) : Statement (.cfgrdTake h rd) := by
  have := rd.isLt
  exact ofPump rfl rfl fun _ => ⟨by decide, by omega, by omega, by omega, by omega, by omega⟩
theorem cfgsig (h : Skip) (ra : Reg) (rb : Reg) (key : Fin 8) (tg : BitVec 16) : Statement (.cfgsig h ra rb key tg) := by
  have := ra.isLt; have := rb.isLt; have := key.isLt; have := tg.isLt
  exact ofPump rfl rfl fun _ => ⟨by decide, by omega, by omega, by omega, by omega, by omega⟩
theorem crcCfg (h : Skip) (ra : Reg) (rb : Reg) (tg : BitVec 16) : Statement (.crcCfg h ra rb tg) := by
  have := ra.isLt; have := rb.isLt; have := tg.isLt
  exact ofPump rfl rfl fun _ => ⟨by decide, by omega, by omega, by omega, by omega, by omega⟩
theorem crcMem (h : Skip) (rd : Reg) (ra : Reg) (rb : Reg) : Statement (.crcMem h rd ra rb) := by
  have := rd.isLt; have := ra.isLt; have := rb.isLt
  exact ofPump rfl rfl fun _ => ⟨by decide, by omega, by omega, by omega, by omega, by omega⟩
theorem route (h : Skip) (rd : Reg) (ra : Reg) (rb : Reg) : Statement (.route h rd ra rb) := by
  have := rd.isLt; have := ra.isLt; have := rb.isLt
  exact ofPump rfl rfl fun _ => ⟨by decide, by omega, by omega, by omega, by omega, by omega⟩
theorem prime (h : Skip) (ra : Reg) (k4 : Fin 4) (tg : BitVec 16) : Statement (.prime h ra k4 tg) := by
  have := ra.isLt; have := k4.isLt; have := tg.isLt
  exact ofPump rfl rfl fun _ => ⟨by decide, by omega, by omega, by omega, by omega, by omega⟩
theorem freeze (h : Skip) (ra : Reg) (tg : BitVec 16) : Statement (.freeze h ra tg) := by
  have := ra.isLt; have := tg.isLt
  exact ofPump rfl rfl fun _ => ⟨by decide, by omega, by omega, by omega, by omega, by omega⟩
theorem freezeStroke (h : Skip) (ra : Reg) (tg : BitVec 16) : Statement (.freezeStroke h ra tg) := by
  have := ra.isLt; have := tg.isLt
  exact ofPump rfl rfl fun _ => ⟨by decide, by omega, by omega, by omega, by omega, by omega⟩
theorem thaw (h : Skip) (ra : Reg) (tg : BitVec 16) : Statement (.thaw h ra tg) := by
  have := ra.isLt; have := tg.isLt
  exact ofPump rfl rfl fun _ => ⟨by decide, by omega, by omega, by omega, by omega, by omega⟩
theorem imgoutMem (h : Skip) (ra : Reg) (rb : Reg) (tg : BitVec 16) : Statement (.imgoutMem h ra rb tg) := by
  have := ra.isLt; have := rb.isLt; have := tg.isLt
  exact ofPump rfl rfl fun _ => ⟨by decide, by omega, by omega, by omega, by omega, by omega⟩
theorem imgoutShadow (h : Skip) (ra : Reg) (tg : BitVec 16) : Statement (.imgoutShadow h ra tg) := by
  have := ra.isLt; have := tg.isLt
  exact ofPump rfl rfl fun _ => ⟨by decide, by omega, by omega, by omega, by omega, by omega⟩
theorem imgoutBack (h : Skip) (ra : Reg) (tg : BitVec 16) : Statement (.imgoutBack h ra tg) := by
  have := ra.isLt; have := tg.isLt
  exact ofPump rfl rfl fun _ => ⟨by decide, by omega, by omega, by omega, by omega, by omega⟩
theorem rsload (h : Skip) (ra : Reg) (rb : Reg) (tg : BitVec 16) : Statement (.rsload h ra rb tg) := by
  have := ra.isLt; have := rb.isLt; have := tg.isLt
  exact ofPump rfl rfl fun _ => ⟨by decide, by omega, by omega, by omega, by omega, by omega⟩
theorem warm (h : Skip) (rd : Reg) (ra : Reg) (rb : Reg) : Statement (.warm h rd ra rb) := by
  have := rd.isLt; have := ra.isLt; have := rb.isLt
  exact ofPump rfl rfl fun _ => ⟨by decide, by omega, by omega, by omega, by omega, by omega⟩
theorem wcand (h : Skip) (rd : Reg) (ra : Reg) : Statement (.wcand h rd ra) := by
  have := rd.isLt; have := ra.isLt
  exact ofPump rfl rfl fun _ => ⟨by decide, by omega, by omega, by omega, by omega, by omega⟩
theorem verd (h : Skip) (ra : Reg) (rb : Reg) : Statement (.verd h ra rb) := by
  have := ra.isLt; have := rb.isLt
  exact ofPump rfl rfl fun _ => ⟨by decide, by omega, by omega, by omega, by omega, by omega⟩
theorem wdraw (h : Skip) (rd : Reg) (ra : Reg) (rb : Reg) : Statement (.wdraw h rd ra rb) := by
  have := rd.isLt; have := ra.isLt; have := rb.isLt
  exact ofPump rfl rfl fun _ => ⟨by decide, by omega, by omega, by omega, by omega, by omega⟩
theorem wstat (h : Skip) (item : Fin 7) (rd : Reg) (ra : Reg) (v16 : BitVec 16) : Statement (.wstat h item rd ra v16) := by
  have := item.isLt; have := rd.isLt; have := ra.isLt; have := v16.isLt
  exact ofPump rfl rfl fun _ => ⟨by decide, by omega, by omega, by omega, by omega, by omega⟩
theorem bara (h : Skip) (ra : Reg) : Statement (.bara h ra) := by
  have := ra.isLt
  exact ofPump rfl rfl fun _ => ⟨by decide, by omega, by omega, by omega, by omega, by omega⟩
theorem barmSet (h : Skip) (ra : Reg) (rb : Reg) : Statement (.barmSet h ra rb) := by
  have := ra.isLt; have := rb.isLt
  exact ofPump rfl rfl fun _ => ⟨by decide, by omega, by omega, by omega, by omega, by omega⟩
theorem barmTake (h : Skip) (rd : Reg) : Statement (.barmTake h rd) := by
  have := rd.isLt
  exact ofPump rfl rfl fun _ => ⟨by decide, by omega, by omega, by omega, by omega, by omega⟩
theorem pbudgSet (h : Skip) (ra : Reg) (rb : Reg) : Statement (.pbudgSet h ra rb) := by
  have := ra.isLt; have := rb.isLt
  exact ofPump rfl rfl fun _ => ⟨by decide, by omega, by omega, by omega, by omega, by omega⟩
theorem pbudgGet (h : Skip) (rd : Reg) (ra : Reg) : Statement (.pbudgGet h rd ra) := by
  have := rd.isLt; have := ra.isLt
  exact ofPump rfl rfl fun _ => ⟨by decide, by omega, by omega, by omega, by omega, by omega⟩
theorem spineFreq (h : Skip) (ra : Reg) (rb : Reg) (tg : BitVec 16) : Statement (.spineFreq h ra rb tg) := by
  have := ra.isLt; have := rb.isLt; have := tg.isLt
  exact ofPump rfl rfl fun _ => ⟨by decide, by omega, by omega, by omega, by omega, by omega⟩
theorem spineSel (h : Skip) (ra : Reg) (rb : Reg) (tg : BitVec 16) : Statement (.spineSel h ra rb tg) := by
  have := ra.isLt; have := rb.isLt; have := tg.isLt
  exact ofPump rfl rfl fun _ => ⟨by decide, by omega, by omega, by omega, by omega, by omega⟩
theorem pumpPhint (h : Skip) (ra : Reg) (onset : BitVec 8) (len16 : BitVec 16) : Statement (.pumpPhint h ra onset len16) := by
  have := ra.isLt; have := onset.isLt; have := len16.isLt
  exact ofPump rfl rfl fun _ => ⟨by decide, by omega, by omega, by omega, by omega, by omega⟩
theorem tlbiPage (h : Skip) (ra : Reg) : Statement (.tlbiPage h ra) := by
  have := ra.isLt
  exact ofPump rfl rfl fun _ => ⟨by decide, by omega, by omega, by omega, by omega, by omega⟩
theorem tlbiCtx (h : Skip) : Statement (.tlbiCtx h) := by
  exact ofPump rfl rfl fun _ => ⟨by decide, by omega, by omega, by omega, by omega, by omega⟩
theorem tlbiAll (h : Skip) : Statement (.tlbiAll h) := by
  exact ofPump rfl rfl fun _ => ⟨by decide, by omega, by omega, by omega, by omega, by omega⟩
theorem migrMove (h : Skip) (ra : Reg) (rb : Reg) (tg : BitVec 16) : Statement (.migrMove h ra rb tg) := by
  have := ra.isLt; have := rb.isLt; have := tg.isLt
  exact ofPump rfl rfl fun _ => ⟨by decide, by omega, by omega, by omega, by omega, by omega⟩
theorem migrOut (h : Skip) (ra : Reg) (rb : Reg) (tg : BitVec 16) : Statement (.migrOut h ra rb tg) := by
  have := ra.isLt; have := rb.isLt; have := tg.isLt
  exact ofPump rfl rfl fun _ => ⟨by decide, by omega, by omega, by omega, by omega, by omega⟩
theorem migrIn (h : Skip) (ra : Reg) (rb : Reg) (tg : BitVec 16) : Statement (.migrIn h ra rb tg) := by
  have := ra.isLt; have := rb.isLt; have := tg.isLt
  exact ofPump rfl rfl fun _ => ⟨by decide, by omega, by omega, by omega, by omega, by omega⟩
theorem wclose (h : Skip) (ra : Reg) : Statement (.wclose h ra) := by
  have := ra.isLt
  exact ofPump rfl rfl fun _ => ⟨by decide, by omega, by omega, by omega, by omega, by omega⟩
theorem pghash (h : Skip) (ra : Reg) (rb : Reg) (tg : BitVec 16) : Statement (.pghash h ra rb tg) := by
  have := ra.isLt; have := rb.isLt; have := tg.isLt
  exact ofPump rfl rfl fun _ => ⟨by decide, by omega, by omega, by omega, by omega, by omega⟩
theorem sysr (h : Skip) (rd : Reg) (sidx : BitVec 12) : Statement (.sysr h rd sidx) := by
  have := rd.isLt; have := sidx.isLt
  exact ofPump rfl rfl fun _ => ⟨by decide, by omega, by omega, by omega, by omega, by omega⟩
theorem sysw (h : Skip) (sidx : BitVec 12) (rb : Reg) : Statement (.sysw h sidx rb) := by
  have := sidx.isLt; have := rb.isLt
  exact ofPump rfl rfl fun _ => ⟨by decide, by omega, by omega, by omega, by omega, by omega⟩
theorem vectorResultWrite (t : Nat) (e : Nat) : Statement (.vectorResultWrite t e) := ofNone rfl rfl
theorem loadDataReturn (t : Nat) (e : Nat) (rq : Nat) : Statement (.loadDataReturn t e rq) := ofNone rfl rfl
theorem feWordFullWake (t : Nat) (e : Nat) (rq : Nat) : Statement (.feWordFullWake t e rq) := ofNone rfl rfl
theorem xlatWalkComplete (t : Nat) (e : Nat) (rq : Nat) : Statement (.xlatWalkComplete t e rq) := ofNone rfl rfl
theorem rangeTokenReply (t : Nat) (e : Nat) (rq : Nat) : Statement (.rangeTokenReply t e rq) := ofNone rfl rfl
theorem pageWalkComplete (t : Nat) (e : Nat) (rq : Nat) : Statement (.pageWalkComplete t e rq) := ofNone rfl rfl
theorem memoryFaultFound (t : Nat) (e : Nat) (rq : Nat) (found : StoreFault) : Statement (.memoryFaultFound t e rq found) := ofNone rfl rfl
theorem islandCommandStart (en : Nat) : Statement (.islandCommandStart en) := ofNone rfl rfl
theorem islandBLoadComplete (en : Nat) : Statement (.islandBLoadComplete en) := ofNone rfl rfl
theorem islandRowStart (en : Nat) : Statement (.islandRowStart en) := ofNone rfl rfl
theorem islandDrainRow (en : Nat) : Statement (.islandDrainRow en) := ofNone rfl rfl
theorem islandFault (en : Nat) : Statement (.islandFault en) := ofNone rfl rfl
theorem islandLoadResume (en : Nat) : Statement (.islandLoadResume en) := ofNone rfl rfl
theorem engineError (en : Nat) : Statement (.engineError en) := ofNone rfl rfl
theorem streamCommandStart (en : Nat) : Statement (.streamCommandStart en) := ofNone rfl rfl
theorem streamCommandComplete (en : Nat) : Statement (.streamCommandComplete en) := ofNone rfl rfl
theorem streamFaultResume (en : Nat) : Statement (.streamFaultResume en) := ofNone rfl rfl
theorem expanderBlockComplete (en : Nat) : Statement (.expanderBlockComplete en) := ofNone rfl rfl
theorem expanderStreamSlotFree (en : Nat) : Statement (.expanderStreamSlotFree en) := ofNone rfl rfl
theorem weirSortComplete (en : Nat) : Statement (.weirSortComplete en) := ofNone rfl rfl
theorem engineReply (en : Nat) : Statement (.engineReply en) := ofNone rfl rfl
theorem rangeServerServe (die : Nat) : Statement (.rangeServerServe die) := ofNone rfl rfl
theorem poolTableReadComplete (pk : Nat) : Statement (.poolTableReadComplete pk) := ofNone rfl rfl
theorem timerExpiry (core : Nat) : Statement (.timerExpiry core) := ofNone rfl rfl
theorem monitorFire (core : Nat) (k : Nat) : Statement (.monitorFire core k) := ofNone rfl rfl
theorem configReplyArrival (core : Nat) : Statement (.configReplyArrival core) := ofNone rfl rfl
theorem migrComplete (id : Nat) : Statement (.migrComplete id) := ofNone rfl rfl
theorem strokeLengthExpiry (r : Nat) : Statement (.strokeLengthExpiry r) := ofNone rfl rfl
theorem strokeMarkInject (r : Nat) : Statement (.strokeMarkInject r) := ofNone rfl rfl
theorem markAligned (at_ : MarkSite) : Statement (.markAligned at_) := ofNone rfl rfl
theorem barrierAligned (at_ : MarkSite) : Statement (.barrierAligned at_) := ofNone rfl rfl
theorem strokeClose (r : Nat) : Statement (.strokeClose r) := ofNone rfl rfl
theorem strokeDrainComplete (r : Nat) : Statement (.strokeDrainComplete r) := ofNone rfl rfl
theorem drainInject (r : Nat) : Statement (.drainInject r) := ofNone rfl rfl
theorem planeSwitch (r : Nat) : Statement (.planeSwitch r) := ofNone rfl rfl
theorem cutArrival (t : Nat) (e : Nat) : Statement (.cutArrival t e) := ofNone rfl rfl
theorem ringSpill (t : Nat) (e : Nat) (c : Nat) : Statement (.ringSpill t e c) := ofNone rfl rfl
theorem ringRefill (t : Nat) (e : Nat) (c : Nat) : Statement (.ringRefill t e c) := ofNone rfl rfl
theorem primeComplete (r : Nat) : Statement (.primeComplete r) := ofNone rfl rfl
theorem freezeWaveComplete (r : Nat) : Statement (.freezeWaveComplete r) := ofNone rfl rfl
theorem kernelQuiescence (r : Nat) : Statement (.kernelQuiescence r) := ofNone rfl rfl
theorem kernelRetire (r : Nat) : Statement (.kernelRetire r) := ofNone rfl rfl
theorem watchdogExpiry (r : Nat) : Statement (.watchdogExpiry r) := ofNone rfl rfl
theorem configEccError (t : Nat) (caddr : Nat) : Statement (.configEccError t caddr) := ofNone rfl rfl
theorem configScrub (t : Nat) : Statement (.configScrub t) := ofNone rfl rfl
theorem queueEnable (q : Nat) : Statement (.queueEnable q) := ofNone rfl rfl
theorem queueDisable (q : Nat) : Statement (.queueDisable q) := ofNone rfl rfl
theorem queueRetry (q : Nat) : Statement (.queueRetry q) := ofNone rfl rfl
theorem queueSkip (q : Nat) : Statement (.queueSkip q) := ofNone rfl rfl
theorem tailWrite (src : TailSource) (q : Nat) (tail : W64) : Statement (.tailWrite src q tail) := ofNone rfl rfl
theorem recordStart (die : Nat) : Statement (.recordStart die) := ofNone rfl rfl
theorem recordComplete (q : Nat) (idx : Nat) : Statement (.recordComplete q idx) := ofNone rfl rfl
theorem queueEngineFault (q : Nat) : Statement (.queueEngineFault q) := ofNone rfl rfl
theorem triggerFire (bk : Nat) : Statement (.triggerFire bk) := ofNone rfl rfl
theorem triggerPendingDelivery (bk : Nat) : Statement (.triggerPendingDelivery bk) := ofNone rfl rfl
theorem groupLaunch (gid : Nat) : Statement (.groupLaunch gid) := ofNone rfl rfl
theorem create (cx : Nat) : Statement (.create cx) := ofNone rfl rfl
theorem bind (cx : Nat) : Statement (.bind cx) := ofNone rfl rfl
theorem ctxFreeze (cx : Nat) : Statement (.ctxFreeze cx) := ofNone rfl rfl
theorem ctxThaw (cx : Nat) : Statement (.ctxThaw cx) := ofNone rfl rfl
theorem swapout (cx : Nat) : Statement (.swapout cx) := ofNone rfl rfl
theorem swapin (cx : Nat) : Statement (.swapin cx) := ofNone rfl rfl
theorem clear (cx : Nat) : Statement (.clear cx) := ofNone rfl rfl
theorem kill (cx : Nat) : Statement (.kill cx) := ofNone rfl rfl
theorem ctxCleanupComplete (cx : Nat) : Statement (.ctxCleanupComplete cx) := ofNone rfl rfl
theorem ctxFreezeComplete (cx : Nat) : Statement (.ctxFreezeComplete cx) := ofNone rfl rfl
theorem ctxFault (cx : Nat) : Statement (.ctxFault cx) := ofNone rfl rfl
theorem treeBarrierArrival (bk : Nat) : Statement (.treeBarrierArrival bk) := ofNone rfl rfl
theorem shootdownComplete (id : Nat) : Statement (.shootdownComplete id) := ofNone rfl rfl
theorem pagePoison (cx : Nat) (va : W64) : Statement (.pagePoison cx va) := ofNone rfl rfl
theorem pfres (die : Nat) (val : W64) : Statement (.pfres die val) := ofNone rfl rfl
theorem linkEnable (k : Nat) (en : Bool) : Statement (.linkEnable k en) := ofNone rfl rfl
theorem retrain (k : Nat) : Statement (.retrain k) := ofNone rfl rfl
theorem linkTrained (k : Nat) (lanes : Nat) : Statement (.linkTrained k lanes) := ofNone rfl rfl
theorem linkTrainingFail (k : Nat) : Statement (.linkTrainingFail k) := ofNone rfl rfl
theorem linkLaneLoss (k : Nat) (lane : Bool) : Statement (.linkLaneLoss k lane) := ofNone rfl rfl
theorem flitReceive (k : Nat) (fl : Flit) : Statement (.flitReceive k fl) := ofNone rfl rfl
theorem flitAck (k : Nat) (n : Nat) : Statement (.flitAck k n) := ofNone rfl rfl
theorem ingestFrame (port : Nat) (frame : List Byte) : Statement (.ingestFrame port frame) := ofNone rfl rfl
theorem hostRead (bar : Nat) (off : Nat) (len : Nat) : Statement (.hostRead bar off len) := ofNone rfl rfl
theorem hostWrite (bar : Nat) (off : Nat) (data : List Byte) : Statement (.hostWrite bar off data) := ofNone rfl rfl
theorem registerWrite (off : Nat) (len : Nat) (val : W64) : Statement (.registerWrite off len val) := ofNone rfl rfl
theorem publish (wl : Nat) : Statement (.publish wl) := ofNone rfl rfl
theorem candidateWrite (wl : Nat) : Statement (.candidateWrite wl) := ofNone rfl rfl
theorem drawCopy (wl : Nat) : Statement (.drawCopy wl) := ofNone rfl rfl
theorem rdposWrite (wl : Nat) : Statement (.rdposWrite wl) := ofNone rfl rfl
theorem chargeIntervalStart : Statement .chargeIntervalStart := ofNone rfl rfl
theorem chargeDose : Statement .chargeDose := ofNone rfl rfl
theorem hintRampStep (die : Nat) (cx : Nat) : Statement (.hintRampStep die cx) := ofNone rfl rfl
theorem spineFreqStep (sp : Nat) : Statement (.spineFreqStep sp) := ofNone rfl rfl
theorem spineSwitchComplete (t : Nat) : Statement (.spineSwitchComplete t) := ofNone rfl rfl
theorem t1 (die : Nat) : Statement (.t1 die) := ofNone rfl rfl
theorem t2 (die : Nat) : Statement (.t2 die) := ofNone rfl rfl
theorem t3 (die : Nat) : Statement (.t3 die) := ofNone rfl rfl
theorem t4 (die : Nat) : Statement (.t4 die) := ofNone rfl rfl
theorem thermalClear (die : Nat) (trip : Nat) : Statement (.thermalClear die trip) := ofNone rfl rfl
theorem boot (bo : BootInput) : Statement (.boot bo) := ofNone rfl rfl
theorem getVersion (rq : SpdmRequest) : Statement (.getVersion rq) := ofNone rfl rfl
theorem getCapabilities (rq : SpdmRequest) : Statement (.getCapabilities rq) := ofNone rfl rfl
theorem negotiateAlgorithms (rq : SpdmRequest) : Statement (.negotiateAlgorithms rq) := ofNone rfl rfl
theorem getDigests (rq : SpdmRequest) : Statement (.getDigests rq) := ofNone rfl rfl
theorem getCertificate (rq : SpdmRequest) : Statement (.getCertificate rq) := ofNone rfl rfl
theorem challenge (rq : SpdmRequest) : Statement (.challenge rq) := ofNone rfl rfl
theorem getMeasurements (rq : SpdmRequest) : Statement (.getMeasurements rq) := ofNone rfl rfl
theorem memoryReadRetry (me : MemError) : Statement (.memoryReadRetry me) := ofNone rfl rfl
theorem illegalSlot (il : IllegalAt) : Statement (.illegalSlot il) := ofNone rfl rfl
theorem pfheadWrite (die : Nat) (val : W64) : Statement (.pfheadWrite die val) := ofNone rfl rfl
theorem memoryPatrolScrub (corrected : Nat) : Statement (.memoryPatrolScrub corrected) := ofNone rfl rfl
theorem swapComplete (cx : Nat) : Statement (.swapComplete cx) := ofNone rfl rfl

end Sys2Proof.Laws.Fields
end

