-- ==== Sys2Proof/Tests/Slice0.lean ====
section
/-! SUPPORT. Tests: words of the spec's worked encodings, ill-formed terms, single steps whose results come from the
spec, and for every statement with hypotheses states and operands that meet them. -/

namespace Sys2Proof.Tests

open Machine Spec

/-! ### Words: the worked encodings of the spec, and reserved ones

Each theorem's comment names the table of the spec it comes from. -/

/-- A guard that tests nothing and updates nothing. -/
def g0 : Guard := ⟨0, 0, none, none, none⟩

/-- 07_scalar.md, worked encodings. -/
theorem test_decode_scalar :
    decodeElem 0x8000000F720C3010 = .ok (.cntImm { g0 with upd := some ⟨.load, 2⟩ } (.x 3) (.x 3) 16) ∧
    decodeElem 0x80000004F1700042 = .ok (.cmp { g0 with upd := some ⟨.load, 1⟩ } .lt false .discard (.x 0) (.x 1)) ∧
    decodeElem 0x8000000E80140012 = .ok (.movi g0 (.x 5) 0x12) ∧
    decodeElem 0x8000000FC0145678 = .ok (.movs g0 (.x 5) 0x678) := by decide
theorem test_decode_control :
    decodeElem 0x8000003880004000 = .ok (.trap g0 (.x 4)) ∧
    decodeElem 0xC0400038C0000002 = .ok (.plane { g0 with pcare := 0x80, pval := 0x80 } 2) ∧
    decodeElem 0x8000003800000000 = .ok (.nop g0) := by decide
theorem test_decode_pump_scalar :
    decodePump 0x2010518010000000 = .ok (.div ⟨none⟩ .w32 4 5 (.reg 6)) ∧
    decodePump 0x232400000002BEEF = .ok (.movk ⟨none⟩ 9 0xBEEF 2) := by decide
/-- 08_vector.md, worked encodings. -/
theorem test_decode_vector :
    decodeElem 0x8000001000490441 = .ok (.vadd g0 .bf16 (.v 2) (.v 0) (.v 1)) ∧
    decodeElem 0x8000001A00515210 = .ok (.vcvt g0 .fp16 .bf16 .rne (.v 4) (.v 5)) ∧
    decodeElem 0x8000001AC0590310 = .ok (.vqnt g0 .e4m3 .bf16 .rne (.v 6) (.v 0)) ∧
    decodeElem 0x8000001C004CE080 = .ok (.vrng g0 0 (.v 3) (.x 14) (.x 2)) ∧
    decodeElem 0x8000001D40860021 = .ok (.cturn g0 .w16 (.out 1) (.chan 0 true)) := by decide
/-- 29_prog_expert_dispatch.md, 19_barrier.md and 22_prog_compressed_matvec.md. -/
theorem test_decode_tokens : decodeElem 0xA12101202E8A0720 =
    .ok (.fwd ⟨0x42, 0x42, none, some 0, some ⟨.clear, 6⟩⟩ (.out 2) (.chan 0 true) .zero) := by decide
theorem test_decode_mark : decodeElem 0x800000218085C003 = .ok (.markBarrier g0 (.out 1)) := by decide
/-- 10_engines.md, worked encodings. -/
theorem test_decode_engines :
    decodeElem 0x8000003080884140 = .ok (.mxrow g0 (.out 2) (.x 4) (.x 5)) ∧
    decodeElem 0x80000030408A31A0 = .ok (.mxldb g0 (.out 2) (.chan 3 true) (.x 6)) ∧
    decodeElem 0x8000003200960020 = .ok (.sxcpy g0 (.out 5) (.chan 0 true)) ∧
    decodeElem 0x8000003600007200 = .ok (.phint g0 (.x 7) (.x 8)) := by decide
theorem test_decode_engine_guard : decodeElem 0x8181803428811000 =
    .ok (.xpcfg { g0 with pcare := 3, pval := 3, upd := some ⟨.clear, 0⟩ } (.out 0) (.v 1)) := by decide
/-- 11_pump_memory_control.md and 12_pump_system.md, worked encodings. -/
theorem test_decode_pump_memory :
    decodePump 0x400CA00018000010 = .ok (.pumpLd ⟨none⟩ .w32 true 3 10 16) ∧
    decodePump 0x5100000011000000 = .ok (.fenceRel ⟨none⟩ .module) := by decide
theorem test_decode_pump_system :
    decodePump 0x7001454000000000 = .ok (.enq ⟨none⟩ 20 21) ∧
    decodePump 0x7624A2C000000000 = .ok (.trigbBind ⟨none⟩ 9 10 11) ∧
    decodePump 0x8000414000000003 = .ok (.cfgw ⟨none⟩ 4 5 3) ∧
    decodePump 0x780CA00000000002 = .ok (.rpoolFill ⟨none⟩ 3 10 2 0) ∧
    decodePump 0xA400700000007808 = .ok (.pumpPhint ⟨none⟩ 7 8 120) := by decide
theorem test_decode_pump_wells :
    decodePump 0x9140000000000000 = .ok (.wcand ⟨none⟩ 16 0) ∧
    decodePump 0x9414600001000000 = .ok (.wstat ⟨none⟩ 1 5 6 0) ∧
    decodePump 0xA000400000000000 = .ok (.bara ⟨none⟩ 4) ∧
    decodePump 0xA100414000000000 = .ok (.barmSet ⟨none⟩ 4 5) ∧
    decodePump 0xA124000001000000 = .ok (.barmTake ⟨none⟩ 9) := by decide
theorem test_decode_pump_translations :
    decodePump 0xB000600000000000 = .ok (.tlbiPage ⟨none⟩ 6) ∧
    decodePump 0xC008000000000002 = .ok (.sysr ⟨none⟩ 2 2) := by decide

/-- R92 item 9, R103 and R90: a value bit outside PCARE, a reserved opcode, a bit of an unused field, and V = 0. -/
theorem test_reserved_element_words :
    (decodeElem 0x8000803800000000).toOption = none ∧ (decodeElem 0x8000003FC0000000).toOption = none ∧
    (decodeElem 0x8000003800000001).toOption = none ∧ (decodeElem 0x0000003800000000).toOption = none := by decide
/-- R96 and R103: reserved opcodes and bits of a body word. -/
theorem test_reserved_body_words :
    (decodePump 0xFF00000000000000).toOption = none ∧ (decodePump 0xA000400000000001).toOption = none := by decide

/-- Well-formedness refuses a term for each of its checks (R92, R103). -/
theorem test_ill_formed :
    (Instr.add g0 (.x 0) (.acc 0) (.x 1)).violation = some .operandClass ∧
    (Instr.vadd g0 .e4m3 (.v 0) (.v 0) (.v 1)).violation = some .reservedValue ∧
    (Instr.nop { g0 with pval := 1 }).violation = some .predicateOutsideCare ∧
    (Instr.mov { g0 with htag := some 0 } (.x 0) (.x 1)).violation = some .headTagWithoutChannel ∧
    (Instr.pset { g0 with upd := some ⟨.set, 0⟩ } (.x 0)).violation = some .operandClass ∧
    (Instr.qset { g0 with upd := some ⟨.load, 0⟩ } 0 (.x 0)).violation = some .loadWithoutResult ∧
    (Instr.skip ⟨none⟩ 0).violation = some .reservedValue := by decide
theorem test_well_formed :
    (Instr.add g0 (.x 0) (.x 1) (.x 2)).wellFormed = true ∧ (Instr.skip ⟨none⟩ 31).wellFormed = true := by decide
/-- R105 and R257: fields of body instructions. -/
theorem test_ill_formed_bodies :
    (Instr.cas ⟨none⟩ .w16 false 0 1 2 0).wellFormed = false ∧ (Instr.cfgrdTake ⟨none⟩ 1).wellFormed = false ∧
    (Instr.wcand ⟨none⟩ 2 0).wellFormed = false ∧ (Instr.verd ⟨none⟩ 2 0).wellFormed = false ∧
    (Instr.wdraw ⟨none⟩ 0 0 1).wellFormed = false ∧ (Instr.wstat ⟨none⟩ 1 0 0 1).wellFormed = false ∧
    (Instr.migrIn ⟨none⟩ 0 1 0).wellFormed = false ∧ (Instr.sysr ⟨none⟩ 0 9).wellFormed = false ∧
    (Instr.sysw ⟨none⟩ 0x13 0).wellFormed = false := by decide

/-! ### A small state: one tile of one region, its element 0 bound and filled -/

/-- A binding word (R109): plane, format, target element and channel of the same tile. -/
def bound (plane fmt ten tch : Nat) : W64 := BitVec.ofNat 64 (2 ^ 63 + plane * 2 ^ 61 + fmt * 2 ^ 57 + ten * 2 ^ 16 + tch * 2 ^ 12)

/-- A channel that holds one token. -/
def one (v : Nat) : Chan := { fifo := [⟨BitVec.ofNat 256 v, 0, 0⟩] }

/-- Element 0: control on i0, i1, i5 and i7, data on i2 (INT32), i3 (BF16), i4 and i6; o0 is INT32 data, o1 leads to engine 0,
the rest is control. -/
def elem0 : Elem where
  core := {
    x := #v[0, 7, 9, 0, 1, 0, 0x10000001, 0, 8, 0, 0x10000, 0, 16, 0, 0, 0xFFFFFFFF]
    v := (Vector.replicate 8 0).set 1 0x10000
    cnt := 1
    turn := { fill := [], drain := [1], col := 0 } }
  binds := [(0, bound 1 0 0 0), (1, bound 1 0 0 0), (2, bound 0 12 0 0), (3, bound 0 1 0 0), (4, bound 0 0 0 0), (5, bound 1 0 0 0),
    (6, bound 0 0 0 0), (7, bound 1 0 0 0), (16, bound 0 12 1 0), (17, bound 0 0 0 0 ||| 0x800), (18, bound 1 0 1 1), (19, bound 0 0 1 2),
    (20, bound 1 0 1 4), (21, bound 1 0 1 5), (22, bound 1 0 1 6), (23, bound 1 0 1 7)]
  owner := 0x8000000010000000
  owners := [(0, 0x8000000010000000), (2, 0x8000000010000000)]
  chans := [(0, one 5), (1, one 1), (2, one 0x20000), (3, one 0x3F80), (4, one 44), (5, one 0), (6, one 66), (7, one 1)]
  replicate := true

/-- Element 1 owns the words of an addition, and merges what element 0 steers. -/
def elem1 : Elem where
  slots := [(0, (encode (.mrgo g0 (.out 0) (.chan 0 false) (.chan 2 false))).getD 0)]
  binds := [(0, bound 0 0 0 0 ||| 0x0010000000000000), (31, bound 2 0 0 0)]
  owner := 0x8000000010000000

def tile0 : Tile where
  core := { w := #v[3, 1, 0, 0, 0, 0, 0, 0, 0, 0, 0, 0, 0, 0, 0, 0]
            rings := (Vector.replicate 8 {}).set 0 ⟨true, 0, 4, 0, 3, 1, 1⟩ }
  balance := 100
  elems := [(0, elem0), (1, elem1)]

def region0 : Region where
  die := 0
  id := 0
  col := 0
  row := 0
  width := 1
  height := 1
  ctx := 0
  kernel := .firing

/-- The tile and its neighbour under engine 0, with no region about it, and with one. -/
def sA : State := { State.reset with tiles := [(0, tile0)], fused := (Vector.replicate 4 0).set 0 0x1000001 }
def sR : State := { sA with regions := [(0, region0)] }

/-- A guard that loads p1 with the result bit. -/
def gP : Guard := { g0 with upd := some ⟨.load, 1⟩ }

/-- Whether a rule fires. -/
def firesB (i : Instr) (s : State) : Bool :=
  match i.operands with
  | none => false
  | some o => slotLegal s s.actor.tile s.actor.elem i && ready s i o &&
    !takesBad (s.elem s.actor.tile s.actor.elem) (deqs i o (s.elem s.actor.tile s.actor.elem))

theorem fires_of_check {i : Instr} {s : State} (h : firesB i s = true) : RuleFires i s := by
  unfold firesB at h
  split at h
  · exact absurd h (by decide)
  · rename_i o ho
    simp only [Bool.and_eq_true, Bool.not_eq_true'] at h
    exact ⟨o, ho, h.1.1, h.1.2, h.2⟩

theorem all_fire {l : List Instr} {s : State} (h : l.all (firesB · s) = true) : ∀ i ∈ l, RuleFires i s :=
  fun i hi => fires_of_check (List.all_eq_true.1 h i hi)

/-! ### Witnesses: element rules that fire

No region stands about the tile of `sA`, so that no conversion event crosses a threshold there (`NoTrip`). -/

theorem noTrip_of {s : State} (h : regionAt s s.actor.tile = none) (c : Conv) : NoTrip s c := by
  intro r hr
  rw [h] at hr
  cases hr

theorem noTrip_sA (c : Conv) : NoTrip sA c := noTrip_of (by decide) c

theorem witness_Arithmetic_elements : ∀ i ∈ ([.add gP (.x 3) (.x 1) (.x 2), .addImm g0 (.x 3) (.x 1) 5, .sub g0 (.x 1) (.x 1) (.x 2),
    .subImm g0 (.out 2) (.x 1) 5, .mul g0 (.w 3) (.w 0) (.x 2), .mulImm g0 (.x 3) (.chan 0 true) 5, .mulh g0 (.x 3) (.x 1) .coord,
    .mulhImm g0 (.x 3) (.x 1) 5, .mulhn g0 .discard (.x 1) (.x 2), .mulhnImm g0 (.x 3) (.x 1) 5,
    .adds g0 true (.x 3) (.x 15) (.x 2), .adds g0 false (.x 3) (.x 15) (.x 2), .addsImm g0 (.x 3) (.x 1) 0x800,
    .subs g0 true (.x 3) (.x 1) (.x 2), .subs g0 false (.x 3) (.x 1) (.x 2), .subsImm g0 (.x 3) (.x 1) 5] : List Instr), RuleFires i sA :=
  all_fire (by decide)
theorem witness_LogicAndShifts_elements : ∀ i ∈ ([.and g0 (.x 3) (.x 1) (.x 2), .andImm g0 (.x 3) (.x 1) 5, .or g0 (.x 3) (.x 1) (.x 2),
    .orImm g0 (.x 3) (.x 1) 5, .xor g0 (.x 3) (.x 1) (.x 2), .xorImm g0 (.x 3) (.x 1) 5, .andn g0 (.x 3) (.x 1) (.x 2),
    .andnImm g0 (.x 3) (.x 1) 5, .shl g0 (.x 3) (.x 1) (.x 2), .shlImm g0 (.x 3) (.x 1) 31, .shr g0 (.x 3) (.x 1) (.x 2),
    .shrImm g0 (.x 3) (.x 1) 32, .sra g0 (.x 3) (.x 15) (.x 15), .sraImm g0 (.x 3) (.x 1) 33, .rot g0 (.x 3) (.x 1) (.x 2),
    .rotImm g0 (.x 3) (.x 1) 63] : List Instr), RuleFires i sA := all_fire (by decide)
theorem witness_CompareAndSelect_elements : ∀ i ∈ ([.min g0 (.x 3) (.x 1) (.x 2), .minImm g0 (.x 3) (.x 1) 5, .max g0 (.x 3) (.x 1) (.x 2),
    .maxImm g0 (.x 3) (.x 1) 5, .minn g0 (.x 3) (.x 1) (.x 15), .minnImm g0 (.x 3) (.x 1) 5, .maxn g0 (.x 3) (.x 1) (.x 2),
    .maxnImm g0 (.x 3) (.x 1) 5, .cmp gP .lt false (.x 3) (.x 1) (.x 2), .cmp gP .ge true .discard (.x 1) (.x 2),
    .tst gP false (.x 3) (.x 1) (.x 2), .tst gP true (.x 3) (.x 1) (.x 2), .sel g0 0 (.x 3) (.x 1) (.x 2)] : List Instr),
    RuleFires i sA := all_fire (by decide)
theorem witness_BitOperations_elements : ∀ i ∈ ([.clz g0 (.x 3) (.x 1), .popc g0 (.x 3) (.x 1), .bfx g0 true (.x 3) (.x 15) (.x 2),
    .bfx g0 false (.x 3) (.x 15) (.x 2), .bfi g0 (.x 3) (.x 1) (.x 2), .bfi g0 (.w 3) (.x 1) (.x 2)] : List Instr), RuleFires i sA :=
  all_fire (by decide)
theorem witness_MovesAndConstants_elements : ∀ i ∈ ([.mov g0 (.x 3) (.x 1), .movi g0 (.x 5) 0xFFF, .movs g0 (.x 5) 0x678,
    .movs g0 (.w 5) 0x678] : List Instr), RuleFires i sA := all_fire (by decide)
theorem witness_Counter : ∀ i ∈ ([.cnt gP true (.x 1) (.x 1) (.x 2), .cnt gP false (.x 1) (.x 1) (.x 8), .cntImm gP (.x 1) (.x 1) 8] :
    List Instr), RuleFires i sA := all_fire (by decide)
theorem witness_Predicates_elements : ∀ i ∈ ([.pset g0 (.x 1), .plog gP .xor 1 2, .qset g0 3 (.x 1), .qset g0 3 (.x 8)] : List Instr),
    RuleFires i sA := all_fire (by decide)
theorem witness_ElementControl : (∀ i ∈ ([.nop g0, .halt g0, .trap g0 (.x 0), .trap g0 (.x 1), .plane g0 3, .chgq g0 (.x 3)] : List Instr),
    RuleFires i sA) ∧ src32 sA (.x 0) = 0 ∧ src32 sA (.x 1) ≠ 0 := ⟨all_fire (by decide), by decide, by decide⟩
theorem witness_VectorArithmetic : (∀ i ∈ ([.vadd g0 .bf16 (.v 2) (.v 0) (.chan 3 true), .vsub g0 .fp32 (.v 2) (.v 0) (.v 1),
    .vmul g0 .fp16 (.v 2) (.v 0) (.v 1), .vmax g0 .bf16 (.v 2) (.v 0) .zero, .vmin g0 .bf16 (.v 2) (.v 0) .lane,
    .vclamp g0 .bf16 (.v 2) (.v 0) (.v 1), .vabs g0 .bf16 (.v 2) (.v 0), .vneg g0 .bf16 (.v 2) (.v 0)] : List Instr), RuleFires i sA) ∧
    ∀ c, NoTrip sA c := ⟨all_fire (by decide), noTrip_sA⟩
theorem witness_VectorFused : (∀ i ∈ ([.vfma g0 .bf16 (.v 2) (.v 0) (.v 1), .vfma g0 .bf16 (.acc 0) (.v 0) (.v 1),
    .vfms g0 .fp32 (.v 2) (.v 0) (.v 1), .vfms g0 .fp32 (.acc 0) (.v 0) (.v 1), .vacc g0 .bf16 (.acc 1) (.v 0)] : List Instr),
    RuleFires i sA) ∧ ∀ c, NoTrip sA c := ⟨all_fire (by decide), noTrip_sA⟩
theorem witness_VectorFunctions : (∀ i ∈ ([.vrcp g0 .bf16 (.v 2) (.v 0), .vrsq g0 .bf16 (.v 2) (.v 0), .vsqrt g0 .bf16 (.v 2) (.v 0),
    .vexp2 g0 .fp16 (.v 2) (.v 0), .vlog2 g0 .fp32 (.v 2) (.v 0), .vtanh g0 .bf16 (.v 2) (.v 0)] : List Instr), RuleFires i sA) ∧
    ∀ c, NoTrip sA c := ⟨all_fire (by decide), noTrip_sA⟩
theorem witness_VectorReductions : (∀ i ∈ ([.vred g0 .sum .bf16 (.x 3) (.v 0), .vred g0 .min .fp32 (.v 2) (.acc 0),
    .vamax g0 .int8 (.x 3) (.v 0)] : List Instr), RuleFires i sA) ∧ ∀ c, NoTrip sA c := ⟨all_fire (by decide), noTrip_sA⟩
theorem witness_VectorCompareLogic : ∀ i ∈ ([.vcmp g0 .bf16 (.v 2) (.v 0) (.v 1), .vsel g0 .w16 .lt (.v 2) (.v 0) (.v 1),
    .vlog g0 .andn (.v 2) (.v 0) (.v 1), .vlog g0 .not (.v 2) (.v 0) .zero, .vsh g0 .w8 .rot (.v 2) (.v 0) (.x 2)] : List Instr),
    RuleFires i sA := all_fire (by decide)
theorem witness_LaneMovement : (∀ i ∈ ([.vbcst g0 .bf16 (.v 2) (.x 1), .vext g0 .bf16 (.x 3) (.v 1) (.x 1), .vins g0 .bf16 (.v 2) (.x 1) (.x 2),
    .viota g0 .int32 (.v 2) (.x 1) (.x 2), .viota g0 .bf16 (.v 2) (.x 1) (.x 2), .vshuf g0 .w8 (.v 2) (.v 0) (.v 1)] : List Instr),
    RuleFires i sA) ∧ (∀ c, NoTrip sA c) ∧ (sA.elem 0 0).replicate = true ∧
    ((sA.modElem 0 0 fun y => { y with replicate := false }).elem 0 0).replicate = false ∧
    RuleFires (.vbcst g0 .bf16 (.v 2) (.x 1)) (sA.modElem 0 0 fun y => { y with replicate := false }) :=
  ⟨all_fire (by decide), noTrip_sA, by decide, by decide, fires_of_check (by decide)⟩
theorem witness_Conversions : (∀ i ∈ ([.vcvt g0 .fp16 .bf16 .rne (.v 4) (.v 5), .vcvt g0 .fp32 .bf16 .rne (.acc 0) (.v 5),
    .vpack g0 .bf16 .fp32 .srk (.v 2) (.v 0), .vunpk g0 .fp32 .bf16 .rne (.v 2) (.v 5), .vqnt g0 .e4m3 .bf16 .rne (.v 6) (.v 0),
    .vdqnt g0 .bf16 .e4m3 .rtz (.v 2) (.v 0), .vdqnt g0 .fp32 .e4m3 .rtz (.acc 0) (.v 0)] : List Instr), RuleFires i sA) ∧
    (∀ c, NoTrip sA c) ∧ ((Dst.v 2).isV || (Dst.v 2).isAcc) = true := ⟨all_fire (by decide), noTrip_sA, by decide⟩
theorem witness_RandomAndTurn : (∀ i ∈ ([.vrng g0 0 (.v 3) (.x 14) (.x 2), .vrng g0 3 (.v 3) (.x 14) (.x 2), .vdrop g0 .bf16 (.v 2) (.v 0) (.x 2),
    .cturn g0 .w16 (.v 2) .zero, .cturn g0 .w16 (.v 2) (.chan 2 true)] : List Instr),
    RuleFires i (sA.modElem 0 0 fun y => { y with binds := kput y.binds 2 (bound 0 1 0 0) })) ∧
    ∀ c, NoTrip (sA.modElem 0 0 fun y => { y with binds := kput y.binds 2 (bound 0 1 0 0) }) c :=
  ⟨all_fire (by decide), noTrip_of (by decide)⟩

/-! ### Witnesses: guards and aborts -/

theorem witness_RuleGuard : (Instr.add g0 (.x 3) (.chan 8 false) (.x 2)).operands.isSome = true ∧
    slotLegal sA 0 0 (.add g0 (.x 3) (.chan 8 false) (.x 2)) = false ∧
    (∃ o, (Instr.add ⟨1, 1, none, none, none⟩ (.x 3) (.x 1) (.x 2)).operands = some o ∧
      slotLegal sA 0 0 (.add ⟨1, 1, none, none, none⟩ (.x 3) (.x 1) (.x 2)) = true ∧
      ready sA (.add ⟨1, 1, none, none, none⟩ (.x 3) (.x 1) (.x 2)) o = false) ∧
    (∃ o s, (Instr.deq g0 (.chan 0 true) none).operands = some o ∧ slotLegal s 0 0 (.deq g0 (.chan 0 true) none) = true ∧
      ready s (.deq g0 (.chan 0 true) none) o = true ∧
      takesPoison (s.elem 0 0) (deqs (.deq g0 (.chan 0 true) none) o (s.elem 0 0)) = true ∧
      takesBadParity (s.elem 0 0) (deqs (.deq g0 (.chan 0 true) none) o (s.elem 0 0)) = false) ∧
    ∃ o s, (Instr.deq g0 (.chan 0 true) none).operands = some o ∧ slotLegal s 0 0 (.deq g0 (.chan 0 true) none) = true ∧
      ready s (.deq g0 (.chan 0 true) none) o = true ∧
      takesBadParity (s.elem 0 0) (deqs (.deq g0 (.chan 0 true) none) o (s.elem 0 0)) = true :=
  ⟨by decide, by decide, ⟨_, rfl, by decide, by decide⟩,
    ⟨_, sA.modElem 0 0 fun y => y.setChan 0 { fifo := [⟨5, 3, 0⟩] }, rfl, by decide, by decide, by decide, by decide⟩,
    ⟨_, sA.modElem 0 0 fun y => y.setChan 0 { fifo := [⟨5, 0, 0⟩], parity := true }, rfl, by decide, by decide, by decide⟩⟩

/-! ### Witnesses: tokens, merges, marks, rings, the cistern -/

theorem witness_TokenMoves : ∀ i ∈ ([.fwd g0 (.out 0) (.chan 2 true) .zero, .fwd g0 (.x 3) (.chan 0 true) (.chan 1 false),
    .fwd g0 (.acc 0) (.acc 1) .zero, .deq g0 (.chan 0 true) none, .deq g0 (.chan 0 true) (some (.chan 1 true)),
    .tag g0 1 (.out 0) (.chan 2 true)] : List Instr), RuleFires i sA := all_fire (by decide)
theorem witness_SteerAndMerge : (∀ i ∈ ([.steer g0 (.out 4) (.x 1) (.x 2), .mrgo g0 (.out 0) (.chan 4 false) (.chan 6 false),
    .mrga g0 (.out 0) (.chan 4 false) (.chan 6 false), .mrga g0 (.out 0) (.chan 8 false) (.chan 6 false)] : List Instr),
    RuleFires i (sR.modElem 0 0 fun y => { y with binds := kput y.binds 8 (bound 0 0 0 0) })) ∧
    readyArm (sR.elem 0 0) (.chan 4 false) (.chan 6 false) = some (4, 5) ∧ (sR.elem 0 0).head 4 = some ⟨44, 0, 0⟩ ∧
    mrgaPick (sR.elem 0 0) (.chan 4 false) (.chan 6 false) = some (.chan 4 false) :=
  ⟨all_fire (by decide), by decide, by decide, by decide⟩
theorem witness_MarkInstructions : (∀ i ∈ ([.markStroke g0, .markDrain g0, .markFreeze g0, .markBarrier g0 (.out 0),
    .markCut g0 (.out 0) (.x 1)] : List Instr), RuleFires i sR) ∧ regionOf sR 0 = some 0 ∧ sR.region 0 = some region0 :=
  ⟨all_fire (by decide), by decide, by decide⟩
theorem witness_RingInstructions : (∀ i ∈ ([.crget g0 0 (.x 3), .crput g0 0 (.x 1)] : List Instr), RuleFires i sA) ∧
    ∀ c, NoTrip sA c := ⟨all_fire (by decide), noTrip_sA⟩
/-- The tile with granule 0 of its cistern bad (R384). -/
def sBad : State := sA.modTile 0 fun x => { x with badCistern := [0] }

theorem witness_ReadsCistern : (∀ i ∈ ([.crget g0 0 (.x 3), .cld g0 .b1 false (.x 3) (.x 0), .cvld g0 (.v 2) (.x 0),
    .ownapApply g0 (.chan 2 true), .ownapReadout g0 (.x 3) (.x 0)] : List Instr), RuleFires i sBad) ∧
    (∃ g ∈ (sBad.tile 0).badCistern, 0 < 8 * g + 8 ∧ 8 * g < 0 + 4) ∧
    ∀ g ∈ (sBad.tile 0).badCistern, 8 * g + 8 ≤ 32 ∨ 32 + 32 ≤ 8 * g := ⟨all_fire (by decide), by decide, by decide⟩
theorem witness_CisternAccess : (∀ i ∈ ([.cld g0 .b1 false (.x 3) (.x 1), .cvld g0 (.v 2) (.x 1), .cst g0 .b4 false (.x 1) (.x 2),
    .cvst g0 (.x 1) (.v 1), .cvst g0 (.x 6) (.v 1)] : List Instr), RuleFires i sA) ∧ (∀ c, NoTrip sA c) ∧
    meetsOwner (sA.tile 0) 255 1 = true ∧ meetsOwner (sA.tile 0) 256 1 = false :=
  ⟨all_fire (by decide), noTrip_sA, by decide, by decide⟩
theorem witness_OwnerUpdates : (∀ i ∈ ([.atom g0 .add false (.out 0) (.x 1) (.x 2), .atom g0 .and false (.out 0) (.x 1) (.x 2),
    .ownapApply g0 (.chan 2 true), .ownapReadout g0 (.x 3) (.x 1)] : List Instr), RuleFires i sA) ∧ (∀ c, NoTrip sA c) ∧
    bits (targetOwner sA 0 0 (.out 0)) 63 1 = 1 ∧ bits (targetOwner sA 0 0 (.out 2)) 63 1 = 1 ∧
    bits (targetOwner sA 0 0 (.out 0)) 20 18 = 256 ∧ bits (targetOwner sA 0 0 (.out 0)) 56 4 = AtomOp.add.code ∧
    bits (targetOwner sA 0 0 (.out 0)) 56 4 ≠ AtomOp.and.code ∧ bits (targetOwner sA 0 0 (.out 1)) 63 1 = 0 :=
  ⟨all_fire (by decide), noTrip_sA, by decide, by decide, by decide, by decide, by decide, by decide⟩

/-! ### Witnesses: memory, engines, hints -/

theorem witness_LoadsAsk : (∀ i ∈ ([.ld g0 .b2 true (.x 3) (.v 1) (.x 2), .vld g0 (.v 2) (.v 1) (.x 2), .lds g0 (.x 3) (.chan 2 true) (.x 2),
    .ldc g0 (.x 3) (.v 1) (.x 2)] : List Instr), RuleFires i sR) ∧
    atFiring sR 0 0 0 (readAddr sR (.v 1)) 0x10009 2 { write := false } = .walk ∧
    atFiring sR 0 0 0 { readAddr sR (.v 1) with fcode := 2 } 0x10009 2 { write := false } = .fault 2 0x10000 :=
  ⟨all_fire (by decide), by decide, by decide⟩
theorem witness_FabricStores : (∀ i ∈ ([.st g0 .b1 false (.v 1) (.x 2), .vst g0 (.v 1) (.v 0), .stf g0 (.v 1) (.x 2)] : List Instr),
    RuleFires i sR) ∧ atFiring sR 0 0 0 (readAddr sR (.v 1)) 0x10000 32 { write := true } = .walk ∧
    atFiring sR 0 0 0 (readAddr sR (.v 1)) (2 ^ 56) 1 { write := true } = .fault 3 (2 ^ 56) :=
  ⟨all_fire (by decide), by decide, by decide⟩
theorem witness_TranslationAndRanges : (∀ i ∈ ([.xlat g0 true (.out 0) (.v 1), .agenStep g0 (.out 0), .rtake g0 (.out 0) (.x 1),
    .rtake g0 (.out 0) (.x 12)] : List Instr), RuleFires i sR) ∧
    RuleFires (.agenRearm g0 (.out 0) (.chan 2 true)) (sR.modElem 0 0 fun y => { y with core := { y.core with cnt := 0 } }) ∧
    (src32 sR (.x 1)).toNat < 16 ∧ 16 ≤ (src32 sR (.x 12)).toNat :=
  ⟨all_fire (by decide), fires_of_check (by decide), by decide, by decide⟩
theorem witness_EngineCommands : (∀ i ∈ ([.mxcfg g0 (.out 1) (.x 0), .mxldb g0 (.out 1) (.v 1) (.x 0), .mxrow g0 (.out 1) (.x 0) (.x 1),
    .mxacc g0 (.out 1) (.x 0) (.x 1), .mxdrn g0 (.out 1) (.x 0) (.x 1), .mxgrp g0 (.out 1) (.v 1), .mxstat g0 (.out 1) (.x 0),
    .sxcpy g0 (.out 1) (.v 1), .sxgth g0 (.out 1) (.v 1), .sxsct g0 (.out 1) (.chan 2 true), .sxdeep g0 (.out 1) (.v 1),
    .xpcfg g0 (.out 1) (.v 1), .wrsrt g0 (.out 1) (.v 1)] : List Instr), RuleFires i sA) ∧
    mxcfgOk 0x111 = true ∧ mxcfgOk 0x1111 = false ∧ runOk 1023 1 = true ∧ runOk 1023 2 = false ∧
    (readAddr sA (.v 1)).fcode = 0 ∧ (addrTok (2 ^ 136)).fcode ≠ 0 :=
  ⟨all_fire (by decide), by decide, by decide, by decide, by decide, by decide, by decide⟩
theorem witness_Hints_elements : (∀ i ∈ ([.phint g0 (.x 1) (.x 2), .phint g0 (.x 6) (.x 2)] : List Instr), RuleFires i sR) ∧
    (src32 sR (.x 1)).toNat < 2 ^ 9 ∧ (src32 sR (.x 2)).toNat < 2 ^ 24 ∧ 2 ^ 9 ≤ (src32 sR (.x 6)).toNat :=
  ⟨all_fire (by decide), by decide, by decide, by decide⟩

/-! ### A page of this module's near tier, known to the last-level TLB of die 0 -/

/-- The first byte of this module's near tier. -/
def here : Nat := 2 ^ 46 * Config.moduleNumber.toNat

theorem placeOf_here {o : Nat} (h : o < 0x600000000) : placeOf (here + o) = .near 0 := by
  have h1 : (here + o) / 2 ^ 46 = Config.moduleNumber.toNat := by unfold here; omega
  have h2 : (here + o) % 2 ^ 46 = o := by unfold here; omega
  have h3 : o < 0x2000000000 := by omega
  have h4 : o % 0x800000000 < 0x600000000 := by omega
  have h5 : o / 0x800000000 = 0 := by omega
  unfold placeOf
  simp only [placeIn, h1, h2, ne_eq, not_true_eq_false, if_false, if_pos h3, if_pos h4, h5]

theorem here_place : placeOf here = .near 0 := by
  have := placeOf_here (o := 0) (by omega)
  rwa [Nat.add_zero] at this

def pageHere : Page := { va := 0, log2 := 16, pa := here, w := true, fe := true }

theorem permits_here (want : Want) : pageHere.permits want = true := by
  simp [Page.permits, pageHere, here_place, Place.isMmio]

def sT : State := { sR with ltlb := [(0, [⟨0, pageHere⟩])] }

theorem translate_sT {tlb : List TlbEntry} {die ctx cap va : Nat} {want : Want} {s : State} (h : va < 2 ^ 16)
    (hn : tlbFind tlb ctx va = none) (hl : kget s.ltlb die [] = [⟨ctx, pageHere⟩]) :
    (Machine.translate s die ctx cap tlb va want).1 = .page pageHere := by
  have h1 : tlbFind (kget s.ltlb die []) ctx va = some pageHere := by
    simp [hl, tlbFind, pageHere, Page.covers]; omega
  simp [Machine.translate, hn, h1, permits_here]

theorem access_sT {tlb : List TlbEntry} {die ctx cap va len : Nat} {want : Want} {s : State} (h : va + len ≤ 2 ^ 16)
    (h0 : 0 < len) (hn : tlbFind tlb ctx va = none) (hl : kget s.ltlb die [] = [⟨ctx, pageHere⟩]) :
    (translateAccess s die ctx cap tlb va len want).1 = .pages [pageHere] := by
  have ht := translate_sT (die := die) (cap := cap) (want := want) (by omega) hn hl
  have hr : rangeFault (va : Int) len = none := by
    have h56 : va < 0x100000000000000 := by omega
    have h57 : ¬ ((va : Int) + len > 0x100000000000000) := by omega
    simp [rangeFault, halfTop, h56, h57]
  unfold translateAccess
  rw [hr]
  simp only [translateFrom, Int.toNat_natCast]
  revert ht
  generalize Machine.translate s die ctx cap tlb va want = r
  obtain ⟨a, b, c⟩ := r
  rintro rfl
  have h3 : len ≤ pageHere.va + 2 ^ pageHere.log2 - va := by show len ≤ 0 + 2 ^ 16 - va; omega
  simp [h3]

theorem peek_sT {off : Nat} (h : off + 8 ≤ 2 ^ 16) : peek sT 0 0 off 8 = 0 := by
  have h1 := access_sT (s := sT) (tlb := []) (die := 0) (ctx := 0) (cap := 64) (want := { write := false }) h (by omega) rfl rfl
  unfold peek peekPages
  rw [h1]
  have hc : pageHere.va + 2 ^ pageHere.log2 - off = 2 ^ 16 - off := rfl
  have hr : ∀ a n, Mem.reads [] a n = List.replicate n 0 := by
    intro a n
    induction n generalizing a with
    | zero => rfl
    | succ n ih => simp [Mem.reads, ih, List.replicate_succ, Mem.read, Mem.unlisted]
  have hm : sT.mem = [] := rfl
  have hv : pageHere.covers off = true := by simp [Page.covers, pageHere]; omega
  simp [readPages, hm, hr, readSpans, hv, hc, show min 8 (65536 - off) = 8 by omega, show 8 - (65536 - off) = 0 by omega]
  decide

theorem trips_sT : trips sT region0 0 { sat := 1 } ≠ 0 := by
  simp only [trips, overThreshold, region0, Nat.zero_add]
  rw [peek_sT (by omega)]
  decide

theorem localPa_here {o : Nat} (h : o < 2 ^ 46) : localPa (here + o) = o := by
  unfold localPa here
  omega

theorem readSpans_here {va len : Nat} (h0 : 0 < len) (h : va + len ≤ 2 ^ 16) : readSpans [pageHere] 2 va len = [(here + va, len)] := by
  have hc : pageHere.va + 2 ^ pageHere.log2 - va = 65536 - va := rfl
  have hv : pageHere.covers va = true := by simp [Page.covers, pageHere]; omega
  have hp : pageHere.paOf va = here + va := by simp [Page.paOf, pageHere]
  simp [readSpans, hv, hc, hp, show min len (65536 - va) = len by omega, show len - (65536 - va) = 0 by omega]
  omega

theorem readAny_here {s : State} {w va len : Nat} (h0 : 0 < len) (h : va + len ≤ 2 ^ 16) :
    (readAny s w [pageHere] va len).1 = .bytes (s.mem.reads va len) := by
  have hp : (placeOf (here + va)).isMemory = true := by rw [placeOf_here (by omega)]; rfl
  simp only [readAny, List.length_singleton, readSpans_here h0 h, readSpansAny, hp, if_true, localPa_here (show va < 2 ^ 46 by omega),
    ReadOut.join]
  simp

theorem bytes_of {r : ReadOut × State} {bs : List Byte} (h : r.1 = .bytes bs) : ∃ bs u, r = (.bytes bs, u) :=
  ⟨bs, r.2, by rw [← h]⟩

theorem four_of {r : ReadOut × State} {s : State} {va : Nat} (h : r.1 = .bytes (s.mem.reads va 4)) :
    ∃ bs u, r = (.bytes bs, u) ∧ bs.length = 4 :=
  ⟨s.mem.reads va 4, r.2, by rw [← h], rfl⟩

theorem engRead_here {s : State} {en ctx va len : Nat} (h0 : 0 < len) (h : va + len ≤ 2 ^ 16)
    (ha : (engAccess s en ctx va len false).1 = .pages [pageHere]) : ∃ bs u, engRead s en ctx va len false = (.bytes bs, u) := by
  simp only [engRead]
  revert ha
  generalize engAccess s en ctx va len false = r
  obtain ⟨a, b⟩ := r
  rintro rfl
  simp only [Bool.false_and, Bool.false_eq_true, if_false, Int.toNat_natCast]
  have h1 := readAny_here (s := b) (w := 2 ^ 40 + en) h0 h
  exact ⟨_, _, Prod.ext h1 rfl⟩

/-! ### Witnesses: answers and faults of memory elements -/

def req (id : Nat) (k : ReqKind) (len : Nat) (d : Dst) : MemReq :=
  { id := id, kind := k, va := 0x100, len := len, dst := d, pages := [pageHere], walked := true }

/-- Six requests of element 0 stand; the word at 0x100 is full. -/
def sQ : State := { (sT.modElem 0 0 fun y => { y with reqs := [req 1 (.load .b4 true) 4 (.x 3), req 2 .vload 32 (.v 2), req 3 .lds 4 (.x 3),
  req 4 .ldc 4 (.x 3), { req 5 (.xlat true) 1 (.out 0) with walked := false, pages := [], token := 0x100 },
  { req 6 .take 0 (.out 0) with answer := some ⟨1, 0, 0⟩ }, { req 7 (.load .b4 true) 4 (.x 3) with walked := false, pages := [] },
  { req 8 .store 4 .discard with walked := false, pages := [] }, { req 9 .vload 32 (.v 2) with fault := some (2, 0x100) }] }) with
  full := [0x100] }

/-- An STF of element 0 to that word, taken by an LDC of stroke n or by none, in the buffer of its region. -/
def stf0 (n : Option Nat) : RStore where
  id := 8
  tile := 0
  elem := 0
  cls := 0
  stroke := 0
  va := 0x100
  data := [1, 2, 3, 4]
  units := 1
  pages := [pageHere]
  walk := false
  stf := true
  emptiedBy := n

def sStf (n : Option Nat) : State := sQ.modRegion 0 fun r => { r with stores := [stf0 n] }

theorem paIn_here {va : Nat} (h : va < 2 ^ 16) : localPa (paIn [pageHere] va) = va := by
  have hv : pageHere.covers va = true := by simp [Page.covers, pageHere]; omega
  have : paIn [pageHere] va = here + va := by
    simp only [paIn, List.find?_cons, hv, Page.paOf]
    simp [pageHere]
  rw [this, localPa_here (by omega)]

theorem elemTranslate_sQ : ∃ u, elemTranslate sQ 0 0 0x100 1 { write := true, fe := false } = (.pages [pageHere], u) := by
  have := access_sT (s := sQ) (tlb := []) (die := 0) (ctx := 0) (cap := 64) (va := 0x100) (len := 1) (want := { write := true })
    (by omega) (by omega) rfl rfl
  exact ⟨_, Prod.ext this rfl⟩

theorem witness_FabricReplies :
    findReq sQ 0 0 1 = some (req 1 (.load .b4 true) 4 (.x 3)) ∧ (∃ bs u, readAny sQ 1 [pageHere] 0x100 4 = (.bytes bs, u) ∧ bs.length = 4) ∧
    findReq sQ 0 0 2 = some (req 2 .vload 32 (.v 2)) ∧ (∃ bs u, readAny sQ 2 [pageHere] 0x100 32 = (.bytes bs, u)) ∧
    findReq sQ 0 0 3 = some (req 3 .lds 4 (.x 3)) ∧ findReq sQ 0 0 4 = some (req 4 .ldc 4 (.x 3)) ∧
    bufferedStf sQ 0 0 0x100 = none ∧ fullAt sQ.full (localPa (paIn [pageHere] 0x100)) = true ∧
    fullAt ({ sQ with full := [] } : State).full (localPa (paIn [pageHere] 0x100)) = false ∧ regionOf sQ 0 = some 0 ∧
    (∃ x, bufferedStf (sStf (some 0)) 0 0 0x100 = some x ∧ x.emptiedBy ≠ none) ∧
    (∃ x, bufferedStf (sStf none) 0 0 0x100 = some x ∧ x.emptiedBy = none ∧ x.data.length = 4) ∧
    (∃ q, findReq sQ 0 0 5 = some q ∧ q.kind = .xlat true) ∧
    (∃ u, elemTranslate sQ 0 0 0x100 1 { write := true, fe := false } = (.pages [pageHere], u)) ∧
    ∃ q, findReq sQ 0 0 6 = some q ∧ q.kind = .take ∧ q.answer = some ⟨1, 0, 0⟩ := by
  have hp : localPa (paIn [pageHere] 0x100) = 0x100 := paIn_here (by omega)
  refine ⟨rfl, four_of (readAny_here (by omega) (by omega)), rfl, bytes_of (readAny_here (by omega) (by omega)),
    rfl, rfl, rfl, by rw [hp]; rfl, rfl, rfl, ⟨_, rfl, by decide⟩, ⟨_, rfl, rfl, rfl⟩, ⟨_, rfl, rfl⟩, elemTranslate_sQ, ⟨_, rfl, rfl, rfl⟩⟩

theorem witness_FaultsFound :
    (∃ q, findReq sQ 0 0 7 = some q ∧ q.walked = false ∧ (∀ w, q.kind ≠ .xlat w) ∧ q.kind ≠ .take ∧ q.kind ≠ .store) ∧
    (∃ q, findReq sQ 0 0 8 = some q ∧ q.walked = false ∧ q.kind = .store) ∧
    regionOf sQ 0 = some 0 ∧ (sQ.elem 0 0).voidDue = false ∧
    ((sQ.modElem 0 0 fun y => { y with voidDue := true }).elem 0 0).voidDue = true ∧
    (∃ q, (sQ.elem 0 0).reqs.find? (fun q => q.id == 9 && q.fault.isSome) = some q ∧ q.fault = some (2, 0x100)) ∧
    (sQ.elem 0 0).reqs.find? (fun q => q.id == 1 && q.fault.isSome) = none ∧ (∃ r, sQ.region 0 = some r) ∧
    StoreFault.fifo ∉ [StoreFault.dieTlb, .coreTlb, .dataCache] ∧ (sQ.elem 0 0).head 1 ≠ none ∧
    (∃ r x, (sStf none).region 0 = some r ∧ x ∈ r.stores ∧ x.id = 8 ∧ (((sStf none).elem 0 0).reqs.find? fun q => q.id == 8 && q.fault.isSome) = none) :=
  ⟨⟨_, rfl, rfl, (fun w h => by cases h), (fun h => by cases h), (fun h => by cases h)⟩, ⟨_, rfl, rfl, rfl⟩, rfl, rfl, rfl, ⟨_, rfl, rfl⟩, rfl, ⟨_, rfl⟩,
    by decide, by decide, ⟨_, stf0 none, rfl, List.mem_singleton.2 rfl, rfl, rfl⟩⟩

/-! ### A pump core with one running lane -/

/-- The lane of a round, with registers, acts held and writes of its own as a test gives them. -/
def coreOf (l : Lane) : Core where
  g := #v[0, 7, 9, 0, 64, 0x100, 0, 0, 0, 0, 0, 0, 0, 0, 0, 0, 0, 0, 0, 0, 0, 0, 0, 0, 0, 0, 0, 0, 0, 0, 0, 0, 0, 0, 0, 0, 0, 0, 0, 0, 0, 0,
    0, 0, 0, 0, 0, 0, 0, 0, 0, 0, 0, 0, 0, 0, 0, 0, 0, 0, 0, 0, 0, 0xFFFFFFFFFFFFFFFF]
  p := 2
  lanes := [l]
  tlb := [⟨0, pageHere⟩]

/-- Core 0 of die 0, of context 0, whose rule 0 runs in lane 0. -/
def sP : State := { sT with cores := [(0, coreOf { rule := 0 })] }

/-- The same core in context 3, which is not privileged. -/
def sU : State := { sP with cores := [(0, { coreOf { rule := 0 } with ctx := some 3 })] }

/-- The instructions of bodies run there; this meets the hypotheses of Arithmetic, LogicAndShifts, CompareAndSelect, BitOperations,
MovesAndConstants, Division, Predicates and Hints over bodies, and `Meets` of every statement that speaks of `Executes`, `Faults`,
`Retries`, `Waits`, `Refuses`, `Answers` and `Defers`. -/
theorem witness_bodies : BodyRuns ⟨none⟩ sP ∧ BodyRuns ⟨some (true, 1)⟩ sP ∧ Meets ⟨none⟩ sP ∧ Meets ⟨none⟩ sU :=
  ⟨⟨rfl, rfl, by decide⟩, ⟨rfl, by decide, by decide⟩, ⟨rfl, rfl⟩, ⟨rfl, rfl⟩⟩
theorem witness_CompareAndSelect_relation :
    (true = true ↔ related .lt (asInt false (7 : BitVec 32)) (asInt false (9 : BitVec 32))) ∧
    (false = true ↔ related .gt (asInt true (7 : BitVec 32)) (asInt true (0xFFFFFFFF : BitVec 32))) := by
  constructor <;> simp [related, asInt]
theorem witness_BodySteps : (Instr.skip ⟨none⟩ 1).pumpFields.isSome = true ∧
    (bodyLane { sP with cores := [(0, coreOf { rule := 0, run := .done })] }).run ≠ .running ∧
    (bodyLane sP).run = .running ∧ skips ⟨some (false, 1)⟩ sP = true ∧ (Skip.mk (some (false, 1))).pred = some (false, 1) ∧
    (Skip.mk none).pred = none := ⟨by decide, by decide, by decide, by decide, rfl, rfl⟩
theorem witness_PumpAbort : (sP.core 0).lanes[0]? = some { rule := 0 } ∧ (sP.core 0).fltrec.getLsbD 63 = false ∧
    ((sP.modCore 0 fun c => { c with fltrec := 0x8000000000000000 }).core 0).fltrec.getLsbD 63 = true := ⟨rfl, by decide, by decide⟩

/-! ### Accesses of a core -/

theorem access_own {tlb : List TlbEntry} {die ctx cap va len : Nat} {want : Want} {s : State} (h : va + len ≤ 2 ^ 16)
    (hn : tlbFind tlb ctx va = some pageHere) : translateAccess s die ctx cap tlb va len want = (.pages [pageHere], tlb, s) := by
  have hr : rangeFault (va : Int) len = none := by
    have h56 : va < 0x100000000000000 := by omega
    have h57 : ¬ ((va : Int) + len > 0x100000000000000) := by omega
    simp [rangeFault, halfTop, h56, h57]
  have h3 : len ≤ pageHere.va + 2 ^ pageHere.log2 - va := by show len ≤ 0 + 2 ^ 16 - va; omega
  unfold translateAccess
  rw [hr]
  simp [translateFrom, Machine.translate, hn, permits_here, h3]

/-- What an access of the core comes to in `sP`. -/
theorem pumpAccess_sP {va len : Nat} {want : Want} {word : Bool} (h0 : 0 < len) (h : va + len ≤ 2 ^ 16) :
    pumpAccess sP va len want word = (.at [(here + va, len)] true, sP.modCore 0 fun c => { c with tlb := [⟨0, pageHere⟩] }) := by
  have hr : rangeFault (va : Int) len = none := by
    have h56 : va < 0x100000000000000 := by omega
    have h57 : ¬ ((va : Int) + len > 0x100000000000000) := by omega
    simp [rangeFault, halfTop, h56, h57]
  have hw : windowOf (sP.core sP.actor.core) va = none := by
    simp [windowOf, sP, State.core, kget, kfind, State.reset, sT, sR, sA, coreOf, Window.enabled]
  have hf : tlbFind (sP.core sP.actor.core).tlb (coreCtx sP sP.actor.core) va = some pageHere := by
    have hv : pageHere.covers va = true := by simp [Page.covers, pageHere]; omega
    have : (sP.core sP.actor.core).tlb = [⟨0, pageHere⟩] := rfl
    have h2 : coreCtx sP sP.actor.core = 0 := rfl
    simp [this, h2, tlbFind, hv]
  unfold pumpAccess
  simp only [hr, hw, access_own h hf]
  simp only [List.length_singleton, Int.toNat_natCast, readSpans_here h0 h]
  rfl

theorem place_here {va : Nat} (h : va < 2 ^ 16) : placeOf (here + va) = .near 0 := placeOf_here (by omega)

theorem mmioShape_here {va len : Nat} (h : va < 2 ^ 16) : mmioShape [(here + va, len)] = true := by
  simp [mmioShape, place_here h, Place.isMmio]

/-- A core with an enabled window of 64 KiB over that page. -/
def sW : State := { sP with cores := [(0, { coreOf { rule := 0 } with wins := (Vector.replicate 4 {}).set 0 ⟨0, BitVec.ofNat 64 here, 0x43⟩ })] }

theorem witness_PumpAddresses : rangeFault (2 ^ 56) 4 = some (3, 2 ^ 56) ∧ rangeFault (2 ^ 56 - 2) 4 = some (4, 2 ^ 56) ∧
    rangeFault 0x100 4 = none ∧ windowOf (sW.core 0) 0xFFFF = some ⟨0, BitVec.ofNat 64 here, 0x43⟩ ∧
    windowOf (sP.core 0) 0x100 = none ∧ (0x43 : W64).getLsbD 1 = true ∧ (0x41 : W64).getLsbD 1 = false ∧ placeOf here ≠ .hole :=
  ⟨by decide, by decide, by decide, rfl, rfl, by decide, by decide, by rw [here_place]; decide⟩
theorem witness_PumpLoadsStores : (∃ u, pumpAccess sP 0x100 4 { write := false, dev := true } false = (.at [(here + 0x100, 4)] true, u)) ∧
    mmioShape [(here + 0x100, 4)] = true ∧ [(here + 0x100, 4)].all spanOk = true ∧ deadSpan sP (here + 0x100, 4) = false ∧
    (placeOf (here + 0x3C)).isMemory = true ∧ localPa (here + 0x3C) % 64 + 4 ≤ 64 ∧
    kfind (sP.core 0).dcache (localPa (here + 0x3C) / 64) = none := by
  refine ⟨⟨_, pumpAccess_sP (va := 0x100) (by omega) (by omega)⟩, mmioShape_here (by omega), ?_, ?_, ?_, ?_, rfl⟩
  · simp [spanOk, place_here]
  · simp [deadSpan, deadPa, place_here, Place.isRemote]
  · rw [place_here (by omega)]; rfl
  · rw [localPa_here (by omega)]
theorem witness_PumpFullEmpty :
    (∃ u, pumpAccess sP 0x100 4 { write := false, fe := true } true = (.at [(here + 0x100, 4)] true, u) ∧ CommitReady u ∧
      (u.core u.actor.core).storePending (here + 0x100) 4 = false ∧ fullAt u.full (localPa (here + 0x100)) = false ∧
      fullAt (fullSet u.full 0x100) (localPa (here + 0x100)) = true) ∧ (placeOf (here + 0x100)).isMemory = true ∧
    Core.storePending { storeQ := [.store (here + 0x102) [1] none] } (here + 0x100) 4 = true ∧
    ((sP.modCore 0 fun c => { c with mons := c.mons.set 0 (some ⟨4, 0, pageHere, true⟩) }).core 0).mons[0] =
      some ⟨4, 0, pageHere, true⟩ := by
  refine ⟨⟨_, pumpAccess_sP (va := 0x100) (by omega) (by omega), ⟨rfl, rfl, rfl⟩, rfl, rfl, ?_⟩, ?_, ?_, rfl⟩
  · rw [localPa_here (by omega)]; rfl
  · rw [place_here (by omega)]; rfl
  · simp [Core.storePending, QStore.bytes?, overlaps]
theorem witness_PumpAtomics : (∃ u, pumpAccess sP 0x100 8 { write := true } false = (.at [(here + 0x100, 8)] true, u) ∧ CommitReady u ∧
      (u.core u.actor.core).storePending (here + 0x100) 8 = false) ∧ (placeOf (here + 0x100)).isRemote = false ∧
    RemoteOp.cas ≠ .xadd := by
  refine ⟨⟨_, pumpAccess_sP (va := 0x100) (by omega) (by omega), ⟨rfl, rfl, rfl⟩, rfl⟩, ?_, by decide⟩
  rw [place_here (by omega)]; rfl

/-! ### Witnesses: control, queues, kernels, triggers, pools -/

/-- The core with a body that holds some acts, and committed stores. -/
def sBody (acts : List CommitAct) (q : List QStore) : State :=
  { sP with cores := [(0, { coreOf { rule := 0, acts := acts } with storeQ := q })] }

/-- A link that holds a store of this module's. -/
def linkHeld : KMap Link := [(1, { state := .up, held := [⟨Config.moduleNumber.toNat, 1, .store 0 [1]⟩] })]

theorem storesOut_held (s : State) : storesOut { s with links := linkHeld } = true := by simp [storesOut, linkHeld]

theorem releaseGroups_held : (releaseGroups 1 { sBody [.fence .domain] [] with links := linkHeld }).2 = false := by
  have ha : (bodyLane { sBody [.fence .domain] [] with links := linkHeld }).acts = [.fence .domain] := rfl
  simp only [releaseGroups, ha, List.findIdx_cons, CommitAct.isFence, cond_true, List.getElem?_cons_zero, List.take_zero, performActs,
    List.foldl_nil, storesOut_held, beq_self_eq_true, Bool.and_self, if_true]

theorem witness_CommitPoints : CommitReady sP ∧ heldBack (sBody [] [.fence true]) = true ∧
    heldBack (sBody [.fence .die] [.store 0 [1] none]) = true ∧
    (heldBack (sBody [.fence .die] []) = false ∧ (bodyLane (sBody [.fence .die] [])).acts.any CommitAct.isFence = true ∧
      (bodyLane (sBody [.fence .die] [])).released = false ∧
      ∃ t, releaseGroups (bodyLane (sBody [.fence .die] [])).acts.length (sBody [.fence .die] []) = (t, true)) ∧
    (bodyLane (sBody [.cfgTake, .fence .die] [])).acts = [.cfgTake] ++ .fence .die :: [] ∧
    [CommitAct.cfgTake].any CommitAct.isFence = false ∧ (bodyLane sP).acts.any CommitAct.isFence = false ∧
    (placeOf (here + 0x100)).isMemory = true :=
  ⟨⟨rfl, rfl, rfl⟩, rfl, rfl, ⟨rfl, rfl, rfl, ⟨_, rfl⟩⟩, rfl, rfl, rfl, by rw [place_here (by omega)]; rfl⟩
theorem witness_ControlFencesNotices : storesOut sP = false ∧ storesOut { sP with links := linkHeld } = true ∧ loadsOut sP = false ∧
    loadsOut { sP with remotes := [{ id := 1, dst := 1, waiter := 2 ^ 41, pa := 0, len := 4 }] } = true ∧
    ((sBody [] [.fence true]).core 0).storeQ ≠ [] ∧ ((sBody [.fence .die] []).core 0).storeQ = [] ∧
    (∃ u, releaseGroups (bodyLane (sBody [.fence .domain] [])).acts.length { sBody [.fence .domain] [] with links := linkHeld } =
      (u, false)) ∧
    coreOfHandle 0 = some 0 ∧ coreOfHandle 0x80 = none ∧
    inPartition { sP with ctxs := [(0, { grants := (Vector.replicate 4 {}).set 0 { cores := 1 } })] } 0 0 = true ∧
    inPartition sP 0 0 = false ∧ (gOf sP 1).toNat < 2 ^ 32 ∧ 2 ^ 32 ≤ (gOf sP 63).toNat ∧
    ((sP.modCore 0 fun c => { c with tdue := some 0 }).core 0).tdue = some 0 ∧
    (∀ t, (sP.core 0).tdue = some t → sP.nstime < t) := by
  exact ⟨rfl, storesOut_held _, rfl, by decide, by decide, rfl, ⟨_, Prod.ext rfl releaseGroups_held⟩, by decide, by decide,
    by decide, by decide, by decide, by decide, rfl, fun t h => by cases h⟩

/-- Queue 7 of context 0 with a record in its ring, bound to the core. -/
def sV : State := { sP with
  cores := [(0, { coreOf { rule := 0 } with bqueue := 0x8000000000000007 })]
  ctxs := [(0, { state := .ready })]
  queues := [(7, { qbase := 0x1000, log2n := 4, state := .active, tail := 1, kinds := [none] })] }

theorem access_sV {va len : Nat} {wr : Bool} (h0 : 0 < len) (h : va + len ≤ 2 ^ 16) :
    (unitAccess sV 0 0 va len wr).1 = .pages [pageHere] := access_sT (s := sV) h h0 rfl rfl

theorem unitRead_here {s : State} {die ctx w va len : Nat} (h0 : 0 < len) (h : va + len ≤ 2 ^ 16)
    (ha : (unitAccess s die ctx va len false).1 = .pages [pageHere]) : ∃ bs u, unitRead s die ctx w va len = (.bytes bs, u) := by
  simp only [unitRead]
  revert ha
  generalize unitAccess s die ctx va len false = r
  obtain ⟨a, b⟩ := r
  rintro rfl
  simp only [Int.toNat_natCast]
  exact bytes_of (readAny_here h0 h)

theorem writeAny_here {s : State} {va : Nat} {data : List Byte} {f : Bool} (h0 : 0 < data.length) (h : va + data.length ≤ 2 ^ 16) :
    writeAny s [pageHere] va data f = (.bytes [], physStore s (here + va) data (if f && pageHere.fe then some true else none)) := by
  have hv : pageHere.covers va = true := by simp [Page.covers, pageHere]; omega
  have hc : pageHere.va + 2 ^ pageHere.log2 - va = 65536 - va := rfl
  have hp : pageHere.paOf va = here + va := by simp [Page.paOf, pageHere]
  have hr : (placeOf (here + va)).isRemote = false := by rw [place_here (by omega)]; rfl
  have hne : data ≠ [] := by intro e; simp [e] at h0
  have hs : spansOf [pageHere] 2 va data = [(here + va, data)] := by
    simp [spansOf, hv, hc, hp, hne, List.take_of_length_le (show data.length ≤ 65536 - va by omega),
      List.drop_eq_nil_of_le (show data.length ≤ 65536 - va by omega)]
  simp only [writeAny, List.length_singleton, hs, deadPa, hr, Bool.false_and, List.find?_cons, List.find?_nil, writeSpansSure,
    Bool.false_eq_true, if_false, List.any_cons, List.any_nil, Bool.or_false]

theorem unitWrite_here {s : State} {die ctx va : Nat} {data : List Byte} {f : Bool} (h0 : 0 < data.length) (h : va + data.length ≤ 2 ^ 16)
    (ha : (unitAccess s die ctx va data.length true).1 = .pages [pageHere]) : ∃ bs u, unitWrite s die ctx va data f = (.bytes bs, u) := by
  simp only [unitWrite]
  revert ha
  generalize unitAccess s die ctx va data.length true = r
  obtain ⟨a, b⟩ := r
  rintro rfl
  simp only [Int.toNat_natCast, writeAny_here h0 h]
  exact ⟨_, _, rfl⟩

/-- A translation that finds the page in the last-level TLB, with the state after it. -/
theorem translateAccess_full {s : State} {die ctx cap va len : Nat} {want : Want} (h0 : 0 < len) (h : va + len ≤ 2 ^ 16)
    (hl : kget s.ltlb die [] = [⟨ctx, pageHere⟩]) : translateAccess s die ctx cap [] va len want =
      (.pages [pageHere], tlbPut cap (Config.freeNat s.free) [] ⟨ctx, pageHere⟩, { s with free := s.free + 1 }) := by
  have h1 : tlbFind (kget s.ltlb die []) ctx va = some pageHere := by
    simp [hl, tlbFind, pageHere, Page.covers]; omega
  have hr : rangeFault (va : Int) len = none := by
    have h56 : va < 0x100000000000000 := by omega
    have h57 : ¬ ((va : Int) + len > 0x100000000000000) := by omega
    simp [rangeFault, halfTop, h56, h57]
  have h3 : len ≤ pageHere.va + 2 ^ pageHere.log2 - va := by show len ≤ 0 + 2 ^ 16 - va; omega
  have ht : Machine.translate s die ctx cap [] va want =
      (.page pageHere, tlbPut cap (Config.freeNat s.free) [] ⟨ctx, pageHere⟩, { s with free := s.free + 1 }) := by
    unfold Machine.translate
    rw [show tlbFind [] ctx va = none from rfl, h1]
    simp [permits_here]
  simp only [translateAccess, hr, translateFrom, Int.toNat_natCast, ht, if_pos h3]

/-- The state after an access of the queue engine. -/
def qAfter (s : State) (q : Nat) : State := { s with
  free := s.free + 1
  qtlb := kput s.qtlb (s.queue q).hdie.toNat (tlbPut smallTlb (Config.freeNat s.free) [] ⟨(s.queue q).ctx.toNat, pageHere⟩) }

theorem qAccess_full {s : State} {q va len : Nat} {wr : Bool} (h0 : 0 < len) (h : va + len ≤ 2 ^ 16)
    (hq : kget s.qtlb (s.queue q).hdie.toNat [] = []) (hl : kget s.ltlb (s.queue q).hdie.toNat [] = [⟨(s.queue q).ctx.toNat, pageHere⟩]) :
    qAccess s q va len wr = (.pages [pageHere], qAfter s q) := by
  simp only [qAccess, hq, translateAccess_full h0 h hl, qAfter]

theorem qRead_full {s : State} {q va len : Nat} (h0 : 0 < len) (h : va + len ≤ 2 ^ 16) (hq : kget s.qtlb (s.queue q).hdie.toNat [] = [])
    (hl : kget s.ltlb (s.queue q).hdie.toNat [] = [⟨(s.queue q).ctx.toNat, pageHere⟩]) :
    ∃ u, qRead s q va len = (.bytes (s.mem.reads va len), u) := by
  simp only [qRead, qAccess_full h0 h hq hl]
  exact ⟨_, Prod.ext (readAny_here h0 h) rfl⟩

theorem qWrite_full {s : State} {q va : Nat} {data : List Byte} (h0 : 0 < data.length) (h : va + data.length ≤ 2 ^ 16)
    (hq : kget s.qtlb (s.queue q).hdie.toNat [] = []) (hl : kget s.ltlb (s.queue q).hdie.toNat [] = [⟨(s.queue q).ctx.toNat, pageHere⟩]) :
    qWrite s q va data = (.bytes [], memStore (qAfter s q) (here + va) data none) := by
  have hm : (placeOf (here + va)).isMemory = true := by rw [place_here (by omega)]; rfl
  simp only [qWrite, qAccess_full h0 h hq hl, writeAny_here h0 h, Bool.false_and, Bool.false_eq_true, if_false, physStore, hm, if_true]

/-- An operand of 64 bytes of a commit-point instruction, read. -/
theorem operand_read : ∃ bs t, readSpansAny 0 0x100 [(here + 0x100, 64)] sP = (.bytes bs, t) := by
  have hp : (placeOf (here + 0x100)).isMemory = true := by rw [place_here (by omega)]; rfl
  simp only [readSpansAny, hp, if_true, ReadOut.join]
  exact ⟨_, _, rfl⟩

theorem witness_QueueInstructions : Named sV 7 ∧ ¬ Named sV 8 ∧ (sV.queue 7).psrc = 0 ∧ (gOf sP 5).toNat % 64 = 0 ∧
    (∃ u, pumpAccess sP 0x100 64 { write := false } false = (.at [(here + 0x100, 64)] true, u) ∧ CommitReady u) ∧
    (placeOf (here + 0x100)).isMemory = true ∧ (∃ bs t, readSpansAny 0 0x100 [(here + 0x100, 64)] sP = (.bytes bs, t)) ∧
    queueHeld sV 7 = false ∧ queueHeld { sV with rings := [(0, { stopped := [(5, 7)] })] } 7 = true ∧ 0 < (sV.queue 7).sharedFree ∧
    Queue.sharedFree { log2n := 4, kinds := List.replicate 8 none } = 0 ∧ (1 : BitVec 8).getLsbD 0 = true ∧
    (∃ bs t, qWrite sV 7 ((sV.queue 7).slotVa 1) (List.replicate 64 1) = (.bytes bs, t)) ∧
    boundQueue (sV.core 0) = some 7 ∧ boundQueue (sP.core 0) = none ∧ (sV.queue 7).present = 1 ∧
    (∃ bs t, qRead sV 7 ((sV.queue 7).slotVa 0) 64 = (.bytes bs, t)) ∧ deadSpan sP (here + 0x100, 64) = false := by
  refine ⟨⟨by decide, by decide, by decide⟩, fun h => absurd h.2.1 (by decide), rfl, by decide,
    ⟨_, pumpAccess_sP (va := 0x100) (by omega) (by omega), rfl, rfl, rfl⟩, by rw [place_here (by omega)]; rfl, operand_read, rfl, rfl,
    by decide, by decide, by decide, ?_, rfl, rfl, by decide, ?_, by simp [deadSpan, deadPa, place_here, Place.isRemote]⟩
  · exact ⟨_, _, qWrite_full (s := sV) (va := 0x1040) (by decide) (by decide) rfl rfl⟩
  · exact ⟨_, qRead_full (s := sV) (va := 0x1000) (by omega) (by omega) rfl rfl⟩

/-- A record for a kernel of one stage, with its counter block at 0 (R272). -/
def rec0 : List Byte := byteList 64 (2 ^ 16)

theorem witness_KernelInstructions : ownRegion sP 0 false = some 0 ∧ ownRegion sP 4 false = none ∧
    (sP.region 0).isSome = true ∧ regionOfHandle sP 4 = none ∧
    (∃ r, ({ sP with regions := [(0, { region0 with kernel := .primed })] } : State).region 0 = some r ∧ r.kernel = .primed ∧
      r.priming = none) ∧ (gOf sP 63).toNat ≥ 2 ^ 29 ∧ (gOf sP 1).toNat < 2 ^ 26 ∧ CommitReady sP ∧ Rec.type rec0 = 0 ∧ recordOk 0 rec0 = true ∧
    (∃ n, allocRegion sP 0 0 = .error n) ∧
    (∃ x, allocRegion { sP with regions := [], fused := Vector.replicate 4 0 } 0 0 = .ok x) ∧
    (∃ bs t, zeroBlock sV 0 0 0x200 = (.bytes bs, t)) ∧
    (∃ r, ({ sP with regions := [(0, { region0 with ctx := 5 })] } : State).region 0 = some r ∧
      ownRegion { sP with regions := [(0, { region0 with ctx := 5 })] } 0 false = none) := by
  refine ⟨by decide, by decide, by decide, by decide, ⟨_, rfl, rfl, rfl⟩, by decide, by decide, ⟨rfl, rfl, rfl⟩, by decide, by decide, ⟨1, rfl⟩, ⟨_, rfl⟩, ?_,
    ⟨_, rfl, by decide⟩⟩
  have := access_sV (va := 0x200) (len := 128) (wr := true) (by omega) (by omega)
  simp only [zeroBlock]
  revert this
  generalize unitAccess sV 0 0 (0x200 : Nat) 128 true = r
  obtain ⟨a, b⟩ := r
  rintro rfl
  exact ⟨_, _, rfl⟩

theorem witness_TriggersPoolsRoutes : (gOf sP 1).toNat < 256 ∧ 256 ≤ (gOf sP 5).toNat ∧ (gOf sP 5).toNat % 64 = 0 ∧ (gOf sP 1).toNat % 64 ≠ 0 ∧
    triggerOk (List.replicate 64 0) = true ∧ ((sP.queue 0).ctx.toNat = coreCtx sP 0) ∧
    (sP.pool 0 0).reading = none ∧ (sP.pool 0 0).remaining = 0 ∧
    (({ sP with servers := [(0, { pools := [(0, { reading := some (0, 0, 0) })] })] } : State).pool 0 0).reading ≠ none ∧
    0 < (({ sP with servers := [(0, { pools := [(0, { left := 5 })] })] } : State).pool 0 0).remaining ∧
    (poolOf {} 0 (List.replicate 32 1)).isNone = true ∧ (poolOf {} 0 (byteList 32 (2 ^ 64 + 2 ^ 96 + 2 ^ 136))).isSome = true ∧
    CommitReady sP ∧ (1 ≤ (gOf sP 1).toNat ∧ (gOf sP 1).toNat ≤ 65536) ∧ (gOf sP 0).toNat = 0 ∧
    (sP.core 0).storePending (here + 0x100) 64 = false ∧ (gOf sP 1).toNat < 2 ^ 17 ∧ 2 ^ 27 ≤ (gOf sP 63).toNat :=
  ⟨by decide, by decide, by decide, by decide, by decide, by decide, by decide, by decide, by decide, by decide, by decide, by decide,
    ⟨rfl, rfl, rfl⟩, ⟨by decide, by decide⟩, by decide, rfl, by decide, by decide⟩

/-- A core whose replies fill their queue. -/
def sFull : State := { sP with cores := [(0, { coreOf { rule := 0 } with replies := List.replicate 64 ⟨0, 0⟩ })] }

theorem witness_RequestsAsked : replyRoom sFull = false ∧ replyRoom sP = true ∧
    replyRoom { sP with cores := [(0, { coreOf { rule := 0 } with replies := List.replicate 63 ⟨0, 0⟩ })] } = true ∧
    (ownRegion sP 0 true ≠ none) ∧ (ownRegion sU 4 true = none) ∧ coreCtx sP 0 = 0 ∧ coreCtx sU 0 ≠ 0 ∧
    ((2 : Reg).val % 2 = 0) ∧ ((3 : Reg).val % 2 = 1) :=
  ⟨by decide, by decide, by decide, by decide, by decide, by decide, by decide, by decide, by decide⟩

/-- A request of core 0 to read a word, and one that waits for its target behind it. -/
def asked (w : Bool) (r : Option CfgReply) : CfgReq where
  no := 1
  kind := 1
  variant := 0
  tag := 5
  a := 0
  b := 0
  c := 0
  waits := w
  reply := r

def sC (qs : List CfgReq) : State := { sP with cores := [(0, { coreOf { rule := 0 } with cfgOut := qs })] }

theorem witness_RequestsServed : (⟨0, 1, 5, 1⟩ : Owed).kind < 2 ^ 7 ∧
    nextReply [asked false (some ⟨1, 2⟩)] = some (asked false (some ⟨1, 2⟩)) ∧
    nextReply ((sC [asked true none]).core 0).cfgOut = none ∧
    (((sC [asked true none]).core 0).cfgOut.find? fun q => q.waits && !behindAnother (sC [asked true none]) q) = some (asked true none) ∧
    behindAnother (sC [asked true none]) { asked true none with no := 2 } = true ∧
    present sP 0 = true ∧ present sP 1 = false ∧ cfgPlace 0x600 = .reserved ∧ cfgPlace 0 ≠ .reserved ∧ (cfgPlace 0).notWritten = false ∧
    (cfgPlace 0x859).notWritten = true ∧ wordLocked sP 0 = true ∧ wordLocked { sP with regions := [] } 0 = false ∧
    regionOfHandle sP 0 = some 0 ∧ sP.region 0 = some region0 ∧ canPrime { region0 with kernel := .loaded } 0 = true ∧
    canPrime region0 0 = false ∧ region0.frozen = false ∧ region0.kernel = .firing ∧ region0.freezeReq = false ∧
    region0.freezeMark = false ∧ region0.reloads = [] ∧
    (∃ r, ({ sP with regions := [(0, { region0 with frozen := true })] } : State).region 0 = some r ∧ r.frozen = true) ∧
    regionOfHandle sP 4 = none :=
  ⟨by decide, by decide, by decide, by decide, by decide, by decide, by decide, by decide, by decide, by decide, by decide, by decide,
    by decide, by decide, rfl, by decide, by decide, rfl, rfl, rfl, rfl, rfl, ⟨_, rfl, rfl⟩, by decide⟩

theorem witness_TranslationsAndRegisters : rangeFault (2 ^ 56) 1 = some (3, 2 ^ 56) ∧ rangeFault (0 : Nat) 1 = none ∧ CommitReady sP ∧
    laneShoot sP = none ∧
    (laneShoot { sP with shoots := [{ id := 1, kind := .tlbi, what := .all, owed := some ⟨0, 0, 0, 0⟩, cores := [0] }] }).any (fun x => x.acked == false) = true ∧
    (laneShoot { sP with shoots := [{ id := 1, kind := .tlbi, what := .all, owed := some ⟨0, 0, 0, 0⟩, acked := true }] }).any (fun x => x.acked) = true ∧
    coreCtx sP 0 = 0 ∧ coreCtx sU 0 ≠ 0 :=
  ⟨by decide, by decide, ⟨rfl, rfl, rfl⟩, by decide, by decide, by decide, by decide, by decide⟩

theorem witness_WellInstructions : WellNamed sP 7 ∧ ¬ WellNamed sP 64 ∧
    ({ sP with wells := [(7, { state := .armed, ctx := 0 })] } : State).well 7 ≠ (sP.well 7) ∧ (sP.well 7).state = .closed ∧
    (sP.well 7).lcore = 0 ∧ bestCandidate (sP.well 7).cands = none ∧
    bestCandidate [⟨0, 1, 5, 2, 3, 0⟩, ⟨1, 2, 4, 2, 3, 0⟩] = some ⟨1, 2, 4, 2, 3, 0⟩ ∧ Verdict 3 ∧ ¬ Verdict 4 ∧
    ((4 : Reg).val % 4 = 0 ∧ (2 : Reg).val % 2 = 0) := by
  refine ⟨⟨by omega, .inl rfl⟩, fun h => absurd h.1 (by omega), by decide, rfl, rfl, rfl, by decide, ⟨by decide, by decide⟩,
    fun h => absurd h.1 (by decide), by decide, by decide⟩
theorem witness_BarrierInstructions : (gOf sP 1).toNat < 32 ∧ ((sP.barrier 7).count = 0) ∧
    (({ sP with barriers := [(7, { count := 2 })] } : State).barrier 7).count ≠ 0 ∧ 32 ≤ (gOf sP 4).toNat ∧
    (let v : W64 := 0x30001
     v.extractLsb' 0 16 ≠ 0 ∧ 3 ≤ (v.extractLsb' 16 3).toNat ∧ v.extractLsb' 19 5 = 0 ∧ v.toNat < 2 ^ 30 ∧ v.extractLsb' 24 6 = 0) ∧
    coreCtx sP 0 = 0 ∧ coreCtx sU 0 ≠ 0 ∧ (gOf sP 1).extractLsb' 6 2 = 0 ∧ (gOf sP 1).toNat < 2 ^ 10 ∧ (gOf sP 2).toNat < 2 ^ 32 :=
  ⟨by decide, by decide, by decide, by decide, by decide, by decide, by decide, by decide, by decide, by decide⟩

/-! ### Witnesses: rounds -/

/-- Rules 0 and 1 of a core are enabled and conflict. -/
def coreR : Core := { coreOf { rule := 0 } with
  rules := ((Vector.replicate 64 (0, 0)).set 0 (0x200000002, 0)).set 1 (0x200000002, 0), matrix := (Vector.replicate 64 0).set 0 2 }

set_option maxRecDepth 20000 in
theorem witness_RuleSelection : selectRules coreR 0 = [0] ∧ ruleEnabled coreR 0 1 = true ∧ conflicts coreR 0 1 = true ∧
    ruleEnabled coreR 0 2 = false := by decide
theorem witness_RoundCommit :
    (let l : Lane := { rule := 0, run := .done, g := [(3, 5)], acts := [.cfgTake] }
     let s : State := { sP with cores := [(0, coreOf l)] }
     (s.core 0).lanes.findIdx (fun l => l.run == .done) = 0 ∧ (s.core 0).lanes[0]? = some l ∧ l.g ≠ [] ∧
      (∀ w ∈ l.g, w.1 < 64) ∧ (∀ w ∈ l.p, w.1 < 32)) ∧
    (∃ t, commitAct sP 0 .cfgTake = some t) ∧ (∀ l ∈ (sP.core 0).lanes, l.run ≠ .done) ∧
    (placeOf (here + 0x100)).isMemory = true ∧
    ([QStore.store (here + 0x100) [1] none, .fence true] : List QStore)[0]? = some (.store (here + 0x100) [1] none) ∧
    ([QStore.store (here + 0x100) [1] none, .fence true] : List QStore)[1]? = some (.fence true) := by
  refine ⟨⟨rfl, rfl, by decide, by decide, by decide⟩, ⟨_, rfl⟩, by decide, by rw [place_here (by omega)]; rfl, rfl, rfl⟩

/-! ### Witnesses: engines -/

/-- A command with A, B and opcode (R186). -/
def cmd (op a b : Nat) : Cmd := { tok := ⟨BitVec.ofNat 256 (a + b * 2 ^ 64 + op * 2 ^ 96), 0, 0⟩, region := 0 }

def loadOf (desc : Option (List Byte)) : LoadSeq where
  buf := 0
  descVa := 0
  desc := desc
  region := 0
  stroke := 0

def runOf : RunSeq where
  acc := false
  base := 0
  count := 1
  ax := 127
  buf := 1
  region := 0

/-- A configured island with an engine 0 of die 0: a load at work, a run whose A row stands at the row ports. -/
def islandCore0 : IslandCore where
  cfg := some (.bf16, .bf16, .fp32)
  load := some (loadOf (some (byteList 32 (512 * 2 ^ 64))))
  run := some runOf
  b1 := { st := .ready }
  stage := (List.range 8).map fun p => (p, [⟨0, 0, 0⟩, ⟨0, 0, 0⟩])

def sE (c : IslandCore) (bal : Nat) : State := { sT with islands := [(0, { core := c, balance := bal })] }

theorem engRead_sE {c : IslandCore} {bal va len : Nat} (h0 : 0 < len) (h : va + len ≤ 2 ^ 16) :
    ∃ bs u, engRead (sE c bal) 0 0 va len false = (.bytes bs, u) :=
  engRead_here h0 h (access_sT (s := sE c bal) (die := 0) (cap := smallTlb) h h0 rfl rfl)

theorem witness_IslandEvents :
    (let s := sE { queue := [cmd 0xC0 0x111 0] } 0
     (s.island 0).frozen = false ∧ (takenIn s 0).core.group = none ∧
      (takenIn s 0).core.queue = [cmd 0xC0 0x111 0] ∧ canStart (takenIn s 0).core (cmd 0xC0 0x111 0) = true ∧
      islandOp (cmd 0xC0 0x111 0).op = true ∧ (cmd 0xC0 0x111 0).op = 0xC0) ∧
    ((cmd 0xC1 0 1).op = 0xC1 ∧ (cmd 0xC2 0 1).op = 0xC2 ∧ (cmd 0xC3 0 1).op = 0xC3 ∧ (cmd 0xC4 0 1).op = 0xC4 ∧
      (cmd 0xC5 0 1).op = 0xC5) ∧
    (let s := sE islandCore0 1024
     s.island 0 ≠ {} ∧ islandCore0.load = some (loadOf (some (byteList 32 (512 * 2 ^ 64)))) ∧
      bits (natOf (byteList 32 (512 * 2 ^ 64))) 97 1 = 0 ∧ bits (natOf (byteList 32 (512 * 2 ^ 64))) 98 1 = 0) ∧
    (∃ bs u, engRead (sE islandCore0 1024) 0 0 ((bits (natOf (byteList 32 (512 * 2 ^ 64))) 0 64 + 0 * 512 : Nat) : Int) (rowBytes .bf16) false =
      (.bytes bs, u)) ∧
    (({ islandCore0 with brow := 255 } : IslandCore).brow = 255 ∧ islandCore0.brow ≠ 255) ∧
    (let s := sE islandCore0 1024
     let x := (s.modIsland 0 (Island.takeRows (islandBack s 0))).island 0
     x.core.run = some runOf ∧ rowPresent x .bf16 = true ∧ (buf x.core runOf.buf).st = .ready ∧
      (rowCost .bf16 (min (runOf.count - runOf.arow) (presentRows x .bf16).length)).1 ≤ x.balance ∧ x.thr = false) ∧
    (let s := sE islandCore0 1023
     let x := (s.modIsland 0 (Island.takeRows (islandBack s 0))).island 0
     x.balance < (rowCost .bf16 (min (runOf.count - runOf.arow) (presentRows x .bf16).length)).1) ∧
    engHeld (sE islandCore0 0) 0 = false ∧ engHeld { sE islandCore0 0 with rings := [(0, { stopped := [(1, 0)] })] } 0 = true := by
  refine ⟨⟨rfl, by decide, by decide, by decide, by decide, by decide⟩, ⟨by decide, by decide, by decide, by decide, by decide⟩,
    ⟨fun h => ?_, rfl, by decide, by decide⟩, ?_, ⟨rfl, by decide⟩, ⟨rfl, by decide, by decide, by decide, rfl⟩, by decide, by decide, by decide⟩
  · have := congrArg (fun x : Island => x.core.run) h
    exact absurd this (by decide)
  · exact engRead_sE (by decide) (by decide)
theorem witness_IslandEvents_rows : (([] : List Machine.Num).any Machine.Num.special || (Fmt.bf16 != .bf16 && (127 : Nat) == 255) || tileFlag .bf16 {}) = false ∧
    ([Machine.Num.nan].any Machine.Num.special || (Fmt.bf16 != .bf16 && (127 : Nat) == 255) || tileFlag .bf16 {}) = true := by decide
theorem witness_IslandEvents_drain : (let c : IslandCore := { islandCore0 with drain := some { base := 1023, count := 1, region := 7 } }
     let s := sE c 0
     (s.island 0).core.drain = some { base := 1023, count := 1, region := 7 } ∧
      (drainTargets s 0).all (fun p => targetFree s 1 p.2) = true ∧ s.region 7 = none) ∧
    (∃ l, ((sE { islandCore0 with load := some (loadOf none) } 0).island 0).core.load = some l) ∧
    (∃ ls c v, loadStep (sE { islandCore0 with load := some { loadOf none with descVa := 2 ^ 56 } } 0) 0 = .fault ls c v ∧ c ≠ 1 ∧ c ≠ 2 ∧ c ≠ 5) :=
  ⟨by decide, ⟨_, rfl⟩, ⟨_, 3, 2 ^ 56, rfl, by decide, by decide, by decide⟩⟩
/-- A load of a stroke that was voided, kept by the island with a buffer that a fault has stopped. -/
theorem witness_IslandEvents_loads : (let c : IslandCore := { b0 := { st := .faulted }, fcode := 5, kept := some (loadOf none, {}, 3) }
     (buf c ((cmd 0xC1 0x400 0).bval % 2)).st = .faulted ∧ c.kept = some (loadOf none, {}, 3) ∧
      (loadOf none).serial = (cmd 0xC1 0x400 0).serial ∧ (loadOf none).sub = 0) ∧
    (∀ k, ({} : IslandCore).kept = some k → ¬ (k.1.serial = (cmd 0xC1 0x400 0).serial ∧ k.1.sub = 0)) :=
  ⟨by decide, fun k h => by cases h⟩

/-- Streamer 16, expander 24 and weir 48 of die 0, with a command whose stroke has closed, and jobs. -/
def sJ (j : StreamJob) (x : XpJob) (w : WeirJob) : State := { sT with
  regions := [(0, { region0 with stroke := 1 })]
  streamers := [(16, { job := some j })]
  expanders := [(24, { job := some x, island := some 0 })]
  weirs := [(48, { job := some w })] }

/-- A copy of 32 bytes inside the page, from 0x100 to 0x200. -/
def copyDesc : List Byte := byteList 64 (0x100 + 0x200 * 2 ^ 64 + 32 * 2 ^ 128)

theorem witness_EngineEvents_streams :
    (let s : State := { sT with regions := [(0, { region0 with stroke := 1 })], streamers := [(16, { queue := [cmd 0xC8 0x400 0] })] }
     isStreamer 16 = true ∧ (s.streamer 16).job = none ∧ (s.streamer 16).intake.queue = [cmd 0xC8 0x400 0] ∧
      (cmd 0xC8 0x400 0).tok.isMark = false ∧ strokeClosed s (cmd 0xC8 0x400 0) = true ∧ (cmd 0xC8 0x400 0).op = 0xC8 ∧
      streamOk s 0xC8 0 copyDesc = true) ∧
    (∃ bs u, engRead (sJ { op := 0xC8, descVa := 0, desc := copyDesc, region := 0 } { descVa := 0, region := 0 } { descVa := 0, region := 0 })
      16 0 (0x100 : Nat) 32 false = (.bytes bs, u)) ∧
    ((0 : Nat) < descField copyDesc 0x10 0 32 ∧ descField copyDesc 0x30 0 2 = 0 ∧ descField copyDesc 0x30 2 1 = 0 ∧
      descField (List.replicate 64 4) 0x30 2 1 = 1 ∧ descField copyDesc 0x10 0 32 ≤ 32) ∧
    completionWord sT 16 0 0 0 = (.bytes [], sT) ∧
    (let j : StreamJob := { op := 0xC8, descVa := 0, desc := copyDesc, region := 0, ending := some (6, 0) }
     let s := sJ j { descVa := 0, region := 0 } { descVa := 0, region := 0 }
     (s.streamer 16).job = some j ∧ j.stopped = false ∧ j.desc ≠ [] ∧ j.ending = some (6, 0) ∧
      (ringCopy { j with ending := none } && sourcesEnded s 0) = false) ∧
    (let s : State := { sT with regions := [(0, { region0 with stroke := 1, stores := [{ stf0 none with stroke := 1 }] })] }
     ∃ r, s.region 0 = some r ∧ (0 : Nat) < r.stroke ∧ ∀ x ∈ r.stores, 0 < x.stroke) := by
  refine ⟨by decide, ?_, by decide, rfl, by decide, ⟨_, rfl, by decide, by decide⟩⟩
  exact engRead_here (va := 0x100) (by omega) (by omega) (access_sT (s := sJ { op := 0xC8, descVa := 0, desc := copyDesc, region := 0 }
    { descVa := 0, region := 0 } { descVa := 0, region := 0 }) (tlb := []) (ctx := 0) (va := 0x100) (len := 32) (die := 0) (cap := smallTlb)
    (by omega) (by omega) rfl rfl)
def xpJob0 : XpJob where
  descVa := 0
  desc := byteList 32 (2 ^ 96)
  opened := true
  out := List.replicate 32 7
  region := 0

theorem witness_EngineEvents_others :
    (let s := sJ { op := 0xC8, descVa := 0, region := 0 } xpJob0 { descVa := 0, desc := byteList 64 (1 * 2 ^ 64 + 2 ^ 96), region := 0 }
     isExpander 24 = true ∧ isWeir 48 = true ∧ (∃ j, (s.expander 24).job = some j ∧ xpToStream j = true ∧ j.opened = true ∧
      j.stopped = false ∧ j.good = true ∧ 32 ≤ j.out.length) ∧ (s.expander 24).island = some 0 ∧ (s.expander 24).part = [] ∧
      (∃ j, (s.weir 48).job = some j ∧ j.stopped = false ∧ j.desc ≠ [] ∧ j.outs = none ∧ descField j.desc 8 0 32 = 1)) ∧
    streamTakes (sE { islandCore0 with load := some (loadOf (some (byteList 32 (2 ^ 97)))) } 0) 0 = true ∧
    xpToStream { descVa := 0, desc := byteList 32 (2 ^ 96), out := [], good := false, region := 0 } = true ∧
    xpToStream { descVa := 0, desc := byteList 32 0, out := [1], region := 0 } = false ∧
    (let s := sE { queue := [cmd 0x99 0 0] } 0
     (s.island 0).core.load = none ∧ (s.island 0).core.group = none ∧ (s.island 0).core.queue = [cmd 0x99 0 0] ∧
      canStart (s.island 0).core (cmd 0x99 0 0) = true ∧ islandOp (cmd 0x99 0 0).op = false) ∧
    (let s : State := { sT with streamers := [(16, { queue := [cmd 0xC0 0 0] })], regions := [(0, { region0 with stroke := 1 })] }
     wrongCommand s 16 = some (cmd 0xC0 0 0)) ∧
    (let s : State := { sT with islands := [(0, { fifo := [cmd 0xC6 1 0] })] }
     (s.island 0).fifo = [cmd 0xC6 1 0] ∧ (cmd 0xC6 1 0).tok.isMark = false ∧ (cmd 0xC6 1 0).op = 0xC6 ∧ replyTarget s 0 0 = none) ∧
    (let s : State := { sT with islands := [(0, { replies := [cmd 0 1 0] })] }
     (s.island 0).fifo = [] ∧ engReplies s 0 = [cmd 0 1 0]) := by
  refine ⟨⟨rfl, rfl, ⟨_, rfl, by decide, rfl, rfl, rfl, by decide⟩, rfl, rfl, ⟨_, rfl, rfl, by decide, rfl, by decide⟩⟩, by decide, by decide,
    by decide, by decide, by decide, by decide, by decide⟩

/-- A request of element 0 for pool 2, waiting at the range server of die 0. -/
def sK (p : Pool) : State := { sQ with servers := [(0, { pools := [(2, p)], queue := [⟨0, 0, 6, 2⟩] })] }

theorem witness_RangeServer : nextTake (sK { left := 5, chunk := 2 }) 0 = some ⟨0, 0, 6, 2⟩ ∧ (∃ m, findReq (sK { left := 5 }) 0 0 6 = some m) ∧
    (∃ c, (((sK { left := 5, chunk := 2 }).pool 0 2).take).1 = some c) ∧ (((sK {}).pool 0 2).take).1 = none ∧
    regionOf (sK {}) 0 = some 0 ∧ nextTake (sK { reading := some (0, 0, 0) }) 0 = none ∧
    ((sK { reading := some (0, 5, 0) }).pool 0 2).reading = some (0, 5, 0) ∧
    (∃ c v u, readGroup (sK {}) 50 0 (2 ^ 56) = (.fault c v, u)) ∧ (⟨0, 1, 0⟩ : Chunk) ∈ [(⟨0, 1, 0⟩ : Chunk)] :=
  ⟨rfl, ⟨_, rfl⟩, ⟨_, rfl⟩, rfl, rfl, rfl, rfl, ⟨_, _, _, rfl⟩, by decide⟩

/-! ### Witnesses: strokes -/

/-- One tile with one element in region 0. -/
def sM (r : Region) (y : Elem) : State := { State.reset with tiles := [(0, { tile0 with elems := [(0, y)] })], regions := [(0, r)] }

/-- An element with one input on the data plane, which holds a token, and one output that leads nowhere it could not take it. -/
def elemM (k : Token) : Elem where
  binds := [(0, bound 0 0 0 0), (16, bound 0 0 1 0)]
  chans := [(0, { fifo := [k] })]

theorem witness_StrokeMarks :
    (Firing region0 ∧ ({ region0 with strokeLen := 0 } : Region).strokeLen ≤ originRounds (sM region0 elem0) region0 - region0.strokeStart) ∧
    (region0.strokeMark = false ∧ originRounds (sM region0 elem0) region0 - region0.strokeStart < region0.strokeLen) ∧
    (let r := { region0 with strokeReq := true }
     (sM r elem0).region 0 = some r ∧ Firing r ∧ r.strokeReq = true ∧ r.strokeMark = false ∧ r.frozen = false ∧ r.stopped = false) ∧
    (let r := { region0 with strokeMark := true }
     (sM r elem0).region 0 = some r ∧ r.strokeMark = true) ∧
    (let r := { region0 with planeReqs := [⟨0, some 1⟩] }
     (sM r elem0).region 0 = some r ∧ Firing r ∧ r.planeReqs ≠ [] ∧ r.drain = none ∧ r.switchAt = none ∧ r.frozen = false ∧
      r.stopped = false) ∧
    (let r := { region0 with switchAt := some (1, 0) }
     (sM r elem0).region 0 = some r ∧ r.switchAt = some (1, 0) ∧ 0 ≤ originRounds (sM r elem0) r ∧ r.hasTile 0 = true ∧
      kfind ((sM r elem0).tile 0).elems 0 = some elem0) ∧
    (let r := { region0 with switchAt := some (1, 4) }
     (sM r elem0).region 0 = some r ∧ r.switchAt = some (1, 4) ∧ originRounds (sM r elem0) r < 4) := by
  refine ⟨⟨Or.inl rfl, by decide⟩, by decide, ⟨rfl, Or.inl rfl, rfl, rfl, rfl, rfl⟩, ⟨rfl, rfl⟩,
    ⟨rfl, Or.inl rfl, by decide, rfl, rfl, rfl, rfl⟩, ⟨rfl, rfl, by decide, by decide, rfl⟩, ⟨rfl, rfl, by decide⟩⟩

theorem witness_MarksPass :
    (let s := sM region0 (elemM (markToken 0 0))
     (s.elem 0 0).faulted = false ∧ (s.elem 0 0).frozen = false ∧ alignedMark s 0 0 = some (markToken 0 0) ∧ canForward s 0 0 false = true ∧
      (markToken 0 0).kind = 0) ∧
    (let s := sM region0 (elemM (markToken 1 0))
     alignedMark s 0 0 = some (markToken 1 0) ∧ canForward s 0 0 false = true ∧ (markToken 1 0).kind = 1 ∧ regionOf s 0 = some 0) ∧
    (markToken 2 0).kind = 2 ∧
    (let s : State := { sR with islands := [(0, { fifo := [⟨markToken 0 0, 0, 0⟩] })] }
     islandMark s 0 = some (markToken 0 0) ∧ islandCanForward s 0 = true ∧ (s.island 0).frozen = false) ∧
    (let s : State := { sR with islands := [(0, { inject := [markToken 0 0] })], regions := [(0, { region0 with back := [(1536, 0, 8)] })] }
     islandAligned s 0 = [] ∧ islandMark s 0 = some (markToken 0 0) ∧ islandCanForward s 0 = true ∧ (s.island 0).frozen = false) ∧
    (let y : Elem := { elemM (markToken 3 0) with core := { barIn := [(0, 1)] } }
     let s := sM region0 y
     alignedInputs s 0 0 ≠ [] ∧ (∀ c ∈ alignedInputs s 0 0, y.core.barOut < kget y.core.barIn c 0) ∧ canForward s 0 0 true = true ∧
      y.faulted = false ∧ y.frozen = false) ∧
    (let s := sM region0 (elemM (markToken 3 0))
     ∃ c ∈ alignedInputs s 0 0, kget (s.elem 0 0).core.barIn c 0 ≤ (s.elem 0 0).core.barOut) ∧
    (let s : State := { sR with islands := [(0, { fifo := [⟨markToken 3 0, 0, 0⟩] })] }
     let u := s.modIsland 0 fun x => x.takeBarriers (islandAligned s 0)
     (s.island 0).frozen = false ∧ islandAligned s 0 ≠ [] ∧ (∀ p ∈ islandAligned s 0, (u.island 0).core.barOut < kget (u.island 0).core.barIn p 0) ∧
      islandCanForward u 0 = true) := by
  refine ⟨by decide, by decide, by decide, by decide, by decide, by decide, by decide, by decide⟩

/-- A store of the closed stroke 0, with the counter of stroke 1 open. -/
def rS : Region := { region0 with stroke := 1, stores := [{ stf0 none with stf := false }] }

theorem witness_StrokeEnds :
    (let r := { region0 with strokeMark := true }
     let s := sM r { elem0 with stroke := 1 }
     s.region 0 = some r ∧ strokePassed s r = false ∧ strokePassed { s with islands := [(0, { stroke := 1 })] } r = true ∧
      r.hasTile 0 = true ∧ kfind (s.tile 0).elems 0 = some { elem0 with stroke := 1 }) ∧
    (∃ x, drainable rS = [x]) ∧ drainable region0 = [] ∧
    (sM region0 elem0).region 0 = some region0 ∧ region0.hasTile 1 = false ∧ region0.back.contains (0, 0, 0) = false :=
  ⟨⟨rfl, by decide, by decide, by decide, rfl⟩, ⟨_, rfl⟩, rfl, rfl, by decide, rfl⟩
theorem witness_StrokeEnds_drain (n : Nat) : ∃ x, (drainable rS)[n % (drainable rS).length]? = some x :=
  ⟨{ stf0 none with stf := false }, by
    rw [show drainable rS = [{ stf0 none with stf := false }] from rfl]
    simp [Nat.mod_one]⟩

/-- A CUT of one iteration at the head of input 0, which a ring of the cistern backs. -/
def elemCut : Elem where
  binds := [(0, bound 0 0 0 0 ||| 0x0010000000000000)]
  chans := [(0, { fifo := [markToken (4 + 2 ^ 32) 0] })]
  loop := some (0, true)

theorem witness_CutsAndBackingRings :
    (let s := sM region0 elemCut
     let y := s.elem 0 0
     y.loop = some (0, true) ∧ y.core.cut = none ∧ y.faulted = false ∧ y.frozen = false ∧
      (y.inputs.find? fun c => match y.head c with
        | some k => k.kind == 4
        | none => false) = some 0 ∧ y.head 0 = some (markToken (4 + 2 ^ 32) 0) ∧
      ∃ r, regionAt (s.modElem 0 0 fun y => y.dropHead 0) 0 = some r) ∧
    (let s := sM region0 { elemCut with chans := [(0, { fifo := [⟨1, 0, 0⟩, ⟨2, 0, 0⟩], flight := [⟨3, 0, 0⟩] })] }
     let ch := (s.elem 0 0).chan 0
     let b := (s.elem 0 0).inBind 0
     ch.flight = ⟨3, 0, 0⟩ :: [] ∧ bindRingen b = true ∧ 2 ≤ ch.fifo.length ∧ ch.ring.length < ringSlots (s.tile 0) (bindRing b)) ∧
    (let s := sM region0 { elemCut with chans := [(0, { fifo := [⟨1, 0, 0⟩], ring := [⟨3, 0, 0⟩] })] }
     let ch := (s.elem 0 0).chan 0
     ch.ring = ⟨3, 0, 0⟩ :: [] ∧ ch.fifo.length < 2 ∧ ch.flight = [] ∧
      (s.tile 0).badAt ((s.tile 0).core.rings[fin 8 (bindRing ((s.elem 0 0).inBind 0))].slotAt 0) 4 = false) ∧
    (let s := (sM region0 { elemCut with chans := [(0, { ring := [⟨3, 0, 0⟩] })] }).modTile 0 fun x => { x with
       badCistern := [0] }
     let r := (s.tile 0).core.rings[fin 8 (bindRing ((s.elem 0 0).inBind 0))]
     (s.tile 0).badAt (r.slotAt r.getSlot) r.slotBytes = true ∧ ((s.elem 0 0).chan 0).ring = ⟨3, 0, 0⟩ :: [] ∧
      ((s.elem 0 0).chan 0).fifo = []) := by
  refine ⟨⟨rfl, rfl, rfl, rfl, by decide, by decide, ⟨_, rfl⟩⟩, by decide, by decide, by decide⟩

theorem witness_IllegalSlots :
    (let s := sM region0 { elem0 with slots := [(0, BitVec.ofNat 64 (2 ^ 63 + 0xFF * 2 ^ 30))] }
     slotAt s 0 0 0 0 = .illegal ∧ (s.elem 0 0).running = true ∧ (s.elem 0 0).plane.toNat = 0) ∧
    (let x := sP.core 0
     x.lanes.findIdx? (fun l => l.rule == 0 && l.run == .running) = some 0 ∧ ruleLegal x 0 = false) :=
  ⟨⟨rfl, by decide, by decide⟩, by decide, by decide⟩

/-! ### Witnesses: kernels -/

/-- A region whose image lies at 0x100, of sixty-four bytes. -/
def rI : Region := { region0 with imageVa := 0x100, imageLen := 64 }

def sN (r : Region) : State := { sT with regions := [(0, r)] }

theorem unitAccess_sN {r : Region} {va len : Nat} {wr : Bool} (h0 : 0 < len) (h : va + len ≤ 2 ^ 16) :
    (unitAccess (sN r) 0 0 va len wr).1 = .pages [pageHere] := access_sT (s := sN r) h h0 rfl rfl

theorem zeroBlock_here {s : State} {va : Nat} (h : (unitAccess s 0 0 va 128 true).1 = .pages [pageHere]) :
    ∃ bs u, zeroBlock s 0 0 va = (.bytes bs, u) := by
  simp only [zeroBlock]
  revert h
  generalize unitAccess s 0 0 va 128 true = r
  obtain ⟨a, b⟩ := r
  rintro rfl
  exact ⟨_, _, rfl⟩

/-- An image of one tile section without words, whose CRC no loaded section has. -/
def image1 : List Byte := List.replicate 10 0 ++ [1] ++ List.replicate 5 0 ++ [64] ++ List.replicate 31 0 ++ [80] ++ List.replicate 31 0

/-- A kernel of the record 0 of queue 7, primed and at the first step of R277. -/
def rP : Region := { rI with kernel := .primed, record := some (7, 0) }
def sPrimed : State := { sN rP with queues := [(7, { started := [{ index := 0, record := rec0, level := 0, step := 1 }] })] }

theorem witness_Primes :
    (let r := { rI with priming := some (0, 4), kernel := .loaded }
     (sN r).region 0 = some r ∧ originRounds (sN r) r < 4 ∧ r.kernel ≠ .resident ∧ r.record = none) ∧
    (let r := { rI with priming := some (0, 0), kernel := .loaded }
     (sN r).region 0 = some r ∧ 0 ≤ originRounds (sN r) r ∧ r.kernel ≠ .resident) ∧
    (let r := { rI with priming := some (0, 0), kernel := .resident }
     (sN r).region 0 = some r ∧ r.kernel = .resident ∧
      ∃ b u, unitRead (sN r) r.die r.ctx (regionWaiter 0) r.imageVa r.imageLen = (.bytes b, u)) ∧
    (∃ v, reapply (sN rI) rI (List.replicate 64 0) = some v) ∧ reapply (sN rI) rI image1 = none ∧
    (∃ q st, recordOf sPrimed rP = some (q, st) ∧ sPrimed.region 0 = some rP ∧ rP.kernel = .primed ∧ rP.priming = none ∧ rP.group = none ∧
      st.step = 1 ∧ queueHeld sPrimed q = false ∧ ∃ bs u, zeroBlock sPrimed rP.die rP.ctx (Rec.p2 st.record) = (.bytes bs, u)) ∧
    region0.hasTile 0 = true ∧ kfind (sT.tile 0).elems 0 = some elem0 ∧ kfind sT.tiles 0 ≠ none := by
  refine ⟨⟨rfl, by decide, by decide, rfl⟩, ⟨rfl, by decide, by decide⟩, ⟨rfl, rfl, ?_⟩, ⟨_, rfl⟩, rfl,
    ⟨7, _, rfl, rfl, rfl, rfl, rfl, rfl, rfl, ?_⟩, by decide, rfl, by decide⟩
  · exact unitRead_here (va := 0x100) (len := 64) (by omega) (by omega) (unitAccess_sN (by omega) (by omega))
  · exact zeroBlock_here (va := 0) (access_sT (s := sPrimed) (tlb := []) (ctx := 0) (va := 0) (len := 128) (by omega) (by omega) rfl rfl)

theorem witness_Freezes :
    (let r := { region0 with freezeReq := true }
     (sM r elem0).region 0 = some r ∧ r.freezeReq = true ∧ r.freezeMark = false ∧ r.kernel = .firing ∧ r.stopped = false) ∧
    (let r := { region0 with freezeMark := true }
     let s : State := { sM r { elem0 with frozen := true } with islands := [(0, { frozen := true })] }
     s.region 0 = some r ∧ r.freezeMark = true ∧ freezePassed s r = true ∧ r.reloads = [] ∧ freezePassed (sM r elem0) r = false ∧ Firing r) ∧
    (let r := { region0 with freezeReq := true, stopped := true }
     (sM r elem0).region 0 = some r ∧ r.freezeReq = true ∧ r.freezeMark = false ∧ r.stopped = true ∧ r.reloads = []) ∧
    (region0.freezeReq = false ∧ region0.freezeMark = false) ∧ region0.hasTile 0 = true :=
  ⟨⟨rfl, rfl, rfl, rfl, rfl⟩, ⟨rfl, rfl, by decide, rfl, by decide, Or.inl rfl⟩, ⟨rfl, rfl, rfl, rfl, rfl⟩, ⟨rfl, rfl⟩, by decide⟩

/-- A region whose only element has halted. -/
def sHalt (r : Region) : State := sM r { core := { halted := true } }

theorem witness_KernelEnds :
    ((sHalt region0).region 0 = some region0 ∧ region0.kernel = .firing ∧ region0.frozen = false ∧ region0.freezeMark = false ∧
      region0.stopped = false ∧ region0.ended = false ∧ quiescent (sHalt region0) 0 region0 = true) ∧
    quiescent (sM region0 elem0) 0 region0 = false ∧
    (let r := { region0 with kernel := .draining, retire := some 0, stroke := 1 }
     (sHalt r).region 0 = some r ∧ r.kernel = .draining ∧ retireReady (sHalt r) 0 r = true ∧ r.group = none ∧ r.record = none) ∧
    (let r := { region0 with kernel := .draining, retire := some 0, stroke := 1, record := some (7, 0), keep := true }
     (sHalt r).region 0 = some r ∧ retireReady (sHalt r) 0 r = true ∧ r.keep = true) ∧
    (let r := { region0 with kernel := .draining, retire := some 0, stroke := 1, record := some (7, 0) }
     (sHalt r).region 0 = some r ∧ retireReady (sHalt r) 0 r = true ∧ r.record ≠ none ∧ r.keep = false) ∧
    (let r := { region0 with kernel := .draining, retire := some 0 }
     (sHalt r).region 0 = some r ∧ retireReady (sHalt r) 0 r = false) ∧
    (let r := { region0 with watch := 1000000 }
     let s := sM r elem0
     s.region 0 = some r ∧ s.errlog.wdt ≠ 0 ∧ s.errlog.wdt.toNat ≤ r.watch ∧ r.kernel = .firing ∧ r.frozen = false ∧ quiescent s 0 r = false) ∧
    region0.watch < (sM region0 elem0).errlog.wdt.toNat ∧ region0.kernel ≠ .none ∧ region0.kernel ≠ .faulted ∧ region0.kernel ≠ .retired :=
  ⟨⟨rfl, rfl, rfl, rfl, rfl, rfl, by decide⟩, by decide, ⟨rfl, rfl, by decide, rfl, rfl⟩, ⟨rfl, by decide, rfl⟩, ⟨rfl, by decide, by decide, rfl⟩,
    ⟨rfl, by decide⟩, ⟨rfl, by decide, by decide, rfl, rfl, by decide⟩, by decide, by decide, by decide, by decide⟩

/-- The first byte of the next module's near tier. -/
def there : Nat := 2 ^ 46 * ((Config.moduleNumber.toNat + 1) % 64)
def pageThere : Page := { va := 0, log2 := 16, pa := there, w := true, fe := true }

theorem place_there {o : Nat} (h : o < 2 ^ 46) : placeOf (there + o) = .remote ((Config.moduleNumber.toNat + 1) % 64) := by
  have h1 : (there + o) / 2 ^ 46 = (Config.moduleNumber.toNat + 1) % 64 := by unfold there; omega
  have h2 : (Config.moduleNumber.toNat + 1) % 64 ≠ Config.moduleNumber.toNat := by omega
  simp only [placeOf, h1, ne_eq, h2, not_false_eq_true, if_true]

/-- A kernel at level 2 that ends, whose output range of four bytes lies on another module; its digest has asked for them. -/
def rD : Region := { region0 with
  kernel := .draining, retire := some 0, stroke := 1, level := 2, cntVa := 2 ^ 56, nodes := [⟨0, 1, 0, 0, 0x100, 4, 2, 0⟩] }
def sD : State := { sHalt rD with
  ltlb := [(0, [⟨0, pageThere⟩])]
  remotes := [{ id := 1, dst := 1, waiter := regionWaiter 0, pa := there + 0x100, len := 4 }] }

theorem digest_waits {s : State} (hl : kget s.ltlb 0 [] = [⟨0, pageThere⟩]) (hr : s.remotes = sD.remotes)
    (ho : outputRanges s rD = [(0x100, 4)]) : (kernelDigest s rD (regionWaiter 0)).1 = .wait := by
  have h1 : tlbFind (kget s.ltlb 0 []) 0 0x100 = some pageThere := by simp [hl, tlbFind, pageThere, Page.covers]
  have hp : pageThere.permits { write := false } = true := by
    have : placeOf there = .remote ((Config.moduleNumber.toNat + 1) % 64) := place_there (o := 0) (by omega)
    simp [Page.permits, pageThere, this, Place.isMmio]
  have ht : Machine.translate s 0 0 0 [] 0x100 { write := false } =
      (.page pageThere, tlbPut 0 (Config.freeNat s.free) [] ⟨0, pageThere⟩, { s with free := s.free + 1 }) := by
    unfold Machine.translate
    rw [show tlbFind [] 0 0x100 = none from rfl, h1]
    simp [hp]
  have ha : unitAccess s 0 0 (0x100 : Nat) 4 false = (.pages [pageThere], { s with free := s.free + 1 }) := by
    simp only [unitAccess, translateAccess, show rangeFault ((0x100 : Nat) : Int) 4 = none from by decide, translateFrom, Int.toNat_natCast, ht]
    rfl
  have hs : readSpans [pageThere] 2 0x100 4 = [(there + 0x100, 4)] := by simp [readSpans, pageThere, Page.covers, Page.paOf]
  have hm : placeOf (there + 0x100) = .remote ((Config.moduleNumber.toNat + 1) % 64) := place_there (by omega)
  have hd : digestPiece s rD (regionWaiter 0) (0x100, 4) = (.wait, { s with free := s.free + 1 }) := by
    simp only [digestPiece, show rD.die = 0 from rfl, show rD.ctx = 0 from rfl, ha, List.length_singleton, hs, readSpansAny, hm,
      Place.isMemory, Place.isRemote, Bool.false_eq_true, if_false, if_true, show pieces (4 / 64 + 1) (there + 0x100) 4 =
        [(there + 0x100, 4)] from rfl, remoteSpan, remotePiece, hr, sD]
    simp [ReadOut.join]
  have hq : ((outputRanges s rD).flatMap fun p => pagePieces (p.2 / 2 ^ 16 + 2) p.1 p.2) = [(0x100, 4)] := by rw [ho]; rfl
  simp only [kernelDigest, hq, digestPieces, hd, ReadOut.join]

theorem witness_KernelEnds_digest : sD.region 0 = some rD ∧ rD.kernel = .draining ∧ retireReady sD 0 rD = true ∧ rD.level = 2 ∧
    (∃ u, kernelDigest (writePower (commitCounts (commitCounts sD 0) 0) 0) rD (regionWaiter 0) = (.wait, u)) ∧
    (let r := { rD with nodes := [] }
     ∃ d u q, kernelDigest (writePower (commitCounts (commitCounts (sHalt r) 0) 0) 0) r (regionWaiter 0) = (.bytes d, u) ∧
      u.region 0 = some q ∧ q.kernel = r.kernel ∧ q.derr = r.derr ∧ q.record = r.record ∧ q.keep = r.keep ∧ q.group = none ∧
      q.frozen = r.frozen ∧ q.freezeReq = r.freezeReq ∧ q.cnt0 = {} ∧ q.cnt1 = {}) :=
  ⟨rfl, rfl, by decide, rfl, ⟨_, Prod.ext (digest_waits rfl rfl rfl) rfl⟩, ⟨_, _, _, rfl, rfl, rfl, rfl, rfl, rfl, rfl, rfl, rfl, rfl, rfl⟩⟩

/-- A region that waits for the reload of tile 0. -/
def rL : Region := { rI with reloads := [0], frozen := true }

theorem witness_ConfigErrors :
    cfgPlace 0xFFFF = .reserved ∧ present sR 1 = false ∧ cfgPlace 0 ≠ .reserved ∧ present sR 0 = true ∧ regionOf sA 0 = none ∧
    regionOf sR 0 = some 0 ∧ sR.region 0 = some region0 ∧ (region0.kernel ≠ .none ∧ region0.kernel ≠ .retired ∧ region0.kernel ≠ .faulted) ∧
    ({ region0 with kernel := .retired } : Region).kernel = .retired ∧ (sR.ctx 0).mode.getLsbD 2 = false ∧
    (({ sR with ctxs := [(0, { mode := 4 })] } : State).ctx 0).mode.getLsbD 2 = true ∧ reloadable 0 = true ∧ cfgPlace 0x800 ≠ .reserved ∧
    reloadable 0x800 = false ∧
    ((sN rL).region 0 = some rL ∧ rL.reloads = 0 :: [] ∧ rL.frozen = true ∧
      ∃ b u, unitRead (sN rL) rL.die rL.ctx (regionWaiter 0) rL.imageVa rL.imageLen = (.bytes b, u)) ∧
    ([0].foldl (fun (o : Option State) t => o.bind fun s => reloadTile s (imageOf image1) rL t) (some sT) = none) ∧
    (∃ v r, [0].foldl (fun (o : Option State) t => o.bind fun s => reloadTile s (imageOf (List.replicate 64 0)) r t) (some State.reset) = some v ∧
      regionSignature v r = r.signature ∧ r.reloadFreeze = false) ∧ region0.reloads = [] := by
  refine ⟨by decide, by decide, by decide, by decide, by decide, by decide, rfl, by decide, rfl, by decide, by decide, by decide, by decide,
    by decide, ⟨rfl, rfl, rfl, ?_⟩, rfl, ⟨_, rL, rfl, by decide, rfl⟩, rfl⟩
  · exact unitRead_here (va := 0x100) (len := 64) (by omega) (by omega) (unitAccess_sN (by omega) (by omega))

/-! ### Witnesses: queues, records, triggers, groups -/

theorem reads_nil (a n : Nat) : Mem.reads [] a n = List.replicate n 0 := by
  induction n generalizing a with
  | zero => rfl
  | succ n ih => simp [Mem.reads, ih, List.replicate_succ, Mem.read, Mem.unlisted]

theorem unitAccess_here {s : State} {die ctx va len : Nat} {wr : Bool} (h0 : 0 < len) (h : va + len ≤ 2 ^ 16)
    (hl : kget s.ltlb die [] = [⟨ctx, pageHere⟩]) : (unitAccess s die ctx va len wr).1 = .pages [pageHere] := access_sT h h0 rfl hl

/-- A read of the page at `here`, with the state after it. -/
theorem unitRead_full {s : State} {die ctx w va len : Nat} (h0 : 0 < len) (h : va + len ≤ 2 ^ 16)
    (hl : kget s.ltlb die [] = [⟨ctx, pageHere⟩]) : unitRead s die ctx w va len = (.bytes (s.mem.reads va len),
      doneRemotes w [(here + va, len)] { s with free := s.free + 1 }) := by
  have ha : unitAccess s die ctx va len false = (.pages [pageHere], { s with free := s.free + 1 }) := by
    simp only [unitAccess, translateAccess_full h0 h hl]
  have hp : (placeOf (here + va)).isMemory = true := by rw [placeOf_here (by omega)]; rfl
  simp only [unitRead, ha, Int.toNat_natCast, readAny, List.length_singleton, readSpans_here h0 h, readSpansAny, hp, if_true,
    localPa_here (show va < 2 ^ 46 by omega), ReadOut.join, List.append_nil]

/-- A write to that page, with the state after it. -/
theorem unitWrite_full {s : State} {die ctx va : Nat} {data : List Byte} (h0 : 0 < data.length) (h : va + data.length ≤ 2 ^ 16)
    (hl : kget s.ltlb die [] = [⟨ctx, pageHere⟩]) : unitWrite s die ctx va data false =
      (.bytes [], memStore { s with free := s.free + 1 } (here + va) data none) := by
  have ha : unitAccess s die ctx va data.length true = (.pages [pageHere], { s with free := s.free + 1 }) := by
    simp only [unitAccess, translateAccess_full h0 h hl]
  have hm : (placeOf (here + va)).isMemory = true := by rw [place_here (by omega)]; rfl
  simp only [unitWrite, ha, Int.toNat_natCast, writeAny_here h0 h, Bool.false_and, Bool.false_eq_true, if_false, physStore, hm, if_true]

/-- Queue 7 of context 0, which is READY, in the state of the page. -/
def sO (u : Queue) : State := { sT with ctxs := [(0, { state := .ready })], queues := [(7, u)] }

def started (b : List Byte) : Started := { index := 0, record := b, level := 0 }

/-- A record of a type, its other fields from p on. -/
def recT (ty p : Nat) : List Byte := byteList 64 (ty + p * 2 ^ 64)

theorem witness_QueueCommands :
    (let s := sO { log2n := 4 }
     (s.queue 7).state = .off ∧ (s.queue 7).valid s = true ∧ (s.queue 7).started = []) ∧
    (let s := sO {}
     (s.queue 7).state = .off ∧ (s.queue 7).valid s = false) ∧
    (let s := sO { state := .active, started := [started rec0] }
     (s.queue 7).state ≠ .off ∧ (s.queue 7).state ≠ .halted ∧ (s.queue 7).started ≠ []) ∧
    (let s := sO { state := .active }
     (s.queue 7).state ≠ .off ∧ (s.queue 7).started = []) ∧
    (let f := { started rec0 with failed := some 6 }
     let s := sO { state := .halted, failedRec := some f }
     (s.queue 7).state = .halted ∧ (s.queue 7).failedRec = some f ∧ reissues s 7 f = true) ∧
    (let f := { started rec0 with failed := some 2 }
     let s := sO { state := .halted, failedRec := some f }
     (s.queue 7).failedRec = some f ∧ reissues s 7 f = false) ∧
    (let u := (sO { state := .active, log2n := 4, psrc := 1 }).queue 7
     u.state ≠ .off ∧ u.psrc = 1 ∧ u.tail.toNat < (8 : BitVec 64).toNat ∧ (8 : BitVec 64).toNat - u.tail.toNat ≤ u.sharedFree ∧
      ¬ (9 : BitVec 64).toNat - u.tail.toNat ≤ u.sharedFree) ∧
    (let s := sO { state := .active, log2n := 4, psrc := 1, tail := 1, pulling := 1 }
     (s.queue 7).pulling ≠ 0 ∧ queueHeld s 7 = false ∧ (s.queue 7).psrc = 1 ∧ ((drawNat s).1 % 2 = 1 ∨ (drawNat s).1 % 2 = 0) ∧
      ∃ w t, qWrite (drawNat s).2 7 ((s.queue 7).slotVa 0) (s.host.reads 0 64) = (.bytes w, t)) ∧
    ({ started rec0 with failed := some 6, unstarted := true }).unstarted ≠ false ∧ [0, 1].Pairwise (fun a b : Nat => a ≤ b) := by
  refine ⟨⟨rfl, by decide, rfl⟩, ⟨rfl, by decide⟩, ⟨by decide, by decide, by decide⟩, ⟨by decide, rfl⟩, ⟨rfl, rfl, by decide⟩,
    ⟨rfl, by decide⟩, ⟨by decide, rfl, by decide, by decide, by decide⟩, ⟨by decide, rfl, rfl, by omega, ?_⟩, by decide, by decide⟩
  exact ⟨_, _, qWrite_full (s := (drawNat _).2) (va := 0) (by decide) (by decide) rfl rfl⟩

/-- A queue whose next record was read before. -/
def sHead (b : List Byte) : State := sO { state := .active, log2n := 4, retry := [started b] }

/-- The record's image of zeros lies at 0, and a primed region holds it. -/
def rH : Region := { region0 with kernel := .primed, imageHash := sha512 [] }

/-- A state in which a firing kernel has the region. -/
def sTaken : State := { sT with regions := [(0, region0)] }

def sLaunch : State := { sHead rec0 with regions := [(0, rH)] }

set_option maxRecDepth 20000 in
theorem image_sLaunch : recordImage sLaunch 7 rec0 = (.bytes (List.replicate 512 0),
    doneRemotes (queueWaiter 7) [(here + 0, 512)] { sLaunch with free := sLaunch.free + 1 }) := by
  have hu : sLaunch.queue 7 = { state := .active, log2n := 4, retry := [started rec0] } := rfl
  have hp : Rec.p0 rec0 = 0 := by decide
  have hm : sLaunch.mem = [] := rfl
  have hf : Machine.field (List.replicate 64 (0 : Byte)) 0x30 4 + 512 = 512 := by decide
  simp only [recordImage, hu, hp, readImage]
  have h1 := unitRead_full (s := sLaunch) (die := 0) (ctx := 0) (w := queueWaiter 7) (va := 0) (len := 64) (by omega) (by omega) rfl
  have h2 := unitRead_full (s := sLaunch) (die := 0) (ctx := 0) (w := queueWaiter 7) (va := 0) (len := 512) (by omega) (by omega) rfl
  simp only [hm, reads_nil] at h1 h2
  show (match unitRead sLaunch 0 0 (queueWaiter 7) (0 : Nat) 64 with
    | (.bytes h, _) => unitRead sLaunch 0 0 (queueWaiter 7) (0 : Nat) (Machine.field h 0x30 4 + 512)
    | x => x) = _
  rw [h1]
  simp only [hf, h2]
  rfl

set_option maxRecDepth 20000 in
theorem witness_RecordsRun_launch : Rec.type rec0 = 0 ∧ Rec.stages rec0 < 2 ∧ (started rec0).group = [] ∧
    ∃ img u, recordImage sLaunch 7 rec0 = (.bytes img, u) ∧ ∃ m v, findRegion u (u.queue 7).ctx.toNat rec0 img = .at m v ∧
      ∃ im w, loadMember v m = (.ok im, w) := by
  refine ⟨by decide, by decide, rfl, _, _, image_sLaunch, ⟨rec0, 0, true, List.replicate 512 0⟩,
    doneRemotes (queueWaiter 7) [(here + 0, 512)] { sLaunch with free := sLaunch.free + 1 }, ?_, _, _, rfl⟩
  have hl : (imageOf (List.replicate 512 0)).h.level = 0 := by decide
  have hb : (imageOf (List.replicate 512 0)).body = [] := by decide
  have hv : Rec.level rec0 = 0 := by decide
  have hh : heldRegion (doneRemotes (queueWaiter 7) [(here + 0, 512)] { sLaunch with free := sLaunch.free + 1 }) 0 rec0 [] = some 0 := by
    have hk : regionKey (shapeOf (Rec.shape rec0)).die (shapeOf (Rec.shape rec0)).id = 0 := by decide
    have hp : Rec.p0 rec0 = 0 := by decide
    unfold heldRegion
    simp only [hk, hp]
    rw [show (doneRemotes (queueWaiter 7) [(here + 0, 512)] { sLaunch with free := sLaunch.free + 1 }).region 0 = some rH from rfl]
    simp [rH, region0, hv]
  rw [show ((doneRemotes (queueWaiter 7) [(here + 0, 512)] { sLaunch with free := sLaunch.free + 1 }).queue 7).ctx.toNat = 0 from rfl]
  simp only [findRegion, hl, hb, hv, hh, Nat.lt_irrefl, if_false]

/-- A record whose region's place is taken by another kernel has no place; a member without a region is refused. -/
theorem witness_RecordsRun_refused : (∃ die, findRegion sTaken 0 rec0 [] = .noPlace die) ∧
    ∃ x w, loadMember sT ⟨rec0, 0, false, []⟩ = (.error x, w) := by
  refine ⟨⟨0, ?_⟩, _, _, rfl⟩
  have hl : (imageOf []).h.level = 0 := by decide
  have hv : Rec.level rec0 = 0 := by decide
  have hh : heldRegion sTaken 0 rec0 (imageOf []).body = none := by
    have hk : regionKey (shapeOf (Rec.shape rec0)).die (shapeOf (Rec.shape rec0)).id = 0 := by decide
    unfold heldRegion
    simp only [hk]
    rw [show sTaken.region 0 = some region0 from rfl]
    simp [region0]
  have ha : ∃ e, allocRegion sTaken 0 (Rec.shape rec0) = .error e := ⟨1, by
    have hk : regionKey (shapeOf (Rec.shape rec0)).die (shapeOf (Rec.shape rec0)).id = 0 := by decide
    unfold allocRegion
    simp only [hk]
    rfl⟩
  obtain ⟨e, he⟩ := ha
  simp only [findRegion, hl, hv, hh, he, Nat.lt_irrefl, if_false]
  rw [show (shapeOf (Rec.shape rec0)).die = 0 from by decide]

/-- A LAUNCH of level 1, of an image of zeros. -/
def recL1 : List Byte := byteList 64 (2 ^ 16 + 2 ^ 13)

theorem witness_RecordsRun_heads :
    (let j := judgeHeads (fromPointer 0 [7]) (sHead (recT 1 0))
     j.1 = [(7, .ready (started (recT 1 0)))] ∧ ∀ h ∈ j.1, ∀ st, h.2 ≠ .malformed st ∧ ∀ c a, h.2 ≠ .fault st c a) ∧
    (judgeHeads (fromPointer 0 [7]) (sHead (recT 15 0))).1 = [] ++ (7, .malformed (started (recT 15 0))) :: [] ∧
    recordOk (max ((sHead (recT 15 0)).queue 7).level.toNat ((sHead (recT 15 0)).ctx 0).level.toNat) (recT 15 0) = false ∧
    recordOk (max ((sHead recL1).queue 7).level.toNat ((sHead recL1).ctx 0).level.toNat) recL1 = true ∧
    Rec.type recL1 = 0 ∧ Rec.level recL1 ≠ 0 ∧ imageLow (sHead rec0) 7 rec0 = (some false, sHead rec0) ∧
    (∃ v, imageLow (sHead recL1) 7 recL1 = (some true, v)) ∧
    (recordOk 0 rec0 = true ∧ Rec.wait0 rec0 = 0 ∧ Rec.wait1 rec0 = 0 ∧ Rec.type rec0 = 0 ∧ Rec.stages rec0 < 2) ∧
    Rec.type (recT 1 0) = 1 ∧ Rec.type (recT 2 0) = 2 ∧ Rec.type (recT 3 0) = 3 ∧ Rec.type (recT 5 0) = 5 ∧ Rec.type (recT 6 0) = 6 ∧
    recordOk 0 (recT 5 (2 ^ 128)) = true ∧ recordOk 0 (recT 3 0) = true ∧ recordOk 0 (recT 6 (0x200 + 0x240 * 2 ^ 64)) = true := by
  refine ⟨⟨by decide, ?_⟩, by decide, by decide, by decide, by decide, by decide, rfl, ?_, by decide, by decide, by decide, by decide, by decide,
    by decide, by decide, by decide, by decide⟩
  swap
  · have h := qRead_full (s := sHead recL1) (q := 7) (va := Rec.p0 recL1) (len := 64) (by decide) (by decide) rfl rfl
    obtain ⟨u, h⟩ := h
    rw [show (sHead recL1).mem = [] from rfl, reads_nil] at h
    refine ⟨u, ?_⟩
    rw [imageLow, if_neg (by decide), h]
    exact Prod.ext (congrArg some (by decide)) rfl
  rw [show (judgeHeads (fromPointer 0 [7]) (sHead (recT 1 0))).1 = [(7, .ready (started (recT 1 0)))] from by decide]
  intro h hm st
  simp only [List.mem_singleton] at hm
  subst hm
  exact ⟨fun e => (by cases e), fun c a e => (by cases e)⟩

/-- A BARRIER record that waits for the word at 0x100 to be 1, and one that signals it. -/
def recWait : List Byte := 1 :: List.replicate 32 0 ++ [1] ++ List.replicate 22 0 ++ [1] ++ List.replicate 7 0
def recSig : List Byte := 1 :: List.replicate 48 0 ++ [1] ++ List.replicate 14 0

theorem witness_RecordsRun_waits :
    recordOk (max ((sHead recWait).queue 7).level.toNat ((sHead recWait).ctx 0).level.toNat) recWait = true ∧
    imageLow (sHead recWait) 7 recWait = (some false, sHead recWait) ∧ Rec.wait0 recWait = 0x100 ∧
    Rec.sig recSig = 0x100 ∧ Rec.sig rec0 = 0 ∧
    (∃ w u, qRead (sHead recWait) 7 (Rec.wait0 recWait) 4 = (.bytes w, u) ∧ waitHolds (natOf w) (Rec.wv0 recWait) = false) ∧
    ∃ w u, qRead (sHead recSig) 7 (Rec.sig recSig) 4 = (.bytes w, u) := by
  have h0 : Rec.wait0 recWait = 0x100 := by decide
  have h1 : Rec.sig recSig = 0x100 := by decide
  rw [h0, h1]
  obtain ⟨u, hu⟩ := qRead_full (s := sHead recWait) (q := 7) (va := 0x100) (len := 4) (by omega) (by omega) rfl rfl
  refine ⟨by decide, rfl, rfl, rfl, by decide, ⟨_, u, hu, ?_⟩, _, qRead_full (s := sHead recSig) (q := 7) (va := 0x100) (len := 4) (by omega)
    (by omega) rfl rfl⟩
  rw [show (sHead recWait).mem = [] from rfl, reads_nil]
  decide

/-- Queue 7 with a record that has started. -/
def sRun (st : Started) : State := { sO { state := .active, log2n := 4, started := [st] } with full := [0x100] }

/-- A write of the queue engine whose own TLB names the page. -/
theorem qWrite_own {s : State} {q va : Nat} {data : List Byte} (h0 : 0 < data.length) (h : va + data.length ≤ 2 ^ 16)
    (hq : kget s.qtlb (s.queue q).hdie.toNat [] = [⟨(s.queue q).ctx.toNat, pageHere⟩]) : ∃ b t, qWrite s q va data = (.bytes b, t) := by
  have hf : tlbFind (kget s.qtlb (s.queue q).hdie.toNat []) (s.queue q).ctx.toNat va = some pageHere := by
    simp [hq, tlbFind, pageHere, Page.covers]; omega
  simp only [qWrite, qAccess, access_own h hf, writeAny_here h0 h]
  exact ⟨_, _, rfl⟩

def copyRec : List Byte := recT 5 (0x100 + 0x200 * 2 ^ 64 + 4 * 2 ^ 128)

/-- A queue whose page its context does not map. -/
def sPF : State := { sO { state := .active, log2n := 4, qbase := 0x20000, tail := 1 } with
  ctxs := [(0, { state := .ready, root := BitVec.ofNat 64 here })] }

theorem here_toNat : (BitVec.ofNat 64 here).toNat = here := by
  have : Config.moduleNumber.toNat < 2 ^ 6 := Config.moduleNumber.isLt
  rw [BitVec.toNat_ofNat]; unfold here; omega

/-- A walk over empty memory ends in a page fault. -/
theorem walk_empty {s : State} (hm : s.mem = []) (va : Nat) (want : Want) : walk s here va want = .fault 1 := by
  have hp : placeOf here = .near 0 := placeOf_here (o := 0) (by omega)
  have hb : bits va 46 11 < 2 ^ 11 := Nat.mod_lt _ (by omega)
  have he : entryAt s (here + 8 * bits va 46 11) = 0 := by
    rw [entryAt, localPa_here (by omega), hm, reads_nil]; decide
  have hn : nextTable 0 = .error 1 := rfl
  simp only [walk, he, hp, Place.isMemory, Bool.not_true, hn]
  rfl

theorem translate_sPF {want : Want} : Machine.translate sPF 0 0 smallTlb [] 0x20000 want = (.fault 1, [], sPF) := by
  have h0 : tlbFind [] 0 0x20000 = none := rfl
  have h1 : tlbFind (kget sPF.ltlb 0 []) 0 0x20000 = none := by rfl
  have h2 : (sPF.ctx 0).root.toNat = here := here_toNat
  have h3 : sPF.badWalks.contains (0, 0x20000 / 2 ^ 16) = false := rfl
  simp only [Machine.translate, h0, h1, h2, h3, walk_empty (show sPF.mem = [] from rfl), Bool.false_eq_true, if_false]

theorem unmapped_head : ∃ st a u, queueHeld sPF 7 = false ∧ headOf (pullRecords 7 (sPF.queue 7).pulling sPF) 7 = (.fault st 1 a, u) := by
  have h1 : ∃ u, qRead sPF 7 0x20000 64 = (.fault 1 0x20000, u) := by
    have hr : rangeFault 0x20000 64 = none := by decide
    have ha : qAccess sPF 7 0x20000 64 false = (.fault 1 0x20000, { sPF with qtlb := kput sPF.qtlb 0 [] }) := by
      unfold qAccess translateAccess
      rw [hr]
      show (match translateFrom 0 0 smallTlb { write := false } (64 / 2 ^ 16 + 1 + 1) sPF [] 0x20000 64 with
        | (a, tlb, s) => (a, { s with qtlb := kput s.qtlb 0 tlb })) = _
      simp only [translateFrom, translate_sPF]
    have h2 : ((0x20000 : Nat) : Int) = 0x20000 := rfl
    refine ⟨{ sPF with qtlb := kput sPF.qtlb 0 [] }, ?_⟩
    unfold qRead
    rw [h2, ha]
  obtain ⟨u, h1⟩ := h1
  have h2 : queueHeld sPF 7 = false := by rfl
  have h3 : (sPF.queue 7).slotVa 0 = 0x20000 := by rfl
  refine ⟨{ index := 0, record := [], level := 0 }, 0x20000, u, h2, ?_⟩
  show headOf sPF 7 = _
  unfold headOf
  show (match qRead sPF 7 ((sPF.queue 7).slotVa 0) 64 with
    | (.wait, s) => (HeadState.waiting, s)
    | (.fault c v, s) => (.fault { index := 0, record := [], level := 0 } c v, s)
    | (.bytes b, s) => judgeHead s 7 { index := 0, record := b, level := 0 }) = _
  rw [h3, h1]

theorem witness_RecordsRun_completes :
    (let st := { started (recT 1 0) with done := true }
     let s := sRun st
     startedAt s 7 0 = some st ∧ queueHeld s 7 = false ∧ st.failed = none ∧ st.done = true ∧ mayComplete (s.queue 7) st = true ∧
      (∃ bs u, signal s 7 st.record = (.bytes bs, u)) ∧ st.attempt ≠ 2 ∧ (s.queue 7).disabling = false) ∧
    (let st := { started rec0 with done := true, level := 1 }
     let s := sO { state := .active, started := [st, { started rec0 with index := 1, level := 1, done := true }] }
     startedAt s 7 1 = some { started rec0 with index := 1, level := 1, done := true } ∧
      mayComplete (s.queue 7) { started rec0 with index := 1, level := 1, done := true } = false) ∧
    (let st := started copyRec
     let s := sRun st
     startedAt s 7 0 = some st ∧ queueHeld s 7 = false ∧ st.failed = none ∧ st.done = false ∧ Rec.type st.record = 5 ∧
      Rec.p0 copyRec = 0x100 ∧ Rec.p1 copyRec = 0x200 ∧ Rec.p2 copyRec = 4 ∧
      ∃ bs w, unitRead s 0 0 (queueWaiter 7) (0x100 : Nat) 4 = (.bytes bs, w) ∧
        ∃ z t, unitWrite w 0 0 (0x200 : Nat) bs true = (.bytes z, t)) ∧
    (let s := sRun (started (recT 6 (0x200 + 0x240 * 2 ^ 64)))
     ∃ x v, qWrite s 7 0x200 (s.queue 7).chain = (.bytes x, v) ∧ ∃ y w, qWrite v 7 0x240 (byteList 8 (s.queue 7).chainN) = (.bytes y, w)) ∧
    queueHeld { sRun (started rec0) with rings := [(0, { stopped := [(5, 7)] })] } 7 = true ∧
    (∃ st a u, queueHeld sPF 7 = false ∧ headOf (pullRecords 7 (sPF.queue 7).pulling sPF) 7 = (.fault st 1 a, u)) ∧
    (let s := sO { state := .active, log2n := 4, qbase := 0x100000000000000, tail := 1 }
     ∃ st a u, headOf (pullRecords 7 (s.queue 7).pulling s) 7 = (.fault st 3 a, u)) := by
  refine ⟨⟨rfl, rfl, rfl, rfl, by decide, ⟨_, _, rfl⟩, by decide, rfl⟩, ⟨by decide, by decide⟩,
    ⟨rfl, rfl, rfl, rfl, by decide, by decide, by decide, by decide, _, _, unitRead_full (s := sRun _) (by omega) (by omega) rfl, ?_⟩,
    ⟨_, _, qWrite_full (s := sRun _) (q := 7) (va := 0x200) (by decide) (by decide) rfl rfl, ?_⟩, by decide, unmapped_head, ⟨_, _, _, rfl⟩⟩
  · exact unitWrite_here (va := 0x200) (by rw [show (sRun (started copyRec)).mem = [] from rfl, reads_nil]; decide) (by rw [show (sRun (started copyRec)).mem = [] from rfl, reads_nil]; decide)
      (unitAccess_here (by rw [show (sRun (started copyRec)).mem = [] from rfl, reads_nil]; decide) (by rw [show (sRun (started copyRec)).mem = [] from rfl, reads_nil]; decide) rfl)
  · exact qWrite_own (va := 0x240) (by decide) (by decide) rfl

/-- A trigger of context 0 on well 0, delivered to queue 7. -/
def trig (h : Bool) : Trigger where
  kind := 1
  bound := true
  handler := h
  queue := 7
  recva := 0x100
  fired := 1

def sG (t : Trigger) : State := { sO { state := .active, log2n := 4, qbase := 0x1000 } with triggers := [(0, t)] }

def q7 : Queue := { state := .active, log2n := 4, qbase := 0x1000 }

theorem enq_here {v : State} (hq : v.queue 7 = q7) (hl : kget v.ltlb 0 [] = [⟨0, pageHere⟩]) (ht : kget v.qtlb 0 [] = []) :
    ∃ u, enqRecord v 7 (List.replicate 64 0) = .done u := by
  obtain ⟨u, h3⟩ : ∃ u, qWrite v 7 (q7.slotVa q7.tail.toNat) (List.replicate 64 0) = (.bytes [], u) :=
    ⟨_, qWrite_full (va := 0x1000) (data := List.replicate 64 0) (by decide) (by decide) (by rw [hq]; exact ht) (by rw [hq]; exact hl)⟩
  unfold enqRecord
  rw [hq]
  simp only [show q7.slotFor (Rec.depth (List.replicate 64 0)) = some none from by decide, h3]
  exact ⟨_, rfl⟩

theorem read_here (t : Trigger) : ∃ v, unitRead (sG t) 0 0 (queueWaiter 7) (0x100 : Nat) 64 = (.bytes (List.replicate 64 0), v) ∧
    v.queue 7 = q7 ∧ kget v.ltlb 0 [] = [⟨0, pageHere⟩] ∧ kget v.qtlb 0 [] = [] := by
  have h1 := unitRead_full (s := sG t) (die := 0) (ctx := 0) (w := queueWaiter 7) (va := 0x100) (len := 64) (by omega) (by omega) rfl
  rw [show (sG t).mem = [] from rfl, reads_nil] at h1
  exact ⟨_, h1, rfl, rfl, rfl⟩

theorem delivered (t : Trigger) (hh : t.handler = true) (hq : t.queue = 7) (hr : t.recva = 0x100) :
    ∃ b v u, unitRead (sG t) 0 0 (queueWaiter 7) t.recva.toNat 64 = (.bytes b, v) ∧ enqRecord v 7 b = .done u ∧
      deliverTrigger (sG t) 0 t = .sent u := by
  obtain ⟨v, h1, h2, h3, ht⟩ := read_here t
  obtain ⟨u, h4⟩ := enq_here h2 h3 ht
  refine ⟨_, v, u, by rw [hr]; exact h1, h4, ?_⟩
  have hs : (sG t).queue 7 = q7 := rfl
  have h5 : (!t.handler || !ctxWorks (sG t) 0 || q7.psrc != 0 || q7.state == .off) = false := by rw [hh]; rfl
  have h6 : unitRead (sG t) q7.hdie.toNat 0 (queueWaiter 7) t.recva.toNat 64 = (.bytes (List.replicate 64 0), v) := by rw [hr]; exact h1
  have h7 : t.queue.toNat = 7 := by rw [hq]; rfl
  unfold deliverTrigger
  simp only [h7, hs, h5, h6, h4, Bool.false_eq_true, if_false]

theorem witness_TriggersFire :
    (kfind (sG (trig true)).triggers 0 = some (trig true) ∧ (trig true).fired ≠ 0 ∧ (trig true).pending = 0 ∧
      ∃ u, deliverTrigger (sG (trig true)) 0 (trig true) = .sent u) ∧
    deliverTrigger (sG (trig false)) 0 (trig false) = .none ∧ 0 < { trig false with pending := 1 }.pending ∧
    { trig false with fired := 0 }.fired = 0 ∧
    (let t : Trigger := { trig false with kind := 2, wpa := 0x1000 };
      t.bound = true ∧ t.kind = 2 ∧ t.spent = false ∧ 0x1000 < t.wpa + 4 ∧ t.wpa < 0x1000 + 4 ∧ t.wpa < 2 ^ 46) ∧ { trig false with kind := 0, wpa := 0x1000 }.kind = 0 ∧
    ({ trig false with kind := 2, spent := true }).spent = true ∧ (trig true).pending < 2 ^ 32 - 1 ∧
    { trig true with pending := 2 ^ 32 - 1 }.pending = 2 ^ 32 - 1 ∧ ((trig true).bound = true ∧ (trig true).spent = false ∧ (trig true).kind = 1) ∧
    (∃ u, deliverTrigger (sG { trig true with pending := 1 }) 0 { trig true with pending := 1 } = .sent u) ∧
    deliverTrigger (sG { trig false with pending := 1 }) 0 { trig false with pending := 1 } = .none ∧
    (ctxWorks (sG (trig true)) 0 = true ∧ ((sG (trig true)).queue 7).psrc = 0 ∧ ((sG (trig true)).queue 7).state ≠ .off ∧
      ∃ b v u, unitRead (sG (trig true)) 0 0 (queueWaiter 7) (trig true).recva.toNat 64 = (.bytes b, v) ∧ enqRecord v 7 b = .done u) := by
  obtain ⟨b, v, u, h1, h2, h3⟩ := delivered (trig true) rfl rfl rfl
  obtain ⟨_, _, u', _, _, h4⟩ := delivered { trig true with pending := 1 } rfl rfl rfl
  exact ⟨⟨rfl, by decide, rfl, u, h3⟩, rfl, by decide, rfl, ⟨rfl, rfl, rfl, by decide, by decide, by decide⟩, rfl, rfl, by decide, rfl, ⟨rfl, rfl, rfl⟩, ⟨u', h4⟩, rfl,
    rfl, rfl, by decide, b, v, u, h1, h2⟩

/-- A group of one primed member, whose record queue 7 has started. -/
def grp : Group := { queue := 7, head := 0, members := [0], step := some 3 }

def sGrp : State := { sPrimed with groups := [(0, grp)] }

theorem witness_GroupsLaunch :
    (let ms := grp.members.filterMap fun k => (sGrp.region k).map fun r => (k, r)
     let recs := ms.filterMap fun m => (recordOf sGrp m.2).map fun x => (m.1, m.2, x.2)
     kfind sGrp.groups 0 = some grp ∧ grp.state = .forming ∧ queueHeld sGrp grp.queue = false ∧ recs.length = grp.members.length ∧
      (∀ m ∈ recs, m.2.1.kernel = .primed ∧ m.2.1.priming = none) ∧
      ∃ bs u, zeroBlocks (recs.map fun m => (m.2.1, Rec.p2 m.2.2.record)) sGrp = (.bytes bs, u)) ∧
    { grp with state := .running }.state ≠ .forming ∧
    (let g := { grp with state := .running }
     let s : State := { sGrp with groups := [(0, g)], regions := [(0, { region0 with kernel := .draining })] }
     kfind s.groups 0 = some g ∧ allMembers s g (fun r => r.kernel != .firing) = true ∧
      allMembers s g (fun r => r.kernel == .retired || r.kernel == .resident) = false) := by
  refine ⟨⟨rfl, rfl, rfl, by decide, by decide, ?_⟩, by decide, ⟨rfl, by decide, by decide⟩⟩
  obtain ⟨bs, u, h⟩ := zeroBlock_here (s := sGrp) (va := 0) (unitAccess_here (s := sGrp) (va := 0) (len := 128) (by omega) (by omega) rfl)
  have hp : Rec.p2 rec0 = 0 := by decide
  show ∃ bs u, zeroBlocks [(rP, Rec.p2 rec0)] sGrp = (.bytes bs, u)
  rw [hp]
  unfold zeroBlocks
  rw [show zeroBlock sGrp rP.die rP.ctx 0 = zeroBlock sGrp 0 0 0 from rfl, h]
  exact ⟨_, _, rfl⟩

/-! ### Witnesses: contexts -/

theorem here_eq : ∃ m, m < 64 ∧ here = 2 ^ 46 * m := ⟨_, Config.moduleNumber.isLt, rfl⟩

theorem here_lt : here < 2 ^ 52 := by
  have := Config.moduleNumber.isLt
  unfold here
  omega

theorem here_word : (BitVec.ofNat 64 here).toNat = here := by
  have := here_lt
  simp only [BitVec.toNat_ofNat]
  omega

/-- A module with one context, 3. -/
def sX (x : Ctx) : State := { State.reset with ctxs := [(3, x)] }

theorem readDesc_sX {s : State} (hd : (s.ctx 3).desc = BitVec.ofNat 64 here) (hm : s.mem = []) : readDesc s 3 = some (List.replicate 256 0) := by
  have h256 : here % 256 = 0 := by unfold here; omega
  have hp : (placeOf here).isMemory = true := by rw [here_place]; rfl
  unfold readDesc
  rw [hd, here_word, if_pos ⟨h256, hp⟩, hm, reads_nil]
  dsimp only
  rw [List.drop_replicate, if_pos (by simp)]

/-- A region of context 3, with its site present. -/
def sXr (x : Ctx) (r : Region) : State := { sX x with regions := [(0, { r with ctx := 3 })], fused := (Vector.replicate 4 0).set 0 1 }

/-- The context unit with an event of context 3, at work or not. -/
def sJob (s : State) (j : CtxJob) (at_ : Bool) : State := { s with ctxq := [(3, j, at_)] }

set_option maxRecDepth 4000 in
theorem witness_ContextCommands :
    ((sX { cmd := some .create }).ctx 3).cmd ≠ none ∧ ((sX {}).ctx 3).cmd = none ∧ ((sX {}).ctx 3).state = .free ∧
    ((sX { levelReg := 3 }).ctx 3).levelReg = 3 ∧ readDesc (sX { desc := 1 }) 3 = none ∧
    (∃ b, ((sX { desc := BitVec.ofNat 64 here }).ctx 3).levelReg ≠ 3 ∧ readDesc (sX { desc := BitVec.ofNat 64 here }) 3 = some b) ∧
    (let x : Ctx := { state := .ready, desc := BitVec.ofNat 64 here }
     let u := begun (sX x) 3 .bind
     readDesc u 3 = some (List.replicate 256 0) ∧ grantsPresent u (List.replicate 256 0) = true ∧ grantsFree u 3 (List.replicate 256 0) = true ∧
      grantsKeep u 3 (List.replicate 256 0) = true) ∧
    (let x : Ctx := { state := .ready, desc := BitVec.ofNat 64 here }
     let u := begun (sXr x region0) 3 .bind
     readDesc u 3 = some (List.replicate 256 0) ∧ grantsPresent u (List.replicate 256 0) = true ∧ grantsKeep u 3 (List.replicate 256 0) = false) ∧
    (∀ st ∈ [CtxState.ready, .running, .frozen, .swapped, .faulted, .dead], ((sX { state := st }).ctx 3).state = st ∧ (sX { state := st }).t3 = 0) ∧
    ({ sX { state := .frozen } with t3 := 1 } : State).t3 ≠ 0 ∧ ({ sX { state := .swapped } with t2 := 1 } : State).t2 ≠ 0 ∧ (3 : Nat) ≠ 0 ∧
    (sX {}).ctxq = [] ∧ (sJob (sX {}) .fault true).ctxq = (3, .fault, true) :: [] ∧
    (let s := { sX { state := .faulted } with t3 := 1 }
     (s.ctx 3).state = .faulted ∧ s.t3 ≠ 0) := by
  refine ⟨by decide, rfl, rfl, rfl, by decide, ⟨_, by decide, readDesc_sX rfl rfl⟩,
    ⟨readDesc_sX rfl rfl, by decide, by decide, by decide⟩, ⟨readDesc_sX rfl rfl, by decide, by decide⟩, by decide, by decide, by decide, by decide,
    rfl, rfl, rfl, by decide⟩

theorem witness_ContextLater :
    (let s := sJob (sX { state := .running, cmd := some .freeze }) .cmd true
     jobIs s 3 .cmd = true ∧ (s.ctx 3).cmd = some .freeze ∧ ctxFrozen s 3 = true) ∧
    (let s := sJob (sX { state := .running }) .trip true
     jobIs s 3 .trip = true ∧ ((s.ctx 3).state = .ready ∨ (s.ctx 3).state = .running) ∧ ctxFrozen s 3 = true) ∧
    ctxFrozen (sXr {} region0) 3 = false ∧ (jobIs (sX {}) 3 .trip = false ∧ ((sX {}).ctx 3).cmd ≠ some .freeze) ∧
    (let s := sX { state := .ready }
     (s.ctx 3).heldFault = none ∧ (s.ctx 3).state = .ready) ∧
    (let s := sJob (sX { state := .frozen, heldFault := some 9 }) .fault false
     (s.ctx 3).heldFault = some 9 ∧ s.ctxq = [(3, .fault, false)] ∧ (s.ctx 3).state = .frozen) ∧
    (let s := sJob (sXr { state := .ready, heldFault := some 9 } region0) .fault false
     (s.ctx 3).heldFault = some 9 ∧ s.ctxq = [(3, .fault, false)] ∧ (s.ctx 3).state = .ready ∧ ctxFrozen (markJob (freezeCtx s 3)) 3 = false) ∧
    (let s := sJob (sX { state := .ready, heldFault := some 9 }) .fault false
     (s.ctx 3).heldFault = some 9 ∧ s.ctxq = [(3, .fault, false)] ∧ (s.ctx 3).state = .ready ∧ ctxFrozen (markJob (freezeCtx s 3)) 3 = true) ∧
    (let s := sJob (sXr { state := .ready, heldFault := some 9 } region0) .fault true
     (s.ctx 3).heldFault = some 9 ∧ jobIs s 3 .fault = true ∧ ctxFrozen s 3 = false) ∧
    (let s := sJob (sX { state := .ready, heldFault := some 9 }) .fault true
     (s.ctx 3).heldFault = some 9 ∧ jobIs s 3 .fault = true ∧ ctxFrozen s 3 = true) ∧
    (((sX {}).ctx 3).heldFault = none ∧ (∀ k ∈ ctxCores (sX {}) 3, ((sX {}).core k).fltrec.getLsbD 63 = false) ∧ (sX {}).ctxq = []) ∧
    (let s := sJob (sX { state := .frozen, cmd := some .swapout }) .cmd true
     jobIs s 3 .cmd = true ∧ (s.ctx 3).cmd = some .swapout ∧ swapReady s 3 = true) ∧
    (let s := sJob (sX { state := .frozen }) .trip true
     jobIs s 3 .trip = true ∧ (s.ctx 3).state = .frozen ∧ swapReady s 3 = true) ∧
    (let s := sXr { state := .frozen, cmd := some .swapout } region0
     (s.ctx 3).cmd ≠ some .swapin ∧ swapReady s 3 = false ∧ jobIs s 3 .cmd = false ∧ jobIs s 3 .trip = false) ∧
    (let s := sJob (sX { state := .swapped, cmd := some .swapin }) .cmd true
     jobIs s 3 .cmd = true ∧ (s.ctx 3).cmd = some .swapin) ∧
    kfind ((sX { saved := [(0, { tint := 5 })] }).ctx 3).saved 0 = some { tint := 5 } ∧
    (let s := sXr { state := .dead } region0
     (s.ctx 3).state = .dead ∧ (∀ k ∈ ctxRegions s 3, ∃ r, s.region k = some r ∧ r.stores = []) ∧
      (∀ k ∈ ctxCores s 3, (s.core k).storeQ = []) ∧ ctxShooting s 3 = false) ∧ ((sX {}).ctx 3).state ≠ .dead := by
  refine ⟨⟨by decide, rfl, by decide⟩, ⟨by decide, by decide, by decide⟩, by decide, ⟨by decide, by decide⟩, ⟨rfl, rfl⟩, ⟨rfl, rfl, rfl⟩,
    ⟨rfl, rfl, rfl, by decide⟩, ⟨rfl, rfl, rfl, by decide⟩, ⟨rfl, by decide, by decide⟩, ⟨rfl, by decide, by decide⟩, ⟨rfl, by decide, rfl⟩,
    ⟨by decide, rfl, by decide⟩, ⟨by decide, rfl, by decide⟩, ⟨by decide, by decide, by decide, by decide⟩, ⟨by decide, rfl⟩, rfl,
    ⟨rfl, ?_, by decide, by decide⟩, by decide⟩
  intro k hk
  rw [show ctxRegions (sXr { state := .dead } region0) 3 = [0] from rfl, List.mem_singleton] at hk
  subst hk
  exact ⟨_, rfl, rfl⟩

/-! ### Witnesses: pages, memory errors, barriers -/

/-- Tables whose leaf, of a page of 64 MiB at 0, is v: one at 0, which the root names, the next two at `here` and on. -/
def tables (v : Nat) : Mem :=
  (((Mem.writes [] 0 (byteList 8 (here + 0x2001))).writes 0x2000 (byteList 8 (here + 0x4001))).writes 0x4000 (byteList 8 v))

theorem wf_tables (v : Nat) : (tables v).wf = true := Mem.wf_writes _ _ (Mem.wf_writes _ _ (Mem.wf_writes _ _ rfl))

theorem entry_tables (v : Nat) (s : State) (hm : s.mem = tables v) : entryAt s 0 = here + 0x2001 ∧ entryAt s (here + 0x2000) = here + 0x4001 ∧
    entryAt s (here + 0x4000) = v % 2 ^ 64 := by
  have hl := here_lt
  have hn := fun n (h : n < 2 ^ 46) => localPa_here h
  have w0 : (Mem.writes [] 0 (byteList 8 (here + 0x2001))).wf = true := Mem.wf_writes _ _ rfl
  have w1 : ((Mem.writes [] 0 (byteList 8 (here + 0x2001))).writes 0x2000 (byteList 8 (here + 0x4001))).wf = true := Mem.wf_writes _ _ w0
  have r0 := Mem.reads_writes (m := []) 0 (byteList 8 (here + 0x2001)) rfl
  have r1 := Mem.reads_writes 0x2000 (byteList 8 (here + 0x4001)) w0
  have r2 := Mem.reads_writes 0x4000 (byteList 8 v) w1
  rw [byteList_length] at r0 r1 r2
  have hz : localPa 0 = 0 := rfl
  unfold entryAt
  rw [hm, hz, hn 0x2000 (by omega), hn 0x4000 (by omega)]
  unfold tables
  refine ⟨?_, ?_, ?_⟩
  · rw [Mem.reads_writes_outside _ _ _ _ w1 (by omega), Mem.reads_writes_outside _ _ _ _ w0 (by omega), r0, natOf_byteList]
    generalize here = H at *
    omega
  · rw [Mem.reads_writes_outside _ _ _ _ w1 (by omega), r1, natOf_byteList]
    generalize here = H at *
    omega
  · rw [r2, natOf_byteList]

theorem next_here (o : Nat) (ho : o % 2 ^ 13 = 0) (h : o < 2 ^ 16) : nextTable (here + (o + 1)) = .ok (here + o) := by
  have hb : here + (o + 1) < 2 ^ 52 := by
    have := Config.moduleNumber.isLt
    unfold here
    omega
  have h0 : bits (here + (o + 1)) 0 1 = 1 := by unfold bits here; omega
  have h1 : bits (here + (o + 1)) 52 12 = 0 := by unfold bits; omega
  have h2 : bits (here + (o + 1)) 2 9 = 0 := by unfold bits here; omega
  have h3 : bits (here + (o + 1)) 11 2 = 0 := by unfold bits here; omega
  have h4 : bits (here + (o + 1)) 13 39 * 2 ^ 13 = here + o := by unfold bits here at *; omega
  have hp : (placeOf (here + o)).isMemory = true := by rw [placeOf_here (by omega)]; rfl
  unfold nextTable
  simp only [h0, h1, h2, h3, h4, hp, if_true]
  simp

theorem leafAt_tables (v : Nat) (s : State) (hm : s.mem = tables v) (hv : v < 2 ^ 64) (h1 : bits v 1 1 = 1) :
    ∃ pa, leafAt s 0 0 = .ok (pa, v, 26) := by
  refine ⟨here + 0x4000, ?_⟩
  obtain ⟨e3, e2, e1⟩ := entry_tables v s hm
  have hl := here_lt
  obtain ⟨m, hm64, hh⟩ := here_eq
  have b3 : bits (here + 0x2001) 0 2 = 1 := by rw [hh]; unfold bits; omega
  have b2 : bits (here + 0x4001) 0 2 = 1 := by rw [hh]; unfold bits; omega
  have hz : ∀ lo n, bits 0 lo n = 0 := fun lo n => by simp [bits]
  have n3 := next_here 0x2000 (by omega) (by omega)
  have n2 := next_here 0x4000 (by omega) (by omega)
  unfold leafAt
  simp only [hz, Nat.mul_zero, Nat.add_zero, e3, b3, n3, e2, b2, n2, e1, Nat.mod_eq_of_lt hv, h1, if_true]
  simp

def shoot (k : ShootKind) (acked : Bool) : Shoot where
  id := 1
  kind := k
  what := .all
  acked := acked

def sS (h : List Shoot) : State := { State.reset with shoots := h }

def mig : MigrIn where
  id := 1
  leafPa := 0
  log2 := 16
  deep := 0
  frame := 0x10000

def sTab (v : Nat) : State := { State.reset with mem := tables v }

theorem mem_sTab (v : Nat) : (sTab v).mem = tables v := by unfold sTab; generalize tables v = m; rfl

theorem witness_PagesMove_leaf (v : Nat) (hv : v < 2 ^ 64) (h1 : bits v 1 1 = 1) :
    ∃ pa, leafAt (sTab v) ((sTab v).ctx 0).root.toNat (0 : BitVec 64).toNat = .ok (pa, v, 26) :=
  by rw [show ((sTab v).ctx 0).root.toNat = 0 from rfl, show (0 : BitVec 64).toNat = 0 from rfl]; exact leafAt_tables v (sTab v) (mem_sTab v) hv h1
theorem witness_PagesMove_shoots :
    ((sS [shoot .tlbi false]).shoots.find? (fun h => h.id == 1) = some (shoot .tlbi false) ∧ (shoot .tlbi false).acked = false ∧
      (shoot .tlbi false).done (sS [shoot .tlbi false]) = true) ∧ (shoot .tlbi true).acked = true ∧
    ({ shoot .poison false with cores := [0] } : Shoot).done State.reset = false ∧ (4 : Nat) < 5 ∧
    ({ shoot .poison false with queued := [(7, 2)] } : Shoot).done State.reset = false ∧
    (kget ({ shoot .poison false with queued := [(7, 2)] } : Shoot).queued 7 0 = 2 ∧ (0 : Nat) < 2 ∧ (2 : Nat) ≤ 2) ∧
    (∃ f, leafAt State.reset (State.reset.ctx 0).root.toNat (0 : BitVec 64).toNat = .error f) ∧
    ((2 : Nat).testBit 0 = false ∧ bits 2 1 1 = 1 ∧ (0x103 : Nat).testBit 8 = true ∧ (0x203 : Nat).testBit 9 = true) ∧
    ((3 : Nat).testBit 0 = true ∧ (3 : Nat).testBit 8 = false ∧ (3 : Nat).testBit 9 = false ∧ bits 3 1 1 = 1) :=
  ⟨⟨rfl, rfl, by decide⟩, rfl, by decide, by decide, by decide, ⟨rfl, by decide, by decide⟩, ⟨1, rfl⟩, ⟨by decide, by decide, by decide, by decide⟩,
    ⟨by decide, by decide, by decide, by decide⟩⟩
theorem witness_PagesMove_ends :
    (let s : State := { State.reset with migrs := [mig] }
     s.migrs.find? (fun m => m.id == 1) = some mig ∧ ∀ h ∈ s.shoots, h.id ≠ 1) ∧
    (let s : State := { sS [shoot .poison false] with migrs := [mig] }
     s.migrs.find? (fun m => m.id == 1) = some mig ∧ ∃ h ∈ s.shoots, h.id = 1) ∧
    ∀ k, (sS [shoot k true]).migrs.find? (fun m => m.id == 1) = none ∧
      (sS [shoot k true]).shoots.find? (fun h => h.id == 1 && h.acked) = some (shoot k true) ∧ (shoot k true).kind = k :=
  ⟨⟨rfl, by decide⟩, ⟨rfl, by decide⟩, fun _ => ⟨rfl, rfl, rfl⟩⟩

def memErr (retryOk walk deep : Bool) : MemError := ⟨0, deep, walk, retryOk, 0, 0⟩

def frec : FaultRec := ⟨5, 7, 63, 0x123456789A, true, 2⟩

theorem witness_MemoryService :
    (memErr true false false).retryOk = true ∧ ((memErr false true false).retryOk = false ∧ (memErr false true false).walk = true) ∧
    ((memErr false false false).retryOk = false ∧ (memErr false false false).walk = false ∧ (memErr false false false).deep = false) ∧
    (let s : State := { State.reset with migrs := [mig] }
     s.migrs.find? (fun m => decide (m.deep ≤ (memErr false false true).pa) && decide ((memErr false false true).pa < m.deep + 2 ^ m.log2)) = some mig) ∧
    (let v : BitVec 64 := 0x700000500
     (v.extractLsb' 8 4).toNat = 5 ∧ (v.extractLsb' 32 32).toNat = 7 ∧ (kget State.reset.rings 0 {}).stopped.contains (5, 7) = false ∧
      (kget [(0, ({ stopped := [(5, 7)] } : FaultRing))] 0 {}).stopped.contains (5, 7) = true) ∧
    (let s : State := { sR with rings := [(0, { stopped := [(0, 0)] })] }
     (kget s.rings 0 {}).stopped.contains (0, 0) = true ∧ regionOfHandle (dropStopped s 0 0 0) 0 = some 0) ∧
    (kget State.reset.rings 0 {}).wait = [] ∧
    (let s : State := { State.reset with rings := [(0, { tail := 256, wait := [frec] })] }
     (kget s.rings 0 {}).tail - (kget s.rings 0 {}).head = 256) ∧
    (let s : State := { State.reset with rings := [(0, { tail := 255, wait := [frec] })] }
     (kget s.rings 0 {}).wait = frec :: [] ∧ (kget s.rings 0 {}).tail - (kget s.rings 0 {}).head ≠ 256) ∧
    (frec.ctx < 64 ∧ frec.kind < 16 ∧ frec.code < 256 ∧ frec.src < 2 ^ 32) :=
  ⟨rfl, ⟨rfl, rfl⟩, ⟨rfl, rfl, rfl⟩, rfl, by decide, ⟨by decide, by decide⟩, rfl, by decide, by decide, by decide⟩

/-- A streamer's job that reads 32 bytes of the deep tier at 0. -/
def jobDeep : StreamJob := { op := 0xCB, descVa := 0, region := 0, desc := byteList 64 (32 * 2 ^ 128) }

theorem witness_MemoryService_deep :
    (let s : State := { State.reset with streamers := [(5, { job := some jobDeep })] }
     s.migrs.find? (fun m => decide (m.deep ≤ (memErr false false true).pa) && decide ((memErr false false true).pa < m.deep + 2 ^ m.log2)) = none ∧
      s.streamers.find? (fun p => p.2.job.any fun j => j.readsDeep (memErr false false true).pa) = some (5, { job := some jobDeep })) ∧
    State.reset.streamers.find? (fun p => p.2.job.any fun j => j.readsDeep 0) = none ∧
    (let mine := sQ.regions.filter fun p => p.2.ctx == (memErr false true false).ctx
     mine.any (fun p => (regionElems sQ p.2).any fun e => (sQ.elem e.1 e.2).reqs.any fun q =>
      q.walks (memErr false true false).va.toNat && !q.isXlat) = true) ∧
    (let mine := State.reset.regions.filter fun p => p.2.ctx == (memErr false true false).ctx
     mine.any (fun p => (regionElems State.reset p.2).any fun e => (State.reset.elem e.1 e.2).reqs.any fun q =>
      q.walks (memErr false true false).va.toNat && !q.isXlat) = false) :=
  ⟨⟨rfl, by decide⟩, rfl, by decide, rfl⟩

def sBar (x : Barrier) : State := { State.reset with barriers := [(4, x)] }

theorem witness_TreeBarriers :
    (let x : Barrier := { count := 2, inbox := [(some 0, 0)] }
     ((sBar x).barrier 4).inbox = (some 0, 0) :: [] ∧ ((sBar x).barrier 4).count ≠ 0 ∧ ((sBar x).barrier 4).scope ≠ 5 ∧
      ((sBar x).barrier 4).arr + 1 < ((sBar x).barrier 4).count) ∧
    ((sBar {}).barrier 4).inbox = [] ∧
    (let x : Barrier := { count := 2, arr := 1, cores := [some 7], mods := [thisModule] }
     ((sBar x).barrier 4).scope ≠ 5 ∧ ((sBar x).barrier 4).count ≠ 0 ∧ ((sBar x).barrier 4).count ≤ ((sBar x).barrier 4).arr + 1 ∧
      (∀ m ∈ ((sBar x).barrier 4).mods, m = thisModule) ∧ ((sBar x).barrier 4).cores.length = ((sBar x).barrier 4).mods.length ∧
      (sBar x).groups = []) ∧
    (let x : Barrier := { count := 2, scope := 5, root := thisModule + 1 }
     ((sBar x).barrier 4).scope = 5 ∧ ((sBar x).barrier 4).root ≠ thisModule ∧ ((sBar x).barrier 4).count ≠ 0) :=
  ⟨⟨rfl, by decide, by decide, by decide⟩, rfl, ⟨by decide, by decide, by decide, fun _ h => List.mem_singleton.mp h, rfl, rfl⟩,
    rfl, Nat.succ_ne_self _, by decide⟩

/-! ### Witnesses: links and the host port -/

def sL (st : LinkState) : State := { State.reset with links := [(1, { state := st })] }

theorem thisModule_lt : thisModule < 64 := Config.moduleNumber.isLt

theorem witness_LinkStates : (16 < 17 ∧ 1 ≤ 16) ∧ ((sL .down).link 1).state = .down ∧ ((sL .up).link 1).state ≠ .down ∧
    ((sL .failed).link 1).state = .failed ∧ ((sL .up).link 1).state ≠ .failed ∧ ((sL .up).link 1).state = .up ∧
    ((sL .degraded).link 1).state = .degraded ∧ ((sL .training).link 1).state = .training ∧ trainedTo 1 8 = some .up ∧
    trainedTo 0 16 = some .up ∧ trainedTo 0 15 = some .degraded ∧ trainedTo 12 2 = some .degraded ∧ trainedTo 13 1 = some .up ∧
    trainedTo 1 3 = none ∧ trainedTo 0 0 = none ∧ ((sL .up).link 1).state ≠ .training :=
  ⟨by decide, rfl, by decide, rfl, by decide, rfl, rfl, rfl, rfl, rfl, rfl, rfl, rfl, rfl, rfl, by decide⟩
theorem witness_Flits : ((sL .up).link 1).carries = true ∧ ((sL .degraded).link 1).carries = true ∧ ((sL .down).link 1).carries = false ∧
    ((⟨1, thisModule, .arrival 0 0⟩ : Flit).dst = thisModule) ∧ ((⟨1, 64, .arrival 0 0⟩ : Flit).dst ≠ thisModule) ∧
    (routeLink (sL .up) 64 ≤ 12 ∧ ((sL .up).link (routeLink (sL .up) 64)).carries = true) ∧
    (let s : State := { sL .down with links := [(1, {}), (2, { state := .up })] }
     (s.link 2).carries = true ∧ (s.link (routeLink s 64)).carries = false) ∧ (placeOf here).isMemory = true ∧
    (∃ pa bs f, (⟨1, 64, .store 0 []⟩ : Flit).body = .store pa bs ∧ f = 0) := by
  have := thisModule_lt
  refine ⟨by decide, by decide, by decide, rfl, ?_, ⟨by decide, by decide⟩, ⟨by decide, by decide⟩, by rw [here_place]; rfl, ⟨_, _, 0, rfl, rfl⟩⟩
  show 64 ≠ thisModule
  omega

/-- A write over a page of the next module, to which no link carries. -/
theorem witness_Flits_dead : (∃ p, (spansOf [pageThere] 2 0 [1]).find? (fun p => deadPa (sL .down) p.1) = some p) ∧
    (let f : Flit := ⟨1, 64, .store 0 []⟩
     ∃ pa bs, f.body = .store pa bs) ∧ ([1] : List Byte) ≠ [] ∧ (12 < 13 ∨ ¬ ((sL .down).link 1).carries = true) ∧
    (let s : State := { State.reset with links := [(1, { state := .up, held := [⟨1, 64, .arrival 0 0⟩] })] }
     (s.link 1).carries = true ∧ (s.link 1).held ≠ []) ∧ (routeLink (sL .training) 64 ≤ 12 ∧ ((sL .training).link (routeLink (sL .training) 64)).state = .training) := by
  have hd : deadPa (sL .down) there = true := by
    have hr : (placeOf there).isRemote = true := by rw [show there = there + 0 from rfl, place_there (by omega)]; rfl
    have hm : there / 2 ^ 46 = (Config.moduleNumber.toNat + 1) % 64 := by unfold there; omega
    have hl : ∀ m, routeLink (sL .down) m = 1 := by
      intro m
      have h : (sL .down).routes.toList = List.replicate 64 0 := rfl
      unfold routeLink
      rw [h, List.getD_eq_getElem?_getD, List.getElem?_replicate]
      split <;> rfl
    have hc : ((sL .down).link 1).carries = false := rfl
    simp only [deadPa, hr, hm, deadRoute, hl, hc]
    rfl
  refine ⟨⟨(there, [1]), ?_⟩, ⟨_, _, rfl⟩, by decide, by decide, ⟨rfl, by decide⟩, by decide, rfl⟩
  have hs : spansOf [pageThere] 2 0 [1] = [(there, [1])] := rfl
  rw [hs, List.find?_cons_of_pos]
  exact hd

def sReady : State := { State.reset with bootstat := { ready := true }, links := [(0, { state := .up })] }

theorem bar2_here : bar2 0 8 = some here := by
  have h : thisModule * 2 ^ 46 + 0 = here := by
    rw [Nat.add_zero, Nat.mul_comm]
    rfl
  have p0 : (placeOf here).isMemory = true := by rw [here_place]; rfl
  have p7 : (placeOf (here + 7)).isMemory = true := by rw [placeOf_here (by omega)]; rfl
  unfold bar2
  rw [h]
  generalize here = H at *
  exact if_pos ⟨by omega, by omega, p0, p7⟩

theorem bar2_past (n : Nat) (h : 0 < n) : bar2 (2 ^ 40) n = none := by
  unfold bar2
  exact if_neg fun x => absurd x.1 (by omega)

theorem witness_HostPort : (State.reset.link 0).carries = false ∧ (let s : State := { sReady with bootstat := {} }
    (s.link 0).carries = true ∧ s.bootstat.ready = false) ∧ (sReady.link 0).carries = true ∧ ¬ ((2 : Nat) = 0 ∧ (0 : Nat) / 8 * 8 = 0x71000 ∧ accessOk 0 8 = true) ∧
    sReady.bootstat.ready = true ∧ (0x71004 / 8 * 8 = 0x71000 ∧ accessOk 0x71004 4 = true) ∧ regAt (0x71000 / 8 * 8) = some .boot ∧
    accessOk 0x71008 8 = true ∧ regAt (0x71008 / 8 * 8) = none ∧ (∃ pa, bar2 0 8 = some pa) ∧ bar2 (2 ^ 40) 8 = none ∧
    bar2 0 [1, 2, 3, 4, 5, 6, 7, 8].length = some here ∧ bar2 (2 ^ 40) [1].length = none ∧ (4 : Nat) ≠ 0 ∧ (4 : Nat) ≠ 2 ∧
    accessOk 1 8 = false ∧ (0x50000 % 8 = 0 ∧ regAt 0x50000 = some (.ring 0 0)) ∧ (accessOk 0x28 8 = true ∧ 0x28 < 0x30) ∧
    (1023 < 1024 ∧ 0x38 < 0x40 ∧ 0x38 % 8 = 0) ∧ (16 ≤ 16 ∧ 0x18 < 0x20 ∧ 0x18 % 8 = 0) :=
  ⟨by decide, by decide, by decide, by decide, rfl, by decide, by decide, by decide, by decide, ⟨here, bar2_here⟩, bar2_past 8 (by omega), bar2_here, bar2_past 1 (by omega), by decide, by decide, by decide,
    by decide, by decide, by decide, by decide⟩

/-! ### Witnesses: wells -/

/-- Well 5, armed on port 9, whose HEAD is 4, and an ingest port that is UP. -/
def well5 : Well where
  state := .armed
  ingp := 9
  head := 4

def sWell (w : Well) : State := { State.reset with wells := [(5, w)], links := [(13, { state := .up })] }

/-- A frame of one sample from index f on (R342). -/
def frame (f : Nat) : List Byte := byteList 24 (0x01055746 + 2 ^ 32 + f * 2 ^ 64) ++ [1, 2]

/-- A number in network order. -/
def net (n v : Nat) : List Byte := (byteList n v).reverse

/-- A UDP datagram for a port without a checksum, an IPv4 packet that carries one, its flags and offset f, and an IPv6 one. -/
def udp (port : Nat) (b : List Byte) : List Byte := net 2 0x1234 ++ net 2 port ++ net 2 (8 + b.length) ++ net 2 0 ++ b
def ip4 (f ck : Nat) (u : List Byte) : List Byte :=
  net 2 0x4500 ++ net 2 (20 + u.length) ++ net 2 0 ++ net 2 f ++ net 2 0x4011 ++ net 2 ck ++ List.replicate 8 0 ++ u
def ip6 (u : List Byte) : List Byte := net 4 0x60000000 ++ net 2 u.length ++ net 2 0x1140 ++ List.replicate 32 0 ++ u
def eth (ty : Nat) (b : List Byte) : List Byte := List.replicate 12 0 ++ net 2 ty ++ b
def vlan (ty : Nat) (b : List Byte) : List Byte := eth 0x8100 (net 2 5 ++ net 2 ty ++ b)

/-- The datagram that such a packet carries. -/
def gram (port : Nat) (b : List Byte) : Datagram where
  dstPort := port
  fragment := false
  badChecksum := false
  payload := b

set_option maxRecDepth 20000 in
theorem witness_Frames : readFrame (eth 0x0800 (ip4 0 0x7AB8 (udp 9 (frame 4)))) = some (gram 9 (frame 4)) ∧
    readFrame (vlan 0x0800 (ip4 0 0x7AB8 (udp 9 (frame 4)))) = some (gram 9 (frame 4)) ∧
    ((readFrame (eth 0x0800 (ip4 1 0x7AB7 (udp 9 (frame 4))))).map fun d => d.fragment) = some true ∧
    ((readFrame (eth 0x86DD (ip6 (udp 9 (frame 4))))).map fun d => d.badChecksum) = some true ∧
    (readFrame [] = none ∧ ([] : List Byte).length < 14) ∧ 9216 < 9217 ∧
    (netField (ip6 (udp 9 (frame 4))) 0 1 / 16 = 6 ∧ netField (ip6 (udp 9 (frame 4))) 4 2 + 40 ≤ (ip6 (udp 9 (frame 4))).length ∧
      netField (ip6 (udp 9 (frame 4))) 6 1 = 17) ∧
    readUdp (List.replicate 8 0) (udp 9 (frame 4)) true = some (gram 9 (frame 4)) ∧
    (14 ≤ (eth 0x0800 []).length ∧ netField (eth 0x0800 []) 12 2 = 0x0800 ∧ netField (eth 0x86DD []) 12 2 = 0x86DD) ∧
    (18 ≤ (vlan 0x0800 []).length ∧ netField (vlan 0x0800 []) 12 2 = 0x8100 ∧ netField (vlan 0x0800 []) 16 2 = 0x0800 ∧
      netField (vlan 0x86DD []) 16 2 = 0x86DD) := by
  decide

def cand (slot : Nat) : Candidate := ⟨slot, BitVec.ofNat 24 slot, 100, 0, 0, 0⟩

set_option maxRecDepth 20000 in
theorem witness_WellFrames :
    ((sWell well5).link 13).carries = true ∧ (State.reset.link 13).carries = false ∧ ingestWell (sWell well5) 9 = some 5 ∧
    ingestWell (sWell well5) 8 = none ∧ wellFrame 5 2 (frame 4) = some (4, 1) ∧ wellFrame 5 2 [] = none ∧ (4 + 1 < 2 ^ 63 ∧ 4 < 4 + 1) ∧
    wellFrame 5 2 (frame 3) = some (3, 1) ∧ 3 + 1 ≤ ((sWell well5).well 5).head ∧ wellFrame 5 2 (frame (2 ^ 63 - 1)) = some (2 ^ 63 - 1, 1) ∧
    (let w := (sWell { well5 with pubs := [5] }).well 5
     w.pubs = 5 :: [] ∧ w.state = .armed ∧ ((5 : W32) - BitVec.ofNat 32 w.head).toNat = 1 ∧ 1 ≤ 2 ^ w.log2n ∧ w.head + 1 < 2 ^ 63) ∧
    (let w := (sWell { well5 with pubs := [4] }).well 5
     w.pubs = 4 :: [] ∧ ((4 : W32) - BitVec.ofNat 32 w.head).toNat = 0) ∧
    ((sWell { well5 with state := .closing, pubs := [4] }).well 5).state ≠ .armed ∧ ((sWell well5).well 5).pubs = [] ∧
    (let w := (sWell { well5 with candIn := [List.replicate 32 1], cands := [cand 0] }).well 5
     w.candIn = List.replicate 32 1 :: [] ∧ w.state = .armed ∧ w.cands.length < 256) ∧
    ((sWell { well5 with cands := List.replicate 256 (cand 0) }).well 5).cands.length = 256 ∧ bestCandidate [cand 0, cand 1] = some (cand 0) ∧
    bestCandidate [] = none ∧
    (let s := sWell { well5 with exts := [{ no := 1, cls := 2, a := 10, b := 20 }] }
     (∃ x ∈ (s.well 5).exts, x.held = false) ∧ ((drawNat s).1 % 2 = 0 ∨ (drawNat s).1 % 2 = 1)) ∧
    ¬ (∃ x ∈ ((sWell well5).well 5).exts, x.held = false) ∧
    kfind ({ sWell well5 with triggers := [(0, { kind := 1 })] } : State).triggers 0 = some { kind := 1 } :=
  ⟨rfl, rfl, by decide, by decide, by decide, by decide, by decide, by decide, by decide, by decide, by decide, by decide, by decide, rfl, by decide,
    by decide, by decide, rfl, ⟨⟨_, List.mem_singleton.mpr rfl, rfl⟩, by omega⟩, (fun ⟨_, h, _⟩ => by cases h), rfl⟩
def ext1 : Extent := { no := 1, cls := 2, a := 10, b := 20 }

def claim1 : Claim where
  id := 1
  state := 2
  lo := 5
  hi := 20
  ext := 1

theorem witness_Claims :
    (let w := (sWell { well5 with cands := [cand 3] }).well 5
     (w.cands.find? fun c => c.slot == bits (2 ^ 63 + 0x303) 0 8 && c.seq.toNat == bits (2 ^ 63 + 0x303) 8 24) = some (cand 3) ∧
      (2 ^ 63 + 0x303).testBit 63 = true ∧ w.state = .armed ∧
      (w.cands.find? fun c => c.slot == bits (2 ^ 63 + 0x404) 0 8 && c.seq.toNat == bits (2 ^ 63 + 0x404) 8 24) = none) ∧
    ((0 : Nat).testBit 63 = false ∧ (0 : Nat).testBit 0 = false ∧ (1 : Nat).testBit 0 = true) ∧
    (-20 + 1 < ({ well5 with head := 4 } : Well).spill ∧ well5.spill ≤ 10) ∧ well5.maxext ≤ ({ well5 with exts := [ext1] } : Well).exts.length ∧
    well5.exts.length < well5.maxext ∧
    meetingExtent { well5 with exts := [ext1] } 2 21 30 = some ext1 ∧ (4 : BitVec 8).getLsbD 2 = true ∧
    (claim1.ext = 1 ∧ 0 < (min 8 claim1.hi - max 0 claim1.lo + 1).toNat) ∧ ¬ 0 < (min 4 claim1.hi - max 0 claim1.lo + 1).toNat ∧
    ((sWell well5).well 5).state ≠ .closed ∧ (State.reset.well 5).state = .closed ∧
    ((sWell { well5 with rdIn := [0] }).well 5).rdIn = 0 :: [] ∧ ((sWell well5).well 5).rdIn = [] ∧ ((-40 : Int) < well5.spill ∧ (-41 : Int) ≤ -40) ∧
    (20 < ext1.b + 1 ∧ ext1.b ≤ 20 ∧ 15 < ext1.b) ∧
    (let w := (sWell { well5 with state := .closing }).well 5
     w.state = .closing ∧ w.exts = [] ∧ w.recs = []) ∧
    ((sWell { well5 with state := .closing, exts := [ext1] }).well 5).exts ≠ [] :=
  ⟨by decide, by decide, by decide, by decide, by decide, by decide, by decide, by decide, by decide, by decide, by decide, rfl, rfl, by decide, by decide, ⟨rfl, rfl, rfl⟩,
    by decide⟩

/-! ### Witnesses: power -/

def hint0 : Hint where
  start := 10000
  stop := 20000
  int := 8
  issue := 0

theorem witness_Charge :
    (1000 * State.reset.interval ≤ State.reset.nstime ∧ State.reset.interval = 0) ∧ ({ State.reset with interval := 1 } : State).nstime < 1000 * 1 ∧
    (let s : State := { State.reset with interval := 1, nstime := 1000, doses := 64 }
     1000 * s.interval ≤ s.nstime ∧ s.doses = 64) ∧
    (let s : State := { sR with interval := 1, nstime := 16, doses := 1, islands := [(0, {})] }
     s.interval ≠ 0 ∧ s.doses < 64 ∧ 1000 * s.doses ≤ 64 * (s.nstime - 1000 * (s.interval - 1)) ∧ kfind s.tiles 0 = some tile0 ∧ tile0.todo = [] ∧
      kfind s.islands 0 = some {}) ∧ { tile0 with todo := [.finish] }.todo ≠ [] ∧
    64 * (15 - 1000 * (1 - 1)) < 1000 * 1 ∧ (hint0.issue ≤ 10000 ∧ hint0.start ≤ 10000) ∧ 8249 < hint0.start - 1750 ∧
    (kget State.reset.hints 0 []).length < 8 :=
  ⟨by decide, by decide, by decide, ⟨by decide, by decide, by decide, rfl, rfl, rfl⟩, by decide, by decide, by decide, by decide, by decide⟩

/-- A request for a hint of 1 us, of a core and of an element of a region. -/
def hintQ (k : Option Nat) : HintReq := { ctx := 0, die := 0, int := 8, onset := 10, len := 1, region := k }

theorem witness_Hints :
    (let s : State := { sR with hints := [(0, List.replicate 8 hint0)] }
     8 ≤ (kget s.hints ((hintQ none).ctx * 4 + (hintQ none).die) []).length ∧ (hintQ none).region = none ∧ (hintQ (some 0)).region = some 0 ∧
      ∃ r, s.region 0 = some r ∧ r.runId = (hintQ (some 0)).run) ∧ sR.region 1 = none ∧
    (∃ dep, slotAt (State.reset.withFetchWord 64 0x8000003800000000) 0 0 0 0 = .rule (.nop { pcare := 0, pval := 0, qtest := none, htag := none, upd := none }) dep) ∧
    ({ State.reset with t2 := 16 } : State).t2.getLsbD 4 = true :=
  ⟨⟨by decide, rfl, rfl, _, rfl, rfl⟩, by decide, ⟨_, rfl⟩, by decide⟩

def owed0 : Owed := ⟨0, 1, 5, 1⟩

theorem witness_SpinesAndTrips :
    (State.reset.nstime < (State.reset.spine 0).stepAt + 1000) ∧ (32 ≤ 32) ∧ ((State.reset.spine 0).run = (State.reset.spine 0).goal 0 false) ∧
    (let s : State := { State.reset with nstime := 1000, spines := [(0, { set := 1000 })] }
     (s.spine 0).stepAt + 1000 ≤ s.nstime ∧ (s.spine 0).run ≠ (s.spine 0).goal s.slackK (s.t2.getLsbD 0)) ∧
    ((State.reset.spine 0).owed = none ∧ ({ set := 1000 } : Spine).run ≠ ({ set := 1000 } : Spine).set) ∧
    ({ owed := some owed0 } : Spine).run = ({ owed := some owed0 } : Spine).set ∧
    (let s : State := { sR with tiles := [(0, { tile0 with switching := some (0, 3) })] }
     let u := s.modTile 0 fun x => { x with spine := 3, switching := none }
     (s.tile 0).switching = some (0, 3) ∧ regionOf u 0 = some 0 ∧ u.region 0 = some region0 ∧ ∀ v ∈ region0.sites, (u.tile v).switching = none) ∧
    (let r := { region0 with width := 2 }
     let s : State := { sR with regions := [(0, r)], tiles := [(0, { tile0 with switching := some (0, 3) }), (1, { tile0 with switching := some (4, 3) })] }
     let u := s.modTile 0 fun x => { x with spine := 3, switching := none }
     (s.tile 0).switching = some (0, 3) ∧ regionOf u 0 = some 0 ∧ u.region 0 = some r ∧ ∃ v ∈ r.sites, (u.tile v).switching ≠ none) ∧
    (let s : State := { sA with tiles := [(0, { tile0 with switching := some (0, 3) })] }
     regionOf (s.modTile 0 fun x => { x with spine := 3, switching := none }) 0 = none) ∧
    (∀ sp, (sA.tile 0).switching ≠ some (0, sp)) ∧
    ((tripDies 0).filter fun d => !State.reset.t1.getLsbD d) = [0] ∧
    ((tripDies 0).filter fun d => !({ State.reset with t1 := 1 } : State).t1.getLsbD d) = [] ∧
    (((sX { state := .running }).ctx 3).cmd = none ∧ ((sX { state := .running }).ctx 3).state = .running) ∧
    ((sX { cmd := some .create }).ctx 3).cmd ≠ none ∧
    (let s := sJob (sX { state := .running }) .trip false
     s.ctxq = [(3, .trip, false)] ∧ (s.ctx 3).state = .running) ∧ ((sX { state := .frozen }).ctx 3).state = .frozen ∧
    (let s := sJob (sX { state := .dead }) .trip false
     s.ctxq = [(3, .trip, false)] ∧ (s.ctx 3).state ≠ .ready ∧ (s.ctx 3).state ≠ .running ∧ (s.ctx 3).state ≠ .frozen) :=
  ⟨by decide, by decide, by decide, by decide, by decide, by decide, ⟨rfl, by decide, rfl, by decide⟩, ⟨rfl, by decide, rfl, by decide⟩, by decide,
    (fun sp h => by cases h), by decide, by decide, ⟨rfl, rfl⟩, by decide, ⟨rfl, rfl⟩, rfl, ⟨rfl, by decide, by decide, by decide⟩⟩

/-! ### Witnesses: boot and identity, words, steps -/

theorem witness_Spdm :
    State.reset.bootstat.ready = false ∧
    (let s (k : Nat) : State := { State.reset with bootstat := ⟨0, true, 7⟩, spdm := k }
     (s 0).bootstat.ready = true ∧ (s 0).spdm < 1 ∧ (s 1).spdm < 2 ∧ (s 2).spdm < 3 ∧ 3 ≤ (s 3).spdm ∧ (s 3).bootstat.ready = true) ∧
    (let rq : SpdmRequest := { param1 := 0, param2 := 4, data := [] }
     rq.param1 % 16 = 0 ∧ rq.param1 = 0 ∧ rq.param2 ≤ 4) ∧ ({ param1 := 0, param2 := 255, data := [] } : SpdmRequest).param2 = 0xFF := by decide

theorem witness_EncodeDecode :
    ((Instr.nop g0).wellFormed = true ∧ encode (.nop g0) = some 0x8000003800000000 ∧ (Instr.nop g0).operands.isSome = true) ∧
    ((Instr.sysr ⟨none⟩ 2 2).wellFormed = true ∧ encode (.sysr ⟨none⟩ 2 2) = some 0xC008000000000002 ∧
      (Instr.sysr ⟨none⟩ 2 2).operands.isSome = false) ∧
    decodeElem 0x8000003800000000 = .ok (.nop g0) ∧ decodePump 0xC008000000000002 = .ok (.sysr ⟨none⟩ 2 2) := by decide

/-- What clause 1 of StepRunsDecoded asks, for the word placed by the fetch helper. -/
def AtTurn (s : State) (i : Instr) (o : Operands) : Prop :=
  let u := { s with agenda := [] }.modTile 0 fun x => { x with todo := [] }
  let v : State := { u with actor := { u.actor with tile := 0, elem := 0, plane := 0, slot := 0 } }
  s.agenda = [.tile 0] ∧ s.powerOff = false ∧ present s 0 = true ∧ (s.tile 0).todo = [.fire 0 0 none false] ∧
  decodeElem (slotWord (s.elem 0 0) (s.elem 0 0).plane.toNat 0) = .ok i ∧ i.operands = some o ∧
  (s.tile 0).badEcc.contains (64 * 0 + 16 * 0 + 0) = false ∧ slotLegal v 0 0 i = true ∧ ∃ w, exec i v = .next w

theorem witness_step_rule : ∃ o, AtTurn (State.reset.withFetchWord 64 0x8000003800000000) (.nop g0) o ∧
    ready (State.reset.withFetchWord 64 0x8000003800000000) (.nop g0) o = true :=
  ⟨_, ⟨rfl, rfl, by decide, by decide, by decide, rfl, by decide, by decide, ⟨_, rfl⟩⟩, by decide⟩

/-- What the word left of its element's fault state. -/
def faultedAfter (s : State) (i : Instr) : Option Bool :=
  match exec i { s with agenda := [], actor := { s.actor with tile := 0, elem := 0, plane := 0, slot := 0 } } with
  | .next w => some (w.elem 0 0).faulted
  | _ => none

/-- An element that a fault has stopped, at the turn of its rule. -/
def sStopped : State := (State.reset.withFetchWord 64 0x8000003800000000).modElem 0 0 fun y => { y with faulted := true }

theorem witness_step_rule_faulted : (∃ o, AtTurn sStopped (.nop g0) o) ∧ faultedAfter sStopped (.nop g0) = some true ∧
    faultedAfter (State.reset.withFetchWord 64 0x8000003800000000) (.nop g0) = some false :=
  ⟨⟨_, rfl, rfl, by decide, by decide, by decide, rfl, by decide, by decide, ⟨_, rfl⟩⟩, by decide, by decide⟩

def planeIf : Instr := .plane { g0 with pcare := 0x80, pval := 0x80 } 2

theorem witness_step_rule_not_ready : ∃ o, AtTurn (State.reset.withFetchWord 64 0xC0400038C0000002) planeIf o ∧
    ready (State.reset.withFetchWord 64 0xC0400038C0000002) planeIf o = false :=
  ⟨_, ⟨rfl, rfl, by decide, by decide, by decide, rfl, by decide, by decide, ⟨_, rfl⟩⟩, by decide⟩

theorem witness_step_lane :
    let s := State.reset.withFetchWord 64 0xC008000000000002
    let u := (drawNat { s with agenda := [] }).2
    s.agenda = [.core 0] ∧ s.powerOff = false ∧ coreExists 0 = true ∧ coreChoices u 0 = [.lane 0] ∧
      (s.core 0).lanes[0]? = some { rule := 0 } ∧ ruleLegal (s.core 0) 0 = true := by decide

theorem witness_step_event :
    ({ State.reset with agenda := [.event (.t4 0)] } : State).powerOff = false ∧ encode (.t4 0) = none ∧
    ({ State.reset with agenda := [.tick 5] } : State).agenda = .tick 5 :: [] ∧
    (∃ i, decodePump 0xC008000000000002 = .ok i) ∧ (∃ e, decodePump 0xFF00000000000000 = .error e) :=
  ⟨by decide, by decide, by decide, ⟨.sysr ⟨none⟩ 2 2, by decide⟩, ⟨.unassigned, by decide⟩⟩

theorem witness_step_triggers : kfind ({ State.reset with triggers := [(0, { kind := 1 })] } : State).triggers 0 = some { kind := 1 } := rfl

theorem witness_StepKeepsMemories : memOk { State.reset with agenda := [.tick 5] } = true ∧
    ∃ t, step { State.reset with agenda := [.tick 5] } = .next t := ⟨by decide, _, rfl⟩

theorem witness_StepsAnswer :
    State.reset.powerOff = false ∧
    (let s : State := { State.reset with powerOff := true, agenda := [.tick 5] }
     s.powerOff = true ∧ (nextWork s).1.any Work.isBoot = false) ∧
    (let s : State := { State.reset with powerOff := true }
     s.powerOff = true ∧ (nextWork s).1.any Work.isBoot = true) := by decide

/-! ### Worked values of the spec

Each result is one that the spec prints; each comment names where. -/

/-- 02_numbers.md, the table of IX4 decoding examples. -/
theorem test_ix4_pairs :
    (decodePairByte 0x3F).1 = .fin true 1 0 ∧ (decodePairByte 0x3F).2 = .fin false 3 0 ∧
    (encodeF32 (decodePairByte 0x38).1).1 = 0x3F800000 ∧ (decodePairByte 0x38).2 = .zero ∧
    (decodePairByte 0x83).1 = .zero ∧ (encodeF32 (decodePairByte 0x83).2).1 = 0x3F800000 ∧
    (encodeF32 (decodePairByte 0x78).1).1 = 0x43800000 ∧ (encodeF32 (decodePairByte 0xF8).1).1 = 0xC3800000 ∧
    (encodeF32 (decodePairByte 0x08).1).1 = 0x3C800000 ∧ (encodeF32 (decodePairByte 0x88).1).1 = 0xBC800000 := by decide

/-- 02_numbers.md, the worked sum: 2^100, then 1.0, then -2^100 into an XADD word leaves VAL = 2^96, which reads as 1.0. -/
theorem test_xadd_worked :
    let w := xaddWord (xaddWord (xaddWord 0 (.fin false 1 100)) (.fin false 1 0)) (.fin true 1 100)
    w = 2 ^ 96 ∧ (xaddRead .fp32 w).1 = 0x3F800000 := by decide

set_option maxRecDepth 20000 in
/-- 08_vector.md, the worked VQNT: codes, scale, flags and counts. -/
theorem test_vqnt_worked :
    let r := Lanes.quantize .e4m3 .rne (fun _ => 0)
      ([0x4040, 0xC2C8, 0x3980, 0x3EC0].map (decodeLane .bf16) ++ List.replicate 28 .zero)
    r.1 = 0x3C00FC54 ∧ r.2.1 = 0x7F7D ∧ r.2.2.ftz = 1 ∧ r.2.2.sat = 0 := by decide

/-- 01_machine.md, the worked coordinate: element 13 of 2.07.11 in a region whose origin is 2.04.08 reads 0x63D. -/
theorem test_coordinate_worked :
    coordOf { State.reset with regions := [(0, { region0 with die := 2, col := 4, row := 8, width := 4, height := 4 })]
                               fused := Vector.replicate 4 (BitVec.ofNat 384 (2 ^ 384 - 1)) } (siteKey 2 7 11) 13 = 0x63D := by decide

/-- 12_pump_system.md, the worked route: 1.05.03 absent, from 1.04.03 by +2 and +1; the yx path is taken. -/
theorem test_route_worked :
    let s : State := { State.reset with fused := Vector.replicate 4 (BitVec.ofNat 384 (2 ^ 384 - 1 - 2 ^ (3 * 24 + 5))) }
    routeTurn s (siteKey 1 4 3) 2 1 false = some true ∧ routeField 2 1 true = 0x08300000 := by decide

/-- A rule of a class that is always enabled. -/
def ruleOf (cls : Nat) : W64 × W64 := (0, BitVec.ofNat 64 (cls * 2 ^ 30 + 1))

set_option maxRecDepth 20000 in
/-- 03_rules.md, the worked selection: class pointer 1 at 10; rules 1, 12, 7, 30 are selected in that order, as 20 meets 12 and 3 meets 1. -/
theorem test_selection_worked :
    let rs := [(1, 0), (3, 1), (7, 1), (12, 1), (20, 1), (30, 2)]
    let c : Core := { coreOf { rule := 0 } with
      rules := Vector.ofFn fun j : Fin 64 => match rs.find? fun p => p.1 == j.val with
        | some p => ruleOf p.2
        | none => (0, 0)
      matrix := (((Vector.replicate 64 0).set 12 (BitVec.ofNat 64 (2 ^ 20))).set 20 (BitVec.ofNat 64 (2 ^ 12))).set 1 (BitVec.ofNat 64 (2 ^ 3))
      cptr := #v[0, 10, 0, 0] }
    selectRules c 0 = [1, 12, 7, 30] := by decide

/-- 07_scalar.md's encoding of MOVI x5, 0x12, R44 and R46, by the placed word: it fires as the first instruction after reset, for one charge. -/
theorem test_placed_rule :
    (match step (State.reset.withFetchWord 64 0x8000000E80140012) with
      | .next s => some ((s.tile 0).balance, (s.elem 0 0).core.x[5])
      | _ => none) = some (4095, 0x12) := by decide

/-- 07_scalar.md's encoding of MOVK g9, 0xBEEF into field 2, run as the first instruction after reset. -/
theorem test_placed_body :
    (match step (State.reset.withFetchWord 64 0x232400000002BEEF) with
      | .next s => (s.core 0).lanes.map Lane.g
      | _ => []) = [[(9, 0xBEEF00000000)]] := by decide

/-- R127, the table of division results at 32 bits (before the extension to 64). -/
theorem test_division_table :
    Alu.divS 32 7 0xFFFFFFFE = 0xFFFFFFFD ∧ Alu.remS false 32 7 0xFFFFFFFE = 1 ∧ Alu.remS false 32 0xFFFFFFF9 2 = 0xFFFFFFFF ∧
    Alu.divS 32 9 0 = 0 ∧ Alu.remS false 32 9 0 = 9 ∧ Alu.divS 32 0x80000000 0xFFFFFFFF = 0x80000000 ∧
    Alu.divN 32 0xFFFFFFFF 2 = 0x7FFFFFFF := by decide

end Sys2Proof.Tests
end

section
/-! The rules of the links: what setting a link's record, changing its STATE, dropping and holding flits do to the
records of the links (R333 to R335). -/

namespace Sys2Proof.Machine

/-- The later of two values put at one key is the one that stays. -/
theorem kput_kput_same {α : Type} (m : KMap α) (k : Nat) (a b : α) : kput (kput m k a) k b = kput m k b := by
  induction m with
  | nil => simp [kput]
  | cons e m ih =>
    obtain ⟨j, c⟩ := e
    rcases Nat.lt_trichotomy k j with h | h | h
    · simp [kput, h]
    · simp [kput, h]
    · have hlt : ¬ k < j := by omega
      have hne : k ≠ j := by omega
      simp [kput, hlt, hne, ih]

/-! ### The record of a link -/

@[simp] theorem State.link_setLink_same (s : State) (k : Nat) (l : Link) : (s.setLink k l).link k = l :=
  kget_kput_same ..

theorem State.link_setLink_other (s : State) {k j : Nat} (l : Link) (h : j ≠ k) : (s.setLink k l).link j = s.link j :=
  kget_kput_other _ _ _ h

@[simp] theorem State.setLink_setLink_same (s : State) (k : Nat) (a b : Link) :
    (s.setLink k a).setLink k b = s.setLink k b :=
  congrArg (fun m => { s with links := m }) (kput_kput_same s.links k a b)

@[simp] theorem link_sendMsix (s : State) (v k : Nat) : (sendMsix s v).link k = s.link k := by
  unfold sendMsix
  split
  · rfl
  · dsimp only
    split <;> rfl

@[simp] theorem link_drawNat (s : State) (k : Nat) : (drawNat s).2.link k = s.link k := rfl

theorem Link.carries_iff (l : Link) : l.carries = true ↔ l.state = .up ∨ l.state = .degraded := by
  simp [Link.carries]

/-! ### STATE -/

theorem setLinkState_of_eq {s : State} {k : Nat} {st : LinkState} (h : (s.link k).state = st) :
    setLinkState s k st = s := by
  simp [setLinkState, h]

theorem setLinkState_of_ne {s : State} {k : Nat} {st : LinkState} (h : (s.link k).state ≠ st) :
    setLinkState s k st = sendMsix (s.setLink k { s.link k with
      state := st, lanes := if st == .up || st == .degraded then (s.link k).lanes else 0 }) 69 := by
  simp [setLinkState, h]

@[simp] theorem setLinkState_state (s : State) (k : Nat) (st : LinkState) :
    ((setLinkState s k st).link k).state = st := by
  by_cases h : (s.link k).state = st
  · rw [setLinkState_of_eq h, h]
  · simp [setLinkState_of_ne h]

@[simp] theorem setLinkState_held (s : State) (k : Nat) (st : LinkState) :
    ((setLinkState s k st).link k).held = (s.link k).held := by
  by_cases h : (s.link k).state = st
  · rw [setLinkState_of_eq h]
  · simp [setLinkState_of_ne h]

@[simp] theorem setLinkState_en (s : State) (k : Nat) (st : LinkState) :
    ((setLinkState s k st).link k).en = (s.link k).en := by
  by_cases h : (s.link k).state = st
  · rw [setLinkState_of_eq h]
  · simp [setLinkState_of_ne h]

theorem setLinkState_link_other (s : State) {k j : Nat} (st : LinkState) (hj : j ≠ k) :
    (setLinkState s k st).link j = s.link j := by
  by_cases h : (s.link k).state = st
  · rw [setLinkState_of_eq h]
  · simp [setLinkState_of_ne h, State.link_setLink_other _ _ hj]

/-- A STATE that changes is a record set, and vector 69 (R337). -/
theorem setLinkState_reports {s : State} {k : Nat} {st : LinkState} (h : (s.link k).state ≠ st) :
    setLinkState s k st = sendMsix (s.setLink k ((setLinkState s k st).link k)) 69 := by
  simp [setLinkState_of_ne h]

theorem retrainLink_of_failed {s : State} {k : Nat} (h : (s.link k).state = .failed) :
    retrainLink s k = setLinkState s k .training := by
  simp [retrainLink, h]

theorem retrainLink_of_ne {s : State} {k : Nat} (h : (s.link k).state ≠ .failed) : retrainLink s k = s := by
  simp [retrainLink, h]

theorem setLinkEnable_off (s : State) (k : Nat) :
    setLinkEnable s k false = endLink (s.setLink k { s.link k with en := false }) k .down := rfl

theorem setLinkEnable_on_of_down {s : State} {k : Nat} (h : (s.link k).state = .down) :
    setLinkEnable s k true = setLinkState (s.setLink k { s.link k with en := true }) k .training := by
  simp [setLinkEnable, h]

theorem setLinkEnable_on_of_ne {s : State} {k : Nat} (h : (s.link k).state ≠ .down) :
    setLinkEnable s k true = s.setLink k { s.link k with en := true } := by
  simp [setLinkEnable, h]

/-! ### Flits held and dropped -/

/-- Whether a link takes a flit: it carries it now, or holds it over its training (R320, R334). -/
def Link.takes (l : Link) : Bool := l.carries || l.state == .training

theorem Link.takes_iff (l : Link) : l.takes = true ↔ l.carries = true ∨ l.state = .training := by
  simp [Link.takes]

/-- The guard of a flit that leaves: its route is a Griral link, and that link takes it. -/
theorem leaves_of_takes {k : Nat} {l : Link} (hk : k ≤ 12) (ht : l.takes = true) : (decide (k ≤ 12) && l.takes) = true := by
  simp [hk, ht]

theorem not_leaves {k : Nat} {l : Link} (h : 12 < k ∨ ¬ l.takes = true) : ¬ (decide (k ≤ 12) && l.takes) = true := by
  rcases h with h | h <;> simp [h]

theorem passFlit_taken {s : State} {f : Flit} (hk : routeLink s f.dst ≤ 12)
    (ht : (s.link (routeLink s f.dst)).takes = true) : passFlit s f = holdFlit s (routeLink s f.dst) f :=
  if_pos (leaves_of_takes hk ht)

theorem passFlit_dropped {s : State} {f : Flit}
    (h : 12 < routeLink s f.dst ∨ ¬ (s.link (routeLink s f.dst)).takes = true) :
    passFlit s f = dropFlits s (routeLink s f.dst) 1 :=
  if_neg (not_leaves h)

theorem forwardFlit_taken {s : State} {f : Flit} (hk : routeLink s f.dst ≤ 12)
    (ht : (s.link (routeLink s f.dst)).takes = true) : forwardFlit s f = holdFlit s (routeLink s f.dst) f :=
  if_pos (leaves_of_takes hk ht)

theorem forwardFlit_discarded {s : State} {f : Flit}
    (h : 12 < routeLink s f.dst ∨ ¬ (s.link (routeLink s f.dst)).takes = true) :
    forwardFlit s f = discardFlit (routeLink s f.dst) s f :=
  if_neg (not_leaves h)

/-! ### A link that is at its end keeps nothing -/

/-- A link that neither carries nor trains, and holds no flit. -/
def LinkEnded (k : Nat) (st : LinkState) (s : State) : Prop :=
  (s.link k).takes = false ∧ (s.link k).state = st ∧ (s.link k).held = []

theorem linkEnded_dropFlits {s : State} {k : Nat} {st : LinkState} (h : LinkEnded k st s) (j n : Nat) :
    LinkEnded k st (dropFlits s j n) := by
  by_cases hj : k = j
  · subst hj
    simpa [LinkEnded, dropFlits, Link.takes, Link.carries] using h
  · simpa [LinkEnded, dropFlits, State.link_setLink_other _ _ hj] using h

/-- A flit that passes is held by a link that takes it, hence not by one that has ended. -/
theorem linkEnded_passFlit {s : State} {k : Nat} {st : LinkState} (h : LinkEnded k st s) (f : Flit) :
    LinkEnded k st (passFlit s f) := by
  by_cases hc : routeLink s f.dst ≤ 12 ∧ (s.link (routeLink s f.dst)).takes = true
  · obtain ⟨hk, ht⟩ := hc
    obtain ⟨hno, -⟩ := id h
    have hne : k ≠ routeLink s f.dst := by
      rintro rfl
      exact absurd ht (by simp [hno])
    rw [passFlit_taken hk ht]
    simpa [LinkEnded, holdFlit, State.link_setLink_other _ _ hne] using h
  · rw [passFlit_dropped ((not_and_or.mp hc).imp_left Nat.lt_of_not_le)]
    exact linkEnded_dropFlits h ..

theorem linkEnded_discardFlit {s : State} {k : Nat} {st : LinkState} (h : LinkEnded k st s) (j : Nat) (f : Flit) :
    LinkEnded k st (discardFlit j s f) := by
  have hd : LinkEnded k st (dropFlits s j 1) := linkEnded_dropFlits h j 1
  have refuse (id : Nat) : LinkEnded k st (if f.src = thisModule then answerRemote (dropFlits s j 1) id [] 6
      else sendOrDrop (dropFlits s j 1) f.src (.loadReply id [] 6)) := by
    split
    · exact hd
    · exact linkEnded_passFlit hd _
  unfold discardFlit
  cases f.body with
  | load _ _ id => exact refuse id
  | atomic _ _ _ _ id _ _ => exact refuse id
  | waitv _ id => exact refuse id
  | loadReply _ _ _ => exact hd
  | store _ _ => exact hd
  | tail _ _ => exact hd
  | arrival _ _ => exact hd
  | completion _ _ _ _ => exact hd

theorem linkEnded_foldl_discardFlit {k j : Nat} {st : LinkState} (fs : List Flit) {s : State} (h : LinkEnded k st s) :
    LinkEnded k st (fs.foldl (discardFlit j) s) := by
  induction fs generalizing s with
  | nil => exact h
  | cons f fs ih => exact ih (linkEnded_discardFlit h j f)

/-- A link that becomes FAILED or DOWN is in that STATE and holds nothing once its flits are discarded (R334). -/
theorem linkEnded_endLink (s : State) (k : Nat) {st : LinkState} (h : st = .failed ∨ st = .down) :
    LinkEnded k st (endLink s k st) := by
  refine linkEnded_foldl_discardFlit _ ⟨?_, by simp, by simp⟩
  rcases h with rfl | rfl <;> simp [Link.takes, Link.carries]

theorem discardFlit_store {k : Nat} {s : State} {f : Flit} (h : ∃ pa bs, f.body = .store pa bs) :
    discardFlit k s f = dropFlits s k 1 := by
  obtain ⟨pa, bs, hb⟩ := h
  simp [discardFlit, hb]

/-! ### What a flit for this module does (R340) -/

section

variable (s : State) (src dst : Nat)

theorem takeFlit_load {pa : Nat} (len id : Nat) (h : (placeOf pa).isMemory = true) :
    takeFlit s ⟨src, dst, .load pa len id⟩ = sendOrDrop s src (.loadReply id (s.mem.reads (localPa pa) len) 0) :=
  if_pos h

theorem takeFlit_store {pa : Nat} (bs : List Byte) (h : (placeOf pa).isMemory = true) :
    takeFlit s ⟨src, dst, .store pa bs⟩ = memStore s pa bs none := if_pos h

theorem takeFlit_loadReply (id : Nat) (bs : List Byte) (f : Nat) : takeFlit s ⟨src, dst, .loadReply id bs f⟩ =
    { s with remotes := s.remotes.map fun r => if r.id = id then { r with answer := some (bs, f) } else r } := rfl

theorem takeFlit_tail (q : Nat) (i : BitVec 64) :
    takeFlit s ⟨src, dst, .tail q i⟩ = tailWrite s (.module src) q i.toNat := rfl

theorem takeFlit_arrival (c b : Nat) : takeFlit s ⟨src, dst, .arrival c b⟩ =
    s.setBarrier (c * 32 + b) { s.barrier (c * 32 + b) with inbox := (s.barrier (c * 32 + b)).inbox ++ [(none, src)] } := rfl

theorem takeFlit_completion (c b by_ n : Nat) :
    takeFlit s ⟨src, dst, .completion c b by_ n⟩ = toldComplete s (c * 32 + b) by_ n := rfl

theorem takeFlit_waitv (pa id : Nat) :
    takeFlit s ⟨src, dst, .waitv pa id⟩ = sendOrDrop s src (.loadReply id [] 2) := rfl

end

/-! ### The steps of a link -/

theorem execLinkTrained_trains {s : State} {k n : Nat} {st : LinkState} (hk : k ≤ 16)
    (ht : (s.link k).state = .training) (hn : trainedTo k n = some st) :
    execLinkTrained k n s = .next (setLinkState ((drawNat s).2.setLink k { s.link k with
      lanes := n, retry := min (2 ^ 32 - 1) ((s.link k).retry + (s.link k).held.length)
      peer := if 1 ≤ k ∧ k ≤ 12 then BitVec.ofNat 6 (drawNat s).1 else (s.link k).peer }) k st) := by
  have hc : ¬ (16 < k ∨ (s.link k).state ≠ .training) := by simp [ht]; omega
  simp only [execLinkTrained, hn, if_neg hc, isGriral, Bool.and_eq_true, decide_eq_true_eq, link_drawNat]

theorem execLinkTrained_idle {s : State} {k n : Nat} (h : trainedTo k n = none ∨ (s.link k).state ≠ .training) :
    execLinkTrained k n s = .next s := by
  unfold execLinkTrained
  cases hn : trainedTo k n with
  | none => rfl
  | some st =>
    have ht : (s.link k).state ≠ .training := h.resolve_left (by simp [hn])
    exact if_pos (.inr ht)

theorem countResent_eq (s : State) (k : Nat) : countResent s k = (drawNat s).2.setLink k { s.link k with
    retry := min (2 ^ 32 - 1) ((s.link k).retry + (drawNat s).1) } := rfl

theorem execLinkLaneLoss_idle {s : State} {k : Nat} {lane : Bool} (h : ¬ (s.link k).carries = true) :
    execLinkLaneLoss k lane s = .next s := by
  simp [execLinkLaneLoss, h]

theorem execFlitAck_acks {s : State} {k n : Nat} (hg : isGriral k = true) (hc : (s.link k).carries = true) (hn : 0 < n)
    (hh : (s.link k).held ≠ []) : execFlitAck k n s = .next ((drawNat s).2.setLink k { s.link k with
      retry := min (2 ^ 32 - 1) ((s.link k).retry + (drawNat s).1), held := (s.link k).held.drop n }) := by
  have hb : (isGriral k && (s.link k).carries && decide (0 < n) && !(s.link k).held.isEmpty) = true := by
    simp [hg, hc, hn, hh]
  simp only [execFlitAck, hb, if_true, countResent_eq, State.link_setLink_same, State.setLink_setLink_same]

theorem execFlitAck_idle {s : State} {k n : Nat}
    (h : isGriral k = false ∨ (s.link k).carries = false ∨ n = 0 ∨ (s.link k).held = []) :
    execFlitAck k n s = .next s := by
  refine if_neg ?_
  rcases h with h | h | h | h <;> simp [h]

theorem execFlitReceive_received {s : State} {k : Nat} {f : Flit} (hg : isGriral k = true)
    (hc : (s.link k).carries = true) :
    execFlitReceive k f s = .next (if f.dst = thisModule then takeFlit s f else forwardFlit s f) :=
  if_pos (by simp [hg, hc])

theorem execFlitReceive_idle {s : State} {k : Nat} {f : Flit} (h : isGriral k = false ∨ (s.link k).carries = false) :
    execFlitReceive k f s = .next s := by
  refine if_neg ?_
  rcases h with h | h <;> simp [h]

theorem isGriral_iff (k : Nat) : isGriral k = true ↔ 1 ≤ k ∧ k ≤ 12 := by simp [isGriral]

theorem isGriral_eq_false {k : Nat} (h : k = 0 ∨ 12 < k) : isGriral k = false := by
  simp [isGriral]; omega

theorem deadRoute_iff (s : State) (m : Nat) :
    deadRoute s m = true ↔ 12 < routeLink s m ∨ (s.link (routeLink s m)).carries = false := by
  simp [deadRoute]

end Sys2Proof.Machine
end
section
/-! The rules of the host port: which accesses of MMIO are formed, what they read and write, and what a host
reaches (R2, R219, R336, R394). -/

namespace Sys2Proof.Machine

/-! ### Reads and writes of MMIO -/

theorem mmioRead_unmapped {s : State} {off len : Nat} (h : regAt (off / 8 * 8) = none) : mmioRead s off len = none := by
  simp [mmioRead, h]

theorem mmioRead_mapped {s : State} {off len : Nat} {r : MReg} (ha : accessOk off len = true)
    (hr : regAt (off / 8 * 8) = some r) :
    mmioRead s off len = some (readReg s r / 2 ^ (8 * (off % 8)) % 2 ^ (8 * len),
      if off % 8 = 0 then clearReg s r else s) := by
  simp [mmioRead, ha, hr, bits]

theorem mmioWrite_dropped {s : State} {off len v : Nat} (h : accessOk off len = false ∨ regAt (off / 8 * 8) = none) :
    mmioWrite s off len v = s := by
  rcases h with h | h <;> simp [mmioWrite, h]

theorem mmioWrite_whole {s : State} {off v : Nat} {r : MReg} (ho : off % 8 = 0) (hr : regAt off = some r)
    (hv : v < 2 ^ 64) : mmioWrite s off 8 v = writeReg s r v := by
  have ha : accessOk off 8 = true := by simp [accessOk, ho]
  have h8 : off / 8 * 8 = off := by omega
  simp only [mmioWrite, ha, h8, hr, Bool.not_true, Bool.false_eq_true, if_false, if_true, Nat.mod_eq_of_lt hv]

/-! ### The map of R336 -/

theorem regAt_ctx {c o : Nat} (hc : c < 64) (ho : o < 0x30) : regAt (0x1000 * c + o) = some (.ctx c o) := by
  have hq : (0x1000 * c + o) / 0x1000 = c := by omega
  have hm : (0x1000 * c + o) % 0x1000 = o := by omega
  rw [regAt, if_pos (by omega), hq, hm, if_pos ho]

theorem regAt_queue {q o : Nat} (hq : q < 1024) (ho : o < 0x40) :
    regAt (0x40000 + 0x40 * q + o) = some (.queue q o) := by
  have hd : (0x40000 + 0x40 * q + o - 0x40000) / 0x40 = q := by omega
  have hm : (0x40000 + 0x40 * q + o) % 0x40 = o := by omega
  rw [regAt, if_neg (by omega), if_pos (by omega), hd, hm]

theorem regAt_link {k o : Nat} (hk : k ≤ 16) (ho : o < 0x20) :
    regAt (0x51000 + 0x40 * k + o) = some (.link k o) := by
  have hd : (0x51000 + 0x40 * k + o - 0x51000) / 0x40 = k := by omega
  have hm : (0x51000 + 0x40 * k + o) % 0x40 = o := by omega
  rw [regAt, if_neg (by omega), if_neg (by omega), if_neg (by omega), if_pos (by omega), hd, hm, if_pos ho]

theorem setLinkReg_lctl (s : State) (k v : Nat) :
    setLinkReg s k 0x08 v = setLinkEnable (if v.testBit 1 then retrainLink s k else s) k (v.testBit 0) := by
  have hb : bits v 1 1 = 1 ↔ v.testBit 1 = true := by
    simp [bits, Nat.testBit_eq_decide_div_mod_eq]
  simp only [setLinkReg, if_true, hb]

theorem bits_zero (v n : Nat) : bits v 0 n = v % 2 ^ n := by simp [bits]

theorem writeReg_ctxCommand (s : State) (c v : Nat) :
    writeReg s (.ctx c 8) v = ctxCommand s c (CtxCmd.ofCode (v % 2 ^ 4)) := by
  rw [← bits_zero]
  rfl

theorem writeReg_queueCommand (s : State) (q v : Nat) :
    writeReg s (.queue q 0x30) v = queueCommand s q (v % 2 ^ 3) := by
  rw [← bits_zero]
  rfl

/-! ### What a host reaches -/

theorem hostReaches_ready {s : State} (h : s.bootstat.ready = true) (bar off len : Nat) :
    hostReaches s bar off len = true := by
  simp [hostReaches, h]

theorem hostReaches_bar0 {s : State} {off len : Nat} (h : s.bootstat.ready = true ∨ off / 8 * 8 = 0x71000)
    (ha : accessOk off len = true) : hostReaches s 0 off len = true := by
  rcases h with h | h <;> simp [hostReaches, h, ha]

theorem hostReaches_early {s : State} {bar off len : Nat} (h : s.bootstat.ready = false)
    (hn : ¬ (bar = 0 ∧ off / 8 * 8 = 0x71000 ∧ accessOk off len = true)) : hostReaches s bar off len = false := by
  simpa [hostReaches, h] using hn

theorem execHostRead_noLink {s : State} {bar off len : Nat} (h : (s.link 0).carries = false) :
    execHostRead bar off len s = .next s := by
  simp [execHostRead, h]

theorem execHostWrite_noLink {s : State} {bar off : Nat} {bs : List Byte} (h : (s.link 0).carries = false) :
    execHostWrite bar off bs s = .next s := by
  simp [execHostWrite, h]

/-- Past the two guards, a read is answered by the BAR it names. -/
theorem execHostRead_reached {s : State} {bar off len : Nat} (hc : (s.link 0).carries = true)
    (hr : hostReaches s bar off len = true) : execHostRead bar off len s =
      if bar = 0 then
        (mmioRead s off len).elim (.next (answerHost s .unsupported)) fun p => .next (answerHost p.2 (.read (byteList len p.1)))
      else if bar = 2 then .next (answerHost s ((bar2 off len).elim .unsupported fun pa => .read (s.mem.reads (localPa pa) len)))
      else .next (answerHost s .unsupported) := by
  simp only [execHostRead, hc, hr, Bool.not_true, Bool.false_eq_true, if_false]
  cases mmioRead s off len <;> cases bar2 off len <;> rfl

/-- Past the two guards, a write goes to the BAR it names. -/
theorem execHostWrite_reached {s : State} {bar off : Nat} {bs : List Byte} (hc : (s.link 0).carries = true)
    (hr : hostReaches s bar off bs.length = true) : execHostWrite bar off bs s =
      if bar = 0 then .next (mmioWrite s off bs.length (natOf bs))
      else if bar = 2 then .next ((bar2 off bs.length).elim s fun pa => memStore s pa bs none)
      else .next s := by
  simp only [execHostWrite, hc, hr, Bool.not_true, Bool.or_self, Bool.false_eq_true, if_false]
  cases bar2 off bs.length <;> rfl

end Sys2Proof.Machine
end

section
/-! Links, flits and the host port: the statements of O51. -/

namespace Sys2Proof.Machine

open Spec

theorem linkStates : LinkStates := by
  refine ⟨?absent, ?enable, ?retrain, ?stateChange, ?ended, ?width, ?trained, ?notTrained, ?trainingFail, ?laneLoss⟩
  case absent =>
    intro s k en hk
    have hn : ¬ k ≤ 16 := by omega
    simp [exec_linkEnable, exec_retrain, execLinkEnable, execRetrain, hn]
  case enable =>
    intro s k hk
    simp only [exec_linkEnable, execLinkEnable, if_pos hk]
    exact ⟨fun h => by rw [setLinkEnable_on_of_down h], fun h => by rw [setLinkEnable_on_of_ne h], by rw [setLinkEnable_off]⟩
  case retrain =>
    intro s k hk
    simp only [exec_retrain, execRetrain, if_pos hk]
    exact ⟨fun h => by rw [retrainLink_of_failed h], fun h => by rw [retrainLink_of_ne h]⟩
  case stateChange =>
    intro s k st
    exact ⟨setLinkState_state s k st, setLinkState_held s k st, setLinkState_en s k st,
      fun j hj => setLinkState_link_other s st hj, setLinkState_of_eq, setLinkState_reports⟩
  case ended =>
    intro s k st hst
    obtain ⟨-, hs, hh⟩ := linkEnded_endLink s k hst
    exact ⟨hs, hh⟩
  case width =>
    intro k n
    refine ⟨fun h0 => by simp [trainedTo, h0], fun h1 h2 => ?_, fun h => ?_⟩
    · have h0 : k ≠ 0 := by omega
      simp [trainedTo, h0, h2]
    · have h0 : k ≠ 0 := by omega
      have h2 : ¬ k ≤ 12 := by omega
      simp [trainedTo, h0, h2]
  case trained =>
    intro s k n st hk ht hn
    rw [exec_linkTrained]
    exact execLinkTrained_trains hk ht hn
  case notTrained =>
    intro s k n h
    rw [exec_linkTrained, execLinkTrained_idle h]
  case trainingFail =>
    intro s k
    simp only [exec_linkTrainingFail, execLinkTrainingFail, beq_iff_eq]
    exact ⟨fun h => by rw [if_pos h], fun h => by rw [if_neg h]⟩
  case laneLoss =>
    intro s k lane
    simp only [← Link.carries_iff, exec_linkLaneLoss]
    refine ⟨fun hu hl => ?_, fun hu hl => ?_, execLinkLaneLoss_idle⟩
    · simp [execLinkLaneLoss, hu, hl]
    · simp [execLinkLaneLoss, hu, hl, countResent_eq]

theorem flits : Flits := by
  refine ⟨?ack, ?receive, ?noFlits, Link.carries_iff, fun s src dst _ len id => takeFlit_load s src dst len id,
    fun s src dst _ bs => takeFlit_store s src dst bs, takeFlit_loadReply, takeFlit_tail, takeFlit_arrival,
    takeFlit_completion, takeFlit_waitv, ?send, ?store, ?deadSpan, ?deadAddress, fun _ _ _ => discardFlit_store⟩
  case ack =>
    intro s k n h1 h12 hc
    have hg := (isGriral_iff k).mpr ⟨h1, h12⟩
    simp only [exec_flitAck]
    exact ⟨execFlitAck_acks hg hc, fun h => execFlitAck_idle (.inr (.inr h))⟩
  case receive =>
    intro s k f h1 h12 hc
    simp only [exec_flitReceive, execFlitReceive_received ((isGriral_iff k).mpr ⟨h1, h12⟩) hc, ← Link.takes_iff]
    refine ⟨fun hd => by rw [if_pos hd], fun hd => ⟨fun hk ht => ?_, fun h => ?_⟩⟩
    · rw [if_neg hd, forwardFlit_taken hk ht, holdFlit]
    · rw [if_neg hd, forwardFlit_discarded h]
  case noFlits =>
    intro s k n f h
    have hi : isGriral k = false ∨ (s.link k).carries = false := by
      rcases h with h | h | h
      · exact .inl (isGriral_eq_false (.inl h))
      · exact .inl (isGriral_eq_false (.inr h))
      · exact .inr h
    rw [exec_flitAck, exec_flitReceive, execFlitReceive_idle hi, execFlitAck_idle (hi.imp_right .inl)]
    exact ⟨rfl, rfl⟩
  case send =>
    intro s dst body
    simp only [← Link.takes_iff]
    exact ⟨passFlit_taken (f := ⟨_, dst, body⟩), passFlit_dropped (f := ⟨_, dst, body⟩)⟩
  case store =>
    intro s dst n pa bs
    exact ⟨fun h => by simp [sendStore, h], fun h => by simp [sendStore, h]⟩
  case deadSpan =>
    intro s ps va data f p h
    simp only [writeAny, h]
  case deadAddress =>
    intro s pa
    rw [deadPa, Bool.and_eq_true, deadRoute_iff]

theorem hostPort : HostPort := by
  refine ⟨fun _ _ _ _ => exec_registerWrite, ?noLink, ?beforeReady, ?readRegister, ?readMemory, ?write,
    fun _ _ _ _ => mmioWrite_dropped, fun _ _ _ _ => mmioWrite_whole, fun _ _ _ hc ho => regAt_ctx hc ho,
    fun _ _ hq ho _ => regAt_queue hq ho, fun _ _ hk ho _ => regAt_link hk ho, writeReg_ctxCommand,
    fun s q v => ⟨writeReg_queueCommand s q v, rfl⟩, fun _ _ _ => ⟨rfl, rfl⟩, setLinkReg_lctl⟩
  case noLink =>
    intro s bar off hc
    simp only [exec_hostRead, exec_hostWrite, execHostRead_noLink hc, execHostWrite_noLink hc, implies_true, and_self]
  case beforeReady =>
    intro s bar off len hc hb hn
    simp [exec_hostRead, execHostRead, hc, hostReaches_early hb hn, answerHost]
  case readRegister =>
    intro s off len hc hb ha
    simp only [exec_hostRead, execHostRead_reached hc (hostReaches_bar0 hb ha), if_true]
    refine ⟨fun r hr => ?_, fun hr => ?_⟩
    · rw [mmioRead_mapped ha hr]
      rfl
    · rw [mmioRead_unmapped hr]
      rfl
  case readMemory =>
    intro s off len hc hb
    simp only [exec_hostRead, execHostRead_reached hc (hostReaches_ready hb ..)]
    refine ⟨fun pa hp => by rw [hp]; rfl, fun hp => by rw [hp]; rfl, fun bar h0 h2 => ?_⟩
    rw [if_neg h0, if_neg h2, answerHost]
  case write =>
    intro s off bs hc hb
    simp only [exec_hostWrite, execHostWrite_reached hc (hostReaches_ready hb ..)]
    refine ⟨rfl, fun pa hp => by rw [hp]; rfl, fun hp => by rw [hp]; rfl, fun bar h0 h2 => ?_⟩
    rw [if_neg h0, if_neg h2]

/-- Settles O51, from its three parts: the states of the links, the flits, and the host port. -/
theorem linksAndHost : Obligations.LinksAndHost := ⟨linkStates, flits, hostPort⟩

end Sys2Proof.Machine
end

section
/-! The functions of R140 and the reductions of R37 and R141, lane by lane. -/

namespace Sys2Proof.Machine

open Spec

/-- Packing looks at the low w bits of every lane alone. -/
theorem pack_map_congr {α : Type} {w : Nat} {f g : α → Nat} {xs : List α} (h : ∀ x ∈ xs, f x % 2 ^ w = g x % 2 ^ w) :
    Lanes.pack w (xs.map f) = Lanes.pack w (xs.map g) := by
  induction xs with
  | nil => rfl
  | cons x xs ih =>
    simp only [List.map_cons, Lanes.pack, h x (by simp), ih fun y hy => h y (by simp [hy])]

/-- A lane of code `c` under a function of R140: its result encoded, or the free value of a lane that the enclosure does
not settle (log entry 14). -/
def functionLane (f : Num → Option Num) (op : Nat) (fmt : Fmt) (c : Nat) : Nat × Flags :=
  match f (decodeLane fmt c) with
  | some x => encodeLane fmt .rne 0 x
  | none => (Config.openLane op c, { inx := true })

theorem function_eq_functionLane (f : Num → Option Num) (op : Nat) (fmt : Fmt) (a : Nat) :
    Lanes.function f (Config.openLane op) fmt a =
      (Lanes.pack (laneWidth fmt) ((Lanes.codes fmt a).map fun c => (functionLane f op fmt c).1),
        .sum (((Lanes.codes fmt a).map fun c => (functionLane f op fmt c).2).map Conv.ofFlags)) := by
  simp only [Lanes.function, List.map_map, Function.comp_def]
  refine Prod.ext (pack_map_congr fun c _ => ?_) (congrArg Conv.sum (List.map_congr_left fun c _ => ?_))
  all_goals
    unfold functionLane
    cases f (decodeLane fmt c) <;> simp

/-- The codes of a register are its lanes. -/
theorem codes_eq {n : Nat} (fmt : Fmt) (x : BitVec n) :
    Lanes.codes fmt x.toNat = (List.range (Lanes.count fmt)).map fun k => (laneAt (laneWidth fmt) x k).toNat := by
  simp only [Lanes.codes, split_eq, laneAt_toNat]

/-- A rule whose entry is a function of R140 writes its lanes four fc late, with the events of all of them. -/
theorem firesLate_function {i : Instr} {s : State} {d : Dst} {fmt : Fmt} {a : Src} {f : Num → Option Num} {op : Nat}
    (he : exec i s = fire i 4 s (.ok (vectorFired d (Lanes.function f (Config.openLane op) fmt (readLanes s fmt a))))) :
    let r (k : Nat) := functionLane f op fmt (laneAt (laneWidth fmt) (srcV s fmt a) k).toNat
    FiresLate i s 4 (at256 d (vec 256 (laneWidth fmt) (Lanes.count fmt) fun k => (r k).1)) false
      (convs (Lanes.count fmt) fun k => (r k).2) := by
  refine firesLate_of he (by decide) ?writes rfl ?conv rfl rfl
  case writes => simp only [vectorFired, vectorRes_eq, function_eq_functionLane, readLanes_eq, codes_eq, vec_eq, List.map_map,
    Function.comp_def]
  case conv => simp only [vectorFired, function_eq_functionLane, readLanes_eq, codes_eq, ← convs_eq, List.map_map,
    Function.comp_def]

theorem vectorFunctions : VectorFunctions := by
  intro s g fmt d a
  dsimp only
  refine ⟨?vrcp, ?vrsq, ?vsqrt, ?vexp2, ?vlog2, ?vtanh⟩
  case vrcp => exact firesLate_function (f := some ∘ Num.recip) (op := 0x50) exec_vrcp
  case vrsq => exact firesLate_function (f := some ∘ Num.rsqrt) (op := 0x51) exec_vrsq
  case vsqrt => exact firesLate_function (f := some ∘ Num.sqrt) (op := 0x52) exec_vsqrt
  case vexp2 => exact firesLate_function (f := Num.exp2) (op := 0x53) exec_vexp2
  case vlog2 => exact firesLate_function (f := Num.log2) (op := 0x54) exec_vlog2
  case vtanh => exact firesLate_function (f := Num.tanh) (op := 0x55) exec_vtanh

/-- The numbers of an accumulator are its sixteen FP32 lanes. -/
theorem accValues_eq (x : BitVec 512) : Lanes.accValues x.toNat = (List.range 16).map (num .fp32 x) := by
  have h : num .fp32 x = fun k => decodeF32 (laneAt 32 x k).toNat := rfl
  simp only [h, Lanes.accValues, split_eq, laneAt_toNat, List.map_map, Function.comp_def]

theorem srcValues_eq (s : State) (fmt : Fmt) (a : Src) :
    srcValues s fmt a = (List.range (numsOf s fmt a).1).map (numsOf s fmt a).2 := by
  cases a
  case acc n => exact accValues_eq _
  all_goals exact (congrArg (Lanes.values fmt) (readLanes_eq s fmt _)).trans (values_eq fmt _)

theorem vectorReductions : VectorReductions := by
  refine ⟨fun s g kind fmt d a => ?_, fun s g fmt d a => ?_⟩
  · refine firesLate_of exec_vred (by decide) ?_ rfl ?_ rfl rfl <;> simp only [reduceFired, tokenRes_eq, srcValues_eq]
  · refine firesLate_of exec_vamax (by decide) ?_ rfl ?_ rfl rfl <;>
      simp only [reduceFired, tokenRes_eq, srcValues_eq, List.map_map, Function.comp_def]

/-- Settles O16, from its two parts: the functions of R140, and the reductions of R141. -/
theorem functionsAndReductions : Obligations.FunctionsAndReductions := ⟨vectorFunctions, vectorReductions⟩

end Sys2Proof.Machine
end

section
/-! The rules of an island's record: reading it back, writing it twice, and what taking in row tokens leaves (R43). -/

namespace Sys2Proof.Machine

@[simp] theorem State.setIsland_setIsland_same (s : State) (k : Nat) (x y : Island) :
    (s.setIsland k x).setIsland k y = s.setIsland k y :=
  congrArg (fun m => { s with islands := m }) (kput_kput_same s.islands k x y)

theorem modCore'_eq (s : State) (k : Nat) (f : IslandCore → IslandCore) :
    modCore' s k f = s.setIsland k { s.island k with core := f (s.island k).core } := rfl

@[simp] theorem Island.record_frozen (back : Bool) (f : Nat → IslandCore → IslandCore) (x : Island) :
    (x.record back f).frozen = x.frozen := by
  unfold Island.record
  cases back <;> cases x.snapNext <;> rfl

@[simp] theorem Island.takePort_frozen (back : Bool) (x : Island) (p : Nat) : (x.takePort back p).frozen = x.frozen := by
  simp only [Island.takePort, apply_ite Island.frozen, Island.record_frozen, ite_self]

@[simp] theorem Island.takeRows_frozen (back : Nat → Bool) (x : Island) : (x.takeRows back).frozen = x.frozen := by
  have h : ∀ (ps : List Nat) (y : Island), (ps.foldl (fun y p => y.takePort (back p) p) y).frozen = y.frozen := by
    intro ps
    induction ps with
    | nil => intro y; rfl
    | cons p ps ih => intro y; rw [List.foldl_cons, ih, Island.takePort_frozen]
  exact h _ x

/-! ### The two B buffers -/

@[simp] theorem buf_setBuf_same (c : IslandCore) (k : Nat) (b : BBuf) : buf (setBuf c k b) k = b := by
  unfold buf setBuf
  by_cases h : k = 0 <;> simp [h]

/-- Putting a buffer changes the two buffers alone. -/
theorem setBuf_keeps (c : IslandCore) (k : Nat) (b : BBuf) :
    setBuf c k b = { c with b0 := (setBuf c k b).b0, b1 := (setBuf c k b).b1 } := by
  unfold setBuf
  split <;> rfl

end Sys2Proof.Machine
end

section
/-! Commands and loads of an island (R190 to R193, R198, R199). -/

namespace Sys2Proof.Machine

open Spec

/-- The head command passes to its sequencer once what waits at the ports has been taken in (R190, R192). -/
theorem execIslandCommandStart_starts {s : State} {en : Nat} {q : Cmd} {rest : List Cmd}
    (hf : (s.island en).frozen = false) (hg : (takenIn s en).core.group = none)
    (hq : (takenIn s en).core.queue = q :: rest) (hc : canStart (takenIn s en).core q = true)
    (ho : islandOp q.op = true) (hcfg : (takenIn s en).core.cfg ≠ none ∨ q.op = 0xC0) :
    execIslandCommandStart en s = .next (s.setIsland en { takenIn s en with
      core := startCommand (takenIn s en).core q, thr := if q.op = 0xC0 then false else (takenIn s en).thr }) := by
  have ht : ((s.island en).intake (islandBack s en 8) (s.island en).fifo.length).takeRows (islandBack s en) =
    takenIn s en := rfl
  have hs : ((takenIn s en).core.cfg.isSome || q.op == 0xC0) = true := by
    simpa [Option.isSome_iff_ne_none] using hcfg
  simp only [execIslandCommandStart, hf, State.modIsland, ht, State.island_setIsland_same, hg, hq, hc, ho, hs, modCore'_eq,
    Bool.false_eq_true, Bool.and_self, if_false, if_true]
  split <;> simp

/-! ### Commands passed to a sequencer -/

/-- The load of a command MXLDB (R193). -/
def loadOfCommand (q : Cmd) : LoadSeq :=
  { buf := q.bval % 2, descVa := q.aval, region := q.region, stroke := q.tok.stroke, serial := q.serial }

/-- A load that no rewind kept begins at row 0 of its buffer, which is LOADING. -/
theorem beginLoad_new {c : IslandCore} {l : LoadSeq}
    (h : ∀ k, c.kept = some k → ¬ (k.1.serial = l.serial ∧ k.1.sub = l.sub)) :
    beginLoad c l = setBuf { c with load := some l, brow := 0 } l.buf { st := .loading } := by
  unfold beginLoad
  cases hk : c.kept with
  | none => rfl
  | some k =>
    have hs : k.1.same l = false := by simpa [LoadSeq.same] using h k hk
    simp [hs]

/-- A load that a rewind kept goes on with the rows it has (R199). -/
theorem beginLoad_kept {c : IslandCore} {l m : LoadSeq} {b : BBuf} {n : Nat} (h : c.kept = some (m, b, n))
    (hs : m.serial = l.serial) (hb : m.sub = l.sub) :
    beginLoad c l = setBuf { c with load := some m, brow := n, kept := none } m.buf b := by
  have hm : m.same l = true := by simp [LoadSeq.same, hs, hb]
  simp [beginLoad, h, hm]

/-- A load at its start changes the load sequencer, BROW, the kept load and the two buffers alone. -/
theorem beginLoad_keeps (c : IslandCore) (l : LoadSeq) : beginLoad c l = { c with
    load := (beginLoad c l).load, brow := (beginLoad c l).brow, kept := (beginLoad c l).kept
    b0 := (beginLoad c l).b0, b1 := (beginLoad c l).b1 } := by
  unfold beginLoad
  cases c.kept with
  | none => dsimp only; rw [setBuf_keeps]
  | some k =>
    dsimp only
    split <;> rw [setBuf_keeps]

theorem startCommand_config {c : IslandCore} {q : Cmd} (h : q.op = 0xC0) : startCommand c q = { c with
    queue := c.queue.tail
    cfg := some (fmtOf (bits q.aval 0 4), fmtOf (bits q.aval 4 4), fmtOf (bits q.aval 8 4))
    b0 := {}, b1 := {}, fcode := 0, err := false } := by
  simp only [startCommand, h]

/-- What an MXLDB leaves for its load to begin with: a fault of its buffer cleared (R198). -/
def clearedFor (c : IslandCore) (q : Cmd) : IslandCore :=
  let c := { c with queue := c.queue.tail }
  if (buf c (q.bval % 2)).st = .faulted then { c with fcode := 0, fva := 0, err := false } else c

theorem startCommand_load {c : IslandCore} {q : Cmd} (h : q.op = 0xC1) :
    startCommand c q = beginLoad (clearedFor c q) (loadOfCommand q) := by
  simp only [startCommand, h]
  rfl

@[simp] theorem clearedFor_queue (c : IslandCore) (q : Cmd) : (clearedFor c q).queue = c.queue.tail := by
  simp only [clearedFor, apply_ite IslandCore.queue, ite_self]

@[simp] theorem clearedFor_kept (c : IslandCore) (q : Cmd) : (clearedFor c q).kept = c.kept := by
  simp only [clearedFor, apply_ite IslandCore.kept, ite_self]

theorem clearedFor_faulted {c : IslandCore} {q : Cmd} (h : (buf c (q.bval % 2)).st = .faulted) :
    clearedFor c q = { c with queue := c.queue.tail, fcode := 0, fva := 0, err := false } := if_pos h

theorem startCommand_run {c : IslandCore} {q : Cmd} (h : q.op = 0xC2 ∨ q.op = 0xC3) : startCommand c q = { c with
    queue := c.queue.tail, arow := 0
    run := some ⟨q.op == 0xC3, bits q.aval 0 10, bits q.bval 0 11, bits q.bval 16 8, bits q.aval 10 1, 0, q.region⟩ } := by
  rcases h with h | h <;> simp [startCommand, h]

theorem startCommand_drain {c : IslandCore} {q : Cmd} (h : q.op = 0xC4) : startCommand c q = { c with
    queue := c.queue.tail, drow := 0
    drain := some { base := bits q.aval 0 10, count := bits q.bval 0 11, region := q.region } } := by
  simp only [startCommand, h]

theorem startCommand_group {c : IslandCore} {q : Cmd} (h : q.op = 0xC5) : startCommand c q = { c with
    queue := c.queue.tail
    group := some { va := q.aval, region := q.region, stroke := q.tok.stroke, serial := q.serial } } := by
  simp only [startCommand, h]

theorem startCommand_queue (c : IslandCore) (q : Cmd) : (startCommand c q).queue = c.queue.tail := by
  unfold startCommand
  split
  case h_2 =>
    rw [beginLoad_keeps]
    exact clearedFor_queue c q
  all_goals rfl

/-- What an MXLDB leaves (R193, R198, R199). -/
theorem startCommand_load_leaves {c : IslandCore} {q : Cmd} (h : q.op = 0xC1) :
    let d := startCommand c q
    ((buf c (q.bval % 2)).st = .faulted → d.fcode = 0 ∧ d.fva = 0 ∧ d.err = false) ∧
    ((∀ k, c.kept = some k → ¬ (k.1.serial = q.serial ∧ k.1.sub = 0)) →
      d.brow = 0 ∧ (buf d (q.bval % 2)).st = .loading ∧ d.load = some (loadOfCommand q)) ∧
    (∀ m b n, c.kept = some (m, b, n) → m.serial = q.serial → m.sub = 0 →
      d.load = some m ∧ d.brow = n ∧ buf d m.buf = b ∧ d.kept = none) := by
  dsimp only
  rw [startCommand_load h]
  refine ⟨fun hf => ?faulted, fun hk => ?new, fun m b n hk hs hb => ?kept⟩
  case faulted => rw [beginLoad_keeps, clearedFor_faulted hf]; exact ⟨rfl, rfl, rfl⟩
  case new =>
    rw [beginLoad_new (by rw [clearedFor_kept]; exact hk)]
    exact ⟨by rw [setBuf_keeps], congrArg BBuf.st (buf_setBuf_same ..), by rw [setBuf_keeps]⟩
  case kept =>
    rw [beginLoad_kept ((clearedFor_kept c q).trans hk) hs hb]
    exact ⟨by rw [setBuf_keeps], by rw [setBuf_keeps], buf_setBuf_same .., by rw [setBuf_keeps]⟩

/-! ### Loads -/

/-- A load whose descriptor and scales are in takes its next row from memory (R193). -/
theorem loadStep_row {s u : State} {en : Nat} {l : LoadSeq} {af bf df : Fmt} {d bs : List Byte}
    (hl : (s.island en).core.load = some l) (hc : (s.island en).core.cfg = some (af, bf, df)) (hs : l.stopped = false)
    (hd : l.desc = some d) (hstream : bits (natOf d) 97 1 = 0)
    (hscales : bits (natOf d) 98 1 = 1 → bf ≠ .bf16 → (buf (s.island en).core l.buf).scales ≠ [])
    (hr : engRead s en (ctxOf s l.region) (bits (natOf d) 0 64 + (s.island en).core.brow * bits (natOf d) 64 32)
      (rowBytes bf) false = (.bytes bs, u)) :
    loadStep s en = .go (modCore' u en (takeRow bf l bs)) := by
  have hn : ¬ (bits (natOf d) 98 1 = 1 ∧ bf ≠ .bf16 ∧ (buf (s.island en).core l.buf).scales = []) :=
    fun ⟨h1, h2, h3⟩ => hscales h1 h2 h3
  simp [loadStep, hl, hc, hs, hd, if_neg hn, hstream, hr, readStep]

/-- What a row taken into its buffer leaves; the 256th makes the buffer READY. -/
theorem takeRow_leaves (bf : Fmt) (l : LoadSeq) (row : List Byte) (c : IslandCore) :
    let d := takeRow bf l row c
    d.brow = c.brow + 1 ∧
    (buf d l.buf).rows = (buf c l.buf).rows ++ [BitVec.ofNat 4096 (unpackRow bf row)] ∧
    (c.brow = 255 → (buf d l.buf).st = .ready ∧ d.load = none) ∧
    (c.brow ≠ 255 → d.load = some { l with part := [] }) := by
  have hb : ∀ b e n, buf { setBuf c l.buf b with brow := n, load := e } l.buf = b := fun b _ _ => buf_setBuf_same c l.buf b
  refine ⟨by simp only [takeRow]; rw [setBuf_keeps], by simp only [takeRow, hb], fun h => ?last, fun h => ?more⟩
  case last => simp [takeRow, hb, h]
  case more => simp [takeRow, h]

/-- A fault that is serviced stops the load where it stands (R198, R315). -/
theorem execIslandFault_serviced {s : State} {en : Nat} {l : LoadSeq} {links : KMap Link} {code va : Nat}
    (hl : (s.island en).core.load = some l) (hs : loadStep s en = .fault links code va) (hc : code = 1 ∨ code = 2) :
    execIslandFault en s = .next (engPageFault (modCore' { s with links := links } en fun c => { c with
      load := some { l with stopped := true }, fcode := BitVec.ofNat 8 code, fva := BitVec.ofNat 64 va })
      en l.region code va false) := by
  simp only [execIslandFault, hl, hs, if_pos hc]

/-- Any other fault leaves the buffer FAULTED and ends the kernel (R198). -/
theorem execIslandFault_ends {s : State} {en : Nat} {l : LoadSeq} {links : KMap Link} {code va : Nat}
    (hl : (s.island en).core.load = some l) (hs : loadStep s en = .fault links code va) (h1 : code ≠ 1) (h2 : code ≠ 2)
    (h5 : code ≠ 5) :
    execIslandFault en s = .next (kernelFault (modCore' { s with links := links } en fun c =>
      { setBuf c l.buf { buf c l.buf with st := .faulted } with
        load := none, fcode := BitVec.ofNat 8 code, fva := BitVec.ofNat 64 va, err := true }) l.region (engErr en code 0)) := by
  have hi : (({ s with links := links } : State).island en).core.load = some l := hl
  simp only [execIslandFault, hl, hs, h1, h2, or_self, if_false, engStop, if_neg h5, failLoad, modCore'_eq, hi]

end Sys2Proof.Machine
end

section
/-! Rows of a run and of a drain (R35, R36, R194, R195, R213). -/

namespace Sys2Proof.Machine

open Spec

/-! ### Lanes of a packed register -/

theorem pack_lane {w : Nat} {xs : List Nat} {k : Nat} (h : k < xs.length) :
    Lanes.pack w xs / 2 ^ (w * k) % 2 ^ w = xs[k] % 2 ^ w := by
  induction xs generalizing k with
  | nil => simp at h
  | cons x xs ih =>
    have hp : 0 < 2 ^ w := by positivity
    cases k with
    | zero => simp [Lanes.pack, Nat.add_mul_mod_self_left]
    | succ k =>
      rw [Nat.mul_succ, Nat.add_comm (w * k), pow_add, ← Nat.div_div_eq_div_mul, Lanes.pack,
        Nat.add_mul_div_left _ _ hp, Nat.div_eq_of_lt (Nat.mod_lt _ hp), Nat.zero_add, List.getElem_cons_succ]
      exact ih (by simpa using h)

/-- Lane k of packed codes is code k. -/
theorem laneAt_pack {m w n : Nat} (f : Nat → Nat) {k : Nat} (hk : k < n) (hm : w * n ≤ m) :
    (laneAt w (BitVec.ofNat m (Lanes.pack w ((List.range n).map f))) k).toNat = f k % 2 ^ w := by
  have hlt : Lanes.pack w ((List.range n).map f) < 2 ^ m :=
    calc _ < 2 ^ (w * n) := by simpa using pack_lt w ((List.range n).map f)
      _ ≤ 2 ^ m := Nat.pow_le_pow_right (by decide) hm
  rw [laneAt_toNat, BitVec.toNat_ofNat, Nat.mod_eq_of_lt hlt, pack_lane (by simpa using hk)]
  simp

/-! ### The sums of a row -/

theorem signCode_fp32_le (neg : Bool) : signCode fp32Spec neg ≤ 2 ^ 31 := by cases neg <;> decide

/-- An FP32 code fits its lane. -/
theorem encodeF32_lt (x : Num) : (encodeF32 x).1 < 2 ^ 32 := by
  cases x with
  | nan => decide
  | inf neg => cases neg <;> decide
  | fin neg m e =>
    have h := signCode_fp32_le neg
    simp only [encodeF32, encodeFloat]
    split
    · dsimp only; omega
    · have hmax : fp32Spec.maxc = 0x7F7FFFFF := rfl
      simp only [decide_eq_true_eq, hmax]
      split <;> omega

theorem islandSum_lt (c : Nat) (t : Num) : (islandSum c t).1 < 2 ^ 32 := by
  simp only [islandSum]
  split
  · decide
  · exact encodeF32_lt _

/-- The last K block leaves an FP32 code. -/
theorem islandLane_lt (a b : Nat → Num) (e : Nat → Int) (c : Nat) : (islandLane a b e c).1 < 2 ^ 32 := by
  rw [islandLane, List.range_succ (n := 7), List.foldl_append, List.foldl_cons, List.foldl_nil]
  dsimp only
  exact islandSum_lt _ _

/-- A lane of a row is the sum of its eight K blocks in the spec's order. -/
theorem rowLane_eq (af : Fmt) (ax : Nat) (b : BBuf) (bf : Fmt) (as : List Num) (bs : List (List Num)) (n c : Nat) :
    rowLane af ax b bf as bs n c = islandLane (as.getD · .zero) (fun k => (bs.getD k []).getD n .zero)
      (fun kb => (if af = .bf16 then 0 else (ax : Int) - 127) + (scaleOf bf b kb n : Int) - 127) c := by
  simp only [rowLane, islandLane, List.foldl_map]
  rfl

/-- Whether a row of A carries a special operand or scale (R35). -/
def rowFlag (af : Fmt) (ax : Nat) (as : List Num) : Bool := as.any Num.special || (af != .bf16 && ax == 255)

/-- Lane n of the product of a row: its sum, or a free value where a special operand takes part (log entry 26). -/
def productLane (af bf : Fmt) (ax : Nat) (as : List Num) (b : BBuf) (junk : Nat) (c : CRow) (n : Nat) : Nat × Flags :=
  if rowFlag af ax as || laneSpecial bf b (tileValues bf b) n then
    (junk / 2 ^ (34 * n) % 2 ^ 32, { sat := (junk / 2 ^ (34 * n)).testBit 32, ftz := (junk / 2 ^ (34 * n)).testBit 33 })
  else rowLane af ax b bf as (tileValues bf b) n (laneAt 32 c.lanes n).toNat

/-- The product of a row, lane by lane. -/
theorem rowProduct_eq (af bf : Fmt) (ax : Nat) (as : List Num) (b : BBuf) (junk : Nat) (c : CRow) :
    let lane := productLane af bf ax as b junk c
    rowProduct af bf ax as b junk c =
      (⟨BitVec.ofNat 8192 (Lanes.pack 32 ((List.range 256).map fun n => (lane n).1)),
          c.pn || rowFlag af ax as || tileFlag bf b⟩,
        { ((List.range 256).map fun n => (lane n).2).foldl Flags.or {} with nan := false },
        (List.range 256).countP fun n => (lane n).2.sat, (List.range 256).countP fun n => (lane n).2.ftz) := by
  simp only [rowProduct, productLane, rowFlag, split_eq, mapIdx_range, laneAt_toNat, List.map_map,
    ← List.countP_eq_length_filter, List.countP_map, Function.comp_def]

/-- Where the tile has no special operand, no lane has one. -/
theorem laneSpecial_of_tileFlag {bf : Fmt} {b : BBuf} (h : tileFlag bf b = false) (n : Nat) :
    laneSpecial bf b (tileValues bf b) n = false := by
  obtain ⟨hv, hs⟩ := Bool.or_eq_false_iff.mp h
  simp only [List.any_eq_false, Bool.and_eq_false_imp, List.any_eq_true, not_exists, not_and] at hv hs
  simp only [laneSpecial, Bool.or_eq_false_iff, List.any_eq_false, Bool.and_eq_false_imp]
  refine ⟨fun r hr => ?value, fun hb kb _ => ?scale⟩
  case value =>
    rw [List.getD_eq_getElem?_getD]
    cases hn : r[n]? with
    | none => decide
    | some x => exact hv r hr x (List.mem_of_getElem? hn)
  case scale =>
    rw [scaleOf, if_neg (by simpa using hb), List.getD_eq_getElem?_getD]
    cases hn : b.scales[256 * kb + n]? with
    | none => decide
    | some x =>
      have hx : x ≠ 0xFF := by simpa using hs hb x (List.mem_of_getElem? hn)
      simpa [← BitVec.toNat_inj] using hx

/-- What the product of a row comes to (R35, R36): its pending NaN; the sum of every lane that no special operand takes part
in; and, where none takes part in any, the lanes that saturated and that flushed to zero. -/
theorem rowProduct_sums (af bf : Fmt) (ax : Nat) (as : List Num) (b : BBuf) (junk : Nat) (c : CRow) :
    let vs := tileValues bf b
    let p := rowProduct af bf ax as b junk c
    let sum (n : Nat) : Nat × Flags := islandLane (as.getD · .zero) (fun k => (vs.getD k []).getD n .zero)
      (fun kb => (if af = .bf16 then 0 else (ax : Int) - 127) + (scaleOf bf b kb n : Int) - 127) (laneAt 32 c.lanes n).toNat
    p.1.pn = (c.pn || rowFlag af ax as || tileFlag bf b) ∧
    (rowFlag af ax as = false → ∀ n, n < 256 → laneSpecial bf b vs n = false →
      (laneAt 32 p.1.lanes n).toNat = (sum n).1) ∧
    (rowFlag af ax as = false → tileFlag bf b = false → p.2.2.1 = (List.range 256).countP (fun n => (sum n).2.sat) ∧
      p.2.2.2 = (List.range 256).countP fun n => (sum n).2.ftz) := by
  intro vs p sum
  have hlane : ∀ n, rowFlag af ax as = false → laneSpecial bf b vs n = false →
      productLane af bf ax as b junk c n = sum n := by
    intro n hr hs
    simp only [vs] at hs
    simp only [productLane, hr, hs, Bool.or_self, Bool.false_eq_true, if_false, rowLane_eq, sum, vs]
  have hp := rowProduct_eq af bf ax as b junk c
  dsimp only at hp
  refine ⟨?pending, fun hr n hn hs => ?lanes, fun hr ht => ?counts⟩
  case pending => simp only [p, hp]
  case lanes =>
    simp only [p, hp]
    rw [laneAt_pack (fun n => (productLane af bf ax as b junk c n).1) hn (by decide), hlane n hr hs]
    exact Nat.mod_eq_of_lt (islandLane_lt ..)
  case counts =>
    have hall : productLane af bf ax as b junk c = sum := funext fun n => hlane n hr (laneSpecial_of_tileFlag ht n)
    simp only [p, hp, hall, and_self]

/-! ### Rows start -/

/-- The state of a row start once the tokens at the row ports are in the island's queue. -/
def rowsTaken (s : State) (en : Nat) : State := s.modIsland en (Island.takeRows (islandBack s en))

/-- A run whose row stands at the row ports and whose buffer is READY: the row is held back where the charge does not pay for
it (R190), and starts where it does and the context stays within its declared intensity (R194, R213). -/
theorem execIslandRowStart_ready {s : State} {en : Nat} {r : RunSeq} {af bf df : Fmt} (hf : (s.island en).frozen = false) :
    let u := rowsTaken s en
    let x := u.island en
    let cost := rowCost af (min (r.count - r.arow) (presentRows x af).length)
    let ctx := ctxOf u r.region
    x.core.run = some r → x.core.cfg = some (af, bf, df) → rowPresent x af = true → (buf x.core r.buf).st = .ready →
    (x.balance < cost.1 → execIslandRowStart en s = .next (markHeld u en)) ∧
    (cost.1 ≤ x.balance → ((islandsOf u ctx (en / 64)).map fun k => recentWork (kget u.s0fc (en / 64) 0) (u.island k)).sum +
        cost.2 ≤ intensity u ctx (en / 64) → x.thr = false →
      execIslandRowStart en s = .next (startRows u en r af bf)) := by
  dsimp only
  intro hr hc hp hb
  have hfr : ((rowsTaken s en).island en).frozen = false := by simp [rowsTaken, hf]
  have hready : ((buf ((rowsTaken s en).island en).core r.buf).st != .ready) = false := by simp [hb]
  have hs : (if (s.island en).frozen then s else s.modIsland en (Island.takeRows (islandBack s en))) = rowsTaken s en := by
    simp [hf, rowsTaken]
  simp only [execIslandRowStart, hs, hr, hc, hfr, hp, hready, Bool.not_true, Bool.or_self, Bool.false_eq_true, if_false]
  exact ⟨fun hlow => if_pos hlow, fun hpaid hbusy ht =>
    (if_neg (Nat.not_lt.mpr hpaid)).trans (if_pos ⟨hbusy, by simp [ht]⟩)⟩

/-! ### Rows drained -/

/-- The events that a drained row counts: those of its encodes, and those held for it since its sums (R194, R195). -/
def drainConv (s : State) (en : Nat) (d : DrainSeq) (df : Fmt) : Conv :=
  let x := s.island en
  let cv := (drainRow df (rowOf_ x (d.base + d.drow))).2.2
  { cv with
    sat := cv.sat + kget x.core.sats (d.base + d.drow) 0
    ftz := cv.ftz + kget x.core.ftzs (d.base + d.drow) 0 }

/-- The next tokens of a row on every port, the last with tag 1, and its events counted with the first (R195). -/
def drainSent (s : State) (en : Nat) (d : DrainSeq) (df : Fmt) : State :=
  let x := s.island en
  (drainTargets s en).foldl (fun s p => match p.2 with
    | .chan t _ _ => deliver s t ⟨drainToken df (drainRow df (rowOf_ x (d.base + d.drow))).1 p.1 d.part,
        if d.part + 1 = laneWidth df / 8 then 1 else 0, x.stroke⟩ p.2
    | _ => s) (if d.part = 0 then s.modRegion d.region fun q => q.addCounts x.stroke (drainConv s en d df) else s)

/-- A drain whose ports have room sends; after the last tokens of a row it goes on to the next row, or ends. -/
theorem execIslandDrainRow_sends {s : State} {en : Nat} {d : DrainSeq} {af bf df : Fmt}
    (hd : (s.island en).core.drain = some d) (hc : (s.island en).core.cfg = some (af, bf, df))
    (hf : (s.island en).frozen = false) (hfree : (drainTargets s en).all (fun p => targetFree s 1 p.2) = true)
    (ht : ∀ q, s.region d.region = some q → d.part = 0 → trips s q (s.island en).stroke (drainConv s en d df) = 0) :
    execIslandDrainRow en s = .next (if d.part + 1 = laneWidth df / 8
      then modCore' (drainSent s en d df) en fun c => { c with
        iconv := c.iconv ||| (drainRow df (rowOf_ (s.island en) (d.base + d.drow))).2.1.bits
        drow := d.drow + 1, sats := kdel c.sats (d.base + d.drow), ftzs := kdel c.ftzs (d.base + d.drow)
        drain := if d.drow + 1 = d.count then none else some { d with drow := d.drow + 1, part := 0 } }
      else modCore' (drainSent s en d df) en fun c => { c with drain := some { d with part := d.part + 1 } }) := by
  simp only [execIslandDrainRow, hd, hc, hf, hfree, Bool.not_true, Bool.or_self, Bool.false_eq_true, if_false]
  refine (if_neg (not_not.mpr ?quiet)).trans ?sends
  case quiet =>
    split
    · next q hq =>
      split
      · next hfirst => exact ht q hq hfirst
      · rfl
    · rfl
  case sends =>
    simp only [beq_iff_eq, apply_ite Host.Outcome.next]
    rfl

end Sys2Proof.Machine
end

section
/-! Commands, loads, rows and drains of an island: the statement of O44. -/

namespace Sys2Proof.Machine

open Spec

/-- Settles O44: what each step of an island does, and what it leaves in the sequencers, the buffers and the C rows. -/
theorem islandEvents : Obligations.IslandEvents := by
  refine ⟨?start, ?command, ?load, ?loadRow, takeRow_leaves, ?row, rowProduct_sums, ?drain, ?fault, ?stays, ?resumes⟩
  case start =>
    intro s en q rest hf
    dsimp only
    intro hg hq hc ho hcfg
    rw [exec_islandCommandStart]
    exact execIslandCommandStart_starts hf hg hq hc ho hcfg
  case command =>
    intro c q d
    refine ⟨startCommand_queue c q, fun h => ?mxcfg, fun h => ?mxldb, fun h => ?mxrow, fun h => ?mxdrn, fun h => ?mxgrp⟩
    case mxcfg => simp [d, startCommand_config h, bits]
    case mxldb => intro l; exact startCommand_load_leaves h
    case mxrow => simp [d, startCommand_run h, bits]
    case mxdrn => simp [d, startCommand_drain h, bits]
    case mxgrp => simp only [d, startCommand_group h]
  case load =>
    intro s en t h
    rw [exec_islandBLoadComplete, execIslandBLoadComplete, h]
  case loadRow =>
    intro s en l af bf df d bs u x hl hc hs hd hstream hscales hr
    exact loadStep_row hl hc hs hd hstream hscales hr
  case row =>
    intro s en r af bf df u x hf
    rw [exec_islandRowStart]
    exact execIslandRowStart_ready hf
  case drain =>
    intro s en d af bf df x hd hc hf hfree row r cv ht last u
    rw [exec_islandDrainRow, execIslandDrainRow_sends hd hc hf hfree ht]
    exact ⟨fun h => by rw [if_neg h]; rfl, fun h => by rw [if_pos h]; rfl⟩
  case fault =>
    intro s en l links code va x u hl hs
    rw [exec_islandFault]
    exact ⟨execIslandFault_serviced hl hs, execIslandFault_ends hl hs⟩
  case stays =>
    intro s en h
    rw [exec_islandLoadResume, execIslandLoadResume, if_pos h]
  case resumes =>
    intro s en h
    rw [exec_islandLoadResume, execIslandLoadResume, if_neg (by simp [h])]

end Sys2Proof.Machine
end

section
/-! The guard and the abort of an element rule (R40, R54, R104, R318, R384): the statements of O8 and O9. -/

namespace Sys2Proof.Machine

/-- Every element instruction, and no other, is the firing of a rule. -/
theorem exec_eq_fire {i : Instr} {o : Operands} (h : i.operands = some o) (s : State) :
    ∃ lat body, exec i s = fire i lat s body := by
  cases i <;> cases h
  case mrga g d a b =>
    rw [exec_mrga, execMrga]
    split
    · exact ⟨_, _, rfl⟩
    · exact ⟨_, _, rfl⟩
  all_goals exact ⟨_, _, rfl⟩

/-- Settles O8: every element instruction is one firing, whose tests come in the order of R104, R40, R384 and R318. -/
theorem ruleGuard : Obligations.RuleGuard := by
  intro i s o ho
  obtain ⟨lat, body, he⟩ := exec_eq_fire ho s
  rw [he]
  refine ⟨fire_illegal ho, fire_idle ho, fun hl hr hp hb => ?poison, fun hl hr hb => ?parity⟩
  case poison => exact fire_aborts ho hl hr (by rw [outcomeOf_bad (by simp [takesBad, hp]), hb]; rfl)
  case parity => exact fire_aborts ho hl hr (by rw [outcomeOf_bad (by simp [takesBad, hb]), hb]; rfl)

/-- Settles O9: an abort changes the acting element alone, and of it EFAULT, the faulted state and what the region
controller needs (R54). -/
theorem ruleAbort : Obligations.RuleAbort := by
  intro i s a
  simp only [abortRule, abortElem, State.elem_modElem_same, State.tileCore_modElem, State.balance_modElem,
    cistern_modElem, implies_true, and_self, true_and]
  exact ⟨fun u j h => State.elem_modElem_other s _ h, rfl⟩

end Sys2Proof.Machine
end

section
/-! What writes and tokens leave alone, of elements and of tiles (R41, R42, R109). -/

namespace Sys2Proof.Machine

/-- Two states whose elements differ in registers and channels alone, and whose tiles differ in registers and elements
alone. -/
structure RegsAndTokens (s s' : State) : Prop where
  elem : ∀ t e, s'.elem t e = { s.elem t e with core := (s'.elem t e).core, chans := (s'.elem t e).chans }
  tile : ∀ t, s'.tile t = { s.tile t with core := (s'.tile t).core, elems := (s'.tile t).elems }

variable {s s' s'' : State}

theorem RegsAndTokens.refl (s : State) : RegsAndTokens s s := ⟨fun _ _ => rfl, fun _ => rfl⟩

theorem RegsAndTokens.trans (h : RegsAndTokens s s') (h' : RegsAndTokens s' s'') : RegsAndTokens s s'' where
  elem t e := by rw [h'.elem, h.elem]
  tile t := by rw [h'.tile, h.tile]

theorem RegsAndTokens.foldl {α : Type} {f : State → α → State} (hf : ∀ s a, RegsAndTokens s (f s a)) (as : List α)
    (s : State) : RegsAndTokens s (as.foldl f s) := by
  induction as generalizing s with
  | nil => exact .refl s
  | cons a as ih => exact (hf s a).trans (ih _)

/-- A change that leaves the tiles alone. -/
theorem RegsAndTokens.of_tiles (h : s'.tiles = s.tiles) : RegsAndTokens s s' := by
  have ht (t : Nat) : s'.tile t = s.tile t := by simp only [State.tile, h]
  exact ⟨fun t e => by simp only [State.elem, ht], fun t => by rw [ht]⟩

theorem State.tile_modElem (s : State) (t e u : Nat) (f : Elem → Elem) :
    (s.modElem t e f).tile u = { s.tile u with elems := ((s.modElem t e f).tile u).elems } := by
  simp only [State.modElem, State.setElem, State.tile_setTile]
  split
  · next h => rw [h]; rfl
  · rfl

theorem RegsAndTokens.modElem {f : Elem → Elem} (hf : ∀ y, f y = { y with core := (f y).core, chans := (f y).chans })
    (t e : Nat) (s : State) : RegsAndTokens s (s.modElem t e f) where
  elem u j := by
    rw [State.elem_modElem]
    split
    · next h => rw [h.1, h.2]; exact hf _
    · rfl
  tile u := by rw [State.tile_modElem]

theorem RegsAndTokens.modTileCore (f : Tile → TileCore) (t : Nat) (s : State) :
    RegsAndTokens s (s.modTile t fun x => { x with core := f x }) where
  elem u j := by rw [elem_modTile rfl]
  tile u := by
    rw [State.tile_modTile]
    split
    · next h => rw [h]
    · rfl

theorem tiles_touchRegion (s : State) (t : Nat) : (touchRegion s t).tiles = s.tiles := by
  unfold touchRegion
  split <;> rfl

theorem tiles_fifoCommand (s : State) (en : Nat) (c : Cmd) : (fifoCommand s en c).tiles = s.tiles := by
  unfold fifoCommand
  dsimp only
  split
  · rfl
  · split
    · rfl
    · split <;> rfl

theorem tiles_pushCommand (s : State) (en : Nat) (c : Cmd) : (pushCommand s en c).tiles = s.tiles := by
  rw [pushCommand, noteWork]
  split <;> exact tiles_fifoCommand s en c

theorem RegsAndTokens.deliver (from_ : Nat) (tok : Token) (g : Target) (s : State) :
    RegsAndTokens s (deliver s from_ tok g) := by
  cases g with
  | chan t e c =>
    have h : RegsAndTokens s (s.modElem t e fun y =>
        y.setChan c { y.chan c with flight := (y.chan c).flight ++ [tok] }) := .modElem (fun _ => rfl) t e s
    simp only [Machine.deliver]
    split
    · exact h
    · exact h.trans (.of_tiles (tiles_touchRegion ..))
  | command en => exact .of_tiles (tiles_pushCommand ..)
  | row en p => exact .of_tiles rfl
  | boundary n =>
    simp only [Machine.deliver]
    split <;> exact .of_tiles rfl
  | nowhere => exact .refl s

theorem RegsAndTokens.enqueue (t e c : Nat) (data : V256) (tag : BitVec 2) (s : State) :
    RegsAndTokens s (enqueue s t e c data tag) := by
  unfold Machine.enqueue
  refine .trans (s' := if isLoopStart s t e c && tag != 3 then
    s.modElem t e fun y => { y with core := { y.core with loopI := y.core.loopI + 1 } } else s) ?_
    (.foldl (fun s g => .deliver ..) _ _)
  split
  · exact .modElem (fun _ => rfl) t e s
  · exact .refl s

theorem RegsAndTokens.applyWrite (t e : Nat) (w : PWrite) (s : State) : RegsAndTokens s (applyWrite s t e w) := by
  cases w with
  | w n v => exact .modTileCore (fun x => { x.core with w := x.core.w.set n v }) t s
  | out c k => exact .enqueue ..
  | _ =>
    simp only [Machine.applyWrite]
    exact .modElem (fun _ => rfl) t e s

theorem RegsAndTokens.applyWrites (t e : Nat) (ws : List PWrite) (s : State) :
    RegsAndTokens s (applyWrites s t e ws) := .foldl (fun _ _ => .applyWrite ..) ws s

theorem RegsAndTokens.holdOut (t e c : Nat) (n : Nat → Nat) (s : State) : RegsAndTokens s (holdOut s t e c n) := by
  refine .foldl (fun s g => ?_) _ s
  cases g with
  | chan t e k => exact .modElem (fun _ => rfl) t e s
  | _ => exact .refl s

end Sys2Proof.Machine
end

section
/-! Results and answers that come later (R41, R136): the statement of O27. -/

namespace Sys2Proof.Machine

open Spec

variable {T E : Nat} {s : State}

/-- Slots held in input channels are counted, and nothing is written or sent. -/
theorem Wrote.holdOut (t e c : Nat) (n : Nat → Nat) (s : State) : Wrote T E s (Machine.holdOut s t e c n) [] := by
  obtain ⟨hkept, hcore, htile, hfifo, hinbox⟩ := holdOut_kept (T := T) (E := E) (s := s) t e c n
  obtain ⟨htile, hbalance⟩ := htile T
  exact ⟨hkept, fun _ => by rw [hcore]; rfl, fun _ => by rw [htile]; rfl, fun _ => by rw [hcore]; rfl,
    fun _ => by rw [hcore]; rfl, fun _ => by rw [hcore]; rfl, fun _ => by rw [hcore]; rfl,
    fun _ _ => by rw [hinbox]; simp [sentTo], fun _ => hfifo .., hbalance, ⟨_, by rw [hcore]⟩, by rw [htile]⟩

theorem Wrote.releaseSlots (t e : Nat) (ws : List PWrite) (s : State) :
    Wrote T E s (ws.foldl (fun s w => match w with
      | .out c _ => Machine.holdOut s t e c.val (· - 1)
      | _ => s) s) [] := by
  induction ws generalizing s with
  | nil => exact Wrote.nil T E s
  | cons w ws ih =>
    rw [List.foldl_cons]
    cases w with
    | out c k => exact (Wrote.holdOut t e c.val _ s).trans (ih _)
    | _ => exact ih s

theorem Wrote.writeResult (p : Pending) (s : State) : Wrote T E s (writeResult s T E p) p.writes :=
  (Wrote.releaseSlots T E p.writes s).trans (Wrote.applyWrites p.writes _)

theorem Wrote.writeResults (ps : List Pending) (s : State) :
    Wrote T E s (ps.foldl (fun s p => Machine.writeResult s T E p) s) (ps.flatMap Pending.writes) := by
  induction ps generalizing s with
  | nil => exact Wrote.nil T E s
  | cons p ps ih => exact (Wrote.writeResult p s).trans (ih _)

/-- Writes made after a change of the element that keeps its registers, its bindings, its stroke and its channels land on
the element as it was. -/
theorem lands_of_wrote {u : State} {f : Elem → Elem} {ws : List PWrite} (h : Wrote T E (s.modElem T E f) u ws)
    (hcore : (f (s.elem T E)).core = (s.elem T E).core) (hbinds : (f (s.elem T E)).binds = (s.elem T E).binds)
    (hstroke : (f (s.elem T E)).stroke = (s.elem T E).stroke) (hchans : (f (s.elem T E)).chans = (s.elem T E).chans) :
    Lands s u T E ws := by
  have hsent (g : Target) : sentTo (s.modElem T E f) T E ws g = sentTo s T E ws g := by
    simp only [sentTo, targets, regionAt_modElem, State.elem_modElem_same, Elem.outBind, hbinds, hstroke]
  have hinbox (g : Target) : inbox (s.modElem T E f) T g = inbox s T g :=
    inbox_modElem_core (fun c => by simp only [Elem.chan, hchans]) T g
  have hholds {g : Target} (hg : Holds s T g) : Holds (s.modElem T E f) T g := by
    cases g <;> exact hg
  have harray : OnlyArray s (s.modElem T E f) := rfl
  refine ⟨fun n => ?x, fun n => ?w, fun n => ?v, fun n => ?a, fun n => ?sc, fun n => ?p, fun g hg => ?sent,
    onlyArray_trans harray h.kept.array⟩
  case x => rw [h.x, State.elem_modElem_same, hcore]
  case w => rw [h.w, State.tileCore_modElem]
  case v => rw [h.v, State.elem_modElem_same, hcore]
  case a => rw [h.a, State.elem_modElem_same, hcore]
  case sc => rw [h.sc, State.elem_modElem_same, hcore]
  case p => rw [h.p, State.elem_modElem_same, hcore]
  case sent => rw [h.sent g (hholds hg), hsent, hinbox]

/-- The due results of an element are written in their order; it keeps the others (R136). -/
theorem writeDue_lands (s : State) (t e : Nat) :
    ((writeDue s t e).elem t e).pending = (s.elem t e).pending.filter (fun p => !resultDue (s.tile t) p) ∧
    Lands s (writeDue s t e) t e (((s.elem t e).pending.filter (resultDue (s.tile t))).flatMap Pending.writes) := by
  have h : Wrote t e (s.modElem t e fun y => { y with pending := y.pending.filter fun p => !resultDue (s.tile t) p })
    (writeDue s t e) (((s.elem t e).pending.filter (resultDue (s.tile t))).flatMap Pending.writes) := Wrote.writeResults _ _
  exact ⟨by rw [h.kept.pending, State.elem_modElem_same], lands_of_wrote h rfl rfl rfl rfl⟩

/-- The state of an answer before it writes: the request is over, and the slot held for it given back. -/
def requestOver (s : State) (t e : Nat) (q : MemReq) : State :=
  let u := s.modElem t e fun y => { y with reqs := y.reqs.filter fun r => r.id != q.id }
  match q.dst with
  | .out c => holdOut u t e c.val (· - 1)
  | _ => u

theorem answer_eq (s : State) (t e : Nat) (q : MemReq) (ws : List PWrite) (res : Bool) :
    answer s t e q ws res =
      applyWrites (requestOver s t e q) t e (ws ++ (q.pred.map fun p => PWrite.pred p res).toList) := by
  unfold answer requestOver
  cases q.pred <;> rfl

theorem requestOver_wrote (s : State) (t e : Nat) (q : MemReq) :
    Wrote t e (s.modElem t e fun y => { y with reqs := y.reqs.filter fun r => r.id != q.id }) (requestOver s t e q) [] := by
  unfold requestOver
  cases q.dst with
  | out c => exact Wrote.holdOut t e c.val _ _
  | _ => exact Wrote.nil ..

theorem requestOver_reqs (s : State) (t e : Nat) (q : MemReq) :
    ((requestOver s t e q).elem t e).reqs = (s.elem t e).reqs.filter fun r => r.id != q.id := by
  unfold requestOver
  cases q.dst with
  | out c => dsimp only; rw [(RegsAndTokens.holdOut ..).elem, State.elem_modElem_same]
  | _ => dsimp only; rw [State.elem_modElem_same]

/-- An answered request is over, and its answer is written with its =p predicate (R41). -/
theorem answer_lands (s : State) (t e : Nat) (q : MemReq) (ws : List PWrite) (res : Bool) :
    ((answer s t e q ws res).elem t e).reqs = (s.elem t e).reqs.filter (fun r => r.id != q.id) ∧
    Lands s (answer s t e q ws res) t e (ws ++ (q.pred.map fun p => PWrite.pred p res).toList) := by
  rw [answer_eq]
  refine ⟨?ended, lands_of_wrote ((requestOver_wrote s t e q).trans (Wrote.applyWrites _ _)) rfl rfl rfl rfl⟩
  case ended => rw [(RegsAndTokens.applyWrites ..).elem, requestOver_reqs]

/-- A result is due in a later round, or at the end of its own, once no rule is left to fire. -/
theorem resultDue_iff (x : Tile) (p : Pending) : resultDue x p = true ↔ p.due < x.rounds ∨
    (p.due = x.rounds ∧ ∀ i ∈ x.todo, ∀ e k d f, i ≠ RoundItem.fire e k d f) := by
  simp only [resultDue, Bool.or_eq_true, Bool.and_eq_true, decide_eq_true_eq, beq_iff_eq, Bool.not_eq_true',
    List.any_eq_false]
  refine or_congr_right (and_congr_right fun _ => forall₂_congr fun i _ => ?_)
  cases i with
  | fire e k d f => exact iff_of_false (by simp) fun h => h e k d f rfl
  | _ => simp

/-- Settles O27: results and answers are writes made outside a firing. -/
theorem resultsLand : Obligations.ResultsLand :=
  ⟨fun s t e => ⟨writeDue s t e, exec_vectorResultWrite, writeDue_lands s t e⟩, resultDue_iff, answer_lands⟩

end Sys2Proof.Machine
end

section
/-! Body instructions and the abort of a pump rule (R50, R55, R96, R97, R217, R258): the statement of O32. -/

namespace Sys2Proof.Machine

open Spec

/-! ### A body instruction is one step of its lane -/

/-- Every body instruction is one step of its lane under its own skip predicate. -/
theorem exec_eq_pumpStep {i : Instr} {f : PumpFields} (h : i.pumpFields = some f) (s : State) :
    ∃ op out, exec i s = pumpStep f.h op s out := by
  cases i <;> cases h
  case abort => exact ⟨_, .retry _, rfl⟩
  case pumpAdd | pumpSub | pumpMul | pumpMulh | pumpMulhn | pumpAdds | pumpSubs | pumpAnd | pumpOr | pumpXor | pumpAndn |
      pumpShl | pumpShr | pumpSra | pumpRot | pumpMin | pumpMax | pumpMinn | pumpMaxn | pumpCmp | pumpTst | pumpSel |
      pumpClz | pumpPopc | pumpBfx | pumpBfi | pumpMov | pumpPset | pumpPlog | div | divn | rem | movk | fenceRel | skip |
      noteTake | barmTake | pumpPhint | sysr => exact ⟨_, .done _ _, rfl⟩
  all_goals exact ⟨_, _, rfl⟩

theorem bodyRules : BodyRules := by
  refine ⟨fun i f s hf => ?steps, fun s gs ps acts past hr => laneDid_bodyDid ⟨gs, ps, acts, past⟩ hr,
    fun s h n neg hp => ?skips, fun s h hp => ?noSkip⟩
  case steps =>
    obtain ⟨op, out, he⟩ := exec_eq_pumpStep hf s
    rw [he]
    exact ⟨pumpStep_idle, fun hr hs => ⟨_, pumpStep_skipped hr hs, laneDid_bodyDid {} hr⟩⟩
  case skips => simp only [skips, hp, Bool.bne_eq_xor]
  case noSkip => simp only [skips, hp]

/-! ### FLTREC (R258) -/

theorem bits_eq_extractLsb' {n : Nat} (x : BitVec n) (lo k : Nat) : bits x.toNat lo k = (x.extractLsb' lo k).toNat := by
  simp [bits, Nat.shiftRight_eq_div_pow]

theorem bits_one_eq_one_iff {n : Nat} (x : BitVec n) (k : Nat) : bits x.toNat k 1 = 1 ↔ x.getLsbD k = true := by
  simp [bits, BitVec.getLsbD, Nat.testBit_eq_decide_div_mod_eq]

theorem toNat_append_eq_add {m n : Nat} (x : BitVec m) (y : BitVec n) : (x ++ y).toNat = x.toNat * 2 ^ n + y.toNat := by
  rw [BitVec.toNat_append, Nat.shiftLeft_eq, Nat.mul_comm, Nat.two_pow_add_eq_or_of_lt y.isLt]

/-- The fields of a new fault record are those of R258. -/
theorem faultWord_eq (rule pc op code : Nat) :
    BitVec.ofNat 64 (2 ^ 63 + rule % 64 * 2 ^ 40 + pc % 32 * 2 ^ 32 + op % 256 * 2 ^ 8 + code % 256) =
      (1 : BitVec 1) ++ (0 : BitVec 17) ++ BitVec.ofNat 6 rule ++ (0 : BitVec 3) ++ BitVec.ofNat 5 pc ++
        (0 : BitVec 16) ++ BitVec.ofNat 8 op ++ BitVec.ofNat 8 code := by
  apply BitVec.eq_of_toNat_eq
  have hz {n : Nat} : (0 : BitVec n).toNat = 0 := Nat.zero_mod _
  have ho : (1 : BitVec 1).toNat = 1 := rfl
  simp only [toNat_append_eq_add, BitVec.toNat_ofNat, hz, ho]
  omega

/-- The first fault is recorded whole. -/
theorem recordFault_first {c : Core} (rule pc op code : Nat) (va : Option Nat) (h : c.fltrec.getLsbD 63 = false) :
    (recordFault c rule pc op code va).fltrec = (1 : BitVec 1) ++ (0 : BitVec 17) ++ BitVec.ofNat 6 rule ++
      (0 : BitVec 3) ++ BitVec.ofNat 5 pc ++ (0 : BitVec 16) ++ BitVec.ofNat 8 op ++ BitVec.ofNat 8 code := by
  have hv : ¬ bits c.fltrec.toNat 63 1 = 1 := by rw [bits_one_eq_one_iff, h]; exact Bool.false_ne_true
  rw [← faultWord_eq]
  cases va <;> simp only [recordFault, if_neg hv]

/-- A later fault is counted in MORE alone, which stays at its greatest value. -/
theorem recordFault_more {c : Core} (rule pc op code : Nat) (va : Option Nat) (h : c.fltrec.getLsbD 63 = true) :
    (recordFault c rule pc op code va).fltrec =
      if c.fltrec.extractLsb' 16 16 = 0xFFFF then c.fltrec else c.fltrec + 0x10000 := by
  have hm : bits c.fltrec.toNat 16 16 = 0xFFFF ↔ c.fltrec.extractLsb' 16 16 = 0xFFFF := by
    rw [bits_eq_extractLsb', ← BitVec.toNat_inj]
    rfl
  cases va <;> simp only [recordFault, (bits_one_eq_one_iff _ _).mpr h, if_true, hm] <;> split <;> rfl

theorem recordFault_fltva (c : Core) (rule pc op code : Nat) (va : Option Nat) :
    (recordFault c rule pc op code va).fltva = match va with
      | some a => BitVec.ofNat 64 a
      | none => c.fltva := by
  cases va <;> simp only [recordFault] <;> (repeat' split) <;> rfl

/-- A fault changes FLTREC and FLTVA alone. -/
theorem recordFault_keeps (c : Core) (rule pc op code : Nat) (va : Option Nat) :
    recordFault c rule pc op code va = { c with
      fltrec := (recordFault c rule pc op code va).fltrec, fltva := (recordFault c rule pc op code va).fltva } := by
  cases va <;> simp only [recordFault] <;> (repeat' split) <;> rfl

/-! ### The abort of a lane (R55) -/

/-- The core of a lane that aborts, with its fault recorded. -/
def faultRecorded (c : Core) (l : Lane) (fault : Option (Nat × Option Nat)) (op : Nat) : Core :=
  match fault with
  | none => c
  | some (code, va) => recordFault c l.rule l.pc op code va

theorem faultRecorded_keeps (c : Core) (l : Lane) (fault : Option (Nat × Option Nat)) (op : Nat) :
    faultRecorded c l fault op = { c with
      fltrec := (faultRecorded c l fault op).fltrec, fltva := (faultRecorded c l fault op).fltva } := by
  cases fault with
  | none => rfl
  | some f => exact recordFault_keeps ..

/-- The lane that aborts, as its core has it. -/
def abortedLane (c : Core) (k : Nat) : Lane := c.lanes.getD k { rule := 0, run := .aborted }

theorem core_abortLane (s : State) (core k : Nat) (fault : Option (Nat × Option Nat)) (op : Nat) :
    (abortLane s core k fault op).core core =
      setLane (faultRecorded (s.core core) (abortedLane (s.core core) k) fault op) k
        { abortedLane (s.core core) k with g := [], p := [], acts := [], run := .aborted } :=
  State.core_setCore_same ..

theorem abortLane_eq (s : State) (core k : Nat) (fault : Option (Nat × Option Nat)) (op : Nat) :
    abortLane s core k fault op = s.setCore core ((abortLane s core k fault op).core core) := by
  rw [core_abortLane]
  rfl

theorem abortLane_lanes (s : State) (core k : Nat) (fault : Option (Nat × Option Nat)) (op : Nat) :
    ((abortLane s core k fault op).core core).lanes = (s.core core).lanes.set k
      { abortedLane (s.core core) k with g := [], p := [], acts := [], run := .aborted } := by
  rw [core_abortLane, setLane, faultRecorded_keeps]

theorem pumpAbort : PumpAbort := by
  intro s core k fault op
  dsimp only
  have hlane {l : Lane} (hl : (s.core core).lanes[k]? = some l) : abortedLane (s.core core) k = l := by
    rw [abortedLane, List.getD_eq_getElem?_getD, hl, Option.getD_some]
  refine ⟨abortLane_eq .., ?keeps, fun j hj => ?others, fun l hl => ?lane, fun hf => ?noFault, fun code va l hf hl => ?fault⟩
  case keeps => rw [core_abortLane, setLane, faultRecorded_keeps]
  case others => rw [abortLane_lanes, List.getElem?_set_ne (Ne.symm hj)]
  case lane =>
    obtain ⟨hk, -⟩ := List.getElem?_eq_some_iff.mp hl
    rw [abortLane_lanes, List.getElem?_set_self hk, hlane hl]
  case noFault =>
    rw [core_abortLane, hf]
    exact ⟨rfl, rfl⟩
  case fault =>
    rw [core_abortLane, hf, hlane hl]
    exact ⟨recordFault_first _ _ _ _ _, recordFault_more _ _ _ _ _, recordFault_fltva ..⟩

/-- Settles O32, from its two parts: the steps of a lane, and its abort. -/
theorem bodySteps : Obligations.BodySteps := ⟨bodyRules, pumpAbort⟩

end Sys2Proof.Machine
end

section
/-! The selection of a round (R48, R50, R98): the statement of O42. -/

namespace Sys2Proof.Machine

open Spec

/-! ### A rule's guard -/

/-- Every bit of a mask is set in a number iff the mask is what the number leaves of it. -/
theorem and_eq_right_iff_testBit {x m : Nat} : x &&& m = m ↔ ∀ e, m.testBit e = true → x.testBit e = true := by
  constructor
  · intro h e he
    rw [← h, Nat.testBit_and, Bool.and_eq_true] at he
    exact he.1
  · intro h
    apply Nat.eq_of_testBit_eq
    intro e
    rw [Nat.testBit_and]
    cases he : m.testBit e with
    | false => exact Bool.and_false _
    | true => rw [h e he, Bool.and_self]

theorem testBit_ruleEvents (h1 : W64) (e : Nat) : (ruleEvents h1).testBit e = (decide (e < 16) && h1.getLsbD (48 + e)) := by
  rw [ruleEvents, bits_eq_extractLsb', BitVec.testBit_toNat, BitVec.getLsbD_extractLsb']

theorem emptyRule_eq_false_iff (r : W64 × W64) : emptyRule r = false ↔ ¬ (r.1 = 0 ∧ r.2 = 0) := by
  simp [emptyRule]

theorem ruleEnabled_iff (c : Core) (ev j : Nat) : ruleEnabled c ev j = true ↔
    ¬ ((c.ruleAt j).1 = 0 ∧ (c.ruleAt j).2 = 0) ∧
    c.p &&& (c.ruleAt j).1.extractLsb' 32 32 = (c.ruleAt j).1.extractLsb' 0 32 &&& (c.ruleAt j).1.extractLsb' 32 32 ∧
    ∀ e, e < 16 → (c.ruleAt j).2.getLsbD (48 + e) = true → ev.testBit e = true := by
  simp only [ruleEnabled, Bool.and_eq_true, Bool.not_eq_true', beq_iff_eq, emptyRule_eq_false_iff, and_assoc,
    and_eq_right_iff_testBit, testBit_ruleEvents, bits_eq_extractLsb', ← BitVec.toNat_and, BitVec.toNat_inj,
    decide_eq_true_eq, and_imp]

/-! ### The order of selection -/

theorem ruleClass_lt (h1 : W64) : ruleClass h1 < 4 := Nat.mod_lt _ (by decide)

theorem lt_of_mem_classOrder {c : Core} {k j : Nat} (h : j ∈ classOrder c k) : j < 64 := by
  simp only [classOrder, List.mem_filter, List.mem_map] at h
  obtain ⟨⟨i, -, rfl⟩, -⟩ := h
  exact Nat.mod_lt _ (by decide)

/-- The order of a class passes every one of its rules, since it goes round modulo 64. -/
theorem mem_classOrder {c : Core} {j : Nat} (h : j < 64) : j ∈ classOrder c (ruleClass (c.ruleAt j).2) := by
  simp only [classOrder, List.mem_filter, List.mem_map, List.mem_range, beq_self_eq_true, and_true]
  generalize (c.cptr[ruleClass (c.ruleAt j).2]?.getD 0).toNat = p
  exact ⟨(j + (64 - p % 64)) % 64, Nat.mod_lt _ (by decide), by omega⟩

/-- The candidates of a round, in selection order. -/
def candidates (c : Core) : List Nat := (List.range 4).flatMap (classOrder c)

theorem mem_candidates (c : Core) (j : Nat) : j ∈ candidates c ↔ j < 64 := by
  rw [candidates, List.mem_flatMap]
  exact ⟨fun ⟨_, _, h⟩ => lt_of_mem_classOrder h,
    fun h => ⟨_, List.mem_range.mpr (ruleClass_lt (c.ruleAt j).2), mem_classOrder h⟩⟩

/-! ### The choice among the candidates -/

/-- What a candidate adds to the selection. -/
def selectNext (c : Core) (ev : Nat) (sel : List Nat) (j : Nat) : List Nat :=
  if decide (sel.length < 4) && ruleEnabled c ev j && sel.all (fun i => !conflicts c i j) then sel ++ [j] else sel

theorem selectRules_eq_foldl (c : Core) (ev : Nat) : selectRules c ev = (candidates c).foldl (selectNext c ev) [] := rfl

/-- What a selection from the candidates `seen` so far meets. -/
structure Selected (c : Core) (ev : Nat) (seen sel : List Nat) : Prop where
  chosen : ∀ j ∈ sel, j ∈ seen ∧ ruleEnabled c ev j = true
  atMost : sel.length ≤ 4
  apart : sel.Pairwise fun i j => conflicts c i j = false
  maximal : ∀ j ∈ seen, ruleEnabled c ev j = true → j ∉ sel → sel.length = 4 ∨ ∃ i ∈ sel, conflicts c i j = true

theorem Selected.next {c : Core} {ev : Nat} {seen sel : List Nat} (h : Selected c ev seen sel) (j : Nat) :
    Selected c ev (seen ++ [j]) (selectNext c ev sel j) := by
  have hchosen (i) (hi : i ∈ sel) : i ∈ seen ++ [j] ∧ ruleEnabled c ev i = true :=
    ⟨List.mem_append_left _ (h.chosen i hi).1, (h.chosen i hi).2⟩
  unfold selectNext
  split
  next hadd =>
    simp only [Bool.and_eq_true, decide_eq_true_eq, List.all_eq_true, Bool.not_eq_true'] at hadd
    obtain ⟨⟨hlen, hen⟩, hfree⟩ := hadd
    refine ⟨fun i hi => ?_, by rw [List.length_append]; exact hlen, ?_, fun i hi hei hni => ?_⟩
    · obtain hi | hi := List.mem_append.mp hi
      · exact hchosen i hi
      · obtain rfl := List.mem_singleton.mp hi
        exact ⟨List.mem_append_right _ hi, hen⟩
    · exact List.pairwise_append.mpr ⟨h.apart, List.pairwise_singleton _ _, fun i hi k hk => by
        rw [List.mem_singleton.mp hk]; exact hfree i hi⟩
    · obtain ⟨hsel, hij⟩ := not_or.mp (mt List.mem_append.mpr hni)
      have hseen := (List.mem_append.mp hi).resolve_right hij
      obtain hfull | ⟨k, hk, hc⟩ := h.maximal i hseen hei hsel
      · omega
      · exact .inr ⟨k, List.mem_append_left _ hk, hc⟩
  next hskip =>
    refine ⟨hchosen, h.atMost, h.apart, fun i hi hei hni => ?_⟩
    obtain hi | hi := List.mem_append.mp hi
    · exact h.maximal i hi hei hni
    · obtain rfl := List.mem_singleton.mp hi
      by_contra hno
      obtain ⟨hlen, hfree⟩ := not_or.mp hno
      apply hskip
      simp only [Bool.and_eq_true, decide_eq_true_eq, List.all_eq_true, Bool.not_eq_true']
      exact ⟨⟨lt_of_le_of_ne h.atMost hlen, hei⟩, fun k hk => by simpa using mt (fun hc => ⟨k, hk, hc⟩) hfree⟩

theorem selected_foldl {c : Core} {ev : Nat} (js : List Nat) {seen sel : List Nat} (h : Selected c ev seen sel) :
    Selected c ev (seen ++ js) (js.foldl (selectNext c ev) sel) := by
  induction js generalizing seen sel with
  | nil => rwa [List.append_nil]
  | cons j js ih => simpa using ih (h.next j)

theorem selected_selectRules (c : Core) (ev : Nat) : Selected c ev (candidates c) (selectRules c ev) := by
  rw [selectRules_eq_foldl]
  exact selected_foldl (seen := []) (candidates c) ⟨nofun, Nat.zero_le _, .nil, nofun⟩

/-- Settles O42: the guard bit by bit, and what every candidate keeps of the selection so far. -/
theorem ruleSelection : Obligations.RuleSelection := by
  refine ⟨ruleEnabled_iff, fun c ev => ?_⟩
  have h := selected_selectRules c ev
  exact ⟨fun j hj => ⟨(mem_candidates c j).mp (h.chosen j hj).1, (h.chosen j hj).2⟩, h.atMost, h.apart,
    fun j hj => h.maximal j ((mem_candidates c j).mpr hj)⟩

end Sys2Proof.Machine
end

section
/-! The commit of a round and the stores it leaves (R50, R217, R225, R228, R229, R230, R258): the statement of O43. -/

namespace Sys2Proof.Machine

open Spec

/-! ### Maps rewritten entry by entry -/

/-- A map whose values are rewritten under their keys. -/
theorem kfind_mapValues {α β : Type} (m : KMap α) (f : Nat → α → β) (k : Nat) :
    kfind (m.map fun p => (p.1, f p.1 p.2)) k = (kfind m k).map (f k) := by
  induction m with
  | nil => rfl
  | cons p m ih =>
    simp only [List.map_cons, kfind, ih]
    split
    next h => rw [h, Option.map_some]
    next => split <;> rfl

theorem kget_mapValues {α β : Type} (m : KMap α) (f : Nat → α → β) (k : Nat) (d : α) :
    kget (m.map fun p => (p.1, f p.1 p.2)) k (f k d) = f k (kget m k d) := by
  rw [kget, kfind_mapValues, kget, Option.getD_map]

/-! ### Presence bits -/

theorem mem_fullSet (l : List Nat) (a b : Nat) : b ∈ fullSet l a ↔ b ∈ l ∨ b = a := by
  induction l with
  | nil => simp [fullSet]
  | cons c l ih =>
    simp only [fullSet]
    split
    · simp [or_comm]
    · split
      next h => subst h; simp only [List.mem_cons]; tauto
      next => simp only [List.mem_cons, ih, or_assoc]

theorem mem_foldl_fullSet (ws l : List Nat) (b : Nat) : b ∈ ws.foldl fullSet l ↔ b ∈ l ∨ b ∈ ws := by
  induction ws generalizing l with
  | nil => simp
  | cons w ws ih => rw [List.foldl_cons, ih, mem_fullSet, List.mem_cons, or_assoc]

/-! ### A store performed in memory (R217, R312) -/

theorem memStore_mem (s : State) (pa : Nat) (bs : List Byte) (full : Option Bool) :
    (memStore s pa bs full).mem = s.mem.writes (localPa pa) bs := by
  cases bs <;> rfl

theorem memStore_full_none (s : State) (pa : Nat) (bs : List Byte) : (memStore s pa bs none).full = s.full := by
  cases bs <;> rfl

theorem memStore_full_true (s : State) (pa : Nat) (bs : List Byte) (a : Nat) : fullAt (memStore s pa bs (some true)).full a =
    (fullAt s.full a || (wordsOf (localPa pa) bs.length).contains a && !bs.isEmpty) := by
  cases bs with
  | nil => exact (by rw [List.isEmpty_nil, Bool.not_true, Bool.and_false, Bool.or_false]; rfl)
  | cons b bs =>
    rw [Bool.eq_iff_iff]
    simp [memStore, fullAt, mem_foldl_fullSet]

/-- A core sees a write to memory in its monitors alone. -/
theorem memStore_core_storeQ (s : State) (pa : Nat) (bs : List Byte) (full : Option Bool) (cn : Nat) :
    ((memStore s pa bs full).core cn).storeQ = (s.core cn).storeQ := by
  cases bs with
  | nil => rfl
  | cons b bs =>
    have h : kfind (memStore s pa (b :: bs) full).cores cn = (kfind s.cores cn).map (Core.noteWrite (localPa pa) (b :: bs).length) :=
      kfind_mapValues s.cores (fun _ => Core.noteWrite (localPa pa) (b :: bs).length) cn
    simp only [State.core, kget, h]
    cases kfind s.cores cn <;> rfl

theorem performStore_memory {pa : Nat} (hpa : (placeOf pa).isMemory = true) (s : State) (cn : Nat) (bs : List Byte)
    (full : Option Bool) :
    performStore s cn pa bs full = (memStore s pa bs full).modCore cn fun c => c.updateCache (localPa pa) bs := by
  cases hp : placeOf pa with
  | near => simp only [performStore, hp]
  | far => simp only [performStore, hp]
  | mmio | remote | hole => rw [hp] at hpa; cases hpa

/-- The state of a core whose store i leaves its queue. -/
def storeLeaves (s : State) (cn i : Nat) : State :=
  let s' := s.setCore cn { s.core cn with storeQ := (s.core cn).storeQ.eraseIdx i }
  { s' with shoots := s'.shoots.map (Shoot.performed cn i) }

theorem storeLeaves_storeQ (s : State) (cn i : Nat) :
    ((storeLeaves s cn i).core cn).storeQ = (s.core cn).storeQ.eraseIdx i :=
  congrArg Core.storeQ (State.core_setCore_same s cn _)

theorem performEntry_store {s : State} {cn i pa : Nat} {bs : List Byte} {full : Option Bool}
    (h : (s.core cn).storeQ[i]? = some (.store pa bs full)) :
    performEntry s cn i = performStore (storeLeaves s cn i) cn pa bs full := by
  simp only [performEntry, h]
  rfl

/-- Which committed stores may be performed: in order at a memory controller, and around fences. -/
theorem mayPerform_store {s : State} {q : List QStore} {i pa : Nat} {bs : List Byte} {full : Option Bool}
    (h : q[i]? = some (.store pa bs full)) :
    mayPerform s q i = true ↔ ∀ j x, j < i → q[j]? = some x → x.meets pa bs.length = false := by
  simp only [mayPerform, h, List.all_eq_true, Bool.not_eq_true']
  constructor
  · intro hall j x hj hx
    exact hall x (List.mem_of_getElem? (i := j) (by rwa [List.getElem?_take_of_lt hj]))
  · intro hall x hx
    obtain ⟨j, hj, rfl⟩ := List.mem_take_iff_getElem.mp hx
    exact hall j _ (by omega) (List.getElem?_eq_getElem _)

theorem mayPerform_fence {s : State} {q : List QStore} {i : Nat} {d : Bool} (h : q[i]? = some (.fence d)) :
    mayPerform s q i = true ↔ i = 0 ∧ (d = true → storesOut s = false) := by
  simp only [mayPerform, h, Bool.and_eq_true, beq_iff_eq, Bool.not_eq_true', Bool.and_eq_false_imp]

/-! ### Registers and predicates committed (R50) -/

theorem gAfter_cons (w : Nat × W64) (ws : List (Nat × W64)) (r : Nat) (old : W64) :
    gAfter (w :: ws) r old = gAfter ws r (if w.1 = r then w.2 else old) := rfl

/-- Registers written one after the other leave the rest of the core. -/
theorem foldl_setG (ws : List (Nat × W64)) (c : Core) :
    ws.foldl (fun c w => c.setG w.1 w.2) c = { c with g := (ws.foldl (fun c w => c.setG w.1 w.2) c).g } := by
  induction ws generalizing c with
  | nil => rfl
  | cons w ws ih => exact ih (c.setG w.1 w.2)

theorem setG_getElem {r : Nat} (hr : r < 64) (c : Core) (v : W64) (k : Fin 64) :
    (c.setG r v).g[k] = if r = k.val then v else c.g[k] := by
  have hf : (fin 64 r).val = r := Nat.mod_eq_of_lt hr
  simp only [Core.setG, Fin.getElem_fin, Vector.getElem_set, hf]

theorem foldl_setG_getElem {ws : List (Nat × W64)} (hw : ∀ w ∈ ws, w.1 < 64) (c : Core) (k : Fin 64) :
    (ws.foldl (fun c w => c.setG w.1 w.2) c).g[k] = gAfter ws k.val c.g[k] := by
  induction ws generalizing c with
  | nil => rfl
  | cons w ws ih =>
    obtain ⟨hw0, hws⟩ := List.forall_mem_cons.mp hw
    rw [List.foldl_cons, ih hws, setG_getElem hw0, gAfter_cons]

/-- A predicate of a core written. -/
def setPred (p : BitVec 32) (w : Nat × Bool) : BitVec 32 :=
  if w.2 then p ||| BitVec.ofNat 32 (2 ^ w.1) else p &&& ~~~(BitVec.ofNat 32 (2 ^ w.1))

theorem foldl_setPred_getLsbD {ws : List (Nat × Bool)} (hw : ∀ w ∈ ws, w.1 < 32) (p : BitVec 32) (n : Fin 32) :
    (ws.foldl setPred p).getLsbD n.val = bAfter ws n.val (p.getLsbD n.val) := by
  induction ws generalizing p with
  | nil => rfl
  | cons w ws ih =>
    obtain ⟨hw0, hws⟩ := List.forall_mem_cons.mp hw
    have hset : (setPred p w).getLsbD n.val = if w.1 = n.val then w.2 else p.getLsbD n.val := by
      simpa only [setPred, Fin.ext_iff] using setBit_getLsbD p ⟨w.1, hw0⟩ n w.2
    rw [List.foldl_cons, ih hws, hset]
    rfl

/-- A core once a lane's registers and predicates are committed. -/
theorem core_commitRegs (s : State) (cn k : Nat) (l : Lane) : (commitRegs s cn k l).core cn =
    { s.core cn with
      g := (l.g.foldl (fun c w => c.setG w.1 w.2) (s.core cn)).g
      p := l.p.foldl setPred (s.core cn).p
      lanes := (s.core cn).lanes.set k { l with g := [], p := [] } } := by
  refine (State.core_setCore_same ..).trans ?_
  dsimp only [setLane]
  rw [foldl_setG]
  rfl

/-- The registers of a lane reach its core, and nothing else changes. -/
theorem commitRegs_registers (s : State) (cn k : Nat) (l : Lane) (hg : ∀ w ∈ l.g, w.1 < 64) (hp : ∀ w ∈ l.p, w.1 < 32) :
    let c := s.core cn
    let t := commitRegs s cn k l
    let z := t.core cn
    (∀ r : Fin 64, z.g[r] = gAfter l.g r.val c.g[r]) ∧ (∀ n : Fin 32, z.p.getLsbD n.val = bAfter l.p n.val (c.p.getLsbD n.val)) ∧
    z = { c with g := z.g, p := z.p, lanes := c.lanes.set k { l with g := [], p := [] } } ∧ t = s.setCore cn z := by
  dsimp only
  have ht : commitRegs s cn k l = s.setCore cn ((commitRegs s cn k l).core cn) :=
    congrArg (s.setCore cn) (State.core_setCore_same ..).symm
  refine ⟨fun r => ?_, fun n => ?_, ?_, ht⟩
  · rw [core_commitRegs]
    exact foldl_setG_getElem hg _ r
  · rw [core_commitRegs]
    exact foldl_setPred_getLsbD hp _ n
  · rw [core_commitRegs]

/-! ### One step of the commit -/

theorem commitStep_lane {s : State} {cn k : Nat} {l : Lane} (hk : (s.core cn).lanes.findIdx (fun l => l.run == .done) = k)
    (hl : (s.core cn).lanes[k]? = some l) :
    ((l.g ≠ [] ∨ l.p ≠ []) → commitStep s cn = commitRegs s cn k l) ∧
    (l.g = [] → l.p = [] → l.acts = [] → commitStep s cn = s.modCore cn fun c => setLane c k { l with run := .aborted }) ∧
    (l.g = [] → l.p = [] → ∀ a rest t, l.acts = a :: rest →
      commitAct (s.modCore cn fun c => setLane c k { l with acts := rest }) cn a = some t → commitStep s cn = t) := by
  subst hk
  refine ⟨fun h => ?regs, fun hg hp ha => ?ended, fun hg hp a rest t ha hact => ?act⟩
  case regs =>
    have hne : (!l.g.isEmpty || !l.p.isEmpty) = true := by simpa using h
    simp only [commitStep, hl, hne, if_true]
  case ended =>
    simp only [commitStep, hl, hg, hp, ha, List.isEmpty_nil, Bool.not_true, Bool.or_self, Bool.false_eq_true, if_false]
    rfl
  case act =>
    simp only [State.modCore, hg, hp] at hact
    simp only [commitStep, hl, hg, hp, ha, List.isEmpty_nil, Bool.not_true, Bool.or_self, Bool.false_eq_true, if_false, hact]

/-- Once no lane is left, the round ends. -/
theorem commitStep_roundEnds {s : State} {cn : Nat} (h : ∀ l ∈ (s.core cn).lanes, l.run ≠ .done) :
    commitStep s cn = closeRound s cn := by
  have hk : (s.core cn).lanes.findIdx (fun l => l.run == .done) = (s.core cn).lanes.length :=
    List.findIdx_eq_length.mpr fun l hl => by simpa using h l hl
  simp only [commitStep, hk, List.getElem?_length]

/-! ### The acts -/

theorem pushNote_eq (s : State) (cn target : Nat) (data : BitVec 32) :
    pushNote s target (BitVec.ofNat 64 (noteWord cn data.toNat)) =
      s.setCore target (if (s.core target).notes.length < 16
        then { s.core target with notes := (s.core target).notes ++
          [BitVec.ofNat 64 (2 ^ 63 + (coreDie cn + 8 * coreNo cn) * 2 ^ 32 + data.toNat)] }
        else { s.core target with novf := (s.core target).novf + 1 }) := rfl

theorem expired_eq (c : Core) (now : Nat) : c.expired now = match c.tdue with
    | some t => if t ≤ now then (if c.tper then (now - t) / max 1 c.tint + 1 else 1) else 0
    | none => 0 := by
  rw [Core.expired]
  cases c.tdue with
  | none => rfl
  | some t =>
    by_cases h : t ≤ now
    · simp only [if_pos h, if_neg (Nat.not_lt.mpr h)]
    · simp only [if_neg h, if_pos (Nat.lt_of_not_le h)]

theorem setTimer_eq (c : Core) (now : Nat) (per : Bool) (iv seen : Nat) :
    let due := c.expired now
    let n := BitVec.ofNat 32 (min (2 ^ 32 - 1) (c.tcount.toNat + due) - seen)
    let t := if per = true ∧ iv ≠ 0 then max 100 iv else iv
    let events := if due = 0 then c.events else c.events ||| 0x10
    c.setTimer now per iv seen = { c with
      tint := t, tper := per, tdue := if t = 0 then none else some (now + t), tcount := n
      events := if n = 0 then events &&& ~~~0x10 else events } := by
  have hdue : (if 0 < c.expired now then c.events ||| 0x10 else c.events) =
      if c.expired now = 0 then c.events else c.events ||| 0x10 := by
    rcases Nat.eq_zero_or_pos (c.expired now) with h | h
    · simp only [h, Nat.lt_irrefl, if_true, if_false]
    · rw [if_pos h, if_neg (Nat.ne_of_gt h)]
  simp only [Core.setTimer, hdue, Bool.and_eq_true, bne_iff_ne]

/-- Settles O43: the registers, the acts one by one, and the committed stores in their order. -/
theorem roundCommit : Obligations.RoundCommit := by
  refine ⟨commitRegs_registers, fun s cn k l => commitStep_lane, fun s cn => commitStep_roundEnds, fun s cn => ?acts,
    fun s q i => ⟨fun bs pa full => mayPerform_store, fun d => mayPerform_fence⟩, fun s cn i pa bs full hq hpa => ?performed⟩
  case acts =>
    refine ⟨fun pa bs full r hpa => ?_, fun pa bs full r hpa => ?_, fun target data => congrArg some (pushNote_eq ..),
      fun v => rfl, fun v => ?_, fun per iv seen => ?_, ?_, fun seen => rfl, fun seen => rfl, fun seen => rfl,
      fun cx die v => ?_, fun a verdict ticket => rfl⟩
    · simp only [commitAct, Core.commitStore, hpa, State.modCore, Bool.false_eq_true, if_false]
    · simp only [commitAct, Core.commitStore, hpa, State.modCore, if_true, Core.updateCache]
    · simp only [commitAct, Core.dropNote, if_true, State.modCore]
      rfl
    · have h := setTimer_eq (s.core cn) s.nstime per iv seen
      rw [expired_eq] at h
      exact congrArg (fun c => some (s.setCore cn c)) h
    · simp only [commitAct, State.modCore, List.isEmpty_iff]
    · simp only [commitAct, State.modCtx, fin_val]
  case performed =>
    have ht : performEntry s cn i = (memStore (storeLeaves s cn i) pa bs full).modCore cn fun c => c.updateCache (localPa pa) bs := by
      rw [performEntry_store hq, performStore_memory hpa]
    dsimp only
    rw [ht]
    refine ⟨memStore_mem .., ?_, fun hf => ?_, fun hf a => ?_⟩
    · rw [State.modCore, State.core_setCore_same]
      exact (memStore_core_storeQ ..).trans (storeLeaves_storeQ ..)
    · rw [hf]
      exact memStore_full_none ..
    · rw [hf]
      exact memStore_full_true ..

end Sys2Proof.Machine
end

section
/-! Faults found by walks, with data that returned, and in stores of the fabric (R54, R59, R169, R177, R315, R384): the
statement of O29. -/

namespace Sys2Proof.Machine

open Spec

theorem ofNat_bits {n : Nat} (x : BitVec n) (lo k : Nat) : BitVec.ofNat k (bits x.toNat lo k) = x.extractLsb' lo k := by
  rw [bits_eq_extractLsb', BitVec.ofNat_toNat, BitVec.setWidth_eq]

/-! ### The end of a walk -/

/-- How an access that waits for its walk translates: a full-empty access where a load or a buffered store asks for the
presence bit. -/
def walkWant (s : State) (t rq : Nat) (q : MemReq) : Want :=
  { write := q.kind == .store
    fe := q.kind == .lds || q.kind == .ldc ||
      ((regionAt s t).bind fun r => r.stores.find? fun x => x.id == rq).any (·.stf) }

/-- What the end of a walk makes of its access. -/
def walkEnds (t e rq : Nat) (q : MemReq) : Access × State → State
  | (.wait, u) => u
  | (.fault c va, u) => modReq u t e rq fun q => { q with walked := true, fault := some (c, va) }
  | (.pages ps, u) =>
    if q.kind = .store then modStores (u.modElem t e fun y => { y with reqs := y.reqs.filter fun r => r.id != rq }) t
      fun x => if x.id = rq then { x with pages := ps, walk := false } else x
    else modReq u t e rq fun q => { q with walked := true, pages := ps }

theorem exec_pageWalkComplete_access {s : State} {t e rq : Nat} {q : MemReq} (hq : findReq s t e rq = some q)
    (hw : q.walked = false) (hx : ∀ w, q.kind ≠ .xlat w) (ht : q.kind ≠ .take) :
    exec (.pageWalkComplete t e rq) s =
      .next (walkEnds t e rq q (elemTranslate s t e q.va q.len (walkWant s t rq q))) := by
  rw [exec_pageWalkComplete]
  cases hk : q.kind with
  | xlat w => exact absurd hk (hx w)
  | take => exact absurd hk ht
  | load _ _ | vload | store | lds | ldc =>
    simp only [execPageWalkComplete, hq, hw, hk, walkWant, Bool.false_eq_true, if_false]
    generalize elemTranslate s t e q.va q.len _ = p
    obtain ⟨a, u⟩ := p
    cases a <;> simp only [walkEnds, hk, reduceCtorEq, if_false, if_true]

/-! ### A fault goes to the region controller -/

/-- The stores of the fabric that no element reads: their entries are dropped. -/
def dropped : List StoreFault := [.dieTlb, .coreTlb, .dataCache]

theorem exec_memoryFaultFound_region {s : State} {t key : Nat} {what : StoreFault} (hwhat : what ∉ dropped)
    (hk : regionOf s t = some key) (e rq : Nat) :
    exec (.memoryFaultFound t e rq what) s = .next (
      if (s.elem t e).voidDue then
        regionFault s key (s.elem t e).efault.code.toNat (s.elem t e).fva 0 (s.elem t e).fwr
      else match (s.elem t e).reqs.find? fun q => q.id == rq && q.fault.isSome with
        | some q => regionFault (abortElem s t e q.plane q.slot (bits (slotWord (s.elem t e) q.plane q.slot).toNat 30 8)
            (q.fault.getD (0, 0)).1 (q.fault.getD (0, 0)).2 (q.kind == .store)) key (q.fault.getD (0, 0)).1
            (q.fault.getD (0, 0)).2 (if (q.fault.getD (0, 0)).1 = 5 ∨ (q.fault.getD (0, 0)).1 = 6
              then paIn q.pages (q.fault.getD (0, 0)).2 else 0) (q.kind == .store)
        | none => storageFault s key t e rq what) := by
  rw [exec_memoryFaultFound]
  cases what with
  | dieTlb | coreTlb | dataCache => exact absurd hwhat (by decide)
  | none | fifo | cistern | undo | snapshot | buffer | shadow | elemTlb =>
    simp only [execMemoryFaultFound, hk]
    cases (s.elem t e).voidDue with
    | true => rfl
    | false => cases (s.elem t e).reqs.find? fun q => q.id == rq && q.fault.isSome <;> rfl

/-- The fault of an aborted rule reaches the controller with the code and the address that the abort left. -/
theorem exec_memoryFaultFound_voidDue {s : State} {t e rq key : Nat} {what : StoreFault} (hwhat : what ∉ dropped)
    (hk : regionOf s t = some key) (hv : (s.elem t e).voidDue = true) :
    exec (.memoryFaultFound t e rq what) s = .next (regionFault s key (s.elem t e).efault.code.toNat
      (s.elem t e).fva 0 (s.elem t e).fwr) := by
  rw [exec_memoryFaultFound_region hwhat hk, if_pos hv]

/-- A fault that a request carries aborts the slot that asked, then reaches the controller. -/
theorem exec_memoryFaultFound_request {s : State} {t e rq key code va : Nat} {what : StoreFault} {q : MemReq}
    (hwhat : what ∉ dropped) (hk : regionOf s t = some key) (hv : (s.elem t e).voidDue = false)
    (hq : ((s.elem t e).reqs.find? fun q => q.id == rq && q.fault.isSome) = some q) (hf : q.fault = some (code, va)) :
    exec (.memoryFaultFound t e rq what) s = .next (regionFault (abortElem s t e q.plane q.slot
      (bits (slotWord (s.elem t e) q.plane q.slot).toNat 30 8) code va (q.kind == .store)) key code va
      (if code = 5 ∨ code = 6 then paIn q.pages va else 0) (q.kind == .store)) := by
  rw [exec_memoryFaultFound_region hwhat hk, hv, if_neg Bool.false_ne_true]
  simp only [hq, hf, Option.getD_some]

/-- An error of a store is left to its reader. -/
theorem exec_memoryFaultFound_storage {s : State} {t e n key : Nat} {what : StoreFault} (hwhat : what ∉ dropped)
    (hk : regionOf s t = some key) (hv : (s.elem t e).voidDue = false)
    (hq : ((s.elem t e).reqs.find? fun q => q.id == n && q.fault.isSome) = none) :
    exec (.memoryFaultFound t e n what) s = .next (storageFault s key t e n what) := by
  rw [exec_memoryFaultFound_region hwhat hk, hv, if_neg Bool.false_ne_true]
  simp only [hq]

theorem storageFault_fifo {s : State} {t e n : Nat} (h : (s.elem t e).head n ≠ none) (key : Nat) :
    storageFault s key t e n .fifo = s.modElem t e fun y => y.setChan n { y.chan n with parity := true } :=
  if_pos (Option.isSome_iff_ne_none.mpr h)

theorem storageFault_buffer {s : State} {key n : Nat} {r : Region} {x : RStore} (hr : s.region key = some r)
    (hx : x ∈ r.stores) (hn : x.id = n) (t e : Nat) : storageFault s key t e n .buffer =
      regionFault (s.modRegion key fun r => { r with stores := r.stores.filter fun y => y.id != n }) key 6 0 0 false := by
  have hfind : (r.stores.find? fun x => x.id == n).isSome = true :=
    List.find?_isSome.mpr ⟨x, hx, beq_iff_eq.mpr hn⟩
  obtain ⟨y, hy⟩ := Option.isSome_iff_exists.mp hfind
  simp only [storageFault, hr, Option.bind_some, hy]

/-! ### What a void leaves of the fabric (R59) -/

/-- Two states whose tiles, regions and generations are the same. -/
structure SameFabric (s t : State) : Prop where
  tiles : t.tiles = s.tiles
  regions : t.regions = s.regions
  gens : t.gens = s.gens

namespace SameFabric

theorem refl (s : State) : SameFabric s s := ⟨rfl, rfl, rfl⟩

theorem trans {s t u : State} (h : SameFabric s t) (h' : SameFabric t u) : SameFabric s u :=
  ⟨h'.tiles.trans h.tiles, h'.regions.trans h.regions, h'.gens.trans h.gens⟩

theorem foldl {α : Type} {f : State → α → State} (hf : ∀ s a, SameFabric s (f s a)) (as : List α) (s : State) :
    SameFabric s (as.foldl f s) := by
  induction as generalizing s with
  | nil => exact refl s
  | cons a as ih => exact (hf s a).trans (ih (f s a))

theorem memStore (s : State) (pa : Nat) (bs : List Byte) (full : Option Bool) :
    SameFabric s (Machine.memStore s pa bs full) := by
  cases bs with
  | nil => exact refl s
  | cons => exact ⟨rfl, rfl, rfl⟩

theorem refillLdcs (s : State) (r : Region) : SameFabric s (Machine.refillLdcs s r) :=
  foldl (f := fun s (l : Nat × Nat × W32) => Machine.memStore s l.2.1 (byteList 4 l.2.2.toNat) (some true))
    (fun _ _ => memStore ..) _ s

theorem modIslands (s : State) (f : State → Nat → Island → Island) (ens : List Nat) :
    SameFabric s (ens.foldl (fun s en => s.modIsland en (f s en)) s) :=
  foldl (f := fun s en => s.modIsland en (f s en)) (fun _ _ => ⟨rfl, rfl, rfl⟩) ens s

theorem freezeEngines (s : State) (r : Region) (b : Bool) : SameFabric s (Machine.freezeEngines s r b) :=
  (modIslands s (fun _ _ x => { x with frozen := b }) (regionIslands s r)).trans ⟨rfl, rfl, rfl⟩

end SameFabric

/-- The tiles of a module with those of a region rewritten. -/
def onTiles (r : Region) (f : Nat → Tile → Tile) (m : KMap Tile) : KMap Tile :=
  m.map fun p => if r.hasTile p.1 then (p.1, f p.1 p.2) else p

/-- A void rewrites the region's tiles and its controller; what else it does leaves tiles and regions. -/
theorem voidRegion_eq {s : State} {key : Nat} {r : Region} (hr : s.region key = some r) (replay : Bool) :
    ∃ u, SameFabric { s with tiles := onTiles r (voidSite r) s.tiles } u ∧
      voidRegion s key replay = u.setRegion key (voidController u r) := by
  have hfill := SameFabric.refillLdcs s r
  have htiles : SameFabric { s with tiles := onTiles r (voidSite r) s.tiles }
      (voidPools (voidEngines { refillLdcs s r with tiles := onTiles r (voidSite r) (refillLdcs s r).tiles } key r.stroke) key r) :=
    ⟨congrArg (onTiles r (voidSite r)) hfill.tiles, hfill.regions, hfill.gens⟩
  have hfreeze (v : State) : SameFabric v (if r.freezeMark then freezeEngines v r false else v) := by
    split
    · exact .freezeEngines v r false
    · exact .refl v
  have hislands (v : State) : SameFabric v (if replay then
      (regionIslands v r).foldl (fun s en => s.modIsland en (rewindIsland r.stroke (islandBack s en))) v else v) := by
    split
    · exact .modIslands v (fun s en => rewindIsland r.stroke (islandBack s en)) _
    · exact .refl v
  refine ⟨_, htiles.trans ((hfreeze _).trans (hislands _)), ?_⟩
  simp only [voidRegion, hr]
  rfl

theorem regionHandle_voidRegion {s : State} {key : Nat} {r : Region} (hr : s.region key = some r) (replay : Bool) :
    regionHandle (voidRegion s key replay) key = regionHandle s key := by
  obtain ⟨u, hu, heq⟩ := voidRegion_eq hr replay
  have hgens : (voidRegion s key replay).gens = s.gens := by
    rw [heq]
    exact hu.gens
  rw [regionHandle, regionHandle, genOf, genOf, hgens]

/-- A page fault of a region voids it and goes to its controller (R177, R315). -/
theorem regionFault_page {s : State} {key va code : Nat} {r : Region} (hr : s.region key = some r) (hc : code = 1 ∨ code = 2)
    (wr : Bool) : regionFault s key code va 0 wr = raisePageFault ((voidRegion s key true).modRegion key fun r =>
      { r with stopped := true, faultRec := some (va, code, wr) }) r.die ⟨0, regionHandle s key, r.ctx, va, wr, code⟩ := by
  rw [← regionHandle_voidRegion hr true]
  simp only [regionFault, hr, if_pos hc]
  rfl

/-- Settles O29: a walk's end, the controller's part of a fault, the stores' errors, and the region's page fault. -/
theorem faultsFound : Obligations.FaultsFound := by
  refine ⟨fun s t e rq q hq hw hx ht => ?walk, fun s t e rq what key hwhat hk hv => exec_memoryFaultFound_voidDue hwhat hk hv,
    fun s t e rq what key q code va hwhat hk hv hq hf => ?request, fun s t e n key hk hv hq => ?storage,
    fun s k e n => ⟨rfl, rfl, rfl⟩, fun s key r va wr code hr hc => regionFault_page hr hc wr⟩
  case walk =>
    have hexec := exec_pageWalkComplete_access hq hw hx ht
    dsimp only
    rw [walkWant] at hexec
    split
    next u hu => rw [hexec, hu]; rfl
    next c va u hu => rw [hexec, hu]; rfl
    next ps u hu =>
      rw [hexec, hu]
      exact ⟨fun hs => congrArg _ (if_neg hs), fun hs => congrArg _ (if_pos hs)⟩
  case request =>
    rw [exec_memoryFaultFound_request hwhat hk hv hq hf, abortElem, State.modElem, ofNat_bits]
  case storage =>
    have hexec {what : StoreFault} (hwhat : what ∉ dropped) := exec_memoryFaultFound_storage hwhat hk hv hq
    refine ⟨fun hh => ?_, ⟨_, hexec (by decide), fun g => ?_, fun v hv => ?_, rfl⟩, hexec (by decide), hexec (by decide),
      fun r x hr hx hn => ?_, hexec (by decide), hexec (by decide)⟩
    · rw [hexec (by decide), storageFault_fifo hh]
    · simp only [storageFault, State.modTile, State.tile_setTile_same, mem_fullSet, or_comm]
    · simp only [storageFault, State.modTile, State.tile_setTile_other _ _ hv]
    · rw [hexec (by decide), storageFault_buffer hr hx hn]

end Sys2Proof.Machine
end

section
/-! What a step runs (R44, R48, R50, R88, R278): the statement of O57. -/

namespace Sys2Proof.Machine

open Spec

/-! ### A step takes the head of the agenda -/

theorem step_agenda {s : State} {w : Work} {more : List Work} (ha : s.agenda = w :: more) (hp : s.powerOff = false) :
    step s = afterStep (runWork w { s with agenda := more }) := by
  simp only [step, runStep, nextWork, ha, hp, Bool.false_and, Bool.false_eq_true, if_false]

theorem step_event {s : State} {i : Instr} {more : List Work} (ha : s.agenda = .event i :: more) (hp : s.powerOff = false)
    (he : encode i = none) : step s = afterStep (exec i { s with agenda := more }) := by
  rw [step_agenda ha hp, runWork, he, if_pos Option.isNone_none]

/-! ### The rule of a tile's round (R44) -/

/-- A word that decodes has V set. -/
theorem valid_of_decodeElem {w : W64} {i : Instr} (h : decodeElem w = .ok i) : w.getLsbD 63 = true := by
  have hge : ¬ w.toNat < 2 ^ 63 := fun hlt => by
    rw [decodeElem, if_pos hlt] at h
    cases h
  have hmsb : w.msb = true := by
    rw [BitVec.msb_eq_decide, decide_eq_true_eq]
    omega
  rwa [BitVec.msb_eq_getLsbD_last] at hmsb

/-- A slot whose word decodes to a legal rule, with its code intact, holds that rule. -/
theorem slotAt_rule {s : State} {t e plane slot : Nat} {i : Instr} {o : Operands}
    (hd : decodeElem (slotWord (s.elem t e) plane slot) = .ok i) (ho : i.operands = some o)
    (hecc : (s.tile t).badEcc.contains (64 * e + 16 * plane + slot) = false) (hl : slotLegal s t e i = true) :
    slotAt s t e plane slot = .rule i o := by
  rw [State.elem] at hd
  simp only [slotAt, valid_of_decodeElem hd, hecc, hd, ho, hl, Bool.not_true, Bool.or_false, Bool.false_eq_true, if_false,
    if_true]

/-- The state in which a tile runs the rule at its turn: the rule is off the round, and its slot acts. -/
def ruleTurn (s : State) (t e slot : Nat) (rest : List RoundItem) : State :=
  { s.modTile t fun x => { x with todo := rest } with
    actor := { s.actor with tile := t, elem := e, plane := (s.elem t e).plane.toNat, slot := slot } }

theorem tile_ruleTurn (s : State) (t e slot : Nat) (rest : List RoundItem) :
    (ruleTurn s t e slot rest).tile t = { s.tile t with todo := rest } :=
  State.tile_modTile_same s t fun x => { x with todo := rest }

theorem elem_ruleTurn (s : State) (t e slot : Nat) (rest : List RoundItem) :
    (ruleTurn s t e slot rest).elem t e = s.elem t e := by
  rw [State.elem, tile_ruleTurn]
  rfl

theorem tileNext_fire {s : State} {t e slot : Nat} {dep : Option Nat} {q : Bool} {rest : List RoundItem} {i : Instr}
    {o : Operands} (hpres : present s t = true) (htodo : (s.tile t).todo = .fire e slot dep q :: rest)
    (hslot : slotAt (ruleTurn s t e slot rest) t e (s.elem t e).plane.toNat slot = .rule i o) :
    tileNext s t = (ruleTurn s t e slot rest, some i) := by
  rw [ruleTurn] at hslot
  simp only [tileNext, hpres, htodo, State.modTile_actor, hslot, Bool.not_true, Bool.false_eq_true, if_false]
  rfl

theorem runRule_next {i : Instr} {o : Operands} {s w : State} (ho : i.operands = some o) (hw : exec i s = .next w) :
    runRule i s = .next (if ready s i o && !(w.elem s.actor.tile s.actor.elem).faulted then w
      else dropDependents w s.actor.tile s.actor.elem) := by
  simp only [runRule, hw, ho, Option.any_some]

/-! ### The body word of a lane (R50) -/

theorem pickOf_singleton {α : Type} (n : Nat) (a : α) : pickOf n [a] = some a := rfl

theorem coreNext_lane {s : State} {cn k : Nat} {l : Lane} (hc : coreExists cn = true)
    (hk : coreChoices (drawNat s).2 cn = [.lane k]) (hl : (s.core cn).lanes[k]? = some l)
    (hlegal : l.pc ≠ 0 ∨ ruleLegal (s.core cn) l.rule = true) :
    coreNext s cn = ({ (drawNat s).2 with actor := { s.actor with core := cn, lane := k } }, some (laneWord (s.core cn) l)) := by
  have hcore : (drawNat s).2.core cn = s.core cn := rfl
  have hlane : (s.core cn).lanes.getD k { rule := 0 } = l := by
    rw [List.getD_eq_getElem?_getD, hl, Option.getD_some]
  have hgo : ¬ (l.pc = 0 ∧ (!ruleLegal (s.core cn) l.rule) = true) := by
    rintro ⟨hpc, hbad⟩
    obtain h | h := hlegal
    · exact h hpc
    · rw [h] at hbad
      cases hbad
  simp only [coreNext, hc, hk, pickOf_singleton, hcore, hlane, if_neg hgo, Bool.not_true, Bool.false_eq_true, if_false]
  rfl

/-! ### Triggers after a step (R278) -/

theorem kfind_rewatch {s : State} {bk : Nat} {t : Trigger} (h : kfind s.triggers bk = some t) :
    kfind (rewatch s).triggers bk = some (t.rewatch s bk) := by
  have hmap := kfind_mapValues s.triggers (fun k x => x.rewatch s k) bk
  rw [h] at hmap
  exact hmap

/-- Settles O57: the head of the agenda runs, by the kind of its agent. -/
theorem stepRunsDecoded : Obligations.StepRunsDecoded := by
  refine ⟨fun s t e slot dep q rest o i more ha hp hpres htodo => ?rule, fun s w => ?word,
    fun s cn k l more ha hp hc => ?lane, fun s i more => step_event, fun s n more ha hp => ?tick, fun s => rfl, fun s => rfl,
    fun s bk t => kfind_rewatch⟩
  case rule =>
    intro plane u v hd ho hecc hl w hw
    have hv : v = ruleTurn { s with agenda := more } t e slot rest := rfl
    have hstep : step s = afterStep (runRule i v) := by
      rw [hv] at hl ⊢
      rw [step_agenda ha hp, runWork, tileNext_fire (s := { s with agenda := more }) hpres htodo]
      refine slotAt_rule ?_ ho ?_ hl
      · rw [elem_ruleTurn]
        exact hd
      · rw [tile_ruleTurn]
        exact hecc
    rw [hstep, runRule_next ho hw]
    have hcond : (ready v i o && !(w.elem t e).faulted) = true ↔ ready v i o = true ∧ (w.elem t e).faulted = false := by
      rw [Bool.and_eq_true, Bool.not_eq_true']
    refine ⟨fun hr hf => ?_, fun hno => ?_⟩
    · exact congrArg (fun x => afterStep (.next x)) (if_pos (hcond.mpr ⟨hr, hf⟩))
    · refine congrArg (fun x => afterStep (.next x)) (if_neg fun h => ?_)
      obtain ⟨hr, hf⟩ := hcond.mp h
      obtain h | h := hno
      · exact Bool.false_ne_true (h.symm.trans hr)
      · exact Bool.false_ne_true (hf.symm.trans h)
  case word =>
    rw [runWord_eq]
    exact ⟨fun i h => by rw [h], fun e h => by rw [h]⟩
  case lane =>
    intro u hk hl hlegal
    rw [step_agenda ha hp, runWork, coreNext_lane (s := { s with agenda := more }) hc hk hl hlegal]
    rfl
  case tick => rw [step_agenda ha hp]; rfl

end Sys2Proof.Machine
end

section
/-! The close of a stroke and the void (R58, R59, R65, R173, R175, R297): the third part of O46. -/

namespace Sys2Proof.Machine

open Spec

/-! ### The tiles and elements of a region rewritten -/

theorem kfind_onTiles (r : Region) (f : Nat → Tile → Tile) (m : KMap Tile) (u : Nat) :
    kfind (onTiles r f m) u = (kfind m u).map fun x => if r.hasTile u then f u x else x := by
  have hmap : onTiles r f m = m.map fun p => (p.1, if r.hasTile p.1 then f p.1 p.2 else p.2) := by
    refine List.map_congr_left fun p _ => ?_
    split <;> rfl
  rw [hmap]
  exact kfind_mapValues m (fun u x => if r.hasTile u then f u x else x) u

section
variable {s t : State} {r : Region} {f : Nat → Tile → Tile} (h : t.tiles = onTiles r f s.tiles)
include h

theorem tile_onTiles_outside {u : Nat} (hu : r.hasTile u = false) : t.tile u = s.tile u := by
  simp [State.tile, kget, h, kfind_onTiles, hu]

theorem tile_onTiles_found {u : Nat} {x : Tile} (hu : r.hasTile u = true) (hx : kfind s.tiles u = some x) :
    t.tile u = f u x := by
  simp [State.tile, kget, h, kfind_onTiles, hu, hx]

/-- A rewriting that leaves the reset tile rewrites every tile of the region. -/
theorem tile_onTiles_inside {u : Nat} (hu : r.hasTile u = true) (hf : f u {} = {}) : t.tile u = f u (s.tile u) := by
  cases hx : kfind s.tiles u with
  | some x => rw [tile_onTiles_found h hu hx, State.tile, kget, hx, Option.getD_some]
  | none =>
    have ht : kfind t.tiles u = none := by rw [h, kfind_onTiles, hx, Option.map_none]
    rw [State.tile, State.tile, kget, kget, ht, hx, Option.getD_none, hf]

theorem elem_onTiles {u e : Nat} {y : Elem} {g : Nat → Elem → Elem} (hu : r.hasTile u = true)
    (hy : kfind (s.tile u).elems e = some y) (hf : ∀ x, (f u x).elems = x.elems.map fun p => (p.1, g p.1 p.2)) :
    t.elem u e = g e y := by
  have hfound : ∃ x, kfind s.tiles u = some x ∧ kfind x.elems e = some y := by
    rw [State.tile, kget] at hy
    cases hx : kfind s.tiles u with
    | some x => rw [hx, Option.getD_some] at hy; exact ⟨x, rfl, hy⟩
    | none => rw [hx, Option.getD_none] at hy; cases hy
  obtain ⟨x, hx, hyx⟩ := hfound
  rw [State.elem, tile_onTiles_found h hu hx, Tile.elem, kget, hf, kfind_mapValues, hyx, Option.map_some, Option.getD_some]

end

theorem elem_modElems {s : State} {r : Region} {u e : Nat} {y : Elem} (f : Elem → Elem) (hu : r.hasTile u = true)
    (hy : kfind (s.tile u).elems e = some y) : (modElems s r f).elem u e = f y :=
  elem_onTiles (g := fun _ => f) (f := fun _ x => { x with elems := x.elems.map fun q => (q.1, f q.2) })
    (t := modElems s r f) rfl hu hy fun _ => rfl

/-! ### What leaves the fabric as it was -/

namespace SameFabric

theorem region {s t : State} (h : SameFabric s t) (k : Nat) : t.region k = s.region k := by
  rw [State.region, h.regions, State.region]

theorem writePages (s : State) (ps : List Page) (va : Nat) (bs : List Byte) (setFull : Bool) :
    SameFabric s (Machine.writePages s ps va bs setFull) :=
  foldl (f := fun s (p : Nat × List Byte) => Machine.memStore s p.1 p.2 (if setFull && ps.any (·.fe) then some true else none))
    (fun _ _ => memStore ..) _ s

theorem addWord (s : State) (die ctx va add : Nat) : SameFabric s (Machine.addWord s die ctx va add) := by
  unfold Machine.addWord
  split
  · exact refl s
  · split
    · exact refl s
    · exact writePages ..

theorem replyAll (s : State) (os : List Owed) (code info : Nat) : SameFabric s (Machine.replyAll s os code info) :=
  foldl (f := fun s o => replyTo s o code info 0) (fun _ _ => ⟨rfl, rfl, rfl⟩) os s

theorem regionArrival (s : State) (r : Region) : SameFabric s (Machine.regionArrival s r) := by
  unfold Machine.regionArrival
  split
  · split
    · exact ⟨rfl, rfl, rfl⟩
    · exact refl s
  · exact refl s

end SameFabric

/-! ### Steps of the close -/

theorem region_modRegion {s : State} {k : Nat} {q : Region} (h : s.region k = some q) (f : Region → Region) :
    (s.modRegion k f).region k = some (f q) := by
  have hk : kfind s.regions k = some q := h
  rw [State.region, State.modRegion]
  simp only [kfind_kmod, if_true, hk, Option.map_some]

/-- The counts of a closed stroke leave for the counter block, and those of the next move up. -/
theorem commitCounts_region {s : State} {k : Nat} {r : Region} (hr : s.region k = some r) :
    (commitCounts s k).tiles = s.tiles ∧
      ∃ base, (commitCounts s k).region k = some { r with cnt0 := r.cnt1, cnt1 := {}, cntBase := base } := by
  have hwords : SameFabric s ([(0, r.cnt0.sat), (8, r.cnt0.ftz), (0x10, r.cnt0.nan), (0x18, r.cnt0.ixd)].foldl
      (fun s w => addWord s r.die r.ctx (r.cntVa + w.1) w.2) s) :=
    .foldl (f := fun s (w : Nat × Nat) => addWord s r.die r.ctx (r.cntVa + w.1) w.2) (fun _ _ => .addWord ..) _ s
  simp only [commitCounts, hr]
  exact ⟨hwords.tiles, _, region_modRegion ((hwords.region k).trans hr) _⟩

/-- Arrivals that no store holds back go out. -/
theorem sendArrivals_region {s : State} {k : Nat} {q : Region} (hq : s.region k = some q) :
    (sendArrivals s k).tiles = s.tiles ∧ (sendArrivals s k).region k = some { q with
      arriving := q.arriving.filter fun n => q.stores.any fun x => decide (x.stroke ≤ n) } := by
  let u := s.setRegion k { q with arriving := q.arriving.filter fun n => q.stores.any fun x => decide (x.stroke ≤ n) }
  have hgo (go : List Nat) : SameFabric u (go.foldl (fun s _ => regionArrival s q) u) :=
    .foldl (f := fun s _ => regionArrival s q) (fun s _ => .regionArrival s q) go u
  simp only [sendArrivals, hq]
  refine ⟨(hgo _).tiles, ((hgo _).region k).trans ?_⟩
  exact kfind_kput_same ..

/-! ### Tokens that leave boundary ports -/

/-- Two states whose regions differ in their watchdogs alone. -/
def SameButWatch (s t : State) : Prop :=
  ∀ k q, s.region k = some q → ∃ n, t.region k = some { q with watch := n }

namespace SameButWatch

theorem refl (s : State) : SameButWatch s s := fun _ q h => ⟨q.watch, h⟩

theorem trans {s t u : State} (h : SameButWatch s t) (h' : SameButWatch t u) : SameButWatch s u := by
  intro k q hq
  obtain ⟨n, hn⟩ := h k q hq
  obtain ⟨m, hm⟩ := h' k _ hn
  exact ⟨m, hm⟩

theorem foldl {α : Type} {f : State → α → State} (hf : ∀ s a, SameButWatch s (f s a)) (as : List α) (s : State) :
    SameButWatch s (as.foldl f s) := by
  induction as generalizing s with
  | nil => exact refl s
  | cons a as ih => exact (hf s a).trans (ih (f s a))

theorem touchRegion (s : State) (t : Nat) : SameButWatch s (Machine.touchRegion s t) := by
  unfold Machine.touchRegion
  split
  · exact refl s
  next k _ =>
    intro j q hq
    by_cases hj : j = k
    · subst hj
      exact ⟨0, region_modRegion hq _⟩
    · refine ⟨q.watch, ?_⟩
      have hq' : kfind s.regions j = some q := hq
      rw [State.region, State.modRegion]
      simp only [kfind_kmod, if_neg hj, hq']

theorem deliver_chan (s : State) (from_ : Nat) (tok : Token) (t e c : Nat) :
    SameButWatch s (deliver s from_ tok (.chan t e c)) := by
  rw [deliver]
  split
  · exact refl s
  · exact trans (t := s.modElem t e _) (refl s) (touchRegion _ t)

end SameButWatch

/-- What the delivery of a token leaves of the fabric: registers of elements and tiles, and the regions but for their
watchdogs. -/
structure TokensLaid (s t : State) : Prop where
  regs : RegsAndTokens s t
  elemCore : ∀ u e, (t.elem u e).core = (s.elem u e).core
  tileCore : ∀ u, (t.tile u).core = (s.tile u).core
  regions : SameButWatch s t

namespace TokensLaid

theorem refl (s : State) : TokensLaid s s := ⟨.refl s, fun _ _ => rfl, fun _ => rfl, .refl s⟩

theorem trans {s t u : State} (h : TokensLaid s t) (h' : TokensLaid t u) : TokensLaid s u :=
  ⟨h.regs.trans h'.regs, fun a e => (h'.elemCore a e).trans (h.elemCore a e), fun a => (h'.tileCore a).trans (h.tileCore a),
    h.regions.trans h'.regions⟩

theorem foldl {α : Type} {f : State → α → State} (hf : ∀ s a, TokensLaid s (f s a)) (as : List α) (s : State) :
    TokensLaid s (as.foldl f s) := by
  induction as generalizing s with
  | nil => exact refl s
  | cons a as ih => exact (hf s a).trans (ih (f s a))

theorem deliver_chan (s : State) (from_ : Nat) (tok : Token) (t e c : Nat) :
    TokensLaid s (deliver s from_ tok (.chan t e c)) :=
  ⟨.deliver .., deliver_core from_ tok _ s, fun u => (deliver_tile from_ tok _ s u).1, .deliver_chan s from_ tok t e c⟩

end TokensLaid

/-- The tokens of closed strokes at one boundary port of a region of group g go to the port's consumer. -/
def releasePort (g stroke : Nat) (s : State) (p : Nat × List Token) : State :=
  match boundaryTarget s g p.1 with
  | some (.chan t e c) => (p.2.filter fun k => decide (k.stroke < stroke)).foldl (fun s k => deliver s t k (.chan t e c)) s
  | _ => s

theorem TokensLaid.releasePort (g stroke : Nat) (s : State) (p : Nat × List Token) :
    TokensLaid s (Machine.releasePort g stroke s p) := by
  unfold Machine.releasePort
  split
  · exact .foldl (fun s k => .deliver_chan s _ k _ _ _) _ _
  · exact .refl s

/-- The release of a region's boundary ports lays tokens, and rewrites the ports of its region. -/
theorem releaseBoundary_eq {s : State} {k : Nat} {q : Region} (hq : s.region k = some q) :
    releaseBoundary s k = s ∨ ∃ g, releaseBoundary s k =
      (q.boundary.foldl (releasePort g q.stroke) s).modRegion k fun r => { r with boundary := r.boundary.map fun p =>
        (p.1, p.2.filter fun k => !decide (k.stroke < r.stroke)) } := by
  unfold releaseBoundary
  simp only [hq]
  split
  · exact .inl rfl
  next g _ =>
    split
    · exact .inl rfl
    · split
      · exact .inl rfl
      · exact .inr ⟨g, rfl⟩

/-- What the release of a region's boundary ports leaves of the fabric. -/
theorem releaseBoundary_region {s : State} {k : Nat} {q : Region} (hq : s.region k = some q) :
    ∃ v n b, TokensLaid s v ∧ (releaseBoundary s k).tiles = v.tiles ∧
      (releaseBoundary s k).region k = some { q with watch := n, boundary := b } := by
  obtain h | ⟨g, h⟩ := releaseBoundary_eq hq
  · rw [h]
    exact ⟨s, q.watch, q.boundary, .refl s, rfl, hq⟩
  · have hlaid : TokensLaid s (q.boundary.foldl (releasePort g q.stroke) s) := .foldl (.releasePort g q.stroke) _ _
    obtain ⟨n, hn⟩ := hlaid.regions k q hq
    rw [h]
    exact ⟨_, n, _, hlaid, rfl, region_modRegion hn _⟩

/-! ### The close of a stroke (R58, R59, R65, R297) -/

/-- The region controller's own share of the close. -/
def closeRegion (r : Region) : Region :=
  { r with
    stroke := r.stroke + 1, strokeMark := false, closeOwed := []
    passedAt := r.passedAt.filter fun n => !decide (n ≤ r.stroke)
    arriving := r.arriving ++ r.passedAt.filter fun n => decide (n ≤ r.stroke)
    ldcs := r.ldcs.filter fun l => !decide (l.1 ≤ r.stroke) }

/-- What the close of a stroke makes of its region, but for its watchdog and its boundary ports. -/
structure StrokeOver (r q : Region) : Prop where
  stroke : q.stroke = r.stroke + 1
  mark : q.strokeMark = false
  owed : q.closeOwed = []
  kernel : q.kernel = r.kernel
  cnt0 : q.cnt0 = r.cnt1
  cnt1 : q.cnt1 = {}
  stores : q.stores = r.stores
  arriving : ∀ n ∈ q.arriving, ∃ x ∈ q.stores, x.stroke ≤ n
  ldcs : ∀ x ∈ q.ldcs, x ∈ r.ldcs ∧ r.stroke < x.1

theorem strokeOver_close (r : Region) (base : Counts) :
    let q := closeRegion { r with cnt0 := r.cnt1, cnt1 := {}, cntBase := base }
    StrokeOver r { q with arriving := q.arriving.filter fun n => q.stores.any fun x => decide (x.stroke ≤ n) } where
  stroke := rfl
  mark := rfl
  owed := rfl
  kernel := rfl
  cnt0 := rfl
  cnt1 := rfl
  stores := rfl
  arriving n hn := by simpa using (List.mem_filter.mp hn).2
  ldcs x hx := by simpa [closeRegion] using hx

/-- A stroke that has passed everywhere closes: its tiles, its region, then the boundary ports. -/
theorem exec_strokeClose_passed {s : State} {k : Nat} {r : Region} (hr : s.region k = some r) (hp : strokePassed s r = true) :
    ∃ w q, exec (.strokeClose k) s = .next (releaseBoundary w k) ∧
      w.tiles = onTiles r (fun _ => closeTile r.stroke) s.tiles ∧ w.region k = some q ∧ StrokeOver r q := by
  let s₁ := modTiles s r (closeTile r.stroke)
  let s₂ := (regionIslands s₁ r).foldl (fun s en => s.modIsland en closeIsland) s₁
  have h₂ : SameFabric s₁ s₂ := .modIslands s₁ (fun _ _ => closeIsland) _
  obtain ⟨ht₃, base, hr₃⟩ := commitCounts_region (s := s₂) ((h₂.region k).trans hr)
  let s₄ := (commitCounts s₂ k).modRegion k closeRegion
  let s₅ : State := { s₄ with servers := s₄.servers.map fun p => (p.1, { p.2 with pools := p.2.pools.map fun w =>
    (w.1, { w.2 with taken := w.2.taken.filter fun x => !(x.region == k && decide (x.stroke ≤ r.stroke)) }) }) }
  have h₅ : SameFabric s₄ (replyAll s₅ r.closeOwed 0 1) :=
    .trans (t := s₅) ⟨rfl, rfl, rfl⟩ (.replyAll s₅ r.closeOwed 0 1)
  obtain ⟨ht₆, hr₆⟩ := sendArrivals_region ((h₅.region k).trans (region_modRegion hr₃ closeRegion))
  refine ⟨sendArrivals (replyAll s₅ r.closeOwed 0 1) k, _, ?_, ?_, hr₆, strokeOver_close r base⟩
  · rw [exec_strokeClose]
    simp only [execStrokeClose, hr, hp, if_true]
    rfl
  · exact ht₆.trans (h₅.tiles.trans (ht₃.trans h₂.tiles))

/-- The elements and tiles of a region take the snapshots of a closed stroke. -/
theorem closeTile_facts (stroke : Nat) (x : Tile) :
    (closeTile stroke x).snap = x.snapNext.getD x.snap ∧ (closeTile stroke x).snapNext = none ∧
      (closeTile stroke x).core = x.core ∧ ∀ u ∈ (closeTile stroke x).undo, u ∈ x.undo ∧ stroke < u.stroke :=
  ⟨rfl, rfl, rfl, fun u hu => by simpa [closeTile] using hu⟩

theorem strokeClose_closes {s : State} {k : Nat} {r : Region} (hr : s.region k = some r) (hp : strokePassed s r = true) :
    ∃ t q, exec (.strokeClose k) s = .next t ∧
    t.region k = some q ∧ q.stroke = r.stroke + 1 ∧ q.strokeMark = false ∧ q.closeOwed = [] ∧ q.kernel = r.kernel ∧
    q.cnt0 = r.cnt1 ∧ q.cnt1 = {} ∧ q.stores = r.stores ∧ (∀ n ∈ q.arriving, ∃ x ∈ q.stores, x.stroke ≤ n) ∧
    (∀ x ∈ q.ldcs, x ∈ r.ldcs ∧ r.stroke < x.1) ∧
    ∀ u, r.hasTile u = true → (t.tile u).snap = (s.tile u).snapNext.getD (s.tile u).snap ∧ (t.tile u).snapNext = none ∧
      (t.tile u).core = (s.tile u).core ∧ (∀ x ∈ (t.tile u).undo, x ∈ (s.tile u).undo ∧ r.stroke < x.stroke) ∧
      ∀ e y, kfind (s.tile u).elems e = some y →
        (t.elem u e).snap = y.snapNext.getD y.core ∧ (t.elem u e).snapNext = none ∧ (t.elem u e).core = y.core := by
  obtain ⟨w, q, hexec, hw, hq, hover⟩ := exec_strokeClose_passed hr hp
  obtain ⟨v, n, b, hlaid, hv, hreg⟩ := releaseBoundary_region hq
  have htile (u : Nat) : (releaseBoundary w k).tile u = v.tile u := by rw [State.tile, hv, State.tile]
  have helem (u e : Nat) : (releaseBoundary w k).elem u e = v.elem u e := by rw [State.elem, htile, State.elem]
  refine ⟨_, _, hexec, hreg, hover.stroke, hover.mark, hover.owed, hover.kernel, hover.cnt0, hover.cnt1, hover.stores,
    hover.arriving, hover.ldcs, fun u hu => ?_⟩
  obtain ⟨hsnap, hnext, hcore, hundo⟩ := closeTile_facts r.stroke (s.tile u)
  have hwu : w.tile u = closeTile r.stroke (s.tile u) := tile_onTiles_inside hw hu rfl
  rw [htile, hlaid.regs.tile, hlaid.tileCore, hwu]
  refine ⟨hsnap, hnext, hcore, hundo, fun e y hy => ?_⟩
  have hwe : w.elem u e = closeElem y := elem_onTiles (g := fun _ => closeElem) hw hu hy fun _ => rfl
  rw [helem, hlaid.regs.elem, hlaid.elemCore, hwe]
  exact ⟨rfl, rfl, rfl⟩

theorem strokePassed_iff (s : State) (r : Region) : strokePassed s r = true ↔ r.strokeMark = true ∧
    (∀ p ∈ regionElems s r, (s.elem p.1 p.2).stroke = r.stroke + 1) ∧
      ∀ en ∈ regionIslands s r, (s.island en).stroke = r.stroke + 1 := by
  simp only [strokePassed, Bool.and_eq_true, List.all_eq_true, beq_iff_eq, and_assoc]

theorem strokeClose_stays {s : State} {k : Nat} {r : Region} (hr : s.region k = some r) (hp : strokePassed s r = false) :
    exec (.strokeClose k) s = .next s := by
  rw [exec_strokeClose]
  simp only [execStrokeClose, hr, hp, Bool.false_eq_true, if_false]

/-! ### Stores of closed strokes (R173, R175) -/

/-- The store of a class that may be performed next is its first of the closed strokes. -/
theorem mem_drainable (r : Region) (x : RStore) : x ∈ drainable r ↔
    (r.stores.filter fun y => decide (y.stroke < r.stroke) && y.cls == x.cls).head? = some x := by
  have hfirst (c : Nat) : (r.stores.filter fun y => decide (y.stroke < r.stroke) && y.cls == c).head? =
      (r.stores.filter fun y => decide (y.stroke < r.stroke)).find? fun y => y.cls == c := by
    simp only [List.head?_filter, List.find?_filter, Bool.decide_and, Bool.decide_eq_true]
  simp only [drainable, List.mem_filterMap, List.mem_eraseDups, List.mem_map]
  constructor
  · rintro ⟨c, -, hc⟩
    have hx := List.find?_some hc
    rw [beq_iff_eq] at hx
    rw [hfirst, hx, hc]
  · intro h
    rw [hfirst] at h
    exact ⟨x.cls, ⟨x, List.mem_of_find?_eq_some h, rfl⟩, h⟩

/-- The value that a performed store leaves to be filled again: that of an LDC of an open stroke. -/
def emptiedLdcs (stroke : Nat) (x : RStore) : List (Nat × Nat × W32) :=
  match x.emptiedBy with
  | some n => if stroke ≤ n then [(n, localPa (paIn x.pages x.va), BitVec.ofNat 32 (natOf x.data))] else []
  | none => []

/-- The state in which a store of a region has been performed. -/
def storePerformed (s : State) (x : RStore) : State :=
  writeSpansSure (spansOf x.pages (x.pages.length + 1) x.va x.data) (if x.stf then some x.emptiedBy.isNone else none)
    (drawNat s).2

theorem exec_strokeDrainComplete_store {s : State} {k : Nat} {r : Region} {x : RStore} (hr : s.region k = some r)
    (hx : (drainable r)[(drawNat s).1 % (drainable r).length]? = some x) :
    exec (.strokeDrainComplete k) s = .next (sendArrivals ((storePerformed s x).modRegion k fun q => { q with
      stores := q.stores.filter fun y => y.id != x.id, ldcs := q.ldcs ++ emptiedLdcs r.stroke x }) k) := by
  rw [exec_strokeDrainComplete]
  simp only [execStrokeDrainComplete, hr]
  generalize (drainable r)[(drawNat s).1 % (drainable r).length]? = o at hx
  subst hx
  rfl

theorem SameFabric.sendStore (dst n : Nat) (s : State) (pa : Nat) (bs : List Byte) :
    SameFabric s (Machine.sendStore dst n s pa bs) := by
  induction n generalizing s pa bs with
  | zero => exact refl s
  | succ n ih =>
    have hsend (u : State) (body : FlitBody) : SameFabric u (sendOrDrop u dst body) := by
      simp only [sendOrDrop, passFlit]
      split <;> exact ⟨rfl, rfl, rfl⟩
    unfold Machine.sendStore
    split
    · exact refl s
    · exact .trans (t := markRemote s pa) ⟨rfl, rfl, rfl⟩ ((hsend ..).trans (ih ..))

theorem SameFabric.writeSpansSure (spans : List (Nat × List Byte)) (full : Option Bool) (s : State) :
    SameFabric s (Machine.writeSpansSure spans full s) := by
  induction spans generalizing s with
  | nil => exact refl s
  | cons p spans ih =>
    unfold Machine.writeSpansSure
    split
    · exact (sendStore ..).trans (ih _)
    · unfold physStore
      split
      · exact (memStore ..).trans (ih _)
      · exact ih s

theorem SameFabric.storePerformed (s : State) (x : RStore) : SameFabric s (Machine.storePerformed s x) :=
  .trans (t := (drawNat s).2) ⟨rfl, rfl, rfl⟩ (.writeSpansSure ..)

/-- A region listed once is rewritten by what a rewriting makes of it. -/
theorem modRegion_congr {s : State} {k : Nat} {r : Region} (h : ∀ p ∈ s.regions, p.1 = k → p.2 = r) {f g : Region → Region}
    (hfg : f r = g r) : s.modRegion k f = s.modRegion k g := by
  have hmap : kmod s.regions k f = kmod s.regions k g := by
    refine List.map_congr_left fun p hp => ?_
    by_cases hk : p.1 = k
    · rw [if_pos hk, if_pos hk, h p hp hk, hfg]
    · rw [if_neg hk, if_neg hk]
  rw [State.modRegion, hmap, State.modRegion]

/-- In a map of regions that lists a region once, a drained store leaves the value it took by that region's own stroke. -/
theorem exec_strokeDrainComplete_listedOnce {s : State} {k : Nat} {r : Region} {x : RStore} (hr : s.region k = some r)
    (hone : ∀ p ∈ s.regions, p.1 = k → p.2 = r) (hx : (drainable r)[(drawNat s).1 % (drainable r).length]? = some x) :
    exec (.strokeDrainComplete k) s = .next (sendArrivals ((storePerformed s x).modRegion k fun q => { q with
      stores := q.stores.filter fun y => y.id != x.id, ldcs := q.ldcs ++ emptiedLdcs q.stroke x }) k) := by
  have hone' : ∀ p ∈ (storePerformed s x).regions, p.1 = k → p.2 = r := by
    rw [(SameFabric.storePerformed s x).regions]
    exact hone
  rw [exec_strokeDrainComplete_store hr hx]
  exact congrArg (fun u => (.next (sendArrivals u k) : Result)) (modRegion_congr hone' rfl)

theorem exec_strokeDrainComplete_none {s : State} {k : Nat} {r : Region} (hr : s.region k = some r) (h : drainable r = []) :
    exec (.strokeDrainComplete k) s = .next (drawNat s).2 := by
  rw [exec_strokeDrainComplete]
  simp only [execStrokeDrainComplete, hr, h, List.getElem?_nil]

/-! ### The void (R59) -/

theorem kfind_eq_none {α : Type} {m : KMap α} {k : Nat} (h : ∀ p ∈ m, p.1 ≠ k) : kfind m k = none := by
  induction m with
  | nil => rfl
  | cons p m ih =>
    obtain ⟨hp, hm⟩ := List.forall_mem_cons.mp h
    simp only [kfind, if_neg (Ne.symm hp), ih hm]
    split <;> rfl

/-- A void empties every channel but the back channels. -/
theorem chan_voidElem {back : Nat → Bool} {c : Nat} (h : back c = false) (stroke : Nat) (y : Elem) :
    (voidElem stroke back y).chan c = {} := by
  have hnone : kfind (voidElem stroke back y).chans c = none := by
    refine kfind_eq_none fun p hp hpc => ?_
    obtain ⟨hmem, hne⟩ := List.mem_filter.mp hp
    obtain ⟨a, -, rfl⟩ := List.mem_map.mp hmem
    simp only at hpc
    subst hpc
    simp [voidChan, h] at hne
  rw [Elem.chan, kget, hnone, Option.getD_none]

/-- An element of a region once its tile is voided. -/
def voidedElem (r : Region) (u e : Nat) (y : Elem) : Elem :=
  let z := voidElem r.stroke (fun c => r.back.contains (u, e, c)) y
  if r.freezeMark then { z with frozen := false } else z

theorem elems_voidSite (r : Region) (u : Nat) (x : Tile) :
    (voidSite r u x).elems = x.elems.map fun p => (p.1, voidedElem r u p.1 p.2) := rfl

theorem voidedElem_facts (r : Region) (u e : Nat) (y : Elem) : let z := voidedElem r u e y
    z.core = y.snap ∧ z.stroke = r.stroke ∧ z.pending = [] ∧ z.reqs = [] ∧ z.inject = [] ∧ z.snapNext = none ∧
      z.efault = y.efault ∧ z.faulted = y.faulted ∧ ∀ c, r.back.contains (u, e, c) = false → z.chan c = {} := by
  have hchan (c) (hc : r.back.contains (u, e, c) = false) :=
    chan_voidElem (back := fun c => r.back.contains (u, e, c)) hc r.stroke y
  dsimp only [voidedElem]
  split <;> exact ⟨rfl, rfl, rfl, rfl, rfl, rfl, rfl, rfl, hchan⟩

theorem voidRegion_restores {s : State} {key : Nat} {r : Region} (hr : s.region key = some r) (replay : Bool) :
    let t := voidRegion s key replay
    (∀ u e y, r.hasTile u = true → kfind (s.tile u).elems e = some y →
      let z := t.elem u e
      z.core = y.snap ∧ z.stroke = r.stroke ∧ z.pending = [] ∧ z.reqs = [] ∧ z.inject = [] ∧ z.snapNext = none ∧
      z.efault = y.efault ∧ z.faulted = y.faulted ∧ ∀ c, r.back.contains (u, e, c) = false → z.chan c = {}) ∧
    (∀ u, r.hasTile u = false → t.tile u = s.tile u) ∧
    ∃ q, t.region key = some q ∧ q.cnt0 = {} ∧ q.cnt1 = {} ∧ q.strokeMark = false ∧ q.stroke = r.stroke ∧
      ∀ x ∈ q.stores, x.stroke < r.stroke := by
  obtain ⟨v, hv, heq⟩ := voidRegion_eq hr replay
  have htiles : (voidRegion s key replay).tiles = onTiles r (voidSite r) s.tiles := by rw [heq]; exact hv.tiles
  refine ⟨fun u e y hu hy => ?_, fun u hu => tile_onTiles_outside htiles hu,
    voidController v r, by rw [heq]; exact kfind_kput_same .., rfl, rfl, rfl, rfl, fun x hx => ?_⟩
  · dsimp only
    rw [elem_onTiles (g := voidedElem r u) htiles hu hy (elems_voidSite r u)]
    exact voidedElem_facts r u e y
  · obtain ⟨y, hy, rfl⟩ := List.mem_map.mp hx
    exact of_decide_eq_true (List.mem_filter.mp hy).2

end Sys2Proof.Machine
end

section
/-! Strokes' marks, cuts, backing rings and illegal slots (R43, R56, R57, R58, R60, R104, R105, R163, R199, R302, R303, R397):
the other parts of O46. -/

namespace Sys2Proof.Machine

open Spec

/-! ### The marks a region controller lays down (R56, R60, R302) -/

theorem firing_iff (r : Region) : (r.kernel == .firing || r.kernel == .draining) = true ↔ Firing r := by
  rw [Bool.or_eq_true, beq_iff_eq, beq_iff_eq, Firing]

/-- An element whose tile switches to a plane. -/
def switchElem (p : BitVec 2) (y : Elem) : Elem := { y with plane := p, stopped := false, drained := false }

/-- A region that switches to a plane: the requests that stood when its DRAIN was laid down are done. -/
def switchRegion (p : BitVec 2) (r : Region) : Region :=
  { r with plane := p, switchAt := none, planeReqs := r.planeReqs.drop r.drainN, drainN := 0 }

theorem exec_planeSwitch_due {s : State} {k : Nat} {r : Region} {p : BitVec 2} {due : Nat} (hr : s.region k = some r)
    (hp : r.switchAt = some (p, due)) (hdue : due ≤ originRounds s r) :
    exec (.planeSwitch k) s = .next ((modElems s r (switchElem p)).modRegion k (switchRegion p)) := by
  rw [exec_planeSwitch]
  simp only [execPlaneSwitch, hr, hp, if_pos hdue]
  rfl

theorem strokeMarks : StrokeMarks := by
  refine ⟨fun s k r hr hf hm hl => ?expiry, fun s k r hr hno => ?early, fun s k r hr hf hq hm hfr hst => ?mark,
    fun s k r hr hm => ?inFlight, fun s k r hr hf hq hd hsw hfr hst => ?drain, fun s k r p due hr hp hdue =>
      ⟨_, exec_planeSwitch_due hr hp hdue, fun u e y hu hy => elem_modElems (switchElem p) hu hy,
        region_modRegion (s := modElems s r (switchElem p)) hr (switchRegion p)⟩, fun s k r hr hno => ?notDue⟩
  case expiry =>
    rw [exec_strokeLengthExpiry]
    simp only [execStrokeLengthExpiry, hr, (firing_iff r).mpr hf, hm, hl, Bool.not_false, Bool.and_self, decide_true, if_true]
  case early =>
    rw [exec_strokeLengthExpiry]
    simp only [execStrokeLengthExpiry, hr]
    refine if_neg fun h => ?_
    simp only [Bool.and_eq_true, Bool.not_eq_true', decide_eq_true_eq] at h
    obtain ⟨⟨-, hm⟩, hl⟩ := h
    obtain hm' | hl' := hno
    · exact Bool.false_ne_true (hm.symm.trans hm')
    · omega
  case mark =>
    rw [exec_strokeMarkInject]
    simp only [execStrokeMarkInject, hr, (firing_iff r).mpr hf, hq, hm, hfr, hst, Bool.not_false, Bool.and_self, if_true]
  case inFlight =>
    rw [exec_strokeMarkInject]
    simp only [execStrokeMarkInject, hr, hm, Bool.not_true, Bool.and_false, Bool.false_and, Bool.false_eq_true, if_false]
  case drain =>
    have hne : (!r.planeReqs.isEmpty) = true := by simpa using hq
    rw [exec_drainInject]
    simp only [execDrainInject, hr, (firing_iff r).mpr hf, hne, hd, hsw, hfr, hst, Option.isNone_none, Bool.not_false,
      Bool.and_self, if_true]
    cases (r.planeReqs.filterMap PlaneReq.plane).getLast? with
    | none => rfl
    | some p => simp only [Nat.mul_comm 16]
  case notDue =>
    rw [exec_planeSwitch]
    cases hsw : r.switchAt with
    | none => simp only [execPlaneSwitch, hr, hsw]
    | some q => simp only [execPlaneSwitch, hr, hsw, if_neg (Nat.not_le.mpr (hno q.1 q.2 hsw))]

/-! ### Alignment at an element (R57, R58) -/

theorem alignedMark_iff (s : State) (t e : Nat) (k : Token) : alignedMark s t e = some k ↔
    (alignedInputs s t e = [] ∧ (s.elem t e).inject.head? = some k) ∨
    (∃ c, (alignedInputs s t e).head? = some c ∧ (s.elem t e).head c = some k ∧ k.kind < 3 ∧
      ∀ d ∈ alignedInputs s t e, ∃ m, (s.elem t e).head d = some m ∧ m.kind = k.kind) := by
  have hsame (k : Token) (d : Nat) : (match (s.elem t e).head d with
      | some m => m.kind == k.kind
      | none => false) = true ↔ ∃ m, (s.elem t e).head d = some m ∧ m.kind = k.kind := by
    cases (s.elem t e).head d <;> simp
  unfold alignedMark
  cases alignedInputs s t e with
  | nil => simp
  | cons c cs =>
    cases hc : (s.elem t e).head c with
    | none => simp [hc]
    | some j =>
      simp only [reduceCtorEq, false_and, false_or, List.head?_cons, Option.some.injEq, exists_eq_left', List.forall_mem_cons, hc,
        Option.ite_none_right_eq_some, Bool.and_eq_true, decide_eq_true_eq, List.all_eq_true]
      constructor
      · rintro ⟨⟨hlt, hall⟩, rfl⟩
        exact ⟨rfl, hlt, rfl, fun d hd => (hsame j d).mp (hall d hd)⟩
      · rintro ⟨rfl, hlt, -, hall⟩
        exact ⟨⟨hlt, fun d hd => (hsame j d).mpr (hall d hd)⟩, rfl⟩

theorem actOnMark_acts (s : State) (t e : Nat) (k : Token) : let y := s.elem t e; let u := actOnMark s t e k
    (k.kind = 0 → (u.elem t e).snapNext = some y.core ∧ (u.elem t e).stroke = y.stroke + 1 ∧
      (u.tile t).snapNext = some ((s.tile t).snapNext.getD (s.tile t).core)) ∧
    (k.kind = 1 → u.elem t e = { y with drained := true, stopped := y.stopped || k.data.getLsbD 6 }) ∧
    (k.kind = 2 → u.elem t e = { y with frozen := true }) := by
  refine ⟨fun hk => ?stroke, fun hk => ?drain, fun hk => ?freeze⟩
  case stroke =>
    let back := (s.elem t e).inputs.filter (isBack s t e)
    let u := s.modElem t e (snapElem back)
    have hact : actOnMark s t e k = u.modTile t fun x => { x with snapNext := some (x.snapNext.getD x.core) } := by
      simp only [actOnMark, hk]
      rfl
    have helem : (actOnMark s t e k).elem t e = snapElem back (s.elem t e) := by
      rw [hact, State.elem, State.tile_modTile_same]
      exact State.elem_modElem_same ..
    have htile : ((actOnMark s t e k).tile t).snapNext = some ((s.tile t).snapNext.getD (s.tile t).core) := by
      rw [hact, State.tile_modTile_same, State.tile_modElem]
    rw [helem, htile]
    exact ⟨rfl, rfl, rfl⟩
  case drain =>
    have hbit : (bits k.data.toNat 6 1 == 1) = k.data.getLsbD 6 := by
      rw [Bool.eq_iff_iff, beq_iff_eq, bits_one_eq_one_iff]
    simp only [actOnMark, hk, State.elem_modElem_same, hbit]
  case freeze => simp only [actOnMark, hk, State.elem_modElem_same]

theorem marksPass : MarksPass := by
  refine ⟨fun s t e k hf hfr hm hc => ?mark, alignedMark_iff, actOnMark_acts, fun s en k hm hc hfr => ?island,
    fun s en p => ?ports, fun s t e hne hin hc hf hfr => ?barrier, fun s t e h => ?early, fun s en hfr hne hin hc => ?islandBarrier⟩
  case mark =>
    rw [exec_markAligned]
    simp only [execMarkAligned, hf, hfr, hm, hc, Bool.or_self, Bool.false_eq_true, if_false, if_true]
    exact ⟨fun hk => if_neg hk, fun hk key hkey => by rw [if_pos hk, hkey]⟩
  case island =>
    rw [exec_markAligned]
    simp only [execMarkAligned, hm, hc, hfr, Bool.not_false, Bool.and_self, if_true, List.isEmpty_iff]
  case ports =>
    simp only [islandAligned, List.mem_filter, islandBack, Bool.not_eq_true', List.any_eq_false, List.contains_iff_mem]
  case barrier =>
    rw [exec_barrierAligned]
    have hready : barrierReady s t e = true := by
      simp only [barrierReady, Bool.and_eq_true, List.all_eq_true, decide_eq_true_eq]
      exact ⟨by simpa using hne, hin⟩
    simp only [execBarrierAligned, hready, hc, hf, hfr, Bool.not_false, Bool.and_self, if_true]
  case early =>
    obtain ⟨c, hmem, hle⟩ := h
    have hready : barrierReady s t e = false := by
      rw [Bool.eq_false_iff]
      simp only [barrierReady, ne_eq, Bool.and_eq_true, List.all_eq_true, decide_eq_true_eq]
      exact fun h => Nat.not_le.mpr (h.2 c hmem) hle
    rw [exec_barrierAligned]
    simp only [execBarrierAligned, hready, Bool.false_and, Bool.false_eq_true, if_false]
  case islandBarrier =>
    have hall : (!(islandAligned s en).isEmpty && (islandAligned s en).all fun p => decide
        (((s.modIsland en fun x => x.takeBarriers (islandAligned s en)).island en).core.barOut <
          kget ((s.modIsland en fun x => x.takeBarriers (islandAligned s en)).island en).core.barIn p 0)) = true := by
      simp only [Bool.and_eq_true, List.all_eq_true, decide_eq_true_eq]
      exact ⟨by simpa using hne, hin⟩
    rw [exec_barrierAligned]
    simp only [execBarrierAligned, hfr, hall, hc, Bool.and_self, Bool.false_eq_true, if_false, if_true]
    simp only [State.island_modIsland_same]

/-! ### Cuts and backing rings (R43, R163) -/

theorem cutsAndBackingRings : CutsAndBackingRings := by
  refine ⟨fun s t e l c k hl hcut hf hfr hfind hk => ?cut, fun s t e c k ks hfl hb hfull hroom => ?spill,
    fun s t e c k ks hring hlt => ?refill, fun s t e c => ⟨fun h => ?noSpill, fun h => ?noRefill⟩⟩
  case cut =>
    intro u cut r hr
    rw [exec_cutArrival]
    unfold execCutArrival
    simp only [hl]
    generalize hg : List.find? _ (s.elem t e).inputs = o
    obtain rfl : o = some c := hg.symm.trans hfind
    have hr' : regionAt (s.modElem t e fun y => y.dropHead c) t = some r := hr
    simp only [hcut, hf, hfr, hk, hr', Option.isSome_none, Bool.or_self, Bool.false_eq_true, if_false, Option.getD_some]
    rfl
  case spill =>
    have hgo : (bindRingen ((s.elem t e).inBind c) && (decide (2 ≤ ((s.elem t e).chan c).fifo.length) ||
        !((s.elem t e).chan c).ring.isEmpty) && decide (((s.elem t e).chan c).ring.length <
          ringSlots (s.tile t) (bindRing ((s.elem t e).inBind c)))) = true := by
      simp only [hb, Bool.and_eq_true, Bool.or_eq_true, decide_eq_true_eq, Bool.not_eq_true', List.isEmpty_eq_false_iff]
      exact ⟨⟨trivial, hfull⟩, hroom⟩
    rw [exec_ringSpill]
    simp only [execRingSpill, hfl, hgo, if_true]
  case refill =>
    rw [exec_ringRefill]
    refine ⟨fun hb => ?_, fun hb hnil => ?_, fun hb hne => ?_⟩
    · simp only [execRingRefill, hring, hb, hlt, Bool.false_eq_true, if_false, decide_true, if_true, Bool.or_false]
    · simp only [execRingRefill, hring, hb, hnil, if_true, List.isEmpty_nil, List.nil_append, Bool.or_true]
    · simp only [execRingRefill, hring, hb, if_true, List.isEmpty_iff, hne, if_false]
  case noSpill =>
    rw [exec_ringSpill]
    simp only [execRingSpill, h]
  case noRefill =>
    rw [exec_ringRefill]
    cases hring : ((s.elem t e).chan c).ring with
    | nil => simp only [execRingRefill, hring]
    | cons k ks =>
      have hlen : 2 ≤ ((s.elem t e).chan c).fifo.length := h.resolve_left (by rw [hring]; exact List.cons_ne_nil k ks)
      simp only [execRingRefill, hring]
      refine if_neg ?_
      split
      · rw [List.isEmpty_iff_length_eq_zero]
        omega
      · rw [decide_eq_true_eq]
        omega

/-! ### Illegal slots (R104, R105) -/

theorem slotAt_illegal {s : State} {t e plane slot : Nat} (h : slotAt s t e plane slot = .illegal) :
    (slotWord (s.elem t e) plane slot).getLsbD 63 = true ∧ ∀ i, decodeElem (slotWord (s.elem t e) plane slot) = .ok i →
      i.operands = none ∨ slotLegal s t e i = false := by
  rw [State.elem]
  unfold slotAt at h
  simp only at h
  split at h
  next => cases h
  next hon =>
    obtain ⟨hv, -⟩ := not_or.mp (mt Bool.or_eq_true_iff.mpr hon)
    refine ⟨by simpa using hv, fun i hi => ?_⟩
    simp only [hi] at h
    cases ho : i.operands with
    | none => exact .inl rfl
    | some o =>
      refine .inr (Bool.eq_false_iff.mpr fun hl => ?_)
      simp only [ho, hl, if_true] at h
      cases h

theorem illegalSlots : IllegalSlots := by
  refine ⟨fun s t e plane slot hslot hrun hplane => ?element, fun s t e plane slot => slotAt_illegal,
    fun s c rule k hk hl => ?pump⟩
  case element =>
    rw [exec_illegalSlot]
    simp only [execIllegalSlot, meetIllegal, hslot, hrun, hplane, beq_self_eq_true, Bool.and_self, if_true, bits_eq_extractLsb']
  case pump =>
    rw [exec_illegalSlot]
    simp only [execIllegalSlot, meetIllegalRule, hk, hl, Bool.false_eq_true, if_false]

end Sys2Proof.Machine
end

section
/-! The refutation of O46: its clause on drained stores fails where the map of regions lists a key twice (R173, R176), which
`exec_strokeDrainComplete_listedOnce` excludes.  Its other parts hold: `strokeMarks`, `marksPass`, `cutsAndBackingRings`,
`illegalSlots`, and of the ends of strokes `strokeClose_closes`, `strokeClose_stays`, `strokePassed_iff`, `mem_drainable`,
`exec_strokeDrainComplete_none` and `voidRegion_restores`. -/

namespace Sys2Proof.Machine

open Spec

/-- A store of stroke 0 whose word an LDC of stroke 1 took. -/
def takenStore : RStore where
  tile := 0
  elem := 0
  cls := 0
  stroke := 0
  va := 0
  data := []
  units := 0
  pages := []
  walk := false
  stf := false
  emptiedBy := some 1

/-- A region whose open stroke is n, with the store. -/
def regionAtStroke (n : Nat) : Region where
  die := 0
  id := 0
  col := 0
  row := 0
  width := 1
  height := 1
  ctx := 0
  stroke := n
  stores := [takenStore]

/-- The map of regions lists key 0 twice, the second time with a later open stroke. -/
def listedTwice : State := { State.reset with regions := [(0, regionAtStroke 1), (0, regionAtStroke 2)] }

/-- How many values each listed region keeps for refilling. -/
def keptValues (s : State) : List Nat := s.regions.map fun p => p.2.ldcs.length

theorem drainable_listedTwice : drainable (regionAtStroke 1) = [takenStore] := rfl

/-- Refutes O46: where the map of regions lists a key twice, the model keeps the value of a taken word in both entries
by the open stroke of the first, and the statement in each by its own. -/
theorem not_strokeEvents : ¬ Obligations.StrokeEvents := by
  rintro ⟨-, -, ⟨-, -, -, hdrain, -⟩, -⟩
  have hx : (drainable (regionAtStroke 1))[(drawNat listedTwice).1 % (drainable (regionAtStroke 1)).length]? =
      some takenStore := by
    rw [drainable_listedTwice, List.length_singleton, Nat.mod_one]
    rfl
  have hstated := (hdrain listedTwice 0 (regionAtStroke 1) rfl).2 takenStore hx
  rw [exec_strokeDrainComplete_store rfl hx] at hstated
  injection hstated with hstates
  exact absurd (congrArg keptValues hstates) (by decide)

end Sys2Proof.Machine
end

section
/-! Lanes moved (R62, R145 to R148): each operation on a whole register, lane by lane. -/

namespace Sys2Proof.Machine

open Spec

theorem movedBits_le (fmt : Fmt) : Lanes.movedBits fmt ≤ laneWidth fmt := by cases fmt <;> decide

theorem laneWidth_le (fmt : Fmt) : laneWidth fmt ≤ 32 := by cases fmt <;> decide

theorem broadcast_eq (fmt : Fmt) (x : Nat) : BitVec.ofNat 256 (Lanes.broadcast fmt x) =
    vec 256 (laneWidth fmt) (Lanes.count fmt) fun _ => x % 2 ^ Lanes.movedBits fmt := by
  rw [vec_eq, Lanes.broadcast, List.map_const', List.length_range]

/-- The moved bits of a lane lie within it (R145, R146). -/
theorem extract_eq {n : Nat} (fmt : Fmt) (x : BitVec n) (k : Nat) : BitVec.ofNat 32 (Lanes.extract fmt x.toNat k) =
    if k < Lanes.count fmt then BitVec.ofNat 32 ((laneAt (laneWidth fmt) x k).toNat % 2 ^ Lanes.movedBits fmt) else 0 := by
  rw [Lanes.extract, laneAt_toNat, Nat.mod_mod_of_dvd _ (pow_dvd_pow 2 (movedBits_le fmt))]
  split <;> rfl

theorem extract_lt (fmt : Fmt) (x k : Nat) : Lanes.extract fmt x k < 2 ^ 32 := by
  have hbits : 2 ^ Lanes.movedBits fmt ≤ 2 ^ 32 :=
    Nat.pow_le_pow_right (by decide) ((movedBits_le fmt).trans (laneWidth_le fmt))
  unfold Lanes.extract
  split
  · exact (Nat.mod_lt _ (by positivity)).trans_le hbits
  · decide

/-- A result of 32 bits whose result bit says whether it is not 0 (R114). -/
theorem computes_nonZero {i : Instr} {s : State} {d : Dst} {q : Nat}
    (he : exec i s = fire i 1 s (.ok (scalarFired d (nonZero q)))) (hq : q < 2 ^ 32) :
    Computes i s d (res (BitVec.ofNat 32 q)) := by
  refine computes_of he rfl ?_
  have hzero : BitVec.ofNat 32 q = 0 ↔ q = 0 := by
    rw [BitVec.toNat_eq, BitVec.toNat_ofNat, Nat.mod_eq_of_lt hq]
    rfl
  simp only [res, nonZero, bne, beq_eq_decide, hzero]

theorem set_map_range {α : Type} (n k : Nat) (f : Nat → α) (y : α) :
    ((List.range n).map f).set k y = (List.range n).map fun j => if j = k then y else f j := by
  apply List.ext_getElem
  · simp
  · intro j _ _
    simp [List.getElem_set, eq_comm]

theorem insert_eq (fmt : Fmt) (x : BitVec 256) (a k : Nat) : BitVec.ofNat 256 (Lanes.insert fmt x.toNat a k) =
    if k < Lanes.count fmt then
      vec 256 (laneWidth fmt) (Lanes.count fmt) fun j => if j = k
        then a % 2 ^ Lanes.movedBits fmt else (laneAt (laneWidth fmt) x j).toNat
    else x := by
  unfold Lanes.insert
  split
  · rw [codes_eq, set_map_range, vec_eq]
  · rw [BitVec.ofNat_toNat, BitVec.setWidth_eq]

/-- VIOTA in a floating-point format encodes the exact numbers (R147). -/
theorem iota_float {fmt : Fmt} {f : FloatSpec} (hk : kindOf fmt = .float f) (a b : BitVec 32) :
    (BitVec.ofNat 256 (Lanes.iota fmt a.toNat b.toNat).1, (Lanes.iota fmt a.toNat b.toNat).2) =
      lanes fmt fun k => .ofInt (a.toInt + k * b.toInt) := by
  simp only [Lanes.iota, hk, List.map_map, Function.comp_def, toSigned_eq _ (by decide : 0 < 32)]
  exact encodeRne_eq fmt _

/-- VIOTA in any other format keeps the low bits of each number (R147). -/
theorem iota_wrap {fmt : Fmt} (hk : ∀ f, kindOf fmt ≠ .float f) (a b : BitVec 32) :
    (BitVec.ofNat 256 (Lanes.iota fmt a.toNat b.toNat).1, (Lanes.iota fmt a.toNat b.toNat).2) =
      (vec 256 (laneWidth fmt) (Lanes.count fmt) fun k => ((a.toInt + k * b.toInt) % 2 ^ laneWidth fmt).toNat, {}) := by
  unfold Lanes.iota
  split
  · exact absurd ‹_› (hk _)
  · simp only [vec_eq, List.map_map, Function.comp_def, toSigned_eq _ (by decide : 0 < 32)]
    rfl

theorem getD_map_range (n j : Nat) (f : Nat → Nat) : ((List.range n).map f).getD j 0 = if j < n then f j else 0 := by
  split <;> simp [List.getD_eq_getElem?_getD, *]

theorem shuffle_eq (lw : LaneW) (x y : BitVec 256) : BitVec.ofNat 256 (Lanes.shuffle lw x.toNat y.toNat) =
    let w := Lanes.laneBits lw
    vec 256 w (256 / w) fun k =>
      let j := (laneAt w y k).toNat
      if j < 256 / w then (laneAt w x j).toNat else 0 := by
  simp only [Lanes.shuffle, split_eq, ← laneAt_toNat, List.map_map, Function.comp_def, getD_map_range, vec_eq]

theorem laneMovement : LaneMovement := by
  refine ⟨fun s g fmt d a hrep => ?vbcst, fun s g fmt d a hrep => ?outside, fun s g fmt d a b => ?vext,
    fun s g fmt d a b => ?vins, fun s g fmt d a b => ?viota, fun s g lw d a b => ?vshuf⟩
  case vbcst =>
    have he := exec_vbcst (g := g) (fmt := fmt) (d := d) (a := a) (s := s)
    rw [execVbcst, if_pos hrep] at he
    exact fires_of he (by rw [vectorRes_eq, broadcast_eq, readS_eq]) rfl rfl rfl rfl
  case outside =>
    have he := exec_vbcst (g := g) (fmt := fmt) (d := d) (a := a) (s := s)
    rw [execVbcst, hrep] at he
    exact traps_of he
  case vext =>
    rw [← extract_eq, ← readLanes_eq, ← readS_eq]
    exact computes_nonZero exec_vext (extract_lt ..)
  case vins =>
    intro old
    have hold : readVDst s d = old.toNat := by cases d <;> rfl
    exact fires_of exec_vins (by rw [vectorRes_eq, hold, insert_eq, readS_eq, readS_eq]) rfl rfl rfl rfl
  case viota =>
    intro x r
    have hr : (BitVec.ofNat 256 (Lanes.iota fmt (src32 s a).toNat (src32 s b).toNat).1,
        (Lanes.iota fmt (src32 s a).toNat (src32 s b).toNat).2) = r := by
      cases hk : kindOf fmt with
      | float f => simpa only [r, hk] using iota_float hk _ _
      | _ => simpa only [r, hk] using iota_wrap (by simp [hk]) _ _
    rw [← hr]
    refine firesConv_of exec_viota ?_ rfl ?_ rfl rfl <;> simp only [vectorFired, vectorRes_eq, readS_eq]
  case vshuf =>
    exact fires_of exec_vshuf (by rw [vectorRes_eq, readWide_eq, readWide_eq, shuffle_eq]) rfl rfl rfl rfl

end Sys2Proof.Machine
end

section
/-! Random words, dropout and the corner turn (R154, R155, R157): the statement of O17. -/

namespace Sys2Proof.Machine

open Spec

/-- A lane of code `c` that dropout keeps where its random word `w` is below the threshold, or the threshold is the
highest (R155). -/
def dropLane (fmt : Fmt) (thr : BitVec 32) (w c : Nat) : Nat × Flags :=
  if thr = 0xFFFFFFFF ∨ w < thr.toNat then encodeLane fmt .rne 0 (decodeLane fmt c) else (0, {})

theorem drop_eq {n : Nat} (fmt : Fmt) (seed layer : Nat) (thr : BitVec 32) (x : BitVec n) (b : Nat) :
    let r (k : Nat) := dropLane fmt thr (rngWord seed layer ((b + k) % 2 ^ 32)) (laneAt (laneWidth fmt) x k).toNat
    (BitVec.ofNat 256 (Lanes.drop fmt seed layer thr.toNat x.toNat b).1, (Lanes.drop fmt seed layer thr.toNat x.toNat b).2) =
      (vec 256 (laneWidth fmt) (Lanes.count fmt) fun k => (r k).1, convs (Lanes.count fmt) fun k => (r k).2) := by
  have hthr : thr.toNat = 2 ^ 32 - 1 ↔ thr = 0xFFFFFFFF := by simp [BitVec.toNat_eq]
  simp only [Lanes.drop, codes_eq, mapIdx_range, vec_eq, ← convs_eq, List.map_map, Function.comp_def, dropLane, hthr,
    Bool.or_eq_true, decide_eq_true_eq]

theorem randomAndTurn : RandomAndTurn := by
  refine ⟨fun s g kind d a b => ?vrng, fun s g fmt d a b => ?vdrop, fun s g lw d a => ?cturn⟩
  case vrng =>
    refine firesLate_of exec_vrng (by decide) ?_ rfl rfl rfl rfl
    rw [vectorRes_eq, readS_eq, readS_eq]
    match kind with
    | 0 | 1 | 2 | 3 => exact congrArg (at256 d) (vec_eq ..).symm
  case vdrop =>
    intro c w r
    have h := drop_eq fmt (seedOf s s.actor.tile) c.x[14].toNat c.x[15] (srcV s fmt a) (src32 s b).toNat
    obtain ⟨hcodes, hevents⟩ := Prod.mk.inj h
    refine firesLate_of exec_vdrop (by decide) ?_ rfl ?_ rfl rfl
    · rw [vectorFired, vectorRes_eq, readLanes_eq, readS_eq]
      exact congrArg (at256 d) hcodes
    · rw [vectorFired, readLanes_eq, readS_eq]
      exact hevents
  case cturn =>
    intro w u r
    have he := exec_cturn (g := g) (lw := lw) (d := d) (a := a) (s := s)
    rw [execCturn, readWide_eq] at he
    refine fires_of he ?_ rfl rfl rfl rfl
    change (match r.2 with | some (col, tag) => tokenRes d (BitVec.ofNat 256 col) tag | none => []) = _
    cases r.2 with
    | none => rfl
    | some out => exact tokenRes_eq ..

/-- Settles O17, from its two parts: the lanes moved, and the random words with the corner turn. -/
theorem lanesRandomAndTurn : Obligations.LanesRandomAndTurn := ⟨laneMovement, randomAndTurn⟩

end Sys2Proof.Machine
end

section
/-! The fields of every instruction fit their places: the laws of `Sys2Proof.Laws.Fields`, one for each instruction,
brought together. -/

namespace Sys2Proof.Laws.Fields

theorem fields_fit (i : Instr) : Statement i :=
  Instr.rec
    add sub mul mulh mulhn adds subs and or xor andn shl shr sra rot min max minn maxn cmp tst sel clz popc bfx bfi mov
    pset plog cnt qset addImm subImm mulImm mulhImm mulhnImm addsImm subsImm andImm orImm xorImm andnImm shlImm shrImm
    sraImm rotImm minImm maxImm minnImm maxnImm movi cntImm movs nop halt trap plane chgq vadd vsub vmul vmax vmin
    vclamp vfma vfms vabs vneg vrcp vrsq vsqrt vexp2 vlog2 vtanh vred vamax vcmp vsel vlog vsh vbcst vext vins viota
    vshuf vcvt vpack vunpk vqnt vdqnt vrng vdrop vacc cturn fwd deq steer mrgo mrga tag markStroke markDrain markFreeze
    markBarrier markCut crget crput ld st vld vst lds stf ldc xlat agenRearm agenStep atom ownapApply ownapReadout cld
    cst cvld cvst rtake mxcfg mxstat mxldb mxrow mxacc mxdrn mxgrp sxcpy sxgth sxsct sxdeep xpcfg wrsrt phint pumpAdd
    pumpSub pumpMul pumpMulh pumpMulhn pumpAdds pumpSubs pumpAnd pumpOr pumpXor pumpAndn pumpShl pumpShr pumpSra pumpRot
    pumpMin pumpMax pumpMinn pumpMaxn pumpCmp pumpTst pumpSel pumpClz pumpPopc pumpBfx pumpBfi pumpMov pumpPset pumpPlog
    div divn rem movk pumpLd pumpSt pumpLds pumpStf pumpLdc cas swap fadd fmin fmax fand fOr fxadd fxaddRd waitv
    fenceAcq fenceRel fenceFull skip abort noteSend noteTake timerOnce timerPer enq deqq tailw launch kstat digest
    trigbBind trigbUnbind trigbQuery regionAlloc regionFree rpoolFill rpoolClose rpoolQuery cfgw cfgrdReq cfgrdTake
    cfgsig crcCfg crcMem route prime freeze freezeStroke thaw imgoutMem imgoutShadow imgoutBack rsload warm wcand verd
    wdraw wstat bara barmSet barmTake pbudgSet pbudgGet spineFreq spineSel pumpPhint tlbiPage tlbiCtx tlbiAll migrMove
    migrOut migrIn wclose pghash sysr sysw vectorResultWrite loadDataReturn feWordFullWake xlatWalkComplete
    rangeTokenReply pageWalkComplete memoryFaultFound islandCommandStart islandBLoadComplete islandRowStart
    islandDrainRow islandFault islandLoadResume engineError streamCommandStart streamCommandComplete streamFaultResume
    expanderBlockComplete expanderStreamSlotFree weirSortComplete engineReply rangeServerServe poolTableReadComplete
    timerExpiry monitorFire configReplyArrival migrComplete strokeLengthExpiry strokeMarkInject markAligned
    barrierAligned strokeClose strokeDrainComplete drainInject planeSwitch cutArrival ringSpill ringRefill primeComplete
    freezeWaveComplete kernelQuiescence kernelRetire watchdogExpiry configEccError configScrub queueEnable queueDisable
    queueRetry queueSkip tailWrite recordStart recordComplete queueEngineFault triggerFire triggerPendingDelivery
    groupLaunch create bind ctxFreeze ctxThaw swapout swapin clear kill ctxCleanupComplete ctxFreezeComplete ctxFault
    treeBarrierArrival shootdownComplete pagePoison pfres linkEnable retrain linkTrained linkTrainingFail linkLaneLoss
    flitReceive flitAck ingestFrame hostRead hostWrite registerWrite publish candidateWrite drawCopy rdposWrite
    chargeIntervalStart chargeDose hintRampStep spineFreqStep spineSwitchComplete t1 t2 t3 t4 thermalClear boot
    getVersion getCapabilities negotiateAlgorithms getDigests getCertificate challenge getMeasurements memoryReadRetry
    illegalSlot pfheadWrite memoryPatrolScrub swapComplete i

end Sys2Proof.Laws.Fields
end

section
/-! Reading a word's fields gives its instruction back (R88 to R97, R103): the statements of O55 and O56.  A word is
read in two steps, its fields (`ElemFields.elemRawOf_word`, `PumpFields.pumpRawOf_word`) and then the operands in
them; the second step is the opcode maps, row by row. -/

namespace Sys2Proof

/-! ### Bits [11:0] of an element word, read back (R88, R94, R100) -/

section
variable {op d a b dA dB m : Nat}

@[simp] theorem ElemRaw.b_lowE (hA : dA ≤ 1) (hB : dB ≤ 1) (hm : m < 16) : ElemRaw.b ⟨op, d, a, lowE b dA dB m⟩ = b :=
  lowE_b hA hB hm
@[simp] theorem ElemRaw.deqA_lowE (x : Src) (hB : dB ≤ 1) (hm : m < 16) :
    ElemRaw.deqA ⟨op, d, a, lowE b x.deqBit dB m⟩ = x.deq := by
  rw [ElemRaw.deqA, lowE_deqA x.deqBit_le hB hm, Src.deqBit, bit_eq_one]
@[simp] theorem ElemRaw.deqB_lowE (x : Src) (hm : m < 16) : ElemRaw.deqB ⟨op, d, a, lowE b dA x.deqBit m⟩ = x.deq := by
  rw [ElemRaw.deqB, lowE_deqB x.deqBit_le hm, Src.deqBit, bit_eq_one]
@[simp] theorem ElemRaw.mod_lowE (hm : m < 16) : ElemRaw.mod ⟨op, d, a, lowE b dA dB m⟩ = m := lowE_mod hm
@[simp] theorem ElemRaw.sub_lowE : ElemRaw.sub ⟨op, d, a, lowE b dA dB m⟩ = m % 8 := by
  simp only [ElemRaw.sub, lowE]; omega
@[simp] theorem ElemRaw.nBit_lowE : ElemRaw.nBit ⟨op, d, a, lowE b dA dB m⟩ = (m / 8 % 2 == 1) := by
  have h : lowE b dA dB m / 8 % 2 = m / 8 % 2 := by simp only [lowE]; omega
  rw [ElemRaw.nBit, h]

end

section
variable (df sf : Fmt) (rnd : Rnd)

@[simp] theorem lowConv_df : lowConv df sf rnd / 256 = df.code := by
  have := df.code_lt; have := sf.code_lt; have := rnd.code_lt
  simp only [lowConv]; omega
@[simp] theorem lowConv_sf : lowConv df sf rnd / 16 % 16 = sf.code := by
  have := df.code_lt; have := sf.code_lt; have := rnd.code_lt
  simp only [lowConv]; omega
@[simp] theorem lowConv_rnd : lowConv df sf rnd / 2 % 8 = rnd.code := by
  have := df.code_lt; have := sf.code_lt; have := rnd.code_lt
  simp only [lowConv]; omega

end

/-! ### The natural bit, and what stands beside it (R94, R97) -/

section
variable {c k : Nat} (n : Bool)

theorem nBit_eq_mul : nBit n = 8 * bit n := by cases n <;> rfl

/-- Bit 3 of a field that holds the natural bit, three bits below it and whole sixteens above it. -/
@[simp] theorem nBit_of_field (hk : k < 8) : ((c * 16 + nBit n + k) / 8 % 2 == 1) = n := by
  have hbit : (c * 16 + nBit n + k) / 8 % 2 = bit n := by have := nBit_eq_mul n; have := bit_le n; omega
  rw [hbit, bit_eq_one]
@[simp] theorem nBit_read : (nBit n / 8 % 2 == 1) = n := by simpa using nBit_of_field (c := 0) (k := 0) n
@[simp] theorem nBit_of_add_nBit (hk : k < 8) : ((k + nBit n) / 8 % 2 == 1) = n := by
  simpa [Nat.add_comm] using nBit_of_field (c := 0) n hk
@[simp] theorem nBit_of_width_add_nBit : ((c * 16 + nBit n) / 8 % 2 == 1) = n := by
  simpa only [Nat.add_zero] using nBit_of_field (c := c) (k := 0) n (by decide)
@[simp] theorem nBit_of_sixteen_add_nBit : ((16 + nBit n) / 8 % 2 == 1) = n := nBit_of_width_add_nBit (c := 1) n

@[simp] theorem add_nBit_mod_eight (hk : k < 8) : (k + nBit n) % 8 = k := by have := nBit_eq_mul n; omega
@[simp] theorem add_nBit_mod_four (hk : k < 4) : (k + nBit n) % 4 = k := by have := nBit_eq_mul n; omega
@[simp] theorem width_add_nBit_add_mod_eight (hk : k < 8) : (c * 16 + nBit n + k) % 8 = k := by
  have := nBit_eq_mul n; omega

theorem width_of_add (hk : k < 16) : (c * 16 + k) / 16 = c := by omega
@[simp] theorem width_of_add_nBit : (c * 16 + nBit n) / 16 = c := width_of_add (by have := nBit_le n; omega)
@[simp] theorem width_of_add_nBit_add (hk : k < 8) : (c * 16 + nBit n + k) / 16 = c := by have := nBit_le n; omega

end

/-! ### What a legal instruction's operands meet (R89, R92, R103) -/

theorem legal_operands {i : Instr} {o : Operands} (hw : i.wellFormed = true) (ho : i.operands = some o) :
    o.classOk = true ∧ o.valueOk = true := by
  simp only [Instr.wellFormed, Instr.violation, ho, Option.isNone_iff_eq_none, Operands.violation] at hw
  grind

/-- Format EI holds no DEQ bit: a channel is read back as dequeued, which it must be there (R89). -/
theorem Src.ofCode_code_immOk {a : Src} (h : a.immOk = true) : Src.ofCode a.code true = some a := by
  have hread := Src.ofCode_code a
  cases a with
  | chan n q =>
    cases q with
    | true => exact hread
    | false => cases h
  | x n | v n | acc n | w n =>
    rw [← hread]
    have := n.isLt
    simp only [Src.code, Src.ofCode, Src.deq]
    grind
  | zero | lane | coord | stage => rfl

theorem Src.code_chan {a : Src} : a.isChan = true ↔ 32 ≤ a.code ∧ a.code < 48 := by
  cases a with
  | chan n q => have := n.isLt; simp only [Src.isChan, Src.code, true_iff]; omega
  | x n | v n | acc n | w n => simp only [Src.isChan, Src.code, Bool.false_eq_true, false_iff]; omega
  | zero | lane | coord | stage => decide

theorem Dst.eq_discard_of_code {d : Dst} (h : d.code = 28) : d = .discard := by
  cases d with
  | discard => rfl
  | x n | v n | acc n | out n | w n => simp only [Dst.code] at h; omega

/-! ### The rows of the element maps that share an opcode, or whose operands depend on each other (R99 to R101)

`parseElem` is unfolded to the row of an opcode by `change`: what is left is the row's own reading of its fields. -/

section
variable (g : Guard) (d : Dst) (a b : Src)

/-- MARK's forms share an opcode and differ in MOD. -/
theorem parseElem_markCut :
    parseElem g ⟨0x86, d.code, a.code, lowE 0 a.deqBit 0 4⟩ = some (.markCut g d a) := by
  change (match ElemRaw.mod _ with | 0 => _ | 1 => _ | 2 => _ | 3 => _ | 4 => _ | _ => _) = _
  rw [ElemRaw.mod_lowE (by decide)]
  change Option.bind _ _ = _
  simp

/-- VLOG .not has no operand B: its code is 0 in the word, and `zero` in the instruction. -/
theorem parseElem_vlog {op : VLogOp} (hb : (op != .not || b == .zero) = true) :
    parseElem g ⟨0x5e, d.code, a.code, lowE (if op == .not then 0 else b.code) a.deqBit
      (if op == .not then 0 else b.deqBit) op.code⟩ = some (.vlog g op d a b) := by
  have := a.deqBit_le; have := b.deqBit_le
  change Option.bind _ _ = _
  cases op with
  | not =>
    obtain rfl : b = .zero := beq_iff_eq.mp hb
    simp [VLogOp.code, VLogOp.ofCode]
  | and | or | xor | andn => simp (disch := omega) [VLogOp.code, VLogOp.ofCode]

/-- DEQ's field B is 0 where it names one channel, and no channel has that code. -/
theorem parseElem_deq {bo : Option Src} (hb : optChan bo = true) :
    parseElem g ⟨0x81, 0, a.code, lowE (optCode bo) a.deqBit (optDeqBit bo) 0⟩ = some (.deq g a bo) := by
  have := a.deqBit_le
  change Option.bind _ _ = _
  cases bo with
  | none => simp (disch := omega) [optCode, optDeqBit, optSrc]
  | some b =>
    have := b.deqBit_le
    have hne : b.code ≠ 0 := by have := Src.code_chan.mp hb; omega
    simp (disch := omega) [optCode, optDeqBit, optSrc, hne]

/-- AGEN's two forms share an opcode; the form that rearms reads a channel, which is not code 28. -/
theorem parseElem_agenRearm (ha : a.isChan = true) :
    parseElem g ⟨0xa9, d.code, a.code, lowE 0 a.deqBit 0 0⟩ = some (.agenRearm g d a) := by
  have hne : a.code ≠ 28 := by have := Src.code_chan.mp ha; omega
  change ite _ _ _ = _
  rw [if_neg (by simpa using hne)]
  simp

/-- OWNAP's two forms share an opcode: it applies where it dequeues a channel and has no destination. -/
theorem parseElem_ownapApply (ha : a.isChan = true) (hq : a.deq = true) :
    parseElem g ⟨0xab, 28, a.code, lowE 0 a.deqBit 0 0⟩ = some (.ownapApply g a) := by
  have hcode := Src.code_chan.mp ha
  change ite _ _ _ = _
  rw [if_pos (by simpa [and_assoc] using ⟨hq, hcode⟩)]
  simp

/-- OWNAP reads out wherever it does not apply. -/
theorem parseElem_ownapReadout (h : (d != .discard || !a.isChan || !a.deq) = true) :
    parseElem g ⟨0xab, d.code, a.code, lowE 0 a.deqBit 0 0⟩ = some (.ownapReadout g d a) := by
  change ite _ _ _ = _
  rw [if_neg]
  · simp
  · simp only [Bool.and_eq_true, beq_iff_eq, decide_eq_true_eq, ElemRaw.deqA_lowE, Nat.zero_le, Nat.ofNat_pos]
    rintro ⟨⟨⟨hd, hq⟩, hlo⟩, hhi⟩
    simp [Dst.eq_discard_of_code hd, Src.code_chan.mpr ⟨hlo, hhi⟩, hq] at h

end

/-! ### The element maps, row by row (R99 to R101) -/

/-- An element instruction is read back from its fields.  The rows stand by shape; each shape names the bounds by which
its fields do not run into one another. -/
theorem parseElem_elemFields {i : Instr} {f : ElemFields} (hw : i.wellFormed = true) (hf : i.elemFields = some f) :
    parseElem f.g ⟨f.op, f.dst, f.a, f.low⟩ = some i := by
  cases i <;> cases hf
  case nop | halt | markStroke | markDrain | markFreeze => rfl
  case plane => exact congrArg some (by simp (disch := omega) [fin_val])
  case plog _ lop _ _ =>
    have := lop.code_lt
    refine congrArg some ?_
    simp (disch := omega) [fin_val, Nat.mod_eq_of_lt]
  case movi | movs | chgq | agenStep | markBarrier =>
    change Option.bind _ _ = _
    simp
  case crget =>
    change Option.bind _ _ = _
    simp (disch := omega) [fin_val]
  -- operand A, and what MOD holds beside it
  case clz _ _ a | popc _ _ a | mov _ _ a | cvld _ _ a | rtake _ _ a | mxcfg _ _ a | mxstat _ _ a | mxgrp _ _ a
      | sxcpy _ _ a | sxgth _ _ a | sxsct _ _ a | sxdeep _ _ a | xpcfg _ _ a | wrsrt _ _ a | pset _ a | trap _ a =>
    change Option.bind _ _ = _
    simp
  case qset _ k a | crput _ k a | tag _ k _ a =>
    change Option.bind _ _ = _
    simp (disch := omega) [fin_val]
  case xlat _ wr _ a =>
    have := bit_le wr
    change Option.bind _ _ = _
    simp (disch := omega)
  case cld _ mw n _ a =>
    have := mw.code_lt; have := nBit_le n
    change Option.bind _ _ = _
    simp (disch := omega)
  case vabs _ fmt _ a | vneg _ fmt _ a | vrcp _ fmt _ a | vrsq _ fmt _ a | vsqrt _ fmt _ a | vexp2 _ fmt _ a
      | vlog2 _ fmt _ a | vtanh _ fmt _ a | vred _ _ fmt _ a | vamax _ fmt _ a | vbcst _ fmt _ a | vacc _ fmt _ a =>
    have := a.deqBit_le; have := fmt.code_lt
    change Option.bind _ _ = _
    simp (disch := omega)
  case cturn _ lw _ a =>
    have := lw.code_lt
    change Option.bind _ _ = _
    simp (disch := omega) [Nat.mod_eq_of_lt]
  -- operands A and B, and what MOD holds beside them
  case add _ _ a b | sub _ _ a b | mul _ _ a b | mulh _ _ a b | mulhn _ _ a b | and _ _ a b | or _ _ a b | xor _ _ a b
      | andn _ _ a b | shl _ _ a b | shr _ _ a b | sra _ _ a b | rot _ _ a b | min _ _ a b | max _ _ a b | minn _ _ a b
      | maxn _ _ a b | bfi _ _ a b | fwd _ _ a b | steer _ _ a b | mrgo _ _ a b | mrga _ _ a b | vld _ _ a b
      | lds _ _ a b | ldc _ _ a b | mxldb _ _ a b | mxrow _ _ a b | mxacc _ _ a b | mxdrn _ _ a b | vst _ a b
      | stf _ a b | cvst _ a b | phint _ a b =>
    have := a.deqBit_le; have := b.deqBit_le
    change Option.bind _ _ = _
    simp (disch := omega)
  case adds _ n _ a b | subs _ n _ a b | bfx _ n _ a b | cnt _ n _ a b =>
    have := a.deqBit_le; have := b.deqBit_le; have := nBit_le n
    change Option.bind _ _ = _
    simp (disch := omega)
  case cmp _ rel n _ a b =>
    have := a.deqBit_le; have := b.deqBit_le; have := nBit_le n; have := rel.code_lt
    change Option.bind _ _ = _
    simp (disch := omega)
  case atom _ aop n _ a b =>
    have := a.deqBit_le; have := b.deqBit_le; have := nBit_le n; have := aop.code_lt
    change Option.bind _ _ = _
    simp (disch := omega)
  case ld _ mw n _ a b | st _ mw n a b | cst _ mw n a b =>
    have := a.deqBit_le; have := b.deqBit_le; have := nBit_le n; have := mw.code_lt
    change Option.bind _ _ = _
    simp (disch := omega)
  case tst _ none1 _ a b =>
    have := a.deqBit_le; have := b.deqBit_le; have := bit_le none1
    change Option.bind _ _ = _
    simp (disch := omega) [Nat.mod_eq_of_lt]
  case sel _ _ _ a b | vrng _ _ _ a b =>
    have := a.deqBit_le; have := b.deqBit_le
    change Option.bind _ _ = _
    simp (disch := omega) [fin_val, Nat.mod_eq_of_lt]
  case vadd _ fmt _ a b | vsub _ fmt _ a b | vmul _ fmt _ a b | vmax _ fmt _ a b | vmin _ fmt _ a b | vclamp _ fmt _ a b
      | vfma _ fmt _ a b | vfms _ fmt _ a b | vcmp _ fmt _ a b | vext _ fmt _ a b | vins _ fmt _ a b | viota _ fmt _ a b
      | vdrop _ fmt _ a b =>
    have := a.deqBit_le; have := b.deqBit_le; have := fmt.code_lt
    change Option.bind _ _ = _
    simp (disch := omega)
  case vsel _ lw t _ a b | vsh _ lw t _ a b =>
    have := a.deqBit_le; have := b.deqBit_le; have := lw.code_lt; have := t.code_lt
    have hlw : (lw.code + 4 * t.code) % 4 = lw.code := by omega
    have ht : (lw.code + 4 * t.code) / 4 = t.code := by omega
    change Option.bind _ _ = _
    simp (disch := omega) [hlw, ht]
  case vshuf _ lw _ a b =>
    have := a.deqBit_le; have := b.deqBit_le; have := lw.code_lt
    change Option.bind _ _ = _
    simp (disch := omega) [Nat.mod_eq_of_lt]
  -- format EI: an immediate, or a conversion's formats and rounding
  case addImm | subImm | mulImm | mulhImm | mulhnImm | addsImm | subsImm | andImm | orImm | xorImm | andnImm | shlImm
      | shrImm | sraImm | rotImm | minImm | maxImm | minnImm | maxnImm | cntImm | vcvt | vpack | vunpk | vqnt | vdqnt =>
    have hread := Src.ofCode_code_immOk (Bool.and_eq_true_iff.mp (legal_operands hw rfl).1).2
    change Option.bind _ _ = _
    simp [hread]
  case markCut g d a => exact parseElem_markCut g d a
  case vlog g op d a b => exact parseElem_vlog g d a b (legal_operands hw rfl).2
  case deq g a bo => exact parseElem_deq g a (Bool.and_eq_true_iff.mp (legal_operands hw rfl).1).2
  case agenRearm g d a => exact parseElem_agenRearm g d a (Bool.and_eq_true_iff.mp (legal_operands hw rfl).1).2
  case ownapApply g a => exact parseElem_ownapApply g a (legal_operands hw rfl).1 (legal_operands hw rfl).2
  case ownapReadout g d a => exact parseElem_ownapReadout g d a (legal_operands hw rfl).2

/-! ### The fields of a body word, read back (R96, R97) -/

section
variable {op d a b fn i24 : Nat} {imm : Bool}

@[simp] theorem PumpRaw.nBit_mk : PumpRaw.nBit ⟨op, d, a, b, imm, fn, i24⟩ = (fn / 8 % 2 == 1) := rfl
@[simp] theorem PumpRaw.sub_mk : PumpRaw.sub ⟨op, d, a, b, imm, fn, i24⟩ = fn % 8 := rfl
@[simp] theorem PumpRaw.srcB_mk (p : PSrc) : PumpRaw.srcB ⟨op, d, a, p.regVal, p.isImm, fn, p.immVal⟩ = p := by
  cases p <;> simp [PumpRaw.srcB, PSrc.isImm, PSrc.regVal, PSrc.immVal, fin_val]
@[simp] theorem PumpRaw.srcA_mk (p : PSrc) : PumpRaw.srcA ⟨op, d, p.regVal, b, p.isImm, fn, p.immVal⟩ = p := by
  cases p <;> simp [PumpRaw.srcA, PSrc.isImm, PSrc.regVal, PSrc.immVal, fin_val]

end

/-- A value at the low end of IMM24 is read back, whatever stands above it. -/
theorem ofNat_toNat_add_mul {n : Nat} (v : BitVec n) (k : Nat) : BitVec.ofNat n (v.toNat + 2 ^ n * k) = v := by
  apply BitVec.eq_of_toNat_eq
  rw [BitVec.toNat_ofNat, Nat.add_mul_mod_self_left, Nat.mod_eq_of_lt v.isLt]
theorem fin_val_add_mul {n : Nat} [NeZero n] (v : Fin n) (k : Nat) : fin n (v.val + n * k) = v :=
  Fin.ext (by simp [fin, Fin.ofNat, Nat.mod_eq_of_lt v.isLt])

/-- The forms of FENCE share an opcode and differ in FN[1:0]; the scope stands above. -/
theorem fence_fn (scope : Scope) {k : Nat} (hk : k < 4) :
    (scope.code * 4 + k) % 4 = k ∧ (scope.code * 4 + k) / 4 = scope.code := by omega

/-! ### The pump map, row by row (R102) -/

/-- A body instruction is read back from its fields. -/
theorem parsePump_pumpFields {i : Instr} {f : PumpFields} (hf : i.pumpFields = some f) :
    parsePump f.h ⟨f.op, f.d, f.a, f.b, f.imm, f.fn, f.i24⟩ = some i := by
  cases i <;> cases hf
  -- FN holds a width alone, or with a function's code
  case pumpMulh | pumpMulhn | pumpShr | pumpSra | pumpMin | pumpMax | pumpMinn | pumpMaxn | div | divn =>
    change some _ = _
    simp [fin_val, width_of_add]
  case pumpPlog _ lop w _ _ _ =>
    have := lop.code_lt
    have hlop : (w.code * 16 + lop.code) % 8 = lop.code := by omega
    change some _ = _
    simp (disch := omega) [fin_val, width_of_add, hlop]
  case pumpCmp _ rel _ _ _ _ _ =>
    have := rel.code_lt
    change Option.bind _ _ = _
    simp (disch := omega) [fin_val]
  case pumpTst _ none1 _ _ _ _ _ =>
    have := bit_le none1
    change some _ = _
    simp (disch := omega) [fin_val]
  case waitv =>
    change some _ = _
    simp (disch := omega) [fin_val]
  -- FXADD's two forms share an opcode and differ in FN[1]
  case fxadd _ xf _ _ _ =>
    change ite _ _ _ = _
    cases xf <;> simp [fin_val, bit]
  case fxaddRd _ xf clr _ _ _ =>
    change ite _ _ _ = _
    cases xf <;> cases clr <;> simp [fin_val, bit]
  case fenceAcq _ scope | fenceRel _ scope | fenceFull _ scope =>
    change (match (_ % 4 : Nat) with | 0 => _ | 1 => _ | 2 => _ | _ => _) = _
    rw [(fence_fn scope (by decide)).1]
    change Option.bind _ _ = _
    simp [fence_fn]
  -- IMM24 holds two values
  case movk _ _ v16 fld =>
    have hfld : (v16.toNat + 65536 * fld.val) / 65536 = fld.val := by have := v16.isLt; omega
    have hv16 : BitVec.ofNat 16 (v16.toNat + 65536 * fld.val) = v16 := ofNat_toNat_add_mul v16 fld.val
    change some _ = _
    simp [fin_val, hfld, hv16]
  case rpoolFill _ _ _ pool die2 | rpoolClose _ _ _ pool die2 | rpoolQuery _ _ _ pool die2 =>
    have hdie : (pool.val + 16 * die2.val) / 16 = die2.val := by omega
    change some _ = _
    simp [fin_val, hdie, fin_val_add_mul]
  case pumpPhint _ _ onset len16 =>
    have hlen : (onset.toNat + 256 * len16.toNat) / 256 = len16.toNat := by have := onset.isLt; omega
    have honset : BitVec.ofNat 8 (onset.toNat + 256 * len16.toNat) = onset := ofNat_toNat_add_mul onset len16.toNat
    change some _ = _
    simp [fin_val, hlen, honset]
  -- every other row reads registers, a width with its natural bit, and one value of IMM24
  all_goals
    change some _ = _
    simp [fin_val]

/-! ### Which instructions have which word (R88, R96) -/

theorem isSome_elemFields (i : Instr) : i.elemFields.isSome = i.operands.isSome := by cases i <;> rfl

theorem encode_elem {i : Instr} {w : W64} (ho : i.operands.isSome = true) (he : encode i = some w) :
    ∃ f, i.elemFields = some f ∧ w = BitVec.ofNat 64 f.word := by
  obtain ⟨f, hf⟩ := Option.isSome_iff_exists.mp ((isSome_elemFields i).trans ho)
  rw [encode, hf] at he
  exact ⟨f, hf, (Option.some.inj he).symm⟩

theorem encode_pump {i : Instr} {w : W64} (ho : i.operands.isSome = false) (he : encode i = some w) :
    ∃ f, i.pumpFields = some f ∧ w = BitVec.ofNat 64 f.word := by
  have hf : i.elemFields = none := Option.not_isSome_iff_eq_none.mp (by rw [isSome_elemFields, ho]; decide)
  rw [encode, hf] at he
  obtain ⟨f, hp, hword⟩ := Option.map_eq_some_iff.mp he
  exact ⟨f, hp, hword.symm⟩

theorem ElemFields.word_ge (f : ElemFields) : 2 ^ 63 ≤ f.word := by
  simp only [ElemFields.word]; omega

/-! ### Decode after encode -/

theorem wellFormed_iff {i : Instr} : i.wellFormed = true ↔ i.violation = none := Option.isNone_iff_eq_none

/-- A well-formed element instruction is what its word decodes to. -/
theorem decodeElem_encode {i : Instr} {w : W64} (hw : i.wellFormed = true) (ho : i.operands.isSome = true)
    (he : encode i = some w) : decodeElem w = .ok i := by
  obtain ⟨f, hf, rfl⟩ := encode_elem ho he
  obtain ⟨hop, hdst, ha, hlow, -⟩ := (Laws.Fields.fields_fit i hw).1 f hf
  have hword : (BitVec.ofNat 64 f.word).toNat = f.word := by
    rw [BitVec.toNat_ofNat, Nat.mod_eq_of_lt (f.word_lt hop hdst ha hlow)]
  rw [decodeElem, hword, if_neg (Nat.not_lt.mpr f.word_ge), f.guardOf_word hop hdst ha hlow,
    f.elemRawOf_word hop hdst ha hlow]
  exact accept_ok.mpr ⟨parseElem_elemFields hw hf, he, wellFormed_iff.mp hw⟩

/-- A well-formed body instruction is what its word decodes to. -/
theorem decodePump_encode {i : Instr} {w : W64} (hw : i.wellFormed = true) (ho : i.operands.isSome = false)
    (he : encode i = some w) : decodePump w = .ok i := by
  obtain ⟨f, hf, rfl⟩ := encode_pump ho he
  obtain ⟨hop, hd, ha, hb, hfn, himm, -⟩ := (Laws.Fields.fields_fit i hw).2 f hf
  have hword : (BitVec.ofNat 64 f.word).toNat = f.word := by
    rw [BitVec.toNat_ofNat, Nat.mod_eq_of_lt (f.word_lt hop hd ha hb hfn himm)]
  rw [decodePump, hword, f.skipOf_word hfn himm, f.pumpRawOf_word hop hd ha hb hfn himm]
  exact accept_ok.mpr ⟨parsePump_pumpFields hf, he, wellFormed_iff.mp hw⟩

/-- Two well-formed instructions of one format have different words, since each is what its word decodes to. -/
theorem encode_injective {i j : Instr} {w : W64} (hi : i.wellFormed = true) (hj : j.wellFormed = true)
    (hkind : i.operands.isSome = j.operands.isSome) (hei : encode i = some w) (hej : encode j = some w) : i = j := by
  cases ho : i.operands.isSome with
  | true => exact Except.ok.inj ((decodeElem_encode hi ho hei).symm.trans (decodeElem_encode hj (hkind ▸ ho) hej))
  | false => exact Except.ok.inj ((decodePump_encode hi ho hei).symm.trans (decodePump_encode hj (hkind ▸ ho) hej))

end Sys2Proof
end

section
/-! The statements of O55 and O56. -/

namespace Sys2Proof.Machine

/-- Settles O55: an instruction is read back from its fields, which its word holds apart; and the decoder accepts a word
only as the word of a well-formed instruction. -/
theorem encodeDecode : Obligations.EncodeDecode := by
  refine ⟨fun i w hw he => ⟨fun ho => decodeElem_encode hw ho he, fun ho => decodePump_encode hw ho he⟩,
    fun w i h => ?_, fun w i h => ?_, fun i j w => encode_injective⟩
  · obtain ⟨he, hv⟩ := decodeElem_ok_encode h
    exact ⟨he, wellFormed_iff.mpr hv, valid_of_decodeElem h⟩
  · obtain ⟨he, hv⟩ := decodePump_ok_encode h
    exact ⟨he, wellFormed_iff.mpr hv⟩

/-- Settles O56: each of the words is the word of the instruction it stands for, which is well formed. -/
theorem sampleWords : Obligations.SampleWords :=
  ⟨decodeElem_encode (by decide) rfl (by decide), decodeElem_encode (by decide) rfl (by decide),
    decodeElem_encode (by decide) rfl (by decide), decodePump_encode (by decide) rfl (by decide),
    decodePump_encode (by decide) rfl (by decide)⟩

end Sys2Proof.Machine
end

section
/-! The model computes scalar operations on numbers, and the statements say them on bit vectors: for each operation, one
equation between the two, result bit included (R113 to R118, R123, R125, R127). -/

namespace Sys2Proof.Machine

open Spec

/-- A result of width w in the model's own terms: its pattern as a number, and the result bit. -/
def asNat {w : Nat} (r : BitVec w × Bool) : Nat × Bool := (r.1.toNat, r.2)

theorem toNat_eq_zero_iff {w : Nat} (a : BitVec w) : a.toNat = 0 ↔ a = 0 := by rw [BitVec.toNat_eq]; rfl

/-- The result bit "res not 0" of R114. -/
theorem nonZero_toNat {w : Nat} (v : BitVec w) : nonZero v.toNat = asNat (res v) := by
  simp only [nonZero, res, asNat, bne, beq_eq_decide, toNat_eq_zero_iff]

theorem wrap_eq_toNat_ofInt (w : Nat) (x : Int) : wrap w x = (BitVec.ofInt w x).toNat := by
  rw [BitVec.toNat_ofInt]; rfl

theorem ofInt_asInt {w : Nat} (n : Bool) (a : BitVec w) : BitVec.ofInt w (asInt n a) = a := by
  cases n <;> simp [asInt]

namespace Alu

variable {w : Nat}

theorem add_eq (a b : BitVec w) : add w a.toNat b.toNat = asNat (res (a + b)) := by
  rw [add, ← BitVec.toNat_add, nonZero_toNat]

theorem sub_eq (a b : BitVec w) : sub w a.toNat b.toNat = asNat (res (a - b)) := by
  have h : BitVec.ofInt w ((a.toNat : Int) - b.toNat) = a - b := by
    rw [Int.sub_eq_add_neg, BitVec.ofInt_add, BitVec.ofInt_neg]; simp [BitVec.sub_eq_add_neg]
  rw [sub, wrap_eq_toNat_ofInt, h, nonZero_toNat]

theorem mul_eq (a b : BitVec w) : mul w a.toNat b.toNat = asNat (res (a * b)) := by
  rw [mul, ← BitVec.toNat_mul, nonZero_toNat]

theorem mulh_eq (hw : 0 < w) (a b : BitVec w) :
    mulh w a.toNat b.toNat = asNat (res (BitVec.ofInt w (a.toInt * b.toInt / 2 ^ w))) := by
  rw [mulh, toSigned_eq a hw, toSigned_eq b hw, wrap_eq_toNat_ofInt, nonZero_toNat]

theorem mulhn_eq (a b : BitVec w) :
    mulhn w a.toNat b.toNat = asNat (res (BitVec.ofNat w (a.toNat * b.toNat / 2 ^ w))) := by
  have h : a.toNat * b.toNat / 2 ^ w < 2 ^ w :=
    Nat.div_lt_of_lt_mul (Nat.mul_lt_mul'' a.isLt b.isLt)
  rw [← nonZero_toNat, BitVec.toNat_ofNat, Nat.mod_eq_of_lt h, mulhn]

/-- Clamping by cases is clamping by extremes. -/
theorem clamp_eq (n : Bool) (w : Nat) (x : Int) : clamp n w x = asNat (clampTo w n x) := by
  have hpow : (0 : Int) < 2 ^ (w - 1) := by positivity
  have hpow' : (0 : Int) < 2 ^ w := by positivity
  simp only [clamp, clampTo, asNat, wrap_eq_toNat_ofInt]
  generalize hlo : (if n then (0 : Int) else -(2 ^ (w - 1))) = lo
  generalize hhi : (if n then (2 : Int) ^ w - 1 else 2 ^ (w - 1) - 1) = hi
  have hle : lo ≤ hi := by
    subst hlo hhi
    cases n
    · simp only [Bool.false_eq_true, if_false]; omega
    · simp only [if_true]; omega
  split
  · next h => rw [max_eq_left (by omega)]; simp [h]
  · next h =>
    split
    · next h' => rw [min_eq_left (by omega), max_eq_right hle]; simp [h']
    · next h' => rw [min_eq_right (by omega), max_eq_right (by omega)]; simp [h, h']

theorem adds_eq {n : Bool} (hw : 0 < w) (a b : BitVec w) :
    adds n w a.toNat b.toNat = asNat (clampTo w n (asInt n a + asInt n b)) := by
  rw [adds, readAs_eq n a hw, readAs_eq n b hw, clamp_eq]

theorem subs_eq {n : Bool} (hw : 0 < w) (a b : BitVec w) :
    subs n w a.toNat b.toNat = asNat (clampTo w n (asInt n a - asInt n b)) := by
  rw [subs, readAs_eq n a hw, readAs_eq n b hw, clamp_eq]

theorem andB_eq (a b : BitVec w) : andB w a.toNat b.toNat = asNat (res (a &&& b)) := by
  rw [andB, ← BitVec.toNat_and, nonZero_toNat]
theorem orB_eq (a b : BitVec w) : orB w a.toNat b.toNat = asNat (res (a ||| b)) := by
  rw [orB, ← BitVec.toNat_or, nonZero_toNat]
theorem xorB_eq (a b : BitVec w) : xorB w a.toNat b.toNat = asNat (res (a ^^^ b)) := by
  rw [xorB, ← BitVec.toNat_xor, nonZero_toNat]

theorem andn_eq (a b : BitVec w) : andn w a.toNat b.toNat = asNat (res (a &&& ~~~b)) := by
  have h : a ^^^ (a &&& b) = a &&& ~~~b := by
    ext k hk
    simp only [BitVec.getElem_xor, BitVec.getElem_and, BitVec.getElem_not]
    cases a[k] <;> cases b[k] <;> rfl
  rw [andn, ← BitVec.toNat_and, ← BitVec.toNat_xor, h, nonZero_toNat]

theorem shl_eq (a s : BitVec w) : shl w a.toNat s.toNat = asNat (res (Spec.shl w a s)) := by
  rw [shl, shlV, ← nonZero_toNat, Spec.shl]
  split
  · rw [BitVec.toNat_shiftLeft, Nat.shiftLeft_eq]
  · rfl

theorem shr_eq (a s : BitVec w) : shr w a.toNat s.toNat = asNat (res (Spec.shr w a s)) := by
  rw [shr, shrV, ← nonZero_toNat, Spec.shr]
  split
  · rw [BitVec.toNat_ushiftRight, Nat.shiftRight_eq_div_pow]
  · rfl

/-- Shifted by its whole width, a signed value leaves copies of its sign. -/
theorem sshiftRight_width (a : BitVec w) : a.sshiftRight w = if a.msb then BitVec.allOnes w else 0 := by
  cases h : a.msb
  · rw [BitVec.sshiftRight_eq_of_msb_false h, BitVec.ushiftRight_eq_zero le_rfl]; rfl
  · rw [BitVec.sshiftRight_eq_of_msb_true h, BitVec.ushiftRight_eq_zero le_rfl, BitVec.not_zero]; rfl

theorem sra_eq (hw : 0 < w) (a s : BitVec w) : sra w a.toNat s.toNat = asNat (res (Spec.sra w a s)) := by
  have h (k : Nat) : BitVec.ofInt w (a.toInt / 2 ^ k) = a.sshiftRight k := by
    rw [BitVec.sshiftRight, Int.shiftRight_eq_div_pow]; norm_cast
  rw [sra, sraV, toSigned_eq a hw, wrap_eq_toNat_ofInt, nonZero_toNat, Spec.sra, h]
  split
  · rfl
  · rw [sshiftRight_width]

theorem rot_eq (hw : 0 < w) (a s : BitVec w) : rot w a.toNat s.toNat = asNat (res (Spec.rot w a s)) := by
  have hk := Nat.mod_lt s.toNat hw
  rw [rot, rotV, ← nonZero_toNat, Spec.rot, BitVec.toNat_rotateLeft, Nat.mod_mod]
  generalize s.toNat % w = k at hk
  have hlow : a.toNat / 2 ^ (w - k) < 2 ^ k :=
    Nat.div_lt_of_lt_mul (by rw [← pow_add, Nat.sub_add_cancel hk.le]; exact a.isLt)
  have hhigh : a.toNat * 2 ^ k % 2 ^ w = (a.toNat % 2 ^ (w - k)) <<< k := by
    rw [Nat.shiftLeft_eq, ← Nat.mul_mod_mul_right, ← pow_add, Nat.sub_add_cancel hk.le]
  rw [Nat.shiftLeft_eq, Nat.shiftRight_eq_div_pow, hhigh, Nat.shiftLeft_add_eq_or_of_lt hlow]

theorem minS_eq (hw : 0 < w) (a b : BitVec w) :
    minS w a.toNat b.toNat = asNat (res (if a.toInt ≤ b.toInt then a else b)) := by
  rw [minS, toSigned_eq a hw, toSigned_eq b hw, ← nonZero_toNat, apply_ite BitVec.toNat]
theorem maxS_eq (hw : 0 < w) (a b : BitVec w) :
    maxS w a.toNat b.toNat = asNat (res (if a.toInt ≤ b.toInt then b else a)) := by
  rw [maxS, toSigned_eq a hw, toSigned_eq b hw, ← nonZero_toNat, apply_ite BitVec.toNat]
theorem minN_eq (a b : BitVec w) : minN w a.toNat b.toNat = asNat (res (if a.toNat ≤ b.toNat then a else b)) := by
  rw [minN, ← nonZero_toNat, apply_ite BitVec.toNat]
theorem maxN_eq (a b : BitVec w) : maxN w a.toNat b.toNat = asNat (res (if a.toNat ≤ b.toNat then b else a)) := by
  rw [maxN, ← nonZero_toNat, apply_ite BitVec.toNat]

theorem sel_eq (c : Bool) (a b : BitVec w) : sel c a.toNat b.toNat = asNat (res (if c then a else b)) := by
  rw [sel, ← nonZero_toNat, apply_ite BitVec.toNat]

theorem truth_eq (hw : 0 < w) (c : Bool) : truth c = asNat (Spec.truth w c) := by
  have h1 : 1 < 2 ^ w := Nat.one_lt_two_pow hw.ne'
  cases c <;> simp [truth, asNat, Spec.truth, Nat.mod_eq_of_lt h1]

theorem holds_iff (rel : Rel) (x y : Int) : holds rel x y = true ↔ related rel x y := by
  cases rel <;> simp [holds, related]

theorem cmp_eq {rel : Rel} {n c : Bool} (hw : 0 < w) {a b : BitVec w}
    (hc : c = true ↔ related rel (asInt n a) (asInt n b)) : cmp rel n w a.toNat b.toNat = asNat (Spec.truth w c) := by
  have h : holds rel (asInt n a) (asInt n b) = c := Bool.eq_iff_iff.mpr ((holds_iff ..).trans hc.symm)
  rw [cmp, readAs_eq n a hw, readAs_eq n b hw, h, truth_eq hw]

theorem tst_eq (none1 : Bool) (hw : 0 < w) (a b : BitVec w) :
    tst none1 w a.toNat b.toNat = asNat (Spec.truth w ((a &&& b != 0) != none1)) := by
  have h : (a.toNat &&& b.toNat != 0) = (a &&& b != 0) := by
    rw [← BitVec.toNat_and, bne, bne, beq_eq_decide, beq_eq_decide]
    simp only [toNat_eq_zero_iff]
  rw [tst, h, truth_eq hw]

theorem cnt_eq {n : Bool} (a b : BitVec 32) : cnt n 32 a.toNat b.toNat = asNat (Spec.cnt n a b) := by
  have h : (a.toNat + 1) % 2 ^ 32 = (a + 1).toNat := by rw [BitVec.toNat_add]; rfl
  rw [cnt, h, readAs_eq n (a + 1) (by decide), readAs_eq n b (by decide), Spec.cnt]
  split <;> rfl

/-- The truth tables of R95. -/
theorem logic_eq (op : LogicOp) (a b : Bool) : logic op a b = plog op a b := by
  cases op <;> cases a <;> cases b <;> rfl

theorem divS_eq (hw : 0 < w) (a b : BitVec w) : divS w a.toNat b.toNat = (quot w false a b).toNat := by
  unfold divS quot
  by_cases hb : b = 0
  · subst hb; rfl
  · rw [if_neg (mt (toNat_eq_zero_iff b).mp hb), if_neg hb, toSigned_eq a hw, toSigned_eq b hw, wrap_eq_toNat_ofInt]
    rfl

theorem divN_eq (a b : BitVec w) : divN w a.toNat b.toNat = (quot w true a b).toNat := by
  have h : BitVec.ofInt w ((asInt true a).tdiv (asInt true b)) = BitVec.ofNat w (a.toNat / b.toNat) :=
    (congrArg _ (Int.ofNat_tdiv ..).symm).trans (BitVec.ofInt_natCast ..)
  unfold divN quot
  by_cases hb : b = 0
  · subst hb; rfl
  · rw [if_neg (mt (toNat_eq_zero_iff b).mp hb), if_neg hb, h, BitVec.toNat_ofNat,
      Nat.mod_eq_of_lt ((Nat.div_le_self ..).trans_lt a.isLt)]

theorem remS_eq {n : Bool} (hw : 0 < w) (a b : BitVec w) : remS n w a.toNat b.toNat = (rem w n a b).toNat := by
  unfold remS rem
  by_cases hb : b = 0
  · subst hb; rfl
  · rw [if_neg (mt (toNat_eq_zero_iff b).mp hb), if_neg hb, readAs_eq n a hw, readAs_eq n b hw, wrap_eq_toNat_ofInt,
      Int.tmod_def, Int.mul_comm]

end Alu

/-- The dividend is the quotient times the divisor, and the remainder (R127). -/
theorem quot_mul_add_rem (w : Nat) (n : Bool) (a b : BitVec w) : quot w n a b * b + rem w n a b = a := by
  unfold quot rem
  split
  · next h => simp [h]
  · conv_lhs => enter [1, 2]; rw [← ofInt_asInt n b]
    rw [← BitVec.ofInt_mul, ← BitVec.ofInt_add, add_sub_cancel, ofInt_asInt]

end Sys2Proof.Machine
end

section
/-! Bits and fields: CLZ, POPC, BFX, BFI, and constants put together (R119, R121, R122). -/

namespace Sys2Proof.Machine

open Spec

/-! ### Fields of a number, bit by bit -/

/-- A number whose bits from `pos` on, `len` of them, are replaced by the low bits of another. -/
def withField (d pos len a : Nat) : Nat := d / 2 ^ (pos + len) * 2 ^ (pos + len) + a % 2 ^ len * 2 ^ pos + d % 2 ^ pos

theorem testBit_withField (d pos len a k : Nat) :
    (withField d pos len a).testBit k = if pos ≤ k ∧ k < pos + len then a.testBit (k - pos) else d.testBit k := by
  have hlo : d % 2 ^ pos < 2 ^ pos := Nat.mod_lt _ (by positivity)
  have hmid : a % 2 ^ len < 2 ^ len := Nat.mod_lt _ (by positivity)
  have h : withField d pos len a = 2 ^ pos * (2 ^ len * (d / 2 ^ (pos + len)) + a % 2 ^ len) + d % 2 ^ pos := by
    rw [withField, pow_add]; ring
  rw [h, Nat.testBit_two_pow_mul_add _ hlo, Nat.testBit_two_pow_mul_add _ hmid]
  by_cases hk : k < pos
  · simp [hk, Nat.testBit_mod_two_pow]
  by_cases hk' : k < pos + len
  · have h1 : k - pos < len := by omega
    simp [hk, hk', h1, Nat.testBit_mod_two_pow]
  · have h1 : ¬ k - pos < len := by omega
    have h2 : k - pos - len + (pos + len) = k := by omega
    simp [hk, hk', h1, h2, Nat.testBit_div_two_pow]

theorem getLsbD_fieldMask (w pos len k : Nat) :
    (BitVec.ofNat w ((2 ^ len - 1) * 2 ^ pos)).getLsbD k = decide (k < w ∧ pos ≤ k ∧ k < pos + len) := by
  rw [BitVec.getLsbD_ofNat, Nat.testBit_mul_two_pow, Nat.testBit_two_pow_sub_one, ← Bool.decide_and, ← Bool.decide_and,
    decide_eq_decide]
  omega

/-- The field replaced, as Spec says it by a mask. -/
theorem withField_eq {w pos len : Nat} (h : pos + len ≤ w) (d a : BitVec w) :
    let mask := BitVec.ofNat w ((2 ^ len - 1) * 2 ^ pos)
    withField d.toNat pos len a.toNat = ((d &&& ~~~mask) ||| ((a <<< pos) &&& mask)).toNat := by
  refine Nat.eq_of_testBit_eq fun k => ?_
  rw [testBit_withField, BitVec.testBit_toNat, BitVec.testBit_toNat, BitVec.testBit_toNat]
  simp only [BitVec.getLsbD_or, BitVec.getLsbD_and, BitVec.getLsbD_not, BitVec.getLsbD_shiftLeft, getLsbD_fieldMask]
  by_cases hk : k < w
  · by_cases hf : pos ≤ k ∧ k < pos + len
    · simp [hk, hf]
    · simp [hk, hf]
  · rw [if_neg (by omega), BitVec.getLsbD_of_ge _ _ (by omega)]
    simp [hk]

namespace Alu

variable {w : Nat}

/-- The zero bits above the highest one bit. -/
theorem leading_zeros {a : BitVec w} (ha : a ≠ 0) :
    ((List.range w).takeWhile fun k => !a.getLsbD (w - 1 - k)).length = w - 1 - a.toNat.log2 := by
  have h0 : a.toNat ≠ 0 := mt (toNat_eq_zero_iff a).mp ha
  have hlog : a.toNat.log2 < w := (Nat.log2_lt h0).mpr a.isLt
  have hfind : (List.range w).findIdx (fun k => !!a.getLsbD (w - 1 - k)) = w - 1 - a.toNat.log2 := by
    refine (List.findIdx_eq (by rw [List.length_range]; omega)).mpr ⟨?_, fun j hj => ?_⟩
    · have h : w - 1 - (w - 1 - a.toNat.log2) = a.toNat.log2 := by omega
      rw [List.getElem_range, h, Bool.not_not, BitVec.getLsbD, Nat.testBit_log2 h0]
    · rw [List.getElem_range, Bool.not_not, BitVec.getLsbD]
      exact Nat.testBit_lt_two_pow ((Nat.log2_lt h0).mp (by omega))
  rw [List.takeWhile_eq_take_findIdx_not, List.length_take, hfind, List.length_range]
  omega

theorem clz_eq (a : BitVec w) : clz w a.toNat = asNat (res (Spec.clz w a)) := by
  have hlt (k : Nat) (hk : k ≤ w) : k % 2 ^ w = k := Nat.mod_eq_of_lt (hk.trans_lt Nat.lt_two_pow_self)
  rw [clz, ← nonZero_toNat, Spec.clz, BitVec.toNat_ofNat]
  by_cases ha : a = 0
  · subst ha
    have h : ((List.range w).takeWhile fun k => !(0 : BitVec w).getLsbD (w - 1 - k)) = List.range w :=
      List.takeWhile_eq_self_iff.mpr (by simp)
    rw [h, List.length_range, hlt w le_rfl]
    rfl
  · rw [leading_zeros ha, if_neg (mt (toNat_eq_zero_iff a).mp ha), hlt _ (by omega)]

/-- One bit after the other, the model counts the one bits. -/
theorem ones_eq (n a : Nat) : ones n a = (List.range n).countP a.testBit := by
  induction n generalizing a with
  | zero => rfl
  | succ n ih =>
    rw [ones, ih, List.range_succ_eq_map, List.countP_cons, List.countP_map, Nat.add_comm]
    congr 1
    · exact List.countP_congr fun k _ => by simp [Nat.testBit_succ]
    · rcases Nat.mod_two_eq_zero_or_one a with h | h <;> simp [Nat.testBit_zero, h]

theorem popc_eq (a : BitVec w) : popc w a.toNat = asNat (res (Spec.popc w a)) := by
  have hle : ones w a.toNat < 2 ^ w := by
    rw [ones_eq]
    exact (List.countP_le_length.trans_eq List.length_range).trans_lt Nat.lt_two_pow_self
  have h : Spec.popc w a = BitVec.ofNat w (ones w a.toNat) := by rw [ones_eq]; rfl
  rw [popc, h, ← nonZero_toNat, BitVec.toNat_ofNat, Nat.mod_eq_of_lt hle]

/-- BFX takes the field that its descriptor gives. -/
theorem bfx_field (n : Bool) (a : Nat) (b : BitVec w) : bfx n w a b.toNat = if w ≤ fieldPos b then (0, false)
    else nonZero (wrap w (readAs n (fieldLen b) (a / 2 ^ fieldPos b % 2 ^ fieldLen b))) := rfl

/-- BFI replaces the field that its descriptor gives. -/
theorem bfi_field (d a : Nat) (b : BitVec w) : bfi w d a b.toNat = if w ≤ fieldPos b then nonZero d
    else nonZero (withField d (fieldPos b) (fieldLen b) a) := rfl

theorem bfx_eq {n : Bool} (a b : BitVec w) : bfx n w a.toNat b.toNat = asNat (res (Spec.bfx n w a b)) := by
  rw [bfx_field, Spec.bfx]
  by_cases hp : w ≤ fieldPos b
  · simp [hp, asNat, res]
  · have hlen : 0 < fieldLen b := by unfold fieldLen; omega
    have hf : a.toNat / 2 ^ fieldPos b % 2 ^ fieldLen b = (a.extractLsb' (fieldPos b) (fieldLen b)).toNat := by
      rw [BitVec.extractLsb'_toNat, Nat.shiftRight_eq_div_pow]
    rw [if_neg hp, if_neg hp, hf, readAs_eq n _ hlen, wrap_eq_toNat_ofInt, nonZero_toNat]
    cases n
    · rfl
    · rw [asInt, if_pos rfl, BitVec.ofInt_natCast, BitVec.ofNat_toNat]; rfl

theorem bfi_eq (d a b : BitVec w) : bfi w d.toNat a.toNat b.toNat = asNat (res (Spec.bfi w d a b)) := by
  rw [bfi_field, Spec.bfi]
  by_cases hp : w ≤ fieldPos b
  · rw [if_pos hp, if_pos hp, nonZero_toNat]
  · have hlen : fieldPos b + fieldLen b ≤ w := by unfold fieldLen; omega
    rw [if_neg hp, if_neg hp, withField_eq hlen, nonZero_toNat]

end Alu

/-! ### Constants, field by field -/

/-- MOVS lays the immediate below the shifted value, so that their sum is their OR. -/
theorem movsValue_eq (d : BitVec 32) (imm : BitVec 12) :
    (d.toNat * 2 ^ 12 + imm.toNat) % 2 ^ 32 = ((d <<< 12) ||| imm.setWidth 32).toNat := by
  rw [BitVec.toNat_or, BitVec.toNat_shiftLeft, BitVec.toNat_setWidth, ← Nat.or_mod_two_pow,
    ← Nat.shiftLeft_add_eq_or_of_lt imm.isLt, Nat.shiftLeft_eq]

/-- A field taken out of a number leaves what stands above it and below it. -/
theorem sub_bits (d lo n : Nat) : d - bits d lo n * 2 ^ lo = d / 2 ^ (lo + n) * 2 ^ (lo + n) + d % 2 ^ lo := by
  have h1 := Nat.div_add_mod d (2 ^ lo)
  have h2 := Nat.div_add_mod (d / 2 ^ lo) (2 ^ n)
  rw [Nat.div_div_eq_div_mul] at h2
  rw [pow_add, bits]
  generalize d / (2 ^ lo * 2 ^ n) = hi at *
  generalize d / 2 ^ lo % 2 ^ n = mid at *
  have h3 : d = hi * (2 ^ lo * 2 ^ n) + mid * 2 ^ lo + d % 2 ^ lo := by
    rw [← h2] at h1
    linarith
  omega

/-- MOVK replaces a field of 16 bits. -/
theorem movkValue_eq (d : BitVec 64) (v : BitVec 16) (lo : Nat) :
    BitVec.ofNat 64 (d.toNat - bits d.toNat lo 16 * 2 ^ lo + v.toNat * 2 ^ lo) =
      ((d &&& ~~~((0xFFFF : BitVec 64) <<< lo)) ||| (v.setWidth 64 <<< lo)) := by
  have hq : d.toNat - bits d.toNat lo 16 * 2 ^ lo + v.toNat * 2 ^ lo = withField d.toNat lo 16 v.toNat := by
    rw [sub_bits, withField, Nat.mod_eq_of_lt v.isLt]; omega
  have hmask : (0xFFFF : BitVec 64) = BitVec.ofNat 64 (2 ^ 16 - 1) := rfl
  refine BitVec.eq_of_getLsbD_eq fun k hk => ?_
  rw [hq, hmask, BitVec.getLsbD_ofNat, testBit_withField]
  simp only [BitVec.getLsbD_or, BitVec.getLsbD_and, BitVec.getLsbD_not, BitVec.getLsbD_shiftLeft,
    BitVec.getLsbD_setWidth, BitVec.getLsbD_ofNat, Nat.testBit_two_pow_sub_one, BitVec.testBit_toNat]
  by_cases hlo : lo ≤ k
  · have h1 : k - lo < 16 ↔ k < lo + 16 := by omega
    have h2 : k - lo < 64 := by omega
    by_cases hhi : k < lo + 16
    · simp [hk, hlo, hhi, h1, h2, Nat.not_lt.mpr hlo]
    · have h3 : v.getLsbD (k - lo) = false := BitVec.getLsbD_of_ge _ _ (by omega)
      simp [hk, hlo, hhi, h1, h3]
  · simp [hk, hlo, Nat.lt_of_not_le hlo]

end Sys2Proof.Machine
end

section
/-! From a scalar value to the rule that writes it, and to the body instruction that gives it (R97, R111, R112). -/

namespace Sys2Proof.Machine

open Spec

variable {i : Instr} {s : State}

/-! ### From values to firings -/

/-- A rule that writes a scalar result. -/
theorem computes_of_eq {d : Dst} {r : BitVec 32 × Bool} {q : Nat × Bool}
    (he : exec i s = fire i 1 s (.ok (scalarFired d q))) (h : q = asNat r) : Computes i s d r := by
  subst h
  exact computes_of he (by simp [asNat]) rfl

/-- Element operations whose numbers are those of an operation on bit vectors. -/
theorem elem2_of_eq {i : Guard → Dst → Src → Src → Instr} {f : BitVec 32 → BitVec 32 → BitVec 32 × Bool}
    {F : Nat → Nat → Nat × Bool} (he : ∀ {g d a b s}, exec (i g d a b) s = scalar2 (i g d a b) d a b F s)
    (h : ∀ x y : BitVec 32, F x.toNat y.toNat = asNat (f x y)) : Elem2 i f :=
  elem2_of F (fun _ _ _ _ _ => he) fun x y => by simp [h, asNat]

theorem elemImm_of_eq {i : Guard → Dst → Src → BitVec 12 → Instr} {f : BitVec 32 → BitVec 32 → BitVec 32 × Bool}
    {F : Nat → Nat → Nat × Bool}
    (he : ∀ {g d a m s}, exec (i g d a m) s = scalar1 (i g d a m) d a (fun x => F x (immVal m)) s)
    (h : ∀ x y : BitVec 32, F x.toNat y.toNat = asNat (f x y)) : ElemImm i f :=
  elemImm_of F (fun _ _ _ _ _ => he) fun x y => by simp [h, asNat]

theorem readScalar_eq_zero_iff (a : Src) : readScalar s s.actor.tile s.actor.elem a = 0 ↔ src32 s a = 0 := by
  rw [← src32_toNat, toNat_eq_zero_iff]

/-! ### From values to body instructions -/

theorem widthBits_pos (w : PumpW) : 0 < widthBits w := by cases w <;> decide

/-- A value of w bits extended into gD (R97). -/
theorem gives_of_ext {h : Skip} {op q : Nat} {w : PumpW} {n : Bool} {rd : Reg} {v : BitVec (widthBits w)}
    (he : exec i s = pumpStep h op s (gives s rd (extendW n (widthBits w) q))) (hq : q = v.toNat) :
    Gives h i s rd (ext n v) := by
  intro hb
  rw [he, ext_eq (q := q) (by rw [hq, Nat.mod_eq_of_lt v.isLt])]
  exact gives_bodyDid hb

/-- A body operation of one operand x, and one whose second operand is y. -/
theorem gives_pump1 {h : Skip} {op : Nat} {w : PumpW} {n : Bool} {rd : Reg} {F : Nat → Nat} {v : BitVec (widthBits w)}
    (x : BitVec 64) (he : exec i s = pump1 h op w n rd x.toNat F s)
    (hF : F (x.setWidth (widthBits w)).toNat = v.toNat) : Gives h i s rd (ext n v) :=
  gives_of_ext he (by rw [← hF, BitVec.toNat_setWidth])

theorem gives_pump2 {h : Skip} {op : Nat} {w : PumpW} {n : Bool} {rd ra : Reg} {F : Nat → Nat → Nat × Bool}
    {v : BitVec (widthBits w)} (y : BitVec 64) (he : exec i s = pump2 h op w n rd ra y.toNat F s)
    (hF : (F ((gOf s ra).setWidth (widthBits w)).toNat (y.setWidth (widthBits w)).toNat).1 = v.toNat) :
    Gives h i s rd (ext n v) :=
  gives_of_ext he (by rw [← hF, BitVec.toNat_setWidth, BitVec.toNat_setWidth]; rfl)

/-- A body operation of two operands whose numbers are those of an operation on bit vectors, at every width. -/
theorem pump2_of_eq {n : Bool} {i : Skip → PumpW → Reg → Reg → PSrc → Instr}
    {f : (w : Nat) → BitVec w → BitVec w → BitVec w} {c : (w : Nat) → BitVec w → BitVec w → Bool} {op : Nat}
    {F : Nat → Nat → Nat → Nat × Bool}
    (he : ∀ {h w rd ra pb s}, exec (i h w rd ra pb) s = pump2 h op w n rd ra (readB s pb) (F (widthBits w)) s)
    (hF : ∀ {w}, 0 < w → ∀ x y : BitVec w, F w x.toNat y.toNat = asNat (f w x y, c w x y)) : Pump2 n i f := by
  intro s h w rd ra pb
  refine gives_pump2 (bOf s pb) (by rw [bOf_toNat]; exact he) ?_
  rw [hF (widthBits_pos w)]
  rfl

/-- The same for an operation that has no result bit. -/
theorem pump2_of_value {n : Bool} {i : Skip → PumpW → Reg → Reg → PSrc → Instr}
    {f : (w : Nat) → BitVec w → BitVec w → BitVec w} {op : Nat} {F : Nat → Nat → Nat → Nat}
    (he : ∀ {h w rd ra pb s}, exec (i h w rd ra pb) s =
      pump2 h op w n rd ra (readB s pb) (fun a b => (F (widthBits w) a b, false)) s)
    (hF : ∀ {w}, 0 < w → ∀ x y : BitVec w, F w x.toNat y.toNat = (f w x y).toNat) : Pump2 n i f :=
  pump2_of_eq (F := fun w a b => (F w a b, false)) (c := fun _ _ _ => false) he fun hw x y => Prod.ext (hF hw x y) rfl

/-- A truth value, 0 or 1, is extended to itself at every width. -/
theorem ext_truth (n : Bool) (w : PumpW) (c : Bool) : ext n (truth (widthBits w) c).1 = if c then 1 else 0 := by
  cases n <;> cases w <;> cases c <;> rfl

/-- A body instruction that writes predicates alone. -/
theorem setsPreds_bodyDid {h : Skip} {op : Nat} {ps : List (Nat × Bool)} (hb : BodyRuns h s) :
    ∃ t, pumpStep h op s (.done s { p := ps }) = .next t ∧ BodyDid s t [] ps [] 0 := by
  obtain ⟨hr, hs, hroom⟩ := hb
  exact ⟨_, pumpStep_done hr hs (by simpa using hroom), laneDid_bodyDid _ hr⟩

/-- TST of an element gives the truth value of ANY, or of NONE (R118). -/
theorem computes_tst (none1 : Bool) (s : State) (g : Guard) (d : Dst) (a b : Src) :
    Computes (.tst g none1 d a b) s d (truth 32 ((src32 s a &&& src32 s b != 0) != none1)) :=
  computes_of_eq exec_tst (by rw [← src32_toNat, ← src32_toNat, Alu.tst_eq none1 (by decide)])

/-- TST in a body gives the truth value of ANY, or of NONE (R118). -/
theorem gives_pumpTst (none1 n : Bool) (s : State) (h : Skip) (w : PumpW) (rd ra : Reg) (pb : PSrc) :
    Gives h (.pumpTst h none1 w n rd ra pb) s rd
      (if ((gOf s ra &&& bOf s pb).setWidth (widthBits w) != 0) != none1 then 1 else 0) := by
  rw [BitVec.setWidth_and, ← ext_truth n w]
  exact gives_pump2 (bOf s pb) (by rw [bOf_toNat]; exact exec_pumpTst)
    (congrArg Prod.fst (Alu.tst_eq none1 (widthBits_pos w) ..))

end Sys2Proof.Machine
end

section
/-! Scalar, predicate and element-control instructions: the statements of O1 to O7, O10 and O11. -/

namespace Sys2Proof.Machine

open Spec

/-- Settles O1: each operation of the model's ALU is the exact one of R116, at every width. -/
theorem arithmetic : Obligations.Arithmetic :=
  ⟨elem2_of_eq exec_add Alu.add_eq, elemImm_of_eq exec_addImm Alu.add_eq,
    elem2_of_eq exec_sub Alu.sub_eq, elemImm_of_eq exec_subImm Alu.sub_eq,
    elem2_of_eq exec_mul Alu.mul_eq, elemImm_of_eq exec_mulImm Alu.mul_eq,
    elem2_of_eq exec_mulh (Alu.mulh_eq (by decide)), elemImm_of_eq exec_mulhImm (Alu.mulh_eq (by decide)),
    elem2_of_eq exec_mulhn Alu.mulhn_eq, elemImm_of_eq exec_mulhnImm Alu.mulhn_eq,
    fun _ => elem2_of_eq exec_adds (Alu.adds_eq (by decide)), elemImm_of_eq exec_addsImm (Alu.adds_eq (by decide)),
    fun _ => elem2_of_eq exec_subs (Alu.subs_eq (by decide)), elemImm_of_eq exec_subsImm (Alu.subs_eq (by decide)),
    fun _ => pump2_of_eq exec_pumpAdd fun _ => Alu.add_eq, fun _ => pump2_of_eq exec_pumpSub fun _ => Alu.sub_eq,
    fun _ => pump2_of_eq exec_pumpMul fun _ => Alu.mul_eq, pump2_of_eq exec_pumpMulh Alu.mulh_eq,
    pump2_of_eq exec_pumpMulhn fun _ => Alu.mulhn_eq, fun _ => pump2_of_eq exec_pumpAdds Alu.adds_eq,
    fun _ => pump2_of_eq exec_pumpSubs Alu.subs_eq,
    fun _ _ _ _ _ _ => ⟨rfl, rfl, rfl, rfl, rfl, rfl, rfl, rfl, rfl, rfl, rfl, rfl, rfl, rfl⟩⟩

/-- Settles O2: the model's bitwise operations and shifts are those of R117, bit for bit. -/
theorem logicAndShifts : Obligations.LogicAndShifts :=
  ⟨elem2_of_eq exec_and Alu.andB_eq, elemImm_of_eq exec_andImm Alu.andB_eq,
    elem2_of_eq exec_or Alu.orB_eq, elemImm_of_eq exec_orImm Alu.orB_eq,
    elem2_of_eq exec_xor Alu.xorB_eq, elemImm_of_eq exec_xorImm Alu.xorB_eq,
    elem2_of_eq exec_andn Alu.andn_eq, elemImm_of_eq exec_andnImm Alu.andn_eq,
    elem2_of_eq exec_shl Alu.shl_eq, elemImm_of_eq exec_shlImm Alu.shl_eq,
    elem2_of_eq exec_shr Alu.shr_eq, elemImm_of_eq exec_shrImm Alu.shr_eq,
    elem2_of_eq exec_sra (Alu.sra_eq (by decide)), elemImm_of_eq exec_sraImm (Alu.sra_eq (by decide)),
    elem2_of_eq exec_rot (Alu.rot_eq (by decide)), elemImm_of_eq exec_rotImm (Alu.rot_eq (by decide)),
    fun _ => pump2_of_eq exec_pumpAnd fun _ => Alu.andB_eq, fun _ => pump2_of_eq exec_pumpOr fun _ => Alu.orB_eq,
    fun _ => pump2_of_eq exec_pumpXor fun _ => Alu.xorB_eq, fun _ => pump2_of_eq exec_pumpAndn fun _ => Alu.andn_eq,
    fun _ => pump2_of_eq exec_pumpShl fun _ => Alu.shl_eq, pump2_of_eq exec_pumpShr fun _ => Alu.shr_eq,
    pump2_of_eq exec_pumpSra Alu.sra_eq, fun _ => pump2_of_eq exec_pumpRot Alu.rot_eq⟩

/-- Settles O3: the extremes compare as R118 says; CMP, TST and SEL give a truth value, or one of their operands. -/
theorem compareAndSelect : Obligations.CompareAndSelect := by
  refine ⟨elem2_of_eq exec_min (Alu.minS_eq (by decide)), elemImm_of_eq exec_minImm (Alu.minS_eq (by decide)),
    elem2_of_eq exec_max (Alu.maxS_eq (by decide)), elemImm_of_eq exec_maxImm (Alu.maxS_eq (by decide)),
    elem2_of_eq exec_minn Alu.minN_eq, elemImm_of_eq exec_minnImm Alu.minN_eq,
    elem2_of_eq exec_maxn Alu.maxN_eq, elemImm_of_eq exec_maxnImm Alu.maxN_eq,
    fun rel n c s g d a b hc => ?cmp, fun s g d a b => ?any, fun s g d a b => ?none, fun s g pid d a b => ?sel,
    pump2_of_eq exec_pumpMin Alu.minS_eq, pump2_of_eq exec_pumpMax Alu.maxS_eq,
    pump2_of_eq exec_pumpMinn fun _ => Alu.minN_eq, pump2_of_eq exec_pumpMaxn fun _ => Alu.maxN_eq,
    fun rel n c s h w rd ra pb hc => ?pumpCmp, fun n s h w rd ra pb => ?pumpAny, fun n s h w rd ra pb => ?pumpNone,
    fun n s h w pid rd ra rb => ?pumpSel⟩
  case cmp => exact computes_of_eq exec_cmp (by rw [← src32_toNat, ← src32_toNat, Alu.cmp_eq (by decide) hc])
  case any => simpa using computes_tst false s g d a b
  case none =>
    have hnone : (src32 s a &&& src32 s b == 0) = ((src32 s a &&& src32 s b != 0) != true) := by
      rw [Bool.bne_true, bne, Bool.not_not]
    rw [hnone]
    exact computes_tst true s g d a b
  case sel => exact computes_of_eq exec_sel (by rw [← src32_toNat, ← src32_toNat, Alu.sel_eq])
  case pumpCmp =>
    rw [← ext_truth n w]
    exact gives_pump2 (bOf s pb) (by rw [bOf_toNat]; exact exec_pumpCmp)
      (congrArg Prod.fst (Alu.cmp_eq (widthBits_pos w) hc))
  case pumpAny => simpa using gives_pumpTst false n s h w rd ra pb
  case pumpNone => simpa using gives_pumpTst true n s h w rd ra pb
  case pumpSel =>
    rw [apply_ite (BitVec.setWidth (widthBits w))]
    exact gives_pump2 (gOf s rb) exec_pumpSel (congrArg Prod.fst (Alu.sel_eq ..))

/-- Settles O4: what the model computes by logarithms, sums and quotients is what R119 says bit by bit. -/
theorem bitOperations : Obligations.BitOperations := by
  refine ⟨fun s g d a => ?clz, fun s g d a => ?popc, fun n => elem2_of_eq exec_bfx Alu.bfx_eq, fun s g n a b => ?bfiX,
    fun s g n a b => ?bfiW, fun s h w n rd ra => ?pumpClz, fun s h w n rd ra => ?pumpPopc,
    fun n s h w rd ra rb => ?pumpBfx, fun n s h w rd ra rb => ?pumpBfi⟩
  case clz => exact computes_of_eq exec_clz (by rw [← src32_toNat, Alu.clz_eq])
  case popc => exact computes_of_eq exec_popc (by rw [← src32_toNat, Alu.popc_eq])
  case bfiX | bfiW =>
    exact computes_of_eq exec_bfi (by rw [← src32_toNat, ← src32_toNat]; exact Alu.bfi_eq ..)
  case pumpClz => exact gives_pump1 (gOf s ra) exec_pumpClz (congrArg Prod.fst (Alu.clz_eq _))
  case pumpPopc => exact gives_pump1 (gOf s ra) exec_pumpPopc (congrArg Prod.fst (Alu.popc_eq _))
  case pumpBfx => exact gives_pump2 (gOf s rb) exec_pumpBfx (congrArg Prod.fst (Alu.bfx_eq ..))
  case pumpBfi =>
    refine gives_pump2 (gOf s rb) exec_pumpBfi ?_
    rw [← gOf_toNat, ← BitVec.toNat_setWidth, Alu.bfi_eq]
    rfl

/-- Settles O5: a copy gives its operand, and a constant is put together from fields that do not overlap. -/
theorem movesAndConstants : Obligations.MovesAndConstants := by
  refine ⟨fun s g d a => ?mov, fun s g d imm => ?movi, fun s g n imm => ?movsX, fun s g n imm => ?movsW,
    fun s h w n rd pm => ?pumpMov, fun s h rd v fld => ?movk⟩
  case mov => exact computes_of_eq exec_mov (by rw [← src32_toNat, nonZero_toNat])
  case movi => exact computes_of_eq exec_movi (nonZero_toNat _)
  case movsX | movsW =>
    exact computes_of_eq exec_movs (by rw [← nonZero_toNat, ← movsValue_eq]; rfl)
  case pumpMov => exact gives_pump1 (bOf s pm) (by rw [bOf_toNat]; exact exec_pumpMov) rfl
  case movk =>
    intro hb
    rw [← movkValue_eq, exec_movk]
    exact gives_bodyDid hb

/-- Settles O6: the counter steps modulo 2^32 and is compared as R123 says. -/
theorem counter : Obligations.Counter :=
  ⟨fun _ => elem2_of_eq exec_cnt Alu.cnt_eq, elemImm_of_eq exec_cntImm Alu.cnt_eq, fun _ _ _ _ _ _ => ⟨rfl, rfl⟩⟩

/-- Settles O7: division truncates toward zero, and the remainder is what is left of the dividend. -/
theorem division : Obligations.Division :=
  ⟨pump2_of_value exec_div Alu.divS_eq, pump2_of_value exec_divn fun _ => Alu.divN_eq,
    fun _ => pump2_of_value exec_rem Alu.remS_eq, quot_mul_add_rem, fun _ _ _ _ _ _ => ⟨rfl, rfl, rfl⟩⟩

/-- Settles O10: the predicates written are the bits of the operand, or what PLOG's operation gives. -/
theorem predicates : Obligations.Predicates := by
  refine ⟨fun s g a => ?pset, fun s g lop pj pk => ?plog, fun s g q a => ?qset, fun s h w pd pb hb => ?pumpPset,
    fun s h lop w pd pj pk hb => ?pumpPlog⟩
  case pset => exact fires_of exec_pset (by rw [← src32_toNat]; rfl) rfl rfl rfl rfl
  case plog => exact fires_of exec_plog rfl (Alu.logic_eq ..) rfl rfl rfl
  case qset => exact fires_of exec_qset rfl rfl rfl rfl (by rw [← src32_toNat]; rfl)
  case pumpPset =>
    have hbit : (readB s pb % 2 ^ widthBits w).testBit 0 = (bOf s pb).getLsbD 0 := by
      rw [Nat.testBit_mod_two_pow, decide_eq_true (widthBits_pos w), Bool.true_and, ← bOf_toNat, BitVec.testBit_toNat]
    rw [exec_pumpPset, execPumpPset, hbit]
    exact setsPreds_bodyDid hb
  case pumpPlog =>
    rw [exec_pumpPlog, execPumpPlog, Alu.logic_eq]
    exact setsPreds_bodyDid hb

/-- Settles O11: a control instruction fires with its act alone, TRAP aborts where its operand is not 0, and CHGQ writes
the balance. -/
theorem elementControl : Obligations.ElementControl := by
  refine ⟨fun s g => fires_of exec_nop rfl rfl rfl rfl rfl, fun s g => fires_of exec_halt rfl rfl rfl rfl rfl,
    fun s g a ha => ?passes, fun s g a ha => ?traps, fun s g k => fires_of exec_plane rfl rfl rfl rfl rfl,
    fun s g d => ?chgq⟩
  case passes =>
    have he := exec_trap (g := g) (a := a) (s := s)
    rw [execTrap, if_pos ((readScalar_eq_zero_iff a).mpr ha)] at he
    exact fires_of he rfl rfl rfl rfl rfl
  case traps =>
    have he := exec_trap (g := g) (a := a) (s := s)
    rw [execTrap, if_neg (mt (readScalar_eq_zero_iff a).mp ha)] at he
    exact traps_of he
  case chgq => exact computes_of_eq exec_chgq (by rw [← nonZero_toNat, BitVec.toNat_ofNat])

end Sys2Proof.Machine
end

section
/-! Vector arithmetic, fused products, compares, selection, logic and shifts (R138, R139, R142 to R144, R156): each
operation on whole registers, lane by lane. -/

namespace Sys2Proof.Machine

open Spec

/-! ### Fused products (R139, R156) -/

/-- Lane k of the products that VFMA adds and VFMS subtracts. -/
def signedProduct (minus : Bool) (fmt : Fmt) (x y : BitVec 256) (k : Nat) : Num :=
  let q := (num fmt x k).mul (num fmt y k)
  if minus then q.neg else q

theorem signedProducts_eq (minus : Bool) (fmt : Fmt) (x y : BitVec 256) :
    let ps := List.zipWith Num.mul (Lanes.values fmt x.toNat) (Lanes.values fmt y.toNat)
    (if minus then ps.map Num.neg else ps) = (List.range (Lanes.count fmt)).map (signedProduct minus fmt x y) := by
  rw [values_eq, values_eq, zipWith_range]
  cases minus with
  | false => rfl
  | true => exact List.map_map

theorem fma_eq (minus : Bool) (fmt : Fmt) (c : Nat → Num) (x y : BitVec 256) :
    let r := Lanes.fma minus fmt ((List.range (Lanes.count fmt)).map c) x.toNat y.toNat
    (BitVec.ofNat 256 r.1, r.2) = lanes fmt fun k => (c k).add (signedProduct minus fmt x y k) := by
  simp only [Lanes.fma, signedProducts_eq, zipWith_range]
  exact encodeRne_eq ..

/-- Lane k of an accumulator with a number added to it. -/
def accLane (x : BitVec 512) (p : Nat → Num) (k : Nat) : Nat × Flags := encodeF32 ((num .fp32 x k).add (p k))

/-- n numbers are added into the first lanes of an accumulator, sixteen at most, and the further lanes stay. -/
theorem accumulate_eq (x : BitVec 512) (n : Nat) (p : Nat → Num) :
    let r := Lanes.accumulate x.toNat ((List.range n).map p)
    (BitVec.ofNat 512 r.1, r.2) =
      (vec 512 32 16 fun k => if k < min 16 n then (accLane x p k).1 else (laneAt 32 x k).toNat,
        convs (min 16 n) fun k => (accLane x p k).2) := by
  have hsums : List.zipWith (fun c p => encodeF32 ((decodeF32 c).add p)) (Lanes.split 32 16 x.toNat)
      ((List.range n).map p) = (List.range (min 16 n)).map (accLane x p) := by
    rw [split_eq]
    apply List.ext_getElem
    · simp
    · intro k _ _
      simp only [List.getElem_zipWith, List.getElem_map, List.getElem_range, ← laneAt_toNat]
      rfl
  have hlanes : (List.range (min 16 n)).map (fun k => (accLane x p k).1) ++
      (Lanes.split 32 16 x.toNat).drop ((List.range n).map p).length =
      (List.range 16).map fun k => if k < min 16 n then (accLane x p k).1 else (laneAt 32 x k).toNat := by
    rw [split_eq]
    apply List.ext_getElem
    · simp; omega
    · intro k _ hk
      rw [List.length_map, List.length_range] at hk
      simp only [List.getElem_append, List.length_map, List.length_range, List.getElem_map, List.getElem_range,
        List.getElem_drop, laneAt_toNat, dite_eq_ite]
      split
      · rfl
      · congr 4; omega
  simp only [Lanes.accumulate, hsums, List.map_map, Function.comp_def, hlanes, vec_eq, ← convs_eq]

theorem exec_fused (minus : Bool) (g : Guard) (fmt : Fmt) (d : Dst) (a b : Src) (s : State) :
    let i : Instr := if minus then .vfms g fmt d a b else .vfma g fmt d a b
    exec i s = fire i 2 s (.ok (fmaFired s minus fmt d (readLanes s fmt a) (readLanes s fmt b))) := by
  cases minus with
  | false => exact exec_vfma
  | true => exact exec_vfms

/-- The addend of a fused product whose destination is no accumulator: the old lanes of a vector register, else 0. -/
def addendOf (s : State) (fmt : Fmt) (d : Dst) (k : Nat) : Num :=
  match d with
  | .v n => num fmt (vecOf s n) k
  | _ => .zero

theorem fmaFired_acc (s : State) (minus : Bool) (fmt : Fmt) (n : Fin 4) (x y : BitVec 256) :
    fmaFired s minus fmt (.acc n) x.toNat y.toNat =
      let r := Lanes.accumulate (accOf s n).toNat ((List.range (Lanes.count fmt)).map (signedProduct minus fmt x y))
      { writes := [.acc n (BitVec.ofNat 512 r.1)], conv := r.2 } := by
  simp only [fmaFired, Lanes.fmaAcc, signedProducts_eq]
  rfl

theorem fmaFired_lanes (s : State) (minus : Bool) (fmt : Fmt) {d : Dst} (hd : d.isAcc = false) (x y : BitVec 256) :
    fmaFired s minus fmt d x.toNat y.toNat =
      vectorFired d (Lanes.fma minus fmt ((List.range (Lanes.count fmt)).map (addendOf s fmt d)) x.toNat y.toNat) := by
  have hzero : (List.range (Lanes.count fmt)).map (fun _ => Num.zero) = List.replicate (Lanes.count fmt) .zero := by
    rw [List.map_const', List.length_range]
  cases d with
  | acc n => cases hd
  | v n => exact congrArg (fun c => vectorFired _ (Lanes.fma minus fmt c x.toNat y.toNat)) (values_eq fmt (vecOf s n))
  | _ => exact congrArg (fun c => vectorFired _ (Lanes.fma minus fmt c x.toNat y.toNat)) hzero.symm

/-- A vector result that takes several fc, lane by lane. -/
theorem firesLate_lanes {i : Instr} {s : State} {lat : Nat} {d : Dst} {r : Nat × Conv} {q : BitVec 256 × Conv}
    (he : exec i s = fire i lat s (.ok (vectorFired d r))) (hlat : 1 < lat) (hr : (BitVec.ofNat 256 r.1, r.2) = q) :
    FiresLate i s lat (at256 d q.1) false q.2 := by
  subst hr
  exact firesLate_of he hlat (vectorRes_eq ..) rfl rfl rfl rfl

theorem firesLate_accumulate {i : Instr} {s : State} {n : Fin 4} {m : Nat} {p : Nat → Num}
    (he : let r := Lanes.accumulate (accOf s n).toNat ((List.range m).map p)
      exec i s = fire i 2 s (.ok { writes := [.acc n (BitVec.ofNat 512 r.1)], conv := r.2 })) :
    FiresLate i s 2 [.acc n (vec 512 32 16 fun k => if k < min 16 m then (accLane (accOf s n) p k).1
      else (laneAt 32 (accOf s n) k).toNat)] false (convs (min 16 m) fun k => (accLane (accOf s n) p k).2) := by
  obtain ⟨hv, hc⟩ := Prod.mk.inj (accumulate_eq (accOf s n) m p)
  exact firesLate_of he (by decide) (by rw [hv]) rfl hc rfl rfl

theorem firesLate_fused {minus : Bool} {g : Guard} {fmt : Fmt} {d : Dst} {a b : Src} {s : State} (hd : d.isAcc = false) :
    let r := lanes fmt fun k => (addendOf s fmt d k).add (signedProduct minus fmt (srcV s fmt a) (srcV s fmt b) k)
    FiresLate (if minus then .vfms g fmt d a b else .vfma g fmt d a b) s 2 (at256 d r.1) false r.2 := by
  have he := exec_fused minus g fmt d a b s
  simp only [readLanes_eq, fmaFired_lanes s minus fmt hd] at he
  exact firesLate_lanes he (by decide) (fma_eq ..)

/-! ### Compare and select (R142, R143) -/

theorem compare_eq (fmt : Fmt) (x y : BitVec 256) : BitVec.ofNat 256 (Lanes.compare fmt x.toNat y.toNat) =
    vec 256 (laneWidth fmt) (Lanes.count fmt) fun k =>
      if (num fmt x k).isNan || (num fmt y k).isNan then 2 else if (num fmt x k).lt (num fmt y k) then 2 ^ laneWidth fmt - 1
      else if (num fmt y k).lt (num fmt x k) then 1 else 0 := by
  rw [Lanes.compare, values_eq, values_eq, zipWith_range, vec_eq]

theorem select_eq (lw : LaneW) (test : VTest) (m x y : BitVec 256) :
    BitVec.ofNat 256 (Lanes.select lw test m.toNat x.toNat y.toNat) =
      let w := Lanes.laneBits lw
      vec 256 w (256 / w) fun k =>
        (laneAt w (if (laneAt w m k).toNat = Lanes.testCode w test then x else y) k).toNat := by
  simp only [Lanes.select, split_eq, ← laneAt_toNat, List.zip, zipWith_range, vec_eq]
  congr 3
  funext k
  split <;> rfl

/-! ### Logic and shifts (R144) -/

theorem vlogic_eq (op : VLogOp) (x y : BitVec 256) : BitVec.ofNat 256 (Lanes.logic op x.toNat y.toNat) =
    match op with
    | .and => x &&& y
    | .or => x ||| y
    | .xor => x ^^^ y
    | .andn => x &&& ~~~y
    | .not => ~~~x := by
  have handn : x.toNat ^^^ (x.toNat &&& y.toNat) = (x &&& ~~~y).toNat := congrArg Prod.fst (Alu.andn_eq x y)
  cases op with
  | and => simp [Lanes.logic]
  | or => simp [Lanes.logic]
  | xor => simp [Lanes.logic]
  | andn => rw [Lanes.logic, handn, BitVec.ofNat_toNat, BitVec.setWidth_eq]
  | not => rw [Lanes.logic, ← BitVec.toNat_not, BitVec.ofNat_toNat, BitVec.setWidth_eq]

section

variable {w : Nat} (hw : 0 < w) (x : BitVec w) (n : Nat)

theorem shlV_eq : Alu.shlV w x.toNat n = (if n < w then x <<< n else 0).toNat := by
  unfold Alu.shlV
  split
  · rw [BitVec.toNat_shiftLeft, Nat.shiftLeft_eq]
  · rfl

theorem shrV_eq : Alu.shrV w x.toNat n = (if n < w then x >>> n else 0).toNat := by
  unfold Alu.shrV
  split
  · rw [BitVec.toNat_ushiftRight, Nat.shiftRight_eq_div_pow]
  · rfl

include hw

/-- An amount of w or more counts as w, which a pattern of w bits holds. -/
theorem sraV_eq : Alu.sraV w x.toNat n =
    (if n < w then x.sshiftRight n else if x.msb then BitVec.allOnes w else 0).toNat := by
  have hmin : (BitVec.ofNat w (min n w)).toNat = min n w :=
    Nat.mod_eq_of_lt ((Nat.min_le_right n w).trans_lt Nat.lt_two_pow_self)
  have h := congrArg Prod.fst (Alu.sra_eq hw x (BitVec.ofNat w (min n w)))
  rw [hmin] at h
  calc Alu.sraV w x.toNat n = Alu.sraV w x.toNat (min n w) := by simp only [Alu.sraV]; grind
    _ = (Spec.sra w x (BitVec.ofNat w (min n w))).toNat := h
    _ = _ := by simp only [Spec.sra, hmin]; grind

/-- A rotation's amount counts modulo w, which a pattern of w bits holds. -/
theorem rotV_eq : Alu.rotV w x.toNat n = (x.rotateLeft (n % w)).toNat := by
  have hmod : (BitVec.ofNat w (n % w)).toNat = n % w :=
    Nat.mod_eq_of_lt ((Nat.mod_lt n hw).trans Nat.lt_two_pow_self)
  have h := congrArg Prod.fst (Alu.rot_eq hw x (BitVec.ofNat w (n % w)))
  rw [hmod] at h
  calc Alu.rotV w x.toNat n = Alu.rotV w x.toNat (n % w) := by simp only [Alu.rotV, Nat.mod_mod]
    _ = (Spec.rot w x (BitVec.ofNat w (n % w))).toNat := h
    _ = _ := by simp only [Spec.rot, hmod, Nat.mod_mod]

end

/-- Lane x shifted by n, as R117 says for a width of w (R144). -/
def shiftLane (op : ShOp) {w : Nat} (x : BitVec w) (n : Nat) : BitVec w :=
  match op with
  | .shl => if n < w then x <<< n else 0
  | .shr => if n < w then x >>> n else 0
  | .sra => if n < w then x.sshiftRight n else if x.msb then BitVec.allOnes w else 0
  | .rot => x.rotateLeft (n % w)

theorem laneBits_pos (lw : LaneW) : 0 < Lanes.laneBits lw := by cases lw <;> decide

theorem shift_eq (lw : LaneW) (op : ShOp) (x : BitVec 256) (n : Nat) : BitVec.ofNat 256 (Lanes.shift lw op x.toNat n) =
    let w := Lanes.laneBits lw
    vec 256 w (256 / w) fun k => (shiftLane op (laneAt w x k) n).toNat := by
  simp only [Lanes.shift, split_eq, ← laneAt_toNat, List.map_map, vec_eq]
  cases op with
  | shl => simp only [Function.comp_def, shlV_eq, shiftLane]
  | shr => simp only [Function.comp_def, shrV_eq, shiftLane]
  | sra => simp only [Function.comp_def, sraV_eq (laneBits_pos lw), shiftLane]
  | rot => simp only [Function.comp_def, rotV_eq (laneBits_pos lw), shiftLane]

/-! ### The statements -/

/-- Settles O12: each instruction applies its function of R138 lane by lane and encodes the results to nearest even. -/
theorem vectorArithmetic : Obligations.VectorArithmetic :=
  ⟨lanes2_of fun _ _ _ _ _ _ => exec_vadd, lanes2_of fun _ _ _ _ _ _ => exec_vsub, lanes2_of fun _ _ _ _ _ _ => exec_vmul,
    lanes2_of fun _ _ _ _ _ _ => exec_vmax, lanes2_of fun _ _ _ _ _ _ => exec_vmin, lanes2_of fun _ _ _ _ _ _ => exec_vclamp,
    lanes1_of fun _ _ _ _ _ => exec_vabs, lanes1_of fun _ _ _ _ _ => exec_vneg,
    fun _ _ _ _ _ => ⟨rfl, rfl, rfl, rfl, rfl, rfl, rfl, rfl⟩⟩

/-- Settles O13: a fused product is added to an accumulator's lanes, or to those of a vector, and encoded once. -/
theorem vectorFused : Obligations.VectorFused := by
  refine ⟨fun minus s g fmt d a b => ?fused, fun s g fmt n a => ?vacc⟩
  case fused =>
    intro i p
    cases d with
    | acc n =>
      have he := exec_fused minus g fmt (.acc n) a b s
      simp only [readLanes_eq, fmaFired_acc] at he
      exact firesLate_accumulate he
    | _ => exact firesLate_fused rfl
  case vacc =>
    have he := exec_vacc (g := g) (fmt := fmt) (d := .acc n) (a := a) (s := s)
    simp only [execVacc, readLanes_eq, values_eq] at he
    exact firesLate_accumulate he

/-- Settles O14: compares, selections and shifts work lane by lane, and logic bit by bit. -/
theorem vectorCompareLogic : Obligations.VectorCompareLogic := by
  refine ⟨fun s g fmt d a b => ?vcmp, fun s g lw test d a b => ?vsel, fun s g op d a b => ?vlog,
    fun s g lw op d a b => ?vsh⟩
  case vcmp =>
    exact fires_of exec_vcmp (by rw [vectorRes_eq, readLanes_eq, readLanes_eq, compare_eq]) rfl rfl rfl rfl
  case vsel =>
    intro w m
    have hold : readVDst s d = m.toNat := by cases d <;> rfl
    exact fires_of exec_vsel (by rw [vectorRes_eq, hold, readWide_eq, readWide_eq, select_eq]) rfl rfl rfl rfl
  case vlog =>
    refine fires_of exec_vlog ?_ rfl rfl rfl rfl
    rw [vectorRes_eq, readWide_eq, readWide_eq]
    exact congrArg (at256 d) (vlogic_eq ..)
  case vsh =>
    intro w n
    refine fires_of exec_vsh ?_ rfl rfl rfl rfl
    rw [vectorRes_eq, readWide_eq, readS_eq]
    exact congrArg (at256 d) (shift_eq ..)

end Sys2Proof.Machine
end

section
/-! Conversions (R149 to R153): the statement of O15. -/

namespace Sys2Proof.Machine

open Spec

/-! ### Lists of numbers, lane by lane -/

theorem map_range_append {α : Type} (n m : Nat) (f g : Nat → α) :
    (List.range n).map f ++ (List.range m).map g = (List.range (n + m)).map fun k => if k < n then f k else g (k - n) := by
  apply List.ext_getElem
  · simp
  · intro k _ _
    simp [List.getElem_append]

theorem take_map_range {α : Type} (h n : Nat) (f : Nat → α) :
    ((List.range n).map f).take h = (List.range (min h n)).map f := by
  apply List.ext_getElem <;> simp

theorem drop_map_range {α : Type} (h n : Nat) (f : Nat → α) :
    ((List.range n).map f).drop h = (List.range (n - h)).map fun k => f (h + k) := by
  apply List.ext_getElem <;> simp

theorem map_range_getD {α : Type} (xs : List α) (y : α) : (List.range xs.length).map (xs.getD · y) = xs := by
  apply List.ext_getElem
  · simp
  · intro k _ _
    simp [*]

theorem next8_eq (n : Fin 8) : next8 n = n + 1 := by
  revert n; decide

theorem next4_eq (n : Fin 4) : next4 n = n + 1 := by
  revert n; decide

theorem pairValues_eq (s : State) (fmt : Fmt) (a : Src) :
    pairValues s fmt a = (List.range (pairOf s fmt a).1).map (pairOf s fmt a).2 := by
  cases a with
  | acc n =>
    have h : pairValues s fmt (.acc n) = Lanes.accValues (accOf s n).toNat ++ Lanes.accValues (accOf s (n + 1)).toNat := by
      rw [← next4_eq]; rfl
    rw [h, accValues_eq, accValues_eq, map_range_append]
    rfl
  | v n =>
    have h : pairValues s fmt (.v n) = Lanes.values fmt (vecOf s n).toNat ++ Lanes.values fmt (vecOf s (n + 1)).toNat := by
      rw [← next8_eq]; rfl
    rw [h, values_eq, values_eq, map_range_append, ← two_mul]
    rfl
  | _ => rfl

/-! ### Results of conversions -/

theorem srkRand_eq (s : State) (rnd : Rnd) : srkRand s rnd = randOf s rnd := by
  funext k
  unfold srkRand randOf
  split <;> rfl

/-- Numbers encoded into one register or channel: the model's list, lane by lane. -/
theorem encodedRes_eq (s : State) (d : Dst) (fmt : Fmt) (rnd : Rnd) (n : Nat) (f : Nat → Num) :
    let r := Lanes.encodeAll fmt rnd (randOf s rnd) ((List.range n).map f)
    (encodedRes d r.1, r.2) = converted s d fmt rnd (n, f) := by
  intro r
  have h (m : Nat) : (BitVec.ofNat m r.1, r.2) = encoded m fmt rnd (randOf s rnd) n f := encodeAll_eq ..
  obtain ⟨h256, hconv⟩ := Prod.mk.inj (h 256)
  obtain ⟨h512, -⟩ := Prod.mk.inj (h 512)
  refine Prod.ext ?_ hconv
  cases d with
  | acc n => exact congrArg (fun v => [PWrite.acc n v]) h512
  | v n => exact congrArg (at256 (.v n)) h256
  | out c => exact congrArg (at256 (.out c)) h256
  | x | w | discard => rfl

/-- How many lanes the lower register of a pair takes (R151, R153). -/
def lowerLanes (d : Dst) (fmt : Fmt) : Nat :=
  match d with
  | .acc _ => 16
  | _ => Lanes.count fmt

/-- The writes to a register pair, from the numbers packed for its lower and its higher register. -/
def pairWrites (d : Dst) (lo hi : Nat) : List PWrite :=
  match d with
  | .v n => [.v n (BitVec.ofNat 256 lo), .v (next8 n) (BitVec.ofNat 256 hi)]
  | .acc n => [.acc n (BitVec.ofNat 512 lo), .acc (next4 n) (BitVec.ofNat 512 hi)]
  | _ => []

/-- The writes to a register pair in the statements' terms, with the events of both registers' lanes. -/
def pairOut (d : Dst) (lo hi : BitVec 512 × Conv) : List PWrite × Conv :=
  match d with
  | .v n => ([.v n (lo.1.setWidth 256), .v (n + 1) (hi.1.setWidth 256)], lo.2.add hi.2)
  | .acc n => ([.acc n lo.1, .acc (n + 1) hi.1], lo.2.add hi.2)
  | _ => ([], lo.2.add hi.2)

theorem paired_eq_pairOut (s : State) (d : Dst) (fmt : Fmt) (rnd : Rnd) (n : Nat) (f : Nat → Num) :
    let h := lowerLanes d fmt
    paired s d fmt rnd (n, f) = pairOut d (encoded 512 fmt rnd (randOf s rnd) (min h n) f)
      (encoded 512 fmt rnd (fun k => randOf s rnd (k + h)) (n - h) fun k => f (h + k)) := by
  cases d <;> rfl

theorem pairOut_eq (d : Dst) (lo hi : Nat × Conv) :
    pairOut d (BitVec.ofNat 512 lo.1, lo.2) (BitVec.ofNat 512 hi.1, hi.2) =
      (pairWrites d lo.1 hi.1, lo.2.add hi.2) := by
  have hnarrow (x : Nat) : (BitVec.ofNat 512 x).setWidth 256 = BitVec.ofNat 256 x :=
    BitVec.setWidth_ofNat_of_le (by decide) x
  cases d with
  | v n => simp only [pairOut, pairWrites, next8_eq, hnarrow]
  | acc n => simp only [pairOut, pairWrites, next4_eq]
  | _ => rfl

/-- Numbers encoded into a register pair: the model's list, cut behind the lower register's lanes. -/
theorem pairWrites_eq (s : State) (d : Dst) (fmt : Fmt) (rnd : Rnd) (n : Nat) (f : Nat → Num) :
    let h := lowerLanes d fmt
    let lo := Lanes.encodeAll fmt rnd (randOf s rnd) (((List.range n).map f).take h)
    let hi := Lanes.encodeAll fmt rnd (fun k => randOf s rnd (k + h)) (((List.range n).map f).drop h)
    (pairWrites d lo.1 hi.1, lo.2.add hi.2) = paired s d fmt rnd (n, f) := by
  intro h lo hi
  rw [paired_eq_pairOut, ← encodeAll_eq, ← encodeAll_eq, ← take_map_range, ← drop_map_range, pairOut_eq]

/-! ### The statement -/

/-- VDQNT's random words, lanes and writes are those of a register pair; its act counts the free value that stands for a
missing scale. -/
theorem exec_vdqnt_eq (s : State) (g : Guard) (df sf : Fmt) (rnd : Rnd) (d : Dst) (a : Src) :
    let xs := Lanes.scaledValues sf (readLanes s sf a) (dqntScale s a)
    let h := lowerLanes d df
    let lo := Lanes.encodeAll df rnd (srkRand s rnd) (xs.take h)
    let hi := Lanes.encodeAll df rnd (fun k => srkRand s rnd (k + h)) (xs.drop h)
    exec (.vdqnt g df sf rnd d a) s = fire (.vdqnt g df sf rnd d a) 2 s (.ok
      { writes := pairWrites d lo.1 hi.1, conv := lo.2.add hi.2,
        act := fun u => stepSeq rnd s.actor.tile s.actor.elem
          (if a.isV || a.isChan then u else { u with free := u.free + 1 }) }) := by
  rw [exec_vdqnt]
  unfold execVdqnt
  cases a.isV || a.isChan <;> cases d <;> rfl

/-- A conversion into one register or channel fires with its lanes, and advances SEQ where it rounds by .srk. -/
theorem firesConv_converted {i : Instr} {s : State} {d : Dst} {fmt : Fmt} {rnd : Rnd} {x : Nat × (Nat → Num)}
    (he : let r := Lanes.encodeAll fmt rnd (randOf s rnd) ((List.range x.1).map x.2)
      exec i s = fire i 1 s (.ok (convFired s rnd (encodedRes d r.1) r.2))) :
    FiresConv i s (converted s d fmt rnd x).1 (converted s d fmt rnd x).2 (stepSeq rnd s.actor.tile s.actor.elem) := by
  rw [← encodedRes_eq]
  exact firesConv_of he rfl rfl rfl rfl rfl

/-- Settles O15: a conversion encodes the numbers of its source lane by lane, into one register or into a pair. -/
theorem conversions : Obligations.Conversions := by
  refine ⟨fun s g df sf rnd d a => ?vcvt, fun s g df sf rnd d a => ?vpack, fun s g df sf rnd n a => ?vunpk,
    fun s g df sf rnd n a => ?vqnt, fun s g df sf rnd d a _ => ?vdqnt⟩
  case vcvt =>
    have he := exec_vcvt (g := g) (df := df) (sf := sf) (rnd := rnd) (d := d) (a := a) (s := s)
    rw [execVcvt, srkRand_eq, srcValues_eq] at he
    exact firesConv_converted he
  case vpack =>
    have he := exec_vpack (g := g) (df := df) (sf := sf) (rnd := rnd) (d := d) (a := a) (s := s)
    rw [execVpack, srkRand_eq, pairValues_eq] at he
    exact firesConv_converted he
  case vunpk =>
    have he := exec_vunpk (g := g) (df := df) (sf := sf) (rnd := rnd) (d := .v n) (a := a) (s := s)
    rw [execVunpk, readLanes_eq, values_eq] at he
    intro r
    have hr := pairWrites_eq s (.v n) df .rne (Lanes.count sf) (num sf (srcV s sf a))
    obtain ⟨hw, hc⟩ := Prod.mk.inj hr
    exact firesConv_of he hw rfl hc rfl rfl
  case vqnt =>
    intro x r
    have he := exec_vqnt (g := g) (df := df) (sf := sf) (rnd := rnd) (d := .v n) (a := a) (s := s)
    rw [execVqnt, srkRand_eq, pairValues_eq] at he
    exact firesLate_of he (by decide) rfl rfl rfl rfl rfl
  case vdqnt =>
    intro xs r
    have he := exec_vdqnt_eq s g df sf rnd d a
    have hr := pairWrites_eq s d df rnd xs.length (xs.getD · .zero)
    rw [map_range_getD] at hr
    simp only [srkRand_eq, readLanes_eq] at he
    obtain ⟨hw, hc⟩ := Prod.mk.inj hr
    exact firesLate_of he (by decide) hw rfl hc rfl rfl

end Sys2Proof.Machine
end

section
/-! Bytes read as a number, numbers extended to 32 bits, and fields of tokens (R20, R89, R169, R172). -/

namespace Sys2Proof.Machine

open Spec

variable {i : Instr} {s : State}

/-! ### Bytes -/

@[simp] theorem Mem.reads_length (m : Mem) (a n : Nat) : (m.reads a n).length = n := by
  induction n generalizing a with
  | zero => rfl
  | succ n ih => simp [Mem.reads, ih]

theorem natOf_cons (b : Byte) (bs : List Byte) : natOf (b :: bs) = b.toNat + 256 * natOf bs := rfl

theorem natOf_lt (bs : List Byte) : natOf bs < 2 ^ (8 * bs.length) := by
  induction bs with
  | nil => exact Nat.one_pos
  | cons b bs ih =>
    have hb : b.toNat < 256 := b.isLt
    rw [natOf_cons, List.length_cons, Nat.mul_succ, pow_add]
    omega

theorem natOf_lt_of_length {bs : List Byte} {n : Nat} (h : bs.length = n) : natOf bs < 2 ^ (8 * n) := h ▸ natOf_lt bs

/-- Four bytes are the bits of a word. -/
theorem toNat_natOf_word {bs : List Byte} (h : bs.length = 4) : (BitVec.ofNat 32 (natOf bs)).toNat = natOf bs := by
  rw [BitVec.toNat_ofNat, Nat.mod_eq_of_lt (natOf_lt_of_length h)]

/-- The model's extension of a narrow value is that of R172. -/
theorem extendNarrow_eq_toNat (mw : MemW) (n : Bool) {v : Nat} (hv : v < 2 ^ (8 * accessBytes mw)) :
    extendNarrow mw n v = (narrow n (accessBytes mw) v).toNat := by
  have hw : 0 < 8 * accessBytes mw := by cases mw <;> decide
  have hx : (BitVec.ofNat (8 * accessBytes mw) v).toNat = v := Nat.mod_eq_of_lt hv
  have h : narrow n (accessBytes mw) v = BitVec.ofInt 32 (asInt n (BitVec.ofNat (8 * accessBytes mw) v)) := by
    cases n
    · rfl
    · exact ((BitVec.ofInt_natCast ..).trans (BitVec.ofNat_toNat ..)).symm
  rw [h, extendNarrow, wrap_eq_toNat_ofInt, ← readAs_eq n _ hw, hx]

/-! ### Operands -/

theorem readVector_zero_eq (s : State) (a : Src) : readVector s s.actor.tile s.actor.elem 0 a = (src256 s 0 a).toNat := by
  rw [src256, BitVec.toNat_ofNat, Nat.mod_eq_of_lt (readVector_lt _ _ _ 0 (by decide) a)]

theorem toSigned_readS (s : State) (a : Src) : toSigned 32 (readS s a) = (src32 s a).toInt := by
  rw [readS_eq, toSigned_eq _ (by decide)]

/-! ### Scalar results -/

theorem scalarRes_toNat (d : Dst) (v : BitVec 32) : scalarRes d v.toNat = at32 d v :=
  scalarRes_eq d _ v (by simp)

theorem toNat_bne_zero {w : Nat} (v : BitVec w) : (v.toNat != 0) = (v != 0) :=
  congrArg Prod.snd (nonZero_toNat v)

/-- A word computed in several fc. -/
theorem firesLate_word {lat : Nat} {d : Dst} {v : BitVec 32} (hlat : 1 < lat)
    (he : exec i s = fire i lat s (.ok (scalarFired d (nonZero v.toNat)))) : FiresLate i s lat (at32 d v) (v != 0) {} :=
  firesLate_of he hlat (scalarRes_toNat d v) (toNat_bne_zero v) rfl rfl rfl

end Sys2Proof.Machine
end

section
/-! Tokens moved, steered, merged and marked (R159 to R166): the statements of O18 and O24. -/

namespace Sys2Proof.Machine

open Spec

theorem tokenRes_readTok (s : State) (d : Dst) (a : Src) :
    tokenRes d (readTok s a).1 (readTok s a).2 = moved d (tokOf s a).1 (tokOf s a).2 := by
  rw [tokenRes_eq, tokOf_eq]

/-- Settles O18: a token moves as it stands, and an accumulator only to another. -/
theorem tokenMoves : Obligations.TokenMoves := by
  refine ⟨fun s g d a b => fires_of exec_fwd ?fwd rfl rfl rfl rfl,
    fun s g a b => fires_of exec_deq rfl (by rw [tokOf_eq]) rfl rfl rfl,
    fun s g v d a => fires_of exec_tag (by rw [tokenRes_eq, tokOf_eq]) rfl rfl rfl rfl⟩
  case fwd =>
    cases a with
    | acc n => cases d <;> simp [accRes, aReg, accOf]
    | _ => exact tokenRes_readTok s d _

/-! ### Steering and merging -/

/-- The writes of a STEER: a record to the arm its control value names, and its index to the arm's index output (R164). -/
theorem steer_writes (s : State) (n : Fin 16) (a b : Src) : let k := readTok s a
    [PWrite.out (fin 16 (n.val + readS s b % 2)) ⟨k.1, k.2, 0⟩,
      .out (fin 16 (n.val + 2 + readS s b % 2))
        ⟨BitVec.ofNat 256 (s.elem s.actor.tile s.actor.elem).core.idx.toNat, 0, 0⟩] =
    [.out (fin 16 (n.val + (src32 s b).toNat % 2)) ⟨(tokOf s a).1, (tokOf s a).2, 0⟩,
      .out (fin 16 (n.val + 2 + (src32 s b).toNat % 2))
        ⟨(s.elem s.actor.tile s.actor.elem).core.idx.setWidth 256, 0, 0⟩] := by
  rw [tokOf_eq, readS_eq, BitVec.ofNat_toNat]

theorem steerAndMerge : SteerAndMerge := by
  refine ⟨fun s g n a b => fires_of exec_steer (steer_writes s n a b) rfl rfl rfl rfl,
    fun s g d a b r k tok harm hhead => fires_of exec_mrgo ?mrgo rfl rfl rfl rfl, fun s g d a b c hpick => ?mrga⟩
  case mrgo => simp only [harm, hhead, tokenRes_eq]
  case mrga =>
    have he := exec_mrga (g := g) (d := d) (a := a) (b := b) (s := s)
    simp only [execMrga, hpick] at he
    exact fires_of he (tokenRes_readTok s d c) rfl rfl rfl rfl

/-! ### Marks -/

/-- The token of a CUT: its kind, and the iteration count above (R163). -/
theorem cutData_eq (v : BitVec 32) :
    BitVec.ofNat 256 (4 + v.toNat * 2 ^ 32) = (4 : BitVec 256) ||| (v.setWidth 256 <<< 32) := by
  have hv := v.isLt
  apply BitVec.eq_of_toNat_eq
  rw [BitVec.toNat_or, BitVec.toNat_shiftLeft, BitVec.toNat_setWidth, BitVec.toNat_ofNat, Nat.or_comm,
    Nat.mod_eq_of_lt (a := v.toNat) (by omega), Nat.shiftLeft_eq, Nat.mod_eq_of_lt (a := v.toNat * 2 ^ 32) (by omega),
    ← Nat.shiftLeft_eq]
  exact (Nat.mod_eq_of_lt (by omega)).trans ((Nat.add_comm ..).trans (Nat.shiftLeft_add_eq_or_of_lt (by decide) _))

theorem markInstructions : MarkInstructions := by
  refine ⟨fun s g => fires_of exec_markStroke rfl rfl rfl rfl rfl, fun s g => fires_of exec_markDrain rfl rfl rfl rfl rfl,
    fun s g => fires_of exec_markFreeze rfl rfl rfl rfl rfl,
    fun s g c => fires_of exec_markBarrier rfl rfl rfl rfl rfl,
    fun s g c a => fires_of exec_markCut (by rw [readS_eq, cutData_eq]; rfl) rfl rfl rfl rfl,
    fun u k t r hk hr => ⟨?stroke, ?freeze, fun n p => ?plane⟩⟩
  case stroke => rw [requestStroke, hk]; exact region_modRegion hr _
  case freeze => rw [requestFreeze, hk]; exact region_modRegion hr _
  case plane => rw [requestPlane, hk]; exact region_modRegion hr _

/-- Settles O24, from its two parts: what steers and merges, and what lays down marks. -/
theorem steerMergeAndMarks : Obligations.SteerMergeAndMarks := ⟨steerAndMerge, markInstructions⟩

end Sys2Proof.Machine
end

section
/-! The cistern, its rings and its owners (R172, R178 to R182, R384): the statements of O19, O20 and O21. -/

namespace Sys2Proof.Machine

open Spec

variable {i : Instr} {s : State}

/-! ### Rules that read the cistern -/

theorem Tile.badAt_iff (x : Tile) (off len : Nat) :
    x.badAt off len = true ↔ ∃ g ∈ x.badCistern, off < 8 * g + 8 ∧ 8 * g < off + len := by
  simp only [Tile.badAt, overlaps, List.any_eq_true, Bool.and_eq_true, decide_eq_true_eq]

/-- A rule whose meaning is a firing that reads bytes of its tile's cistern (R384). -/
theorem readsCistern_of {lat off len : Nat} {f : Fired} {ok : Prop}
    (he : exec i s = fire i lat s (cisternBody (s.tile s.actor.tile) off len f))
    (hok : exec i s = fire i lat s (.ok f) → ok) : ReadsCistern i s off len ok := by
  refine ⟨fun hbad => ?bad, fun hgood => hok ?good⟩
  case bad =>
    rw [cisternBody, if_pos ((Tile.badAt_iff ..).mpr hbad)] at he
    exact traps_of he
  case good =>
    have hn : ¬ (s.tile s.actor.tile).badAt off len = true := by
      rw [Tile.badAt_iff]
      rintro ⟨g, hg, hlo, hhi⟩
      have := hgood g hg
      omega
    rw [he, cisternBody, if_neg hn]

/-- A rule that reads a word from its cistern, two fc late. -/
theorem readsCistern_word {d : Dst} {off len : Nat} {v : BitVec 32}
    (he : exec i s = fire i 2 s (cisternBody (s.tile s.actor.tile) off len (scalarFired d (nonZero v.toNat)))) :
    ReadsCistern i s off len (FiresLate i s 2 (at32 d v) (v != 0) {}) :=
  readsCistern_of he (firesLate_word (by decide))

/-- A rule whose meaning is a store to its tile's cistern (R178). -/
theorem cisternStores_of {off : Nat} {bs : List Byte} (he : exec i s = fire i 1 s (cisternStore s off bs)) :
    CisternStores i s off bs := by
  refine ⟨fun hown => ?owned, fun hfree => ?free⟩
  case owned =>
    rw [cisternStore, if_pos hown] at he
    exact traps_of he
  case free =>
    rw [cisternStore, if_neg (by simp [hfree])] at he
    exact fires_of he rfl rfl rfl rfl rfl

theorem cisternPlace_eq (s : State) (a : Src) (n : Nat) : cisternPlace (src32 s a) n = cisternOff (readS s a) n := by
  rw [readS_eq]; rfl

/-- Settles O20: loads extend what they read, and stores log what they replace. -/
theorem cisternAccess : Obligations.CisternAccess := by
  refine ⟨fun s g mw n d a => readsCistern_word ?cld, fun s g d a => ?cvld, fun s g mw n a b => cisternStores_of ?cst,
    fun s g a b => cisternStores_of ?cvst⟩
  case cld =>
    rw [← extendNarrow_eq_toNat mw n (natOf_lt_of_length (Mem.reads_length ..)), cisternPlace_eq]
    exact exec_cld
  case cvld =>
    rw [cisternPlace_eq]
    exact readsCistern_of exec_cvld fun he => firesLate_of he (by decide) (vectorRes_eq ..) rfl rfl rfl rfl
  case cst =>
    rw [cisternPlace_eq, ← readS_eq]
    exact exec_cst
  case cvst =>
    rw [cisternPlace_eq, ← readVector_zero_eq]
    exact exec_cvst

/-! ### Rings -/

/-- The bytes are written, and the undo log takes the old ones (R178, R180). -/
theorem tile_cisternWrite (s : State) (t e off : Nat) (bs : List Byte) :
    (cisternWrite s t e off bs).tile t = { (s.tile t).mend off bs.length with
      undo := (s.tile t).undo ++ [⟨(s.elem t e).stroke, off, (s.tile t).cistern.reads off bs.length, undoSize bs.length⟩]
      cistern := (s.tile t).cistern.writes off bs } :=
  State.tile_modTile_same ..

theorem tile_setRing (s : State) (t : Nat) (n : Fin 8) (r : Ring) : (setRing s t n r).tile t =
    { s.tile t with core := { (s.tile t).core with rings := (s.tile t).core.rings.set n r } } :=
  State.tile_modTile_same ..

/-- Settles O19: CRGET frees the slot it reads, and CRPUT fills the slot it writes. -/
theorem ringInstructions : Obligations.RingInstructions := by
  refine ⟨fun s g ring d => readsCistern_of exec_crget fun he => ?get,
    fun s g ring a => fires_of exec_crput rfl rfl rfl rfl (by rw [tokOf_eq]), fun u t e ring v => ?put⟩
  case get => exact firesLate_of he (by decide) (tokenRes_eq ..) rfl rfl rfl rfl
  case put =>
    have hlen := byteList_length (2 ^ ((u.tile t).core.rings[ring].ssize.toNat + 2)) v
    simp only [putRing, tile_setRing, tile_cisternWrite, Ring.slotBytes, hlen]
    exact ⟨rfl, Vector.getElem_set_self .., rfl⟩

/-! ### Owners -/

/-- The fields of an update token are read back (R181). -/
theorem updateToken_fields {off c b v : Nat} (ho : off < 2 ^ 18) (hc : c < 8) (hb : b < 2) (hv : v < 2 ^ 32) :
    let tok := off + c * 2 ^ 18 + b * 2 ^ 21 + v * 2 ^ 32
    bits tok 0 18 = off ∧ bits tok 18 3 = c ∧ bits tok 21 1 = b ∧ bits tok 32 32 = v := by
  simp only [bits]
  omega

/-- An owner's integer operation is that of R182. -/
theorem ownerOp_eq_toNat {op : AtomOp} (hop : op ≠ .xadd) (n : Bool) (old v : BitVec 32) :
    ownerOp op.code n old.toNat v.toNat = (owned op n old v).toNat := by
  have h := fun x : BitVec 32 => readAs_eq n x (by decide)
  cases op with
  | add => exact (BitVec.toNat_add ..).symm
  | min => simp only [ownerOp, AtomOp.code, AtomOp.ofCode, owned, h, apply_ite BitVec.toNat]
  | max => simp only [ownerOp, AtomOp.code, AtomOp.ofCode, owned, h, apply_ite BitVec.toNat]
  | and => exact (BitVec.toNat_and ..).symm
  | or => exact (BitVec.toNat_or ..).symm
  | xor => exact (BitVec.toNat_xor ..).symm
  | count => exact (BitVec.toNat_add old 1).symm
  | xadd => exact absurd rfl hop

theorem AtomOp.code_lt_seven {op : AtomOp} (hop : op ≠ .xadd) : op.code < 7 := by
  cases op with
  | xadd => exact absurd rfl hop
  | _ => decide

/-- An integer update leaves the result of its operation in its word (R182). -/
theorem cistern_applyUpdate (u : State) (t e : Nat) {op : AtomOp} (n : Bool) {off : Nat} (v : BitVec 32)
    (hop : op ≠ .xadd) (ho : off < 2 ^ 18) :
    let place := ((bits (u.elem t e).owner.toNat 0 18 + off) % 2 ^ 18) / 4 * 4
    let old := BitVec.ofNat 32 (natOf ((u.tile t).cistern.reads place 4))
    ((applyUpdate u t e (off + op.code * 2 ^ 18 + bit n * 2 ^ 21 + v.toNat * 2 ^ 32)).tile t).cistern =
      (u.tile t).cistern.writes place (byteList 4 (owned op n old v).toNat) := by
  intro place old
  have hc : op.code < 7 := AtomOp.code_lt_seven hop
  have hn : bit n < 2 := by cases n <;> decide
  have hbit : (bit n == 1) = n := by cases n <;> rfl
  have hold : natOf ((u.tile t).cistern.reads place 4) = old.toNat := (toNat_natOf_word (Mem.reads_length ..)).symm
  obtain ⟨hoff, hcode, hnat, hval⟩ := updateToken_fields ho (by omega : op.code < 8) hn v.isLt
  rw [applyUpdate, hcode, if_neg (by omega : ¬ op.code = 7), hoff, hnat, hval, hbit, tile_cisternWrite]
  rw [← ownerOp_eq_toNat hop n old v, ← hold]
  rfl

/-- Settles O21: ATOM checks the owner it sends to, and OWNAP applies an update to its word or reads one out. -/
theorem ownerUpdates : Obligations.OwnerUpdates := by
  refine ⟨fun s g op n d a b => ?atom, fun s g a => ?apply,
    fun u t e op n off v hop ho => cistern_applyUpdate u t e n v hop ho, fun s g d a => ?readout⟩
  case atom =>
    intro o off xf i
    have howner : targetOwner s s.actor.tile s.actor.elem d = o := rfl
    have he : exec i s = execAtom g op n d a b s := exec_atom
    simp only [execAtom, readS_eq, howner] at he
    refine ⟨fun hout => ?outside, fun hv hin hop => ?other, fun hv hin hop => ?sends⟩
    case outside =>
      rw [if_pos hout] at he
      exact traps_of he
    case other =>
      have hinside : ¬ (bits o 63 1 = 0 ∨ bits o 20 18 ≤ off) := by omega
      rw [if_neg hinside, if_pos hop] at he
      exact traps_of he
    case sends =>
      have hinside : ¬ (bits o 63 1 = 0 ∨ bits o 20 18 ≤ off) := by omega
      rw [if_neg hinside, if_neg (not_not.mpr hop)] at he
      exact fires_of he (tokenRes_eq ..) rfl rfl rfl rfl
  case apply =>
    rw [← tokOf_eq]
    exact readsCistern_of exec_ownapApply fun he => fires_of he rfl rfl rfl rfl rfl
  case readout =>
    intro x o place
    have he := exec_ownapReadout (g := g) (d := d) (a := a) (s := s)
    simp only [execOwnapReadout, readS_eq] at he
    split
    case isTrue h =>
      rw [if_pos h, if_pos h] at he
      exact readsCistern_of he fun he => firesLate_of he (by decide) (scalarRes_eq d _ _ rfl) rfl rfl rfl rfl
    case isFalse h =>
      rw [if_neg h, if_neg h] at he
      refine readsCistern_word ?_
      rw [toNat_natOf_word (Mem.reads_length ..)]
      exact he

end Sys2Proof.Machine
end

section
/-! Loads and stores of memory elements (R169, R172 to R175, R177): the statements of O22 and O25. -/

namespace Sys2Proof.Machine

open Spec

variable {i : Instr} {s : State}

/-! ### Loads ask -/

/-- A rule whose meaning is the firing of a load (R169, R172, R177). -/
theorem loads_of {o : Operands} {upd : Option Upd} {kind : ReqKind} {fe : Bool} {d : Dst} {len : Nat} {a : Src} {ea : Int}
    (ho : i.operands = some o) (hu : o.g.upd = upd) (he : exec i s = fireLoad i s kind fe d len a ea) :
    Loads i upd s kind fe d len a ea := by
  subst hu
  simp only [fireLoad, ho, loadFired] at he
  unfold Loads
  dsimp only
  revert he
  cases atFiring s s.actor.tile s.actor.elem (ctxAt s s.actor.tile) (readAddr s a) ea len { write := false, fe := fe } with
  | fault code va => exact traps_of
  | pages ps => exact fun he => firesAsk_of he rfl rfl rfl rfl rfl
  | walk => exact fun he => firesAsk_of he rfl rfl rfl rfl rfl

theorem effective_eq (s : State) (k : AddrTok) (b : Src) : effective s k b = k.va + (src32 s b).toInt := by
  rw [effective, toSigned_readS]

theorem loadsAsk : LoadsAsk := by
  intro s g a b d
  dsimp only
  rw [← effective_eq]
  exact ⟨fun mw n => loads_of rfl rfl exec_ld, loads_of rfl rfl exec_vld, loads_of rfl rfl exec_lds,
    loads_of rfl rfl exec_ldc⟩

/-! ### Requests stand -/

/-- The request in its element's list, before a slot is held for its answer. -/
def requestListed (s : State) (t e : Nat) (q : MemReq) : State :=
  ({ s with nextId := s.nextId + 1 } : State).modElem t e fun y => { y with reqs := y.reqs ++ [{ q with
    id := s.nextId, plane := s.actor.plane, slot := s.actor.slot, stroke := y.stroke }] }

theorem nextId_holdOut (s : State) (t e c : Nat) (n : Nat → Nat) : (holdOut s t e c n).nextId = s.nextId := by
  unfold holdOut
  generalize targets s t e c = gs
  induction gs generalizing s with
  | nil => rfl
  | cons g gs ih => cases g <;> exact ih _

/-- What holding slots for tokens to come leaves as it was (R136, R169). -/
structure Unsent (s u : State) : Prop where
  reqs : ∀ t e, (u.elem t e).reqs = (s.elem t e).reqs
  nextId : u.nextId = s.nextId
  array : OnlyArray s u
  core : ∀ t e, (u.elem t e).core = (s.elem t e).core
  inbox : ∀ g f, inbox u f g = inbox s f g
  tile : ∀ t, (u.tile t).core = (s.tile t).core ∧ (u.tile t).cistern = (s.tile t).cistern

theorem Unsent.refl (s : State) : Unsent s s :=
  ⟨fun _ _ => rfl, rfl, rfl, fun _ _ => rfl, fun _ _ => rfl, fun _ => ⟨rfl, rfl⟩⟩

theorem Unsent.holdOut (s : State) (t e c : Nat) (n : Nat → Nat) : Unsent s (Machine.holdOut s t e c n) := by
  obtain ⟨hkept, hcore, htile, -, hinbox⟩ := holdOut_kept (T := t) (E := e) (s := s) t e c n
  exact ⟨fun u j => by rw [(RegsAndTokens.holdOut t e c n s).elem], nextId_holdOut .., hkept.array, hcore,
    fun g f => hinbox f g, fun u => ⟨(htile u).1, hkept.cistern u⟩⟩

theorem Unsent.startRequest (s : State) (t e : Nat) (q : MemReq) :
    Unsent (requestListed s t e q) (Machine.startRequest s t e q) := by
  simp only [Machine.startRequest, requestListed, Nat.add_sub_cancel]
  cases q.dst with
  | out c => exact .holdOut ..
  | _ => exact .refl _

theorem requestsStand : RequestsStand := by
  intro s t e q
  obtain ⟨hreqs, hnext, harray, hcore, hinbox, htile⟩ := Unsent.startRequest s t e q
  have hlisted : OnlyArray s (requestListed s t e q) := rfl
  refine ⟨?reqs, hnext, onlyArray_trans hlisted harray, fun v j => ?core, fun g f => ?inbox, fun v => ?tile⟩
  case reqs => rw [hreqs, requestListed, State.elem_modElem_same]; rfl
  case core =>
    rw [hcore, requestListed, State.elem_modElem]
    split
    · next h => rw [h.1, h.2]; rfl
    · rfl
  case inbox =>
    rw [hinbox, requestListed, inbox_modElem_core fun _ => rfl]
    cases g <;> rfl
  case tile => exact ⟨(htile v).1.trans (State.tileCore_modElem ..), (htile v).2.trans (cistern_modElem ..)⟩

/-- Settles O25, from its two parts: what a load asks for, and that its request stands. -/
theorem fabricLoads : Obligations.FabricLoads := ⟨loadsAsk, requestsStand⟩

/-! ### Stores -/

/-- A rule whose meaning is the firing of a store (R173, R177). -/
theorem stores_of {data : List Byte} {stf : Bool} {a : AddrTok} {ea : Int}
    (he : exec i s = fire i 1 s (storeFired s data stf a ea)) : Stores i s data stf a ea := by
  simp only [storeFired] at he
  unfold Stores
  dsimp only
  revert he
  cases atFiring s s.actor.tile s.actor.elem (ctxAt s s.actor.tile) a ea data.length { write := true, fe := stf } with
  | fault code va => exact traps_of
  | pages ps => exact fun he => fires_of he rfl rfl rfl rfl rfl
  | walk => exact fun he => fires_of he rfl rfl rfl rfl rfl

/-- Settles O22: a store goes into the buffer of its stroke, and the fabric alone changes. -/
theorem fabricStores : Obligations.FabricStores := by
  refine ⟨fun s g a b => ⟨fun mw n => stores_of ?st, stores_of ?vst, stores_of ?stf⟩,
    fun u t e cls va data ps walk stf k r hk hr => ?buffered⟩
  case st => rw [← readS_eq]; exact exec_st
  case vst => rw [← readVector_zero_eq]; exact exec_vst
  case stf => rw [← readS_eq]; exact exec_stf
  case buffered =>
    simp only [bufferStore, hk]
    cases walk with
    | true => exact ⟨rfl, region_modRegion hr _⟩
    | false => exact ⟨rfl, region_modRegion hr _⟩

end Sys2Proof.Machine
end

section
/-! Translations, address generators, range tokens and hints (R168, R170, R171, R211): the statement of O26. -/

namespace Sys2Proof.Machine

open Spec

/-! ### Translations and ranges -/

theorem translationAndRanges : TranslationAndRanges := by
  refine ⟨fun s g wr d a => ?xlat, fun s g d a => ?rearm, fun s g d => ?step, fun s g d a ha => ?take,
    fun s g d a ha => ?noPool⟩
  case xlat =>
    extract_lets t e x i answers
    have he : exec i s = execXlat g wr d a s := exec_xlat
    simp only [execXlat, tokOf_eq] at he
    have answered {y : AddrTok} {b : Bool} (hy : exec i s = fire i 1 s (.ok { writes := tokenRes d y.data 0, res := b })) :
        answers y b := fires_of hy (tokenRes_eq ..) rfl rfl rfl rfl
    split
    case isTrue hdone =>
      rw [if_pos hdone] at he
      exact fires_of he (tokenRes_eq ..) rfl rfl rfl rfl
    case isFalse hopen =>
      rw [if_neg hopen] at he
      revert he
      cases rangeFault x.va 1 with
      | some fault => exact answered
      | none =>
        cases tlbFind (s.elem t e).utlb (ctxAt s t) x.va with
        | none => exact fun he => firesAsk_of he rfl rfl rfl rfl rfl
        | some p =>
          dsimp only
          cases p.permits { write := wr, fe := false } with
          | true => exact answered
          | false => exact answered
  case rearm =>
    rw [← ofNat_bits, BitVec.toNat_setWidth, ← bits_zero, ← tokOf_eq]
    exact fires_of exec_agenRearm rfl rfl rfl rfl rfl
  case step =>
    intro c base
    rw [← toSigned_eq c.x[12] (by decide), ← tokenRes_eq]
    exact fires_of exec_agenStep rfl rfl rfl rfl rfl
  case take =>
    have he := exec_rtake (g := g) (d := d) (a := a) (s := s)
    simp only [execRtake, readS_eq] at he
    rw [if_neg (by omega), Nat.mod_eq_of_lt ha] at he
    exact firesAsk_of he rfl rfl rfl rfl rfl
  case noPool =>
    have he := exec_rtake (g := g) (d := d) (a := a) (s := s)
    simp only [execRtake, readS_eq] at he
    rw [if_pos (by omega)] at he
    exact traps_of he

/-! ### Hints -/

/-- The operands of a hint keep their limits (R211). -/
theorem hint_reserved_iff (x y : BitVec 32) :
    (x.toNat / 2 ^ 9 ≠ 0 ∨ bits y.toNat 24 8 ≠ 0) ↔ (2 ^ 9 ≤ x.toNat ∨ 2 ^ 24 ≤ y.toNat) := by
  have hy := y.isLt
  simp only [bits]
  omega

/-- A body instruction that holds one act for the commit, no entry of the store buffer (R50). -/
theorem defers_bodyDid {s : State} {h : Skip} {op : Nat} {a : CommitAct} (hb : BodyRuns h s) (ha : a.isEntry = false) :
    ∃ t, pumpStep h op s (defers s a) = .next t ∧ BodyDid s t [] [] [a] 0 := by
  obtain ⟨hr, hs, hroom⟩ := hb
  exact ⟨_, pumpStep_done hr hs (by simpa [ha] using hroom), laneDid_bodyDid _ hr⟩

theorem hints : Hints := by
  refine ⟨fun s g a b ha hb => ?hint, fun s g a b hab => ?reserved, fun s h ra onset len hb => ?pump,
    fun s ctx die int onset len r hlen => if_neg (by omega)⟩
  case hint =>
    have he := exec_phint (g := g) (a := a) (b := b) (s := s)
    simp only [execPhint, readS_eq] at he
    rw [if_neg (by rw [hint_reserved_iff]; omega)] at he
    refine fires_of he rfl rfl rfl rfl (funext fun u => ?_)
    have hlen : bits (src32 s b).toNat 8 16 = (src32 s b).toNat / 2 ^ 8 := by simp only [bits]; omega
    rw [bits_zero, hlen]
  case reserved =>
    have he := exec_phint (g := g) (a := a) (b := b) (s := s)
    simp only [execPhint, readS_eq] at he
    rw [if_pos ((hint_reserved_iff ..).mpr hab)] at he
    exact traps_of he
  case pump =>
    rw [exec_pumpPhint, execPumpPhint, ← gOf_toNat, ← bits_zero]
    exact defers_bodyDid hb rfl

/-- Settles O26, from its two parts: translations and ranges, and hints. -/
theorem addressesAndHints : Obligations.AddressesAndHints := ⟨translationAndRanges, hints⟩

end Sys2Proof.Machine
end

section
/-! What answers the requests of memory elements (R168, R171, R172, R174 to R176): the statement of O28. -/

namespace Sys2Proof.Machine

open Spec

variable {s u : State} {t e rq : Nat} {q : MemReq} {bs : List Byte}

/-! ### What returning data writes -/

/-- A buffered store is laid over the bytes read; their number stays. -/
@[simp] theorem overlay_length (va : Nat) (bs : List Byte) (x : RStore) : (overlay va bs x).length = bs.length := by
  simp [overlay]

@[simp] theorem forwarded_length (s : State) (t cls va : Nat) (bs : List Byte) :
    (forwarded s t cls va bs).length = bs.length := by
  unfold forwarded
  split
  · rfl
  · next r _ =>
    generalize r.stores.filter (fun x => x.cls == cls) = xs
    induction xs generalizing bs with
    | nil => rfl
    | cons x xs ih => rw [List.foldl_cons, ih, overlay_length]

theorem loadWrites_load {mw : MemW} {n : Bool} (hk : q.kind = .load mw n) (hl : bs.length = accessBytes mw) :
    loadWrites q bs = (at32 q.dst (narrow n (accessBytes mw) (natOf bs)), narrow n (accessBytes mw) (natOf bs) != 0) := by
  simp only [loadWrites, hk, extendNarrow_eq_toNat mw n (natOf_lt_of_length hl), scalarRes_toNat, toNat_bne_zero]

theorem loadWrites_vload (hk : q.kind = .vload) : loadWrites q bs = (at256 q.dst (BitVec.ofNat 256 (natOf bs)), false) := by
  simp only [loadWrites, hk, vectorRes_eq]

/-- A full-empty load gives the word it found (R175, R176). -/
theorem loadWrites_word (hk : q.kind = .lds ∨ q.kind = .ldc) (hl : bs.length = 4) :
    loadWrites q bs = (at32 q.dst (BitVec.ofNat 32 (natOf bs)), BitVec.ofNat 32 (natOf bs) != 0) := by
  have h : loadWrites q bs = (scalarRes q.dst (natOf bs), natOf bs != 0) := by
    rcases hk with hk | hk <;> rw [loadWrites, hk]
  rw [h, ← toNat_natOf_word hl, scalarRes_toNat, toNat_bne_zero, toNat_natOf_word hl]

/-! ### LD and VLD -/

theorem exec_loadDataReturn_bytes (hq : findReq s t e rq = some q) (hk : (∃ mw n, q.kind = .load mw n) ∨ q.kind = .vload)
    (hw : q.walked = true) (hf : q.fault = none) (hr : readAny s rq q.pages q.va q.len = (.bytes bs, u)) :
    exec (.loadDataReturn t e rq) s = .next (answer u t e q (loadWrites q (forwarded u t q.cls q.va bs)).1
      (loadWrites q (forwarded u t q.cls q.va bs)).2) := by
  rw [exec_loadDataReturn]
  rcases hk with ⟨mw, n, hk⟩ | hk <;> simp [execLoadDataReturn, hq, hk, hw, hf, hr]

/-! ### LDS and LDC -/

/-- What an LDS or LDC gives of a word seen under the stores of its class (R174). -/
theorem loadWrites_forwarded (hk : q.kind = .lds ∨ q.kind = .ldc) (hl : bs.length = 4) :
    let v := BitVec.ofNat 32 (natOf (forwarded s t q.cls q.va bs))
    loadWrites q (forwarded s t q.cls q.va bs) = (at32 q.dst v, v != 0) :=
  loadWrites_word hk (by rw [forwarded_length, hl])

/-- Settles O28: each answer is what its instruction writes of the data, the word, the translation or the token found. -/
theorem fabricReplies : Obligations.FabricReplies := by
  intro s t e rq q hq
  refine ⟨fun mw n bs u hk hw hf hr hl => ?load, fun bs u hk hw hf hr => ?vload, fun hk hw hf => ?word, fun wr hk => ?xlat,
    fun k hk ha => ?take⟩
  case load =>
    intro v
    rw [exec_loadDataReturn_bytes hq (.inl ⟨mw, n, hk⟩) hw hf hr, loadWrites_load hk (by rw [forwarded_length, hl])]
  case vload => rw [exec_loadDataReturn_bytes hq (.inr hk) hw hf hr, loadWrites_vload hk]
  case word =>
    extract_lets pa word seen
    have hwaits : ((q.kind == .lds || q.kind == .ldc) && q.walked && q.fault.isNone) = true := by simp [hk, hw, hf]
    have he := exec_feWordFullWake (t := t) (e := e) (rq := rq) (s := s)
    simp only [execFeWordFullWake, hq, hwaits, if_true] at he
    have hseen := loadWrites_forwarded (s := s) (t := t) hk (Mem.reads_length s.mem pa 4)
    refine ⟨fun hb hfull => ?empty, fun hb hfull hlds => ?lds, fun k hb hfull hldc hreg => ?ldc, fun x hb hx => ?taken,
      fun x hb hx hl => ?held⟩
    case empty => rw [he, hb]; exact if_neg (by simp [pa, hfull])
    case lds =>
      rw [he, hb]
      dsimp only
      rw [if_pos hfull, hseen, if_neg (by simp [hlds])]
    case ldc =>
      rw [he, hb]
      dsimp only
      rw [if_pos hfull, hseen, if_pos hldc, hreg]
    case taken => rw [he, hb]; exact if_pos (Option.isSome_iff_ne_none.mpr hx)
    case held =>
      rw [he, hb]
      dsimp only
      rw [if_neg (by simp [hx]), loadWrites_forwarded hk hl]
  case xlat =>
    intro x
    have he := exec_xlatWalkComplete (t := t) (e := e) (rq := rq) (s := s)
    simp only [execXlatWalkComplete, hq, hk] at he
    split
    case h_1 hat => rw [he, hat]
    case h_2 hat => rw [he, hat, ← tokenRes_eq]; rfl
    case h_3 hat =>
      rintro p rest rfl
      rw [he, hat, ← tokenRes_eq]; rfl
  case take =>
    have he := exec_rangeTokenReply (t := t) (e := e) (rq := rq) (s := s)
    simp only [execRangeTokenReply, hq, hk, ha, tokenRes_eq] at he
    exact he

end Sys2Proof.Machine
end

section
/-! The commands of engines (R185, R186, R190): the statement of O23. -/

namespace Sys2Proof.Machine

open Spec

variable {i : Instr} {s : State}

theorem readAddr_va_lt (s : State) (a : Src) : (readAddr s a).va < 2 ^ 64 := Nat.mod_lt _ (by decide)

/-- The token of R186, where its fields keep their widths. -/
theorem commandToken_eq {a b : Nat} (op : Nat) (ha : a < 2 ^ 64) (hb : b < 2 ^ 32) :
    commandToken a b op = BitVec.ofNat 256 (a + b * 2 ^ 64 + op * 2 ^ 96) := by
  rw [commandToken, Nat.mod_eq_of_lt ha, Nat.mod_eq_of_lt hb]

/-- A rule whose meaning is a command of scalars (R186). -/
theorem commands_of {d : Dst} {ok : Bool} {a b op : Nat} (he : exec i s = fire i 1 s (commandFired ok d a b op))
    (ha : a < 2 ^ 64) (hb : b < 2 ^ 32) : Commands i s d ok a b op := by
  refine ⟨fun hok => ?sent, fun hok => ?refused⟩
  case sent =>
    rw [commandFired, if_pos hok] at he
    exact fires_of he (by rw [tokenRes_eq, commandToken_eq op ha hb]) rfl rfl rfl rfl
  case refused =>
    rw [commandFired, if_neg (by simp [hok])] at he
    exact traps_of he

/-- A rule whose meaning is a command with an address: the token's own fault stands after the limits (R177, R186). -/
theorem addressCommands_of {d : Dst} {ok : Bool} {a : AddrTok} {b op : Nat}
    (he : exec i s = fire i 1 s (addressFired ok d a b op)) (ha : a.va < 2 ^ 64) (hb : b < 2 ^ 32) :
    AddressCommands i s d ok a b op := by
  cases ok with
  | false => exact ⟨fun _ => traps_of he, nofun, nofun⟩
  | true =>
    refine ⟨nofun, fun _ hf => ?fault, fun _ hf => ?sent⟩
    case fault =>
      rw [addressFired, if_neg (by decide), if_pos hf] at he
      exact traps_of he
    case sent =>
      rw [addressFired, if_neg (by decide), if_neg (not_not.mpr hf)] at he
      exact (commands_of he ha hb).1 rfl

/-- The limits of MXDRN (R195). -/
theorem drainOk_eq (x y : Nat) : drainOk x y = decide (x < 1024 ∧ 1 ≤ y ∧ y ≤ 1024 ∧ x + y ≤ 1024) := by
  simp only [drainOk, Bool.decide_and, Bool.and_assoc]

/-- Settles O23: a command of scalars is sent or refused by its limits alone, one with an address by its token's fault
too. -/
theorem engineCommands : Obligations.EngineCommands := by
  intro s g d a b
  extract_lets x y k
  have ex : x = readS s a := (readS_eq s a).symm
  have ey : y = readS s b := (readS_eq s b).symm
  have hy : readS s b < 2 ^ 32 := readScalar_lt ..
  have hx : readS s a < 2 ^ 64 := (readScalar_lt ..).trans (by decide)
  have hk : k.va < 2 ^ 64 := readAddr_va_lt s a
  rw [← drainOk_eq, ex, ey]
  exact ⟨commands_of exec_mxcfg hx (by decide), addressCommands_of exec_mxldb hk hy,
    commands_of exec_mxrow hx hy, commands_of exec_mxacc hx hy, commands_of exec_mxdrn hx hy,
    addressCommands_of exec_mxgrp hk (by decide), commands_of exec_mxstat hx (by decide),
    addressCommands_of exec_sxcpy hk (by decide), addressCommands_of exec_sxgth hk (by decide),
    addressCommands_of exec_sxsct hk (by decide), addressCommands_of exec_sxdeep hk (by decide),
    addressCommands_of exec_xpcfg hk (by decide), addressCommands_of exec_wrsrt hk (by decide)⟩

end Sys2Proof.Machine
end

section
/-! What the system instructions of a pump core share: operand faults, single answers, held acts, and memory operands
(R218, R231, R234). -/

namespace Sys2Proof.Machine

open Spec

variable {i : Instr} {h : Skip} {s : State}

/-! ### Answers -/

/-- An instruction whose outcome is known, by what the model's case distinction comes to. -/
theorem exec_outcome {op : Nat} {x y : PumpOut} (he : exec i s = pumpStep h op s x) (hxy : x = y) :
    exec i s = pumpStep h op s y := hxy ▸ he

theorem refuses_of (he : exec i s = pumpStep h (opOf i) s (operandFault s)) : Refuses h i s := faults_of he

theorem answers_of {rd : Reg} {v : Nat} (he : exec i s = pumpStep h (opOf i) s (gives s rd v)) : Answers h i s rd v :=
  executes_of he

theorem defers_of {a : CommitAct} (he : exec i s = pumpStep h (opOf i) s (defers s a)) : Defers h i s a := executes_of he

/-! ### Memory operands -/

/-- What a memory access comes to when nothing before it faults or waits (R215, R219). -/
theorem reaches_of {ea : Int} {len : Nat} {want : Want} {word : Bool} {k : State → List (Nat × Nat) → PumpOut}
    {ok : State → List (Nat × Nat) → Prop} (he : exec i s = pumpStep h (opOf i) s (withAccess s ea len want word k))
    (hk : ∀ u spans, exec i s = pumpStep h (opOf i) s (k u spans) → ok u spans) : Reaches h i s ea len want word ok := by
  rw [withAccess] at he
  unfold Reaches
  revert he
  rcases pumpAccess s ea len want word with ⟨_ | _ | ⟨spans, fe⟩, u⟩
  · exact faults_of
  · exact waits_of
  · intro he
    refine ⟨fun hm => hk u spans ?shape, fun hm => faults_of ?misshapen⟩
    case shape => exact exec_outcome he (if_pos hm)
    case misshapen => exact exec_outcome he (if_neg (by simp [hm]))

/-- The same for an operand, which lies in memory here or on another module (R234). -/
theorem reaches_operandAt {va len : Nat} {write : Bool} {k : State → List (Nat × Nat) → PumpOut}
    {ok : State → List (Nat × Nat) → Prop} (he : exec i s = pumpStep h (opOf i) s (operandAt s va len write k))
    (hk : ∀ u spans, exec i s = pumpStep h (opOf i) s (k u spans) → ok u spans) :
    Reaches h i s va len { write := write } false fun u spans =>
      (∀ p ∈ spans, (placeOf p.1).isMemory = true ∨ ((placeOf p.1).isRemote = true ∧ remoteTier p.1 = true)) →
      ok u spans := by
  refine reaches_of he fun u spans he hmem => hk u spans (exec_outcome he (if_pos ?_))
  simpa [List.all_eq_true] using hmem

/-- Where nothing stands before it, an instruction at a commit point goes on (R218). -/
theorem atCommitPoint_of_ready {k : State → PumpOut} (hc : CommitReady s) : atCommitPoint s k = k s := by
  obtain ⟨hheld, hfence, hreleased⟩ := hc
  simp [atCommitPoint, hheld, hfence, hreleased]

theorem operandBytes_of_read {u : State} {va : Nat} {spans : List (Nat × Nat)} {bs : List Byte}
    {k : State → List Byte → PumpOut} (hr : readSpansAny (laneWaiter s) va spans s = (.bytes bs, u)) :
    operandBytes s va spans k = k (doneRemotes (laneWaiter u) spans u) bs := by
  simp only [operandBytes, hr]

/-- An instruction that reads its operand at its commit point (R218, R234). -/
theorem atOperand_of {va len : Nat} {k : State → List Byte → PumpOut} {ok : State → List Byte → Prop}
    (he : exec i s = pumpStep h (opOf i) s (operandAtCommit s va len k))
    (hk : ∀ u bs, exec i s = pumpStep h (opOf i) s (k u bs) → ok u bs) : AtOperand h i s va len ok :=
  reaches_operandAt he fun u spans he hc bs t hr => hk _ bs (by rw [he, atCommitPoint_of_ready hc, operandBytes_of_read hr])

/-! ### Bit fields of a register -/

theorem bits_one_beq_one {n : Nat} (x : BitVec n) (k : Nat) : (bits x.toNat k 1 == 1) = x.getLsbD k := by
  rw [Bool.eq_iff_iff, beq_iff_eq, bits_one_eq_one_iff]

theorem bits_eq_zero_iff {n : Nat} (x : BitVec n) (lo k : Nat) : bits x.toNat lo k = 0 ↔ x.extractLsb' lo k = 0 := by
  rw [bits_eq_extractLsb', ← BitVec.toNat_inj]; rfl

end Sys2Proof.Machine
end

section
/-! Trigger bindings, range pools, CRC.mem and ROUTE of a pump core (R209, R240, R244, R245): the statement of O37. -/

namespace Sys2Proof.Machine

open Spec

variable {s : State}

/-- The queue and the well that a binding names belong to a context (R240). -/
theorem triggerMine_iff (s : State) (ctx : Nat) (d : List Byte) : triggerMine s ctx d = true ↔
    (s.queue (field d 0x20 2)).ctx.toNat = ctx ∧ (field d 0 1 % 4 = 1 → (s.well (field d 1 1)).ctx = ctx) := by
  simp only [triggerMine, Bool.and_eq_true, Bool.or_eq_true, beq_iff_eq, bne_iff_ne]
  tauto

/-- At a commit point, an idle pool is at hand, and one that reads its table is waited for (R209). -/
theorem atPool_of_idle {die pool : Nat} {k : State → Pool → PumpOut} (hc : CommitReady s)
    (hp : (s.pool die pool).reading = none) : atPool s die pool k = k s (s.pool die pool) := by
  rw [atPool, atCommitPoint_of_ready hc, if_neg (by simp [hp])]

theorem atPool_of_reading {die pool : Nat} {k : State → Pool → PumpOut} (hc : CommitReady s)
    (hp : (s.pool die pool).reading ≠ none) : atPool s die pool k = .wait s := by
  rw [atPool, atCommitPoint_of_ready hc, if_pos (Option.isSome_iff_ne_none.mpr hp)]

/-- A signed field of eight bits of a register (R245). -/
theorem toSigned_bits_eight (x : BitVec 64) (lo : Nat) : toSigned 8 (bits x.toNat lo 8) = (x.extractLsb' lo 8).toInt := by
  rw [bits_eq_extractLsb', toSigned_eq _ (by decide)]

/-- Settles O37: operands are checked first; then a binding is held for the commit, a pool is filled, closed or asked, and
CRC.mem and ROUTE give their values. -/
theorem triggersPoolsRoutes : Obligations.TriggersPoolsRoutes := by
  refine ⟨fun s h rd ra => ⟨fun hk => ⟨?unbindBad, ?queryBad⟩, fun hk => ⟨?unbind, ?query⟩⟩,
    fun s h rd ra rb => ⟨fun hbad => ?bindBad, fun hk hva => ?bind⟩, fun s h rd ra pool die2 => ?fill,
    fun s h rd ra pool die2 hc => ⟨fun hr => ⟨?closeWaits, ?queryWaits⟩, fun hr => ⟨?close, ?ask⟩⟩,
    fun s h rd ra rb => ⟨fun hbad => ?crcBad, fun h1 hn => ?crc⟩, fun s h rd ra rb => ⟨fun hbad => ?routeBad, fun ha hb => ?route⟩⟩
  case unbindBad => exact refuses_of (exec_outcome exec_trigbUnbind (if_pos hk))
  case queryBad => exact refuses_of (exec_outcome exec_trigbQuery (if_pos hk))
  case unbind => exact executes_of (exec_outcome exec_trigbUnbind (if_neg (not_le.mpr hk)))
  case query =>
    refine answers_of (exec_outcome exec_trigbQuery ((if_neg (not_le.mpr hk)).trans (congrArg _ ?_)))
    change _ + bit (actorTrigger s (readG s ra)).overflow * 2 ^ 32 = _ + if (actorTrigger s (readG s ra)).overflow then _ else _
    cases (actorTrigger s (readG s ra)).overflow <;> rfl
  case bindBad => exact refuses_of (exec_outcome exec_trigbBind (if_pos hbad))
  case bind =>
    refine reaches_operandAt (exec_outcome exec_trigbBind (if_neg (not_or.mpr ⟨not_le.mpr hk, not_not.mpr hva⟩)))
      fun u spans he d t hr => ?_
    have he := exec_outcome he (operandBytes_of_read hr)
    intro z mine
    have hmine : triggerMine z (actorCtx z) d = true ↔ mine := triggerMine_iff ..
    have hrefused : (!triggerOk d || !triggerMine z (actorCtx z) d) = true ↔ ¬ (triggerOk d = true ∧ mine) := by
      rw [← hmine, ← Bool.not_and, Bool.not_eq_true', ← Bool.not_eq_true, Bool.and_eq_true]
    exact ⟨fun hok => executes_of (exec_outcome he (if_neg fun hn => hrefused.mp hn hok)),
      fun hno => faults_of (exec_outcome he (if_pos (hrefused.mpr hno)))⟩
  case fill =>
    extract_lets i die p
    refine atOperand_of exec_rpoolFill fun u d he => ?_
    have free (hr : p.reading = none) (hn : p.remaining = 0) : ¬ (p.reading.isSome = true ∨ 0 < p.remaining) := by
      simp [hr, hn]
    refine ⟨fun hbusy => executes_of (exec_outcome he (if_pos ?busy)), fun hr hn hpool => ?malformed,
      fun hr hn x hpool => ?filled⟩
    case busy => rwa [Option.isSome_iff_ne_none]
    case malformed =>
      have he := exec_outcome he (if_neg (free hr hn))
      rw [show poolOf (s.pool (poolDie s die2) pool) (actorCtx u) d = none from hpool] at he
      exact executes_of he
    case filled =>
      have he := exec_outcome he (if_neg (free hr hn))
      rw [show poolOf (s.pool (poolDie s die2) pool) (actorCtx u) d = some x from hpool] at he
      exact executes_of he
  case closeWaits => exact waits_of (exec_outcome exec_rpoolClose (atPool_of_reading hc hr))
  case queryWaits => exact waits_of (exec_outcome exec_rpoolQuery (atPool_of_reading hc hr))
  case close =>
    have he := exec_outcome (exec_rpoolClose (h := h) (rd := rd) (ra := ra)) (atPool_of_idle hc hr)
    rw [gives, apply_ite (BitVec.ofNat 64)] at he
    exact executes_of he
  case ask => exact answers_of (exec_outcome exec_rpoolQuery (atPool_of_idle hc hr))
  case crcBad => exact refuses_of (exec_outcome exec_crcMem (if_pos hbad))
  case crc =>
    refine reaches_operandAt (exec_outcome exec_crcMem (if_neg (not_or.mpr ⟨Nat.one_le_iff_ne_zero.mp h1, not_lt.mpr hn⟩)))
      fun u spans he hfree bs t hr => ?_
    rw [if_neg (by simpa using hfree)] at he
    have he := exec_outcome he (operandBytes_of_read hr)
    exact executes_of he
  case routeBad =>
    rw [gOf_toNat, gOf_toNat] at hbad
    exact refuses_of (exec_outcome exec_route (if_pos (by omega)))
  case route =>
    rw [gOf_toNat] at ha hb
    intro dx dy
    refine answers_of (exec_outcome exec_route ((if_neg (by omega)).trans ?_))
    simp only [← gOf_toNat, bits_one_beq_one, toSigned_bits_eight]
    rfl

end Sys2Proof.Machine
end

section
/-! Wells, barriers and budgets of a pump core (R211, R231, R250 to R255): the statement of O41. -/

namespace Sys2Proof.Machine

open Spec

variable {s : State}

/-! ### Wells -/

theorem wellOk_iff (s : State) (w : Nat) : wellOk s w = true ↔ WellNamed s w := by
  simp only [wellOk, WellNamed, Bool.and_eq_true, Bool.or_eq_true, decide_eq_true_eq, beq_iff_eq]
  rfl

theorem verdictOk_iff (v : BitVec 64) : verdictOk v.toNat = true ↔ Verdict v := by
  simp only [verdictOk, Verdict, Bool.and_eq_true, beq_iff_eq, bits_eq_zero_iff]

theorem ofNat_readG (s : State) (r : Reg) : BitVec.ofNat 64 (readG s r) = gOf s r := BitVec.ofNat_toNat ..

theorem ofNat_readGn (s : State) (n : Nat) :
    BitVec.ofNat 64 (readGn s n) = regOf (s.core s.actor.core) (bodyLane s) (n % 64) := BitVec.ofNat_toNat ..

/-- The registers of a quad do not wrap (R251). -/
theorem quad_register {rd : Reg} (h : rd.val % 4 = 0) {n : Nat} (hn : n < 4) : (rd.val + n) % 64 = rd.val + n := by
  have := rd.isLt
  omega

/-- The second register of the quad of a candidate (R251). -/
theorem candidateWord_eq (c : Candidate) :
    BitVec.ofNat 64 (c.score.toNat + c.pre.toNat * 2 ^ 32 + c.cls.toNat * 2 ^ 48) =
      (0 : BitVec 8) ++ c.cls.setWidth 8 ++ c.pre ++ c.score := by
  have hs := c.score.isLt
  have hp := c.pre.isLt
  have hc := c.cls.isLt
  apply BitVec.eq_of_toNat_eq
  simp only [toNat_append_eq_add, BitVec.toNat_setWidth, BitVec.ofNat_eq_ofNat, BitVec.toNat_ofNat]
  omega

/-- WCAND gives the quad of the best candidate where its operands are allowed (R251). -/
theorem exec_wcand_of_ok {h : Skip} {rd ra : Reg} (hw : WellNamed s (gOf s ra).toNat)
    (hl : (s.well (gOf s ra).toNat).lcore = s.actor.core) (hr : rd.val % 4 = 0) :
    let q := candidateQuad (s.well (gOf s ra).toNat) (gOf s ra).toNat
    exec (.wcand h rd ra) s = pumpStep h (opOf (.wcand h rd ra)) s (.done s {
      g := [(rd.val, BitVec.ofNat 64 q.1), (rd.val + 1, BitVec.ofNat 64 q.2.1), (rd.val + 2, BitVec.ofNat 64 q.2.2.1),
        (rd.val + 3, BitVec.ofNat 64 q.2.2.2)] }) := by
  rw [gOf_toNat, ← wellOk_iff] at hw
  rw [gOf_toNat] at hl
  have h0 := quad_register hr (n := 0) (by decide)
  have h1 := quad_register hr (n := 1) (by decide)
  have h2 := quad_register hr (n := 2) (by decide)
  have h3 := quad_register hr (n := 3) (by decide)
  refine exec_outcome exec_wcand ((if_neg (by simp [hw, hl, hr])).trans ?_)
  simp only [h0, h1, h2, h3]
  rfl

/-- What VERD refuses: a quad out of place, reserved bits of the verdict, a ticket of a well that the core does not serve
(R252). -/
theorem verdRefused_iff (s : State) (ra : Reg) (v x : BitVec 64) :
    (ra.val % 4 ≠ 0 ∨ (!verdictOk v.toNat) = true ∨ (!(bits x.toNat 63 1 == 0 ||
      (wellOk s (bits x.toNat 32 6) && (s.well (bits x.toNat 32 6)).lcore == s.actor.core))) = true) ↔
    ¬ (ra.val % 4 = 0 ∧ Verdict v ∧ (x.getLsbD 63 = true → WellNamed s (x.extractLsb' 32 6).toNat ∧
      (s.well (x.extractLsb' 32 6).toNat).lcore = s.actor.core)) := by
  have hbit : x.getLsbD 63 = true ↔ ¬ bits x.toNat 63 1 = 0 := by
    rw [← bits_one_eq_one_iff, bits]
    omega
  rw [hbit, ← verdictOk_iff, ← wellOk_iff, ← bits_eq_extractLsb', not_and_or, not_and_or]
  simp only [Bool.not_eq_true', ← Bool.not_eq_true, Bool.or_eq_true, Bool.and_eq_true, beq_iff_eq, ne_eq, imp_iff_not_or,
    not_not]

/-- The operands that WDRAW allows (R253). -/
theorem wdrawOk_iff (s : State) (rb : Reg) (a v : BitVec 64) :
    (rb.val % 2 == 0 && bits a.toNat 6 2 == 0 && a.toNat / 2 ^ 11 == 0 && wellOk s (bits a.toNat 0 6) &&
      verdictOk v.toNat && bits v.toNat 0 2 == 3) = true ↔
    rb.val % 2 = 0 ∧ a.extractLsb' 6 2 = 0 ∧ a.toNat < 2 ^ 11 ∧ WellNamed s (a.toNat % 64) ∧ Verdict v ∧
      v.extractLsb' 0 2 = 3 := by
  have hform : a.toNat / 2 ^ 11 = 0 ↔ a.toNat < 2 ^ 11 := by omega
  have hdraw : bits v.toNat 0 2 = 3 ↔ v.extractLsb' 0 2 = 3 := by rw [bits_eq_extractLsb', ← BitVec.toNat_inj]; rfl
  simp only [Bool.and_eq_true, beq_iff_eq, bits_eq_zero_iff, wellOk_iff, verdictOk_iff, hform, hdraw, and_assoc]
  rw [bits_zero]
  rfl

theorem wellInstructions : WellInstructions := by
  refine ⟨fun s h rd ra rb => ⟨fun hbad => ?warmBad, fun hw hva => ?warm⟩,
    fun s h rd ra => ⟨fun hbad => ?wcandBad, fun hok hb => ?wcandNone, fun hok c hb => ?wcand⟩,
    fun s h ra rb => ⟨fun hok => ?verd, fun hbad => ?verdBad⟩, fun s h rd ra rb => ⟨fun hok => ?wdraw, fun hbad => ?wdrawBad⟩,
    fun s h item rd ra v16 => ⟨fun hw => ?wstat, fun hw => ?wstatBad⟩, fun s h ra => ⟨fun hw => ?wclose, fun hw => ?wcloseBad⟩⟩
  case wstat => exact answers_of (exec_outcome exec_wstat (if_pos ((wellOk_iff ..).mpr hw)))
  case wstatBad => exact refuses_of (exec_outcome exec_wstat (if_neg (mt (wellOk_iff ..).mp hw)))
  case wclose => exact defers_of (exec_outcome exec_wclose (if_pos ((wellOk_iff ..).mpr hw)))
  case wcloseBad => exact refuses_of (exec_outcome exec_wclose (if_neg (mt (wellOk_iff ..).mp hw)))
  case warmBad =>
    rw [gOf_toNat, gOf_toNat, ← wellOk_iff, not_and_or] at hbad
    exact refuses_of (exec_outcome exec_warm (if_pos (by simpa using hbad)))
  case warm =>
    rw [gOf_toNat, ← wellOk_iff] at hw
    rw [gOf_toNat] at hva
    refine atOperand_of (exec_outcome exec_warm (if_neg (by simp [hw, hva]))) fun u b he => ⟨fun hst => ?taken, fun hst => ?opened⟩
    case taken => exact executes_of (exec_outcome he (if_pos hst))
    case opened => exact executes_of (exec_outcome he (if_neg (not_not.mpr hst)))
  case wcandBad =>
    rw [gOf_toNat, ← wellOk_iff] at hbad
    exact refuses_of (exec_outcome exec_wcand (if_pos (by simpa [imp_iff_not_or, or_assoc] using hbad)))
  case wcandNone =>
    obtain ⟨hw, hl, hr⟩ := hok
    have he := exec_wcand_of_ok (h := h) hw hl hr
    simp only [candidateQuad, hb] at he
    exact executes_of he
  case wcand =>
    obtain ⟨hw, hl, hr⟩ := hok
    have he := exec_wcand_of_ok (h := h) hw hl hr
    simp only [candidateQuad, hb, candidateWord_eq, word64, ofNat_wrap_self, BitVec.ofNat_toNat, BitVec.setWidth_eq] at he
    exact executes_of he
  case verd =>
    have he := exec_outcome (exec_verd (h := h)) (if_neg fun hn => (verdRefused_iff ..).mp hn hok)
    rw [ofNat_readGn, ofNat_readG] at he
    exact defers_of he
  case verdBad => exact refuses_of (exec_outcome exec_verd (if_pos ((verdRefused_iff ..).mpr hbad)))
  case wdraw =>
    have he := exec_outcome (exec_wdraw (h := h) (rd := rd)) (if_pos ((wdrawOk_iff ..).mpr hok))
    rw [ofNat_readGn, ofNat_readG, bits_zero] at he
    exact defers_of he
  case wdrawBad => exact refuses_of (exec_outcome exec_wdraw (if_neg (mt (wdrawOk_iff ..).mp hbad)))

/-! ### Barriers and budgets -/

/-- What BARM.set allows: a scope from module on, no reserved bit, and a barrier that no core has arrived at (R254). -/
theorem barmOk_iff (x : Barrier) (n : Nat) (v : BitVec 64) :
    (decide (n < 32) && bits v.toNat 0 16 != 0 && decide (3 ≤ bits v.toNat 16 3) && decide (bits v.toNat 16 3 ≤ 5) &&
      bits v.toNat 19 5 == 0 && v.toNat / 2 ^ 30 == 0 && (bits v.toNat 16 3 == 5 || bits v.toNat 24 6 == 0) && x.settable) = true ↔
    n < 32 ∧ v.extractLsb' 0 16 ≠ 0 ∧ 3 ≤ (v.extractLsb' 16 3).toNat ∧ (v.extractLsb' 16 3).toNat ≤ 5 ∧
      v.extractLsb' 19 5 = 0 ∧ v.toNat < 2 ^ 30 ∧ ((v.extractLsb' 16 3).toNat ≠ 5 → v.extractLsb' 24 6 = 0) ∧
      x.arr = 0 ∧ (x.count = 0 ∨ x.inbox = []) := by
  have hform : v.toNat / 2 ^ 30 = 0 ↔ v.toNat < 2 ^ 30 := by omega
  have hscope : bits v.toNat 16 3 = (v.extractLsb' 16 3).toNat := bits_eq_extractLsb' ..
  simp only [Barrier.settable, Bool.and_eq_true, Bool.or_eq_true, beq_iff_eq, bne_iff_ne, decide_eq_true_eq,
    List.isEmpty_iff, bits_eq_zero_iff, hform, hscope, ne_eq, and_assoc, or_iff_not_imp_left]

/-- The operands that PBUDG.set allows (R255). -/
theorem pbudgSetOk_iff (s : State) (a v : BitVec 64) :
    (actorPrivileged s && bits a.toNat 6 2 == 0 && a.toNat / 2 ^ 10 == 0 && v.toNat / 2 ^ 32 == 0) = true ↔
    coreCtx s s.actor.core = 0 ∧ (a.extractLsb' 6 2 = 0 ∧ a.toNat < 2 ^ 10) ∧ v.toNat < 2 ^ 32 := by
  have hform : a.toNat / 2 ^ 10 = 0 ↔ a.toNat < 2 ^ 10 := by omega
  have hbudget : v.toNat / 2 ^ 32 = 0 ↔ v.toNat < 2 ^ 32 := by omega
  simp only [actorPrivileged, privileged, Bool.and_eq_true, beq_iff_eq, bits_eq_zero_iff, hform, hbudget, and_assoc]

/-- The operand that PBUDG.get allows: a core asks for its own context, a privileged one for any (R255). -/
theorem pbudgGetOk_iff (s : State) (a : BitVec 64) :
    ((actorPrivileged s || bits a.toNat 0 6 == actorCtx s) && bits a.toNat 6 2 == 0 && a.toNat / 2 ^ 10 == 0) = true ↔
    (coreCtx s s.actor.core = 0 ∨ a.toNat % 64 = coreCtx s s.actor.core) ∧ a.extractLsb' 6 2 = 0 ∧ a.toNat < 2 ^ 10 := by
  have hform : a.toNat / 2 ^ 10 = 0 ↔ a.toNat < 2 ^ 10 := by omega
  simp only [actorPrivileged, privileged, actorCtx, Bool.and_eq_true, Bool.or_eq_true, beq_iff_eq, bits_eq_zero_iff, hform,
    and_assoc]
  rw [bits_zero]
  rfl

/-- The die that the operand of PBUDG names. -/
theorem budgetDie_eq {a : Nat} (h : a < 2 ^ 10) : bits a 8 2 = a / 2 ^ 8 := by
  rw [bits]
  omega

theorem vector_getD_toList {α : Type} {n : Nat} (v : Vector α n) (k : Fin n) (d : α) : v.toList.getD k.val d = v[k] := by
  simp [List.getD]

theorem ofNat_readG_setWidth (s : State) (r : Reg) : BitVec.ofNat 32 (readG s r) = (gOf s r).setWidth 32 := by
  rw [← gOf_toNat, BitVec.ofNat_toNat]

theorem barrierInstructions : BarrierInstructions := by
  refine ⟨fun s h ra => ⟨fun hn hc => ?bara, fun hbad => ?baraBad⟩,
    fun s h ra rb => ⟨fun hok => ?barm, fun hbad => ?barmBad⟩, fun s h rd => ?take,
    fun s h ra rb => ⟨fun hok => ?budget, fun hbad => ?budgetBad⟩, fun s h rd ra => ⟨fun hok die hd => ?get, fun hbad => ?getBad⟩⟩
  case bara => exact defers_of (exec_outcome exec_bara (if_neg (not_or.mpr ⟨not_le.mpr hn, hc⟩)))
  case baraBad => exact refuses_of (exec_outcome exec_bara (if_pos hbad))
  case barm =>
    have he := exec_outcome (exec_barmSet (h := h)) (if_pos ((barmOk_iff ..).mpr hok))
    simp only [← gOf_toNat, bits_eq_extractLsb'] at he
    exact defers_of he
  case barmBad => exact refuses_of (exec_outcome exec_barmSet (if_neg (mt (barmOk_iff ..).mp hbad)))
  case take =>
    intro seen
    rw [← BitVec.ofNat_toNat]
    exact executes_of exec_barmTake
  case budget =>
    have he := exec_outcome (exec_pbudgSet (h := h)) (if_pos ((pbudgSetOk_iff ..).mpr hok))
    obtain ⟨-, ⟨-, ha⟩, -⟩ := hok
    rw [bits_zero, ofNat_readG_setWidth, ← gOf_toNat, budgetDie_eq ha] at he
    exact defers_of he
  case budgetBad => exact refuses_of (exec_outcome exec_pbudgSet (if_neg (mt (pbudgSetOk_iff ..).mp hbad)))
  case get =>
    have he := exec_outcome (exec_pbudgGet (h := h) (rd := rd)) (if_pos ((pbudgGetOk_iff ..).mpr hok))
    obtain ⟨-, -, ha⟩ := hok
    rw [bits_zero, ← gOf_toNat, budgetDie_eq ha, hd, vector_getD_toList] at he
    exact answers_of he
  case getBad => exact refuses_of (exec_outcome exec_pbudgGet (if_neg (mt (pbudgGetOk_iff ..).mp hbad)))

/-- Settles O41, from its two parts: the instructions for wells, and those for barriers and budgets. -/
theorem wellsAndBarriers : Obligations.WellsAndBarriers := ⟨wellInstructions, barrierInstructions⟩

end Sys2Proof.Machine
end

section
/-! The work of streamers, expanders and weirs (R187, R200 to R208, R331, R332): commands start once their stroke has
closed, and jobs move on in steps. -/

namespace Sys2Proof.Machine

open Spec

variable {s t u : State} {en : Nat}

/-! ### The engines by number -/

@[simp] theorem streamer_modStreamer (s : State) (en : Nat) (f : Streamer → Streamer) :
    (s.modStreamer en f).streamer en = f (s.streamer en) := kget_kput_same ..

theorem modStreamer_modStreamer (s : State) (en : Nat) (f g : Streamer → Streamer) :
    (s.modStreamer en f).modStreamer en g = s.modStreamer en fun x => g (f x) := by
  rw [State.modStreamer, streamer_modStreamer]
  exact congrArg (fun m => { s with streamers := m }) (kput_kput_same ..)

/-! ### Commands start (R187, R325) -/

theorem strokeClosed_iff (s : State) (c : Cmd) : strokeClosed s c = true ↔
    ∃ r, s.region c.region = some r ∧ c.tok.stroke < r.stroke ∧ ∀ x ∈ r.stores, c.tok.stroke < x.stroke := by
  unfold strokeClosed
  cases s.region c.region <;> simp

/-- The head of the queue stays the head as the FIFO is taken in behind it. -/
theorem head_of_intake {x : Streamer} {c d : Cmd} {rest : List Cmd} (h : x.intake.queue = c :: rest)
    (hd : x.queue.head? = some d) : d = c := by
  obtain ⟨q, hq⟩ : ∃ q, x.intake.queue = x.queue ++ q := by
    unfold Streamer.intake
    split
    · exact ⟨[], (List.append_nil _).symm⟩
    · exact ⟨_, rfl⟩
  rw [h] at hq
  cases hx : x.queue with
  | nil => simp [hx] at hd
  | cons e es => simp_all

theorem wrongCommand_streamer (hs : isStreamer en = true) {c : Cmd} {rest : List Cmd}
    (hq : (s.streamer en).intake.queue = c :: rest) (hop : 0xC8 ≤ c.op ∧ c.op ≤ 0xCB) : wrongCommand s en = none := by
  simp only [wrongCommand, hs, if_true, ite_eq_left_iff, Option.filter_eq_none_iff]
  rintro - d hd
  simp [head_of_intake hq hd, hop]

/-- The job of a streamer's command, before its descriptor is read. -/
def streamJobOf (c : Cmd) : StreamJob := { op := c.op, descVa := c.aval, region := c.region }

theorem startStream_starts {c : Cmd} {rest : List Cmd} (hj : (s.streamer en).job = none)
    (hf : (s.streamer en).intake.frozen = false) (hq : (s.streamer en).intake.queue = c :: rest)
    (hm : c.tok.isMark = false) (hc : strokeClosed s c = true) :
    startStream s en = s.modStreamer en fun x => { x.intake with queue := rest, job := some (streamJobOf c) } := by
  have hj' : (s.streamer en).intake.job = none := by
    unfold Streamer.intake
    split <;> exact hj
  have hc' : strokeClosed (s.modStreamer en Streamer.intake) c = true := hc
  simp only [startStream, streamer_modStreamer, hj', hq, hm, hc', hf, Bool.false_eq_true, if_false, Bool.not_false,
    Bool.and_self, if_true, modStreamer_modStreamer]
  rfl

/-! ### Steps of a streamer's job (R200 to R203) -/

@[simp] theorem jobRead_bytes (bs : List Byte) (s : State) (k : List Byte → State → JobStep) :
    jobRead (.bytes bs, s) k = k bs s := rfl

@[simp] theorem jobWrite_bytes (bs : List Byte) (s : State) (k : State → JobStep) : jobWrite (.bytes bs, s) k = k s := rfl

section
variable {j : StreamJob} (hj : (s.streamer en).job = some j) (hs : j.stopped = false)
include hj hs

theorem streamStep_ending {code c : Nat} (he : j.ending = some (code, c)) : streamStep s en = endingStep s en c code j := by
  simp [streamStep, hj, hs, he]

variable (he : j.ending = none) (hr : (ringCopy j && sourcesEnded s j.region) = false)
include he hr

theorem streamStep_reads (hd : j.desc = []) : streamStep s en =
    jobRead (engRead s en (ctxOf s j.region) j.descVa 64 false) fun d s =>
      if streamOk s j.op j.region d then .go (s.modStreamer en fun x => { x with job := some { j with desc := d } })
      else .bad := by
  simp [streamStep, hj, hs, he, hr, hd]

variable (hd : j.desc ≠ [])
include hd

theorem streamStep_copies (hop : j.op = 0xC8) (hp : j.pos < descField j.desc 0x10 0 32) :
    streamStep s en = copyUnit s en (ctxOf s j.region) j := by
  simp [streamStep, hj, hs, he, hr, hd, hop, hp]

theorem streamStep_deep (hop : j.op = 0xCB) (hp : j.pos < descField j.desc 0x10 0 32) :
    streamStep s en = deepUnit s en (ctxOf s j.region) j := by
  simp [streamStep, hj, hs, he, hr, hd, hop, hp]

theorem streamStep_completes (hp : descField j.desc 0x10 0 32 ≤ j.pos) : streamStep s en =
    jobWrite (completionWord s en (ctxOf s j.region) (descField j.desc 0x20 0 64) (descField j.desc 0x28 0 32)) fun s =>
      .go (s.modStreamer en fun x => { x with job := none }) := by
  simp [streamStep, hj, hs, he, hr, hd, hp.not_gt]

end

/-- The next span of a copy between two places in memory (R200). -/
theorem copyUnit_memory {ctx : Nat} {j : StreamJob} (hk : descField j.desc 0x30 0 2 = 0) : copyUnit s en ctx j =
    let n := min 32 (descField j.desc 0x10 0 32 - j.pos)
    jobRead (engRead s en ctx ((descField j.desc 0 0 64 : Int) + j.pos) n false) fun bs s =>
      jobWrite (engWrite s en ctx ((descField j.desc 8 0 64 : Int) + j.pos) bs true) (advanceStream en n) := by
  have hsk : (descField j.desc 0x30 0 1 == 1) = false := by simp only [descField, bits] at hk ⊢; simp; omega
  have hdk : (descField j.desc 0x30 1 1 == 1) = false := by simp only [descField, bits] at hk ⊢; simp; omega
  simp only [copyUnit, hsk, hdk, endpointOf]
  rfl

/-- A streamer with a descriptor takes its next step (R201 to R203). -/
theorem exec_streamCommandComplete_steps {j : StreamJob} (hn : isStreamer en = true) (hj : (s.streamer en).job = some j)
    (hd : j.desc ≠ []) : exec (.streamCommandComplete en) s = .next (finishStep s en (streamStep s en)) := by
  rw [exec_streamCommandComplete, execStreamCommandComplete, if_pos (by simp [hn, hj, hd])]

/-- A streamer takes the head of its queue and reads its descriptor (R187, R200, R201). -/
theorem exec_streamCommandStart_starts {c : Cmd} {rest : List Cmd} {d : List Byte} (hn : isStreamer en = true)
    (hj : (s.streamer en).job = none) (hf : (s.streamer en).intake.frozen = false)
    (hq : (s.streamer en).intake.queue = c :: rest) (hm : c.tok.isMark = false) (hc : strokeClosed s c = true)
    (hop : 0xC8 ≤ c.op ∧ c.op ≤ 0xCB)
    (hu : u = s.modStreamer en fun x => { x.intake with queue := rest, job := some (streamJobOf c) })
    (hr : engRead u en (ctxOf u (streamJobOf c).region) (streamJobOf c).descVa 64 false = (.bytes d, t))
    (hd : streamOk t (streamJobOf c).op (streamJobOf c).region d = true) :
    exec (.streamCommandStart en) s =
      .next (t.modStreamer en fun y => { y with job := some { streamJobOf c with desc := d } }) := by
  have hju : (u.streamer en).job = some (streamJobOf c) := by rw [hu, streamer_modStreamer]
  have hstep : startStep u en = streamStep u en := by simp [startStep, hn, hju, streamJobOf]
  have hring : ringCopy (streamJobOf c) = false := by simp [ringCopy, streamJobOf, descField, field, natOf, wordOfBytes, bits]
  rw [exec_streamCommandStart, execStreamCommandStart, wrongCommand_streamer hn hq hop]
  simp only [Option.isSome_none, Bool.false_eq_true, if_false, takeCommand, hn, if_true,
    startStream_starts hj hf hq hm hc, ← hu]
  rw [hstep, streamStep_reads hju rfl rfl (by rw [hring, Bool.false_and]) rfl, hr, jobRead_bytes, if_pos hd]
  rfl

/-! ### Expanders (R204 to R207, R331, R332) -/

@[simp] theorem expander_modExpander (s : State) (en : Nat) (f : Expander → Expander) :
    (s.modExpander en f).expander en = f (s.expander en) := kget_kput_same ..

theorem exec_expanderBlockComplete_steps (hn : isExpander en = true) :
    exec (.expanderBlockComplete en) s = .next (finishStep s en (xpFinish s en)) := by
  rw [exec_expanderBlockComplete, execExpanderBlockComplete, if_pos hn]

section
variable {j : XpJob} (hj : (s.expander en).job = some j) (ho : j.opened = true) (hs : j.stopped = false)
include hj ho hs

/-- A block decoded to the stream port: the next one, or the mismatch (R207, R331). -/
theorem xpFinish_stream (hx : xpToStream j = true) (hout : j.out = []) :
    xpFinish s en = .go (if j.good then nextBlock s en else crcMismatch s en j) := by
  simp only [xpFinish, hj, ho, hs, hx, hout]
  cases j.good <;> rfl

/-- A block decoded to memory goes out 64 bytes at a time (R207). -/
theorem xpFinish_memory (hx : xpToStream j = false) (hout : j.out ≠ []) : xpFinish s en =
    jobWrite (engWrite s en (ctxOf s j.region) j.outPos (j.out.take 64) false) fun s => .go (modXpJob s en fun k =>
      { k with out := k.out.drop 64, outPos := k.outPos + (j.out.take 64).length }) := by
  simp [xpFinish, hj, ho, hs, hx, hout]

/-- A whole token of an open block goes to the stream port (R207, R331). -/
theorem xpToken_whole {k : Nat} (hi : (s.expander en).island = some k) (hx : xpToStream j = true)
    (hp : (s.expander en).part = []) (hl : 32 ≤ j.out.length) (ht : streamTakes s k = true) : xpToken s en =
    (s.modExpander en fun x => { x with part := [], owner := some j.region, job := some { j with out := j.out.drop 32 } }).modIsland
      k fun y => { y with bport := y.bport ++ [⟨BitVec.ofNat 256 (natOf (j.out.take 32)), 0, 0⟩] } := by
  have hout : j.out ≠ [] := by rintro h; simp [h] at hl
  have hlen : ([] ++ j.out.take (32 - ([] : List Byte).length)).length = 32 := by simp [hl]
  simp [xpToken, hj, hi, hx, ho, hs, hout, ht, hp, hl]

end

/-! ### Weirs (R208) -/

/-- A sort whose keys have been read writes its words. -/
theorem weirSort_sorts {j : WeirJob} (hj : (s.weir en).job = some j) (hs : j.stopped = false) (hd : j.desc ≠ [])
    (ho : j.outs = none) : weirSort s en =
    jobRead (engRead s en (ctxOf s j.region) (descField j.desc 0 0 64) (4 * descField j.desc 8 0 32) false) fun bs u =>
      writeOuts en (ctxOf s j.region)
        (weirOuts j.desc ((List.range (descField j.desc 8 0 32)).map fun i => field bs (4 * i) 4)) u := by
  simp [weirSort, hj, hs, hd, ho]

end Sys2Proof.Machine
end

section
/-! The words a sort writes (R208). -/

namespace Sys2Proof.Machine

/-- The running sums before each entry: entry k comes to the sum of the first k. -/
theorem sumsFrom_getElem? (acc : Nat) (ns : List Nat) {k : Nat} (h : k < ns.length) :
    (sumsFrom acc ns)[k]? = some (acc + (ns.take k).sum) := by
  induction ns generalizing acc k with
  | nil => simp at h
  | cons n ns ih =>
    cases k with
    | zero => simp [sumsFrom]
    | succ k => simp [sumsFrom, ih (acc + n) (by simpa using h), Nat.add_assoc]

@[simp] theorem sumsFrom_length (acc : Nat) (ns : List Nat) : (sumsFrom acc ns).length = ns.length := by
  induction ns generalizing acc with
  | nil => rfl
  | cons n ns ih => simp [sumsFrom, ih]

/-- The items of a key, in their order, are as many as the key has. -/
theorem length_itemsOf (ks : List Nat) (k : Nat) : ((ks.zipIdx.filter fun p => p.1 == k).map Prod.snd).length = ks.count k := by
  rw [List.length_map, ← List.countP_eq_length_filter, List.count, ← List.zipIdx_map_fst 0 ks, List.countP_map]
  simp only [List.zipIdx_map_fst]
  rfl

/-- As many keys lie below k as there are of each number below it. -/
theorem sum_counts_below (ks : List Nat) (k : Nat) : ((List.range k).map ks.count).sum = ks.countP (· < k) := by
  induction ks with
  | nil => simp
  | cons x xs ih =>
    have hx : ((List.range k).map fun j => if x = j then 1 else 0).sum = if x < k then 1 else 0 := by
      clear ih
      induction k with
      | zero => simp
      | succ k ih =>
        rw [List.range_succ, List.map_append, List.sum_append, ih, List.map_singleton, List.sum_singleton]
        split_ifs <;> omega
    simp only [List.count_cons, List.countP_cons, List.sum_map_add, ih, beq_iff_eq, hx, decide_eq_true_eq]

/-- The counts and the offsets that a sort writes (R208). -/
theorem weirOuts_words (d : List Byte) (keys : List Nat) {k : Nat} (hk : k ≤ descField d 8 32 16) :
    let nk := descField d 8 32 16
    let ks := keys.map fun k => min k nk
    (weirOuts d keys)[k]? = some (descField d 0x10 0 64 + 4 * k, ks.count k) ∧
      (weirOuts d keys)[nk + 1 + k]? = some (descField d 0x18 0 64 + 4 * k, ks.countP (· < k)) := by
  intro nk ks
  have hk : k < nk + 1 := Nat.lt_succ_of_le hk
  have hcounts : ((List.range (nk + 1)).map fun k => (ks.zipIdx.filter fun p => p.1 == k).map Prod.snd).map List.length =
      (List.range (nk + 1)).map ks.count := by
    rw [List.map_map]
    exact List.map_congr_left fun j _ => length_itemsOf ks j
  have hcount : ((List.range (nk + 1)).map ks.count)[k]? = some (ks.count k) := by simp [hk]
  have hoffset : (sumsFrom 0 ((List.range (nk + 1)).map ks.count))[k]? = some (ks.countP (· < k)) := by
    rw [sumsFrom_getElem? _ _ (by simpa using hk), Nat.zero_add, ← List.map_take, List.take_range, Nat.min_eq_left hk.le,
      sum_counts_below]
  simp only [weirOuts, List.append_assoc]
  rw [hcounts]
  constructor
  · rw [List.getElem?_append_left (by simpa using hk), List.getElem?_mapIdx, hcount]
    rfl
  · rw [List.getElem?_append_right (by simp), List.getElem?_append_left (by simpa using hk)]
    simp [hoffset]

end Sys2Proof.Machine
end

section
/-! Errors, replies and the range server (R171, R187, R188, R197, R203, R209, R210, R303): the statement of O45. -/

namespace Sys2Proof.Machine

open Spec

variable {s : State} {en : Nat}

/-! ### Errors and replies -/

/-- An island ends a command that it does not know (R188, R190). -/
theorem islandError_unknown {q : Cmd} {rest : List Cmd} (hl : (s.island en).core.load = none)
    (hg : (s.island en).core.group = none) (hq : (s.island en).core.queue = q :: rest)
    (hc : canStart (s.island en).core q = true) (ho : islandOp q.op = false) : islandError s en =
    kernelFault (modCore' s en fun c => { c with queue := rest, fcode := 0x12, err := true }) q.region (engErr en 0x12 0) := by
  simp [islandError, hl, hg, hq, hc, ho]

/-- An MXSTAT at the command port is answered ahead of the queue (R197). -/
theorem execEngineReply_status {c : Cmd} {rest : List Cmd} {t : State} (hn : en % 64 < 16)
    (hf : (s.island en).fifo = c :: rest) (hm : c.tok.isMark = false) (ho : c.op = 0xC6)
    (hd : deliverReply s en c.region ⟨BitVec.ofNat 256 (statusWord (s.island en) c.aval), 0, c.tok.stroke⟩ = some t) :
    execEngineReply en s = .next (t.modIsland en fun x => { x with fifo := x.fifo.tail }) := by
  simp only [execEngineReply, hn, hf, hm, ho, hd, decide_true, Bool.not_false, beq_self_eq_true, Bool.and_self, if_true]

/-- Other replies go in order (R188, R303). -/
theorem execEngineReply_next {c : Cmd} {rest : List Cmd} {t : State} (hf : en % 64 < 16 → (s.island en).fifo = [])
    (hr : engReplies s en = c :: rest) (hd : deliverReply s en c.region c.tok = some t) :
    execEngineReply en s = .next (dropReply t en) := by
  by_cases hn : en % 64 < 16
  · simp [execEngineReply, hn, hf hn, hr, hd]
  · simp [execEngineReply, hn, hr, hd]

theorem deliverReply_unbound {key : Nat} {tok : Token} (h : replyTarget s en key = none) :
    deliverReply s en key tok = some s := by simp [deliverReply, h]

theorem engineEvents : EngineEvents := by
  refine ⟨strokeClosed_iff, fun s en c rest hn => ?starts, fun s en j code c hn hj hs hd he w t hw => ?ending,
    fun s en j hn hj hs hd he hr => ⟨fun bs u w t hop hp hk => ?copy, fun hop hp hk w t hw => ?fromDeep,
      fun hop hp hk bs t hr' => ?toDeep, fun hp w t hw => ?completes⟩,
    fun s en hn hh => ?resume, fun s en hh => ?held,
    fun s en j hn hj ho hs => ⟨fun hx hout hg => ?good, fun hx hout hg => ?mismatch, fun hx hout w t hw => ?memory⟩,
    fun s en j k hn hj hi hx ho hs hp hl ht => ?token, fun s en j hn hj hs hd ho => ?sort, fun d keys k hk => weirOuts_words d keys hk,
    fun s en q rest hn hl hg hq hc ho => ?unknown, fun s en c hn hc => ?wrong,
    fun s en c rest hn hf hm ho t hd => ?status, fun s en c rest hf hr t hd => ?reply, fun s en key tok h => deliverReply_unbound h⟩
  case starts =>
    intro x hj hf hq hm hc hop u d t hr hd
    exact exec_streamCommandStart_starts hn hj hf hq hm hc hop rfl hr hd
  case ending =>
    rw [exec_streamCommandComplete_steps hn hj hd, streamStep_ending hj hs he, endingStep, hw]
    rfl
  case copy =>
    intro n hread hwrite
    rw [exec_streamCommandComplete_steps hn hj hd, streamStep_copies hj hs he hr hd hop hp, copyUnit_memory hk]
    dsimp only
    rw [hread, jobRead_bytes, hwrite]
    rfl
  case fromDeep =>
    rw [exec_streamCommandComplete_steps hn hj hd, streamStep_deep hj hs he hr hd hop hp, deepUnit, if_pos hk, hw]
    rfl
  case toDeep =>
    rw [exec_streamCommandComplete_steps hn hj hd, streamStep_deep hj hs he hr hd hop hp, deepUnit, if_neg (by omega), hr']
    rfl
  case completes =>
    rw [exec_streamCommandComplete_steps hn hj hd, streamStep_completes hj hs he hr hd hp, hw]
    rfl
  case resume => rw [exec_streamFaultResume, execStreamFaultResume, if_neg (by simp [hn, hh])]
  case held => rw [exec_streamFaultResume, execStreamFaultResume, if_pos (by simp [hh])]
  case good => rw [exec_expanderBlockComplete_steps hn, xpFinish_stream hj ho hs hx hout, if_pos hg]; rfl
  case mismatch => rw [exec_expanderBlockComplete_steps hn, xpFinish_stream hj ho hs hx hout, if_neg (by simp [hg])]; rfl
  case memory => rw [exec_expanderBlockComplete_steps hn, xpFinish_memory hj ho hs hx hout, hw]; rfl
  case token =>
    rw [exec_expanderStreamSlotFree, execExpanderStreamSlotFree, if_pos hn, xpToken_whole hj ho hs hi hx hp hl ht]
  case sort =>
    intro n bs u t hread hwrite
    rw [exec_weirSortComplete, execWeirSortComplete, if_pos hn, weirSort_sorts hj hs hd ho, hread, jobRead_bytes, hwrite]
    rfl
  case unknown => rw [exec_engineError, execEngineError, if_pos hn, islandError_unknown hl hg hq hc ho]
  case wrong => rw [exec_engineError, execEngineError, if_neg (by omega), hc]
  case status => rw [exec_engineReply, execEngineReply_status hn hf hm ho hd]
  case reply => rw [exec_engineReply, execEngineReply_next hf hr hd]

/-! ### The range server (R68, R171, R209, R210) -/

@[simp] theorem findReq_servers (s : State) (m : KMap RangeServer) (t e rq : Nat) :
    findReq { s with servers := m } t e rq = findReq s t e rq := rfl

@[simp] theorem regionOf_servers (s : State) (m : KMap RangeServer) (t : Nat) :
    regionOf { s with servers := m } t = regionOf s t := rfl

theorem rangeServer : Spec.RangeServer := by
  refine ⟨fun s die q m hq hm => ?serve, fun s die h => ?idle,
    fun p => ⟨fun c cs hc => ?listed, fun hc hl => ?empty, fun hc hl => ?cut⟩, fun s pk va start ctx => ?table⟩
  case serve =>
    extract_lets r u x
    refine ⟨fun c key hc hk => ?chunk, fun hc => ?none⟩
    case chunk =>
      have hx : (u.pool die q.pool).take = (some c, x.2) := Prod.ext hc rfl
      simp only [exec_rangeServerServe, execRangeServerServe, hq, findReq_servers, regionOf_servers, hm, hk]
      rw [show (State.pool _ die q.pool).take = _ from hx]
      rfl
    case none =>
      have hx : (u.pool die q.pool).take = (none, x.2) := Prod.ext hc rfl
      simp only [exec_rangeServerServe, execRangeServerServe, hq, findReq_servers, hm]
      rw [show (State.pool _ die q.pool).take = _ from hx]
  case idle => rw [exec_rangeServerServe, execRangeServerServe, h]
  case listed => simp [Pool.take, hc]
  case empty => simp [Pool.take, hc, hl]
  case cut =>
    rw [Pool.take, hc]
    exact if_neg hl
  case table =>
    intro die p hp
    have hp' : (s.pool (pk / 16) (pk % 16)).reading = some (va, start, ctx) := hp
    have reads {x u} (hr : readGroup s (pk / 16 * 64 + 50) ctx va = (x, u)) := hr
    refine ⟨fun w es u hr => ?read, fun u hr => ?malformed, fun c v u hr => ?fault⟩
    case read => simp only [exec_poolTableReadComplete, execPoolTableReadComplete, hp', reads hr]; rfl
    case malformed => simp only [exec_poolTableReadComplete, execPoolTableReadComplete, hp', reads hr]; rfl
    case fault => simp only [exec_poolTableReadComplete, execPoolTableReadComplete, hp', reads hr]; rfl

/-- Settles O45, from its two parts: the steps of the engines, and the range server. -/
theorem engineSteps : Obligations.EngineSteps := ⟨engineEvents, rangeServer⟩

end Sys2Proof.Machine
end

section
/-! Charge intervals, doses and power hints (R211, R212, R214, R366 to R369): the first part of the statement of O53. -/

namespace Sys2Proof.Machine

open Spec

variable {s : State}

/-! ### Intervals and doses (R366) -/

/-- Listing the tiles of a dose leaves a tile that is listed already. -/
theorem kfind_listTiles {k : Nat} {x : Tile} (h : kfind s.tiles k = some x) : kfind (listTiles s).tiles k = some x := by
  unfold listTiles
  generalize hm : s.tiles = m at h
  clear hm
  dsimp only
  induction s.tileDose generalizing m with
  | nil => exact h
  | cons p ps ih =>
    rw [List.foldl_cons]
    refine ih _ ?_
    split
    · exact h
    · next hp =>
      rw [kfind_kput_other _ _ (fun hk => hp (by rw [← hk, h]; rfl)), h]

theorem tile_dosed {m : KMap Tile} {dose : KMap Nat} {k : Nat} {x : Tile} (h : kfind m k = some x) :
    kget (m.map (doseTile dose)) k {} = (doseTile dose (k, x)).2 := by
  rw [kget, show m.map (doseTile dose) = m.map fun p => (p.1, (doseTile dose (p.1, p.2)).2) from rfl,
    kfind_mapValues m (fun k x => (doseTile dose (k, x)).2), h]
  rfl

theorem island_dosed {m : KMap Island} {dose : KMap Nat} {k : Nat} {x : Island} (h : kfind m k = some x) :
    kget (m.map (doseIsland dose)) k {} = (doseIsland dose (k, x)).2 := by
  rw [kget, show m.map (doseIsland dose) = m.map fun p => (p.1, (doseIsland dose (p.1, p.2)).2) from rfl,
    kfind_mapValues m (fun k x => (doseIsland dose (k, x)).2), h]
  rfl

/-! ### Hints (R211, R212) -/

theorem Hint.due_le (h : Hint) (now : Nat) : h.due now ≤ 8 := by
  simpa [Hint.due] using List.length_filter_le _ (List.range 8)

/-- A ramp is over once its burst has begun (R212). -/
theorem Hint.due_started {h : Hint} {now : Nat} (hi : h.issue ≤ now) (hs : h.start ≤ now) : h.due now = 8 := by
  rw [Hint.due, List.filter_eq_self.mpr]
  · rfl
  · intro j hj
    have := List.mem_range.mp hj
    simp only [decide_eq_true_eq]
    omega

/-- A ramp has not begun 1750 ns before its burst (R212). -/
theorem Hint.due_early {h : Hint} {now : Nat} (hn : now < h.start - 1750) : h.due now = 0 := by
  rw [Hint.due, List.filter_eq_nil_iff.mpr]
  · rfl
  · intro j _
    simp only [decide_eq_true_eq]
    omega

theorem enterHint_room {issue : Nat} {q : HintReq} (h : (kget s.hints (q.ctx * 4 + q.die) []).length < 8) :
    enterHint issue s q = { s with hints := kput s.hints (q.ctx * 4 + q.die) (kget s.hints (q.ctx * 4 + q.die) [] ++ [{
      start := issue + 1000 * q.onset, stop := issue + 1000 * q.onset + 1000 * q.len, int := q.int, issue := issue
      region := q.region, run := q.run }]) } := if_pos h

/-- A hint of a pump core that finds no entry is dropped, counted and noticed (R212). -/
theorem enterHint_dropped_core {issue : Nat} {q : HintReq} (h : 8 ≤ (kget s.hints (q.ctx * 4 + q.die) []).length)
    (hr : q.region = none) : enterHint issue s q = hwNotice { s with
      hdrops := kput s.hdrops (q.ctx * 4 + q.die) (kget s.hdrops (q.ctx * 4 + q.die) 0 + 1) } q.ctx q.die 4 := by
  rw [enterHint, if_neg (not_lt.mpr h), hr]

theorem mem_hintKernels (s : State) (c die run k : Nat) : k ∈ hintKernels s c die run none ↔
    ∃ p ∈ s.regions, p.1 = k ∧ p.2.ctx = c ∧ p.2.die = die ∧ p.2.kernel = .firing ∧ p.2.worked = true := by
  simp only [hintKernels, List.mem_map, List.mem_filter, Bool.and_eq_true, beq_iff_eq]
  constructor
  · rintro ⟨p, ⟨hp, ⟨⟨hc, hd⟩, hk⟩, hw⟩, rfl⟩
    exact ⟨p, hp, rfl, hc, hd, hk, hw⟩
  · rintro ⟨p, hp, rfl, hc, hd, hk, hw⟩
    exact ⟨p, ⟨hp, ⟨⟨hc, hd⟩, hk⟩, hw⟩, rfl⟩

/-- A hint of a kernel counts for it while it is the same launch (R369). -/
theorem hintKernels_region (s : State) (c die run k : Nat) :
    hintKernels s c die run (some k) = if ∃ r, s.region k = some r ∧ r.runId = run then [k] else [] := by
  simp [hintKernels, Option.any_eq_true]

/-- A hint of a kernel that finds no entry counts for the launch that issued it (R212, R369). -/
theorem enterHint_dropped_kernel {issue key : Nat} {q : HintReq} (h : 8 ≤ (kget s.hints (q.ctx * 4 + q.die) []).length)
    (hr : q.region = some key) : enterHint issue s q = hwNotice (if ∃ r, s.region key = some r ∧ r.runId = q.run
      then countPower (fun p => { p with hdrop := p.hdrop + 1 }) s key else s) q.ctx q.die 4 := by
  rw [enterHint, if_neg (not_lt.mpr h), hr]
  dsimp only
  rw [hintKernels_region]
  split <;> rfl

/-! ### Denied charge (R368) -/

theorem deniedOnly_iff {t e plane slot : Nat} {m : Admitted} {i : Instr} {o : Operands}
    (hs : slotAt s t e plane slot = .rule i o) : deniedOnly s t e plane slot m = true ↔
    m.balance < costOf (opcodeOf i) ∧ roomFor s t e i = true ∧
      admitSlot s t e plane slot { m with balance := costOf (opcodeOf i) } ≠ none := by
  simp only [deniedOnly, hs, Bool.and_eq_true, decide_eq_true_eq, Option.isSome_iff_ne_none, and_assoc]

/-! ### Shares (R367) -/

/-- Parts of 64 doses to each of n takers come to no more than what is divided. -/
theorem doses_le (n p : Nat) : 64 * n * (p / (64 * n)) ≤ p := Nat.mul_div_le ..

/-- The islands' part of a budget, and what is left of it for the tiles, each in equal doses. -/
theorem shares_parts (s : State) (c die : Nat) :
    let r := shares s c die
    let b0 := ((s.ctx c).grants.toList.getD die {}).budget.toNat
    let b := if tripped s.t2 die then b0 / 2 else b0
    ∃ p ≤ b, r.1.2 = p / (64 * r.1.1.length) ∧ r.2.2 = (b - p) / (64 * r.2.1.length) := by
  intro r b0 b
  refine ⟨_, ?_, rfl, rfl⟩
  split
  · exact Nat.zero_le _
  · exact (min_le_left (3 * b / 4) _).trans (by omega)

/-- The doses of islands and of tiles come to no more than the budget of their context on the die. -/
theorem shares_le (s : State) (c die : Nat) :
    let r := shares s c die
    let b0 := ((s.ctx c).grants.toList.getD die {}).budget.toNat
    let b := if s.t2.getLsbD die = true ∨ s.t2.getLsbD 4 = true then b0 / 2 else b0
    64 * r.1.1.length * r.1.2 + 64 * r.2.1.length * r.2.2 ≤ b := by
  intro r b0 b
  obtain ⟨p, hp, hi, ht⟩ : ∃ p ≤ b, r.1.2 = p / (64 * r.1.1.length) ∧ r.2.2 = (b - p) / (64 * r.2.1.length) := by
    simpa only [tripped, Bool.or_eq_true] using shares_parts s c die
  rw [hi, ht]
  have hislands := doses_le r.1.1.length p
  have htiles := doses_le r.2.1.length (b - p)
  omega

/-! ### The statement -/

theorem charge : Charge := by
  refine ⟨fun s => ⟨fun hidle => ?waits, fun ht hd => ?starts⟩, fun s => ⟨fun hidle => ?noDose, fun hi hd ht => ?dose⟩,
    fun s die c => ?ramp, fun h now => ⟨rfl, Hint.due_le .., fun hi hs => ⟨Hint.due_started hi hs, ?told⟩, Hint.due_early⟩,
    fun s issue q hl => enterHint_room hl, fun s issue q hl => ⟨enterHint_dropped_core hl, fun key => enterHint_dropped_kernel hl⟩,
    mem_hintKernels, fun s t e plane slot m i dep hs => deniedOnly_iff hs, shares_le⟩
  case waits => rw [exec_chargeIntervalStart, execChargeIntervalStart, if_pos hidle]
  case starts => exact exec_chargeIntervalStart.trans (if_neg (by omega))
  case noDose => rw [exec_chargeDose, execChargeDose, if_pos hidle]
  case dose =>
    rw [exec_chargeDose, execChargeDose, if_neg (by omega)]
    refine ⟨_, rfl, rfl, rfl, fun k x hx => ⟨fun htodo => ?between, fun htodo => ?later⟩, fun k x hx => island_dosed hx⟩
    case between => exact (tile_dosed (kfind_listTiles hx)).trans (if_pos (by simp [htodo]))
    case later => exact (tile_dosed (kfind_listTiles hx)).trans (if_neg (by simp [htodo]))
  case ramp => exact exec_hintRampStep
  case told => exact Bool.or_eq_true_iff.mpr (.inr (by simp only [decide_eq_true_eq]; omega))

end Sys2Proof.Machine
end

section
/-! Clock spines and thermal trips (R370 to R374): the second part of the statement of O53, and O53. -/

namespace Sys2Proof.Machine

open Spec

variable {s : State}

/-! ### Spines (R370, R371) -/

/-- A spine goes to its floor while T2 holds, else to its set frequency less the slack steps, no lower than the floor. -/
theorem Spine.goal_eq (x : Spine) (k : Nat) (hot : Bool) :
    x.goal k hot = if hot = true then x.floor else max (x.set - 50 * k) x.floor := by
  cases hot with
  | false => rfl
  | true => exact min_eq_right (le_max_right ..)

theorem answerSpine_none {k : Nat} (h : (s.spine k).owed = none) : answerSpine s k = s := by
  simp only [answerSpine, h]

theorem answerSpine_some {k : Nat} {o : Owed} (h : (s.spine k).owed = some o) : answerSpine s k =
    if (s.spine k).run = (s.spine k).set then
      replyTo { s with spines := kput s.spines k { s.spine k with owed := none } } o 0 0 0
    else s := by
  simp only [answerSpine, h]

theorem answerSpine_moving {k : Nat} (h : (s.spine k).run ≠ (s.spine k).set) : answerSpine s k = s := by
  cases ho : (s.spine k).owed with
  | none => exact answerSpine_none ho
  | some o => exact (answerSpine_some ho).trans (if_neg h)

/-- A tile at the end of its wait, on its new spine. -/
def onSpine (s : State) (t : Nat) (sp : BitVec 3) : State := s.modTile t fun x => { x with spine := sp, switching := none }

section
variable {t key : Nat} {sp : BitVec 3} {r : Region} (h : (s.tile t).switching = some (0, sp))
include h

theorem exec_spineSwitchComplete_alone (hk : regionOf (onSpine s t sp) t = none) :
    exec (.spineSwitchComplete t) s = .next (onSpine s t sp) := by
  simp only [exec_spineSwitchComplete, execSpineSwitchComplete, h]
  rw [onSpine] at *
  simp only [hk]

/-- The last tile of the region to change answers (R370). -/
theorem exec_spineSwitchComplete_region (hk : regionOf (onSpine s t sp) t = some key)
    (hr : (onSpine s t sp).region key = some r) : exec (.spineSwitchComplete t) s =
      if r.sites.any fun u => ((onSpine s t sp).tile u).switching.isSome then .next (onSpine s t sp)
      else .next (replyAll ((onSpine s t sp).setRegion key { r with spineOwed := [] }) r.spineOwed 0 0) := by
  simp only [exec_spineSwitchComplete, execSpineSwitchComplete, h]
  rw [onSpine] at *
  simp only [hk, hr]

end

/-- A tile that still counts its wait, or does not change, stays. -/
theorem exec_spineSwitchComplete_waits {t : Nat} (h : ∀ sp, (s.tile t).switching ≠ some (0, sp)) :
    exec (.spineSwitchComplete t) s = .next s := by
  rw [exec_spineSwitchComplete, execSpineSwitchComplete]
  split
  · next sp hsp => exact absurd hsp (h sp)
  · rfl

/-! ### What a freeze and a shoot-down leave of the context unit's queue (R265) -/

/-- The events of the context unit stay in their order; others may have arrived behind them. -/
def KeepsQueue (s t : State) : Prop := s.ctxq <+: t.ctxq

namespace KeepsQueue

theorem of_eq {s t : State} (h : t.ctxq = s.ctxq) : KeepsQueue s t := ⟨[], by rw [List.append_nil, h]⟩

theorem refl (s : State) : KeepsQueue s s := of_eq rfl

theorem trans {s t u : State} (h : KeepsQueue s t) (h' : KeepsQueue t u) : KeepsQueue s u := List.IsPrefix.trans h h'

theorem foldl {α : Type} {f : State → α → State} (hf : ∀ s a, KeepsQueue s (f s a)) (as : List α) (s : State) :
    KeepsQueue s (as.foldl f s) := by
  induction as generalizing s with
  | nil => exact refl s
  | cons a as ih => exact (hf s a).trans (ih (f s a))

theorem refillLdcs (s : State) (r : Region) : KeepsQueue s (Machine.refillLdcs s r) := by
  refine foldl (f := fun s (l : Nat × Nat × W32) => memStore s l.2.1 (byteList 4 l.2.2.toNat) (some true)) (fun _ _ => ?_) _ s
  exact of_eq (by unfold memStore; split <;> rfl)

theorem freezeEngines (s : State) (r : Region) (b : Bool) : KeepsQueue s (Machine.freezeEngines s r b) :=
  (foldl (f := fun s en => s.modIsland en fun x => { x with frozen := b }) (fun _ _ => of_eq rfl) _ s).trans (of_eq rfl)

theorem voidRegion (s : State) (key : Nat) : KeepsQueue s (Machine.voidRegion s key true) := by
  unfold Machine.voidRegion
  cases s.region key with
  | none => exact refl s
  | some r =>
    have hfreeze (v : State) : KeepsQueue v (if r.freezeMark then Machine.freezeEngines v r false else v) := by
      split
      · exact freezeEngines v r false
      · exact refl v
    have hislands (v : State) : KeepsQueue v ((regionIslands v r).foldl
        (fun s en => s.modIsland en (rewindIsland r.stroke (islandBack s en))) v) :=
      foldl (f := fun s en => s.modIsland en (rewindIsland r.stroke (islandBack s en))) (fun _ _ => of_eq rfl) _ v
    have hengines (v : State) (m : KMap Tile) :
        KeepsQueue v (voidPools (voidEngines { v with tiles := m } key r.stroke) key r) := of_eq rfl
    exact (refillLdcs s r).trans ((hengines _ _).trans ((hfreeze _).trans ((hislands _).trans (of_eq rfl))))

theorem voidHeld (what : Scope_) (s : State) (p : Nat × Region) : KeepsQueue s (Machine.voidHeld what s p) := by
  unfold Machine.voidHeld
  split
  · exact voidRegion s p.1
  · exact refl s

theorem hostShoot (s : State) (what : Scope_) : KeepsQueue s (Machine.hostShoot s what) := by
  refine foldl (f := fun s c => if (s.ctx c).mode.getLsbD 4 then raiseCtxFault s c 0 else s) (fun s c => ?_) _ s
  split
  · unfold raiseCtxFault
    dsimp only
    split
    · exact List.prefix_append _ _
    · exact refl s
  · exact refl s

theorem startShoot (s : State) (kind : ShootKind) (what : Scope_) (owed : Option Owed) :
    KeepsQueue s (Machine.startShoot s kind what owed) := by
  have hvoid (v : State) : KeepsQueue v (s.regions.foldl (Machine.voidHeld what) v) := foldl (fun _ _ => voidHeld ..) _ v
  have hdrop (v : State) (now : List Nat) : KeepsQueue v (now.foldl (fun s c => dropCore s what c) v) :=
    foldl (f := fun s c => dropCore s what c) (fun _ _ => of_eq rfl) now v
  have hnote (v : State) (n : Nat) (hs : List Shoot) : KeepsQueue v { (if kind == .poison then v else
      { v with cores := v.cores.map fun p => (p.1, p.2.noteShoot what) } : State) with nextId := n, shoots := hs } := by
    refine of_eq ?_
    split <;> rfl
  have hslices : KeepsQueue s (dropSlices s what) := of_eq rfl
  exact hslices.trans ((hvoid _).trans (((hdrop _ _).trans (hnote _ _ _)).trans (hostShoot ..)))

theorem freezeCtx (s : State) (c : Nat) : KeepsQueue s (Machine.freezeCtx s c) :=
  (foldl (f := freezeRegion) (fun _ _ => of_eq rfl) _ s).trans
    (foldl (f := setStopped true) (fun _ _ => of_eq rfl) _ _)

end KeepsQueue

/-! ### A trip at the head of the unit's queue (R265, R372) -/

/-- The unit waits for an event that is at work. -/
theorem serveUnit_markJob {t : State} (h : t.ctxq ≠ []) (n : Nat) : serveUnit n (markJob t) = markJob t := by
  obtain ⟨⟨c, j, b⟩, rest, hq⟩ := List.exists_cons_of_ne_nil h
  cases n with
  | zero => rfl
  | succ n => simp only [serveUnit, markJob, hq]

theorem serveUnit_next {c : Nat} {j : CtxJob} {rest : List (Nat × CtxJob × Bool)} (h : s.ctxq = (c, j, false) :: rest)
    (n : Nat) : serveUnit (n + 1) s = serveUnit n (beginJob s c j) := by
  simp only [serveUnit, h]

section
variable {c : Nat} (hq : s.ctxq = [(c, .trip, false)])
include hq

theorem serveCtx_trip : serveCtx s = serveUnit 3 (beginTrip s c) := by
  rw [serveCtx, hq]
  exact serveUnit_next hq 3

theorem serveUnit_trip_marked {t : State} (ht : KeepsQueue s t) : serveUnit 3 (markJob t) = markJob t := by
  refine serveUnit_markJob (fun hnil => ?_) 3
  rw [KeepsQueue, hq, hnil] at ht
  exact absurd ht (by simp)

/-- FREEZE begins. -/
theorem serveCtx_trip_running (hx : (s.ctx c).state = .ready ∨ (s.ctx c).state = .running) :
    serveCtx s = markJob (freezeCtx s c) := by
  have hbegin : beginTrip s c = markJob (freezeCtx s c) := by
    rcases hx with hx | hx <;> simp only [beginTrip, hx]
  rw [serveCtx_trip hq, hbegin, serveUnit_trip_marked hq (.freezeCtx s c)]

/-- SWAPOUT begins. -/
theorem serveCtx_trip_frozen (hc : c ≠ 0) (hx : (s.ctx c).state = .frozen) :
    serveCtx s = markJob (startShoot (resetBarriers s c) .tlbi (.ctx c) none) := by
  have hbegin : beginTrip s c = markJob (startShoot (resetBarriers s c) .tlbi (.ctx c) none) := by
    simp [beginTrip, hx, ctxSwapout, hc]
  rw [serveCtx_trip hq, hbegin, serveUnit_trip_marked hq (.trans (.of_eq rfl) (.startShoot (resetBarriers s c) ..))]

/-- The event goes. -/
theorem serveCtx_trip_idle (hready : (s.ctx c).state ≠ .ready) (hrun : (s.ctx c).state ≠ .running)
    (hfrozen : (s.ctx c).state ≠ .frozen) : serveCtx s = { s with ctxq := [] } := by
  have hbegin : beginTrip s c = popJob s := by
    unfold beginTrip
    split
    · next h => exact absurd h hready
    · next h => exact absurd h hrun
    · next h => exact absurd h hfrozen
    · rfl
  rw [serveCtx_trip hq, hbegin, popJob, hq]
  rfl

end

theorem tripped_iff (m : BitVec 5) (die : Nat) :
    tripped m die = true ↔ m.getLsbD die = true ∨ m.getLsbD 4 = true := Bool.or_eq_true_iff

/-! ### The statement -/

theorem spinesAndTrips : SpinesAndTrips := by
  refine ⟨fun s k => ⟨fun hidle => exec_spineFreqStep.trans (if_pos hidle), fun hk hat hgo => exec_spineFreqStep.trans (if_neg ?steps)⟩,
    Spine.goal_eq, fun s k => ⟨answerSpine_none, answerSpine_moving, fun o ho hrun => (answerSpine_some ho).trans (if_pos hrun)⟩,
    fun s t sp h => ⟨exec_spineSwitchComplete_alone h, fun key r hk hr => ⟨fun hw => ?oneWaits, fun hall => ?last⟩⟩,
    fun s t => exec_spineSwitchComplete_waits, fun s die => ⟨fun hn => ?t1Held, fun hd ht => ?t1, fun hn => ?t2Held, fun hd ht => ?t2, ?t3, ?t4⟩,
    fun d hd => if_neg hd.ne, rfl, tripped_iff, fun s c => rfl, fun s c hq => ⟨serveCtx_trip_running hq,
      serveCtx_trip_frozen hq, serveCtx_trip_idle hq⟩, fun s die => ?clear⟩
  case steps => rintro (h | h | h) <;> [omega; omega; exact hgo h]
  case oneWaits =>
    rw [exec_spineSwitchComplete_region h hk hr, if_pos (List.any_eq_true.mpr ?_)]
    · rfl
    · obtain ⟨v, hv, hw⟩ := hw
      exact ⟨v, hv, Option.isSome_iff_ne_none.mpr hw⟩
  case last =>
    rw [exec_spineSwitchComplete_region h hk hr, if_neg ?_]
    · rfl
    · simp only [List.any_eq_true, not_exists, not_and]
      intro v hv
      rw [show ((onSpine s t sp).tile v).switching = none from hall v hv]
      simp
  case t1Held => exact exec_t1.trans (if_pos hn)
  case t1 => exact exec_t1.trans (if_neg (by simp [ht, hd]))
  case t2Held => exact exec_t2.trans (if_pos hn)
  case t2 => exact exec_t2.trans (if_neg (by simp [ht, hd]))
  case t3 => exact exec_t3
  case t4 => exact exec_t4
  case clear => exact ⟨exec_thermalClear, exec_thermalClear, exec_thermalClear, exec_thermalClear⟩

/-- Settles O53, from its two parts: charge, hints and shares; spines and thermal trips. -/
theorem powerEvents : Obligations.PowerEvents := ⟨charge, spinesAndTrips⟩

end Sys2Proof.Machine
end

section
/-! Loads and stores of a pump core (R215 to R217, R219, R259): the statement of O33. -/

namespace Sys2Proof.Machine

open Spec

variable {i : Instr} {h : Skip} {s : State}

/-! ### Where an access leads (R215, R259) -/

/-- What a window does not serve: a word, a write where it has no W, no memory at all, and MMIO that is not wanted (R259). -/
theorem pumpAccess_window {ea : Int} {len : Nat} {want : Want} {word : Bool} {w : Window} (hr : rangeFault ea len = none)
    (hw : windowOf (s.core s.actor.core) ea = some w) :
    let pa := (w.tgt.toNat + (ea.toNat - w.base.toNat)) % 2 ^ 52
    pumpAccess s ea len want word =
      if word = true ∨ (want.write = true ∧ w.ctl.getLsbD 1 = false) ∨ placeOf pa = .hole ∨
          ((placeOf pa).isMmio = true ∧ want.dev = false)
      then (.fault 2 ea.toNat, s) else (.at [(pa, len)] false, s) := by
  simp only [pumpAccess, hr, hw, Window.writable, Bool.or_eq_true, Bool.and_eq_true, Bool.not_eq_true', beq_iff_eq, or_assoc]

theorem pumpAddresses : PumpAddresses := by
  intro s ea len want word
  refine ⟨fun code va hf => ?range,
    fun hr w hw => ⟨fun hbad => ?refused, fun hword hwrite hplace hdev => ?mapped⟩, fun hr hw => ?translated⟩
  case range => simp only [pumpAccess, hf]
  case refused => exact (pumpAccess_window hr hw).trans (if_pos hbad)
  case mapped =>
    refine (pumpAccess_window hr hw).trans (if_neg ?_)
    rintro (hc | ⟨hc, hn⟩ | hc | ⟨hc, hn⟩)
    · exact absurd (hword ▸ hc) Bool.false_ne_true
    · exact absurd (hn ▸ hwrite hc) Bool.false_ne_true
    · exact hplace hc
    · exact absurd (hn ▸ hdev hc) Bool.false_ne_true
  case translated =>
    intro r u
    rcases ht : translateAccess s (coreDie s.actor.core) (coreCtx s s.actor.core) coreTlbCap (s.core s.actor.core).tlb ea
      len want with ⟨_ | _ | ps, tlb, t⟩ <;> simp only [pumpAccess, hr, hw, r, u, ht]

/-! ### Values given -/

/-- A value of w bits at the end of an instruction, extended into gD (R97). -/
theorem executes_of_ext {u : State} {w : PumpW} {n : Bool} {rd : Reg} {q : Nat}
    (he : exec i s = pumpStep h (opOf i) s (gives u rd (extendW n (widthBits w) q))) :
    Executes h i s [(rd.val, ext n (BitVec.ofNat (widthBits w) q))] [] [] 0 u := by
  rw [ext_eq (BitVec.toNat_ofNat ..)]
  exact executes_of he

/-! ### Stores held by the body (R217) -/

@[simp] theorem splitData_length (spans : List (Nat × Nat)) (data : List Byte) : (splitData spans data).length = spans.length := by
  induction spans generalizing data with
  | nil => rfl
  | cons p ps ih => simp only [splitData, List.length_cons, ih]

/-- A store takes one entry of the rule store buffer, whatever its spans (R217). -/
theorem countP_isEntry_storeActs {spans : List (Nat × Nat)} (hne : spans ≠ []) (data : List Byte) (full : Option Bool) :
    (storeActs spans data full).countP CommitAct.isEntry = 1 := by
  obtain ⟨p, ps, rfl⟩ := List.exists_cons_of_ne_nil hne
  have hrest : ((splitData ps (data.drop p.2)).zipIdx 1).countP (fun x => !(x.2 != 0)) = 0 := by
    rw [List.countP_eq_zero]
    rintro ⟨x, k⟩ hx
    have := List.le_snd_of_mem_zipIdx hx
    simp
    omega
  simp only [storeActs, List.countP_map, splitData, List.zipIdx_cons, List.countP_cons]
  simpa [Function.comp_def, CommitAct.isEntry] using hrest

/-- The acts of a store hold its spans with their bytes. -/
theorem storeActs_bytes (spans : List (Nat × Nat)) (data : List Byte) (full : Option Bool) :
    (storeActs spans data full).filterMap CommitAct.bytes? = splitData spans data := by
  rw [storeActs, List.filterMap_map]
  have hf : (CommitAct.bytes? ∘ fun p : (Nat × List Byte) × Nat => CommitAct.store p.1.1 p.1.2 full (p.2 != 0)) =
      some ∘ Prod.fst := rfl
  rw [hf, List.filterMap_eq_map, List.zipIdx_map_fst]

/-- The spans of a store share its bytes out in order. -/
theorem splitData_flatMap (spans : List (Nat × Nat)) (data : List Byte) :
    (splitData spans data).flatMap Prod.snd = data.take (spans.map Prod.snd).sum := by
  induction spans generalizing data with
  | nil => simp [splitData]
  | cons p ps ih => rw [splitData, List.flatMap_cons, ih, List.map_cons, List.sum_cons, List.take_add]

/-- The act held last lies on top of what a load sees (R50, R217). -/
theorem seenBy_store (c : Core) (l : Lane) (pa p : Nat) (bs old : List Byte) (full : Option Bool) (r : Bool) :
    seenBy c { l with acts := l.acts ++ [.store p bs full r] } pa old = layOver pa (seenBy c l pa old) (p, bs) := by
  simp only [seenBy, List.filterMap_append, List.foldl_append]
  rfl

/-! ### The data cache (R216) -/

theorem Mem.reads_eq_map (m : Mem) (a n : Nat) : m.reads a n = (List.range n).map fun k => m.read (a + k) := by
  induction n generalizing a with
  | zero => rfl
  | succ n ih =>
    rw [Mem.reads, ih, List.range_succ_eq_map, List.map_cons, List.map_map]
    simp [Function.comp_def, Nat.add_assoc, Nat.add_comm 1]

/-- Part of the bytes read from an address. -/
theorem Mem.reads_drop_take (m : Mem) {a k n len : Nat} (hk : k + n ≤ len) : ((m.reads a len).drop k).take n = m.reads (a + k) n := by
  apply List.ext_getElem
  · simp; omega
  · intro j _ _
    simp [Mem.reads_eq_map, Nat.add_assoc]

/-- A line that the cache does not hold is read from memory; of its core only the cache changes (R216). -/
theorem cacheFill_miss {cn line : Nat} (hm : kfind (s.core cn).dcache line = none) :
    ∃ m, cacheFill s cn line = (drawNat s).2.setCore cn { s.core cn with dcache := kput m line (s.mem.reads (64 * line) 64) } := by
  simp only [cacheFill, hm]
  exact ⟨_, rfl⟩

/-- A read within one line that the cache does not hold gives what memory holds. -/
theorem cachedRead_miss {cn a n fuel : Nat} (hline : a % 64 + n ≤ 64) (hm : kfind (s.core cn).dcache (a / 64) = none) :
    ∃ m t, cachedRead cn (fuel + 2) s a n = (s.mem.reads a n, t) ∧ t.actor = s.actor ∧ t.core cn = { s.core cn with dcache := m } := by
  rcases Nat.eq_zero_or_pos n with rfl | hn
  · exact ⟨(s.core cn).dcache, s, rfl, rfl, rfl⟩
  · obtain ⟨m, hfill⟩ := cacheFill_miss hm
    have hmin : min n (64 - a % 64) = n := by omega
    have ha : 64 * (a / 64) + a % 64 = a := Nat.div_add_mod a 64
    refine ⟨_, cacheFill s cn (a / 64), ?_, by rw [hfill]; rfl, (congrArg (State.core · cn) hfill).trans (State.core_setCore_same ..)⟩
    simp only [cachedRead, if_neg hn.ne', hfill, hmin, Nat.sub_self, if_true, State.core_setCore_same, kget_kput_same,
      Mem.reads_drop_take _ hline, ha, List.append_nil]

/-- A load from memory sees the core's committed stores and its body's own over what memory holds (R216, R217). -/
theorem loadSpan_memory {a n : Nat} (hplace : (placeOf a).isMemory = true) (hline : localPa a % 64 + n ≤ 64)
    (hm : kfind (s.core s.actor.core).dcache (localPa a / 64) = none) :
    (loadSpan s (a, n)).1 = .bytes (seenBy (s.core s.actor.core) (bodyLane s) a (s.mem.reads (localPa a) n)) := by
  obtain ⟨m, t, hread, hactor, hcore⟩ := cachedRead_miss (fuel := n / 64) hline hm
  have hseen (bs : List Byte) : seenBy (t.core t.actor.core) (bodyLane t) a bs =
      seenBy (s.core s.actor.core) (bodyLane s) a bs := by
    simp only [bodyLane, hactor, hcore, seenBy]
  cases hp : placeOf a with
  | near => simp only [loadSpan, hp, hread, underOwn, hseen]
  | far => simp only [loadSpan, hp, hread, underOwn, hseen]
  | mmio | remote | hole => rw [hp] at hplace; cases hplace

/-! ### The statement -/

theorem pumpLoadsStores : PumpLoadsStores := by
  refine ⟨fun s h w n rd ra disp => ?ld, fun s h w n ra rb disp => ?st,
    fun spans data full hne => ⟨countP_isEntry_storeActs hne data full, fun hlen => ?bytes⟩,
    fun s a n hplace hline hm => loadSpan_memory hplace hline hm, fun c l pa p bs old full r => seenBy_store ..⟩
  case ld =>
    refine reaches_of exec_pumpLd fun u spans he => ⟨fun hno => ?refused, fun hok => ?read⟩
    case refused => exact faults_of (exec_outcome he (if_neg (by simp [hno])))
    case read =>
      have he := exec_outcome he (if_pos hok)
      rcases hread : loadSpans spans u with ⟨_ | _ | _, t⟩ <;> rw [hread] at he
      case bytes => exact executes_of_ext he
      case wait => exact waits_of he
      case fault => exact faults_of he
  case st =>
    refine reaches_of exec_pumpSt fun u spans he => ⟨fun hno => ?refused, fun hok => ?held⟩
    case refused => exact faults_of (exec_outcome he (if_neg (by simp [hno])))
    case held =>
      have he := exec_outcome he (if_pos hok)
      rcases hdead : spans.find? (deadSpan u) with _ | p <;> rw [hdead] at he
      case none => exact executes_of he
      case some => exact faults_of he
  case bytes => rw [storeActs_bytes, splitData_flatMap, hlen, List.take_length]

/-- Settles O33, from its two parts: where addresses lead, and what loads and stores do there. -/
theorem pumpMemory : Obligations.PumpMemory := ⟨pumpAddresses, pumpLoadsStores⟩

end Sys2Proof.Machine
end

section
/-! Full-empty accesses, WAITV and the monitors of a pump core (R219, R222, R223): the statement of O30. -/

namespace Sys2Proof.Machine

open Spec

variable {i : Instr} {h : Skip} {s : State}

/-! ### An access leaves the registers that its lane sees -/

theorem translate_cores (s : State) (die ctx cap : Nat) (tlb : List TlbEntry) (va : Nat) (want : Want) :
    (translate s die ctx cap tlb va want).2.2.actor = s.actor ∧ (translate s die ctx cap tlb va want).2.2.cores = s.cores := by
  unfold translate
  dsimp only
  repeat' split
  all_goals exact ⟨rfl, rfl⟩

theorem translateFrom_cores (die ctx cap : Nat) (want : Want) (fuel : Nat) (s : State) (tlb : List TlbEntry) (va len : Nat) :
    (translateFrom die ctx cap want fuel s tlb va len).2.2.actor = s.actor ∧
      (translateFrom die ctx cap want fuel s tlb va len).2.2.cores = s.cores := by
  induction fuel generalizing s tlb va len with
  | zero => exact ⟨rfl, rfl⟩
  | succ fuel ih =>
    have hstep := translate_cores s die ctx cap tlb va want
    rw [translateFrom]
    revert hstep
    rcases translate s die ctx cap tlb va want with ⟨_ | _ | p, tlb', t⟩
    · exact id
    · exact id
    · rintro ⟨hactor, hcores⟩
      dsimp only
      split
      · exact ⟨hactor, hcores⟩
      · obtain ⟨hactor', hcores'⟩ := ih t tlb' (va + (p.va + 2 ^ p.log2 - va)) (len - (p.va + 2 ^ p.log2 - va))
        exact ⟨hactor'.trans hactor, hcores'.trans hcores⟩

theorem translateAccess_cores (s : State) (die ctx cap : Nat) (tlb : List TlbEntry) (va : Int) (len : Nat) (want : Want) :
    (translateAccess s die ctx cap tlb va len want).2.2.actor = s.actor ∧
      (translateAccess s die ctx cap tlb va len want).2.2.cores = s.cores := by
  unfold translateAccess
  split
  · exact ⟨rfl, rfl⟩
  · exact translateFrom_cores ..

/-- An access changes of the acting core at most its TLB: its lane sees the registers it saw. -/
theorem gOf_pumpAccess (s : State) (ea : Int) (len : Nat) (want : Want) (word : Bool) (r : Reg) :
    gOf (pumpAccess s ea len want word).2 r = gOf s r := by
  have htlb {t : State} (ht : t.actor = s.actor ∧ t.cores = s.cores) (l : List TlbEntry) :
      gOf (t.modCore s.actor.core fun c => { c with tlb := l }) r = gOf s r := by
    obtain ⟨hactor, hcores⟩ := ht
    have hcore : t.core s.actor.core = s.core s.actor.core := by rw [State.core, hcores, State.core]
    simp only [gOf, bodyLane, State.modCore_actor, hactor, State.core_modCore_same, hcore]
    rfl
  have hcores := translateAccess_cores s (coreDie s.actor.core) (coreCtx s s.actor.core) coreTlbCap
    (s.core s.actor.core).tlb ea len want
  unfold pumpAccess
  dsimp only
  split
  · rfl
  · split
    · split <;> rfl
    · split <;> exact htlb hcores _

/-- What holds after an access may be shown for a state in which the lane sees the registers it saw before. -/
theorem reaches_of_registers {ea : Int} {len : Nat} {want : Want} {word : Bool} {ok : State → List (Nat × Nat) → Prop}
    (hr : Reaches h i s ea len want word fun u spans => (∀ r, gOf u r = gOf s r) → ok u spans) :
    Reaches h i s ea len want word ok := by
  have hg := gOf_pumpAccess s ea len want word
  unfold Reaches at hr ⊢
  revert hr hg
  rcases pumpAccess s ea len want word with ⟨_ | _ | ⟨spans, fe⟩, u⟩
  · exact fun hr _ => hr
  · exact fun hr _ => hr
  · exact fun ⟨hok, hfault⟩ hg => ⟨fun hm => hok hm hg, hfault⟩

/-- A full-empty access of a word (R219): what it comes to once its word has been reached. -/
theorem reaches_withWord {ea : Int} {write : Bool} {k : State → Nat → PumpOut} {ok : State → Nat → Prop}
    (he : exec i s = pumpStep h (opOf i) s (withWord s ea write k))
    (hk : ∀ u pa, exec i s = pumpStep h (opOf i) s (k u pa) → (∀ r, gOf u r = gOf s r) → ok u pa) :
    Reaches h i s ea 4 { write := write, fe := true } true fun u spans => ∀ pa, spans = [(pa, 4)] → ok u pa := by
  refine reaches_of_registers (reaches_of he fun u spans he hg pa hspans => hk u pa ?_ hg)
  rw [hspans] at he
  exact he

/-! ### Presence bits -/

theorem fullAt_fullClear (l : List Nat) (a b : Nat) : fullAt (fullClear l a) b = (fullAt l b && b != a) := by
  rw [Bool.eq_iff_iff]
  simp [fullAt, fullClear]

/-! ### WAITV (R223) -/

theorem eight_mul_widthBytes (w : PumpW) : 8 * widthBytes w = widthBits w := by cases w <;> rfl

/-- Two words of w bits are equal where their numbers are. -/
theorem ofNat_eq_setWidth_iff {w q : Nat} (hq : q < 2 ^ w) (x : BitVec 64) :
    BitVec.ofNat w q = x.setWidth w ↔ q = x.toNat % 2 ^ w := by
  rw [← BitVec.toNat_inj, BitVec.toNat_ofNat, BitVec.toNat_setWidth, Nat.mod_eq_of_lt hq]

theorem natOf_reads_lt (m : Mem) (a : Nat) (w : PumpW) : natOf (m.reads a (widthBytes w)) < 2 ^ widthBits w := by
  rw [← eight_mul_widthBytes]
  exact natOf_lt_of_length (Mem.reads_length ..)

/-- A monitor that something has landed on fires (R222). -/
theorem disarmMonitor_hit {c : Core} {k : Fin 8} {m : Monitor} (hm : c.mons[k] = some m) (hit : m.hit = true) :
    disarmMonitor c k =
      { c with mons := c.mons.set k none, events := c.events ||| BitVec.ofNat 16 (2 ^ (8 + k.val)) } := by
  have hget : c.mons.get k = some m := hm
  have hk : k.val % 8 = k.val := Nat.mod_eq_of_lt k.isLt
  simp only [disarmMonitor, hget, Option.any_some, hit, if_true, Core.monitorEvent, hk]

/-- Settles O30: each access reaches its word, and finds it full or empty, changed or not. -/
theorem pumpFullEmpty : Obligations.PumpFullEmpty := by
  refine ⟨fun s h n rd ra disp => ?lds, fun s h n ra rb disp => ?stf, fun s h n rd ra disp => ?ldc,
    fun s pa => ⟨?empties, fun a ha => ?others, rfl⟩, fun s h w n mon rd ra rb disp => ?waitv,
    fun s core k m hm => ?fires⟩
  case lds =>
    refine reaches_withWord exec_pumpLds fun u pa he _ => ⟨fun hpend => ?pending, fun hpend hfull => ?full, fun hpend hfull => ?empty⟩
    case pending => exact waits_of (exec_outcome he (if_pos hpend))
    all_goals have he := exec_outcome he (if_neg (Bool.eq_false_iff.mp hpend))
    case full => exact executes_of_ext (w := .w32) (exec_outcome he (if_pos hfull))
    case empty => exact retries_of (exec_outcome he (if_neg (Bool.eq_false_iff.mp hfull)))
  case stf =>
    refine reaches_withWord exec_pumpStf fun u pa he hg => ?_
    rw [← gOf_toNat, hg] at he
    exact executes_of he
  case ldc =>
    refine reaches_withWord exec_pumpLdc fun u pa he _ hc hpend => ?_
    have he := exec_outcome (exec_outcome he (atCommitPoint_of_ready hc)) (if_neg (Bool.eq_false_iff.mp hpend))
    exact ⟨fun hfull => executes_of_ext (w := .w32) (exec_outcome he (if_pos hfull)),
      fun hfull => retries_of (exec_outcome he (if_neg (Bool.eq_false_iff.mp hfull)))⟩
  case empties => exact (fullAt_fullClear ..).trans (by simp)
  case others => exact (fullAt_fullClear ..).trans (by simp [ha])
  case waitv =>
    refine reaches_of_registers (reaches_of exec_waitv fun u spans he hg pa hspans hmem hc hpend => ?_)
    rw [hspans] at he
    have he := exec_outcome he (if_neg (by simp [hmem]))
    have he := exec_outcome (exec_outcome he (atCommitPoint_of_ready hc)) (if_neg (Bool.eq_false_iff.mp hpend))
    have hsame := ofNat_eq_setWidth_iff (natOf_reads_lt u.mem (localPa pa) w) (gOf s rb)
    simp only [← gOf_toNat, hg, eight_mul_widthBytes, ← hsame] at he
    exact ⟨fun hne => executes_of_ext (exec_outcome he (if_neg hne)), fun heq => ⟨_, retries_of (exec_outcome he (if_pos heq))⟩⟩
  case fires =>
    have hlist : (s.core core).mons.toList.getD k.val none = some m := by rw [vector_getD_toList, hm]
    rw [exec_monitorFire, execMonitorFire, hlist]
    dsimp only
    cases hit : m.hit with
    | false => rfl
    | true => simp only [if_true, State.modCore, fin_val, disarmMonitor_hit hm hit]

end Sys2Proof.Machine
end

section
/-! Atomics and FXADD of a pump core (R220, R221), and the refutation of O31: its clause on the word that an atomic leaves
fails where memory lists an address twice, which a canonical memory (`Mem.wf`) does not.  On canonical memories the clause
holds (`performAtomic_word`), and so do the other parts of the statement everywhere: `atomicInstructions`, `atomic_fxadd`,
`atomic_fxaddRd` and `performAtomic_xadd`. -/

namespace Sys2Proof.Machine

open Spec

variable {i : Instr} {h : Skip} {s : State}

/-! ### The instructions -/

/-- An atomic of a word reached here acts in one step at its controller (R218, R220). -/
theorem atomic_of {ea : Int} {len b expected : Nat} {write n : Bool} {op : RemoteOp} {k : State → Nat → PumpOut}
    {gs : Nat → List (Nat × W64)} (he : exec i s = pumpStep h (opOf i) s (atomicAt s ea len write op n b expected k))
    (hk : ∀ u v, exec i s = pumpStep h (opOf i) s (k u v) → Executes h i s (gs v) [] [] 0 u) :
    Atomic h i s ea len write op n b expected gs := by
  refine reaches_of he fun u spans he pa hspans hhere hc hpend => hk _ _ ?_
  rw [hspans] at he
  have he := exec_outcome he (if_neg (by simp [hhere]))
  have he := exec_outcome (exec_outcome he (atCommitPoint_of_ready hc)) (if_neg (Bool.eq_false_iff.mp hpend))
  exact exec_outcome he (if_neg (Bool.eq_false_iff.mp hhere))

/-- CAS to FOR give the old word (R220). -/
theorem atomic_pumpAtomic {op : RemoteOp} {w : PumpW} {n : Bool} {rd ra rb : Reg} {disp : BitVec 24}
    (he : exec i s = pumpAtomic h (opOf i) op w n rd ra rb disp s) :
    Atomic h i s (eaAt s ra disp) (widthBits w / 8) true op n (gOf s rb).toNat (gOf s rd).toNat
      fun v => [(rd.val, ext n (BitVec.ofNat (widthBits w) v))] :=
  atomic_of he fun _ _ => executes_of_ext

theorem atomicInstructions (s : State) (h : Skip) (w : PumpW) (n : Bool) (rd ra rb : Reg) (disp : BitVec 24) :
    let all (i : Instr) (op : RemoteOp) := Atomic h i s (eaAt s ra disp) (widthBits w / 8) true op n (gOf s rb).toNat
      (gOf s rd).toNat fun v => [(rd.val, ext n (BitVec.ofNat (widthBits w) v))]
    all (.cas h w n rd ra rb disp) .cas ∧ all (.swap h w n rd ra rb disp) .swap ∧ all (.fadd h w n rd ra rb disp) .add ∧
      all (.fmin h w n rd ra rb disp) .min ∧ all (.fmax h w n rd ra rb disp) .max ∧ all (.fand h w n rd ra rb disp) .and ∧
      all (.fOr h w n rd ra rb disp) .or :=
  ⟨atomic_pumpAtomic exec_cas, atomic_pumpAtomic exec_swap, atomic_pumpAtomic exec_fadd, atomic_pumpAtomic exec_fmin,
    atomic_pumpAtomic exec_fmax, atomic_pumpAtomic exec_fand, atomic_pumpAtomic exec_fOr⟩

theorem atomic_fxadd (s : State) (h : Skip) (xf : Bool) (ra rb : Reg) (disp : BitVec 24) :
    Atomic h (.fxadd h xf ra rb disp) s (eaAt s ra disp) 32 true .xadd xf (gOf s rb).toNat 0 fun _ => [] :=
  atomic_of exec_fxadd fun _ _ => executes_of

theorem atomic_fxaddRd (s : State) (h : Skip) (xf clr : Bool) (rd ra : Reg) (disp : BitVec 24) :
    Atomic h (.fxaddRd h xf clr rd ra disp) s (eaAt s ra disp) 32 clr .xadd xf 0 (if clr then 2 else 1)
      fun v => [(rd.val, BitVec.ofNat 64 v)] :=
  atomic_of exec_fxaddRd fun _ _ => executes_of

/-! ### The word (R220) -/

/-- The word that an atomic leaves, whether it writes it or not. -/
theorem atomicWord_getD {w : Nat} (hw : 0 < w) {op : RemoteOp} (hop : op ≠ .xadd) (n : Bool) (old b : BitVec w) (expected : Nat) :
    (atomicWord op n w old.toNat b.toNat expected).getD old.toNat = (updated op n old b (BitVec.ofNat w expected)).toNat := by
  cases op with
  | cas =>
    have hsame : old.toNat = expected % 2 ^ w ↔ old = BitVec.ofNat w expected := by
      rw [← BitVec.toNat_inj, BitVec.toNat_ofNat]
    simp only [atomicWord, updated, hsame]
    split <;> rfl
  | swap | add | and | or => simp [atomicWord, updated]
  | min => cases n <;> simp [atomicWord, updated, Alu.minN_eq, Alu.minS_eq hw, asNat, res, asInt]
  | max => cases n <;> simp [atomicWord, updated, Alu.maxN_eq, Alu.maxS_eq hw, asNat, res, asInt]
  | xadd => exact absurd rfl hop

/-- An atomic gives the old word, and stores a new one or leaves memory alone. -/
theorem performAtomic_eq {op : RemoteOp} (hop : op ≠ .xadd) (s : State) (n : Bool) (pa len b expected : Nat) :
    let old := natOf (s.mem.reads (localPa pa) len)
    performAtomic s op n pa len b expected = (old, (atomicWord op n (8 * len) old (b % 2 ^ (8 * len)) expected).elim
      (touchMonitors s pa len) fun v => memStore s pa (byteList len v) none) := by
  cases op with
  | xadd => exact absurd rfl hop
  | cas | swap | add | min | max | and | or =>
    dsimp only [performAtomic]
    cases atomicWord _ n (8 * len) _ (b % 2 ^ (8 * len)) expected <;> rfl

theorem byteList_natOf (bs : List Byte) : byteList bs.length (natOf bs) = bs := by
  induction bs with
  | nil => rfl
  | cons b bs ih =>
    have hb : b.toNat < 256 := b.isLt
    have hrest : (b.toNat + 256 * natOf bs) / 256 = natOf bs := by omega
    have hfirst : BitVec.ofNat 8 (b.toNat + 256 * natOf bs) = b := by
      apply BitVec.eq_of_toNat_eq
      rw [BitVec.toNat_ofNat]
      omega
    rw [natOf_cons, List.length_cons, byteList, bytesOf, hrest, hfirst]
    exact congrArg _ ih

/-- Bytes written back where they were read leave a canonical memory as it reads. -/
theorem Mem.read_writes_reads {m : Mem} (hm : m.wf = true) (a n c : Nat) : (m.writes a (m.reads a n)).read c = m.read c := by
  by_cases hc : a ≤ c ∧ c < a + n
  · obtain ⟨k, rfl⟩ := Nat.exists_eq_add_of_le hc.1
    rw [Mem.read_writes_inside a k _ hm (by rw [Mem.reads_length]; omega)]
    simp [Mem.reads_eq_map]
  · exact Mem.read_writes_outside a c _ hm (by rw [Mem.reads_length]; omega)

/-- What an atomic leaves in a canonical memory (R220). -/
theorem performAtomic_word {op : RemoteOp} (hop : op ≠ .xadd) {s : State} (hm : s.mem.wf = true) (n : Bool) {len : Nat}
    (hlen : 0 < len) (pa b expected : Nat) :
    let old := BitVec.ofNat (8 * len) (natOf (s.mem.reads (localPa pa) len))
    let r := performAtomic s op n pa len b expected
    r.1 = old.toNat ∧ (∀ a, r.2.mem.read a = (s.mem.writes (localPa pa) (byteList len
      (updated op n old (BitVec.ofNat _ b) (BitVec.ofNat _ expected)).toNat)).read a) ∧ r.2.full = s.full := by
  intro old
  dsimp only
  have hold : natOf (s.mem.reads (localPa pa) len) = old.toNat :=
    (Nat.mod_eq_of_lt (natOf_lt_of_length (Mem.reads_length ..))).symm
  have hword := atomicWord_getD (by omega) hop n old (BitVec.ofNat _ b) expected
  rw [performAtomic_eq hop, hold, ← BitVec.toNat_ofNat, ← hword]
  cases atomicWord op n (8 * len) old.toNat (BitVec.ofNat (8 * len) b).toNat expected with
  | some v => exact ⟨rfl, fun a => by rw [Option.elim_some, memStore_mem, Option.getD_some], memStore_full_none ..⟩
  | none =>
    have hbytes := byteList_natOf (s.mem.reads (localPa pa) len)
    rw [Mem.reads_length, hold] at hbytes
    exact ⟨rfl, fun a => by rw [Option.getD_none, hbytes, Mem.read_writes_reads hm]; rfl, rfl⟩

/-! ### FXADD (R221) -/

/-- FXADD gives the readout, and stores a new word or leaves memory alone. -/
theorem performAtomic_xadd_eq (s : State) (bf : Bool) (pa b kind : Nat) :
    let act := xaddAct bf kind (natOf (s.mem.reads (localPa pa) 32)) b
    performAtomic s .xadd bf pa 32 b kind =
      (act.2, act.1.elim (touchMonitors s pa 32) fun v => memStore s pa (byteList 32 v) none) := by
  dsimp only [performAtomic]
  rcases xaddAct bf kind (natOf (s.mem.reads (localPa pa) 32)) b with ⟨_ | v, r⟩ <;> rfl

/-- The readout of an XADD word with its flags, and whether the word is cleared. -/
theorem xaddAct_read (bf clr : Bool) (word b : Nat) :
    let read := xaddRead (if bf then .bf16 else .fp32) word
    xaddAct bf (if clr then 2 else 1) word b = (if clr then some 0 else none,
      read.1 + (if read.2.sat then 2 ^ 32 else 0) + (if read.2.nan then 2 ^ 33 else 0)) := by
  have hbit (x : Bool) (k : Nat) : bit x * 2 ^ k = if x then 2 ^ k else 0 := by cases x <;> simp [bit]
  cases clr <;> simp only [xaddAct, hbit] <;> rfl

/-- FXADD adds to its word, or reads it out with its flags and leaves it or clears it. -/
theorem performAtomic_xadd (s : State) (bf : Bool) (pa b : Nat) :
    let fmt : Fmt := if bf then .bf16 else .fp32
    let old := natOf (s.mem.reads (localPa pa) 32)
    (performAtomic s .xadd bf pa 32 b 0).2.mem = s.mem.writes (localPa pa)
      (byteList 32 (xaddWord old (decodeLane fmt (b % 2 ^ laneWidth fmt)))) ∧
    ∀ clr : Bool, let r := performAtomic s .xadd bf pa 32 b (if clr then 2 else 1)
      r.1 = (xaddRead fmt old).1 + (if (xaddRead fmt old).2.sat then 2 ^ 32 else 0) +
        (if (xaddRead fmt old).2.nan then 2 ^ 33 else 0) ∧
      r.2.mem = if clr then s.mem.writes (localPa pa) (byteList 32 0) else s.mem := by
  dsimp only
  refine ⟨memStore_mem .., fun clr => ?_⟩
  rw [performAtomic_xadd_eq, xaddAct_read]
  refine ⟨rfl, ?_⟩
  cases clr
  · rfl
  · simp only [if_true, Option.elim_some, memStore_mem]

/-! ### The refutation -/

/-- Memory that lists address 0 twice, first with the value of an unlisted byte: a byte written there again with its own
value gives way to the other entry. -/
def byteListedTwice : State := { State.reset with mem := [(0, 0), (0, 7)] }

/-- Refutes O31: a CAS of the word at address 0 that expects 1 finds 0 and leaves memory as it is; the statement has the old
word written back, and where memory lists the address twice it then reads 7. -/
theorem not_pumpAtomics : ¬ Obligations.PumpAtomics := by
  rintro ⟨-, -, -, hword, -⟩
  obtain ⟨-, hmem, -⟩ := hword byteListedTwice .cas false 0 4 1 1 (by decide) (.inl rfl)
  exact absurd (hmem 0) (by decide)

end Sys2Proof.Machine
end

section
/-! No store that is performed, one of MMIO included, changes who acts (R217, R267, R269, R316, R334, R336): `State.actor`
names the core and the lane of the instruction at work, and only a step of the agenda sets it.  One equation for each
function of the model that a write of a register can run. -/

namespace Sys2Proof.Machine

variable (s : State)

theorem actor_foldl {α : Type} {f : State → α → State} (hf : ∀ s a, (f s a).actor = s.actor) (as : List α) (s : State) :
    (as.foldl f s).actor = s.actor := by
  induction as generalizing s with
  | nil => rfl
  | cons a as ih => exact (ih (f s a)).trans (hf s a)

/-! ### Memory, links, messages -/

@[simp] theorem actor_memStore (pa : Nat) (bs : List Byte) (full : Option Bool) : (memStore s pa bs full).actor = s.actor := by
  unfold memStore
  split <;> rfl

@[simp] theorem actor_physStore (pa : Nat) (bs : List Byte) (full : Option Bool) :
    (physStore s pa bs full).actor = s.actor := by
  unfold physStore
  split <;> simp

@[simp] theorem actor_bumpWord (pa : Nat) : (bumpWord s pa).actor = s.actor := actor_physStore ..

@[simp] theorem actor_sendMsix (v : Nat) : (sendMsix s v).actor = s.actor := by
  unfold sendMsix
  dsimp only
  split
  · rfl
  · split <;> rfl

@[simp] theorem actor_setLink (k : Nat) (l : Link) : (s.setLink k l).actor = s.actor := rfl

@[simp] theorem actor_sendOrDrop (dst : Nat) (body : FlitBody) : (sendOrDrop s dst body).actor = s.actor := by
  unfold sendOrDrop passFlit
  dsimp only
  split <;> rfl

theorem actor_sendFlit {t : State} {dst : Nat} {body : FlitBody} (h : sendFlit s dst body = some t) : t.actor = s.actor := by
  unfold sendFlit at h
  split at h
  · cases h
  · cases h
    rfl

@[simp] theorem actor_sendStore (dst fuel pa : Nat) (bs : List Byte) : (sendStore dst fuel s pa bs).actor = s.actor := by
  induction fuel generalizing s pa bs with
  | zero => rfl
  | succ fuel ih =>
    rw [sendStore]
    split
    · rfl
    · rw [ih, actor_sendOrDrop]
      rfl

/-! ### The fault ring and the error log (R316, R390) -/

@[simp] theorem actor_raiseCtxFault (c code : Nat) : (raiseCtxFault s c code).actor = s.actor := by
  unfold raiseCtxFault
  dsimp only
  split <;> rfl

@[simp] theorem actor_flushFaultRing (die fuel : Nat) : (flushFaultRing die fuel s).actor = s.actor := by
  induction fuel generalizing s with
  | zero => rfl
  | succ fuel ih =>
    rw [flushFaultRing]
    dsimp only
    split
    · rfl
    · split
      · rfl
      · simp [ih]

@[simp] theorem actor_raisePageFault (die : Nat) (x : FaultRec) : (raisePageFault s die x).actor = s.actor := by
  unfold raisePageFault
  dsimp only
  split <;> simp

@[simp] theorem actor_writeErr (x : ErrInfo) (att cls ctx q idx : Nat) : (writeErr s x att cls ctx q idx).actor = s.actor := by
  unfold writeErr
  dsimp only
  split <;> simp

@[simp] theorem actor_advanceFaultHead (die v : Nat) : (advanceFaultHead s die v).actor = s.actor := actor_flushFaultRing ..

@[simp] theorem actor_resumeSource (die v : Nat) : (resumeSource s die v).actor = s.actor := by
  unfold resumeSource
  dsimp only
  repeat' split
  all_goals rfl

/-! ### Regions (R59, R246, R332, R387) -/

@[simp] theorem actor_replyAll (os : List Owed) (code info : Nat) : (replyAll s os code info).actor = s.actor :=
  actor_foldl (f := fun s o => replyTo s o code info 0) (fun _ _ => rfl) os s

@[simp] theorem actor_failOwed (key : Nat) : (failOwed s key).actor = s.actor := by
  unfold failOwed
  split <;> simp

@[simp] theorem actor_failAllOwed (key : Nat) : (failAllOwed s key).actor = s.actor := by
  unfold failAllOwed
  dsimp only
  split <;> simp

@[simp] theorem actor_discardCommands (key : Nat) : (discardCommands s key).actor = s.actor := by
  unfold discardCommands
  split
  · rfl
  · exact actor_foldl (f := fun s en => s.modIsland en (Island.discard key)) (fun _ _ => rfl) _ s

@[simp] theorem actor_refillLdcs (r : Region) : (refillLdcs s r).actor = s.actor :=
  actor_foldl (f := fun s (l : Nat × Nat × W32) => memStore s l.2.1 (byteList 4 l.2.2.toNat) (some true))
    (fun _ _ => actor_memStore ..) _ s

@[simp] theorem actor_freezeEngines (r : Region) (b : Bool) : (freezeEngines s r b).actor = s.actor :=
  actor_foldl (f := fun s en => s.modIsland en fun x => { x with frozen := b }) (fun _ _ => rfl) _ s

@[simp] theorem actor_thawRegion (key : Nat) : (thawRegion s key).actor = s.actor := by
  unfold thawRegion
  split
  · rfl
  · exact actor_freezeEngines ..

@[simp] theorem actor_voidRegion (key : Nat) (replay : Bool) : (voidRegion s key replay).actor = s.actor := by
  unfold voidRegion
  split
  · rfl
  · next r _ =>
    have hislands (v : State) : ((regionIslands v r).foldl
        (fun s en => s.modIsland en (rewindIsland r.stroke (islandBack s en))) v).actor = v.actor :=
      actor_foldl (f := fun s en => s.modIsland en (rewindIsland r.stroke (islandBack s en))) (fun _ _ => rfl) _ v
    have hfreeze (v : State) : (if r.freezeMark then freezeEngines v r false else v).actor = v.actor := by split <;> simp
    have hvoid := actor_refillLdcs s r
    cases replay
    · exact (hfreeze _).trans hvoid
    · exact (hislands _).trans ((hfreeze _).trans hvoid)

@[simp] theorem actor_killRegion (key : Nat) : (killRegion s key).actor = s.actor := by simp [killRegion]

@[simp] theorem actor_voidPools (key : Nat) (r : Region) : (voidPools s key r).actor = s.actor := rfl

@[simp] theorem actor_dropStopped (die kind src : Nat) : (dropStopped s die kind src).actor = s.actor := rfl

@[simp] theorem actor_blankTiles (r : Region) : (blankTiles s r).actor = s.actor := rfl

@[simp] theorem actor_releaseRegion (key : Nat) : (releaseRegion s key).actor = s.actor := by
  unfold releaseRegion
  split
  · rfl
  · simp

/-! ### Contexts (R263 to R268, R314) -/

@[simp] theorem actor_voidHeld (what : Scope_) (p : Nat × Region) : (voidHeld what s p).actor = s.actor := by
  unfold voidHeld
  split <;> simp

theorem actor_hostShoot (what : Scope_) : (hostShoot s what).actor = s.actor :=
  actor_foldl (f := fun s c => if (s.ctx c).mode.getLsbD 4 then raiseCtxFault s c 0 else s)
    (fun s c => by split <;> simp) _ s

theorem actor_dropCores (what : Scope_) (cs : List Nat) : (cs.foldl (fun s c => dropCore s what c) s).actor = s.actor :=
  actor_foldl (f := fun s c => dropCore s what c) (fun _ _ => rfl) cs s

@[simp] theorem actor_startShoot (kind : ShootKind) (what : Scope_) (owed : Option Owed) :
    (startShoot s kind what owed).actor = s.actor := by
  have hheld : (s.regions.foldl (voidHeld what) (dropSlices s what)).actor = s.actor :=
    (actor_foldl (fun _ _ => actor_voidHeld ..) _ _).trans rfl
  unfold startShoot
  dsimp only
  rw [actor_hostShoot]
  split <;> exact (actor_dropCores ..).trans hheld

@[simp] theorem actor_ackShoots (c : Nat) : (ackShoots s c).actor = s.actor :=
  actor_foldl (f := fun s (h : Shoot) => dropCore s h.what c) (fun _ _ => rfl) _ s

@[simp] theorem actor_killCore (c : Nat) : (killCore s c).actor = s.actor := by simp [killCore]

@[simp] theorem actor_endCmd (c code : Nat) : (endCmd s c code).actor = s.actor := rfl

@[simp] theorem actor_settleCtx (c : Nat) : (settleCtx s c).actor = s.actor := by
  unfold settleCtx
  split <;> rfl

@[simp] theorem actor_grantCores (c : Nat) (old : List Nat) : (grantCores s c old).actor = s.actor :=
  (actor_foldl (f := fun s k => s.modCore k fun x => { x with ctx := some (fin 64 c), stopped := false })
    (fun _ _ => rfl) _ _).trans (actor_foldl (f := fun s k => s.modCore k fun x => { x with ctx := none }) (fun _ _ => rfl) _ s)

@[simp] theorem actor_ctxCreate (c : Nat) : (ctxCreate s c).actor = s.actor := by
  unfold ctxCreate
  dsimp only
  repeat' split
  all_goals rfl

@[simp] theorem actor_ctxBind (c : Nat) : (ctxBind s c).actor = s.actor := by
  unfold ctxBind
  dsimp only
  repeat' split
  all_goals simp

@[simp] theorem actor_freezeCtx (c : Nat) : (freezeCtx s c).actor = s.actor :=
  (actor_foldl (f := setStopped true) (fun _ _ => rfl) _ _).trans (actor_foldl (f := freezeRegion) (fun _ _ => rfl) _ s)

@[simp] theorem actor_ctxFreezeCmd (c : Nat) : (ctxFreezeCmd s c).actor = s.actor := by
  unfold ctxFreezeCmd
  dsimp only
  repeat' split
  all_goals simp

@[simp] theorem actor_ctxThawCmd (c : Nat) : (ctxThawCmd s c).actor = s.actor := by
  unfold ctxThawCmd
  split
  · rfl
  · rw [actor_endCmd, actor_settleCtx, State.modCtx_actor, actor_foldl (f := setStopped false) fun _ _ => rfl,
      actor_foldl actor_thawRegion]

@[simp] theorem actor_resetBarriers (c : Nat) : (resetBarriers s c).actor = s.actor := rfl

@[simp] theorem actor_ctxSwapout (c : Nat) : (ctxSwapout s c).actor = s.actor := by
  unfold ctxSwapout
  repeat' split
  all_goals simp

@[simp] theorem actor_ctxSwapin (c : Nat) : (ctxSwapin s c).actor = s.actor := by
  unfold ctxSwapin
  repeat' split
  all_goals rfl

@[simp] theorem actor_clearTrip (c : Nat) : (clearTrip s c).actor = s.actor := by
  unfold clearTrip tripCtx
  repeat' split
  all_goals rfl

@[simp] theorem actor_ctxClear (c : Nat) : (ctxClear s c).actor = s.actor := by
  unfold ctxClear
  split <;> rfl

@[simp] theorem actor_beginCmd (c : Nat) : (beginCmd s c).actor = s.actor := by
  unfold beginCmd
  split <;> simp

@[simp] theorem actor_popJob : (popJob s).actor = s.actor := rfl

@[simp] theorem actor_markJob : (markJob s).actor = s.actor := rfl

@[simp] theorem actor_applyFault (c : Nat) : (applyFault s c).actor = s.actor := by
  unfold applyFault
  split <;> simp

@[simp] theorem actor_beginFault (c : Nat) : (beginFault s c).actor = s.actor := by
  unfold beginFault
  split <;> simp

@[simp] theorem actor_beginTrip (c : Nat) : (beginTrip s c).actor = s.actor := by
  unfold beginTrip
  split <;> simp

@[simp] theorem actor_beginJob (c : Nat) (j : CtxJob) : (beginJob s c j).actor = s.actor := by
  cases j with
  | cmd =>
    unfold beginJob
    dsimp only
    split <;> simp
  | fault => exact actor_beginFault ..
  | trip => exact actor_beginTrip ..

@[simp] theorem actor_serveUnit (n : Nat) : (serveUnit n s).actor = s.actor := by
  induction n generalizing s with
  | zero => rfl
  | succ n ih =>
    rw [serveUnit]
    split
    · rw [ih, actor_beginJob]
    · rfl

@[simp] theorem actor_serveCtx : (serveCtx s).actor = s.actor := actor_serveUnit ..

@[simp] theorem actor_ctxKill (c : Nat) : (ctxKill s c).actor = s.actor := by
  have hparts (rs qs cs : List Nat) : (cs.foldl killCore (qs.foldl killQueue (rs.foldl killRegion s))).actor = s.actor :=
    (actor_foldl actor_killCore _ _).trans ((actor_foldl (f := killQueue) (fun _ _ => rfl) _ _).trans
      (actor_foldl actor_killRegion _ s))
  unfold ctxKill
  dsimp only
  split
  · rfl
  · split
    · rfl
    · rw [actor_serveCtx, State.modCtx_actor]
      exact (actor_startShoot ..).trans (hparts ..)

@[simp] theorem actor_ctxCommand (c : Nat) (m : CtxCmd) : (ctxCommand s c m).actor = s.actor := by
  unfold ctxCommand
  repeat' split
  all_goals simp

@[simp] theorem actor_setCtxReg (c o v : Nat) : (setCtxReg s c o v).actor = s.actor := by
  unfold setCtxReg
  repeat' split
  all_goals simp

/-- What is known of the state beside an answer, once the answer is. -/
theorem actor_of_eq {α : Type} {r : α × State} {a : α} {s t : State} (h : r = (a, t)) (hr : r.2.actor = s.actor) :
    t.actor = s.actor := by
  rw [h] at hr
  exact hr

/-! ### Queues (R269, R271, R399) -/

theorem actor_qAccess (q : Nat) (va : Int) (len : Nat) (wr : Bool) : (qAccess s q va len wr).2.actor = s.actor :=
  (translateAccess_cores ..).1

theorem actor_remotePiece (waiter pa len : Nat) : (remotePiece s waiter pa len).2.actor = s.actor := by
  unfold remotePiece
  split
  · rfl
  · dsimp only
    split
    · next t ht => exact (actor_sendFlit s ht :)
    · rfl

theorem actor_remoteSpan (waiter : Nat) (ps : List (Nat × Nat)) : (remoteSpan waiter ps s).2.actor = s.actor := by
  induction ps generalizing s with
  | nil => rfl
  | cons p ps ih => exact (ih _).trans (actor_remotePiece ..)

theorem actor_readSpansAny (waiter va : Nat) (ps : List (Nat × Nat)) : (readSpansAny waiter va ps s).2.actor = s.actor := by
  induction ps generalizing s with
  | nil => rfl
  | cons p ps ih =>
    rw [readSpansAny]
    cases (placeOf p.1).isMemory
    · cases (placeOf p.1).isRemote
      · exact ih s
      · exact (ih _).trans (actor_remoteSpan ..)
    · exact ih s

theorem actor_readAny (waiter : Nat) (ps : List Page) (va len : Nat) : (readAny s waiter ps va len).2.actor = s.actor := by
  have hread := actor_readSpansAny s waiter va (readSpans ps (ps.length + 1) va len)
  unfold readAny
  dsimp only
  split <;> exact hread

theorem actor_qRead (q va len : Nat) : (qRead s q va len).2.actor = s.actor := by
  have hacc := actor_qAccess s q va len false
  unfold qRead
  revert hacc
  rcases qAccess s q va len false with ⟨_ | _ | ps, t⟩
  · exact id
  · exact id
  · exact (actor_readAny ..).trans

theorem actor_writeSpansSure (spans : List (Nat × List Byte)) (full : Option Bool) :
    (writeSpansSure spans full s).actor = s.actor := by
  induction spans generalizing s with
  | nil => rfl
  | cons p ps ih =>
    rw [writeSpansSure, ih]
    split <;> simp

theorem actor_writeAny (ps : List Page) (va : Nat) (bs : List Byte) (setFull : Bool) :
    (writeAny s ps va bs setFull).2.actor = s.actor := by
  unfold writeAny
  dsimp only
  split
  · rfl
  · exact actor_writeSpansSure ..

theorem actor_qWrite (q va : Nat) (bs : List Byte) : (qWrite s q va bs).2.actor = s.actor := by
  have hacc := actor_qAccess s q va bs.length true
  unfold qWrite
  revert hacc
  rcases qAccess s q va bs.length true with ⟨_ | _ | ps, t⟩
  · exact id
  · exact id
  · exact (actor_writeAny ..).trans

@[simp] theorem actor_haltQueue (q idx code : Nat) : (haltQueue s q idx code).actor = s.actor := by
  unfold haltQueue
  dsimp only
  repeat' split
  all_goals simp

@[simp] theorem actor_engineFault (q idx code va : Nat) (wr : Bool) : (engineFault s q idx code va wr).actor = s.actor := by
  unfold engineFault
  dsimp only
  split <;> simp

@[simp] theorem actor_pullRecords (q n : Nat) : (pullRecords q n s).actor = s.actor := by
  induction n generalizing s with
  | zero => rfl
  | succ n ih =>
    have hgot (va : Nat) : (if (s.queue q).psrc = 1 then hostRecord s va else qRead s q va 64).2.actor = s.actor := by
      split
      · rfl
      · exact actor_qRead ..
    rw [pullRecords]
    dsimp only
    split
    · rfl
    · split
      · next t h => exact actor_of_eq h (hgot _)
      · next c v t h => exact (actor_engineFault ..).trans (actor_of_eq h (hgot _))
      · next b t h =>
        have ht : t.actor = s.actor := actor_of_eq h (hgot _)
        split
        · next u hu => exact (actor_of_eq hu (actor_qWrite ..)).trans ht
        · next c v u hu => exact (actor_engineFault ..).trans ((actor_of_eq hu (actor_qWrite ..)).trans ht)
        · next u hu => exact (ih _).trans ((actor_of_eq hu (actor_qWrite ..)).trans ht)

@[simp] theorem actor_tailWrite (src : TailSource) (q tail : Nat) : (tailWrite s src q tail).actor = s.actor := by
  unfold tailWrite
  dsimp only
  repeat' split
  all_goals simp

@[simp] theorem actor_settleQueue (q : Nat) : (settleQueue s q).actor = s.actor := by
  unfold settleQueue
  dsimp only
  split <;> rfl

@[simp] theorem actor_enableQueue (q : Nat) : (enableQueue s q).actor = s.actor := by
  unfold enableQueue
  dsimp only
  repeat' split
  all_goals rfl

@[simp] theorem actor_disableQueue (q : Nat) : (disableQueue s q).actor = s.actor := by
  unfold disableQueue
  dsimp only
  split <;> simp

theorem actor_freeFailed (q : Nat) : (freeFailed s q).actor = s.actor :=
  actor_foldl (f := fun s (p : Nat × Region) => releaseRegion s p.1) (fun _ _ => actor_releaseRegion ..) _ s

@[simp] theorem actor_retryQueue (q : Nat) : (retryQueue s q).actor = s.actor := by
  unfold retryQueue
  dsimp only
  split
  · rw [actor_settleQueue, State.setQueue_actor]
    split
    · exact actor_freeFailed ..
    · rfl
  · rfl
  · rfl

@[simp] theorem actor_skipQueue (q : Nat) : (skipQueue s q).actor = s.actor := by
  unfold skipQueue
  dsimp only
  split <;> simp

@[simp] theorem actor_setQueueReg (q o v : Nat) : (setQueueReg s q o v).actor = s.actor := by
  unfold setQueueReg queueCommand
  repeat' split
  all_goals simp

/-! ### The registers of links (R335) -/

@[simp] theorem actor_setLinkState (k : Nat) (st : LinkState) : (setLinkState s k st).actor = s.actor := by
  unfold setLinkState
  split <;> simp

theorem actor_discardFlit (k : Nat) (f : Flit) : (discardFlit k s f).actor = s.actor := by
  have hrefuse (id : Nat) : (if f.src = thisModule then answerRemote (dropFlits s k 1) id [] 6
      else sendOrDrop (dropFlits s k 1) f.src (.loadReply id [] 6)).actor = s.actor := by
    split
    · rfl
    · exact actor_sendOrDrop ..
  unfold discardFlit
  cases f.body with
  | load | atomic | waitv => exact hrefuse _
  | loadReply | store | tail | arrival | completion => rfl

@[simp] theorem actor_endLink (k : Nat) (st : LinkState) : (endLink s k st).actor = s.actor :=
  (actor_foldl (fun s f => actor_discardFlit s k f) _ _).trans (actor_setLinkState ..)

@[simp] theorem actor_setLinkEnable (k : Nat) (en : Bool) : (setLinkEnable s k en).actor = s.actor := by
  unfold setLinkEnable
  dsimp only
  repeat' split
  all_goals simp

@[simp] theorem actor_setLinkReg (k o v : Nat) : (setLinkReg s k o v).actor = s.actor := by
  unfold setLinkReg retrainLink
  repeat' split
  all_goals simp

/-! ### Registers and stores performed (R217, R336) -/

theorem actor_writeReg (r : MReg) (v : Nat) : (writeReg s r v).actor = s.actor := by
  unfold writeReg
  split
  · exact actor_setCtxReg ..
  · exact actor_setQueueReg ..
  · unfold setFaultRing
    split <;> simp
  · exact actor_setLinkReg ..
  · rfl
  · unfold setVector
    dsimp only
    split <;> simp
  · unfold setErrlog
    split <;> rfl
  · rfl
  · rfl

theorem actor_mmioWrite (off len v : Nat) : (mmioWrite s off len v).actor = s.actor := by
  have hhalf (r : MReg) (v : Nat) (b : Bool) : (if b then s else writeReg s r v).actor = s.actor := by
    split
    · rfl
    · exact actor_writeReg ..
  unfold mmioWrite
  split
  · rfl
  · split
    · rfl
    · split
      · exact actor_writeReg ..
      · exact hhalf ..

@[simp] theorem actor_performStore (cn pa : Nat) (bs : List Byte) (full : Option Bool) :
    (performStore s cn pa bs full).actor = s.actor := by
  unfold performStore
  split
  · exact actor_memStore ..
  · exact actor_memStore ..
  · exact actor_mmioWrite ..
  · exact actor_sendStore ..
  · rfl

end Sys2Proof.Machine
end

section
/-! SKIP, ABORT, the commit point, fences, notices and the timer of a pump core (R218, R224 to R229): the statement of
O34. -/

namespace Sys2Proof.Machine

open Spec

variable {s : State}

/-! ### The commit point (R218, R226) -/

theorem heldBack_iff (s : State) : heldBack s = true ↔ (s.core s.actor.core).storeQ.any QStore.isFence = true ∨
    ((bodyLane s).acts.any CommitAct.isFence = true ∧ (s.core s.actor.core).storeQ ≠ []) := by
  simp only [heldBack, Bool.or_eq_true, Bool.and_eq_true, Bool.not_eq_true', List.isEmpty_eq_false_iff]

theorem atCommitPoint_of_heldBack {k : State → PumpOut} (hb : heldBack s = true) : atCommitPoint s k = .wait s := by
  rw [atCommitPoint, if_pos hb]

/-- Where fences of the body stand before an instruction, their stores are performed, but only where the instruction then
does not abort (R218). -/
theorem atCommitPoint_of_released {k : State → PumpOut} {t : State} (hb : heldBack s = false)
    (hf : (bodyLane s).acts.any CommitAct.isFence = true) (hl : (bodyLane s).released = false)
    (hg : releaseGroups (bodyLane s).acts.length s = (t, true)) :
    (∀ u d, k t = .done u d → atCommitPoint s k = .done u d) ∧
    (∀ u v, k t = .retry u → k s = .retry v → atCommitPoint s k = .retry v) ∧
    (∀ u c a v c' a', k t = .fault u c a → k s = .fault v c' a' → atCommitPoint s k = .fault v c' a') := by
  refine ⟨fun u d ht => ?_, fun u v ht hs => ?_, fun u c a v c' a' ht hs => ?_⟩
  · simp only [atCommitPoint, hb, hf, hg, hl, ht, Bool.false_eq_true, if_false, if_true]
  · simp only [atCommitPoint, hb, hf, hg, hl, ht, hs, Bool.false_eq_true, if_false, if_true]
  · simp only [atCommitPoint, hb, hf, hg, hl, ht, hs, Bool.false_eq_true, if_false, if_true]

theorem findIdx_fence {pre : List CommitAct} (hpre : pre.any CommitAct.isFence = false) (sc : Scope) (post : List CommitAct) :
    (pre ++ .fence sc :: post).findIdx CommitAct.isFence = pre.length := by
  have hnone : pre.findIdx CommitAct.isFence = pre.length :=
    List.findIdx_eq_length.mpr fun a ha => by simpa using List.any_eq_false.mp hpre a ha
  rw [List.findIdx_append, hnone, if_neg (Nat.lt_irrefl _), List.findIdx_cons]
  simp [CommitAct.isFence]

/-- One fence of the body: the stores before it are performed, and it goes, unless one of domain scope still waits for a
store on a link (R226). -/
theorem releaseGroups_fence {fuel : Nat} {pre post : List CommitAct} {sc : Scope}
    (ha : (bodyLane s).acts = pre ++ .fence sc :: post) (hpre : pre.any CommitAct.isFence = false) :
    let u := performActs s.actor.core pre s
    let rest := pre.filter fun a => a.bytes?.isNone
    releaseGroups (fuel + 1) s = if sc = .domain ∧ storesOut u = true then (leaveActs u (rest ++ .fence sc :: post), false)
      else releaseGroups fuel (leaveActs u (rest ++ post)) := by
  have hget : (pre ++ CommitAct.fence sc :: post)[pre.length]? = some (.fence sc) := by simp
  have hdrop : (pre ++ CommitAct.fence sc :: post).drop (pre.length + 1) = post := by simp [List.drop_append]
  have hdomain : (CommitAct.fence sc == .fence .domain) = true ↔ sc = .domain := by simp
  simp only [releaseGroups, ha, findIdx_fence hpre, hget, List.take_left, List.drop_left, hdrop, Bool.and_eq_true, hdomain]

theorem releaseGroups_noFence (hf : (bodyLane s).acts.any CommitAct.isFence = false) (fuel : Nat) :
    releaseGroups fuel s = (s, true) := by
  cases fuel with
  | zero => rfl
  | succ fuel =>
    have hnone : (bodyLane s).acts.findIdx CommitAct.isFence = (bodyLane s).acts.length :=
      List.findIdx_eq_length.mpr fun a ha => by simpa using List.any_eq_false.mp hf a ha
    simp only [releaseGroups, hnone, List.getElem?_length]

/-- The lane that acts stays the same while its stores are performed. -/
theorem actor_performActs (s : State) (cn : Nat) (acts : List CommitAct) : (performActs cn acts s).actor = s.actor :=
  actor_foldl (fun s a => by cases a <;> simp) acts s

theorem actor_releaseGroups (s : State) (fuel : Nat) : (releaseGroups fuel s).1.actor = s.actor := by
  induction fuel generalizing s with
  | zero => rfl
  | succ fuel ih =>
    rw [releaseGroups]
    dsimp only
    split
    · rfl
    · split
      · exact actor_performActs ..
      · exact (ih _).trans (actor_performActs ..)

theorem commitPoints : CommitPoints :=
  ⟨fun _ _ => atCommitPoint_of_ready, fun _ _ => atCommitPoint_of_heldBack, heldBack_iff,
    fun _ _ _ u d hb hf hl hg =>
      have ⟨hdone, hretry, hfault⟩ := atCommitPoint_of_released hb hf hl hg
      ⟨hdone u d, hretry u, fun v c a => hfault u c a v⟩,
    fun _ _ _ _ _ => releaseGroups_fence, fun _ fuel hf => releaseGroups_noFence hf fuel,
    fun s cn _ bs full hpa => performStore_memory hpa s cn bs full⟩

/-! ### Fences (R224 to R226) -/

/-- FENCE.full performs nothing while a store of an earlier round waits. -/
theorem releaseAll_of_pending (hq : (s.core s.actor.core).storeQ ≠ []) : releaseAll s = (s, false) := by
  rw [releaseAll, if_pos (by simpa using hq)]

theorem releaseAll_of_held {u : State} (hq : (s.core s.actor.core).storeQ = [])
    (hg : releaseGroups (bodyLane s).acts.length s = (u, false)) : releaseAll s = (u, false) := by
  simp only [releaseAll, hq, hg, List.isEmpty_nil, Bool.not_true, Bool.false_eq_true, if_false]

theorem releaseAll_of_released {t : State} (hq : (s.core s.actor.core).storeQ = [])
    (hg : releaseGroups (bodyLane s).acts.length s = (t, true)) : releaseAll s =
      (leaveActs (performActs s.actor.core (bodyLane t).acts t) ((bodyLane t).acts.filter fun a => a.bytes?.isNone), true) := by
  have hactor : t.actor = s.actor := by rw [← actor_releaseGroups s (bodyLane s).acts.length, hg]
  simp only [releaseAll, hq, hg, hactor, List.isEmpty_nil, Bool.not_true, Bool.false_eq_true, if_false]

/-- What FENCE.full comes to, by what its stores come to. -/
theorem fenceFull_pending {h : Skip} {sc : Scope} {u : State} (hr : releaseAll s = (u, false)) : Waits h (.fenceFull h sc) s u := by
  have he := exec_fenceFull (h := h) (scope := sc) (s := s)
  simp only [execFenceFull, hr] at he
  exact waits_of he

theorem fenceFull_performed {h : Skip} {sc : Scope} {u : State} (hr : releaseAll s = (u, true)) :
    ((sc = .domain ∧ storesOut u = true) ∨ loadsOut u = true → Waits h (.fenceFull h sc) s u) ∧
    ((sc = .domain → storesOut u = false) → loadsOut u = false →
      Executes h (.fenceFull h sc) s [] [] [] 0 (u.modCore u.actor.core fun c => { c with dcache := [] })) := by
  have he := exec_fenceFull (h := h) (scope := sc) (s := s)
  simp only [execFenceFull, hr, Bool.or_eq_true, Bool.and_eq_true, beq_iff_eq] at he
  refine ⟨fun hout => waits_of (exec_outcome he (if_pos hout)), fun hst hld => executes_of (exec_outcome he (if_neg ?_))⟩
  rintro (⟨hsc, hout⟩ | hout)
  · exact absurd (hst hsc ▸ hout) Bool.false_ne_true
  · exact absurd (hld ▸ hout) Bool.false_ne_true

/-! ### Notices and the timer (R228, R229) -/

theorem hwData_lt (c : Core) : hwData c < 2 ^ 6 := by
  have := c.hw.isLt
  unfold hwData
  split <;> omega

/-- The word that NOTE.take gives, and whether it is the hardware word. -/
theorem noteHead_eq (c : Core) : (noteHead c).1 = c.notes.isEmpty ∧ BitVec.ofNat 64 (noteHead c).2 = noticeOf c := by
  unfold noteHead noticeOf
  cases c.notes with
  | cons w ws => exact ⟨rfl, by simp⟩
  | nil =>
    refine ⟨rfl, ?_⟩
    dsimp only
    split
    · rfl
    · have hlt := hwData_lt c
      have hzero : (0 : BitVec 56).toNat = 0 := rfl
      have hthree : (3 : BitVec 2).toNat = 3 := rfl
      apply BitVec.eq_of_toNat_eq
      simp only [toNat_append_eq_add, BitVec.toNat_ofNat, hzero, hthree]
      omega

theorem exec_noteTake_eq (s : State) (h : Skip) (rd : Reg) : exec (.noteTake h rd) s = pumpStep h 0x62 s (.done s {
    g := [(rd.val, noticeOf (s.core s.actor.core))]
    acts := if takesNote (bodyLane s) then [] else
      [.noteTake (s.core s.actor.core).notes.isEmpty (noticeOf (s.core s.actor.core))] }) := by
  obtain ⟨hhw, hword⟩ := noteHead_eq (s.core s.actor.core)
  rw [← hhw, ← hword, exec_noteTake]
  rfl

/-- TIMER, for both its kinds (R229). -/
theorem timer_of {i : Instr} {h : Skip} {per : Bool} {rd ra : Reg} (hop : opOf i = 0x63)
    (he : exec i s = timerStep h per rd ra s) : let n := (s.core s.actor.core).tcount; let v := (gOf s ra).toNat
    (v < 2 ^ 32 → Executes h i s [(rd.val, n.setWidth 64)] [] [.timer per v n.toNat] 0 s) ∧ (2 ^ 32 ≤ v → Refuses h i s) := by
  intro n v
  rw [timerStep, ← hop] at he
  have hform : v / 2 ^ 32 ≠ 0 ↔ 2 ^ 32 ≤ v := by omega
  refine ⟨fun hv => ?_, fun hv => refuses_of (exec_outcome he (if_pos (hform.mpr hv)))⟩
  rw [← BitVec.ofNat_toNat]
  exact executes_of (exec_outcome he (if_neg (mt hform.mp (not_le.mpr hv))))

theorem exec_timerExpiry_due {core t : Nat} (ht : (s.core core).tdue = some t) (hdue : t ≤ s.nstime) :
    let c := s.core core
    exec (.timerExpiry core) s = .next (s.setCore core { c with
      tdue := if c.tper then some (t + c.tint) else none, events := c.events ||| 0x10
      tcount := if c.tcount = BitVec.allOnes 32 then c.tcount else c.tcount + 1 }) := by
  rw [exec_timerExpiry]
  simp only [execTimerExpiry, ht, if_neg (not_lt.mpr hdue), saturate32]

theorem exec_timerExpiry_early {core : Nat} (h : ∀ t, (s.core core).tdue = some t → s.nstime < t) :
    exec (.timerExpiry core) s = .next s := by
  rw [exec_timerExpiry, execTimerExpiry]
  split
  · rfl
  · next t ht => exact if_pos (h t ht)

/-- Settles O34: control, the commit point, the fences by what they wait for, notices and the timer. -/
theorem controlFencesNotices : Obligations.ControlFencesNotices := by
  refine ⟨fun s h k => executes_of exec_skip, fun s h => retries_of exec_abort, commitPoints,
    fun s h sc hl => waits_of (exec_outcome exec_fenceAcq (if_pos hl)),
    fun s h sc hl => executes_of (exec_outcome exec_fenceAcq (if_neg (Bool.eq_false_iff.mp hl))),
    fun s h sc => defers_of exec_fenceRel, fun s h sc hq => fenceFull_pending (releaseAll_of_pending hq),
    fun s h sc u hq hg => fenceFull_pending (releaseAll_of_held hq hg),
    fun s h sc t hq hg => fenceFull_performed (releaseAll_of_released hq hg),
    fun s h ra rb c hc hp => ?send, fun s h ra rb hno => ?noSend, fun s h rd => executes_of (exec_noteTake_eq s h rd),
    fun s h rd ra => ?timer, fun s core t => exec_timerExpiry_due, fun s core => exec_timerExpiry_early⟩
  case send =>
    have he := exec_noteSend (h := h) (ra := ra) (rb := rb) (s := s)
    rw [gOf_toNat] at hc
    simp only [execNoteSend, hc, hp, if_true, ofNat_readG_setWidth] at he
    exact defers_of he
  case noSend =>
    have he := exec_noteSend (h := h) (ra := ra) (rb := rb) (s := s)
    rw [gOf_toNat] at hno
    cases hc : coreOfHandle (readG s ra) with
    | none =>
      simp only [execNoteSend, hc] at he
      exact refuses_of he
    | some c =>
      simp only [execNoteSend, hc, hno c hc, Bool.false_eq_true, if_false] at he
      exact refuses_of he
  case timer =>
    obtain ⟨honce, honceBad⟩ := timer_of (h := h) (rd := rd) (ra := ra) rfl exec_timerOnce
    obtain ⟨hper, hperBad⟩ := timer_of (h := h) (rd := rd) (ra := ra) rfl exec_timerPer
    exact ⟨fun hv => ⟨honce hv, hper hv⟩, fun hv => ⟨honceBad hv, hperBad hv⟩⟩

end Sys2Proof.Machine
end

section
/-! Queue instructions of a pump core (R235 to R237, R239, R271, R378): the statement of O35. -/

namespace Sys2Proof.Machine

open Spec

variable {i : Instr} {h : Skip} {s : State}

/-! ### Places that an instruction writes -/

/-- A place that an instruction will write, which no dead link stands before (R218, R234). -/
theorem atPlace_of {va len : Nat} {k : State → List (Nat × Nat) → PumpOut} {ok : State → List (Nat × Nat) → Prop}
    (he : exec i s = pumpStep h (opOf i) s (operandAt s va len true fun u spans => storeSpans u va spans fun v => k v spans))
    (hk : ∀ u spans, exec i s = pumpStep h (opOf i) s (k u spans) → ok u spans) : AtPlace h i s va len ok := by
  refine reaches_operandAt he fun u spans he halive => hk u spans (exec_outcome he ?_)
  have hfind : spans.find? (deadSpan u) = none := List.find?_eq_none.mpr fun p hp => by simp [halive p hp]
  simp only [storeSpans, hfind]

/-! ### Queues -/

theorem queueOk_iff (s : State) (q : Nat) : queueOk s q = true ↔ Named s q := by
  simp only [queueOk, Named, Bool.and_eq_true, decide_eq_true_eq, bne_iff_ne, beq_iff_eq, and_assoc]
  rfl

theorem depth_lt (b : Rec) : Rec.depth b < 2 ^ 3 := Nat.mod_lt _ (by decide)

/-- A record takes a shared slot where one is free, else the reserved one of its depth (R271). -/
theorem Queue.slotFor_of_full {x : Queue} {d : Nat} (hs : x.sharedFree = 0) (hd : x.resuse.getLsbD d = true) :
    x.slotFor d = none := by
  simp [Queue.slotFor, hs, hd]

theorem Queue.slotFor_of_free {x : Queue} {d : Nat} (h : 0 < x.sharedFree ∨ x.resuse.getLsbD d = false) :
    x.slotFor d = some (if 0 < x.sharedFree then none else some (BitVec.ofNat 3 d)) := by
  by_cases hs : 0 < x.sharedFree
  · simp [Queue.slotFor, hs]
  · simp [Queue.slotFor, hs, h.resolve_left hs]

/-- A record that takes a slot stands at the tail, and its reserved slot is in use (R271). -/
theorem Queue.push_slot (x : Queue) {d : Nat} (hd : d < 2 ^ 3) (free : Prop) [Decidable free] :
    x.push (if free then none else some (BitVec.ofNat 3 d)) = { x with
      tail := x.tail + 1
      kinds := x.kinds ++ [if free then none else some (BitVec.ofNat 3 d)]
      resuse := if free then x.resuse else x.resuse ||| BitVec.ofNat 8 (2 ^ d) } := by
  split
  · rfl
  · simp only [Queue.push, BitVec.toNat_ofNat, Nat.mod_eq_of_lt hd]

/-- A record copied through the slot it finds (R235, R271). -/
theorem enqRecord_done {u t : State} {q : Nat} {b : Rec} {bs : List Byte}
    (hf : 0 < (u.queue q).sharedFree ∨ (u.queue q).resuse.getLsbD (Rec.depth b) = false)
    (hw : qWrite u q ((u.queue q).slotVa (u.queue q).tail.toNat) b = (.bytes bs, t)) :
    enqRecord u q b = .done (t.modQueue q fun x =>
      x.push (if 0 < (u.queue q).sharedFree then none else some (BitVec.ofNat 3 (Rec.depth b)))) := by
  simp only [enqRecord, Queue.slotFor_of_free hf, hw]

theorem enqRecord_full {u : State} {q : Nat} {b : Rec} (hs : (u.queue q).sharedFree = 0)
    (hd : (u.queue q).resuse.getLsbD (Rec.depth b) = true) : enqRecord u q b = .full := by
  simp only [enqRecord, Queue.slotFor_of_full hs hd]

/-- What DEQQ refuses: a queue that is not bound to its core or is of another context, a place out of line (R236). -/
theorem deqqRefused_iff (s : State) (q va : Nat) :
    (!(boundQueue (s.core s.actor.core) == some q && (s.queue q).ctx.toNat == actorCtx s) || va % 64 != 0) = true ↔
    ¬ (boundQueue (s.core s.actor.core) = some q ∧ (s.queue q).ctx.toNat = coreCtx s s.actor.core ∧ va % 64 = 0) := by
  simp only [Bool.or_eq_true, Bool.not_eq_true', ← Bool.not_eq_true, Bool.and_eq_true, beq_iff_eq, bne_iff_ne, ne_eq, ← not_and_or,
    and_assoc]
  rfl

/-- The module that the operand of TAILW names (R237). -/
theorem tailModule_eq {a : Nat} (h : a < 2 ^ 16) : bits a 10 6 = a / 2 ^ 10 :=
  Nat.mod_eq_of_lt (by omega)

/-- Settles O35: what a queue instruction may name is checked first; then a record finds its slot or none, a head is taken,
a tail is held for the commit, a chain is stored. -/
theorem queueInstructions : Obligations.QueueInstructions := by
  refine ⟨fun s h ra rb => ⟨fun hbad => ?enqBad, fun ⟨hn, hp, hva⟩ => ?enq⟩,
    fun s h rd ra rb => ⟨fun hbad => ?deqqBad, fun hb hc hva => ?deqq⟩,
    fun s h ra rb => ⟨fun ha => ?tailBad, fun ha hm => ?tail, fun ha hm hd => ?tailDead⟩,
    fun s h rd ra rb => ⟨fun hbad => ?digestBad, fun hn hva => ?digest⟩⟩
  case enqBad =>
    rw [gOf_toNat, gOf_toNat, ← queueOk_iff] at hbad
    exact refuses_of (exec_outcome exec_enq (if_pos (by simpa [imp_iff_not_or, or_assoc] using hbad)))
  case enq =>
    rw [gOf_toNat, ← queueOk_iff] at hn
    rw [gOf_toNat] at hp hva
    refine atOperand_of (exec_outcome exec_enq (if_neg (by simp [hn, hp, hva]))) fun u b he =>
      ⟨fun hh => retries_of (exec_outcome he (if_pos hh)), fun hh hs hd => ?full, fun hh bs t hf hw => ?copied⟩
    case full =>
      have he := exec_outcome he (if_neg (Bool.eq_false_iff.mp hh))
      rw [show enqRecord u (readG s ra) b = _ from enqRecord_full hs hd] at he
      exact retries_of he
    case copied =>
      have he := exec_outcome he (if_neg (Bool.eq_false_iff.mp hh))
      rw [show enqRecord u (readG s ra) b = _ from enqRecord_done hf hw] at he
      simp only [Queue.push_slot _ (depth_lt b)] at he
      exact executes_of he
  case deqqBad =>
    rw [gOf_toNat, gOf_toNat] at hbad
    exact refuses_of (exec_outcome exec_deqq (if_pos ((deqqRefused_iff ..).mpr hbad)))
  case deqq =>
    rw [gOf_toNat] at hb hc hva
    refine atPlace_of (exec_outcome exec_deqq (if_neg fun hn => (deqqRefused_iff ..).mp hn ⟨hb, hc, hva⟩)) fun u spans he hr => ?_
    have he := exec_outcome he (atCommitPoint_of_ready hr)
    refine ⟨fun hno => retries_of (exec_outcome he (if_pos hno)), fun hx hh b t hread => ?taken⟩
    have he := exec_outcome he (if_neg (not_or.mpr ⟨hx, Bool.eq_false_iff.mp hh⟩))
    simp only [← gOf_toNat, hread, gives, BitVec.ofNat_toNat, BitVec.setWidth_eq] at he
    exact executes_of he
  case tailBad => exact refuses_of (exec_outcome exec_tailw (if_pos (by rw [gOf_toNat] at ha; omega)))
  case tail =>
    rw [gOf_toNat] at ha hm
    have he := exec_outcome (exec_tailw (h := h) (ra := ra) (rb := rb) (s := s)) ((if_neg (by omega)).trans (if_neg ?_))
    · rw [ofNat_readG] at he
      exact defers_of he
    · rw [tailModule_eq ha, deadRoute_iff]
      rintro ⟨hne, hd⟩
      obtain ⟨hc, hk⟩ := hm.resolve_left hne
      exact hd.elim (not_lt.mpr hk) fun hn => Bool.eq_false_iff.mp hn hc
  case tailDead =>
    rw [gOf_toNat] at ha hm hd
    have he := exec_outcome (exec_tailw (h := h) (ra := ra) (rb := rb) (s := s)) ((if_neg (by omega)).trans (if_pos ?_))
    · rw [tailModule_eq ha] at he
      exact faults_of he
    · rw [tailModule_eq ha, deadRoute_iff]
      exact ⟨hm, hd.symm⟩
  case digestBad =>
    rw [gOf_toNat, gOf_toNat, ← queueOk_iff] at hbad
    exact refuses_of (exec_outcome exec_digest (if_pos (by simpa [imp_iff_not_or] using hbad)))
  case digest =>
    rw [gOf_toNat, ← queueOk_iff] at hn
    rw [gOf_toNat] at hva
    exact atPlace_of (exec_outcome exec_digest (if_neg (by simp [hn, hva]))) fun u spans he => executes_of he

end Sys2Proof.Machine
end

section
/-! Requests with a reply and CFGRD.take of a pump core (R230, R231, R233, R242 to R248, R255, R256, R380): the statement
of O38. -/

namespace Sys2Proof.Machine

open Spec

variable {i : Instr} {h : Skip} {s : State}

/-- A request whose operands the model's test allows just where the statement does (R230, R231). -/
theorem asks_of {ok : Bool} {P : Prop} {kind variant : Nat} {tag : BitVec 16} {a b c : BitVec 64} (hP : ok = true ↔ P)
    (he : exec i s = asks h (opOf i) s ok kind variant tag a.toNat b.toNat c.toNat) :
    Asks h i s P kind variant tag a b c := by
  simp only [asks, BitVec.ofNat_toNat, BitVec.setWidth_eq] at he
  refine ⟨fun hroom => retries_of (exec_outcome he (if_pos (by simp [hroom]))), fun hroom hno => ?refused, fun hroom hok => ?held⟩
  all_goals have he := exec_outcome he (if_neg (by simp [hroom]))
  case refused => exact refuses_of (exec_outcome he (if_pos (by simpa using mt hP.mp hno)))
  case held => exact defers_of (exec_outcome he (if_neg (by simp [hP.mpr hok])))

theorem actorPrivileged_iff (s : State) : actorPrivileged s = true ↔ coreCtx s s.actor.core = 0 := beq_iff_eq

/-- A place in the configuration of a site of the core's context, or of any for a privileged core (R242, R243). -/
theorem addrOk_iff (s : State) (a : Nat) : addrOk s a = true ↔ a < 2 ^ 27 ∧ bits a 16 5 < 24 ∧
    (coreCtx s s.actor.core = 0 ∨ ∃ r, regionAt s (tileOfAddr a) = some r ∧ r.ctx = coreCtx s s.actor.core) := by
  have hform : a / 2 ^ 27 = 0 ↔ a < 2 ^ 27 := by omega
  simp only [addrOk, Bool.and_eq_true, Bool.or_eq_true, beq_iff_eq, decide_eq_true_eq, actorPrivileged_iff, hform,
    Option.any_eq_true, and_assoc]
  rfl

/-- The words that CRC.cfg covers lie in the configuration space of one site (R244). -/
theorem crcCfgOk_iff (ok : Bool) (a b : BitVec 64) :
    (ok && bits b.toNat 13 19 == 0 && decide (1 ≤ bits b.toNat 0 13) &&
      decide (bits a.toNat 0 16 + bits b.toNat 0 13 ≤ 0x1100)) = true ↔
    ok = true ∧ b.extractLsb' 13 19 = 0 ∧ 1 ≤ bits b.toNat 0 13 ∧ bits a.toNat 0 16 + bits b.toNat 0 13 ≤ 0x1100 := by
  simp only [Bool.and_eq_true, beq_iff_eq, decide_eq_true_eq, bits_eq_zero_iff, and_assoc]

/-- The core that RSLOAD loads: one of the partition of the core's context, or any for a privileged core (R248). -/
theorem rsloadOk_iff (s : State) (a : Nat) :
    (match coreOfHandle a with
      | some c => actorPrivileged s || inPartition s (actorCtx s) c
      | none => false) = true ↔
    ∃ c, coreOfHandle a = some c ∧ (coreCtx s s.actor.core = 0 ∨ inPartition s (coreCtx s s.actor.core) c = true) := by
  cases coreOfHandle a with
  | none => simp
  | some c =>
    simp only [Bool.or_eq_true, actorPrivileged_iff, Option.some.injEq, exists_eq_left']
    rfl

/-- The frequencies of a spine, in MHz (R255). -/
theorem spineFreqOk_iff (s : State) (a b : Nat) :
    (actorPrivileged s && a / 2 ^ 5 == 0 && b % 50 == 0 && decide (300 ≤ b) && decide (b ≤ 1500)) = true ↔
    coreCtx s s.actor.core = 0 ∧ a < 2 ^ 5 ∧ b % 50 = 0 ∧ 300 ≤ b ∧ b ≤ 1500 := by
  have hform : a / 2 ^ 5 = 0 ↔ a < 2 ^ 5 := by omega
  simp only [Bool.and_eq_true, beq_iff_eq, decide_eq_true_eq, actorPrivileged_iff, hform, and_assoc]

/-- The context whose pages PGHASH hashes: the core's own, or any for a privileged core (R380). -/
theorem pghashOk_iff (s : State) (a : Nat) : (decide (a < 64) && (actorPrivileged s || a == actorCtx s)) = true ↔
    a < 64 ∧ (coreCtx s s.actor.core = 0 ∨ a = coreCtx s s.actor.core) := by
  simp only [Bool.and_eq_true, Bool.or_eq_true, beq_iff_eq, decide_eq_true_eq, actorPrivileged_iff]
  rfl

/-- Settles O38: each request is one test of its operands behind the one test of room; CFGRD.take gives the head reply. -/
theorem requestsAsked : Obligations.RequestsAsked := by
  refine ⟨fun s h ra rb tg => ?asked, fun s h rd => ⟨fun hodd => ?takeBad, fun heven => ?take⟩⟩
  case asked =>
    intro a b own priv site
    have hown (exempt : Bool) : (ownRegion s a.toNat exempt).isSome = true ↔ own exempt := Option.isSome_iff_ne_none
    have hpriv : actorPrivileged s = true ↔ priv := actorPrivileged_iff s
    have hsite : addrOk s a.toNat = true ↔ site := addrOk_iff s a.toNat
    have hanything : true = true ↔ True := Iff.of_eq (eq_self true)
    exact ⟨asks_of hsite exec_cfgw, asks_of hsite exec_cfgrdReq, fun key => asks_of hanything exec_cfgsig,
      asks_of ((crcCfgOk_iff ..).trans (and_congr_left' hsite)) exec_crcCfg, fun k => asks_of (hown true) exec_prime,
      asks_of (hown true) exec_freeze, asks_of (hown true) exec_freezeStroke, asks_of (hown true) exec_thaw,
      asks_of ((Bool.and_eq_true ..).to_iff.trans (and_congr (hown true) beq_iff_eq)) exec_imgoutMem, asks_of (hown true) exec_imgoutShadow,
      asks_of (hown true) exec_imgoutBack, asks_of (rsloadOk_iff ..) exec_rsload, asks_of (spineFreqOk_iff ..) exec_spineFreq,
      asks_of ((Bool.and_eq_true ..).to_iff.trans (and_congr (hown false) decide_eq_true_iff)) exec_spineSel, asks_of hpriv exec_migrMove,
      asks_of hanything exec_migrOut, asks_of beq_iff_eq exec_migrIn, asks_of (pghashOk_iff ..) exec_pghash⟩
  case takeBad => exact refuses_of (exec_outcome exec_cfgrdTake (if_pos hodd))
  case take =>
    have he := exec_outcome (exec_cfgrdTake (h := h) (rd := rd) (s := s)) (if_neg (by omega))
    simp only [Bool.or_eq_true, List.contains_iff_mem, List.isEmpty_iff] at he
    exact executes_of he

end Sys2Proof.Machine
end

section
/-! TLBI and the system registers of a pump core (R256 to R259, R313): the statement of O40. -/

namespace Sys2Proof.Machine

open Spec

variable {i : Instr} {h : Skip} {s : State}

/-! ### TLBI (R256, R314) -/

/-- Each step of TLBI, by the shoot-down that its lane has under way. -/
theorem shoots_of {what : Scope_} (he : exec i s = pumpStep h (opOf i) s (tlbi s what)) : Shoots h i s what := by
  intro hc
  have he := exec_outcome he (atCommitPoint_of_ready hc)
  refine ⟨fun hn => ?starts, fun x hx hw => ?waits, fun x hx hd => ?ends⟩
  case starts =>
    rw [hn] at he
    exact waits_of he
  all_goals rw [hx] at he
  case waits => exact waits_of (exec_outcome he (if_neg (by simp [hw])))
  case ends => exact executes_of (exec_outcome he (if_pos hd))

/-! ### SYSR (R257, R258) -/

/-- The registers that SYSR leaves as they are. -/
theorem sysr_reads {rd : Reg} {k : Nat} {v : BitVec 64} (hk : k < 2 ^ 12) (h2 : k ≠ 2) (h4 : k ≠ 4)
    (hv : BitVec.ofNat 64 (sysRead s s.actor.core k) = v) :
    Executes h (.sysr h rd (BitVec.ofNat 12 k)) s [(rd.val, v)] [] [] 0 s := by
  have hidx : (BitVec.ofNat 12 k).toNat = k := Nat.mod_eq_of_lt hk
  have hclears : sysClears s k = [] := by simp [sysClears]
  have he := exec_sysr (h := h) (rd := rd) (sidx := BitVec.ofNat 12 k) (s := s)
  simp only [execSysr, hidx, hv, hclears] at he
  exact executes_of he

/-- An act that a body holds already is not held again. -/
theorem filter_held (acts : List CommitAct) (a : CommitAct) :
    ([a].filter fun a => !acts.contains a) = if a ∈ acts then [] else [a] := by
  split <;> simp_all

/-- FLTREC and NOVF are cleared at the commit of what was read (R258). -/
theorem sysr_clears {rd : Reg} {k : Nat} {v : BitVec 64} {a : CommitAct} (hk : k < 2 ^ 12)
    (hv : BitVec.ofNat 64 (sysRead s s.actor.core k) = v)
    (ha : sysClears s k = [a].filter fun a => !(bodyLane s).acts.contains a) :
    Executes h (.sysr h rd (BitVec.ofNat 12 k)) s [(rd.val, v)] [] (if a ∈ (bodyLane s).acts then [] else [a]) 0 s := by
  have hidx : (BitVec.ofNat 12 k).toNat = k := Nat.mod_eq_of_lt hk
  have he := exec_sysr (h := h) (rd := rd) (sidx := BitVec.ofNat 12 k) (s := s)
  simp only [execSysr, hidx, hv, ha, filter_held] at he
  exact executes_of he

/-- The registers from 0x10 on: the windows, and the fused words of the four dies. -/
theorem sysRead_high (s : State) (cn : Nat) {k : Nat} (hk : 0x10 ≤ k) : sysRead s cn k =
    if 0x10 ≤ k ∧ k < 0x20 then ((s.core cn).wins.toList.getD ((k - 0x10) / 4) {}).reg (k % 4)
    else bits (s.fused.toList.getD ((k - 0x40) / 6) 0).toNat (64 * ((k - 0x40) % 6)) 64 := by
  unfold sysRead
  split
  case h_10 => rfl
  all_goals omega

theorem sysRead_window (s : State) (cn : Nat) (w : Fin 4) {k : Nat} (hk : k < 3) :
    sysRead s cn (0x10 + 4 * w.val + k) = ((s.core cn).wins[w]).reg k := by
  have hw := w.isLt
  have hno : (0x10 + 4 * w.val + k - 0x10) / 4 = w.val := by omega
  have hreg : (0x10 + 4 * w.val + k) % 4 = k := by omega
  rw [sysRead_high _ _ (by omega), if_pos (by omega), hno, hreg, vector_getD_toList]

theorem sysRead_fused (s : State) (cn : Nat) (d : Fin 4) {k : Nat} (hk : k < 6) :
    sysRead s cn (0x40 + 6 * d.val + k) = bits (s.fused[d]).toNat (64 * k) 64 := by
  have hdie : (0x40 + 6 * d.val + k - 0x40) / 6 = d.val := by omega
  have hword : (0x40 + 6 * d.val + k - 0x40) % 6 = k := by omega
  rw [sysRead_high _ _ (by omega), if_neg (by omega), hdie, hword, vector_getD_toList]

theorem windowReg_eq (c : Core) (w : Fin 4) (k : Nat) : BitVec.ofNat 64 ((c.wins[w]).reg k) = windowReg c w k := by
  unfold Window.reg windowReg
  split <;> simp

/-! ### SYSW (R259) -/

/-- The bits of BQUEUE that SYSW writes. -/
theorem bqueueWord_eq (v : BitVec 64) : bqueueWord v.toNat = v &&& 0x80000000000003FF := by
  have hmask : ∀ k < 64, (0x80000000000003FF : BitVec 64).getLsbD k = (decide (k < 10) || decide (k = 63)) := by decide
  have hword : bqueueWord v.toNat = v.extractLsb' 63 1 ++ (0 : BitVec 53) ++ v.extractLsb' 0 10 := by
    apply BitVec.eq_of_toNat_eq
    have hlow := (v.extractLsb' 0 10).isLt
    have hbit := (v.extractLsb' 63 1).isLt
    have hzero : (0 : BitVec 53).toNat = 0 := rfl
    simp only [bqueueWord, bits_eq_extractLsb', toNat_append_eq_add, BitVec.toNat_ofNat, hzero]
    omega
  rw [hword]
  apply BitVec.eq_of_getLsbD_eq
  intro k hk
  simp only [BitVec.getLsbD_and, hmask k hk, BitVec.getLsbD_append, BitVec.getLsbD_extractLsb']
  rcases lt_trichotomy k 63 with h | rfl | h
  · by_cases h10 : k < 10
    · simp [h10]
    · have h63 : k ≠ 63 := h.ne
      have h53 : k - 10 < 53 := by omega
      simp [h10, h53, h63]
  · simp
  · omega

/-- A privileged core may write a window: where the window is enabled, an aligned power of two from 64 KiB to 256 TiB
(R259). -/
theorem windowOk_iff (s : State) (x : Window) : let log2 := (x.ctl.extractLsb' 2 6).toNat
    (actorPrivileged s && x.ok) = true ↔ coreCtx s s.actor.core = 0 ∧ x.tgt.extractLsb' 52 12 = 0 ∧ x.ctl.extractLsb' 8 56 = 0 ∧
      (x.ctl.getLsbD 0 = true → 16 ≤ log2 ∧ log2 ≤ 48 ∧ x.base.toNat % 2 ^ log2 = 0 ∧ x.tgt.toNat % 2 ^ log2 = 0) := by
  simp only [Window.ok, Window.enabled, Window.size, Bool.and_eq_true, Bool.or_eq_true, Bool.not_eq_true', ← Bool.not_eq_true,
    beq_iff_eq, decide_eq_true_eq, bits_eq_zero_iff, imp_iff_not_or, and_assoc, actorPrivileged_iff]
  rw [bits_eq_extractLsb']

theorem exec_sysw_bqueue (s : State) (h : Skip) (rb : Reg) : exec (.sysw h 5 rb) s = pumpStep h 0xC1 s
    (if (!(bits (gOf s rb).toNat 63 1 == 0 || (s.queue (bits (gOf s rb).toNat 0 10)).ctx.toNat == actorCtx s)) = true
      then operandFault s else defers s (.sysw 5 (bqueueWord (gOf s rb).toNat))) := exec_sysw

/-- The queue that BQUEUE names belongs to the context of the core (R257). -/
theorem bqueueOk_iff (s : State) (v : BitVec 64) :
    (bits v.toNat 63 1 == 0 || (s.queue (bits v.toNat 0 10)).ctx.toNat == actorCtx s) = true ↔
    (v.getLsbD 63 = true → (s.queue (v.toNat % 2 ^ 10)).ctx.toNat = coreCtx s s.actor.core) := by
  have hbit : ¬ v.getLsbD 63 = true ↔ bits v.toNat 63 1 = 0 := by
    rw [← bits_one_eq_one_iff, bits]
    omega
  simp only [Bool.or_eq_true, beq_iff_eq, imp_iff_not_or, hbit, bits_zero]
  rfl

/-- A window register is written by a privileged core alone, with a value that leaves its window in order (R259). -/
theorem exec_sysw_window (s : State) (h : Skip) (rb : Reg) (w : Fin 4) {k : Nat} (hk : k < 3) :
    let idx := 0x10 + 4 * w.val + k
    let x := (((withOwnWindows (s.core s.actor.core) (bodyLane s)).setWindow idx (gOf s rb)).wins[w])
    exec (.sysw h (BitVec.ofNat 12 idx) rb) s = pumpStep h 0xC1 s
      (if (!(actorPrivileged s && x.ok)) = true then operandFault s else defers s (.sysw idx (gOf s rb))) := by
  have hw := w.isLt
  intro idx x
  have hidx : (BitVec.ofNat 12 idx).toNat = idx := Nat.mod_eq_of_lt (by omega)
  have hno : (idx - 0x10) / 4 = w.val := by omega
  have hlo : 0x10 ≤ idx := by omega
  have hhi : idx < 0x20 := by omega
  have h5 : idx ≠ 5 := by omega
  rw [exec_sysw]
  simp only [execSysw, hidx, hno, vector_getD_toList, h5, if_false, hlo, hhi, decide_true, Bool.true_and, ofNat_readG]
  rfl

/-- Settles O40: TLBI by its shoot-down, SYSR register by register, SYSW by what it writes. -/
theorem translationsAndRegisters : Obligations.TranslationsAndRegisters := by
  refine ⟨fun s h ra => ⟨fun c v hr => ?range, fun hr => ?page⟩, fun s h => shoots_of exec_tlbiCtx,
    fun s h hp => shoots_of (exec_outcome exec_tlbiAll (if_pos ((actorPrivileged_iff s).mpr hp))),
    fun s h hp => refuses_of (exec_outcome exec_tlbiAll (if_neg (mt (actorPrivileged_iff s).mp hp))),
    fun s h rd => ?sysr, fun s h rb => ⟨fun hok => ?bqueue, fun hno => ?bqueueBad⟩,
    fun s h rb w k hk => ⟨fun hok => ?window, fun hno => ?windowBad⟩⟩
  case range =>
    rw [gOf_toNat] at hr
    have he := exec_tlbiPage (h := h) (ra := ra) (s := s)
    simp only [execTlbiPage, hr] at he
    exact faults_of he
  case page =>
    rw [gOf_toNat] at hr
    have he := exec_tlbiPage (h := h) (ra := ra) (s := s)
    simp only [execTlbiPage, hr] at he
    exact shoots_of he
  case sysr =>
    intro cn c reads clears
    have hself {n : Nat} {x : BitVec n} : BitVec.ofNat n x.toNat = x := by simp
    have hclock : BitVec.ofNat 64 (s.nstime % 2 ^ 64) = BitVec.ofNat 64 s.nstime := BitVec.eq_of_toNat_eq (by simp)
    have window (w : Fin 4) (k : Nat) (hk : k < 3) : reads (0x10 + 4 * w.val + k) (windowReg c w k) :=
      sysr_reads (by omega) (by omega) (by omega) (by rw [sysRead_window s cn w hk, windowReg_eq])
    have fused (d : Fin 4) (k : Nat) (hk : k < 6) : reads (0x40 + 6 * d.val + k) (s.fused[d].extractLsb' (64 * k) 64) :=
      sysr_reads (by omega) (by omega) (by omega) (by rw [sysRead_fused s cn d hk, ofNat_bits])
    exact ⟨sysr_reads (by decide) (by decide) (by decide) rfl, sysr_reads (by decide) (by decide) (by decide) rfl,
      sysr_clears (by decide) hself rfl, sysr_reads (by decide) (by decide) (by decide) hself,
      sysr_clears (by decide) rfl rfl, sysr_reads (by decide) (by decide) (by decide) hself,
      sysr_reads (by decide) (by decide) (by decide) hself, sysr_reads (by decide) (by decide) (by decide) hclock,
      sysr_reads (by decide) (by decide) (by decide) rfl, window, fused⟩
  case bqueue =>
    have he := exec_outcome (exec_sysw_bqueue s h rb) (if_neg (by rw [(bqueueOk_iff ..).mpr hok]; exact Bool.false_ne_true))
    rw [bqueueWord_eq] at he
    exact defers_of he
  case bqueueBad =>
    exact refuses_of (exec_outcome (exec_sysw_bqueue s h rb) (if_pos (by simpa using mt (bqueueOk_iff ..).mp hno)))
  case window =>
    have hx := (windowOk_iff s _).mpr hok
    exact defers_of (exec_outcome (exec_sysw_window s h rb w hk) (if_neg (by rw [hx]; exact Bool.false_ne_true)))
  case windowBad =>
    have hx := mt (windowOk_iff s _).mp hno
    exact refuses_of (exec_outcome (exec_sysw_window s h rb w hk) (if_pos (by simpa only [Bool.not_eq_true', Bool.not_eq_true] using hx)))

end Sys2Proof.Machine
end

section
/-! LAUNCH, KSTAT and REGION of a pump core (R232, R238, R241, R260, R277): the statement of O36. -/

namespace Sys2Proof.Machine

open Spec

variable {s : State}

/-- A kernel that LAUNCH may release: PRIMED, with no prime under way (R238, R277). -/
theorem notPrimed_iff (r : Region) :
    (r.kernel != .primed || r.priming.isSome) = true ↔ ¬ (r.kernel = .primed ∧ r.priming = none) := by
  rw [Bool.or_eq_true, bne_iff_ne, Option.isSome_iff_ne_none, not_and_or]

/-- A record that LAUNCH takes: one of a kernel, in form for its context, at a level that the image allows (R238). -/
theorem malformed_iff (level imageLevel : Nat) (b : List Byte) :
    (Rec.type b ≠ 0 ∨ (!recordOk level b) = true ∨ imageLevel < Rec.level b) ↔
    ¬ (Rec.type b = 0 ∧ recordOk level b = true ∧ Rec.level b ≤ imageLevel) := by
  rw [not_and_or, not_and_or, not_le, Bool.not_eq_true', Bool.not_eq_true]

/-- A region that is not of the core's context (R231, R238). -/
theorem foreign_iff (s : State) (a : Nat) : ((regionOfHandle s a).isSome && (ownRegion s a false).isNone) = true ↔
    regionOfHandle s a ≠ none ∧ ownRegion s a false = none := by
  rw [Bool.and_eq_true, Option.isSome_iff_ne_none, Option.isNone_iff_eq_none]

/-- A handle of the generation that its region now has (R241). -/
theorem handleCurrent_iff (s : State) (a : Nat) : handleCurrent s a = true ↔
    a < 2 ^ 26 ∧ a / 2 ^ 10 = genOf s (regionKey (a % 4) (a / 4 % 2 ^ 8)) := by
  have hform : a / 2 ^ 26 = 0 ↔ a < 2 ^ 26 := by omega
  have hdie : bits a 0 2 = a % 4 := bits_zero a 2
  have hid : bits a 2 8 = a / 4 % 2 ^ 8 := rfl
  simp only [handleCurrent, Bool.and_eq_true, beq_iff_eq, hform, hdie, hid]
  refine and_congr_right fun ha => ?_
  rw [bits, Nat.mod_eq_of_lt (by omega)]

theorem kernelStatus_of_none {a : Nat} (h : regionOfHandle s a = none) :
    kernelStatus s a = if handleCurrent s a = true then 7 else 2 ^ 17 := by
  simp only [kernelStatus, h, Option.bind_none]
  rfl

/-- A region whose kernel keeps it from being freed (R241). -/
theorem busy_iff (r : Region) : (r.kernel == .primed || r.kernel == .firing || r.kernel == .draining) = true ↔
    r.kernel = .primed ∨ r.kernel = .firing ∨ r.kernel = .draining := by
  simp only [Bool.or_eq_true, beq_iff_eq, or_assoc]

/-- Settles O36: the region is named first; then LAUNCH looks at its kernel and at the record, KSTAT at the handle, REGION
at the place or at the kernel. -/
theorem kernelInstructions : Obligations.KernelInstructions := by
  refine ⟨fun s h rd ra rb => ⟨fun hno => ?launchBad, fun key hkey => ?launch⟩,
    fun s h rd ra => ⟨fun hbad => ?kstatBad, fun ha hf => ?kstat⟩, fun s a hno => ⟨fun hc => ?current, fun hc => ?stale⟩,
    fun s h rd ra => ⟨fun ha => ?allocBad, fun ha hr => ?alloc⟩,
    fun s h rd ra => ⟨fun hno => ?freeBad, fun key r hkey hr hready => ?free⟩⟩
  case launchBad =>
    rw [gOf_toNat] at hno
    have he := exec_launch (h := h) (rd := rd) (ra := ra) (rb := rb) (s := s)
    simp only [execLaunch, hno] at he
    exact refuses_of he
  case launch =>
    rw [gOf_toNat] at hkey
    have he := exec_launch (h := h) (rd := rd) (ra := ra) (rb := rb) (s := s)
    simp only [execLaunch, hkey] at he
    refine atOperand_of he fun u b he r hr => ?_
    simp only [hr, notPrimed_iff, malformed_iff] at he
    refine ⟨fun hp => executes_of (exec_outcome he (if_pos hp)), fun hp hf => ?malformed, fun hp hf bs t hz => ?released⟩
    all_goals have he := exec_outcome he (if_neg (not_not.mpr hp))
    case malformed => exact executes_of (exec_outcome he (if_pos hf))
    case released =>
      have he := exec_outcome he (if_neg (not_not.mpr hf))
      rw [hz] at he
      exact executes_of he
  case kstatBad =>
    rw [gOf_toNat, ← foreign_iff] at hbad
    exact refuses_of (exec_outcome exec_kstat (if_pos (hbad.imp_left fun ha => by omega)))
  case kstat =>
    rw [gOf_toNat] at ha
    rw [gOf_toNat, ← foreign_iff] at hf
    exact answers_of (exec_outcome exec_kstat (if_neg (not_or.mpr ⟨by omega, hf⟩)))
  case current => rw [kernelStatus_of_none hno, if_pos ((handleCurrent_iff s a).mpr hc)]
  case stale => rw [kernelStatus_of_none hno, if_neg (mt (handleCurrent_iff s a).mp hc)]
  case allocBad =>
    rw [gOf_toNat] at ha
    exact refuses_of (exec_outcome exec_regionAlloc (if_pos (by omega)))
  case alloc =>
    rw [gOf_toNat] at ha
    have he := exec_outcome (exec_regionAlloc (h := h) (rd := rd) (ra := ra) (s := s)) (if_neg (by omega))
    have he := exec_outcome he (atCommitPoint_of_ready hr)
    refine ⟨fun key t hok => ?placed, fun n hno => ?refused⟩
    case placed =>
      rw [show allocRegion s (actorCtx s) (readG s ra) = _ from hok] at he
      exact executes_of he
    case refused =>
      rw [show allocRegion s (actorCtx s) (readG s ra) = _ from hno] at he
      exact answers_of he
  case freeBad =>
    rw [gOf_toNat] at hno
    have he := exec_regionFree (h := h) (rd := rd) (ra := ra) (s := s)
    simp only [execRegionFree, hno] at he
    exact refuses_of he
  case free =>
    rw [gOf_toNat] at hkey
    have he := exec_regionFree (h := h) (rd := rd) (ra := ra) (s := s)
    simp only [execRegionFree, hkey] at he
    have he := exec_outcome he (atCommitPoint_of_ready hready)
    simp only [hr, Option.any_some, busy_iff] at he
    exact ⟨fun hb => answers_of (exec_outcome he (if_pos hb)), fun hb => executes_of (exec_outcome he (if_neg hb))⟩

end Sys2Proof.Machine
end

section
/-! Requests served and answered (R233, R242 to R247, R256, R371): the statement of O39. -/

namespace Sys2Proof.Machine

open Spec

variable {s : State}

/-! ### Replies (R233) -/

theorem replyWord_eq (o : Owed) (code info : Nat) (hk : o.kind < 2 ^ 7) :
    BitVec.ofNat 64 (2 ^ 63 + o.kind * 2 ^ 56 + code % 256 * 2 ^ 48 + o.tag.toNat * 2 ^ 32 + info % 2 ^ 32) =
      replyWord o code info := by
  have htag := o.tag.isLt
  have hvalid : (1 : BitVec 1).toNat = 1 := rfl
  apply BitVec.eq_of_toNat_eq
  simp only [replyWord, toNat_append_eq_add, BitVec.toNat_ofNat, hvalid]
  omega

theorem replyTo_eq (s : State) (o : Owed) (code info data : Nat) (hk : o.kind < 2 ^ 7) :
    replyTo s o code info data = s.modCore o.core fun c => { c with cfgOut := c.cfgOut.map fun q =>
      if q.no = o.no ∧ q.reply = none then
        { q with waits := false, reply := some ⟨replyWord o code info, BitVec.ofNat 64 data⟩ } else q } := by
  simp only [replyTo, replyWord_eq o code info hk, Option.isNone_iff_eq_none]

/-- The next reply is that of a request with none before it for the same target. -/
theorem nextReply_first {qs : List CfgReq} {q : CfgReq} (h : nextReply qs = some q) :
    q ∈ qs ∧ q.reply ≠ none ∧ ∀ x ∈ qs, x.no < q.no → x.target ≠ q.target := by
  have hfirst := List.find?_some h
  rw [Bool.and_eq_true, Option.isSome_iff_ne_none, List.all_eq_true] at hfirst
  obtain ⟨hreply, hall⟩ := hfirst
  refine ⟨List.mem_of_find?_eq_some h, hreply, fun x hx hlt => ?_⟩
  simpa [not_le.mpr hlt] using hall x hx

/-- The next reply enters the core's queue, and event 7 is latched. -/
theorem exec_configReplyArrival_reply {core : Nat} {q : CfgReq} {r : CfgReply} (hq : nextReply (s.core core).cfgOut = some q)
    (hr : q.reply = some r) : exec (.configReplyArrival core) s = .next (s.setCore core { s.core core with
      cfgOut := (s.core core).cfgOut.filter fun x => x.no != q.no
      replies := (s.core core).replies ++ [r], events := (s.core core).events ||| 0x80 }) := by
  rw [exec_configReplyArrival]
  simp only [execConfigReplyArrival, hq, hr, Option.toList_some]

/-- Without a reply at hand, a request that waits is served where none stands before it for its target. -/
theorem exec_configReplyArrival_serves {core : Nat} {q : CfgReq} (hn : nextReply (s.core core).cfgOut = none)
    (hq : (s.core core).cfgOut.find? (fun q => q.waits && !behindAnother s q) = some q) :
    exec (.configReplyArrival core) s = .next (tryServe s core q) := by
  rw [exec_configReplyArrival]
  simp only [execConfigReplyArrival, hn, hq]

/-! ### Words of a configuration (R242, R243) -/

theorem wordLocked_iff (s : State) (t : Nat) : wordLocked s t = true ↔ ∃ r, regionAt s t = some r ∧ r.frozen = false ∧
    (r.kernel = .primed ∨ r.kernel = .firing ∨ r.kernel = .draining) := by
  simp only [wordLocked, Option.any_eq_true, Bool.and_eq_true, Bool.not_eq_true', busy_iff]

/-- A CFGW that is refused is answered with its code and writes nothing. -/
theorem serveCfgw_refused {o : Owed} {a b n : Nat} (hc : cfgwCode s (tileOfAddr a) (bits a 0 16) = n) (hn : n ≠ 0) :
    serveCfgw s o a b = .done (replyTo s o n 0 0) := by
  simp only [serveCfgw, hc, if_neg hn, replied]

theorem serveCfgw_written {o : Owed} {a b : Nat} (hc : cfgwCode s (tileOfAddr a) (bits a 0 16) = 0) :
    serveCfgw s o a b = .done (replyTo (cfgPut s (tileOfAddr a) (bits a 0 16) b) o 0 0 0) := by
  simp only [serveCfgw, hc, if_true, replied]

section
variable {t w : Nat} (hp : present s t = true)
include hp

theorem cfgwCode_reserved (hr : cfgPlace w = .reserved) : cfgwCode s t w = 0x0A := by
  simp [cfgwCode, hp, hr]

theorem cfgwCode_locked (hr : cfgPlace w ≠ .reserved) (hw : (cfgPlace w).notWritten = false) (hl : wordLocked s t = true) :
    cfgwCode s t w = 2 := by
  simp [cfgwCode, hp, hr, hw, hl]

theorem cfgwCode_free (hr : cfgPlace w ≠ .reserved) (hf : (cfgPlace w).notWritten = true ∨ wordLocked s t = false) :
    cfgwCode s t w = 0 := by
  have hfree : (!(cfgPlace w).notWritten && wordLocked s t) = false := by
    rcases hf with hf | hf <;> simp [hf]
  simp [cfgwCode, hp, hr, hfree]

end

theorem cfgwCode_absent {t w : Nat} (hp : present s t = false) : cfgwCode s t w = 1 := by simp [cfgwCode, hp]

/-! ### Requests of a region (R244 to R247) -/

theorem atRegion_of_none {o : Owed} {h info : Nat} {k : Nat → Region → Served} (hh : regionOfHandle s h = none) :
    atRegion s o h info k = .done (replyTo s o 2 info 0) := by
  simp only [atRegion, hh, replied]

theorem atRegion_of_some {o : Owed} {h info key : Nat} {r : Region} {k : Nat → Region → Served}
    (hh : regionOfHandle s h = some key) (hr : s.region key = some r) : atRegion s o h info k = k key r := by
  simp only [atRegion, hh, hr]

/-- Settles O39: a reply in the order of its target, a word written or refused, a region primed, frozen or thawed. -/
theorem requestsServed : Obligations.RequestsServed := by
  refine ⟨fun s o code info data => replyTo_eq s o code info data, fun s core q hq => ?arrives,
    fun s core q => exec_configReplyArrival_serves, fun qs q => nextReply_first, fun s cn q hb => if_pos hb,
    fun s o a b => ?words, wordLocked_iff, fun s o h key r hh hr => ?named, fun s o h hh => ?unnamed⟩
  case arrives =>
    obtain ⟨-, hreply, -⟩ := nextReply_first hq
    obtain ⟨r, hr⟩ := Option.ne_none_iff_exists'.mp hreply
    exact ⟨r, hr, exec_configReplyArrival_reply hq hr⟩
  case words =>
    refine ⟨fun hp => serveCfgw_refused (cfgwCode_absent hp) (by decide),
      fun hp hr => serveCfgw_refused (cfgwCode_reserved hp hr) (by decide),
      fun hp hr hw hl => serveCfgw_refused (cfgwCode_locked hp hr hw hl) (by decide),
      fun hp hr hf => serveCfgw_written (cfgwCode_free hp hr hf), fun hp => if_pos (by simp [hp]), fun hp => if_neg (by simp [hp])⟩
  case named =>
    refine ⟨fun k hk => (atRegion_of_some hh hr).trans (if_pos hk), fun k hk => (atRegion_of_some hh hr).trans (if_neg (by simp [hk])),
      fun hf => (atRegion_of_some hh hr).trans (if_pos hf), fun hf hk => (atRegion_of_some hh hr).trans ?freezing,
      fun hf hk => (atRegion_of_some hh hr).trans (if_pos ?strokeEnds), fun hno => (atRegion_of_some hh hr).trans (if_neg ?noStroke),
      fun hq hm hl => (atRegion_of_some hh hr).trans (if_neg (by simp [hq, hm, hl])),
      fun hf v va => (atRegion_of_some hh hr).trans (if_pos (by simp [hf]))⟩
    case freezing => exact (if_neg (by simp [hf])).trans (if_pos hk)
    case strokeEnds => rw [Bool.and_eq_true, firing_iff]; exact ⟨by simp [hf], hk⟩
    case noStroke =>
      rw [Bool.and_eq_true, firing_iff]
      rintro ⟨hf, hk⟩
      rcases hno with hno | ⟨hfiring, hdraining⟩
      · simp [hno] at hf
      · exact hk.elim hfiring hdraining
  case unnamed =>
    exact ⟨fun k => atRegion_of_none hh, atRegion_of_none hh, atRegion_of_none hh, atRegion_of_none hh, fun v va => atRegion_of_none hh⟩

end Sys2Proof.Machine
end

section
/-! Shoot-downs, migrations and poisoned pages (R256, R307, R312 to R314): the first part of the statement of O50. -/

namespace Sys2Proof.Machine

open Spec

variable {s : State}

/-! ### Shoot-downs (R314) -/

theorem Shoot.done_iff (s : State) (h : Shoot) : h.done s = true ↔
    h.cores = [] ∧ h.queued = [] ∧ ∀ i ∈ h.stores, ∀ p ∈ s.regions, ∀ x ∈ p.2.stores, x.id ≠ i := by
  simp only [Shoot.done, Bool.and_eq_true, List.isEmpty_iff, List.all_eq_true, bne_iff_ne, and_assoc]

theorem exec_shootdownComplete_completes {id : Nat} {h : Shoot} (hf : s.shoots.find? (fun h => h.id == id) = some h)
    (ha : h.acked = false) (hd : h.done s = true) : let u := advanceEpochs s
    exec (.shootdownComplete id) s = .next (if h.kind = .poison ∨ h.kind = .into ∨ (h.kind = .tlbi ∧ h.owed = none)
      then { u with shoots := s.shoots.filter fun x => x.id != id }
      else { u with shoots := s.shoots.map fun x => if x.id = id then { x with acked := true } else x }) := by
  intro u
  have hgone : (h.kind == .poison || h.kind == .into || (h.kind == .tlbi && h.owed.isNone)) = true ↔
      h.kind = .poison ∨ h.kind = .into ∨ (h.kind = .tlbi ∧ h.owed = none) := by
    simp only [Bool.or_eq_true, Bool.and_eq_true, beq_iff_eq, Option.isNone_iff_eq_none, or_assoc]
  rw [exec_shootdownComplete, execShootdownComplete, hf]
  simp only [ha, hd, hgone, Bool.not_true, Bool.or_self, Bool.false_eq_true, if_false]
  split <;> rfl

theorem exec_shootdownComplete_waits {id : Nat} {h : Shoot} (hf : s.shoots.find? (fun h => h.id == id) = some h)
    (hw : h.acked = true ∨ h.done s = false) : exec (.shootdownComplete id) s = .next s := by
  rw [exec_shootdownComplete, execShootdownComplete, hf]
  exact if_pos (by simpa using hw)

/-- A core that has acknowledged is not waited for again. -/
theorem not_mem_cores_ackShoots (s : State) (c : Nat) : ∀ h ∈ (ackShoots s c).shoots, c ∉ h.cores := by
  intro h hh
  simp only [ackShoots, List.mem_map] at hh
  obtain ⟨x, -, rfl⟩ := hh
  split
  · simp
  · next hc => simpa using hc

theorem kget_noteQueued (s : State) (c : Nat) (h : Shoot) : kget (h.noteQueued s c).queued c 0 =
    if (s.core c).storeQ = [] then kget h.queued c 0 else (s.core c).storeQ.length := by
  unfold Shoot.noteQueued
  cases (s.core c).storeQ <;> simp

theorem Shoot.performed_of_le {c i : Nat} {h : Shoot} (hi : kget h.queued c 0 ≤ i) : h.performed c i = h := by
  unfold Shoot.performed
  split
  · rfl
  · exact if_pos (by omega)

theorem kget_kdel_same {α : Type} (m : KMap α) (k : Nat) (d : α) : kget (kdel m k) k d = d := by
  have hnone : kfind (kdel m k) k = none := kfind_eq_none fun p hp => by simpa using (List.mem_filter.mp hp).2
  rw [kget, hnone, Option.getD_none]

theorem Shoot.performed_of_lt {c i : Nat} {h : Shoot} (hi : i < kget h.queued c 0) :
    kget (h.performed c i).queued c 0 = kget h.queued c 0 - 1 := by
  unfold Shoot.performed
  split
  · omega
  · next n hn =>
    rw [if_neg (by omega), hn, Nat.succ_sub_one]
    by_cases h0 : n = 0
    · rw [if_pos h0, kget_kdel_same, h0]
    · rw [if_neg h0, kget_kput_same]

/-- The epochs of the four dies and of S0 advance together. -/
theorem kget_advanceEpochs (s : State) {d : Nat} (hd : d < 5) :
    kget (advanceEpochs s).epochs d 0 = kget s.epochs d 0 + 1 := by
  have hfive : List.range 5 = [0, 1, 2, 3, 4] := rfl
  simp only [advanceEpochs, hfive, List.foldl_cons, List.foldl_nil, kget_kput]
  interval_cases d <;> rfl

/-! ### Poisoned pages (R307) -/

theorem bits_one_eq_one_iff_testBit (v n : Nat) : bits v n 1 = 1 ↔ v.testBit n = true := by
  rw [Nat.testBit_eq_decide_div_mod_eq, decide_eq_true_eq, bits, pow_one]

theorem bits_one_eq_zero_iff_testBit (v n : Nat) : bits v n 1 = 0 ↔ v.testBit n = false := by
  rw [← Bool.not_eq_true, ← bits_one_eq_one_iff_testBit, bits]
  omega

theorem withBit_set {v n : Nat} (h : v.testBit n = false) : withBit v n true = v + 2 ^ n := by
  simp [withBit, (bits_one_eq_zero_iff_testBit v n).mpr h, bit]

theorem poisonPage_error {c va f : Nat} (h : leafAt s (s.ctx c).root.toNat va = .error f) : poisonPage s c va = s := by
  simp only [poisonPage, h]

/-- A page that is there, neither poisoned nor on its way, is marked and shot down. -/
theorem poisonPage_ok {c va pa v n : Nat} (h : leafAt s (s.ctx c).root.toNat va = .ok (pa, v, n)) : poisonPage s c va =
    if v.testBit 0 = false ∨ v.testBit 8 = true ∨ v.testBit 9 = true then s
    else startShoot (writeLeaf s pa (withBit v 8 true)) .poison (.page c va) none := by
  simp only [poisonPage, h, bits_one_eq_one_iff_testBit, bits_one_eq_zero_iff_testBit]

/-! ### Migrations (R312, R313) -/

theorem exec_migrComplete_in {id : Nat} {m : MigrIn} (hm : s.migrs.find? (fun m => m.id == id) = some m)
    (hs : ∀ h ∈ s.shoots, h.id ≠ id) : exec (.migrComplete id) s = .next (endMigrIn s m false) := by
  rw [exec_migrComplete]
  simp only [execMigrComplete, hm]
  rw [if_neg (by simpa using hs)]

theorem exec_migrComplete_waits {id : Nat} {m : MigrIn} (hm : s.migrs.find? (fun m => m.id == id) = some m)
    (hs : ∃ h ∈ s.shoots, h.id = id) : exec (.migrComplete id) s = .next s := by
  rw [exec_migrComplete]
  simp only [execMigrComplete, hm]
  rw [if_pos (by simpa using hs)]

/-- A leaf whose frame is changed keeps its other bits. -/
theorem withFrame_fields {leaf : Nat} (frame : Nat) (h : leaf < 2 ^ 64) :
    let x := BitVec.ofNat 64 leaf; let y := BitVec.ofNat 64 (withFrame leaf frame)
    y.extractLsb' 16 36 = (BitVec.ofNat 64 frame).extractLsb' 16 36 ∧ y.extractLsb' 0 16 = x.extractLsb' 0 16 ∧
      y.extractLsb' 52 12 = x.extractLsb' 52 12 := by
  refine ⟨?_, ?_, ?_⟩ <;> apply BitVec.eq_of_toNat_eq <;>
    simp only [← bits_eq_extractLsb', BitVec.toNat_ofNat, withFrame, leafFrame, bits] <;> omega

theorem pagesMove : PagesMove := by
  refine ⟨fun s id h => exec_shootdownComplete_completes, fun s id h => exec_shootdownComplete_waits, Shoot.done_iff,
    not_mem_cores_ackShoots, kget_noteQueued, fun c i h => Shoot.performed_of_le, fun c i h => Shoot.performed_of_lt,
    fun s d => kget_advanceEpochs s, fun s c va => ⟨fun f hf => ?unmapped, fun pa v n hok hv => ?kept, fun pa v n hok h0 h8 h9 => ?poisoned⟩,
    fun s id m hm => ⟨exec_migrComplete_waits hm, fun hs => ?comesIn⟩,
    fun s id h hm hs => ⟨fun pa log2 old new hk => ?moves, fun pa log2 old deep hk => ?goesOut⟩, fun leaf frame => withFrame_fields frame⟩
  case unmapped => rw [exec_pagePoison, execPagePoison, poisonPage_error hf]
  case kept => rw [exec_pagePoison, execPagePoison, poisonPage_ok hok, if_pos hv]
  case poisoned => rw [exec_pagePoison, execPagePoison, poisonPage_ok hok, if_neg (by simp [h0, h8, h9]), withBit_set h8]
  case comesIn =>
    have hid : m.id = id := by simpa using List.find?_some hm
    rw [exec_migrComplete_in hm hs, ← hid]
    rfl
  case moves =>
    rw [exec_migrComplete]
    simp only [execMigrComplete, hm, hs, hk]
  case goesOut =>
    rw [exec_migrComplete]
    simp only [execMigrComplete, hm, hs, hk]

end Sys2Proof.Machine
end

section
/-! Errors of the memory tiers, the service of page faults, and tree barriers (R254, R304, R306, R307, R316, R318, R384, R385):
the other parts of the statement of O50, and O50. -/

namespace Sys2Proof.Machine

open Spec

variable {s : State}

/-! ### Errors of the tiers (R307, R318, R384) -/

section
variable {me : MemError} (hr : me.retryOk = false)
include hr

theorem exec_memoryReadRetry_walk (hw : me.walk = true) : exec (.memoryReadRetry me) s = .next (failWalks s me.ctx me.va.toNat) := by
  rw [exec_memoryReadRetry]
  simp only [execMemoryReadRetry, hr, hw, Bool.false_eq_true, if_false, if_true]

variable (hw : me.walk = false)
include hw

/-- A page of near or far memory. -/
theorem exec_memoryReadRetry_page (hd : me.deep = false) :
    exec (.memoryReadRetry me) s = .next (poisonPage s me.ctx me.va.toNat) := by
  have hnone : s.migrs.find? (fun m => false && decide (m.deep ≤ me.pa) && decide (me.pa < m.deep + 2 ^ m.log2)) = none :=
    List.find?_eq_none.mpr fun m _ => by simp
  rw [exec_memoryReadRetry]
  simp only [execMemoryReadRetry, hr, hw, hd, hnone, Bool.false_eq_true, if_false]

variable (hd : me.deep = true)
include hd

/-- The deep tier: a page that migrates in ends poisoned. -/
theorem exec_memoryReadRetry_migration {m : MigrIn}
    (hm : s.migrs.find? (fun m => decide (m.deep ≤ me.pa) && decide (me.pa < m.deep + 2 ^ m.log2)) = some m) :
    exec (.memoryReadRetry me) s = .next (endMigrIn s m true) := by
  rw [exec_memoryReadRetry]
  simp only [execMemoryReadRetry, hr, hw, hd, hm, Bool.true_and, Bool.false_eq_true, if_false]

variable (hm : s.migrs.find? (fun m => decide (m.deep ≤ me.pa) && decide (me.pa < m.deep + 2 ^ m.log2)) = none)
include hm

/-- The read of a streamer ends with an error. -/
theorem exec_memoryReadRetry_stream {p : Nat × Streamer}
    (hp : s.streamers.find? (fun p => p.2.job.any fun j => j.readsDeep me.pa) = some p) :
    exec (.memoryReadRetry me) s = .next (finishStep s p.1 (.fault s.links 5 me.pa false)) := by
  rw [exec_memoryReadRetry]
  simp only [execMemoryReadRetry, hr, hw, hd, hm, hp, Bool.true_and, Bool.false_eq_true, if_false, if_true]

theorem exec_memoryReadRetry_unread (hp : s.streamers.find? (fun p => p.2.job.any fun j => j.readsDeep me.pa) = none) :
    exec (.memoryReadRetry me) s = .next s := by
  rw [exec_memoryReadRetry]
  simp only [execMemoryReadRetry, hr, hw, hd, hm, hp, Bool.true_and, Bool.false_eq_true, if_false, if_true]

end

/-! ### Page faults served by the host (R316, R385) -/

/-- What PFRES says of a source, kind and number, in the fields of its word. -/
theorem exec_pfres_source (s : State) (die : Nat) (v : BitVec 64) :
    let kind := (v.extractLsb' 8 4).toNat; let src := (v.extractLsb' 32 32).toNat
    ((kget s.rings die {}).stopped.contains (kind, src) = false → exec (.pfres die v) s = .next s) ∧
    ((kget s.rings die {}).stopped.contains (kind, src) = true → kind ≠ 0 →
      exec (.pfres die v) s = .next (dropStopped s die kind src)) ∧
    ((kget s.rings die {}).stopped.contains (kind, src) = true → kind = 0 → ∀ key,
      regionOfHandle (dropStopped s die kind src) src = some key → exec (.pfres die v) s =
        .next ((dropStopped s die kind src).modRegion key fun r => { r with stopped := false, faultRec := none })) := by
  intro kind src
  have hkind : bits v.toNat 8 4 = kind := bits_eq_extractLsb' ..
  have hsrc : bits v.toNat 32 32 = src := bits_eq_extractLsb' ..
  rw [exec_pfres]
  simp only [execPfres, resumeSource, hkind, hsrc]
  refine ⟨fun hn => ?_, fun hy hk => ?_, fun hy hk key hkey => ?_⟩
  · rw [if_pos (by rw [hn]; rfl)]
  · rw [if_neg (by rw [hy]; exact Bool.false_ne_true), if_neg hk]
  · rw [if_neg (by rw [hy]; exact Bool.false_ne_true), if_pos hk, hkey]

theorem flushFaultRing_full {die n : Nat} (h : (kget s.rings die {}).wait = [] ∨
    (kget s.rings die {}).tail - (kget s.rings die {}).head = 256) : flushFaultRing die (n + 1) s = s := by
  rw [flushFaultRing]
  rcases hw : (kget s.rings die {}).wait with _ | ⟨x, xs⟩
  · rfl
  · exact if_pos (h.resolve_left (by rw [hw]; exact List.cons_ne_nil _ _))

theorem flushFaultRing_enters {die n : Nat} {x : FaultRec} {xs : List FaultRec} (hw : (kget s.rings die {}).wait = x :: xs)
    (h : (kget s.rings die {}).tail - (kget s.rings die {}).head ≠ 256) :
    let r := kget s.rings die {}
    let u := bumpWord (physStore s (r.base.toNat + 32 * (r.tail.toNat % 256)) x.bytes none) (r.base.toNat + 0x2000)
    flushFaultRing die (n + 1) s = flushFaultRing die n (sendMsix
      { u with rings := kput u.rings die { r with wait := xs, tail := r.tail + 1 } } (64 + die)) := by
  rw [flushFaultRing]
  simp only [hw, if_neg h]

/-- The record of a fault, field by field. -/
theorem FaultRec.bytes_fields (x : FaultRec) (hctx : x.ctx < 64) (hkind : x.kind < 16) (hcode : x.code < 256) (hsrc : x.src < 2 ^ 32) :
    let w := BitVec.ofNat 64 (field x.bytes 8 8)
    field x.bytes 0 8 = x.va % 2 ^ 64 ∧ w.extractLsb' 0 8 = BitVec.ofNat 8 x.ctx ∧ w.extractLsb' 8 4 = BitVec.ofNat 4 x.kind ∧
      w.getLsbD 12 = x.wr ∧ w.extractLsb' 16 8 = BitVec.ofNat 8 x.code ∧ w.extractLsb' 32 32 = BitVec.ofNat 32 x.src ∧
      x.bytes.length = 32 := by
  have hva : x.bytes.take 8 = byteList 8 x.va := by
    rw [FaultRec.bytes, List.append_assoc, List.take_left' (byteList_length ..)]
  have hrest : (x.bytes.drop 8).take 8 =
      byteList 8 (x.ctx + x.kind * 2 ^ 8 + bit x.wr * 2 ^ 12 + x.code * 2 ^ 16 + x.src * 2 ^ 32) := by
    rw [FaultRec.bytes, List.append_assoc, List.drop_left' (byteList_length ..), List.take_left' (byteList_length ..)]
  have hwr := bit_le x.wr
  have hbit : bits (bit x.wr) 0 1 = 1 ↔ x.wr = true := by cases x.wr <;> decide
  intro w
  have hw : w.toNat = x.ctx + x.kind * 2 ^ 8 + bit x.wr * 2 ^ 12 + x.code * 2 ^ 16 + x.src * 2 ^ 32 := by
    simp only [w, field, hrest, natOf_byteList, BitVec.toNat_ofNat]
    omega
  refine ⟨?va, ?ctx, ?kind, ?wr, ?code, ?src, ?len⟩
  case va => rw [field, List.drop_zero, hva, natOf_byteList]
  case wr =>
    rw [Bool.eq_iff_iff, ← bits_one_eq_one_iff, hw, ← hbit, bits, bits]
    omega
  case len => simp [FaultRec.bytes, byteList_length]
  all_goals
    apply BitVec.eq_of_toNat_eq
    rw [← bits_eq_extractLsb', hw, bits, BitVec.toNat_ofNat]
    omega

theorem memoryService : MemoryService := by
  refine ⟨fun s me hr => ?corrected, fun s me hr hw => ⟨fun hwaits => ?failed, fun hwaits => ?remembered⟩,
    fun s me hr hw hd => ?page, fun s me m hr hw hd => exec_memoryReadRetry_migration hr hw hd,
    fun s me p hr hw hd hm => exec_memoryReadRetry_stream hr hw hd hm, fun s me hr hw hd => exec_memoryReadRetry_unread hr hw hd,
    fun s n => exec_memoryPatrolScrub, exec_pfres_source, fun s die v => ?head,
    fun s die n => ⟨flushFaultRing_full, fun x xs => flushFaultRing_enters⟩, FaultRec.bytes_fields⟩
  case corrected =>
    rw [exec_memoryReadRetry, execMemoryReadRetry, if_pos hr]
    rfl
  case failed => exact (exec_memoryReadRetry_walk hr hw).trans (congrArg _ (if_pos hwaits))
  case remembered => exact (exec_memoryReadRetry_walk hr hw).trans (congrArg _ (if_neg (Bool.eq_false_iff.mp hwaits)))
  case page => rw [exec_memoryReadRetry_page hr hw hd, exec_pagePoison, execPagePoison]
  case head =>
    intro r
    rw [exec_pfheadWrite, execPfheadWrite, advanceFaultHead, BitVec.ofNat_toNat]

/-! ### Tree barriers (R254, R304, R306) -/

@[simp] theorem State.barrier_setBarrier_same (s : State) (bk : Nat) (x : Barrier) : (s.setBarrier bk x).barrier bk = x :=
  kget_kput_same ..

theorem State.setBarrier_setBarrier_same (s : State) (bk : Nat) (x y : Barrier) :
    (s.setBarrier bk x).setBarrier bk y = s.setBarrier bk y :=
  congrArg (fun m => { s with barriers := m }) (kput_kput_same ..)

@[simp] theorem State.core_setBarrier (s : State) (bk c : Nat) (x : Barrier) : (s.setBarrier bk x).core c = s.core c := rfl

/-- A core told of a completion: event 5 is latched, and the barrier's bit of BARDONE (R254). -/
def toldCore (bk : Nat) (c : Core) : Core :=
  { c with events := c.events ||| 0x20, barDone := c.barDone ||| BitVec.ofNat 32 (2 ^ (bk % 32)) }

theorem toldCore_toldCore (bk : Nat) (c : Core) : toldCore bk (toldCore bk c) = toldCore bk c := by
  simp only [toldCore, BitVec.or_assoc, BitVec.or_self]

/-- Cores told one after the other, some of them more than once. -/
theorem core_foldl_toldCore (bk : Nat) (cs : List Nat) (s : State) (c : Nat) :
    (cs.foldl (fun s c => s.modCore c (toldCore bk)) s).core c = if c ∈ cs then toldCore bk (s.core c) else s.core c := by
  induction cs generalizing s with
  | nil => rfl
  | cons d ds ih =>
    rw [List.foldl_cons, ih, State.core_modCore]
    by_cases hd : c = d
    · simp [hd, toldCore_toldCore]
    · simp [hd]

/-- The cores that a completion is told to. -/
def tellCores (bk : Nat) (cs : List (Option Nat)) (s : State) : State :=
  (cs.filterMap id).foldl (fun s c => s.modCore c (toldCore bk)) s

theorem core_tellCores (bk : Nat) (cs : List (Option Nat)) (s : State) (c : Nat) :
    (tellCores bk cs s).core c = if some c ∈ cs then toldCore bk (s.core c) else s.core c := by
  rw [tellCores, core_foldl_toldCore]
  simp

/-- Telling cores leaves the barriers and the groups. -/
theorem tellCores_frame (bk : Nat) (cs : List (Option Nat)) (s : State) :
    (tellCores bk cs s).barriers = s.barriers ∧ (tellCores bk cs s).groups = s.groups ∧ (tellCores bk cs s).nstime = s.nstime := by
  unfold tellCores
  induction cs.filterMap id generalizing s with
  | nil => exact ⟨rfl, rfl, rfl⟩
  | cons d ds ih => exact ih (s.modCore d (toldCore bk))

theorem toldComplete_tellCores (s : State) (bk by_ n : Nat) : toldComplete s bk by_ n =
    let x := s.barrier bk
    let u := tellCores bk (x.cores.take n) s
    let v := u.groups.foldl (switchGroup bk) u
    let w := if x.scope = 5 then slackStep v x by_ else v
    w.setBarrier bk { w.barrier bk with cores := x.cores.drop n, lastDone := some w.nstime } := rfl

/-- A completion told to this module where no group waits for it and no other module takes part. -/
theorem toldComplete_eq {bk : Nat} (hs : (s.barrier bk).scope ≠ 5) (hg : s.groups = []) (by_ n : Nat) :
    toldComplete s bk by_ n = (tellCores bk ((s.barrier bk).cores.take n) s).setBarrier bk { s.barrier bk with
      cores := (s.barrier bk).cores.drop n, lastDone := some s.nstime } := by
  obtain ⟨hbarriers, hgroups, htime⟩ := tellCores_frame bk ((s.barrier bk).cores.take n) s
  have hswitch : (tellCores bk ((s.barrier bk).cores.take n) s).groups.foldl (switchGroup bk)
      (tellCores bk ((s.barrier bk).cores.take n) s) = tellCores bk ((s.barrier bk).cores.take n) s := by
    rw [hgroups, hg, List.foldl_nil]
  have hbarrier : (tellCores bk ((s.barrier bk).cores.take n) s).barrier bk = s.barrier bk := by
    rw [State.barrier, hbarriers, State.barrier]
  simp only [toldComplete_tellCores, hswitch, if_neg hs, hbarrier, htime]

/-- An arrival of this module at a barrier within it. -/
def arrived (s : State) (bk : Nat) (who : Option Nat) : Barrier :=
  let x := s.barrier bk
  { x with lastArr := s.nstime, cores := x.cores ++ [who], arr := x.arr + 1, mods := x.mods ++ [thisModule] }

section
variable {bk : Nat} {who : Option Nat} (hc : (s.barrier bk).count ≠ 0)
include hc

theorem arriveAt_local (hs : (s.barrier bk).scope ≠ 5) : arriveAt s bk who thisModule =
    if (s.barrier bk).count ≤ (s.barrier bk).arr + 1 then completeBarrier (s.setBarrier bk (arrived s bk who)) bk thisModule
    else s.setBarrier bk (arrived s bk who) := by
  have hlocal (x : Barrier) (hx : x.scope = (s.barrier bk).scope) : x.local = true := by simp [Barrier.local, hx, hs]
  simp only [arriveAt, if_true, hc, if_false, hlocal, Bool.not_true, Bool.false_eq_true]
  rfl

theorem arriveAt_away (hs : (s.barrier bk).scope = 5) (hr : (s.barrier bk).root ≠ thisModule) : arriveAt s bk who thisModule =
    sendOrDrop (s.setBarrier bk { s.barrier bk with lastArr := s.nstime, cores := (s.barrier bk).cores ++ [who] })
      (s.barrier bk).root (.arrival (bk / 32) (bk % 32)) := by
  have haway (x : Barrier) (hx : x.scope = (s.barrier bk).scope) (hy : x.root = (s.barrier bk).root) : x.local = false := by
    simp [Barrier.local, hx, hs, hy, hr]
  simp only [arriveAt, if_true, hc, if_false, haway, Bool.not_false]

end

/-- The last arrival at a barrier of this module alone: every core that arrived is told, and the barrier is open again. -/
theorem completeBarrier_eq {bk : Nat} (hs : (s.barrier bk).scope ≠ 5) (hg : s.groups = [])
    (hm : ∀ m ∈ (s.barrier bk).mods, m = thisModule) (hl : (s.barrier bk).cores.length = (s.barrier bk).mods.length) (by_ : Nat) :
    completeBarrier s bk by_ = (tellCores bk (s.barrier bk).cores s).setBarrier bk { s.barrier bk with
      cores := [], lastDone := some s.nstime, arr := 0, mods := [] } := by
  have hothers : (s.barrier bk).mods.filter (fun m => m != thisModule) = [] := by simpa using hm
  have hall : (s.barrier bk).mods.countP (fun m => m == thisModule) = (s.barrier bk).cores.length := by
    rw [hl, List.countP_eq_length]
    simpa using hm
  simp only [completeBarrier, hothers, hall, List.eraseDups_nil, List.foldl_nil, toldComplete_eq hs hg, List.take_length,
    List.drop_length, State.barrier_setBarrier_same, State.setBarrier_setBarrier_same]

theorem arriveAt_last {bk : Nat} {who : Option Nat} (hc : (s.barrier bk).count ≠ 0) (hs : (s.barrier bk).scope ≠ 5)
    (hle : (s.barrier bk).count ≤ (s.barrier bk).arr + 1) (hm : ∀ m ∈ (s.barrier bk).mods, m = thisModule)
    (hl : (s.barrier bk).cores.length = (s.barrier bk).mods.length) (hg : s.groups = []) :
    arriveAt s bk who thisModule =
      (tellCores bk ((s.barrier bk).cores ++ [who]) (s.setBarrier bk (arrived s bk who))).setBarrier bk
        { s.barrier bk with lastArr := s.nstime, cores := [], lastDone := some s.nstime, arr := 0, mods := [] } := by
  have hbar : (s.setBarrier bk (arrived s bk who)).barrier bk = arrived s bk who := State.barrier_setBarrier_same ..
  have hscope : ((s.setBarrier bk (arrived s bk who)).barrier bk).scope ≠ 5 := by rw [hbar]; exact hs
  have hmods : ∀ m ∈ ((s.setBarrier bk (arrived s bk who)).barrier bk).mods, m = thisModule := by
    rw [hbar]
    exact fun m hin => (List.mem_append.mp hin).elim (hm m) List.mem_singleton.mp
  have hlen : ((s.setBarrier bk (arrived s bk who)).barrier bk).cores.length =
      ((s.setBarrier bk (arrived s bk who)).barrier bk).mods.length := by
    rw [hbar]
    simpa only [arrived, List.length_append, List.length_singleton, Nat.add_right_cancel_iff] using hl
  rw [arriveAt_local hc hs, if_pos hle, completeBarrier_eq hscope hg hmods hlen, hbar]
  rfl

theorem treeBarriers : TreeBarriers := by
  refine ⟨fun s bk who m rest => ?counted, fun s bk hno => ?idle, fun s bk who => ?before, fun s bk who => ?last,
    fun s bk who => fun hs hr hc => arriveAt_away hc hs hr, fun s bk by_ n => ?told⟩
  case counted =>
    intro x hx hc
    rw [exec_treeBarrierArrival]
    simp only [execTreeBarrierArrival, show (s.barrier bk).inbox = _ from hx]
    rw [if_neg hc]
  case idle =>
    rw [exec_treeBarrierArrival, execTreeBarrierArrival]
    rcases hi : (s.barrier bk).inbox with _ | ⟨⟨who, m⟩, rest⟩
    · rfl
    · exact if_pos (hno.resolve_left (by rw [hi]; exact List.cons_ne_nil _ _))
  case before =>
    intro x hs hlt
    rw [arriveAt_local (Nat.ne_zero_of_lt hlt) hs, if_neg (not_le.mpr hlt)]
    rfl
  case last =>
    intro x hs hc hle hm hl hg t
    have ht : t = _ := arriveAt_last hc hs hle hm hl hg
    rw [ht, State.barrier_setBarrier_same]
    refine ⟨rfl, rfl, rfl, rfl, fun c => ?_⟩
    rw [State.core_setBarrier, core_tellCores, State.core_setBarrier]
    simp only [List.mem_append, List.mem_singleton, eq_comm (a := some c) (b := who)]
    rfl
  case told =>
    intro x hs hg t
    have ht : t = _ := toldComplete_eq hs hg by_ n
    rw [ht]
    refine ⟨by rw [State.barrier_setBarrier_same], fun c => ?_⟩
    rw [State.core_setBarrier, core_tellCores]
    rfl

/-- Settles O50, from its three parts: pages and shoot-downs, errors and page faults, tree barriers. -/
theorem serviceEvents : Obligations.ServiceEvents := ⟨pagesMove, memoryService, treeBarriers⟩

end Sys2Proof.Machine
end

section
/-! Kernels primed, launched, frozen and thawed (R246, R277, R281): the first two parts of the statement of O47, which hold. -/

namespace Sys2Proof.Machine

open Spec

variable {s : State} {k : Nat} {r : Region}

theorem region_setRegion_same (s : State) (k : Nat) (r : Region) : (s.setRegion k r).region k = some r := kfind_kput_same ..

/-! ### The end of a prime (R246, R281) -/

theorem finishPrime_early {waiter : Nat} {p : BitVec 2} {due : Nat} (hr : s.region k = some r)
    (hp : r.priming = some (p, due)) (hd : originRounds s r < due) : finishPrime s k waiter = s := by
  simp only [finishPrime, hr, hp, hd, if_true]

theorem finishPrime_none {waiter : Nat} (hr : s.region k = some r) (hp : r.priming = none) : finishPrime s k waiter = s := by
  simp only [finishPrime, hr, hp]

section
variable {waiter due : Nat} {p : BitVec 2} (hr : s.region k = some r) (hp : r.priming = some (p, due))
  (hd : due ≤ originRounds s r)
include hr hp hd

theorem finishPrime_plain (hk : r.kernel ≠ .resident) : finishPrime s k waiter = endPrime s k p := by
  simp [finishPrime, hr, hp, not_lt.mpr hd, hk]

/-- The state runs of a RESIDENT kernel are applied again before it is PRIMED (R281). -/
theorem finishPrime_resident {b : List Byte} {u : State} (hk : r.kernel = .resident)
    (hb : unitRead s r.die r.ctx waiter r.imageVa r.imageLen = (.bytes b, u)) : finishPrime s k waiter =
      match reapply u r b with
      | some v => endPrime v k p
      | none => kernelFault u k (regionErr u k 8 0) := by
  cases hv : reapply u r b <;>
    simp only [finishPrime, hr, hp, if_neg (not_lt.mpr hd), hk, hb, hv, bne_self_eq_false, Bool.false_eq_true, if_false]

end

/-- What a prime leaves: the kernel PRIMED, its elements on the plane. -/
theorem endPrime_eq (hr : s.region k = some r) (p : BitVec 2) :
    (endPrime s k p).region k = some { r with kernel := .primed, priming := none, primeOwed := [] } ∧
    ∀ u e y, r.hasTile u = true → kfind (s.tile u).elems e = some y → (endPrime s k p).elem u e = { y with plane := p } := by
  let t := (modElems s r fun y => { y with plane := p }).setRegion k { r with kernel := .primed, priming := none, primeOwed := [] }
  have hreplies : SameFabric t (replyAll t r.primeOwed 0 0) := .replyAll ..
  simp only [endPrime, hr]
  refine ⟨(hreplies.region k).trans (region_setRegion_same ..), fun u e y hu hy => ?_⟩
  have helem : t.elem u e = _ := elem_modElems (fun y => { y with plane := p }) hu hy
  rw [← helem, State.elem, State.elem, State.tile, State.tile, hreplies.tiles]

/-! ### Launches (R238, R277) -/

theorem launchRecord_none (hr : s.region k = some r) (hn : recordOf s r = none) : launchRecord s k = s := by
  simp only [launchRecord, hr, hn]

theorem launchRecord_priming (hr : s.region k = some r) (hp : r.priming ≠ none) : launchRecord s k = s := by
  rw [← Option.isSome_iff_ne_none] at hp
  cases hn : recordOf s r with
  | none => exact launchRecord_none hr hn
  | some x => simp [launchRecord, hr, hn, hp]

/-- The record of a PRIMED kernel launches it once its counter block is zeroed. -/
theorem launchRecord_launches {q : Nat} {st : Started} {bs : List Byte} {u : State} (hr : s.region k = some r)
    (hs : recordOf s r = some (q, st)) (hk : r.kernel = .primed) (hp : r.priming = none) (hg : r.group = none) (h1 : st.step = 1)
    (hq : queueHeld s q = false) (hz : zeroBlock s r.die r.ctx (Rec.p2 st.record) = (.bytes bs, u)) :
    launchRecord s k = modStarted (releaseKernel u k (launchOf q st.index st.record)) q st.index fun x => { x with step := 2 } := by
  simp [launchRecord, hr, hs, hk, hp, hg, h1, hq, hz]

/-- A tile as a launch leaves it: its snapshot is the tile itself (R58, R369). -/
def launchedTile (x : Tile) : Tile := { snapTileNow x with echg := 0, refused := false }

theorem releaseKernel_tiles (hr : s.region k = some r) (l : Launch) :
    (releaseKernel s k l).tiles = onTiles r (fun _ => launchedTile) s.tiles := by
  let t := modTiles s r launchedTile
  have hislands := SameFabric.modIslands t (fun _ _ x => { x with snap := x.core, snapNext := none, stroke := r.stroke })
    (regionIslands t r)
  simp only [releaseKernel, hr]
  exact hislands.tiles

/-- What a launch leaves: the kernel FIRING with the places its record gives, every element with a snapshot of itself. -/
theorem releaseKernel_eq (hr : s.region k = some r) (l : Launch) : let t := releaseKernel s k l
    (∃ q, t.region k = some q ∧ q.kernel = .firing ∧ q.cntVa = l.cntVa ∧ q.parVa = l.parVa ∧ q.keep = l.keep ∧
      q.level = l.level ∧ q.record = l.record ∧ q.stroke = r.stroke ∧ q.passed = r.passed ∧ q.derr = false ∧ q.fcode = 0 ∧
      q.cnt0 = {} ∧ q.cnt1 = {}) ∧
    ∀ u, r.hasTile u = true → (t.tile u).core = (s.tile u).core ∧ (kfind s.tiles u ≠ none → (t.tile u).snap = (s.tile u).core) ∧
      ∀ e y, kfind (s.tile u).elems e = some y → t.elem u e = { y with snap := y.core, snapNext := none } := by
  have htiles := releaseKernel_tiles hr l
  refine ⟨?controller, fun u hu => ?tile⟩
  case controller =>
    simp only [releaseKernel, hr]
    exact ⟨_, region_setRegion_same .., rfl, rfl, rfl, rfl, rfl, rfl, rfl, rfl, rfl, rfl, rfl, rfl⟩
  case tile =>
    have htile := tile_onTiles_inside htiles hu rfl
    exact ⟨by rw [htile]; rfl, fun _ => by rw [htile]; rfl,
      fun e y hy => elem_onTiles (g := fun _ => snapNow) htiles hu hy fun _ => rfl⟩

theorem primes : Primes := by
  refine ⟨fun s k r p due hr hp hd => ?early, fun s k r p due hr hp hd hk hn => ?primed, fun s k r p hr => endPrime_eq hr p,
    fun s k r p due b u hr hp hd hk hb => ⟨fun v hv => ?applied, fun hv => ?changed⟩,
    fun s key r q st bs u hr hs hk hp hg h1 hq hz => ?launched, fun s key r l hr => releaseKernel_eq hr l⟩
  all_goals rw [exec_primeComplete, execPrimeComplete]
  case early => rw [finishPrime_early hr hp hd, launchRecord_priming hr (by simp [hp])]
  case primed =>
    obtain ⟨hregion, -⟩ := endPrime_eq hr p
    rw [finishPrime_plain hr hp hd hk, launchRecord_none hregion (by simp [recordOf, hn])]
  case applied => rw [finishPrime_resident hr hp hd hk hb, hv]
  case changed => rw [finishPrime_resident hr hp hd hk hb, hv]
  case launched => rw [finishPrime_none hr hp, launchRecord_launches hr hs hk hp hg h1 hq hz]

/-! ### Freeze and thaw (R246) -/

theorem freezePassed_iff (s : State) (r : Region) : freezePassed s r = true ↔
    (∀ p ∈ regionElems s r, (s.elem p.1 p.2).frozen = true) ∧
    ∀ en, en ∈ regionIslands s r ∨ en ∈ regionEngines s r → engFrozen s en = true := by
  simp only [freezePassed, Bool.and_eq_true, List.all_eq_true, List.mem_append]

theorem reloadRegion_idle (hr : s.region k = some r) (h : r.reloads = [] ∨ r.frozen = false) : reloadRegion s k = s := by
  cases hl : r.reloads with
  | nil => simp only [reloadRegion, hr, hl]
  | cons t ts =>
    have hf : r.frozen = false := h.resolve_left (by rw [hl]; exact List.cons_ne_nil _ _)
    simp [reloadRegion, hr, hl, hf]

/-- Elements and engines of a region go on. -/
theorem thawRegion_eq (hr : s.region k = some r) :
    (thawRegion s k).region k = some { r with frozen := false, freezeReq := false, freezeMark := false } ∧
    ∀ u e y, r.hasTile u = true → kfind (s.tile u).elems e = some y → (thawRegion s k).elem u e = { y with frozen := false } := by
  let t := modElems s r fun y => { y with frozen := false }
  have hengines : SameFabric t (freezeEngines t r false) := .freezeEngines ..
  simp only [thawRegion, hr]
  refine ⟨region_setRegion_same .., fun u e y hu hy => ?_⟩
  have helem : t.elem u e = _ := elem_modElems (fun y => { y with frozen := false }) hu hy
  rw [← helem, State.setRegion_elem, State.elem, State.elem, State.tile, State.tile, hengines.tiles]

theorem freezes : Freezes := by
  refine ⟨fun s k r hr hq hm hk hs => ?laid, fun s k r hr hdone hl => ?frozen, fun s k r hr hq hno => ?stays,
    freezePassed_iff, fun s k r hr => thawRegion_eq hr⟩
  all_goals rw [exec_freezeWaveComplete]
  case laid => simp [execFreezeWaveComplete, hr, hq, hm, hk, hs]
  case frozen =>
    let u := s.setRegion k { r with frozen := true, freezeReq := false, freezeMark := false, freezeOwed := [] }
    have hreplies : SameFabric u (replyAll u r.freezeOwed 0 0) := .replyAll ..
    have hidle := reloadRegion_idle ((hreplies.region k).trans (region_setRegion_same ..)) (.inl hl)
    have hlaid : ¬ (r.freezeReq && !r.freezeMark && r.kernel == .firing && !r.stopped) = true := by
      rcases hdone with ⟨hm, -⟩ | ⟨-, -, hs⟩
      · simp [hm]
      · simp [hs]
    have hpassed : (r.freezeMark && freezePassed s r || r.freezeReq && r.stopped) = true := by
      rcases hdone with ⟨hm, hp⟩ | ⟨hq, -, hs⟩
      · simp [hm, hp]
      · simp [hq, hs]
    simp only [execFreezeWaveComplete, hr]
    rw [if_neg hlaid, if_pos hpassed, hidle]
  case stays =>
    rcases hno with hm | ⟨hp, hk | hk⟩
    · simp [execFreezeWaveComplete, hr, hq, hm]
    · simp [execFreezeWaveComplete, hr, hq, hp, hk]
    · simp [execFreezeWaveComplete, hr, hq, hp, hk]

end Sys2Proof.Machine
end

section
/-! The refutation of O47: its clause on reloads (R291) fails where a second word of a region is found bad while the freeze
for the first is still asked for. Its parts on priming and launching and on freezing hold: `primes`, `freezes`. -/

namespace Sys2Proof.Machine

open Spec

/-- A firing region that is to freeze for a reload alone: a word of its one tile has been found bad before. -/
def regionToReload : Region where
  die := 0
  id := 0
  col := 0
  row := 0
  width := 1
  height := 1
  ctx := 0
  kernel := .firing
  freezeReq := true
  reloads := [0]
  reloadFreeze := true

/-- A module whose one region is to freeze for a reload. -/
def reloadAsked : State := { State.reset with fused := Vector.replicate 4 1, regions := [(0, regionToReload)] }

/-- For each region listed, whether its freeze ends with its reload. -/
def freezesForReload (r : Result) : List Bool :=
  match r with
  | .next s => s.regions.map fun p => p.2.reloadFreeze
  | _ => []

/-- Refutes O47: a second bad word, found before the freeze for the first has passed, leaves the freeze to end with the reload in
the model; the statement asks `reloadFreeze` of the region after `freezeRegion`, which has cleared it, so that its region
would stay frozen. -/
theorem not_kernelEvents : ¬ Obligations.KernelEvents := by
  rintro ⟨-, -, -, -, herror, -⟩
  obtain ⟨-, hregion⟩ := herror reloadAsked 0 0 (by decide) rfl
  obtain ⟨-, -, -, hreload⟩ := hregion 0 regionToReload (by decide) (by decide)
  have hstated := congrArg freezesForReload (hreload (by decide) (by decide) (by decide))
  exact absurd hstated (by decide)

end Sys2Proof.Machine
end

section
/-! SUPPORT. What leaves the memories alone: the operations and events that write neither the tiers, the deep tier nor host
memory (spec/20_page.md, log entry 2), in the order of the model. -/

namespace Sys2Proof.Machine

/-- The memories of two states are the same. -/
abbrev SameMems (t s : State) : Prop := t.mem = s.mem ∧ t.deep = s.deep ∧ t.host = s.host

variable (s : State)

@[simp] theorem sameMems_foldl {α : Type} {f : State → α → State} (hf : ∀ s a, SameMems (f s a) s) (as : List α)
    (s : State) : SameMems (as.foldl f s) s := by
  induction as generalizing s with
  | nil => exact ⟨rfl, rfl, rfl⟩
  | cons a as ih =>
    obtain ⟨hm, hd, hh⟩ := ih (f s a)
    obtain ⟨hm', hd', hh'⟩ := hf s a
    exact ⟨hm.trans hm', hd.trans hd', hh.trans hh'⟩

theorem SameMems.trans {s t u : State} (h : SameMems u t) (h' : SameMems t s) : SameMems u s :=
  ⟨h.1.trans h'.1, h.2.1.trans h'.2.1, h.2.2.trans h'.2.2⟩

theorem sameMems_of_eq {α : Type} {r : α × State} {a : α} {s t : State} (h : r = (a, t)) (hr : SameMems r.2 s) :
    SameMems t s := by
  rw [h] at hr
  exact hr

@[simp] theorem sameMems_drawNat : SameMems (drawNat s).2 s :=
  ⟨rfl, rfl, rfl⟩

@[simp] theorem sameMems_drawWord : SameMems (drawWord s).2 s :=
  ⟨rfl, rfl, rfl⟩

@[simp] theorem sameMems_translate (die ctx cap : Nat) (tlb : List TlbEntry) (va : Nat)
    (want : Want) :
    SameMems (translate s die ctx cap tlb va want).2.2 s := by
  unfold translate
  dsimp only
  repeat' split
  all_goals simp [SameMems]

@[simp] theorem sameMems_translateFrom (die ctx cap : Nat) (want : Want) (a1 : Nat)
    (a2 : List TlbEntry) (a3 a4 : Nat) :
    SameMems (translateFrom die ctx cap want a1 s a2 a3 a4).2.2 s := by
  induction a1 generalizing s a2 a3 a4 with
  | zero => simp [SameMems, translateFrom]
  | succ fuel ih => grind [translateFrom, sameMems_translate]

@[simp] theorem sameMems_translateAccess (die ctx cap : Nat) (tlb : List TlbEntry) (va : Int)
    (len : Nat) (want : Want) :
    SameMems (translateAccess s die ctx cap tlb va len want).2.2 s := by
  unfold translateAccess
  repeat' split
  all_goals simp [SameMems]

@[simp] theorem sameMems_memEmpty (pa : Nat) : SameMems (memEmpty s pa) s :=
  ⟨rfl, rfl, rfl⟩

@[simp] theorem sameMems_abortElem (t e plane slot op code va : Nat)
    (wr : Bool) :
    SameMems (abortElem s t e plane slot op code va wr) s :=
  ⟨rfl, rfl, rfl⟩

@[simp] theorem sameMems_abortLane (core k : Nat) (fault : Option (Nat × Option Nat)) (op : Nat) :
    SameMems (abortLane s core k fault op) s :=
  ⟨rfl, rfl, rfl⟩

@[simp] theorem sameMems_fifoCommand (en : Nat) (cmd : Cmd) : SameMems (fifoCommand s en cmd) s := by
  unfold fifoCommand
  dsimp only
  repeat' split
  all_goals simp [SameMems]

@[simp] theorem sameMems_noteWork (en : Nat) (cmd : Cmd) : SameMems (noteWork s en cmd) s := by
  unfold noteWork
  repeat' split
  all_goals simp [SameMems]

@[simp] theorem sameMems_pushCommand (en : Nat) (cmd : Cmd) : SameMems (pushCommand s en cmd) s := by
  simp [SameMems, pushCommand]

@[simp] theorem sameMems_touchRegion (t : Nat) : SameMems (touchRegion s t) s := by
  unfold touchRegion
  repeat' split
  all_goals simp [SameMems]

@[simp] theorem sameMems_deliver (from_ : Nat) (tok : Token) (a1 : Target) : SameMems (deliver s from_ tok a1) s := by
  unfold deliver
  dsimp only
  repeat' split
  all_goals simp [SameMems]

@[simp] theorem sameMems_enqueue (t e c : Nat) (data : V256) (tag : BitVec 2) :
    SameMems (enqueue s t e c data tag) s := by
  unfold enqueue
  dsimp only
  repeat' split
  all_goals simp [SameMems]

@[simp] theorem sameMems_holdOut (t e c : Nat) (n : Nat → Nat) : SameMems (holdOut s t e c n) s := by
  unfold holdOut
  refine sameMems_foldl (fun s g => ?_) _ s
  dsimp only
  split <;> simp [SameMems]

@[simp] theorem sameMems_addConv (t e : Nat) (v : Conv) : SameMems (addConv s t e v) s := by
  unfold addConv
  dsimp only
  repeat' split
  all_goals simp [SameMems]

@[simp] theorem sameMems_applyWrite (t e : Nat) (a1 : PWrite) : SameMems (applyWrite s t e a1) s := by
  unfold applyWrite
  dsimp only
  repeat' split
  all_goals simp [SameMems]

@[simp] theorem sameMems_applyWrites (t e : Nat) (ws : List PWrite) : SameMems (applyWrites s t e ws) s := by
  simp [SameMems, applyWrites]

@[simp] theorem sameMems_addPending (t e lat : Nat) (ws : List PWrite) : SameMems (addPending s t e lat ws) s := by
  unfold addPending
  refine (sameMems_foldl (fun s w => ?_) ws _).trans (by simp [SameMems])
  split <;> simp [SameMems]

@[simp] theorem sameMems_payCharge (t cost : Nat) : SameMems (payCharge s t cost) s :=
  ⟨rfl, rfl, rfl⟩

@[simp] theorem sameMems_commitFiring (i : Instr) (o : Operands) (lat : Nat) (f : Fired)
    (hact : ∀ u, SameMems (f.act u) u) :
    SameMems (commitFiring s i o lat f) s := by
  unfold commitFiring
  dsimp only
  split
  · simp [SameMems, hact]
  · split <;> simp [SameMems, hact]

@[simp] theorem sameMems_abortRule (i : Instr) (a1 : Abort) : SameMems (abortRule s i a1) s :=
  ⟨rfl, rfl, rfl⟩

@[simp] theorem sameMems_setQ (t : Nat) (q : Fin 16) (v : Bool) : SameMems (setQ s t q v) s :=
  ⟨rfl, rfl, rfl⟩

@[simp] theorem sameMems_haltElem (t e : Nat) : SameMems (haltElem s t e) s :=
  ⟨rfl, rfl, rfl⟩

@[simp] theorem sameMems_requestPlane (t stroke : Nat) (plane : Option (BitVec 2)) :
    SameMems (requestPlane s t stroke plane) s := by
  unfold requestPlane
  repeat' split
  all_goals simp [SameMems]

@[simp] theorem sameMems_stepSeq (rnd : Rnd) (t e : Nat) : SameMems (stepSeq rnd t e s) s := by
  unfold stepSeq
  dsimp only
  repeat' split
  all_goals simp [SameMems]

@[simp] theorem sameMems_setTurn (t e : Nat) (u : Turn) : SameMems (setTurn s t e u) s :=
  ⟨rfl, rfl, rfl⟩

@[simp] theorem sameMems_stepSteer (t e : Nat) : SameMems (stepSteer s t e) s :=
  ⟨rfl, rfl, rfl⟩

@[simp] theorem sameMems_sendCredits (t e : Nat) : SameMems (sendCredits s t e) s := by
  unfold sendCredits
  refine sameMems_foldl (fun s g => ?_) _ s
  dsimp only
  split <;> simp [SameMems]

@[simp] theorem sameMems_stepMerge (t e : Nat) : SameMems (stepMerge s t e) s := by
  simp [SameMems, stepMerge]

@[simp] theorem sameMems_setLastA (t e : Nat) (v : Bool) : SameMems (setLastA s t e v) s :=
  ⟨rfl, rfl, rfl⟩

@[simp] theorem sameMems_requestStroke (t : Nat) : SameMems (requestStroke s t) s := by
  unfold requestStroke
  repeat' split
  all_goals simp [SameMems]

@[simp] theorem sameMems_requestFreeze (t : Nat) : SameMems (requestFreeze s t) s := by
  unfold requestFreeze
  repeat' split
  all_goals simp [SameMems]

@[simp] theorem sameMems_notePassed (k stroke : Nat) : SameMems (notePassed s k stroke) s := by
  unfold notePassed
  dsimp only
  repeat' split
  all_goals simp [SameMems]

@[simp] theorem sameMems_countBarrier (t e c : Nat) : SameMems (countBarrier s t e c) s := by
  unfold countBarrier
  dsimp only
  repeat' split
  all_goals simp [SameMems]

@[simp] theorem sameMems_cisternWrite (t e off : Nat) (bs : List Byte) : SameMems (cisternWrite s t e off bs) s :=
  ⟨rfl, rfl, rfl⟩

@[simp] theorem sameMems_setRing (t : Nat) (n : Fin 8) (r : Ring) : SameMems (setRing s t n r) s :=
  ⟨rfl, rfl, rfl⟩

@[simp] theorem sameMems_putRing (t e : Nat) (n : Fin 8) (data : Nat) : SameMems (putRing s t e n data) s :=
  ⟨rfl, rfl, rfl⟩

@[simp] theorem sameMems_startRequest (t e : Nat) (q : MemReq) : SameMems (startRequest s t e q) s := by
  unfold startRequest
  dsimp only
  repeat' split
  all_goals simp [SameMems]

@[simp] theorem sameMems_bufferStore (t e cls va : Nat) (data : List Byte)
    (pages : List Page) (walk stf : Bool) :
    SameMems (bufferStore s t e cls va data pages walk stf) s := by
  unfold bufferStore
  dsimp only
  repeat' split
  all_goals simp [SameMems]

@[simp] theorem sameMems_setStream (t e pos cnt : Nat) : SameMems (setStream s t e pos cnt) s :=
  ⟨rfl, rfl, rfl⟩

@[simp] theorem sameMems_askPool (t e pool : Nat) (d : Dst) (pred : Option (Fin 8)) :
    SameMems (askPool s t e pool d pred) s := by
  simp [SameMems, askPool]

@[simp] theorem sameMems_applyUpdate (t e tok : Nat) : SameMems (applyUpdate s t e tok) s := by
  unfold applyUpdate
  dsimp only
  repeat' split
  all_goals simp [SameMems]

@[simp] theorem sameMems_requestHint (ctx die int onset len : Nat)
    (region : Option Nat) :
    SameMems (requestHint s ctx die int onset len region) s := by
  unfold requestHint
  repeat' split
  all_goals simp [SameMems]

@[simp] theorem sameMems_beginRound (t : Nat) : SameMems (beginRound s t) s := by
  unfold beginRound
  dsimp only
  repeat' split
  all_goals simp [SameMems]

@[simp] theorem sameMems_endRound (t : Nat) : SameMems (endRound s t) s :=
  ⟨rfl, rfl, rfl⟩

@[simp] theorem sameMems_dropDependents (t e : Nat) : SameMems (dropDependents s t e) s :=
  ⟨rfl, rfl, rfl⟩

@[simp] theorem sameMems_meetIllegal (t e plane slot : Nat) : SameMems (meetIllegal s t e plane slot) s := by
  unfold meetIllegal
  dsimp only
  repeat' split
  all_goals simp [SameMems]

@[simp] theorem sameMems_writeResult (t e : Nat) (p : Pending) : SameMems (writeResult s t e p) s := by
  unfold writeResult
  refine (sameMems_applyWrites ..).trans (sameMems_foldl (fun s w => ?_) _ s)
  split <;> simp [SameMems]

@[simp] theorem sameMems_writeDue (t e : Nat) : SameMems (writeDue s t e) s := by
  simp [SameMems, writeDue]

@[simp] theorem sameMems_tileNext (t : Nat) : SameMems (tileNext s t).1 s := by
  unfold tileNext
  dsimp only
  repeat' split
  all_goals simp [SameMems]

@[simp] theorem sameMems_freezeEngines (r : Region) (b : Bool) : SameMems (freezeEngines s r b) s := by
  simp [SameMems, freezeEngines]

@[simp] theorem sameMems_modElems (r : Region) (f : Elem → Elem) : SameMems (modElems s r f) s :=
  ⟨rfl, rfl, rfl⟩

@[simp] theorem sameMems_modTiles (r : Region) (f : Tile → Tile) : SameMems (modTiles s r f) s :=
  ⟨rfl, rfl, rfl⟩

@[simp] theorem sameMems_injectMark (r : Region) (payload : Nat) : SameMems (injectMark s r payload) s := by
  unfold injectMark
  refine (sameMems_foldl (fun s b => sameMems_deliver ..) _ _).trans
    ((sameMems_foldl (fun s en => ?_) _ _).trans (sameMems_foldl (fun s p => ?_) _ s))
  · split <;> simp [SameMems]
  · split <;> simp [SameMems]

@[simp] theorem sameMems_actOnMark (t e : Nat) (k : Token) : SameMems (actOnMark s t e k) s := by
  unfold actOnMark
  dsimp only
  repeat' split
  all_goals simp [SameMems]

@[simp] theorem sameMems_passMark (t e : Nat) (k : Token) : SameMems (passMark s t e k) s := by
  simp [SameMems, passMark]

@[simp] theorem sameMems_drainPassed (k : Nat) : SameMems (drainPassed s k) s := by
  unfold drainPassed
  dsimp only
  repeat' split
  all_goals simp [SameMems]

@[simp] theorem sameMems_passBarrier (t e : Nat) : SameMems (passBarrier s t e) s := by
  unfold passBarrier
  dsimp only
  repeat' split
  all_goals simp [SameMems]

@[simp] theorem sameMems_voidEngines (key stroke : Nat) : SameMems (voidEngines s key stroke) s :=
  ⟨rfl, rfl, rfl⟩

@[simp] theorem sameMems_voidPools (key : Nat) (r : Region) : SameMems (voidPools s key r) s :=
  ⟨rfl, rfl, rfl⟩

@[simp] theorem sameMems_sendMsix (v : Nat) : SameMems (sendMsix s v) s := by
  unfold sendMsix
  dsimp only
  repeat' split
  all_goals simp [SameMems]

@[simp] theorem sameMems_raiseCtxFault (c code : Nat) : SameMems (raiseCtxFault s c code) s := by
  unfold raiseCtxFault
  dsimp only
  repeat' split
  all_goals simp [SameMems]

@[simp] theorem sameMems_dropStopped (die kind src : Nat) : SameMems (dropStopped s die kind src) s :=
  ⟨rfl, rfl, rfl⟩

@[simp] theorem sameMems_countCorrected : SameMems (countCorrected s) s :=
  ⟨rfl, rfl, rfl⟩

@[simp] theorem sameMems_noteDenied (r : Region) : SameMems (noteDenied s r) s := by
  unfold noteDenied
  repeat' split
  all_goals simp [SameMems]

@[simp] theorem sameMems_discardCommands (key : Nat) : SameMems (discardCommands s key) s := by
  unfold discardCommands
  dsimp only
  repeat' split
  all_goals simp [SameMems]

@[simp] theorem sameMems_replyTo (o : Owed) (code info data : Nat) : SameMems (replyTo s o code info data) s :=
  ⟨rfl, rfl, rfl⟩

@[simp] theorem sameMems_replyAll (os : List Owed) (code info : Nat) : SameMems (replyAll s os code info) s := by
  simp [SameMems, replyAll]

@[simp] theorem sameMems_failOwed (key : Nat) : SameMems (failOwed s key) s := by
  unfold failOwed
  dsimp only
  repeat' split
  all_goals simp [SameMems]

@[simp] theorem sameMems_failAllOwed (key : Nat) : SameMems (failAllOwed s key) s := by
  unfold failAllOwed
  dsimp only
  repeat' split
  all_goals simp [SameMems]

@[simp] theorem sameMems_freezeRegion (key : Nat) : SameMems (freezeRegion s key) s :=
  ⟨rfl, rfl, rfl⟩

@[simp] theorem sameMems_settleCtx (c : Nat) : SameMems (settleCtx s c) s :=
  ⟨rfl, rfl, rfl⟩

@[simp] theorem sameMems_freezeGroup (key : Nat) : SameMems (freezeGroup s key) s := by
  unfold freezeGroup
  repeat' split
  all_goals simp [SameMems]

@[simp] theorem sameMems_dropFed (key : Nat) : SameMems (dropFed s key) s := by
  unfold dropFed
  dsimp only
  repeat' split
  all_goals simp [SameMems]

@[simp] theorem sameMems_setLink (k : Nat) (l : Link) : SameMems (State.setLink s k l) s :=
  ⟨rfl, rfl, rfl⟩

@[simp] theorem sameMems_dropFlits (k n : Nat) : SameMems (dropFlits s k n) s :=
  ⟨rfl, rfl, rfl⟩

@[simp] theorem sameMems_holdFlit (k : Nat) (f : Flit) : SameMems (holdFlit s k f) s :=
  ⟨rfl, rfl, rfl⟩

theorem sameMems_of_sendFlit {s t : State} {dst : Nat} {body : FlitBody} (h : sendFlit s dst body = some t) :
    SameMems t s := by
  unfold sendFlit at h
  split at h
  · cases h
  · cases h
    exact ⟨rfl, rfl, rfl⟩

@[simp] theorem sameMems_passFlit (f : Flit) : SameMems (passFlit s f) s := by
  unfold passFlit
  dsimp only
  repeat' split
  all_goals simp [SameMems]

@[simp] theorem sameMems_sendOrDrop (dst : Nat) (body : FlitBody) : SameMems (sendOrDrop s dst body) s := by
  simp [SameMems, sendOrDrop]

@[simp] theorem sameMems_markRemote (pa : Nat) : SameMems (markRemote s pa) s :=
  ⟨rfl, rfl, rfl⟩

@[simp] theorem sameMems_sendStore (dst a1 a2 : Nat) (a3 : List Byte) : SameMems (sendStore dst a1 s a2 a3) s := by
  induction a1 generalizing s a2 a3 with
  | zero => simp [SameMems, sendStore]
  | succ fuel ih =>
    rw [sendStore]
    split <;> simp [SameMems, ih]

@[simp] theorem sameMems_remotePiece (waiter pa len : Nat) : SameMems (remotePiece s waiter pa len).2 s := by
  unfold remotePiece
  split
  · simp [SameMems]
  · dsimp only
    split
    · next t ht => simpa [SameMems] using sameMems_of_sendFlit ht
    · simp [SameMems]

@[simp] theorem sameMems_remoteSpan (waiter : Nat) (a1 : List (Nat × Nat)) :
    SameMems (remoteSpan waiter a1 s).2 s := by
  induction a1 generalizing s with
  | nil => simp [SameMems, remoteSpan]
  | cons p ps ih => simp [SameMems, remoteSpan, ih]

@[simp] theorem sameMems_readSpansAny (waiter va : Nat) (a1 : List (Nat × Nat)) :
    SameMems (readSpansAny waiter va a1 s).2 s := by
  induction a1 generalizing s with
  | nil => simp [SameMems, readSpansAny]
  | cons p ps ih =>
    rw [readSpansAny]
    dsimp only
    split
    · simp [SameMems, ih]
    · split <;> simp [SameMems, ih]

@[simp] theorem sameMems_doneRemotes (waiter : Nat) (spans : List (Nat × Nat)) :
    SameMems (doneRemotes waiter spans s) s :=
  ⟨rfl, rfl, rfl⟩

@[simp] theorem sameMems_readAny (waiter : Nat) (ps : List Page) (va len : Nat) :
    SameMems (readAny s waiter ps va len).2 s := by
  unfold readAny
  dsimp only
  repeat' split
  all_goals simp [SameMems]

@[simp] theorem sameMems_answer (t e : Nat) (q : MemReq) (ws : List PWrite) (res : Bool) :
    SameMems (answer s t e q ws res) s := by
  unfold answer
  dsimp only
  repeat' split
  all_goals simp [SameMems]

@[simp] theorem sameMems_modReq (t e rq : Nat) (f : MemReq → MemReq) : SameMems (modReq s t e rq f) s :=
  ⟨rfl, rfl, rfl⟩

@[simp] theorem sameMems_elemTranslate (t e va len : Nat) (want : Want) :
    SameMems (elemTranslate s t e va len want).2 s := by
  simp [SameMems, elemTranslate]

@[simp] theorem sameMems_modStores (t : Nat) (f : RStore → RStore) : SameMems (modStores s t f) s := by
  unfold modStores
  repeat' split
  all_goals simp [SameMems]

@[simp] theorem sameMems_islandForward (en : Nat) (k : Token) : SameMems (islandForward s en k) s := by
  unfold islandForward
  refine sameMems_foldl (fun s g => ?_) _ s
  split <;> simp [SameMems]

@[simp] theorem sameMems_releaseBoundary (key : Nat) : SameMems (releaseBoundary s key) s := by
  unfold releaseBoundary
  repeat' split
  · exact ⟨rfl, rfl, rfl⟩
  · exact ⟨rfl, rfl, rfl⟩
  · exact ⟨rfl, rfl, rfl⟩
  · exact ⟨rfl, rfl, rfl⟩
  · refine SameMems.trans ⟨rfl, rfl, rfl⟩ (sameMems_foldl (fun s p => ?_) _ s)
    split <;> simp [SameMems]

@[simp] theorem sameMems_regionArrival (r : Region) : SameMems (regionArrival s r) s := by
  unfold regionArrival
  dsimp only
  repeat' split
  all_goals simp [SameMems]

@[simp] theorem sameMems_sendArrivals (key : Nat) : SameMems (sendArrivals s key) s := by
  unfold sendArrivals
  dsimp only
  repeat' split
  all_goals simp [SameMems]

@[simp] theorem sameMems_setEngTlb (en : Nat) (tlb : List TlbEntry) : SameMems (setEngTlb s en tlb) s := by
  unfold setEngTlb
  dsimp only
  repeat' split
  all_goals simp [SameMems]

@[simp] theorem sameMems_engAccess (en ctx : Nat) (va : Int) (len : Nat) (wr : Bool) :
    SameMems (engAccess s en ctx va len wr).2 s := by
  simp [SameMems, engAccess]

@[simp] theorem sameMems_engRead (en ctx : Nat) (va : Int) (len : Nat) (full : Bool) :
    SameMems (engRead s en ctx va len full).2 s := by
  grind [engRead, sameMems_readAny, sameMems_engAccess]

@[simp] theorem sameMems_pushReply (en : Nat) (c : Cmd) : SameMems (pushReply s en c) s := by
  unfold pushReply
  dsimp only
  repeat' split
  all_goals simp [SameMems]

@[simp] theorem sameMems_readWords (en ctx va n : Nat) : SameMems (readWords s en ctx va n).2 s := by
  grind [readWords, sameMems_engRead]

@[simp] theorem sameMems_readGroup (en ctx va : Nat) : SameMems (readGroup s en ctx va).2 s := by
  unfold readGroup
  split
  · next h => exact sameMems_of_eq h (sameMems_engRead ..)
  · next h => exact sameMems_of_eq h (sameMems_engRead ..)
  · next bs u h =>
    have hu := sameMems_of_eq h (sameMems_engRead ..)
    dsimp only
    split
    · exact hu
    · split
      · next h' => exact (sameMems_of_eq h' (sameMems_engRead ..)).trans hu
      · next h' => exact (sameMems_of_eq h' (sameMems_engRead ..)).trans hu
      · next es v h' =>
        have hv := (sameMems_of_eq h' (sameMems_engRead ..)).trans hu
        grind [sameMems_readWords]

@[simp] theorem sameMems_modCore' (en : Nat) (f : IslandCore → IslandCore) : SameMems (modCore' s en f) s :=
  ⟨rfl, rfl, rfl⟩

theorem sameMems_of_readStep {s t : State} {r : ReadOut × State} {k : List Byte → State → State} (hr : SameMems r.2 s)
    (hk : ∀ bs u, SameMems (k bs u) u) (h : readStep r k = .go t) : SameMems t s := by
  obtain ⟨_ | _ | _, u⟩ := r <;> grind [readStep]

theorem sameMems_of_loadStep {s t : State} {en : Nat} (h : loadStep s en = .go t) : SameMems t s := by
  simp only [loadStep] at h
  split at h
  · next l _ _ _ _ _ =>
    split at h
    · cases h
    · split at h
      · have hd := sameMems_engRead s en (ctxOf s l.region) l.descVa 32 false
        revert h hd
        rcases engRead s en (ctxOf s l.region) l.descVa 32 false with ⟨_ | _ | _, u⟩ <;> grind [sameMems_modCore']
      · split at h
        · exact sameMems_of_readStep (sameMems_engRead ..) (fun _ _ => by simp [SameMems]) h
        · split at h
          · split at h
            · cases h
            · split at h
              · cases h
              · cases h
                simp [SameMems]
          · exact sameMems_of_readStep (sameMems_engRead ..) (fun _ _ => by simp [SameMems]) h
  · cases h

@[simp] theorem sameMems_failLoad (en code va : Nat) : SameMems (failLoad s en code va) s :=
  ⟨rfl, rfl, rfl⟩

@[simp] theorem sameMems_takePoison (en : Nat) : SameMems (takePoison s en) s :=
  ⟨rfl, rfl, rfl⟩

@[simp] theorem sameMems_hwNotice (ctx die bit_ : Nat) : SameMems (hwNotice s ctx die bit_) s := by
  unfold hwNotice
  repeat' split
  all_goals simp [SameMems]

@[simp] theorem sameMems_startRows (en : Nat) (r : RunSeq) (af bf : Fmt) : SameMems (startRows s en r af bf) s :=
  ⟨rfl, rfl, rfl⟩

@[simp] theorem sameMems_throttle (en : Nat) (r : RunSeq) : SameMems (throttle s en r) s := by
  unfold throttle
  dsimp only
  repeat' split
  all_goals simp [SameMems]

@[simp] theorem sameMems_markHeld (en : Nat) : SameMems (markHeld s en) s :=
  ⟨rfl, rfl, rfl⟩

@[simp] theorem sameMems_modStreamer (en : Nat) (f : Streamer → Streamer) : SameMems (State.modStreamer s en f) s :=
  ⟨rfl, rfl, rfl⟩

theorem sameMems_of_takeSlots {s t : State} {tile : Nat} {n : Fin 8} {k : Nat} {bs : List Byte}
    (h : takeSlots s tile n k = some (bs, t)) : SameMems t s := by
  induction k generalizing t bs with
  | zero => grind [takeSlots]
  | succ k ih =>
    simp only [takeSlots] at h
    split at h
    · cases h
    · next u hu =>
      split at h
      · cases h
      · cases h
        exact SameMems.trans (sameMems_setRing ..) (ih hu)

theorem sameMems_of_fillSlots {s t : State} {tile : Nat} {n : Fin 8} {k : Nat} {bs : List Byte}
    (h : fillSlots s tile n k bs = some t) : SameMems t s := by
  induction k generalizing s bs with
  | zero => grind [fillSlots]
  | succ k ih =>
    simp only [fillSlots] at h
    split at h
    · cases h
    · simpa [SameMems] using ih h

@[simp] theorem sameMems_endStream (en code : Nat) : SameMems (endStream s en code) s := by
  unfold endStream
  dsimp only
  repeat' split
  all_goals simp [SameMems]

@[simp] theorem sameMems_startStream (en : Nat) : SameMems (startStream s en) s := by
  unfold startStream
  dsimp only
  repeat' split
  all_goals simp [SameMems]

@[simp] theorem sameMems_modExpander (en : Nat) (f : Expander → Expander) : SameMems (State.modExpander s en f) s :=
  ⟨rfl, rfl, rfl⟩

@[simp] theorem sameMems_modXpJob (en : Nat) (f : XpJob → XpJob) : SameMems (modXpJob s en f) s :=
  ⟨rfl, rfl, rfl⟩

@[simp] theorem sameMems_xpToken (en : Nat) : SameMems (xpToken s en) s := by
  unfold xpToken
  dsimp only
  repeat' split
  all_goals simp [SameMems]

@[simp] theorem sameMems_nextBlock (en : Nat) : SameMems (nextBlock s en) s :=
  ⟨rfl, rfl, rfl⟩

@[simp] theorem sameMems_poisonLoad (a1 a2 : Nat) : SameMems (poisonLoad a1 a2 s) s := by
  induction a1 generalizing s with
  | zero => exact ⟨rfl, rfl, rfl⟩
  | succ fuel ih =>
    rw [poisonLoad]
    dsimp only
    split
    · exact ⟨rfl, rfl, rfl⟩
    · split
      · exact ⟨rfl, rfl, rfl⟩
      · split
        · simp [SameMems]
        · split
          · next u hu => exact (ih u).trans (sameMems_of_loadStep hu)
          · exact ⟨rfl, rfl, rfl⟩

@[simp] theorem sameMems_poisonPort (en : Nat) (j : XpJob) : SameMems (poisonPort s en j) s := by
  unfold poisonPort
  dsimp only
  repeat' split
  all_goals simp [SameMems]

@[simp] theorem sameMems_startExpander (en : Nat) : SameMems (startExpander s en) s := by
  unfold startExpander
  dsimp only
  repeat' split
  all_goals simp [SameMems]

@[simp] theorem sameMems_modWeir (en : Nat) (f : Weir → Weir) : SameMems (State.modWeir s en f) s :=
  ⟨rfl, rfl, rfl⟩

@[simp] theorem sameMems_startWeir (en : Nat) : SameMems (startWeir s en) s := by
  unfold startWeir
  dsimp only
  repeat' split
  all_goals simp [SameMems]

@[simp] theorem sameMems_setPool (die n : Nat) (p : Pool) : SameMems (State.setPool s die n p) s :=
  ⟨rfl, rfl, rfl⟩

@[simp] theorem sameMems_stopJob (en : Nat) (b : Bool) : SameMems (stopJob s en b) s := by
  unfold stopJob
  repeat' split
  all_goals simp [SameMems]

@[simp] theorem sameMems_endJob (en code : Nat) : SameMems (endJob s en code) s := by
  unfold endJob
  repeat' split
  all_goals simp [SameMems]

@[simp] theorem sameMems_takeCommand (en : Nat) : SameMems (takeCommand s en) s := by
  unfold takeCommand
  repeat' split
  all_goals simp [SameMems]

@[simp] theorem sameMems_dropReply (en : Nat) : SameMems (dropReply s en) s := by
  unfold dropReply
  repeat' split
  all_goals simp [SameMems]

theorem sameMems_of_deliverReply {s t : State} {en key : Nat} {tok : Token} (h : deliverReply s en key tok = some t) :
    SameMems t s := by
  grind [deliverReply, sameMems_deliver]

@[simp] theorem sameMems_laneDid (d : Did) : SameMems (laneDid s d) s :=
  ⟨rfl, rfl, rfl⟩

@[simp] theorem sameMems_pumpAccess (ea : Int) (len : Nat) (want : Want) (word : Bool) :
    SameMems (pumpAccess s ea len want word).2 s := by
  unfold pumpAccess
  dsimp only
  repeat' split
  all_goals simp [SameMems]

@[simp] theorem sameMems_cacheFill (cn line : Nat) : SameMems (cacheFill s cn line) s := by
  unfold cacheFill
  dsimp only
  repeat' split
  all_goals simp [SameMems]

@[simp] theorem sameMems_cachedRead (cn a1 a2 a3 : Nat) : SameMems (cachedRead cn a1 s a2 a3).2 s := by
  induction a1 generalizing s a2 a3 with
  | zero => simp [SameMems, cachedRead]
  | succ fuel ih =>
    rw [cachedRead]
    split <;> simp [SameMems, ih]

@[simp] theorem sameMems_loadRules (c : Nat) (ws : List W64) : SameMems (loadRules s c ws) s :=
  ⟨rfl, rfl, rfl⟩

@[simp] theorem sameMems_beginPumpRound (cn : Nat) : SameMems (beginPumpRound s cn) s := by
  unfold beginPumpRound
  dsimp only
  repeat' split
  all_goals simp [SameMems]

@[simp] theorem sameMems_cfgPut (t a1 v : Nat) : SameMems (cfgPut s t a1 v) s := by
  unfold cfgPut
  dsimp only
  repeat' split
  all_goals simp [SameMems]

@[simp] theorem sameMems_laidOver (key : Nat) (r : Region) (m : Image) : SameMems (laidOver s key r m) s := by
  simp [SameMems, laidOver]

@[simp] theorem sameMems_unitAccess (die ctx : Nat) (va : Int) (len : Nat) (wr : Bool) :
    SameMems (unitAccess s die ctx va len wr).2 s := by
  simp [SameMems, unitAccess]

@[simp] theorem sameMems_unitRead (die ctx waiter : Nat) (va : Int) (len : Nat) :
    SameMems (unitRead s die ctx waiter va len).2 s := by
  grind [unitRead, sameMems_readAny, sameMems_unitAccess]

@[simp] theorem sameMems_blankTiles (r : Region) : SameMems (blankTiles s r) s :=
  ⟨rfl, rfl, rfl⟩

theorem sameMems_of_allocRegion {s t : State} {ctx w k : Nat} (h : allocRegion s ctx w = .ok (k, t)) : SameMems t s := by
  simp only [allocRegion] at h
  repeat' split at h
  · cases h
  · cases h
  · cases h
  · cases h
  · cases h
  · cases h
    simp [SameMems]

@[simp] theorem sameMems_releaseRegion (key : Nat) : SameMems (releaseRegion s key) s := by
  unfold releaseRegion
  dsimp only
  repeat' split
  all_goals simp [SameMems]

@[simp] theorem sameMems_restoreToken (r : Region) (m : Image) (x : SavedToken) :
    SameMems (restoreToken r m s x) s := by
  unfold restoreToken
  dsimp only
  repeat' split
  all_goals simp [SameMems]

@[simp] theorem sameMems_placeImage (key : Nat) (r : Region) (m : Image) : SameMems (placeImage s key r m) s := by
  unfold placeImage
  dsimp only
  repeat' split
  all_goals simp [SameMems]

@[simp] theorem sameMems_verifyImage (m : Image) : SameMems (verifyImage s m).2 s := by
  unfold verifyImage
  dsimp only
  repeat' split
  all_goals simp [SameMems]

@[simp] theorem sameMems_writeImage (key : Nat) (r : Region) (m : Image) (level va : Nat) :
    SameMems (writeImage s key r m level va) s := by
  have hbind (u : State) : SameMems (match u.region key with
      | some r => (regionIslands u r).foldl (fun s en => s.modIsland en (bindIsland r.stroke m.h.state))
          (freezeEngines u r m.h.state)
      | none => u) u := by
    split <;> simp [SameMems]
  unfold writeImage
  refine (sameMems_foldl (fun s b => ?_) _ _).trans (SameMems.trans (hbind _) ?_)
  · split <;> simp [SameMems]
  · simp [SameMems]

@[simp] theorem sameMems_readImage (die ctx waiter va : Nat) : SameMems (readImage s die ctx waiter va).2 s := by
  unfold readImage
  repeat' split
  all_goals simp [SameMems]

@[simp] theorem sameMems_refusalWord (x : Refuse) : SameMems (refusalWord s x).2 s :=
  ⟨rfl, rfl, rfl⟩

@[simp] theorem sameMems_saveShadow (key : Nat) : SameMems (saveShadow s key) s := by
  unfold saveShadow
  repeat' split
  all_goals simp [SameMems]

@[simp] theorem sameMems_emptyPorts (key : Nat) (r : Region) : SameMems (emptyPorts s key r) s := by
  simp [SameMems, emptyPorts]

@[simp] theorem sameMems_restoreShadow (key : Nat) : SameMems (restoreShadow s key) s := by
  unfold restoreShadow
  dsimp only
  repeat' split
  all_goals simp [SameMems]

@[simp] theorem sameMems_reapplySection (m : Image) (r : Region) (x : Section) :
    SameMems (reapplySection s m r x) s :=
  ⟨rfl, rfl, rfl⟩

theorem sameMems_of_reapply {s t : State} {r : Region} {b : List Byte} (h : reapply s r b = some t) : SameMems t s := by
  simp only [reapply] at h
  split at h
  · cases h
    simp [SameMems]
  · cases h

@[simp] theorem sameMems_beginPrime (key : Nat) (k : BitVec 2) (owed : Option Owed) :
    SameMems (beginPrime s key k owed) s := by
  unfold beginPrime
  dsimp only
  repeat' split
  all_goals simp [SameMems]

@[simp] theorem sameMems_endPrime (key : Nat) (k : BitVec 2) : SameMems (endPrime s key k) s := by
  unfold endPrime
  dsimp only
  repeat' split
  all_goals simp [SameMems]

@[simp] theorem sameMems_releaseKernel (key : Nat) (l : Launch) : SameMems (releaseKernel s key l) s := by
  unfold releaseKernel
  dsimp only
  repeat' split
  all_goals simp [SameMems]

@[simp] theorem sameMems_thawRegion (key : Nat) : SameMems (thawRegion s key) s := by
  unfold thawRegion
  dsimp only
  repeat' split
  all_goals simp [SameMems]

@[simp] theorem sameMems_digestPiece (r : Region) (waiter : Nat) (p : Nat × Nat) :
    SameMems (digestPiece s r waiter p).2 s := by
  grind [digestPiece, sameMems_readSpansAny, sameMems_unitAccess, sameMems_drawNat]

@[simp] theorem sameMems_digestPieces (r : Region) (waiter : Nat) (a1 : List (Nat × Nat)) :
    SameMems (digestPieces r waiter a1 s).2 s := by
  induction a1 generalizing s with
  | nil => simp [SameMems, digestPieces]
  | cons p ps ih => simp [SameMems, digestPieces, ih]

@[simp] theorem sameMems_kernelDigest (r : Region) (waiter : Nat) : SameMems (kernelDigest s r waiter).2 s := by
  grind [kernelDigest, sameMems_digestPieces]

@[simp] theorem sameMems_qAccess (q : Nat) (va : Int) (len : Nat) (wr : Bool) :
    SameMems (qAccess s q va len wr).2 s := by
  simp [SameMems, qAccess]

@[simp] theorem sameMems_qRead (q va len : Nat) : SameMems (qRead s q va len).2 s := by
  grind [qRead, sameMems_readAny, sameMems_qAccess]

@[simp] theorem sameMems_modStarted (q idx : Nat) (f : Started → Started) : SameMems (modStarted s q idx f) s :=
  ⟨rfl, rfl, rfl⟩

@[simp] theorem sameMems_settleQueue (q : Nat) : SameMems (settleQueue s q) s := by
  unfold settleQueue
  dsimp only
  repeat' split
  all_goals simp [SameMems]

@[simp] theorem sameMems_hostRecord (pa : Nat) : SameMems (hostRecord s pa).2 s :=
  ⟨rfl, rfl, rfl⟩

@[simp] theorem sameMems_enableQueue (q : Nat) : SameMems (enableQueue s q) s := by
  unfold enableQueue
  dsimp only
  repeat' split
  all_goals simp [SameMems]

@[simp] theorem sameMems_disableQueue (q : Nat) : SameMems (disableQueue s q) s := by
  unfold disableQueue
  dsimp only
  repeat' split
  all_goals simp [SameMems]

@[simp] theorem sameMems_freeFailed (q : Nat) : SameMems (freeFailed s q) s := by
  simp [SameMems, freeFailed]

@[simp] theorem sameMems_retryQueue (q : Nat) : SameMems (retryQueue s q) s := by
  unfold retryQueue
  dsimp only
  repeat' split
  all_goals simp [SameMems]

@[simp] theorem sameMems_skipQueue (q : Nat) : SameMems (skipQueue s q) s := by
  unfold skipQueue
  dsimp only
  repeat' split
  all_goals simp [SameMems]

@[simp] theorem sameMems_queueCommand (q cmd : Nat) : SameMems (queueCommand s q cmd) s := by
  unfold queueCommand
  repeat' split
  all_goals simp [SameMems]

@[simp] theorem sameMems_recordImage (q : Nat) (b : Rec) : SameMems (recordImage s q b).2 s := by
  simp [SameMems, recordImage]

@[simp] theorem sameMems_loadMember (m : Member) : SameMems (loadMember s m).2 s := by
  grind [loadMember, sameMems_verifyImage, sameMems_writeImage]

@[simp] theorem sameMems_giveBack (m : Member) : SameMems (giveBack s m) s := by
  unfold giveBack
  repeat' split
  all_goals simp [SameMems]

@[simp] theorem sameMems_refusePlace (q idx die : Nat) : SameMems (refusePlace s q idx die) s :=
  ⟨rfl, rfl, rfl⟩

@[simp] theorem sameMems_primeRecord (q idx key : Nat) (b : Rec) (m : Image) :
    SameMems (primeRecord s q idx key b m).1 s := by
  unfold primeRecord
  dsimp only
  repeat' split
  all_goals simp [SameMems]

@[simp] theorem sameMems_takeStarted (q : Nat) (st : Started) : SameMems (takeStarted s q st) s :=
  ⟨rfl, rfl, rfl⟩

@[simp] theorem sameMems_headWait (q : Nat) (st : Started) (va wv : Nat) (k : State → HeadState × State)
    (hk : ∀ u, SameMems (k u).2 u) :
    SameMems (headWait s q st va wv k).2 s := by
  grind [headWait, sameMems_qRead]

@[simp] theorem sameMems_readMembers (q n i : Nat) : SameMems (readMembers q n i s).2 s := by
  induction n generalizing s i with
  | zero => exact ⟨rfl, rfl, rfl⟩
  | succ n ih => grind [readMembers, sameMems_qRead]

@[simp] theorem sameMems_readGroupWords (q : Nat) (bs : List Rec) : SameMems (readGroupWords q bs s).2 s := by
  induction bs generalizing s with
  | nil => exact ⟨rfl, rfl, rfl⟩
  | cons b bs ih => grind [readGroupWords, sameMems_qRead]

@[simp] theorem sameMems_groupHead (q : Nat) (st : Started) : SameMems (groupHead s q st).2 s := by
  grind [groupHead, sameMems_qRead, sameMems_readMembers, sameMems_readGroupWords]

@[simp] theorem sameMems_imageLow (q : Nat) (b : Rec) : SameMems (imageLow s q b).2 s := by
  grind [imageLow, sameMems_qRead]

@[simp] theorem sameMems_judgeHead (q : Nat) (st : Started) : SameMems (judgeHead s q st).2 s := by
  unfold judgeHead
  dsimp only
  split
  · exact ⟨rfl, rfl, rfl⟩
  · split
    · next u h => exact sameMems_of_eq h (sameMems_imageLow ..)
    · next u h => exact sameMems_of_eq h (sameMems_imageLow ..)
    · next u h =>
      refine (sameMems_headWait _ _ _ _ _ _ fun u => sameMems_headWait _ _ _ _ _ _ fun u => ?_).trans
        (sameMems_of_eq h (sameMems_imageLow ..))
      split
      · exact ⟨rfl, rfl, rfl⟩
      · split
        · exact sameMems_groupHead ..
        · exact ⟨rfl, rfl, rfl⟩

@[simp] theorem sameMems_headOf (q : Nat) : SameMems (headOf s q).2 s := by
  grind [headOf, sameMems_qRead, sameMems_judgeHead]

@[simp] theorem sameMems_layMembers (ms : List Member) : SameMems (layMembers s ms) s := by
  unfold layMembers
  refine sameMems_foldl (fun s m => ?_) _ s
  repeat' split
  all_goals simp [SameMems]

@[simp] theorem sameMems_loadMembers (ms : List Member) : SameMems (loadMembers ms s).2 s := by
  induction ms generalizing s with
  | nil => exact ⟨rfl, rfl, rfl⟩
  | cons m ms ih => grind [loadMembers, sameMems_loadMember]

@[simp] theorem sameMems_primeMembers (q a1 : Nat) (a2 : List (Rec × Nat × Image)) :
    SameMems (primeMembers q a1 a2 s) s := by
  induction a2 generalizing s a1 with
  | nil => exact ⟨rfl, rfl, rfl⟩
  | cons m ms ih =>
    obtain ⟨b, key, im⟩ := m
    simp [SameMems, primeMembers, ih]

@[simp] theorem sameMems_bindTrigger (die ctx k : Nat) (d : List Byte) : SameMems (bindTrigger s die ctx k d) s :=
  ⟨rfl, rfl, rfl⟩

@[simp] theorem sameMems_unbindTrigger (ctx k : Nat) : SameMems (unbindTrigger s ctx k) s :=
  ⟨rfl, rfl, rfl⟩

@[simp] theorem sameMems_judgeHeads (a1 : List Nat) : SameMems (judgeHeads a1 s).2 s := by
  induction a1 generalizing s with
  | nil => exact ⟨rfl, rfl, rfl⟩
  | cons q qs ih => simp [SameMems, judgeHeads, ih]

@[simp] theorem sameMems_endGroup (gid : Nat) (g : Group) : SameMems (endGroup s gid g) s := by
  unfold endGroup
  refine SameMems.trans ⟨rfl, rfl, rfl⟩ (sameMems_foldl (fun s k => ?_) g.members s)
  dsimp only
  repeat' split
  all_goals simp [SameMems]

@[simp] theorem sameMems_settleGroup (gid : Nat) : SameMems (settleGroup s gid) s := by
  unfold settleGroup
  dsimp only
  repeat' split
  all_goals simp [SameMems]

@[simp] theorem sameMems_setStepBarrier (ctx b : Nat) (members : List Region) :
    SameMems (setStepBarrier s ctx b members) s :=
  ⟨rfl, rfl, rfl⟩

theorem sameMems_of_reloadTile {s u : State} {m : Image} {r : Region} {t : Nat} (h : reloadTile s m r t = some u) :
    SameMems u s := by
  simp only [reloadTile] at h
  repeat' split at h
  all_goals cases h
  all_goals exact ⟨rfl, rfl, rfl⟩

theorem sameMems_of_reloadTiles {s u : State} {m : Image} {r : Region} {ts : List Nat}
    (h : ts.foldl (fun (o : Option State) t => o.bind fun s => reloadTile s m r t) (some s) = some u) : SameMems u s := by
  induction ts generalizing s with
  | nil =>
    cases h
    exact ⟨rfl, rfl, rfl⟩
  | cons t ts ih =>
    rw [List.foldl_cons, Option.bind_some] at h
    cases ht : reloadTile s m r t with
    | none =>
      rw [ht] at h
      have hnone : ts.foldl (fun (o : Option State) t => o.bind fun s => reloadTile s m r t) none = none := by
        clear h ih
        induction ts with
        | nil => rfl
        | cons _ _ ih' => exact ih'
      rw [hnone] at h
      cases h
    | some v =>
      rw [ht] at h
      exact (ih h).trans (sameMems_of_reloadTile ht)

@[simp] theorem sameMems_noteRetired (r : Region) (digest : List Byte) : SameMems (noteRetired s r digest) s := by
  unfold noteRetired
  repeat' split
  all_goals simp [SameMems]

@[simp] theorem sameMems_setTrigger (bk : Nat) (t : Trigger) : SameMems (setTrigger s bk t) s :=
  ⟨rfl, rfl, rfl⟩

@[simp] theorem sameMems_rewatch : SameMems (rewatch s) s :=
  ⟨rfl, rfl, rfl⟩

@[simp] theorem sameMems_dropSlices (w : Scope_) : SameMems (dropSlices s w) s :=
  ⟨rfl, rfl, rfl⟩

@[simp] theorem sameMems_dropCore (w : Scope_) (c : Nat) : SameMems (dropCore s w c) s :=
  ⟨rfl, rfl, rfl⟩

@[simp] theorem sameMems_hostShoot (w : Scope_) : SameMems (hostShoot s w) s := by
  unfold hostShoot
  refine sameMems_foldl (fun s g => ?_) _ s
  split <;> simp [SameMems]

@[simp] theorem sameMems_ackShoots (c : Nat) : SameMems (ackShoots s c) s := by
  simp [SameMems, ackShoots]

@[simp] theorem sameMems_advanceEpochs : SameMems (advanceEpochs s) s :=
  ⟨rfl, rfl, rfl⟩

@[simp] theorem sameMems_copyMarks (old new n : Nat) : SameMems (copyMarks s old new n) s :=
  ⟨rfl, rfl, rfl⟩

@[simp] theorem sameMems_owedReply (o : Option Owed) (code : Nat) : SameMems (owedReply s o code) s := by
  unfold owedReply
  repeat' split
  all_goals simp [SameMems]

@[simp] theorem sameMems_failWalks (c va : Nat) : SameMems (failWalks s c va) s := by
  unfold failWalks
  dsimp only
  repeat' split
  all_goals simp [SameMems]

@[simp] theorem sameMems_resumeSource (die v : Nat) : SameMems (resumeSource s die v) s := by
  unfold resumeSource
  dsimp only
  repeat' split
  all_goals simp [SameMems]

@[simp] theorem sameMems_takeOver (k : Nat) : SameMems (takeOver s k) s := by
  unfold takeOver
  dsimp only
  repeat' split
  all_goals simp [SameMems]

@[simp] theorem sameMems_slackStep (x : Barrier) (by_ : Nat) : SameMems (slackStep s x by_) s := by
  unfold slackStep
  dsimp only
  repeat' split
  all_goals simp [SameMems]

@[simp] theorem sameMems_setBarrier (bk : Nat) (x : Barrier) : SameMems (State.setBarrier s bk x) s :=
  ⟨rfl, rfl, rfl⟩

@[simp] theorem sameMems_switchGroup (bk : Nat) (p : Nat × Group) : SameMems (switchGroup bk s p) s := by
  unfold switchGroup
  dsimp only
  repeat' split
  all_goals simp [SameMems]

@[simp] theorem sameMems_toldComplete (bk by_ n : Nat) : SameMems (toldComplete s bk by_ n) s := by
  unfold toldComplete
  dsimp only
  repeat' split
  all_goals simp [SameMems]

@[simp] theorem sameMems_completeBarrier (bk by_ : Nat) : SameMems (completeBarrier s bk by_) s := by
  simp [SameMems, completeBarrier]

@[simp] theorem sameMems_arriveAt (bk : Nat) (who : Option Nat) (from_ : Nat) :
    SameMems (arriveAt s bk who from_) s := by
  unfold arriveAt
  dsimp only
  repeat' split
  all_goals simp [SameMems]

@[simp] theorem sameMems_configureBarrier (bk count scope root : Nat) :
    SameMems (configureBarrier s bk count scope root) s :=
  ⟨rfl, rfl, rfl⟩

@[simp] theorem sameMems_resetBarriers (ctx : Nat) : SameMems (resetBarriers s ctx) s :=
  ⟨rfl, rfl, rfl⟩

@[simp] theorem sameMems_setStopped (b : Bool) (c : Nat) : SameMems (setStopped b s c) s :=
  ⟨rfl, rfl, rfl⟩

@[simp] theorem sameMems_freezeCtx (c : Nat) : SameMems (freezeCtx s c) s := by
  simp [SameMems, freezeCtx]

@[simp] theorem sameMems_endCmd (c res : Nat) : SameMems (endCmd s c res) s :=
  ⟨rfl, rfl, rfl⟩

@[simp] theorem sameMems_popJob : SameMems (popJob s) s :=
  ⟨rfl, rfl, rfl⟩

@[simp] theorem sameMems_markJob : SameMems (markJob s) s :=
  ⟨rfl, rfl, rfl⟩

@[simp] theorem sameMems_applyFault (c : Nat) : SameMems (applyFault s c) s := by
  unfold applyFault
  repeat' split
  all_goals simp [SameMems]

@[simp] theorem sameMems_ctxCreate (c : Nat) : SameMems (ctxCreate s c) s := by
  unfold ctxCreate
  dsimp only
  repeat' split
  all_goals simp [SameMems]

@[simp] theorem sameMems_grantCores (c : Nat) (old : List Nat) : SameMems (grantCores s c old) s := by
  simp [SameMems, grantCores]

@[simp] theorem sameMems_ctxBind (c : Nat) : SameMems (ctxBind s c) s := by
  unfold ctxBind
  dsimp only
  repeat' split
  all_goals simp [SameMems]

@[simp] theorem sameMems_ctxFreezeCmd (c : Nat) : SameMems (ctxFreezeCmd s c) s := by
  unfold ctxFreezeCmd
  dsimp only
  repeat' split
  all_goals simp [SameMems]

@[simp] theorem sameMems_ctxThawCmd (c : Nat) : SameMems (ctxThawCmd s c) s := by
  unfold ctxThawCmd
  dsimp only
  repeat' split
  all_goals simp [SameMems]

@[simp] theorem sameMems_ctxSwapin (c : Nat) : SameMems (ctxSwapin s c) s := by
  unfold ctxSwapin
  repeat' split
  all_goals simp [SameMems]

@[simp] theorem sameMems_ctxClear (c : Nat) : SameMems (ctxClear s c) s := by
  unfold ctxClear
  repeat' split
  all_goals simp [SameMems]

@[simp] theorem sameMems_tripCtx (c : Nat) : SameMems (tripCtx s c) s := by
  unfold tripCtx
  repeat' split
  all_goals simp [SameMems]

@[simp] theorem sameMems_clearTrip (c : Nat) : SameMems (clearTrip s c) s := by
  unfold clearTrip
  repeat' split
  all_goals simp [SameMems]

@[simp] theorem sameMems_beginFault (c : Nat) : SameMems (beginFault s c) s := by
  unfold beginFault
  repeat' split
  all_goals simp [SameMems]

@[simp] theorem sameMems_killQueue (q : Nat) : SameMems (killQueue s q) s :=
  ⟨rfl, rfl, rfl⟩

@[simp] theorem sameMems_killCore (c : Nat) : SameMems (killCore s c) s := by
  simp [SameMems, killCore]

@[simp] theorem sameMems_freeCore (c : Nat) : SameMems (freeCore s c) s :=
  ⟨rfl, rfl, rfl⟩

@[simp] theorem sameMems_saveCore (c k : Nat) : SameMems (saveCore s c k) s :=
  ⟨rfl, rfl, rfl⟩

@[simp] theorem sameMems_restoreCore (c k : Nat) : SameMems (restoreCore c s k) s := by
  unfold restoreCore
  repeat' split
  all_goals simp [SameMems]

@[simp] theorem sameMems_swapAway (c : Nat) : SameMems (swapAway s c) s := by
  simp [SameMems, swapAway]

@[simp] theorem sameMems_swapBack (c : Nat) : SameMems (swapBack s c) s := by
  simp [SameMems, swapBack]

@[simp] theorem sameMems_setFrozen (c : Nat) : SameMems (setFrozen s c) s :=
  ⟨rfl, rfl, rfl⟩

@[simp] theorem sameMems_modClaims (wl : Nat) (f : Claim → Claim) : SameMems (modClaims s wl f) s :=
  ⟨rfl, rfl, rfl⟩

@[simp] theorem sameMems_modExtent (wl no : Nat) (f : Extent → Extent) : SameMems (modExtent s wl no f) s :=
  ⟨rfl, rfl, rfl⟩

@[simp] theorem sameMems_loseSpan (wl no : Nat) (f l : Int) : SameMems (loseSpan s wl no f l) s := by
  unfold loseSpan
  repeat' split
  all_goals simp [SameMems]

@[simp] theorem sameMems_settleWell (wl : Nat) : SameMems (settleWell s wl) s :=
  ⟨rfl, rfl, rfl⟩

@[simp] theorem sameMems_touchMonitors (pa len : Nat) : SameMems (touchMonitors s pa len) s :=
  ⟨rfl, rfl, rfl⟩

@[simp] theorem sameMems_lookTriggers (wl : Nat) : SameMems (lookTriggers s wl) s :=
  ⟨rfl, rfl, rfl⟩

@[simp] theorem sameMems_issueClaim (wl : Nat) (c : Claim) : SameMems (issueClaim s wl c).2 s :=
  ⟨rfl, rfl, rfl⟩

@[simp] theorem sameMems_countPower (f : Power → Power) (key : Nat) : SameMems (countPower f s key) s :=
  ⟨rfl, rfl, rfl⟩

@[simp] theorem sameMems_enterHint (issue : Nat) (q : HintReq) : SameMems (enterHint issue s q) s := by
  unfold enterHint
  dsimp only
  repeat' split
  all_goals simp [SameMems]

@[simp] theorem sameMems_drySlide (from_ : Nat) (p : Nat × List Hint) : SameMems (drySlide from_ s p) s := by
  unfold drySlide
  dsimp only
  repeat' split
  all_goals simp [SameMems]

@[simp] theorem sameMems_denyNotices : SameMems (denyNotices s) s := by
  simp [SameMems, denyNotices]

@[simp] theorem sameMems_setShares (ctx die : Nat) : SameMems (setShares s ctx die) s :=
  ⟨rfl, rfl, rfl⟩

@[simp] theorem sameMems_allShares : SameMems (allShares s) s := by
  simp [SameMems, allShares]

@[simp] theorem sameMems_listTiles : SameMems (listTiles s) s :=
  ⟨rfl, rfl, rfl⟩

@[simp] theorem sameMems_setSpine (o : Owed) (k mhz : Nat) : SameMems (setSpine s o k mhz) s := by
  simp [SameMems, setSpine]

@[simp] theorem sameMems_answerSpine (k : Nat) : SameMems (answerSpine s k) s := by
  unfold answerSpine
  dsimp only
  repeat' split
  all_goals simp [SameMems]

@[simp] theorem sameMems_selectSpine (o : Owed) (key sel : Nat) : SameMems (selectSpine s o key sel) s := by
  unfold selectSpine
  dsimp only
  repeat' split
  all_goals simp [SameMems]

@[simp] theorem sameMems_thermalNotice (bit_ die : Nat) : SameMems (thermalNotice bit_ s die) s := by
  unfold thermalNotice
  refine sameMems_foldl (fun s c => ?_) _ s
  dsimp only
  split <;> simp [SameMems]

@[simp] theorem sameMems_setLinkState (k : Nat) (st : LinkState) : SameMems (setLinkState s k st) s := by
  unfold setLinkState
  dsimp only
  repeat' split
  all_goals simp [SameMems]

@[simp] theorem sameMems_answerRemote (id : Nat) (data : List Byte) (fault : Nat) :
    SameMems (answerRemote s id data fault) s :=
  ⟨rfl, rfl, rfl⟩

@[simp] theorem sameMems_discardFlit (k : Nat) (f : Flit) : SameMems (discardFlit k s f) s := by
  unfold discardFlit
  dsimp only
  repeat' split
  all_goals simp [SameMems]

@[simp] theorem sameMems_endLink (k : Nat) (st : LinkState) : SameMems (endLink s k st) s := by
  simp [SameMems, endLink]

@[simp] theorem sameMems_setLinkEnable (k : Nat) (en : Bool) : SameMems (setLinkEnable s k en) s := by
  unfold setLinkEnable
  dsimp only
  repeat' split
  all_goals simp [SameMems]

@[simp] theorem sameMems_retrainLink (k : Nat) : SameMems (retrainLink s k) s := by
  unfold retrainLink
  repeat' split
  all_goals simp [SameMems]

@[simp] theorem sameMems_countResent (k : Nat) : SameMems (countResent s k) s :=
  ⟨rfl, rfl, rfl⟩

@[simp] theorem sameMems_forwardFlit (f : Flit) : SameMems (forwardFlit s f) s := by
  unfold forwardFlit
  dsimp only
  repeat' split
  all_goals simp [SameMems]

@[simp] theorem sameMems_setLinkReg (k o v : Nat) : SameMems (setLinkReg s k o v) s := by
  unfold setLinkReg
  dsimp only
  repeat' split
  all_goals simp [SameMems]

@[simp] theorem sameMems_bootFail (step code : Nat) : SameMems (bootFail s step code) s :=
  ⟨rfl, rfl, rfl⟩

@[simp] theorem sameMems_bootReady (bo : BootInput) : SameMems (bootReady s bo) s :=
  ⟨rfl, rfl, rfl⟩

@[simp] theorem sameMems_trainHost : SameMems (trainHost s) s :=
  ⟨rfl, rfl, rfl⟩

@[simp] theorem sameMems_bootSteps (bo : BootInput) : SameMems (bootSteps s bo) s := by
  unfold bootSteps
  repeat' split
  all_goals simp [SameMems]

@[simp] theorem sameMems_sendSpdm (code : Nat) (msg : List Byte) : SameMems (sendSpdm s code msg) s :=
  ⟨rfl, rfl, rfl⟩

@[simp] theorem sameMems_spdmError (e : Nat) : SameMems (spdmError s e) s :=
  ⟨rfl, rfl, rfl⟩

@[simp] theorem sameMems_spdmAnswer (need code : Nat) (rq : SpdmRequest) (k : State → State)
    (hk : ∀ u, SameMems (k u) u) :
    SameMems (spdmAnswer s need code rq k) s := by
  unfold spdmAnswer
  repeat' split
  all_goals simp [SameMems, hk]

@[simp] theorem sameMems_respond (phase code p1 p2 : Nat) (data : List Byte) :
    SameMems (respond s phase code p1 p2 data) s :=
  ⟨rfl, rfl, rfl⟩

@[simp] theorem sameMems_respondSigned (code p1 p2 : Nat) (data : List Byte) :
    SameMems (respondSigned s code p1 p2 data) s :=
  ⟨rfl, rfl, rfl⟩

@[simp] theorem sameMems_freeBytes : SameMems (freeBytes s).2 s :=
  ⟨rfl, rfl, rfl⟩

@[simp] theorem sameMems_clearReg (a1 : MReg) : SameMems (clearReg s a1) s := by
  unfold clearReg
  dsimp only
  repeat' split
  all_goals simp [SameMems]

theorem sameMems_of_mmioRead {s t : State} {off len v : Nat} (h : mmioRead s off len = some (v, t)) : SameMems t s := by
  simp only [mmioRead] at h
  repeat' split at h
  all_goals cases h
  all_goals simp [SameMems]

@[simp] theorem sameMems_setErrlog (o v : Nat) : SameMems (setErrlog s o v) s := by
  unfold setErrlog
  dsimp only
  repeat' split
  all_goals simp [SameMems]

@[simp] theorem sameMems_setVector (v x : Nat) : SameMems (setVector s v x) s := by
  unfold setVector
  dsimp only
  repeat' split
  all_goals simp [SameMems]

@[simp] theorem sameMems_answerHost (x : Sent) : SameMems (answerHost s x) s :=
  ⟨rfl, rfl, rfl⟩

@[simp] theorem sameMems_leaveActs (acts : List CommitAct) : SameMems (leaveActs s acts) s :=
  ⟨rfl, rfl, rfl⟩

@[simp] theorem sameMems_underOwn (pa : Nat) (r : ReadOut × State) : SameMems (underOwn pa r).2 r.2 := by
  obtain ⟨_ | _ | _, u⟩ := r <;> exact ⟨rfl, rfl, rfl⟩

@[simp] theorem sameMems_loadSpan (p : Nat × Nat) : SameMems (loadSpan s p).2 s := by
  have hcache := sameMems_cachedRead s s.actor.core (p.2 / 64 + 2) (localPa p.1) p.2
  unfold loadSpan
  split
  · exact (sameMems_underOwn ..).trans hcache
  · exact (sameMems_underOwn ..).trans hcache
  · split
    · exact ⟨rfl, rfl, rfl⟩
    · exact (sameMems_underOwn ..).trans (sameMems_remoteSpan ..)
  · split
    · exact ⟨rfl, rfl, rfl⟩
    · split
      · exact sameMems_underOwn ..
      · split
        · next hr => exact (sameMems_underOwn ..).trans (sameMems_of_mmioRead hr)
        · exact ⟨rfl, rfl, rfl⟩
  · exact ⟨rfl, rfl, rfl⟩

@[simp] theorem sameMems_loadSpans (a1 : List (Nat × Nat)) : SameMems (loadSpans a1 s).2 s := by
  induction a1 generalizing s with
  | nil => exact ⟨rfl, rfl, rfl⟩
  | cons p ps ih => simp [SameMems, loadSpans, ih]

@[simp] theorem sameMems_remoteAtomic (op : RemoteOp) (n : Bool) (pa len b expected : Nat) :
    SameMems (remoteAtomic s op n pa len b expected).2 s := by
  unfold remoteAtomic
  dsimp only
  split
  · exact ⟨rfl, rfl, rfl⟩
  · split
    · next t ht => simpa [SameMems] using sameMems_of_sendFlit ht
    · simp [SameMems]

@[simp] theorem sameMems_clearCache : SameMems (clearCache s) s :=
  ⟨rfl, rfl, rfl⟩

@[simp] theorem sameMems_pushNote (target : Nat) (word : W64) : SameMems (pushNote s target word) s :=
  ⟨rfl, rfl, rfl⟩

@[simp] theorem sameMems_hashedBytes (waiter : Nat) (x : Nat × Nat × Nat) :
    SameMems (hashedBytes s waiter x).2 s := by
  unfold hashedBytes
  repeat' split
  all_goals simp [SameMems]

@[simp] theorem sameMems_pageHashes (waiter : Nat) (a1 : List (Nat × Nat × Nat)) :
    SameMems (pageHashes waiter a1 s).2.2 s := by
  induction a1 generalizing s with
  | nil => exact ⟨rfl, rfl, rfl⟩
  | cons x xs ih =>
    rw [pageHashes]
    dsimp only
    split <;> simp [SameMems, ih]

@[simp] theorem sameMems_setBqueue (cn : Nat) (v : W64) : SameMems (setBqueue s cn v) s := by
  unfold setBqueue
  dsimp only
  repeat' split
  all_goals simp [SameMems]

@[simp] theorem sameMems_commitRegs (cn k : Nat) (l : Lane) : SameMems (commitRegs s cn k l) s :=
  ⟨rfl, rfl, rfl⟩

@[simp] theorem sameMems_closeRound (cn : Nat) : SameMems (closeRound s cn) s := by
  simp [SameMems, closeRound]

@[simp] theorem sameMems_meetIllegalRule (cn rule : Nat) : SameMems (meetIllegalRule s cn rule) s := by
  unfold meetIllegalRule
  dsimp only
  repeat' split
  all_goals simp [SameMems]

@[simp] theorem sameMems_spinS0 (n die : Nat) : SameMems (spinS0 n s die) s :=
  ⟨rfl, rfl, rfl⟩

@[simp] theorem sameMems_passTime (n : Nat) : SameMems (passTime n s) s :=
  ⟨rfl, rfl, rfl⟩

@[simp] theorem sameMems_nextWork : SameMems (nextWork s).2 s := by
  unfold nextWork
  split <;> exact ⟨rfl, rfl, rfl⟩

end Sys2Proof.Machine
end

section
/-! SUPPORT. The canonical form of the memories (R308, log entry 2) is kept by every operation that writes them, in the order
of the model. -/

namespace Sys2Proof.Machine

/-- The memories are in their canonical form. -/
abbrev MemsWf (s : State) : Prop := s.mem.wf = true ∧ s.deep.wf = true ∧ s.host.wf = true

variable {s : State}

@[simp] theorem memsWf_foldl {α : Type} {f : State → α → State} (hf : ∀ s a, MemsWf s → MemsWf (f s a)) (as : List α)
    (h : MemsWf s) : MemsWf (as.foldl f s) := by
  induction as generalizing s with
  | nil => exact h
  | cons a as ih => exact ih (hf s a h)

theorem memsWf_of_same {s t : State} (ht : SameMems t s) (h : MemsWf s) : MemsWf t := by
  obtain ⟨hm, hd, hh⟩ := ht
  rw [MemsWf, hm, hd, hh]
  exact h

theorem memsWf_of_eq {α : Type} {r : α × State} {a : α} {t : State} (h : r = (a, t)) (hr : MemsWf r.2) : MemsWf t := by
  rw [h] at hr
  exact hr

theorem memsWf_modWell (wl : Nat) (f : Well → Well) (h : MemsWf s) : MemsWf (s.modWell wl f) := h

@[simp] theorem memsWf_memStore (pa : Nat) (data : List Byte) (full : Option Bool) (h : MemsWf s) :
    MemsWf (memStore s pa data full) := by
  unfold memStore
  split
  · exact h
  · exact ⟨Mem.wf_writes _ _ h.1, h.2⟩

@[simp] theorem memsWf_writePages (ps : List Page) (va : Nat) (data : List Byte) (setFull : Bool) (h : MemsWf s) :
    MemsWf (writePages s ps va data setFull) := by
  unfold writePages
  exact memsWf_foldl (fun _ _ hs => memsWf_memStore _ _ _ hs) _ h

@[simp] theorem memsWf_refillLdcs (r : Region) (h : MemsWf s) : MemsWf (refillLdcs s r) := by
  unfold refillLdcs
  exact memsWf_foldl (fun _ _ hs => memsWf_memStore _ _ _ hs) _ h

@[simp] theorem memsWf_voidRegion (key : Nat) (replay : Bool) (h : MemsWf s) : MemsWf (voidRegion s key replay) := by
  unfold voidRegion
  split
  · exact h
  · next r _ =>
    have hl := memsWf_refillLdcs r h
    dsimp only
    split <;> split <;> exact memsWf_of_same (by simp [SameMems]) hl

@[simp] theorem memsWf_physStore (pa : Nat) (data : List Byte) (full : Option Bool) (h : MemsWf s) :
    MemsWf (physStore s pa data full) := by
  unfold physStore
  repeat' split
  all_goals simp [MemsWf, h]

@[simp] theorem memsWf_bumpWord (pa : Nat) (h : MemsWf s) : MemsWf (bumpWord s pa) := by
  simp [MemsWf, bumpWord, h]

@[simp] theorem memsWf_flushFaultRing (die a1 : Nat) (h : MemsWf s) : MemsWf (flushFaultRing die a1 s) := by
  induction a1 generalizing s with
  | zero => exact h
  | succ n ih =>
    rw [flushFaultRing]
    repeat' split
    · exact h
    · exact h
    · exact ih (by simp [MemsWf, h])

@[simp] theorem memsWf_raisePageFault (die : Nat) (x : FaultRec) (h : MemsWf s) :
    MemsWf (raisePageFault s die x) := by
  unfold raisePageFault
  dsimp only
  repeat' split
  all_goals simp [MemsWf, h]

@[simp] theorem memsWf_writeErr (x : ErrInfo) (att cls ctx q idx : Nat)
    (h : MemsWf s) :
    MemsWf (writeErr s x att cls ctx q idx) := by
  unfold writeErr
  dsimp only
  repeat' split
  all_goals simp [MemsWf, h]

@[simp] theorem memsWf_addWord (die ctx va add : Nat) (h : MemsWf s) : MemsWf (addWord s die ctx va add) := by
  unfold addWord
  repeat' split
  all_goals simp [MemsWf, h]

@[simp] theorem memsWf_writePower (key : Nat) (h : MemsWf s) : MemsWf (writePower s key) := by
  have hwords (r : Region) (ws : List (Nat × Nat)) :
      MemsWf (ws.foldl (fun s w => addWord s r.die r.ctx (r.cntVa + w.1) w.2) s) :=
    memsWf_foldl (fun _ _ hs => memsWf_addWord _ _ _ _ hs) _ h
  unfold writePower
  split
  · exact h
  · next r _ =>
    refine memsWf_of_same ?_ (hwords r [(0x48, (intervalPower s r).und), (0x50, (intervalPower s r).dry),
      (0x58, (intervalPower s r).hdrop), (0x60, (intervalPower s r).deny), (0x68, (intervalPower s r).thr),
      (0x70, (intervalPower s r).ichg), (0x78, (intervalPower s r).echg)])
    simp [SameMems]

@[simp] theorem memsWf_classify (c q : Nat) (st : Started) (x : ErrInfo) (h : MemsWf s) :
    MemsWf (classify s c q st x) := by
  unfold classify
  dsimp only
  repeat' split
  all_goals simp [MemsWf, h]

@[simp] theorem memsWf_failRecord (q : Nat) (st : Started) (x : ErrInfo) (h : MemsWf s) :
    MemsWf (failRecord s q st x) := by
  unfold failRecord
  dsimp only
  repeat' split
  all_goals simp [MemsWf, h]

@[simp] theorem memsWf_kernelFault (key : Nat) (x : ErrInfo) (h : MemsWf s) : MemsWf (kernelFault s key x) := by
  unfold kernelFault
  split
  · exact h
  · next r _ =>
    split
    · exact h
    · have hv := memsWf_of_same (sameMems_discardCommands _ key) (memsWf_voidRegion key false h)
      have hpower (b : Bool) (u : State) (hu : MemsWf u) : MemsWf (if b then writePower u key else u) := by
        split
        · exact memsWf_writePower _ hu
        · exact hu
      dsimp only
      split
      · refine memsWf_failRecord _ _ _ (memsWf_of_same ?_ (hpower (r.kernel == .firing || r.kernel == .draining) _ hv))
        simp [SameMems]
      · refine memsWf_writeErr _ _ _ _ _ _ (memsWf_of_same ?_ (hpower (r.kernel == .firing || r.kernel == .draining) _ hv))
        simp [SameMems]

@[simp] theorem memsWf_poisonRegion (key : Nat) (h : MemsWf s) : MemsWf (poisonRegion s key) := by
  unfold poisonRegion
  repeat' split
  all_goals simp [MemsWf, h]

@[simp] theorem memsWf_regionFault (key code va detail : Nat) (wr : Bool) (h : MemsWf s) :
    MemsWf (regionFault s key code va detail wr) := by
  unfold regionFault
  repeat' split
  all_goals simp [MemsWf, h]

@[simp] theorem memsWf_storageFault (key t e n : Nat) (a1 : StoreFault) (h : MemsWf s) :
    MemsWf (storageFault s key t e n a1) := by
  unfold storageFault
  repeat' split
  all_goals simp [MemsWf, h]

@[simp] theorem memsWf_writeSpansSure (a1 : List (Nat × List Byte)) (a2 : Option Bool) (h : MemsWf s) :
    MemsWf (writeSpansSure a1 a2 s) := by
  induction a1 generalizing s with
  | nil => exact h
  | cons p ps ih =>
    refine ih ?_
    split <;> simp [MemsWf, h]

@[simp] theorem memsWf_writeAny (ps : List Page) (va : Nat) (data : List Byte) (setFull : Bool) (h : MemsWf s) :
    MemsWf (writeAny s ps va data setFull).2 := by
  unfold writeAny
  dsimp only
  repeat' split
  all_goals simp [MemsWf, h]

@[simp] theorem memsWf_commitCounts (key : Nat) (h : MemsWf s) : MemsWf (commitCounts s key) := by
  have hwords (r : Region) (ws : List (Nat × Nat)) :
      MemsWf (ws.foldl (fun s w => addWord s r.die r.ctx (r.cntVa + w.1) w.2) s) :=
    memsWf_foldl (fun _ _ hs => memsWf_addWord _ _ _ _ hs) _ h
  unfold commitCounts
  split
  · exact h
  · exact hwords _ _

@[simp] theorem memsWf_engWrite (en ctx : Nat) (va : Int) (data : List Byte) (setFull : Bool) (h : MemsWf s) :
    MemsWf (engWrite s en ctx va data setFull).2 := by
  grind [engWrite, memsWf_writeAny, sameMems_engAccess]

@[simp] theorem memsWf_engPoison (en key : Nat) (h : MemsWf s) : MemsWf (engPoison s en key) := by
  simp [MemsWf, engPoison, h]

@[simp] theorem memsWf_engStop (en key code detail : Nat) (h : MemsWf s) : MemsWf (engStop s en key code detail) := by
  unfold engStop
  repeat' split
  all_goals simp [MemsWf, h]

@[simp] theorem memsWf_engPageFault (en key code va : Nat) (wr : Bool) (h : MemsWf s) :
    MemsWf (engPageFault s en key code va wr) := by
  simp [MemsWf, engPageFault, h]

/-- What a step of an engine's job comes to leaves the memories in their form. -/
def JobStep.Kept : JobStep → Prop
  | .go t => MemsWf t
  | _ => True

theorem jobRead_kept {r : ReadOut × State} {k : List Byte → State → JobStep} (hr : MemsWf r.2)
    (hk : ∀ bs u, MemsWf u → (k bs u).Kept) : (jobRead r k).Kept := by
  obtain ⟨bs | _ | _, u⟩ := r
  · exact hk bs u hr
  · exact hr
  · trivial

theorem jobWrite_kept {r : ReadOut × State} {k : State → JobStep} (hr : MemsWf r.2)
    (hk : ∀ u, MemsWf u → (k u).Kept) : (jobWrite r k).Kept := by
  obtain ⟨bs | _ | _, u⟩ := r
  · exact hk u hr
  · exact hr
  · trivial

theorem memsWf_engRead (en ctx : Nat) (va : Int) (len : Nat) (full : Bool) (h : MemsWf s) :
    MemsWf (engRead s en ctx va len full).2 := memsWf_of_same (sameMems_engRead ..) h

theorem readEnd_kept {en ctx pos n : Nat} {k : List Byte → State → JobStep} (p : Endpoint) (h : MemsWf s)
    (hk : ∀ bs u, MemsWf u → (k bs u).Kept) : (readEnd s en ctx pos n k p).Kept := by
  unfold readEnd
  split
  · exact jobRead_kept (memsWf_engRead _ _ _ _ _ h) hk
  · split
    · trivial
    · next ht => exact hk _ _ (memsWf_of_same (sameMems_of_takeSlots ht) h)

theorem writeEnd_kept {en ctx pos : Nat} {bs : List Byte} {k : State → JobStep} (p : Endpoint) (h : MemsWf s)
    (hk : ∀ u, MemsWf u → (k u).Kept) : (writeEnd s en ctx pos bs k p).Kept := by
  unfold writeEnd
  split
  · exact jobWrite_kept (memsWf_engWrite _ _ _ _ _ h) hk
  · split
    · trivial
    · next ht => exact hk _ (memsWf_of_same (sameMems_of_fillSlots ht) h)

theorem advanceStream_kept (en n : Nat) (h : MemsWf s) : (advanceStream en n s).Kept := h

theorem copyUnit_kept (en ctx : Nat) (j : StreamJob) (h : MemsWf s) : (copyUnit s en ctx j).Kept := by
  unfold copyUnit
  dsimp only
  split
  · exact readEnd_kept _ h fun _ _ hu => writeEnd_kept _ hu fun _ hv => advanceStream_kept _ _ hv
  · trivial

theorem indexedUnit_kept (en ctx : Nat) (j : StreamJob) (gather : Bool) (h : MemsWf s) :
    (indexedUnit s en ctx j gather).Kept :=
  jobRead_kept (memsWf_engRead _ _ _ _ _ h) fun _ _ hu => jobRead_kept (memsWf_engRead _ _ _ _ _ hu) fun _ _ hv =>
    jobWrite_kept (memsWf_engWrite _ _ _ _ _ hv) fun _ => advanceStream_kept _ _

/-- SXDEEP alone writes the deep tier. -/
theorem deepUnit_kept (en ctx : Nat) (j : StreamJob) (h : MemsWf s) : (deepUnit s en ctx j).Kept := by
  unfold deepUnit
  dsimp only
  split
  · exact jobWrite_kept (memsWf_engWrite _ _ _ _ _ h) fun _ => advanceStream_kept _ _
  · refine jobRead_kept (memsWf_engRead _ _ _ _ _ h) fun bs u hu => advanceStream_kept _ _ ?_
    exact ⟨hu.1, Mem.wf_writes _ _ hu.2.1, hu.2.2⟩

@[simp] theorem memsWf_completionWord (en ctx cva val : Nat) (h : MemsWf s) :
    MemsWf (completionWord s en ctx cva val).2 := by
  unfold completionWord
  repeat' split
  all_goals simp [MemsWf, h]

theorem endingStep_kept (en ctx code : Nat) (j : StreamJob) (h : MemsWf s) : (endingStep s en ctx code j).Kept := by
  have hc := memsWf_completionWord en ctx (descField j.desc 0x20 0 64) (0x80000000 + code) h
  unfold endingStep
  revert hc
  rcases completionWord s en ctx (descField j.desc 0x20 0 64) (0x80000000 + code) with ⟨_ | _ | _, u⟩
  · exact id
  · exact id
  · intro hu
    dsimp only
    split
    · trivial
    · exact hu

theorem streamStep_kept (en : Nat) (h : MemsWf s) : (streamStep s en).Kept := by
  unfold streamStep
  split
  · trivial
  · dsimp only
    repeat' split
    · trivial
    · exact endingStep_kept _ _ _ _ h
    · exact h
    · refine jobRead_kept (memsWf_engRead _ _ _ _ _ h) fun d u hu => ?_
      split
      · exact hu
      · trivial
    · exact copyUnit_kept _ _ _ h
    · exact indexedUnit_kept _ _ _ _ h
    · exact indexedUnit_kept _ _ _ _ h
    · exact deepUnit_kept _ _ _ h
    · exact jobWrite_kept (memsWf_completionWord _ _ _ _ h) fun u hu => hu

@[simp] theorem memsWf_setFullRange (ps : List Page) (va len : Nat) (h : MemsWf s) :
    MemsWf (setFullRange s ps va len) := by
  unfold setFullRange
  split
  · exact memsWf_foldl (fun s p hs => memsWf_physStore _ _ _ hs) _ h
  · exact h

@[simp] theorem memsWf_crcMismatch (en : Nat) (j : XpJob) (h : MemsWf s) : MemsWf (crcMismatch s en j) := by
  simp [MemsWf, crcMismatch, h]

@[simp] theorem memsWf_expanderPoison (en key : Nat) (h : MemsWf s) : MemsWf (expanderPoison s en key) := by
  unfold expanderPoison
  repeat' split
  all_goals simp [MemsWf, h]

theorem openBlock_kept (en ctx : Nat) (j : XpJob) (h : MemsWf s) : (openBlock s en ctx j).Kept := by
  refine jobRead_kept (memsWf_engRead _ _ _ _ _ h) fun hb u hu => ?_
  dsimp only
  generalize (if xpToStream j then streamFmt u en else none) = bf
  split
  · trivial
  · refine jobRead_kept (memsWf_engRead _ _ _ _ _ hu) fun tb v hv => ?_
    split
    · trivial
    · refine jobRead_kept (memsWf_engRead _ _ _ _ _ hv) fun gb w hw => ?_
      split
      · trivial
      · exact jobRead_kept (memsWf_engRead _ _ _ _ _ hw) fun pb x hx => hx

theorem xpStart_kept (en : Nat) (h : MemsWf s) : (xpStart s en).Kept := by
  unfold xpStart
  dsimp only
  repeat' split
  · trivial
  · trivial
  · refine jobRead_kept (memsWf_engRead _ _ _ _ _ h) fun d u hu => ?_
    repeat' split
    · exact hu
    · exact hu
    · trivial
  · trivial
  · exact openBlock_kept _ _ _ h

theorem xpFinish_kept (en : Nat) (h : MemsWf s) : (xpFinish s en).Kept := by
  unfold xpFinish
  split
  · trivial
  · next j _ =>
    dsimp only
    split
    · trivial
    · split
      · repeat' split
        · trivial
        · exact h
        · exact memsWf_crcMismatch _ _ h
      · split
        · exact jobWrite_kept (memsWf_engWrite _ _ _ _ _ h) fun u hu => hu
        · split
          · exact memsWf_crcMismatch _ _ h
          · split
            · trivial
            · next ha => exact memsWf_of_eq ha (memsWf_of_same (sameMems_engAccess ..) h)
            · next ha => exact memsWf_setFullRange _ _ _ (memsWf_of_eq ha (memsWf_of_same (sameMems_engAccess ..) h))

theorem writeOuts_kept (en ctx : Nat) (ws : List (Nat × Nat)) (h : MemsWf s) : (writeOuts en ctx ws s).Kept := by
  induction ws generalizing s with
  | nil => exact h
  | cons w ws ih =>
    have hw := memsWf_engWrite en ctx w.1 (byteList 4 w.2) true h
    unfold writeOuts
    revert hw
    rcases engWrite s en ctx w.1 (byteList 4 w.2) true with ⟨_ | _ | _, u⟩ <;> intro hu
    · exact ih hu
    · exact hu
    · dsimp only
      split
      · exact memsWf_raisePageFault _ _ hu
      · trivial

theorem weirStart_kept (en : Nat) (h : MemsWf s) : (weirStart s en).Kept := by
  unfold weirStart
  repeat' split
  · trivial
  · trivial
  · refine jobRead_kept (memsWf_engRead _ _ _ _ _ h) fun d u hu => ?_
    split
    · exact hu
    · trivial

theorem weirSort_kept (en : Nat) (h : MemsWf s) : (weirSort s en).Kept := by
  unfold weirSort
  dsimp only
  repeat' split
  · trivial
  · trivial
  · exact writeOuts_kept _ _ _ h
  · exact jobRead_kept (memsWf_engRead _ _ _ _ _ h) fun _ u hu => writeOuts_kept _ _ _ hu

@[simp] theorem memsWf_finishStep (en : Nat) {j : JobStep} (hj : j.Kept) (h : MemsWf s) :
    MemsWf (finishStep s en j) := by
  unfold finishStep
  split
  · exact h
  · exact h
  · exact hj
  · dsimp only
    repeat' split
    all_goals simp [MemsWf, h]

theorem startStep_kept (en : Nat) (h : MemsWf s) : (startStep s en).Kept := by
  unfold startStep
  repeat' split
  · exact streamStep_kept _ h
  · trivial
  · exact xpStart_kept _ h
  · exact weirStart_kept _ h
  · trivial

@[simp] theorem memsWf_islandError (en : Nat) (h : MemsWf s) : MemsWf (islandError s en) := by
  unfold islandError
  dsimp only
  split
  · exact memsWf_kernelFault _ _ h
  · repeat' split
    · exact h
    · next hg =>
      have hu := memsWf_of_eq hg (memsWf_of_same (sameMems_readGroup ..) h)
      exact memsWf_kernelFault _ _ hu
    · exact h
    · exact h
    · exact memsWf_kernelFault _ _ h
    · exact h

@[simp] theorem memsWf_unitWrite (die ctx : Nat) (va : Int) (data : List Byte) (setFull : Bool)
    (h : MemsWf s) :
    MemsWf (unitWrite s die ctx va data setFull).2 := by
  grind [unitWrite, memsWf_writeAny, sameMems_unitAccess]

@[simp] theorem memsWf_writeRefusal (die ctx cntVa : Nat) (x : Refuse) (h : MemsWf s) :
    MemsWf (writeRefusal s die ctx cntVa x) := by
  unfold writeRefusal
  dsimp only
  repeat' split
  all_goals simp [MemsWf, h]

@[simp] theorem memsWf_finishPrime (key waiter : Nat) (h : MemsWf s) : MemsWf (finishPrime s key waiter) := by
  have hread (r : Region) : MemsWf (unitRead s r.die r.ctx waiter r.imageVa r.imageLen).2 :=
    memsWf_of_same (sameMems_unitRead ..) h
  unfold finishPrime
  repeat' split
  · exact h
  · exact h
  · exact h
  · exact memsWf_of_same (sameMems_endPrime ..) h
  · next hu => exact memsWf_of_eq hu (hread _)
  · next hu => exact memsWf_kernelFault _ _ (memsWf_of_eq hu (hread _))
  · next hu _ _ hv =>
    exact memsWf_of_same ((sameMems_endPrime ..).trans (sameMems_of_reapply hv)) (memsWf_of_eq hu (hread _))
  · next hu _ _ => exact memsWf_kernelFault _ _ (memsWf_of_eq hu (hread _))

@[simp] theorem memsWf_zeroWords (ps : List Page) (va : Nat) (h : MemsWf s) : MemsWf (zeroWords s ps va) := by
  unfold zeroWords
  exact memsWf_foldl (fun _ _ hs => memsWf_writePages _ _ _ _ hs) _ h

@[simp] theorem memsWf_zeroBlock (die ctx va : Nat) (h : MemsWf s) : MemsWf (zeroBlock s die ctx va).2 := by
  grind [zeroBlock, memsWf_zeroWords, sameMems_unitAccess]

@[simp] theorem memsWf_qWrite (q va : Nat) (data : List Byte) (h : MemsWf s) : MemsWf (qWrite s q va data).2 := by
  grind [qWrite, memsWf_writeAny, sameMems_qAccess]

@[simp] theorem memsWf_queueFault (q : Nat) (st : Started) (code va : Nat) (wr : Bool) (h : MemsWf s) :
    MemsWf (queueFault s q st code va wr) := by
  unfold queueFault
  repeat' split
  all_goals simp [MemsWf, h]

@[simp] theorem memsWf_haltQueue (q idx code : Nat) (h : MemsWf s) : MemsWf (haltQueue s q idx code) := by
  unfold haltQueue
  dsimp only
  repeat' split
  all_goals simp [MemsWf, h]

@[simp] theorem memsWf_engineFault (q idx code va : Nat) (wr : Bool) (h : MemsWf s) :
    MemsWf (engineFault s q idx code va wr) := by
  unfold engineFault
  repeat' split
  all_goals simp [MemsWf, h]

@[simp] theorem memsWf_finishRecord (q : Nat) (st : Started) (h : MemsWf s) : MemsWf (finishRecord s q st) := by
  unfold finishRecord
  repeat' split
  all_goals simp [MemsWf, h]

@[simp] theorem memsWf_signal (q : Nat) (b : Rec) (h : MemsWf s) : MemsWf (signal s q b).2 := by
  grind [signal, memsWf_qWrite, sameMems_qRead]

@[simp] theorem memsWf_pullRecords (q a1 : Nat) (h : MemsWf s) : MemsWf (pullRecords q a1 s) := by
  induction a1 generalizing s with
  | zero => exact h
  | succ n ih =>
    have hgot (va : Nat) : MemsWf (if (s.queue q).psrc = 1 then hostRecord s va else qRead s q va 64).2 := by
      split
      · exact memsWf_of_same (sameMems_hostRecord ..) h
      · exact memsWf_of_same (sameMems_qRead ..) h
    rw [pullRecords]
    dsimp only
    split
    · exact h
    · split
      · next hu => exact memsWf_of_eq hu (hgot _)
      · next hu => exact memsWf_engineFault _ _ _ _ _ (memsWf_of_eq hu (hgot _))
      · next hu =>
        have hw (b : List Byte) (va : Nat) := memsWf_qWrite q va b (memsWf_of_eq hu (hgot _))
        split
        · next hv => exact memsWf_of_eq hv (hw _ _)
        · next hv => exact memsWf_engineFault _ _ _ _ _ (memsWf_of_eq hv (hw _ _))
        · next hv => exact ih (memsWf_of_eq hv (hw _ _) :)

@[simp] theorem memsWf_tailWrite (src : TailSource) (q tail : Nat) (h : MemsWf s) :
    MemsWf (tailWrite s src q tail) := by
  unfold tailWrite
  dsimp only
  repeat' split
  all_goals simp [MemsWf, h]

/-- The state a found region is laid in has the memories it was looked for in. -/
theorem sameMems_of_findRegion {s t : State} {ctx : Nat} {b : Rec} {img : List Byte} {m : Member}
    (h : findRegion s ctx b img = .at m t) : SameMems t s := by
  simp only [findRegion] at h
  repeat' split at h
  all_goals cases h
  · exact ⟨rfl, rfl, rfl⟩
  · next ha => exact sameMems_of_allocRegion ha

@[simp] theorem memsWf_launchRecord (key : Nat) (h : MemsWf s) : MemsWf (launchRecord s key) := by
  grind [launchRecord, sameMems_releaseKernel, sameMems_modStarted, memsWf_kernelFault, memsWf_queueFault, memsWf_zeroBlock]

@[simp] theorem memsWf_failHead (q : Nat) (st : Started) (x : ErrInfo) (h : MemsWf s) :
    MemsWf (failHead s q st x) := by
  simp [MemsWf, failHead, h]

@[simp] theorem memsWf_haltAtHead (q : Nat) (st : Started) (x : ErrInfo) (h : MemsWf s) :
    MemsWf (haltAtHead s q st x) := by
  simp [MemsWf, haltAtHead, h]

@[simp] theorem memsWf_startLaunch (q : Nat) (st : Started) (h : MemsWf s) : MemsWf (startLaunch s q st) := by
  have himg := memsWf_of_same (sameMems_recordImage s q st.record) h
  unfold startLaunch
  split
  · next hr => exact memsWf_of_eq hr himg
  · next hr =>
    have hu := memsWf_of_eq hr himg
    split
    · exact memsWf_queueFault _ _ _ _ _ hu
    · exact memsWf_failHead _ _ _ hu
  · next hr =>
    have hu := memsWf_of_eq hr himg
    dsimp only
    split
    · exact memsWf_of_same (sameMems_refusePlace ..) hu
    · exact memsWf_haltAtHead _ _ _ hu
    · next hf =>
      have hv := memsWf_of_same (sameMems_of_findRegion hf) hu
      split
      · next hl =>
        have hw := memsWf_of_eq hl (memsWf_of_same (sameMems_loadMember ..) hv)
        exact memsWf_failHead _ _ _ (memsWf_writeRefusal _ _ _ _ (memsWf_of_same (sameMems_giveBack ..) hw))
      · next hl =>
        have hw := memsWf_of_eq hl (memsWf_of_same (sameMems_loadMember ..) hv)
        exact memsWf_of_same ((sameMems_takeStarted ..).trans (sameMems_primeRecord ..)) hw

theorem sameMems_of_findMembers {s t : State} {q gid : Nat} {l : List (Rec × List Byte)} {done ms : List Member}
    (h : findMembers q gid l done s = .at ms t) : SameMems t s := by
  induction l generalizing s done with
  | nil =>
    cases h
    exact ⟨rfl, rfl, rfl⟩
  | cons x l ih =>
    obtain ⟨b, w⟩ := x
    rw [findMembers] at h
    split at h
    · cases h
    · cases h
    · next hr =>
      split at h
      · cases h
      · cases h
      · next hf =>
        exact SameMems.trans (ih h) ((sameMems_of_findRegion hf).trans (sameMems_of_eq hr (sameMems_recordImage ..)))

@[simp] theorem memsWf_startGroup (q : Nat) (st : Started) (h : MemsWf s) : MemsWf (startGroup s q st) := by
  unfold startGroup
  dsimp only
  split
  · next ws _ _ hr =>
    have hu := memsWf_of_eq hr (memsWf_of_same (sameMems_readGroupWords ..) h)
    split
    · exact memsWf_of_same (sameMems_refusePlace ..) hu
    · exact hu
    · split
      · exact memsWf_queueFault _ _ _ _ _ hu
      · exact memsWf_failHead _ _ _ hu
    · exact memsWf_haltAtHead _ _ _ hu
    · next ms t hf =>
      have ht : MemsWf t := memsWf_of_same (sameMems_of_findMembers hf) hu
      have hrefuse (v : State) (hv : MemsWf v) (die ctx cnt : Nat) (x : Refuse) (e : ErrInfo) :
          MemsWf (failHead (writeRefusal (ms.foldl giveBack v) die ctx cnt x) q st e) :=
        memsWf_failHead _ _ _ (memsWf_writeRefusal _ _ _ _
          (memsWf_of_same (sameMems_foldl (fun _ _ => sameMems_giveBack ..) _ _) hv))
      split
      · exact hrefuse _ ht ..
      · split
        · next hl => exact hrefuse _ (memsWf_of_eq hl (memsWf_of_same (sameMems_loadMembers ..) ht)) ..
        · next hl =>
          have hw := memsWf_of_eq hl (memsWf_of_same (sameMems_loadMembers ..) ht)
          refine memsWf_of_same ?_ hw
          simp [SameMems]
  · next hr => exact memsWf_of_eq hr (memsWf_of_same (sameMems_readGroupWords ..) h)

@[simp] theorem memsWf_startRecord (q : Nat) (st : Started) (h : MemsWf s) : MemsWf (startRecord s q st) := by
  unfold startRecord
  split
  · split
    · exact memsWf_startLaunch _ _ h
    · exact memsWf_startGroup _ _ h
  · split
    · have hread := memsWf_of_same (sameMems_qRead s q (Rec.p0 st.record) 64) h
      split
      · next hr => exact memsWf_of_eq hr hread
      · next hr =>
        have hu := memsWf_of_eq hr hread
        split
        · exact memsWf_queueFault _ _ _ _ _ hu
        · exact memsWf_failHead _ _ _ hu
      · next hr =>
        have hu := memsWf_of_eq hr hread
        dsimp only
        split
        · exact memsWf_of_same ((sameMems_takeStarted ..).trans (sameMems_bindTrigger ..)) hu
        · exact memsWf_failHead _ _ _ hu
    · dsimp only
      split <;> exact memsWf_of_same (by simp [SameMems]) h

@[simp] theorem memsWf_startFirst (die : Nat) (a1 : List (Nat × Started)) (h : MemsWf s) :
    MemsWf (startFirst die a1 s) := by
  induction a1 generalizing s with
  | nil => exact h
  | cons x rest ih =>
    obtain ⟨q, st⟩ := x
    have hs := memsWf_startRecord q st h
    rw [startFirst]
    split
    · exact ih hs
    · exact hs

@[simp] theorem memsWf_zeroBlocks (a1 : List (Region × Nat)) (h : MemsWf s) : MemsWf (zeroBlocks a1 s).2 := by
  induction a1 generalizing s with
  | nil => exact h
  | cons x rest ih =>
    obtain ⟨r, cnt⟩ := x
    have hz := memsWf_zeroBlock r.die r.ctx cnt h
    rw [zeroBlocks]
    split
    · next hu => exact ih (memsWf_of_eq hu hz)
    · exact hz

@[simp] theorem memsWf_reloadRegion (key : Nat) (h : MemsWf s) : MemsWf (reloadRegion s key) := by
  unfold reloadRegion
  split
  · exact h
  · next r _ =>
    have hread := memsWf_of_same (sameMems_unitRead s r.die r.ctx (regionWaiter key) r.imageVa r.imageLen) h
    split
    · exact h
    · split
      · exact h
      · split
        · next hu => exact memsWf_of_eq hu hread
        · next hu => exact memsWf_kernelFault _ _ (memsWf_of_eq hu hread)
        · next hu =>
          have hb := memsWf_of_eq hu hread
          dsimp only
          split
          · exact memsWf_kernelFault _ _ hb
          · next hv =>
            have hw := memsWf_of_same (sameMems_of_reloadTiles hv) hb
            repeat' split
            · exact memsWf_kernelFault _ _ hw
            · exact memsWf_of_same (sameMems_thawRegion ..) hw
            · exact hw

@[simp] theorem memsWf_copyStep (q : Nat) (st : Started) (h : MemsWf s) : MemsWf (copyStep s q st) := by
  grind [copyStep, sameMems_modStarted, memsWf_unitWrite, memsWf_queueFault, sameMems_unitRead]

@[simp] theorem memsWf_digestStep (q : Nat) (st : Started) (h : MemsWf s) : MemsWf (digestStep s q st) := by
  grind [digestStep, sameMems_modStarted, memsWf_queueFault, memsWf_qWrite]

@[simp] theorem memsWf_voidHeld (w : Scope_) (p : Nat × Region) (h : MemsWf s) : MemsWf (voidHeld w s p) := by
  unfold voidHeld
  repeat' split
  all_goals simp [MemsWf, h]

@[simp] theorem memsWf_startShoot (kind : ShootKind) (what : Scope_) (owed : Option Owed) (h : MemsWf s) :
    MemsWf (startShoot s kind what owed) := by
  have hheld := memsWf_foldl (fun _ p hs => memsWf_voidHeld what p hs) s.regions
    (memsWf_of_same (sameMems_dropSlices s what) h)
  have hcores (u : State) (cs : List Nat) : SameMems (cs.foldl (fun s c => dropCore s what c) u) u :=
    sameMems_foldl (fun _ _ => sameMems_dropCore ..) _ _
  unfold startShoot
  dsimp only
  split <;> exact memsWf_of_same ((sameMems_hostShoot ..).trans (SameMems.trans ⟨rfl, rfl, rfl⟩ (hcores _ _))) hheld

@[simp] theorem memsWf_writeLeaf (pa v : Nat) (h : MemsWf s) : MemsWf (writeLeaf s pa v) := by
  simp [MemsWf, writeLeaf, h]

@[simp] theorem memsWf_poisonPage (c va : Nat) (h : MemsWf s) : MemsWf (poisonPage s c va) := by
  unfold poisonPage
  repeat' split
  all_goals simp [MemsWf, h]

@[simp] theorem memsWf_startMigr (o : Owed) (ctx variant va b c : Nat)
    (h : MemsWf s) :
    MemsWf (startMigr s o ctx variant va b c) := by
  unfold startMigr
  repeat' split
  all_goals simp [MemsWf, h]

@[simp] theorem memsWf_endMigr (pa : Nat) (frame : Option Nat) (v poison : Bool) (h : MemsWf s) :
    MemsWf (endMigr s pa frame v poison) := by
  simp [MemsWf, endMigr, h]

@[simp] theorem memsWf_endMigrIn (m : MigrIn) (bad : Bool) (h : MemsWf s) : MemsWf (endMigrIn s m bad) := by
  unfold endMigrIn
  repeat' split
  all_goals simp [MemsWf, h]

@[simp] theorem memsWf_advanceFaultHead (die v : Nat) (h : MemsWf s) : MemsWf (advanceFaultHead s die v) := by
  simp [MemsWf, advanceFaultHead, h]

@[simp] theorem memsWf_ctxSwapout (c : Nat) (h : MemsWf s) : MemsWf (ctxSwapout s c) := by
  unfold ctxSwapout
  repeat' split
  all_goals simp [MemsWf, h]

@[simp] theorem memsWf_beginCmd (c : Nat) (h : MemsWf s) : MemsWf (beginCmd s c) := by
  unfold beginCmd
  repeat' split
  all_goals simp [MemsWf, h]

@[simp] theorem memsWf_beginTrip (c : Nat) (h : MemsWf s) : MemsWf (beginTrip s c) := by
  unfold beginTrip
  repeat' split
  all_goals simp [MemsWf, h]

@[simp] theorem memsWf_beginJob (c : Nat) (a1 : CtxJob) (h : MemsWf s) : MemsWf (beginJob s c a1) := by
  unfold beginJob
  dsimp only
  repeat' split
  all_goals simp [MemsWf, h]

@[simp] theorem memsWf_serveUnit (a1 : Nat) (h : MemsWf s) : MemsWf (serveUnit a1 s) := by
  induction a1 generalizing s with
  | zero => exact h
  | succ n ih =>
    rw [serveUnit]
    split
    · exact ih (memsWf_beginJob _ _ h)
    · exact h

@[simp] theorem memsWf_serveCtx (h : MemsWf s) : MemsWf (serveCtx s) := by
  simp [MemsWf, serveCtx, h]

@[simp] theorem memsWf_killRegion (key : Nat) (h : MemsWf s) : MemsWf (killRegion s key) := by
  simp [MemsWf, killRegion, h]

@[simp] theorem memsWf_ctxKill (c : Nat) (h : MemsWf s) : MemsWf (ctxKill s c) := by
  have hregions (ks : List Nat) : MemsWf (ks.foldl killRegion s) :=
    memsWf_foldl (fun _ _ hs => memsWf_killRegion _ hs) _ h
  have hparts (qs cs : List Nat) (u : State) : SameMems (cs.foldl killCore (qs.foldl killQueue u)) u :=
    (sameMems_foldl (fun _ _ => sameMems_killCore ..) _ _).trans (sameMems_foldl (fun _ _ => sameMems_killQueue ..) _ _)
  unfold ctxKill
  dsimp only
  repeat' split
  · exact h
  · exact h
  · exact memsWf_serveCtx (memsWf_startShoot _ _ _ (memsWf_of_same (hparts _ _ _) (hregions _)))

@[simp] theorem memsWf_ctxCommand (c : Nat) (m : CtxCmd) (h : MemsWf s) : MemsWf (ctxCommand s c m) := by
  unfold ctxCommand
  repeat' split
  all_goals simp [MemsWf, h]

@[simp] theorem memsWf_setCtxReg (c o v : Nat) (h : MemsWf s) : MemsWf (setCtxReg s c o v) := by
  unfold setCtxReg
  repeat' split
  all_goals simp [MemsWf, h]

@[simp] theorem memsWf_portWrite (wl off : Nat) (bs : List Byte) (h : MemsWf s) : MemsWf (portWrite s wl off bs) := by
  simp [MemsWf, portWrite, h]

@[simp] theorem memsWf_writeSample (wl : Nat) (i : Int) (bs : List Byte) (h : MemsWf s) :
    MemsWf (writeSample s wl i bs) := by
  unfold writeSample
  exact memsWf_foldl (fun _ _ hs => memsWf_memStore _ _ _ hs) _ h

@[simp] theorem memsWf_writeSamples (wl sb a1 : Nat) (a2 : Int) (a3 : List Byte) (h : MemsWf s) :
    MemsWf (writeSamples wl sb a1 s a2 a3) := by
  induction a1 generalizing s a2 a3 with
  | zero => exact h
  | succ n ih => exact ih _ _ (memsWf_writeSample _ _ _ h)

@[simp] theorem memsWf_addStale (wl n : Nat) (h : MemsWf s) : MemsWf (addStale s wl n) := by
  simp [MemsWf, addStale, h]

@[simp] theorem memsWf_reportLost (wl : Nat) (t : W64) (h : MemsWf s) : MemsWf (reportLost s wl t) := by
  simp [MemsWf, reportLost, h]

@[simp] theorem memsWf_drawBytes (wl va : Nat) (bs : List Byte) (h : MemsWf s) : MemsWf (drawBytes s wl va bs) := by
  unfold drawBytes
  exact memsWf_foldl (fun _ _ hs => memsWf_memStore _ _ _ hs) _ h

@[simp] theorem memsWf_putRecord (wl : Nat) (b : List Byte) (h : MemsWf s) : MemsWf (putRecord s wl b) := by
  unfold putRecord
  dsimp only
  refine memsWf_drawBytes _ _ _ ?_
  split
  · exact memsWf_drawBytes _ _ _ (memsWf_drawBytes _ _ _ h)
  · exact memsWf_drawBytes _ _ _ h

@[simp] theorem memsWf_flushRecords (wl a1 : Nat) (h : MemsWf s) : MemsWf (flushRecords wl a1 s) := by
  induction a1 generalizing s with
  | zero => exact h
  | succ n ih =>
    rw [flushRecords]
    repeat' split
    · exact h
    · exact h
    · exact ih (memsWf_putRecord _ _ h)

@[simp] theorem memsWf_writeRecord (wl : Nat) (b : List Byte) (h : MemsWf s) : MemsWf (writeRecord s wl b) := by
  simp [MemsWf, writeRecord, h]

@[simp] theorem memsWf_copySpan (wl no : Nat) (f l : Int) (h : MemsWf s) : MemsWf (copySpan s wl no f l).2.2 := by
  have hlose := memsWf_of_same (sameMems_loseSpan s wl no f (min l ((s.well wl).spill - 1))) h
  unfold copySpan
  dsimp only
  split
  · exact hlose
  · split
    · exact hlose
    · dsimp only
      split
      · exact hlose
      · exact memsWf_putRecord _ _ hlose

@[simp] theorem memsWf_copySpans (wl no : Nat) (a1 : List (Int × Int)) (h : MemsWf s) :
    MemsWf (copySpans wl no a1 s).2.2 := by
  induction a1 generalizing s with
  | nil => exact h
  | cons x rest ih => exact ih (memsWf_copySpan _ _ _ _ h)

@[simp] theorem memsWf_copyExtent (wl : Nat) (x : Extent) (h : MemsWf s) : MemsWf (copyExtent s wl x) := by
  unfold copyExtent
  dsimp only
  repeat' split
  all_goals simp [MemsWf, h]

@[simp] theorem memsWf_closeExtent (wl no : Nat) (h : MemsWf s) : MemsWf (closeExtent s wl no) := by
  unfold closeExtent
  dsimp only
  repeat' split
  all_goals simp [MemsWf, h]

@[simp] theorem memsWf_drawStep (wl : Nat) (h : MemsWf s) : MemsWf (drawStep s wl) := by
  unfold drawStep
  exact memsWf_of_same (sameMems_settleWell ..)
    (memsWf_foldl (fun s x hs => memsWf_closeExtent _ _ (memsWf_copyExtent _ _ hs)) _
    (memsWf_flushRecords _ _ h))

@[simp] theorem memsWf_setHead (wl e : Nat) (h : MemsWf s) : MemsWf (setHead s wl e) := by
  simp [MemsWf, setHead, h]

@[simp] theorem memsWf_fillGap (wl f e : Nat) (h : MemsWf s) : MemsWf (fillGap s wl f e) := by
  unfold fillGap
  dsimp only
  split
  · exact h
  · exact memsWf_portWrite _ _ _ (memsWf_modWell _ _ (memsWf_portWrite _ _ _ (memsWf_writeSamples _ _ _ _ _ h)))

@[simp] theorem memsWf_fillFrame (wl f e : Nat) (bs : List Byte) (h : MemsWf s) : MemsWf (fillFrame s wl f e bs) := by
  unfold fillFrame
  dsimp only
  repeat' split
  all_goals simp [MemsWf, h]

@[simp] theorem memsWf_frameStep (wl f e : Nat) (bs : Option (List Byte)) (h : MemsWf s) :
    MemsWf (frameStep s wl f e bs) := by
  have hport (u : State) (hu : MemsWf u) :=
    memsWf_portWrite wl 0x04 (byteList 4 (low32 ((e : Int) - (u.well wl).size))) hu
  have hdead (b : Bool) (f : Well → Well) (u : State) (hu : MemsWf u) : MemsWf (if b then u.modWell wl f else u) := by
    split <;> exact hu
  have hfill (u : State) (hu : MemsWf u) : MemsWf (match bs with
      | some bs => fillFrame (fillGap u wl f e) wl f e bs
      | none => u) := by
    split
    · exact memsWf_fillFrame _ _ _ _ (memsWf_fillGap _ _ _ hu)
    · exact hu
  exact memsWf_drawStep _ (hdead _ _ _ (memsWf_setHead _ _ (hfill _ (hport _ (memsWf_drawStep wl h)))))

@[simp] theorem memsWf_ingestFrame (k wl f c : Nat) (payload : List Byte) (h : MemsWf s) :
    MemsWf (ingestFrame s k wl f c payload) := by
  unfold ingestFrame
  dsimp only
  repeat' split
  all_goals simp [MemsWf, h]

@[simp] theorem memsWf_enterCandidate (wl : Nat) (b : List Byte) (h : MemsWf s) : MemsWf (enterCandidate s wl b) := by
  unfold enterCandidate
  dsimp only
  repeat' split
  all_goals simp [MemsWf, h]

@[simp] theorem memsWf_drawClaim (wl cls : Nat) (x : Extent) (lo hi lo2 : Int)
    (h : MemsWf s) :
    MemsWf (drawClaim s wl cls x lo hi lo2).2 := by
  grind [drawClaim, memsWf_copyExtent, memsWf_closeExtent, memsWf_writeRecord, sameMems_modExtent, sameMems_issueClaim]

@[simp] theorem memsWf_claimWindow (wl cls : Nat) (t : Int) (pre post : Nat) (h : MemsWf s) :
    MemsWf (claimWindow s wl cls t pre post).2 := by
  unfold claimWindow
  dsimp only
  repeat' split
  all_goals simp [MemsWf, h]

@[simp] theorem memsWf_judgeTicket (wl ticket verdict : Nat) (h : MemsWf s) :
    MemsWf (judgeTicket s wl ticket verdict).2 := by
  unfold judgeTicket
  dsimp only
  repeat' split
  all_goals simp [MemsWf, h]

@[simp] theorem memsWf_drawAt (wl cls t verdict : Nat) (h : MemsWf s) : MemsWf (drawAt s wl cls t verdict).2 := by
  unfold drawAt
  repeat' split
  all_goals simp [MemsWf, h]

@[simp] theorem memsWf_closeWell (wl : Nat) (h : MemsWf s) : MemsWf (closeWell s wl) := by
  unfold closeWell
  dsimp only
  repeat' split
  all_goals simp [MemsWf, h]

@[simp] theorem memsWf_armWell (wl ctx gb : Nat) (d : WellDesc) (ring : List Page) (port : Page)
    (draw : List Page) (h : MemsWf s) :
    MemsWf (armWell s wl ctx gb d ring port draw) := by
  unfold armWell
  dsimp only
  exact memsWf_of_same (sameMems_lookTriggers ..) (memsWf_drawBytes _ _ _ (memsWf_portWrite _ _ _ (memsWf_portWrite _ _ _
    (memsWf_writePages _ _ _ _ h))))

@[simp] theorem memsWf_warmWell (wl ctx gb : Nat) (b : List Byte) (h : MemsWf s) :
    MemsWf (warmWell s wl ctx gb b).2 := by
  unfold warmWell
  dsimp only
  repeat' split
  all_goals simp [MemsWf, h]

@[simp] theorem memsWf_endInterval (from_ : Nat) (h : MemsWf s) : MemsWf (endInterval s from_) := by
  unfold endInterval
  exact memsWf_foldl (fun _ _ hs => memsWf_writePower _ hs) _ (memsWf_of_same ((sameMems_denyNotices ..).trans
    (sameMems_foldl (fun _ _ => sameMems_drySlide ..) _ _)) h)

@[simp] theorem memsWf_performAtomic (op : RemoteOp) (n : Bool) (pa len b expected : Nat)
    (h : MemsWf s) :
    MemsWf (performAtomic s op n pa len b expected).2 := by
  unfold performAtomic
  dsimp only
  repeat' split
  all_goals simp [MemsWf, h]

@[simp] theorem memsWf_takeFlit (f : Flit) (h : MemsWf s) : MemsWf (takeFlit s f) := by
  unfold takeFlit
  dsimp only
  repeat' split
  all_goals simp [MemsWf, h]

@[simp] theorem memsWf_powerOn (h : MemsWf s) : MemsWf (powerOn s) := by
  simp [MemsWf, powerOn, h]

@[simp] theorem memsWf_setFaultRing (d o v : Nat) (h : MemsWf s) : MemsWf (setFaultRing s d o v) := by
  unfold setFaultRing
  repeat' split
  all_goals simp [MemsWf, h]

@[simp] theorem memsWf_setQueueReg (q o v : Nat) (h : MemsWf s) : MemsWf (setQueueReg s q o v) := by
  unfold setQueueReg
  repeat' split
  all_goals simp [MemsWf, h]

@[simp] theorem memsWf_writeReg (r : MReg) (v : Nat) (h : MemsWf s) : MemsWf (writeReg s r v) := by
  unfold writeReg
  repeat' split
  all_goals simp [MemsWf, h]

@[simp] theorem memsWf_mmioWrite (off len v : Nat) (h : MemsWf s) : MemsWf (mmioWrite s off len v) := by
  unfold mmioWrite
  repeat' split
  all_goals simp [MemsWf, h]

@[simp] theorem memsWf_performStore (cn pa : Nat) (bs : List Byte) (full : Option Bool) (h : MemsWf s) :
    MemsWf (performStore s cn pa bs full) := by
  unfold performStore
  repeat' split
  all_goals simp [MemsWf, h]

@[simp] theorem memsWf_performActs (cn : Nat) (acts : List CommitAct) (h : MemsWf s) :
    MemsWf (performActs cn acts s) := by
  unfold performActs
  refine memsWf_foldl (fun s a hs => ?_) _ h
  split
  · exact memsWf_performStore _ _ _ _ hs
  · exact hs

@[simp] theorem memsWf_releaseGroups (a1 : Nat) (h : MemsWf s) : MemsWf (releaseGroups a1 s).1 := by
  induction a1 generalizing s with
  | zero => exact h
  | succ n ih =>
    rw [releaseGroups]
    dsimp only
    split
    · exact h
    · have hp := memsWf_performActs s.actor.core ((bodyLane s).acts.take ((bodyLane s).acts.findIdx CommitAct.isFence)) h
      split
      · exact memsWf_of_same (sameMems_leaveActs ..) hp
      · exact ih (memsWf_of_same (sameMems_leaveActs ..) hp)

@[simp] theorem memsWf_releaseAll (h : MemsWf s) : MemsWf (releaseAll s).1 := by
  grind [releaseAll, memsWf_performActs, sameMems_leaveActs, memsWf_releaseGroups]

@[simp] theorem memsWf_writeUnits (die ctx a1 a2 : Nat) (a3 : List Byte) (h : MemsWf s) :
    MemsWf (writeUnits die ctx a1 a2 a3 s).2 := by
  induction a1 generalizing s a2 a3 with
  | zero => exact h
  | succ n ih =>
    rw [writeUnits]
    split
    · exact h
    · have hw := memsWf_unitWrite die ctx a2 (a3.take 64) true h
      split
      · next hu => exact ih _ _ (memsWf_of_eq hu hw)
      · exact hw

end Sys2Proof.Machine
end

section
/-! SUPPORT. Records, triggers, requests and the commit keep the memories in their form (R233, R235,
R242 to R248, R278, R50). -/

namespace Sys2Proof.Machine

variable {s : State}

/-- What an enqueue comes to leaves the memories in their form. -/
def EnqOut.Kept : EnqOut → Prop
  | .done t => MemsWf t
  | .full => True
  | .wait t => MemsWf t
  | .fault t _ _ => MemsWf t

theorem enqRecord_kept (q : Nat) (b : Rec) (h : MemsWf s) : (enqRecord s q b).Kept := by
  unfold enqRecord
  dsimp only
  split
  · trivial
  · next k _ =>
    have hw := memsWf_qWrite q ((s.queue q).slotVa (s.queue q).tail.toNat) b h
    split
    · next hr => exact (memsWf_of_eq hr hw :)
    · next hr => exact memsWf_of_eq hr hw
    · next hr => exact memsWf_of_eq hr hw

/-- What the delivery of a firing comes to leaves the memories in their form. -/
def Delivery.Kept : Delivery → Prop
  | .sent t => MemsWf t
  | .none => True
  | .wait t => MemsWf t

theorem deliverTrigger_kept (ctx : Nat) (t : Trigger) (h : MemsWf s) : (deliverTrigger s ctx t).Kept := by
  have hread := memsWf_of_same (sameMems_unitRead s (s.queue t.queue.toNat).hdie.toNat ctx
    (queueWaiter t.queue.toNat) t.recva.toNat 64) h
  unfold deliverTrigger
  dsimp only
  split
  · trivial
  · split
    · next hr => exact memsWf_of_eq hr hread
    · next hr => exact memsWf_engineFault _ _ _ _ _ (memsWf_of_eq hr hread)
    · next b _ hr =>
      have he := enqRecord_kept t.queue.toNat b (memsWf_of_eq hr hread)
      split
      · next hq => rw [hq] at he; exact he
      · trivial
      · next hq => rw [hq] at he; exact he
      · next hq => rw [hq] at he; exact memsWf_engineFault _ _ _ _ _ he

/-- The state that serving a request comes to. -/
def Served.state : Served → State
  | .done t => t
  | .wait t => t

/-- What serving a request comes to leaves the memories in their form. -/
def Served.Kept (r : Served) : Prop := MemsWf r.state

theorem replied_kept (o : Owed) (code info data : Nat) (h : MemsWf s) : (replied s o code info data).Kept :=
  memsWf_of_same (sameMems_replyTo ..) h

theorem memsWf_unitRead (die ctx waiter : Nat) (va : Int) (len : Nat) (h : MemsWf s) :
    MemsWf (unitRead s die ctx waiter va len).2 := memsWf_of_same (sameMems_unitRead ..) h

theorem serveCfgw_kept (o : Owed) (a b : Nat) (h : MemsWf s) : (serveCfgw s o a b).Kept := by
  refine replied_kept _ _ _ _ ?_
  split
  · exact memsWf_of_same (sameMems_cfgPut ..) h
  · exact h

theorem serveCfgrd_kept (o : Owed) (a : Nat) (h : MemsWf s) : (serveCfgrd s o a).Kept := by
  unfold serveCfgrd
  dsimp only
  split <;> exact replied_kept _ _ _ _ h

theorem serveCrc_kept (o : Owed) (a b : Nat) (h : MemsWf s) : (serveCrc s o a b).Kept := by
  unfold serveCrc
  dsimp only
  split <;> exact replied_kept _ _ _ _ h

theorem serveSig_kept (o : Owed) (slot a b : Nat) (h : MemsWf s) : (serveSig s o slot a b).Kept := by
  have h1 := memsWf_unitRead (coreDie o.core) (coreCtx s o.core) (replyWaiter o) a 64 h
  have h2 := memsWf_unitRead (coreDie o.core) (coreCtx s o.core) (replyWaiter o) a (b + 512) h
  unfold serveSig
  dsimp only
  split
  · next hr => exact memsWf_of_eq hr h1
  · next hr => exact replied_kept _ _ _ _ (memsWf_of_eq hr h1)
  · next hr =>
    split
    · exact replied_kept _ _ _ _ (memsWf_of_eq hr h1)
    · split
      · next hr => exact memsWf_of_eq hr h2
      · next hr => exact replied_kept _ _ _ _ (memsWf_of_eq hr h2)
      · next hr => exact replied_kept _ _ _ _ (memsWf_of_eq hr h2)

theorem atRegion_kept (o : Owed) (hd info : Nat) {k : Nat → Region → Served} (h : MemsWf s)
    (hk : ∀ key r, (k key r).Kept) : (atRegion s o hd info k).Kept := by
  unfold atRegion
  split
  · exact replied_kept _ _ _ _ h
  · split
    · exact replied_kept _ _ _ _ h
    · exact hk _ _

theorem servePrime_kept (o : Owed) (k hd : Nat) (h : MemsWf s) : (servePrime s o k hd).Kept := by
  refine atRegion_kept _ _ _ h fun key r => ?_
  split
  · exact memsWf_of_same (sameMems_beginPrime ..) h
  · exact replied_kept _ _ _ _ h

theorem serveFreeze_kept (o : Owed) (hd : Nat) (h : MemsWf s) : (serveFreeze s o hd).Kept := by
  refine atRegion_kept _ _ _ h fun key r => ?_
  have hf := memsWf_of_same (sameMems_freezeRegion s key) h
  dsimp only
  split
  · exact replied_kept _ _ _ _ hf
  · split
    · exact hf
    · exact replied_kept _ _ _ _ hf

theorem serveFreezeStroke_kept (o : Owed) (hd : Nat) (h : MemsWf s) : (serveFreezeStroke s o hd).Kept := by
  refine atRegion_kept _ _ _ h fun key r => ?_
  split
  · exact h
  · exact replied_kept _ _ _ _ h

theorem serveThaw_kept (o : Owed) (hd : Nat) (h : MemsWf s) : (serveThaw s o hd).Kept := by
  refine atRegion_kept _ _ _ h fun key r => ?_
  split
  · exact h
  · exact replied_kept _ _ _ _ (memsWf_of_same (sameMems_thawRegion ..) h)

theorem serveReadout_kept (o : Owed) (die ctx va info : Nat) (bs : List Byte) (h : MemsWf s) :
    (serveReadout s o die ctx va info bs).Kept := by
  have hw := memsWf_writeUnits die ctx (bs.length / 64 + 1) va bs h
  unfold serveReadout
  split
  · exact h
  · next hr => exact replied_kept _ _ _ _ (memsWf_of_eq hr hw)
  · next hr => exact replied_kept _ _ _ _ (memsWf_of_eq hr hw)

theorem serveImgout_kept (o : Owed) (variant hd va : Nat) (h : MemsWf s) : (serveImgout s o variant hd va).Kept := by
  refine atRegion_kept _ _ _ h fun key r => ?_
  split
  · exact replied_kept _ _ _ _ h
  · split
    · exact serveReadout_kept _ _ _ _ _ _ h
    · exact replied_kept _ _ _ _ (memsWf_of_same (sameMems_saveShadow ..) h)
    · split
      · exact replied_kept _ _ _ _ (memsWf_of_same (sameMems_restoreShadow ..) h)
      · exact replied_kept _ _ _ _ h

theorem serveRsload_kept (o : Owed) (hd va : Nat) (h : MemsWf s) : (serveRsload s o hd va).Kept := by
  have h1 := memsWf_unitRead (coreDie o.core) (coreCtx s o.core) (replyWaiter o) va 4 h
  have h2 (n : Nat) := memsWf_unitRead (coreDie o.core) (coreCtx s o.core) (replyWaiter o) va n h
  unfold serveRsload
  dsimp only
  split
  · next hr => exact memsWf_of_eq hr h1
  · next hr => exact replied_kept _ _ _ _ (memsWf_of_eq hr h1)
  · next hr =>
    split
    · exact replied_kept _ _ _ _ (memsWf_of_eq hr h1)
    · split
      · next hr => exact memsWf_of_eq hr (h2 _)
      · next hr => exact replied_kept _ _ _ _ (memsWf_of_eq hr (h2 _))
      · next hr =>
        have hu := memsWf_of_eq hr (h2 _)
        split
        · exact replied_kept _ _ _ _ (memsWf_of_same (sameMems_loadRules ..) hu)
        · exact replied_kept _ _ _ _ hu

theorem serveHash_kept (o : Owed) (ctx va : Nat) (h : MemsWf s) : (serveHash s o ctx va).Kept := by
  have hp := memsWf_of_same (sameMems_pageHashes s (replyWaiter o) (hashPages s ctx)) h
  unfold serveHash
  dsimp only
  split
  · next hr => rw [hr] at hp; exact hp
  · next hr =>
    rw [hr] at hp
    exact replied_kept _ _ _ _ (memsWf_of_same (sameMems_doneRemotes ..) hp)
  · next hs u hr =>
    rw [hr] at hp
    have hc : MemsWf ((doneRemotes (replyWaiter o) ((hashPages s ctx).map fun x => (x.2.1, 2 ^ x.2.2)) u).modCtx ctx
      fun x => { x with hashSeq := u.writeSeq }) := hp
    have hout := serveReadout_kept o (coreDie o.core) (coreCtx u o.core) va (hashTree (hashPages s ctx) hs).2
      (hashTree (hashPages s ctx) hs).1 hc
    split
    · exact hp
    · next ho => rw [ho] at hout; exact hout

theorem serve_kept (q : CfgReq) (cn : Nat) (h : MemsWf s) : (serve s q cn).Kept := by
  unfold serve
  dsimp only
  split
  · exact serveCfgw_kept _ _ _ h
  · exact serveCfgrd_kept _ _ h
  · exact serveSig_kept _ _ _ _ h
  · exact serveCrc_kept _ _ _ h
  · exact servePrime_kept _ _ _ h
  · split
    · exact serveFreeze_kept _ _ h
    · exact serveFreezeStroke_kept _ _ h
  · exact serveThaw_kept _ _ h
  · exact serveImgout_kept _ _ _ _ h
  · exact serveRsload_kept _ _ _ h
  · split
    · exact memsWf_of_same (sameMems_setSpine ..) h
    · split
      · exact memsWf_of_same (sameMems_selectSpine ..) h
      · exact replied_kept _ _ _ _ h
  · exact memsWf_startMigr _ _ _ _ _ _ h
  · exact serveHash_kept _ _ _ h

@[simp] theorem memsWf_tryServe (cn : Nat) (q : CfgReq) (h : MemsWf s) : MemsWf (tryServe s cn q) := by
  have hk := serve_kept q cn h
  unfold tryServe
  split
  · exact h
  · split
    · next hs => rw [hs] at hk; exact hk
    · next hs => rw [hs] at hk; exact hk

@[simp] theorem memsWf_postRequest (cn kind variant : Nat) (tag : BitVec 16) (a1 b c : W64) (h : MemsWf s) :
    MemsWf (postRequest s cn kind variant tag a1 b c) :=
  memsWf_tryServe _ _ h

@[simp] theorem memsWf_performEntry (cn i : Nat) (h : MemsWf s) : MemsWf (performEntry s cn i) := by
  unfold performEntry
  dsimp only
  repeat' split
  all_goals simp [MemsWf, h]

/-- An act of the commit keeps the memories in their form. -/
theorem memsWf_of_commitAct {t : State} (cn : Nat) (a : CommitAct) (h : MemsWf s) (ha : commitAct s cn a = some t) :
    MemsWf t := by
  cases a with
  | store | fence | noteSend | noteTake | timer | trigBind | trigUnbind | cfgTake | barmTake | pbudg | fltClear
    | novfClear =>
    cases ha
    exact h
  | tailw q index =>
    rw [commitAct] at ha
    repeat' split at ha
    · cases ha
    · cases ha
      exact memsWf_tailWrite _ _ _ h
    · cases ha
      exact memsWf_of_same (sameMems_sendOrDrop ..) h
  | request kind variant tag a b c =>
    cases ha
    exact memsWf_postRequest _ _ _ _ _ _ _ h
  | verd a ticket verdict =>
    cases ha
    exact memsWf_judgeTicket (s := s) _ _ _ h
  | wdraw rd wl cls t verdict =>
    cases ha
    exact memsWf_drawAt (s := s) _ _ _ _ h
  | wclose wl =>
    cases ha
    exact memsWf_closeWell _ h
  | barm b count scope root =>
    cases ha
    split <;> exact h
  | bara b =>
    rw [commitAct] at ha
    split at ha
    · cases ha
    · cases ha
      split
      · exact h
      · exact memsWf_of_same (sameMems_arriveAt ..) h
  | phint die int onset len =>
    cases ha
    exact memsWf_of_same (sameMems_requestHint ..) h
  | sysw idx val =>
    cases ha
    split
    · exact memsWf_of_same (sameMems_setBqueue ..) h
    · exact h

@[simp] theorem memsWf_commitStep (cn : Nat) (h : MemsWf s) : MemsWf (commitStep s cn) := by
  unfold commitStep
  dsimp only
  split
  · exact memsWf_of_same (sameMems_closeRound ..) h
  · split
    · exact memsWf_of_same (sameMems_commitRegs ..) h
    · split
      · exact h
      · split
        · next ha => exact memsWf_of_commitAct _ _ (s := s.setCore cn _) h ha
        · exact h

@[simp] theorem memsWf_coreNext (cn : Nat) (h : MemsWf s) : MemsWf (coreNext s cn).1 := by
  unfold coreNext
  dsimp only
  repeat' split
  all_goals simp [MemsWf, h]

end Sys2Proof.Machine
end

section
/-! SUPPORT. Every pump instruction answers a next state and keeps the memories in their form (R372, R308). -/

namespace Sys2Proof.Machine

variable {s : State}

/-! ### What an instruction comes to -/

/-- An instruction or an event answers a next state, and keeps the memories in their form. -/
def Proceeds (s : State) (r : Result) : Prop := ∃ t, r = .next t ∧ (MemsWf s → MemsWf t)

theorem proceeds_next {t : State} (h : MemsWf s → MemsWf t) : Proceeds s (.next t) := ⟨t, rfl, h⟩

theorem proceeds_same {t : State} (h : SameMems t s) : Proceeds s (.next t) := ⟨t, rfl, memsWf_of_same h⟩

/-- What a pump instruction comes to leaves the memories in their form. -/
def PumpOut.state : PumpOut → State
  | .done t _ | .wait t | .retry t | .fault t _ _ => t

/-- What a pump instruction comes to leaves the memories in their form. -/
def PumpOut.Kept (o : PumpOut) : Prop := MemsWf o.state

theorem proceeds_pumpStep {h : Skip} {op : Nat} {out : PumpOut} (hk : MemsWf s → out.Kept) :
    Proceeds s (pumpStep h op s out) := by
  unfold pumpStep
  dsimp only
  split
  · exact proceeds_next id
  · split
    · exact proceeds_same (sameMems_laneDid ..)
    · split
      · exact proceeds_next hk
      · exact proceeds_next fun h => memsWf_of_same (sameMems_abortLane ..) (hk h)
      · exact proceeds_next fun h => memsWf_of_same (sameMems_abortLane ..) (hk h)
      · split
        · exact proceeds_next fun h => memsWf_of_same (sameMems_abortLane ..) (hk h)
        · exact proceeds_next fun h => memsWf_of_same (sameMems_laneDid ..) (hk h)

theorem operandFault_kept (h : MemsWf s) : (operandFault s).Kept := h

theorem gives_kept (rd : Reg) (v : Nat) (h : MemsWf s) : (gives s rd v).Kept := h

theorem defers_kept (a : CommitAct) (h : MemsWf s) : (defers s a).Kept := h

theorem ite_kept {c : Prop} [Decidable c] {x y : PumpOut} (hx : x.Kept) (hy : y.Kept) : (if c then x else y).Kept := by
  split
  · exact hx
  · exact hy

theorem withAccess_kept {ea : Int} {len : Nat} {want : Want} {word : Bool} {k : State → List (Nat × Nat) → PumpOut}
    (h : MemsWf s) (hk : ∀ u spans, MemsWf u → (k u spans).Kept) : (withAccess s ea len want word k).Kept := by
  have hp := memsWf_of_same (sameMems_pumpAccess s ea len want word) h
  unfold withAccess
  split
  · next hr => exact memsWf_of_eq hr hp
  · next hr => exact memsWf_of_eq hr hp
  · next hr =>
    have hu := memsWf_of_eq hr hp
    split
    · exact hk _ _ hu
    · exact hu

theorem afterRelease_kept {o : PumpOut} (h : MemsWf s) (ho : o.Kept) : (o.afterRelease s).Kept := by
  cases o with
  | retry _ => exact h
  | done _ _ | wait _ | fault _ _ _ => exact ho

theorem atCommitPoint_kept {k : State → PumpOut} (h : MemsWf s) (hk : ∀ u, MemsWf u → (k u).Kept) :
    (atCommitPoint s k).Kept := by
  have hr := memsWf_releaseGroups (bodyLane s).acts.length h
  unfold atCommitPoint
  dsimp only
  generalize releaseGroups (bodyLane s).acts.length s = p at hr ⊢
  obtain ⟨t, done⟩ := p
  have ht := hk t hr
  have hs := hk s h
  generalize k t = a at ht ⊢
  generalize k s = b at hs ⊢
  split
  · exact h
  · split
    · dsimp only
      split
      · split
        · exact afterRelease_kept hr ht
        · exact hr
      · split
        · split
          · exact hs
          · exact hs
          · exact h
        · split
          · exact hs
          · exact hs
          · exact h
        · split
          · exact ht
          · exact hr
    · split
      · exact afterRelease_kept h hs
      · exact hs

theorem spansOk_kept {ea : Int} {spans : List (Nat × Nat)} {k : PumpOut} (h : MemsWf s) (hk : k.Kept) :
    (spansOk s ea spans k).Kept := by
  unfold spansOk
  split
  · exact hk
  · exact h

theorem loaded_kept {ea : Int} {spans : List (Nat × Nat)} {k : State → Nat → PumpOut} {r : ReadOut × State}
    (h : MemsWf r.2) (hk : ∀ u v, MemsWf u → (k u v).Kept) : (loaded ea spans k r).Kept := by
  obtain ⟨bs | _ | _, u⟩ := r
  · exact hk _ _ (memsWf_of_same (sameMems_doneRemotes ..) h)
  · exact h
  · exact h

theorem withWord_kept {ea : Int} {write : Bool} {k : State → Nat → PumpOut} (h : MemsWf s)
    (hk : ∀ u pa, MemsWf u → (k u pa).Kept) : (withWord s ea write k).Kept := by
  refine withAccess_kept h fun u spans hu => ?_
  split
  · exact hk _ _ hu
  · exact hu

theorem atController_kept {ea : Int} {pa len b expected : Nat} {op : RemoteOp} {n : Bool} {k : State → Nat → PumpOut}
    (h : MemsWf s) (hk : ∀ u v, MemsWf u → (k u v).Kept) : (atController s ea pa len op n b expected k).Kept := by
  unfold atController
  dsimp only
  split
  · exact h
  · split
    · refine loaded_kept (memsWf_of_same (sameMems_remoteAtomic ..) h) fun u v hu => hk _ _ ?_
      split
      · exact memsWf_of_same (sameMems_markRemote ..) hu
      · exact hu
    · exact hk _ _ (memsWf_performAtomic _ _ _ _ _ _ h)

theorem atomicAt_kept {ea : Int} {len b expected : Nat} {write : Bool} {op : RemoteOp} {n : Bool}
    {k : State → Nat → PumpOut} (h : MemsWf s) (hk : ∀ u v, MemsWf u → (k u v).Kept) :
    (atomicAt s ea len write op n b expected k).Kept := by
  refine withAccess_kept h fun u spans hu => ?_
  split
  · split
    · exact hu
    · exact atCommitPoint_kept hu fun v hv => atController_kept hv hk
  · exact hu

theorem operandAt_kept {va len : Nat} {write : Bool} {k : State → List (Nat × Nat) → PumpOut}
    (h : MemsWf s) (hk : ∀ u spans, MemsWf u → (k u spans).Kept) : (operandAt s va len write k).Kept := by
  refine withAccess_kept h fun u spans hu => ?_
  split
  · exact hk _ _ hu
  · exact hu

theorem operandBytes_kept {va : Nat} {spans : List (Nat × Nat)} {k : State → List Byte → PumpOut}
    (h : MemsWf s) (hk : ∀ u bs, MemsWf u → (k u bs).Kept) : (operandBytes s va spans k).Kept := by
  have hp := memsWf_of_same (sameMems_readSpansAny s (laneWaiter s) va spans) h
  unfold operandBytes
  split
  · next hr => exact memsWf_of_eq hr hp
  · next hr => exact memsWf_of_same (sameMems_doneRemotes ..) (memsWf_of_eq hr hp)
  · next hr => exact hk _ _ (memsWf_of_same (sameMems_doneRemotes ..) (memsWf_of_eq hr hp))

theorem operandAtCommit_kept {va len : Nat} {k : State → List Byte → PumpOut}
    (h : MemsWf s) (hk : ∀ u bs, MemsWf u → (k u bs).Kept) : (operandAtCommit s va len k).Kept :=
  operandAt_kept h fun _ _ hu => atCommitPoint_kept hu fun _ hv => operandBytes_kept hv hk

theorem storeSpans_kept {va : Nat} {spans : List (Nat × Nat)} {k : State → PumpOut}
    (h : MemsWf s) (hk : (k s).Kept) : (storeSpans s va spans k).Kept := by
  unfold storeSpans
  split
  · exact memsWf_of_same (sameMems_dropFlits ..) h
  · exact hk

theorem atPool_kept {die pool : Nat} {k : State → Pool → PumpOut} (h : MemsWf s) (hk : ∀ u p, MemsWf u → (k u p).Kept) :
    (atPool s die pool k).Kept := by
  refine atCommitPoint_kept h fun u hu => ?_
  split
  · exact hu
  · exact hk _ _ hu

theorem tlbi_kept (what : Scope_) (h : MemsWf s) : (tlbi s what).Kept := by
  refine atCommitPoint_kept h fun u hu => ?_
  split
  · exact memsWf_startShoot _ _ _ hu
  · split <;> exact hu

/-! ### Pump instructions -/

theorem execPumpLd_proceeds (h : Skip) (w : PumpW) (n : Bool) (rd ra : Reg) (disp : BitVec 24) :
    Proceeds s (execPumpLd h w n rd ra disp s) :=
  proceeds_pumpStep fun h => withAccess_kept h fun _ _ hu =>
    spansOk_kept hu (loaded_kept (memsWf_of_same (sameMems_loadSpans ..) hu) fun _ _ hv => gives_kept _ _ hv)

theorem execPumpSt_proceeds (h : Skip) (w : PumpW) (n : Bool) (ra rb : Reg) (disp : BitVec 24) :
    Proceeds s (execPumpSt h w n ra rb disp s) :=
  proceeds_pumpStep fun h => withAccess_kept h fun _ _ hu => spansOk_kept hu (by
    split
    · exact memsWf_of_same (sameMems_dropFlits ..) hu
    · exact hu)

theorem execPumpLds_proceeds (h : Skip) (n : Bool) (rd ra : Reg) (disp : BitVec 24) :
    Proceeds s (execPumpLds h n rd ra disp s) :=
  proceeds_pumpStep fun h => withWord_kept h fun _ _ hu => by
    dsimp only
    repeat' split
    all_goals exact hu

theorem execPumpStf_proceeds (h : Skip) (n : Bool) (ra rb : Reg) (disp : BitVec 24) :
    Proceeds s (execPumpStf h n ra rb disp s) :=
  proceeds_pumpStep fun h => withWord_kept h fun _ _ hu => hu

theorem execPumpLdc_proceeds (h : Skip) (n : Bool) (rd ra : Reg) (disp : BitVec 24) :
    Proceeds s (execPumpLdc h n rd ra disp s) :=
  proceeds_pumpStep fun h => withWord_kept h fun _ _ hu => atCommitPoint_kept hu fun _ hv => by
    repeat' split
    · exact hv
    · exact memsWf_of_same (sameMems_memEmpty ..) hv
    · exact hv

theorem pumpAtomic_proceeds (h : Skip) (opc : Nat) (op : RemoteOp) (w : PumpW) (n : Bool) (rd ra rb : Reg)
    (disp : BitVec 24) : Proceeds s (pumpAtomic h opc op w n rd ra rb disp s) :=
  proceeds_pumpStep fun h => atomicAt_kept h fun _ _ hu => hu

theorem execFxadd_proceeds (h : Skip) (xf : Bool) (ra rb : Reg) (disp : BitVec 24) :
    Proceeds s (execFxadd h xf ra rb disp s) :=
  proceeds_pumpStep fun h => atomicAt_kept h fun _ _ hu => hu

theorem execFxaddRd_proceeds (h : Skip) (xf clr : Bool) (rd ra : Reg) (disp : BitVec 24) :
    Proceeds s (execFxaddRd h xf clr rd ra disp s) :=
  proceeds_pumpStep fun h => atomicAt_kept h fun _ _ hu => hu

theorem execWaitv_proceeds (h : Skip) (w : PumpW) (n : Bool) (mon : Fin 8) (rd ra rb : Reg) (disp : BitVec 24) :
    Proceeds s (execWaitv h w n mon rd ra rb disp s) :=
  proceeds_pumpStep fun h => withAccess_kept h fun _ _ hu => by
    split
    · split
      · exact hu
      · refine atCommitPoint_kept hu fun _ hv => ?_
        dsimp only
        repeat' split
        all_goals exact hv
    · exact hu

theorem execFenceAcq_proceeds (h : Skip) (scope : Scope) : Proceeds s (execFenceAcq h scope s) :=
  proceeds_pumpStep fun h => by
    split
    · exact h
    · exact memsWf_of_same (sameMems_clearCache ..) h

theorem execFenceFull_proceeds (h : Skip) (scope : Scope) : Proceeds s (execFenceFull h scope s) :=
  proceeds_pumpStep fun h => by
    have hr := memsWf_releaseAll h
    split
    · next he => rw [he] at hr; exact hr
    · next he =>
      rw [he] at hr
      split
      · exact hr
      · exact memsWf_of_same (sameMems_clearCache ..) hr

theorem execNoteSend_proceeds (h : Skip) (ra rb : Reg) : Proceeds s (execNoteSend h ra rb s) :=
  proceeds_pumpStep fun h => by
    repeat' split
    all_goals exact h

theorem execNoteTake_proceeds (h : Skip) (rd : Reg) : Proceeds s (execNoteTake h rd s) := by
  unfold execNoteTake
  split
  exact proceeds_pumpStep fun h => h

theorem timerStep_proceeds (h : Skip) (periodic : Bool) (rd ra : Reg) : Proceeds s (timerStep h periodic rd ra s) :=
  proceeds_pumpStep fun h => ite_kept h h

theorem asks_proceeds (h : Skip) (op : Nat) (ok : Bool) (kind variant : Nat) (tag : BitVec 16) (a b c : Nat) :
    Proceeds s (asks h op s ok kind variant tag a b c) :=
  proceeds_pumpStep fun h => by
    repeat' split
    all_goals exact h

theorem execEnq_proceeds (h : Skip) (ra rb : Reg) : Proceeds s (execEnq h ra rb s) :=
  proceeds_pumpStep fun h => by
    split
    · exact h
    · refine operandAtCommit_kept h fun u b hu => ?_
      have he := enqRecord_kept (readG s ra) b hu
      split
      · exact hu
      · split
        · next hq => rw [hq] at he; exact he
        · exact hu
        · next hq => rw [hq] at he; exact he
        · next hq => rw [hq] at he; exact memsWf_engineFault _ _ _ _ _ he

theorem execDeqq_proceeds (h : Skip) (rd ra rb : Reg) : Proceeds s (execDeqq h rd ra rb s) :=
  proceeds_pumpStep fun h => by
    dsimp only
    split
    · exact h
    · refine operandAt_kept h fun _ _ hu => storeSpans_kept hu (atCommitPoint_kept hu fun v hv => ?_)
      have hq (q va : Nat) := memsWf_of_same (sameMems_qRead v q va 64) hv
      split
      · exact hv
      · split
        · next hr => exact memsWf_of_eq hr (hq _ _)
        · next hr => exact memsWf_engineFault _ _ _ _ _ (memsWf_of_eq hr (hq _ _))
        · next hr => exact memsWf_writeSpansSure _ _ (s := State.modQueue _ _ _) (memsWf_of_eq hr (hq _ _) :)

theorem execTailw_proceeds (h : Skip) (ra rb : Reg) : Proceeds s (execTailw h ra rb s) :=
  proceeds_pumpStep fun h => by
    repeat' split
    · exact h
    · exact memsWf_of_same (sameMems_dropFlits ..) h
    · exact h

theorem execDigest_proceeds (h : Skip) (rd ra rb : Reg) : Proceeds s (execDigest h rd ra rb s) :=
  proceeds_pumpStep fun h => by
    dsimp only
    split
    · exact h
    · exact operandAt_kept h fun _ _ hu => storeSpans_kept hu hu

theorem execLaunch_proceeds (h : Skip) (rd ra rb : Reg) : Proceeds s (execLaunch h rd ra rb s) :=
  proceeds_pumpStep fun h => by
    split
    · exact h
    · refine operandAtCommit_kept h fun u b hu => ?_
      split
      · exact hu
      · next r _ =>
        have hz := memsWf_zeroBlock r.die r.ctx (Rec.p2 b) hu
        repeat' split
        · exact hu
        · exact hu
        · next hr => exact memsWf_of_eq hr hz
        · next hr => exact memsWf_of_eq hr hz
        · next hr => exact memsWf_of_same (sameMems_releaseKernel ..) (memsWf_of_eq hr hz)

theorem execKstat_proceeds (h : Skip) (rd ra : Reg) : Proceeds s (execKstat h rd ra s) :=
  proceeds_pumpStep fun h => ite_kept h h

theorem execRegionAlloc_proceeds (h : Skip) (rd ra : Reg) : Proceeds s (execRegionAlloc h rd ra s) :=
  proceeds_pumpStep fun h => by
    split
    · exact h
    · refine atCommitPoint_kept h fun u hu => ?_
      split
      · next ha => exact memsWf_of_same (sameMems_of_allocRegion ha) hu
      · exact hu

theorem execRegionFree_proceeds (h : Skip) (rd ra : Reg) : Proceeds s (execRegionFree h rd ra s) :=
  proceeds_pumpStep fun h => by
    split
    · exact h
    · refine atCommitPoint_kept h fun u hu => ?_
      split
      · exact hu
      · exact memsWf_of_same (sameMems_releaseRegion ..) hu

theorem execTrigbBind_proceeds (h : Skip) (rd ra rb : Reg) : Proceeds s (execTrigbBind h rd ra rb s) :=
  proceeds_pumpStep fun h => by
    split
    · exact h
    · refine operandAt_kept h fun _ _ hu => operandBytes_kept hu fun _ _ hv => ?_
      split <;> exact hv

theorem execTrigbUnbind_proceeds (h : Skip) (rd ra : Reg) : Proceeds s (execTrigbUnbind h rd ra s) :=
  proceeds_pumpStep fun h => ite_kept h h

theorem execTrigbQuery_proceeds (h : Skip) (rd ra : Reg) : Proceeds s (execTrigbQuery h rd ra s) :=
  proceeds_pumpStep fun h => ite_kept h h

theorem execRpoolFill_proceeds (h : Skip) (rd ra : Reg) (pool : Fin 16) (die2 : Fin 4) :
    Proceeds s (execRpoolFill h rd ra pool die2 s) :=
  proceeds_pumpStep fun h => operandAtCommit_kept h fun _ _ hu => by
    repeat' split
    all_goals exact hu

theorem execRpoolClose_proceeds (h : Skip) (rd ra : Reg) (pool : Fin 16) (die2 : Fin 4) :
    Proceeds s (execRpoolClose h rd ra pool die2 s) :=
  proceeds_pumpStep fun h => atPool_kept h fun _ _ hu => hu

theorem execRpoolQuery_proceeds (h : Skip) (rd ra : Reg) (pool : Fin 16) (die2 : Fin 4) :
    Proceeds s (execRpoolQuery h rd ra pool die2 s) :=
  proceeds_pumpStep fun h => atPool_kept h fun _ _ hu => hu

theorem execCrcMem_proceeds (h : Skip) (rd ra rb : Reg) : Proceeds s (execCrcMem h rd ra rb s) :=
  proceeds_pumpStep fun h => by
    split
    · exact h
    · refine operandAt_kept h fun _ _ hu => ?_
      split
      · exact hu
      · exact operandBytes_kept hu fun _ _ hv => hv

theorem execRoute_proceeds (h : Skip) (rd ra rb : Reg) : Proceeds s (execRoute h rd ra rb s) :=
  proceeds_pumpStep fun h => ite_kept h h

theorem execWarm_proceeds (h : Skip) (rd ra rb : Reg) : Proceeds s (execWarm h rd ra rb s) :=
  proceeds_pumpStep fun h => by
    dsimp only
    split
    · exact h
    · refine operandAtCommit_kept h fun _ _ hu => ?_
      split
      · exact hu
      · exact memsWf_warmWell _ _ _ _ hu

theorem execWcand_proceeds (h : Skip) (rd ra : Reg) : Proceeds s (execWcand h rd ra s) :=
  proceeds_pumpStep fun h => by
    dsimp only
    split <;> exact h

theorem execVerd_proceeds (h : Skip) (ra rb : Reg) : Proceeds s (execVerd h ra rb s) :=
  proceeds_pumpStep fun h => ite_kept h h

theorem execWdraw_proceeds (h : Skip) (rd ra rb : Reg) : Proceeds s (execWdraw h rd ra rb s) :=
  proceeds_pumpStep fun h => ite_kept h h

theorem execWstat_proceeds (h : Skip) (item : Fin 7) (rd ra : Reg) (v16 : BitVec 16) :
    Proceeds s (execWstat h item rd ra v16 s) :=
  proceeds_pumpStep fun h => ite_kept h h

theorem execWclose_proceeds (h : Skip) (ra : Reg) : Proceeds s (execWclose h ra s) :=
  proceeds_pumpStep fun h => ite_kept h h

theorem execBarmSet_proceeds (h : Skip) (ra rb : Reg) : Proceeds s (execBarmSet h ra rb s) :=
  proceeds_pumpStep fun h => ite_kept h h

theorem execBara_proceeds (h : Skip) (ra : Reg) : Proceeds s (execBara h ra s) :=
  proceeds_pumpStep fun h => ite_kept h h

theorem execBarmTake_proceeds (h : Skip) (rd : Reg) : Proceeds s (execBarmTake h rd s) := by
  have hs (h : MemsWf s) : MemsWf (if (s.core s.actor.core).barDone = 0 then s else clearCache s) := by
    split
    · exact h
    · exact memsWf_of_same (sameMems_clearCache ..) h
  exact proceeds_pumpStep (out := .done _ _) hs

theorem execPbudgSet_proceeds (h : Skip) (ra rb : Reg) : Proceeds s (execPbudgSet h ra rb s) :=
  proceeds_pumpStep fun h => ite_kept h h

theorem execPbudgGet_proceeds (h : Skip) (rd ra : Reg) : Proceeds s (execPbudgGet h rd ra s) :=
  proceeds_pumpStep fun h => ite_kept h h

theorem execTlbiPage_proceeds (h : Skip) (ra : Reg) : Proceeds s (execTlbiPage h ra s) :=
  proceeds_pumpStep fun h => by
    split
    · exact h
    · exact tlbi_kept _ h

theorem execTlbiAll_proceeds (h : Skip) : Proceeds s (execTlbiAll h s) :=
  proceeds_pumpStep fun h => by
    split
    · exact tlbi_kept _ h
    · exact h

theorem execSysw_proceeds (h : Skip) (sidx : BitVec 12) (rb : Reg) : Proceeds s (execSysw h sidx rb s) :=
  proceeds_pumpStep fun h => ite_kept h h

theorem execCfgrdTake_proceeds (h : Skip) (rd : Reg) : Proceeds s (execCfgrdTake h rd s) :=
  proceeds_pumpStep fun h => ite_kept h h

end Sys2Proof.Machine
end

section
/-! SUPPORT. Every event answers a next state and keeps the memories in their form (R372, R308). -/

namespace Sys2Proof.Machine

variable {s : State}

theorem proceeds_self : Proceeds s (.next s) := proceeds_next fun h => h

theorem proceeds_ite {c : Prop} [Decidable c] {x y : Result} (hx : Proceeds s x) (hy : Proceeds s y) :
    Proceeds s (if c then x else y) := by
  split
  · exact hx
  · exact hy

theorem execVectorResultWrite_proceeds (t e : Nat) : Proceeds s (execVectorResultWrite t e s) := by
  refine proceeds_next fun h => ?_
  simp [MemsWf, h]

theorem execLoadDataReturn_proceeds (t e rq : Nat) : Proceeds s (execLoadDataReturn t e rq s) := by
  unfold execLoadDataReturn
  dsimp only
  repeat' split
  all_goals refine proceeds_next fun h => ?_
  all_goals simp [MemsWf, h]

theorem execFeWordFullWake_proceeds (t e rq : Nat) : Proceeds s (execFeWordFullWake t e rq s) := by
  unfold execFeWordFullWake
  dsimp only
  repeat' split
  all_goals refine proceeds_next fun h => ?_
  all_goals simp [MemsWf, h]

theorem execXlatWalkComplete_proceeds (t e rq : Nat) : Proceeds s (execXlatWalkComplete t e rq s) := by
  unfold execXlatWalkComplete
  dsimp only
  repeat' split
  all_goals refine proceeds_next fun h => ?_
  all_goals simp [MemsWf, h]

theorem execRangeTokenReply_proceeds (t e rq : Nat) : Proceeds s (execRangeTokenReply t e rq s) := by
  unfold execRangeTokenReply
  repeat' split
  all_goals refine proceeds_next fun h => ?_
  all_goals simp [MemsWf, h]

theorem execPageWalkComplete_proceeds (t e rq : Nat) : Proceeds s (execPageWalkComplete t e rq s) := by
  unfold execPageWalkComplete
  dsimp only
  repeat' split
  all_goals refine proceeds_next fun h => ?_
  all_goals simp [MemsWf, h]

theorem execMemoryFaultFound_proceeds (t e rq : Nat) (what : StoreFault) :
    Proceeds s (execMemoryFaultFound t e rq what s) := by
  unfold execMemoryFaultFound
  dsimp only
  repeat' split
  all_goals refine proceeds_next fun h => ?_
  all_goals simp [MemsWf, h]

theorem execIslandCommandStart_proceeds (en : Nat) : Proceeds s (execIslandCommandStart en s) := by
  have hread (u : State) (ctx va : Nat) (h : MemsWf u) : MemsWf (readGroup u en ctx va).2 :=
    memsWf_of_same (sameMems_readGroup ..) h
  unfold execIslandCommandStart
  dsimp only
  repeat' split
  all_goals refine proceeds_next fun h => ?_
  · exact h
  · exact h
  · exact h
  · next hr => exact (memsWf_of_eq hr (hread _ _ _ h) :)
  · next hr => exact memsWf_of_eq hr (hread _ _ _ h)
  all_goals exact h

theorem execIslandBLoadComplete_proceeds (en : Nat) : Proceeds s (execIslandBLoadComplete en s) := by
  unfold execIslandBLoadComplete
  split
  · next hl => exact proceeds_same (sameMems_of_loadStep hl)
  · exact proceeds_self

theorem execIslandRowStart_proceeds (en : Nat) : Proceeds s (execIslandRowStart en s) := by
  unfold execIslandRowStart
  dsimp only
  repeat' split
  all_goals refine proceeds_next fun h => ?_
  all_goals simp [MemsWf, h]

theorem execIslandDrainRow_proceeds (en : Nat) : Proceeds s (execIslandDrainRow en s) := by
  have hheld : Proceeds s (.next (if drainHeld s en then markHeld s en else s)) := by
    split
    · exact proceeds_same (sameMems_markHeld ..)
    · exact proceeds_self
  unfold execIslandDrainRow
  dsimp only
  split
  · refine proceeds_ite hheld (proceeds_ite (proceeds_next fun h => memsWf_regionFault _ _ _ _ _ h) (proceeds_ite ?_ ?_))
    all_goals
      refine proceeds_same (SameMems.trans (t := List.foldl _ _ _) ⟨rfl, rfl, rfl⟩
        (SameMems.trans (sameMems_foldl (fun u p => ?_) _ _) ?_))
      · split
        · exact sameMems_deliver ..
        · exact ⟨rfl, rfl, rfl⟩
      · split <;> exact ⟨rfl, rfl, rfl⟩
  · exact proceeds_self

theorem execIslandFault_proceeds (en : Nat) : Proceeds s (execIslandFault en s) := by
  unfold execIslandFault
  dsimp only
  repeat' split
  all_goals refine proceeds_next fun h => ?_
  all_goals simp [MemsWf, h]

theorem execIslandLoadResume_proceeds (en : Nat) : Proceeds s (execIslandLoadResume en s) := by
  unfold execIslandLoadResume
  repeat' split
  all_goals refine proceeds_next fun h => ?_
  all_goals simp [MemsWf, h]

theorem execEngineError_proceeds (en : Nat) : Proceeds s (execEngineError en s) := by
  unfold execEngineError
  repeat' split
  all_goals refine proceeds_next fun h => ?_
  all_goals simp [MemsWf, h]

theorem execStreamCommandStart_proceeds (en : Nat) : Proceeds s (execStreamCommandStart en s) := by
  refine proceeds_next fun h => ?_
  have hu : MemsWf (if (wrongCommand s en).isSome then s else takeCommand s en) := by
    split
    · exact h
    · exact memsWf_of_same (sameMems_takeCommand ..) h
  exact memsWf_finishStep _ (startStep_kept _ hu) hu

theorem execStreamCommandComplete_proceeds (en : Nat) : Proceeds s (execStreamCommandComplete en s) := by
  unfold execStreamCommandComplete
  split
  · exact proceeds_next fun h => memsWf_finishStep _ (streamStep_kept _ h) h
  · exact proceeds_self

theorem execStreamFaultResume_proceeds (en : Nat) : Proceeds s (execStreamFaultResume en s) := by
  unfold execStreamFaultResume
  repeat' split
  all_goals refine proceeds_next fun h => ?_
  all_goals simp [MemsWf, h]

theorem execExpanderBlockComplete_proceeds (en : Nat) : Proceeds s (execExpanderBlockComplete en s) := by
  unfold execExpanderBlockComplete
  split
  · exact proceeds_next fun h => memsWf_finishStep _ (xpFinish_kept _ h) h
  · exact proceeds_self

theorem execExpanderStreamSlotFree_proceeds (en : Nat) : Proceeds s (execExpanderStreamSlotFree en s) := by
  unfold execExpanderStreamSlotFree
  repeat' split
  all_goals refine proceeds_next fun h => ?_
  all_goals simp [MemsWf, h]

theorem execWeirSortComplete_proceeds (en : Nat) : Proceeds s (execWeirSortComplete en s) := by
  unfold execWeirSortComplete
  split
  · exact proceeds_next fun h => memsWf_finishStep _ (weirSort_kept _ h) h
  · exact proceeds_self

theorem execEngineReply_proceeds (en : Nat) : Proceeds s (execEngineReply en s) := by
  unfold execEngineReply
  dsimp only
  split
  · split
    · next hr => exact proceeds_same (sameMems_of_deliverReply hr :)
    · exact proceeds_self
  · split
    · exact proceeds_self
    · split
      · next hr => exact proceeds_same ((sameMems_dropReply ..).trans (sameMems_of_deliverReply hr))
      · exact proceeds_self

theorem execRangeServerServe_proceeds (die : Nat) : Proceeds s (execRangeServerServe die s) := by
  unfold execRangeServerServe
  dsimp only
  repeat' split
  all_goals refine proceeds_next fun h => ?_
  all_goals simp [MemsWf, h]

theorem execPoolTableReadComplete_proceeds (pk : Nat) : Proceeds s (execPoolTableReadComplete pk s) := by
  unfold execPoolTableReadComplete
  dsimp only
  split
  · exact proceeds_self
  · split
    all_goals next hr => exact proceeds_same (sameMems_of_eq hr (sameMems_readGroup ..) :)

theorem execTimerExpiry_proceeds (core : Nat) : Proceeds s (execTimerExpiry core s) := by
  unfold execTimerExpiry
  dsimp only
  repeat' split
  all_goals refine proceeds_next fun h => ?_
  all_goals simp [MemsWf, h]

theorem execMonitorFire_proceeds (core k : Nat) : Proceeds s (execMonitorFire core k s) := by
  unfold execMonitorFire
  repeat' split
  all_goals refine proceeds_next fun h => ?_
  all_goals simp [MemsWf, h]

theorem execConfigReplyArrival_proceeds (core : Nat) : Proceeds s (execConfigReplyArrival core s) := by
  unfold execConfigReplyArrival
  dsimp only
  repeat' split
  all_goals refine proceeds_next fun h => ?_
  all_goals simp [MemsWf, h]

theorem execMigrComplete_proceeds (id : Nat) : Proceeds s (execMigrComplete id s) := by
  unfold execMigrComplete
  split
  · split
    · exact proceeds_self
    · exact proceeds_next fun h => memsWf_endMigrIn _ _ h
  · split
    · exact proceeds_self
    · dsimp only
      split
      · refine proceeds_next fun h => memsWf_of_same (sameMems_owedReply ..) (memsWf_endMigr _ _ _ _ ?_)
        exact memsWf_of_same (sameMems_copyMarks ..) (memsWf_memStore _ _ _ h)
      · refine proceeds_next fun h => memsWf_of_same (sameMems_owedReply ..) (memsWf_endMigr _ _ _ _ ?_)
        exact ⟨h.1, Mem.wf_writes _ _ h.2.1, h.2.2⟩
      all_goals exact proceeds_self

theorem execStrokeLengthExpiry_proceeds (k : Nat) : Proceeds s (execStrokeLengthExpiry k s) := by
  unfold execStrokeLengthExpiry
  repeat' split
  all_goals refine proceeds_next fun h => ?_
  all_goals simp [MemsWf, h]

theorem execStrokeMarkInject_proceeds (k : Nat) : Proceeds s (execStrokeMarkInject k s) := by
  unfold execStrokeMarkInject
  repeat' split
  all_goals refine proceeds_next fun h => ?_
  all_goals simp [MemsWf, h]

theorem execMarkAligned_proceeds (at_ : MarkSite) : Proceeds s (execMarkAligned at_ s) := by
  unfold execMarkAligned
  dsimp only
  repeat' split
  all_goals refine proceeds_next fun h => ?_
  all_goals simp [MemsWf, h]

theorem execBarrierAligned_proceeds (at_ : MarkSite) : Proceeds s (execBarrierAligned at_ s) := by
  unfold execBarrierAligned
  dsimp only
  repeat' split
  all_goals refine proceeds_next fun h => ?_
  all_goals simp [MemsWf, h]

theorem execStrokeClose_proceeds (k : Nat) : Proceeds s (execStrokeClose k s) := by
  unfold execStrokeClose
  split
  · exact proceeds_self
  · next r _ =>
    split
    · refine proceeds_next fun h => ?_
      have hc := memsWf_commitCounts k (s := (regionIslands (modTiles s r (closeTile r.stroke)) r).foldl
        (fun s en => s.modIsland en closeIsland) (modTiles s r (closeTile r.stroke)))
        (memsWf_of_same (by simp [SameMems]) h)
      refine memsWf_of_same ?_ hc
      simp [SameMems]
    · exact proceeds_self

theorem execStrokeDrainComplete_proceeds (k : Nat) : Proceeds s (execStrokeDrainComplete k s) := by
  unfold execStrokeDrainComplete
  dsimp only
  repeat' split
  all_goals refine proceeds_next fun h => ?_
  all_goals simp [MemsWf, h]

theorem execDrainInject_proceeds (k : Nat) : Proceeds s (execDrainInject k s) := by
  unfold execDrainInject
  repeat' split
  all_goals refine proceeds_next fun h => ?_
  all_goals simp [MemsWf, h]

theorem execPlaneSwitch_proceeds (k : Nat) : Proceeds s (execPlaneSwitch k s) := by
  unfold execPlaneSwitch
  repeat' split
  all_goals refine proceeds_next fun h => ?_
  all_goals simp [MemsWf, h]

theorem execCutArrival_proceeds (t e : Nat) : Proceeds s (execCutArrival t e s) := by
  unfold execCutArrival
  dsimp only
  repeat' split
  all_goals refine proceeds_next fun h => ?_
  all_goals simp [MemsWf, h]

theorem execRingSpill_proceeds (t e c : Nat) : Proceeds s (execRingSpill t e c s) := by
  unfold execRingSpill
  dsimp only
  repeat' split
  all_goals refine proceeds_next fun h => ?_
  all_goals simp [MemsWf, h]

theorem execRingRefill_proceeds (t e c : Nat) : Proceeds s (execRingRefill t e c s) := by
  unfold execRingRefill
  dsimp only
  repeat' split
  all_goals refine proceeds_next fun h => ?_
  all_goals simp [MemsWf, h]

theorem execPrimeComplete_proceeds (r : Nat) : Proceeds s (execPrimeComplete r s) := by
  refine proceeds_next fun h => ?_
  simp [MemsWf, h]

theorem execFreezeWaveComplete_proceeds (k : Nat) : Proceeds s (execFreezeWaveComplete k s) := by
  unfold execFreezeWaveComplete
  repeat' split
  all_goals refine proceeds_next fun h => ?_
  all_goals simp [MemsWf, h]

theorem execKernelQuiescence_proceeds (k : Nat) : Proceeds s (execKernelQuiescence k s) := by
  unfold execKernelQuiescence
  repeat' split
  all_goals refine proceeds_next fun h => ?_
  all_goals simp [MemsWf, h]

theorem execKernelRetire_proceeds (k : Nat) : Proceeds s (execKernelRetire k s) := by
  have hwr (h : MemsWf s) : MemsWf (writePower (commitCounts (commitCounts s k) k) k) :=
    memsWf_writePower _ (memsWf_commitCounts _ (memsWf_commitCounts _ h))
  have hd (c : Prop) [Decidable c] (u : State) (r : Region) (w : Nat) (hu : MemsWf u) :
      MemsWf (if c then kernelDigest u r w else (.bytes [], u)).2 := by
    split
    · exact memsWf_of_same (sameMems_kernelDigest ..) hu
    · exact hu
  unfold execKernelRetire
  dsimp only
  split
  · exact proceeds_self
  · split
    · split
      · next hr => exact proceeds_next fun h => memsWf_of_eq hr (hd _ _ _ _ (hwr h))
      · next hr => exact proceeds_next fun h => memsWf_of_eq hr (hd _ _ _ _ (hwr h))
      · next hr =>
        refine proceeds_next fun h => memsWf_of_same ?_ (memsWf_of_eq hr (hd _ _ _ _ (hwr h)))
        repeat' split
        all_goals simp [SameMems]
    · exact proceeds_self

theorem execWatchdogExpiry_proceeds (k : Nat) : Proceeds s (execWatchdogExpiry k s) := by
  unfold execWatchdogExpiry
  repeat' split
  all_goals refine proceeds_next fun h => ?_
  all_goals simp [MemsWf, h]

theorem execConfigEccError_proceeds (t caddr : Nat) : Proceeds s (execConfigEccError t caddr s) := by
  unfold execConfigEccError
  dsimp only
  repeat' split
  all_goals refine proceeds_next fun h => ?_
  all_goals simp [MemsWf, h]

theorem execConfigScrub_proceeds (t : Nat) : Proceeds s (execConfigScrub t s) := by
  unfold execConfigScrub
  repeat' split
  all_goals refine proceeds_next fun h => ?_
  all_goals simp [MemsWf, h]

theorem execQueueEnable_proceeds (q : Nat) : Proceeds s (execQueueEnable q s) := by
  refine proceeds_next fun h => ?_
  simp [MemsWf, h]

theorem execQueueDisable_proceeds (q : Nat) : Proceeds s (execQueueDisable q s) := by
  refine proceeds_next fun h => ?_
  simp [MemsWf, h]

theorem execQueueRetry_proceeds (q : Nat) : Proceeds s (execQueueRetry q s) := by
  refine proceeds_next fun h => ?_
  simp [MemsWf, h]

theorem execQueueSkip_proceeds (q : Nat) : Proceeds s (execQueueSkip q s) := by
  refine proceeds_next fun h => ?_
  simp [MemsWf, h]

theorem execTailWrite_proceeds (src : TailSource) (q : Nat) (tail : W64) : Proceeds s (execTailWrite src q tail s) := by
  refine proceeds_next fun h => ?_
  simp [MemsWf, h]

theorem execRecordStart_proceeds (die : Nat) : Proceeds s (execRecordStart die s) := by
  have hpull (mine : List Nat) (h : MemsWf s) : MemsWf (mine.foldl (fun s q =>
      (pullRecords q (s.queue q).pulling s).modQueue q fun u => u.dropSkipped u.skips.length) s) :=
    memsWf_foldl (f := fun s q => (pullRecords q (s.queue q).pulling s).modQueue q fun u => u.dropSkipped u.skips.length)
      (fun _ _ hs => (memsWf_pullRecords _ _ hs :)) _ h
  have hjudge (mine qs : List Nat) (h : MemsWf s) := memsWf_of_same (sameMems_judgeHeads _ qs) (hpull mine h)
  unfold execRecordStart
  dsimp only
  split
  · split
    · exact proceeds_next fun h => memsWf_queueFault _ _ _ _ _ (hjudge _ _ h)
    · exact proceeds_next fun h => memsWf_haltAtHead _ _ _ (hjudge _ _ h)
  · exact proceeds_next fun h => memsWf_haltAtHead _ _ _ (hjudge _ _ h)
  · exact proceeds_next fun h => memsWf_startFirst _ _ (hjudge _ _ h)

theorem execRecordComplete_proceeds (q idx : Nat) : Proceeds s (execRecordComplete q idx s) := by
  unfold execRecordComplete
  repeat' split
  all_goals refine proceeds_next fun h => ?_
  · exact h
  · exact h
  · exact memsWf_copyStep _ _ h
  · exact memsWf_digestStep _ _ h
  · exact h
  · exact h
  · next hr => exact memsWf_of_eq hr (memsWf_signal _ _ h)
  · next hr => exact memsWf_queueFault _ _ _ _ _ (memsWf_of_eq hr (memsWf_signal _ _ h))
  · next hr => exact memsWf_finishRecord _ _ (s := State.modQueue _ _ _) (memsWf_of_eq hr (memsWf_signal _ _ h) :)

theorem execQueueEngineFault_proceeds (q : Nat) : Proceeds s (execQueueEngineFault q s) := by
  have hh (h : MemsWf s) : MemsWf (headOf (pullRecords q (s.queue q).pulling s) q).2 :=
    memsWf_of_same (sameMems_headOf ..) (memsWf_pullRecords _ _ h)
  unfold execQueueEngineFault
  dsimp only
  repeat' split
  all_goals refine proceeds_next fun h => ?_
  · exact h
  · next hr _ => exact memsWf_queueFault _ _ _ _ _ (memsWf_of_eq hr (hh h))
  · next hr _ => exact memsWf_haltAtHead _ _ _ (memsWf_of_eq hr (hh h))
  · next hr => exact memsWf_of_eq hr (hh h)

theorem execTriggerFire_proceeds (bk : Nat) : Proceeds s (execTriggerFire bk s) := by
  unfold execTriggerFire
  split
  · exact proceeds_self
  · next t _ =>
    have hd := deliverTrigger_kept (s := s) (bk / 256) t
    dsimp only
    split
    · exact proceeds_self
    · split
      · exact proceeds_self
      · split
        · next hr => rw [hr] at hd; exact proceeds_next hd
        · exact proceeds_self
        · next hr => rw [hr] at hd; exact proceeds_next hd

theorem execTriggerPendingDelivery_proceeds (bk : Nat) : Proceeds s (execTriggerPendingDelivery bk s) := by
  unfold execTriggerPendingDelivery
  split
  · exact proceeds_self
  · next t _ =>
    have hd := deliverTrigger_kept (s := s) (bk / 256) t
    split
    · exact proceeds_self
    · split
      · next hr => rw [hr] at hd; exact proceeds_next hd
      · exact proceeds_self
      · next hr => rw [hr] at hd; exact proceeds_next hd

theorem execGroupLaunch_proceeds (gid : Nat) : Proceeds s (execGroupLaunch gid s) := by
  have hz (l : List (Region × Nat)) (h : MemsWf s) := memsWf_zeroBlocks l h
  unfold execGroupLaunch
  dsimp only
  split
  · exact proceeds_self
  · split
    · exact proceeds_self
    · split
      · next hr => exact proceeds_next fun h => memsWf_of_eq hr (hz _ h)
      · next hr =>
        split
        · split
          · exact proceeds_next fun h => memsWf_queueFault _ _ _ _ _ (memsWf_of_eq hr (hz _ h))
          · exact proceeds_next fun h => memsWf_kernelFault _ _ (memsWf_of_eq hr (hz _ h))
        · exact proceeds_next fun h => memsWf_of_eq hr (hz _ h)
      · next hr =>
        refine proceeds_next fun h => memsWf_of_same ?_ (memsWf_of_eq hr (hz _ h))
        split <;> simp [SameMems]

theorem execCtxCleanupComplete_proceeds (cx : Nat) : Proceeds s (execCtxCleanupComplete cx s) := by
  unfold execCtxCleanupComplete
  dsimp only
  split
  · exact proceeds_self
  · exact proceeds_same ((sameMems_foldl (fun _ _ => sameMems_freeCore ..) _ _).trans
      ((sameMems_foldl (fun _ _ => sameMems_killQueue ..) _ _).trans
        (sameMems_foldl (fun _ _ => sameMems_releaseRegion ..) _ _)) :)

theorem execCtxFreezeComplete_proceeds (cx : Nat) : Proceeds s (execCtxFreezeComplete cx s) := by
  unfold execCtxFreezeComplete
  repeat' split
  all_goals refine proceeds_next fun h => ?_
  all_goals simp [MemsWf, h]

theorem execCtxFault_proceeds (cx : Nat) : Proceeds s (execCtxFault cx s) := by
  unfold execCtxFault
  dsimp only
  repeat' split
  all_goals refine proceeds_next fun h => ?_
  all_goals simp [MemsWf, h]

theorem execTreeBarrierArrival_proceeds (bk : Nat) : Proceeds s (execTreeBarrierArrival bk s) := by
  unfold execTreeBarrierArrival
  dsimp only
  repeat' split
  all_goals refine proceeds_next fun h => ?_
  all_goals simp [MemsWf, h]

theorem execShootdownComplete_proceeds (id : Nat) : Proceeds s (execShootdownComplete id s) := by
  unfold execShootdownComplete
  repeat' split
  all_goals refine proceeds_next fun h => ?_
  all_goals simp [MemsWf, h]

theorem execPagePoison_proceeds (cx : Nat) (va : W64) : Proceeds s (execPagePoison cx va s) := by
  refine proceeds_next fun h => ?_
  simp [MemsWf, h]

theorem execPfres_proceeds (die : Nat) (val : W64) : Proceeds s (execPfres die val s) := by
  refine proceeds_next fun h => ?_
  simp [MemsWf, h]

theorem execLinkEnable_proceeds (k : Nat) (en : Bool) : Proceeds s (execLinkEnable k en s) := by
  unfold execLinkEnable
  repeat' split
  all_goals refine proceeds_next fun h => ?_
  all_goals simp [MemsWf, h]

theorem execRetrain_proceeds (k : Nat) : Proceeds s (execRetrain k s) := by
  unfold execRetrain
  repeat' split
  all_goals refine proceeds_next fun h => ?_
  all_goals simp [MemsWf, h]

theorem execLinkTrained_proceeds (k lanes : Nat) : Proceeds s (execLinkTrained k lanes s) := by
  unfold execLinkTrained
  dsimp only
  repeat' split
  all_goals refine proceeds_next fun h => ?_
  all_goals simp [MemsWf, h]

theorem execLinkTrainingFail_proceeds (k : Nat) : Proceeds s (execLinkTrainingFail k s) := by
  unfold execLinkTrainingFail
  repeat' split
  all_goals refine proceeds_next fun h => ?_
  all_goals simp [MemsWf, h]

theorem execLinkLaneLoss_proceeds (k : Nat) (lane : Bool) : Proceeds s (execLinkLaneLoss k lane s) := by
  unfold execLinkLaneLoss
  repeat' split
  all_goals refine proceeds_next fun h => ?_
  all_goals simp [MemsWf, h]

theorem execFlitReceive_proceeds (k : Nat) (fl : Flit) : Proceeds s (execFlitReceive k fl s) := by
  unfold execFlitReceive
  repeat' split
  all_goals refine proceeds_next fun h => ?_
  all_goals simp [MemsWf, h]

theorem execFlitAck_proceeds (k n : Nat) : Proceeds s (execFlitAck k n s) := by
  unfold execFlitAck
  repeat' split
  all_goals refine proceeds_next fun h => ?_
  all_goals simp [MemsWf, h]

theorem execIngestFrame_proceeds (port : Nat) (frame : List Byte) : Proceeds s (execIngestFrame port frame s) := by
  unfold execIngestFrame
  dsimp only
  repeat' split
  all_goals refine proceeds_next fun h => ?_
  all_goals simp [MemsWf, h]

theorem execHostRead_proceeds (bar off len : Nat) : Proceeds s (execHostRead bar off len s) := by
  unfold execHostRead
  repeat' split
  all_goals refine proceeds_next fun h => ?_
  · exact h
  · exact h
  · next hr => exact memsWf_of_same (sameMems_answerHost ..) (memsWf_of_same (sameMems_of_mmioRead hr) h)
  all_goals exact h

theorem execHostWrite_proceeds (bar off : Nat) (data : List Byte) : Proceeds s (execHostWrite bar off data s) := by
  unfold execHostWrite
  repeat' split
  all_goals refine proceeds_next fun h => ?_
  all_goals simp [MemsWf, h]

theorem execRegisterWrite_proceeds (off len : Nat) (val : W64) : Proceeds s (execRegisterWrite off len val s) := by
  refine proceeds_next fun h => ?_
  simp [MemsWf, h]

theorem execPublish_proceeds (wl : Nat) : Proceeds s (execPublish wl s) := by
  unfold execPublish
  dsimp only
  repeat' split
  all_goals refine proceeds_next fun h => ?_
  all_goals simp [MemsWf, h]

theorem execCandidateWrite_proceeds (wl : Nat) : Proceeds s (execCandidateWrite wl s) := by
  unfold execCandidateWrite
  dsimp only
  repeat' split
  all_goals refine proceeds_next fun h => ?_
  all_goals simp [MemsWf, h]

theorem execDrawCopy_proceeds (wl : Nat) : Proceeds s (execDrawCopy wl s) := by
  unfold execDrawCopy
  repeat' split
  all_goals refine proceeds_next fun h => ?_
  all_goals simp [MemsWf, h]

theorem execRdposWrite_proceeds (wl : Nat) : Proceeds s (execRdposWrite wl s) := by
  unfold execRdposWrite
  dsimp only
  repeat' split
  all_goals refine proceeds_next fun h => ?_
  all_goals simp [MemsWf, h]

theorem execChargeIntervalStart_proceeds : Proceeds s (execChargeIntervalStart s) := by
  unfold execChargeIntervalStart
  dsimp only
  repeat' split
  all_goals refine proceeds_next fun h => ?_
  all_goals simp [MemsWf, h]

theorem execChargeDose_proceeds : Proceeds s (execChargeDose s) := by
  unfold execChargeDose
  dsimp only
  repeat' split
  all_goals refine proceeds_next fun h => ?_
  all_goals simp [MemsWf, h]

theorem execHintRampStep_proceeds (die cx : Nat) : Proceeds s (execHintRampStep die cx s) := by
  refine proceeds_next fun h => ?_
  simp [MemsWf, h]

theorem execSpineFreqStep_proceeds (sp : Nat) : Proceeds s (execSpineFreqStep sp s) := by
  unfold execSpineFreqStep
  dsimp only
  repeat' split
  all_goals refine proceeds_next fun h => ?_
  all_goals simp [MemsWf, h]

theorem execSpineSwitchComplete_proceeds (t : Nat) : Proceeds s (execSpineSwitchComplete t s) := by
  unfold execSpineSwitchComplete
  dsimp only
  repeat' split
  all_goals refine proceeds_next fun h => ?_
  all_goals simp [MemsWf, h]

theorem execT1_proceeds (die : Nat) : Proceeds s (execT1 die s) := by
  unfold execT1
  repeat' split
  all_goals refine proceeds_next fun h => ?_
  all_goals simp [MemsWf, h]

theorem execT2_proceeds (die : Nat) : Proceeds s (execT2 die s) := by
  unfold execT2
  repeat' split
  all_goals refine proceeds_next fun h => ?_
  all_goals simp [MemsWf, h]

theorem execT3_proceeds (die : Nat) : Proceeds s (execT3 die s) := by
  refine proceeds_next fun h => ?_
  simp [MemsWf, h]

theorem execT4_proceeds (die : Nat) : Proceeds s (execT4 die s) := by
  refine proceeds_next fun h => ?_
  simp [MemsWf, h]

theorem execThermalClear_proceeds (die trip : Nat) : Proceeds s (execThermalClear die trip s) := by
  unfold execThermalClear
  repeat' split
  all_goals refine proceeds_next fun h => ?_
  all_goals simp [MemsWf, h]

theorem execBoot_proceeds (bo : BootInput) : Proceeds s (execBoot bo s) := by
  refine proceeds_next fun h => ?_
  simp [MemsWf, h]

theorem execGetVersion_proceeds (rq : SpdmRequest) : Proceeds s (execGetVersion rq s) := by
  unfold execGetVersion
  repeat' split
  all_goals refine proceeds_next fun h => ?_
  all_goals simp [MemsWf, h]

theorem execGetCapabilities_proceeds (rq : SpdmRequest) : Proceeds s (execGetCapabilities rq s) :=
  proceeds_same (sameMems_spdmAnswer _ _ _ _ _ fun u => (sameMems_respond ..).trans (sameMems_drawWord u))

theorem execNegotiateAlgorithms_proceeds (rq : SpdmRequest) : Proceeds s (execNegotiateAlgorithms rq s) :=
  proceeds_same (sameMems_spdmAnswer _ _ _ _ _ fun _ => sameMems_respond ..)

theorem execGetDigests_proceeds (rq : SpdmRequest) : Proceeds s (execGetDigests rq s) :=
  proceeds_same (sameMems_spdmAnswer _ _ _ _ _ fun _ => sameMems_respond ..)

theorem execGetCertificate_proceeds (rq : SpdmRequest) : Proceeds s (execGetCertificate rq s) :=
  proceeds_same (sameMems_spdmAnswer _ _ _ _ _ fun u => by
    dsimp only
    split
    · exact sameMems_spdmError ..
    · exact sameMems_respond ..)

theorem execChallenge_proceeds (rq : SpdmRequest) : Proceeds s (execChallenge rq s) :=
  proceeds_same (sameMems_spdmAnswer _ _ _ _ _ fun u => by
    dsimp only
    split
    · exact sameMems_spdmError ..
    · exact (sameMems_respondSigned ..).trans (sameMems_freeBytes u))

theorem execGetMeasurements_proceeds (rq : SpdmRequest) : Proceeds s (execGetMeasurements rq s) :=
  proceeds_same (sameMems_spdmAnswer _ _ _ _ _ fun u => by
    dsimp only
    split
    · exact sameMems_spdmError ..
    · split
      · exact (sameMems_respondSigned ..).trans (sameMems_freeBytes u)
      · exact (sameMems_respond ..).trans (sameMems_freeBytes u))

theorem execMemoryReadRetry_proceeds (me : MemError) : Proceeds s (execMemoryReadRetry me s) := by
  unfold execMemoryReadRetry
  repeat' split
  all_goals refine proceeds_next fun h => ?_
  · exact h
  · exact memsWf_of_same (sameMems_failWalks ..) h
  · exact memsWf_endMigrIn _ _ h
  · exact memsWf_finishStep _ trivial h
  · exact h
  · exact memsWf_poisonPage _ _ h

theorem execIllegalSlot_proceeds (il : IllegalAt) : Proceeds s (execIllegalSlot il s) := by
  unfold execIllegalSlot
  repeat' split
  all_goals refine proceeds_next fun h => ?_
  all_goals simp [MemsWf, h]

theorem execPfheadWrite_proceeds (die : Nat) (val : W64) : Proceeds s (execPfheadWrite die val s) := by
  refine proceeds_next fun h => ?_
  simp [MemsWf, h]

theorem execMemoryPatrolScrub_proceeds (corrected : Nat) : Proceeds s (execMemoryPatrolScrub corrected s) := by
  refine proceeds_next fun h => ?_
  simp [MemsWf, h]

theorem execSwapComplete_proceeds (cx : Nat) : Proceeds s (execSwapComplete cx s) := by
  unfold execSwapComplete
  repeat' split
  all_goals refine proceeds_next fun h => ?_
  all_goals simp [MemsWf, h]

end Sys2Proof.Machine
end

section
/-! SUPPORT. Every instruction answers a next state and keeps the memories in their form (R372, R308). -/

namespace Sys2Proof.Machine

variable {s : State}

/-! ### Element instructions -/

/-- What a firing may come to: its further effect is none on the memories. -/
def BodyAside (b : Except Abort Fired) : Prop := ∀ f, b = .ok f → ∀ u, SameMems (f.act u) u

theorem bodyAside_ok {f : Fired} (hf : ∀ u, SameMems (f.act u) u) : BodyAside (.ok f) := by
  rintro _ ⟨⟩
  exact hf

theorem bodyAside_error (a : Abort) : BodyAside (.error a) := fun _ h => nomatch h

theorem bodyAside_ite {c : Prop} [Decidable c] {x y : Except Abort Fired} (hx : BodyAside x) (hy : BodyAside y) :
    BodyAside (if c then x else y) := by
  split
  · exact hx
  · exact hy

/-- A firing that does nothing beside its writes. -/
theorem bodyAside_writes {f : Fired} (hf : f.act = id) : BodyAside (.ok f) :=
  bodyAside_ok fun u => by
    rw [hf]
    exact ⟨rfl, rfl, rfl⟩

theorem body_of_outcomeOf {i : Instr} {o : Operands} {body : Except Abort Fired} {f : Fired}
    (h : outcomeOf s i o body = .ok f) : body = .ok f := by
  unfold outcomeOf at h
  dsimp only at h
  repeat' split at h
  all_goals cases h
  all_goals rfl

theorem proceeds_fire {i : Instr} {lat : Nat} {body : Except Abort Fired} (hb : BodyAside body) :
    Proceeds s (fire i lat s body) := by
  unfold fire
  split
  · exact proceeds_self
  · split
    · exact proceeds_same (sameMems_abortRule ..)
    · split
      · split
        · exact proceeds_same (sameMems_abortRule ..)
        · next hf => exact proceeds_same (sameMems_commitFiring _ _ _ _ _ (hb _ (body_of_outcomeOf hf)))
      · exact proceeds_self

theorem proceeds_scalar1 (i : Instr) (d : Dst) (a : Src) (f : Nat → Nat × Bool) : Proceeds s (scalar1 i d a f s) :=
  proceeds_fire (bodyAside_writes rfl)

theorem proceeds_scalar2 (i : Instr) (d : Dst) (a b : Src) (f : Nat → Nat → Nat × Bool) :
    Proceeds s (scalar2 i d a b f s) :=
  proceeds_fire (bodyAside_writes rfl)

theorem bodyAside_storeFired (data : List Byte) (stf : Bool) (a : AddrTok) (ea : Int) :
    BodyAside (storeFired s data stf a ea) := by
  unfold storeFired
  dsimp only
  split
  · exact bodyAside_error _
  · exact bodyAside_ok fun _ => sameMems_bufferStore ..
  · exact bodyAside_ok fun _ => sameMems_bufferStore ..

theorem bodyAside_cisternStore (off : Nat) (bs : List Byte) : BodyAside (cisternStore s off bs) :=
  bodyAside_ite (bodyAside_error _) (bodyAside_ok fun _ => sameMems_cisternWrite ..)

theorem bodyAside_cisternBody {x : Tile} {off len : Nat} {f : Fired} (hf : ∀ u, SameMems (f.act u) u) :
    BodyAside (cisternBody x off len f) :=
  bodyAside_ite (bodyAside_error _) (bodyAside_ok hf)

theorem bodyAside_commandFired (ok : Bool) (d : Dst) (aval bval op : Nat) : BodyAside (commandFired ok d aval bval op) :=
  bodyAside_ite (bodyAside_writes rfl) (bodyAside_error _)

theorem bodyAside_addressFired (ok : Bool) (d : Dst) (a : AddrTok) (bval op : Nat) :
    BodyAside (addressFired ok d a bval op) :=
  bodyAside_ite (bodyAside_error _) (bodyAside_ite (bodyAside_error _) (bodyAside_commandFired _ _ _ _ _))

theorem proceeds_fireLoad (i : Instr) (kind : ReqKind) (fe : Bool) (d : Dst) (len : Nat) (a : Src) (ea : Int) :
    Proceeds s (fireLoad i s kind fe d len a ea) := by
  refine proceeds_fire ?_
  unfold loadFired
  dsimp only
  split
  · exact bodyAside_error _
  · exact bodyAside_ok fun _ => sameMems_startRequest ..
  · exact bodyAside_ok fun _ => sameMems_startRequest ..

theorem fmaFired_act (minus : Bool) (fmt : Fmt) (d : Dst) (a b : Nat) : (fmaFired s minus fmt d a b).act = id := by
  unfold fmaFired
  split <;> rfl

theorem pairRes_act (d : Dst) (fmt : Fmt) (xs : List Num) : (pairRes d fmt xs).act = id := by
  unfold pairRes
  split <;> rfl

theorem execTrap_proceeds (g : Guard) (a : Src) : Proceeds s (execTrap g a s) :=
  proceeds_fire (bodyAside_ite (bodyAside_writes rfl) (bodyAside_error _))

theorem execVbcst_proceeds (g : Guard) (fmt : Fmt) (d : Dst) (a : Src) : Proceeds s (execVbcst g fmt d a s) :=
  proceeds_fire (bodyAside_ite (bodyAside_writes rfl) (bodyAside_error _))

theorem execVdqnt_proceeds (g : Guard) (df sf : Fmt) (rnd : Rnd) (d : Dst) (a : Src) :
    Proceeds s (execVdqnt g df sf rnd d a s) := by
  unfold execVdqnt
  refine proceeds_fire (bodyAside_ok fun u => ?_)
  split
  · exact sameMems_stepSeq ..
  · exact SameMems.trans (sameMems_stepSeq ..) ⟨rfl, rfl, rfl⟩

theorem execVacc_proceeds (g : Guard) (fmt : Fmt) (d : Dst) (a : Src) : Proceeds s (execVacc g fmt d a s) := by
  unfold execVacc
  refine proceeds_fire (bodyAside_writes ?_)
  split <;> rfl

theorem execMrga_proceeds (g : Guard) (d : Dst) (a b : Src) : Proceeds s (execMrga g d a b s) := by
  unfold execMrga
  dsimp only
  split
  · exact proceeds_fire (bodyAside_ok fun _ => sameMems_setLastA ..)
  · exact proceeds_fire (bodyAside_writes rfl)

theorem execXlat_proceeds (g : Guard) (wr : Bool) (d : Dst) (a : Src) : Proceeds s (execXlat g wr d a s) := by
  unfold execXlat
  refine proceeds_fire (bodyAside_ok fun u => ?_)
  dsimp only
  repeat' split
  all_goals simp [SameMems]

theorem execAtom_proceeds (g : Guard) (aop : AtomOp) (n : Bool) (d : Dst) (a b : Src) :
    Proceeds s (execAtom g aop n d a b s) := by
  unfold execAtom
  exact proceeds_fire (bodyAside_ite (bodyAside_error _) (bodyAside_ite (bodyAside_error _) (bodyAside_writes rfl)))

theorem execOwnapReadout_proceeds (g : Guard) (d : Dst) (a : Src) : Proceeds s (execOwnapReadout g d a s) := by
  unfold execOwnapReadout
  refine proceeds_fire (bodyAside_cisternBody fun u => ?_)
  split <;> exact ⟨rfl, rfl, rfl⟩

theorem execRtake_proceeds (g : Guard) (d : Dst) (a : Src) : Proceeds s (execRtake g d a s) := by
  unfold execRtake
  exact proceeds_fire (bodyAside_ite (bodyAside_error _) (bodyAside_ok fun _ => sameMems_askPool ..))

theorem execPhint_proceeds (g : Guard) (a b : Src) : Proceeds s (execPhint g a b s) := by
  unfold execPhint
  exact proceeds_fire (bodyAside_ite (bodyAside_error _) (bodyAside_ok fun _ => sameMems_requestHint ..))

theorem execPset_proceeds (g : Guard) (a : Src) : Proceeds s (execPset g a s) := by
  unfold execPset
  exact proceeds_fire (bodyAside_writes rfl)

theorem execPlog_proceeds (g : Guard) (lop : LogicOp) (pj pk : Fin 8) : Proceeds s (execPlog g lop pj pk s) := by
  unfold execPlog
  exact proceeds_fire (bodyAside_writes rfl)

theorem execVdrop_proceeds (g : Guard) (fmt : Fmt) (d : Dst) (a b : Src) : Proceeds s (execVdrop g fmt d a b s) := by
  unfold execVdrop
  exact proceeds_fire (bodyAside_writes rfl)

theorem execFwd_proceeds (g : Guard) (d : Dst) (a b : Src) : Proceeds s (execFwd g d a b s) := by
  unfold execFwd
  exact proceeds_fire (bodyAside_writes rfl)

theorem execVcvt_proceeds (g : Guard) (df sf : Fmt) (rnd : Rnd) (d : Dst) (a : Src) :
    Proceeds s (execVcvt g df sf rnd d a s) := by
  unfold execVcvt
  exact proceeds_fire (bodyAside_ok fun _ => sameMems_stepSeq ..)

theorem execVpack_proceeds (g : Guard) (df sf : Fmt) (rnd : Rnd) (d : Dst) (a : Src) :
    Proceeds s (execVpack g df sf rnd d a s) := by
  unfold execVpack
  exact proceeds_fire (bodyAside_ok fun _ => sameMems_stepSeq ..)

theorem execVqnt_proceeds (g : Guard) (df sf : Fmt) (rnd : Rnd) (d : Dst) (a : Src) :
    Proceeds s (execVqnt g df sf rnd d a s) := by
  unfold execVqnt
  exact proceeds_fire (bodyAside_ok fun _ => sameMems_stepSeq ..)

theorem execSt_proceeds (g : Guard) (mw : MemW) (n : Bool) (a b : Src) : Proceeds s (execSt g mw n a b s) := by
  unfold execSt
  exact proceeds_fire (bodyAside_storeFired _ _ _ _)

theorem execVst_proceeds (g : Guard) (a b : Src) : Proceeds s (execVst g a b s) := by
  unfold execVst
  exact proceeds_fire (bodyAside_storeFired _ _ _ _)

theorem execStf_proceeds (g : Guard) (a b : Src) : Proceeds s (execStf g a b s) := by
  unfold execStf
  exact proceeds_fire (bodyAside_storeFired _ _ _ _)

theorem execCst_proceeds (g : Guard) (mw : MemW) (n : Bool) (a b : Src) : Proceeds s (execCst g mw n a b s) := by
  unfold execCst
  exact proceeds_fire (bodyAside_cisternStore _ _)

theorem execMovk_proceeds (h : Skip) (rd : Reg) (v16 : BitVec 16) (fld : Fin 4) :
    Proceeds s (execMovk h rd v16 fld s) := by
  unfold execMovk
  exact proceeds_pumpStep fun h => h

theorem execPumpPhint_proceeds (h : Skip) (ra : Reg) (onset : BitVec 8) (len16 : BitVec 16) :
    Proceeds s (execPumpPhint h ra onset len16 s) := by
  unfold execPumpPhint
  exact proceeds_pumpStep fun h => h

theorem execSysr_proceeds (h : Skip) (rd : Reg) (sidx : BitVec 12) : Proceeds s (execSysr h rd sidx s) := by
  unfold execSysr
  exact proceeds_pumpStep fun h => h

theorem execCrcCfg_proceeds (h : Skip) (ra rb : Reg) (tg : BitVec 16) : Proceeds s (execCrcCfg h ra rb tg s) := by
  unfold execCrcCfg
  exact asks_proceeds ..

theorem execRsload_proceeds (h : Skip) (ra rb : Reg) (tg : BitVec 16) : Proceeds s (execRsload h ra rb tg s) := by
  unfold execRsload
  exact asks_proceeds ..

theorem execSpineFreq_proceeds (h : Skip) (ra rb : Reg) (tg : BitVec 16) : Proceeds s (execSpineFreq h ra rb tg s) := by
  unfold execSpineFreq
  exact asks_proceeds ..

theorem execPghash_proceeds (h : Skip) (ra rb : Reg) (tg : BitVec 16) : Proceeds s (execPghash h ra rb tg s) := by
  unfold execPghash
  exact asks_proceeds ..

theorem execQset_proceeds (g : Guard) (q : Fin 16) (a : Src) : Proceeds s (execQset g q a s) := by
  unfold execQset
  exact proceeds_fire (bodyAside_ok fun _ => sameMems_setQ ..)

theorem execHalt_proceeds (g : Guard) : Proceeds s (execHalt g s) := by
  unfold execHalt
  exact proceeds_fire (bodyAside_ok fun _ => sameMems_haltElem ..)

theorem execPlane_proceeds (g : Guard) (k4 : Fin 4) : Proceeds s (execPlane g k4 s) := by
  unfold execPlane
  exact proceeds_fire (bodyAside_ok fun _ => sameMems_requestPlane ..)

theorem execMarkDrain_proceeds (g : Guard) : Proceeds s (execMarkDrain g s) := by
  unfold execMarkDrain
  exact proceeds_fire (bodyAside_ok fun _ => sameMems_requestPlane ..)

theorem execCturn_proceeds (g : Guard) (lw : LaneW) (d : Dst) (a : Src) : Proceeds s (execCturn g lw d a s) := by
  unfold execCturn
  exact proceeds_fire (bodyAside_ok fun _ => sameMems_setTurn ..)

theorem execSteer_proceeds (g : Guard) (d : Dst) (a b : Src) : Proceeds s (execSteer g d a b s) := by
  unfold execSteer
  exact proceeds_fire (bodyAside_ok fun _ => sameMems_stepSteer ..)

theorem execMrgo_proceeds (g : Guard) (d : Dst) (a b : Src) : Proceeds s (execMrgo g d a b s) := by
  unfold execMrgo
  exact proceeds_fire (bodyAside_ok fun _ => sameMems_stepMerge ..)

theorem execMarkStroke_proceeds (g : Guard) : Proceeds s (execMarkStroke g s) := by
  unfold execMarkStroke
  exact proceeds_fire (bodyAside_ok fun _ => sameMems_requestStroke ..)

theorem execMarkFreeze_proceeds (g : Guard) : Proceeds s (execMarkFreeze g s) := by
  unfold execMarkFreeze
  exact proceeds_fire (bodyAside_ok fun _ => sameMems_requestFreeze ..)

theorem execMarkBarrier_proceeds (g : Guard) (d : Dst) : Proceeds s (execMarkBarrier g d s) := by
  unfold execMarkBarrier
  exact proceeds_fire (bodyAside_ok fun _ => sameMems_countBarrier ..)

theorem execCrput_proceeds (g : Guard) (ring : Fin 8) (a : Src) : Proceeds s (execCrput g ring a s) := by
  unfold execCrput
  exact proceeds_fire (bodyAside_ok fun _ => sameMems_putRing ..)

theorem execAgenRearm_proceeds (g : Guard) (d : Dst) (a : Src) : Proceeds s (execAgenRearm g d a s) := by
  unfold execAgenRearm
  exact proceeds_fire (bodyAside_ok fun _ => sameMems_setStream ..)

theorem execAgenStep_proceeds (g : Guard) (d : Dst) : Proceeds s (execAgenStep g d s) := by
  unfold execAgenStep
  exact proceeds_fire (bodyAside_ok fun _ => sameMems_setStream ..)

theorem execCrget_proceeds (g : Guard) (ring : Fin 8) (d : Dst) : Proceeds s (execCrget g ring d s) := by
  unfold execCrget
  exact proceeds_fire (bodyAside_cisternBody fun _ => sameMems_setRing ..)

theorem execOwnapApply_proceeds (g : Guard) (a : Src) : Proceeds s (execOwnapApply g a s) := by
  unfold execOwnapApply
  exact proceeds_fire (bodyAside_cisternBody fun _ => sameMems_applyUpdate ..)

theorem execCld_proceeds (g : Guard) (mw : MemW) (n : Bool) (d : Dst) (a : Src) :
    Proceeds s (execCld g mw n d a s) := by
  unfold execCld
  exact proceeds_fire (bodyAside_cisternBody fun _ => ⟨rfl, rfl, rfl⟩)

theorem execCvld_proceeds (g : Guard) (d : Dst) (a : Src) : Proceeds s (execCvld g d a s) := by
  unfold execCvld
  exact proceeds_fire (bodyAside_cisternBody fun _ => ⟨rfl, rfl, rfl⟩)

/-- Every instruction and every event answers a next state, and keeps the memories in their form (R372). -/
theorem exec_proceeds (i : Instr) (s : State) : Proceeds s (exec i s) := by
  delta exec
  cases i with
  | add | sub | mul | mulh | mulhn | adds | subs | and | or | xor | andn | shl | shr | sra | rot | min | max
    | minn | maxn | cmp | tst | sel | bfx | bfi | cnt =>
    exact proceeds_scalar2 ..
  | clz | popc | mov | addImm | subImm | mulImm | mulhImm | mulhnImm | addsImm | subsImm | andImm | orImm
    | xorImm | andnImm | shlImm | shrImm | sraImm | rotImm | minImm | maxImm | minnImm | maxnImm | cntImm =>
    exact proceeds_scalar1 ..
  | pset => exact execPset_proceeds ..
  | plog => exact execPlog_proceeds ..
  | qset => exact execQset_proceeds ..
  | movi | movs | nop | chgq | vadd | vsub | vmul | vmax | vmin | vclamp | vabs | vneg | vrcp | vrsq | vsqrt
    | vexp2 | vlog2 | vtanh | vred | vamax | vcmp | vsel | vlog | vsh | vins | viota | vshuf | vrng | deq | tag
    | markCut | vext =>
    exact proceeds_fire (bodyAside_writes rfl)
  | halt => exact execHalt_proceeds ..
  | trap => exact execTrap_proceeds ..
  | plane => exact execPlane_proceeds ..
  | vfma | vfms => exact proceeds_fire (bodyAside_writes (fmaFired_act ..))
  | vbcst => exact execVbcst_proceeds ..
  | vcvt => exact execVcvt_proceeds ..
  | vpack => exact execVpack_proceeds ..
  | vunpk => exact proceeds_fire (bodyAside_writes (pairRes_act ..))
  | vqnt => exact execVqnt_proceeds ..
  | vdqnt => exact execVdqnt_proceeds ..
  | vdrop => exact execVdrop_proceeds ..
  | vacc => exact execVacc_proceeds ..
  | cturn => exact execCturn_proceeds ..
  | fwd => exact execFwd_proceeds ..
  | steer => exact execSteer_proceeds ..
  | mrgo => exact execMrgo_proceeds ..
  | mrga => exact execMrga_proceeds ..
  | markStroke => exact execMarkStroke_proceeds ..
  | markDrain => exact execMarkDrain_proceeds ..
  | markFreeze => exact execMarkFreeze_proceeds ..
  | markBarrier => exact execMarkBarrier_proceeds ..
  | crget => exact execCrget_proceeds ..
  | crput => exact execCrput_proceeds ..
  | ld | vld | lds | ldc => exact proceeds_fireLoad ..
  | st => exact execSt_proceeds ..
  | vst => exact execVst_proceeds ..
  | stf => exact execStf_proceeds ..
  | xlat => exact execXlat_proceeds ..
  | agenRearm => exact execAgenRearm_proceeds ..
  | agenStep => exact execAgenStep_proceeds ..
  | atom => exact execAtom_proceeds ..
  | ownapApply => exact execOwnapApply_proceeds ..
  | ownapReadout => exact execOwnapReadout_proceeds ..
  | cld => exact execCld_proceeds ..
  | cst => exact execCst_proceeds ..
  | cvld => exact execCvld_proceeds ..
  | cvst => exact proceeds_fire (bodyAside_cisternStore _ _)
  | rtake => exact execRtake_proceeds ..
  | mxcfg | mxstat | mxrow | mxacc | mxdrn => exact proceeds_fire (bodyAside_commandFired _ _ _ _ _)
  | mxldb | mxgrp | sxcpy | sxgth | sxsct | sxdeep | xpcfg | wrsrt =>
    exact proceeds_fire (bodyAside_addressFired _ _ _ _ _)
  | phint => exact execPhint_proceeds ..
  | pumpAdd | pumpSub | pumpMul | pumpMulh | pumpMulhn | pumpAdds | pumpSubs | pumpAnd | pumpOr | pumpXor
    | pumpAndn | pumpShl | pumpShr | pumpSra | pumpRot | pumpMin | pumpMax | pumpMinn | pumpMaxn | pumpCmp
    | pumpTst | pumpSel | pumpClz | pumpPopc | pumpBfx | pumpBfi | pumpMov | div | divn | rem =>
    exact proceeds_pumpStep fun h => gives_kept _ _ h
  | pumpPset | pumpPlog | fenceRel | skip | abort => exact proceeds_pumpStep fun h => h
  | movk => exact execMovk_proceeds ..
  | pumpLd => exact execPumpLd_proceeds ..
  | pumpSt => exact execPumpSt_proceeds ..
  | pumpLds => exact execPumpLds_proceeds ..
  | pumpStf => exact execPumpStf_proceeds ..
  | pumpLdc => exact execPumpLdc_proceeds ..
  | cas | swap | fadd | fmin | fmax | fand | fOr => exact pumpAtomic_proceeds ..
  | fxadd => exact execFxadd_proceeds ..
  | fxaddRd => exact execFxaddRd_proceeds ..
  | waitv => exact execWaitv_proceeds ..
  | fenceAcq => exact execFenceAcq_proceeds ..
  | fenceFull => exact execFenceFull_proceeds ..
  | noteSend => exact execNoteSend_proceeds ..
  | noteTake => exact execNoteTake_proceeds ..
  | timerOnce | timerPer => exact timerStep_proceeds ..
  | enq => exact execEnq_proceeds ..
  | deqq => exact execDeqq_proceeds ..
  | tailw => exact execTailw_proceeds ..
  | launch => exact execLaunch_proceeds ..
  | kstat => exact execKstat_proceeds ..
  | digest => exact execDigest_proceeds ..
  | trigbBind => exact execTrigbBind_proceeds ..
  | trigbUnbind => exact execTrigbUnbind_proceeds ..
  | trigbQuery => exact execTrigbQuery_proceeds ..
  | regionAlloc => exact execRegionAlloc_proceeds ..
  | regionFree => exact execRegionFree_proceeds ..
  | rpoolFill => exact execRpoolFill_proceeds ..
  | rpoolClose => exact execRpoolClose_proceeds ..
  | rpoolQuery => exact execRpoolQuery_proceeds ..
  | cfgw | cfgrdReq | cfgsig | prime | freeze | freezeStroke | thaw | imgoutMem | imgoutShadow | imgoutBack
    | spineSel | migrMove | migrOut | migrIn =>
    exact asks_proceeds ..
  | cfgrdTake => exact execCfgrdTake_proceeds ..
  | crcCfg => exact execCrcCfg_proceeds ..
  | crcMem => exact execCrcMem_proceeds ..
  | route => exact execRoute_proceeds ..
  | rsload => exact execRsload_proceeds ..
  | warm => exact execWarm_proceeds ..
  | wcand => exact execWcand_proceeds ..
  | verd => exact execVerd_proceeds ..
  | wdraw => exact execWdraw_proceeds ..
  | wstat => exact execWstat_proceeds ..
  | bara => exact execBara_proceeds ..
  | barmSet => exact execBarmSet_proceeds ..
  | barmTake => exact execBarmTake_proceeds ..
  | pbudgSet => exact execPbudgSet_proceeds ..
  | pbudgGet => exact execPbudgGet_proceeds ..
  | spineFreq => exact execSpineFreq_proceeds ..
  | pumpPhint => exact execPumpPhint_proceeds ..
  | tlbiPage => exact execTlbiPage_proceeds ..
  | tlbiCtx => exact proceeds_pumpStep fun h => tlbi_kept _ h
  | tlbiAll => exact execTlbiAll_proceeds ..
  | wclose => exact execWclose_proceeds ..
  | pghash => exact execPghash_proceeds ..
  | sysr => exact execSysr_proceeds ..
  | sysw => exact execSysw_proceeds ..
  | vectorResultWrite => exact execVectorResultWrite_proceeds ..
  | loadDataReturn => exact execLoadDataReturn_proceeds ..
  | feWordFullWake => exact execFeWordFullWake_proceeds ..
  | xlatWalkComplete => exact execXlatWalkComplete_proceeds ..
  | rangeTokenReply => exact execRangeTokenReply_proceeds ..
  | pageWalkComplete => exact execPageWalkComplete_proceeds ..
  | memoryFaultFound => exact execMemoryFaultFound_proceeds ..
  | islandCommandStart => exact execIslandCommandStart_proceeds ..
  | islandBLoadComplete => exact execIslandBLoadComplete_proceeds ..
  | islandRowStart => exact execIslandRowStart_proceeds ..
  | islandDrainRow => exact execIslandDrainRow_proceeds ..
  | islandFault => exact execIslandFault_proceeds ..
  | islandLoadResume => exact execIslandLoadResume_proceeds ..
  | engineError => exact execEngineError_proceeds ..
  | streamCommandStart => exact execStreamCommandStart_proceeds ..
  | streamCommandComplete => exact execStreamCommandComplete_proceeds ..
  | streamFaultResume => exact execStreamFaultResume_proceeds ..
  | expanderBlockComplete => exact execExpanderBlockComplete_proceeds ..
  | expanderStreamSlotFree => exact execExpanderStreamSlotFree_proceeds ..
  | weirSortComplete => exact execWeirSortComplete_proceeds ..
  | engineReply => exact execEngineReply_proceeds ..
  | rangeServerServe => exact execRangeServerServe_proceeds ..
  | poolTableReadComplete => exact execPoolTableReadComplete_proceeds ..
  | timerExpiry => exact execTimerExpiry_proceeds ..
  | monitorFire => exact execMonitorFire_proceeds ..
  | configReplyArrival => exact execConfigReplyArrival_proceeds ..
  | migrComplete => exact execMigrComplete_proceeds ..
  | strokeLengthExpiry => exact execStrokeLengthExpiry_proceeds ..
  | strokeMarkInject => exact execStrokeMarkInject_proceeds ..
  | markAligned => exact execMarkAligned_proceeds ..
  | barrierAligned => exact execBarrierAligned_proceeds ..
  | strokeClose => exact execStrokeClose_proceeds ..
  | strokeDrainComplete => exact execStrokeDrainComplete_proceeds ..
  | drainInject => exact execDrainInject_proceeds ..
  | planeSwitch => exact execPlaneSwitch_proceeds ..
  | cutArrival => exact execCutArrival_proceeds ..
  | ringSpill => exact execRingSpill_proceeds ..
  | ringRefill => exact execRingRefill_proceeds ..
  | primeComplete => exact execPrimeComplete_proceeds ..
  | freezeWaveComplete => exact execFreezeWaveComplete_proceeds ..
  | kernelQuiescence => exact execKernelQuiescence_proceeds ..
  | kernelRetire => exact execKernelRetire_proceeds ..
  | watchdogExpiry => exact execWatchdogExpiry_proceeds ..
  | configEccError => exact execConfigEccError_proceeds ..
  | configScrub => exact execConfigScrub_proceeds ..
  | queueEnable => exact execQueueEnable_proceeds ..
  | queueDisable => exact execQueueDisable_proceeds ..
  | queueRetry => exact execQueueRetry_proceeds ..
  | queueSkip => exact execQueueSkip_proceeds ..
  | tailWrite => exact execTailWrite_proceeds ..
  | recordStart => exact execRecordStart_proceeds ..
  | recordComplete => exact execRecordComplete_proceeds ..
  | queueEngineFault => exact execQueueEngineFault_proceeds ..
  | triggerFire => exact execTriggerFire_proceeds ..
  | triggerPendingDelivery => exact execTriggerPendingDelivery_proceeds ..
  | groupLaunch => exact execGroupLaunch_proceeds ..
  | create | bind | ctxFreeze | ctxThaw | swapout | swapin | clear | kill =>
    exact proceeds_next fun h => memsWf_ctxCommand _ _ h
  | ctxCleanupComplete => exact execCtxCleanupComplete_proceeds ..
  | ctxFreezeComplete => exact execCtxFreezeComplete_proceeds ..
  | ctxFault => exact execCtxFault_proceeds ..
  | treeBarrierArrival => exact execTreeBarrierArrival_proceeds ..
  | shootdownComplete => exact execShootdownComplete_proceeds ..
  | pagePoison => exact execPagePoison_proceeds ..
  | pfres => exact execPfres_proceeds ..
  | linkEnable => exact execLinkEnable_proceeds ..
  | retrain => exact execRetrain_proceeds ..
  | linkTrained => exact execLinkTrained_proceeds ..
  | linkTrainingFail => exact execLinkTrainingFail_proceeds ..
  | linkLaneLoss => exact execLinkLaneLoss_proceeds ..
  | flitReceive => exact execFlitReceive_proceeds ..
  | flitAck => exact execFlitAck_proceeds ..
  | ingestFrame => exact execIngestFrame_proceeds ..
  | hostRead => exact execHostRead_proceeds ..
  | hostWrite => exact execHostWrite_proceeds ..
  | registerWrite => exact execRegisterWrite_proceeds ..
  | publish => exact execPublish_proceeds ..
  | candidateWrite => exact execCandidateWrite_proceeds ..
  | drawCopy => exact execDrawCopy_proceeds ..
  | rdposWrite => exact execRdposWrite_proceeds ..
  | chargeIntervalStart => exact execChargeIntervalStart_proceeds ..
  | chargeDose => exact execChargeDose_proceeds ..
  | hintRampStep => exact execHintRampStep_proceeds ..
  | spineFreqStep => exact execSpineFreqStep_proceeds ..
  | spineSwitchComplete => exact execSpineSwitchComplete_proceeds ..
  | t1 => exact execT1_proceeds ..
  | t2 => exact execT2_proceeds ..
  | t3 => exact execT3_proceeds ..
  | t4 => exact execT4_proceeds ..
  | thermalClear => exact execThermalClear_proceeds ..
  | boot => exact execBoot_proceeds ..
  | getVersion => exact execGetVersion_proceeds ..
  | getCapabilities => exact execGetCapabilities_proceeds ..
  | negotiateAlgorithms => exact execNegotiateAlgorithms_proceeds ..
  | getDigests => exact execGetDigests_proceeds ..
  | getCertificate => exact execGetCertificate_proceeds ..
  | challenge => exact execChallenge_proceeds ..
  | getMeasurements => exact execGetMeasurements_proceeds ..
  | memoryReadRetry => exact execMemoryReadRetry_proceeds ..
  | illegalSlot => exact execIllegalSlot_proceeds ..
  | pfheadWrite => exact execPfheadWrite_proceeds ..
  | memoryPatrolScrub => exact execMemoryPatrolScrub_proceeds ..
  | swapComplete => exact execSwapComplete_proceeds ..

end Sys2Proof.Machine
end

section
/-! The steps of the module: O59 and O60. -/

namespace Sys2Proof.Machine

variable {s : State}

/-! ### Steps -/

theorem runWord_proceeds (w : W64) : Proceeds s (runWord w s) := by
  rw [Sys2Proof.runWord_eq]
  split
  · exact exec_proceeds _ _
  · exact proceeds_same (sameMems_meetIllegalRule ..)

theorem runRule_proceeds (i : Instr) : Proceeds s (runRule i s) := by
  obtain ⟨t, ht, hk⟩ := exec_proceeds i s
  unfold runRule
  rw [ht]
  refine proceeds_next fun h => ?_
  split
  · exact hk h
  · exact memsWf_of_same (sameMems_dropDependents ..) (hk h)

theorem Proceeds.of_before {u : State} {r : Result} (hu : MemsWf s → MemsWf u) (h : Proceeds u r) : Proceeds s r := by
  obtain ⟨t, rfl, hk⟩ := h
  exact proceeds_next fun hs => hk (hu hs)

theorem runWork_proceeds (w : Work) : Proceeds s (runWork w s) := by
  cases w with
  | tile t =>
    have ht (h : MemsWf s) := memsWf_of_same (sameMems_tileNext s t) h
    rw [runWork]
    split
    · next hr => exact (runRule_proceeds _).of_before fun h => by simpa [hr] using ht h
    · next hr => exact proceeds_next fun h => by simpa [hr] using ht h
  | core c =>
    have hc (h : MemsWf s) := memsWf_coreNext c h
    rw [runWork]
    split
    · next hr => exact (runWord_proceeds _).of_before fun h => by simpa [hr] using hc h
    · next hr => exact proceeds_next fun h => by simpa [hr] using hc h
  | event i => exact proceeds_ite (exec_proceeds i s) proceeds_self
  | boot => exact execBoot_proceeds _
  | tick n => exact proceeds_same (sameMems_passTime ..)

theorem afterStep_proceeds {r : Result} (h : Proceeds s r) : Proceeds s (afterStep r) := by
  obtain ⟨t, rfl, hk⟩ := h
  exact proceeds_next fun hs => memsWf_of_same (sameMems_rewatch ..) (hk hs)

theorem memsWf_nextWork (h : MemsWf s) : MemsWf (nextWork s).2 := memsWf_of_same (sameMems_nextWork ..) h

/-- The power that the next work finds. -/
theorem powerOff_nextWork : (nextWork s).2.powerOff = s.powerOff := by
  unfold nextWork
  split <;> rfl

/-- A module without power does nothing but a boot (R372). -/
theorem step_off (hp : s.powerOff = true) (hb : (nextWork s).1.any Work.isBoot = false) : step s = .fault .powerOff := by
  rw [← powerOff_nextWork] at hp
  unfold step runStep
  generalize nextWork s = n at hp hb ⊢
  obtain ⟨_ | w, u⟩ := n
  · exact if_pos hp
  · have hw : Work.isBoot w = false := hb
    have hu : u.powerOff = true := hp
    exact if_pos (by simp [hu, hw])

/-- Every other step answers a next state. -/
theorem step_proceeds (h : s.powerOff = false ∨ (nextWork s).1.any Work.isBoot = true) : Proceeds s (step s) := by
  have hw := memsWf_nextWork (s := s)
  rw [← powerOff_nextWork] at h
  unfold step runStep
  generalize nextWork s = n at h hw ⊢
  obtain ⟨_ | w, u⟩ := n
  · have hp : ¬ u.powerOff = true := by simpa using h
    dsimp only
    rw [if_neg hp]
    exact proceeds_next hw
  · have hp : ¬ (u.powerOff && !Work.isBoot w) = true := by
      rcases h with h | h
      · simp [show u.powerOff = false from h]
      · simp [show Work.isBoot w = true from h]
    dsimp only
    rw [if_neg hp]
    exact (afterStep_proceeds (runWork_proceeds w)).of_before hw

/-! ### Boots -/

theorem powerOff_bootSteps (bo : BootInput) : (bootSteps s bo).powerOff = s.powerOff := by
  unfold bootSteps
  repeat' split
  all_goals rfl

/-- A boot gives the module its power back. -/
theorem execBoot_power (bo : BootInput) : ∃ t, execBoot bo s = .next t ∧ t.powerOff = false :=
  ⟨_, rfl, powerOff_bootSteps bo⟩

theorem encode_boot (b : BootInput) : encode (.boot b) = none := rfl

theorem runWork_boot {w : Work} (hw : Work.isBoot w = true) : ∃ t, runWork w s = .next t ∧ t.powerOff = false := by
  cases w with
  | boot => exact execBoot_power _
  | event i =>
    cases i with
    | boot b => exact execBoot_power b
    | _ => cases hw
  | _ => cases hw

/-- The step of a boot, whether the module has power or not. -/
theorem step_boot (hb : (nextWork s).1.any Work.isBoot = true) : ∃ t, step s = .next t ∧ t.powerOff = false := by
  unfold step runStep
  generalize nextWork s = n at hb ⊢
  obtain ⟨_ | w, u⟩ := n
  · cases hb
  · have hw : Work.isBoot w = true := hb
    obtain ⟨t, ht, hp⟩ := runWork_boot (s := u) hw
    refine ⟨rewatch t, ?_, hp⟩
    dsimp only
    rw [hw, ht]
    simp [afterStep]

/-! ### The obligations -/

theorem memOk_iff (s : State) : memOk s = true ↔ MemsWf s := by
  simp [memOk, MemsWf, and_assoc]

/-- Settles O59: every instruction and event keeps the three memories in their form, so every step does. -/
theorem stepKeepsMemories : Obligations.StepKeepsMemories := by
  unfold Obligations.StepKeepsMemories
  intro s s' hs hstep
  rw [memOk_iff] at hs ⊢
  by_cases h : s.powerOff = false ∨ (nextWork s).1.any Work.isBoot = true
  · obtain ⟨t, ht, hk⟩ := step_proceeds h
    obtain rfl : t = s' := by simpa [ht] using hstep
    exact hk hs
  · rw [not_or, Bool.not_eq_false, Bool.not_eq_true] at h
    rw [step_off h.1 h.2] at hstep
    cases hstep

/-- Settles O60: every instruction answers a next state; so does every step of a module with power, and a boot alone
brings power back. -/
theorem stepsAnswer : Obligations.StepsAnswer := by
  unfold Obligations.StepsAnswer
  refine ⟨fun i s => ?_, fun s hp => ?_, fun s hp => ⟨step_off hp, step_boot⟩⟩
  · obtain ⟨t, ht, -⟩ := exec_proceeds i s
    exact ⟨t, ht⟩
  · obtain ⟨t, ht, -⟩ := step_proceeds (.inl hp)
    exact ⟨t, ht⟩

end Sys2Proof.Machine
end

section
/-! The boot and SPDM (R393 to R396): O54. -/

namespace Sys2Proof.Machine

open Spec

/-! ### Boots (R393, R394) -/

/-- Training leaves the host link enabled and carrying, at whatever width it reaches. -/
theorem trainHost_link (s : State) : ((trainHost s).link 0).en = true ∧ ((trainHost s).link 0).carries = true := by
  unfold trainHost
  simp only [State.link_setLink_same, Link.carries, true_and]
  split <;> rfl

/-- What a boot leaves as training left it, wherever it stops. -/
theorem bootSteps_aside (s : State) (b : BootInput) :
    (bootSteps s b).mem = s.mem ∧ (bootSteps s b).deep = s.deep ∧ (bootSteps s b).regions = s.regions ∧
      (bootSteps s b).powerOff = s.powerOff ∧ (bootSteps s b).link 0 = s.link 0 := by
  unfold bootSteps
  repeat' split
  all_goals exact ⟨rfl, rfl, rfl, rfl, rfl⟩

/-- Where a boot stops, and with what code. -/
theorem bootSteps_bootstat (s : State) (b : BootInput) : (bootSteps s b).bootstat =
    (if rsaVerify Config.rootKey b.firmware b.firmwareSig = false then { code := 0x11, ready := false, step := 2 }
      else if rsaVerify Config.rootKey b.keyList b.keyListSig = false then { code := 0x11, ready := false, step := 3 }
      else if b.nearTrains = false then { code := 6, ready := false, step := 4 }
      else if b.farTrains = false then { code := 6, ready := false, step := 5 }
      else { code := 0, ready := true, step := 7 }) := by
  simp only [bootSteps, Bool.not_eq_true', apply_ite State.bootstat]
  rfl

/-- Only the last step makes the module READY and creates a context. -/
theorem bootSteps_ready (s : State) (b : BootInput) :
    (bootSteps s b).bootstat.ready = false ∧ (bootSteps s b).ctxs = s.ctxs ∨ bootSteps s b = bootReady s b := by
  unfold bootSteps
  repeat' split
  · exact .inl ⟨rfl, rfl⟩
  · exact .inl ⟨rfl, rfl⟩
  · exact .inl ⟨rfl, rfl⟩
  · exact .inl ⟨rfl, rfl⟩
  · exact .inr rfl

theorem fuseBytes_ofFn (f : Fin 4 → BitVec 384) :
    fuseBytes (Vector.ofFn f) = (List.finRange 4).flatMap fun d => byteList 48 (f d).toNat := by
  rw [fuseBytes, Vector.toList_ofFn, List.ofFn_eq_map, List.flatMap_map]

theorem boots : Boots := by
  intro s b
  have haside := bootSteps_aside (trainHost (powerOn s)) b
  obtain ⟨hmem, hdeep, hregions, hpower, hlink⟩ := haside
  dsimp only
  refine ⟨_, rfl, hmem, hdeep, hregions, hpower, ?_, bootSteps_bootstat .., fun hr => ?_, fun hr => ?_⟩
  · rw [hlink]
    exact trainHost_link _
  · obtain ⟨-, hc⟩ | h := bootSteps_ready (trainHost (powerOn s)) b
    · exact hc
    · rw [h] at hr
      cases hr
  · obtain ⟨hno, -⟩ | h := bootSteps_ready (trainHost (powerOn s)) b
    · rw [hno] at hr
      cases hr
    · rw [h]
      refine ⟨rfl, fun d => ?_, rfl, ?_⟩
      · simp [bootReady]
      · simp [bootReady, measure, fuseBytes_ofFn]

/-! ### SPDM (R395, R396) -/

theorem byteList_one (v : Nat) : byteList 1 v = [BitVec.ofNat 8 v] := by
  simp [byteList, bytesOf]

theorem spdmMsg_eq (code p1 p2 : Nat) (data : List Byte) : spdmMsg code p1 p2 data = message code p1 p2 data := by
  simp [spdmMsg, message, byteList_one]

theorem spdmError_eq (s : State) (e : Nat) :
    spdmError s e = { s with sent := s.sent ++ [.spdm 0x7F (message 0x7F e 0 [])] } := by
  rw [spdmError, sendSpdm, spdmMsg_eq]

section
variable {s : State} {need code : Nat} {rq : SpdmRequest} {k : State → State}

theorem spdmAnswer_busy (hr : s.bootstat.ready = false) : spdmAnswer s need code rq k = spdmError s 3 :=
  if_pos (by simp [hr])

theorem spdmAnswer_early (hr : s.bootstat.ready = true) (hp : s.spdm < need) :
    spdmAnswer s need code rq k = spdmError s 4 := by
  rw [spdmAnswer, if_neg (by simp [hr]), if_pos hp]

theorem spdmAnswer_due (hr : s.bootstat.ready = true) (hp : need ≤ s.spdm) :
    spdmAnswer s need code rq k = k { s with spdmLog := s.spdmLog ++ spdmReq code rq } := by
  rw [spdmAnswer, if_neg (by simp [hr]), if_neg (by omega)]

end

/-- A state that has sent one SPDM response of a code and changed little else. -/
def Responds (s t : State) (code : Nat) : Prop :=
  ∃ p1 p2 data, t.sent = s.sent ++ [.spdm code (message code p1 p2 data)] ∧ t.bootstat = s.bootstat ∧ t.mem = s.mem ∧
    t.ctxs = s.ctxs

theorem responds_respond (s : State) (phase code p1 p2 : Nat) (data : List Byte) :
    Responds s (respond s phase code p1 p2 data) code :=
  ⟨p1, p2, data, by simp [respond, sendSpdm, spdmMsg_eq], rfl, rfl, rfl⟩

theorem responds_respondSigned (s : State) (code p1 p2 : Nat) (data : List Byte) :
    Responds s (respondSigned s code p1 p2 data) code :=
  ⟨p1, p2, data ++ Config.deviceSign (s.spdmLog ++ spdmMsg code p1 p2 data), by simp [respondSigned, sendSpdm, spdmMsg_eq],
    rfl, rfl, rfl⟩

/-- A request whose turn has come is answered as its own response answers it. -/
theorem answered_of_responds {i : Instr} {s : State} {need req code : Nat} {rq : SpdmRequest} {k : State → State}
    (he : exec i s = .next (spdmAnswer s need req rq k)) (hr : s.bootstat.ready = true) (hp : need ≤ s.spdm)
    (hk : Responds { s with spdmLog := s.spdmLog ++ spdmReq req rq } (k { s with spdmLog := s.spdmLog ++ spdmReq req rq }) code) :
    Answered i s code := by
  obtain ⟨p1, p2, data, hsent, hstat, hmem, hctxs⟩ := hk
  rw [spdmAnswer_due hr hp] at he
  exact ⟨_, p1, p2, data, he, hsent, hstat, hmem, hctxs⟩

theorem spdmBusy (s : State) (rq : SpdmRequest) (hr : s.bootstat.ready = false) :
    ∀ i ∈ [Instr.getVersion rq, .getCapabilities rq, .negotiateAlgorithms rq, .getDigests rq, .getCertificate rq,
      .challenge rq, .getMeasurements rq], exec i s = .next { s with sent := s.sent ++ [.spdm 0x7F (message 0x7F 3 0 [])] } := by
  have hv : execGetVersion rq s = .next (spdmError s 3) := if_pos (by simp [hr])
  rw [← spdmError_eq]
  intro i hi
  simp only [List.mem_cons, List.not_mem_nil, or_false] at hi
  rcases hi with rfl | rfl | rfl | rfl | rfl | rfl | rfl
  · exact hv
  all_goals exact congrArg Host.Outcome.next (spdmAnswer_busy hr)

theorem spdm : Spdm := by
  refine ⟨spdmBusy, fun s rq hr => ?_, fun s rq hr => ?_⟩
  · rw [← spdmError_eq]
    refine ⟨fun hp => congrArg Host.Outcome.next (spdmAnswer_early hr hp),
      fun hp => congrArg Host.Outcome.next (spdmAnswer_early hr hp), fun hp i hi => ?_⟩
    simp only [List.mem_cons, List.not_mem_nil, or_false] at hi
    rcases hi with rfl | rfl | rfl | rfl
    all_goals exact congrArg Host.Outcome.next (spdmAnswer_early hr hp)
  · refine ⟨?_, fun hp => ?_, fun hp => ?_, fun hp => ?_, fun hp h1 => ?_, fun hp h1 => ?_, fun hp h2 => ?_⟩
    · refine ⟨_, if_neg (by simp [hr]), rfl, _, rfl, ?_⟩
      simp [byteList_length]
    · exact answered_of_responds rfl hr hp (responds_respond ..)
    · exact answered_of_responds rfl hr hp (responds_respond ..)
    · refine ⟨_, congrArg Host.Outcome.next (spdmAnswer_due hr hp), ?_⟩
      rw [← spdmMsg_eq]
      rfl
    · refine ⟨_, congrArg Host.Outcome.next (spdmAnswer_due hr hp), ?_⟩
      dsimp only
      split
      · next h =>
        rw [if_neg (by omega), spdmError_eq]
      · rw [if_pos (by omega), ← spdmMsg_eq]
        rfl
    · refine answered_of_responds rfl hr hp ?_
      dsimp only
      rw [if_neg (by simp [h1])]
      exact responds_respondSigned (freeBytes _).2 ..
    · refine answered_of_responds rfl hr hp ?_
      dsimp only
      split
      · next hpick =>
        split_ifs at hpick
        omega
      · split
        · exact responds_respondSigned (freeBytes _).2 ..
        · exact responds_respond (freeBytes _).2 ..

/-- Settles O54: the steps of the boot, and each SPDM request by its place in the negotiation. -/
theorem bootAndIdentity : Obligations.BootAndIdentity := ⟨boots, spdm⟩

end Sys2Proof.Machine
end

section
/-! The context unit (R262 to R268, R304, R343, R372): O49. -/

namespace Sys2Proof.Machine

open Spec

/-! ### A command that finds the unit idle (R263, R265) -/

/-- The commands that wait their turn, each with its instruction. -/
def UnitCommand (c : Nat) (p : Instr × CtxCmd) : Prop :=
  p ∈ [(Instr.create c, CtxCmd.create), (.bind c, .bind), (.ctxFreeze c, .freeze), (.ctxThaw c, .thaw),
    (.swapout c, .swapout), (.swapin c, .swapin), (.clear c, .clear)]

section
variable {s : State} {c : Nat} {i : Instr} {m : CtxCmd}

theorem exec_unitCommand (hi : UnitCommand c (i, m)) : exec i s = .next (ctxCommand s c m) := by
  simp only [UnitCommand, List.mem_cons, Prod.mk.injEq, List.not_mem_nil, or_false] at hi
  obtain ⟨rfl, rfl⟩ | ⟨rfl, rfl⟩ | ⟨rfl, rfl⟩ | ⟨rfl, rfl⟩ | ⟨rfl, rfl⟩ | ⟨rfl, rfl⟩ | ⟨rfl, rfl⟩ := hi <;> rfl

theorem unitCommand_ne_kill (hi : UnitCommand c (i, m)) : m ≠ .kill := by
  rintro rfl
  simp [UnitCommand] at hi

theorem exec_unitCommand_rejected (hi : UnitCommand c (i, m)) (hcmd : (s.ctx c).cmd ≠ none) :
    exec i s = .next (s.modCtx c fun x => { x with rej := true }) := by
  rw [exec_unitCommand hi, ctxCommand, if_neg (unitCommand_ne_kill hi), if_pos (Option.isSome_iff_ne_none.mpr hcmd)]

theorem exec_unitCommand_begun (hi : UnitCommand c (i, m)) (hcmd : (s.ctx c).cmd = none) :
    exec i s = .next (serveCtx (begun s c m)) := by
  rw [exec_unitCommand hi, ctxCommand, if_neg (unitCommand_ne_kill hi), if_neg (by simp [hcmd])]
  rfl

@[simp] theorem begun_ctx : (begun s c m).ctx c = { s.ctx c with cmd := some m } := by
  rw [← State.ctx_modCtx_same s c fun x => { x with cmd := some m }]
  rfl

theorem begun_ctxq (hq : s.ctxq = []) : (begun s c m).ctxq = [(c, .cmd, false)] := by rw [begun, hq]; rfl

theorem readDesc_begun : readDesc (begun s c m) c = readDesc s c := by
  have hdesc : ((begun s c m).ctx c).desc = (s.ctx c).desc := by rw [begun_ctx]
  simp only [readDesc, hdesc]
  rfl

/-- The unit at work does not turn to an event that comes behind. -/
theorem serveCtx_busy {k : Nat} {j : CtxJob} {rest : List (Nat × CtxJob × Bool)} (h : s.ctxq = (k, j, true) :: rest) :
    serveCtx s = s := by
  simp only [serveCtx, h, serveUnit]

theorem serveUnit_nil (h : s.ctxq = []) (n : Nat) : serveUnit n s = s := by
  cases n with
  | zero => rfl
  | succ n => simp only [serveUnit, h]

theorem serveCtx_begun (hq : s.ctxq = []) :
    serveCtx (begun s c m) = serveUnit 3 (beginJob (begun s c m) c .cmd) := by
  rw [serveCtx, begun_ctxq hq]
  exact serveUnit_next (begun_ctxq hq) 3

variable {v : State}

/-- A command that begins and is over at once. -/
theorem serveCtx_begun_ended (hq : s.ctxq = []) (hv : beginCmd (begun s c m) c = v) (hcmd : (v.ctx c).cmd = none) :
    serveCtx (begun s c m) = serveUnit 3 (popJob v) := by
  simp only [serveCtx_begun hq, beginJob, hv, hcmd, Option.isNone_none, if_true]

/-- A command that begins and stays at work. -/
theorem serveCtx_begun_marked (hq : s.ctxq = []) (hv : beginCmd (begun s c m) c = v) (hcmd : (v.ctx c).cmd ≠ none)
    (hkeep : KeepsQueue (begun s c m) v) : serveCtx (begun s c m) = markJob v := by
  have hne : v.ctxq ≠ [] := fun hnil => by
    rw [KeepsQueue, begun_ctxq hq, hnil] at hkeep
    exact absurd hkeep (by simp)
  simp only [serveCtx_begun hq, beginJob, hv, Option.isNone_iff_eq_none, if_neg hcmd]
  exact serveUnit_markJob hne 3

@[simp] theorem endCmd_ctx (s : State) (c res : Nat) :
    (endCmd s c res).ctx c = { s.ctx c with cmd := none, res := BitVec.ofNat 8 res } := State.ctx_modCtx_same ..

@[simp] theorem endCmd_ctxq (s : State) (c res : Nat) : (endCmd s c res).ctxq = s.ctxq := rfl

/-- A command that begins and ends with a result code. -/
theorem exec_unitCommand_ended {w : State} {res : Nat} (hi : UnitCommand c (i, m)) (hcmd : (s.ctx c).cmd = none)
    (hq : s.ctxq = []) (hv : beginCmd (begun s c m) c = endCmd w c res) (hw : w.ctxq = (begun s c m).ctxq) :
    exec i s = .next (popJob (endCmd w c res)) := by
  have hpop : (popJob (endCmd w c res)).ctxq = [] := by
    rw [popJob, endCmd_ctxq, hw, begun_ctxq hq]
    rfl
  rw [exec_unitCommand_begun hi hcmd, serveCtx_begun_ended hq hv (by rw [endCmd_ctx]), serveUnit_nil hpop]

theorem exec_unitCommand_marked (hi : UnitCommand c (i, m)) (hcmd : (s.ctx c).cmd = none)
    (hq : s.ctxq = []) (hv : beginCmd (begun s c m) c = v) (hwait : (v.ctx c).cmd ≠ none)
    (hkeep : KeepsQueue (begun s c m) v) : exec i s = .next (markJob v) := by
  rw [exec_unitCommand_begun hi hcmd, serveCtx_begun_marked hq hv hwait hkeep]

theorem ends_of {res : Nat} (hi : UnitCommand c (i, m)) (hcmd : (s.ctx c).cmd = none) (hq : s.ctxq = [])
    (hv : beginCmd (begun s c m) c = endCmd (begun s c m) c res) : Ends i s c m res :=
  exec_unitCommand_ended hi hcmd hq hv rfl

end

/-! ### What KILL, a freeze and a shoot-down leave alone -/

/-- Whose a well is, and its state. -/
def Well.standing (w : Well) : Nat × WState := (w.ctx, w.state)

theorem Well.standing_noteWrite (pa len : Nat) (m : Mem) (w : Well) : (w.noteWrite pa len m).standing = w.standing := by
  unfold Well.noteWrite
  dsimp only
  split_ifs <;> rfl

/-- Contexts, regions and barriers are as they were, and each well is whose it was and in its state. -/
structure Untouched (s t : State) : Prop where
  ctxs : t.ctxs = s.ctxs
  regions : t.regions = s.regions
  barriers : t.barriers = s.barriers
  wells : ∀ w, (kfind t.wells w).map Well.standing = (kfind s.wells w).map Well.standing

namespace Untouched

variable {s t u : State}

theorem of_eq (hctxs : t.ctxs = s.ctxs) (hregions : t.regions = s.regions) (hbarriers : t.barriers = s.barriers)
    (hwells : t.wells = s.wells) : Untouched s t := ⟨hctxs, hregions, hbarriers, fun _ => by rw [hwells]⟩

theorem refl (s : State) : Untouched s s := of_eq rfl rfl rfl rfl

theorem trans (h : Untouched s t) (h' : Untouched t u) : Untouched s u :=
  ⟨h'.ctxs.trans h.ctxs, h'.regions.trans h.regions, h'.barriers.trans h.barriers,
    fun w => (h'.wells w).trans (h.wells w)⟩

theorem foldl {α : Type} {f : State → α → State} (hf : ∀ s a, Untouched s (f s a)) (as : List α) (s : State) :
    Untouched s (as.foldl f s) := by
  induction as generalizing s with
  | nil => exact refl s
  | cons a as ih => exact (hf s a).trans (ih (f s a))

theorem memStore (s : State) (pa : Nat) (data : List Byte) (full : Option Bool) :
    Untouched s (Machine.memStore s pa data full) := by
  unfold Machine.memStore
  dsimp only
  split
  · exact refl s
  · refine ⟨rfl, rfl, rfl, fun w => ?_⟩
    refine (congrArg (Option.map Well.standing) (kfind_mapValues s.wells
      (fun _ => Well.noteWrite (localPa pa) data.length (s.mem.writes (localPa pa) data)) w)).trans ?_
    rw [Option.map_map]
    exact congrArg (Option.map · _) (funext fun x => Well.standing_noteWrite ..)

theorem refillLdcs (s : State) (r : Region) : Untouched s (Machine.refillLdcs s r) :=
  foldl (f := fun s (l : Nat × Nat × W32) => Machine.memStore s l.2.1 (byteList 4 l.2.2.toNat) (some true))
    (fun _ _ => memStore ..) _ s

theorem freezeEngines (s : State) (r : Region) (b : Bool) : Untouched s (Machine.freezeEngines s r b) :=
  (foldl (f := fun s en => s.modIsland en fun x => { x with frozen := b }) (fun _ _ => of_eq rfl rfl rfl rfl) _ s).trans
    (of_eq rfl rfl rfl rfl)

theorem replyAll (s : State) (os : List Owed) (code info : Nat) : Untouched s (Machine.replyAll s os code info) :=
  foldl (f := fun s o => replyTo s o code info 0) (fun _ _ => of_eq rfl rfl rfl rfl) os s

theorem discardCommands (s : State) (key : Nat) : Untouched s (Machine.discardCommands s key) := by
  unfold Machine.discardCommands
  split
  · exact refl s
  · exact (foldl (f := fun s en => s.modIsland en (Island.discard key)) (fun _ _ => of_eq rfl rfl rfl rfl) _ s).trans
      (of_eq rfl rfl rfl rfl)

theorem killCore (s : State) (c : Nat) : Untouched s (Machine.killCore s c) := by
  have hack (v : State) : Untouched v (ackShoots v c) :=
    (foldl (f := fun s (h : Shoot) => dropCore s h.what c) (fun _ _ => of_eq rfl rfl rfl rfl) _ v).trans
      (of_eq rfl rfl rfl rfl)
  have hlanes : Untouched s (s.modCore c fun x => { x with lanes := [], stopped := true }) := of_eq rfl rfl rfl rfl
  exact (hlanes.trans (hack _)).trans (of_eq rfl rfl rfl rfl)

end Untouched

/-- A region without work. -/
def IdleAt (s : State) (k : Nat) : Prop := ∃ q, s.region k = some q ∧ q.kernel = .none ∧ q.record = none

/-- The commands of the contexts and the wells stand, no region comes, goes or takes up work, no barrier comes. -/
structure Subsides (s t : State) : Prop where
  cmd : ∀ c, (t.ctx c).cmd = (s.ctx c).cmd
  idle : ∀ k, IdleAt s k → IdleAt t k
  present : ∀ k, (t.region k).isSome = (s.region k).isSome
  wells : ∀ w, (kfind t.wells w).map Well.standing = (kfind s.wells w).map Well.standing
  barriers : t.barriers ⊆ s.barriers

namespace Untouched

variable {s t : State}

theorem region (h : Untouched s t) (k : Nat) : t.region k = s.region k := by rw [State.region, h.regions]; rfl

theorem subsides (h : Untouched s t) : Subsides s t where
  cmd _ := by rw [State.ctx, h.ctxs]; rfl
  idle k hk := by rwa [IdleAt, h.region]
  present k := by rw [h.region]
  wells := h.wells
  barriers := by rw [h.barriers]; exact List.Subset.refl _

end Untouched

namespace Subsides

variable {s t u : State}

theorem refl (s : State) : Subsides s s := (Untouched.refl s).subsides

theorem trans (h : Subsides s t) (h' : Subsides t u) : Subsides s u where
  cmd c := (h'.cmd c).trans (h.cmd c)
  idle k hk := h'.idle k (h.idle k hk)
  present k := (h'.present k).trans (h.present k)
  wells w := (h'.wells w).trans (h.wells w)
  barriers := List.Subset.trans h'.barriers h.barriers

theorem foldl {α : Type} {f : State → α → State} (hf : ∀ s a, Subsides s (f s a)) (as : List α) (s : State) :
    Subsides s (as.foldl f s) := by
  induction as generalizing s with
  | nil => exact refl s
  | cons a as ih => exact (hf s a).trans (ih (f s a))

/-- A context that keeps its command in progress. -/
theorem setCtx {x : Ctx} {c : Nat} (hx : x.cmd = (s.ctx c).cmd) : Subsides s (s.setCtx c x) where
  cmd k := by
    rw [State.ctx_setCtx]
    split
    · next h => rw [h, hx]
    · rfl
  idle _ h := h
  present _ := rfl
  wells _ := rfl
  barriers := List.Subset.refl _

/-- A region that takes up no work. -/
theorem setRegion {r x : Region} {k : Nat} (hr : s.region k = some r)
    (hidle : r.kernel = .none → r.record = none → x.kernel = .none ∧ x.record = none) : Subsides s (s.setRegion k x) where
  cmd _ := rfl
  idle j := by
    rintro ⟨q, hq, hkernel, hrecord⟩
    by_cases hj : j = k
    · subst hj
      obtain rfl : r = q := Option.some.inj (hr.symm.trans hq)
      exact ⟨x, by rw [State.region_setRegion, if_pos rfl], hidle hkernel hrecord⟩
    · exact ⟨q, by rw [State.region_setRegion, if_neg hj, hq], hkernel, hrecord⟩
  present j := by
    rw [State.region_setRegion]
    split
    · next h => rw [h, hr]; rfl
    · rfl
  wells _ := rfl
  barriers := List.Subset.refl _

theorem modRegion (s : State) (k : Nat) {f : Region → Region}
    (hf : ∀ r, r.kernel = .none → r.record = none → (f r).kernel = .none ∧ (f r).record = none) :
    Subsides s (s.modRegion k f) where
  cmd _ := rfl
  idle j := by
    rintro ⟨q, hq, hkernel, hrecord⟩
    by_cases hj : j = k
    · exact ⟨f q, by rw [State.region_modRegion, if_pos hj, hq]; rfl, hf q hkernel hrecord⟩
    · exact ⟨q, by rw [State.region_modRegion, if_neg hj, hq], hkernel, hrecord⟩
  present j := by
    rw [State.region_modRegion]
    split
    · exact Option.isSome_map
    · rfl
  wells _ := rfl
  barriers := List.Subset.refl _

theorem voidRegion (s : State) (key : Nat) (replay : Bool) : Subsides s (Machine.voidRegion s key replay) := by
  cases hr : s.region key with
  | none => rw [Machine.voidRegion, hr]; exact refl s
  | some r =>
    have hengines (v : State) : Untouched v (voidPools (voidEngines
        { v with tiles := onTiles r (voidSite r) v.tiles } key r.stroke) key r) := .of_eq rfl rfl rfl rfl
    have hfreeze (v : State) : Untouched v (if r.freezeMark then Machine.freezeEngines v r false else v) := by
      split
      · exact .freezeEngines v r false
      · exact .refl v
    have hislands (v : State) : Untouched v (if replay then (regionIslands v r).foldl
        (fun s en => s.modIsland en (rewindIsland r.stroke (islandBack s en))) v else v) := by
      split
      · exact .foldl (f := fun s en => s.modIsland en (rewindIsland r.stroke (islandBack s en)))
          (fun _ _ => .of_eq rfl rfl rfl rfl) _ v
      · exact .refl v
    have hbody := (Untouched.refillLdcs s r).trans ((hengines _).trans ((hfreeze _).trans (hislands _)))
    rw [Machine.voidRegion, hr]
    refine hbody.subsides.trans (setRegion ((hbody.region key).trans hr) fun hkernel hrecord => ⟨?_, hrecord⟩)
    simp only [voidController, hkernel]
    rfl

theorem voidHeld (what : Scope_) (s : State) (p : Nat × Region) : Subsides s (Machine.voidHeld what s p) := by
  unfold Machine.voidHeld
  split
  · exact voidRegion s p.1 true
  · exact refl s

theorem raiseCtxFault (s : State) (c code : Nat) : Subsides s (Machine.raiseCtxFault s c code) := by
  unfold Machine.raiseCtxFault
  dsimp only
  split
  · exact (setCtx (x := { s.ctx c with heldFault := some (BitVec.ofNat 8 code) }) rfl).trans
      (Untouched.subsides (.of_eq rfl rfl rfl rfl))
  · exact refl s

theorem hostShoot (s : State) (what : Scope_) : Subsides s (Machine.hostShoot s what) := by
  refine foldl (f := fun s c => if (s.ctx c).mode.getLsbD 4 then Machine.raiseCtxFault s c 0 else s) (fun s c => ?_) _ s
  split
  · exact raiseCtxFault s c 0
  · exact refl s

theorem startShoot (s : State) (kind : ShootKind) (what : Scope_) (owed : Option Owed) :
    Subsides s (Machine.startShoot s kind what owed) := by
  have hvoid (v : State) : Subsides v (s.regions.foldl (Machine.voidHeld what) v) := foldl (fun _ _ => voidHeld ..) _ v
  have hdrop (v : State) (now : List Nat) : Untouched v (now.foldl (fun s c => dropCore s what c) v) :=
    .foldl (f := fun s c => dropCore s what c) (fun _ _ => .of_eq rfl rfl rfl rfl) now v
  have hnote (v : State) (n : Nat) (hs : List Shoot) : Untouched v { (if kind == .poison then v else
      { v with cores := v.cores.map fun p => (p.1, p.2.noteShoot what) } : State) with nextId := n, shoots := hs } := by
    split <;> exact .of_eq rfl rfl rfl rfl
  have hslices : Untouched s (dropSlices s what) := .of_eq rfl rfl rfl rfl
  exact hslices.subsides.trans ((hvoid _).trans (((hdrop _ _).trans (hnote _ _ _)).subsides.trans (hostShoot ..)))

theorem freezeCtx (s : State) (c : Nat) : Subsides s (Machine.freezeCtx s c) := by
  refine (foldl (f := freezeRegion) (fun v k => modRegion v k fun r hkernel hrecord => ?_) _ s).trans
    (Untouched.subsides (.foldl (f := setStopped true) (fun _ _ => .of_eq rfl rfl rfl rfl) _ _))
  split_ifs <;> exact ⟨hkernel, hrecord⟩

theorem resetBarriers (s : State) (c : Nat) : Subsides s (Machine.resetBarriers s c) :=
  ⟨fun _ => rfl, fun _ h => h, fun _ => rfl, fun _ => rfl, List.filter_sublist.subset⟩

theorem failAllOwed (s : State) (key : Nat) : Subsides s (Machine.failAllOwed s key) := by
  have howed (v : State) : Subsides v (failOwed v key) := by
    unfold failOwed
    split
    · exact refl v
    · next r hr =>
      exact .trans (t := v.setRegion key { r with primeOwed := [], closeOwed := [], strokeOwed := [] })
        (setRegion hr fun hkernel hrecord => ⟨hkernel, hrecord⟩) ((Untouched.replyAll ..).trans (.replyAll ..)).subsides
  unfold Machine.failAllOwed
  dsimp only
  split
  · exact howed s
  · next r hr =>
    exact (howed s).trans (.trans (t := (failOwed s key).setRegion key { r with freezeOwed := [], spineOwed := [] })
      (setRegion hr fun hkernel hrecord => ⟨hkernel, hrecord⟩) (Untouched.replyAll ..).subsides)

end Subsides

/-! ### Cores granted and withdrawn -/

/-- A fold that changes one core at a time, each with the same value of its context. -/
theorem core_ctx_foldl {f : Core → Core} {x : Option (Fin 64)} (hf : ∀ y, (f y).ctx = x) (ks : List Nat) (s : State)
    (k : Nat) : ((ks.foldl (fun s k => s.modCore k f) s).core k).ctx = if k ∈ ks then x else (s.core k).ctx := by
  induction ks generalizing s with
  | nil => rfl
  | cons j ks ih =>
    rw [List.foldl_cons, ih, State.core_modCore]
    by_cases hj : k = j
    · subst hj
      simp [hf]
    · simp [hj]

theorem grantCores_core_ctx (s : State) (c : Nat) (old : List Nat) (k : Nat) :
    ((grantCores s c old).core k).ctx = if k ∈ old ∧ k ∉ ctxCores s c then none
      else if k ∈ ctxCores s c ∧ k ∉ old then some (fin 64 c) else (s.core k).ctx := by
  simp only [grantCores]
  refine (core_ctx_foldl (f := fun x => { x with ctx := some (fin 64 c), stopped := false }) (fun _ => rfl) _ _ k).trans ?_
  rw [core_ctx_foldl (f := fun x => { x with ctx := none }) fun _ => rfl]
  by_cases hold : k ∈ old <;> by_cases hnow : k ∈ ctxCores s c <;> simp [hold, hnow]

/-- A fold of steps that leave a part of the state leaves it. -/
theorem foldl_keeps {α β : Type} (g : State → β) {f : State → α → State} (hf : ∀ s a, g (f s a) = g s) (as : List α)
    (s : State) : g (as.foldl f s) = g s := by
  induction as generalizing s with
  | nil => rfl
  | cons a as ih => exact (ih (f s a)).trans (hf s a)

theorem grantCores_ctxq (s : State) (c : Nat) (old : List Nat) : (grantCores s c old).ctxq = s.ctxq := by
  simp only [grantCores]
  exact (foldl_keeps State.ctxq (f := fun s k => s.modCore k fun x => { x with ctx := some (fin 64 c), stopped := false })
    (fun _ _ => rfl) _ _).trans
      (foldl_keeps State.ctxq (f := fun s k => s.modCore k fun x => { x with ctx := none }) (fun _ _ => rfl) _ _)

theorem setStopped_ctxq (b : Bool) (s : State) (k : Nat) : (setStopped b s k).ctxq = s.ctxq := rfl

theorem thawRegion_ctxq (s : State) (k : Nat) : (thawRegion s k).ctxq = s.ctxq := by
  unfold thawRegion
  split
  · rfl
  · exact foldl_keeps State.ctxq (f := fun s en => s.modIsland en fun x => { x with frozen := false }) (fun _ _ => rfl) _ _

/-! ### What a command does at its begin -/

section
variable (s : State) (c : Nat)

theorem beginCmd_create : beginCmd (begun s c .create) c = ctxCreate (begun s c .create) c := by
  simp only [beginCmd, begun_ctx]

theorem beginCmd_bind : beginCmd (begun s c .bind) c = ctxBind (begun s c .bind) c := by
  simp only [beginCmd, begun_ctx]

theorem beginCmd_freeze : beginCmd (begun s c .freeze) c = ctxFreezeCmd (begun s c .freeze) c := by
  simp only [beginCmd, begun_ctx]

theorem beginCmd_thaw : beginCmd (begun s c .thaw) c = ctxThawCmd (begun s c .thaw) c := by
  simp only [beginCmd, begun_ctx]

theorem beginCmd_swapout : beginCmd (begun s c .swapout) c = ctxSwapout (begun s c .swapout) c := by
  simp only [beginCmd, begun_ctx]

theorem beginCmd_swapin : beginCmd (begun s c .swapin) c = ctxSwapin (begun s c .swapin) c := by
  simp only [beginCmd, begun_ctx]

theorem beginCmd_clear :
    beginCmd (begun s c .clear) c = clearTrip (ctxClear (begun s c .clear) c) c := by
  simp only [beginCmd, begun_ctx]

end

/-- SWAPOUT of T3 begins. -/
theorem serveUnit_trip_frozen {s : State} {c : Nat} (hq : s.ctxq = [(c, .trip, false)]) (hc : c ≠ 0)
    (hx : (s.ctx c).state = .frozen) (n : Nat) :
    serveUnit (n + 1) s = markJob (startShoot (resetBarriers s c) .tlbi (.ctx c) none) := by
  have hbegin : beginJob s c .trip = markJob (startShoot (resetBarriers s c) .tlbi (.ctx c) none) := by
    simp [beginJob, beginTrip, hx, ctxSwapout, hc]
  have hkeep : KeepsQueue s (startShoot (resetBarriers s c) .tlbi (.ctx c) none) :=
    .trans (.of_eq rfl) (.startShoot (resetBarriers s c) ..)
  have hne : (startShoot (resetBarriers s c) .tlbi (.ctx c) none).ctxq ≠ [] := fun hnil => by
    rw [KeepsQueue, hq, hnil] at hkeep
    exact absurd hkeep (by simp)
  rw [serveUnit_next hq, hbegin, serveUnit_markJob hne]

theorem clearTrip_kept {v : State} {c : Nat} (h : v.t3 = 0 ∨ (v.ctx c).state ≠ .frozen ∨ c = 0) : clearTrip v c = v := by
  unfold clearTrip tripCtx
  split_ifs with hfrozen hc
  · rfl
  · obtain h | h | h := h
    · exact absurd h hfrozen.1
    · exact absurd hfrozen.2 h
    · exact absurd h hc
  · rfl

/-- CLEAR of a FAULTED context, before T3 is looked at. -/
theorem ctxClear_faulted {s : State} {c : Nat} (hx : (s.ctx c).state = .faulted) : ctxClear (begun s c .clear) c =
    endCmd ((begun s c .clear).modCtx c fun x => { x with state := .frozen }) c 0 := by simp [ctxClear, hx]

/-! ### Each command with the unit idle (R263, R264) -/

section
variable {s : State} {c : Nat} (hcmd : (s.ctx c).cmd = none) (hq : s.ctxq = [])
include hcmd hq

theorem create_not_free (hx : (s.ctx c).state ≠ .free) : Ends (.create c) s c .create 1 := by
  refine ends_of (by simp [UnitCommand]) hcmd hq ((beginCmd_create s c).trans ?_)
  simp [ctxCreate, hx]

theorem create_no_descriptor (hx : (s.ctx c).state = .free) (hno : (s.ctx c).levelReg = 3 ∨ readDesc s c = none) :
    Ends (.create c) s c .create 3 := by
  refine ends_of (by simp [UnitCommand]) hcmd hq ((beginCmd_create s c).trans ?_)
  rcases hno with h | h <;> simp [ctxCreate, hx, readDesc_begun, h]

theorem create_ready {b : List Byte} (hx : (s.ctx c).state = .free) (hlevel : (s.ctx c).levelReg ≠ 3)
    (hb : readDesc s c = some b) : ∃ t, exec (.create c) s = .next t ∧
      t.ctx c = { s.ctx c with
        state := .ready, root := (s.ctx c).rootReg, level := (s.ctx c).levelReg, cmd := none, res := 0
        grants := Vector.ofFn fun d => { budget := (descGrant b d.val).budget } } := by
  let u := begun s c .create
  have hlevel' : (s.ctx c).levelReg ≠ 3#2 := hlevel
  have hv : ctxCreate u c = endCmd (u.setCtx c { u.ctx c with
      state := .ready, root := (s.ctx c).rootReg, level := (s.ctx c).levelReg
      grants := Vector.ofFn fun d => { budget := (descGrant b d.val).budget } }) c 0 := by
    simp [u, ctxCreate, hx, hlevel', readDesc_begun, hb]
  refine ⟨_, exec_unitCommand_ended (by simp [UnitCommand]) hcmd hq ((beginCmd_create s c).trans hv) rfl, ?_⟩
  refine (endCmd_ctx _ c 0).trans ?_
  rw [State.ctx_setCtx_same, begun_ctx]
  rfl

theorem bind_not_ready (hready : (s.ctx c).state ≠ .ready) (hrun : (s.ctx c).state ≠ .running) :
    Ends (.bind c) s c .bind 1 := by
  refine ends_of (by simp [UnitCommand]) hcmd hq ((beginCmd_bind s c).trans ?_)
  simp [ctxBind, hready, hrun]

section
variable (hx : (s.ctx c).state = .ready ∨ (s.ctx c).state = .running)
include hx

theorem bind_no_descriptor (hb : readDesc s c = none) : Ends (.bind c) s c .bind 3 := by
  refine ends_of (by simp [UnitCommand]) hcmd hq ((beginCmd_bind s c).trans ?_)
  rcases hx with hx | hx <;> simp [ctxBind, hx, readDesc_begun, hb]

theorem bind_absent {b : List Byte} (hb : readDesc s c = some b) (hpresent : grantsPresent s b = false) :
    Ends (.bind c) s c .bind 3 := by
  have hpresent' : grantsPresent (begun s c .bind) b = false := hpresent
  refine ends_of (by simp [UnitCommand]) hcmd hq ((beginCmd_bind s c).trans ?_)
  rcases hx with hx | hx <;> simp [ctxBind, hx, readDesc_begun, hb, hpresent']

variable {b : List Byte} (hb : readDesc (begun s c .bind) c = some b) (hpresent : grantsPresent (begun s c .bind) b = true)
include hb hpresent

theorem bind_taken (hno : grantsFree (begun s c .bind) c b = false ∨ grantsKeep (begun s c .bind) c b = false) :
    Ends (.bind c) s c .bind 2 := by
  refine ends_of (by simp [UnitCommand]) hcmd hq ((beginCmd_bind s c).trans ?_)
  rcases hx with hx | hx <;> rcases hno with h | h <;> simp [ctxBind, hx, hb, hpresent, h]

theorem bind_done (hfree : grantsFree (begun s c .bind) c b = true) (hkeep : grantsKeep (begun s c .bind) c b = true) :
    exec (.bind c) s = .next (popJob (endCmd (grantCores ((begun s c .bind).setCtx c { (begun s c .bind).ctx c with
      grants := Vector.ofFn fun d => { descGrant b d.val with budget := (((begun s c .bind).ctx c).grants[d]).budget } }) c
        (ctxCores (begun s c .bind) c)) c 0)) := by
  refine exec_unitCommand_ended (by simp [UnitCommand]) hcmd hq ((beginCmd_bind s c).trans ?_) (grantCores_ctxq ..)
  rcases hx with hx | hx <;> simp [ctxBind, hx, hb, hpresent, hfree, hkeep]

end

theorem freeze_ends_one (hc : c ≠ 0) (hready : (s.ctx c).state ≠ .ready) (hrun : (s.ctx c).state ≠ .running) :
    Ends (.ctxFreeze c) s c .freeze 1 := by
  refine ends_of (by simp [UnitCommand]) hcmd hq ((beginCmd_freeze s c).trans ?_)
  simp [ctxFreezeCmd, hc, hready, hrun]

theorem freeze_begins (hc : c ≠ 0) (hx : (s.ctx c).state = .ready ∨ (s.ctx c).state = .running) :
    exec (.ctxFreeze c) s = .next (markJob (freezeCtx (begun s c .freeze) c)) := by
  have hv : ctxFreezeCmd (begun s c .freeze) c = freezeCtx (begun s c .freeze) c := by
    rcases hx with hx | hx <;> simp [ctxFreezeCmd, hc, hx]
  refine exec_unitCommand_marked (by simp [UnitCommand]) hcmd hq ((beginCmd_freeze s c).trans hv) ?_ (.freezeCtx _ c)
  rw [(Subsides.freezeCtx _ c).cmd, begun_ctx]
  simp

/-- Context 0 is never frozen or swapped (R262). -/
theorem context_zero_refused (hc : c = 0) : Ends (.ctxFreeze c) s c .freeze 4 ∧ Ends (.swapout c) s c .swapout 4 ∧
    Ends (.swapin c) s c .swapin 4 := by
  refine ⟨ends_of (by simp [UnitCommand]) hcmd hq ((beginCmd_freeze s c).trans (if_pos hc)),
    ends_of (by simp [UnitCommand]) hcmd hq ((beginCmd_swapout s c).trans (if_pos hc)),
    ends_of (by simp [UnitCommand]) hcmd hq ((beginCmd_swapin s c).trans (if_pos hc))⟩

theorem thaw_not_frozen (hx : (s.ctx c).state ≠ .frozen) : Ends (.ctxThaw c) s c .thaw 1 := by
  refine ends_of (by simp [UnitCommand]) hcmd hq ((beginCmd_thaw s c).trans ?_)
  simp [ctxThawCmd, hx]

theorem thaw_done (hx : (s.ctx c).state = .frozen) : let u := begun s c .thaw
    let v := (ctxRegions u c).foldl thawRegion u
    let w := (ctxCores v c).foldl (setStopped false) v
    exec (.ctxThaw c) s = .next (popJob (endCmd (settleCtx (w.modCtx c fun x => { x with state := .ready }) c) c 0)) := by
  refine exec_unitCommand_ended (by simp [UnitCommand]) hcmd hq ((beginCmd_thaw s c).trans ?_) ?_
  · simp [ctxThawCmd, hx]
  · exact (foldl_keeps State.ctxq (setStopped_ctxq false) _ _).trans (foldl_keeps State.ctxq thawRegion_ctxq _ _)

theorem swapout_begins (hc : c ≠ 0) (hx : (s.ctx c).state = .frozen) : exec (.swapout c) s =
    .next (markJob (startShoot (resetBarriers (begun s c .swapout) c) .tlbi (.ctx c) none)) := by
  have hv : ctxSwapout (begun s c .swapout) c = startShoot (resetBarriers (begun s c .swapout) c) .tlbi (.ctx c) none := by
    simp [ctxSwapout, hc, hx]
  refine exec_unitCommand_marked (by simp [UnitCommand]) hcmd hq ((beginCmd_swapout s c).trans hv) ?_
    (.trans (.of_eq rfl) (.startShoot (resetBarriers (begun s c .swapout) c) ..))
  rw [((Subsides.resetBarriers _ c).trans (.startShoot ..)).cmd, begun_ctx]
  simp

theorem swapout_not_frozen (hc : c ≠ 0) (hx : (s.ctx c).state ≠ .frozen) : Ends (.swapout c) s c .swapout 1 := by
  refine ends_of (by simp [UnitCommand]) hcmd hq ((beginCmd_swapout s c).trans ?_)
  simp [ctxSwapout, hc, hx]

theorem swapin_begins (hc : c ≠ 0) (hx : (s.ctx c).state = .swapped) (h3 : s.t3 = 0) (h2 : s.t2 = 0) :
    exec (.swapin c) s = .next (markJob (begun s c .swapin)) := by
  have hv : ctxSwapin (begun s c .swapin) c = begun s c .swapin := by
    have h3' : (begun s c .swapin).t3 = 0 := h3
    have h2' : (begun s c .swapin).t2 = 0 := h2
    simp [ctxSwapin, hc, hx, h3', h2']
  refine exec_unitCommand_marked (by simp [UnitCommand]) hcmd hq ((beginCmd_swapin s c).trans hv) ?_ (.refl _)
  rw [begun_ctx]
  simp

theorem swapin_refused (hc : c ≠ 0) (hx : (s.ctx c).state ≠ .swapped ∨ s.t3 ≠ 0 ∨ s.t2 ≠ 0) :
    Ends (.swapin c) s c .swapin 1 := by
  have hx' : ((begun s c .swapin).ctx c).state ≠ .swapped ∨ (begun s c .swapin).t3 ≠ 0 ∨ (begun s c .swapin).t2 ≠ 0 := by
    rw [begun_ctx]
    exact hx
  refine ends_of (by simp [UnitCommand]) hcmd hq ((beginCmd_swapin s c).trans ?_)
  simp only [ctxSwapin, if_neg hc, bne_iff_ne, if_pos hx']

theorem clear_not_faulted (hx : (s.ctx c).state ≠ .faulted) (hno : (s.ctx c).state ≠ .frozen ∨ s.t3 = 0 ∨ c = 0) :
    Ends (.clear c) s c .clear 1 := by
  have hv : ctxClear (begun s c .clear) c = endCmd (begun s c .clear) c 1 := by simp [ctxClear, hx]
  refine ends_of (by simp [UnitCommand]) hcmd hq ((beginCmd_clear s c).trans ?_)
  rw [hv]
  refine clearTrip_kept ?_
  rw [endCmd_ctx, begun_ctx]
  obtain h | h | h := hno
  · exact .inr (.inl h)
  · exact .inl h
  · exact .inr (.inr h)

theorem clear_done (hx : (s.ctx c).state = .faulted) (hno : s.t3 = 0 ∨ c = 0) : ∃ t, exec (.clear c) s = .next t ∧
    t.ctx c = { s.ctx c with state := .frozen, cmd := none, res := 0 } ∧ t.ctxq = [] := by
  have hv : beginCmd (begun s c .clear) c =
      endCmd ((begun s c .clear).modCtx c fun x => { x with state := .frozen }) c 0 := by
    rw [beginCmd_clear, ctxClear_faulted hx]
    exact clearTrip_kept (hno.imp_right .inr)
  refine ⟨_, exec_unitCommand_ended (by simp [UnitCommand]) hcmd hq hv rfl, ?_, ?_⟩
  · refine (endCmd_ctx _ c 0).trans ?_
    rw [State.ctx_modCtx_same, begun_ctx]
    rfl
  · exact congrArg List.tail (begun_ctxq (m := .clear) hq)

/-- While T3 holds, a context that CLEAR leaves FROZEN is swapped out (log entry 103). -/
theorem clear_trips (hx : (s.ctx c).state = .faulted) (h3 : s.t3 ≠ 0) (hc : c ≠ 0) :
    let u := endCmd ((begun s c .clear).modCtx c fun x => { x with state := .frozen }) c 0
    exec (.clear c) s =
      .next (markJob (startShoot (resetBarriers { u with ctxq := [(c, .trip, false)] } c) .tlbi (.ctx c) none)) := by
  intro u
  have hfrozen : (u.ctx c).state = .frozen := by simp [u]
  have hended : (u.ctx c).cmd = none := by simp [u]
  have hqueue : u.ctxq = [(c, .cmd, false)] := begun_ctxq (m := .clear) hq
  have hv : beginCmd (begun s c .clear) c = tripCtx u c := by
    rw [beginCmd_clear, ctxClear_faulted hx]
    exact if_pos ⟨h3, hfrozen⟩
  have htripped : (tripCtx u c).ctx c = u.ctx c := by
    rw [tripCtx, if_neg hc]
    rfl
  have hpop : popJob (tripCtx u c) = { u with ctxq := [(c, .trip, false)] } := by
    simp only [popJob, tripCtx, if_neg hc, hqueue, List.cons_append, List.nil_append, List.tail_cons]
  rw [exec_unitCommand_begun (i := .clear c) (m := .clear) (by simp [UnitCommand]) hcmd,
    serveCtx_begun_ended hq hv (htripped ▸ hended), hpop]
  exact congrArg _ (serveUnit_trip_frozen (s := { u with ctxq := [(c, .trip, false)] }) rfl hc hfrozen 2)

end

/-! ### KILL (R263, R304, R343) -/

/-- The regions of a context that is killed. -/
def killRegions (s : State) (c : Nat) : State := (ctxRegions s c).foldl killRegion s

/-- And its queues, cores and barriers. -/
def killWork (s : State) (c : Nat) : State :=
  let s := killRegions s c
  let s := (ctxQueues s c).foldl killQueue s
  resetBarriers ((ctxCores s c).foldl killCore s) c

/-- Its wells and groups. -/
def closeWells (s : State) (c : Nat) : State :=
  { s with
    wells := s.wells.map fun p => if p.2.ctx = c then (p.1, p.2.killed) else p
    groups := s.groups.filter fun p => (s.queue p.2.queue).ctx.toNat != c }

/-- The module after KILL, before the unit turns to its next event. -/
def killed (s : State) (c : Nat) : State :=
  let s := startShoot (closeWells (killWork s c) c) .tlbi (.ctx c) none
  let s : State := { s with ctxq := s.ctxq.filter fun j => j.1 != c }
  s.modCtx c fun x => { x with state := .dead, cmd := none, heldFault := none, res := if x.cmd.isSome then 5 else 0 }

theorem Subsides.killRegion (s : State) (k : Nat) : Subsides s (Machine.killRegion s k) :=
  (((voidRegion s k false).trans (Untouched.discardCommands _ k).subsides).trans (failAllOwed _ k)).trans
    (modRegion _ k fun _ _ _ => ⟨rfl, rfl⟩)

theorem Subsides.killWork_rest (s : State) (c : Nat) : Subsides (killRegions s c) (killWork s c) := by
  have hqueues (v : State) (qs : List Nat) : Untouched v (qs.foldl killQueue v) :=
    .foldl (f := killQueue) (fun _ _ => .of_eq rfl rfl rfl rfl) qs v
  exact ((hqueues _ _).trans (.foldl (f := killCore) .killCore _ _)).subsides.trans (resetBarriers _ c)

theorem Subsides.killWork (s : State) (c : Nat) : Subsides s (Machine.killWork s c) :=
  (foldl (f := Machine.killRegion) killRegion _ s).trans (killWork_rest s c)

/-- A region killed has no work. -/
theorem killRegion_idle {s : State} {k : Nat} (h : (s.region k).isSome = true) : IdleAt (killRegion s k) k := by
  let u := failAllOwed (discardCommands (voidRegion s k false) k) k
  have hu : Subsides s u :=
    ((Subsides.voidRegion s k false).trans (Untouched.discardCommands _ k).subsides).trans (.failAllOwed _ k)
  obtain ⟨r, hr⟩ := Option.isSome_iff_exists.mp ((hu.present k).trans h)
  exact ⟨_, (State.region_modRegion u k k _).trans (by rw [if_pos rfl, hr, Option.map_some]), rfl, rfl⟩

/-- Regions killed one after the other: each is left without work. -/
theorem killRegions_idle {ks : List Nat} {s : State} {k : Nat} (hk : k ∈ ks) (h : (s.region k).isSome = true) :
    IdleAt (ks.foldl killRegion s) k := by
  induction ks generalizing s with
  | nil => exact absurd hk (by simp)
  | cons j ks ih =>
    obtain rfl | hk := List.mem_cons.mp hk
    · exact (Subsides.foldl .killRegion ks _).idle k (killRegion_idle h)
    · exact ih hk (((Subsides.killRegion s j).present k).trans h)

theorem mem_of_kfind {α : Type} {m : KMap α} {k : Nat} {a : α} (h : kfind m k = some a) : (k, a) ∈ m := by
  induction m with
  | nil => exact absurd h (by simp)
  | cons p m ih =>
    simp only [kfind] at h
    split at h
    · next hk =>
      obtain rfl := Option.some.inj h
      rw [hk]
      exact List.mem_cons_self
    · split at h
      · exact absurd h (by simp)
      · exact List.mem_cons_of_mem _ (ih h)

theorem mem_ctxRegions {s : State} {k : Nat} {r : Region} (h : s.region k = some r) : k ∈ ctxRegions s r.ctx :=
  List.mem_map.mpr ⟨(k, r), List.mem_filter.mpr ⟨mem_of_kfind h, by simp⟩, rfl⟩

theorem exec_kill_zero (s : State) : exec (.kill 0) s = .next (s.modCtx 0 fun x => { x with res := 4 }) := rfl

theorem exec_kill_dead {s : State} {c : Nat} (hc : c ≠ 0) (hx : (s.ctx c).state = .free ∨ (s.ctx c).state = .dead) :
    exec (.kill c) s = .next (s.modCtx c fun x => { x with res := 1 }) := by
  have hv : ctxKill s c = s.modCtx c fun x => { x with res := 1 } := by
    rcases hx with hx | hx <;> simp [ctxKill, hc, hx]
  exact congrArg _ hv

theorem exec_kill_alive {s : State} {c : Nat} (hc : c ≠ 0) (hfree : (s.ctx c).state ≠ .free)
    (hdead : (s.ctx c).state ≠ .dead) : exec (.kill c) s = .next (serveCtx (killed s c)) := by
  have hv : ctxKill s c = serveCtx (killed s c) := by
    simp only [ctxKill, if_neg hc, beq_eq_false_iff_ne.mpr hfree, beq_eq_false_iff_ne.mpr hdead, Bool.or_self,
      Bool.false_eq_true, if_false]
    rfl
  exact congrArg _ hv

section
variable (s : State) (c : Nat)

theorem killed_ctx : (killed s c).ctx c = { (startShoot (closeWells (killWork s c) c) .tlbi (.ctx c) none).ctx c with
    state := .dead, cmd := none, heldFault := none, res := if (s.ctx c).cmd.isSome then 5 else 0 } := by
  have hcmd : ((startShoot (closeWells (killWork s c) c) .tlbi (.ctx c) none).ctx c).cmd = (s.ctx c).cmd :=
    ((Subsides.startShoot ..).cmd c).trans ((Subsides.killWork s c).cmd c)
  rw [← hcmd]
  exact State.ctx_modCtx_same ..

theorem killed_ctxq : ∀ j ∈ (killed s c).ctxq, j.1 ≠ c := by
  intro j hj
  have hkept := (List.mem_filter.mp hj).2
  simpa using hkept

theorem killed_regions {k : Nat} {r : Region} (hr : s.region k = some r) (hc : r.ctx = c) : IdleAt (killed s c) k := by
  have hmem : k ∈ ctxRegions s c := hc ▸ mem_ctxRegions hr
  have hkilled : IdleAt (killRegions s c) k := killRegions_idle hmem (Option.isSome_iff_exists.mpr ⟨r, hr⟩)
  have hwork : IdleAt (closeWells (killWork s c) c) k := (Subsides.killWork_rest s c).idle k hkilled
  exact (Subsides.startShoot (closeWells (killWork s c) c) .tlbi (.ctx c) none).idle k hwork

theorem killed_barriers : ∀ b ∈ (killed s c).barriers, b.1 / 32 ≠ c := by
  intro b hb
  have hkept : b ∈ (killWork s c).barriers := (Subsides.startShoot (closeWells (killWork s c) c) _ _ _).barriers hb
  have := (List.mem_filter.mp hkept).2
  simpa using this

/-- A well whose standing is known. -/
theorem exists_standing {m : KMap Well} {w : Nat} {p : Nat × WState} (h : (kfind m w).map Well.standing = some p) :
    ∃ x, kfind m w = some x ∧ x.ctx = p.1 ∧ x.state = p.2 := by
  obtain ⟨x, hx, rfl⟩ := Option.map_eq_some_iff.mp h
  exact ⟨x, hx, rfl, rfl⟩

theorem Well.killed_standing (x : Well) : x.killed.standing = (x.ctx, .closed) := by
  unfold Well.killed
  split
  · next h => rw [standing, eq_of_beq h]
  · rfl

theorem kfind_closeWells {s : State} {w : Nat} {x : Well} (h : kfind s.wells w = some x) (hc : x.ctx = c) :
    kfind (closeWells s c).wells w = some x.killed := by
  have hrow : (closeWells s c).wells = s.wells.map fun p => (p.1, if p.2.ctx = c then p.2.killed else p.2) :=
    List.map_congr_left fun p _ => by split <;> rfl
  rw [hrow]
  refine (kfind_mapValues s.wells (fun _ y => if y.ctx = c then y.killed else y) w).trans ?_
  rw [h, Option.map_some, if_pos hc]

theorem killed_wells {w : Nat} (hc : (s.well w).ctx = c) (hw : kfind s.wells w ≠ none) :
    ((killed s c).well w).state = .closed := by
  obtain ⟨x, hx⟩ := Option.ne_none_iff_exists'.mp hw
  have hxc : x.ctx = c := by rwa [State.well, kget, hx] at hc
  obtain ⟨y, hy, hyc, -⟩ := exists_standing (p := x.standing)
    (((Subsides.killWork s c).wells w).trans (by rw [hx]; rfl))
  have hclosed := kfind_closeWells c hy (hyc.trans hxc)
  have hlast := (Subsides.startShoot (closeWells (killWork s c) c) .tlbi (.ctx c) none).wells w
  rw [hclosed, Option.map_some, Well.killed_standing] at hlast
  obtain ⟨z, hz, -, hzs⟩ := exists_standing hlast
  have hfind : kfind (killed s c).wells w = some z := hz
  rw [State.well, kget, hfind]
  exact hzs

end

/-! ### R262 to R266, R304, R343 and R372: the commands -/

theorem contextCommands : ContextCommands := by
  unfold ContextCommands
  intro cmds
  refine ⟨fun s c hcmd i hi => exec_unitCommand_rejected hi hcmd, fun s c k j rest hcmd hq i hi => ?busy,
    fun s c hcmd hq => ?idle, fun s c old k => grantCores_core_ctx s c old k, exec_kill_zero,
    fun s c hc hx => exec_kill_dead hc hx, fun s c hc hfree hdead => ?kill⟩
  case busy =>
    rw [exec_unitCommand_begun hi hcmd, serveCtx_busy (rest := rest ++ [(c, .cmd, false)]) (by rw [begun, hq]; rfl)]
  case idle =>
    exact ⟨create_not_free hcmd hq, create_no_descriptor hcmd hq, fun b => create_ready hcmd hq,
      bind_not_ready hcmd hq, bind_no_descriptor hcmd hq, fun b hx => bind_absent hcmd hq hx,
      fun b hx => bind_done hcmd hq hx, fun b hx => bind_taken hcmd hq hx,
      context_zero_refused hcmd hq, freeze_begins hcmd hq, freeze_ends_one hcmd hq, thaw_not_frozen hcmd hq,
      thaw_done hcmd hq, swapout_begins hcmd hq, swapout_not_frozen hcmd hq, swapin_begins hcmd hq,
      swapin_refused hcmd hq, clear_not_faulted hcmd hq, clear_done hcmd hq, clear_trips hcmd hq⟩
  case kill =>
    have hkilled := killed_ctx s c
    refine ⟨killed s c, exec_kill_alive hc hfree hdead, ?_, ?_, ?_, ?_, killed_ctxq s c,
      fun k r hr hrc => killed_regions s c hr hrc, fun w hwc hw => killed_wells s c hwc hw, killed_barriers s c⟩
    · rw [hkilled]
    · rw [hkilled]
    · rw [hkilled]
    · rw [hkilled]
      cases (s.ctx c).cmd <;> rfl

/-! ### The event at work (R265) -/

section
variable {s : State} {c : Nat}

theorem jobIs_iff {j : CtxJob} : jobIs s c j = true ↔ s.ctxq.head? = some (c, j, true) := beq_iff_eq

/-- Only one event is at work. -/
theorem jobIs_other {j i : CtxJob} (h : jobIs s c j = true) (hne : j ≠ i) : jobIs s c i = false := by
  rw [jobIs, jobIs_iff.mp h, beq_eq_false_iff_ne]
  simpa using hne

theorem jobIs_waiting {k : Nat} {i j : CtxJob} {rest : List (Nat × CtxJob × Bool)} (h : s.ctxq = (k, i, false) :: rest) :
    jobIs s c j = false := by
  rw [jobIs, h, beq_eq_false_iff_ne]
  simp

theorem serveCtx_of_jobIs {j : CtxJob} (h : jobIs s c j = true) : serveCtx s = s := by
  obtain ⟨rest, hrest⟩ : ∃ rest, s.ctxq = (c, j, true) :: rest := by
    obtain ⟨rest, hrest⟩ := List.head?_eq_some_iff.mp (jobIs_iff.mp h)
    exact ⟨rest, hrest⟩
  exact serveCtx_busy hrest

theorem jobIs_markJob {t : State} {j : CtxJob} {b : Bool} {rest : List (Nat × CtxJob × Bool)}
    (h : t.ctxq = (c, j, b) :: rest) : jobIs (markJob t) c j = true := by
  rw [jobIs_iff, markJob, h]
  rfl

/-! ### A freeze is over -/

theorem ctxFreezeComplete_cmd (hj : jobIs s c .cmd = true) (hcmd : (s.ctx c).cmd = some .freeze)
    (hfrozen : ctxFrozen s c = true) : exec (.ctxFreezeComplete c) s =
      .next (serveCtx (popJob (endCmd (s.modCtx c fun x => { x with state := .frozen }) c 0))) := by
  simp [exec_ctxFreezeComplete, execCtxFreezeComplete, hj, hcmd, hfrozen, setFrozen]

theorem ctxFreezeComplete_trip (hc : c ≠ 0) (hj : jobIs s c .trip = true)
    (hx : (s.ctx c).state = .ready ∨ (s.ctx c).state = .running) (hfrozen : ctxFrozen s c = true) :
    exec (.ctxFreezeComplete c) s = .next (startShoot (resetBarriers (s.modCtx c fun x => { x with state := .frozen }) c)
      .tlbi (.ctx c) none) := by
  have hcmd := jobIs_other hj (i := .cmd) (by simp)
  rcases hx with hx | hx <;>
    simp [exec_ctxFreezeComplete, execCtxFreezeComplete, hj, hcmd, hx, hfrozen, setFrozen, ctxSwapout, hc]

theorem ctxFreezeComplete_waits (h : ctxFrozen s c = false ∨
    (jobIs s c .trip = false ∧ ((s.ctx c).cmd ≠ some .freeze ∨ jobIs s c .cmd = false))) :
    exec (.ctxFreezeComplete c) s = .next s := by
  obtain h | ⟨htrip, hcmd | hcmd⟩ := h
  · simp [exec_ctxFreezeComplete, execCtxFreezeComplete, h]
  · simp [exec_ctxFreezeComplete, execCtxFreezeComplete, htrip, hcmd]
  · simp [exec_ctxFreezeComplete, execCtxFreezeComplete, htrip, hcmd]

theorem ctxFrozen_iff : ctxFrozen s c = true ↔ (∀ k ∈ ctxRegions s c, ∀ r, s.region k = some r → r.frozen = true) ∧
    ∀ k ∈ ctxCores s c, (s.core k).lanes = [] := by
  simp only [ctxFrozen, Bool.and_eq_true, List.all_eq_true, Option.all_eq_true, List.isEmpty_iff]

/-! ### A fault that the host serves (R263, R268) -/

theorem raiseCtxFault_raised {code : Nat} (hc : c ≠ 0) (hheld : (s.ctx c).heldFault = none)
    (hx : (s.ctx c).state = .ready ∨ (s.ctx c).state = .running ∨ (s.ctx c).state = .frozen) :
    raiseCtxFault s c code = { s.modCtx c fun x => { x with heldFault := some (BitVec.ofNat 8 code) } with
      ctxq := s.ctxq ++ [(c, .fault, false)] } :=
  if_pos ⟨hc, Option.isNone_iff_eq_none.mpr hheld, hx⟩

theorem sendMsix_ctxq (s : State) (v : Nat) : (sendMsix s v).ctxq = s.ctxq := by
  unfold sendMsix
  dsimp only
  split_ifs <;> rfl

/-- The context FAULTED, the host told, the event over. -/
def faulted (s : State) (c : Nat) (f : BitVec 8) : State :=
  popJob (sendMsix (s.modCtx c fun x => { x with state := .faulted, fcode := f, heldFault := none }) c)

section
variable {f : BitVec 8} (hf : (s.ctx c).heldFault = some f)
include hf

theorem popJob_applyFault : popJob (applyFault s c) = faulted s c f := by
  rw [applyFault, hf]
  rfl

theorem exec_ctxFault_held : exec (.ctxFault c) s =
    .next (if jobIs (serveCtx s) c .fault && ctxFrozen (serveCtx s) c then serveCtx (popJob (applyFault (serveCtx s) c))
      else serveCtx s) := by
  simp only [exec_ctxFault, execCtxFault, hf]

theorem ctxFault_at_work (hj : jobIs s c .fault = true) : (ctxFrozen s c = false → exec (.ctxFault c) s = .next s) ∧
    (ctxFrozen s c = true → exec (.ctxFault c) s = .next (serveCtx (faulted s c f))) := by
  rw [exec_ctxFault_held hf, serveCtx_of_jobIs hj, hj, popJob_applyFault hf]
  exact ⟨fun h => by simp [h], fun h => by simp [h]⟩

variable (hq : s.ctxq = [(c, .fault, false)])
include hq

theorem ctxFault_frozen (hx : (s.ctx c).state = .frozen) : exec (.ctxFault c) s = .next (faulted s c f) := by
  have hnil : (faulted s c f).ctxq = [] := by
    rw [faulted, popJob, sendMsix_ctxq]
    exact congrArg List.tail hq
  have hserved : serveCtx s = faulted s c f := by
    rw [serveCtx, hq]
    refine (serveUnit_next hq 3).trans ?_
    simp only [beginJob, beginFault, hx, popJob_applyFault hf]
    exact serveUnit_nil hnil 3
  have hidle : jobIs (faulted s c f) c .fault = false := by rw [jobIs, hnil]; rfl
  rw [exec_ctxFault_held hf, hserved, hidle]
  rfl

theorem ctxFault_running (hx : (s.ctx c).state = .ready ∨ (s.ctx c).state = .running) :
    let u := markJob (freezeCtx s c)
    (ctxFrozen u c = false → exec (.ctxFault c) s = .next u) ∧
    (ctxFrozen u c = true → exec (.ctxFault c) s = .next (serveCtx (faulted u c f))) := by
  intro u
  have hqueue : (freezeCtx s c).ctxq = s.ctxq :=
    (foldl_keeps State.ctxq (setStopped_ctxq true) _ _).trans
      (foldl_keeps State.ctxq (f := freezeRegion) (fun _ _ => rfl) _ _)
  have hserved : serveCtx s = u := by
    have hbegin : beginJob s c .fault = u := by rcases hx with hx | hx <;> simp [beginJob, beginFault, hx, u]
    rw [serveCtx, hq]
    refine (serveUnit_next hq 3).trans ?_
    rw [hbegin]
    exact serveUnit_markJob (by simp [hqueue, hq]) 3
  have hwork : jobIs u c .fault = true := jobIs_markJob (hqueue.trans hq)
  have hctxs : (freezeCtx s c).ctxs = s.ctxs :=
    (foldl_keeps State.ctxs (f := setStopped true) (fun _ _ => rfl) _ _).trans
      (foldl_keeps State.ctxs (f := freezeRegion) (fun _ _ => rfl) _ _)
  have hheld : (u.ctx c).heldFault = some f := (congrArg (fun m => (kget m c ({} : Ctx)).heldFault) hctxs).trans hf
  rw [exec_ctxFault_held hf, hserved, hwork, popJob_applyFault hheld]
  exact ⟨fun h => by simp [h], fun h => by simp [h]⟩

end

/-- With no fault waiting and none of its cores at fault there is nothing to serve. -/
theorem ctxFault_none (hheld : (s.ctx c).heldFault = none)
    (hcores : ∀ k ∈ ctxCores s c, (s.core k).fltrec.getLsbD 63 = false) (hq : s.ctxq = []) :
    exec (.ctxFault c) s = .next s := by
  have hnone : serviceFault s c = none := by
    rw [serviceFault, Option.map_eq_none_iff, List.find?_eq_none]
    intro k hk
    rw [hcores k hk]
    exact Bool.false_ne_true
  have hserved : serveCtx s = s := serveUnit_nil hq _
  have hidle : jobIs s c .fault = false := by rw [jobIs, hq]; rfl
  simp only [exec_ctxFault, execCtxFault, hheld, hnone, hserved, hidle, Bool.false_and, Bool.false_eq_true, if_false]

/-! ### A swap (R266) -/

theorem swapComplete_out (hj : jobIs s c .cmd = true) (hcmd : (s.ctx c).cmd = some .swapout)
    (hready : swapReady s c = true) : exec (.swapComplete c) s = .next (serveCtx (popJob (endCmd (swapAway s c) c 0))) := by
  simp only [exec_swapComplete, execSwapComplete, hj, hcmd, hready, if_true]

theorem swapComplete_trip (hj : jobIs s c .trip = true) (hx : (s.ctx c).state = .frozen) (hready : swapReady s c = true) :
    exec (.swapComplete c) s = .next (serveCtx (popJob (swapAway s c))) := by
  have hcmd := jobIs_other hj (i := .cmd) (by simp)
  simp [exec_swapComplete, execSwapComplete, hj, hcmd, hx, hready]

theorem swapComplete_in (hj : jobIs s c .cmd = true) (hcmd : (s.ctx c).cmd = some .swapin) :
    exec (.swapComplete c) s = .next (serveCtx (popJob (endCmd (swapBack s c) c 0))) := by
  simp only [exec_swapComplete, execSwapComplete, hj, hcmd, if_true]

theorem swapComplete_waits (hready : swapReady s c = false) (hcmd : (s.ctx c).cmd ≠ some .swapin) :
    exec (.swapComplete c) s = .next s := by
  simp only [exec_swapComplete, execSwapComplete, hready, Bool.and_false, Bool.false_eq_true, if_false]
  split
  · split
    · rfl
    · next h => exact absurd h hcmd
    · rfl
  · rfl

theorem swapComplete_idle (hcmd : jobIs s c .cmd = false) (htrip : jobIs s c .trip = false) :
    exec (.swapComplete c) s = .next s := by
  simp [exec_swapComplete, execSwapComplete, hcmd, htrip]

theorem restoreCore_core {k : Nat} {o : Core} (h : kfind (s.ctx c).saved k = some o) : (restoreCore c s k).core k =
    { s.core k with
      g := o.g, p := o.p, notes := o.notes, tint := o.tint, tper := o.tper, tdue := o.tdue
      tcount := o.tcount, cptr := o.cptr, mons := Vector.replicate 8 none, events := (s.core k).events ||| 0xFF00 } := by
  rw [restoreCore, h]
  exact State.core_modCore_same ..

end

/-! ### The clean-up of a context that has been killed (R263) -/

/-- No entry of the region table stands at a key. -/
def NoEntry (s : State) (k : Nat) : Prop := ∀ p ∈ s.regions, p.1 ≠ k

theorem mem_kput {α : Type} {m : KMap α} {k : Nat} {a : α} {p : Nat × α} (h : p ∈ kput m k a) : p.1 = k ∨ p ∈ m := by
  induction m with
  | nil =>
    obtain rfl := List.mem_singleton.mp h
    exact .inl rfl
  | cons e m ih =>
    simp only [kput] at h
    split_ifs at h
    · obtain rfl | h := List.mem_cons.mp h
      · exact .inl rfl
      · exact .inr h
    · obtain rfl | h := List.mem_cons.mp h
      · exact .inl rfl
      · exact .inr (List.mem_cons_of_mem _ h)
    · obtain rfl | h := List.mem_cons.mp h
      · exact .inr List.mem_cons_self
      · exact (ih h).imp_right (List.mem_cons_of_mem _)

/-- An entry that is found is still found once another key is gone. -/
theorem kfind_kdel_other {α : Type} {m : KMap α} {j k : Nat} {a : α} (h : kfind m k = some a) (hne : k ≠ j) :
    kfind (kdel m j) k = some a := by
  induction m with
  | nil => exact absurd h (by simp)
  | cons p m ih =>
    obtain ⟨i, b⟩ := p
    simp only [kfind] at h
    split_ifs at h with hi hlt
    · subst hi
      simp [kdel, hne, kfind, h]
    · have hrest := ih h
      by_cases hij : i = j
      · simpa [kdel, hij] using hrest
      · have hcons : kdel ((i, b) :: m) j = (i, b) :: kdel m j := by simp [kdel, hij]
        rw [hcons, kfind, if_neg hi, if_neg hlt, hrest]

section
variable {s : State} {k j : Nat}

theorem releaseRegion_regions {r : Region} (hr : s.region k = some r) :
    (releaseRegion s k).regions = kdel (failAllOwed s k).regions k := by
  have hrest (v : State) (x : Region) (n : Nat) :
      (blankTiles (dropStopped (voidPools v k x) r.die 0 n) r).regions = v.regions := rfl
  simp only [releaseRegion, hr]
  rw [hrest, (Untouched.discardCommands (failAllOwed s k) k).regions]

theorem mem_failAllOwed {p : Nat × Region} (h : p ∈ (failAllOwed s k).regions) : p.1 = k ∨ p ∈ s.regions := by
  have howed {p : Nat × Region} (h : p ∈ (failOwed s k).regions) : p.1 = k ∨ p ∈ s.regions := by
    unfold failOwed at h
    split at h
    · exact .inr h
    · rw [((Untouched.replyAll ..).trans (.replyAll ..)).regions] at h
      exact mem_kput h
  unfold failAllOwed at h
  dsimp only at h
  split at h
  · exact howed h
  · rw [(Untouched.replyAll ..).regions] at h
    exact (mem_kput h).elim .inl howed

theorem releaseRegion_noEntry (h : (s.region k).isSome = true) : NoEntry (releaseRegion s k) k := by
  obtain ⟨r, hr⟩ := Option.isSome_iff_exists.mp h
  intro p hp
  rw [releaseRegion_regions hr] at hp
  simpa using (List.mem_filter.mp hp).2

theorem NoEntry.releaseRegion (h : NoEntry s k) (j : Nat) : NoEntry (releaseRegion s j) k := by
  cases hr : s.region j with
  | none => rwa [Machine.releaseRegion, hr]
  | some r =>
    intro p hp
    rw [releaseRegion_regions hr] at hp
    obtain ⟨hmem, hne⟩ := List.mem_filter.mp hp
    exact h p ((mem_failAllOwed hmem).resolve_left (by simpa using hne))

theorem releaseRegion_present (h : (s.region k).isSome = true) (hne : k ≠ j) :
    ((releaseRegion s j).region k).isSome = true := by
  cases hr : s.region j with
  | none => rwa [releaseRegion, hr]
  | some r =>
    obtain ⟨q, hq⟩ := Option.isSome_iff_exists.mp (((Subsides.failAllOwed s j).present k).trans h)
    rw [State.region, releaseRegion_regions hr, kfind_kdel_other hq hne]
    rfl

/-- Regions released one after the other: none of them has an entry left. -/
theorem releaseRegions_noEntry {ks : List Nat} (hk : k ∈ ks) (h : (s.region k).isSome = true) :
    NoEntry (ks.foldl releaseRegion s) k := by
  have hkept (js : List Nat) {s : State} (h : NoEntry s k) : NoEntry (js.foldl releaseRegion s) k := by
    induction js generalizing s with
    | nil => exact h
    | cons j js ih => exact ih (h.releaseRegion j)
  induction ks generalizing s with
  | nil => exact absurd hk (by simp)
  | cons j ks ih =>
    by_cases hj : k = j
    · subst hj
      exact hkept ks (releaseRegion_noEntry h)
    · exact ih ((List.mem_cons.mp hk).resolve_left hj) (releaseRegion_present h hj)

/-- What the clean-up leaves of the regions. -/
theorem exec_ctxCleanupComplete_done {c : Nat} (hdead : (s.ctx c).state = .dead)
    (hregions : ∀ k ∈ ctxRegions s c, ∃ r, s.region k = some r ∧ r.stores = [])
    (hcores : ∀ k ∈ ctxCores s c, (s.core k).storeQ = []) (hshoot : ctxShooting s c = false) :
    ∃ t, exec (.ctxCleanupComplete c) s = .next t ∧ (t.ctx c).state = .free ∧ (t.ctx c).grants = Vector.replicate 4 {} ∧
      (t.ctx c).saved = [] ∧ ∀ k r, s.region k = some r → r.ctx = c → t.region k = none := by
  let u := (ctxRegions s c).foldl releaseRegion s
  let v := (ctxQueues u c).foldl killQueue u
  let w := (ctxCores v c).foldl freeCore v
  have hdone : exec (.ctxCleanupComplete c) s =
      .next (w.modCtx c fun x => { x with state := .free, grants := Vector.replicate 4 {}, saved := [] }) := by
    have hstores : ((ctxRegions s c).all fun k => (s.region k).all fun r => r.stores.isEmpty) = true := by
      refine List.all_eq_true.mpr fun k hk => ?_
      obtain ⟨r, hr, hnil⟩ := hregions k hk
      simp [hr, hnil]
    have hqueues : ((ctxCores s c).all fun k => (s.core k).storeQ.isEmpty) = true :=
      List.all_eq_true.mpr fun k hk => List.isEmpty_iff.mpr (hcores k hk)
    simp only [exec_ctxCleanupComplete, execCtxCleanupComplete, hstores, hqueues, hshoot, hdead]
    rfl
  have hregionsKept : w.regions = u.regions :=
    (foldl_keeps State.regions (f := freeCore) (fun _ _ => rfl) _ v).trans
      (foldl_keeps State.regions (f := killQueue) (fun _ _ => rfl) _ u)
  refine ⟨_, hdone, ?_, ?_, ?_, fun k r hr hc => ?_⟩
  · rw [State.ctx_modCtx_same]
  · rw [State.ctx_modCtx_same]
  · rw [State.ctx_modCtx_same]
  · have hgone : NoEntry u k := releaseRegions_noEntry (hc ▸ mem_ctxRegions hr) (Option.isSome_iff_exists.mpr ⟨r, hr⟩)
    exact (congrArg (kfind · k) hregionsKept).trans (kfind_eq_none hgone)

theorem exec_ctxCleanupComplete_waits {c : Nat} (h : (s.ctx c).state ≠ .dead) : exec (.ctxCleanupComplete c) s = .next s := by
  simp [exec_ctxCleanupComplete, execCtxCleanupComplete, h]

end

theorem contextLater : ContextLater :=
  ⟨fun _ _ => ctxFreezeComplete_cmd, fun _ _ => ctxFreezeComplete_trip, fun _ _ => ctxFreezeComplete_waits,
    fun _ _ => ctxFrozen_iff, fun _ _ _ => raiseCtxFault_raised,
    fun _ _ _ hf hq => ⟨ctxFault_frozen hf hq, ctxFault_running hf hq⟩, fun _ _ _ => ctxFault_at_work,
    fun _ _ => ctxFault_none, fun _ _ => swapComplete_out, fun _ _ => swapComplete_trip, fun _ _ => swapComplete_waits,
    fun _ _ => swapComplete_idle, fun _ _ => swapComplete_in, fun _ _ _ => State.ctx_modCtx_same ..,
    fun _ _ _ _ => restoreCore_core, fun _ _ => exec_ctxCleanupComplete_done, fun _ _ => exec_ctxCleanupComplete_waits⟩

/-- Settles O49, from `contextCommands` (a command that finds the unit idle begins at once, and is over or at work) and
`contextLater` (what ends the event at work). -/
theorem contextEvents : Obligations.ContextEvents := ⟨contextCommands, contextLater⟩

end Sys2Proof.Machine
end

section
/-! Queues, records, triggers and groups (R269 to R278, R294, R298, R332, R339, R378, R388, R399): O48. -/

namespace Sys2Proof.Machine

open Spec

/-! ### The commands of a queue (R270) -/

section
variable {s : State} {q : Nat}

theorem Queue.valid_iff (s : State) (u : Queue) : u.valid s = true ↔ 4 ≤ u.log2n.toNat ∧ u.log2n.toNat ≤ 16 ∧ u.psrc ≠ 3 ∧
    u.qbase.toNat % (64 * 2 ^ u.log2n.toNat) = 0 ∧ (s.ctx u.ctx.toNat).state ≠ .free := by
  simp only [Queue.valid, Queue.size, Bool.and_eq_true, decide_eq_true_eq, bne_iff_ne, beq_iff_eq, and_assoc]

theorem queueEnable_off (hoff : (s.queue q).state = .off) : exec (.queueEnable q) s = .next
    (if (s.queue q).valid s then s.setQueue q { s.queue q with
      state := .active, head := 0, tail := 0, resuse := 0, kinds := [], level := (s.ctx (s.queue q).ctx.toNat).level
      chainN := 0, chain := List.replicate 32 0, pulling := 0, disabling := false, refused := none, skips := [] }
    else s.setQueue q { s.queue q with ecode := 0x80 }) := by
  simp only [exec_queueEnable, execQueueEnable, enableQueue, hoff, bne_self_eq_false, Bool.false_eq_true, if_false]

theorem queueEnable_running (hoff : (s.queue q).state ≠ .off) : exec (.queueEnable q) s = .next s := by
  simp [exec_queueEnable, execQueueEnable, enableQueue, hoff]

/-- A queue that is not being disabled stands as it is. -/
theorem settleQueue_kept (h : (s.queue q).disabling = false) : settleQueue s q = s := by
  simp only [settleQueue, h, Bool.false_and, Bool.false_eq_true, if_false]

theorem queueDisable_off (hoff : (s.queue q).state = .off) : exec (.queueDisable q) s = .next s := by
  simp only [exec_queueDisable, execQueueDisable, disableQueue, hoff, if_true]

theorem queueDisable_started (hoff : (s.queue q).state ≠ .off) (hstarted : (s.queue q).started ≠ []) :
    exec (.queueDisable q) s = .next (s.setQueue q { s.queue q with disabling := true }) := by
  simp only [exec_queueDisable, execQueueDisable, disableQueue, if_neg hoff, settleQueue, State.queue_setQueue_same,
    Bool.true_and, List.isEmpty_iff, if_neg hstarted]

theorem queueDisable_idle (hoff : (s.queue q).state ≠ .off) (hstarted : (s.queue q).started = []) :
    ∃ t, exec (.queueDisable q) s = .next t ∧ t.queue q = { s.queue q with
      state := .off, disabling := false, kinds := [], resuse := 0, head := (s.queue q).tail, pulling := 0, retry := []
      failedRec := none, refused := none, skips := [] } := by
  refine ⟨_, rfl, ?_⟩
  simp only [disableQueue, if_neg hoff, settleQueue, State.queue_setQueue_same, Bool.true_and, hstarted, List.isEmpty_nil,
    if_true]

/-! #### RETRY and SKIP -/

theorem mem_putRetry {x y : Started} {l : List Started} : y ∈ putRetry x l ↔ y = x ∨ y ∈ l := by
  induction l with
  | nil => simp [putRetry]
  | cons z l ih =>
    simp only [putRetry]
    split
    · exact List.mem_cons
    · rw [List.mem_cons, ih, List.mem_cons, or_left_comm]

theorem putRetry_sorted {x : Started} {l : List Started} (h : l.Pairwise fun a b => a.index ≤ b.index) :
    (putRetry x l).Pairwise fun a b => a.index ≤ b.index := by
  induction l with
  | nil => simp [putRetry]
  | cons z l ih =>
    obtain ⟨hz, hl⟩ := List.pairwise_cons.mp h
    simp only [putRetry]
    split
    · next hlt =>
      refine List.pairwise_cons.mpr ⟨fun y hy => ?_, h⟩
      obtain rfl | hy := List.mem_cons.mp hy
      · exact hlt.le
      · exact hlt.le.trans (hz y hy)
    · next hge =>
      refine List.pairwise_cons.mpr ⟨fun y hy => ?_, ih hl⟩
      obtain rfl | hy := mem_putRetry.mp hy
      · exact not_lt.mp hge
      · exact hz y hy

theorem reissues_iff (s : State) (q : Nat) (f : Started) : reissues s q f = true ↔
    f.attempt = 1 ∧ (s.ctx (s.queue q).ctx.toNat).mode.getLsbD 1 = false ∧
      ∃ c, f.failed = some c ∧ (c = 6 ∨ c = 7 ∨ c = 8 ∨ c = 9 ∨ c = 0x0E) := by
  have hcode (c : BitVec 8) : retried c.toNat = true ↔ c = 6 ∨ c = 7 ∨ c = 8 ∨ c = 9 ∨ c = 0x0E := by
    simp only [retried, Bool.or_eq_true, beq_iff_eq, or_assoc, ← BitVec.toNat_inj]
    rfl
  simp only [reissues, Bool.and_eq_true, beq_iff_eq, Bool.not_eq_true', Option.any_eq_true, hcode, and_assoc]

variable {f : Started}

theorem queueRetry_halted (hstate : (s.queue q).state = .halted) (hf : (s.queue q).failedRec = some f) :
    let second := reissues s q f
    let v := if second = true then freeFailed s q else s
    let u := v.queue q
    let failed := (if u.tail.toNat - u.pulling ≤ f.index then [] else [f]) ++ u.started.filter fun x => x.failed.isSome
    exec (.queueRetry q) s = .next (settleQueue (v.setQueue q { u with
      state := .active, failedRec := none, started := u.started.filter fun x => x.failed.isNone
      retry := (failed.map fun x => x.again (second && x.attempt == 1)).foldl (fun l x => putRetry x l) u.retry }) q) := by
  simp only [exec_queueRetry, execQueueRetry, retryQueue, hstate, hf, Queue.toPull, decide_eq_true_eq]

theorem queueSkip_halted (hstate : (s.queue q).state = .halted) (hf : (s.queue q).failedRec = some f) :
    let u := s.queue q
    let w : Queue := if f.unstarted = false then u
      else if u.tail.toNat - u.pulling ≤ f.index then { u with pulling := u.pulling - 1, skips := f.index :: u.skips }
      else if f.index = u.head.toNat then u.pop else { u with skips := f.index :: u.skips }
    exec (.queueSkip q) s = .next (settleQueue (s.setQueue q { w with
      state := .active, failedRec := none, started := w.started.filter fun x => x.failed.isNone
      retry := ((w.started.filter fun x => x.failed.isSome).map fun x => x.again false).foldl (fun l x => putRetry x l)
        w.retry }) q) := by
  simp only [exec_queueSkip, execQueueSkip, skipQueue, hstate, hf, Queue.toPull, decide_eq_true_eq, Bool.not_eq_true']

theorem queueRetry_other (hstate : (s.queue q).state ≠ .halted) : exec (.queueRetry q) s = .next s := by
  rw [exec_queueRetry, execQueueRetry, retryQueue]
  split
  · next h _ => exact absurd h hstate
  · next h _ => exact absurd h hstate
  · rfl

theorem queueSkip_other (hstate : (s.queue q).state ≠ .halted) : exec (.queueSkip q) s = .next s := by
  rw [exec_queueSkip, execQueueSkip, skipQueue]
  split
  · next h _ => exact absurd h hstate
  · next h _ => exact absurd h hstate
  · rfl

/-! #### Tail writes and the copies they start (R271, R339, R399) -/

/-- What a tail write must meet to be taken. -/
def TailOk (u : Queue) (src : TailSource) (tail : BitVec 64) : Prop :=
  u.state ≠ .off ∧ (match src with
    | .host => u.psrc = 1
    | .module m => u.psrc = 2 ∧ u.pmod.toNat = m) ∧
    u.tail.toNat < tail.toNat ∧ tail.toNat - u.tail.toNat ≤ u.sharedFree

variable {src : TailSource} {tail : BitVec 64}

/-- The test of the model. -/
theorem tailOk_iff {u : Queue} : TailOk u src tail ↔ ¬(u.state == .off || !(match src with
      | .host => u.psrc == 1
      | .module m => u.psrc == 2 && u.pmod.toNat == m) ||
    decide (tail.toNat ≤ u.tail.toNat) || decide (u.sharedFree < tail.toNat - u.tail.toNat)) = true := by
  cases src <;> simp [TailOk, and_assoc]

theorem tailWrite_taken (hok : TailOk (s.queue q) src tail) :
    let u := s.queue q
    let n := tail.toNat - u.tail.toNat
    exec (.tailWrite src q tail) s = .next (pullRecords q (u.pulling + n) (s.setQueue q { u with
        tail := tail, kinds := u.kinds ++ List.replicate n none, pulling := u.pulling + n })) := by
  intro u n
  rw [exec_tailWrite, execTailWrite]
  refine congrArg _ ((if_neg (tailOk_iff.mp hok)).trans ?_)
  rw [BitVec.ofNat_toNat, BitVec.setWidth_eq]

theorem tailWrite_ignored (hno : ¬TailOk (s.queue q) src tail) :
    exec (.tailWrite src q tail) s = .next (s.setQueue q { s.queue q with
        errcnt := if (s.queue q).errcnt = BitVec.allOnes 16 then (s.queue q).errcnt else (s.queue q).errcnt + 1 }) :=
  congrArg _ (if_pos (not_not.mp (mt tailOk_iff.mpr hno)))

theorem pullRecords_host {n : Nat} (hpull : (s.queue q).pulling ≠ 0) (hheld : queueHeld s q = false)
    (hsrc : (s.queue q).psrc = 1) :
    let u := s.queue q
    let i := u.tail.toNat - u.pulling
    let d := drawNat s
    (d.1 % 2 = 1 → pullRecords q (n + 1) s = haltQueue d.2 q i 6) ∧
    (d.1 % 2 = 0 → ∀ w t,
      qWrite d.2 q (u.slotVa i) (s.host.reads ((u.pbase.toNat + 64 * (i % 2 ^ u.log2n.toNat)) % 2 ^ 64) 64) = (.bytes w, t) →
      pullRecords q (n + 1) s = pullRecords q n (t.modQueue q fun u => { u with pulling := u.pulling - 1 })) := by
  intro u i d
  have hgo : ¬((s.queue q).pulling = 0 ∨ queueHeld s q = true) := by simp [hpull, hheld]
  constructor
  · intro hodd
    have hgot (pa : Nat) : hostRecord s pa = (.fault 6 pa, d.2) := congrArg (·, d.2) (if_pos hodd)
    rw [pullRecords]
    simp only [if_neg hgo, hsrc, if_true, hgot, engineFault]
    exact if_neg (by decide)
  · intro heven w t hw
    have hgot (pa : Nat) : hostRecord s pa = (.bytes (s.host.reads pa 64), d.2) :=
      congrArg (·, d.2) (if_neg fun hodd : d.1 % 2 = 1 => by omega)
    rw [pullRecords]
    simp only [if_neg hgo, hsrc, if_true, hgot, Queue.size]
    rw [hw]

end

theorem queueCommands : QueueCommands := by
  unfold QueueCommands
  refine ⟨fun s q => ⟨fun hoff hvalid => ?_, fun hoff hvalid => ?_, queueEnable_running, Queue.valid_iff s _⟩,
    fun s q => ⟨queueDisable_off, queueDisable_started, queueDisable_idle⟩, fun s q f => queueRetry_halted,
    fun x l => ⟨fun y => mem_putRetry, putRetry_sorted⟩, reissues_iff, fun s q f => queueSkip_halted,
    fun s q h => ⟨queueRetry_other h, queueSkip_other h⟩, fun s q src tail => ⟨tailWrite_taken, tailWrite_ignored⟩,
    fun s q n => pullRecords_host⟩
  · rw [queueEnable_off hoff, if_pos hvalid]
  · rw [queueEnable_off hoff, if_neg (by simp [hvalid])]

/-! ### The heads of the queues of a die (R272 to R274) -/

/-- A head that the engine deals with first: it is malformed, or its own access faults. -/
def HeadState.Bad (h : HeadState) : Prop := ∃ st, h = .malformed st ∨ ∃ c a, h = .fault st c a

theorem not_bad {h : HeadState} (hgood : ∀ st, h ≠ .malformed st ∧ ∀ c a, h ≠ .fault st c a) : ¬h.Bad := by
  rintro ⟨st, h | ⟨c, a, h⟩⟩
  · exact (hgood st).1 h
  · exact (hgood st).2 c a h

section
variable {p : Nat × HeadState → Bool} (hp : ∀ h, p h = true ↔ h.2.Bad) {hs : List (Nat × HeadState)}
include hp

theorem find_bad_none (hgood : ∀ h ∈ hs, ∀ st, h.2 ≠ .malformed st ∧ ∀ c a, h.2 ≠ .fault st c a) : hs.find? p = none :=
  List.find?_eq_none.mpr fun h hh => mt (hp h).mp (not_bad (hgood h hh))

theorem find_bad_first {pre post : List (Nat × HeadState)} {q : Nat} {st : Started} (hhs : hs = pre ++ (q, .malformed st) :: post)
    (hgood : ∀ h ∈ pre, ∀ st, h.2 ≠ .malformed st ∧ ∀ c a, h.2 ≠ .fault st c a) : hs.find? p = some (q, .malformed st) := by
  rw [List.find?_eq_some_iff_append]
  refine ⟨(hp _).mpr ⟨st, .inl rfl⟩, pre, post, hhs, fun h hh => ?_⟩
  rw [Bool.not_eq_true', Bool.eq_false_iff]
  exact mt (hp h).mp (not_bad (hgood h hh))

end

section
variable {s : State} {q : Nat} {st : Started}

/-- The copies of a die's queues as far as they go, and what SKIP has completed off their rings. -/
def headsBrought (s : State) (die : Nat) : State :=
  ((s.queues.filter fun p => p.2.hdie.toNat == die).map Prod.fst).foldl
    (fun s q => (pullRecords q (s.queue q).pulling s).modQueue q fun u => u.dropSkipped u.skips.length) s

/-- Its heads judged. -/
def headsJudged (s : State) (die : Nat) : List (Nat × HeadState) × State :=
  judgeHeads (fromPointer (kget (headsBrought s die).qptr die 0)
    ((s.queues.filter fun p => p.2.hdie.toNat == die).map Prod.fst)) (headsBrought s die)

theorem recordStart_all_good {die : Nat}
    (hgood : ∀ h ∈ (headsJudged s die).1, ∀ st, h.2 ≠ .malformed st ∧ ∀ c a, h.2 ≠ .fault st c a) :
    exec (.recordStart die) s =
      .next (startFirst die (byPrio ((headsJudged s die).1.filterMap readyOf)) (headsJudged s die).2) := by
  rw [exec_recordStart, execRecordStart]
  dsimp only
  generalize hj : judgeHeads _ _ = j
  obtain rfl : headsJudged s die = j := hj
  rw [find_bad_none (hs := (headsJudged s die).1) ?_ hgood]
  rintro ⟨q, h⟩
  cases h <;> simp [HeadState.Bad]

theorem recordStart_malformed {die : Nat} {pre post : List (Nat × HeadState)}
    (hheads : (headsJudged s die).1 = pre ++ (q, .malformed st) :: post)
    (hgood : ∀ h ∈ pre, ∀ st, h.2 ≠ .malformed st ∧ ∀ c a, h.2 ≠ .fault st c a) :
    exec (.recordStart die) s =
      .next (haltAtHead (headsJudged s die).2 q st (queueErr (headsJudged s die).2 q 0x80)) := by
  rw [exec_recordStart, execRecordStart]
  dsimp only
  generalize hj : judgeHeads _ _ = j
  obtain rfl : headsJudged s die = j := hj
  rw [find_bad_first (hs := (headsJudged s die).1) ?_ hheads hgood]
  rintro ⟨q, h⟩
  cases h <;> simp [HeadState.Bad]

theorem prio_lt (b : Rec) : Rec.prio b < 4 := Nat.mod_lt _ (by decide)

theorem mem_byPrio {l : List (Nat × Started)} {x : Nat × Started} : x ∈ byPrio l ↔ x ∈ l := by
  simp [byPrio, prio_lt]

theorem byPrio_sorted (l : List (Nat × Started)) :
    (byPrio l).Pairwise fun a b => Rec.prio a.2.record ≤ Rec.prio b.2.record := by
  refine List.pairwise_flatMap.mpr ⟨fun p _ => ?_, ?_⟩
  · refine List.Pairwise.imp_of_mem (R := fun _ _ => True) (fun ha hb _ => ?_) (List.pairwise_of_forall (by simp))
    have ha := (List.mem_filter.mp ha).2
    have hb := (List.mem_filter.mp hb).2
    exact le_of_eq ((beq_iff_eq.mp ha).trans (beq_iff_eq.mp hb).symm)
  · refine List.pairwise_lt_range.imp fun {p p'} hlt a ha b hb => ?_
    have ha := beq_iff_eq.mp (List.mem_filter.mp ha).2
    have hb := beq_iff_eq.mp (List.mem_filter.mp hb).2
    omega

theorem waitHolds_iff (c v : Nat) : waitHolds c v = true ↔ 0 ≤ (BitVec.ofNat 32 c - BitVec.ofNat 32 v).toInt := by
  have hsub : BitVec.ofInt 32 ((c : Int) - v) = BitVec.ofNat 32 c - BitVec.ofNat 32 v := by
    refine BitVec.eq_of_toInt_eq ?_
    simp [BitVec.toInt_sub, BitVec.toInt_ofNat']
  rw [waitHolds, decide_eq_true_eq, wrap_eq_toNat_ofInt, toSigned_eq _ (by decide), hsub]

/-! #### One head -/

theorem judgeHead_malformed (h : recordOk (max (s.queue q).level.toNat (s.ctx (s.queue q).ctx.toNat).level.toNat) st.record =
    false) : judgeHead s q st = (.malformed st, s) := by
  simp only [judgeHead, Queue.floor, h, Bool.not_false, if_true]

section
variable (hok : recordOk (max (s.queue q).level.toNat (s.ctx (s.queue q).ctx.toNat).level.toNat) st.record = true) {v : State}
include hok

theorem judgeHead_low (himage : imageLow s q st.record = (some true, v)) : judgeHead s q st = (.malformed st, v) := by
  simp only [judgeHead, Queue.floor, hok, Bool.not_true, Bool.false_eq_true, if_false, himage]

variable (himage : imageLow s q st.record = (some false, v))
include himage

theorem judgeHead_ready (h0 : Rec.wait0 st.record = 0) (h1 : Rec.wait1 st.record = 0)
    (htype : Rec.type st.record = 0 ∨ Rec.type st.record = 5) (hstages : Rec.stages st.record < 2) :
    judgeHead s q st = (.ready st, v) := by
  have hall : Rec.waitsForAll st.record = false := by rcases htype with h | h <;> simp [Rec.waitsForAll, h]
  simp only [judgeHead, Queue.floor, hok, Bool.not_true, Bool.false_eq_true, if_false, himage, headWait, h0, h1, if_true,
    hall, Bool.false_and, not_le.mpr hstages, and_false]

theorem judgeHead_waiting (h0 : Rec.wait0 st.record ≠ 0) {w : List Byte} {u : State}
    (hread : qRead v q (Rec.wait0 st.record) 4 = (.bytes w, u)) (hwait : waitHolds (natOf w) (Rec.wv0 st.record) = false) :
    judgeHead s q st = (.waiting, u) := by
  simp only [judgeHead, Queue.floor, hok, Bool.not_true, Bool.false_eq_true, if_false, himage, headWait, if_neg h0, hread, hwait]

end

theorem imageLow_plain {b : Rec} (h : Rec.type b ≠ 0 ∨ Rec.level b = 0) : imageLow s q b = (some false, s) := if_pos h

theorem imageLow_read {b : Rec} (htype : Rec.type b = 0) (hlevel : Rec.level b ≠ 0) {h : List Byte} {u : State}
    (hread : qRead s q (Rec.p0 b) 64 = (.bytes h, u)) :
    imageLow s q b = (some (decide ((headerOf h).level < Rec.level b)), u) := by
  simp [imageLow, htype, hlevel, hread]

/-! ### Records that start (R274 to R277) -/

theorem startRecord_barrier (h : Rec.type st.record = 1 ∨ Rec.type st.record = 2) :
    startRecord s q st = takeStarted s q { st with done := true } := by
  rcases h with h | h <;> simp [startRecord, h]

theorem startRecord_level (h : Rec.type st.record = 3) : startRecord s q st =
    (takeStarted s q { st with done := true }).modQueue q fun u => { u with level := BitVec.ofNat 2 (Rec.level st.record) } := by
  simp [startRecord, h]

section
variable (htype : Rec.type st.record = 0) (hstages : Rec.stages st.record < 2) (hgroup : st.group = [])
  {img : List Byte} {u : State} (himg : recordImage s q st.record = (.bytes img, u))
include htype hstages hgroup himg

theorem startRecord_noPlace {die : Nat} (hfind : findRegion u (u.queue q).ctx.toNat st.record img = .noPlace die) :
    startRecord s q st = refusePlace u q st.index die := by
  simp only [startRecord, htype, hgroup, hstages, and_self, if_true, startLaunch, himg, hfind]

variable {m : Member} {v : State} (hfind : findRegion u (u.queue q).ctx.toNat st.record img = .at m v)
include hfind

theorem startRecord_loaded {im : Image} {w : State} (hload : loadMember v m = (.ok im, w)) :
    let p := primeRecord w q st.index m.key st.record im
    startRecord s q st = takeStarted p.1 q { st with region := some m.key, step := p.2 } := by
  simp only [startRecord, htype, hgroup, hstages, and_self, if_true, startLaunch, himg, hfind, hload]

theorem startRecord_refused {x : Refuse} {w : State} (hload : loadMember v m = (.error x, w)) :
    startRecord s q st = failHead (writeRefusal (giveBack w m) (w.queue q).hdie.toNat (u.queue q).ctx.toNat
      (Rec.p2 st.record) x) q st (queueErr w q 0x81) := by
  simp only [startRecord, htype, hgroup, hstages, and_self, if_true, startLaunch, himg, hfind, hload]

end

/-! ### Records that complete (R275, R276) -/

theorem mayComplete_other {u : Queue} (hlevel : st.level = 0) (htype : Rec.type st.record ≠ 0) : mayComplete u st = true := by
  simp [mayComplete, hlevel, htype]

theorem mayComplete_launch {u : Queue} (hlevel : st.level = 0) (htype : Rec.type st.record = 0) (hrec : Rec.level st.record = 0) :
    mayComplete u st = true ↔ Rec.stages st.record < 2 ∨ st.group ≠ [] ∨ u.holdsIndex (st.index - 1) = false := by
  simp [mayComplete, hlevel, htype, hrec, or_assoc]

theorem mayComplete_ordered {u : Queue} (h : st.level ≠ 0 ∨ (Rec.type st.record = 0 ∧ Rec.level st.record ≠ 0)) :
    mayComplete u st = earlierDone u st.index := by
  obtain h | ⟨htype, hrec⟩ := h
  · have hlevel : (st.level == 0) = false := beq_eq_false_iff_ne.mpr h
    simp only [mayComplete, hlevel, Bool.false_and, Bool.false_eq_true, if_false]
  · simp [mayComplete, htype, hrec]

section
variable {i : Nat} (hst : startedAt s q i = some st) (hheld : queueHeld s q = false) (hfailed : st.failed = none)
include hst hheld hfailed

section
variable (hdone : st.done = true)
include hdone

theorem recordComplete_done (hmay : mayComplete (s.queue q) st = true) {bs : List Byte} {u : State}
    (hsig : signal s q st.record = (.bytes bs, u)) :
    exec (.recordComplete q i) s = .next (finishRecord (u.modQueue q fun x => chainEntry x st) q st) := by
  simp [exec_recordComplete, execRecordComplete, hst, hheld, hfailed, hdone, hmay, hsig]

theorem recordComplete_early (hmay : mayComplete (s.queue q) st = false) : exec (.recordComplete q i) s = .next s := by
  simp [exec_recordComplete, execRecordComplete, hst, hheld, hfailed, hdone, hmay]

end

variable (hdone : st.done = false)
include hdone

theorem recordComplete_copy (htype : Rec.type st.record = 5) {bs z : List Byte} {w t : State}
    (hread : unitRead s (s.queue q).hdie.toNat (s.queue q).ctx.toNat (queueWaiter q) (Rec.p0 st.record + st.pos : Int)
      (min 32 (Rec.p2 st.record - st.pos)) = (.bytes bs, w))
    (hwrite : unitWrite w (s.queue q).hdie.toNat (s.queue q).ctx.toNat (Rec.p1 st.record + st.pos : Int) bs true =
      (.bytes z, t)) :
    let n := min 32 (Rec.p2 st.record - st.pos)
    exec (.recordComplete q i) s = .next (modStarted t q st.index fun x => { x with
      pos := x.pos + n, done := decide (Rec.p2 st.record ≤ x.pos + n) }) := by
  simp only [exec_recordComplete, execRecordComplete, hst, hheld, hfailed, hdone, htype, copyStep, hread, hwrite,
    Option.isSome_none, Bool.or_self, Bool.false_eq_true, if_false, Bool.not_false, if_true]

theorem recordComplete_digest (htype : Rec.type st.record = 6) {x y : List Byte} {v w : State}
    (hchain : qWrite s q (Rec.p0 st.record) (s.queue q).chain = (.bytes x, v))
    (hcount : qWrite v q (Rec.p1 st.record) (byteList 8 (s.queue q).chainN) = (.bytes y, w)) :
    exec (.recordComplete q i) s = .next (modStarted w q st.index fun x => { x with done := true }) := by
  simp only [exec_recordComplete, execRecordComplete, hst, hheld, hfailed, hdone, htype, digestStep, hchain, hcount,
    Option.isSome_none, Bool.or_self, Bool.false_eq_true, if_false, Bool.not_false, if_true]
  exact congrArg _ (if_neg (by decide))

end

theorem signal_none {b : Rec} (h : Rec.sig b = 0) : signal s q b = (.bytes [], s) := if_pos h

theorem signal_word {b : Rec} (h : Rec.sig b ≠ 0) {w : List Byte} {u : State}
    (hread : qRead s q (Rec.sig b) 4 = (.bytes w, u)) :
    signal s q b = qWrite u q (Rec.sig b) (byteList 4 ((natOf w + 1) % 2 ^ 32)) := by
  simp only [signal, if_neg h, hread]

theorem finishRecord_first (hattempt : st.attempt ≠ 2) (hdisabling : (s.queue q).disabling = false) :
    finishRecord s q st =
      s.setQueue q { s.queue q with started := (s.queue q).started.filter fun x => x.index != st.index } := by
  have hnote : finishRecord s q st = settleQueue (s.modQueue q fun u =>
      { u with started := u.started.filter fun x => x.index != st.index }) q := by
    rw [finishRecord]
    split
    · next h _ => exact absurd h hattempt
    · rfl
  rw [hnote, settleQueue_kept (by rw [State.queue_modQueue_same, hdisabling])]
  rfl

/-! ### The engine's own faults (R399) -/

theorem queueEngineFault_held (h : queueHeld s q = true) : exec (.queueEngineFault q) s = .next s := by
  simp only [exec_queueEngineFault, execQueueEngineFault, h, if_true]

theorem queueEngineFault_taken {c a : Nat} {u : State} (hheld : queueHeld s q = false)
    (hhead : headOf (pullRecords q (s.queue q).pulling s) q = (.fault st c a, u)) :
    exec (.queueEngineFault q) s =
      .next (if c = 1 ∨ c = 2 then queueFault u q st c a false else haltAtHead u q st (queueErr u q c)) := by
  simp only [exec_queueEngineFault, execQueueEngineFault, hheld, Bool.false_eq_true, if_false, hhead]

end

theorem recordsRun : RecordsRun := by
  unfold RecordsRun
  refine ⟨fun s die => ⟨recordStart_all_good, fun pre q st post => recordStart_malformed⟩,
    fun l => ⟨byPrio_sorted l, fun x => mem_byPrio⟩, waitHolds_iff, fun s q st => ⟨judgeHead_malformed,
      fun hok v => judgeHead_low hok, fun hok v => judgeHead_ready hok, fun hok v w u himage h0 => judgeHead_waiting hok himage h0⟩,
    fun s q b => ⟨imageLow_plain, fun ht hl h u => imageLow_read ht hl⟩, fun s q st => startRecord_barrier,
    fun s q st => startRecord_level, fun s q st img u ht hs hg hi => ⟨fun die => startRecord_noPlace ht hs hg hi,
      fun m v hf => ⟨fun im w => startRecord_loaded ht hs hg hi hf, fun x w => startRecord_refused ht hs hg hi hf⟩⟩,
    fun u st => ⟨mayComplete_other, mayComplete_launch, mayComplete_ordered⟩,
    fun s q i st bs u hst hheld hfailed hdone hmay => recordComplete_done hst hheld hfailed hdone hmay,
    fun s q i st => recordComplete_early, fun s q b => ⟨signal_none, fun h w u => signal_word h⟩,
    fun s q st => finishRecord_first,
    fun s q i st hst hheld hfailed hdone => ⟨fun ht bs w z t => recordComplete_copy hst hheld hfailed hdone ht,
      fun ht x y v w => recordComplete_digest hst hheld hfailed hdone ht⟩, fun s q => queueEngineFault_held,
    fun s q st c a u hheld hhead => ⟨fun hc => ?_, fun h1 h2 => ?_⟩⟩
  · rw [queueEngineFault_taken hheld hhead, if_pos hc, queueFault]
    exact congrArg _ (if_pos hc)
  · rw [queueEngineFault_taken hheld hhead, if_neg (by simp [h1, h2])]

/-! ### Triggers (R278) -/

section
variable {s : State} {bk : Nat} {t : Trigger}

section
variable (ht : kfind s.triggers bk = some t)
include ht

theorem triggerFire_none (hfired : t.fired = 0) : exec (.triggerFire bk) s = .next s := by
  simp only [exec_triggerFire, execTriggerFire, ht, hfired, if_true]

theorem triggerFire_pending (hfired : t.fired ≠ 0) (hpending : 0 < t.pending) :
    exec (.triggerFire bk) s = .next (setTrigger s bk ({ t with fired := t.fired - 1 } : Trigger).latch) := by
  simp only [exec_triggerFire, execTriggerFire, ht, if_neg hfired, if_pos hpending]

theorem triggerFire_sent (hfired : t.fired ≠ 0) (hpending : t.pending = 0) {u : State}
    (hsent : deliverTrigger s (bk / 256) t = .sent u) :
    exec (.triggerFire bk) s = .next (setTrigger u bk { t with fired := t.fired - 1 }) := by
  simp only [exec_triggerFire, execTriggerFire, ht, if_neg hfired, hpending, lt_irrefl, if_false, hsent]

theorem triggerFire_latched (hfired : t.fired ≠ 0) (hpending : t.pending = 0)
    (hsent : deliverTrigger s (bk / 256) t = .none) :
    exec (.triggerFire bk) s = .next (setTrigger s bk ({ t with fired := t.fired - 1 } : Trigger).latch) := by
  simp only [exec_triggerFire, execTriggerFire, ht, if_neg hfired, hpending, lt_irrefl, if_false, hsent]

theorem triggerPending_sent (hpending : t.pending ≠ 0) {u : State} (hsent : deliverTrigger s (bk / 256) t = .sent u) :
    exec (.triggerPendingDelivery bk) s = .next (setTrigger u bk { t with pending := t.pending - 1 }) := by
  simp only [exec_triggerPendingDelivery, execTriggerPendingDelivery, ht, if_neg hpending, hsent]

theorem triggerPending_noSlot (hpending : t.pending ≠ 0) (hsent : deliverTrigger s (bk / 256) t = .none) :
    exec (.triggerPendingDelivery bk) s = .next s := by
  simp only [exec_triggerPendingDelivery, execTriggerPendingDelivery, ht, if_neg hpending, hsent]

theorem triggerPending_none (hpending : t.pending = 0) : exec (.triggerPendingDelivery bk) s = .next s := by
  simp only [exec_triggerPendingDelivery, execTriggerPendingDelivery, ht, hpending, if_true]

end

theorem Trigger.counterHolds_eq (m : Mem) (hwpa : t.wpa < 2 ^ 46) :
    t.counterHolds m = waitHolds (natOf (m.reads t.wpa 4)) (t.val.toNat % 2 ^ 32) := by
  simp only [Trigger.counterHolds, decide_eq_true hwpa, Bool.true_and, bits, pow_zero, Nat.div_one]

/-- What a binding sees of a write to its word. -/
theorem Trigger.noteWrite_overlap {pa len : Nat} {was : Nat → Bool} {filled : Bool} {m : Mem} (hbound : t.bound = true)
    (hlo : pa < t.wpa + 4) (hhi : t.wpa < pa + len) : t.noteWrite pa len was filled m =
      if t.kind = 0 then (if filled && !was t.wpa then { t with fired := t.fired + 1 } else t)
      else if t.kind = 2 ∧ !t.spent ∧ t.counterHolds m then t.fireOnce else t := by
  simp only [Trigger.noteWrite, hbound, overlaps, decide_eq_true hlo, decide_eq_true hhi, Bool.and_self, Bool.not_true,
    Bool.or_self, Bool.false_eq_true, if_false]

theorem Trigger.noteWrite_cases {pa len : Nat} {was : Nat → Bool} {filled : Bool} {m : Mem} (hbound : t.bound = true)
    (hlo : pa < t.wpa + 4) (hhi : t.wpa < pa + len) :
    let u := t.noteWrite pa len was filled m
    (t.kind = 0 → u = if filled = true ∧ was t.wpa = false then { t with fired := t.fired + 1 } else t) ∧
    (t.kind = 2 → t.spent = false → t.wpa < 2 ^ 46 →
      u = if waitHolds (natOf (m.reads t.wpa 4)) (t.val.toNat % 2 ^ 32) = true then { t with fired := t.fired + 1, spent := true }
        else t) ∧
    (t.kind = 2 → t.spent = true → u = t) := by
  intro u
  have hu := noteWrite_overlap (was := was) (filled := filled) (m := m) hbound hlo hhi
  have h20 : ¬(2 : BitVec 2) = 0 := by decide
  refine ⟨fun hkind => hu.trans ?_, fun hkind hspent hwpa => hu.trans ?_, fun hkind hspent => hu.trans ?_⟩
  · simp only [hkind, if_true, Bool.and_eq_true, Bool.not_eq_true']
  · simp only [hkind, h20, if_false, hspent, Bool.not_false, true_and, counterHolds_eq m hwpa, fireOnce]
  · simp [hkind, hspent]

theorem Trigger.look_well (hbound : t.bound = true) (hspent : t.spent = false) (hkind : t.kind = 1) : t.look s =
    if t.val.toNat ≤ (s.well t.well.toNat).head then { t with fired := t.fired + 1, spent := true } else t := by
  simp [Trigger.look, Trigger.holds, Trigger.fireOnce, hbound, hspent, hkind]

theorem Trigger.look_counter (hbound : t.bound = true) (hspent : t.spent = false) (hkind : t.kind = 2) (hwpa : t.wpa < 2 ^ 46) :
    t.look s = if waitHolds (natOf (s.mem.reads t.wpa 4)) (t.val.toNat % 2 ^ 32) = true
      then { t with fired := t.fired + 1, spent := true } else t := by
  simp [Trigger.look, Trigger.holds, Trigger.fireOnce, hbound, hspent, hkind, Trigger.counterHolds_eq _ hwpa]

theorem Trigger.latch_counts (h : t.pending < 2 ^ 32 - 1) : t.latch = { t with pending := t.pending + 1 } := if_neg h.ne

theorem Trigger.latch_overflows (h : t.pending = 2 ^ 32 - 1) : t.latch = { t with overflow := true } := if_pos h

theorem deliverTrigger_sent {c : Nat} {b : List Byte} {v u : State} (hhandler : t.handler = true)
    (hworks : ctxWorks s c = true) (hsrc : (s.queue t.queue.toNat).psrc = 0) (hoff : (s.queue t.queue.toNat).state ≠ .off)
    (hread : unitRead s (s.queue t.queue.toNat).hdie.toNat c (queueWaiter t.queue.toNat) t.recva.toNat 64 = (.bytes b, v))
    (henq : enqRecord v t.queue.toNat b = .done u) : deliverTrigger s c t = .sent u := by
  simp only [deliverTrigger, hhandler, hworks, hsrc, bne_self_eq_false, beq_eq_false_iff_ne.mpr hoff, Bool.not_true,
    Bool.or_self, Bool.false_eq_true, if_false, hread, henq]

end

theorem triggersFire : TriggersFire := by
  unfold TriggersFire
  exact ⟨fun s bk t ht hfired => ⟨triggerFire_pending ht hfired, fun hp u => triggerFire_sent ht hfired hp,
      triggerFire_latched ht hfired⟩, fun s bk t => triggerFire_none,
    fun pa len was filled m t => Trigger.noteWrite_cases,
    fun s t hbound hspent => ⟨Trigger.look_well hbound hspent, Trigger.look_counter hbound hspent⟩,
    fun s die ctx k d => ⟨_, rfl, rfl, rfl, rfl, rfl, rfl⟩, fun t => ⟨Trigger.latch_counts, Trigger.latch_overflows⟩,
    fun s bk t ht hp => ⟨fun u => triggerPending_sent ht hp, triggerPending_noSlot ht hp⟩, fun s bk t => triggerPending_none,
    fun s c t b v u => deliverTrigger_sent⟩

/-! ### Groups (R294, R298) -/

section
variable {s : State} {gid : Nat} {g : Group} (hg : kfind s.groups gid = some g)
include hg

/-- The members of a group with the records they were launched for. -/
theorem groupLaunch_primed : let ms := g.members.filterMap fun k => (s.region k).map fun r => (k, r)
    let recs := ms.filterMap fun m => (recordOf s m.2).map fun x => (m.1, m.2, x.2)
    g.state = .forming → queueHeld s g.queue = false → recs.length = g.members.length →
    (∀ m ∈ recs, m.2.1.kernel = .primed ∧ m.2.1.priming = none) → ∀ bs u,
    zeroBlocks (recs.map fun m => (m.2.1, Rec.p2 m.2.2.record)) s = (.bytes bs, u) →
    let v := recs.foldl (fun s m => modStarted (releaseKernel s m.1 (launchOf g.queue m.2.2.index m.2.2.record)) g.queue
      m.2.2.index fun x => { x with step := 2 }) u
    let w := match g.step with
      | some b => setStepBarrier v (v.queue g.queue).ctx.toNat b (ms.map Prod.snd)
      | none => v
    exec (.groupLaunch gid) s = .next { w with groups := kput w.groups gid { g with state := .running } } := by
  intro ms recs hforming hheld hlen hprimed bs u hzero
  have hall : recs.all (fun m => m.2.1.kernel == .primed && m.2.1.priming.isNone) = true :=
    List.all_eq_true.mpr fun m hm => by simp [hprimed m hm]
  have hgo : ¬(g.state != .forming || queueHeld s g.queue || recs.length != g.members.length
      || !recs.all fun m => m.2.1.kernel == .primed && m.2.1.priming.isNone) = true := by
    rw [hall, hheld, hlen, hforming]
    simp
  simp only [exec_groupLaunch, execGroupLaunch, hg]
  rw [if_neg hgo, hzero] <;> rfl

theorem groupLaunch_running (hstate : g.state ≠ .forming) : exec (.groupLaunch gid) s = .next s := by
  simp [exec_groupLaunch, execGroupLaunch, hg, hstate]

theorem settleGroup_draining (hstate : g.state = .running ∨ g.state = .stepping)
    (hleft : (allMembers s g fun r => r.kernel != .firing) = true)
    (hended : (allMembers s g fun r => r.kernel == .retired || r.kernel == .resident) = false) :
    settleGroup s gid = { s with groups := kput s.groups gid { g with state := .draining } } := by
  have hforming : ¬g.state = .forming := by rcases hstate with h | h <;> simp [h]
  have hdrains : (g.state == .running || g.state == .stepping) = true := by rcases hstate with h | h <;> simp [h]
  simp only [settleGroup, hg, hleft, hended, hforming, hdrains, Bool.and_self, Bool.false_eq_true, if_false, if_true]

end

theorem groupsLaunch : GroupsLaunch :=
  ⟨fun _ _ _ => groupLaunch_primed, fun _ _ _ => groupLaunch_running, fun _ _ _ => settleGroup_draining⟩

/-- Settles O48, from `queueCommands`, `recordsRun`, `triggersFire` and `groupsLaunch`: each a case of the model's function
with the tests that lead to it decided. -/
theorem queueEvents : Obligations.QueueEvents := ⟨queueCommands, recordsRun, triggersFire, groupsLaunch⟩

end Sys2Proof.Machine
end

section
/-! Well frames, candidates and claims (R341 to R346, R348, R349, R351 to R360): O52. -/

namespace Sys2Proof.Machine

open Spec

/-! ### Fields of bytes -/

/-- A number of two runs of bytes. -/
theorem natOf_append (xs ys : List Byte) : natOf (xs ++ ys) = natOf xs + 2 ^ (8 * xs.length) * natOf ys := by
  induction xs with
  | nil => simp [natOf, wordOfBytes]
  | cons x xs ih =>
    rw [List.cons_append, natOf_cons, ih, natOf_cons, List.length_cons, Nat.mul_add 8, pow_add]
    ring

theorem field_lt (b : List Byte) (o n : Nat) : Machine.field b o n < 2 ^ (8 * n) := by
  refine (natOf_lt _).trans_le (Nat.pow_le_pow_right (by decide) ?_)
  simp only [List.length_take]
  omega

/-- A field cut in two. -/
theorem field_add (b : List Byte) (o m n : Nat) :
    Machine.field b o (m + n) = Machine.field b o m + 2 ^ (8 * m) * Machine.field b (o + m) n := by
  simp only [Machine.field, List.take_add, List.drop_drop]
  rw [natOf_append]
  by_cases h : m ≤ (b.drop o).length
  · rw [List.length_take_of_le h]
  · have hnil : b.drop (o + m) = [] := List.drop_eq_nil_of_le (by simp at h; omega)
    simp [hnil, natOf, wordOfBytes]

/-- The low bytes of a field. -/
theorem field_mod (b : List Byte) (o m n : Nat) : Machine.field b o (m + n) % 2 ^ (8 * m) = Machine.field b o m := by
  rw [field_add, Nat.add_mul_mod_self_left, Nat.mod_eq_of_lt (field_lt b o m)]

/-- The bytes of a field above its low ones. -/
theorem field_div (b : List Byte) (o m n : Nat) : Machine.field b o (m + n) / 2 ^ (8 * m) = Machine.field b (o + m) n := by
  rw [field_add, Nat.add_mul_div_left _ _ (by positivity), Nat.div_eq_of_lt (field_lt b o m), Nat.zero_add]

theorem netField_take (b : List Byte) {o k n : Nat} (h : o + k ≤ n) : netField (b.take n) o k = netField b o k := by
  simp only [netField, List.drop_take, List.take_take]
  rw [min_eq_left (by omega)]

/-! ### The datagram of a frame (R341) -/

theorem readFrame_short {fr : List Byte} (h : fr.length < 14 ∨ 9216 < fr.length) : readFrame fr = none := if_pos h

section
variable {fr : List Byte} (hlo : 14 ≤ fr.length) (hhi : fr.length ≤ 9216)
include hlo hhi

theorem readFrame_ipv4 (h : netField fr 12 2 = 0x0800) : readFrame fr = readIpv4 (fr.drop 14) := by
  simp [readFrame, h, not_lt.mpr hlo, not_lt.mpr hhi]

theorem readFrame_ipv6 (h : netField fr 12 2 = 0x86DD) : readFrame fr = readIpv6 (fr.drop 14) := by
  simp [readFrame, h, not_lt.mpr hlo, not_lt.mpr hhi]

theorem readFrame_tagged (h : netField fr 12 2 = 0x8100) (hlen : 18 ≤ fr.length) :
    (netField fr 16 2 = 0x0800 → readFrame fr = readIpv4 (fr.drop 18)) ∧
    (netField fr 16 2 = 0x86DD → readFrame fr = readIpv6 (fr.drop 18)) :=
  ⟨fun hty => by simp [readFrame, h, hty, not_lt.mpr hlo, not_lt.mpr hhi, not_lt.mpr hlen],
    fun hty => by simp [readFrame, h, hty, not_lt.mpr hlo, not_lt.mpr hhi, not_lt.mpr hlen]⟩

end

theorem readUdp_some {addrs u : List Byte} {v4 : Bool} {dg : Datagram} (h : readUdp addrs u v4 = some dg) :
    let n := netField u 4 2
    8 ≤ n ∧ n ≤ u.length ∧ dg.dstPort = netField u 2 2 ∧ dg.payload = (u.take n).drop 8 ∧ dg.fragment = false ∧
    (dg.badChecksum = true ↔ if netField u 6 2 = 0 then v4 = false
      else onesSum (addrs ++ (byteList 4 n).reverse ++ [0, 0, 0, 17] ++ u.take n) ≠ 0xFFFF) := by
  intro n
  rw [readUdp] at h
  split_ifs at h with hlen
  have hn : 8 ≤ n := by omega
  obtain rfl := Option.some.inj h
  refine ⟨hn, by omega, netField_take u (by omega), rfl, rfl, ?_⟩
  have hsum : netField (u.take (netField u 4 2)) 6 2 = netField u 6 2 := netField_take u (by omega)
  dsimp only
  rw [hsum]
  split <;> simp [n]

theorem readIpv4_some {b : List Byte} {dg : Datagram} (h : readIpv4 b = some dg) : netField b 0 1 / 16 = 4 ∧
    (dg.fragment = true ↔ netField b 6 2 % 2 ^ 14 ≠ 0) ∧
    (dg.fragment = false → dg.badChecksum = false → onesSum (b.take (4 * (netField b 0 1 % 16))) = 0xFFFF ∧ netField b 9 1 = 17 ∧
      readUdp ((b.drop 12).take 8) ((b.take (netField b 2 2)).drop (4 * (netField b 0 1 % 16))) true = some dg) := by
  simp only [readIpv4, bne_iff_ne] at h
  split_ifs at h with hhead hcut hsum hproto
  · obtain rfl := Option.some.inj h
    exact ⟨by omega, iff_of_true rfl hcut, by simp⟩
  · obtain rfl := Option.some.inj h
    exact ⟨by omega, iff_of_false Bool.false_ne_true hcut, by simp⟩
  · obtain ⟨-, -, -, -, hfragment, -⟩ := readUdp_some h
    exact ⟨by omega, iff_of_false (by simp [hfragment]) hcut, fun _ _ => ⟨not_not.mp hsum, not_not.mp hproto, h⟩⟩

theorem readIpv6_udp {b : List Byte} (hversion : netField b 0 1 / 16 = 6) (hlen : netField b 4 2 + 40 ≤ b.length)
    (hnext : netField b 6 1 = 17) :
    readIpv6 b = readUdp ((b.drop 8).take 32) ((b.drop 40).take (netField b 4 2)) false := by
  have hlen' : ¬b.length < 40 + netField b 4 2 := by omega
  simp [readIpv6, readIpv6Next, hversion, hnext, hlen']

/-! ### The well frame in it (R342) -/

theorem wellFrame_iff {wl sb : Nat} {b : List Byte} {f c : Nat} : wellFrame wl sb b = some (f, c) ↔
    24 ≤ b.length ∧ Machine.field b 0 2 = 0x5746 ∧ Machine.field b 2 1 % 64 = wl ∧
    Machine.field b 2 1 / 64 = 0 ∧ Machine.field b 3 1 = 1 ∧ Machine.field b 4 4 = c ∧ 1 ≤ c ∧ c * sb = b.length - 24 ∧
    Machine.field b 8 8 = f ∧ Machine.field b 0x10 8 / 2 ^ 4 % 2 ^ 4 = 0 ∧ Machine.field b 0x10 8 / 2 ^ 9 = 0 := by
  have hhead := field_add b 0 2 2
  have hnext := field_add b 2 1 1
  have h0 := field_lt b 0 2
  have h2 := field_lt b 2 1
  have h3 := field_lt b 3 1
  have hx := field_lt b 0x10 8
  norm_num at hhead hnext h0 h2 h3 hx
  have hkind : bits (Machine.field b 0 4) 0 16 = Machine.field b 0 2 := by simp only [bits]; omega
  have hwell : bits (Machine.field b 0 4) 16 6 = Machine.field b 2 1 % 64 := by simp only [bits]; omega
  have hzero : bits (Machine.field b 0 4) 22 2 = Machine.field b 2 1 / 64 := by simp only [bits]; omega
  have hversion : bits (Machine.field b 0 4) 24 8 = Machine.field b 3 1 := by simp only [bits]; omega
  have hhigh : bits (Machine.field b 0x10 8) 9 55 = Machine.field b 0x10 8 / 2 ^ 9 := by simp only [bits]; omega
  have hlow : bits (Machine.field b 0x10 8) 4 4 = Machine.field b 0x10 8 / 2 ^ 4 % 2 ^ 4 := rfl
  simp only [wellFrame, hkind, hwell, hzero, hversion, hhigh, hlow, Option.ite_none_right_eq_some, Option.some.injEq,
    Prod.mk.injEq]
  constructor
  · rintro ⟨⟨hlen, hk, hw, hz, hv, hc, hsize, hl, hh⟩, hf, rfl⟩
    exact ⟨hlen, hk, hw, hz, hv, rfl, hc, hsize, hf, hl, hh⟩
  · rintro ⟨hlen, hk, hw, hz, hv, rfl, hc, hsize, hf, hl, hh⟩
    exact ⟨⟨hlen, hk, hw, hz, hv, hc, hsize, hl, hh⟩, hf, rfl⟩

theorem ingestWell_none (s : State) (port : Nat) : ingestWell s port = none ↔
    ∀ p ∈ s.wells, ¬(p.2.state = .armed ∧ port ≠ 0 ∧ p.2.ingp.toNat = port) := by
  simp only [ingestWell, Option.map_eq_none_iff, List.find?_eq_none, Bool.and_eq_true, beq_iff_eq, bne_iff_ne, and_assoc]

/-! ### A frame of an ingest port (R341, R355) -/

section
variable {s : State} {port : Nat} {fr : List Byte}

theorem ingestFrame_none (h : (s.link (13 + port)).carries = false ∨ readFrame fr = none) :
    exec (.ingestFrame port fr) s = .next s := by
  rcases h with h | h <;> simp [exec_ingestFrame, execIngestFrame, h]

variable (hup : (s.link (13 + port)).carries = true) {dg : Datagram} (hdg : readFrame fr = some dg)
include hup hdg

theorem ingestFrame_dropped (h : dg.fragment = true ∨ dg.badChecksum = true ∨ ingestWell s dg.dstPort = none) :
    exec (.ingestFrame port fr) s = .next (dropFlits s (13 + port) 1) := by
  rcases h with h | h | h <;> simp [exec_ingestFrame, execIngestFrame, hup, hdg, h]

variable (hwhole : dg.fragment = false) (hsum : dg.badChecksum = false) {wl : Nat} (hwl : ingestWell s dg.dstPort = some wl)
include hwhole hsum hwl

theorem ingestFrame_noWellFrame (h : wellFrame wl (s.well wl).sbytes dg.payload = none) :
    exec (.ingestFrame port fr) s = .next (dropFlits s (13 + port) 1) := by
  simp [exec_ingestFrame, execIngestFrame, hup, hdg, hwhole, hsum, hwl, h]

variable {f c : Nat} (hfc : wellFrame wl (s.well wl).sbytes dg.payload = some (f, c))
include hfc

theorem ingestFrame_past (h : 2 ^ 63 ≤ f + c) : exec (.ingestFrame port fr) s = .next (dropFlits s (13 + port) 1) := by
  simp only [exec_ingestFrame, execIngestFrame, hup, hdg, hwhole, hsum, hwl, hfc, if_pos h, Bool.not_true, Bool.or_self,
    Bool.false_eq_true, if_false]

theorem ingestFrame_reaches (h : f + c < 2 ^ 63) :
    exec (.ingestFrame port fr) s = .next (ingestFrame s (13 + port) wl f c (dg.payload.drop 24)) := by
  simp only [exec_ingestFrame, execIngestFrame, hup, hdg, hwhole, hsum, hwl, hfc, if_neg (not_le.mpr h), Bool.not_true,
    Bool.or_self, Bool.false_eq_true, if_false]

end

/-- What the hub makes of a datagram of a well, whose buffer may be full while an extent is being copied. -/
theorem ingestFrame_cases (s : State) (k wl f c : Nat) (bs : List Byte) :
    let waits := ∃ x ∈ (s.well wl).exts, x.held = false
    let d := drawNat s
    let u := if waits then d.2 else s
    let taken := if f + c ≤ (s.well wl).head then addStale u wl c else frameStep u wl f (f + c) (some bs)
    ((¬waits ∨ d.1 % 2 = 0) → ingestFrame s k wl f c bs = taken) ∧
    (waits → d.1 % 2 = 1 → ingestFrame s k wl f c bs = dropFlits u k 1) := by
  intro waits d u taken
  have hwaits : ((s.well wl).exts.any fun x => !x.held) = true ↔ waits := by simp [waits]
  have hhead : (d.2.well wl).head = (s.well wl).head := rfl
  by_cases hw : waits
  · have hu : u = d.2 := if_pos hw
    have hgo : ingestFrame s k wl f c bs = if d.1 % 2 == 1 then dropFlits d.2 k 1
        else if f + c ≤ (d.2.well wl).head then addStale d.2 wl c else frameStep d.2 wl f (f + c) (some bs) := by
      rw [ingestFrame, if_pos (hwaits.mpr hw)]
    rw [hgo, hhead]
    refine ⟨fun h => ?_, fun _ hodd => ?_⟩
    · have heven : d.1 % 2 = 0 := h.resolve_left (not_not.mpr hw)
      simp only [taken, hu, heven]
      rfl
    · rw [hu, hodd]
      rfl
  · have hu : u = s := if_neg hw
    refine ⟨fun _ => ?_, fun h => absurd h hw⟩
    simp only [taken, hu]
    rw [ingestFrame, if_neg (mt hwaits.mp hw)]
    rfl

/-! ### What leaves HEAD alone -/

/-- HEAD of a well is as it was. -/
structure KeepsHead (wl : Nat) (s t : State) : Prop where
  head : (t.well wl).head = (s.well wl).head

theorem Well.noteWrite_head (pa len : Nat) (m : Mem) (w : Well) : (w.noteWrite pa len m).head = w.head := by
  unfold Well.noteWrite
  dsimp only
  split_ifs <;> rfl

theorem Well.noteWrite_port (pa len : Nat) (m : Mem) (w : Well) : (w.noteWrite pa len m).port = w.port := by
  unfold Well.noteWrite
  dsimp only
  split_ifs <;> rfl

/-- A store tells a well of itself and changes nothing else of it. -/
theorem memStore_well {β : Type} {g : Well → β} (hg : ∀ pa len m w, g (Well.noteWrite pa len m w) = g w) (s : State) (pa : Nat)
    (data : List Byte) (full : Option Bool) (wl : Nat) : g ((memStore s pa data full).well wl) = g (s.well wl) := by
  unfold memStore
  dsimp only
  split
  · rfl
  · exact (congrArg g (kget_mapValues s.wells (fun _ => Well.noteWrite (localPa pa) data.length
      (s.mem.writes (localPa pa) data)) wl {})).trans (hg ..)

theorem portWrite_port (s : State) (wl off : Nat) (bs : List Byte) :
    ((portWrite s wl off bs).well wl).port = (s.well wl).port := memStore_well (g := Well.port) Well.noteWrite_port ..

namespace KeepsHead

variable {wl : Nat} {s t u : State}

theorem refl (s : State) : KeepsHead wl s s := ⟨rfl⟩

theorem trans (h : KeepsHead wl s t) (h' : KeepsHead wl t u) : KeepsHead wl s u := ⟨h'.head.trans h.head⟩

theorem foldl {α : Type} {f : State → α → State} (hf : ∀ s a, KeepsHead wl s (f s a)) (as : List α) (s : State) :
    KeepsHead wl s (as.foldl f s) := by
  induction as generalizing s with
  | nil => exact refl s
  | cons a as ih => exact (hf s a).trans (ih (f s a))

theorem modWell (s : State) {f : Well → Well} (hf : ∀ w, (f w).head = w.head := by intro _; rfl) :
    KeepsHead wl s (s.modWell wl f) := ⟨by rw [State.well_modWell_same, hf]⟩

theorem memStore (s : State) (pa : Nat) (data : List Byte) (full : Option Bool) :
    KeepsHead wl s (Machine.memStore s pa data full) :=
  ⟨memStore_well (g := Well.head) Well.noteWrite_head ..⟩

theorem drawBytes (s : State) (va : Nat) (bs : List Byte) : KeepsHead wl s (Machine.drawBytes s wl va bs) :=
  foldl (f := fun s (p : Nat × List Byte) => Machine.memStore s p.1 p.2 none) (fun _ _ => memStore ..) _ s

theorem putRecord (s : State) (b : List Byte) : KeepsHead wl s (Machine.putRecord s wl b) := by
  have hwrap (v : State) (p : Prop) [Decidable p] (va : Nat) (bs : List Byte) :
      KeepsHead wl v (if p then Machine.drawBytes v wl va bs else v) := by
    split
    · exact drawBytes v va bs
    · exact refl v
  unfold Machine.putRecord
  dsimp only
  refine trans ?_ (drawBytes ..)
  refine trans ?_ (modWell _)
  exact trans (drawBytes ..) (hwrap ..)

theorem flushRecords (n : Nat) (s : State) : KeepsHead wl s (Machine.flushRecords wl n s) := by
  induction n generalizing s with
  | zero => exact refl s
  | succ n ih =>
    unfold Machine.flushRecords
    dsimp only
    split
    · exact refl s
    · split
      · exact refl s
      · refine trans ?_ (ih _)
        refine trans ?_ (putRecord ..)
        exact modWell s

theorem writeRecord (s : State) (b : List Byte) : KeepsHead wl s (Machine.writeRecord s wl b) := by
  refine trans ?_ (flushRecords ..)
  exact modWell s

theorem modClaims (s : State) (f : Claim → Claim) : KeepsHead wl s (Machine.modClaims s wl f) := modWell s

theorem modExtent (s : State) (no : Nat) (f : Extent → Extent) : KeepsHead wl s (Machine.modExtent s wl no f) :=
  modWell s

theorem loseSpan (s : State) (no : Nat) (f l : Int) : KeepsHead wl s (Machine.loseSpan s wl no f l) := by
  unfold Machine.loseSpan
  split
  · exact refl s
  · exact (modExtent ..).trans (modClaims ..)

theorem copySpan (s : State) (no : Nat) (f l : Int) : KeepsHead wl s (Machine.copySpan s wl no f l).2.2 := by
  have hlost := loseSpan (wl := wl) s no f (min l ((s.well wl).spill - 1))
  unfold Machine.copySpan
  dsimp only
  split
  · exact hlost
  · split
    · exact hlost
    · refine trans hlost ?_
      dsimp only
      split
      · exact refl _
      · exact putRecord ..

theorem copySpans (no : Nat) (ps : List (Int × Int)) (s : State) : KeepsHead wl s (Machine.copySpans wl no ps s).2.2 := by
  induction ps generalizing s with
  | nil => exact refl s
  | cons p ps ih => exact (copySpan s no p.1 p.2).trans (ih _)

theorem raiseCtxFault (s : State) (c code : Nat) : KeepsHead wl s (Machine.raiseCtxFault s c code) := by
  unfold Machine.raiseCtxFault
  dsimp only
  split
  · exact ⟨rfl⟩
  · exact refl s

theorem copyExtent (s : State) (x : Extent) : KeepsHead wl s (Machine.copyExtent s wl x) := by
  have hclaims (v : State) (p : Prop) [Decidable p] (f : Claim → Claim) :
      KeepsHead wl v (if p then Machine.modClaims v wl f else v) := by
    split
    · exact modClaims v f
    · exact refl v
  have hfault (v : State) (p : Prop) [Decidable p] (c : Nat) : KeepsHead wl v (if p then Machine.raiseCtxFault v c 2 else v) := by
    split
    · exact raiseCtxFault v c 2
    · exact refl v
  unfold Machine.copyExtent
  dsimp only
  refine trans ?_ (hfault ..)
  refine trans ?_ (hclaims ..)
  exact trans (copySpans ..) (modExtent ..)

theorem closeExtent (s : State) (no : Nat) : KeepsHead wl s (Machine.closeExtent s wl no) := by
  unfold Machine.closeExtent
  dsimp only
  split
  · exact refl s
  · split
    · exact refl s
    · refine trans ?_ (modWell _)
      exact trans (writeRecord ..) (modClaims ..)

theorem settleWell (s : State) : KeepsHead wl s (Machine.settleWell s wl) := by
  refine modWell s fun w => ?_
  split <;> rfl

theorem drawStep (s : State) : KeepsHead wl s (Machine.drawStep s wl) :=
  ((flushRecords _ s).trans (foldl (f := fun s (x : Extent) => Machine.closeExtent (Machine.copyExtent s wl x) wl x.no)
    (fun v x => (copyExtent v x).trans (closeExtent _ _)) _ _)).trans (settleWell _)

end KeepsHead

/-! ### HEAD advances (R346) -/

theorem setHead_eq (s : State) (wl e : Nat) : setHead s wl e = lookTriggers (touchMonitors
    (portWrite (s.modWell wl fun w => { w with head := e }) wl 0 (byteList 4 (e % 2 ^ 32))) (s.well wl).port 288) wl := by
  have hport : ((portWrite (s.modWell wl fun w => { w with head := e }) wl 0 (byteList 4 (e % 2 ^ 32))).well wl).port =
      (s.well wl).port := (portWrite_port ..).trans (by rw [State.well_modWell_same])
  rw [setHead, hport]

theorem setHead_head (s : State) (wl e : Nat) : ((setHead s wl e).well wl).head = e := by
  have hset : ((s.modWell wl fun w => { w with head := e }).well wl).head = e := by rw [State.well_modWell_same]
  have hkept (v : State) : KeepsHead wl v (portWrite v wl 0 (byteList 4 (e % 2 ^ 32))) :=
    .memStore v ((v.well wl).port + 0) (byteList 4 (e % 2 ^ 32)) (some true)
  have hlook (v : State) (pa : Nat) : (lookTriggers (touchMonitors v pa 288) wl).well wl = v.well wl := rfl
  rw [setHead_eq, hlook, (hkept _).head, hset]

theorem frameStep_head (s : State) (wl f e : Nat) (bs : Option (List Byte)) :
    ((frameStep s wl f e bs).well wl).head = e := by
  have hdead (v : State) (p : Prop) [Decidable p] (n : Nat) :
      KeepsHead wl v (if p then v.modWell wl fun x => { x with dead := x.dead + n } else v) := by
    split
    · exact .modWell v
    · exact .refl v
  unfold frameStep
  dsimp only
  rw [(KeepsHead.drawStep _).head, (hdead ..).head, setHead_head]

theorem lookTriggers_found {s : State} {k : Nat} {t : Trigger} (wl : Nat) (ht : kfind s.triggers k = some t) :
    kfind (lookTriggers s wl).triggers k = some (if t.kind = 1 ∧ t.well.toNat = wl then t.look s else t) := by
  refine (kfind_mapValues s.triggers
    (fun _ (x : Trigger) => if x.kind = 1 ∧ x.well.toNat = wl then x.look s else x) k).trans ?_
  rw [ht, Option.map_some]

/-! ### Publishes (R344, R348) -/

/-- How far a publish moves HEAD: the low words' difference (R348). -/
theorem low32_sub (v : W32) (n : Nat) : low32 ((v.toNat : Int) - n) = (v - BitVec.ofNat 32 n).toNat := by
  rw [low32, wrap_eq_toNat_ofInt]
  refine congrArg _ (BitVec.eq_of_toInt_eq ?_)
  rw [BitVec.toInt_ofInt, BitVec.toInt_sub, BitVec.toInt_eq_toNat_bmod, BitVec.toInt_ofNat', Int.bmod_sub_bmod,
    Int.sub_bmod_bmod]

section
variable {s : State} {wl : Nat}

theorem publish_none (h : (s.well wl).pubs = []) : exec (.publish wl) s = .next s := by
  simp only [exec_publish, execPublish, h]

section
variable {v : W32} {rest : List W32} (hpubs : (s.well wl).pubs = v :: rest)
include hpubs

theorem publish_disarmed (hstate : (s.well wl).state ≠ .armed) :
    exec (.publish wl) s = .next (s.modWell wl fun w => { w with pubs := rest }) := by
  simp [exec_publish, execPublish, hpubs, hstate]

variable (hstate : (s.well wl).state = .armed)
include hstate

theorem publish_armed : exec (.publish wl) s =
    let w := s.well wl
    let u := s.modWell wl fun w => { w with pubs := rest }
    let d := (v - BitVec.ofNat 32 w.head).toNat
    if 1 ≤ d ∧ d ≤ 2 ^ w.log2n ∧ d < 2 ^ 31 then
      .next (if w.head + d < 2 ^ 63 then frameStep u wl w.head (w.head + d) none else u)
    else .next (addStale u wl 1) := by
  simp only [exec_publish, execPublish, hpubs, hstate, low32_sub, Well.size, bne_self_eq_false, Bool.false_eq_true,
    if_false]

end

/-! ### Candidates (R251, R349) -/

theorem candidateWrite_none (h : (s.well wl).candIn = []) : exec (.candidateWrite wl) s = .next s := by
  simp only [exec_candidateWrite, execCandidateWrite, h]

/-- A ring that is not full has a free slot. -/
theorem freeSlot_free {cs : List Candidate} (h : cs.length < 256) :
    freeSlot cs < 256 ∧ ∀ c ∈ cs, c.slot ≠ freeSlot cs := by
  have hex : ∃ k ∈ List.range 256, k ∉ cs.map Candidate.slot := by
    by_contra hno
    push Not at hno
    have hsub : List.range 256 ⊆ cs.map Candidate.slot := hno
    have hlen := (List.nodup_range.subperm hsub).length_le
    simp only [List.length_range, List.length_map] at hlen
    omega
  obtain ⟨k, hk, hfree⟩ := hex
  cases hfind : (List.range 256).find? fun k => cs.all fun c => c.slot != k with
  | none =>
    refine absurd (List.find?_eq_none.mp hfind k hk) (not_not.mpr ?_)
    exact List.all_eq_true.mpr fun c hc => bne_iff_ne.mpr fun heq => hfree (List.mem_map.mpr ⟨c, hc, heq⟩)
  | some j =>
    have hslot : freeSlot cs = j := by rw [freeSlot, hfind]; rfl
    rw [hslot]
    refine ⟨List.mem_range.mp (List.mem_of_find?_eq_some hfind), fun c hc => ?_⟩
    have hall : (cs.all fun c => c.slot != j) = true := List.find?_some (p := fun k => cs.all fun c => c.slot != k) hfind
    exact bne_iff_ne.mp (List.all_eq_true.mp hall c hc)

section
variable {b : List Byte} {rest : List (List Byte)} (hcand : (s.well wl).candIn = b :: rest)
include hcand

theorem candidateWrite_disarmed (hstate : (s.well wl).state ≠ .armed) :
    exec (.candidateWrite wl) s = .next (s.modWell wl fun w => { w with candIn := rest }) := by
  simp [exec_candidateWrite, execCandidateWrite, hcand, hstate]

variable (hstate : (s.well wl).state = .armed)
include hstate

theorem candidateWrite_armed : exec (.candidateWrite wl) s =
    .next (enterCandidate (s.modWell wl fun w => { w with candIn := rest }) wl b) := by
  simp [exec_candidateWrite, execCandidateWrite, hcand, hstate]

theorem candidateWrite_full (hfull : (s.well wl).cands.length = 256) :
    exec (.candidateWrite wl) s = .next (reportLost
      ((s.modWell wl fun w => { w with candIn := rest }).modWell wl fun w => { w with causeR := true }) wl
        (BitVec.ofNat 64 (Machine.field b 0 8))) := by
  rw [candidateWrite_armed hcand hstate]
  refine congrArg _ (if_pos ?_)
  rw [State.well_modWell_same, hfull]

theorem candidateWrite_entered (hroom : (s.well wl).cands.length < 256) :
    ∃ slot, slot < 256 ∧ (∀ c ∈ (s.well wl).cands, c.slot ≠ slot) ∧
      exec (.candidateWrite wl) s = .next ((s.modWell wl fun w => { w with candIn := rest }).modWell wl fun w => { w with
        cands := w.cands ++ [{ slot := slot, seq := w.nextSeq, t := BitVec.ofNat 64 (Machine.field b 0 8)
                               score := BitVec.ofNat 32 (Machine.field b 8 4), pre := BitVec.ofNat 16 (Machine.field b 12 2)
                               cls := BitVec.ofNat 3 (Machine.field b 14 1) }]
        nextSeq := w.nextSeq + 1 }) := by
  obtain ⟨hlt, hfree⟩ := freeSlot_free hroom
  refine ⟨freeSlot (s.well wl).cands, hlt, hfree, ?_⟩
  have hx : Machine.field b 8 8 = Machine.field b 8 4 + 2 ^ 32 * (Machine.field b 12 2 + 2 ^ 16 * (Machine.field b 14 1 +
      2 ^ 8 * Machine.field b 15 1)) := by
    rw [field_add b 8 4 4, field_add b 12 2 2, field_add b 14 1 1]
  have h8 := field_lt b 8 4
  have h12 := field_lt b 12 2
  norm_num at hx h8 h12
  have hscore : BitVec.ofNat 32 (Machine.field b 8 8) = BitVec.ofNat 32 (Machine.field b 8 4) := by
    refine BitVec.eq_of_toNat_eq ?_
    simp only [BitVec.toNat_ofNat]
    omega
  have hpre : BitVec.ofNat 16 (Machine.field b 8 8 / 2 ^ 32) = BitVec.ofNat 16 (Machine.field b 12 2) := by
    refine BitVec.eq_of_toNat_eq ?_
    simp only [BitVec.toNat_ofNat]
    omega
  have hcls : BitVec.ofNat 3 (Machine.field b 8 8 / 2 ^ 48) = BitVec.ofNat 3 (Machine.field b 14 1) := by
    refine BitVec.eq_of_toNat_eq ?_
    simp only [BitVec.toNat_ofNat]
    omega
  have hlen : ¬((s.modWell wl fun w => { w with candIn := rest }).well wl).cands.length = 256 := by
    rw [State.well_modWell_same]
    exact hroom.ne
  rw [candidateWrite_armed hcand hstate]
  refine congrArg _ ((if_neg hlen).trans ?_)
  rw [hscore, hpre, hcls]
  simp only [State.modWell, State.well_setWell_same]

end

end

theorem bestCandidate_none {cs : List Candidate} : bestCandidate cs = none ↔ cs = [] := by
  cases cs with
  | nil => simp [bestCandidate]
  | cons c cs =>
    simp only [bestCandidate]
    split
    · simp
    · split <;> simp

/-- The best candidate is one of them, and none begins earlier. -/
theorem bestCandidate_some {cs : List Candidate} {c : Candidate} (h : bestCandidate cs = some c) :
    c ∈ cs ∧ ∀ d ∈ cs, c.first ≤ d.first := by
  induction cs generalizing c with
  | nil => exact absurd h (by simp [bestCandidate])
  | cons x cs ih =>
    simp only [bestCandidate] at h
    split at h
    · next hnone =>
      obtain rfl := Option.some.inj h
      obtain rfl := bestCandidate_none.mp hnone
      simp
    · next d hd =>
      obtain ⟨hmem, hmin⟩ := ih hd
      split at h
      · next hle =>
        obtain rfl := Option.some.inj h
        exact ⟨List.mem_cons_self, List.forall_mem_cons.mpr ⟨le_rfl, fun e he => hle.trans (hmin e he)⟩⟩
      · next hgt =>
        obtain rfl := Option.some.inj h
        exact ⟨List.mem_cons_of_mem _ hmem, List.forall_mem_cons.mpr ⟨(not_le.mp hgt).le, hmin⟩⟩

theorem wellFrames : WellFrames := by
  unfold WellFrames
  refine ⟨fun s port fr => ⟨ingestFrame_none, fun hup dg hdg => ⟨ingestFrame_dropped hup hdg, fun hwhole hsum wl hwl =>
      ⟨ingestFrame_noWellFrame hup hdg hwhole hsum hwl, fun f c hfc => ⟨ingestFrame_past hup hdg hwhole hsum hwl hfc,
        fun hlt => ?frame⟩⟩⟩⟩,
    fun fr => readFrame_short, fun fr hlo hhi => ⟨readFrame_ipv4 hlo hhi, readFrame_ipv6 hlo hhi, readFrame_tagged hlo hhi⟩,
    fun b dg => readIpv4_some, fun b => readIpv6_udp, fun addrs u v4 dg => readUdp_some, fun wl sb b f c => wellFrame_iff,
    ingestWell_none, frameStep_head, setHead_eq, fun s wl k t => lookTriggers_found wl, fun s wl v rest => ?publish,
    fun s wl => publish_none, fun s wl b rest => ?candidate, fun s wl => candidateWrite_none,
    fun cs c => bestCandidate_some, fun cs => bestCandidate_none⟩
  case frame =>
    rw [ingestFrame_reaches hup hdg hwhole hsum hwl hfc hlt]
    obtain ⟨htaken, hfull⟩ := ingestFrame_cases s (13 + port) wl f c (dg.payload.drop 24)
    exact ⟨fun h => congrArg _ (htaken h), fun hw hodd => congrArg _ (hfull hw hodd)⟩
  case publish =>
    intro w u d hpubs
    refine ⟨publish_disarmed hpubs, fun hstate h1 hsize hhalf hhead => ?_, fun hstate hno => ?_⟩
    · exact (publish_armed hpubs hstate).trans ((if_pos ⟨h1, hsize, hhalf⟩).trans (congrArg _ (if_pos hhead)))
    · exact (publish_armed hpubs hstate).trans (if_neg fun ⟨h1, hsize, hhalf⟩ =>
        hno.elim (Nat.one_le_iff_ne_zero.mp h1) fun h => h.elim (not_lt.mpr hsize) (not_le.mpr hhalf))
  case candidate =>
    intro w u hcand
    exact ⟨candidateWrite_disarmed hcand, candidateWrite_full hcand, candidateWrite_entered hcand⟩

/-! ### Verdicts (R252 to R254, R354) -/

section
variable {s : State} {wl ticket verdict : Nat}

/-- The candidate that a ticket names. -/
def ticketCandidate (w : Well) (ticket : Nat) : Option Candidate :=
  w.cands.find? fun c => c.slot == bits ticket 0 8 && c.seq.toNat == bits ticket 8 24

theorem judgeTicket_stale (h : ticket.testBit 63 = false ∨ (s.well wl).state ≠ .armed ∨
    ticketCandidate (s.well wl) ticket = none) : judgeTicket s wl ticket verdict = (0, s) := by
  rw [judgeTicket]
  split
  · next c hgo hc =>
    simp only [Bool.and_eq_true, decide_eq_true_eq, bits_one_eq_one_iff_testBit, beq_iff_eq] at hgo
    obtain h | h | h := h
    · exact absurd hgo.1 (by simp [h])
    · exact absurd hgo.2 h
    · exact absurd (h.symm.trans hc) (by simp)
  · rfl

variable (hbit : ticket.testBit 63 = true) (hstate : (s.well wl).state = .armed) {x : Candidate}
  (hx : ticketCandidate (s.well wl) ticket = some x)
include hbit hstate hx

theorem judgeTicket_live : judgeTicket s wl ticket verdict =
    let u := s.modWell wl fun w => { w with cands := w.cands.filter (fun d => d.slot != x.slot), causeR := false }
    if bits verdict 0 1 = 0 then (2 ^ 63 + 6 * 2 ^ 56, u)
    else claimWindow u wl x.cls.toNat x.t.toInt (if bits verdict 1 1 = 1 then bits verdict 32 16 else x.pre.toNat)
      (bits verdict 16 16) := by
  have hgo : (decide (bits ticket 63 1 = 1) && (s.well wl).state == .armed) = true := by
    simp [bits_one_eq_one_iff_testBit, hbit, hstate]
  have hc : ((s.well wl).cands.find? fun c => c.slot == bits ticket 0 8 && c.seq.toNat == bits ticket 8 24) = some x := hx
  rw [judgeTicket, hgo]
  simp only [hc]

theorem judgeTicket_rejected (hverdict : verdict.testBit 0 = false) : (judgeTicket s wl ticket verdict) =
    (2 ^ 63 + 6 * 2 ^ 56,
      s.modWell wl fun w => { w with cands := w.cands.filter (fun d => d.slot != x.slot), causeR := false }) :=
  (judgeTicket_live hbit hstate hx).trans (if_pos ((bits_one_eq_zero_iff_testBit verdict 0).mpr hverdict))

theorem judgeTicket_accepted (hverdict : verdict.testBit 0 = true) : judgeTicket s wl ticket verdict =
    claimWindow (s.modWell wl fun w => { w with cands := w.cands.filter (fun d => d.slot != x.slot), causeR := false }) wl
      x.cls.toNat x.t.toInt (if verdict.testBit 1 = true then bits verdict 32 16 else x.pre.toNat) (bits verdict 16 16) := by
  have hone : ¬bits verdict 0 1 = 0 := by
    rw [(bits_one_eq_one_iff_testBit verdict 0).mpr hverdict]
    decide
  refine (judgeTicket_live hbit hstate hx).trans ((if_neg hone).trans ?_)
  simp only [bits_one_eq_one_iff_testBit]

end

/-! ### Extents (R355, R360) -/

theorem mem_putExtent {x y : Extent} {xs : List Extent} : y ∈ putExtent x xs ↔ y = x ∨ y ∈ xs := by
  induction xs with
  | nil => simp [putExtent]
  | cons z xs ih =>
    simp only [putExtent]
    split
    · exact List.mem_cons
    · rw [List.mem_cons, ih, List.mem_cons, or_left_comm]

theorem mem_byNumber {y : Extent} {xs : List Extent} : y ∈ byNumber xs ↔ y ∈ xs := by
  induction xs with
  | nil => rfl
  | cons x xs ih => rw [byNumber, List.foldr_cons, mem_putExtent, List.mem_cons, ← ih, byNumber]

theorem putExtent_sorted {x : Extent} {xs : List Extent} (h : xs.Pairwise fun a b => a.no ≤ b.no) :
    (putExtent x xs).Pairwise fun a b => a.no ≤ b.no := by
  induction xs with
  | nil => simp [putExtent]
  | cons z xs ih =>
    obtain ⟨hz, hxs⟩ := List.pairwise_cons.mp h
    simp only [putExtent]
    split
    · next hle =>
      exact List.pairwise_cons.mpr ⟨List.forall_mem_cons.mpr ⟨hle, fun y hy => hle.trans (hz y hy)⟩, h⟩
    · next hgt =>
      refine List.pairwise_cons.mpr ⟨fun y hy => ?_, ih hxs⟩
      obtain rfl | hy := mem_putExtent.mp hy
      · exact (not_le.mp hgt).le
      · exact hz y hy

theorem byNumber_sorted (xs : List Extent) : (byNumber xs).Pairwise fun a b => a.no ≤ b.no := by
  induction xs with
  | nil => exact List.Pairwise.nil
  | cons x xs ih => exact putExtent_sorted ih

/-- The first of a sorted list that meets a test is the least that does. -/
theorem find_sorted_le {xs : List Extent} {p : Extent → Bool} {x y : Extent} (hsorted : xs.Pairwise fun a b => a.no ≤ b.no)
    (hfind : xs.find? p = some x) (hy : y ∈ xs) (hp : p y = true) : x.no ≤ y.no := by
  induction xs with
  | nil => exact absurd hy (by simp)
  | cons z xs ih =>
    obtain ⟨hz, hxs⟩ := List.pairwise_cons.mp hsorted
    rw [List.find?_cons] at hfind
    split at hfind
    · obtain rfl := Option.some.inj hfind
      exact List.forall_mem_cons (p := fun y => z.no ≤ y.no).mpr ⟨le_rfl, hz⟩ y hy
    · next hno =>
      obtain rfl | hy := List.mem_cons.mp hy
      · exact absurd hp (by simp [hno])
      · exact ih hxs hfind hy

theorem meetingExtent_some {w : Well} {cls : Nat} {lo hi : Int} {x : Extent} (h : meetingExtent w cls lo hi = some x) :
    x ∈ w.exts ∧ x.cls.toNat = cls ∧ x.a ≤ hi + 1 ∧ lo ≤ x.b + 1 ∧
    ∀ y ∈ w.exts, y.cls.toNat = cls → y.a ≤ hi + 1 → lo ≤ y.b + 1 → x.no ≤ y.no := by
  have hmeets := List.find?_some h
  simp only [Bool.and_eq_true, beq_iff_eq, decide_eq_true_eq] at hmeets
  obtain ⟨⟨hcls, ha⟩, hb⟩ := hmeets
  exact ⟨mem_byNumber.mp (List.mem_of_find?_eq_some h), hcls, ha, hb, fun y hy hycls hya hyb =>
    find_sorted_le (byNumber_sorted w.exts) h (mem_byNumber.mpr hy) (by simp [hycls, hya, hyb])⟩

theorem Extent.cut_within {last : Int} {x : Extent} (h : x.b ≤ last) : x.cut last = x := if_pos h

theorem Extent.cut_past {last : Int} {x : Extent} (h : last < x.b) :
    (x.cut last).b = last ∧ ∀ p ∈ (x.cut last).todo, p.2 ≤ last := by
  rw [Extent.cut, if_neg (not_le.mpr h)]
  refine ⟨rfl, fun p hp => ?_⟩
  obtain ⟨q, -, hq⟩ := List.mem_filterMap.mp hp
  split_ifs at hq
  obtain rfl := Option.some.inj hq
  exact min_le_right _ _

/-! ### Claims (R352 to R354, R358 to R360) -/

section
variable {s : State} {wl cls : Nat} {t : Int} {pre post : Nat}

theorem claimWindow_spilled (h : t + post < (s.well wl).spill) : ∃ u, claimWindow s wl cls t pre post =
    (2 ^ 63 + 5 * 2 ^ 56 + min (2 ^ 24 - 1) (pre + post + 1) * 2 ^ 32 + (s.well wl).nextId % 2 ^ 16, u) ∧
    (u.well wl).nextId = (s.well wl).nextId % 65535 + 1 ∧ (u.well wl).exts = (s.well wl).exts := by
  have hlost : (t + post - (t - pre) + 1).toNat = pre + post + 1 := by omega
  have hcode : (5 : BitVec 3).toNat = 5 := rfl
  have hgo : claimWindow s wl cls t pre post = let c : Claim :=
        { id := 0, state := 5, lostn := (t + post - (t - pre) + 1).toNat, lo := t - pre, hi := t + post, ext := 0 }
      ((issueClaim s wl c).1.word, (issueClaim s wl c).2) := if_pos h
  refine ⟨_, hgo.trans (congrArg (·, _) ?_), ?_, ?_⟩
  · simp only [issueClaim, Claim.word, satLost, hlost, hcode, BitVec.toNat_ofNat]
  · simp only [issueClaim, State.well_modWell_same]
  · simp only [issueClaim, State.well_modWell_same]

section
variable (hhi : (s.well wl).spill ≤ t + post)
include hhi

/-- A window that meets an extent of its class joins it. -/
theorem claimWindow_joins {x : Extent} (hmet : (if (s.well wl).merge.getLsbD cls = true then
      meetingExtent (s.well wl) cls (max (t - pre) (s.well wl).spill) (t + post) else none) = some x) :
    claimWindow s wl cls t pre post =
      drawClaim (modExtent s wl x.no fun y => y.join (max (t - pre) (s.well wl).spill) (t + post)) wl cls x
        (t - pre) (t + post) (max (t - pre) (s.well wl).spill) := by
  split_ifs at hmet with hmerge
  simp only [claimWindow, if_neg (not_lt.mpr hhi), hmet, hmerge]

section
variable (hmet : (if (s.well wl).merge.getLsbD cls = true then
  meetingExtent (s.well wl) cls (max (t - pre) (s.well wl).spill) (t + post) else none) = none)
include hmet

/-- One that meets none needs an extent of its own. -/
theorem claimWindow_alone : claimWindow s wl cls t pre post =
    if (s.well wl).maxext ≤ (s.well wl).exts.length then
      (2 ^ 63 + 7 * 2 ^ 56, reportLost (s.modWell wl fun w => { w with causeE := true }) wl (BitVec.ofInt 64 t))
    else drawClaim (s.modWell wl fun w => { w with
        exts := w.exts ++ [{ no := (s.well wl).nextExt, cls := BitVec.ofNat 3 cls, a := max (t - pre) (s.well wl).spill
                             b := t + post, todo := [(max (t - pre) (s.well wl).spill, t + post)] }]
        nextExt := (s.well wl).nextExt % 65535 + 1 }) wl cls
      { no := (s.well wl).nextExt, cls := BitVec.ofNat 3 cls, a := max (t - pre) (s.well wl).spill, b := t + post
        todo := [(max (t - pre) (s.well wl).spill, t + post)] } (t - pre) (t + post) (max (t - pre) (s.well wl).spill) := by
  rw [claimWindow]
  refine (if_neg (not_lt.mpr hhi)).trans ?_
  dsimp only
  split
  · next x hx hmerge => exact absurd hmet (by simp [hx, hmerge])
  · rfl

theorem claimWindow_refused (hfull : (s.well wl).maxext ≤ (s.well wl).exts.length) : claimWindow s wl cls t pre post =
    (2 ^ 63 + 7 * 2 ^ 56, reportLost (s.modWell wl fun w => { w with causeE := true }) wl (BitVec.ofInt 64 t)) :=
  (claimWindow_alone hhi hmet).trans (if_pos hfull)

theorem claimWindow_opens (hroom : (s.well wl).exts.length < (s.well wl).maxext) :
    let x : Extent := { no := (s.well wl).nextExt, cls := BitVec.ofNat 3 cls, a := max (t - pre) (s.well wl).spill
                        b := t + post, todo := [(max (t - pre) (s.well wl).spill, t + post)] }
    claimWindow s wl cls t pre post =
      drawClaim (s.modWell wl fun w => { w with exts := w.exts ++ [x], nextExt := w.nextExt % 65535 + 1 }) wl cls x
        (t - pre) (t + post) (max (t - pre) (s.well wl).spill) :=
  (claimWindow_alone hhi hmet).trans (if_neg (not_le.mpr hroom))

end

end

end

/-! ### Copies (R355, R356, R360) -/

section
variable {s : State} {wl : Nat}

theorem rdposWrite_none (h : (s.well wl).rdIn = []) : exec (.rdposWrite wl) s = .next s := by
  simp only [exec_rdposWrite, execRdposWrite, h]

theorem rdposWrite_taken {v : W64} {rest : List W64} (h : (s.well wl).rdIn = v :: rest) :
    exec (.rdposWrite wl) s = .next (s.modWell wl fun x => { x with
      rdIn := rest
      rdpos := if (s.well wl).rdpos ≤ v.toNat ∧ v.toNat ≤ (s.well wl).wrpos then v.toNat else (s.well wl).rdpos }) := by
  simp only [exec_rdposWrite, execRdposWrite, h]

theorem drawCopy_closed (h : (s.well wl).state = .closed) : exec (.drawCopy wl) s = .next s := by
  simp [exec_drawCopy, execDrawCopy, h]

theorem drawCopy_open (h : (s.well wl).state ≠ .closed) : exec (.drawCopy wl) s = .next (drawStep s wl) := by
  simp [exec_drawCopy, execDrawCopy, h]

theorem settleWell_closed (hstate : (s.well wl).state = .closing) (hexts : (s.well wl).exts = []) (hrecs : (s.well wl).recs = []) :
    ((settleWell s wl).well wl).state = .closed := by
  simp [settleWell, hstate, hexts, hrecs]

theorem settleWell_closing (hstate : (s.well wl).state = .closing) (h : (s.well wl).exts ≠ [] ∨ (s.well wl).recs ≠ []) :
    ((settleWell s wl).well wl).state = .closing := by
  rcases h with h | h <;> simp [settleWell, hstate, h]

/-- A span that has spilled whole is lost. -/
theorem copySpan_spilled {no : Nat} {f l : Int} (hl : l < (s.well wl).spill) :
    (copySpan s wl no f l).1 = none ∧ (copySpan s wl no f l).2.2 = loseSpan s wl no f l := by
  have hgone : min l ((s.well wl).spill - 1) = l := min_eq_left (by omega)
  have hpast : l < max f (s.well wl).spill := lt_max_of_lt_right hl
  simp only [copySpan, hgone, if_pos hpast, and_self]

end

theorem claims : Claims := by
  unfold Claims
  refine ⟨fun s wl ticket verdict => ⟨judgeTicket_stale, fun hbit hstate x hx =>
      ⟨judgeTicket_rejected hbit hstate hx, judgeTicket_accepted hbit hstate hx⟩⟩,
    fun s wl cls t pre post => ⟨claimWindow_spilled, claimWindow_refused, ?_, fun hhi x => claimWindow_joins hhi⟩,
    fun w cls lo hi x => meetingExtent_some, fun x lo hi => ⟨rfl, rfl⟩, fun c no f l => rfl,
    fun s wl => ⟨drawCopy_closed, drawCopy_open⟩, fun s wl v rest => rdposWrite_taken, fun s wl => rdposWrite_none,
    fun last x => ⟨Extent.cut_within, Extent.cut_past⟩, fun s wl => ⟨settleWell_closed, settleWell_closing⟩,
    fun s wl no f l hl _ => copySpan_spilled hl⟩
  exact claimWindow_opens

/-- Settles O52, from `wellFrames` (a frame reaches its well or is dropped, by cases of the ingest test; HEAD after a frame
step, since nothing but `setHead` moves it) and `claims` (a verdict's claim, by cases of its window against SPILL and the
open extents). -/
theorem wellEvents : Obligations.WellEvents := ⟨wellFrames, claims⟩

end Sys2Proof.Machine
end
